-- ==== Sys2Proof/Word.lean ====
section
/-! DEFINITION. The words of the module: bytes, byte sequences and keyed data. -/

namespace Sys2Proof

/-- A byte. -/
abbrev Byte := BitVec 8

/-- Bytes in address order (R8: the least significant byte of a value first). -/
abbrev Bytes := List Byte

/-- Sparse data: keys strictly rising, a key at most once. -/
abbrev Map (α : Type) := List (Nat × α)

end Sys2Proof
end

