-- ==== Sys2Proof/Syntax.lean ====
section
/-! DEFINITION. The commands of the block: one constructor of `Instr` for each row of the table of operations and events
(opcode_table.json), with what the outside world brings along as operands. Indices of dies, cores, rings, ports, lanes
and slots are bounded by their types; `Instr.wellFormed` checks the rest. -/

namespace Sys2Proof

/-- Die 0 or die 1. -/
abbrev Die := Fin 2

/-- One of the 48 compute cores (R33). -/
structure CoreRef where
  die : Die
  core : Fin 24
deriving DecidableEq, Repr

/-- Who acts (R605, R674): the master codes of REFUSED and MASTER records. -/
inductive Master where
  | presence | management | host | firmware | engine | debug
deriving DecidableEq, Repr

/-- The rival of an action: the master of a contradictory action that came in the same Dome cycle, or that came
while neither action was acknowledged (R607). -/
abbrev Rival := Option Master

/-- Who accesses a register: a master, and for firmware the die whose control core it runs on (R616). The other masters' accesses enter
at die 0 (R34). -/
structure Sender where
  master : Master
  die : Die
deriving DecidableEq, Repr

/-- Who acts, and who contradicts the action (R607). -/
structure Actor where
  master : Master
  rival : Rival
deriving DecidableEq, Repr

/-- The levels of the module's filtered and reset inputs (R641, R818, R821). -/
structure PinLevels where
  loc : BitVec 16
  presN : Bool
  sealClosed : Bool
  pwrbrkN : Bool
  perstN : Bool
deriving DecidableEq, Repr

/-- What the row and sector checks met while a command read memory (R387, R389, R426, R427): rows or sectors that passed
their re-read, the first address whose row failed both reads, and partial writes whose merge read failed twice. -/
structure MemFaults where
  rereads : List Nat
  failAt : Option Nat
  mergeFails : List Nat
  /-- rows or sectors whose merge read passed its re-read (R388, R427) -/
  mergeRereads : List Nat
  /-- sectors whose on-die ECC severity was corrected, and uncorrected (R428) -/
  corrected : List Nat
  uncorrected : List Nat
  /-- sectors whose command needed a second or third parity attempt (R420, R429) -/
  parity : List Nat
  /-- rows or sectors whose bytes and code a corruption left in the relation of a poison code (R845) -/
  inverse : List Nat
  /-- sectors whose write failed its third parity attempt (R420) -/
  writeFails : List Nat
deriving DecidableEq, Repr

/-- No check failed. -/
def MemFaults.none : MemFaults := ⟨[], Option.none, [], [], [], [], [], [], []⟩

/-- The on-die ECC severity of a read (R428). -/
inductive Severity where
  | none | corrected | uncorrected
deriving DecidableEq, Repr

/-- What one read of a sector meets: its failed parity attempts, of which the third fails the read, its CRC-16, and the severity that
the stack reports with the data (R420, R426, R428). -/
structure ReadTry where
  parity : Fin 4
  crcBad : Bool
  severity : Severity
deriving DecidableEq, Repr

/-- The read has failed (R420, R426, R428). -/
def ReadTry.fails (t : ReadTry) : Bool := t.parity = 3 || t.crcBad || t.severity = .uncorrected

/-- What the checked read of a sector meets: the read, the re-read where the read has failed, and whether a corruption left the sector's
bytes and code in the relation of a poison code (R426, R845). -/
structure ReadOutcome where
  first : ReadTry
  second : ReadTry
  inverse : Bool
deriving DecidableEq, Repr

/-- Nothing is met. -/
def ReadTry.good : ReadTry := ⟨0, false, .none⟩
def ReadOutcome.clean : ReadOutcome := ⟨.good, .good, false⟩

/-- A CRC-16, or with `uncorrected` a severity, that fails on the read alone, and one that fails on the re-read too (R426, R428). -/
def ReadTry.bad (uncorrected : Bool) : ReadTry := ⟨0, true, if uncorrected then .uncorrected else .none⟩
def ReadOutcome.reread (uncorrected : Bool) : ReadOutcome := ⟨.bad uncorrected, .good, false⟩
def ReadOutcome.failed (uncorrected : Bool) : ReadOutcome := ⟨.bad uncorrected, .bad uncorrected, false⟩

/-- An LFP packet: the header fields of R516 and the payload. -/
structure Packet where
  kind : Nat
  vc : Nat
  epoch : Nat
  dst : Nat
  src : Nat
  flow : Nat
  fseq : Nat
  hops : Nat
  sel0 : Nat
  sel1 : Nat
  sel2 : Nat
  mark : Bool
  detour : Bool
  aux : Nat
  stamp : Nat
  word : Nat
  payload : Bytes
deriving DecidableEq, Repr

/-- A flit as received (R511): its 256 bytes, and beside a nak the symbols that the forward error correction corrected on each lane,
lane 0 first, over the codewords of the failed flit (R735). -/
structure Flit where
  data : Bytes
  corrected : List Nat
deriving DecidableEq, Repr

/-- What a multicast's destination works with, which the sender's command gives and no packet carries (R481, R492; log entry 22):
the destination base, the bytes in all, the near object, and the fields of the sender's command that its digest is formed of. -/
structure McastRun where
  dst : Nat
  total : Nat
  recv : Nat
  members : Nat
  stripes : Nat
  run : Nat
deriving DecidableEq, Repr

/-- A detected failure that starts a replay (R273, R281): the row of R273 (1 to 8), the bundle of the command it is
attributed to, the schedule cycle of its detection, the array (0 to 3) where one is meant, whether the failed item is
poisoned (R845), whether it came from a residue or duplicated-unit check (R736), and for a row of memory or a line of an
operand buffer the address or line; for a check of a spill (row 2), its accumulator entry. -/
structure Failure where
  row : Nat
  bundle : Nat
  cycle : Nat
  array : Option (Fin 4)
  poisoned : Bool
  margin : Bool
  addr : Option Nat
deriving DecidableEq, Repr

/-- Why an engine tries again: an item recomputed after a residue or duplicated-unit check, a side of a root recomputed after a row of
the root store failed both its reads, or a row of the root store that passed its re-read (R327, R364, R365, R736). -/
inductive RetryKind where
  | unit | side | store
deriving DecidableEq, Repr

/-- One retry of an engine: the group of an update command it belongs to, or the cycle of an IROOT from its start, and its slip
cycles. -/
structure Retry where
  place : Nat
  cycles : Nat
  kind : RetryKind
deriving DecidableEq, Repr

/-- What an engine command meets while it runs: the checks of its memory reads, the slip cycles of each row or sector that is
read again, the slip cycles by which the inputs of a group arrive late, and the retries (R227, R327, R362, R365). For an update
command group 0 stands for what comes before its groups, the header and the constants, and group g for its group g − 1. -/
structure EngineRun where
  mf : MemFaults
  delays : List (Nat × Nat)
  late : List (Nat × Nat)
  retries : List Retry
deriving DecidableEq, Repr

/-- Nothing late, nothing failed. -/
def EngineRun.clean : EngineRun := ⟨MemFaults.none, [], [], []⟩

/-- What the port of an operand buffer meets (R135): the lines that pass their re-read, the first line whose re-read fails, and the
lines whose bytes and code a corruption left in the relation of a poison code (R845), each with the slip cycles of its re-read. -/
structure LineFaults where
  rereads : List (Nat × Nat)
  failAt : Option (Nat × Nat)
  inverse : List (Nat × Nat)
deriving DecidableEq, Repr

/-- No line failed. -/
def LineFaults.none : LineFaults := ⟨[], Option.none, []⟩

/-- The parity checks of a tile's load (R140, R150, R153): the column whose transit check failed, and the broadcast loads that
failed one after another. -/
structure LoadFaults where
  transit : Option (Fin 128)
  broadcast : Fin 4
deriving DecidableEq, Repr

/-- No parity check failed. -/
def LoadFaults.none : LoadFaults := ⟨Option.none, 0⟩

/-- Which filtered input (R641). -/
inductive FilteredInput where
  | loc | pres | sealLoop | pwrbrk
deriving DecidableEq, Repr

/-- The raw level of a filtered input and the Dome cycles for which it has held that level without a break (R641, R642). For one wire
bit 0 of the level counts. -/
structure InputLevel where
  level : BitVec 16
  cycles : Nat
deriving DecidableEq, Repr

/-- A reading of a die's voltage sensors: the mV by which the lowest reads below nominal, and the ns for which none has read lower
(R704). -/
structure DroopReading where
  die : Die
  below : Nat
  ns : Nat
deriving DecidableEq, Repr

/-- Why a port fails (R547). -/
inductive PortFailCause where
  | lockLoss | exhausted (seq : BitVec 12)
deriving DecidableEq, Repr

/-- What a patrol-scrub read found at one sector of its 64 (R440). -/
structure ScrubFinding where
  index : Fin 64
  outcome : ReadOutcome
deriving DecidableEq, Repr

/-! ## What commands meet beside their own operands -/

/-- A register write: its value; where it enables die 0's management ring, whether the write of a report that is owed succeeds (R774);
where it starts a companion, what the read of the image meets (R387, R426); and for firmware the control core of its die whose
mtimecmp it writes, which has no offset in BAR0 (R618). -/
structure BusWrite where
  value : Nat
  reportOk : Bool
  mf : MemFaults
  timer : Option (Fin 8)
deriving DecidableEq, Repr

/-- What a companion program does that R622 to R624 may stop: a load of some bytes, a store of them, each with what its memory meets; a
fetch; a read or write of a register block; a read or write of a CSR; an access to a range that a PMP entry of firmware protects; or a
call of a service. -/
inductive CompAct where
  | load (len : Nat) (mf : MemFaults)
  | store (data : Bytes) (mf : MemFaults)
  | fetch
  | register
  | csr (number : Nat) (write : Bool)
  | pmp
  | call (service : Nat)
deriving DecidableEq, Repr

/-- A ring's size, and whether the write of a resource report that is owed succeeds (R574, R774). -/
structure RingSize where
  size : Nat
  reportOk : Bool
deriving DecidableEq, Repr

/-- A companion slot to start, and what the read of its image meets (R387, R426, R621). -/
structure SlotStart where
  slot : Fin 4
  mf : MemFaults
deriving DecidableEq, Repr

/-- What a replay acts on: the failures that checks report, the carried FEEDs whose bytes have all arrived (R282), what the reads
that the pause makes meet (R227, R281), and the failures that checks report during the pause, each with the number of its pause
cycle. -/
structure ReplayCase where
  failures : List Failure
  arrived : List Nat
  mf : MemFaults
  inPause : List (Nat × Failure)
deriving DecidableEq, Repr

/-- The end of a replay's pause: its cycles, what the fetch unit meets as it refills the stream buffer, and the bundles that come
late (R249, R284, R851). -/
structure PauseEnd where
  cycles : Nat
  mf : MemFaults
  late : List (Nat × Nat)
deriving DecidableEq, Repr

/-- A held WAIT by its place among those of the unit, and the arithmetic cycles for which it has frozen a core (R267, R467). -/
structure WaitEnd where
  position : Nat
  cycles : Nat
deriving DecidableEq, Repr

/-- The channel of a flow whose packet goes out; and what a chain packet over the span bridge meets there: the failed residue checks
of its sums, and its memory reads and writes (R35, R491). -/
structure InjectCase where
  vc : Fin 8
  failedAdds : List (Fin 4)
  mf : MemFaults
deriving DecidableEq, Repr

/-- A multicast's destination side, and what its writes meet (R388, R492). -/
structure McastCase where
  run : McastRun
  mf : MemFaults
deriving DecidableEq, Repr

/-- What an object's action depends on: whether the supply is low (R799), and its rival (R607). -/
structure ObjectCase where
  supplyLow : Bool
  rival : Rival
deriving DecidableEq, Repr

/-- An access of the debug port: the byte of a write, or none for a read; and what it meets (R387 to R389). -/
structure DebugCase where
  write : Option Byte
  mf : MemFaults
deriving DecidableEq, Repr

/-- A write over CXL.mem: its 64 bytes, and what it meets at the two sectors (R420, R431). -/
structure CxlWrite where
  data : Bytes
  mf : MemFaults
deriving DecidableEq, Repr

/-- The write of a completion record: whether it succeeds, and the sectors at which a zeroing that the completion waited for needed a
second or third parity attempt (R420, R429, R576). -/
structure RecordWrite where
  ok : Bool
  parity : List Nat
deriving DecidableEq, Repr

/-- The commands, in the table's order. -/
inductive Instr where
  -- resets and link (chapters 12, 17, 19)
  | por (pins : PinLevels) (train : List (BitVec 8))
  | perstAssert (train : List (BitVec 8))
  | perstDeassert (loc : InputLevel)
  | linkReset
  | linkUp (rate : BitVec 4) (width : BitVec 4) (flit256 : Bool)
  | cxlReset
  | d3hotEntry
  | cxlMemRead (addr : Nat) (first second : ReadOutcome)
  | cxlMemWrite (addr : Nat) (data : CxlWrite)
  | registerWrite (by_ : Sender) (offset : Nat) (size : Nat) (value : BusWrite)
  | unassignedAccess (by_ : Sender) (bar2 : Bool) (isWrite : Bool) (offset : Nat) (size : Nat) (value : Nat)
  | doorbell (die : Die) (ring : Fin 33) (value : BitVec 64)
  | consumerDoorbell (die : Die) (eph : Bool) (value : BitVec 64)
  | ringEnable (die : Die) (ring : Fin 35) (size : RingSize)
  | ringDisable (die : Die) (ring : Fin 35)
  | descriptorFetch (die : Die) (ring : Fin 33) (data : Option Bytes)
  | completionWrite (die : Die) (ring : Fin 33) (ok : RecordWrite)
  -- descriptors
  | install (c : CoreRef) (mf : MemFaults)
  | run (c : CoreRef)
  | layers (c : CoreRef) (mf : MemFaults)
  | transfer (die : Die) (ring : Fin 8) (hostData : Bytes) (mf : MemFaults)
  | fill (die : Die) (ring : Fin 8) (mf : MemFaults)
  | copy (die : Die) (ring : Fin 8) (mf : MemFaults)
  | reduceScatter (die : Die) (ring : Fin 8) (mf : MemFaults)
  | allGather (die : Die) (ring : Fin 8) (mf : MemFaults)
  | allReduce (die : Die) (ring : Fin 8) (mf : MemFaults)
  | multicast (die : Die) (ring : Fin 8)
  | collectiveRunStart (die : Die) (ring : Fin 8) (failedAdds : List (Fin 4)) (mf : MemFaults)
  | collectiveRunEnd (die : Die) (ring : Fin 8)
  | collectiveTimeout (die : Die) (ring : Fin 8)
  | jobBegin (train : List (BitVec 8)) (reportOk : Bool)
  | jobEnd
  | jobKill
  | residency
  | signalDescriptor (die : Die)
  | routeWrite (die : Die) (mf : MemFaults)
  | restart
  | setCap
  | clearCap
  | setCeiling
  | clearCeiling
  | nap
  | dark
  | lowPowerEntry
  | wake (train : List (BitVec 8))
  | darkWake (train : List (BitVec 8))
  | epochCommit (by_ : Sender) (die : Die) (value : BitVec 32)
  | epochSet (by_ : Sender) (die : Die) (value : BitVec 32)
  | sidSet (by_ : Sender) (die : Die) (value : BitVec 64)
  | icuPendWrite (by_ : Sender) (die : Die) (group : Fin 32) (value : BitVec 32) (sameCycle : BitVec 32)
  | icuMaskWrite (by_ : Sender) (die : Die) (group : Fin 32) (value : BitVec 32)
  | icuTargetWrite (by_ : Sender) (die : Die) (source : Fin 1024) (value : BitVec 32)
  | holdoffExpiry (die : Die) (group : Fin 32)
  | attentionPulse
  | attentionRepeat
  | companionStart (by_ : Sender) (die : Die) (slot : SlotStart)
  | companionStop (by_ : Sender) (die : Die) (slot : Fin 4)
  | companionFault (die : Die) (slot : Fin 4) (cause : CompAct) (addr : BitVec 64)
  | companionSignal (die : Die) (slot : Fin 4) (a1 : BitVec 64)
  | companionWait (die : Die) (slot : Fin 4) (a1 : BitVec 64)
  | companionExit (die : Die) (slot : Fin 4) (a1 : BitVec 64)
  | companionStamp (die : Die) (slot : Fin 4)
  | companionLog (die : Die) (slot : Fin 4) (a1 a2 : BitVec 64)
  -- streams
  | streamStart (c : CoreRef) (mf : MemFaults) (late : List (Nat × Nat))
  | streamComplete (c : CoreRef)
  | replayPoint (c : CoreRef)
  | feed (c : CoreRef) (late : Nat) (mf : MemFaults)
  | feedReadIssue (c : CoreRef) (bundle : Nat) (mf : MemFaults)
  | mload (c : CoreRef) (load : LoadFaults) (lines : LineFaults)
  | mpassMac (c : CoreRef) (lines : LineFaults)
  | mpassL1 (c : CoreRef) (lines : LineFaults)
  | mpassL2sq (c : CoreRef) (lines : LineFaults)
  | mpassMinplus (c : CoreRef) (lines : LineFaults)
  | mpassMaxplus (c : CoreRef) (lines : LineFaults)
  | mpassMaxmin (c : CoreRef) (lines : LineFaults)
  | mpassMatch (c : CoreRef) (lines : LineFaults)
  | plate (c : CoreRef)
  | drain (c : CoreRef) (er : EngineRun)
  | spill (c : CoreRef) (array : Fin 4) (er : EngineRun)
  | interlockRelease (c : CoreRef)
  | coreResume (c : CoreRef) (freezeCycles : Nat)
  | watchdogTimeout (c : CoreRef)
  | replay (c : CoreRef) (failures : ReplayCase)
  | replayResume (c : CoreRef) (pauseCycles : PauseEnd)
  | signal (c : CoreRef)
  | signalSend (c : CoreRef)
  | wait (c : CoreRef)
  | guard (c : CoreRef)
  | signalApply (die : Die) (mf : MemFaults)
  | waitArrive (die : Die) (mf : MemFaults)
  | waitTimeout (die : Die) (position : WaitEnd)
  -- vector engine
  | add (c : CoreRef) (er : EngineRun) | sub (c : CoreRef) (er : EngineRun) | mul (c : CoreRef) (er : EngineRun)
  | fma (c : CoreRef) (er : EngineRun) | div (c : CoreRef) (er : EngineRun) | sqrt (c : CoreRef) (er : EngineRun)
  | min (c : CoreRef) (er : EngineRun) | max (c : CoreRef) (er : EngineRun) | abs (c : CoreRef) (er : EngineRun)
  | neg (c : CoreRef) (er : EngineRun) | elemCopy (c : CoreRef) (er : EngineRun) | cmplt (c : CoreRef) (er : EngineRun)
  | cmpeq (c : CoreRef) (er : EngineRun) | cvt (c : CoreRef) (er : EngineRun) | exp2 (c : CoreRef) (er : EngineRun)
  | exp (c : CoreRef) (er : EngineRun) | log2 (c : CoreRef) (er : EngineRun) | log (c : CoreRef) (er : EngineRun)
  | rcp (c : CoreRef) (er : EngineRun) | rsqrt (c : CoreRef) (er : EngineRun) | tanh (c : CoreRef) (er : EngineRun)
  | sigmoid (c : CoreRef) (er : EngineRun) | sin (c : CoreRef) (er : EngineRun) | cos (c : CoreRef) (er : EngineRun)
  | erf (c : CoreRef) (er : EngineRun) | rmax (c : CoreRef) (er : EngineRun) | rmin (c : CoreRef) (er : EngineRun)
  | rsum (c : CoreRef) (er : EngineRun) | rsumsq (c : CoreRef) (er : EngineRun) | rscale (c : CoreRef) (er : EngineRun)
  | rsub (c : CoreRef) (er : EngineRun) | cadd (c : CoreRef) (er : EngineRun) | cmul (c : CoreRef) (er : EngineRun)
  | setr (c : CoreRef) (er : EngineRun) | loadr (c : CoreRef) (er : EngineRun) | storer (c : CoreRef) (er : EngineRun)
  | incr (c : CoreRef) (er : EngineRun) | irootSqrt (c : CoreRef) (er : EngineRun)
  | irootFourth (c : CoreRef) (er : EngineRun)
  -- update engine
  | update (c : CoreRef) (er : EngineRun)
  | uroot (c : CoreRef) (er : EngineRun)
  | almanacRequest (die : Die) (slot : Fin 16) (step : BitVec 64)
  | patrolScrub (h : Fin 384) (findings : List ScrubFinding)
  -- fabric
  | flitReceive (die : Die) (port : Fin 16) (flit : Flit)
  | creditFlit (die : Die) (port : Fin 16) (credits : List Nat)
  | linkControlFlit (die : Die) (port : Fin 16) (stratum : BitVec 4)
  | ledgerDurable
  | packetInject (die : Die) (flow : Nat) (dst : BitVec 17) (vc : InjectCase)
  | dataPacketReceive (die : Die) (port : Fin 16) (pkt : Packet) (failedAdds : List (Fin 4)) (mf : MemFaults)
  | mcastReceive (die : Die) (port : Fin 16) (pkt : Packet) (run : McastCase)
  | signalPacketReceive (die : Die) (port : Fin 16) (pkt : Packet)
  | abortReceive (die : Die) (port : Fin 16) (pkt : Packet)
  | ackReceive (die : Die) (port : Fin 16) (pkt : Packet) (vc : Fin 8)
  | mcastAckReceive (die : Die) (port : Fin 16) (pkt : Packet)
  | refuseReceive (die : Die) (port : Fin 16) (pkt : Packet)
  | fencedReceive (die : Die) (port : Fin 16) (pkt : Packet) (vc : Fin 8)
  | ackTimer (die : Die) (src : BitVec 17) (vc : Fin 8) (flow : Nat)
  | retransmitTimeout (die : Die) (flow : Nat) (dst : BitVec 17) (vc : Fin 8)
  | throttleRecover (die : Die) (port : Fin 16) (vc : Fin 8)
  | fabricFlush
  | laneLockLoss (die : Die) (port : Fin 16) (lane : Fin 8)
  | portFail (die : Die) (port : Fin 16) (cause : PortFailCause)
  | retrainComplete (die : Die) (port : Fin 16) (good : BitVec 8)
  | detourReinject (die : Die) (port : Fin 16)
  | laneRecalibrate (die : Die) (port : Fin 16) (lane : Fin 8) (idleSeen : Nat) (worse : Bool)
  | bridgeFlitReceive (group : Fin 64) (crcOk : Bool)
  | bridgeRecalibrate (group : Fin 64)
  -- sidereal time and records
  | siderealExchange
  | exchangeAnswer (t2 t3 : BitVec 64) (stratum : BitVec 4)
  | syncLossTimeout
  | bridgeTimeMeasure
  | timeoutPulse
  | timeinEdge
  | timeinMissing
  | telemetry
  | ephemerisFlush (die : Die) (ok : Bool)
  | eventFlush (die : Die) (ok : Bool)
  -- power
  | controlStep (energyMj : Nat)
  | dvfsStep (die : Die)
  | droopDetect (reading : DroopReading)
  | droopClear (reading : DroopReading)
  | overpowerStretch (watts : Nat)
  | heliostatEpoch
  | grantSend
  | thermalCeilingStep (hottest : BitVec 16)
  | thermalAlert (hottest : BitVec 16)
  | thermalCritical (hottest : BitVec 16)
  | powerBrake
  | brakeRelease
  | supplyBrake
  | supplyRecover
  | supplyLoss
  | supplyRestart (pins : PinLevels) (train : List (BitVec 8))
  | inputFilterAccept (input : FilteredInput) (level : InputLevel)
  | presenceExpiry
  -- trust
  | doeDiscovery (index : Nat)
  | identityUnit (by_ : Master)
  | identityAlias (by_ : Master)
  | attest (by_ : Master) (nonce : BitVec 256)
  | ledgerRead (by_ : Master) (index : Nat)
  | updateBegin (by_ : Master) (length : Nat) (digest : BitVec 512)
  | updateChunk (by_ : Master) (index : Nat) (crc : BitVec 32) (data : Bytes)
  | updateQuery (by_ : Master) (index : Nat)
  | updateAbandon (by_ : Actor)
  | updateActivate (by_ : Actor) (when_ : Nat) (supplyLow : Bool)
  | updateEndTrial (by_ : Actor)
  | imageVerified
  | bankProgrammed
  | activationStart
  | trialConfirm
  | trialFallback
  | setOwnerLock (by_ : Master)
  | clearOwnerLock (by_ : Master)
  | enrollOwnerKey (by_ : Master) (key : Bytes)
  | debugUnlock (by_ : Master)
  | rebindIdentity (by_ : Master)
  | factoryReset (by_ : Master)
  -- management connector
  | mgmtStatus (frame : Bytes)
  | mgmtSetCap (frame : Bytes)
  | mgmtNap (frame : Bytes)
  | mgmtDark (frame : Bytes)
  | mgmtWake (frame : Bytes)
  | mgmtJobKill (frame : Bytes)
  | mgmtTelemetry (frame : Bytes)
  | mgmtObject (frame : Bytes) (supplyLow : ObjectCase)
  | entdaa (addr : BitVec 7)
  | setdasa (addr : BitVec 7)
  | rstdaa
  | getpid
  | getbcr
  | getdcr
  | getstatus
  | getmwl
  | getmrl
  | laneLockRegain (die : Die) (port : Fin 16) (lane : Fin 8)
  | restartComplete
  | backInvalidateResponse (die : Die) (line : Nat)
  | configurationRequest
  | debugPortAccess (addr : Nat) (write : DebugCase)
  | mgmtPacketReceive (die : Die) (port : Fin 16) (pkt : Packet)
deriving DecidableEq, Repr

end Sys2Proof
end

