-- ==== Sys2Proof/Config.lean ====
section
/-! DEFINITION. The free values: what the manual leaves open and the module nevertheless produces. Each is a constant
without a body, so no proof can see what it is. Each is named in a row of notes/assumptions. -/

namespace Sys2Proof.Config

/-- Which result inside its error bound a special function returns (R312, R314): for the function's code and the binary32
input, an offset into the values the bound allows. Log entry 10. -/
opaque sfuChoice (op input : Nat) : Nat

/-- Which binary64 result within 1 ulp the Almanac's cos and exp2 return (R371), for the function (0 cos, 1 exp2) and the
input's bits. Log entry 10. -/
opaque almChoice (fn input : Nat) : Nat

/-- The controller's prediction of the power in W at a frequency in MHz, from the power measured in the last interval at
the frequency then in force (R698: its per-die voltage table is not given). Log entry 11. -/
opaque predictedPower (measured fromMhz toMhz : Nat) : Nat

/-- SHA3-512 of a byte sequence (R777, FIPS 202), 512 bits. Log entry 12. -/
opaque sha3 (message : Bytes) : Nat

/-- Verification of an ML-DSA-87 signature over a 512-bit digest under a public key (R777, FIPS 204). Log entry 12. -/
opaque mldsaVerify (key signature : Bytes) (digest : Nat) : Bool

/-- The ML-DSA-87 signature bytes by the key derived from the seed material (R783, R784). Log entry 12. -/
opaque mldsaSign (seed : Nat) (digest : Nat) : Bytes

/-- The public key derived from seed material (R783, R784). Log entry 12. -/
opaque mldsaPublic (seed : Nat) : Bytes

/-- The unit secret of die 0, 256 bits (R776). Log entry 3. -/
opaque unitSecret : Nat

/-- The vendor's certificate of the unit identity key, in write-once flash (R783). Log entry 3. -/
opaque unitCertificate : Bytes

/-- The alias certificate as the identity key signs it over the alias key and its inputs (R784: its encoding is not given). Log entry 12. -/
opaque aliasCertificate (aliasKey : Bytes) (inputs : Nat) : Bytes

/-- SHA3-512 digests of the fused vendor root keys, slots 0 to 3 (R776). Log entry 3. -/
opaque rootDigest (slot : Nat) : Nat

/-- The body digest of the firmware image programmed into a bank at manufacture. Log entry 3. -/
opaque factoryDigest (bank : Nat) : Nat

/-- The bytes of a settings copy that holds these values (R809: its layout is not given). Log entry 12. -/
opaque settingsImage (values : List Nat) : Bytes

/-- The digest of the boot ROM (R780, R786). Log entry 3. -/
opaque romDigest : Nat

/-- The on-die random source (R793 REBIND_IDENTITY): the k-th 32-byte draw. Log entry 13. -/
opaque randomDraw (k : Nat) : Nat

/-- The link's capability registers an I3C GETBCR, GETDCR or GETSTATUS returns (R827 names the codes, not the bytes): by CCC
number 0, 1, 2. Log entry 14. -/
opaque i3cCapability (ccc : Nat) : Nat

/-- Whether a fused multiply-add of an infinity, a zero and a quiet NaN raises invalid (R322; IEEE 754-2019 leaves it open).
Log entry 20. -/
opaque fmaInvalid : Bool

/-- The dst field of a multicast packet's header for a switch multicast group (R492, R516: the manual gives none). Log
entry 21. -/
opaque mcastDst (group : Nat) : Nat

/-- The code of the ephemeris record of a failed root (R349; the table of R674 gives none). Log entry 33. -/
opaque rootRecordCode : Nat

/-- The payload of that record: for the layer, the tile, the side (0 left, 1 right), both outcomes of R320 and the residual. Log
entry 33. -/
opaque rootRecordPayload (layer tile side first second residual : Nat) : Nat

/-- Flash blocks of the settings store beyond the five that its regions take (R756 and R808 give no block size). Log entry 124. -/
opaque flashSpare : Nat

/-- Which of the blocks it may erase the firmware takes for a write of the settings store, by write and attempt (R756). Log
entry 124. -/
opaque flashPick (write attempt : Nat) : Nat

/-- Whether a flash block fails its erase or its read-back, by write and attempt (R756). Log entry 124. -/
opaque flashFails (write attempt : Nat) : Bool

/-- Whether a power loss leaves the ledger record that was on its way to flash behind with a crc that fails, by a counter (R748, R750).
Log entry 152. -/
opaque tornRecord (k : Nat) : Bool

/-- Whether the firmware image in control memory still has the digest recorded at boot when a device restart checks it, by a counter
(R761). Log entry 47. -/
opaque imageIntact (k : Nat) : Bool

/-- The rate correction that follows from the one before and twice an offset, in parts of 2^32 (R658: the manual gives no formula). Log
entry 153. -/
opaque rateCorrection (old twice : Int) : Int

/-- The content of a link-control flit: a request for time or an answer with two stamps, and the stratum offered (R512, R653, R657: no
layout is given). Log entry 151. -/
opaque linkContent (answer : Bool) (stratum received sent : Nat) : Bytes

/-- The lanes of a module port that come up as the module leaves Nap where the wake has no command of its own, by a counter (R554, R687).
Log entry 156. -/
opaque lanesUp (k port : Nat) : BitVec 8

/-- The reset vector of the control cores (R761), and the entry point of an image (R780). Log entry 154. -/
opaque resetVector : Nat
opaque imageEntry (digest : Nat) : Nat

/-- A fresh value the manual leaves open (a counter of State makes each one new). Log entry 2. -/
opaque freeValue (k : Nat) : Nat

end Sys2Proof.Config
end

