-- ==== Sys2Proof/Machine/Bits.lean ====
section
/-! DEFINITION. Bit fields, byte order, checksums, and the operations on keyed data that everything else is written with. -/

namespace Sys2Proof

/-! ## Keyed data -/

/-- The value listed at key `k`. -/
def Map.find {α : Type} : Map α → Nat → Option α
  | [], _ => none
  | (k', v) :: t, k => if k' = k then some v else Map.find t k

/-- The value at key `k`, or `d` where none is listed. -/
def Map.getD {α : Type} (m : Map α) (k : Nat) (d : α) : α := (Map.find m k).getD d

/-- `m` with `v` at key `k`. -/
def Map.put {α : Type} : Map α → Nat → α → Map α
  | [], k, v => [(k, v)]
  | (k', v') :: t, k, v =>
    if k < k' then (k, v) :: (k', v') :: t
    else if k = k' then (k, v) :: t
    else (k', v') :: Map.put t k v

/-- `m` with nothing at key `k`. -/
def Map.del {α : Type} (m : Map α) (k : Nat) : Map α := m.filter fun e => e.1 ≠ k

/-- `m` without the keys that `p` holds of. -/
def Map.drop {α : Type} (m : Map α) (p : Nat → Bool) : Map α := m.filter fun e => !p e.1

/-- `m` with every value changed by `f`. -/
def Map.mapVals {α : Type} (m : Map α) (f : α → α) : Map α := m.map fun e => (e.1, f e.2)

/-- Keys strictly rising. -/
def Map.rising {α : Type} : Map α → Bool
  | [] => true
  | [_] => true
  | (k, _) :: (k', v) :: t => decide (k < k') && Map.rising ((k', v) :: t)

/-! ## Bit fields -/

/-- Bits [hi:lo] of `w` (R9). -/
def bits (w hi lo : Nat) : Nat := (w >>> lo) % 2 ^ (hi - lo + 1)

/-- Bit `i` of `w`. -/
def bitOf (w i : Nat) : Bool := w.testBit i

/-- `w` with bits [hi:lo] replaced by `v`. -/
def setBits (w hi lo v : Nat) : Nat :=
  w - (bits w hi lo) * 2 ^ lo + (v % 2 ^ (hi - lo + 1)) * 2 ^ lo

/-- 1 or 0. -/
def flagBit (b : Bool) : Nat := if b then 1 else 0

/-- The two's-complement value of an n-bit code (R76). -/
def signedOf (n v : Nat) : Int :=
  if v % 2 ^ n < 2 ^ (n - 1) then ((v % 2 ^ n : Nat) : Int) else ((v % 2 ^ n : Nat) : Int) - 2 ^ n

/-- The n-bit two's-complement code of an integer. -/
def codeOf (n : Nat) (i : Int) : Nat := (i % (2 ^ n : Int)).toNat

/-- Quotient rounded up. -/
def divCeil (a b : Nat) : Nat := (a + b - 1) / b

/-- A count that stops at its largest value. -/
def satAdd (width a b : Nat) : Nat := if a + b < 2 ^ width then a + b else 2 ^ width - 1

/-- An integer kept inside [lo, hi]. -/
def clampInt (lo hi i : Int) : Int := if i < lo then lo else if hi < i then hi else i

/-! ## Bytes (R8) -/

/-- The value of bytes in little-endian order. -/
def leNat : Bytes → Nat
  | [] => 0
  | b :: t => b.toNat + 256 * leNat t

/-- The n bytes of `v`, little-endian. -/
def leBytes : Nat → Nat → Bytes
  | 0, _ => []
  | n + 1, v => BitVec.ofNat 8 v :: leBytes n (v / 256)

/-- Bytes [i, i + n) of a byte sequence as a number. -/
def leAt (b : Bytes) (i n : Nat) : Nat := leNat ((b.drop i).take n)

/-- The byte sequence of a sparse map, 0 where nothing is listed. -/
def mapBytes (m : Map Byte) (base n : Nat) : Bytes := (List.range n).map fun i => Map.getD m (base + i) 0

/-- A byte put into a sparse map whose unlisted bytes read 0: zero bytes are not listed. -/
def putByte (m : Map Byte) (a : Nat) (b : Byte) : Map Byte := if b = 0 then Map.del m a else Map.put m a b

/-- Bytes put one after another from address `a`. -/
def putBytes (m : Map Byte) (a : Nat) : Bytes → Map Byte
  | [] => m
  | b :: t => putBytes (putByte m a b) (a + 1) t

/-- The canonical form of a byte store: keys strictly rising, no zero byte listed. -/
def bytesWf (m : Map Byte) : Bool := Map.rising m && m.all fun e => decide (e.2 ≠ 0)

/-! ## Checksums -/

/-- One bit of the reflected CRC-32 of R511. -/
def crc32Bit (c : Nat) : Nat := if c % 2 = 1 then (c / 2) ^^^ 0xEDB8_8320 else c / 2

/-- One byte of the CRC-32 of R511. -/
def crc32Byte (c : Nat) (b : Byte) : Nat :=
  crc32Bit (crc32Bit (crc32Bit (crc32Bit (crc32Bit (crc32Bit (crc32Bit (crc32Bit (c ^^^ b.toNat))))))))

/-- The CRC-32 of R511: polynomial 0x04C1_1DB7, initial value and final inversion all ones, input and output reflected. -/
def crc32 (bs : Bytes) : Nat := bs.foldl crc32Byte 0xFFFF_FFFF ^^^ 0xFFFF_FFFF

/-- One bit of the unreflected CRC-16 of R386 and R425. -/
def crc16Bit (c : Nat) : Nat := if 0x8000 ≤ c then ((2 * c) % 0x1_0000) ^^^ 0x1021 else 2 * c

/-- One byte of the CRC-16 of R386 and R425. -/
def crc16Byte (c : Nat) (b : Byte) : Nat :=
  crc16Bit (crc16Bit (crc16Bit (crc16Bit (crc16Bit (crc16Bit (crc16Bit (crc16Bit (c ^^^ (b.toNat * 256)))))))))

/-- The CRC-16 of R386 and R425: polynomial 0x1021, initial value 0xFFFF. -/
def crc16 (bs : Bytes) : Nat := bs.foldl crc16Byte 0xFFFF

/-- The check code of an SRAM row: its bytes, then its row index as 4 bytes (R386). -/
def rowCode (row : Bytes) (index : Nat) : Nat := crc16 (row ++ leBytes 4 index)

/-- The check code of an HBM sector: its bytes, then 8 bytes of h × 2^32 + sector index (R425). -/
def sectorCode (sector : Bytes) (h index : Nat) : Nat := crc16 (sector ++ leBytes 8 (h * 2 ^ 32 + index))

/-! ## Lists -/

/-- Whether a list of (base, length) style spans [a, a+n) and [b, b+m) share a byte. -/
def overlaps (a n b m : Nat) : Bool := decide (0 < n) && decide (0 < m) && decide (a < b + m) && decide (b < a + n)

/-- The list with element `i` replaced. -/
def setAt {α : Type} : List α → Nat → α → List α
  | [], _, _ => []
  | _ :: t, 0, v => v :: t
  | h :: t, i + 1, v => h :: setAt t i v

/-- Insert into a list of numbers without repeats. -/
def insertNew (l : List Nat) (n : Nat) : List Nat := if l.contains n then l else l ++ [n]

end Sys2Proof
end

