-- ==== Sys2Proof/Machine/Flags.lean ====
section
/-! DEFINITION. The five IEEE 754-2019 exception flags of the vector engine (R322, R331), the completion flags (R31) and
the completion status codes (R25). -/

namespace Sys2Proof.Machine

/-- The exceptions one operation raises. -/
structure Exc where
  invalid : Bool
  divZero : Bool
  overflow : Bool
  underflow : Bool
  inexact : Bool
deriving DecidableEq, Repr

/-- No exception. -/
def Exc.none : Exc := ⟨false, false, false, false, false⟩

/-- Exceptions of one operation or the other. -/
def Exc.or (a b : Exc) : Exc :=
  ⟨a.invalid || b.invalid, a.divZero || b.divZero, a.overflow || b.overflow, a.underflow || b.underflow,
   a.inexact || b.inexact⟩

/-- The bits of VEC_FLAGS (R331). -/
def Exc.bits (e : Exc) : Nat :=
  16 * flagBit e.invalid + 8 * flagBit e.divZero + 4 * flagBit e.overflow + 2 * flagBit e.underflow + flagBit e.inexact

/-- Only invalid. -/
def Exc.nv : Exc := ⟨true, false, false, false, false⟩

/-! Completion flags, by bit (R31). -/
def flagNonfinite : Nat := 1
def flagBoundLapsed : Nat := 2
def flagRecomputed : Nat := 4
def flagPrecondFallback : Nat := 8
def flagDegraded : Nat := 16
def flagFrozenSkipped : Nat := 32
def flagSlipped : Nat := 64

/-- A set of flags with the flags of mask `f` set too. -/
def setFlag (w : BitVec 16) (f : Nat) : BitVec 16 := w ||| BitVec.ofNat 16 f

/-! Completion status codes (R25). -/
def stOk : Nat := 0x00
def stEmpty : Nat := 0x01
def stPartial : Nat := 0x02
def stSuperseded : Nat := 0x03
def stRefused : Nat := 0x10
def stInvalid : Nat := 0x11
def stFenced : Nat := 0x12
def stReplayLost : Nat := 0x20
def stDataLost : Nat := 0x21
def stLinkLost : Nat := 0x22
def stTimeout : Nat := 0x23
def stJobKilled : Nat := 0x30

end Sys2Proof.Machine
end

