-- ==== Sys2Proof/Machine/Regs.lean ====
section
/-! DEFINITION. The register map: every register the manual's register tables name (R52, R168, R235, R288, R330, R372,
R376, R412, R446, R500, R503, R558, R610, R615, R643, R644, R683, R686, R727, R729, R810), with the fields, access codes
(R20), reset values (R21) and lifetime codes (R22) of those tables. -/

namespace Sys2Proof.Machine

/-- The register blocks of R52. -/
inductive Blk where
  | hif | job | ctl | icu | sid | eph | pwr | clk | tru | seq | arr | acc | vec | upd | alm | spm | hbm | syn | col | fab
deriving DecidableEq, Repr

/-- Block number: the block's offset in the die's window divided by 0x10_0000 (R52, R670). -/
def Blk.num : Blk → Nat
  | .hif => 0x0 | .job => 0x1 | .ctl => 0x2 | .icu => 0x3 | .sid => 0x4 | .eph => 0x5 | .pwr => 0x6 | .clk => 0x7
  | .tru => 0x8 | .seq => 0x9 | .arr => 0xA | .acc => 0xB | .vec => 0xC | .upd => 0xD | .alm => 0xE | .spm => 0xF
  | .hbm => 0x10 | .syn => 0x11 | .col => 0x12 | .fab => 0x13

/-- Access codes of R20. -/
inductive Access where
  | rw | ro | w1c | w1s | wo | rwl | rwp
deriving DecidableEq, Repr

/-- Lifetime codes of R22. -/
inductive Lifetime where
  | p | m | l | j | f
deriving DecidableEq, Repr

/-- One field row of a register table. Bits no row lists are reserved: they read 0 and ignore writes (R16). -/
structure FieldRow where
  hi : Nat
  lo : Nat
  access : Access
  reset : Nat
  life : Lifetime
deriving DecidableEq, Repr

/-- On which die a register lives. `shared`: held once, in die 0's block, and read at die 1's offset (R844, R446, R611). -/
inductive Homing where
  | eachDie | die0Only | shared
deriving DecidableEq, Repr

/-- One register of the tables: block, offset in the block, width in bits, how many units stand `stride` bytes apart. -/
structure RegInfo where
  blk : Blk
  offset : Nat
  width : Nat
  units : Nat
  stride : Nat
  homing : Homing
  /-- A count that JOB_END and JOB_KILL write to the ephemeris when it is not 0. -/
  counted : Bool
  fields : List FieldRow
deriving DecidableEq, Repr

/-- Every register of the manual, by its table name. A numbered family (HIF_RING_BASE_n) is one name with a unit number. -/
inductive Reg where
  | hifStatus | hifAttnCfg | hifConfigErrCount | hifDbErrCount | hifFetchFaultCount | hifEventLostCount | hifRingBase
  | hifRingCpl | hifRingSize | hifRingHead | hifRingTail | hifRingState | hifRingDone | jobStatus | jobId
  | ctlDieInfo | ctlCoreState | ctlCompSrc | ctlCompSize | ctlCompCtrl | ctlCompStatus | icuMask | icuPend
  | icuHoldoff | icuSummary | icuSummaryHost | icuFilterLoc | icuFilterPres | icuFilterSeal | icuFilterPwrbrk
  | icuInputState | icuTarget | sidCount | sidCtrl | sidSet | sidStatus | sidTimeinDelay | sidStepCount
  | sidClampCount | sidLossCount | ephStatus | ephSeq | ephLostCount | ephCtrl | pwrStatus | pwrLimit | pwrHostCap
  | pwrMgmtCap | pwrEnergy | pwrAvg | pwrTightCfg | pwrThermCfg | pwrTemp | pwrHelioCfg | pwrHelioStatus
  | pwrBrakeCount | pwrGrantLostCount | pwrHostCeiling | clkStatus | clkDroopCfg | clkLimit | clkDroopCount
  | clkStretchCycles | truStatus | truUpdateStatus | truUpdateChunks | truTrial | truSealCount | truSettings
  | truFuse | seqState | seqSchedule | seqSlipCycles | seqWaitCycles | seqReplayCount | seqReplayCycles | seqWatchdog
  | seqInstallFault | seqSlotBase | seqSlotInfo | seqSlotCrc | arrPathStatus | arrResidueCount | arrTransitCount
  | arrStallA0 | arrStallA1 | arrStallA2 | arrStallA3 | accCheckCount | accNonfiniteCount | accLapseCount
  | accSpillA0 | accSpillA1 | accSpillA2 | accSpillA3 | vecFlags | vecCheckCount | vecNonfiniteCount | vecSrStep
  | vecScalar0 | vecScalar1 | vecScalar2 | vecScalar3 | vecScalar4 | vecScalar5 | vecScalar6 | vecScalar7
  | updRetryCount | updCheckCount | updFallbackCount | updRootFailCount | updFrozenCount | almCtrl | almStart
  | almPeak | almFloor | almWarmup | almPeriod | almRatio | spmResStatus | spmRereadCount | spmFailCount
  | spmPoisonCount | spmZeroStatus | spmResWindow | hbmStatus | hbmRereadCount | hbmFailCount | hbmPoisonCount
  | hbmOdeccCorrCount | hbmOdeccUncorrCount | hbmCxlPoisonCount | hbmScrubStatus | hbmPcState | synFarBase
  | synFarCount | synSignalCount | synReleaseCount | synTimeoutCount | synLostCount | synSaturateCount | synWaitTicks
  | colStatus | colRunCount | colPartialCount | colAbortCount | colRetryCount | colDropCount | colLinkEventCount
  | fabRouteCtrl | fabPortMode | fabMcastPorts | fabThrottleCfg | fabSampleCfg | fabLinkReplayCount | fabRetrainCount
  | fabDetourCount | fabRetxCount | fabStaleCount | fabDupCount | fabMisrouteCount | fabMarkCount
  | fabSampleSkipCount | fabPortState | fabPortOutstanding
deriving DecidableEq, Repr

/-- The row of the manual's tables for each register. What reads as 0 before it is first sampled, such as module_location of CTL_DIE_INFO,
is the model's choice (log entry 127), and so is which die's ready HIF_STATUS shows at die 1's offset (log entry 120). -/
def Reg.info : Reg → RegInfo
  -- HIF_STATUS, R611
  | .hifStatus => ⟨.hif, 0x0, 32, 1, 0x0, .shared, false,
      [⟨23, 20, .ro, 0, .l⟩, ⟨19, 16, .ro, 0, .l⟩, ⟨8, 8, .ro, 0, .l⟩, ⟨1, 1, .ro, 0, .m⟩, ⟨0, 0, .ro, 0, .l⟩]⟩
  -- HIF_ATTN_CFG, R612
  | .hifAttnCfg => ⟨.hif, 0x4, 32, 1, 0x0, .shared, false,
      [⟨15, 0, .rw, 1000, .m⟩]⟩
  -- HIF_CONFIG_ERR_COUNT, R613
  | .hifConfigErrCount => ⟨.hif, 0x10, 32, 1, 0x0, .eachDie, true,
      [⟨31, 0, .ro, 0, .l⟩]⟩
  -- HIF_DB_ERR_COUNT, R613
  | .hifDbErrCount => ⟨.hif, 0x14, 32, 1, 0x0, .eachDie, true,
      [⟨31, 0, .ro, 0, .l⟩]⟩
  -- HIF_FETCH_FAULT_COUNT, R613
  | .hifFetchFaultCount => ⟨.hif, 0x18, 32, 1, 0x0, .eachDie, true,
      [⟨31, 0, .ro, 0, .l⟩]⟩
  -- HIF_EVENT_LOST_COUNT, R613
  | .hifEventLostCount => ⟨.hif, 0x1c, 32, 1, 0x0, .eachDie, true,
      [⟨31, 0, .ro, 0, .l⟩]⟩
  -- HIF_RING_BASE_n, R614
  | .hifRingBase => ⟨.hif, 0x1000, 64, 35, 0x40, .eachDie, false,
      [⟨63, 12, .rw, 0, .l⟩]⟩
  -- HIF_RING_CPL_n, R614
  | .hifRingCpl => ⟨.hif, 0x1008, 64, 35, 0x40, .eachDie, false,
      [⟨63, 12, .rw, 0, .l⟩]⟩
  -- HIF_RING_SIZE_n, R614
  | .hifRingSize => ⟨.hif, 0x1010, 32, 35, 0x40, .eachDie, false,
      [⟨16, 0, .rw, 0, .l⟩]⟩
  -- HIF_RING_HEAD_n, R614
  | .hifRingHead => ⟨.hif, 0x1014, 32, 35, 0x40, .eachDie, false,
      [⟨31, 0, .ro, 0, .l⟩]⟩
  -- HIF_RING_TAIL_n, R614
  | .hifRingTail => ⟨.hif, 0x1018, 32, 35, 0x40, .eachDie, false,
      [⟨31, 0, .ro, 0, .l⟩]⟩
  -- HIF_RING_STATE_n, R614
  | .hifRingState => ⟨.hif, 0x101c, 32, 35, 0x40, .eachDie, false,
      [⟨1, 0, .ro, 0, .l⟩]⟩
  -- HIF_RING_DONE_n, R614
  | .hifRingDone => ⟨.hif, 0x1020, 32, 35, 0x40, .eachDie, false,
      [⟨31, 0, .ro, 0, .l⟩]⟩
  -- JOB_STATUS, R615
  | .jobStatus => ⟨.job, 0x0, 32, 1, 0x0, .die0Only, false,
      [⟨9, 8, .ro, 0, .m⟩, ⟨1, 0, .ro, 0, .m⟩]⟩
  -- JOB_ID, R615
  | .jobId => ⟨.job, 0x8, 64, 1, 0x0, .die0Only, false,
      [⟨63, 0, .ro, 0, .m⟩]⟩
  -- CTL_DIE_INFO, R53
  | .ctlDieInfo => ⟨.ctl, 0x0, 32, 1, 0x0, .eachDie, false,
      [⟨31, 16, .ro, 0, .m⟩, ⟨8, 8, .ro, 1, .m⟩, ⟨0, 0, .ro, 0, .p⟩]⟩
  -- CTL_CORE_STATE, R643
  | .ctlCoreState => ⟨.ctl, 0x4, 32, 1, 0x0, .eachDie, false,
      [⟨15, 0, .ro, 0, .m⟩]⟩
  -- CTL_COMP_SRC_s, R643
  | .ctlCompSrc => ⟨.ctl, 0x100, 64, 4, 0x20, .eachDie, false,
      [⟨47, 0, .rw, 0, .j⟩]⟩
  -- CTL_COMP_SIZE_s, R643
  | .ctlCompSize => ⟨.ctl, 0x108, 32, 4, 0x20, .eachDie, false,
      [⟨21, 0, .rw, 0, .j⟩]⟩
  -- CTL_COMP_CTRL_s, R643
  | .ctlCompCtrl => ⟨.ctl, 0x10c, 32, 4, 0x20, .eachDie, false,
      [⟨1, 1, .wo, 0, .j⟩, ⟨0, 0, .wo, 0, .j⟩]⟩
  -- CTL_COMP_STATUS_s, R643
  | .ctlCompStatus => ⟨.ctl, 0x110, 32, 4, 0x20, .eachDie, false,
      [⟨31, 24, .ro, 0, .j⟩, ⟨17, 16, .ro, 0, .j⟩, ⟨15, 0, .ro, 0, .j⟩]⟩
  -- ICU_MASK_g, R645
  | .icuMask => ⟨.icu, 0x0, 32, 32, 0x4, .eachDie, false,
      [⟨31, 0, .rw, 0xffffffff, .m⟩]⟩
  -- ICU_PEND_g, R645
  | .icuPend => ⟨.icu, 0x100, 32, 32, 0x4, .eachDie, false,
      [⟨31, 0, .rw, 0, .m⟩]⟩
  -- ICU_HOLDOFF_g, R645
  | .icuHoldoff => ⟨.icu, 0x200, 32, 32, 0x4, .eachDie, false,
      [⟨15, 0, .rw, 0, .m⟩]⟩
  -- ICU_SUMMARY_c, R645
  | .icuSummary => ⟨.icu, 0x300, 32, 8, 0x4, .eachDie, false,
      [⟨31, 0, .ro, 0, .m⟩]⟩
  -- ICU_SUMMARY_HOST, R645
  | .icuSummaryHost => ⟨.icu, 0x320, 32, 1, 0x0, .eachDie, false,
      [⟨31, 0, .ro, 0, .m⟩]⟩
  -- ICU_FILTER_LOC, R645
  | .icuFilterLoc => ⟨.icu, 0x400, 32, 1, 0x0, .shared, false,
      [⟨19, 0, .rw, 25, .m⟩]⟩
  -- ICU_FILTER_PRES, R645
  | .icuFilterPres => ⟨.icu, 0x404, 32, 1, 0x0, .shared, false,
      [⟨19, 0, .rwp, 0x7a120, .m⟩]⟩
  -- ICU_FILTER_SEAL, R645
  | .icuFilterSeal => ⟨.icu, 0x408, 32, 1, 0x0, .shared, false,
      [⟨19, 0, .rwp, 2500, .m⟩]⟩
  -- ICU_FILTER_PWRBRK, R645
  | .icuFilterPwrbrk => ⟨.icu, 0x40c, 32, 1, 0x0, .shared, false,
      [⟨19, 0, .rw, 2, .m⟩]⟩
  -- ICU_INPUT_STATE, R645
  | .icuInputState => ⟨.icu, 0x410, 32, 1, 0x0, .shared, false,
      [⟨31, 16, .ro, 0xffff, .p⟩, ⟨3, 3, .ro, 1, .p⟩, ⟨2, 2, .ro, 1, .p⟩, ⟨1, 1, .ro, 1, .p⟩, ⟨0, 0, .ro, 0, .p⟩]⟩
  -- ICU_TARGET_s, R645
  | .icuTarget => ⟨.icu, 0x1000, 32, 1024, 0x4, .eachDie, false,
      [⟨5, 4, .rw, 0, .m⟩, ⟨2, 0, .rw, 0, .m⟩]⟩
  -- SID_COUNT, R684
  | .sidCount => ⟨.sid, 0x0, 64, 1, 0x0, .eachDie, false,
      [⟨63, 0, .ro, 0, .p⟩]⟩
  -- SID_CTRL, R684
  | .sidCtrl => ⟨.sid, 0x8, 32, 1, 0x0, .shared, false,
      [⟨2, 2, .rw, 1, .p⟩, ⟨1, 1, .rw, 0, .p⟩, ⟨0, 0, .rw, 0, .p⟩]⟩
  -- SID_SET, R684
  | .sidSet => ⟨.sid, 0x10, 64, 1, 0x0, .eachDie, false,
      [⟨63, 0, .wo, 0, .p⟩]⟩
  -- SID_STATUS, R684
  | .sidStatus => ⟨.sid, 0x18, 32, 1, 0x0, .eachDie, false,
      [⟨31, 31, .ro, 0, .p⟩, ⟨30, 28, .ro, 0, .p⟩, ⟨27, 24, .ro, 15, .p⟩, ⟨20, 16, .ro, 0, .p⟩, ⟨15, 0, .ro, 0, .p⟩]⟩
  -- SID_TIMEIN_DELAY, R684
  | .sidTimeinDelay => ⟨.sid, 0x1c, 32, 1, 0x0, .shared, false,
      [⟨23, 0, .rw, 0, .p⟩]⟩
  -- SID_STEP_COUNT, R684
  | .sidStepCount => ⟨.sid, 0x20, 32, 1, 0x0, .eachDie, true,
      [⟨31, 0, .ro, 0, .j⟩]⟩
  -- SID_CLAMP_COUNT, R684
  | .sidClampCount => ⟨.sid, 0x24, 32, 1, 0x0, .eachDie, true,
      [⟨31, 0, .ro, 0, .j⟩]⟩
  -- SID_LOSS_COUNT, R684
  | .sidLossCount => ⟨.sid, 0x28, 32, 1, 0x0, .eachDie, true,
      [⟨31, 0, .ro, 0, .j⟩]⟩
  -- EPH_STATUS, R686
  | .ephStatus => ⟨.eph, 0x0, 32, 1, 0x0, .eachDie, false,
      [⟨13, 0, .ro, 0, .m⟩]⟩
  -- EPH_SEQ, R686
  | .ephSeq => ⟨.eph, 0x4, 32, 1, 0x0, .eachDie, false,
      [⟨31, 0, .ro, 0, .p⟩]⟩
  -- EPH_LOST_COUNT, R686
  | .ephLostCount => ⟨.eph, 0x8, 32, 1, 0x0, .eachDie, true,
      [⟨31, 0, .ro, 0, .p⟩]⟩
  -- EPH_CTRL, R686
  | .ephCtrl => ⟨.eph, 0xc, 32, 1, 0x0, .shared, false,
      [⟨0, 0, .rw, 1, .m⟩]⟩
  -- PWR_STATUS, R728
  | .pwrStatus => ⟨.pwr, 0x0, 32, 1, 0x0, .die0Only, false,
      [⟨28, 28, .ro, 0, .p⟩, ⟨27, 27, .ro, 0, .p⟩, ⟨26, 26, .ro, 0, .m⟩, ⟨25, 25, .ro, 0, .m⟩, ⟨23, 12, .ro, 1250, .m⟩, ⟨2, 0, .ro, 1, .m⟩]⟩
  -- PWR_LIMIT, R728
  | .pwrLimit => ⟨.pwr, 0x4, 32, 1, 0x0, .die0Only, false,
      [⟨19, 16, .ro, 1, .m⟩, ⟨10, 0, .ro, 1800, .m⟩]⟩
  -- PWR_HOST_CAP, R728
  | .pwrHostCap => ⟨.pwr, 0x8, 32, 1, 0x0, .die0Only, false,
      [⟨31, 31, .ro, 0, .m⟩, ⟨29, 16, .ro, 0, .m⟩, ⟨10, 0, .ro, 0, .m⟩]⟩
  -- PWR_MGMT_CAP, R728
  | .pwrMgmtCap => ⟨.pwr, 0xc, 32, 1, 0x0, .die0Only, false,
      [⟨29, 16, .ro, 1000, .f⟩, ⟨10, 0, .ro, 1800, .f⟩]⟩
  -- PWR_ENERGY, R728
  | .pwrEnergy => ⟨.pwr, 0x10, 64, 1, 0x0, .die0Only, false,
      [⟨63, 0, .ro, 0, .p⟩]⟩
  -- PWR_AVG, R728
  | .pwrAvg => ⟨.pwr, 0x18, 32, 1, 0x0, .die0Only, false,
      [⟨15, 0, .ro, 0, .p⟩]⟩
  -- PWR_TIGHT_CFG, R728
  | .pwrTightCfg => ⟨.pwr, 0x1c, 32, 1, 0x0, .die0Only, false,
      [⟨27, 16, .rw, 750, .m⟩, ⟨11, 0, .rw, 1000, .m⟩]⟩
  -- PWR_THERM_CFG, R728
  | .pwrThermCfg => ⟨.pwr, 0x20, 32, 1, 0x0, .die0Only, false,
      [⟨23, 16, .ro, 105, .p⟩, ⟨15, 8, .rw, 95, .m⟩, ⟨7, 0, .rw, 90, .m⟩]⟩
  -- PWR_TEMP, R728
  | .pwrTemp => ⟨.pwr, 0x24, 32, 1, 0x0, .die0Only, false,
      [⟨15, 0, .ro, 0, .p⟩]⟩
  -- PWR_HELIO_CFG, R728
  | .pwrHelioCfg => ⟨.pwr, 0x28, 64, 1, 0x0, .die0Only, false,
      [⟨63, 63, .rw, 0, .m⟩, ⟨58, 48, .rw, 1800, .m⟩, ⟨47, 37, .rw, 1500, .m⟩, ⟨31, 16, .rw, 0, .m⟩, ⟨15, 8, .rw, 25, .m⟩, ⟨7, 0, .rw, 13, .m⟩]⟩
  -- PWR_HELIO_STATUS, R728
  | .pwrHelioStatus => ⟨.pwr, 0x30, 32, 1, 0x0, .die0Only, false,
      [⟨31, 16, .ro, 0, .j⟩, ⟨11, 0, .ro, 0, .j⟩]⟩
  -- PWR_BRAKE_COUNT, R728
  | .pwrBrakeCount => ⟨.pwr, 0x34, 32, 1, 0x0, .die0Only, true,
      [⟨31, 0, .ro, 0, .j⟩]⟩
  -- PWR_GRANT_LOST_COUNT, R728
  | .pwrGrantLostCount => ⟨.pwr, 0x38, 32, 1, 0x0, .die0Only, true,
      [⟨31, 0, .ro, 0, .j⟩]⟩
  -- PWR_HOST_CEILING, R728
  | .pwrHostCeiling => ⟨.pwr, 0x3c, 32, 1, 0x0, .die0Only, false,
      [⟨11, 0, .ro, 0, .m⟩]⟩
  -- CLK_STATUS, R729
  | .clkStatus => ⟨.clk, 0x0, 32, 1, 0x0, .eachDie, false,
      [⟨27, 16, .ro, 1250, .m⟩, ⟨15, 4, .ro, 500, .m⟩, ⟨3, 3, .ro, 0, .m⟩, ⟨2, 2, .ro, 0, .m⟩, ⟨1, 1, .ro, 0, .m⟩]⟩
  -- CLK_DROOP_CFG, R729
  | .clkDroopCfg => ⟨.clk, 0x4, 32, 1, 0x0, .eachDie, false,
      [⟨7, 0, .rw, 40, .m⟩]⟩
  -- CLK_LIMIT, R729
  | .clkLimit => ⟨.clk, 0x8, 32, 1, 0x0, .eachDie, false,
      [⟨11, 0, .ro, 1250, .f⟩]⟩
  -- CLK_DROOP_COUNT, R729
  | .clkDroopCount => ⟨.clk, 0xc, 32, 1, 0x0, .eachDie, true,
      [⟨31, 0, .ro, 0, .j⟩]⟩
  -- CLK_STRETCH_CYCLES, R729
  | .clkStretchCycles => ⟨.clk, 0x10, 64, 1, 0x0, .eachDie, true,
      [⟨63, 0, .ro, 0, .j⟩]⟩
  -- TRU_STATUS, R811
  | .truStatus => ⟨.tru, 0x0, 32, 1, 0x0, .die0Only, false,
      [⟨8, 8, .ro, 0, .m⟩, ⟨7, 7, .ro, 0, .p⟩, ⟨5, 5, .ro, 0, .m⟩, ⟨4, 4, .ro, 0, .m⟩, ⟨3, 3, .ro, 0, .f⟩, ⟨2, 2, .ro, 0, .f⟩, ⟨0, 0, .ro, 0, .m⟩]⟩
  -- TRU_UPDATE_STATUS, R811
  | .truUpdateStatus => ⟨.tru, 0x4, 32, 1, 0x0, .die0Only, false,
      [⟨31, 28, .ro, 0, .f⟩, ⟨27, 24, .ro, 0, .f⟩, ⟨23, 20, .ro, 0, .f⟩, ⟨19, 18, .ro, 0, .f⟩]⟩
  -- TRU_UPDATE_CHUNKS, R811
  | .truUpdateChunks => ⟨.tru, 0x8, 32, 1, 0x0, .die0Only, false,
      [⟨30, 16, .ro, 0, .f⟩, ⟨14, 0, .ro, 0, .f⟩]⟩
  -- TRU_TRIAL, R811
  | .truTrial => ⟨.tru, 0xc, 32, 1, 0x0, .die0Only, false,
      [⟨17, 16, .ro, 0, .m⟩, ⟨9, 0, .ro, 0, .m⟩]⟩
  -- TRU_SEAL_COUNT, R811
  | .truSealCount => ⟨.tru, 0x10, 32, 1, 0x0, .die0Only, true,
      [⟨31, 0, .ro, 0, .f⟩]⟩
  -- TRU_SETTINGS, R811
  | .truSettings => ⟨.tru, 0x14, 32, 1, 0x0, .die0Only, false,
      [⟨31, 16, .ro, 0, .f⟩, ⟨15, 0, .ro, 0, .m⟩]⟩
  -- TRU_FUSE, R811
  | .truFuse => ⟨.tru, 0x18, 32, 1, 0x0, .die0Only, false,
      [⟨31, 16, .ro, 0x4812, .p⟩, ⟨11, 8, .ro, 0, .p⟩, ⟨7, 0, .ro, 0, .p⟩]⟩
  -- SEQ_STATE, R289
  | .seqState => ⟨.seq, 0x0, 32, 24, 0x1000, .eachDie, false,
      [⟨19, 16, .ro, 0, .j⟩, ⟨3, 0, .ro, 0, .j⟩]⟩
  -- SEQ_SCHEDULE, R290
  | .seqSchedule => ⟨.seq, 0x8, 64, 24, 0x1000, .eachDie, false,
      [⟨63, 0, .ro, 0, .j⟩]⟩
  -- SEQ_SLIP_CYCLES, R291
  | .seqSlipCycles => ⟨.seq, 0x10, 32, 24, 0x1000, .eachDie, true,
      [⟨31, 0, .ro, 0, .j⟩]⟩
  -- SEQ_WAIT_CYCLES, R291
  | .seqWaitCycles => ⟨.seq, 0x14, 32, 24, 0x1000, .eachDie, true,
      [⟨31, 0, .ro, 0, .j⟩]⟩
  -- SEQ_REPLAY_COUNT, R292
  | .seqReplayCount => ⟨.seq, 0x18, 32, 24, 0x1000, .eachDie, true,
      [⟨15, 0, .ro, 0, .j⟩]⟩
  -- SEQ_REPLAY_CYCLES, R291
  | .seqReplayCycles => ⟨.seq, 0x1c, 32, 24, 0x1000, .eachDie, true,
      [⟨31, 0, .ro, 0, .j⟩]⟩
  -- SEQ_WATCHDOG, R293
  | .seqWatchdog => ⟨.seq, 0x20, 32, 24, 0x1000, .eachDie, false,
      [⟨31, 31, .rw, 1, .m⟩, ⟨15, 0, .rw, 0x2710, .m⟩]⟩
  -- SEQ_INSTALL_FAULT, R294
  | .seqInstallFault => ⟨.seq, 0x24, 32, 24, 0x1000, .eachDie, false,
      [⟨31, 28, .ro, 0, .j⟩, ⟨27, 24, .ro, 0, .j⟩, ⟨18, 0, .ro, 0, .j⟩]⟩
  -- SEQ_SLOT_BASE_s, R296
  | .seqSlotBase => ⟨.seq, 0x100, 64, 384, 0x10, .eachDie, false,
      [⟨47, 0, .ro, 0, .j⟩]⟩
  -- SEQ_SLOT_INFO_s, R296
  | .seqSlotInfo => ⟨.seq, 0x108, 32, 384, 0x10, .eachDie, false,
      [⟨31, 31, .ro, 0, .j⟩, ⟨18, 0, .ro, 0, .j⟩]⟩
  -- SEQ_SLOT_CRC_s, R296
  | .seqSlotCrc => ⟨.seq, 0x10c, 32, 384, 0x10, .eachDie, false,
      [⟨31, 0, .ro, 0, .j⟩]⟩
  -- ARR_PATH_STATUS, R169
  | .arrPathStatus => ⟨.arr, 0x0, 32, 24, 0x1000, .eachDie, false,
      [⟨7, 6, .ro, 0, .f⟩, ⟨5, 4, .ro, 0, .f⟩, ⟨3, 2, .ro, 0, .f⟩, ⟨1, 0, .ro, 0, .f⟩]⟩
  -- ARR_RESIDUE_COUNT, R171
  | .arrResidueCount => ⟨.arr, 0x4, 32, 24, 0x1000, .eachDie, true,
      [⟨31, 24, .ro, 0, .j⟩, ⟨23, 16, .ro, 0, .j⟩, ⟨15, 8, .ro, 0, .j⟩, ⟨7, 0, .ro, 0, .j⟩]⟩
  -- ARR_TRANSIT_COUNT, R171
  | .arrTransitCount => ⟨.arr, 0x8, 32, 24, 0x1000, .eachDie, true,
      [⟨31, 24, .ro, 0, .j⟩, ⟨23, 16, .ro, 0, .j⟩, ⟨15, 8, .ro, 0, .j⟩, ⟨7, 0, .ro, 0, .j⟩]⟩
  -- ARR_STALL_A0, R172
  | .arrStallA0 => ⟨.arr, 0x10, 32, 24, 0x1000, .eachDie, true,
      [⟨31, 0, .ro, 0, .j⟩]⟩
  -- ARR_STALL_A1, R172
  | .arrStallA1 => ⟨.arr, 0x14, 32, 24, 0x1000, .eachDie, true,
      [⟨31, 0, .ro, 0, .j⟩]⟩
  -- ARR_STALL_A2, R172
  | .arrStallA2 => ⟨.arr, 0x18, 32, 24, 0x1000, .eachDie, true,
      [⟨31, 0, .ro, 0, .j⟩]⟩
  -- ARR_STALL_A3, R172
  | .arrStallA3 => ⟨.arr, 0x1c, 32, 24, 0x1000, .eachDie, true,
      [⟨31, 0, .ro, 0, .j⟩]⟩
  -- ACC_CHECK_COUNT, R236
  | .accCheckCount => ⟨.acc, 0x0, 32, 24, 0x1000, .eachDie, true,
      [⟨31, 24, .ro, 0, .j⟩, ⟨23, 16, .ro, 0, .j⟩, ⟨15, 8, .ro, 0, .j⟩, ⟨7, 0, .ro, 0, .j⟩]⟩
  -- ACC_NONFINITE_COUNT, R236
  | .accNonfiniteCount => ⟨.acc, 0x4, 32, 24, 0x1000, .eachDie, true,
      [⟨31, 24, .ro, 0, .j⟩, ⟨23, 16, .ro, 0, .j⟩, ⟨15, 8, .ro, 0, .j⟩, ⟨7, 0, .ro, 0, .j⟩]⟩
  -- ACC_LAPSE_COUNT, R236
  | .accLapseCount => ⟨.acc, 0x8, 32, 24, 0x1000, .eachDie, true,
      [⟨31, 24, .ro, 0, .j⟩, ⟨23, 16, .ro, 0, .j⟩, ⟨15, 8, .ro, 0, .j⟩, ⟨7, 0, .ro, 0, .j⟩]⟩
  -- ACC_SPILL_A0, R237
  | .accSpillA0 => ⟨.acc, 0x10, 32, 24, 0x1000, .eachDie, true,
      [⟨31, 0, .ro, 0, .j⟩]⟩
  -- ACC_SPILL_A1, R237
  | .accSpillA1 => ⟨.acc, 0x14, 32, 24, 0x1000, .eachDie, true,
      [⟨31, 0, .ro, 0, .j⟩]⟩
  -- ACC_SPILL_A2, R237
  | .accSpillA2 => ⟨.acc, 0x18, 32, 24, 0x1000, .eachDie, true,
      [⟨31, 0, .ro, 0, .j⟩]⟩
  -- ACC_SPILL_A3, R237
  | .accSpillA3 => ⟨.acc, 0x1c, 32, 24, 0x1000, .eachDie, true,
      [⟨31, 0, .ro, 0, .j⟩]⟩
  -- VEC_FLAGS, R331
  | .vecFlags => ⟨.vec, 0x0, 32, 24, 0x1000, .eachDie, true,
      [⟨4, 4, .ro, 0, .j⟩, ⟨3, 3, .ro, 0, .j⟩, ⟨2, 2, .ro, 0, .j⟩, ⟨1, 1, .ro, 0, .j⟩, ⟨0, 0, .ro, 0, .j⟩]⟩
  -- VEC_CHECK_COUNT, R332
  | .vecCheckCount => ⟨.vec, 0x4, 32, 24, 0x1000, .eachDie, true,
      [⟨31, 0, .ro, 0, .j⟩]⟩
  -- VEC_NONFINITE_COUNT, R332
  | .vecNonfiniteCount => ⟨.vec, 0x8, 32, 24, 0x1000, .eachDie, true,
      [⟨31, 0, .ro, 0, .j⟩]⟩
  -- VEC_SR_STEP, R93
  | .vecSrStep => ⟨.vec, 0x40, 32, 24, 0x1000, .eachDie, false,
      [⟨31, 0, .rw, 0, .j⟩]⟩
  -- VEC_SCALAR_0, R333
  | .vecScalar0 => ⟨.vec, 0x80, 64, 24, 0x1000, .eachDie, false,
      [⟨63, 0, .ro, 0, .j⟩]⟩
  -- VEC_SCALAR_1, R333
  | .vecScalar1 => ⟨.vec, 0x88, 64, 24, 0x1000, .eachDie, false,
      [⟨63, 0, .ro, 0, .j⟩]⟩
  -- VEC_SCALAR_2, R333
  | .vecScalar2 => ⟨.vec, 0x90, 64, 24, 0x1000, .eachDie, false,
      [⟨63, 0, .ro, 0, .j⟩]⟩
  -- VEC_SCALAR_3, R333
  | .vecScalar3 => ⟨.vec, 0x98, 64, 24, 0x1000, .eachDie, false,
      [⟨63, 0, .ro, 0, .j⟩]⟩
  -- VEC_SCALAR_4, R333
  | .vecScalar4 => ⟨.vec, 0xa0, 64, 24, 0x1000, .eachDie, false,
      [⟨63, 0, .ro, 0, .j⟩]⟩
  -- VEC_SCALAR_5, R333
  | .vecScalar5 => ⟨.vec, 0xa8, 64, 24, 0x1000, .eachDie, false,
      [⟨63, 0, .ro, 0, .j⟩]⟩
  -- VEC_SCALAR_6, R333
  | .vecScalar6 => ⟨.vec, 0xb0, 64, 24, 0x1000, .eachDie, false,
      [⟨63, 0, .ro, 0, .j⟩]⟩
  -- VEC_SCALAR_7, R333
  | .vecScalar7 => ⟨.vec, 0xb8, 64, 24, 0x1000, .eachDie, false,
      [⟨63, 0, .ro, 0, .j⟩]⟩
  -- UPD_RETRY_COUNT, R373
  | .updRetryCount => ⟨.upd, 0x0, 32, 24, 0x1000, .eachDie, true,
      [⟨31, 0, .ro, 0, .j⟩]⟩
  -- UPD_CHECK_COUNT, R373
  | .updCheckCount => ⟨.upd, 0x4, 32, 24, 0x1000, .eachDie, true,
      [⟨31, 0, .ro, 0, .j⟩]⟩
  -- UPD_FALLBACK_COUNT, R373
  | .updFallbackCount => ⟨.upd, 0x8, 32, 24, 0x1000, .eachDie, true,
      [⟨31, 0, .ro, 0, .j⟩]⟩
  -- UPD_ROOT_FAIL_COUNT, R373
  | .updRootFailCount => ⟨.upd, 0xc, 32, 24, 0x1000, .eachDie, true,
      [⟨31, 0, .ro, 0, .j⟩]⟩
  -- UPD_FROZEN_COUNT, R373
  | .updFrozenCount => ⟨.upd, 0x10, 64, 24, 0x1000, .eachDie, true,
      [⟨63, 0, .ro, 0, .j⟩]⟩
  -- ALM_SLOT_CTRL_s, R376
  | .almCtrl => ⟨.alm, 0x0, 32, 16, 0x20, .die0Only, false,
      [⟨8, 8, .rw, 0, .m⟩, ⟨3, 0, .rw, 0, .m⟩]⟩
  -- ALM_SLOT_START_s, R376
  | .almStart => ⟨.alm, 0x4, 32, 16, 0x20, .die0Only, false,
      [⟨31, 0, .rw, 0, .m⟩]⟩
  -- ALM_SLOT_PEAK_s, R376
  | .almPeak => ⟨.alm, 0x8, 32, 16, 0x20, .die0Only, false,
      [⟨31, 0, .rw, 0, .m⟩]⟩
  -- ALM_SLOT_FLOOR_s, R376
  | .almFloor => ⟨.alm, 0xc, 32, 16, 0x20, .die0Only, false,
      [⟨31, 0, .rw, 0, .m⟩]⟩
  -- ALM_SLOT_WARMUP_s, R376
  | .almWarmup => ⟨.alm, 0x10, 32, 16, 0x20, .die0Only, false,
      [⟨31, 0, .rw, 0, .m⟩]⟩
  -- ALM_SLOT_PERIOD_s, R376
  | .almPeriod => ⟨.alm, 0x14, 32, 16, 0x20, .die0Only, false,
      [⟨31, 0, .rw, 0, .m⟩]⟩
  -- ALM_SLOT_RATIO_s, R376
  | .almRatio => ⟨.alm, 0x18, 32, 16, 0x20, .die0Only, false,
      [⟨31, 0, .rw, 0, .m⟩]⟩
  -- SPM_RES_STATUS, R413
  | .spmResStatus => ⟨.spm, 0x0, 32, 1, 0x0, .shared, false,
      [⟨16, 16, .ro, 0, .m⟩, ⟨9, 8, .ro, 0, .m⟩, ⟨4, 0, .ro, 0, .m⟩]⟩
  -- SPM_REREAD_COUNT, R414
  | .spmRereadCount => ⟨.spm, 0x4, 32, 1, 0x0, .eachDie, true,
      [⟨31, 0, .ro, 0, .j⟩]⟩
  -- SPM_FAIL_COUNT, R414
  | .spmFailCount => ⟨.spm, 0x8, 32, 1, 0x0, .eachDie, true,
      [⟨31, 0, .ro, 0, .j⟩]⟩
  -- SPM_POISON_COUNT, R414
  | .spmPoisonCount => ⟨.spm, 0xc, 32, 1, 0x0, .eachDie, true,
      [⟨31, 0, .ro, 0, .j⟩]⟩
  -- SPM_ZERO_STATUS, R415
  | .spmZeroStatus => ⟨.spm, 0x10, 32, 1, 0x0, .eachDie, false,
      [⟨0, 0, .ro, 0, .p⟩]⟩
  -- SPM_RES_WINDOW_n, R416
  | .spmResWindow => ⟨.spm, 0x100, 64, 16, 0x8, .shared, false,
      [⟨63, 40, .ro, 0, .m⟩, ⟨31, 0, .ro, 0, .m⟩]⟩
  -- HBM_STATUS, R447
  | .hbmStatus => ⟨.hbm, 0x0, 32, 1, 0x0, .shared, false,
      [⟨24, 24, .ro, 0, .f⟩, ⟨8, 0, .ro, 384, .f⟩]⟩
  -- HBM_REREAD_COUNT, R450
  | .hbmRereadCount => ⟨.hbm, 0x4, 32, 1, 0x0, .eachDie, true,
      [⟨31, 0, .ro, 0, .j⟩]⟩
  -- HBM_FAIL_COUNT, R450
  | .hbmFailCount => ⟨.hbm, 0x8, 32, 1, 0x0, .eachDie, true,
      [⟨31, 0, .ro, 0, .j⟩]⟩
  -- HBM_POISON_COUNT, R450
  | .hbmPoisonCount => ⟨.hbm, 0xc, 32, 1, 0x0, .eachDie, true,
      [⟨31, 0, .ro, 0, .j⟩]⟩
  -- HBM_ODECC_CORR_COUNT, R450
  | .hbmOdeccCorrCount => ⟨.hbm, 0x10, 32, 1, 0x0, .eachDie, true,
      [⟨31, 0, .ro, 0, .j⟩]⟩
  -- HBM_ODECC_UNCORR_COUNT, R450
  | .hbmOdeccUncorrCount => ⟨.hbm, 0x14, 32, 1, 0x0, .eachDie, true,
      [⟨31, 0, .ro, 0, .j⟩]⟩
  -- HBM_CXL_POISON_COUNT, R450
  | .hbmCxlPoisonCount => ⟨.hbm, 0x18, 32, 1, 0x0, .eachDie, true,
      [⟨31, 0, .ro, 0, .j⟩]⟩
  -- HBM_SCRUB_STATUS, R451
  | .hbmScrubStatus => ⟨.hbm, 0x1c, 32, 1, 0x0, .eachDie, false,
      [⟨31, 31, .ro, 0, .p⟩, ⟨15, 0, .ro, 0, .p⟩]⟩
  -- HBM_PC_STATE_n, R448
  | .hbmPcState => ⟨.hbm, 0x100, 32, 12, 0x4, .eachDie, false,
      [⟨31, 0, .ro, 0, .f⟩]⟩
  -- SYN_FAR_BASE, R501
  | .synFarBase => ⟨.syn, 0x0, 64, 1, 0x0, .shared, false,
      [⟨47, 0, .rw, 0, .j⟩]⟩
  -- SYN_FAR_COUNT, R501
  | .synFarCount => ⟨.syn, 0x8, 32, 1, 0x0, .shared, false,
      [⟨24, 0, .rw, 0, .j⟩]⟩
  -- SYN_SIGNAL_COUNT, R502
  | .synSignalCount => ⟨.syn, 0x10, 32, 1, 0x0, .eachDie, true,
      [⟨31, 0, .ro, 0, .j⟩]⟩
  -- SYN_RELEASE_COUNT, R502
  | .synReleaseCount => ⟨.syn, 0x14, 32, 1, 0x0, .eachDie, true,
      [⟨31, 0, .ro, 0, .j⟩]⟩
  -- SYN_TIMEOUT_COUNT, R502
  | .synTimeoutCount => ⟨.syn, 0x18, 32, 1, 0x0, .eachDie, true,
      [⟨31, 0, .ro, 0, .j⟩]⟩
  -- SYN_LOST_COUNT, R502
  | .synLostCount => ⟨.syn, 0x1c, 32, 1, 0x0, .eachDie, true,
      [⟨31, 0, .ro, 0, .j⟩]⟩
  -- SYN_SATURATE_COUNT, R502
  | .synSaturateCount => ⟨.syn, 0x20, 32, 1, 0x0, .eachDie, true,
      [⟨31, 0, .ro, 0, .j⟩]⟩
  -- SYN_WAIT_TICKS, R502
  | .synWaitTicks => ⟨.syn, 0x28, 64, 1, 0x0, .eachDie, true,
      [⟨63, 0, .ro, 0, .j⟩]⟩
  -- COL_STATUS, R504
  | .colStatus => ⟨.col, 0x0, 32, 1, 0x0, .eachDie, false,
      [⟨7, 0, .ro, 0, .j⟩]⟩
  -- COL_RUN_COUNT, R505
  | .colRunCount => ⟨.col, 0x4, 32, 1, 0x0, .eachDie, true,
      [⟨31, 0, .ro, 0, .j⟩]⟩
  -- COL_PARTIAL_COUNT, R505
  | .colPartialCount => ⟨.col, 0x8, 32, 1, 0x0, .eachDie, true,
      [⟨31, 0, .ro, 0, .j⟩]⟩
  -- COL_ABORT_COUNT, R505
  | .colAbortCount => ⟨.col, 0xc, 32, 1, 0x0, .eachDie, true,
      [⟨31, 0, .ro, 0, .j⟩]⟩
  -- COL_RETRY_COUNT, R505
  | .colRetryCount => ⟨.col, 0x10, 32, 1, 0x0, .eachDie, true,
      [⟨31, 0, .ro, 0, .j⟩]⟩
  -- COL_DROP_COUNT, R505
  | .colDropCount => ⟨.col, 0x14, 32, 1, 0x0, .eachDie, true,
      [⟨31, 0, .ro, 0, .j⟩]⟩
  -- COL_LINK_EVENT_COUNT, R505
  | .colLinkEventCount => ⟨.col, 0x18, 32, 1, 0x0, .eachDie, true,
      [⟨31, 0, .ro, 0, .j⟩]⟩
  -- FAB_ROUTE_CTRL, R559
  | .fabRouteCtrl => ⟨.fab, 0x0, 32, 1, 0x0, .eachDie, false,
      [⟨8, 8, .ro, 0, .m⟩, ⟨4, 4, .wo, 0, .m⟩, ⟨3, 0, .rw, 0, .m⟩]⟩
  -- FAB_PORT_MODE, R560
  | .fabPortMode => ⟨.fab, 0x4, 32, 1, 0x0, .eachDie, false,
      [⟨15, 0, .rw, 0, .m⟩]⟩
  -- FAB_MCAST_PORTS, R560
  | .fabMcastPorts => ⟨.fab, 0x8, 32, 1, 0x0, .eachDie, false,
      [⟨15, 0, .rw, 0, .m⟩]⟩
  -- FAB_THROTTLE_CFG, R561
  | .fabThrottleCfg => ⟨.fab, 0xc, 32, 1, 0x0, .eachDie, false,
      [⟨23, 20, .rw, 4, .m⟩, ⟨19, 16, .rw, 4, .m⟩, ⟨15, 8, .rw, 10, .m⟩, ⟨7, 0, .rw, 2, .m⟩]⟩
  -- FAB_SAMPLE_CFG, R562
  | .fabSampleCfg => ⟨.fab, 0x10, 32, 1, 0x0, .eachDie, false,
      [⟨31, 31, .rw, 0, .m⟩, ⟨4, 0, .rw, 10, .m⟩]⟩
  -- FAB_LINK_REPLAY_COUNT, R563
  | .fabLinkReplayCount => ⟨.fab, 0x20, 32, 1, 0x0, .eachDie, true,
      [⟨31, 0, .ro, 0, .j⟩]⟩
  -- FAB_RETRAIN_COUNT, R563
  | .fabRetrainCount => ⟨.fab, 0x24, 32, 1, 0x0, .eachDie, true,
      [⟨31, 0, .ro, 0, .j⟩]⟩
  -- FAB_DETOUR_COUNT, R563
  | .fabDetourCount => ⟨.fab, 0x28, 32, 1, 0x0, .eachDie, true,
      [⟨31, 0, .ro, 0, .j⟩]⟩
  -- FAB_RETX_COUNT, R563
  | .fabRetxCount => ⟨.fab, 0x2c, 32, 1, 0x0, .eachDie, true,
      [⟨31, 0, .ro, 0, .j⟩]⟩
  -- FAB_STALE_COUNT, R563
  | .fabStaleCount => ⟨.fab, 0x30, 32, 1, 0x0, .eachDie, true,
      [⟨31, 0, .ro, 0, .j⟩]⟩
  -- FAB_DUP_COUNT, R563
  | .fabDupCount => ⟨.fab, 0x34, 32, 1, 0x0, .eachDie, true,
      [⟨31, 0, .ro, 0, .j⟩]⟩
  -- FAB_MISROUTE_COUNT, R563
  | .fabMisrouteCount => ⟨.fab, 0x38, 32, 1, 0x0, .eachDie, true,
      [⟨31, 0, .ro, 0, .j⟩]⟩
  -- FAB_MARK_COUNT, R563
  | .fabMarkCount => ⟨.fab, 0x3c, 32, 1, 0x0, .eachDie, true,
      [⟨31, 0, .ro, 0, .j⟩]⟩
  -- FAB_SAMPLE_SKIP_COUNT, R563
  | .fabSampleSkipCount => ⟨.fab, 0x40, 32, 1, 0x0, .eachDie, true,
      [⟨31, 0, .ro, 0, .j⟩]⟩
  -- FAB_PORT_STATE_p, R564
  | .fabPortState => ⟨.fab, 0x100, 32, 16, 0x4, .eachDie, false,
      [⟨31, 24, .ro, 0, .f⟩, ⟨15, 12, .ro, 0, .m⟩, ⟨11, 10, .ro, 0, .m⟩]⟩
  -- FAB_PORT_OUTSTANDING_p, R565
  | .fabPortOutstanding => ⟨.fab, 0x200, 32, 16, 0x4, .eachDie, false,
      [⟨19, 0, .ro, 0, .m⟩]⟩

/-- The number of a register name, in table order. -/
def Reg.idx (r : Reg) : Nat := r.ctorIdx

/-- Registers 0 to 39 in table order. -/
def Reg.list0 : List Reg := [.hifStatus, .hifAttnCfg, .hifConfigErrCount, .hifDbErrCount, .hifFetchFaultCount, .hifEventLostCount, .hifRingBase, .hifRingCpl,
  .hifRingSize, .hifRingHead, .hifRingTail, .hifRingState, .hifRingDone, .jobStatus, .jobId, .ctlDieInfo,
  .ctlCoreState, .ctlCompSrc, .ctlCompSize, .ctlCompCtrl, .ctlCompStatus, .icuMask, .icuPend, .icuHoldoff,
  .icuSummary, .icuSummaryHost, .icuFilterLoc, .icuFilterPres, .icuFilterSeal, .icuFilterPwrbrk, .icuInputState, .icuTarget,
  .sidCount, .sidCtrl, .sidSet, .sidStatus, .sidTimeinDelay, .sidStepCount, .sidClampCount, .sidLossCount]

/-- Registers 40 to 79 in table order. -/
def Reg.list1 : List Reg := [.ephStatus, .ephSeq, .ephLostCount, .ephCtrl, .pwrStatus, .pwrLimit, .pwrHostCap, .pwrMgmtCap,
  .pwrEnergy, .pwrAvg, .pwrTightCfg, .pwrThermCfg, .pwrTemp, .pwrHelioCfg, .pwrHelioStatus, .pwrBrakeCount,
  .pwrGrantLostCount, .pwrHostCeiling, .clkStatus, .clkDroopCfg, .clkLimit, .clkDroopCount, .clkStretchCycles, .truStatus,
  .truUpdateStatus, .truUpdateChunks, .truTrial, .truSealCount, .truSettings, .truFuse, .seqState, .seqSchedule,
  .seqSlipCycles, .seqWaitCycles, .seqReplayCount, .seqReplayCycles, .seqWatchdog, .seqInstallFault, .seqSlotBase, .seqSlotInfo]

/-- Registers 80 to 119 in table order. -/
def Reg.list2 : List Reg := [.seqSlotCrc, .arrPathStatus, .arrResidueCount, .arrTransitCount, .arrStallA0, .arrStallA1, .arrStallA2, .arrStallA3,
  .accCheckCount, .accNonfiniteCount, .accLapseCount, .accSpillA0, .accSpillA1, .accSpillA2, .accSpillA3, .vecFlags,
  .vecCheckCount, .vecNonfiniteCount, .vecSrStep, .vecScalar0, .vecScalar1, .vecScalar2, .vecScalar3, .vecScalar4,
  .vecScalar5, .vecScalar6, .vecScalar7, .updRetryCount, .updCheckCount, .updFallbackCount, .updRootFailCount, .updFrozenCount,
  .almCtrl, .almStart, .almPeak, .almFloor, .almWarmup, .almPeriod, .almRatio, .spmResStatus]

/-- Registers 120 to 159 in table order. -/
def Reg.list3 : List Reg := [.spmRereadCount, .spmFailCount, .spmPoisonCount, .spmZeroStatus, .spmResWindow, .hbmStatus, .hbmRereadCount, .hbmFailCount,
  .hbmPoisonCount, .hbmOdeccCorrCount, .hbmOdeccUncorrCount, .hbmCxlPoisonCount, .hbmScrubStatus, .hbmPcState, .synFarBase, .synFarCount,
  .synSignalCount, .synReleaseCount, .synTimeoutCount, .synLostCount, .synSaturateCount, .synWaitTicks, .colStatus, .colRunCount,
  .colPartialCount, .colAbortCount, .colRetryCount, .colDropCount, .colLinkEventCount, .fabRouteCtrl, .fabPortMode, .fabMcastPorts,
  .fabThrottleCfg, .fabSampleCfg, .fabLinkReplayCount, .fabRetrainCount, .fabDetourCount, .fabRetxCount, .fabStaleCount, .fabDupCount]

/-- Registers 160 to 164 in table order. -/
def Reg.list4 : List Reg := [.fabMisrouteCount, .fabMarkCount, .fabSampleSkipCount, .fabPortState, .fabPortOutstanding]

/-- Every register name. -/
def Reg.all : List Reg := Reg.list0 ++ Reg.list1 ++ Reg.list2 ++ Reg.list3 ++ Reg.list4

/-- A named field of a register: the register and the bits it occupies. -/
structure Fld where
  reg : Reg
  hi : Nat
  lo : Nat
deriving DecidableEq, Repr

namespace F
def hifStatus_rate : Fld := ⟨.hifStatus, 23, 20⟩
def hifStatus_width : Fld := ⟨.hifStatus, 19, 16⟩
def hifStatus_flit256 : Fld := ⟨.hifStatus, 8, 8⟩
def hifStatus_attention : Fld := ⟨.hifStatus, 1, 1⟩
def hifStatus_ready : Fld := ⟨.hifStatus, 0, 0⟩
def hifAttnCfg_repeatUs : Fld := ⟨.hifAttnCfg, 15, 0⟩
def hifConfigErrCount_count : Fld := ⟨.hifConfigErrCount, 31, 0⟩
def hifDbErrCount_count : Fld := ⟨.hifDbErrCount, 31, 0⟩
def hifFetchFaultCount_count : Fld := ⟨.hifFetchFaultCount, 31, 0⟩
def hifEventLostCount_count : Fld := ⟨.hifEventLostCount, 31, 0⟩
def hifRingBase_base : Fld := ⟨.hifRingBase, 63, 12⟩
def hifRingCpl_base : Fld := ⟨.hifRingCpl, 63, 12⟩
def hifRingSize_entries : Fld := ⟨.hifRingSize, 16, 0⟩
def hifRingHead_head : Fld := ⟨.hifRingHead, 31, 0⟩
def hifRingTail_tail : Fld := ⟨.hifRingTail, 31, 0⟩
def hifRingState_state : Fld := ⟨.hifRingState, 1, 0⟩
def hifRingDone_done : Fld := ⟨.hifRingDone, 31, 0⟩
def jobStatus_lastMaster : Fld := ⟨.jobStatus, 9, 8⟩
def jobStatus_state : Fld := ⟨.jobStatus, 1, 0⟩
def jobId_jobId : Fld := ⟨.jobId, 63, 0⟩
def ctlDieInfo_moduleLocation : Fld := ⟨.ctlDieInfo, 31, 16⟩
def ctlDieInfo_dieUsable : Fld := ⟨.ctlDieInfo, 8, 8⟩
def ctlDieInfo_dieIndex : Fld := ⟨.ctlDieInfo, 0, 0⟩
def ctlCoreState_cores : Fld := ⟨.ctlCoreState, 15, 0⟩
def ctlCompSrc_src : Fld := ⟨.ctlCompSrc, 47, 0⟩
def ctlCompSize_size : Fld := ⟨.ctlCompSize, 21, 0⟩
def ctlCompCtrl_stop : Fld := ⟨.ctlCompCtrl, 1, 1⟩
def ctlCompCtrl_start : Fld := ⟨.ctlCompCtrl, 0, 0⟩
def ctlCompStatus_result : Fld := ⟨.ctlCompStatus, 31, 24⟩
def ctlCompStatus_state : Fld := ⟨.ctlCompStatus, 17, 16⟩
def ctlCompStatus_exit : Fld := ⟨.ctlCompStatus, 15, 0⟩
def icuMask_mask : Fld := ⟨.icuMask, 31, 0⟩
def icuPend_pending : Fld := ⟨.icuPend, 31, 0⟩
def icuHoldoff_holdoff : Fld := ⟨.icuHoldoff, 15, 0⟩
def icuSummary_groups : Fld := ⟨.icuSummary, 31, 0⟩
def icuSummaryHost_groups : Fld := ⟨.icuSummaryHost, 31, 0⟩
def icuFilterLoc_count : Fld := ⟨.icuFilterLoc, 19, 0⟩
def icuFilterPres_count : Fld := ⟨.icuFilterPres, 19, 0⟩
def icuFilterSeal_count : Fld := ⟨.icuFilterSeal, 19, 0⟩
def icuFilterPwrbrk_count : Fld := ⟨.icuFilterPwrbrk, 19, 0⟩
def icuInputState_loc : Fld := ⟨.icuInputState, 31, 16⟩
def icuInputState_pwrbrkN : Fld := ⟨.icuInputState, 3, 3⟩
def icuInputState_sealClosed : Fld := ⟨.icuInputState, 2, 2⟩
def icuInputState_presN : Fld := ⟨.icuInputState, 1, 1⟩
def icuInputState_presenceLatched : Fld := ⟨.icuInputState, 0, 0⟩
def icuTarget_kind : Fld := ⟨.icuTarget, 5, 4⟩
def icuTarget_core : Fld := ⟨.icuTarget, 2, 0⟩
def sidCount_count : Fld := ⟨.sidCount, 63, 0⟩
def sidCtrl_timeinEn : Fld := ⟨.sidCtrl, 2, 2⟩
def sidCtrl_extRef : Fld := ⟨.sidCtrl, 1, 1⟩
def sidCtrl_master : Fld := ⟨.sidCtrl, 0, 0⟩
def sidSet_value : Fld := ⟨.sidSet, 63, 0⟩
def sidStatus_synced : Fld := ⟨.sidStatus, 31, 31⟩
def sidStatus_source : Fld := ⟨.sidStatus, 30, 28⟩
def sidStatus_stratum : Fld := ⟨.sidStatus, 27, 24⟩
def sidStatus_port : Fld := ⟨.sidStatus, 20, 16⟩
def sidStatus_offset : Fld := ⟨.sidStatus, 15, 0⟩
def sidTimeinDelay_delayTicks : Fld := ⟨.sidTimeinDelay, 23, 0⟩
def sidStepCount_count : Fld := ⟨.sidStepCount, 31, 0⟩
def sidClampCount_count : Fld := ⟨.sidClampCount, 31, 0⟩
def sidLossCount_count : Fld := ⟨.sidLossCount, 31, 0⟩
def ephStatus_held : Fld := ⟨.ephStatus, 13, 0⟩
def ephSeq_nextSeq : Fld := ⟨.ephSeq, 31, 0⟩
def ephLostCount_count : Fld := ⟨.ephLostCount, 31, 0⟩
def ephCtrl_telemetryEn : Fld := ⟨.ephCtrl, 0, 0⟩
def pwrStatus_brake : Fld := ⟨.pwrStatus, 28, 28⟩
def pwrStatus_therm : Fld := ⟨.pwrStatus, 27, 27⟩
def pwrStatus_floorStretch : Fld := ⟨.pwrStatus, 26, 26⟩
def pwrStatus_tight : Fld := ⟨.pwrStatus, 25, 25⟩
def pwrStatus_ceilingMhz : Fld := ⟨.pwrStatus, 23, 12⟩
def pwrStatus_state : Fld := ⟨.pwrStatus, 2, 0⟩
def pwrLimit_source : Fld := ⟨.pwrLimit, 19, 16⟩
def pwrLimit_limitW : Fld := ⟨.pwrLimit, 10, 0⟩
def pwrHostCap_valid : Fld := ⟨.pwrHostCap, 31, 31⟩
def pwrHostCap_windowMs : Fld := ⟨.pwrHostCap, 29, 16⟩
def pwrHostCap_capW : Fld := ⟨.pwrHostCap, 10, 0⟩
def pwrMgmtCap_windowMs : Fld := ⟨.pwrMgmtCap, 29, 16⟩
def pwrMgmtCap_capW : Fld := ⟨.pwrMgmtCap, 10, 0⟩
def pwrEnergy_energyMj : Fld := ⟨.pwrEnergy, 63, 0⟩
def pwrAvg_powerDw : Fld := ⟨.pwrAvg, 15, 0⟩
def pwrTightCfg_brakeMhz : Fld := ⟨.pwrTightCfg, 27, 16⟩
def pwrTightCfg_tightMhz : Fld := ⟨.pwrTightCfg, 11, 0⟩
def pwrThermCfg_critC : Fld := ⟨.pwrThermCfg, 23, 16⟩
def pwrThermCfg_alertC : Fld := ⟨.pwrThermCfg, 15, 8⟩
def pwrThermCfg_throttleC : Fld := ⟨.pwrThermCfg, 7, 0⟩
def pwrTemp_hottest : Fld := ⟨.pwrTemp, 15, 0⟩
def pwrHelioCfg_enable : Fld := ⟨.pwrHelioCfg, 63, 63⟩
def pwrHelioCfg_baseW : Fld := ⟨.pwrHelioCfg, 58, 48⟩
def pwrHelioCfg_floorW : Fld := ⟨.pwrHelioCfg, 47, 37⟩
def pwrHelioCfg_obj : Fld := ⟨.pwrHelioCfg, 31, 16⟩
def pwrHelioCfg_stepW : Fld := ⟨.pwrHelioCfg, 15, 8⟩
def pwrHelioCfg_slackMin : Fld := ⟨.pwrHelioCfg, 7, 0⟩
def pwrHelioStatus_balanceW : Fld := ⟨.pwrHelioStatus, 31, 16⟩
def pwrHelioStatus_targetW : Fld := ⟨.pwrHelioStatus, 11, 0⟩
def pwrBrakeCount_count : Fld := ⟨.pwrBrakeCount, 31, 0⟩
def pwrGrantLostCount_count : Fld := ⟨.pwrGrantLostCount, 31, 0⟩
def pwrHostCeiling_ceilingMhz : Fld := ⟨.pwrHostCeiling, 11, 0⟩
def clkStatus_targetMhz : Fld := ⟨.clkStatus, 27, 16⟩
def clkStatus_freqMhz : Fld := ⟨.clkStatus, 15, 4⟩
def clkStatus_stepping : Fld := ⟨.clkStatus, 3, 3⟩
def clkStatus_held : Fld := ⟨.clkStatus, 2, 2⟩
def clkStatus_stretch : Fld := ⟨.clkStatus, 1, 1⟩
def clkDroopCfg_thresholdMv : Fld := ⟨.clkDroopCfg, 7, 0⟩
def clkLimit_ledgerMhz : Fld := ⟨.clkLimit, 11, 0⟩
def clkDroopCount_count : Fld := ⟨.clkDroopCount, 31, 0⟩
def clkStretchCycles_count : Fld := ⟨.clkStretchCycles, 63, 0⟩
def truStatus_recovery : Fld := ⟨.truStatus, 8, 8⟩
def truStatus_sealOpen : Fld := ⟨.truStatus, 7, 7⟩
def truStatus_debugUnlocked : Fld := ⟨.truStatus, 5, 5⟩
def truStatus_trial : Fld := ⟨.truStatus, 4, 4⟩
def truStatus_ownerKey : Fld := ⟨.truStatus, 3, 3⟩
def truStatus_ownerLock : Fld := ⟨.truStatus, 2, 2⟩
def truStatus_activeBank : Fld := ⟨.truStatus, 0, 0⟩
def truUpdateStatus_outcome : Fld := ⟨.truUpdateStatus, 31, 28⟩
def truUpdateStatus_reason : Fld := ⟨.truUpdateStatus, 27, 24⟩
def truUpdateStatus_state : Fld := ⟨.truUpdateStatus, 23, 20⟩
def truUpdateStatus_master : Fld := ⟨.truUpdateStatus, 19, 18⟩
def truUpdateChunks_total : Fld := ⟨.truUpdateChunks, 30, 16⟩
def truUpdateChunks_staged : Fld := ⟨.truUpdateChunks, 14, 0⟩
def truTrial_trialBoots : Fld := ⟨.truTrial, 17, 16⟩
def truTrial_secondsLeft : Fld := ⟨.truTrial, 9, 0⟩
def truSealCount_count : Fld := ⟨.truSealCount, 31, 0⟩
def truSettings_storedFormat : Fld := ⟨.truSettings, 31, 16⟩
def truSettings_imageFormat : Fld := ⟨.truSettings, 15, 0⟩
def truFuse_hwType : Fld := ⟨.truFuse, 31, 16⟩
def truFuse_revoked : Fld := ⟨.truFuse, 11, 8⟩
def truFuse_svn : Fld := ⟨.truFuse, 7, 0⟩
def seqState_slot : Fld := ⟨.seqState, 19, 16⟩
def seqState_state : Fld := ⟨.seqState, 3, 0⟩
def seqSchedule_schedule : Fld := ⟨.seqSchedule, 63, 0⟩
def seqSlipCycles_cycles : Fld := ⟨.seqSlipCycles, 31, 0⟩
def seqWaitCycles_cycles : Fld := ⟨.seqWaitCycles, 31, 0⟩
def seqReplayCount_replays : Fld := ⟨.seqReplayCount, 15, 0⟩
def seqReplayCycles_cycles : Fld := ⟨.seqReplayCycles, 31, 0⟩
def seqWatchdog_enable : Fld := ⟨.seqWatchdog, 31, 31⟩
def seqWatchdog_limitUs : Fld := ⟨.seqWatchdog, 15, 0⟩
def seqInstallFault_reason : Fld := ⟨.seqInstallFault, 31, 28⟩
def seqInstallFault_slot : Fld := ⟨.seqInstallFault, 27, 24⟩
def seqInstallFault_bundle : Fld := ⟨.seqInstallFault, 18, 0⟩
def seqSlotBase_base : Fld := ⟨.seqSlotBase, 47, 0⟩
def seqSlotInfo_installed : Fld := ⟨.seqSlotInfo, 31, 31⟩
def seqSlotInfo_bundles : Fld := ⟨.seqSlotInfo, 18, 0⟩
def seqSlotCrc_crc : Fld := ⟨.seqSlotCrc, 31, 0⟩
def arrPathStatus_a3Path : Fld := ⟨.arrPathStatus, 7, 6⟩
def arrPathStatus_a2Path : Fld := ⟨.arrPathStatus, 5, 4⟩
def arrPathStatus_a1Path : Fld := ⟨.arrPathStatus, 3, 2⟩
def arrPathStatus_a0Path : Fld := ⟨.arrPathStatus, 1, 0⟩
def arrResidueCount_a3Count : Fld := ⟨.arrResidueCount, 31, 24⟩
def arrResidueCount_a2Count : Fld := ⟨.arrResidueCount, 23, 16⟩
def arrResidueCount_a1Count : Fld := ⟨.arrResidueCount, 15, 8⟩
def arrResidueCount_a0Count : Fld := ⟨.arrResidueCount, 7, 0⟩
def arrTransitCount_a3Count : Fld := ⟨.arrTransitCount, 31, 24⟩
def arrTransitCount_a2Count : Fld := ⟨.arrTransitCount, 23, 16⟩
def arrTransitCount_a1Count : Fld := ⟨.arrTransitCount, 15, 8⟩
def arrTransitCount_a0Count : Fld := ⟨.arrTransitCount, 7, 0⟩
def arrStallA0_stallCycles : Fld := ⟨.arrStallA0, 31, 0⟩
def arrStallA1_stallCycles : Fld := ⟨.arrStallA1, 31, 0⟩
def arrStallA2_stallCycles : Fld := ⟨.arrStallA2, 31, 0⟩
def arrStallA3_stallCycles : Fld := ⟨.arrStallA3, 31, 0⟩
def accCheckCount_a3Count : Fld := ⟨.accCheckCount, 31, 24⟩
def accCheckCount_a2Count : Fld := ⟨.accCheckCount, 23, 16⟩
def accCheckCount_a1Count : Fld := ⟨.accCheckCount, 15, 8⟩
def accCheckCount_a0Count : Fld := ⟨.accCheckCount, 7, 0⟩
def accNonfiniteCount_a3Count : Fld := ⟨.accNonfiniteCount, 31, 24⟩
def accNonfiniteCount_a2Count : Fld := ⟨.accNonfiniteCount, 23, 16⟩
def accNonfiniteCount_a1Count : Fld := ⟨.accNonfiniteCount, 15, 8⟩
def accNonfiniteCount_a0Count : Fld := ⟨.accNonfiniteCount, 7, 0⟩
def accLapseCount_a3Count : Fld := ⟨.accLapseCount, 31, 24⟩
def accLapseCount_a2Count : Fld := ⟨.accLapseCount, 23, 16⟩
def accLapseCount_a1Count : Fld := ⟨.accLapseCount, 15, 8⟩
def accLapseCount_a0Count : Fld := ⟨.accLapseCount, 7, 0⟩
def accSpillA0_spills : Fld := ⟨.accSpillA0, 31, 0⟩
def accSpillA1_spills : Fld := ⟨.accSpillA1, 31, 0⟩
def accSpillA2_spills : Fld := ⟨.accSpillA2, 31, 0⟩
def accSpillA3_spills : Fld := ⟨.accSpillA3, 31, 0⟩
def vecFlags_invalid : Fld := ⟨.vecFlags, 4, 4⟩
def vecFlags_divByZero : Fld := ⟨.vecFlags, 3, 3⟩
def vecFlags_overflow : Fld := ⟨.vecFlags, 2, 2⟩
def vecFlags_underflow : Fld := ⟨.vecFlags, 1, 1⟩
def vecFlags_inexact : Fld := ⟨.vecFlags, 0, 0⟩
def vecCheckCount_count : Fld := ⟨.vecCheckCount, 31, 0⟩
def vecNonfiniteCount_count : Fld := ⟨.vecNonfiniteCount, 31, 0⟩
def vecSrStep_step : Fld := ⟨.vecSrStep, 31, 0⟩
def vecScalar0_value : Fld := ⟨.vecScalar0, 63, 0⟩
def vecScalar1_value : Fld := ⟨.vecScalar1, 63, 0⟩
def vecScalar2_value : Fld := ⟨.vecScalar2, 63, 0⟩
def vecScalar3_value : Fld := ⟨.vecScalar3, 63, 0⟩
def vecScalar4_value : Fld := ⟨.vecScalar4, 63, 0⟩
def vecScalar5_value : Fld := ⟨.vecScalar5, 63, 0⟩
def vecScalar6_value : Fld := ⟨.vecScalar6, 63, 0⟩
def vecScalar7_value : Fld := ⟨.vecScalar7, 63, 0⟩
def updRetryCount_count : Fld := ⟨.updRetryCount, 31, 0⟩
def updCheckCount_count : Fld := ⟨.updCheckCount, 31, 0⟩
def updFallbackCount_count : Fld := ⟨.updFallbackCount, 31, 0⟩
def updRootFailCount_count : Fld := ⟨.updRootFailCount, 31, 0⟩
def updFrozenCount_count : Fld := ⟨.updFrozenCount, 63, 0⟩
def almCtrl_restart : Fld := ⟨.almCtrl, 8, 8⟩
def almCtrl_shape : Fld := ⟨.almCtrl, 3, 0⟩
def almStart_e0 : Fld := ⟨.almStart, 31, 0⟩
def almPeak_ep : Fld := ⟨.almPeak, 31, 0⟩
def almFloor_fl : Fld := ⟨.almFloor, 31, 0⟩
def almWarmup_w : Fld := ⟨.almWarmup, 31, 0⟩
def almPeriod_d : Fld := ⟨.almPeriod, 31, 0⟩
def almRatio_rho : Fld := ⟨.almRatio, 31, 0⟩
def spmResStatus_tagValid : Fld := ⟨.spmResStatus, 16, 16⟩
def spmResStatus_lastBegin : Fld := ⟨.spmResStatus, 9, 8⟩
def spmResStatus_windows : Fld := ⟨.spmResStatus, 4, 0⟩
def spmRereadCount_count : Fld := ⟨.spmRereadCount, 31, 0⟩
def spmFailCount_count : Fld := ⟨.spmFailCount, 31, 0⟩
def spmPoisonCount_count : Fld := ⟨.spmPoisonCount, 31, 0⟩
def spmZeroStatus_busy : Fld := ⟨.spmZeroStatus, 0, 0⟩
def spmResWindow_length64k : Fld := ⟨.spmResWindow, 63, 40⟩
def spmResWindow_base64k : Fld := ⟨.spmResWindow, 31, 0⟩
def hbmStatus_changePending : Fld := ⟨.hbmStatus, 24, 24⟩
def hbmStatus_usablePcs : Fld := ⟨.hbmStatus, 8, 0⟩
def hbmRereadCount_count : Fld := ⟨.hbmRereadCount, 31, 0⟩
def hbmFailCount_count : Fld := ⟨.hbmFailCount, 31, 0⟩
def hbmPoisonCount_count : Fld := ⟨.hbmPoisonCount, 31, 0⟩
def hbmOdeccCorrCount_count : Fld := ⟨.hbmOdeccCorrCount, 31, 0⟩
def hbmOdeccUncorrCount_count : Fld := ⟨.hbmOdeccUncorrCount, 31, 0⟩
def hbmCxlPoisonCount_count : Fld := ⟨.hbmCxlPoisonCount, 31, 0⟩
def hbmScrubStatus_accel : Fld := ⟨.hbmScrubStatus, 31, 31⟩
def hbmScrubStatus_passes : Fld := ⟨.hbmScrubStatus, 15, 0⟩
def hbmPcState_pcStates : Fld := ⟨.hbmPcState, 31, 0⟩
def synFarBase_base : Fld := ⟨.synFarBase, 47, 0⟩
def synFarCount_count : Fld := ⟨.synFarCount, 24, 0⟩
def synSignalCount_count : Fld := ⟨.synSignalCount, 31, 0⟩
def synReleaseCount_count : Fld := ⟨.synReleaseCount, 31, 0⟩
def synTimeoutCount_count : Fld := ⟨.synTimeoutCount, 31, 0⟩
def synLostCount_count : Fld := ⟨.synLostCount, 31, 0⟩
def synSaturateCount_count : Fld := ⟨.synSaturateCount, 31, 0⟩
def synWaitTicks_count : Fld := ⟨.synWaitTicks, 63, 0⟩
def colStatus_active : Fld := ⟨.colStatus, 7, 0⟩
def colRunCount_count : Fld := ⟨.colRunCount, 31, 0⟩
def colPartialCount_count : Fld := ⟨.colPartialCount, 31, 0⟩
def colAbortCount_count : Fld := ⟨.colAbortCount, 31, 0⟩
def colRetryCount_count : Fld := ⟨.colRetryCount, 31, 0⟩
def colDropCount_count : Fld := ⟨.colDropCount, 31, 0⟩
def colLinkEventCount_count : Fld := ⟨.colLinkEventCount, 31, 0⟩
def fabRouteCtrl_routeValid : Fld := ⟨.fabRouteCtrl, 8, 8⟩
def fabRouteCtrl_commit : Fld := ⟨.fabRouteCtrl, 4, 4⟩
def fabRouteCtrl_epoch : Fld := ⟨.fabRouteCtrl, 3, 0⟩
def fabPortMode_ports : Fld := ⟨.fabPortMode, 15, 0⟩
def fabMcastPorts_ports : Fld := ⟨.fabMcastPorts, 15, 0⟩
def fabThrottleCfg_floorShift : Fld := ⟨.fabThrottleCfg, 23, 20⟩
def fabThrottleCfg_decShift : Fld := ⟨.fabThrottleCfg, 19, 16⟩
def fabThrottleCfg_recoverUs : Fld := ⟨.fabThrottleCfg, 15, 8⟩
def fabThrottleCfg_holdUs : Fld := ⟨.fabThrottleCfg, 7, 0⟩
def fabSampleCfg_enable : Fld := ⟨.fabSampleCfg, 31, 31⟩
def fabSampleCfg_intervalLog2 : Fld := ⟨.fabSampleCfg, 4, 0⟩
def fabLinkReplayCount_count : Fld := ⟨.fabLinkReplayCount, 31, 0⟩
def fabRetrainCount_count : Fld := ⟨.fabRetrainCount, 31, 0⟩
def fabDetourCount_count : Fld := ⟨.fabDetourCount, 31, 0⟩
def fabRetxCount_count : Fld := ⟨.fabRetxCount, 31, 0⟩
def fabStaleCount_count : Fld := ⟨.fabStaleCount, 31, 0⟩
def fabDupCount_count : Fld := ⟨.fabDupCount, 31, 0⟩
def fabMisrouteCount_count : Fld := ⟨.fabMisrouteCount, 31, 0⟩
def fabMarkCount_count : Fld := ⟨.fabMarkCount, 31, 0⟩
def fabSampleSkipCount_count : Fld := ⟨.fabSampleSkipCount, 31, 0⟩
def fabPortState_lanesRetired : Fld := ⟨.fabPortState, 31, 24⟩
def fabPortState_lanes : Fld := ⟨.fabPortState, 15, 12⟩
def fabPortState_state : Fld := ⟨.fabPortState, 11, 10⟩
def fabPortOutstanding_packets : Fld := ⟨.fabPortOutstanding, 19, 0⟩
end F

end Sys2Proof.Machine
end

