-- ==== Sys2Proof/Machine/State.lean ====
section
/-! DEFINITION. The state of the module as plain data, the outcomes a step can have, and the state right after reset.
Registers are held by their key (register, die, unit); a register not listed holds its reset value. Everything else the
manual gives the module is a field below, under the rule that names it. -/

namespace Sys2Proof.Machine

/-- Why a step could stop the machine. The manual gives every failure of the module a completion status, a record or a
count, so no command of this model raises a fault. Safe. -/
inductive Fault where
  /-- raised by no command: kept so that the type has a name to give -/
  | noneRaised
deriving DecidableEq, Repr

/-- Why a command could be refused. -/
inductive Refusal where
  /-- a command that has no meaning yet, by its mnemonic: raised by no arm once every command has its meaning. Safe. -/
  | notModelled (mnemonic : String)
deriving DecidableEq, Repr

/-- A range of device bytes. -/
structure Span where
  base : Nat
  len : Nat
deriving DecidableEq, Repr

/-! ## Arrays and accumulators -/

/-- An accumulator entry (R175). -/
structure AccEntry where
  value : BitVec 36
  check : BitVec 5
  empty : Bool
  tally : Nat
  reduction : BitVec 2
  fresh : Bool
  opened : Bool
  landed : Bool
deriving DecidableEq, Repr

/-- What PLATE binds to entry rows (R180, R184). `plate` is a byte offset into the core's memory. -/
structure Binding where
  accRow : Nat
  rows : Nat
  cols : Nat
  integer : Bool
  exposure : Nat
  plate : Nat
deriving DecidableEq, Repr

/-- A stationary tile: the fields of the MLOAD that loads it (R121, R271), and the bytes its port has read of each column so far
(R859): line j of column n under n × 64 + j, the column's scale bytes under n × 64 + 63. -/
structure Tile where
  /-- the load that brings it: the number of the array's load, 0 for the empty tile -/
  id : Nat
  word : Nat
  fmt : Nat
  k : Nat
  n : Nat
  degradable : Bool
  degraded : Bool
  /-- loaded over the broadcast path (R145, R150) -/
  bcast : Bool
  got : Map Bytes
deriving DecidableEq, Repr

/-- A load of a tile whose reads or parity checks are not over (R140, R150, R153, R859): the issue cycle and the path of each of
its loads, and the checks that fail: cycle, and 0 for a transit check, 1 for a broadcast load, 2 for the third one that fails. -/
structure LoadRun where
  bundle : Nat
  id : Nat
  word : Nat
  starts : List (Int × Bool)
  checks : List (Int × Nat)
  /-- the cycle after its last read and its last check -/
  done : Int
  lf : LineFaults
deriving DecidableEq, Repr

/-- A pass that is not complete (R136, R137, R185): its start cycle, the tile it uses, the bindings in force when it started, and
the bytes its port has read: line j of stream row r under r × 64 + j, the row's scale bytes under r × 64 + 63. -/
structure PassRun where
  bundle : Nat
  word : Nat
  start : Int
  tile : Tile
  bound : Map Binding
  got : Map Bytes
  lf : LineFaults
  /-- re-executed after a replay (R232, R282) -/
  redo : Bool
  /-- the schedule cycle in which it started (R204) -/
  cycle : Nat
deriving DecidableEq, Repr

/-- What a drain adds up over its window (R212, R213). -/
structure DrainSum where
  kind : Nat
  row : Nat
  col : Nat
  lapsed : Nat
  maxCount : Nat
  special : Bool
deriving DecidableEq, Repr

/-- A drain that is not complete (R205): its start cycle, its binding, the tag of its write-backs, whether it runs within a replay,
what it has added up, and the writes of the row read last, which go out in the next cycle. -/
structure DrainRun where
  bundle : Nat
  word : Nat
  start : Int
  binding : Binding
  tag : Nat
  redo : Bool
  sum : DrainSum
  out : List (Nat × Bytes)
  er : EngineRun
deriving DecidableEq, Repr

/-- The most recent pass of an array (R143, R146): start cycle, stream rows, issue interval, PE rows, columns. -/
structure PassRec where
  start : Int
  rows : Nat
  interval : Nat
  kRows : Nat
  cols : Nat
deriving DecidableEq, Repr

/-- A spill that has not yet taken effect (R187, R189). -/
structure PendingSpill where
  row : Nat
  col : Nat
  value : BitVec 36
  reduction : BitVec 2
  tally : Nat
  /-- the schedule cycle of the accumulator write that ended the exposure: the tag, and the order of R191 -/
  cycle : Nat
  /-- the cycle of the array's own clock in which it takes effect -/
  due : Int
  binding : Binding
  /-- the bundle of the pass that ended the exposure -/
  bundle : Nat
deriving DecidableEq, Repr

/-- One matrix array with its operand buffer, accumulators, bindings and the work it has not completed. -/
structure ArrayState where
  /-- the cycle its stages stand in: it runs with the schedule counter, and goes on alone in an interlock wait (R852) -/
  clock : Int
  /-- the stages have done the work of this cycle -/
  worked : Bool
  /-- operand buffer bytes, 0 where unlisted (R50, R405) -/
  opbuf : Map Byte
  active : Tile
  pendingTile : Option Tile
  /-- issue cycle of the MLOAD of the pending tile, or of its last reload (R143, R150, R153) -/
  loadCycle : Int
  /-- loads issued so far: the number of the last one -/
  lastLoad : Nat
  lastPass : Option PassRec
  /-- cycle at which the last drain is complete (R204) -/
  drainDone : Int
  loads : List LoadRun
  passes : List PassRun
  drains : List DrainRun
  acc : Map AccEntry
  bound : Map Binding
  spills : List PendingSpill
  /-- entries reached by a pass or drain of the window (R231) -/
  reached : List Nat
  /-- operand-buffer lines whose stored code is the inverse of the one over their bytes (R845) -/
  poison : List Nat
  /-- armed operand-buffer lines (R279) -/
  armed : List Nat
  lineHit : Bool
  /-- consecutive failed loads of the tile over the broadcast path (R153) -/
  failedLoads : Nat
  /-- rows an MPASS has merged into since their last PLATE, with no DRAIN over them in between (R182) -/
  merged : List Nat
deriving DecidableEq, Repr

/-! ## Synchronisation -/

/-- Who holds a WAIT (R461, R476, R624). -/
inductive Waiter where
  | core (key : Nat) | collective (key : Nat) | companion (key : Nat)
deriving DecidableEq, Repr

/-- A WAIT on its way to an object or held at it (R461, R466, R467): `issued` is the stamp of its issue, `arrival` the stamp at which it
reaches the unit of its object's die. -/
structure WaitReq where
  far : Bool
  index : Nat
  target : Nat
  consume : Bool
  bound : Nat
  issued : Nat
  waiter : Waiter
  arrival : Nat
deriving DecidableEq, Repr

/-- A SIGNAL's fields (R460) with its flow number (R520). -/
structure SignalReq where
  far : Bool
  endpoint : Nat
  index : Nat
  increment : Nat
  flow : Nat
deriving DecidableEq, Repr

/-- A SIGNAL at the unit of its object's die (R455, R464, R667): its sender's endpoint and send stamp, and the stamp at which it reaches
the unit. -/
structure SignalMsg where
  far : Bool
  index : Nat
  increment : Nat
  src : Nat
  sent : Nat
  arrival : Nat
deriving DecidableEq, Repr

/-- A synchronisation object (R455). -/
structure SyncObj where
  count : Nat
  lastSrc : Nat
  lastStamp : Nat
deriving DecidableEq, Repr

/-- The synchronisation unit of a die: near objects, SIGNALs and WAITs that reach it and have not been taken, and the
WAITs held at each object (near index i is key i, far index k is key 65,536 + k). -/
structure SyncUnit where
  near : Map SyncObj
  signals : List SignalMsg
  arriving : List WaitReq
  held : Map (List WaitReq)
deriving DecidableEq, Repr

/-- What one die tells the other over the span bridge (R35, R454, R660, R667): a SIGNAL or a WAIT for an object that the other die
serves, the release of a WAIT or its TIMEOUT, and a change of synced. -/
inductive BridgeBody where
  | signal (m : SignalMsg)
  | wait (w : WaitReq)
  | release (waiter : Waiter)
  | timeout (waiter : Waiter)
  | synced (on : Bool) (theta delta : Int)
deriving DecidableEq, Repr

/-- A message on the span bridge: the die it goes to, the sending die's stamp, and the stamp of the receiving die's counter at which it
is there. -/
structure BridgeMsg where
  dest : Nat
  sent : Nat
  due : Nat
  body : BridgeBody
deriving DecidableEq, Repr

/-! ## Cores -/

/-- Why a core is frozen (R265), with the slip cycles where the command that met it gives them. -/
inductive FreezeCond where
  | feedLate (cycles : Nat)
  | lineReread (cycles : Nat)
  | plateReread (cycles : Nat)
  | engineInput (cycles : Nat)
  | bundleFetch (cycles : Nat)
  | backInvalidate (line : Nat)
  | waitHeld
  /-- the WAIT has been released and the core has not resumed yet -/
  | waitOver
deriving DecidableEq, Repr

/-- The place of a SIGNAL in the stream: its bundle (R275). -/
structure OutCmd where
  bundle : Nat
deriving DecidableEq, Repr

/-- A feed whose reads are out and whose bytes have not landed (R131, R272): its bundle and its word. -/
structure FeedRead where
  bundle : Nat
  word : Nat
  issue : Int
  array : Nat
  lines : List (Nat × Bytes)
deriving DecidableEq, Repr

/-- A guard of the current window (R276, R277). -/
structure Guard where
  base : Nat
  len : Nat
  armed : Bool
  hit : Bool
deriving DecidableEq, Repr

/-- The snapshot of R271 at the current replay point, and the counts that go with the point. -/
structure ReplayPt where
  /-- placed by its bundle's replay_mark, and not by the start of the stream (R270) -/
  marked : Bool
  bundle : Nat
  cycle : Nat
  /-- the issue cycle of the bundle before it (R257) -/
  before : Nat
  /-- the CRC-32 register over the bundles before it (R248, R851) -/
  crc : Nat
  /-- the Lifetime J registers of the core's VEC and UPD pages, by register key (R271, R374) -/
  regs : Map (BitVec 64)
  active : List (Nat × Tile)
  pendingTiles : List (Nat × Tile)
  signalsSent : Nat
  waitsReleased : Nat
  attempts : Nat
  /-- of the SIGNALs and WAITs above, those still to be passed over while re-executing (R282) -/
  skipSignals : Nat
  skipWaits : Nat
  /-- bundles of the FEEDs carried into the window (R272) -/
  carried : List Nat
  /-- bundles of carried FEEDs whose bytes had all arrived at a failure: they are not re-executed (R282) -/
  arrived : List Nat
  /-- the failed cycles of the point's replays, latest first (R232, R284) -/
  redo : List Nat
deriving DecidableEq, Repr

/-- A command that waits at an interlock (R149, R204, R325, R359): the cycles still to wait. -/
structure Interlocked where
  wait : Nat
deriving DecidableEq, Repr

/-- A vector instruction that is not complete (R321, R324): its start cycle, the registers it reads as they stood then, the bytes
that each of its groups has read, the group and the row of core memory that failed, and the exceptions of the groups written (as bits
of VEC_FLAGS) and whether one of them wrote a NaN or an infinity. -/
structure VecRun where
  bundle : Nat
  word : Nat
  start : Int
  regs : Map (BitVec 64)
  got : Map (List (Nat × Bytes))
  failed : Option (Nat × Nat)
  exc : Nat
  nonfinite : Bool
  er : EngineRun
deriving DecidableEq, Repr

/-- The vector engine (R324, R325): its clock (R852), the last instruction's start and busy cycles, the instructions that are not
complete, and what they write. -/
structure VecEngine where
  clock : Int
  worked : Bool
  start : Int
  busy : Nat
  done : Int
  runs : List VecRun
  /-- written ranges of incomplete instructions, with their completion cycles -/
  writes : List (Span × Int)
  /-- written scalar registers (0 to 7, 8 SR step, 9 flags) with completion cycles -/
  regWrites : List (Nat × Int)
  flagsDone : Int
deriving DecidableEq, Repr

/-- An update command that is not complete (R361): its start cycle, the bytes its reads brought, the learning rate and the
multiplier as binary32 codes, and whether a tile fell back to the element direction or a root failed. -/
structure UpdRun where
  bundle : Nat
  word : Nat
  start : Int
  got : Map Byte
  eta : Nat
  fallback : Bool
  er : EngineRun
deriving DecidableEq, Repr

/-- The update engine (R359 to R361): its clock (R852), the completion cycle of its last command, the command in progress, and the
bytes read ahead for commands that have not issued, by bundle. -/
structure UpdEngine where
  clock : Int
  worked : Bool
  done : Int
  run : Option UpdRun
  ahead : Map (Map Byte)
deriving DecidableEq, Repr

/-- One compute core. -/
structure CoreState where
  arrays : Map ArrayState
  /-- inherited lists by slot: engine codes and command words (R244) -/
  inherited : Map (List (Nat × Nat))
  /-- descriptor count of the RUN in progress -/
  runDesc : Option Nat
  /-- the bundle due next, and the issue cycle of the one before it (R257) -/
  bundle : Nat
  prevCycle : Nat
  /-- the stream buffer: the fetched bundles from the one due next on (R851) -/
  buffer : List Nat
  /-- the issue cycle of the bundle fetched last -/
  fetchCycle : Nat
  /-- the CRC-32 register over the bundles before the one due next (R248) -/
  crc : Nat
  /-- what the fetch unit meets in the rows of the stream, and the bundles that reach the buffer late, with the cycles of each (R249, R851) -/
  fetchMf : MemFaults
  fetchLate : List (Nat × Nat)
  markDone : Bool
  wideDone : Bool
  freeze : List FreezeCond
  interlocked : Option Interlocked
  /-- slip cycles since the last cycle that was not frozen (R269) -/
  slipRun : Nat
  /-- cycles of the present freeze that have passed and are not counted yet (R267) -/
  frozen : Nat
  flags : BitVec 16
  ended : Option (Nat × Nat)
  signals : List (SignalReq × OutCmd)
  feeds : List FeedRead
  guards : Map Guard
  point : Option ReplayPt
  /-- the failed cycle of the replay whose pause runs (R281) -/
  replaying : Option Nat
  /-- the cycles of that pause which the commands issued before the point took to complete -/
  pauseWork : Nat
  /-- degradation decisions by MLOAD bundle (R160, R715) -/
  degraded : List (Nat × Bool)
  vec : VecEngine
  upd : UpdEngine
  layers : Map Byte
  /-- failures met by commands and not yet acted on (R273, R281) -/
  detected : List Failure
deriving DecidableEq, Repr

/-! ## Rings, records and the host interface -/

/-- A fetched descriptor: its count and its 64 bytes. `orphan`: its record goes to the ephemeris only (R576, R609). -/
structure Desc where
  k : Nat
  bytes : Bytes
  orphan : Bool
deriving DecidableEq, Repr

/-- A completion to be written (R584). `held`: it waits for the next control step (R726). -/
structure Completion where
  k : Nat
  tag : Nat
  kind : Nat
  status : Nat
  flags : Nat
  count : Nat
  detail : Nat
  /-- bits [59:0] of the completion SIGNAL still to be sent (R468); 0 sends nothing -/
  signal : Nat
  orphan : Bool
  held : Bool
deriving DecidableEq, Repr

/-- A submission ring's work beyond its registers (R580 to R583). -/
structure RingWork where
  fetched : List Desc
  active : List Desc
  toWrite : List Completion
  /-- counts written ahead of DONE on a core ring (R583) -/
  ahead : List Nat
  /-- bases and size as the ring was enabled: a draining ring's registers may already hold new ones (R574, R575) -/
  base : Nat
  cpl : Nat
  size : Nat
  /-- the ring has faulted since it was enabled: completion records go to the ephemeris only (R576) -/
  faulted : Bool
deriving DecidableEq, Repr

/-- An ephemeris record (R670). -/
structure Record where
  code : Nat
  unsynced : Bool
  flags : Nat
  seq : Nat
  stamp : Nat
  block : Nat
  unit : Nat
  payload : Nat
deriving DecidableEq, Repr

/-- The ephemeris of a die: the hold store and the losses not yet reported (R678 to R680). -/
structure Ephemeris where
  held : List Record
  lostFirst : Option Nat
  lostCount : Nat
deriving DecidableEq, Repr

/-- An event record that waits for room (R599, R600). -/
structure EventRec where
  code : Nat
  arg0 : Nat
  arg1 : Nat
  arg2 : Nat
  stamp : Nat
deriving DecidableEq, Repr

/-- A restart in progress (R761, R762). -/
inductive RestartKind where
  | device | activation
deriving DecidableEq, Repr

/-- A low-power state asked for or being entered (R689, R691). -/
inductive LowPower where
  | nap | dark
deriving DecidableEq, Repr

/-- The host interface beyond its registers. -/
structure HostIf where
  powered : Bool
  perstN : Bool
  linkUp : Bool
  rdybsyN : Bool
  d3hot : Bool
  restart : Option RestartKind
  /-- a delivery to RDYBSY_N not yet pulsed (R603) -/
  attention : Bool
  /-- an attention pulse has been sent and a source is still pending: the repeat timer runs (R603) -/
  repeating : Bool
  /-- stamp at which the last attention pulse began, and stamp at which RDYBSY_N was last let go high (R602, R603) -/
  pulsed : Option Nat
  highSince : Nat
  /-- report bytes still to be written to a host address (R774) -/
  reportOwed : Option (Nat × Bytes)
  lowPower : Option LowPower
  /-- count of the host's descriptor that asked for it (R608) -/
  lowPowerAsk : Option Nat
  wakePending : Bool
  /-- PERST_N fell in Dark (R775) -/
  darkPerst : Bool
  /-- LOC as sampled when PERST_N last rose in Dark (R765) -/
  darkLoc : Option Nat
  /-- the host interface has accepted configuration accesses since POR, PERST_N or Dark (R601) -/
  opened : Bool
deriving DecidableEq, Repr

/-- An action of R605 of the present Dome cycle: its item (1 job state, 2 power state, 3 firmware), its outcome there, its master's code
and its stamp (R607). Outcomes of item 1: 1 begin, 2 end, 3 kill; of item 2: 0 awake, 1 Nap, 2 Dark. -/
structure Act where
  item : Nat
  outcome : Nat
  master : Nat
  stamp : Nat
deriving DecidableEq, Repr

/-- What the module takes from a firmware image (R778): its body digest (none: the image programmed at manufacture, of `bank`),
security version, settings format, and whether it is a field diagnostic. -/
structure ImageInfo where
  bank : Nat
  digest : Option Nat
  svn : Nat
  fmt : Nat
  diag : Bool
deriving DecidableEq, Repr

/-- What the outside last read from the module. -/
structure Answers where
  /-- the last packet put on the wire and its module port -/
  wire : Option (Nat × Packet)
  /-- the pairs of codewords put on the lanes in this tick, by module port: the symbols of each lane in use (R510) -/
  lanes : Map (List (List Nat))
  bus : Nat
  /-- host memory requests completed as unsupported requests (R856) -/
  unsupported : Nat
  cxlData : Bytes
  cxlPoison : Bool
  /-- none: no configuration request yet; false: retry status; true: served (R604) -/
  config : Option Bool
  doe : Bytes
  i3c : Option Bytes
  almanac : Nat
  companion : Nat
  jtag : Option Byte
deriving DecidableEq, Repr

/-- The running job and the residency tag (R593, R400, R405). -/
structure JobState where
  key : Nat
  seed : Nat
  report : Nat
  tag : Nat
  /-- modules' cores offered by the resource report, by core key (R38, R595) -/
  cores : List Nat
  maxFreq : Nat
  shared0 : Nat
  shared1 : Nat
  far : Nat
  farBase : Nat
  /-- a job has ended and its fabric buffers are not yet discarded (R555) -/
  flushOwed : Bool
  /-- master code of a kill by a master other than the host that is not yet over, 0 for none (R597, R599) -/
  killer : Nat
deriving DecidableEq, Repr

/-! ## Collectives and fabric -/

/-- A run's state (R480). -/
inductive RunPhase where
  | waiting | running | ending
deriving DecidableEq, Repr

/-- A collective command in progress on a DMA ring (R476). -/
structure Collective where
  k : Nat
  tag : Nat
  op : Nat
  fmt : Nat
  carry : Nat
  stripes : Nat
  members : Nat
  group : Nat
  mgroup : Nat
  src : Nat
  dst : Nat
  elems : Nat
  start : Nat
  done : Nat
  recv : Nat
  runs : Nat
  bound : Nat
  signal : Nat
  table : List Nat
  own : Nat
  run : Nat
  phase : RunPhase
  /-- the start WAIT of the run has released (R480, R486) -/
  released : Bool
  /-- stamp of the run's start (R480) -/
  began : Nat
  digest : Nat
  status : Nat
  /-- flags of every run so far, and of this one -/
  flags : Nat
  runFlags : Nat
  /-- the run was stopped before it had executed to its end (R480, R495, R496) -/
  stopped : Bool
  /-- packets written per segment of this run: key stage × 2^20 + segment -/
  got : Map Nat
  /-- segments written to the own destination -/
  written : Nat
  acks : Nat
  refusals : Nat
  /-- endpoints that returned FENCED (R493) -/
  fenced : List Nat
  /-- packets that arrived before the start WAIT released (R486) -/
  early : List Packet
deriving DecidableEq, Repr

/-- A multicast being received (R492, R494): bytes seen, whether it was refused, the destination's own side of it, and the packet
whose recv SIGNAL and acknowledgement wait for writes to land (R468). -/
structure McastRx where
  seen : Nat
  refused : Bool
  run : McastRun
  owed : Option Packet
deriving DecidableEq, Repr

/-- A routing candidate (R525). -/
structure Candidate where
  port : Nat
  hops : Nat
  sel0 : Nat
  sel1 : Nat
  sel2 : Nat
deriving DecidableEq, Repr

/-- The sending side of a flow (R520, R532, R536, R540): the next sequence number, the packets not yet injected, those retained with
their attempts, the sequence numbers of retained packets still to be sent again, each with whether it is an attempt of R540 or a
re-injection of R551, and the candidate in use. -/
structure FlowTx where
  next : Nat
  queue : List Packet
  retained : List (Packet × Nat)
  resend : List (Nat × Bool)
  cand : Option Candidate
deriving DecidableEq, Repr

/-- The receiving side of a flow (R535, R538, R539). -/
structure FlowRx where
  expected : Nat
  held : List Packet
  sinceAck : Nat
  marks : Nat
deriving DecidableEq, Repr

/-- A flit that is not acknowledged (R511, R513, R514): its sequence number, type and 248 bytes of content, how often it has gone out,
whether that has exhausted its retry budget, and the lane its next resend counts against (R735). -/
structure TxFlit where
  seq : Nat
  kind : Nat
  content : Bytes
  attempts : Nat
  exhausted : Bool
  lane : Nat
deriving DecidableEq, Repr

/-- An optical port beyond its registers. -/
structure PortState where
  txSeq : Nat
  rxSeq : Nat
  /-- the replay buffer: flits sent and not acknowledged (R513) -/
  replayBuf : List TxFlit
  /-- the flits of the replay buffer that wait for the lanes, by sequence number, oldest first -/
  toWire : List Nat
  /-- packet bytes that do not fill a flit yet (R512) -/
  txPart : Bytes
  /-- a nak is to be returned, or an acknowledgement (R513) -/
  nakOwed : Bool
  ackOwed : Bool
  /-- credits to be returned to the partner, by channel (R515) -/
  owed : Map Nat
  /-- bytes received of a packet that is not whole yet, and whole packets the router has not taken (R512) -/
  rxBytes : Bytes
  rxPkts : List Packet
  /-- credits left per virtual channel, where not the partner's 64 at training (R515) -/
  credits : Map Nat
  /-- injection rate in kB/s, per channel 2 to 4, where below full (R542), and the stamp of the last decrease -/
  rate : Map Nat
  lastDecrease : Map Nat
  /-- lanes in use, lowest-numbered good ones (R509, R554) -/
  inUse : List Nat
  /-- lanes in use that have lost lock, with the stamp of the loss (R547) -/
  unlocked : Map Nat
  /-- failure detected; the response of R548 has started -/
  failing : Bool
  stratum : Nat
  /-- consecutive exchanges at which this port offered a lower stratum (R654) -/
  better : Nat
  sampleTx : Nat
  sampleRx : Nat
  lastSampleTx : Option Nat
  lastSampleRx : Option Nat
  /-- DETOUR: the flows of the downed port are still to be moved (R551) -/
  reinject : Bool
  /-- lane settings last used, by lane (R755, R757) -/
  settings : Map Nat
  /-- idle flits still to pass for a recalibration, and the flits sent since one was inserted (R755) -/
  idleOwed : Nat
  sinceIdle : Nat
deriving DecidableEq, Repr

/-! ## The rest -/

/-- A companion slot (R619, R621, R624): its region of control memory, 0 where unlisted, and whether a WAIT holds its program. -/
structure CompSlot where
  image : Map Byte
  waiting : Bool
deriving DecidableEq, Repr

/-- The privilege modes of a control core (R616). -/
inductive Privilege where
  | machine | supervisor | user
deriving DecidableEq, Repr

/-- A PMP entry: its configuration byte and its address register (R616). -/
structure PmpEntry where
  cfg : BitVec 8
  addr : BitVec 64
deriving DecidableEq, Repr

/-- A control core (R616, R618): its mode, its pc, its integer, floating-point and 512-bit vector registers, its CSRs by number, its 16
PMP entries, and mtimecmp. Registers that are not listed read 0. -/
structure ControlCore where
  mode : Privilege
  pc : BitVec 64
  x : Map (BitVec 64)
  f : Map (BitVec 64)
  v : Map (BitVec 512)
  csr : Map (BitVec 64)
  pmp : Map PmpEntry
  mtimecmp : Nat
deriving DecidableEq, Repr

/-- The control memory of a die beside the companion slots' regions (R616, R619): the image that the boot chain loaded, and the rows
that hold a poison code. -/
structure ControlMem where
  firmware : Option ImageInfo
  poison : List Nat
deriving DecidableEq, Repr

/-- Sidereal state of a die beyond its registers (R653 to R663). -/
structure SidState where
  /-- offset still to be slewed away, in ticks, and the ticks between two corrections of one tick (R658) -/
  slew : Int
  every : Nat
  /-- ticks since the last correction -/
  phase : Nat
  good : Nat
  /-- the request for time on its way to the lanes: its port and flit, and the stamp at which the last one was asked for (R657) -/
  request : Option (Nat × Nat)
  lastAsk : Option Nat
  /-- t1 of the request that is out -/
  asked : Option Nat
  /-- the rate correction, in parts of 2^32, and the part of a tick that it has gained or lost (R656, R658) -/
  rate : Int
  rateAcc : Int
  /-- the counter before the last tick: a multiple passed since then has been reached (R662, R676) -/
  prev : Nat
  /-- stamp of the last completed exchange (R659) -/
  lastExchange : Option Nat
  /-- stamp of the last edge of TIMEIN (R663) -/
  lastTimein : Option Nat
  /-- stamp of the last rising edge of TIMEOUT (R662) -/
  lastPulse : Option Nat
deriving DecidableEq, Repr

/-- A wait sample: a released WAIT's duration in ticks, its object and waiter, the object's last_src and last_stamp, and the stamp of
the release (R474, R719). -/
structure WaitSample where
  duration : Nat
  far : Bool
  index : Nat
  waiter : Waiter
  lastSrc : Nat
  lastStamp : Nat
  released : Nat
deriving DecidableEq, Repr

/-- The power controller beyond its registers (R694 to R720). -/
structure PowerState where
  /-- stamp of the last control step (R697) -/
  lastStep : Option Nat
  /-- energy of each past interval in mJ, latest first (R697) -/
  history : List Nat
  thermCeiling : Nat
  brakePin : Bool
  brakeSupply : Bool
  lastOrder : Nat
  /-- consecutive control steps with no tight condition (R713) -/
  calm : Nat
  /-- the wait samples passed to it, oldest first (R474) -/
  waits : List WaitSample
  /-- a grant to be sent: location, increment, and whether a control step has applied the lower target (R719) -/
  grant : Option (Nat × Nat × Bool)
  lowestCap : Nat
  thermAsserted : Bool
  /-- THERM_N held through a thermal Dark (R826) -/
  thermDark : Bool
  /-- stamp of the last Heliostat epoch boundary acted on (R719) -/
  lastEpoch : Option Nat
  /-- the balance b and the target of Heliostat in W, the target 0 while it is inactive (R718) -/
  balance : Int
  target : Nat
deriving DecidableEq, Repr

/-- A die's clock beyond its registers (R701 to R705). -/
structure ClockState where
  /-- the frequency the step in progress goes to -/
  stepTo : Option Nat
  droop : Bool
  overPower : Bool
  brake : Bool
  /-- a step held by droop resumes at this stamp (R703) -/
  heldUntil : Nat
  /-- stamp from which stretched cycles are still to be counted (R706) -/
  stretchFrom : Option Nat
  /-- the part of an arithmetic cycle that has passed, in MHz × ticks (R701) -/
  phase : Nat
deriving DecidableEq, Repr

/-- A ledger record (R747); `torn`: its crc fails (R748). -/
structure LedgerRec where
  kind : Nat
  state : Nat
  cause : Nat
  transients : Nat
  channel : Nat
  classedStamp : Nat
  appliedStamp : Nat
  value : Nat
  torn : Bool
deriving DecidableEq, Repr

/-- Fault classification (R737 to R750). A channel's key is kind × 2^20 + number. -/
structure FaultState where
  history : Map (List Nat)
  /-- 1 classed, 2 retired; absent: healthy -/
  channels : Map Nat
  /-- thresholds stored in flash, by kind, where not the default -/
  countSet : Map Nat
  windowSet : Map Nat
  /-- thresholds in force since the last job begin -/
  countNow : Map Nat
  windowNow : Map Nat
  /-- the log of the active region, and what the spare region holds (R746, R751) -/
  ledger : List LedgerRec
  spare : List LedgerRec
  /-- which of the two regions is active -/
  region : Nat
  /-- records written and not yet durable (R750) -/
  pendingRecs : List LedgerRec
  /-- lane groups of the span bridge retired (R36), and their retry counts -/
  bridgeRetired : List Nat
  bridgeTries : Map Nat
  /-- lane settings of the bridge's groups last used (R754, R757) -/
  bridgeSettings : Map Nat
  /-- pseudo-channels a factory reset returned and the next job begin applies (R436, R447) -/
  returned : Bool
deriving DecidableEq, Repr

/-- The flash-backed settings (R739, R792 to R794, R808). -/
structure Settings where
  ownerLock : Bool
  ownerKey : Bool
  ownerDigest : Nat
  bundleSeq : Nat
  salt : Nat
  capW : Nat
  capMs : Nat
  counts : Map Nat
  windows : Map Nat
deriving DecidableEq, Repr

/-- Trust state in fuses and flash, and what the last boot measured (R776, R780, R784, R795, R803, R808). A bank that is none
holds the image programmed at manufacture. -/
structure TrustState where
  activeBank : Nat
  trialBank : Nat
  trialSet : Bool
  trialBoots : Nat
  bank0 : Option (Map Byte)
  bank1 : Option (Map Byte)
  staging : Map Byte
  staged : List Nat
  session : Bool
  sessionLen : Nat
  sessionDigest : Nat
  ownerDigest : Nat
  bundleSeq : Nat
  salt : Nat
  draws : Nat
  running : ImageInfo
  aliasSalt : Nat
  bootSettings : Settings
  bootLedger : List LedgerRec
  /-- the stored settings, while a trial of a newer format runs on defaults (R803) -/
  saved : Option Settings
  /-- stamp at which the confirmation window of the trial began (R802) -/
  trialFrom : Nat
deriving DecidableEq, Repr

/-- A flash block of the settings store (R756): how often it was erased, whether it is retired, and the region of R808 whose live
contents it holds (0 and 1 the ledger regions, 2 and 3 the settings copies, 4 the boot record and the update state). -/
structure FlashBlock where
  erases : Nat
  retired : Bool
  live : Option Nat
deriving DecidableEq, Repr

/-- The settings store (R756, R808, R809): its blocks, the current settings copy and its write sequence. -/
structure FlashStore where
  /-- by block number; a block not listed is new and free -/
  blocks : Map FlashBlock
  copy : Nat
  sequence : Nat
deriving DecidableEq, Repr

/-- The I3C target (R827 to R832). -/
structure MgmtState where
  addr : Option Nat
  lastTelemetry : Option Record
deriving DecidableEq, Repr

/-- An accelerated range: its first sector, the sector it scrubs next, and the sector past its end (R441). -/
structure AccelRange where
  first : Nat
  next : Nat
  past : Nat
deriving DecidableEq, Repr

/-- Patrol scrub of one pseudo-channel (R439, R441). -/
structure ScrubState where
  next : Nat
  passes : Nat
  /-- accelerated ranges in the order they were found (R441) -/
  accel : List AccelRange
  /-- sectors that reported corrected severity, to be scrubbed next (R428) -/
  queued : List Nat
deriving DecidableEq, Repr

/-- The module. -/
structure State where
  pending : List Instr
  freeCtr : Nat
  regs : Map (BitVec 64)
  mem : Map Byte
  hostMem : Map Byte
  /-- rows of SRAM (by first byte, 128-byte rows) and sectors of HBM (32-byte) that hold a poison code (R389, R427) -/
  poison : List Nat
  /-- lines the host may hold, oldest first, per die (R432) -/
  snoop : Map (List Nat)
  /-- device writes that wait for a back-invalidate response: line and its bytes (R433) -/
  heldWrites : List (Nat × Map Byte)
  scrub : Map ScrubState
  /-- pseudo-channels out of the usable list now in force (R421) -/
  unusable : List Nat
  cores : Map CoreState
  sync : Map SyncUnit
  /-- messages on the span bridge, oldest first (R35, R666) -/
  bridge : List BridgeMsg
  cols : Map Collective
  /-- packets that wait for a command of their die, by die (R486) -/
  colWaiting : Map (List Packet)
  /-- digests of the runs that ended since the last job began, by die, with whether they ended with OK (R499) -/
  colEnded : Map (List (Nat × Bool))
  /-- multicasts being received: key ((source × 2 + die) × 16 + flow / 16) × 2^32 + digest -/
  mcasts : Map McastRx
  routes : Map Nat
  flowsTx : Map FlowTx
  flowsRx : Map FlowRx
  ports : Map PortState
  rings : Map RingWork
  host : HostIf
  answers : Answers
  eph : Map Ephemeris
  events : Map (List EventRec)
  /-- the hold-off timers that run, by die × 32 + group: the stamp at which they expire (R630) -/
  icuTimers : Map Nat
  comps : Map CompSlot
  /-- the control cores, by die × 8 + core, and the control memories, by die (R616) -/
  ctlCores : Map ControlCore
  ctlMem : Map ControlMem
  sid : Map SidState
  pwr : PowerState
  clk : Map ClockState
  flt : FaultState
  tru : TrustState
  flash : FlashStore
  /-- the contradictable actions of the present Dome cycle (R607) -/
  acts : List Act
  mgmt : MgmtState
  job : JobState
deriving DecidableEq, Repr

/-- The empty tile every array holds at job begin (R127). -/
def Tile.empty : Tile := ⟨0, 0, 0, 0, 0, false, false, false, []⟩

/-- The settings' defaults (R739, R794). -/
def Settings.default : Settings := ⟨false, false, 0, 0, 0, 1800, 1000, [], []⟩

/-- The image a bank holds from manufacture. -/
def ImageInfo.factory (bank : Nat) : ImageInfo := ⟨bank, none, 0, 0, false⟩

/-- The settings store as it leaves manufacture: each region in a block of its own, the other blocks free, none erased (log entry
124). -/
def FlashStore.new : FlashStore :=
  ⟨[(0, ⟨0, false, some 0⟩), (1, ⟨0, false, some 1⟩), (2, ⟨0, false, some 2⟩), (3, ⟨0, false, some 3⟩), (4, ⟨0, false, some 4⟩)],
    0, 0⟩

/-- The module right after reset: power-up has ended under R771 with PERST_N low, every register at its reset value,
memories zeroed, no job, no ring enabled, the link down and RDYBSY_N low (R601). What the manual gives no value for is
named in log entries 2 to 5. -/
def State.reset : State where
  pending := []
  freeCtr := 0
  regs := []
  mem := []
  hostMem := []
  poison := []
  snoop := []
  heldWrites := []
  scrub := []
  unusable := []
  cores := []
  sync := []
  bridge := []
  cols := []
  colWaiting := []
  colEnded := []
  mcasts := []
  routes := []
  flowsTx := []
  flowsRx := []
  ports := []
  rings := []
  host := ⟨true, false, false, false, false, none, false, false, none, 0, none, none, none, false, false, none, false⟩
  answers := ⟨none, [], 0, 0, [], false, none, [], none, 0, 0, none⟩
  eph := []
  events := []
  icuTimers := []
  comps := []
  ctlCores := []
  ctlMem := []
  sid := []
  pwr := ⟨none, [], 1250, false, false, 500, 0, [], none, 1800, false, false, none, 0, 0⟩
  clk := []
  flt := ⟨[], [], [], [], [], [], [], [], 0, [], [], [], [], false⟩
  tru := ⟨0, 1, false, 0, none, none, [], [], false, 0, 0, 0, 0, 0, 0, .factory 0, 0, .default, [], none, 0⟩
  flash := .new
  acts := []
  mgmt := ⟨none, none⟩
  job := ⟨0, 0, 0, 0, [], 1250, 192, 192, 0, 0, false, 0⟩

end Sys2Proof.Machine
end

