-- ==== Sys2Proof/Machine/Ops.lean ====
section
/-! DEFINITION. The shared operations: registers, their resets, sidereal time, ephemeris and event records, and the
interrupt controller. Every meaning reads and writes registers through `rd`, `wr`, `rf`, `wf` and `bump`. -/

namespace Sys2Proof.Machine

/-! ## Registers (R16, R20 to R22, R844) -/

/-- The key of a register under which State holds it: register number, die, unit. -/
def regKey (r : Reg) (die unit : Nat) : Nat := r.idx * 65536 + (die % 2 * 32768 + unit % 32768)

/-- The register a key belongs to. -/
def regOfKey (k : Nat) : Option Reg := Reg.all[k / 65536]?

/-- The die whose block holds the register: a shared register and one of die 0 only stand in die 0's block (R844). -/
def homeDie (r : Reg) (die : Nat) : Nat :=
  match r.info.homing with
  | .eachDie => die
  | _ => 0

/-- The reset value of a register; CTL_DIE_INFO's die_index is the die's number (R53). -/
def resetVal (r : Reg) (die : Nat) : Nat :=
  r.info.fields.foldl (fun a f => a + f.reset * 2 ^ f.lo) 0 + if r = .ctlDieInfo then die else 0

/-- The value a register holds. -/
def rd (s : State) (r : Reg) (die unit : Nat) : Nat :=
  match Map.find s.regs (regKey r (homeDie r die) unit) with
  | some v => v.toNat
  | none => resetVal r (homeDie r die)

/-- Registers with the value of a key set; a value equal to the reset value is not listed. -/
def putReg (m : Map (BitVec 64)) (k reset v : Nat) : Map (BitVec 64) :=
  if v = reset then Map.del m k else Map.put m k (BitVec.ofNat 64 v)

/-- The register set to a value, cut to its width. -/
def wr (s : State) (r : Reg) (die unit v : Nat) : State :=
  { s with regs := putReg s.regs (regKey r (homeDie r die) unit) (resetVal r (homeDie r die)) (v % 2 ^ r.info.width) }

/-- A field of a register. -/
def rf (s : State) (f : Fld) (die unit : Nat) : Nat := bits (rd s f.reg die unit) f.hi f.lo

/-- A field of a register set. -/
def wf (s : State) (f : Fld) (die unit v : Nat) : State :=
  wr s f.reg die unit (setBits (rd s f.reg die unit) f.hi f.lo v)

/-- A field of a register as a truth value. -/
def rflag (s : State) (f : Fld) (die unit : Nat) : Bool := rf s f die unit ≠ 0

/-- `n` added to a counting field, which stops at its largest value. -/
def bump (s : State) (f : Fld) (die unit n : Nat) : State :=
  wf s f die unit (satAdd (f.hi - f.lo + 1) (rf s f die unit) n)

/-- The bits of a register whose fields have one of the lifetimes. -/
def lifeMask (r : Reg) (ls : List Lifetime) : Nat :=
  r.info.fields.foldl (fun a f => if ls.contains f.life then a + (2 ^ (f.hi - f.lo + 1) - 1) * 2 ^ f.lo else a) 0

/-- One listed register after an event that returns fields of these lifetimes to their reset values (R22). -/
def resetEntry (ls : List Lifetime) (e : Nat × BitVec 64) : Option (Nat × BitVec 64) :=
  match regOfKey e.1 with
  | none => some e
  | some r =>
    let m := lifeMask r ls
    let rv := resetVal r ((e.1 / 32768) % 2)
    let v := (e.2.toNat &&& (2 ^ 64 - 1 - m)) ||| (rv &&& m)
    if v = rv then none else some (e.1, BitVec.ofNat 64 v)

/-- Every field of these lifetimes back at its reset value (R22). -/
def resetLives (s : State) (ls : List Lifetime) : State := { s with regs := s.regs.filterMap (resetEntry ls) }

/-- Every register of a block back at its reset value. -/
def resetBlock (s : State) (b : Blk) : State :=
  { s with regs := s.regs.filter fun e =>
      match regOfKey e.1 with
      | some r => decide (r.info.blk ≠ b)
      | none => true }

/-! ## Sidereal time (R647 to R650) -/

/-- The sidereal counter of a die: the stamp of an event now. -/
def now (s : State) (die : Nat) : Nat := rd s .sidCount die 0

/-- The counter moved forward to a stamp; it is never moved back (R649). -/
def stepTo (s : State) (die stamp : Nat) : State := if now s die < stamp then wr s .sidCount die 0 stamp else s

def SidState.fresh : SidState := ⟨0, 0, 0, 0, none, none, none, 0, 0, 0, none, none, none⟩

def sidOf (s : State) (die : Nat) : SidState := Map.getD s.sid die SidState.fresh

def setSid (s : State) (die : Nat) (v : SidState) : State := { s with sid := Map.put s.sid die v }

/-- A multiple of `m` ticks has been reached by the last tick or by what moved the counter since (R662, R676, R697, R719). -/
def crossed (s : State) (die m : Nat) : Bool := now s die % m = 0 || decide ((sidOf s die).prev / m < now s die / m)

/-- Two stamps lie in one span of `m` ticks. -/
def sameSpan (m a b : Nat) : Bool := a / m = b / m

/-- Die 0's counter has reached a multiple of `m` ticks that has not been acted on yet; `last` is the stamp of the last such act. -/
def reached (s : State) (m : Nat) (last : Option Nat) : Bool :=
  crossed s 0 m && !(match last with | some t => sameSpan m t (now s 0) | none => false)

/-! ## The control cores (R616, R618) -/

def ControlCore.fresh : ControlCore := ⟨.machine, BitVec.ofNat 64 Config.resetVector, [], [], [], [], [], 0⟩
def ControlMem.fresh : ControlMem := ⟨none, []⟩

def ctlCore (s : State) (die core : Nat) : ControlCore := Map.getD s.ctlCores (die * 8 + core) ControlCore.fresh
def setCtlCore (s : State) (die core : Nat) (c : ControlCore) : State :=
  { s with ctlCores := Map.put s.ctlCores (die * 8 + core) c }
def ctlMemOf (s : State) (die : Nat) : ControlMem := Map.getD s.ctlMem die ControlMem.fresh
def setCtlMem (s : State) (die : Nat) (m : ControlMem) : State := { s with ctlMem := Map.put s.ctlMem die m }

/-- The time CSR and the mtime register of a control core: the die's sidereal counter. -/
def coreTime (s : State) (die : Nat) : Nat := now s die

/-- mtimecmp of a control core. -/
def mtimecmp (s : State) (die core : Nat) : Nat := (ctlCore s die core).mtimecmp

/-- The machine timer interrupt of a control core is pending: mtime has reached mtimecmp, both in ticks. -/
def timerPending (s : State) (die core : Nat) : Bool := decide (mtimecmp s die core ≤ coreTime s die)

/-! ## Flash blocks of the settings store (R756, R808, R809; log entry 124) -/

/-- The most erases of one block. -/
def flashErases : Nat := 100_000

def FlashBlock.fresh : FlashBlock := ⟨0, false, none⟩
def flashBlock (f : FlashStore) (n : Nat) : FlashBlock := Map.getD f.blocks n FlashBlock.fresh

/-- Blocks that may be erased: not retired, without live contents, and erased fewer than 100,000 times. -/
def flashFree (f : FlashStore) : List Nat :=
  (List.range (5 + Config.flashSpare)).filter fun n =>
    let b := flashBlock f n
    !b.retired && b.live.isNone && decide (b.erases < flashErases)

/-- The block that held a region's live contents holds them no more. -/
def flashMoved (f : FlashStore) (region : Nat) : FlashStore :=
  { f with blocks := Map.mapVals f.blocks fun b => if b.live = some region then { b with live := none } else b }

/-- A region's contents written: a block is erased and programmed; one that fails its erase or its read-back is retired and the
next is tried (R756). -/
def flashTry (f : FlashStore) (region write : Nat) : Nat → FlashStore
  | 0 => f
  | tries + 1 =>
    match flashFree f with
    | [] => f
    | l@(first :: _) =>
      let n := l.getD (Config.flashPick write tries % l.length) first
      let b := flashBlock f n
      let b := { b with erases := b.erases + 1 }
      if Config.flashFails write tries then
        flashTry { f with blocks := Map.put f.blocks n { b with retired := true } } region write tries
      else
        let f := flashMoved f region
        { f with blocks := Map.put f.blocks n { b with live := some region } }

/-- A write of a region of the settings store. -/
def flashWrite (s : State) (region : Nat) : State :=
  { s with flash := flashTry s.flash region s.freeCtr (5 + Config.flashSpare), freeCtr := s.freeCtr + 1 }

/-- A write of the settings: the other copy is written with the next sequence and becomes the current one (R809). -/
def settingsStore (s : State) : State :=
  let s := flashWrite s (3 - s.flash.copy)
  { s with flash := { s.flash with copy := 1 - s.flash.copy, sequence := s.flash.sequence + 1 } }

/-- A record appended to the ledger's active region (R746). -/
def ledgerStore (s : State) : State := flashWrite s s.flt.region

/-- A write of the boot record, the staging session, its bitmap or the update state (R808). -/
def bootStore (s : State) : State := flashWrite s 4

/-! ## Jobs and power states -/

/-- JOB_STATUS state: 0 none, 1 beginning, 2 running, 3 ending (R615). -/
def jobState (s : State) : Nat := rf s F.jobStatus_state 0 0

/-- A job runs in the sense of R854. -/
def jobRuns (s : State) : Bool := jobState s ≠ 0

/-- The masters' codes in REFUSED and MASTER records (R674). -/
def masterCode : Master → Nat
  | .presence => 1 | .management => 2 | .host => 3 | .firmware => 4 | .engine => 5 | .debug => 6

/-- The masters' codes in JOB_STATUS last_master (R615). -/
def lastMasterCode : Master → Nat
  | .presence => 3 | .management => 2 | .host => 0 | .firmware => 1 | .engine => 1 | .debug => 0

/-! ## Host memory -/

/-- Bytes the module writes into host memory (R59; log entry 6). -/
def hostWrite (s : State) (addr : Nat) (data : Bytes) : State := { s with hostMem := putBytes s.hostMem addr data }

/-! ## Rings (R571 to R574) -/

/-- Ring states of HIF_RING_STATE_n (R614). -/
def ringDisabled : Nat := 0
def ringActive : Nat := 1
def ringDraining : Nat := 2
def ringFaulted : Nat := 3

def ringState (s : State) (die n : Nat) : Nat := rf s F.hifRingState_state die n
def ringSize (s : State) (die n : Nat) : Nat := rf s F.hifRingSize_entries die n
def ringHead (s : State) (die n : Nat) : Nat := rd s .hifRingHead die n
def ringTail (s : State) (die n : Nat) : Nat := rd s .hifRingTail die n
def ringDone (s : State) (die n : Nat) : Nat := rd s .hifRingDone die n

/-- a − b modulo 2^32. -/
def sub32 (a b : Nat) : Nat := (a + 2 ^ 32 - b % 2 ^ 32) % 2 ^ 32

/-- The phase bit of record k in a ring of size s (R573). -/
def phaseOf (k size : Nat) : Nat := if (k / size) % 2 = 0 then 1 else 0

/-- A record ring (event or ephemeris) is active and has room for one more record. -/
def ringHasRoom (s : State) (die n : Nat) : Bool :=
  decide (ringState s die n = ringActive) && decide (sub32 (ringHead s die n) (ringTail s die n) < ringSize s die n)

/-! ## The interrupt controller (R627 to R633) -/

/-- The assigned sources of a group (R627, R628): reserved sources' bits read 0 and ignore writes. -/
def icuValid (die g : Nat) : Nat :=
  match g with
  | 0 => 0xFFFF_FFFF | 1 => 0x7F | 2 => 0x1F | 3 => if die = 0 then 0xFF else 0
  | 4 => 0xFFFF_FFFF | 5 => 0x000F_070F | 6 => 0x00FF_FFFF | 7 => 0x00FF_FFFF | 8 => 0x3F | 9 => 0xF
  | 15 => 0xFFFF_FFFF | _ => 0

/-- The pending register of a group. -/
def icuPend (s : State) (die g : Nat) : Nat := rd s .icuPend die g &&& icuValid die g

/-- The mask register of a group. -/
def icuMask (s : State) (die g : Nat) : Nat := rd s .icuMask die g &&& icuValid die g

/-- Sources of a group that are pending and unmasked. -/
def icuLive (s : State) (die g : Nat) : Nat := icuPend s die g &&& (icuValid die g - icuMask s die g)

/-- The group's hold-off timer is running (R630). -/
def timerRuns (s : State) (die g : Nat) : Bool := (Map.find s.icuTimers (die * 32 + g)).isSome

/-- The stamp at which a timer that starts now expires: ICU_HOLDOFF_g in units of 100 ns, or the next control-clock cycle (R630). -/
def holdoffEnd (s : State) (die g : Nat) : Nat :=
  let n := rf s F.icuHoldoff_holdoff die g
  if n = 0 then (now s die / 2 + 1) * 2 else now s die + 400 * n

/-- PWR_STATUS state (R728). -/
def powerState (s : State) : Nat := rf s F.pwrStatus_state 0 0

def pwrActive : Nat := 0
def pwrIdle : Nat := 1
def pwrNap : Nat := 2
def pwrDark : Nat := 3

/-- A source of the group became pending and unmasked: its timer starts if idle, and Nap is left (R630, R633). -/
def icuArm (s : State) (die g : Nat) : State :=
  let s := if timerRuns s die g then s else { s with icuTimers := Map.put s.icuTimers (die * 32 + g) (holdoffEnd s die g) }
  if powerState s = pwrNap then { s with host := { s.host with wakePending := true } } else s

/-- A hardware event of source 32g + b: it becomes pending, and starts the group's timer when unmasked (R627, R630). -/
def irq (s : State) (die g b : Nat) : State :=
  if bitOf (icuValid die g) b then
    let s := wr s .icuPend die g (rd s .icuPend die g ||| 2 ^ b)
    if bitOf (icuMask s die g) b then s else icuArm s die g
  else s

/-- The machine external interrupt of a control core is asserted (R631). -/
def externalPending (s : State) (die core : Nat) : Bool := rd s .icuSummary die core ≠ 0

/-- The bits of a group whose target is control core c (kind 1) or RDYBSY_N (kind 2). -/
def icuTargetMask (s : State) (die g kind core : Nat) : Nat :=
  ((List.range 32).map fun b =>
    let t := rd s .icuTarget die (32 * g + b)
    if bits t 5 4 = kind && (kind ≠ 1 || bits t 2 0 = core) then 2 ^ b else 0).sum

/-- HIF_STATUS attention: a source that targets RDYBSY_N is pending and unmasked on either die (R611). -/
def attentionNow (s : State) : Bool :=
  [0, 1].any fun d => (List.range 32).any fun g =>
    let live := icuLive s d g
    live ≠ 0 && live &&& icuTargetMask s d g 2 0 ≠ 0

/-- Summary bit g of a core clears when no source of g that targets it is pending and unmasked (R631); the same for the
summary of RDYBSY_N (R632). -/
def icuSummarise (s : State) (die g : Nat) : State :=
  let live := icuLive s die g
  let s := (List.range 8).foldl (fun s c =>
    if bitOf (rd s .icuSummary die c) g && live &&& icuTargetMask s die g 1 c = 0 then
      wr s .icuSummary die c (rd s .icuSummary die c - 2 ^ g) else s) s
  if bitOf (rd s .icuSummaryHost die 0) g && live &&& icuTargetMask s die g 2 0 = 0 then
    wr s .icuSummaryHost die 0 (rd s .icuSummaryHost die 0 - 2 ^ g) else s

/-- What follows when sources of a group stop being pending and unmasked: the summaries (R631, R632), and the repeats of the attention
pulse end with the last source that targets RDYBSY_N (R603). -/
def icuSettle (s : State) (die g : Nat) : State :=
  let s := icuSummarise s die g
  if s.host.repeating && !attentionNow s then { s with host := { s.host with repeating := false } } else s

/-! ## Ephemeris records (R670 to R680) -/

def Ephemeris.fresh : Ephemeris := ⟨[], none, 0⟩

def ephOf (s : State) (die : Nat) : Ephemeris := Map.getD s.eph die Ephemeris.fresh

def setEph (s : State) (die : Nat) (e : Ephemeris) : State := { s with eph := Map.put s.eph die e }

/-- The 32 bytes of a record in the ring (R670). -/
def recordBytes (r : Record) (phase : Nat) : Bytes :=
  leBytes 1 r.code ++ leBytes 1 (phase + 2 * flagBit r.unsynced) ++ leBytes 2 r.flags ++ leBytes 4 r.seq
    ++ leBytes 8 r.stamp ++ leBytes 1 r.unit ++ leBytes 1 r.block ++ leBytes 14 r.payload

/-- A 32-byte record written at HEAD of a record ring, HEAD one further, and the ring's source raised (R572, R573). -/
def ringPut (s : State) (die n : Nat) (body : Nat → Bytes) (source : Nat) : State :=
  let k := ringHead s die n
  let size := ringSize s die n
  let s := hostWrite s (rd s .hifRingBase die n + (k % size) * 32) (body (phaseOf k size))
  let s := wr s .hifRingHead die n ((k + 1) % 2 ^ 32)
  irq s die 1 source

/-- Whether the hold store takes n more records of a code: the limits of R679. -/
def ephTakes (held n code : Nat) : Bool :=
  decide (held + n ≤ 8192) && !(decide (6144 ≤ held) && (code == 0x30 || code == 0x31 || code == 0x40))

/-- A record with the die's next sequence number, stamped now (R671, R673). -/
def newRecord (s : State) (die code flags block unit payload : Nat) : Record × State :=
  let q := rd s .ephSeq die 0
  (⟨code, !rflag s F.sidStatus_synced die 0, flags, q, now s die, block, unit, payload⟩,
   wr s .ephSeq die 0 ((q + 1) % 2 ^ 32))

/-- A record put into the ring where it can take it and nothing is held, into the hold store otherwise (R677, R678). -/
def ephAppend (s : State) (die : Nat) (r : Record) : State :=
  let e := ephOf s die
  if e.held = [] && ringHasRoom s die 34 then ringPut s die 34 (recordBytes r) 2
  else irq (setEph s die { e with held := e.held ++ [r] }) die 1 3

/-- Source 3 of group 1 is pending while records are held: it falls when the store is empty (R678). -/
def ephSettle (s : State) (die : Nat) : State :=
  if (ephOf s die).held = [] && bitOf (rd s .icuPend die 1) 3 then
    icuSettle (wr s .icuPend die 1 (rd s .icuPend die 1 - 8)) die 1
  else s

/-- The LOST record that precedes the first record after a loss (R680). -/
def ephLost (s : State) (die : Nat) : State :=
  let e := ephOf s die
  match e.lostFirst with
  | none => s
  | some q0 =>
    let s := setEph s die { e with lostFirst := none, lostCount := 0 }
    let (r, s) := newRecord s die 0x7E 0 Blk.eph.num 0 (q0 + 2 ^ 32 * (e.lostCount % 2 ^ 32))
    ephAppend s die r

/-- The earlier of two sequence numbers, as seen from the next one: modulo 2^32 it lies further back (R671, R680). -/
def earlierSeq (next a b : Nat) : Nat := if sub32 next a < sub32 next b then b else a

/-- `n` records lost, the first with number q (R679, R680). -/
def ephDropped (s : State) (die q n : Nat) : State :=
  let e := ephOf s die
  let first := match e.lostFirst with
    | some p => earlierSeq (rd s .ephSeq die 0) p q
    | none => q
  let s := setEph s die { e with lostFirst := some first, lostCount := e.lostCount + n }
  bump s F.ephLostCount_count die 0 n

/-- A record and its continuations created together: held or lost together (R672, R679, R680). Each body is a code, flags
and a payload; all carry one source. -/
def emitAll (s : State) (die block unit : Nat) (bodies : List (Nat × Nat × Nat)) : State :=
  let e := ephOf s die
  let n := bodies.length + flagBit e.lostFirst.isSome
  let code := match bodies with | (c, _) :: _ => c | [] => 0
  if ephTakes e.held.length n code then
    bodies.foldl (fun s b =>
      let (r, s) := newRecord s die b.1 b.2.1 block unit b.2.2
      ephAppend s die r) (ephLost s die)
  else
    let q := rd s .ephSeq die 0
    ephDropped (wr s .ephSeq die 0 ((q + bodies.length) % 2 ^ 32)) die q bodies.length

/-- One ephemeris record (R670). -/
def emit (s : State) (die code flags block unit payload : Nat) : State :=
  emitAll s die block unit [(code, flags, payload)]

/-- A field of a payload: `v` at byte `at_`, `n` bytes wide. -/
def pb (at_ n v : Nat) : Nat := (v % 256 ^ n) * 256 ^ at_

/-- A REFUSED record (R674). Reasons: 1 access under R19, 2 owner lock, 3 presence, 4 job running, 5 tagged window, 6 any
other ignored write, 7 CXL.mem access. -/
def refusedRec (s : State) (die : Nat) (b : Blk) (unit addr : Nat) (m : Master) (reason value : Nat) : State :=
  emit s die 0x20 0 b.num unit (pb 0 8 addr + pb 8 1 (masterCode m) + pb 9 1 reason + pb 10 4 value)

/-- A MASTER record (R674): item of R605 (1 job state, 2 power state, 3 firmware, 4 lock, debug, identity) or 0x10 for a
limit, the master, the outcome status, descriptor type, tag and other master. -/
def masterRec (s : State) (item : Nat) (m : Master) (status type tag other : Nat) : State :=
  emit s 0 0x21 0 Blk.hif.num 0
    (pb 0 1 item + pb 1 1 (masterCode m) + pb 2 1 status + pb 3 1 type + pb 4 4 tag + pb 8 1 other)

/-- A COUNT record of a register (R674): its offset in the die's window and its value. -/
def countRec (s : State) (die : Nat) (r : Reg) (unit value : Nat) : State :=
  let i := r.info
  let inst := if i.stride = 0x1000 then unit else 0
  emit s die 0x22 0 i.blk.num inst (pb 0 4 (i.blk.num * 0x10_0000 + i.offset + unit * i.stride) + pb 4 8 value)

/-- VEC_FLAGS of every core, then every non-zero count, as JOB_END and JOB_KILL write them to the ephemeris (R173, R238, R297, R334
and the like in every block, R596), in the order of the register tables. -/
def countRecords (s : State) : State :=
  let s := (List.range 48).foldl (fun s' k => countRec s' (k / 24) .vecFlags (k % 24) (rd s .vecFlags (k / 24) (k % 24))) s
  s.regs.foldl (fun s' e =>
    match regOfKey e.1 with
    | some r =>
      if r.info.counted && r ≠ .vecFlags && e.2.toNat ≠ 0 then countRec s' ((e.1 / 32768) % 2) r (e.1 % 32768) e.2.toNat else s'
    | none => s') s

/-- A SYNC record (R674). Actions: 1 step, 2 synced, 3 lost, 4 clamp, 5 TIMEIN mismatch, 6 TIMEIN missing, 7 source. -/
def syncRec (s : State) (die action : Nat) (theta delta : Int) : State :=
  let st := rd s .sidStatus die 0
  let port := if bits st 30 28 = 2 then bits st 20 16 else 0xFF
  let t := codeOf 32 (clampInt (-(2 ^ 31)) (2 ^ 31 - 1) theta)
  emit s die 0x50 0 Blk.sid.num 0
    (pb 0 1 action + pb 1 1 port + pb 2 1 (bits st 27 24) + pb 3 1 (bits st 30 28) + pb 4 4 t
      + pb 8 4 (codeOf 32 (clampInt 0 (2 ^ 32 - 1) delta)))

/-! ## Events (R599, R600) -/

/-- The 32 bytes of an event record (R599). -/
def eventBytes (e : EventRec) (phase : Nat) : Bytes :=
  leBytes 1 e.code ++ leBytes 1 phase ++ leBytes 2 0 ++ leBytes 4 e.arg0 ++ leBytes 8 e.stamp ++ leBytes 8 e.arg1
    ++ leBytes 8 e.arg2

def eventsOf (s : State) (die : Nat) : List EventRec := Map.getD s.events die []

def setEvents (s : State) (die : Nat) (l : List EventRec) : State := { s with events := Map.put s.events die l }

/-- An event: its EVENT and EVENT_ARG records, and its record in the event ring, or among the 64 the die holds, or lost
and counted (R599, R600). -/
def event (s : State) (die code arg0 arg1 arg2 : Nat) : State :=
  let r : EventRec := ⟨code, arg0, arg1, arg2, now s die⟩
  let s := emitAll s die Blk.hif.num 0
    [(0x06, 0, pb 0 1 code + pb 1 4 arg0 + pb 5 8 arg1), (0x07, 0, pb 0 8 arg2)]
  let l := eventsOf s die
  if l = [] && ringHasRoom s die 33 then ringPut s die 33 (eventBytes r) 1
  else if l.length < 64 then setEvents s die (l ++ [r])
  else bump s F.hifEventLostCount_count die 0 1

/-! ## Job state -/

/-- JOB_STATUS state moves (R773), with source 0 of group 2 (R627). -/
def setJobState (s : State) (v : Nat) : State :=
  if jobState s = v then s else irq (irq (wf s F.jobStatus_state 0 0 v) 0 2 0) 1 2 0

/-- Free values: the next fresh one (log entry 2). -/
def fresh (s : State) : Nat × State := (Config.freeValue s.freeCtr, { s with freeCtr := s.freeCtr + 1 })

/-! ## An idle tick (log entry 7) -/

/-- The Dome domain's clock stamps events: the module is in Nap or Dark (R650). -/
def domeStamps (s : State) : Bool := powerState s = pwrNap || powerState s = pwrDark

/-- A stamp of the Dome domain: the next multiple of 160 (R650). -/
def domeGrain (stamp : Nat) : Nat := (stamp + 159) / 160 * 160

/-- While an offset is slewed away, the counter gains or misses one tick each time the period of the correction comes round (R658):
the ticks gained, and what is left. -/
def slewTick (v : SidState) : Int × SidState :=
  if v.slew = 0 then (0, v)
  else if v.phase + 1 < v.every then (0, { v with phase := v.phase + 1 })
  else if 0 < v.slew then (1, { v with phase := 0, slew := v.slew - 1 })
  else (-1, { v with phase := 0, slew := v.slew + 1 })

/-- The rate correction gains or misses a tick whenever its parts add up to one (R656, R658). -/
def rateTick (v : SidState) : Int × SidState :=
  ((v.rateAcc + v.rate) / 2 ^ 32, { v with rateAcc := (v.rateAcc + v.rate) % 2 ^ 32 })

/-- One tick of one die's counter: 160 ticks in Nap and Dark (R650); otherwise one, with what the slew and the rate correction add. -/
def tickDie (s : State) (die : Nat) : State :=
  let c := now s die
  let v := { sidOf s die with prev := c }
  if domeStamps s then wr (setSid s die v) .sidCount die 0 ((c / 160 + 1) * 160 % 2 ^ 64)
  else
    let (a, v) := slewTick v
    let (b, v) := rateTick v
    wr (setSid s die v) .sidCount die 0 ((c + (1 + a + b).toNat) % 2 ^ 64)

/-- What a step does on an empty queue: one tick of time passes on both dies. -/
def idleTick (s : State) : State := tickDie (tickDie s 0) 1

end Sys2Proof.Machine
end

