-- ==== Sys2Proof/Machine/Channels.lean ====
section
/-! DEFINITION. Channels of the fault classifier: transients, exhausted retry budgets, classification, and the retirement
ledger (R731 to R753, R847). -/

namespace Sys2Proof.Machine

/-- Channel kinds of R731. -/
def kTransit : Nat := 0x01
def kBroadcast : Nat := 0x02
def kArray : Nat := 0x03
def kCoreBank : Nat := 0x04
def kSharedBank : Nat := 0x05
def kHbm : Nat := 0x06
def kVec : Nat := 0x07
def kUpd : Nat := 0x08
def kCol : Nat := 0x09
def kLane : Nat := 0x0A
def kBridge : Nat := 0x0B
def kMargin : Nat := 0x0C

/-- The key of a channel. -/
def chanKey (kind ch : Nat) : Nat := kind * 2 ^ 20 + ch

/-- Channel number of an array, of a core's bank, of a core's engine (R731); a core's key is die × 24 + core. -/
def arrChan (coreKey a : Nat) : Nat := coreKey * 4 + a
def coreBankChan (coreKey bank : Nat) : Nat := coreKey * 128 + bank

/-- The die that writes a channel's records, and the block and instance they name (R847). -/
def chanSource (kind ch : Nat) : Nat × Blk × Nat :=
  if kind ≤ 0x03 then (ch / 96, .arr, ch % 96)
  else if kind = 0x04 then (ch / 3072, .spm, ch % 3072 / 128)
  else if kind = 0x05 then (ch / 64, .spm, 24)
  else if kind = 0x06 then (ch / 192, .hbm, ch % 192 / 32)
  else if kind = 0x07 then (ch / 24, .vec, ch % 24)
  else if kind = 0x08 then (ch / 24, .upd, ch % 24)
  else if kind = 0x09 then (ch, .col, 0)
  else if kind = 0x0A then (ch / 128, .fab, ch / 8 % 16)
  else if kind = 0x0B then (0, .ctl, ch)
  else (ch, .clk, 0)

/-- State of a channel: 0 healthy, 1 classed, 2 retired (R737). -/
def chanState (s : State) (kind ch : Nat) : Nat := Map.getD s.flt.channels (chanKey kind ch) 0

def setChan (s : State) (kind ch v : Nat) : State :=
  let m := if v = 0 then Map.del s.flt.channels (chanKey kind ch) else Map.put s.flt.channels (chanKey kind ch) v
  { s with flt := { s.flt with channels := m } }

/-- The thresholds in force: n transients in w seconds (R739). -/
def threshCount (s : State) (kind : Nat) : Nat := Map.getD s.flt.countNow kind (if kind = kMargin then (4 : Nat) else 8)
def threshWindow (s : State) (kind : Nat) : Nat := Map.getD s.flt.windowNow kind (if kind = kMargin then 86400 else 3600)

/-- The stamps of a channel's last transients, oldest first (R741). -/
def chanHistory (s : State) (kind ch : Nat) : List Nat := Map.getD s.flt.history (chanKey kind ch) []

def setHistory (s : State) (kind ch : Nat) (l : List Nat) : State :=
  { s with flt := { s.flt with history := Map.put s.flt.history (chanKey kind ch) l } }

/-- A CHECK record: event 1 transient, 2 retry budget exhausted; source 0 of group 8 (R753, R847). -/
def checkRec (s : State) (kind ch ev addr : Nat) : State :=
  let (d, b, i) := chanSource kind ch
  irq (emit s d 0x10 0 b.num i (pb 0 1 kind + pb 1 4 ch + pb 5 1 ev + pb 6 8 addr)) d 8 0

/-- The readable records of a log (R748). -/
def ledgerReadable (l : List LedgerRec) : List LedgerRec := l.filter fun r => !r.torn

/-- The latest of the records that share each channel, in log order. -/
def latestRecs (l : List LedgerRec) : List LedgerRec :=
  (l.zipIdx).filterMap fun (r, i) =>
    if (l.drop (i + 1)).any (fun q => q.kind = r.kind && q.channel = r.channel) then none else some r

/-- The deciding record of each channel of a log, in log order (R748, R751). -/
def ledgerDeciding (l : List LedgerRec) : List LedgerRec := latestRecs (ledgerReadable l)

/-- The records that a region of 1 MiB holds (R746). -/
def regionRecs : Nat := 32768

/-- The active region is full (R751). -/
def ledgerFull (f : FaultState) : Bool := decide (regionRecs ≤ f.ledger.length)

/-- The spare region becomes the active one with the deciding records in it; the old region keeps its log until the next compaction
writes over it (R751). -/
def ledgerSwitch (f : FaultState) : FaultState :=
  { f with ledger := ledgerDeciding f.ledger, spare := f.ledger, region := 1 - f.region }

/-- A record appended to the active region, which is compacted into the spare one first where it is full (R746, R751). -/
def ledgerAppend (f : FaultState) (r : LedgerRec) : FaultState :=
  let f := if ledgerFull f then ledgerSwitch f else f
  { f with ledger := f.ledger ++ [r] }

/-- The latest recorded limit of a die's clock in MHz (R742). -/
def marginLimit (s : State) (die : Nat) : Nat :=
  match (ledgerReadable (s.flt.ledger ++ s.flt.pendingRecs)).reverse.find? (fun r => r.kind = kMargin && r.channel = die) with
  | some r => r.value
  | none => 1250

/-- Field position of a pseudo-channel in HBM_PC_STATE: register and unit (R448). -/
def pcField (h : Nat) : Nat × Nat := (h % 192 / 16, 2 * (h % 16))

def pcState (s : State) (h : Nat) : Nat :=
  let (u, i) := pcField h
  bits (rd s .hbmPcState (h / 192) u) (i + 1) i

def setPcState (s : State) (h v : Nat) : State :=
  let (u, i) := pcField h
  wr s .hbmPcState (h / 192) u (setBits (rd s .hbmPcState (h / 192) u) (i + 1) i v)

/-- ARR_PATH_STATUS field of an array (R169). -/
def pathStatus (s : State) (coreKey a : Nat) : Nat :=
  bits (rd s .arrPathStatus (coreKey / 24) (coreKey % 24)) (2 * a + 1) (2 * a)

def setPathStatus (s : State) (coreKey a v : Nat) : State :=
  wr s .arrPathStatus (coreKey / 24) (coreKey % 24)
    (setBits (rd s .arrPathStatus (coreKey / 24) (coreKey % 24)) (2 * a + 1) (2 * a) v)

/-- What a classification does at once (R744). -/
def classifyEffect (s : State) (kind ch : Nat) : State :=
  if kind = kTransit then
    if pathStatus s (ch / 4) (ch % 4) = 0 then setPathStatus s (ch / 4) (ch % 4) 1 else s
  else if kind = kHbm then wf (setPcState s ch 1) F.hbmStatus_changePending 0 0 1
  else if kind = kBridge then
    irq { s with flt := { s.flt with bridgeRetired := insertNew s.flt.bridgeRetired ch } } 0 9 3
  else s

/-- A classification's record joins those to be written: behind earlier ones, and among those of its control-clock cycle in order of
kind, then of channel number (R743). -/
def insertRec (l : List LedgerRec) (r : LedgerRec) : List LedgerRec :=
  let behind := fun x : LedgerRec => x.classedStamp / 2 = r.classedStamp / 2 && x.state = 1 &&
    (decide (r.kind < x.kind) || (x.kind = r.kind && decide (r.channel < x.channel)))
  l.filter (fun x => !behind x) ++ r :: l.filter behind

/-- A channel is classed permanent: its state, its ledger record still to become durable, the RETIRE record and event 0x04
(R738, R742 to R744, R750, R753). A margin channel lowers its limit and stays healthy. -/
def classify (s : State) (kind ch cause count : Nat) : State :=
  let (d, b, i) := chanSource kind ch
  let value := if kind = kMargin then max 500 (marginLimit s ch - 25) else 0
  let r : LedgerRec := ⟨kind, 1, cause, min 255 count, ch, now s d, 0, value, false⟩
  let s := { s with flt := { s.flt with pendingRecs := insertRec s.flt.pendingRecs r } }
  let s := if kind = kMargin then setHistory s kind ch [] else setChan s kind ch 1
  let s := classifyEffect s kind ch
  let s := emit s d 0x13 0 b.num i (pb 0 1 kind + pb 1 4 ch)
  irq (event s d 0x04 kind ch 0) d 8 1

/-- One transient counted against a channel, which may class it (R732, R738, R740 to R742). -/
def countTransient (s : State) (kind ch : Nat) : State :=
  let (d, _, _) := chanSource kind ch
  let h := (chanHistory s kind ch ++ [now s d]).reverse.take 255 |>.reverse
  let s := setHistory s kind ch h
  let n := threshCount s kind
  let w := threshWindow s kind * 4_000_000_000
  if chanState s kind ch ≠ 0 || n = 0 || w = 0 then s
  else
    let last := h.reverse.take n
    if last.length = n && decide (now s d ≤ last.getLastD 0 + w) then
      classify s kind ch 1 (h.filter fun t => decide (now s d ≤ t + w)).length
    else s

/-- A transient of a channel: its CHECK record and its count (R732, R753). -/
def transient (s : State) (kind ch addr : Nat) : State := countTransient (checkRec s kind ch 1 addr) kind ch

/-- A retry budget exhausted: its CHECK record, and the channel classed at once when healthy (R733, R738, R753). -/
def exhaust (s : State) (kind ch addr : Nat) : State :=
  let s := checkRec s kind ch 2 addr
  if chanState s kind ch = 0 && kind ≠ kMargin then
    let (d, _, _) := chanSource kind ch
    let w := threshWindow s kind * 4_000_000_000
    classify s kind ch 2 ((chanHistory s kind ch).filter fun t => decide (now s d ≤ t + w)).length
  else s

/-- The margin count that goes with a transient of kinds 3, 7 and 8 from a residue or duplicated-unit check above
1,000 MHz (R736). -/
def marginCount (s : State) (die : Nat) : State :=
  if 1000 < rf s F.clkStatus_freqMhz die 0 then countTransient s kMargin die else s

/-! ## Loading the ledger (R748) -/

/-- The ledger as it stands, with the records on their way to flash. -/
def ledgerNow (s : State) : List LedgerRec := ledgerDeciding (s.flt.ledger ++ s.flt.pendingRecs)

/-- Whether the ledger has a channel of a kind in a state. -/
def ledgerHas (l : List LedgerRec) (kind ch st : Nat) : Bool :=
  l.any fun r => r.kind = kind && r.channel = ch && r.state = st

/-- The applied limit of a die in MHz: that of the latest margin record that a job begin applied (R744). Where compaction has left only a
record still to be applied, it is the limit that this record lowers, 25 MHz above its value (R742, R751; log entry 152). -/
def appliedLimit (s : State) (die : Nat) : Nat :=
  let l := ledgerReadable (s.flt.ledger ++ s.flt.pendingRecs)
  match l.reverse.find? (fun r => r.kind = kMargin && r.channel = die && r.state = 2) with
  | some r => r.value
  | none =>
    match l.find? fun r => r.kind = kMargin && r.channel = die with
    | some r => min 1250 (r.value + 25)
    | none => 1250

/-- Registers of one deciding ledger record loaded (R744, R748). -/
def loadRecord (s : State) (r : LedgerRec) : State :=
  if r.kind = kTransit then
    if pathStatus s (r.channel / 4) (r.channel % 4) = 0 then setPathStatus s (r.channel / 4) (r.channel % 4) 1 else s
  else if r.kind = kBroadcast || r.kind = kArray then
    if r.state = 2 then setPathStatus s (r.channel / 4) (r.channel % 4) 2 else s
  else if r.kind = kHbm then setPcState s r.channel r.state
  else if r.kind = kLane then
    if r.state = 2 then
      let p := r.channel / 8
      let v := rd s .fabPortState (p / 16) (p % 16)
      wr s .fabPortState (p / 16) (p % 16) (setBits v 31 24 (bits v 31 24 ||| 2 ^ (r.channel % 8)))
    else s
  else s

/-- The state a deciding record gives its channel. -/
def recordState (r : LedgerRec) : Option (Nat × Nat) :=
  if r.kind = kMargin then none else some (chanKey r.kind r.channel, r.state)

/-- Channel states and the ledger-derived registers read from the ledger: ARR_PATH_STATUS, HBM_PC_STATE, HBM_STATUS,
lanes_retired and CLK_LIMIT (R748). The usable list is the one the retired pseudo-channels leave (R447). -/
def ledgerRead (s : State) : State :=
  let l := ledgerNow s
  let s := { s with
    flt := { s.flt with
      channels := (l.filterMap recordState).foldl (fun m e => Map.put m e.1 e.2) []
      bridgeRetired := (l.filter fun r => r.kind = kBridge).map (·.channel) }
    regs := s.regs.filter fun e => match regOfKey e.1 with
      | some .arrPathStatus => false
      | some .hbmPcState => false
      | _ => true }
  let s := (List.range 32).foldl (fun s p => wf s F.fabPortState_lanesRetired (p / 16) (p % 16) 0) s
  let s := l.foldl loadRecord s
  let out := (l.filter fun r => r.kind = kHbm && r.state = 2).map (·.channel)
  let s := { s with unusable := out }
  let s := wf s F.hbmStatus_usablePcs 0 0 (384 - out.length)
  let s := wf s F.hbmStatus_changePending 0 0 (flagBit (l.any fun r => r.kind = kHbm && r.state = 1))
  let s := wf s F.clkLimit_ledgerMhz 0 0 (appliedLimit s 0)
  wf s F.clkLimit_ledgerMhz 1 0 (appliedLimit s 1)

end Sys2Proof.Machine
end

