-- ==== Sys2Proof/Machine/Mem.lean ====
section
/-! DEFINITION. Device memory: address regions, the HBM interleave, checked reads, writes with poison, guards, resident
windows and the host's snooped lines, and zeroing (chapters 1, 8 and 9). -/

namespace Sys2Proof.Machine

/-! ## Regions (R47 to R49) -/

/-- The regions of the device address space; a core's key is die × 24 + core. -/
inductive Region where
  | hbm
  | shared (die : Nat)
  | core (key : Nat)
deriving DecidableEq, Repr

/-- First address of a core memory (R47). -/
def coreBase (key : Nat) : Nat := 0x81_0000_0000 + key / 24 * 0x2000_0000 + key % 24 * 0x100_0000

/-- First address of a shared memory (R47). -/
def sharedBase (die : Nat) : Nat := 0x80_0000_0000 + die * 0x1000_0000

/-- Bytes of a core memory. -/
def coreSize : Nat := 0xC0_0000

/-- Bytes of a shared memory. -/
def sharedSize : Nat := 0xC00_0000

/-- The usable HBM size, P × 1,152 MiB (R423). -/
def usableHbm (s : State) : Nat := (384 - s.unusable.length) * (1152 * 0x10_0000)

/-- A bank of a die's shared memory is retired: the memory has no capacity (R390). -/
def sharedGone (s : State) (die : Nat) : Bool :=
  (ledgerDeciding s.flt.ledger).any fun r => r.state = 2 && r.kind = kSharedBank && r.channel / 64 = die

/-- The region an address lies in, if it is not reserved (R47, R49) and has capacity (R390). -/
def regionOf (s : State) (a : Nat) : Option Region :=
  if a < usableHbm s then some .hbm
  else if sharedBase 0 ≤ a && a < sharedBase 0 + sharedSize then if sharedGone s 0 then none else some (.shared 0)
  else if sharedBase 1 ≤ a && a < sharedBase 1 + sharedSize then if sharedGone s 1 then none else some (.shared 1)
  else if coreBase 0 ≤ a then
    let d := (a - coreBase 0) / 0x2000_0000
    let c := (a - coreBase 0) % 0x2000_0000 / 0x100_0000
    if d < 2 && c < 24 && (a - coreBase 0) % 0x100_0000 < coreSize then some (.core (d * 24 + c)) else none
  else none

/-- First address and size of a region. -/
def regionSpan (s : State) : Region → Nat × Nat
  | .hbm => (0, usableHbm s)
  | .shared d => (sharedBase d, sharedSize)
  | .core k => (coreBase k, coreSize)

/-- The far table is a reserved range while a job runs (R458). -/
def inFarTable (s : State) (a len : Nat) : Bool := jobRuns s && overlaps a len s.job.farBase (16 * s.job.far)

/-- A range that R48 does not forbid: within one region, outside the far table. An empty range names nothing. -/
def rangeOk (s : State) (a len : Nat) : Bool :=
  len = 0 ||
    match regionOf s a with
    | none => false
    | some r => decide (a + len ≤ (regionSpan s r).1 + (regionSpan s r).2) && !inFarTable s a len

/-- A range that R48 does not forbid and whose region an engine reaches (R51). -/
def rangeIn (s : State) (a len : Nat) (reach : Region → Bool) : Bool :=
  rangeOk s a len && (len = 0 || match regionOf s a with | none => false | some r => reach r)

/-- Reach of the engines of R51. -/
def reachFeeder (key : Nat) : Region → Bool
  | .core k => k = key
  | _ => true
def reachVec (key : Nat) : Region → Bool
  | .core k => k = key
  | _ => false
def reachUpd (key : Nat) : Region → Bool
  | .core k => k = key
  | .shared d => d = key / 24
  | .hbm => true
def reachCol (die : Nat) : Region → Bool
  | .core k => k / 24 = die
  | .shared d => d = die
  | .hbm => true

/-! ## The interleave (R419, R421, R422) -/

/-- The pseudo-channel of slot k of the canonical order (R419, R421). -/
def slotPc (k : Nat) : Nat := k % 2 * 192 + k / 2 % 6 * 32 + k / 12

/-- The usable list (R421). -/
def usableList (s : State) : List Nat := ((List.range 384).map slotPc).filter fun h => !s.unusable.contains h

/-- Pseudo-channel and byte offset of an HBM address (R422). -/
def hbmPlace (s : State) (a : Nat) : Nat × Nat :=
  let l := usableList s
  let g := a / 256
  (l.getD (g % l.length) 0, g / l.length * 256 + a % 256)

/-! ## Rows and sectors (R386, R425) -/

/-- Width of the checked unit an address lies in: 32-byte sectors of HBM, 128-byte rows of SRAM. -/
def rowLen (a : Nat) : Nat := if a < sharedBase 0 then 32 else 128

/-- First address of the row or sector. -/
def rowBase (a : Nat) : Nat := a / rowLen a * rowLen a

/-- The channel of a row or sector: kind, number, die, and the row or sector index of its CHECK record (R379, R731). -/
structure RowChan where
  kind : Nat
  ch : Nat
  die : Nat
  unit : Nat
  index : Nat
deriving DecidableEq, Repr

def rowChan (s : State) (a : Nat) : RowChan :=
  match regionOf s a with
  | some (.shared d) =>
    let x := (a - sharedBase d) / 128
    ⟨kSharedBank, d * 64 + ((x % 64) ^^^ (x / 64 % 64)), d, 48 + d, x⟩
  | some (.core k) =>
    let x := (a - coreBase k) / 128
    ⟨kCoreBank, coreBankChan k ((x % 128) ^^^ (x / 128 % 128)), k / 24, k, x⟩
  | _ =>
    let (h, off) := hbmPlace s a
    ⟨kHbm, h, h / 192, h, off / 32⟩

/-- A row or sector passed its re-read: counted, and a transient of its channel (R387, R390, R429). -/
def rowReread (s : State) (a : Nat) : State :=
  let c := rowChan s a
  let s := if c.kind = kHbm then bump s F.hbmRereadCount_count c.die 0 1 else bump s F.spmRereadCount_count c.die 0 1
  transient s c.kind c.ch c.index

/-- A row or sector failed its re-read: counted, and its channel's retry budget exhausted unless it holds poison; a row of SRAM
counts its first failure as a transient too (R387, R390, R429, R733, R845). -/
def rowFail (s : State) (a : Nat) : State :=
  let c := rowChan s a
  let s := if c.kind = kHbm then bump s F.hbmFailCount_count c.die 0 1 else bump s F.spmFailCount_count c.die 0 1
  if s.poison.contains (rowBase a) then s
  else exhaust (if c.kind = kHbm then s else transient s c.kind c.ch c.index) c.kind c.ch c.index

/-- A sector reported corrected severity: counted, and its scrub queued (R428). -/
def sectorCorrected (s : State) (a : Nat) : State :=
  let c := rowChan s a
  let sc := Map.getD s.scrub c.ch ⟨0, 0, [], []⟩
  let s := bump s F.hbmOdeccCorrCount_count c.die 0 1
  { s with scrub := Map.put s.scrub c.ch { sc with queued := insertNew sc.queued c.index } }

/-- A sector reported uncorrected severity: counted (R428). -/
def sectorUncorrected (s : State) (a : Nat) : State := bump s F.hbmOdeccUncorrCount_count (rowChan s a).die 0 1

/-- A command needed a second or third parity attempt: a transient of its pseudo-channel (R420, R429). -/
def parityRetry (s : State) (a : Nat) : State :=
  let c := rowChan s a
  if c.kind = kHbm then transient s c.kind c.ch c.index else s

/-! ## Check codes (R386, R425, R845) -/

/-- The code over the bytes that a row or sector holds. -/
def codeOver (s : State) (r : Nat) : Nat :=
  let c := rowChan s r
  if c.kind = kHbm then sectorCode (mapBytes s.mem r 32) c.ch c.index else rowCode (mapBytes s.mem r 128) c.index

/-- The code stored with a row or sector. The module writes no code but the one over the bytes and, as poison, its inverse, so State
holds which rows have the inverse (R388, R389, R427). -/
def storedCode (s : State) (r : Nat) : Nat := if s.poison.contains r then 65535 - codeOver s r else codeOver s r

/-- The stored code is not that of the bytes: the read fails, and so does its re-read (R845). -/
def codeFails (s : State) (r : Nat) : Bool := storedCode s r ≠ codeOver s r

/-- Rows and sectors read again: those the environment names, and those with uncorrected severity, which count as failed checks
(R387, R426, R428). -/
def againOf (mf : MemFaults) : List Nat := mf.rereads ++ mf.uncorrected.filter fun a => !mf.rereads.contains a

/-- The smallest row base in a range that fails both reads: what the environment says, or poison, the rows whose stored code fails
(R387, R845, `codeFails`). -/
def failRow (s : State) (mf : MemFaults) (base len : Nat) : Option Nat :=
  if len = 0 then none
  else
    let bad := s.poison.filter fun r => overlaps base len r (rowLen r)
    let inv := mf.inverse.filter fun a => decide (base ≤ a) && decide (a < base + len)
    let bad := inv.map rowBase ++ bad
    let bad := match mf.failAt with
      | some a => if base ≤ a && a < base + len then rowBase a :: bad else bad
      | none => bad
    bad.foldl (fun m r => match m with | none => some r | some q => some (min q r)) none

/-- Counts and transients of a checked read of a range, up to its first failed row (R387, R420, R426, R428, R429). -/
def readEffects (s : State) (mf : MemFaults) (base len : Nat) : State :=
  let bad := failRow s mf base len
  let stop := match bad with | some r => r | none => base + len
  let seen := fun a => decide (base ≤ a) && decide (rowBase a ≤ stop) && decide (a < base + len)
  let passed := fun a => seen a && bad ≠ some (rowBase a)
  let s := { s with poison := ((mf.inverse.filter seen).map rowBase).foldl insertNew s.poison }
  let s := ((againOf mf).filter passed).foldl rowReread s
  let s := (mf.corrected.filter seen).foldl sectorCorrected s
  let s := (mf.uncorrected.filter seen).foldl sectorUncorrected s
  let s := (mf.parity.filter seen).foldl parityRetry s
  match bad with
  | some r => rowFail s r
  | none => s

/-- What a read of a sector meets, counted: the severity reported with the data, and the parity attempts it needed (R420, R428, R429). -/
def tryEffects (s : State) (a : Nat) (t : ReadTry) : State :=
  let s := match t.severity with
    | .none => s
    | .corrected => sectorCorrected s a
    | .uncorrected => sectorUncorrected s a
  if t.parity = 0 then s else parityRetry s a

/-- One checked read of a sector: whether it failed twice, with what its reads count (R420, R426, R428 to R430, R845). -/
def sectorRead (s : State) (a : Nat) (o : ReadOutcome) : Bool × State :=
  let s := if o.inverse then { s with poison := insertNew s.poison a } else s
  let s := tryEffects s a o.first
  if !s.poison.contains a && !o.first.fails then (false, s)
  else
    let s := tryEffects s a o.second
    if s.poison.contains a || o.second.fails then (true, rowFail s a) else (false, rowReread s a)

/-! ## Visible rows (R401, R408) -/

/-- A range without the part that lies in a span: at most two ranges. -/
def cutRange (w : Span) (r : Nat × Nat) : List (Nat × Nat) :=
  if !overlaps r.1 r.2 w.base w.len then [r]
  else
    [(r.1, w.base - r.1), (w.base + w.len, r.1 + r.2 - (w.base + w.len))].filter fun x => x.2 ≠ 0

/-! ## Accelerated scrub (R441) -/

def ScrubState.fresh : ScrubState := ⟨0, 0, [], []⟩
def scrubOf (s : State) (h : Nat) : ScrubState := Map.getD s.scrub h ScrubState.fresh

/-- HBM_SCRUB_STATUS accel of both dies: an accelerated range runs on a usable pseudo-channel of the die. -/
def accelSettle (s : State) : State :=
  [0, 1].foldl (fun s die => wf s F.hbmScrubStatus_accel die 0
    (flagBit (s.scrub.any fun e => e.1 / 192 = die && e.2.accel ≠ [] && !s.unusable.contains e.1))) s

/-! ## Resident windows (R401, R408) -/

/-- Windows of the residency table that are not empty: byte base and length (R416). -/
def windows (s : State) : List Span :=
  (List.range 16).filterMap fun n =>
    let v := rd s .spmResWindow 0 n
    if bits v 63 40 = 0 then none else some ⟨bits v 31 0 * 0x1_0000, bits v 63 40 * 0x1_0000⟩

/-- The windows are tagged and no running job holds their key (R408). -/
def windowsHidden (s : State) : Bool :=
  rflag s F.spmResStatus_tagValid 0 0 && !(jobRuns s && s.job.key ≠ 0 && s.job.key = s.job.tag)

/-- The hidden windows that a range touches. -/
def hiddenIn (s : State) (a len : Nat) : List Span :=
  if windowsHidden s then (windows s).filter fun w => overlaps a len w.base w.len else []

/-- Whether an address lies in one of some spans. -/
def inSpans (l : List Span) (a : Nat) : Bool := l.any fun w => decide (w.base ≤ a) && decide (a < w.base + w.len)

/-- First address of a range that lies in one of some spans. -/
def firstIn (l : List Span) (a len : Nat) : Nat :=
  (l.filter fun w => overlaps a len w.base w.len).foldl (fun m w => min m (max a w.base)) (a + len)

/-- The REFUSED record of an access to a tagged window, and its interrupt source (R408, R627; log entry 15). -/
def tagRefused (s : State) (m : Master) (addr : Nat) : State :=
  irq (refusedRec s 0 .spm 0 addr m 5 0) 0 8 5

/-! ## Reads -/

/-- The bytes memory holds. -/
def memBytes (s : State) (base len : Nat) : Bytes := mapBytes s.mem base len

/-- A read by a master: bytes of tagged windows read 0 and the refusal is recorded (R408). -/
def memRead (s : State) (m : Master) (base len : Nat) : Bytes × State :=
  match hiddenIn s base len with
  | [] => (memBytes s base len, s)
  | w :: ws =>
    ((List.range len).map fun i => if inSpans (w :: ws) (base + i) then 0 else Map.getD s.mem (base + i) 0,
     tagRefused s m (firstIn (w :: ws) base len))

/-- The parts of a range that no tagged window hides, in address order. -/
def visibleIn (s : State) (a len : Nat) : List (Nat × Nat) :=
  (hiddenIn s a len).foldl (fun l w => l.flatMap (cutRange w)) [(a, len)]

/-- The checks of a read of some ranges in order, up to the first row that fails twice (R387, R426). -/
def readRanges (s : State) (mf : MemFaults) : List (Nat × Nat) → Option Nat × State
  | [] => (none, s)
  | (a, len) :: t =>
    let bad := failRow s mf a len
    let s := readEffects s mf a len
    if bad.isSome then (bad, s) else readRanges s mf t

/-! ## Writes -/

/-- Some byte of a range of addresses is kept. -/
def keptIn (keep : Nat → Bool) (first past : Nat) : Bool := (List.range (past - first)).any fun i => keep (first + i)

/-- Guards hit by a write of the bytes of a range that `keep` picks, on every core (R277). -/
def hitGuards (s : State) (base len : Nat) (keep : Nat → Bool) : State :=
  { s with cores := Map.mapVals s.cores fun c =>
      { c with guards := Map.mapVals c.guards fun g =>
          if g.armed && overlaps base len g.base g.len && keptIn keep (max base g.base) (min (base + len) (g.base + g.len)) then
            { g with hit := true }
          else g } }

/-- 64-byte lines that the host may hold and a range touches (R432, R433). -/
def snoopedIn (s : State) (base len : Nat) : List Nat :=
  (s.snoop.flatMap fun e => e.2).filter fun l => overlaps base len (64 * l) 64

/-- A row or sector written with a poison code (R389, R427). -/
def poisonRow (s : State) (r : Nat) : State :=
  let c := rowChan s r
  let s := { s with poison := insertNew s.poison r }
  if c.kind = kHbm then
    let s := bump s F.hbmPoisonCount_count c.die 0 1
    irq (emit s c.die 0x14 0 Blk.hbm.num 0 (pb 0 1 2 + pb 1 4 c.unit + pb 5 8 c.index)) c.die 8 3
  else
    let s := bump s F.spmPoisonCount_count c.die 0 1
    emit s c.die 0x14 0 Blk.spm.num 0 (pb 0 1 1 + pb 1 4 c.unit + pb 5 8 c.index)

/-- The read of a row or sector that a write covers in part: one that passes its re-read is counted; one that fails twice
is counted and the merged row is poisoned (R388 to R390, R427 to R429, R845). -/
def mergeRow (s : State) (mf : MemFaults) (r : Nat) : State :=
  let here := fun l : List Nat => l.any fun a => rowBase a = r
  let s := if here mf.corrected then sectorCorrected s r else s
  let s := if here mf.uncorrected then sectorUncorrected s r else s
  let s := if here mf.inverse then { s with poison := insertNew s.poison r } else s
  if s.poison.contains r || mf.mergeFails.contains r then poisonRow (rowFail s r) r
  else if mf.mergeRereads.contains r || here mf.uncorrected then rowReread s r
  else s

/-- Check codes after a write of the bytes of a range that `keep` picks: rows written whole are valid; rows written in part are read
and merged (R388); commands that need a second or third parity attempt are transients (R429). A tagged window holds whole rows (R401), so a row is kept with its first byte. -/
def writeCodes (s : State) (mf : MemFaults) (base len : Nat) (keep : Nat → Bool) : State :=
  if len = 0 then s
  else
    let first := rowBase base
    let last := rowBase (base + len - 1)
    let whole := fun r => decide (base ≤ r) && decide (r + rowLen r ≤ base + len)
    let s' := { s with poison := s.poison.filter fun r => !(whole r && keep r) }
    let s' := (mf.parity.filter fun a => overlaps base len (rowBase a) (rowLen a)).foldl parityRetry s'
    let s' := if whole first || !keep base then s' else mergeRow s' mf first
    if last = first || whole last || !keep (base + len - 1) then s' else mergeRow s' mf last

/-- Bytes of a list at the addresses that `p` keeps. -/
def putSome (p : Nat → Bool) : Map Byte → Nat → Bytes → Map Byte
  | m, _, [] => m
  | m, a, b :: t => putSome p (if p a then putByte m a b else m) (a + 1) t

/-- The bytes of a write that fall in a line, by address. -/
def lineBytes (base : Nat) (data : Bytes) (line : Nat) : Map Byte :=
  (data.zipIdx).filterMap fun (b, i) => if (base + i) / 64 = line then some (base + i, b) else none

/-- The bytes of a write put in place, but those of some lines, which wait. -/
def stored (s : State) (base : Nat) (data : Bytes) (keep : Nat → Bool) (lines : List Nat) : State :=
  { s with
    mem := putSome (fun a => keep a && !lines.contains (a / 64)) s.mem base data
    heldWrites := s.heldWrites ++ lines.map fun l => (l, (lineBytes base data l).filter fun e => keep e.1) }

/-- A sector whose write failed its third parity attempt holds what the manual does not say: 32 free bytes (R420; log entry 147). -/
def lostWrite (s : State) (a : Nat) : State :=
  { s with
    mem := putBytes s.mem (rowBase a) (leBytes 32 (Config.freeValue s.freeCtr))
    freeCtr := s.freeCtr + 1 }

/-- The writes of a range that failed their third parity attempt (R420). -/
def lostWrites (s : State) (mf : MemFaults) (base len : Nat) : State :=
  (mf.writeFails.filter fun a => decide (a < sharedBase 0) && overlaps base len (rowBase a) 32).foldl lostWrite s

/-- Bytes stored: those in lines the host may hold wait for its response (R433), and the check codes are written (R388). -/
def storeBytes (s : State) (mf : MemFaults) (base : Nat) (data : Bytes) (keep : Nat → Bool) : State :=
  let lines := snoopedIn s base data.length
  let s := writeCodes s mf base data.length keep
  lostWrites (stored s base data keep lines) mf base data.length

/-- A write that lands: its bytes are stored and guards are hit (R277). -/
def landWrite (s : State) (mf : MemFaults) (base : Nat) (data : Bytes) (keep : Nat → Bool) : State :=
  hitGuards (storeBytes s mf base data keep) base data.length keep

/-- A write by a master: bytes in tagged windows are dropped and the refusal is recorded (R408). -/
def memWrite (s : State) (m : Master) (mf : MemFaults) (base : Nat) (data : Bytes) : State :=
  match hiddenIn s base data.length with
  | [] => landWrite s mf base data fun _ => true
  | w :: ws =>
    landWrite (tagRefused s m (firstIn (w :: ws) base data.length)) mf base data fun a => !inSpans (w :: ws) a

/-! ## Zeroing (R405 to R407, R433, R444, R445) -/

/-- The 64 zero bytes of a line. -/
def zeroLine (l : Nat) : Map Byte := (List.range 64).map fun i => (64 * l + i, 0)

/-- Every byte whose address `p` holds of is zeroed, and every row and sector with such a byte gets a valid code (R444, R445); bytes
in lines the host may hold follow its response. -/
def zeroWhere (s : State) (p : Nat → Bool) : State :=
  let lines := (s.snoop.flatMap fun e => e.2).filter fun l => (zeroLine l).any fun e => p e.1
  { s with
    mem := Map.drop s.mem fun a => p a && !lines.contains (a / 64)
    poison := s.poison.filter fun r => !(List.range (rowLen r)).any fun i => p (r + i)
    heldWrites := s.heldWrites ++ lines.map fun l => (l, (zeroLine l).filter fun e => p e.1) }

/-- A range zeroed. -/
def zeroRange (s : State) (base len : Nat) : State := zeroWhere s fun a => decide (base ≤ a) && decide (a < base + len)

end Sys2Proof.Machine
end

