-- ==== Sys2Proof/Machine/RegAccess.lean ====
section
/-! DEFINITION. Register accesses through BAR0 and by firmware: which register an offset names, what a read answers, and what
a write does (R16, R18 to R20, R844, and the write rules of each block). -/

namespace Sys2Proof.Machine

/-! ## The register map (R52, R844) -/

/-- Bytes from a register's first unit to unit `u`: slot registers hold 16 per core page (R296). -/
def unitOffset (r : Reg) (u : Nat) : Nat :=
  match r with
  | .seqSlotBase | .seqSlotInfo | .seqSlotCrc => u / 16 * 0x1000 + u % 16 * 0x10
  | _ => u * r.info.stride

/-- The unit of a register that stands `rel` bytes after its first one. -/
def unitAt (r : Reg) (rel : Nat) : Option Nat :=
  let u := match r with
    | .seqSlotBase | .seqSlotInfo | .seqSlotCrc => rel / 0x1000 * 16 + rel % 0x1000 / 0x10
    | _ => if r.info.stride = 0 then 0 else rel / r.info.stride
  if u < r.info.units && unitOffset r u = rel then some u else none

/-- A register exists in a die's window (R52): those of die 0 only do not exist on die 1. -/
def onDie (r : Reg) (die : Nat) : Bool :=
  match r.info.homing with
  | .die0Only => die = 0
  | _ => die < 2

/-- The register and unit at a BAR0 offset, and the die of the window. -/
def regAt (offset : Nat) : Option (Reg × Nat × Nat) :=
  let die := offset / 0x200_0000
  let blk := offset % 0x200_0000 / 0x10_0000
  let rel := offset % 0x10_0000
  Reg.all.findSome? fun r =>
    if r.info.blk.num = blk && onDie r die && r.info.offset ≤ rel then
      (unitAt r (rel - r.info.offset)).map fun u => (r, die, u)
    else none

/-- The BAR0 offset of a register. -/
def regOffset (r : Reg) (die unit : Nat) : Nat :=
  die * 0x200_0000 + r.info.blk.num * 0x10_0000 + r.info.offset + unitOffset r unit

/-- The instance a record names for a register: the core of a per-core page, else 0 (R670). -/
def regInstance (r : Reg) (unit : Nat) : Nat :=
  match r with
  | .seqSlotBase | .seqSlotInfo | .seqSlotCrc => unit / 16
  | _ => if r.info.stride = 0x1000 then unit else 0

def ClockState.fresh : ClockState := ⟨none, false, false, false, 0, none, 0⟩
def clkOf (s : State) (die : Nat) : ClockState := Map.getD s.clk die ClockState.fresh
def setClk (s : State) (die : Nat) (c : ClockState) : State := { s with clk := Map.put s.clk die c }

/-- Arithmetic cycles in a span of ticks at half a frequency in MHz (R706; log entry 25). -/
def stretchedCycles (ticks mhz : Nat) : Nat := ticks * mhz / 8000

/-- Stretched cycles of a die not yet in CLK_STRETCH_CYCLES. -/
def stretchOpen (s : State) (die : Nat) : Nat :=
  match (clkOf s die).stretchFrom with
  | some t => stretchedCycles (now s die - t) (rf s F.clkStatus_freqMhz die 0)
  | none => 0

/-- A frequency step is held: droop, or 1 µs since it cleared (R703). -/
def stepHeld (s : State) (die : Nat) : Bool :=
  let c := clkOf s die
  c.stepTo.isSome && (c.droop || decide (now s die < c.heldUntil))

/-- What a read of a register answers: write-only fields read 0 (R20), and some fields are formed from other state. -/
def readReg (s : State) (r : Reg) (die unit : Nat) : Nat :=
  let v := r.info.fields.foldl (fun a f =>
    match f.access with
    | .wo => a
    | _ => a + bits (rd s r die unit) f.hi f.lo * 2 ^ f.lo) 0
  match r with
  | .hifStatus => setBits v 1 1 (flagBit (attentionNow s))
  | .icuPend => icuPend s die unit
  | .icuMask => icuMask s die unit
  | .ephStatus => (ephOf s die).held.length
  | .clkStatus => setBits v 2 2 (flagBit (stepHeld s die))
  | .truTrial =>
    if rf s F.truUpdateStatus_state 0 0 = 7 then setBits v 9 0 (600 - (now s 0 - s.tru.trialFrom) / 4_000_000_000) else v
  | .clkStretchCycles => satAdd 64 v (stretchOpen s die)
  | _ => v

/-! ## Writes -/

/-- A master has latched presence or the owner lock stands (R20, R788, R792). -/
def presenceLatched (s : State) : Bool := rflag s F.icuInputState_presenceLatched 0 0
def ownerLocked (s : State) : Bool := rflag s F.truStatus_ownerLock 0 0

/-- The value a write leaves in a register, by its fields' access codes (R20). -/
def writeValue (s : State) (r : Reg) (old new : Nat) : Nat :=
  r.info.fields.foldl (fun a f =>
    let o := bits old f.hi f.lo
    let n := bits new f.hi f.lo
    let v := match f.access with
      | .rw => n
      | .ro => o
      | .w1c => o &&& (2 ^ (f.hi - f.lo + 1) - 1 - n)
      | .w1s => o ||| n
      | .wo => o
      | .rwl => if ownerLocked s then o else n
      | .rwp => if presenceLatched s then n else o
    a + v * 2 ^ f.lo) 0

/-- The reason an RWL or RWP field refuses a write now (R20), if any. -/
def lockReason (s : State) (r : Reg) : Option Nat :=
  if r.info.fields.any (fun f => f.access = .rwl) && ownerLocked s then some 2
  else if r.info.fields.any (fun f => f.access = .rwp) && !presenceLatched s then some 3
  else none

/-- A REFUSED record of an ignored register write (R674). -/
def regRefused (s : State) (m : Master) (r : Reg) (die unit reason value : Nat) : State :=
  refusedRec s die r.info.blk (regInstance r unit) (regOffset r die unit) m reason value

/-- Why the rules of a register's block ignore a write now: reason 4 job running, 6 any other (R293, R370, R501, R560 to
R562, R684, R707, R723, R728). -/
def blockReason (s : State) (r : Reg) (value : Nat) : Option Nat :=
  match r with
  | .almCtrl | .almStart | .almPeak | .almFloor | .almWarmup | .almPeriod | .almRatio => if jobRuns s then some 4 else none
  | .synFarBase | .synFarCount => if jobRuns s then some 4 else none
  | .fabPortMode | .fabMcastPorts => if jobRuns s then some 4 else none
  | .fabSampleCfg => if 20 < bits value 4 0 then some 6 else none
  | .sidCtrl => if jobRuns s then some 4 else none
  | .clkDroopCfg => if bits value 7 0 < 20 || 80 < bits value 7 0 then some 6 else none
  | .pwrTightCfg | .pwrThermCfg => if jobRuns s then some 4 else none
  | .pwrHelioCfg =>
    let base := bits value 58 48
    let floor := bits value 47 37
    if jobRuns s then some 4
    else if base < 600 || 2000 < base || floor < 600 || 2000 < floor || base < floor
        || (bitOf value 63 && bits value 15 8 = 0) then some 6
    else none
  | _ => none

/-- Registers that both dies' windows show but that no chapter lists among those of R844, HBM_STATUS and HIF_STATUS: a write at their
die-1 offset is that of a read-only field (R20, R611; log entry 120). -/
def readOnBoth (r : Reg) : Bool := r = .hbmStatus || r = .hifStatus

/-- A plain register write: ignored and recorded where a rule says so, by access code otherwise (R20, R844). SYN_FAR_BASE, whose base R501
calls 16-byte aligned, takes all 48 bits as written, and the far table starts there (DESIGN CHOICE, log entry 150). -/
def plainWrite (s : State) (m : Master) (r : Reg) (die unit value : Nat) : State :=
  match r.info.homing, die with
  | .shared, 1 => if readOnBoth r then s else regRefused s m r die unit 6 value
  | _, _ =>
    match lockReason s r, blockReason s r value with
    | some k, _ => regRefused s m r die unit k value
    | none, some k => regRefused s m r die unit k value
    | none, none => wr s r die unit (writeValue s r (rd s r die unit) value)

/-! ### Rings (R572, R574, R575) -/

/-- A ring configuration write that is ignored (R574). -/
def configErr (s : State) (m : Master) (r : Reg) (die n value : Nat) : State :=
  regRefused (irq (bump s F.hifConfigErrCount_count die 0 1) die 1 6) m r die n 6 value

def RingWork.fresh : RingWork := ⟨[], [], [], [], 0, 0, 0, false⟩

def ringWork (s : State) (die n : Nat) : RingWork := Map.getD s.rings (die * 64 + n) RingWork.fresh

def setRing (s : State) (die n : Nat) (w : RingWork) : State := { s with rings := Map.put s.rings (die * 64 + n) w }

/-- A draining ring whose last fetched descriptor has completed reads disabled (R575). -/
def ringSettle (s : State) (die n : Nat) : State :=
  let w := ringWork s die n
  if ringState s die n = ringDraining && w.fetched = [] && w.active = [] && w.toWrite = [] then
    wf s F.hifRingState_state die n ringDisabled else s

/-- A power of two from 16 to 65,536 (R574). -/
def ringSizeOk (v : Nat) : Bool := (List.range 13).any fun i => v = 2 ^ (i + 4)

/-- A ring's read of a descriptor or write of a record failed (R576). -/
def ringFault (s : State) (die n addr : Nat) : State :=
  let s := wf (setRing s die n { ringWork s die n with faulted := true }) F.hifRingState_state die n ringFaulted
  let s := bump s F.hifFetchFaultCount_count die 0 1
  irq (event s die 0x02 n addr 0) die 1 5

/-- Writes a resource report that is owed to a host address; a write that fails faults the ring again, and the report stays owed
(R595, R774). -/
def reportSettle (s : State) (die n : Nat) (ok : Bool) : State :=
  match s.host.reportOwed with
  | some (a, b) =>
    if die ≠ 0 || n ≠ 32 then s
    else if ok then { hostWrite s a b with host := { s.host with reportOwed := none } }
    else ringFault s 0 32 a
  | none => s

/-- What a doorbell read answers: the ring's tail and, above it, its completed count (R570). -/
def doorbellRead (s : State) (die n : Nat) : Nat := ringTail s die n + ringDone s die n * 2 ^ 32

/-- A write of a ring's size (R574, R575, R576, R774); `ok` is whether the write of a report that is owed succeeds. -/
def ringSizeWrite (s : State) (m : Master) (die n v : Nat) (ok : Bool) : State :=
  let v := v % 2 ^ 17
  if v = 0 then
    if ringSize s die n = 0 && ringState s die n ≠ ringFaulted then s
    else
      let s := wr s .hifRingSize die n 0
      if 33 ≤ n then wf s F.hifRingState_state die n ringDisabled
      else ringSettle (wf s F.hifRingState_state die n ringDraining) die n
  else if ringSize s die n = 0 && ringState s die n = ringDisabled && ringSizeOk v then
    let s := wr s .hifRingSize die n v
    let s := wr (wr (wr s .hifRingHead die n 0) .hifRingTail die n 0) .hifRingDone die n 0
    let s := setRing s die n { ringWork s die n with
      ahead := []
      base := rd s .hifRingBase die n, cpl := rd s .hifRingCpl die n, size := v, faulted := false }
    reportSettle (wf s F.hifRingState_state die n ringActive) die n ok
  else configErr s m .hifRingSize die n v

/-- A write of a ring's base or completion base (R572, R574). -/
def ringBaseWrite (s : State) (m : Master) (r : Reg) (die n v : Nat) : State :=
  if r = .hifRingCpl && 33 ≤ n then s
  else if ringSize s die n = 0 then wr s r die n (writeValue s r 0 v)
  else configErr s m r die n v

/-! ### The interrupt controller (R634 to R640, R646) -/

/-- Sources of a group whose target is a control core: a host write leaves their bits alone (R639). -/
def firmwareBits (s : State) (die g : Nat) : Nat :=
  ((List.range 32).map fun b =>
    if bits (rd s .icuTarget die (32 * g + b)) 5 4 = 1 then 2 ^ b else 0).sum

/-- `new` where the writer may write, `old` elsewhere (R639). -/
def limited (m : Master) (lock old new : Nat) : Nat :=
  if m = .host then (new &&& (2 ^ 32 - 1 - lock)) ||| (old &&& lock) else new

/-- Part of a host write was ignored (R639): recorded. -/
def limitRefused (s : State) (m : Master) (r : Reg) (die g lock old new : Nat) : State :=
  if m = .host && (new &&& lock &&& icuValid die g) ≠ (old &&& lock &&& icuValid die g) then
    regRefused s m r die g 6 new else s

/-- A write of pending bits; `same` are the hardware events of the same control-clock cycle (R634, R639). Source 3 of group 1 stays pending
while records are held (R678). -/
def icuPendWrite (s : State) (m : Master) (die g value same : Nat) : State :=
  let old := icuPend s die g
  let lock := firmwareBits s die g
  let stays := if g = 1 && (ephOf s die).held ≠ [] then 8 else 0
  let v := (limited m lock old value &&& icuValid die g) ||| (same &&& icuValid die g) ||| stays
  let s' := wr s .icuPend die g v
  let rose := (v &&& (2 ^ 32 - 1 - old)) ||| (same &&& icuValid die g)
  let s' := if rose &&& (icuValid die g - icuMask s die g) = 0 then s' else icuArm s' die g
  icuSettle (limitRefused s' m .icuPend die g lock old value) die g

/-- A write of mask bits: unmasking a pending source starts the group's timer (R636, R637, R639). -/
def icuMaskWrite (s : State) (m : Master) (die g value : Nat) : State :=
  let old := icuMask s die g
  let lock := firmwareBits s die g
  let v := limited m lock old value &&& icuValid die g
  let s' := wr s .icuMask die g v
  let opened := old &&& (2 ^ 32 - 1 - v)
  let s' := if opened &&& icuPend s die g = 0 then s' else icuArm s' die g
  icuSettle (limitRefused s' m .icuMask die g lock old value) die g

/-- A write of a source's target (R638, R639, R646). -/
def icuTargetWrite (s : State) (m : Master) (die src value : Nat) : State :=
  let g := src / 32
  let b := src % 32
  let newKind := bits value 5 4
  if !bitOf (icuValid die g) b then s
  else if newKind = 3 || !bitOf (icuMask s die g) b
      || (m = .host && (newKind = 1 || bits (rd s .icuTarget die src) 5 4 = 1)) then
    regRefused s m .icuTarget die src 6 value
  else icuSettle (wr s .icuTarget die src (newKind * 16 + bits value 2 0)) die g

/-! ### Sidereal counter and routing epoch (R529, R684) -/

/-- A write of SID_SET: the master's counter moves forward between jobs, or the write is refused (R684). -/
def sidSetWrite (s : State) (m : Master) (die value : Nat) : State :=
  if rflag s F.sidCtrl_master 0 0 && !jobRuns s && now s die < value then wr s .sidCount die 0 value
  else regRefused s m .sidSet die 0 (if jobRuns s then 4 else 6) value

/-- A write of FAB_ROUTE_CTRL (R529). -/
def routeCtrlWrite (s : State) (m : Master) (die value : Nat) : State :=
  if jobRuns s then regRefused s m .fabRouteCtrl die 0 4 value
  else if (List.range 16).any fun p => rd s .fabPortOutstanding die p ≠ 0 then
    regRefused s m .fabRouteCtrl die 0 6 value
  else
    let s := wf s F.fabRouteCtrl_epoch die 0 (bits value 3 0)
    wf s F.fabRouteCtrl_routeValid die 0 (bits value 4 4)

end Sys2Proof.Machine
end

