-- ==== Sys2Proof/Machine/FabOps.lean ====
section
/-! DEFINITION. Fabric operations: endpoints, routes, flows, ports, header samples and arrival stamps (chapter 11, R666 to
R668). -/

namespace Sys2Proof.Machine

/-! ## Endpoints and packets (R459, R516 to R521) -/

/-- The module's location as last sampled (R521). -/
def location (s : State) : Nat := rf s F.ctlDieInfo_moduleLocation 0 0

/-- The endpoint of a die (R459). -/
def endpoint (s : State) (die : Nat) : Nat := location s * 2 + die

/-- Packet types of R517. -/
def ptData : Nat := 1
def ptMcast : Nat := 2
def ptSignal : Nat := 3
def ptAbort : Nat := 4
def ptAck : Nat := 5
def ptMcastAck : Nat := 6
def ptRefuse : Nat := 7
def ptFenced : Nat := 8
def ptMgmt : Nat := 9

/-- Types kept in a retention buffer until acknowledged (R536). -/
def isRetained (kind : Nat) : Bool := decide (1 ≤ kind) && decide (kind ≤ 4)

/-- A packet to be sent: header fields that injection fills in are 0. -/
def mkPacket (kind vc dst src flow fseq aux word : Nat) (payload : Bytes) : Packet :=
  ⟨kind, vc, 0, dst, src, flow, fseq, 0, 0, 0, 0, false, false, aux, 0, word, payload⟩

/-- Bytes of a packet on the wire, and the flits that it takes credits for (R511, R515, R516; log entry 115). -/
def packetBytes (p : Packet) : Nat := 32 + p.payload.length
def packetFlits (p : Packet) : Nat := divCeil (packetBytes p) 248

/-! ## Flows (R520) -/

/-- The key of a flow: die, far endpoint, channel, flow number. -/
def flowKey (die ep vc flow : Nat) : Nat := ((die * 2 ^ 17 + ep) * 8 + vc) * 256 + flow

def FlowTx.fresh : FlowTx := ⟨0, [], [], [], none⟩
def FlowRx.fresh : FlowRx := ⟨0, [], 0, 0⟩

def flowTx (s : State) (key : Nat) : FlowTx := Map.getD s.flowsTx key FlowTx.fresh
def setFlowTx (s : State) (key : Nat) (f : FlowTx) : State := { s with flowsTx := Map.put s.flowsTx key f }
def flowRx (s : State) (key : Nat) : FlowRx := Map.getD s.flowsRx key FlowRx.fresh
def setFlowRx (s : State) (key : Nat) (f : FlowRx) : State := { s with flowsRx := Map.put s.flowsRx key f }

/-- Die and channel of a flow's key. -/
def keyDie (key : Nat) : Nat := key / 2 ^ 28
def keyVc (key : Nat) : Nat := key / 256 % 8
def keyEp (key : Nat) : Nat := key / 2048 % 2 ^ 17
def keyFlow (key : Nat) : Nat := key % 256

/-- A packet queued on its flow, with the stamp of its sending, which it keeps over the span bridge; over the fabric a retained packet takes
its sequence number, and every packet its stamp, when it is injected (R516, R520, R666). -/
def queuePacket (s : State) (die : Nat) (p : Packet) : State :=
  let k := flowKey die p.dst p.vc p.flow
  let f := flowTx s k
  setFlowTx s k { f with queue := f.queue ++ [{ p with stamp := now s die }] }

/-- A response of types 5 to 8 to a packet: src and dst exchanged, its flow and sequence number kept (R520). -/
def respond (s : State) (die : Nat) (p : Packet) (kind fseq word : Nat) : State :=
  queuePacket s die (mkPacket kind 1 p.src (endpoint s die) p.flow fseq 0 word [])

/-- Every flow's sequence numbers start again; what was queued and not yet injected, or to be sent again, goes with them (R555). -/
def flowsRestart (s : State) : State :=
  { s with
    flowsTx := Map.mapVals s.flowsTx fun f => { f with next := 0, queue := [], resend := [] }
    flowsRx := Map.mapVals s.flowsRx fun f => { f with expected := 0, sinceAck := 0, marks := 0 } }

/-! ## Ports (R507, R509, R515, R536, R564) -/

def PortState.fresh : PortState where
  txSeq := 0
  rxSeq := 4095
  replayBuf := []
  toWire := []
  txPart := []
  nakOwed := false
  ackOwed := false
  owed := []
  rxBytes := []
  rxPkts := []
  credits := []
  rate := []
  lastDecrease := []
  inUse := []
  unlocked := []
  failing := false
  stratum := 15
  better := 0
  sampleTx := 0
  sampleRx := 0
  lastSampleTx := none
  lastSampleRx := none
  reinject := false
  settings := []
  idleOwed := 0
  sinceIdle := 0

def portKey (die p : Nat) : Nat := die * 16 + p
def portOf (s : State) (die p : Nat) : PortState := Map.getD s.ports (portKey die p) PortState.fresh
def setPort (s : State) (die p : Nat) (v : PortState) : State := { s with ports := Map.put s.ports (portKey die p) v }

def portDown : Nat := 0
def portTraining : Nat := 1
def portIsUp : Nat := 2

def portStateOf (s : State) (die p : Nat) : Nat := rf s F.fabPortState_state die p
def portLanes (s : State) (die p : Nat) : Nat := rf s F.fabPortState_lanes die p

/-- A port that takes packets: up, and not failing (R548). -/
def portUp (s : State) (die p : Nat) : Bool := portStateOf s die p = portIsUp && !(portOf s die p).failing

/-- The width that n good lanes give: 8, 4, 2 or 0 (R509). -/
def widthOf (n : Nat) : Nat := if 8 ≤ n then 8 else if 4 ≤ n then 4 else if 2 ≤ n then 2 else 0

/-- The good lanes of a mask, lowest-numbered first, without the lanes retired in the ledger. -/
def goodLanes (s : State) (die p mask : Nat) : List Nat :=
  (List.range 8).filter fun l => bitOf mask l && !bitOf (rf s F.fabPortState_lanesRetired die p) l

/-- The port's state and width set, with source p of group 4 on a change (R564, R627). -/
def setPortState (s : State) (die p st lanes : Nat) : State :=
  if portStateOf s die p = st && portLanes s die p = lanes then s
  else irq (wf (wf s F.fabPortState_state die p st) F.fabPortState_lanes die p lanes) die 4 p

/-- A port trained on the widest set of good lanes (R554, R770). -/
def trainPort (s : State) (die p mask : Nat) : State :=
  let good := goodLanes s die p mask
  let n := widthOf good.length
  let s := setPort s die p { PortState.fresh with inUse := good.take n, stratum := (portOf s die p).stratum
                                                  settings := (portOf s die p).settings }
  setPortState s die p (if n = 0 then portDown else portIsUp) n

/-- Every port trained; the list gives each module port's lanes that came up (R554, R770). -/
def trainPorts (s : State) (train : List (BitVec 8)) : State :=
  (List.range 32).foldl (fun s mp => trainPort s (mp / 16) (mp % 16) ((train.getD mp 0).toNat)) s

/-- Packets of a port's retention buffer and their bytes (R536). -/
def retainedOn (s : State) (die p : Nat) : List Packet :=
  s.flowsTx.flatMap fun e =>
    match e.2.cand with
    | some c => if keyDie e.1 = die && c.port = p then e.2.retained.map (·.1) else []
    | none => []

/-- The outstanding count of every port of a die, kept in FAB_PORT_OUTSTANDING_p (R536). -/
def settleOutstanding (s : State) (die : Nat) : State :=
  (List.range 16).foldl (fun s' p => wr s' .fabPortOutstanding die p (retainedOn s die p).length) s

/-- Every retention buffer and the reorder store discarded; no packet of the ended job is left (R555, R557). -/
def flushFabric (s : State) : State :=
  let s := { s with
    flowsTx := Map.mapVals s.flowsTx fun f => { f with retained := [], resend := [] }
    flowsRx := Map.mapVals s.flowsRx fun f => { f with held := [] }
    mcasts := []
    colWaiting := []
    colEnded := []
    job := { s.job with flushOwed := false } }
  settleOutstanding (settleOutstanding s 0) 1

/-- Bytes queued for injection on a port's channel (R532). -/
def queuedBytes (s : State) (die p vc : Nat) : Nat :=
  ((s.flowsTx.filter fun e => keyDie e.1 = die && keyVc e.1 = vc &&
      (match e.2.cand with | some c => c.port = p | none => false)).map
    fun e => (e.2.queue.map packetBytes).sum).sum

/-! ## Routes (R523 to R526, R532, R533) -/

/-- The routing entry of a location, 0 (no candidates) where none is written. -/
def routeEntry (s : State) (die loc : Nat) : Nat := Map.getD s.routes (die * 65536 + loc) 0

/-- The candidates of an entry (R524, R525); selectors beyond hops are 0 by the checks of R528. -/
def candidatesOf (e : Nat) : List Candidate :=
  (List.range (bits e 127 125)).map fun i =>
    let c := bits e (30 * i + 29) (30 * i)
    ⟨bits c 29 26, bits c 25 24, bits c 23 16, bits c 15 8, bits c 7 0⟩

/-- The candidate whose port has the fewest bytes queued, the first of those (R532). -/
def bestCandidate (s : State) (die vc : Nat) (l : List Candidate) : Option Candidate :=
  (l.filter fun c => portUp s die c.port).foldl (fun m c =>
    match m with
    | none => some c
    | some b => if queuedBytes s die c.port vc < queuedBytes s die b.port vc then some c else some b) none

/-- The candidate a flow takes when it has nothing outstanding (R532, R533). -/
def chooseCandidate (s : State) (die dst vc : Nat) : Option Candidate :=
  if vc = 4 then
    bestCandidate s die vc (((List.range 16).filter fun p => bitOf (rd s .fabMcastPorts die 0) p).map
      fun p => ⟨p, 0, 0, 0, 0⟩)
  else bestCandidate s die vc (candidatesOf (routeEntry s die (dst / 2)))

/-- Switches that a packet crosses, by hops (R526). -/
def switchesOf (hops : Nat) : Nat := match hops with | 0 => 1 | 1 => 3 | _ => 5

/-! ## Header samples (R544 to R546, R675) -/

/-- The payload of a SAMPLE record (R675). -/
def samplePayload (p : Packet) (queued : Nat) : Nat :=
  p.src + p.dst * 2 ^ 17 + p.flow % 256 * 2 ^ 34 + p.fseq % 2 ^ 16 * 2 ^ 42 + p.payload.length * 2 ^ 58
    + p.kind % 16 * 2 ^ 71 + p.vc % 8 * 2 ^ 75 + p.epoch % 16 * 2 ^ 78 + p.hops % 4 * 2 ^ 82 + flagBit p.mark * 2 ^ 84
    + flagBit p.detour * 2 ^ 85 + min 65535 (queued / 256) * 2 ^ 86

/-- A packet passes a port in a direction (0 sent, 1 received): counted, and sampled when its turn comes (R544, R546). -/
def sampleHeader (s : State) (die p dir : Nat) (pkt : Packet) : State :=
  let cfg := rd s .fabSampleCfg die 0
  if !bitOf cfg 31 then s
  else
    let v := portOf s die p
    let n := (if dir = 0 then v.sampleTx else v.sampleRx) + 1
    let last := if dir = 0 then v.lastSampleTx else v.lastSampleRx
    let due := n % 2 ^ bits cfg 4 0 = 0
    let soon := match last with | some t => decide (now s die < t + 4000) | none => false
    let take := due && !soon
    let last' := if take then some (now s die) else last
    let s' := setPort s die p (if dir = 0 then { v with sampleTx := n, lastSampleTx := last' }
      else { v with sampleRx := n, lastSampleRx := last' })
    if take then
      let body := (0x30, 0, samplePayload pkt (queuedBytes s die p pkt.vc))
      emitAll s' die Blk.fab.num (16 * die + p + 32 * dir) (if dir = 0 then [body] else [body, (0x31, 0, pb 0 8 pkt.stamp)])
    else if due then irq (bump s' F.fabSampleSkipCount_count die 0 1) die 5 3
    else s'

/-! ## Arrival stamps (R666 to R668) -/

/-- The smallest latency of a path in ticks (R667). -/
def lMinDie : Nat := 1
def lMinBridge : Nat := 32

/-- Ticks that a message takes over the span bridge: 20 ns longer than within a die (R35). -/
def bridgeTicks : Nat := lMinDie + 80
def lMinFabric (hops : Nat) : Nat := 320 * switchesOf hops

/-- A message sent at a stamp arrives over a path: a counter behind the arrival stamp steps forward to it, counted and
recorded; in Nap and Dark to the grain of the Dome domain (R650, R667, R668). -/
def arriveStamp (s : State) (die sent lmin : Nat) : State :=
  let a := if domeStamps s then domeGrain (sent + lmin) else sent + lmin
  if now s die < a then
    let step := a - now s die
    syncRec (bump (stepTo s die a) F.sidClampCount_count die 0 1) die 4 (Int.ofNat step) 0
  else s

/-- A message put on the span bridge: it carries its sender's stamp, and is there when the receiving counter has gone on for the path's
time (R35, R666; log entry 155). -/
def bridgeSend (s : State) (die : Nat) (b : BridgeBody) : State :=
  { s with bridge := s.bridge ++ [⟨1 - die, now s die, now s (1 - die) + bridgeTicks, b⟩] }

/-! ## Drops (R481, R522, R531) -/

/-- The record of a dropped packet: its source and flow as address, the sequence number, the own epoch and the packet's as
value (R522, R531; log entry 16). -/
def dropRec (s : State) (die p : Nat) (b : Blk) (pkt : Packet) : State :=
  refusedRec s die b (if b = .fab then p else 0) (pkt.src + pkt.flow * 2 ^ 32) .engine 6
    (rf s F.fabRouteCtrl_epoch die 0 + pkt.epoch % 16 * 2 ^ 8 + pkt.fseq % 2 ^ 16 * 2 ^ 16)

end Sys2Proof.Machine
end

