-- ==== Sys2Proof/Machine/Link.lean ====
section
/-! DEFINITION. The link layer of a port: the packet header, flits with their CRC, the codewords on the lanes, the replay buffer,
acknowledgements and credits (R508 to R516). -/

namespace Sys2Proof.Machine

/-! ## Packets as bytes (R516) -/

/-- The 256-bit header of a packet. -/
def packetHeader (p : Packet) : Nat :=
  p.kind % 16 * 2 ^ 252 + p.vc % 8 * 2 ^ 249 + p.epoch % 16 * 2 ^ 245 + p.dst % 2 ^ 17 * 2 ^ 228 + p.src % 2 ^ 17 * 2 ^ 211
    + p.flow % 256 * 2 ^ 203 + p.fseq % 2 ^ 16 * 2 ^ 187 + p.payload.length % 2 ^ 13 * 2 ^ 174 + p.hops % 4 * 2 ^ 172
    + p.sel0 % 256 * 2 ^ 164 + p.sel1 % 256 * 2 ^ 156 + p.sel2 % 256 * 2 ^ 148 + flagBit p.mark * 2 ^ 147
    + flagBit p.detour * 2 ^ 146 + p.aux % 2 ^ 18 * 2 ^ 128 + p.stamp % 2 ^ 64 * 2 ^ 64 + p.word % 2 ^ 64

/-- The bytes of a packet: the header, little-endian, and the payload. -/
def packetData (p : Packet) : Bytes := leBytes 32 (packetHeader p) ++ p.payload

/-- The packet that a header and a payload spell. -/
def packetOf (h : Nat) (payload : Bytes) : Packet where
  kind := bits h 255 252
  vc := bits h 251 249
  epoch := bits h 248 245
  dst := bits h 244 228
  src := bits h 227 211
  flow := bits h 210 203
  fseq := bits h 202 187
  hops := bits h 173 172
  sel0 := bits h 171 164
  sel1 := bits h 163 156
  sel2 := bits h 155 148
  mark := bitOf h 147
  detour := bitOf h 146
  aux := bits h 145 128
  stamp := bits h 127 64
  word := bits h 63 0
  payload := payload

/-- The length field of a header. -/
def headerLength (h : Nat) : Nat := bits h 186 174

/-- The whole packets at the front of a port's received bytes, and the bytes of one that is not whole yet. A header of 32 zero bytes is
fill: what follows it in its flit is fill too (R516; log entry 115). -/
def takePackets : Nat → Bytes → List Packet × Bytes
  | 0, b => ([], b)
  | fuel + 1, b =>
    if b.length < 32 then ([], b)
    else
      let h := leAt b 0 32
      if h = 0 then ([], [])
      else if b.length < 32 + headerLength h then ([], b)
      else
        let (l, rest) := takePackets fuel (b.drop (32 + headerLength h))
        (packetOf h ((b.drop 32).take (headerLength h)) :: l, rest)

/-- The packets that a flit's content completes: bytes of an unfinished packet come first (R512). -/
def addContent (old content : Bytes) : List Packet × Bytes :=
  let b := old ++ content
  takePackets (b.length / 32 + 1) b

/-! ## Flits (R511, R512) -/

def flitIdle : Nat := 0
def flitPacket : Nat := 1
def flitCredit : Nat := 2
def flitControl : Nat := 3

/-- Bytes of a list cut to a length, or filled up to it with zeros. -/
def fitBytes (n : Nat) (b : Bytes) : Bytes := b.take n ++ List.replicate (n - b.length) 0

/-- The 256 bytes of a flit. -/
def flitBytes (seq kind ack : Nat) (nak : Bool) (content : Bytes) : Bytes :=
  let b := leBytes 2 (seq % 4096 + kind % 16 * 4096) ++ leBytes 2 (ack % 4096 + flagBit nak * 4096) ++ fitBytes 248 content
  b ++ leBytes 4 (crc32 b)

/-- The fields of a received flit. -/
def flitSeq (f : Flit) : Nat := leAt f.data 0 2 % 4096
def flitKind (f : Flit) : Nat := leAt f.data 0 2 / 4096
def flitAck (f : Flit) : Nat := leAt f.data 2 2 % 4096
def flitNak (f : Flit) : Bool := bitOf (leAt f.data 2 2) 12
def flitContent (f : Flit) : Bytes := (f.data.drop 4).take 248

/-- A flit is good: its CRC-32 holds and its type is no reserved one (R511, R512). -/
def flitGood (f : Flit) : Bool :=
  leAt f.data 252 4 = crc32 (f.data.take 252) && decide (flitKind f < 4)

/-! ## Codewords (R510) -/

/-- A product in GF(2^10), the field of IEEE 802.3's RS(544,514): x^10 + x^3 + 1 (log entry 116). -/
def gfMul (a b : Nat) : Nat :=
  (List.range 10).foldl (fun r i =>
    let r := 2 * r
    let r := if 1024 ≤ r then r ^^^ 0x409 else r
    if bitOf a (9 - i) then r ^^^ b else r) 0

/-- Coefficients of the generator polynomial, the product of x − α^j for j from 0 to 29, without the leading one and highest
first. -/
def rsGenerator : List Nat :=
  ((List.range 30).foldl (fun (g, p) _ =>
    (((g ++ [0]).zip (0 :: g)).map (fun (x, y) => x ^^^ gfMul p y), gfMul p 2)) ([1], 1)).1.tail

/-- The 30 parity symbols of a codeword's message: the remainder of its division by the generator polynomial. -/
def rsParity (message : List Nat) : List Nat :=
  message.foldl (fun r d =>
    let f := d ^^^ r.headD 0
    ((r.tail ++ [0]).zip rsGenerator).map fun (x, g) => x ^^^ gfMul f g) (List.replicate 30 0)

/-- The 10-bit symbols of a pair's 10,280 message bits: the 40-bit header, then five flits (R510). -/
def pairSymbols (header : Nat) (flits : List Bytes) : List Nat :=
  let m := header % 2 ^ 40 + leNat (flits.flatMap id) * 2 ^ 40
  (List.range 1028).map fun i => bits m (10 * i + 9) (10 * i)

/-- Every second symbol of a list, from the first or from the second one. -/
def everySecond (l : List Nat) (k : Nat) : List Nat := (l.zipIdx.filter fun e => e.2 % 2 = k).map (·.1)

/-- The symbols of a pair of codewords in the order of transmission: message symbols go to the two codewords in turn, and the
symbols of the codewords go out in turn (log entry 116). -/
def codewordPair (header : Nat) (flits : List Bytes) : List Nat :=
  let m := pairSymbols header flits
  let a := everySecond m 0
  let b := everySecond m 1
  ((a ++ rsParity a).zip (b ++ rsParity b)).flatMap fun (x, y) => [x, y]

/-- Symbols distributed over n lanes in round-robin order (R510). -/
def onLanes (n : Nat) (l : List Nat) : List (List Nat) :=
  (List.range n).map fun k => (l.zipIdx.filter fun e => e.2 % n = k).map (·.1)

/-! ## Sending (R512, R513, R515) -/

/-- Bytes cut into contents of 248; what does not fill one is left. -/
def cutContents : Nat → Bytes → List Bytes × Bytes
  | 0, b => ([], b)
  | fuel + 1, b =>
    if b.length < 248 then ([], b)
    else
      let (l, rest) := cutContents fuel (b.drop 248)
      (b.take 248 :: l, rest)

/-- Flits that the replay buffer holds at most (R513). -/
def replayFlits : Nat := 512

/-- A new flit of a port: the next sequence number, kept in the replay buffer until acknowledged (R513). It has not gone out yet. -/
def addFlit (kind : Nat) (v : PortState) (content : Bytes) : PortState :=
  let f : TxFlit := ⟨v.txSeq, kind, content, 0, false, 0⟩
  { v with txSeq := (v.txSeq + 1) % 4096, replayBuf := v.replayBuf ++ [f], toWire := v.toWire ++ [v.txSeq] }

/-- The replay buffer has room for n more flits (R513). -/
def replayRoom (v : PortState) (n : Nat) : Bool := decide (v.replayBuf.length + n ≤ replayFlits)

/-- Flits that a packet adds to the replay buffer at most: those its bytes fill, and one that they leave begun. -/
def newFlits (v : PortState) (pkt : Packet) : Nat := divCeil (v.txPart.length + packetBytes pkt) 248

/-- Room on a port for a packet: credits of its channel and the replay buffer (R513, R515). -/
def linkRoom (s : State) (die p : Nat) (pkt : Packet) : Bool :=
  let v := portOf s die p
  decide (packetFlits pkt ≤ Map.getD v.credits pkt.vc 64) && replayRoom v (newFlits v pkt)

/-- A packet goes out on a port: its bytes follow those of the packet before it without a gap and fill flits, which take credits
(R512, R513, R515). -/
def putOnWire (s : State) (die p : Nat) (pkt : Packet) : State :=
  let v := portOf s die p
  let b := v.txPart ++ packetData pkt
  let (l, rest) := cutContents (b.length / 248) b
  let v := l.foldl (addFlit flitPacket) { v with
    txPart := rest
    credits := Map.put v.credits pkt.vc (Map.getD v.credits pkt.vc 64 - packetFlits pkt) }
  let s := setPort s die p v
  { s with answers := { s.answers with wire := some (die * 16 + p, pkt) } }

/-- Credits the partner holds for a channel: the 128 flits granted, less those of the packets not taken yet and those still to be
returned (R515). -/
def granted (s : State) (die p vc : Nat) : Nat :=
  let v := portOf s die p
  128 - (((v.rxPkts.filter fun x => x.vc = vc).map packetFlits).sum + Map.getD v.owed vc 0)

/-- Packet bytes that fill no flit go out with zeros behind them once no flit waits: the zeros are fill, and where fewer than a header of
them fit, a flit of zeros follows, so that the partner sees 32 of them (R512, R516; log entry 115). -/
def closeContent (v : PortState) : PortState :=
  let n := if v.txPart.length ≤ 216 then 1 else 2
  if v.txPart = [] || v.toWire ≠ [] || !replayRoom v n then v
  else
    let w := addFlit flitPacket { v with txPart := [] } v.txPart
    if n = 1 then w else addFlit flitPacket w []

/-- Credits to be returned go out in a credit flit (R512, R515). -/
def closeCredits (v : PortState) : PortState :=
  if v.owed = [] || !replayRoom v 1 then v
  else addFlit flitCredit { v with owed := [] } ((List.range 8).flatMap fun vc => leBytes 2 (Map.getD v.owed vc 0))

/-- The flits of a port that wait for the lanes. -/
def closeFlits (v : PortState) : PortState := closeCredits (closeContent v)

/-- Whether a port has something to put on the lanes: flits, bytes of one, or an acknowledgement, nak or credit to return. -/
def linkBusy (v : PortState) : Bool :=
  v.toWire ≠ [] || v.txPart ≠ [] || v.owed ≠ [] || v.nakOwed || v.ackOwed

/-- Channel number of a lane (R731). -/
def laneChan (die p lane : Nat) : Nat := (die * 16 + p) * 8 + lane

/-- An idle flit is inserted into the next pair: a lane has seen too few, and 16,384 flits have gone out since the last one (R755). -/
def insertsIdle (v : PortState) : Bool := decide (0 < v.idleOwed) && decide (16384 ≤ v.sinceIdle)

/-- The flits of the next pair of a port, at most five, and four beside an inserted idle one (R510, R755). -/
def pairFlits (v : PortState) : List TxFlit :=
  (v.toWire.take (if insertsIdle v then 4 else 5)).filterMap fun q => v.replayBuf.find? fun e => e.seq = q

/-- A port whose next pair has gone out: its flits have had one more attempt each, and idle flits fill the pair (R513, R514, R755). -/
def pairSent (v : PortState) : PortState :=
  let out := pairFlits v
  let n := if insertsIdle v then 4 else 5
  { v with
    toWire := v.toWire.drop n
    replayBuf := v.replayBuf.map fun e => if (v.toWire.take n).contains e.seq then { e with attempts := e.attempts + 1 } else e
    nakOwed := false
    ackOwed := false
    idleOwed := v.idleOwed - (5 - out.length)
    sinceIdle := if insertsIdle v then 0 else v.sinceIdle + 5 }

/-- A flit that goes out again: one resend, counted, and a transient of the lane it is charged to (R514, R735). -/
def resendFlit (die p : Nat) (s : State) (e : TxFlit) : State :=
  transient (bump s F.fabLinkReplayCount_count die 0 1) kLane (laneChan die p e.lane) e.seq

/-- A request for time leaves the die with this flit: t1 is the counter (R657). -/
def requestLeaves (s : State) (die p : Nat) (out : List TxFlit) : State :=
  match (sidOf s die).request with
  | some (q, n) =>
    if q = p && out.any fun e => e.seq = n then setSid s die { sidOf s die with request := none, asked := some (now s die) } else s
  | none => s

/-- A port with nothing to send carries idle flits only (R512, R755). -/
def idlePair (s : State) (die p : Nat) : State :=
  let v := portOf s die p
  if v.idleOwed = 0 then s else setPort s die p { v with idleOwed := v.idleOwed - 5 }

/-- One pair of codewords of a port: five flits, idle ones where fewer wait, with the last good sequence number and the nak that is
owed; the pair header is left open (R510 to R514, R755; log entry 116). -/
def sendPair (s : State) (die p : Nat) : State :=
  if !portUp s die p then s
  else if !linkBusy (portOf s die p) then idlePair s die p
  else
    let v := closeFlits (portOf s die p)
    let out := pairFlits v
    let idle := List.replicate (5 - out.length) (TxFlit.mk ((v.txSeq + 4095) % 4096) flitIdle [] 1 false 0)
    let data := (out ++ idle).map fun f => flitBytes f.seq f.kind v.rxSeq v.nakOwed f.content
    let (h, s) := fresh (setPort s die p (pairSent v))
    let s := { s with answers := { s.answers with
      lanes := Map.put s.answers.lanes (die * 16 + p) (onLanes v.inUse.length (codewordPair h data)) } }
    (out.filter fun e => 1 ≤ e.attempts).foldl (resendFlit die p) (requestLeaves s die p out)

/-- What the ports put on the lanes in a tick. -/
def sendPairs (s : State) : State :=
  (s.ports.map (·.1)).foldl (fun s k => sendPair s (k / 16) (k % 16)) { s with answers := { s.answers with lanes := [] } }

/-! ## Receiving (R512 to R515) -/

/-- Flits acknowledged leave the replay buffer, in order (R513). -/
def ackFlits (buf : List TxFlit) (ack : Nat) : List TxFlit :=
  match buf.findIdx? fun e => e.seq = ack with
  | some i => buf.drop (i + 1)
  | none => buf

/-- The first packet of a channel that a port holds for the router (R512, R515). -/
def rxFirst (s : State) (die p vc : Nat) : Option Packet := (portOf s die p).rxPkts.find? fun x => x.vc = vc

/-- A packet taken by the router: its flits' credits are to be returned (R515). -/
def takePacket (s : State) (die p : Nat) (pkt : Packet) : State :=
  let v := portOf s die p
  setPort s die p { v with
    rxPkts := v.rxPkts.erase pkt
    owed := Map.put v.owed pkt.vc (Map.getD v.owed pkt.vc 0 + packetFlits pkt) }

end Sys2Proof.Machine
end

