-- ==== Sys2Proof/Machine/Operands.lean ====
section
/-! DEFINITION. The number formats (R62 to R84), rounding (R85 to R92) and conversion (R94 to R105, R843). Finite values
are exact: a sign, a magnitude m and an exponent e, for m × 2^e. -/

namespace Sys2Proof.Machine

/-- A value of any format, exactly. -/
inductive Num where
  | nan (signalling : Bool)
  | inf (neg : Bool)
  | fin (neg : Bool) (m : Nat) (e : Int)
deriving DecidableEq, Repr

/-- A floating-point format of the R64 table: precision p with the hidden bit, exponent of the last place of its smallest
values, field widths, largest finite value, and how it treats special values. -/
structure FloatFmt where
  p : Nat
  qmin : Int
  ebits : Nat
  fbits : Nat
  maxM : Nat
  maxE : Int
  /-- infinities and the usual NaN codes (R65) -/
  specials : Bool
  /-- subnormals are flushed on reading and writing (R68, R69) -/
  flush : Bool
  /-- the canonical NaN (R66), 0 where the format has none (R101) -/
  nanCode : Nat
  /-- −0 has a code of its own -/
  negZero : Bool
deriving DecidableEq, Repr

def fmtB64 : FloatFmt := ⟨53, -1074, 11, 52, 2 ^ 53 - 1, 971, true, false, 0x7FF8_0000_0000_0000, true⟩
def fmtB32 : FloatFmt := ⟨24, -149, 8, 23, 2 ^ 24 - 1, 104, true, false, 0x7FC0_0000, true⟩
def fmtB16 : FloatFmt := ⟨11, -24, 5, 10, 2 ^ 11 - 1, 5, true, false, 0x7E00, true⟩
def fmtNf16 : FloatFmt := ⟨8, -133, 8, 7, 2 ^ 8 - 1, 120, true, true, 0x7FC0, true⟩
def fmtNf8a : FloatFmt := ⟨4, -9, 4, 3, 15, 5, false, false, 0x80, false⟩
def fmtNf8b : FloatFmt := ⟨3, -16, 5, 2, 7, 13, true, false, 0x7E, true⟩
def fmtNf4 : FloatFmt := ⟨2, -1, 2, 1, 3, 1, false, false, 0, false⟩
def fmtW36 : FloatFmt := ⟨26, -535, 10, 25, 2 ^ 26 - 1, 486, true, true, 0x7FF00_0000, true⟩

/-- Format codes (R62) as sorts: what a code's elements are. -/
inductive Sort_ where
  | float (f : FloatFmt)
  | int (width : Nat)
  | bad
deriving DecidableEq, Repr

/-- The element sort of a format code; a block-scaled code has the sort of its elements (R62, R81). -/
def elemSort : Nat → Sort_
  | 0x1 => .float fmtB64 | 0x2 => .float fmtB32 | 0x3 => .float fmtB16 | 0x4 => .float fmtNf16
  | 0x5 => .float fmtNf8a | 0x6 => .float fmtNf8b | 0x7 => .float fmtNf4
  | 0x8 => .float fmtNf8a | 0x9 => .float fmtNf8b | 0xA => .float fmtNf4
  | 0xB => .int 8 | 0xC => .int 4 | 0xD => .int 32 | 0xE => .int 64
  | _ => .bad

/-- Width in bits of one element (R62). -/
def elemBits : Nat → Nat
  | 0x1 => 64 | 0x2 => 32 | 0x3 => 16 | 0x4 => 16 | 0x5 => 8 | 0x6 => 8 | 0x7 => 4 | 0x8 => 8 | 0x9 => 8 | 0xA => 4
  | 0xB => 8 | 0xC => 4 | 0xD => 32 | 0xE => 64 | _ => 0

/-- The block-scaled formats (R78). -/
def isBlock (f : Nat) : Bool := f == 0x8 || f == 0x9 || f == 0xA

/-- The integer formats (R76). -/
def isIntFmt (f : Nat) : Bool := f == 0xB || f == 0xC || f == 0xD || f == 0xE

/-! ## Decoding -/

/-- The value of a float code (R64, R65, R68, R71 to R75). -/
def decodeFloat (f : FloatFmt) (code : Nat) : Num :=
  let neg := code.testBit (f.ebits + f.fbits)
  let ef := (code >>> f.fbits) % 2 ^ f.ebits
  let fr := code % 2 ^ f.fbits
  if f.specials && ef = 2 ^ f.ebits - 1 then
    if fr = 0 then .inf neg else .nan (!fr.testBit (f.fbits - 1))
  else if !f.negZero && neg && ef = 0 && fr = 0 then
    -- Nf8a code 0x80 is its NaN (R72); Nf4 code 0b1000 reads as +0 (R75)
    if f.nanCode ≠ 0 then .nan false else .fin false 0 0
  else if ef = 0 then
    if f.flush then .fin neg 0 0 else .fin neg fr f.qmin
  else .fin neg (2 ^ f.fbits + fr) (f.qmin + ef - 1)

/-- The value of an element code of a format (unscaled). -/
def decodeElem (fmt code : Nat) : Num :=
  match elemSort fmt with
  | .float f => decodeFloat f code
  | .int w => let i := signedOf w code; .fin (i < 0) i.natAbs 0
  | .bad => .nan false

/-- A value times 2^k. -/
def Num.scale (x : Num) (k : Int) : Num :=
  match x with
  | .fin n m e => .fin n m (e + k)
  | y => y

/-- An element of a block under its scale byte (R78, R81, R82). -/
def decodeScaled (fmt code scale : Nat) : Num :=
  if isBlock fmt then
    if scale = 0xFF then .nan false else (decodeElem fmt code).scale (Int.ofNat scale - 127)
  else decodeElem fmt code

/-! ## Rounding -/

/-- Rounding modes (R85). -/
inductive Rnd where
  | rne | rtz | rup | rdn | rna | sr
deriving DecidableEq, Repr

/-- The mode of a 3-bit code; the reserved codes are refused by the checks before any rounding (R85, R329). -/
def Rnd.of : Nat → Rnd
  | 0 => .rne | 1 => .rtz | 2 => .rup | 3 => .rdn | 4 => .rna | 5 => .sr | _ => .rne

/-- n rounded up or not: for |v| = (n + (rem + δ) / 2^shift) units, 0 < δ < 1 exactly when `sticky` (R85, R88). -/
def roundUp (rnd : Rnd) (srBits : Nat) (neg : Bool) (n rem shift : Nat) (sticky : Bool) : Bool :=
  let exact := rem = 0 && !sticky
  if exact then false
  else match rnd with
    | .rtz => false
    | .rup => !neg
    | .rdn => neg
    | .sr => decide (srBits < (rem * 2 ^ 24) / 2 ^ shift)
    | .rne =>
      if 2 * rem < 2 ^ shift then false
      else if 2 ^ shift < 2 * rem then true
      else sticky || n % 2 = 1
    | .rna => decide (2 ^ shift ≤ 2 * rem)

/-- The magnitude m × 2^e (plus a little where `sticky`) in units of 2^q: whole units, remainder, shift. -/
def inUnits (m : Nat) (e q : Int) : Nat × Nat × Nat :=
  if q ≤ e then (m * 2 ^ (e - q).toNat, 0, 0)
  else let s := (q - e).toNat; (m / 2 ^ s, m % 2 ^ s, s)

/-- m1 × 2^e1 < m2 × 2^e2. -/
def magLt (m1 : Nat) (e1 : Int) (m2 : Nat) (e2 : Int) : Bool :=
  if e2 ≤ e1 then decide (m1 * 2 ^ (e1 - e2).toNat < m2) else decide (m1 < m2 * 2 ^ (e2 - e1).toNat)

/-- Rounding m × 2^e (and a sticky rest) to units of 2^q. Answers units and whether it was inexact. -/
def roundAt (rnd : Rnd) (srBits : Nat) (neg : Bool) (m : Nat) (e q : Int) (sticky : Bool) : Nat × Bool :=
  let (n, rem, sh) := inUnits m e q
  (if roundUp rnd srBits neg n rem sh sticky then n + 1 else n, rem ≠ 0 || sticky)

/-- The code of a finite magnitude n × 2^q that lies on the format's grid. -/
def encodeFinite (f : FloatFmt) (neg : Bool) (n : Nat) (q : Int) : Nat :=
  let (n, q) := if n = 2 ^ f.p then (n / 2, q + 1) else (n, q)
  let sign := if neg then 2 ^ (f.ebits + f.fbits) else 0
  if n = 0 then (if f.negZero then sign else 0)
  else if n < 2 ^ (f.p - 1) then sign + n
  else sign + (q - f.qmin + 1).toNat * 2 ^ f.fbits + (n - 2 ^ (f.p - 1))

/-- The code of an infinity. -/
def encodeInf (f : FloatFmt) (neg : Bool) : Nat :=
  (if neg then 2 ^ (f.ebits + f.fbits) else 0) + (2 ^ f.ebits - 1) * 2 ^ f.fbits

/-- The code of the largest finite value. -/
def encodeMax (f : FloatFmt) (neg : Bool) : Nat := encodeFinite f neg f.maxM f.maxE

/-- A code with the exceptions its rounding raised. -/
structure Rounded where
  code : Nat
  exc : Exc
deriving DecidableEq, Repr

/-- The exponent of the leading bit of m × 2^e. -/
def topExp (m : Nat) (e : Int) : Int := Int.ofNat m.log2 + e

/-- Rounding an exact finite value to a float format: R86, R88, R92, the overflow and underflow rows of R101, the flush of
R69, and the exceptions of R322, R323 and R843. `sat` as R98. A subnormal result that is exact raises neither underflow nor inexact
(log entry 129). -/
def roundFinite (f : FloatFmt) (rnd : Rnd) (sat : Bool) (srBits : Nat) (neg : Bool) (m : Nat) (e : Int)
    (sticky : Bool) : Rounded :=
  if m = 0 && !sticky then ⟨encodeFinite f neg 0 f.qmin, Exc.none⟩
  else
    let top := topExp m e
    let qFree := top - (Int.ofNat f.p - 1)
    let q := if qFree < f.qmin then f.qmin else qFree
    let (n, inexact) := roundAt rnd srBits neg m e q sticky
    if magLt f.maxM f.maxE n q then
      let toMax := sat || !f.specials || (match rnd with
        | .rtz => true | .rup => neg | .rdn => !neg | _ => false)
      ⟨if toMax then encodeMax f neg else encodeInf f neg, ⟨false, false, true, false, true⟩⟩
    else
      let minNormM := 2 ^ (f.p - 1)
      let (nFree, _) := roundAt rnd srBits neg m e qFree sticky
      let tiny := magLt nFree qFree minNormM f.qmin
      let flushed := f.flush && 0 < n && n < minNormM && q = f.qmin
      if flushed then ⟨encodeFinite f neg 0 f.qmin, ⟨false, false, false, true, true⟩⟩
      else ⟨encodeFinite f neg n q, ⟨false, false, false, inexact && tiny, inexact⟩⟩

/-- Rounding an exact finite value to a two's-complement integer: saturating, invalid when it saturates (R98, R101, R843). -/
def roundInt (w : Nat) (rnd : Rnd) (srBits : Nat) (neg : Bool) (m : Nat) (e : Int) : Rounded :=
  let (n, inexact) := roundAt rnd srBits neg m e 0 false
  let v : Int := if neg then -(n : Int) else n
  let hi : Int := 2 ^ (w - 1) - 1
  let lo : Int := -(2 ^ (w - 1))
  if hi < v then ⟨codeOf w hi, Exc.nv⟩
  else if v < lo then ⟨codeOf w lo, Exc.nv⟩
  else ⟨codeOf w v, ⟨false, false, false, false, inexact⟩⟩

/-- Rounding a value of an arithmetic operation to a float format: NaNs canonical (R66), infinities kept. -/
def roundNum (f : FloatFmt) (rnd : Rnd) (srBits : Nat) (x : Num) : Rounded :=
  match x with
  | .nan _ => ⟨f.nanCode, Exc.none⟩
  | .inf neg => ⟨encodeInf f neg, Exc.none⟩
  | .fin neg m e => roundFinite f rnd false srBits neg m e false

/-! ## Deterministic stochastic rounding (R90) -/

/-- The mixing function of R90, modulo 2^64. -/
def srMix (z : Nat) : Nat :=
  let z := ((z ^^^ (z >>> 31)) * 0x8F3A_62D1_5B07_C9E5) % 2 ^ 64
  let z := ((z ^^^ (z >>> 29)) * 0xE4B1_2C97_0D58_A36B) % 2 ^ 64
  z ^^^ (z >>> 32)

/-- The 24 bits r of R90: job seed, core 0 to 47, step, and element address (R91). -/
def srBitsOf (seed core step addr : Nat) : Nat :=
  let x := srMix ((seed ^^^ step) % 2 ^ 64)
  let x := srMix ((x ^^^ ((core * 2 ^ 50) % 2 ^ 64) ^^^ addr) % 2 ^ 64)
  (x >>> 40) % 2 ^ 24

/-- The element address of R91: twice the byte address, plus 1 for the element in bits [7:4]. -/
def srAddr (fmt base i : Nat) : Nat :=
  if elemBits fmt = 4 then 2 * base + i else 2 * (base + i * (elemBits fmt / 8))

/-! ## Conversion of one element (R101, R843) -/

/-- The conversion of a value to an element of a destination format. `blockElem`: the element stands in a block-scaled
destination, where an Nb8b element that passes the largest finite value saturates whatever `sat` holds (R101). -/
def convertElem (dst : Nat) (rnd : Rnd) (sat blockElem : Bool) (srBits : Nat) (x : Num) : Rounded :=
  match elemSort dst with
  | .bad => ⟨0, Exc.none⟩
  | .int w =>
    match x with
    | .nan _ => ⟨0, Exc.nv⟩
    | .inf neg => ⟨if neg then 2 ^ (w - 1) else 2 ^ (w - 1) - 1, Exc.nv⟩
    | .fin neg m e => roundInt w rnd srBits neg m e
  | .float f =>
    match x with
    | .nan sg => if f.nanCode = 0 then ⟨0, Exc.nv⟩ else ⟨f.nanCode, if sg then Exc.nv else Exc.none⟩
    | .inf neg =>
      if f.specials && !sat then ⟨encodeInf f neg, Exc.none⟩ else ⟨encodeMax f neg, Exc.nv⟩
    | .fin neg m e => roundFinite f rnd (sat || blockElem) srBits neg m e false

/-- Whether a value is a NaN or an infinity. -/
def Num.nonfinite : Num → Bool
  | .fin _ _ _ => false
  | _ => true

/-- The magnitude of a value is larger (both finite). -/
def Num.magLe (a b : Num) : Bool :=
  match a, b with
  | .fin _ m1 e1, .fin _ m2 e2 => !magLt m2 e2 m1 e1
  | _, _ => false

/-- The value of largest magnitude of a block (R103). -/
def blockMax (xs : List Num) : Num :=
  xs.foldl (fun a x => if a.magLe x then x else a) (.fin false 0 0)

/-- The block exponent k of R103: the smallest from −127 to 127 with A ≤ M × 2^k; 127 where none is (no permitted source
reaches it). -/
def blockExp (f : FloatFmt) (a : Num) : Int :=
  ((List.range 255).map fun i => (Int.ofNat i - 127)).find? (fun k => a.magLe (.fin false f.maxM (f.maxE + k)))
    |>.getD 127

/-- One converted block: scale byte, 32 element codes, exceptions (R103 to R105, R843). `xs` are the real elements. -/
structure BlockOut where
  scale : Nat
  codes : List Nat
  exc : Exc
deriving DecidableEq, Repr

/-- Conversion of one block of at most 32 source elements (R103 to R105). `sr i` are the SR bits of element i. -/
def convertBlock (dst : Nat) (rnd : Rnd) (sat : Bool) (sr : Nat → Nat) (xs : List Num) : BlockOut :=
  match elemSort dst with
  | .float f =>
    if xs.any Num.nonfinite then
      let nv := xs.any fun x => match x with | .inf _ => true | .nan s => s | _ => false
      ⟨0xFF, List.replicate 32 0, if nv then Exc.nv else Exc.none⟩
    else
      let k := blockExp f (blockMax xs)
      let rs := (xs.zipIdx).map fun (x, i) => convertElem dst rnd sat true (sr i) (x.scale (-k))
      ⟨(k + 127).toNat, rs.map (·.code) ++ List.replicate (32 - xs.length) 0, rs.foldl (fun a r => a.or r.exc) Exc.none⟩
  | _ => ⟨0, [], Exc.none⟩

/-! ## Elements in memory (R77, R301) -/

/-- Bytes that n elements of a format take (R62, R77). -/
def elemBytes (fmt n : Nat) : Nat := divCeil (n * elemBits fmt) 8

/-- The code of element i of contiguous bytes. -/
def elemAt (fmt : Nat) (b : Bytes) (i : Nat) : Nat :=
  if elemBits fmt = 4 then
    let x := (b.getD (i / 2) 0).toNat
    if i % 2 = 0 then x % 16 else x / 16
  else leAt b (i * (elemBits fmt / 8)) (elemBits fmt / 8)

/-- The codes of n contiguous elements. -/
def elemsOf (fmt : Nat) (b : Bytes) (n : Nat) : List Nat := (List.range n).map (elemAt fmt b)

/-- Pairs of 4-bit codes as bytes; an odd last element leaves bits [7:4] at 0 (R77). -/
def packNibbles : List Nat → Bytes
  | [] => []
  | [a] => [BitVec.ofNat 8 (a % 16)]
  | a :: b :: t => BitVec.ofNat 8 (a % 16 + 16 * (b % 16)) :: packNibbles t

/-- Contiguous element codes as bytes. -/
def packElems (fmt : Nat) (codes : List Nat) : Bytes :=
  if elemBits fmt = 4 then packNibbles codes else codes.flatMap fun c => leBytes (elemBits fmt / 8) c

end Sys2Proof.Machine
end

