-- ==== Sys2Proof/Machine/Fields.lean ====
section
/-! DEFINITION. The commands of a stream: the bundle, the fields of every wide command, the checks that need nothing but the
fields (R119 to R123, R179 to R183, R253 to R256, R299 to R318, R329, R352, R353, R367, R460 to R462), and the ranges that
vector instructions read and write. -/

namespace Sys2Proof.Machine

/-- F, the number of far objects in force: what the job began with, or SYN_FAR_COUNT between jobs (R454). -/
def farCount (s : State) : Nat := if jobRuns s then s.job.far else rf s F.synFarCount_count 0 0

/-! ## Bundles (R253 to R257) -/

/-- A decoded bundle. -/
structure Bundle where
  raw : Nat
  delta : Nat
  mark : Bool
  wideValid : Bool
  narrowValid : Bool
  engine : Nat
  wide : Nat
  narrow : Nat
deriving DecidableEq, Repr

/-- The fields of a bundle's 256 bits (R253). -/
def bundleOf (w : Nat) : Bundle :=
  ⟨w, bits w 255 232, bitOf w 231, bitOf w 230, bitOf w 229, bits w 228 226, bits w 191 64, bits w 63 0⟩

/-- The checks of a narrow slot (R255, R460 to R462): reason 0x1 of R295. `far` is F, `own` the module's location. The range of a GUARD
is one it declares, not one it accesses: no range rule is applied to it (log entry 128). -/
def narrowOk (w far own : Nat) : Bool :=
  match bits w 63 60 with
  | 1 =>
    let index := bits w 41 18
    bits w 1 0 = 0 &&
      (if bitOf w 59 then !bitOf w 42 && (bits w 58 43 ≠ own || decide (index < far)) else decide (index < 65536))
  | 2 =>
    let index := bits w 58 35
    if bitOf w 59 then decide (index < far) else decide (index < 65536)
  | 3 => true
  | _ => false

/-- The header and narrow-slot checks of a bundle (R254 to R256): reason 0x1 of R295. -/
def headerOk (b : Bundle) (far own : Nat) : Bool :=
  bits b.raw 225 192 = 0
    && (if b.wideValid then decide (1 ≤ b.engine) && decide (b.engine ≤ 4) else b.engine = 0 && b.wide = 0)
    && (if b.narrowValid then narrowOk b.narrow far own else b.narrow = 0)

/-! ## Engine codes (R254) -/

def engArray : Nat := 1
def engAcc : Nat := 2
def engVec : Nat := 3
def engUpd : Nat := 4

/-! ## Matrix formats (R106, R107, R117, R155) -/

def matrixFmt (f : Nat) : Bool := decide (2 ≤ f) && decide (f ≤ 0xC)
def semiFmt (f : Nat) : Bool := f == 3 || f == 4 || f == 5 || f == 6 || f == 0xB

/-- p_w, the elements of K one PE holds. -/
def packOf (f : Nat) : Nat := if elemBits f = 8 then 2 else if elemBits f = 4 then 4 else 1

/-- I, the cycles per stream row. -/
def intervalOf (f : Nat) : Nat := if elemBits f = 32 then 2 else 1

/-- K_rows (R118). -/
def kRowsOf (f k : Nat) : Nat := divCeil k (packOf f)

/-- The 64-byte lines of a row or column of k elements. -/
def lineCount (f k : Nat) : Nat := divCeil (elemBytes f k) 64

/-- Two operand formats that one pass may use (R107). -/
def pairOk (a b : Nat) : Bool := elemBits a = elemBits b && isIntFmt a = isIntFmt b

/-- A range of operand-buffer lines stays below line 8,192, with a pitch of at least one row (R123). -/
def bufRangeOk (line pitch count len : Nat) : Bool :=
  count = 0 || len = 0 || ((count ≤ 1 || decide (len ≤ pitch)) && decide (line + (count - 1) * pitch + len ≤ 8192))

/-- The scale bytes of rows or columns stay in the operand buffer (R129). -/
def scaleRangeOk (line count k : Nat) : Bool :=
  count = 0 || k = 0 || decide (line * 64 + 16 * (count - 1) + divCeil k 32 ≤ 8192 * 64)

/-! ## Array commands (R119 to R123) -/

/-- Bits [127:124] and [123:122] of array and accumulation commands. -/
def opcodeOf (w : Nat) : Nat := bits w 127 124
def arrayNum (w : Nat) : Nat := bits w 123 122

/-- FEED (R120). -/
structure Feed where
  array : Nat
  lead : Nat
  src : Nat
  line : Nat
  rows : Nat
  rowLines : Nat
  dstPitch : Nat
  srcPitch : Nat
deriving DecidableEq, Repr

def Feed.of (w : Nat) : Feed :=
  ⟨arrayNum w, bits w 121 109, bits w 108 61, bits w 60 48, bits w 47 37, bits w 36 29, bits w 28 16, bits w 15 0⟩

/-- A FEED that moves something (R124). -/
def Feed.moves (f : Feed) : Bool := f.rows ≠ 0 && f.rowLines ≠ 0

/-- Bytes from the first to the last byte of the source. -/
def Feed.span (f : Feed) : Nat := if f.moves then (f.rows - 1) * (f.srcPitch * 64) + f.rowLines * 64 else 0

def Feed.ok (s : State) (k : Nat) (f : Feed) : Bool :=
  decide (f.lead ≤ 4096) && f.src % 64 = 0 && decide (f.rows ≤ 1024)
    && (!f.moves || (decide (f.line + (f.rows - 1) * f.dstPitch + f.rowLines ≤ 8192) && rangeIn s f.src f.span (reachFeeder k)))

/-- MLOAD (R121). -/
structure Mload where
  array : Nat
  fmt : Nat
  degradable : Bool
  k : Nat
  n : Nat
  line : Nat
  pitch : Nat
  scaleLine : Nat
deriving DecidableEq, Repr

def Mload.of (w : Nat) : Mload :=
  ⟨arrayNum w, bits w 121 118, bitOf w 117, bits w 116 107, bits w 106 99, bits w 98 86, bits w 85 78, bits w 77 65⟩

def Mload.ok (m : Mload) : Bool :=
  matrixFmt m.fmt && decide (m.k ≤ 128 * packOf m.fmt) && decide (m.n ≤ 128) && (!isBlock m.fmt || m.k % 32 = 0)
    && (!m.degradable || m.fmt = 4) && bufRangeOk m.line m.pitch m.n (lineCount m.fmt m.k)
    && (!isBlock m.fmt || scaleRangeOk m.scaleLine m.n m.k)

/-- MPASS (R122). -/
structure Mpass where
  array : Nat
  fmt : Nat
  op : Nat
  clear : Bool
  m : Nat
  accRow : Nat
  line : Nat
  pitch : Nat
  scaleLine : Nat
deriving DecidableEq, Repr

def Mpass.of (w : Nat) : Mpass :=
  ⟨arrayNum w, bits w 121 118, bits w 117 114, bitOf w 113, bits w 112 103, bits w 102 94, bits w 93 81, bits w 80 73,
   bits w 72 60⟩

/-- The conditions of R123 on the MPASS's own fields. -/
def Mpass.ok (p : Mpass) : Bool :=
  matrixFmt p.fmt && decide (p.op ≤ 6) && (p.op = 0 || semiFmt p.fmt) && decide (p.m ≤ 512) && decide (p.accRow + p.m ≤ 512)

/-- What the checks of R123 compare an MPASS with: the tile's format (none for the empty tile of R127), K, N, degradable. -/
structure TileView where
  fmt : Option Nat
  k : Nat
  n : Nat
  degradable : Bool
deriving DecidableEq, Repr

/-- The conditions of R123 that compare the stream with the tile (R107, R127, R155, R244), and those on the lines the pass reads:
none for a tile without columns (R125). -/
def Mpass.fits (p : Mpass) (t : TileView) : Bool :=
  (match t.fmt with
    | none => true
    | some f => pairOk p.fmt f && (p.op = 0 || semiFmt f) && (!t.degradable || (p.fmt = 4 && p.op = 0)))
  && (t.n = 0 || (bufRangeOk p.line p.pitch p.m (lineCount p.fmt t.k) && (!isBlock p.fmt || scaleRangeOk p.scaleLine p.m t.k)))

/-! ## Accumulation commands (R179 to R183) -/

/-- PLATE (R180). -/
structure Plate where
  array : Nat
  accRow : Nat
  m : Nat
  n : Nat
  init : Bool
  integer : Bool
  exposure : Nat
  plate : Nat
deriving DecidableEq, Repr

def Plate.of (w : Nat) : Plate :=
  ⟨arrayNum w, bits w 121 113, bits w 112 103, bits w 102 95, bitOf w 94, bitOf w 93, bits w 92 78, bits w 77 60 * 64⟩

/-- A PLATE or DRAIN that has an effect (R183). -/
def Plate.acts (p : Plate) : Bool := p.m ≠ 0 && p.n ≠ 0

def Plate.ok (p : Plate) : Bool :=
  !p.acts || (decide (p.accRow + p.m ≤ 512) && decide (p.n ≤ 128) && decide (256 ≤ p.exposure) && decide (p.exposure ≤ 16384)
    && decide (p.plate + p.m * p.n * 16 ≤ coreSize))

/-- What a PLATE binds to its rows. -/
def Plate.binding (p : Plate) : Binding := ⟨p.accRow, p.m, p.n, p.integer, p.exposure, p.plate⟩

/-- DRAIN (R181); dst, pitch and aux in bytes. -/
structure Drain where
  array : Nat
  outFmt : Nat
  rnd : Nat
  stats : Bool
  m : Nat
  accRow : Nat
  n : Nat
  dst : Nat
  pitch : Nat
  aux : Nat
  chain : Bool
  c : Nat
deriving DecidableEq, Repr

def Drain.of (w : Nat) : Drain :=
  ⟨arrayNum w, bits w 121 118, bits w 117 115, bitOf w 114, bits w 113 104, bits w 103 95, bits w 94 87, bits w 86 69 * 64,
   bits w 68 55 * 64, bits w 54 37 * 64, bitOf w 36, bits w 31 0⟩

def Drain.acts (d : Drain) : Bool := d.m ≠ 0 && d.n ≠ 0

/-- Bytes of one output element. -/
def Drain.width (d : Drain) : Nat := elemBits d.outFmt / 8

/-- m rows of n elements of w bytes from dst at the drain's pitch stay inside core memory and inside their pitch (R182). -/
def Drain.rowsFit (d : Drain) (w : Nat) : Bool :=
  (d.m ≤ 1 || decide (d.n * w ≤ d.pitch)) && decide (d.dst + (d.m - 1) * d.pitch + d.n * w ≤ coreSize)

/-- Formats that a float drain, or the engines of R305, may use. -/
def floatOut (f : Nat) : Bool := decide (1 ≤ f) && decide (f ≤ 4)
def intOut (f : Nat) : Bool := f == 0xD || f == 0xE

def Drain.ok (d : Drain) : Bool :=
  !d.acts || (decide (d.accRow + d.m ≤ 512) && ((floatOut d.outFmt && decide (d.rnd ≤ 4)) || (intOut d.outFmt && d.rnd = 0 && !d.stats))
    && d.rowsFit d.width && (!d.chain || d.rowsFit 8)
    && decide (d.aux + (if d.stats then 64 + 8 * d.m else 16) ≤ coreSize))

/-- The conditions of R182 on a DRAIN that compare it with its binding. -/
def Drain.fits (d : Drain) (b : Binding) : Bool := decide (d.n ≤ b.cols) && b.integer = intOut d.outFmt

/-- Bits reserved in array and accumulation commands are 0. -/
def arrayReservedOk (w : Nat) : Bool :=
  match opcodeOf w with
  | 1 => true
  | 2 => bits w 64 0 = 0
  | 3 => bits w 59 0 = 0
  | _ => false

def accReservedOk (w : Nat) : Bool :=
  match opcodeOf w with
  | 1 => bits w 59 0 = 0
  | 2 => bits w 35 32 = 0
  | _ => false

/-! ## Vector instructions (R299 to R318) -/

/-- The common layout of R299; offsets in bytes. -/
structure Vec where
  cls : Nat
  op : Nat
  fmt : Nat
  rnd : Nat
  dst : Nat
  srcA : Nat
  srcB : Nat
  bSel : Nat
  count : Nat
  imm : Nat
deriving DecidableEq, Repr

def Vec.of (w : Nat) : Vec :=
  ⟨bits w 127 124, bits w 123 118, bits w 117 114, bits w 113 111, bits w 110 93 * 64, bits w 92 75 * 64, bits w 74 57 * 64,
   bits w 56 55, bits w 54 32, bits w 31 0⟩

def clsElem : Nat := 1
def clsCvt : Nat := 2
def clsSfu : Nat := 3
def clsRow : Nat := 4
def clsMovr : Nat := 5
def clsIroot : Nat := 6

/-- src_b as a number, where it is no offset. -/
def Vec.srcBRaw (v : Vec) : Nat := v.srcB / 64

/-- The control field of CVT (R94). -/
def Vec.cvtSrc (v : Vec) : Nat := bits v.imm 15 12
def Vec.cvtDst (v : Vec) : Nat := bits v.imm 11 8
def Vec.cvtRnd (v : Vec) : Nat := bits v.imm 7 5
def Vec.cvtSat (v : Vec) : Bool := bitOf v.imm 4

/-- n, the row length of ROW (R315). -/
def Vec.rowLen (v : Vec) : Nat := bits v.imm 23 0

/-- R, the row count. -/
def Vec.rowCount (v : Vec) : Nat := v.count / v.rowLen

/-- Pairs that CVT accepts (R95). -/
def cvtPair (a b : Nat) : Bool :=
  match a with
  | 0x1 => [2, 3, 4, 0xD, 0xE].contains b
  | 0x2 => [1, 3, 4, 5, 6, 7, 8, 9, 0xA, 0xB, 0xC, 0xD].contains b
  | 0x3 => [1, 2, 4, 5, 6, 7, 8, 9, 0xA].contains b
  | 0x4 => [1, 2, 3, 5, 6, 7, 8, 9, 0xA].contains b
  | 0x5 | 0x6 | 0x7 | 0x8 | 0x9 | 0xA => [2, 3, 4].contains b
  | 0xB | 0xC => [2, 0xD].contains b
  | 0xD => [1, 2, 0xB, 0xC, 0xE].contains b
  | 0xE => [1, 0xD].contains b
  | _ => false

/-- Ranges of core memory, as (offset, length): read, and written. -/
structure Ranges where
  reads : List (Nat × Nat)
  writes : List (Nat × Nat)
deriving DecidableEq, Repr

/-- ELEM ops with one operand (R306). -/
def elemUnary (op : Nat) : Bool := op == 6 || op == 9 || op == 0xA || op == 0xB

/-- ELEM: the conditions of R305 to R307 and R329. -/
def elemOk (v : Vec) : Bool :=
  floatOut v.fmt && v.op ≠ 0 && decide (v.op ≤ 0xD) && decide (v.rnd ≤ 5) && v.bSel ≠ 3
    && !(elemUnary v.op && (v.bSel ≠ 0 || v.srcB ≠ 0))
    && !(v.bSel = 2 && decide (8 ≤ v.srcBRaw))
    && !(v.bSel = 1 && elemBits v.fmt = 16 && bits v.imm 31 16 ≠ 0)

/-- ELEM: its ranges. -/
def elemRanges (v : Vec) : Ranges :=
  let n := elemBytes v.fmt v.count
  let b := if elemUnary v.op || v.bSel ≠ 0 then [] else [(v.srcB, n)]
  let d := if v.op = 4 then [(v.dst, n)] else []
  ⟨(v.srcA, n) :: b ++ d, [(v.dst, n)]⟩

/-- CVT: the conditions of R95, R311 and R329. -/
def cvtOk (v : Vec) : Bool :=
  v.op = 0 && v.fmt = 0 && v.rnd = 0 && v.bSel = 0 && bits v.imm 31 16 = 0 && bits v.imm 3 0 = 0 && decide (v.cvtRnd ≤ 5)
    && cvtPair v.cvtSrc v.cvtDst && (v.srcB = 0 || isBlock v.cvtSrc || isBlock v.cvtDst)

/-- CVT: its ranges (R79, R105, R311). -/
def cvtRanges (v : Vec) : Ranges :=
  let sb := isBlock v.cvtSrc
  let db := isBlock v.cvtDst
  let blocks := divCeil v.count 32
  ⟨(v.srcA, elemBytes v.cvtSrc v.count) :: (if sb then [(v.srcB, blocks)] else []),
    (v.dst, if db then elemBytes v.cvtDst (32 * blocks) else elemBytes v.cvtDst v.count)
      :: (if db then [(v.srcB, blocks)] else [])⟩

/-- SFU (R312, R313). -/
def sfuOk (v : Vec) : Bool :=
  (v.fmt = 2 || v.fmt = 3 || v.fmt = 4) && v.op ≠ 0 && decide (v.op ≤ 0xB) && v.rnd = 0 && v.bSel = 0 && v.srcB = 0
def sfuRanges (v : Vec) : Ranges :=
  let n := elemBytes v.fmt v.count
  ⟨[(v.srcA, n)], [(v.dst, n)]⟩

/-- ROW: its ranges (R315). -/
def rowRanges (v : Vec) : Ranges :=
  let w := elemBits v.fmt / 8
  if v.op ≤ 4 then ⟨[(v.srcA, v.count * w)], [(v.dst, v.rowCount * w)]⟩
  else
    let bn := if v.count = 0 then 0 else if v.op ≤ 6 then v.rowCount else v.rowLen
    ⟨[(v.srcA, v.count * w), (v.srcB, bn * w)], [(v.dst, v.count * w)]⟩

/-- ROW: the conditions of R315, R316 and R329. -/
def rowOk (v : Vec) : Bool :=
  let w := elemBits v.fmt / 8
  floatOut v.fmt && v.op ≠ 0 && decide (v.op ≤ 8) && decide (v.rnd ≤ 5) && v.bSel = 0 && bits v.imm 31 24 = 0
    && (v.count = 0 || (v.rowLen ≠ 0 && v.count % v.rowLen = 0))
    && !(decide (v.op ≤ 4) && (v.srcB ≠ 0 || overlaps v.dst (v.rowCount * w) v.srcA (v.count * w)))

/-- MOVR's register field (R309). -/
def movrReg (w : Nat) : Nat := bits w 117 114

/-- MOVR: the conditions of R309, R310 and R329. -/
def movrOk (w : Nat) : Bool :=
  let v := Vec.of w
  let r := movrReg w
  bits w 113 111 = 0 && bits w 74 32 = 0 && (v.op = 3 || v.dst = 0) && (v.op = 2 || v.srcA = 0) && match v.op with
    | 1 => decide (r ≤ 9) && !(r = 9 && decide (32 ≤ v.imm))
    | 2 | 3 => decide (r ≤ 7) && v.imm = 0
    | 4 => decide (r ≤ 8)
    | _ => false

/-- MOVR: its ranges. -/
def movrRanges (w : Nat) : Ranges :=
  let v := Vec.of w
  ⟨if v.op = 2 then [(v.srcA, 8)] else [], if v.op = 3 then [(v.dst, 8)] else []⟩

/-- IROOT (R318); offsets in bytes. -/
structure Iroot where
  op : Nat
  dst : Nat
  srcA : Nat
  aux : Nat
  ridge : Nat
  iters : Nat
  n : Nat
  tol : Nat
deriving DecidableEq, Repr

def Iroot.of (w : Nat) : Iroot :=
  ⟨bits w 123 118, bits w 110 93 * 64, bits w 92 75 * 64, bits w 74 57 * 64, bits w 56 55, bits w 54 50, bits w 39 32,
   bits w 31 0⟩

def irootOk (w : Nat) : Bool :=
  let i := Iroot.of w
  (i.op = 2 || i.op = 4) && bits w 117 114 = 2 && bits w 113 111 = 0 && bits w 49 40 = 0 && decide (i.n ≤ 128) && decide (i.iters ≤ 24)

def irootRanges (w : Nat) : Ranges :=
  let i := Iroot.of w
  if i.n = 0 then ⟨[], []⟩ else ⟨[(i.srcA, 4 * i.n * i.n)], [(i.dst, 4 * i.n * i.n), (i.aux, 16)]⟩

/-- Two ranges overlap other than by being identical (R302). -/
def clash (d r : Nat × Nat) : Bool := d ≠ r && overlaps d.1 d.2 r.1 r.2

/-- The ranges that the fields of a vector instruction name, whether or not it passes its checks. -/
def vecSpans (w : Nat) : Ranges :=
  let v := Vec.of w
  match v.cls with
  | 1 => elemRanges v
  | 2 => cvtRanges v
  | 3 => sfuRanges v
  | 4 => rowRanges v
  | 5 => movrRanges w
  | 6 => irootRanges w
  | _ => ⟨[], []⟩

/-- The fields of a vector instruction hold no condition of R329, overlaps and ranges apart. -/
def vecFieldsOk (w : Nat) : Bool :=
  let v := Vec.of w
  match v.cls with
  | 1 => elemOk v
  | 2 => cvtOk v
  | 3 => sfuOk v
  | 4 => rowOk v
  | 5 => movrOk w
  | 6 => irootOk w
  | _ => false

/-- The ranges of a vector instruction that passes every check of R302 and R329. A CVT's scale array and an IROOT's record count as
destination ranges (log entry 140). -/
def vecRanges (w : Nat) : Option Ranges :=
  let r := vecSpans w
  let inside := (r.reads ++ r.writes).all fun x => x.2 = 0 || decide (x.1 + x.2 ≤ coreSize)
  if vecFieldsOk w && inside && !(r.writes.any fun d => r.reads.any fun x => clash d x) then some r else none

/-! ## Update commands (R352, R353, R367) -/

/-- UPDATE and UROOT; gs_off in bytes. `open_` is UROOT's bit [75]. -/
structure Upd where
  isRoot : Bool
  layer : Nat
  first : Nat
  count : Nat
  lrSrc : Bool
  open_ : Bool
  slot : Nat
  gsEn : Bool
  gsOff : Nat
  lead : Nat
  pace : Nat
  final : Bool
  lr : Nat
deriving DecidableEq, Repr

def Upd.of (w : Nat) : Upd :=
  let root := opcodeOf w = 2
  ⟨root, bits w 123 116, bits w 115 96, bits w 95 76, !root && bitOf w 75, root && bitOf w 75, bits w 74 71, bitOf w 70,
   bits w 69 52 * 64, bits w 51 39, bits w 38 33, !root && bitOf w 32, bits w 31 0⟩

def updOk (w : Nat) : Bool :=
  let u := Upd.of w
  (opcodeOf w = 1 || (opcodeOf w = 2 && u.slot = 0 && bits w 32 0 = 0))
    && decide (u.lead ≤ 4096) && (u.pace ≠ 0 || u.count = 0) && (u.isRoot || u.lrSrc || u.slot = 0)
    && (u.gsEn || u.gsOff = 0) && decide (u.gsOff + 4 ≤ coreSize)

/-! ## Field checks of a wide command (R248) -/

/-- The checks of a wide command on core k that need only its fields: reasons 0x2 and 0x8 of R295. -/
def wideOk (s : State) (k engine w : Nat) : Bool :=
  match engine with
  | 1 =>
    arrayReservedOk w && match opcodeOf w with
      | 1 => (Feed.of w).ok s k
      | 2 => (Mload.of w).ok
      | _ => (Mpass.of w).ok
  | 2 =>
    accReservedOk w && match opcodeOf w with
      | 1 => (Plate.of w).ok
      | _ => (Drain.of w).ok
  | 3 => (vecRanges w).isSome
  | 4 => updOk w
  | _ => false

/-- Every field check of a bundle (R248). -/
def bundleFieldsOk (s : State) (k : Nat) (b : Bundle) : Bool :=
  headerOk b (farCount s) (location s) && (!b.wideValid || wideOk s k b.engine b.wide)

end Sys2Proof.Machine
end

