-- ==== Sys2Proof/Machine/RingOps.lean ====
section
/-! DEFINITION. Descriptors and their completions on the submission rings (R571 to R592), and the power state that follows
what runs (R689, R714). -/

namespace Sys2Proof.Machine

/-! ## Power states (R689, R714) -/

/-- PWR_STATUS changed with the COUNT record that a change of state or tight writes (R714). -/
def setPwrStatus (s : State) (f : Fld) (v : Nat) : State :=
  if rf s f 0 0 = v then s
  else
    let s := wf s f 0 0 v
    countRec s 0 .pwrStatus 0 (rd s .pwrStatus 0 0)

/-- A completion is that of a command that started: one that fails its checks, is empty or is killed before it starts never runs. -/
def Completion.ran (c : Completion) : Bool :=
  c.status ≠ stInvalid && c.status ≠ stRefused && c.status ≠ stEmpty && c.status ≠ stJobKilled

/-- A core runs a stream, or a DMA or collective command runs, whose completion is still to be written (R689). -/
def anyRuns (s : State) : Bool :=
  s.cores.any (fun e => e.2.runDesc.isSome) || s.cols ≠ []
    || s.rings.any fun e => decide (24 ≤ e.1 % 64) && decide (e.1 % 64 < 32) && (e.2.active ≠ [] || e.2.toWrite.any Completion.ran)

/-- Active while something runs, Idle otherwise; Nap and Dark are left by their own rules (R689). -/
def settlePower (s : State) : State :=
  let st := powerState s
  if st = pwrActive || st = pwrIdle then
    setPwrStatus s F.pwrStatus_state (if anyRuns s then pwrActive else pwrIdle)
  else s

/-! ## Descriptors (R586, R842, R15) -/

def Desc.type (d : Desc) : Nat := leAt d.bytes 0 1
def Desc.tag (d : Desc) : Nat := leAt d.bytes 4 4

/-- A field of n bytes at byte i. -/
def Desc.at_ (d : Desc) (i n : Nat) : Nat := leAt d.bytes i n

/-- Every byte that no range (first byte, length) names is 0; bytes 0 and 4 to 7 are named in every descriptor (R586). -/
def reservedOk (d : Desc) (named : List (Nat × Nat)) : Bool :=
  (d.bytes.zipIdx).all fun (b, i) =>
    b = 0 || i = 0 || (4 ≤ i && i < 8) || named.any fun (p, n) => decide (p ≤ i) && decide (i < p + n)

/-- An 8-byte field that holds a device address: bits [63:48] are reserved (R842). -/
def addrOk (v : Nat) : Bool := decide (v < 2 ^ 48)

/-- The type belongs to the ring and the die, and selects a command (R581, R586, R588, R726). -/
def descKnown (die n : Nat) (d : Desc) : Bool :=
  let t := d.type
  if n < 24 then t = 0x10 || t = 0x11 || t = 0x12
  else if n < 32 then t = 0x20 && decide (d.at_ 8 1 % 16 ≤ 6)
  else if t = 0x34 || t = 0x35 then true
  else if die ≠ 0 then false
  else if t = 0x36 then decide (1 ≤ d.at_ 8 1) && decide (d.at_ 8 1 ≤ 6)
  else t = 0x30 || t = 0x31 || t = 0x32 || t = 0x33 || t = 0x37

/-! ## Starting and completing -/

/-- The descriptor at the front of a ring may start (R582): on a DMA or management ring once the one before it has completed;
on a core ring once the one before has started, and a RUN only when the core's last stream has completed. -/
def mayStart (s : State) (die n : Nat) (isRun : Bool) : Bool :=
  let w := ringWork s die n
  if 24 ≤ n then w.active = [] && w.toWrite = []
  else if isRun then w.active = [] && w.toWrite = []
  else w.toWrite.all fun c => c.kind = 0x11

/-- A completion to be written for a descriptor (R584). -/
def completionOf (d : Desc) (status flags count detail signal : Nat) (held : Bool) : Completion :=
  ⟨d.k, d.tag, d.type, status, flags, count, detail, signal, d.orphan, held⟩

/-- A completion queued on a ring. -/
def queueCompletion (s : State) (die n : Nat) (c : Completion) : State :=
  let w := ringWork s die n
  setRing s die n { w with toWrite := w.toWrite ++ [c] }

/-- A descriptor that completes: its completion queued. -/
def finish (s : State) (die n : Nat) (d : Desc) (status flags count detail signal : Nat) : State :=
  settlePower (queueCompletion s die n (completionOf d status flags count detail signal false))

/-- A descriptor that completes with a status and nothing else. -/
def finishWith (s : State) (die n : Nat) (d : Desc) (status : Nat) : State := finish s die n d status 0 0 0 0

/-- A descriptor of a type that does not belong completes with INVALID in its turn (R581). -/
def ringAdvance (s : State) (die n : Nat) : State :=
  let w := ringWork s die n
  match w.fetched with
  | d :: t =>
    if !descKnown die n d && mayStart s die n false then finishWith (setRing s die n { w with fetched := t }) die n d stInvalid
    else s
  | [] => s

/-- The front descriptor of a ring if `want` holds of it and it may start, taken off the ring. -/
def takeDesc (s : State) (die n : Nat) (want : Desc → Bool) : Option (Desc × State) :=
  let w := ringWork s die n
  match w.fetched with
  | d :: t =>
    if descKnown die n d && want d && mayStart s die n (d.type = 0x11) then
      some (d, setRing s die n { w with fetched := t })
    else none
  | [] => none

/-- A descriptor that goes on running after its start (a RUN, a collective). -/
def keepActive (s : State) (die n : Nat) (d : Desc) : State :=
  let w := ringWork s die n
  setRing s die n { w with active := w.active ++ [d] }

/-- A running descriptor leaves the ring's active list. -/
def dropActive (s : State) (die n k : Nat) : State :=
  let w := ringWork s die n
  setRing s die n { w with active := w.active.filter fun d => d.k ≠ k }

/-- The 32 bytes of a completion record (R584). -/
def completionBytes (c : Completion) (phase stamp : Nat) : Bytes :=
  leBytes 1 c.status ++ leBytes 1 phase ++ leBytes 2 c.flags ++ leBytes 4 c.tag ++ leBytes 8 stamp ++ leBytes 8 c.count
    ++ leBytes 4 c.detail ++ leBytes 4 c.k

/-- DONE counts the unbroken run of completed descriptors (R583). -/
def settleDone : Nat → List Nat → Nat → Nat × List Nat
  | 0, ahead, done => (done, ahead)
  | fuel + 1, ahead, done =>
    if ahead.contains done then settleDone fuel (ahead.filter fun k => k ≠ done) ((done + 1) % 2 ^ 32) else (done, ahead)

/-- The COMPLETION record of the ephemeris (R60, R674). -/
def completionEph (s : State) (die n : Nat) (c : Completion) : State :=
  let last := if c.kind = 0x11 then c.detail else c.count
  emit s die 0x04 c.flags Blk.hif.num n (pb 0 1 c.status + pb 1 4 c.tag + pb 5 4 c.k + pb 9 5 last)

/-- A completion's record written to its ring, DONE moved, its source raised; to the ephemeris only when the ring has faulted since it
was enabled, the descriptor is an orphan of a link reset, or the write fails (R576, R583, R585, R609). -/
def writeCompletion (s : State) (die n : Nat) (c : Completion) (ok : Bool) : State :=
  let w := ringWork s die n
  if c.orphan || w.faulted then completionEph s die n c
  else
    let addr := w.cpl + (c.k % w.size) * 32
    if !ok then ringFault (completionEph s die n c) die n addr
    else
      let s := hostWrite s addr (completionBytes c (phaseOf c.k w.size) (now s die))
      let ahead := insertNew w.ahead c.k
      let (done, ahead) := settleDone ahead.length ahead (ringDone s die n)
      let s := wr (setRing s die n { ringWork s die n with ahead := ahead }) .hifRingDone die n done
      let s := completionEph s die n c
      if n < 32 then irq s die 0 n else irq s die 1 0

end Sys2Proof.Machine
end

