-- ==== Sys2Proof/Machine/CoreOps.lean ====
section
/-! DEFINITION. Core operations: the state of a core, the bundles of its stream, what may issue next, freezes, and the end of
a stream (chapter 5). -/

namespace Sys2Proof.Machine

/-! ## Fresh state -/

def ArrayState.fresh : ArrayState where
  clock := 0
  worked := false
  opbuf := []
  active := Tile.empty
  pendingTile := none
  loadCycle := 0
  lastLoad := 0
  lastPass := none
  drainDone := 0
  loads := []
  passes := []
  drains := []
  acc := []
  bound := []
  spills := []
  reached := []
  poison := []
  armed := []
  lineHit := false
  failedLoads := 0
  merged := []

def VecEngine.fresh : VecEngine := ⟨0, false, 0, 0, 0, [], [], [], 0⟩

def UpdEngine.fresh : UpdEngine := ⟨0, false, 0, none, []⟩

def CoreState.fresh : CoreState where
  arrays := []
  inherited := []
  runDesc := none
  bundle := 0
  prevCycle := 0
  buffer := []
  fetchCycle := 0
  crc := 0xFFFF_FFFF
  fetchMf := MemFaults.none
  fetchLate := []
  markDone := false
  wideDone := false
  freeze := []
  interlocked := none
  slipRun := 0
  frozen := 0
  flags := 0
  ended := none
  signals := []
  feeds := []
  guards := []
  point := none
  replaying := none
  pauseWork := 0
  degraded := []
  vec := VecEngine.fresh
  upd := UpdEngine.fresh
  layers := []
  detected := []

/-- The key of a core: die × 24 + core, the core number 0 to 47 of R90. -/
def coreKey (c : CoreRef) : Nat := c.die.val * 24 + c.core.val

def coreOf (s : State) (k : Nat) : CoreState := Map.getD s.cores k CoreState.fresh
def setCore (s : State) (k : Nat) (c : CoreState) : State := { s with cores := Map.put s.cores k c }

def CoreState.array (c : CoreState) (a : Nat) : ArrayState := Map.getD c.arrays a ArrayState.fresh
def CoreState.setArray (c : CoreState) (a : Nat) (v : ArrayState) : CoreState := { c with arrays := Map.put c.arrays a v }

/-- An array of a core. -/
def arrayOf (s : State) (k a : Nat) : ArrayState := (coreOf s k).array a
def setArray (s : State) (k a : Nat) (v : ArrayState) : State := setCore s k ((coreOf s k).setArray a v)

/-! ## SEQ_STATE (R289) -/

def seqIdle : Nat := 0
def seqStartCheck : Nat := 1
def seqRunning : Nat := 2
def seqFrozen : Nat := 3
def seqPause : Nat := 4
def seqHalted : Nat := 5

def seqState (s : State) (k : Nat) : Nat := rf s F.seqState_state (k / 24) (k % 24)
def setSeqState (s : State) (k v : Nat) : State := wf s F.seqState_state (k / 24) (k % 24) v
def seqSlot (s : State) (k : Nat) : Nat := rf s F.seqState_slot (k / 24) (k % 24)

/-- A per-core register. -/
def rdCore (s : State) (r : Reg) (k : Nat) : Nat := rd s r (k / 24) (k % 24)
def wrCore (s : State) (r : Reg) (k v : Nat) : State := wr s r (k / 24) (k % 24) v
def bumpCore (s : State) (f : Fld) (k n : Nat) : State := bump s f (k / 24) (k % 24) n

/-- Slot registers of a core: unit core × 16 + slot (R288, R296). -/
def slotBase (s : State) (k slot : Nat) : Nat := rd s .seqSlotBase (k / 24) (k % 24 * 16 + slot)
def slotInfo (s : State) (k slot : Nat) : Nat := rd s .seqSlotInfo (k / 24) (k % 24 * 16 + slot)
def slotCrc (s : State) (k slot : Nat) : Nat := rd s .seqSlotCrc (k / 24) (k % 24 * 16 + slot)
def slotInstalled (s : State) (k slot : Nat) : Bool := bitOf (slotInfo s k slot) 31
def slotBundles (s : State) (k slot : Nat) : Nat := bits (slotInfo s k slot) 18 0

/-! ## The registers of a snapshot (R271, R287, R374) -/

/-- The Lifetime J registers of a core's VEC and UPD pages that a command changes (R271, R374). -/
def snapRegs : List Reg :=
  [.vecFlags, .vecNonfiniteCount, .vecSrStep, .vecScalar0, .vecScalar1, .vecScalar2, .vecScalar3, .vecScalar4, .vecScalar5,
   .vecScalar6, .vecScalar7, .updFallbackCount, .updRootFailCount, .updFrozenCount]

def snapshotRegs (s : State) (k : Nat) : Map (BitVec 64) :=
  snapRegs.map fun r => (regKey r (k / 24) (k % 24), BitVec.ofNat 64 (rdCore s r k))

def restoreRegs (s : State) (k : Nat) (m : Map (BitVec 64)) : State :=
  snapRegs.foldl (fun s r => wrCore s r k (Map.getD m (regKey r (k / 24) (k % 24)) 0).toNat) s

/-- The registers of a core as its replay point holds them. -/
def pointView (s : State) (k : Nat) : State :=
  match (coreOf s k).point with
  | some p => restoreRegs s k p.regs
  | none => s

/-- What a command issued before the replay point changes in the registers belongs to the point's snapshot as well: `v` is the change
made to the registers as the point holds them (R271, R287; log entry 126). -/
def keepInPoint (s : State) (k bundle : Nat) (v : State) : State :=
  match (coreOf s k).point with
  | some p =>
    if bundle < p.bundle then setCore s k { coreOf s k with point := some { p with regs := snapshotRegs v k } } else s
  | none => s

/-! ## The stream (R257 to R263, R851) -/

/-- The stream a core runs: its base and bundle count. -/
def streamBase (s : State) (k : Nat) : Nat := slotBase s k (seqSlot s k)
def streamCount (s : State) (k : Nat) : Nat := slotBundles s k (seqSlot s k)

/-- The schedule counter (R260, R290). -/
def counter (s : State) (k : Nat) : Nat := rdCore s .seqSchedule k

/-- The bundle due next, from the stream buffer (R851). -/
def nextBundle (s : State) (k : Nat) : Bundle := bundleOf ((coreOf s k).buffer.headD 0)

/-- The issue cycle of the bundle due next (R257). -/
def nextCycle (s : State) (k : Nat) : Nat := (coreOf s k).prevCycle + (nextBundle s k).delta

/-- A bundle with its index and issue cycle. -/
structure Placed where
  index : Nat
  cycle : Nat
  b : Bundle
deriving DecidableEq, Repr

/-- Fetched bundles with their indices and issue cycles; `prev` is the issue cycle of the bundle before the first. -/
def placed : Nat → Nat → List Nat → List Placed
  | _, _, [] => []
  | i, prev, w :: t =>
    let b := bundleOf w
    ⟨i, prev + b.delta, b⟩ :: placed (i + 1) (prev + b.delta) t

/-- The bundles that have not issued and stand in the stream buffer (R262, R851). -/
def ahead (s : State) (k : Nat) : List Placed :=
  let c := coreOf s k
  placed c.bundle c.prevCycle c.buffer

/-- The FEED of a bundle, if it holds one that moves something. -/
def feedOf (b : Bundle) : Option Feed :=
  if b.wideValid && b.engine = engArray && opcodeOf b.wide = 1 && (Feed.of b.wide).moves then some (Feed.of b.wide) else none

/-- The schedule cycle of a FEED's reads: c − lead, or stream start (R131). -/
def feedCycle (f : Feed) (due : Nat) : Nat := due - f.lead

/-- A carried FEED whose bytes had all arrived at a failure of the window (R282). -/
def feedArrived (c : CoreState) (bundle : Nat) : Bool := match c.point with | some q => q.arrived.contains bundle | none => false

/-- A bundle that has not issued lies in the present window: no replay point still to be placed comes before it (R270, R272). -/
def inWindow (s : State) (k bundle : Nat) : Bool :=
  let c := coreOf s k
  !((ahead s k).any fun x => x.b.mark && decide (x.index ≤ bundle) && !(x.index = c.bundle && c.markDone))

/-- FEEDs whose reads run ahead of their due cycle and are not out although their cycle has come (R131, R262). A carried FEED
that is complete is not read again (R282). -/
def feedsOwed (s : State) (k : Nat) : List (Placed × Feed) :=
  let c := coreOf s k
  (ahead s k).filterMap fun p =>
    match feedOf p.b with
    | some f =>
      let out := (c.feeds.any fun r => r.bundle = p.index) || feedArrived c p.index
      if decide (feedCycle f p.cycle < p.cycle) && decide (feedCycle f p.cycle ≤ counter s k) && !out then some (p, f) else none
    | none => none

/-- Spills of an array that take effect by its present cycle: 8 cycles after the write that ended the exposure (R187). -/
def ArrayState.spillDue (a : ArrayState) : Bool := a.spills.any fun p => decide (p.due ≤ a.clock)

def spillDue (c : CoreState) : Bool := c.arrays.any fun e => e.2.spillDue

/-- The core's schedule runs: nothing freezes it, holds it or ends it (R260, R263). -/
def runs (s : State) (k : Nat) : Bool :=
  let c := coreOf s k
  seqState s k = seqRunning && c.freeze = [] && c.interlocked = none && c.replaying = none

/-- A bundle is in the buffer and comes due in the present cycle (R257, R258). -/
def bundleDue (s : State) (k : Nat) : Bool := (coreOf s k).buffer ≠ [] && decide (nextCycle s k ≤ counter s k)

/-- The bundle due next may issue: the schedule runs and the counter stands at its issue cycle (R257, R263). -/
def issues (s : State) (k : Nat) : Bool := runs s k && bundleDue s k

/-- The bundle due next has its replay point behind it (R270). -/
def markPassed (s : State) (k : Nat) : Bool := !(nextBundle s k).mark || (coreOf s k).markDone

/-- The wide command due now, if it is one of an engine. -/
def nextWide (s : State) (k engine : Nat) : Option Nat :=
  let b := nextBundle s k
  if issues s k && markPassed s k && b.wideValid && !(coreOf s k).wideDone && b.engine = engine then some b.wide else none

/-- The narrow operation due now, if it has an opcode: the wide slot of its bundle issues first (R258). -/
def nextNarrow (s : State) (k opcode : Nat) : Option Nat :=
  let b := nextBundle s k
  if issues s k && markPassed s k && b.narrowValid && (!b.wideValid || (coreOf s k).wideDone)
      && bits b.narrow 63 60 = opcode then some b.narrow else none

/-- The bundle due next leaves the stream buffer: the one after it comes next (R257). -/
def CoreState.pass (c : CoreState) : CoreState :=
  let w := c.buffer.headD 0
  { c with
    bundle := c.bundle + 1, prevCycle := c.prevCycle + (bundleOf w).delta, buffer := c.buffer.tail
    crc := (leBytes 32 w).foldl crc32Byte c.crc, markDone := false, wideDone := false }

/-- Empty bundles issue nothing (R256): those of the present cycle are passed, at most `fuel` of them, up to a replay point that has
not been placed. -/
def passEmpty : Nat → State → Nat → State
  | 0, s, _ => s
  | fuel + 1, s, k =>
    let b := nextBundle s k
    if bundleDue s k && markPassed s k && !b.wideValid && !b.narrowValid then passEmpty fuel (setCore s k (coreOf s k).pass) k
    else s

/-! ## Freezes (R263 to R267) -/

/-- A freeze condition holds. -/
def freezeCore (s : State) (k : Nat) (f : FreezeCond) : State :=
  let c := coreOf s k
  setSeqState (setCore s k { c with freeze := c.freeze ++ [f] }) k seqFrozen

/-- The bundle has issued all it holds: the next one comes due, past the empty ones of its cycle. -/
def nextOne (s : State) (k : Nat) : State := passEmpty 8 (setCore s k (coreOf s k).pass) k

/-- The wide command has issued at the bundle's cycle. -/
def wideIssued (s : State) (k : Nat) : State :=
  if (nextBundle s k).narrowValid then setCore s k { coreOf s k with wideDone := true } else nextOne s k

/-- The narrow operation has issued. -/
def narrowIssued (s : State) (k : Nat) : State := nextOne s k

/-- A freeze for a number of slip cycles; none for 0. -/
def slipFor (s : State) (k cycles : Nat) (f : Nat → FreezeCond) : State :=
  if cycles = 0 then s else freezeCore s k (f cycles)

/-- A command waits at its engine's interlock (R261, R852). -/
def interlockFor (s : State) (k wait : Nat) : State :=
  let c := coreOf s k
  setSeqState (setCore s k { c with interlocked := some ⟨wait⟩ }) k seqFrozen

/-- Flags of the stream's completion (R31). -/
def flagCore (s : State) (k f : Nat) : State :=
  let c := coreOf s k
  setCore s k { c with flags := setFlag c.flags f }

/-- Slip cycles counted: SEQ_SLIP_CYCLES, and SLIPPED (R267). -/
def countSlip (s : State) (k cycles : Nat) : State :=
  if cycles = 0 then s else flagCore (bumpCore s F.seqSlipCycles_cycles k cycles) k flagSlipped

/-- Writes to lines the host may hold, made by a command of the core after the first n held writes, freeze it until the
responses (R433). -/
def freezeHeld (s : State) (k n : Nat) : State :=
  if (coreOf s k).runDesc = none then s else (s.heldWrites.drop n).foldl (fun s w => freezeCore s k (.backInvalidate w.1)) s

/-! ## The lengths of freezes (R265 to R269, R284) -/

def FreezeCond.slip : FreezeCond → Nat
  | .feedLate n => n
  | .lineReread n => n
  | .plateReread n => n
  | .engineInput n => n
  | .bundleFetch n => n
  | .backInvalidate _ => 0
  | .waitHeld => 0
  | .waitOver => 0

/-- A write that waits for a back-invalidate response (R433). -/
def FreezeCond.isSnoop : FreezeCond → Bool
  | .backInvalidate _ => true
  | _ => false

/-- Cycles of the slip conditions whose length is known. -/
def knownSlip (c : CoreState) : Nat := c.freeze.foldl (fun m f => max m f.slip) 0

/-- The longest slip the watchdog allows, in arithmetic cycles (R269); none while enable is 0. -/
def slipLimit (s : State) (k : Nat) : Option Nat :=
  if rflag s F.seqWatchdog_enable (k / 24) (k % 24) then
    some (rf s F.seqWatchdog_limitUs (k / 24) (k % 24) * rf s F.clkStatus_freqMhz (k / 24) 0)
  else none

/-- Some more slip cycles make the continuous slip freeze longer than the watchdog allows (R269). -/
def slipTooLong (s : State) (k n : Nat) : Bool :=
  match slipLimit s k with
  | some l => decide (0 < n) && decide (l < (coreOf s k).slipRun + n)
  | none => false

/-- The replays whose failed cycle the schedule counter has not passed. -/
def redoRunning (s : State) (k : Nat) : Nat :=
  match (coreOf s k).point with
  | some p => (p.redo.filter fun f => decide (counter s k ≤ f)).length
  | none => 0

/-- Frozen cycles counted as slip and wait, and among the cycles of the replays still re-executing (R267, R269, R284). -/
def countFrozen (s : State) (k slip wait : Nat) : State :=
  let n := (slip + wait) * redoRunning s k
  let s := bumpCore (countSlip s k slip) F.seqWaitCycles_cycles k wait
  let c := coreOf s k
  bumpCore (setCore s k { c with slipRun := if wait = 0 then c.slipRun + slip else 0, frozen := 0 }) F.seqReplayCycles_cycles k n

/-- A freeze that the end of the stream cuts short: the cycles of it that have passed are slip while a slip condition lasts, and wait
beyond (R267). -/
def countCut (s : State) (k : Nat) : State :=
  let c := coreOf s k
  let slip := if c.freeze.any FreezeCond.isSnoop then c.frozen else min c.frozen (knownSlip c)
  if c.frozen = 0 then s else countFrozen s k slip (c.frozen - slip)

/-! ## Guards (R276, R277) -/

/-- A read of a range by a command of a bundle: one of the present window arms every guard whose range it touches (R277). -/
def armGuards (s : State) (k bundle base len : Nat) : State :=
  let c := coreOf s k
  let window := match c.point with | some p => decide (p.bundle ≤ bundle) | none => false
  let arm := fun g : Guard => if overlaps base len g.base g.len then { g with armed := true } else g
  if window then setCore s k { c with guards := Map.mapVals c.guards arm } else s

/-! ## The end of a stream (R250 to R252) -/

/-- WAITs of a core withdrawn from both synchronisation units. -/
def withdrawWaits (s : State) (p : Waiter → Bool) : State :=
  { s with
    sync := Map.mapVals s.sync fun u =>
      { u with
        arriving := u.arriving.filter fun w => !p w.waiter
        held := Map.mapVals u.held fun l => l.filter fun w => !p w.waiter }
    bridge := s.bridge.filter fun m => match m.body with
      | .wait w => !p w.waiter
      | .release w => !p w
      | .timeout w => !p w
      | _ => true }

/-- An array that works at no command any more. -/
def ArrayState.stopped (a : ArrayState) : ArrayState := { a with loads := [], passes := [], drains := [] }

/-- A core whose stream is over: nothing waits, nothing is in progress (R250 to R252). -/
def CoreState.stopped (c : CoreState) : CoreState :=
  { c with
    runDesc := none, buffer := [], freeze := [], interlocked := none, slipRun := 0, frozen := 0, pauseWork := 0, signals := [], feeds := [], guards := []
    point := none, replaying := none, fetchMf := MemFaults.none, fetchLate := [], detected := []
    arrays := Map.mapVals c.arrays ArrayState.stopped, vec := VecEngine.fresh, upd := UpdEngine.fresh }

/-- The stream of a core ends with a status: its completion is queued on its ring, a core that ends with TIMEOUT, DATA_LOST
or REPLAY_LOST is halted (R251), and source c of group 6 becomes pending (R627). -/
def endStream (s : State) (k status : Nat) : State :=
  match (coreOf s k).runDesc with
  | none => s
  | some rk =>
    let s := countCut s k
    let c := coreOf s k
    let die := k / 24
    let n := k % 24
    let detail := if status = stOk then 0 else min c.bundle (streamCount s k - 1)
    let d := ((ringWork s die n).active.find? (fun d => d.k = rk)).getD ⟨rk, [], true⟩
    let s := withdrawWaits s fun w => w = .core k
    let s := setCore s k c.stopped
    let s := setCore s k { coreOf s k with ended := some (status, detail) }
    let halted := status = stTimeout || status = stDataLost || status = stReplayLost
    let s := setSeqState s k (if halted then seqHalted else seqIdle)
    let s := dropActive s die n rk
    let s := queueCompletion s die n (completionOf d status c.flags.toNat 0 detail 0 false)
    ringAdvance (settlePower (irq s die 6 n)) die n

end Sys2Proof.Machine
end

