-- ==== Sys2Proof/Machine/SyncOps.lean ====
section
/-! DEFINITION. Synchronisation objects: sending and delivering SIGNALs, testing, releasing and timing out WAITs (R453 to R474,
R720, R848, R849). -/

namespace Sys2Proof.Machine

def SyncUnit.fresh : SyncUnit := ⟨[], [], [], []⟩
def syncOf (s : State) (die : Nat) : SyncUnit := Map.getD s.sync die SyncUnit.fresh
def setSync (s : State) (die : Nat) (u : SyncUnit) : State := { s with sync := Map.put s.sync die u }

/-! ## Objects (R455) -/

/-- The key of an object in a unit's held WAITs. -/
def objKey (far : Bool) (index : Nat) : Nat := if far then 65536 + index else index

/-- Address of a far object (R454): the base of the running job, or SYN_FAR_BASE between jobs. -/
def farAddr (s : State) (index : Nat) : Nat := (if jobRuns s then s.job.farBase else rd s .synFarBase 0 0) + 16 * index

/-- The fields of a far object's 16 bytes. -/
def farObj (b : Bytes) : SyncObj := ⟨leAt b 0 4, bits (leAt b 4 3) 16 0, leAt b 8 8⟩

/-- A far object's line waits for the host: its last write has not landed, and the unit waits with it (R433, R464). -/
def objHeld (s : State) (far : Bool) (index : Nat) : Bool :=
  far && s.heldWrites.any fun w => w.1 = farAddr s index / 64

/-- The unit's read of an object succeeds: that of a near one does, that of a far one is checked under R426 (R848). -/
def objReads (s : State) (mf : MemFaults) (far : Bool) (index : Nat) : Bool :=
  !far || (failRow s mf (farAddr s index) 16).isNone

/-- What the unit's read of an object counts (R428 to R430, R845, R848). -/
def objEffects (s : State) (mf : MemFaults) (far : Bool) (index : Nat) : State :=
  if far then readEffects s mf (farAddr s index) 16 else s

/-- An object as its unit reads it. -/
def readObj (s : State) (die : Nat) (far : Bool) (index : Nat) : SyncObj :=
  if far then farObj (memBytes s (farAddr s index) 16) else Map.getD (syncOf s die).near index ⟨0, 0, 0⟩

/-- An object written back by its unit. -/
def writeObj (s : State) (die : Nat) (far : Bool) (index : Nat) (o : SyncObj) : State :=
  if far then
    landWrite s MemFaults.none (farAddr s index) (leBytes 4 o.count ++ leBytes 4 o.lastSrc ++ leBytes 8 o.lastStamp) fun _ => true
  else
    let u := syncOf s die
    setSync s die { u with near := Map.put u.near index o }

/-! ## SIGNALs (R460, R463, R464, R468 to R470, R720) -/

/-- A SIGNAL is lost: counted and recorded on the die that finds it (R470). -/
def signalLost (s : State) (die : Nat) : State :=
  let s := bump s F.synLostCount_count die 0 1
  irq (countRec s die .synLostCount 0 (rd s .synLostCount die 0)) die 5 8

/-- Heliostat runs: a job runs and enable is set (R717). The end of the job, from the moment it takes effect, ends what has lifetime J,
the target among them (R694). -/
def helioOn (s : State) : Bool := jobRuns s && jobState s ≠ 3 && rflag s F.pwrHelioCfg_enable 0 0

/-- The balance b of Heliostat in W (R718). -/
def helioBalance (s : State) : Int := s.pwr.balance

/-- The target of Heliostat: base_w + b (R718). -/
def helioTarget (s : State) (b : Int) : Nat := (Int.ofNat (rf s F.pwrHelioCfg_baseW 0 0) + b).toNat

/-- The balance set, and PWR_HELIO_STATUS after it in the bits it has; a change of the target writes a COUNT record (R722, R728). -/
def setBalance (s : State) (b : Int) : State :=
  let t := helioTarget s b
  let old := s.pwr.target
  let s := { s with pwr := { s.pwr with balance := b, target := t } }
  let s := wf (wf s F.pwrHelioStatus_balanceW 0 0 (codeOf 16 b)) F.pwrHelioStatus_targetW 0 0 t
  if t = old then s else countRec s 0 .pwrHelioStatus 0 (rd s .pwrHelioStatus 0 0)

/-- Heliostat ends with the job: no balance, no target, and a COUNT record where there was one (R694, R722, R728). -/
def endHelio (s : State) : State :=
  let old := s.pwr.target
  let s := { s with pwr := { s.pwr with balance := 0, target := 0 } }
  let s := wf (wf s F.pwrHelioStatus_balanceW 0 0 0) F.pwrHelioStatus_targetW 0 0 0
  if old = 0 then s else countRec s 0 .pwrHelioStatus 0 (rd s .pwrHelioStatus 0 0)

/-- A grant reaches the power controller: added when it arrives in the epoch in which it was sent, while Heliostat runs; a late one is
counted (R717, R720). -/
def grantArrive (s : State) (sent arrival increment : Nat) : State :=
  if !sameSpan 400_000_000 sent arrival then bump s F.pwrGrantLostCount_count 0 0 1
  else if helioOn s then setBalance s (helioBalance s + Int.ofNat increment)
  else s

/-- A SIGNAL to this object is a grant to the power controller: near object obj of die 0 while Heliostat is enabled (R720). -/
def isGrant (s : State) (die : Nat) (far : Bool) (index : Nat) : Bool :=
  !far && die = 0 && rflag s F.pwrHelioCfg_enable 0 0 && index = rf s F.pwrHelioCfg_obj 0 0

/-- The die that serves an object (R453, R454). -/
def servingDie (far : Bool) (index die : Nat) : Nat := if far then index % 2 else die

/-- A SIGNAL at a die joins its unit, or crosses the span bridge to the other die's (R35, R454, R666). -/
def deliverSignal (s : State) (die dest : Nat) (m : SignalMsg) : State :=
  if dest = die then
    let u := syncOf s die
    setSync s die { u with signals := u.signals ++ [m] }
  else bridgeSend s die (.signal m)

/-- The fields of a SIGNAL's bits [59:0] (R460). -/
def signalOf (w flow : Nat) : SignalReq := ⟨bitOf w 59, bits w 58 42, bits w 41 18, bits w 17 2, flow⟩

/-- Bits [59:0] of a SIGNAL. -/
def signalWord (r : SignalReq) : Nat :=
  flagBit r.far * 2 ^ 59 + r.endpoint * 2 ^ 42 + r.index * 2 ^ 18 + r.increment * 2 ^ 2

/-- A SIGNAL sent from a die: to an object of the module, or as a packet on its flow, or lost (R463, R468, R470, R530). -/
def sendSignal (s : State) (die : Nat) (r : SignalReq) : State :=
  if r.increment = 0 then s
  else if r.endpoint / 2 = location s then
    let dest := servingDie r.far r.index (r.endpoint % 2)
    if r.far && decide (farCount s ≤ r.index) then signalLost s dest
    else deliverSignal s die dest ⟨r.far, r.index, r.increment, endpoint s die, now s die, now s die + lMinDie⟩
  else if !rflag s F.fabRouteCtrl_routeValid die 0 then signalLost s die
  else queuePacket s die (mkPacket ptSignal 0 r.endpoint (endpoint s die) r.flow 0 0 (signalWord r) [])

/-- The check of a SIGNAL that does not come from a stream (R849, R15). -/
def signalOk (s : State) (w : Nat) : Bool :=
  let r := signalOf w 0
  bits w 1 0 = 0 && (if r.far then !bitOf w 42 && (r.endpoint / 2 ≠ location s || decide (r.index < farCount s))
    else decide (r.index < 65536))

/-- The check of a WAIT's object (R849). -/
def waitOk (s : State) (far : Bool) (index : Nat) : Bool :=
  if far then decide (index < farCount s) else decide (index < 65536)

/-! ## WAITs (R461, R465 to R467, R474) -/

/-- A WAIT's fields from its bits [59:0] (R461). -/
def waitOf (w issued : Nat) (who : Waiter) : WaitReq :=
  ⟨bitOf w 59, bits w 58 35, bits w 34 19, bitOf w 18, bits w 17 0, issued, who, 0⟩

/-- A WAIT whose bound of 64 µs units has passed at a stamp (R467); bound 0 is decided at the first test alone. -/
def WaitReq.overdue (w : WaitReq) (stamp : Nat) : Bool := w.bound ≠ 0 && decide (w.issued + w.bound * 256_000 ≤ stamp)

/-- The WAITs that a count satisfies at a stamp, in order: what stays held, what is released, and the count left (R465, R466). One whose
bound has passed ends with TIMEOUT and is released no more (R467). -/
def examine (stamp : Nat) : List WaitReq → Nat → List WaitReq × List WaitReq × Nat
  | [], n => ([], [], n)
  | w :: t, n =>
    if w.target ≤ n && !w.overdue stamp then
      let (h, r, m) := examine stamp t (if w.consume then n - w.target else n)
      (h, w :: r, m)
    else
      let (h, r, m) := examine stamp t n
      (w :: h, r, m)

/-- The wait sample of a released WAIT held for at least one tick: its ticks counted, and the sample passed to the power controller
(R474). -/
def waitSample (s : State) (die : Nat) (w : WaitReq) (o : SyncObj) : State :=
  let d := now s die - w.issued
  if d = 0 then s
  else
    let s := bump s F.synWaitTicks_count die 0 d
    let x : WaitSample := ⟨d, w.far, w.index, w.waiter, o.lastSrc, o.lastStamp, now s die⟩
    { s with pwr := { s.pwr with waits := s.pwr.waits ++ [x] } }

/-- What a service of a companion program answers: a0, which is x10 of the control core that runs the slot's program (R619, R624). -/
def companionReturn (s : State) (k v : Nat) : State :=
  let c := ctlCore s (k / 4) (4 + k % 4)
  let s := setCtlCore s (k / 4) (4 + k % 4) { c with x := Map.put c.x 10 (BitVec.ofNat 64 v) }
  { s with answers := { s.answers with companion := v } }

/-- A companion's WAIT is over: its program goes on with what the service answers (R624). -/
def companionGoes (s : State) (k v : Nat) : State :=
  let slot := Map.getD s.comps k ⟨[], false⟩
  companionReturn { s with comps := Map.put s.comps k { slot with waiting := false } } k v

/-- A released WAIT lets its waiter go on. -/
def wakeWaiter (s : State) : Waiter → State
  | .core k =>
    let c := coreOf s k
    let f := c.freeze.map fun x => if x = .waitHeld then .waitOver else x
    let p := c.point.map fun p => { p with waitsReleased := p.waitsReleased + 1 }
    setCore s k { c with freeze := f, point := p }
  | .collective k =>
    match Map.find s.cols k with
    | some c => { s with cols := Map.put s.cols k { c with released := true } }
    | none => s
  | .companion k => companionGoes s k stOk

/-- The die a waiter stands on. -/
def waiterDie : Waiter → Nat
  | .core k => k / 24
  | .collective k => k / 8
  | .companion k => k / 4

/-- A WAIT released by its object: its waiter goes on, on the other die once the release has crossed the span bridge (R35, R465, R474,
R502, R667). -/
def releaseWait (o : SyncObj) (wasHeld : Bool) (die : Nat) (s : State) (w : WaitReq) : State :=
  let s := bump s F.synReleaseCount_count die 0 1
  let s := if wasHeld then waitSample s die w o else s
  if waiterDie w.waiter = die then wakeWaiter s w.waiter else bridgeSend s die (.release w.waiter)

/-- A waiter whose WAIT ends with TIMEOUT (R467, R480, R625). -/
def timeoutWaiter (s : State) : Waiter → State
  | .core k => endStream s k stTimeout
  | .collective k =>
    match Map.find s.cols k with
    | some c => { s with cols := Map.put s.cols k { c with phase := .ending, status := stTimeout, stopped := true, early := [] } }
    | none => s
  | .companion k => companionGoes s k stTimeout

/-- A WAIT that ends with TIMEOUT at its object's unit: counted, and told to its waiter (R35, R467). -/
def timeoutWait (s : State) (die : Nat) (w : WaitReq) : State :=
  let s := irq (bump s F.synTimeoutCount_count die 0 1) die 5 9
  if waiterDie w.waiter = die then timeoutWaiter s w.waiter else bridgeSend s die (.timeout w.waiter)

def heldAt (s : State) (die key : Nat) : List WaitReq := Map.getD (syncOf s die).held key []

def setHeld (s : State) (die key : Nat) (l : List WaitReq) : State :=
  let u := syncOf s die
  setSync s die { u with held := if l = [] then Map.del u.held key else Map.put u.held key l }

/-- The object examines its held WAITs; `first` is one that is tested for the first time (R466). -/
def examineObj (s : State) (die : Nat) (far : Bool) (index : Nat) (o : SyncObj) (first : Option WaitReq) : State :=
  let key := objKey far index
  let (h, r, n) := examine (now s die) (heldAt s die key) o.count
  let s := setHeld s die key h
  let s := if n = o.count then s else writeObj s die far index { o with count := n }
  r.foldl (fun s w => releaseWait o (first ≠ some w) die s w) s

/-- SIGNALs added one after another to an object; the count stops at its largest value (R464). -/
def applySignals (o : SyncObj) : List SignalMsg → SyncObj × Nat
  | [] => (o, 0)
  | m :: t =>
    let sum := o.count + m.increment
    let (o', k) := applySignals ⟨min sum (2 ^ 32 - 1), m.src, m.sent⟩ t
    (o', k + flagBit (decide (2 ^ 32 ≤ sum)))

/-- A WAIT at the unit of its object's die. -/
def joinArriving (s : State) (die : Nat) (w : WaitReq) : State :=
  let u := syncOf s die
  setSync s die { u with arriving := u.arriving ++ [w] }

/-- A WAIT sent to the unit that serves its object, on the other die over the span bridge (R35, R454, R666). -/
def sendWait (s : State) (die : Nat) (w : WaitReq) : State :=
  if servingDie w.far w.index die = die then joinArriving s die { w with arrival := now s die + lMinDie }
  else bridgeSend s die (.wait w)

/-- The order in which WAITs that arrive in one cycle join: cores by index, the collective engine, companions, the other die
(R466; log entry 114). -/
def waitRank (die : Nat) (w : Waiter) : Nat :=
  (match w with | .core k => k % 24 | .collective _ => 100 | .companion _ => 101) + if waiterDie w = die then 0 else 200

/-- Two stamps of a die lie in one control-clock cycle, or the first lies in an earlier one. -/
def cycleUpTo (a b : Nat) : Bool := decide (a / 2 ≤ b / 2)

/-- A WAIT may join its object: it has arrived, the object's last write has landed, and the SIGNALs that reached the object in its cycle or
earlier have been applied (R433, R464, R466). -/
def mayJoin (s : State) (die : Nat) (w : WaitReq) : Bool :=
  decide (w.arrival ≤ now s die) && !objHeld s w.far w.index
    && !(syncOf s die).signals.any fun m => m.far = w.far && m.index = w.index && cycleUpTo m.arrival w.arrival

/-- The WAIT of a list that joins first: the earliest to arrive, then the rank (R466). -/
def firstToJoin (die : Nat) (l : List WaitReq) : Option WaitReq :=
  l.foldl (fun m w =>
    match m with
    | none => some w
    | some v =>
      if w.arrival / 2 < v.arrival / 2
          || (w.arrival / 2 = v.arrival / 2 && decide (waitRank die w.waiter < waitRank die v.waiter))
      then some w else some v) none

/-- The WAIT that joins its object next, among those that may (R466). -/
def nextArriving (s : State) (die : Nat) : Option WaitReq :=
  firstToJoin die ((syncOf s die).arriving.filter (mayJoin s die))

/-- A SIGNAL may be applied: it has arrived, its object's last write has landed, and no WAIT that reached the object in an earlier cycle is
still to join (R433, R464, R466). -/
def mayApply (s : State) (die : Nat) (m : SignalMsg) : Bool :=
  decide (m.arrival ≤ now s die) && (!objHeld s m.far m.index || (m.far && decide (farCount s ≤ m.index)))
    && !(syncOf s die).arriving.any fun w => m.far = w.far && m.index = w.index && decide (w.arrival / 2 < m.arrival / 2)

/-- The SIGNAL applied next (R464). -/
def nextSignal (s : State) (die : Nat) : Option SignalMsg := (syncOf s die).signals.find? (mayApply s die)

end Sys2Proof.Machine
end

