-- ==== Sys2Proof/Machine/SidOps.lean ====
section
/-! DEFINITION. Where a die takes its time from, corrections of its counter, and synced (R652 to R663); what arrives over the span
bridge (R35, R666 to R669). -/

namespace Sys2Proof.Machine

/-- SID_STATUS source codes (R684). -/
def srcNone : Nat := 0
def srcMaster : Nat := 1
def srcPort : Nat := 2
def srcBridge : Nat := 3
def srcTimein : Nat := 4

/-- A module port may give time: it is up and its partner offers a stratum below 15 (R654). -/
def portQualifies (s : State) (mp : Nat) : Bool :=
  portUp s (mp / 16) (mp % 16) && decide ((portOf s (mp / 16) (mp % 16)).stratum < 15)

/-- The stratum the partner of a module port offers. -/
def stratumOf (s : State) (mp : Nat) : Nat := (portOf s (mp / 16) (mp % 16)).stratum

/-- The stratum that the module offers on all its ports: 0 as the master, 15 otherwise (R653). -/
def offeredStratum (s : State) : Nat := if rflag s F.sidCtrl_master 0 0 then 0 else 15

/-- The port of a list with the lowest stratum, the first of those. -/
def lowestStratum (s : State) (l : List Nat) : Option Nat :=
  l.foldl (fun m p => match m with
    | none => some p
    | some q => if stratumOf s p < stratumOf s q then some p else some q) none

/-- The module port time is taken from now, if any. -/
def timePort (s : State) : Option Nat :=
  if rf s F.sidStatus_source 0 0 = srcPort then some (rf s F.sidStatus_port 0 0)
  else if rf s F.sidStatus_source 1 0 = srcPort then some (rf s F.sidStatus_port 1 0)
  else none

/-- The module port that R654 chooses: the present one while it qualifies and none has offered a lower stratum at three
consecutive exchanges. -/
def chosenPort (s : State) : Option Nat :=
  let all := (List.range 32).filter (portQualifies s)
  match timePort s with
  | some p =>
    if portQualifies s p then
      match lowestStratum s (all.filter fun q =>
          decide (3 ≤ (portOf s (q / 16) (q % 16)).better) && decide (stratumOf s q < stratumOf s p)) with
      | some q => some q
      | none => some p
    else lowestStratum s all
  | none => lowestStratum s all

/-- synced of a die changes: its source of group 9, its SYNC record, and SID_LOSS_COUNT (R659, R684). -/
def setSynced (s : State) (die : Nat) (on : Bool) (theta delta : Int) : State :=
  if rflag s F.sidStatus_synced die 0 = on then s
  else
    let s := wf s F.sidStatus_synced die 0 (flagBit on)
    if on then syncRec (irq s die 9 0) die 2 theta delta
    else syncRec (irq (bump s F.sidLossCount_count die 0 1) die 9 1) die 3 theta delta

/-- The die that takes its time over the span bridge is told when its synced is not that of the die it follows (R660). -/
def tellFollower (s : State) (theta delta : Int) : State :=
  [0, 1].foldl (fun s d =>
    let on := rflag s F.sidStatus_synced d 0
    if rf s F.sidStatus_source (1 - d) 0 = srcBridge && rflag s F.sidStatus_synced (1 - d) 0 ≠ on then
      bridgeSend s d (.synced on theta delta)
    else s) s

/-- SID_STATUS of a die follows its source. A die left with TIMEIN or nothing is no longer synced, and its records say so from then on
(R665); a change of source or port writes a SYNC record (R674). -/
def setSource (s : State) (die src stratum port : Nat) : State :=
  let same := rf s F.sidStatus_source die 0 = src && rf s F.sidStatus_port die 0 = port
  let s := wf (wf (wf s F.sidStatus_source die 0 src) F.sidStatus_stratum die 0 stratum) F.sidStatus_port die 0 port
  if same then s
  else
    let v := sidOf s die
    let s := setSid s die { v with good := 0, request := none, asked := none }
    let s := if src = srcTimein || src = srcNone then setSynced s die false 0 0 else s
    syncRec s die 7 0 0

/-- Both dies take their sources by R652 to R656. -/
def chooseSources (s : State) : State :=
  if rflag s F.sidCtrl_master 0 0 then setSource (setSource s 0 srcMaster 0 0) 1 srcBridge 0 0
  else
    match chosenPort s with
    | some p =>
      let d := p / 16
      let st := stratumOf s p
      setSource (setSource s d srcPort st p) (1 - d) srcBridge st 0
    | none =>
      if rflag s F.sidCtrl_timeinEn 0 0 then setSource (setSource s 0 srcTimein 15 0) 1 srcBridge 15 0
      else setSource (setSource s 0 srcNone 15 0) 1 srcNone 15 0

/-- Both dies take their sources, and the follower's synced follows (R652 to R656, R660). -/
def sourceSettle (s : State) : State := tellFollower (chooseSources s) 0 0

/-- Ticks between two corrections of one tick while an offset is slewed away: over the next 1 ms, at most 200 ppm (R658). -/
def slewEvery (n : Nat) : Nat := max 5000 (4_000_000 / n)

/-- The rate correction after an offset, at most one tick for each tick (R658; log entry 153). -/
def nextRate (old twice : Int) : Int := clampInt (1 - 2 ^ 32) (2 ^ 32 - 1) (Config.rateCorrection old twice)

/-- The correction of an offset of θ/2 ticks, given as twice its value so that halves are exact (R658; log entry 19). -/
def correct (s : State) (die : Nat) (twice delta : Int) : State :=
  let th := Int.tdiv twice 2
  let s := wf s F.sidStatus_offset die 0 (codeOf 16 (clampInt (-32767) 32767 th))
  let v := { sidOf s die with rate := nextRate (sidOf s die).rate twice }
  if 8000 < twice then
    let s := setSid (stepTo s die (now s die + th.toNat)) die { v with slew := 0 }
    syncRec (bump s F.sidStepCount_count die 0 1) die 1 th delta
  else if twice < -8000 then setSid s die { v with slew := th + 4000, every := 5000, phase := 0 }
  else setSid s die { v with slew := th, every := slewEvery th.natAbs, phase := 0 }

/-- synced of the die that takes time; the die that follows it is told (R659, R660). -/
def setSyncedBoth (s : State) (die : Nat) (on : Bool) (theta delta : Int) : State :=
  tellFollower (setSynced s die on theta delta) theta delta

/-- synced after an exchange with an offset (R659). -/
def judge (s : State) (die : Nat) (twice delta : Int) : State :=
  let th := Int.tdiv twice 2
  let v := sidOf s die
  let good := if twice.natAbs ≤ 8 then v.good + 1 else 0
  let s := setSid s die { v with good := good }
  if 20 < twice.natAbs then setSyncedBoth s die false th delta
  else if 3 ≤ good then setSyncedBoth s die true th delta
  else s

/-! ## Arrivals over the span bridge (R35, R666 to R669) -/

/-- A message arrives over the span bridge: its arrival is stamped, and all it does comes at that stamp or later (R667 to R669). -/
def bridgeDeliver (s : State) (m : BridgeMsg) : State :=
  let s := arriveStamp s m.dest m.sent lMinBridge
  match m.body with
  | .signal x => deliverSignal s m.dest m.dest { x with arrival := now s m.dest }
  | .wait w => joinArriving s m.dest { w with arrival := now s m.dest }
  | .release w => wakeWaiter s w
  | .timeout w => timeoutWaiter s w
  | .synced on theta delta =>
    if rf s F.sidStatus_source m.dest 0 = srcBridge then setSynced s m.dest on theta delta else s

/-- The messages whose time on the span bridge has passed arrive, in the order of their sending. -/
def bridgeArrive (s : State) : State :=
  let here := fun m : BridgeMsg => decide (m.due ≤ now s m.dest)
  (s.bridge.filter here).foldl bridgeDeliver { s with bridge := s.bridge.filter fun m => !here m }

end Sys2Proof.Machine
end

