-- ==== Sys2Proof/Machine/PwrOps.lean ====
section
/-! DEFINITION. Power and clock operations: stretching, frequency orders and steps, limits, the tight state, and leaving Nap
(R687 to R716). -/

namespace Sys2Proof.Machine

/-! ## Stretching (R704 to R706) -/

/-- The module's clocks run: powered, and neither in Nap nor in Dark (R687, R689). -/
def clocksRun (s : State) : Bool := s.host.powered && decide (powerState s < pwrNap)

/-- Any cause stretches the die's arithmetic clock; the factor is 2 whatever their number (R705). -/
def stretches (s : State) (die : Nat) : Bool :=
  let c := clkOf s die
  c.droop || c.overPower || c.brake || rflag s F.pwrStatus_floorStretch 0 0

/-- Stretched cycles up to now are counted (R706). -/
def bankStretch (s : State) (die : Nat) : State :=
  let n := stretchOpen s die
  let c := clkOf s die
  let s := setClk s die { c with stretchFrom := c.stretchFrom.map fun _ => now s die }
  bump s F.clkStretchCycles_count die 0 n

/-- A change of a cause or of the frequency, with the stretched cycles before it counted and CLK_STATUS stretch after it. -/
def clkChange (s : State) (die : Nat) (f : State → State) : State :=
  let s := f (bankStretch s die)
  let on := stretches s die
  let c := clkOf s die
  let s := setClk s die { c with stretchFrom := if on then some (c.stretchFrom.getD (now s die)) else none }
  wf s F.clkStatus_stretch die 0 (flagBit on)

/-! ## Frequency orders and steps (R701 to R703, R705) -/

/-- The stretch of a power brake ends. -/
def endBrakeStretch (s : State) (die : Nat) : State :=
  if (clkOf s die).brake then clkChange s die fun s => setClk s die { clkOf s die with brake := false } else s

/-- The stretch of a power brake ends when the die is at or below brake_mhz (R711). -/
def brakeSettle (s : State) (die : Nat) : State :=
  if rf s F.clkStatus_freqMhz die 0 ≤ rf s F.pwrTightCfg_brakeMhz 0 0 then endBrakeStretch s die else s

/-- The next 25 MHz step toward the ordered frequency starts, if none is under way. Going down, the clock switches first, so that the new
frequency holds from the start of the step (R701; log entry 25). -/
def startStep (s : State) (die : Nat) : State :=
  let c := clkOf s die
  let f := rf s F.clkStatus_freqMhz die 0
  let t := rf s F.clkStatus_targetMhz die 0
  if c.stepTo.isSome || f = t then s
  else
    let goal := if f < t then min t (f + 25) else max t (f - 25)
    let s := wf (setClk s die { c with stepTo := some goal }) F.clkStatus_stepping die 0 1
    if goal < f then brakeSettle (clkChange s die fun s => wf s F.clkStatus_freqMhz die 0 goal) die else s

/-- A die is ordered to a frequency (R697, R702). -/
def orderDie (s : State) (die mhz : Nat) : State := startStep (wf s F.clkStatus_targetMhz die 0 mhz) die

def orderBoth (s : State) (mhz : Nat) : State := orderDie (orderDie s 0 mhz) 1 mhz

/-- The brake ceiling is in force (R711, R815). -/
def braked (s : State) : Bool := s.pwr.brakePin || s.pwr.brakeSupply

/-- A die's arithmetic clock stops: its stretched cycles so far are counted, and no step is under way (R687, R706). -/
def clockStop (s : State) (die : Nat) : State :=
  let s := setClk (bankStretch s die) die ClockState.fresh
  wf (wf s F.clkStatus_stepping die 0 0) F.clkStatus_stretch die 0 0

/-- A stopped arithmetic clock starts again at 500 MHz and steps toward the ordered frequency, under a brake ceiling in force
toward brake_mhz at most (R687, R688, R711). -/
def clockStart (s : State) (die : Nat) : State :=
  let t := rf s F.clkStatus_targetMhz die 0
  let t := if braked s then min t (rf s F.pwrTightCfg_brakeMhz 0 0) else t
  let s := wf (wf (clockStop s die) F.clkStatus_freqMhz die 0 500) F.clkStatus_targetMhz die 0 t
  startStep (clkChange s die id) die

/-- Nap is left for Idle (R44, R633, R661, R687 to R689). -/
def wakeNow (s : State) : State :=
  if powerState s ≠ pwrNap then s
  else
    let s := setPwrStatus { s with host := { s.host with wakePending := false } } F.pwrStatus_state pwrIdle
    clockStart (clockStart s 0) 1

/-- Nap is left, and the fabric lanes retrain; the list gives each port's lanes that came up (R554, R661, R687). -/
def wakeTrained (s : State) (train : List (BitVec 8)) : State := sourceSettle (trainPorts (wakeNow s) train)

/-- Nap is left by an event that brings no list of lanes along: which come up is left open (R687; log entry 156). -/
def wakeFree (s : State) : State :=
  if powerState s ≠ pwrNap then s
  else wakeTrained { s with freeCtr := s.freeCtr + 1 } ((List.range 32).map (Config.lanesUp s.freeCtr))

/-! ## THERM_N (R709, R826) -/

/-- THERM_N changes (R709). -/
def setTherm (s : State) (on : Bool) : State :=
  let s := wf { s with pwr := { s.pwr with thermAsserted := on } } F.pwrStatus_therm 0 0 (flagBit on)
  event (irq (irq s 0 2 2) 1 2 2) 0 0x07 (flagBit on) 0 0

/-- THERM_N released, with what each change of it brings (R709, R826). -/
def releaseTherm (s : State) : State :=
  let s := { s with pwr := { s.pwr with thermDark := false } }
  if s.pwr.thermAsserted then setTherm s false else s

/-! ## Limits (R694, R695) -/

/-- A power limit in force: W, window in ms, source code of PWR_LIMIT, and the master its changes name. -/
structure Limit where
  watts : Nat
  ms : Nat
  source : Nat
  master : Nat
deriving DecidableEq, Repr

/-- The power limits in force (R694). -/
def limits (s : State) : List Limit :=
  [⟨rf s F.pwrMgmtCap_capW 0 0, rf s F.pwrMgmtCap_windowMs 0 0, 1, 2⟩]
    ++ (if rflag s F.pwrHostCap_valid 0 0 then
          [(⟨rf s F.pwrHostCap_capW 0 0, rf s F.pwrHostCap_windowMs 0 0, 2, 3⟩ : Limit)] else [])
    ++ (if helioOn s then [(⟨s.pwr.target, 100, 3, 4⟩ : Limit)] else [])
    ++ [⟨2000, 10, 4, 4⟩]

/-- The lowest limit; a tie goes to the lowest source code (log entry 26). -/
def lowestLimit (s : State) : Limit :=
  (limits s).foldl (fun m l => if l.watts < m.watts then l else m) ⟨rf s F.pwrMgmtCap_capW 0 0, 0, 1, 2⟩

/-- The lowest frequency ceiling in force, in MHz (R694). -/
def freqCeiling (s : State) : Nat :=
  let host := rf s F.pwrHostCeiling_ceilingMhz 0 0
  let m := min (min s.pwr.thermCeiling 1250) (min (rf s F.clkLimit_ledgerMhz 0 0) (rf s F.clkLimit_ledgerMhz 1 0))
  let m := if host = 0 then m else min m host
  if braked s then min m (rf s F.pwrTightCfg_brakeMhz 0 0) else m

/-- The budget of the next 1 ms in mJ (R697): history holds the energy of past intervals, latest first. -/
def budget (s : State) (history : List Nat) : Int :=
  (limits s).foldl (fun m l =>
    min m ((Int.ofNat l.ms) * (Int.ofNat l.watts) - Int.ofNat (history.take (l.ms - 1)).sum)) 2400

/-- The frequency a control step orders: the highest multiple of 25 MHz from 500 to the ceiling whose predicted power fits;
none where there is none (R697; log entry 11). -/
def affordable (b : Int) (measured fromMhz ceiling : Nat) : Option Nat :=
  ((List.range 31).reverse.map fun i => 500 + 25 * i).find? fun f =>
    decide (f ≤ ceiling) && decide (Int.ofNat (Config.predictedPower measured fromMhz f) ≤ b)

/-- The tight state holds now (R713). -/
def tightNow (s : State) : Bool :=
  decide (s.pwr.lastOrder ≤ rf s F.pwrTightCfg_tightMhz 0 0) || braked s || rflag s F.pwrStatus_floorStretch 0 0

/-- The change of the lowest power cap: event 0x06, group 2 source 1, and PWR_LIMIT (R695, R728). -/
def limitSettle (s : State) : State :=
  let l := lowestLimit s
  let old := s.pwr.lowestCap
  let s := wf (wf s F.pwrLimit_source 0 0 l.source) F.pwrLimit_limitW 0 0 l.watts
  if l.watts = old then s
  else
    let s := { s with pwr := { s.pwr with lowestCap := l.watts } }
    irq (irq (event s 0 0x06 l.watts l.master 0) 0 2 1) 1 2 1

/-- The brake ceiling changes: PWR_STATUS brake, with a COUNT record where the supply causes it (R815), and the tight state at
once when the ceiling comes into force (R711, R713, R714). -/
def brakeChange (s : State) (record : Bool) (f : PowerState → PowerState) : State :=
  let s := { s with pwr := f s.pwr }
  let s := wf s F.pwrStatus_brake 0 0 (flagBit (braked s))
  let s := wf s F.pwrStatus_ceilingMhz 0 0 (freqCeiling s)
  let s := if record then countRec s 0 .pwrStatus 0 (rd s .pwrStatus 0 0) else s
  if braked s then setPwrStatus { s with pwr := { s.pwr with calm := 0 } } F.pwrStatus_tight 1 else s

/-- Both dies are ordered to brake_mhz at once, unless they are ordered lower already (R711; log entry 27). -/
def orderBrake (s : State) : State :=
  let b := rf s F.pwrTightCfg_brakeMhz 0 0
  [0, 1].foldl (fun s d => orderDie s d (min b (rf s F.clkStatus_targetMhz d 0))) s

end Sys2Proof.Machine
end

