-- ==== Sys2Proof/Machine/Arith.lean ====
section
/-! DEFINITION. Exact arithmetic on values with the exceptions of IEEE 754-2019 (R67, R86, R304, R322): each operation gives
its exact result, which one rounding then takes to a format. -/

namespace Sys2Proof.Machine

/-- An exact result: its value, whether something smaller than a unit of it follows (division, square root), and the
exceptions the operation itself raised. -/
structure Exact where
  x : Num
  sticky : Bool
  exc : Exc
deriving DecidableEq, Repr

def Exact.of (x : Num) : Exact := ⟨x, false, Exc.none⟩
def Exact.invalid : Exact := ⟨.nan false, false, Exc.nv⟩

def Num.isNan : Num → Bool
  | .nan _ => true
  | _ => false

def Num.isSig : Num → Bool
  | .nan s => s
  | _ => false

def Num.isNeg : Num → Bool
  | .nan _ => false
  | .inf n => n
  | .fin n _ _ => n

def Num.isZero : Num → Bool
  | .fin _ m _ => m = 0
  | _ => false

def Num.negate : Num → Num
  | .nan s => .nan s
  | .inf n => .inf !n
  | .fin n m e => .fin (!n) m e

def Num.absolute : Num → Num
  | .nan s => .nan s
  | .inf _ => .inf false
  | .fin _ m e => .fin false m e

/-- A quiet NaN, with invalid where an operand signals (R67). -/
def nanOf (sig : Bool) : Exact := ⟨.nan false, false, if sig then Exc.nv else Exc.none⟩

/-- The sum of two finite values; an exact zero of unlike signs is +0, or −0 toward −∞. -/
def addFin (rnd : Rnd) (n1 : Bool) (m1 : Nat) (e1 : Int) (n2 : Bool) (m2 : Nat) (e2 : Int) : Num :=
  let e := min e1 e2
  let a := m1 * 2 ^ (e1 - e).toNat
  let b := m2 * 2 ^ (e2 - e).toNat
  if n1 = n2 then .fin n1 (a + b) e
  else if a = b then .fin (decide (rnd = .rdn)) 0 0
  else if b < a then .fin n1 (a - b) e
  else .fin n2 (b - a) e

/-- a + b. -/
def opAdd (rnd : Rnd) (a b : Num) : Exact :=
  match a, b with
  | .nan s, y => nanOf (s || y.isSig)
  | x, .nan s => nanOf (s || x.isSig)
  | .inf n1, .inf n2 => if n1 = n2 then .of (.inf n1) else .invalid
  | .inf n, _ => .of (.inf n)
  | _, .inf n => .of (.inf n)
  | .fin n1 m1 e1, .fin n2 m2 e2 => .of (addFin rnd n1 m1 e1 n2 m2 e2)

/-- a − b. -/
def opSub (rnd : Rnd) (a b : Num) : Exact := opAdd rnd a b.negate

/-- a × b. -/
def opMul (a b : Num) : Exact :=
  match a, b with
  | .nan s, y => nanOf (s || y.isSig)
  | x, .nan s => nanOf (s || x.isSig)
  | .inf n1, y => if y.isZero then .invalid else .of (.inf (n1 != y.isNeg))
  | x, .inf n2 => if x.isZero then .invalid else .of (.inf (n2 != x.isNeg))
  | .fin n1 m1 e1, .fin n2 m2 e2 => .of (.fin (n1 != n2) (m1 * m2) (e1 + e2))

/-- a × b + d with one rounding. Whether ∞ × 0 with a quiet NaN addend raises invalid is left open by IEEE 754 (log
entry 20). -/
def opFma (rnd : Rnd) (a b d : Num) : Exact :=
  match opMul a b with
  | ⟨.nan _, _, e⟩ =>
    if d.isNan then
      let prod := !a.isNan && !b.isNan
      ⟨.nan false, false, if a.isSig || b.isSig || d.isSig || (prod && Config.fmaInvalid) then Exc.nv else Exc.none⟩
    else ⟨.nan false, false, e⟩
  | ⟨p, _, _⟩ => opAdd rnd p d

/-- a / b: the quotient to more than 90 bits, and whether a rest follows. -/
def opDiv (a b : Num) : Exact :=
  match a, b with
  | .nan s, y => nanOf (s || y.isSig)
  | x, .nan s => nanOf (s || x.isSig)
  | .inf n1, y => if y.nonfinite then .invalid else .of (.inf (n1 != y.isNeg))
  | x, .inf n2 => .of (.fin (x.isNeg != n2) 0 0)
  | .fin n1 m1 e1, .fin n2 m2 e2 =>
    if m2 = 0 then
      if m1 = 0 then .invalid else ⟨.inf (n1 != n2), false, ⟨false, true, false, false, false⟩⟩
    else if m1 = 0 then .of (.fin (n1 != n2) 0 0)
    else
      let k := 96 + m2.log2
      let num := m1 * 2 ^ k
      ⟨.fin (n1 != n2) (num / m2) (e1 - e2 - k), num % m2 ≠ 0, Exc.none⟩

/-- The integer square root, bit by bit from bit `fuel`. -/
def isqrtFrom : Nat → Nat → Nat → Nat
  | 0, _, r => r
  | k + 1, n, r => if (r + 2 ^ k) * (r + 2 ^ k) ≤ n then isqrtFrom k n (r + 2 ^ k) else isqrtFrom k n r

def isqrt (n : Nat) : Nat := isqrtFrom (n.log2 / 2 + 1) n 0

/-- √a: to more than 90 bits, and whether a rest follows. -/
def opSqrt (a : Num) : Exact :=
  match a with
  | .nan s => nanOf s
  | .inf false => .of (.inf false)
  | .inf true => .invalid
  | .fin n m e =>
    if m = 0 then .of (.fin n 0 0)
    else if n then .invalid
    else
      let k := 192 + (e % 2).toNat
      let r := isqrt (m * 2 ^ k)
      ⟨.fin false r ((e - k) / 2), r * r ≠ m * 2 ^ k, Exc.none⟩

/-- a < b for values that are not NaN; −0 equals +0. -/
def numLt (a b : Num) : Bool :=
  match a, b with
  | .nan _, _ => false
  | _, .nan _ => false
  | .inf n1, .inf n2 => n1 && !n2
  | .inf n, _ => n
  | _, .inf n => !n
  | .fin n1 m1 e1, .fin n2 m2 e2 =>
    if m1 = 0 && m2 = 0 then false
    else if n1 && !n2 then true
    else if !n1 && n2 then false
    else if n1 then magLt m2 e2 m1 e1
    else magLt m1 e1 m2 e2

/-- a = b for values that are not NaN. -/
def numEq (a b : Num) : Bool :=
  !a.isNan && !b.isNan && !numLt a b && !numLt b a

/-- IEEE 754-2019 minimum: NaN if either is; −0 below +0 (R304). -/
def opMin (a b : Num) : Exact :=
  if a.isNan || b.isNan then nanOf (a.isSig || b.isSig)
  else if numLt a b then .of a
  else if numLt b a then .of b
  else .of (if a.isNeg then a else b)

/-- IEEE 754-2019 maximum: NaN if either is; −0 below +0 (R304). -/
def opMax (a b : Num) : Exact :=
  if a.isNan || b.isNan then nanOf (a.isSig || b.isSig)
  else if numLt a b then .of b
  else if numLt b a then .of a
  else .of (if a.isNeg then b else a)

/-- An exact result rounded once to a format (R86), with all exceptions. -/
def roundExact (f : FloatFmt) (rnd : Rnd) (srBits : Nat) (r : Exact) : Rounded :=
  match r.x with
  | .nan _ => ⟨f.nanCode, r.exc⟩
  | .inf neg => ⟨encodeInf f neg, r.exc⟩
  | .fin neg m e =>
    let o := roundFinite f rnd false srBits neg m e r.sticky
    ⟨o.code, r.exc.or o.exc⟩

/-- A value of binary64 rounded to nearest: the operations of the fixed binary64 procedures. -/
def b64 (r : Exact) : Num := decodeFloat fmtB64 (roundExact fmtB64 .rne 0 r).code

/-- Binary64 operations under RNE. -/
def fadd (a b : Num) : Num := b64 (opAdd .rne a b)
def fsub (a b : Num) : Num := b64 (opSub .rne a b)
def fmul (a b : Num) : Num := b64 (opMul a b)
def fdiv (a b : Num) : Num := b64 (opDiv a b)
def fsqrt (a : Num) : Num := b64 (opSqrt a)

/-- The binary64 code of a value. -/
def code64 (x : Num) : Nat := (roundNum fmtB64 .rne 0 x).code

/-- The binary64 value of a code. -/
def num64 (c : Nat) : Num := decodeFloat fmtB64 c

/-- A natural number as a value. -/
def natNum (n : Nat) : Num := .fin false n 0

end Sys2Proof.Machine
end

