-- ==== Sys2Proof/Machine/LayerOps.lean ====
section
/-! DEFINITION. The layer table: its entries, the checks of a load and of the update commands that name them (R336 to R340,
R366), and the Almanac slots' registers (R376, R377). -/

namespace Sys2Proof.Machine

/-- A layer-table entry (R338). -/
structure Layer where
  rule : Nat
  flags : Nat
  fmtW : Nat
  fmtG : Nat
  fmtM : Nat
  fmtV : Nat
  b : Nat
  size : Nat
  wBase : Nat
  gBase : Nat
  mBase : Nat
  vBase : Nat
  hdrBase : Nat
  mapBase : Nat
  statsBase : Nat
  gscaleBase : Nat
  beta1 : Nat
  beta2 : Nat
  delta : Nat
  lambda : Nat
  betaS : Nat
  ridge : Nat
  tol : Nat
deriving DecidableEq, Repr

def Layer.of (e : Bytes) : Layer :=
  ⟨leAt e 0 1, leAt e 1 1, leAt e 2 1 % 16, leAt e 2 1 / 16, leAt e 3 1 % 16, leAt e 3 1 / 16, leAt e 4 1, leAt e 8 8,
   leAt e 16 8, leAt e 24 8, leAt e 32 8, leAt e 40 8, leAt e 48 8, leAt e 56 8, leAt e 64 8, leAt e 72 8, leAt e 80 4,
   leAt e 84 4, leAt e 88 4, leAt e 92 4, leAt e 96 4, leAt e 100 4, leAt e 104 4⟩

def Layer.isMatrix (l : Layer) : Bool := l.rule = 2
def Layer.frozen (l : Layer) : Bool := bitOf l.flags 0
def Layer.biasCorr (l : Layer) : Bool := bitOf l.flags 1
def Layer.mapEn (l : Layer) : Bool := bitOf l.flags 2
def Layer.wrnd (l : Layer) : Nat := bits l.flags 4 3

/-- Matrix rule: rows and columns of the layer, and its tiles (R338, R340). -/
def Layer.rows (l : Layer) : Nat := l.size % 2 ^ 32
def Layer.cols (l : Layer) : Nat := l.size / 2 ^ 32
def Layer.tiles (l : Layer) : Nat := if l.b = 0 then 0 else l.rows / l.b * (l.cols / l.b)

/-- Elements of the layer. -/
def Layer.elements (l : Layer) : Nat := if l.isMatrix then l.rows * l.cols else l.size

/-- Elements of one row of the gradient in memory: the innermost dimension of a block-scaled tensor is whole blocks (R80). -/
def Layer.gRow (l : Layer) : Nat :=
  let n := if l.isMatrix then l.cols else l.size
  if isBlock l.fmtG then 32 * divCeil n 32 else n

def Layer.gRows (l : Layer) : Nat := if l.isMatrix then l.rows else 1

/-! ## The checks of a load (R339) -/

/-- The value of a binary32 code. -/
def num32 (c : Nat) : Num := decodeFloat fmtB32 c

/-- A scalar in [0, 1). -/
def unitOk (c : Nat) : Bool := !(num32 c).nonfinite && !numLt (num32 c) (natNum 0) && numLt (num32 c) (natNum 1)

/-- A scalar that is finite and not negative. -/
def nonNegOk (c : Nat) : Bool := !(num32 c).nonfinite && !numLt (num32 c) (natNum 0)

/-- The address ranges an entry names: base and length; a length of 0 names nothing. -/
def Layer.ranges (l : Layer) : List (Nat × Nat) :=
  let n := l.elements
  let g := l.gRow * l.gRows
  [(l.wBase, elemBytes l.fmtW n), (l.gBase, elemBytes l.fmtG g), (l.mBase, elemBytes l.fmtM n), (l.vBase, elemBytes l.fmtV n),
   (l.hdrBase, 64), (l.mapBase, if l.mapEn then divCeil (divCeil n 32) 8 else 0),
   (l.statsBase, if l.isMatrix then 16 * l.b * l.b * l.tiles else 0),
   (l.gscaleBase, if isBlock l.fmtG then g / 32 else 0)]

/-- The conditions of R339 on a non-empty entry of core k's table. -/
def layerOk (s : State) (k : Nat) (e : Bytes) : Bool :=
  let l := Layer.of e
  l.rule = 0 ||
    (decide (l.rule ≤ 2) && bits l.flags 7 5 = 0 && decide (l.wrnd ≤ 1) && leAt e 5 3 = 0 && leAt e 108 20 = 0
      && !(l.mapEn && l.isMatrix)
      && (l.fmtW = 2 || l.fmtW = 4) && [2, 3, 4, 8, 9].contains l.fmtG && (l.fmtM = 2 || l.fmtM = 4) && (l.fmtV = 2 || l.fmtV = 4)
      && (if l.isMatrix then decide (8 ≤ l.b) && decide (l.b ≤ 128) && l.b % 8 = 0 && l.rows % l.b = 0 && l.cols % l.b = 0
          else l.b = 0)
      && unitOk l.beta1 && unitOk l.beta2 && unitOk l.betaS
      && nonNegOk l.delta && nonNegOk l.lambda && nonNegOk l.ridge && nonNegOk l.tol
      && (l.ranges.all fun r => addrOk r.1 && r.1 % 64 = 0 && rangeIn s r.1 r.2 (reachUpd k))
      && (l.mapEn || l.mapBase = 0) && (l.isMatrix || l.statsBase = 0)
      && (if isBlock l.fmtG then l.gscaleBase ≠ 0 else l.gscaleBase = 0))

/-- Entry i of a core's table. -/
def layerOf (s : State) (k i : Nat) : Layer := Layer.of (mapBytes (coreOf s k).layers (128 * i) 128)

/-! ## Groups, segments and reads of a command (R340, R355, R358, R361) -/

/-- Consecutive elements of a layer: the first index in the tensors of state, how many, and the index in the gradient. -/
structure Seg where
  first : Nat
  count : Nat
  grad : Nat
deriving DecidableEq, Repr

/-- Groups of a command. -/
def updGroups (u : Upd) (l : Layer) : Nat := if l.isMatrix then u.count else divCeil u.count 256

/-- The segments of group g: a group of the element rule is one segment, a tile is one segment per row. -/
def groupSegs (u : Upd) (l : Layer) (g : Nat) : List Seg :=
  if l.isMatrix then
    let j := u.first + g
    let per := l.cols / l.b
    (List.range l.b).map fun r =>
      let row := j / per * l.b + r
      let col := j % per * l.b
      ⟨row * l.cols + col, l.b, row * l.gRow + col⟩
  else
    let e := (u.first + g) * 256
    [⟨e, min 256 (u.count - 256 * g), e⟩]

/-- Address of the statistics and roots of a tile: part 0 QL, 1 QR, 2 PL, 3 PR (R340). -/
def tilePart (l : Layer) (j part : Nat) : Nat := l.statsBase + j * (16 * l.b * l.b) + part * (4 * l.b * l.b)

/-- What group g reads, as address and length: the gradient, the parameters and both averages of an UPDATE, frozen blocks
included, the roots of an UPDATE's tile or the statistics of a UROOT's (R348, R355). An UPDATE reads the roots whatever roots_valid
is: R355 lists them, R351 says that they are read only while it is 1 (DESIGN CHOICE, log entry 146). -/
def groupReads (u : Upd) (l : Layer) (g : Nat) : List (Nat × Nat) :=
  let wd := fun f => elemBits f / 8
  let segs := groupSegs u l g
  let tensor := fun base f (x : Seg) => (base + x.first * wd f, x.count * wd f)
  let state := if u.isRoot then [] else segs.flatMap fun x => [tensor l.wBase l.fmtW x, tensor l.mBase l.fmtM x, tensor l.vBase l.fmtV x]
  let grad := segs.flatMap fun x =>
    (l.gBase + x.grad * wd l.fmtG, x.count * wd l.fmtG)
      :: (if isBlock l.fmtG then [(l.gscaleBase + x.grad / 32, (x.grad + x.count - 1) / 32 - x.grad / 32 + 1)] else [])
  let mats := if l.isMatrix then [(tilePart l (u.first + g) (if u.isRoot then 0 else 2), 8 * l.b * l.b)] else []
  state ++ grad ++ mats

/-- What a command reads before its first group: the header, the multiplier and the map bits of its range (R355, R358). -/
def headReads (k : Nat) (u : Upd) (l : Layer) : List (Nat × Nat) :=
  (l.hdrBase, 64) :: (if u.gsEn then [(coreBase k + u.gsOff, 4)] else [])
    ++ (if l.mapEn then [(l.mapBase + u.first, divCeil (divCeil u.count 32) 8)] else [])

/-- Every read of a command; a frozen layer, or a command of no elements, reads nothing (R354, R357). -/
def updReadRanges (k : Nat) (u : Upd) (l : Layer) : List (Nat × Nat) :=
  if u.count = 0 || l.frozen then []
  else headReads k u l ++ (List.range (updGroups u l)).flatMap (groupReads u l)

/-! ## Almanac slots (R370, R376, R377) -/

def almShape (s : State) (slot : Nat) : Nat := rf s F.almCtrl_shape 0 slot

/-- A slot that evaluates: its shape is assigned. -/
def almEnabled (s : State) (slot : Nat) : Bool := decide (1 ≤ almShape s slot) && decide (almShape s slot ≤ 5)

/-- An update command passes the checks at run (R366). -/
def updRunOk (s : State) (k w : Nat) : Bool :=
  let u := Upd.of w
  let l := layerOf s k u.layer
  l.rule ≠ 0 && (!u.isRoot || l.isMatrix)
    && (if l.isMatrix then decide (u.first + u.count ≤ l.tiles) else decide (u.first * 256 + u.count ≤ l.size))
    && (!u.lrSrc || almEnabled s u.slot)

end Sys2Proof.Machine
end

