-- ==== Sys2Proof/Machine/ArrOps.lean ====
section
/-! DEFINITION. Operations of the matrix arrays: operand-buffer rows and tiles (R128 to R130), the start rules (R141 to R149),
products, column sums and merges (R106 to R114, R136, R154 to R161, R850, R858), and exposures (R186, R187). -/

namespace Sys2Proof.Machine

/-! ## The operand buffer (R50, R128 to R130, R135, R279) -/

/-- A read by a port of an operand buffer: the place the bytes take in the tile or the pass, the line, the bytes of the line, and
the cycle (R136, R859). -/
structure LineRead where
  key : Nat
  line : Nat
  off : Nat
  len : Nat
  cycle : Int
deriving DecidableEq, Repr

/-- The bytes of a read as the buffer holds them, under their place. -/
def portRead (a : ArrayState) (r : LineRead) : Nat × Bytes := (r.key, mapBytes a.opbuf (64 * r.line + r.off) r.len)

/-- Read bytes put in their places. -/
def takeReads (got : Map Bytes) (l : List (Nat × Bytes)) : Map Bytes := l.foldl (fun m e => Map.put m e.1 e.2) got

/-- The codes of row or column i of k elements, from the lines read (R128). -/
def gotElems (got : Map Bytes) (fmt i k : Nat) : List Nat :=
  elemsOf fmt ((List.range (lineCount fmt k)).flatMap fun j => Map.getD got (i * 64 + j) []) k

/-- The scale bytes of row or column i (R129); none for an unscaled operand (R130). -/
def gotScales (got : Map Bytes) (fmt i : Nat) : List Nat :=
  if isBlock fmt then (Map.getD got (i * 64 + 63) []).map (·.toNat) else []

/-- The read of the scale bytes of row or column i of k elements: they lie in one line (R129). -/
def scaleRead (fmt scaleLine i k : Nat) (cycle : Int) : List LineRead :=
  if isBlock fmt && k ≠ 0 then [⟨i * 64 + 63, scaleLine + i / 4, 16 * (i % 4), divCeil k 32, cycle⟩] else []

/-- Lines armed by a port's read (R279). -/
def armLines (a : ArrayState) (lines : List Nat) : ArrayState := { a with armed := lines.foldl insertNew a.armed }

/-- The code over the bytes that an operand-buffer line holds (R386). -/
def lineCode (a : ArrayState) (line : Nat) : Nat := rowCode (mapBytes a.opbuf (64 * line) 64) line

/-- The code stored with a line: a FEED writes whole lines, with the code over their bytes; a corruption may have left its inverse
(R388, R845). -/
def storedLineCode (a : ArrayState) (line : Nat) : Nat :=
  if a.poison.contains line then 65535 - lineCode a line else lineCode a line

/-- Bytes written to the operand buffer; a write of an armed line hits it (R279), and the code of a line is written with it (R388). -/
def bufWrite (a : ArrayState) (line : Nat) (data : Bytes) : ArrayState :=
  { a with
    opbuf := putBytes a.opbuf (64 * line) data
    poison := a.poison.filter fun l => !(decide (line ≤ l) && decide (l < line + divCeil data.length 64))
    lineHit := a.lineHit || (List.range (divCeil data.length 64)).any fun i => a.armed.contains (line + i) }

/-- A failure met by a command joins those the core has to act on. -/
def detect (s : State) (k : Nat) (f : Failure) : State :=
  let c := coreOf s k
  setCore s k { c with detected := c.detected ++ [f] }

/-- The first line of a read that fails its re-read, with the delay of that re-read: the one the environment names, or one whose stored
code is not that of its bytes (R135, R845). -/
def lineFails (a : ArrayState) (lf : LineFaults) (lines : List Nat) : Option (Nat × Nat) :=
  let bad := lines.filter fun l => storedLineCode a l ≠ lineCode a l
  let delay := fun l => ((lf.inverse.find? fun e => e.1 = l).map (·.2)).getD 0
  (lf.failAt.filter fun e => lines.contains e.1).orElse fun _ => bad.head?.map fun l => (l, delay l)

/-- Lines read by a port for a command of a bundle: those that pass their re-read are counted and freeze the core for its delay; the
line that fails it is counted against the array, unless it is taken for poison, and is a failure of the command (R135, R273, R387,
R390, R733, R845). -/
def portEffects (s : State) (k a bundle : Nat) (lf : LineFaults) (lines : List Nat) : State :=
  let ch := arrChan k a
  let good := lf.rereads.filter fun e => lines.contains e.1
  let s := good.foldl (fun s e =>
    slipFor (transient (bump s F.spmRereadCount_count (k / 24) 0 1) kArray ch e.1) k e.2 .lineReread) s
  let st := arrayOf s k a
  let st := { st with poison := ((lf.inverse.filter fun e => lines.contains e.1).map (·.1)).foldl insertNew st.poison }
  let s := setArray s k a st
  match lineFails st lf lines with
  | some (l, d) =>
    let poisoned := st.poison.contains l
    let s := bump s F.spmFailCount_count (k / 24) 0 1
    let s := if poisoned then s else exhaust (transient s kArray ch l) kArray ch l
    detect (slipFor s k d .lineReread) k ⟨4, bundle, counter s k, some (Fin.ofNat 4 a), poisoned, false, some l⟩
  | none => s

/-- A line is read again once: the faults that are left for later reads. -/
def faultsLeft (lf : LineFaults) (lines : List Nat) : LineFaults :=
  { lf with rereads := lf.rereads.filter fun e => !lines.contains e.1 }

/-! ## Tiles (R118, R121, R127, R140, R160, R161) -/

def Tile.kRows (t : Tile) : Nat := kRowsOf t.fmt t.k

/-- The tile that the next MPASS uses. -/
def ArrayState.tile (a : ArrayState) : Tile := a.pendingTile.getD a.active

/-- The tile's column n and its scale bytes. -/
def Tile.column (t : Tile) (n : Nat) : List Nat := gotElems t.got t.fmt n t.k
def Tile.colScales (t : Tile) (n : Nat) : List Nat := gotScales t.got t.fmt n

def Mload.kRows (m : Mload) : Nat := kRowsOf m.fmt m.k

/-- The reads of a load that issues at cycle w (R859). -/
def tileReads (m : Mload) (w : Int) (bcast : Bool) : List LineRead :=
  let per := 512 / elemBits m.fmt
  let pw := packOf m.fmt
  if m.k = 0 then []
  else (List.range m.n).flatMap fun n =>
    (List.range (lineCount m.fmt m.k)).map (fun j =>
        let lo := j * per / pw
        let hi := (min m.k ((j + 1) * per) - 1) / pw
        ⟨n * 64 + j, m.line + n * m.pitch + j, 0, 64, if bcast then w + lo else w + 1 + n + (m.kRows - 1 - hi : Nat)⟩)
      ++ scaleRead m.fmt m.scaleLine n m.k (if bcast then w else w + 1 + n)

/-- The tile that an MLOAD word brings, with no line read yet. -/
def newTile (id word : Nat) (degraded bcast : Bool) : Tile :=
  let m := Mload.of word
  ⟨id, word, m.fmt, m.k, m.n, m.degradable, degraded, bcast, []⟩

/-- The operand-buffer lines of a tile. -/
def tileLines (t : Tile) : List Nat := (tileReads (Mload.of t.word) 0 false).map (·.line)

/-- Bytes read for the tile of a load. -/
def Tile.take (t : Tile) (id : Nat) (l : List (Nat × Bytes)) : Tile :=
  if t.id = id then { t with got := takeReads t.got l } else t

/-- An array's tiles, and those of its passes. -/
def ArrayState.takeTile (a : ArrayState) (id : Nat) (l : List (Nat × Bytes)) : ArrayState :=
  { a with
    active := a.active.take id l, pendingTile := a.pendingTile.map fun t => t.take id l
    passes := a.passes.map fun p => { p with tile := p.tile.take id l } }

/-- The tiles of the snapshot, whose loads may go on after the replay point. -/
def ReplayPt.takeTile (p : ReplayPt) (a id : Nat) (l : List (Nat × Bytes)) : ReplayPt :=
  let take := fun e : Nat × Tile => if e.1 = a then (e.1, e.2.take id l) else e
  { p with active := p.active.map take, pendingTiles := p.pendingTiles.map take }

/-- The loads of a tile and the checks that fail (R140, R145, R150, R153): a failed transit check of column n reloads over the
broadcast path in the next cycle, a failed broadcast load in the cycle after the check; several failures of one transit load count
as one (log entry 111). -/
structure LoadPlan where
  starts : List (Int × Bool)
  checks : List (Int × Nat)
deriving DecidableEq, Repr

def loadPlan (bc : Bool) (m : Mload) (q : Int) (load : LoadFaults) : LoadPlan :=
  let kr : Int := m.kRows
  if m.k = 0 || m.n = 0 then ⟨[(q, bc)], []⟩
  else
    let failed := if bc then none else match load.transit with | some n => if n.val < m.n then some (n.val : Int) else none | none => none
    let w := match failed with | some n => q + kr + n + 3 | none => q
    let bcast := bc || failed.isSome
    let nb := if bcast then load.broadcast.val else 0
    let try_ := fun i : Nat => w + i * (kr + 1)
    ⟨(if failed.isSome then [(q, false)] else []) ++ (List.range (min nb 2 + 1)).map fun i => (try_ i, bcast),
     (failed.toList.map fun n => (q + kr + n + 2, 0)) ++ (List.range nb).map fun i => (try_ i + kr, if i = 2 then 2 else 1)⟩

/-- A list in blocks of 32. -/
def blocks32 {α : Type} (l : List α) : List (List α) :=
  (List.range (divCeil l.length 32)).map fun j => (l.drop (32 * j)).take 32

/-- The degradation conversion: CVT from Nf16 to Nb8a with RNE and sat 0, in blocks of 32 along K (R100, R161). -/
def degrade (xs : List Num) : List Num :=
  (blocks32 xs).flatMap fun b =>
    let o := convertBlock 0x8 .rne false (fun _ => 0) b
    (o.codes.take b.length).map fun c => decodeScaled 0x8 c o.scale

/-- The values of a row or column. -/
def operandVals (fmt : Nat) (codes scales : List Nat) (degraded : Bool) : List Num :=
  let xs := codes.zipIdx.map fun (c, i) => decodeScaled fmt c (scales.getD (i / 32) 0)
  if degraded then degrade xs else xs

/-- The integers of a row or column. -/
def operandInts (fmt : Nat) (codes : List Nat) : List Int := codes.map (signedOf (elemBits fmt))

/-! ## Start rules (R141, R143, R145, R146) -/

/-- An MLOAD starts in the cycle after the start of the last MPASS (R141). -/
def loadStart (a : ArrayState) (q : Int) : Int :=
  match a.lastPass with
  | some p => max q (p.start + 1)
  | none => q

/-- The cycle from which the tile is ready (R140, R145). -/
def tileReady (a : ArrayState) : Int := a.loadCycle + a.tile.kRows + 1

/-- The cycle in which the last pass is complete: t + M × I + L (R137). -/
def PassRec.complete (p : PassRec) : Int := p.start + p.rows * p.interval + p.kRows + p.cols + 6

/-- The earliest start after the last pass on the transit path (R143) and on the broadcast path (R146). -/
def afterLast (a : ArrayState) (interval : Nat) : Int × Int :=
  match a.lastPass with
  | some p =>
    let d := p.kRows + 1 - (a.tile.kRows + interval)
    (p.start + p.rows * p.interval + d, p.complete)
  | none => (tileReady a, tileReady a)

/-- The array loads over the broadcast path, or its tile came over it (R145, R150). -/
def onBroadcast (s : State) (k a : Nat) : Bool := pathStatus s k a = 1 || (arrayOf s k a).tile.bcast

/-- The first cycle from q in which an MPASS may start. -/
def passStart (s : State) (k a : Nat) (q : Int) (interval : Nat) : Int :=
  let st := arrayOf s k a
  let (t, b) := afterLast st interval
  max q (max (tileReady st) (if onBroadcast s k a then b else t))

/-- Cycles by which the broadcast path starts a pass later than R143 would have (R147); the delay of a reload is in both starts, and is
no stall (log entry 64). -/
def passStall (s : State) (k a interval : Nat) : Nat :=
  let st := arrayOf s k a
  let (t, b) := afterLast st interval
  if onBroadcast s k a then (max (tileReady st) b - max (tileReady st) t).toNat else 0

def PassRun.pass (r : PassRun) : Mpass := Mpass.of r.word

/-- The record of a pass that starts at t with a tile. -/
def passRec (p : Mpass) (tile : Tile) (t : Int) : PassRec := ⟨t, p.m, intervalOf p.fmt, tile.kRows, tile.n⟩

/-- The cycle in which a pass is complete (R137). -/
def PassRun.complete (r : PassRun) : Int := (passRec r.pass r.tile r.start).complete

/-- The cycle of the array's clock in which every pass that started before schedule cycle q, and every drain, is complete (R137, R204,
R205). -/
def arrayDone (a : ArrayState) (q : Nat) : Int :=
  (a.passes.filter fun p => decide (p.cycle < q)).foldl (fun m p => max m p.complete) a.drainDone

/-! ## Products and sums (R111 to R114, R154 to R158, R850, R858) -/

/-- ⊕ of an op: 0 for +, 1 for min, 2 for max (R154, R175). -/
def redOf (op : Nat) : Nat := if op = 3 then 1 else if op = 4 || op = 5 then 2 else 0

/-- A value rounded once to W36 with RNE. -/
def w36 (e : Exact) : Num := decodeFloat fmtW36 (roundExact fmtW36 .rne 0 e).code

/-- The W36 code of a value. -/
def w36Code (x : Num) : Nat := (roundNum fmtW36 .rne 0 x).code

/-- p(a, b) of float operands, in W36 (R111, R156, R157). -/
def prodFloat (op : Nat) (a b : Num) : Num :=
  match op with
  | 0 => w36 (opMul a b)
  | 1 => w36 (Exact.of (opSub .rne a b).x.absolute)
  | 2 => let d := (opSub .rne a b).x; w36 (opMul d d)
  | 3 | 4 => w36 (opAdd .rne a b)
  | 5 => (opMin a b).x
  | _ => if a.isNan || b.isNan then .nan false else natNum (flagBit (numEq a b))

/-- p(a, b) of INT8 or INT4 operands, exact (R113, R156). -/
def prodInt (op : Nat) (a b : Int) : Int :=
  match op with
  | 0 => a * b
  | 1 => Int.ofNat (a - b).natAbs
  | 2 => (a - b) * (a - b)
  | 3 | 4 => a + b
  | 5 => min a b
  | _ => if a = b then 1 else 0

/-- ⊕ of two float values before any rounding. -/
def joinFloat (red : Nat) (a b : Num) : Exact :=
  match red with
  | 0 => opAdd .rne a b
  | 1 => opMin a b
  | _ => opMax a b

/-- ⊕ of two integers. -/
def joinInt (red : Nat) (a b : Int) : Int :=
  match red with
  | 0 => a + b
  | 1 => min a b
  | _ => max a b

/-- The products of a row and a column. -/
def productsFloat (op : Nat) (row col : List Num) : List Num := (row.zip col).map fun (a, b) => prodFloat op a b

/-- One PE's value joined to the column's partial sum: p_w products joined exactly, then one rounding to W36 under + (R850);
the selection under min and max is exact. -/
def peStep (red : Nat) (partial_ : Option Num) (slots : List Num) : Option Num :=
  match slots with
  | [] => partial_
  | p :: t =>
    let own := t.foldl (fun x y => (joinFloat red x y).x) p
    let e := match partial_ with | some x => joinFloat red x own | none => Exact.of own
    some (if red = 0 then w36 e else e.x)

/-- The column's sum over its PE rows in ascending order, p_w products at a time (R850). -/
def columnFloat (red pw : Nat) (ps : List Num) : Num :=
  let rows := (List.range (divCeil ps.length pw)).map fun r => (ps.drop (pw * r)).take pw
  (rows.foldl (peStep red) none).getD (natNum 0)

/-- The column's sum of integer products. -/
def columnInt (red : Nat) (ps : List Int) : Int :=
  match ps with
  | [] => 0
  | p :: t => t.foldl (joinInt red) p

/-- The value written by clear with K = 0 (R126, R154), as an entry's bits. -/
def identityOf (red : Nat) (integer : Bool) : Nat :=
  match red with
  | 0 => 0
  | 1 => if integer then 2 ^ 31 - 1 else encodeInf fmtW36 false
  | _ => if integer then 2 ^ 31 else encodeInf fmtW36 true

/-- The bits of an entry for the sum of stream row `row` and tile column `col`. -/
def sumBits (op pw : Nat) (integer : Bool) (fmtS fmtT : Nat) (row rowSc col colSc : List Nat) (degraded : Bool) : Nat :=
  if integer then
    codeOf 32 (columnInt (redOf op) (((operandInts fmtS row).zip (operandInts fmtT col)).map fun (a, b) => prodInt op a b))
  else
    w36Code (columnFloat (redOf op) pw (productsFloat op (operandVals fmtS row rowSc degraded) (operandVals fmtT col colSc degraded)))

/-! ## Entries and exposures (R174 to R178, R186 to R189) -/

def AccEntry.fresh0 : AccEntry := ⟨0, 0, true, 0, 0, false, false, false⟩

def entryKey (row col : Nat) : Nat := row * 128 + col

def entryOf (a : ArrayState) (row col : Nat) : AccEntry := Map.getD a.acc (entryKey row col) AccEntry.fresh0

def setEntry (a : ArrayState) (row col : Nat) (e : AccEntry) : ArrayState := { a with acc := Map.put a.acc (entryKey row col) e }

/-- The residue modulo 31 of a W36 significand, or of an INT32 value (R175). -/
def residueOf (integer : Bool) (v : Nat) : Nat :=
  if integer then (signedOf 32 v % 31).toNat
  else (bits v 24 0 + if bits v 34 25 = 0 then 0 else 2 ^ 25) % 31

/-- The merge of a sum into an entry's value (R114, R159, R201). -/
def joinEntry (red : Nat) (integer : Bool) (old new : Nat) : Nat :=
  if integer then codeOf 32 (joinInt red (signedOf 32 old) (signedOf 32 new))
  else
    let e := joinFloat red (decodeFloat fmtW36 old) (decodeFloat fmtW36 new)
    if red = 0 then (roundExact fmtW36 .rne 0 e).code else w36Code e.x

/-- The pass whose sums merge: its ⊕, its K, clear, the bundle it came from, and whether it issued in the present window (R231). -/
structure PassMerge where
  red : Nat
  k : Nat
  clear : Bool
  integer : Bool
  bundle : Nat
  window : Bool
deriving DecidableEq, Repr

/-- A sum written into an entry in a schedule cycle (R139, R159, R178, R186) under the bindings in force when the pass started (R185);
the exposure ends when the tally reaches the binding's length, and the spill is then due in cycle `due` of the array (R187). -/
def mergeEntry (p : PassMerge) (bound : Map Binding) (a : ArrayState) (row col sum cycle : Nat) (due : Int) : ArrayState :=
  let e := entryOf a row col
  let new := p.clear || e.empty
  let v := if new then sum else joinEntry p.red p.integer e.value.toNat sum
  let tally := if new then p.k else e.tally + p.k
  let a := if p.window then { a with reached := insertNew a.reached (entryKey row col) } else a
  match Map.find bound row with
  | some b =>
    if p.k ≠ 0 && decide (b.exposure ≤ tally) then
      let sp : PendingSpill := ⟨row, col, BitVec.ofNat 36 v, BitVec.ofNat 2 p.red, tally, cycle, due, b, p.bundle⟩
      setEntry { a with spills := a.spills ++ [sp] } row col
        { e with value := 0, check := 0, empty := true, tally := 0, reduction := BitVec.ofNat 2 p.red }
    else
      setEntry a row col
        { e with value := BitVec.ofNat 36 v, check := BitVec.ofNat 5 (residueOf p.integer v), empty := false, tally := tally,
                 reduction := BitVec.ofNat 2 p.red }
  | none => a

/-- The cycle of the accumulator write of element (m, n) of a pass started at t (R136). -/
def writeCycle (t : Int) (m n interval kRows : Nat) : Int := t + m * interval + kRows + n + 7 + (interval - 1 : Nat)

/-- Rows and columns of a pass in row order (R138). -/
def passCells (m n : Nat) : List (Nat × Nat) := (List.range m).flatMap fun r => (List.range n).map fun c => (r, c)

/-- The reads of the stream rows of a pass that starts at t: row r in cycle e = t + r × I; with I = 2 the first half of its lines, rounded
up, in e and the rest in e + 1 (R128, R129, R136; log entry 142). -/
def passReads (p : Mpass) (k : Nat) (t : Int) : List LineRead :=
  let lines := lineCount p.fmt k
  (List.range p.m).flatMap fun r : Nat =>
    let e : Int := t + r * intervalOf p.fmt
    (List.range lines).map (fun j =>
        ⟨r * 64 + j, p.line + r * p.pitch + j, 0, 64, if intervalOf p.fmt = 2 && decide (divCeil lines 2 ≤ j) then e + 1 else e⟩)
      ++ scaleRead p.fmt p.scaleLine r k e

def PassRun.reads (r : PassRun) : List LineRead := passReads r.pass r.tile.k r.start

/-- The sum of element (r, c) of a pass, from the row and the column its ports have read (R126, R850). -/
def PassRun.sum (x : PassRun) (r c : Nat) : Nat :=
  let p := x.pass
  let t := x.tile
  if t.k = 0 then identityOf (redOf p.op) (isIntFmt p.fmt)
  else sumBits p.op (packOf p.fmt) (isIntFmt p.fmt) p.fmt t.fmt (gotElems x.got p.fmt r t.k) (gotScales x.got p.fmt r)
    (t.column c) (t.colScales c) t.degraded

/-- The pass merges into its entries: K above 0, or clear set (R126). -/
def Mpass.merges (p : Mpass) (t : Tile) : Bool := t.k ≠ 0 || p.clear

/-- The elements of a pass whose accumulator writes fall in cycle x (R136). -/
def PassRun.due (r : PassRun) (x : Int) : List (Nat × Nat) :=
  let p := r.pass
  if p.merges r.tile then
    (List.range p.m).filterMap fun m =>
      let n := x - writeCycle r.start m 0 (intervalOf p.fmt) r.tile.kRows
      if 0 ≤ n && n < r.tile.n then some (m, n.toNat) else none
  else []

/-- Element (m, n) of a pass merged (R136, R138). -/
def PassRun.mergeCell (r : PassRun) (window : Bool) (cycle : Nat) (x : Int) (sum : Nat) (a : ArrayState) (m n : Nat) : ArrayState :=
  let p := r.pass
  mergeEntry ⟨redOf p.op, r.tile.k, p.clear, isIntFmt p.fmt, r.bundle, window⟩ r.bound a (p.accRow + m) n sum cycle (x + 8)

/-- The merges of every pass of an array that fall in its present cycle, the schedule counter at `cycle`; `point` is the first
bundle of the window. -/
def mergeDue (a : ArrayState) (point cycle : Nat) : ArrayState :=
  a.passes.foldl (fun a r =>
    (r.due a.clock).foldl (fun a c => r.mergeCell (decide (point ≤ r.bundle)) cycle a.clock (r.sum c.1 c.2) a c.1 c.2) a) a

/-- The array once every pass in progress has completed and spilled, as far as which entries are empty goes (R229). -/
def ArrayState.settled (a : ArrayState) : ArrayState :=
  a.passes.foldl (fun a r =>
    let p := r.pass
    let left := (passCells p.m r.tile.n).filter fun c => decide (a.clock ≤ writeCycle r.start c.1 c.2 (intervalOf p.fmt) r.tile.kRows)
    if p.merges r.tile then left.foldl (fun a c => r.mergeCell false 0 0 0 a c.1 c.2) a else a) a

/-! ## The ports in one cycle (R135, R136, R859) -/

/-- The stream port reads the rows of a pass that are due. -/
def passPort (k a : Nat) (s : State) (r : PassRun) : State :=
  let st := arrayOf s k a
  let due := r.reads.filter fun x => x.cycle = st.clock
  let lines := due.map (·.line)
  if due = [] then s
  else
    let r' := { r with got := takeReads r.got (due.map (portRead st)), lf := faultsLeft r.lf lines }
    let st := armLines { st with passes := st.passes.map fun x => if x.bundle = r.bundle then r' else x } lines
    portEffects (setArray s k a st) k a r.bundle r.lf lines

/-- Per-array 8-bit counts of a core's register: field a. -/
def bumpQuad (s : State) (r : Reg) (k a n : Nat) : State := bump s ⟨r, 8 * a + 7, 8 * a⟩ (k / 24) (k % 24) n

/-- A parity check of a load that fails (R150, R151, R153): counted as a transient of the transit or the broadcast path; the third
failed broadcast load of a tile is a failure of the MLOAD. -/
def loadCheck (k a bundle : Nat) (s : State) (kind : Nat) : State :=
  let ch := arrChan k a
  match kind with
  | 0 => transient (bumpQuad s .arrTransitCount k a 1) kTransit ch 0
  | 1 => transient s kBroadcast ch 0
  | _ => detect (transient s kBroadcast ch 0) k ⟨8, bundle, counter s k, some (Fin.ofNat 4 a), false, false, none⟩

/-- The stationary port reads the lines of a load that are due, and the load's parity checks complete. -/
def loadPort (k a : Nat) (s : State) (l : LoadRun) : State :=
  let st := arrayOf s k a
  let due := (l.starts.flatMap fun e => tileReads (Mload.of l.word) e.1 e.2).filter fun x => x.cycle = st.clock
  let lines := due.map (·.line)
  let got := due.map (portRead st)
  let checks := l.checks.filter fun e => e.1 = st.clock
  if due = [] && checks = [] then s
  else
    let l' := { l with lf := faultsLeft l.lf lines }
    let st := armLines { (st.takeTile l.id got) with loads := st.loads.map fun x => if x.id = l.id then l' else x } lines
    let s := setArray s k a st
    let c := coreOf s k
    let s := setCore s k { c with point := c.point.map fun p => p.takeTile a l.id got }
    checks.foldl (fun s e => loadCheck k a l.bundle s e.2) (portEffects s k a l.bundle l.lf lines)

/-- Both ports of an array in its present cycle. -/
def arrayPorts (s : State) (k a : Nat) : State :=
  let st := arrayOf s k a
  st.loads.foldl (loadPort k a) (st.passes.foldl (passPort k a) s)

end Sys2Proof.Machine
end

