-- ==== Sys2Proof/Machine/Special.lean ====
section
/-! DEFINITION. The special functions (R216, R312 to R314): each is approximated to far more bits than any format keeps, and
then rounded correctly, or within the error bound the manual gives, where Config says which result of the bound is returned
(log entry 10). Reals are integers in units of 2^-512. -/

namespace Sys2Proof.Machine

/-- 1, ln 2 and π in units of 2^-512. -/
def fixOne : Int := 2 ^ 512
def fixLn2 : Int :=
  0xb17217f7d1cf79abc9e3b39803f2f6af40f343267298b62d8a0d175b8baafa2be7b876206debac98559552fb4afa1b10ed2eae35c138214427573b291169b825
def fixPi : Int :=
  0x3243f6a8885a308d313198a2e03707344a4093822299f31d0082efa98ec4e6c89452821e638d01377be5466cf34e90c6cc0ac29b7c97c50dd3f84d5b5b5470917

def fixMul (a b : Int) : Int := a * b / fixOne
def fixDiv (a b : Int) : Int := a * fixOne / b

/-- A finite value in units of 2^-512, kept inside ±`limit` whole units. -/
def toFix (limit : Nat) (neg : Bool) (m : Nat) (e : Int) : Int :=
  let big := decide (Int.ofNat limit.log2 + 1 < topExp m e) && m ≠ 0
  let v : Int := if big then Int.ofNat limit * fixOne
    else if -512 ≤ e then Int.ofNat (m * 2 ^ (e + 512).toNat) else Int.ofNat (m / 2 ^ (-(e + 512)).toNat)
  if neg then -v else v

/-- A real: ± m × 2^e, and whether that is exact. -/
structure Approx where
  neg : Bool
  m : Nat
  e : Int
  exact : Bool
deriving DecidableEq, Repr

def Approx.ofFix (v k : Int) (exact : Bool) : Approx := ⟨decide (v < 0), v.natAbs, k - 512, exact⟩

/-- Σ x^n / n! from the term x^n / n!. -/
def expSum (x : Int) : Nat → Nat → Int → Int → Int
  | 0, _, _, acc => acc
  | fuel + 1, n, term, acc => expSum x fuel (n + 1) (fixMul term x / Int.ofNat (n + 1)) (acc + term)

/-- e^x = v × 2^k, with v in units of 2^-512. -/
def expFix (x : Int) : Int × Int :=
  let k := x / fixLn2
  (expSum (x - k * fixLn2) 120 0 fixOne 0, k)

/-- e^x for x ≤ 0 in units of 2^-512. -/
def expSmall (x : Int) : Int :=
  let (v, k) := expFix x
  if 0 ≤ k then v * 2 ^ k.toNat else v / 2 ^ (-k).toNat

/-- Σ z^(2n+1) / (2n+1). -/
def atanhSum (z2 : Int) : Nat → Nat → Int → Int → Int
  | 0, _, _, acc => acc
  | fuel + 1, n, term, acc => atanhSum z2 fuel (n + 1) (fixMul term z2) (acc + term / Int.ofNat (2 * n + 1))

/-- ln x and log2 x of m × 2^e, m above 0: the logarithm of the significand in [1, 2), and the exponent. -/
def lnParts (m : Nat) (e : Int) : Int × Int :=
  let l := m.log2
  let p : Int := 2 ^ l
  let z := (Int.ofNat m - p) * fixOne / (Int.ofNat m + p)
  (2 * atanhSum (fixMul z z) 180 0 z 0, Int.ofNat l + e)

/-- Σ (−1)^n x^(2n+s) / (2n+s)! from the term x^s: the sine for s = 1, the cosine for s = 0. -/
def trigSum (x2 : Int) : Nat → Nat → Int → Int → Int
  | 0, _, _, acc => acc
  | fuel + 1, d, term, acc => trigSum x2 fuel (d + 2) (-(fixMul term x2) / Int.ofNat ((d + 1) * (d + 2))) (acc + term)

def sinFix (r : Int) : Int := trigSum (fixMul r r) 80 1 r 0
def cosFix (r : Int) : Int := trigSum (fixMul r r) 80 0 fixOne 0

/-- sin x or cos x: x reduced by multiples of π/2. -/
def trigOf (cosine : Bool) (x : Int) : Int :=
  let hp := fixPi / 2
  let q := (x + hp / 2) / hp
  let r := x - q * hp
  match ((q + if cosine then 1 else 0) % 4).toNat with
  | 0 => sinFix r
  | 1 => cosFix r
  | 2 => -sinFix r
  | _ => -cosFix r

/-- Σ (−1)^n x^(2n+1) / (n! (2n+1)). -/
def erfSum (x2 : Int) : Nat → Nat → Int → Int → Int
  | 0, _, _, acc => acc
  | fuel + 1, n, term, acc =>
    erfSum x2 fuel (n + 1) (-(fixMul term x2) / Int.ofNat (n + 1)) (acc + term / Int.ofNat (2 * n + 1))

/-- 2 / √π. -/
def twoOverSqrtPi : Int := fixDiv (2 * fixOne) (Int.ofNat (isqrt (fixPi * fixOne).toNat))

/-- The value of special function `op` at a finite binary32 input, where the manual's table gives no special result. -/
def sfuReal (op : Nat) (neg : Bool) (m : Nat) (e : Int) : Approx :=
  let zero := m = 0
  match op with
  | 1 =>
    let y := toFix 1024 neg m e
    let k := y / fixOne
    let f := y - k * fixOne
    Approx.ofFix (expSum (fixMul f fixLn2) 120 0 fixOne 0) k (f = 0 && decide (-512 ≤ e ∨ zero))
  | 2 =>
    let (v, k) := expFix (toFix 1024 neg m e)
    Approx.ofFix v k zero
  | 3 =>
    let (v, k) := lnParts m e
    Approx.ofFix (k * fixOne + fixDiv v fixLn2) 0 (m = 2 ^ m.log2)
  | 4 =>
    let (v, k) := lnParts m e
    Approx.ofFix (k * fixLn2 + v) 0 (m = 2 ^ m.log2 && decide (Int.ofNat m.log2 + e = 0))
  | 6 =>
    let m' := if e % 2 = 0 then m else 2 * m
    let e' := if e % 2 = 0 then e else e - 1
    let r := isqrt (2 ^ 512 / m')
    ⟨false, r, -256 - e' / 2, r * r * m' = 2 ^ 512⟩
  | 7 =>
    let t := expSmall (-2 * toFix 64 false m e)
    let v := fixDiv (fixOne - t) (fixOne + t)
    Approx.ofFix (if neg then -v else v) 0 zero
  | 8 =>
    let t := expSmall (-(toFix 256 false m e))
    Approx.ofFix (if neg then fixDiv t (fixOne + t) else fixDiv fixOne (fixOne + t)) 0 zero
  | 9 => Approx.ofFix (trigOf false (toFix (2 ^ 130) neg m e)) 0 zero
  | 10 => Approx.ofFix (trigOf true (toFix (2 ^ 130) neg m e)) 0 zero
  | _ =>
    if 2 < topExp m e && !zero then ⟨neg, 2 ^ 200 - 1, -200, false⟩
    else
      let x := toFix 8 neg m e
      Approx.ofFix (fixMul twoOverSqrtPi (erfSum (fixMul x x) 320 0 x 0)) 0 zero

/-- The error bound of R312 in ulp; 0 for a correctly rounded function. -/
def sfuUlps (op : Nat) : Nat :=
  match op with
  | 1 | 5 => 0
  | 2 | 3 | 4 | 6 => 1
  | _ => 2

/-- A real returned in a format within u ulp of it: rounded to nearest for u = 0, otherwise one of the values of the bound,
named by `choice`. Overflow gives an infinity (R313). -/
def within (f : FloatFmt) (u choice : Nat) (a : Approx) : Rounded :=
  if u = 0 then roundFinite f .rne false 0 a.neg a.m a.e (!a.exact)
  else
    let qFree := topExp a.m a.e - (Int.ofNat f.p - 1)
    let q := if qFree < f.qmin || a.m = 0 then f.qmin else qFree
    let (n, rem, _) := inUnits a.m a.e q
    let ex := rem = 0 && a.exact
    let lowest : Int := Int.ofNat n - if ex then u else u - 1
    let c := lowest + Int.ofNat (choice % (if ex then 2 * u + 1 else 2 * u))
    let neg := if c = 0 && a.m = 0 then bitOf choice 8 else a.neg != decide (c < 0)
    let r := roundFinite f .rne false 0 neg c.natAbs q false
    let inexact := !ex || c ≠ Int.ofNat n
    let tiny := magLt c.natAbs q (2 ^ (f.p - 1)) f.qmin
    ⟨r.code, ⟨false, false, r.exc.overflow, inexact && tiny, inexact || r.exc.overflow⟩⟩

/-- The exception of a pole (R312). -/
def divZeroExc : Exc := ⟨false, true, false, false, false⟩

def one32 (neg : Bool) : Nat := if neg then 0xBF80_0000 else 0x3F80_0000
def inf32 (neg : Bool) : Nat := encodeInf fmtB32 neg
def zero32 (neg : Bool) : Nat := if neg then 0x8000_0000 else 0

/-- The invalid result: the canonical NaN. -/
def invalid32 : Rounded := ⟨fmtB32.nanCode, Exc.nv⟩

/-- Special function `op` of a binary32 value; `code` is its binary32 code (R312 to R314). -/
def sfu32 (op : Nat) (x : Num) (code : Nat) : Rounded :=
  match x with
  | .nan sg => ⟨fmtB32.nanCode, if sg then Exc.nv else Exc.none⟩
  | .inf neg =>
    match op with
    | 1 | 2 => ⟨if neg then 0 else inf32 false, Exc.none⟩
    | 3 | 4 => if neg then invalid32 else ⟨inf32 false, Exc.none⟩
    | 5 => ⟨zero32 neg, Exc.none⟩
    | 6 => if neg then invalid32 else ⟨0, Exc.none⟩
    | 8 => ⟨if neg then 0 else one32 false, Exc.none⟩
    | 9 | 10 => invalid32
    | _ => ⟨one32 neg, Exc.none⟩
  | .fin neg m e =>
    if m = 0 && (op = 3 || op = 4) then ⟨inf32 true, divZeroExc⟩
    else if m = 0 && op = 6 then ⟨inf32 neg, divZeroExc⟩
    else if neg && m ≠ 0 && (op = 3 || op = 4 || op = 6) then invalid32
    else if op = 5 then roundExact fmtB32 .rne 0 (opDiv (natNum 1) x)
    else within fmtB32 (sfuUlps op) (Config.sfuChoice op code) (sfuReal op neg m e)

/-- exp2 of a binary32 value, correctly rounded (R216). -/
def exp2Of (x : Num) : Num := decodeFloat fmtB32 (sfu32 1 x 0).code

end Sys2Proof.Machine
end

