-- ==== Sys2Proof/Machine/AccOps.lean ====
section
/-! DEFINITION. Operations of the accumulation path: plate entries, spills (R184 to R194, R202, R203, R227, R230, R233), and
the drain's rows, status record and row statistics (R206 to R222). -/

namespace Sys2Proof.Machine

/-! ## Plate entries (R188, R193) -/

/-- A plate entry: its 64-bit value, count and lapse bit, the ⊕ of the last merge, and the tag. -/
structure PlateEntry where
  value : Nat
  count : Nat
  lapse : Bool
  reduction : Nat
  tag : Nat
deriving DecidableEq, Repr

def PlateEntry.ofBytes (b : Bytes) : PlateEntry :=
  let w := leAt b 0 16
  ⟨bits w 63 0, bits w 95 64, bitOf w 124, bits w 126 125, bits w 123 96⟩

def PlateEntry.toBytes (p : PlateEntry) (integer : Bool) : Bytes :=
  leBytes 8 p.value ++ leBytes 4 p.count
    ++ leBytes 4 (p.tag % 2 ^ 28 + flagBit p.lapse * 2 ^ 28 + p.reduction % 4 * 2 ^ 29 + flagBit integer * 2 ^ 31)

/-- The tag of a schedule cycle (R189). -/
def tagOf (cycle : Nat) : Nat := cycle % 2 ^ 28

/-- A stored tag is at or after a tag (R233). -/
def tagAtOrAfter (stored tag : Nat) : Bool := decide ((stored + 2 ^ 28 - tag % 2 ^ 28) % 2 ^ 28 < 2 ^ 27)

/-- Device address of the plate entry of an accumulator entry (R184). -/
def plateAddr (k : Nat) (b : Binding) (row col : Nat) : Nat := coreBase k + b.plate + ((row - b.accRow) * b.cols + col) * 16

/-- An integer kept in the range of an n-bit one, and whether it left it. -/
def satInt (n : Nat) (i : Int) : Int × Bool :=
  let hi : Int := 2 ^ (n - 1) - 1
  let lo : Int := -(2 ^ (n - 1))
  if hi < i then (hi, true) else if i < lo then (lo, true) else (i, false)

/-- An accumulator value as a plate value: converted exactly (R188). -/
def plateValue (integer : Bool) (v : Nat) : Nat :=
  if integer then codeOf 64 (signedOf 32 v) else code64 (decodeFloat fmtW36 v)

/-- ⊕ of two plate values: one rounding in binary64, or saturating addition in INT64, or a selection (R188, R197, R202). -/
def joinPlate (red : Nat) (integer : Bool) (a b : Nat) : Nat × Bool :=
  if integer then
    let (v, sat) := satInt 64 (joinInt red (signedOf 64 a) (signedOf 64 b))
    (codeOf 64 v, sat)
  else ((roundExact fmtB64 .rne 0 (joinFloat red (num64 a) (num64 b))).code, false)

/-- An entry's value merged into its plate entry. An entry of all zero bytes is empty, as a fresh one is (R188, R193, R194,
R202, R203). -/
def foldPlate (p : PlateEntry) (fresh zero integer : Bool) (red value tally tag : Nat) : PlateEntry :=
  if fresh || zero then ⟨plateValue integer value, tally, false, red, tag⟩
  else
    let (v, sat) := joinPlate red integer p.value (plateValue integer value)
    let full := decide (2 ^ 32 ≤ p.count + tally)
    ⟨v, if full then 2 ^ 32 - 1 else p.count + tally, p.lapse || sat || (full && !integer), red, tag⟩

/-- A write to a plate entry hits no guard (R277). -/
def plateWrite (s : State) (addr : Nat) (data : Bytes) : State := storeBytes s MemFaults.none addr data fun _ => true

/-- A command of a schedule cycle belongs to the re-execution after a replay (R233, R282). -/
def redoing (c : CoreState) (cycle : Nat) : Bool :=
  match c.point with
  | some p => p.redo.any fun f => decide (cycle ≤ f)
  | none => false

/-- The first bundle of the present window. -/
def windowStart (c : CoreState) : Nat := match c.point with | some p => p.bundle | none => 0

def spillReg (a : Nat) : Fld := match a with
  | 0 => F.accSpillA0_spills | 1 => F.accSpillA1_spills | 2 => F.accSpillA2_spills | _ => F.accSpillA3_spills

/-- A spill whose plate row reads well (R188, R189, R230, R233, R237); those of passes issued before the replay point are never
re-executed. -/
def landSpill (s : State) (k a : Nat) (sp : PendingSpill) : State :=
  let addr := plateAddr k sp.binding sp.row sp.col
  let old := memBytes s addr 16
  let p := PlateEntry.ofBytes old
  let st := arrayOf s k a
  let e := entryOf st sp.row sp.col
  let tag := tagOf sp.cycle
  if redoing (coreOf s k) sp.cycle && decide (windowStart (coreOf s k) ≤ sp.bundle) && e.landed && tagAtOrAfter p.tag tag then
    setArray s k a (setEntry st sp.row sp.col { e with fresh := false })
  else
    let new := foldPlate p e.fresh (leNat old = 0) sp.binding.integer sp.reduction.toNat sp.value.toNat sp.tally tag
    let s := setArray s k a (setEntry st sp.row sp.col { e with fresh := false, landed := true })
    bump (plateWrite s addr (new.toBytes sp.binding.integer)) (spillReg a) (k / 24) (k % 24) 1

/-! ## Checked reads of an engine (R227, R277, R327, R362, R365) -/

/-- The slip cycles of a row that is read again. -/
def rereadDelay (er : EngineRun) (row : Nat) : Nat := ((er.delays.find? fun e => e.1 = row).map (·.2)).getD 0

/-- The checks of a range that an engine of the core has read: re-reads and failures counted, and the core frozen for the delay of
each row that is read again, the one that fails its re-read included. -/
def checkRead (s : State) (k : Nat) (er : EngineRun) (f : Nat → FreezeCond) (base len : Nat) : State :=
  let rows := (((againOf er.mf).filter fun a => decide (base ≤ a) && decide (a < base + len)).map rowBase)
    ++ (failRow s er.mf base len).toList
  rows.foldl (fun s r => slipFor s k (rereadDelay er r) f) (readEffects s er.mf base len)

/-- A range read by a command of a bundle: guards are armed, and the read is checked. -/
def engineRead (s : State) (k bundle : Nat) (er : EngineRun) (f : Nat → FreezeCond) (base len : Nat) : State :=
  checkRead (armGuards s k bundle base len) k er f base len

/-- What is left for later reads once a range has been read: a row is read again once. -/
def readLeft (er : EngineRun) (base len : Nat) : EngineRun :=
  let left := fun l : List Nat => l.filter fun a => !(decide (base ≤ a) && decide (a < base + len))
  { er with mf := { er.mf with rereads := left er.mf.rereads, corrected := left er.mf.corrected, uncorrected := left er.mf.uncorrected } }

/-- The slip cycles by which the inputs of a group are late (R362). -/
def lateBy (er : EngineRun) (g : Nat) : Nat := ((er.late.find? fun e => e.1 = g).map (·.2)).getD 0

/-- The first failed row of some ranges. -/
def rangesBad (s : State) (mf : MemFaults) (rs : List (Nat × Nat)) : Option Nat := (rs.filterMap fun r => failRow s mf r.1 r.2).head?

/-! ## Spills (R187 to R191) -/

/-- A failed plate row, or a row of the running sum of a chain, in the present cycle (R227, R273 row 5; log entry 113). -/
def plateFailure (s : State) (k bundle a row : Nat) : Failure :=
  ⟨5, bundle, counter s k, some (Fin.ofNat 4 a), s.poison.contains row, false, some row⟩

/-- A spill takes effect (R187); a plate row that fails its re-read is a failure of the pass (R227, R273). -/
def spillOne (s : State) (k a : Nat) (er : EngineRun) (sp : PendingSpill) : State :=
  let addr := plateAddr k sp.binding sp.row sp.col
  let bad := failRow s er.mf addr 16
  let s := engineRead s k sp.bundle er .plateReread addr 16
  match bad with
  | some r => detect s k (plateFailure s k sp.bundle a r)
  | none => landSpill s k a sp

/-- The first of the spills with the lowest cycle (R191). -/
def firstSpill (l : List PendingSpill) : Option PendingSpill :=
  l.foldl (fun m p => match m with | none => some p | some q => if p.cycle < q.cycle then some p else some q) none

/-- The pending spills of every array of a core into a range of plate bytes, caused before an access that array `own` makes in a
schedule cycle: by a write of an earlier schedule cycle, or in array `own` by one that came earlier while the counter was held (R191,
R852). -/
def spillsInto (s : State) (k : Nat) (own : Option Nat) (base len before : Nat) : List (Nat × PendingSpill) :=
  (coreOf s k).arrays.flatMap fun e =>
    (e.2.spills.filter fun p =>
      (decide (p.cycle < before) || (own = some e.1 && p.cycle = before && decide (p.due < e.2.clock + 8)))
        && overlaps base len (plateAddr k p.binding p.row p.col) 16).map fun p => (e.1, p)

/-- The earliest of them. -/
def earliestSpill (l : List (Nat × PendingSpill)) : Option (Nat × PendingSpill) :=
  l.foldl (fun m p => match m with | none => some p | some q => if p.2.cycle < q.2.cycle then some p else some q) none

/-- Spills into a range of plate bytes take effect in the order of their cycles, whichever array they come from, at most `fuel` of
them (R191). -/
def landInto (k : Nat) (own : Option Nat) (base len before : Nat) (er : EngineRun) : Nat → State → State
  | 0, s => s
  | fuel + 1, s =>
    match earliestSpill (spillsInto s k own base len before) with
    | none => s
    | some (a, p) =>
      let st := arrayOf s k a
      landInto k own base len before er fuel (spillOne (setArray s k a { st with spills := st.spills.erase p }) k a er p)

/-- The number of pending spills of a core. -/
def spillCount (c : CoreState) : Nat := c.arrays.foldl (fun n e => n + e.2.spills.length) 0

/-! ## The drain (R206 to R222) -/

/-- The kind code of a value (R115). -/
def kindOf (x : Num) : Nat :=
  match x with
  | .nan _ => 1
  | .inf neg => if neg then 3 else 2
  | .fin _ _ _ => 0

/-- One drained entry: its plate entry after the drain, whether an entry value was merged, and whether the write-back is
dropped (R206, R207, R233). -/
structure DrainCell where
  plate : PlateEntry
  merged : Bool
  dropped : Bool
deriving DecidableEq, Repr

/-- A fresh plate entry whose accumulator entry is empty, and a plate entry of zero bytes, are written back as an empty one: ⊕ and the
lapse bit 0 (R193, R207; log entry 143). Any other plate entry of an empty accumulator entry takes that entry's ⊕: the one read is
ignored (R193). -/
def drainCell (e : AccEntry) (old : Bytes) (integer redo : Bool) (tag : Nat) : DrainCell :=
  let p := PlateEntry.ofBytes old
  if redo && e.landed && tagAtOrAfter p.tag tag then ⟨p, false, true⟩
  else if !e.empty then ⟨foldPlate p e.fresh (leNat old = 0) integer e.reduction.toNat e.value.toNat e.tally tag, true, false⟩
  else if e.fresh || leNat old = 0 then ⟨⟨0, 0, false, 0, tag⟩, false, false⟩
  else ⟨{ p with tag := tag, reduction := e.reduction.toNat }, false, false⟩

/-- The value a drain outputs for an entry and whether it counts as a lapse: the plate value, joined to the running sum of a
chain (R220, R221). -/
def drainValue (integer : Bool) (v : Nat) (running : Option Nat) : Nat × Bool :=
  match running with
  | none => (v, false)
  | some r => joinPlate 0 integer r v

/-- The float format of a code of R305. -/
def floatFmtOf (f : Nat) : FloatFmt :=
  match f with
  | 1 => fmtB64 | 2 => fmtB32 | 3 => fmtB16 | _ => fmtNf16

/-- The output code of a drained value, and whether an INT32 output saturated (R208, R209). A value that overflows out_fmt under RTZ, RUP or
RDN becomes what R208 has it rounded to, also where that is the largest finite value and not the infinity of R115 (log entry 130). -/
def drainOut (d : Drain) (integer : Bool) (v : Nat) : Nat × Bool :=
  if integer then
    if d.outFmt = 0xD then let (i, sat) := satInt 32 (signedOf 64 v); (codeOf 32 i, sat) else (v, false)
  else ((roundNum (floatFmtOf d.outFmt) (Rnd.of d.rnd) 0 (num64 v)).code, false)

/-- A value rounded to binary32 with RNE. -/
def r32 (x : Num) : Num := decodeFloat fmtB32 (roundNum fmtB32 .rne 0 x).code
def b32 (e : Exact) : Num := decodeFloat fmtB32 (roundExact fmtB32 .rne 0 e).code

/-- The row maximum and the sum of exponentials of a row of binary32 values (R216, R217). -/
def rowStats (c : Num) (xs : List Num) : Num × Num :=
  if xs.any Num.isNan then (.nan false, .nan false)
  else if xs.contains (.inf false) then (.inf false, .nan false)
  else
    let mx := xs.foldl (fun m x => (opMax m x).x) (.inf true)
    if mx = .inf true then (mx, .fin false 0 0)
    else
      let term := fun x => if x = .inf true then Num.fin false 0 0 else exp2Of (b32 (opMul c (b32 (opSub .rne x mx))))
      (mx, xs.foldl (fun s x => b32 (opAdd .rne s (term x))) (.fin false 0 0))

/-- One row of a drain: its outputs by column, the plate entries to write back, and the statistics it adds. -/
structure DrainRow where
  out : List Nat
  cells : List DrainCell
  sum : DrainSum
deriving DecidableEq, Repr

/-- Row i of a drain from its plate bytes and running sum (R206 to R212, R220). -/
def drainRow (d : Drain) (a : ArrayState) (integer redo : Bool) (tag i : Nat) (plate running : Bytes) (sum : DrainSum) : DrainRow :=
  (List.range d.n).foldl (fun r col =>
    let cell := drainCell (entryOf a (d.accRow + i) col) ((plate.drop (16 * col)).take 16) integer redo tag
    let (v, sat1) := drainValue integer cell.plate.value (if d.chain then some (leAt running (8 * col) 8) else none)
    let (o, sat2) := drainOut d integer v
    let kind := if integer then 0 else kindOf (decodeFloat (floatFmtOf d.outFmt) o)
    let first := r.sum.kind = 0 && kind ≠ 0
    let lapsed := r.sum.lapsed + flagBit cell.plate.lapse + flagBit sat1 + flagBit sat2
    ⟨r.out ++ [o], r.cells ++ [cell],
      ⟨if first then kind else r.sum.kind, if first then i else r.sum.row, if first then col else r.sum.col, lapsed,
       max r.sum.maxCount cell.plate.count, r.sum.special⟩⟩) ⟨[], [], sum⟩

/-- The plate row after the drain: dropped write-backs leave their bytes (R206, R233). -/
def drainPlate (plate : Bytes) (cells : List DrainCell) (integer : Bool) : Bytes :=
  cells.zipIdx.flatMap fun (c, i) => if c.dropped then (plate.drop (16 * i)).take 16 else c.plate.toBytes integer

/-- The drained entries: empty, with tally 0 and fresh 0 (R206); a write-back that takes effect sets landed (R230). -/
def drainEntries (d : Drain) (window : Bool) (a : ArrayState) (i : Nat) (cells : List DrainCell) : ArrayState :=
  cells.zipIdx.foldl (fun a (c, col) =>
    let e := entryOf a (d.accRow + i) col
    let a := if window then { a with reached := insertNew a.reached (entryKey (d.accRow + i) col) } else a
    setEntry a (d.accRow + i) col { e with value := 0, check := 0, empty := true, tally := 0, fresh := false, landed := e.landed || !c.dropped }) a

/-- The writes that leave a drained row: its outputs and, with stats, its statistics (R210, R216, R219). -/
def drainWrites (k : Nat) (d : Drain) (i : Nat) (out : List Nat) : List (Nat × Bytes) × Bool :=
  let o := (coreBase k + d.dst + i * d.pitch, out.flatMap fun x => leBytes d.width x)
  if d.stats then
    let (mx, t) := rowStats (decodeFloat fmtB32 d.c) (out.map fun x => r32 (decodeFloat (floatFmtOf d.outFmt) x))
    let code := fun x => leBytes 4 (roundNum fmtB32 .rne 0 x).code
    ([o, (coreBase k + d.aux + 64 + 8 * i, code mx ++ code t)], mx.nonfinite || t.nonfinite)
  else ([o], false)

/-- Row i drained: the plate row written back, the entries emptied, the outputs held for the next cycle (R205, R206, R220). -/
def drainOne (s : State) (k a : Nat) (r : DrainRun) (i : Nat) : State :=
  let d := Drain.of r.word
  let at_ := coreBase k + d.dst + i * d.pitch
  let plateAt := plateAddr k r.binding (d.accRow + i) 0
  let plate := memBytes s plateAt (16 * d.n)
  let running := if d.chain then memBytes s at_ (8 * d.n) else []
  let st := arrayOf s k a
  let o := drainRow d st r.binding.integer r.redo r.tag i plate running r.sum
  let (ws, special) := drainWrites k d i o.out
  let r' := { r with sum := { o.sum with special := o.sum.special || special }, out := ws }
  let window := match (coreOf s k).point with | some p => decide (p.bundle ≤ r.bundle) | none => false
  let st := drainEntries d window st i o.cells
  let s := setArray s k a { st with drains := st.drains.map fun x => if x.bundle = r.bundle then r' else x }
  let s := bump s (spillReg a) (k / 24) (k % 24) (o.cells.filter (·.merged)).length
  plateWrite s plateAt (drainPlate plate o.cells r.binding.integer)

/-- A drain reads row i in cycle q + i (R205): pending spills of the row's plate entries take effect first (R191); a row that fails
its re-read is a failure of the DRAIN (R227, R273). -/
def drainRead (k a : Nat) (s : State) (r : DrainRun) : State :=
  let d := Drain.of r.word
  let i := (arrayOf s k a).clock - r.start
  if i < 0 || (d.m : Int) ≤ i then s
  else
    let i := i.toNat
    let plateAt := plateAddr k r.binding (d.accRow + i) 0
    let n := (coreOf s k).detected.length
    let s := landInto k (some a) plateAt (16 * d.n) (counter s k) r.er (spillCount (coreOf s k)) s
    if n < (coreOf s k).detected.length then s
    else
      let ranges := (plateAt, 16 * d.n) :: (if d.chain then [(coreBase k + d.dst + i * d.pitch, 8 * d.n)] else [])
      let bad := rangesBad s r.er.mf ranges
      let s := ranges.foldl (fun s x => engineRead s k r.bundle r.er .plateReread x.1 x.2) s
      match bad with
      | some row => detect s k (plateFailure s k r.bundle a row)
      | none => drainOne s k a { r with er := ranges.foldl (fun e x => readLeft e x.1 x.2) r.er } i

/-- The flags of a drain (R213, R214). -/
def DrainSum.flags (r : DrainSum) (redo : Bool) : Nat :=
  (if r.kind ≠ 0 then flagNonfinite else 0) + (if r.lapsed ≠ 0 then flagBoundLapsed else 0) + (if redo then flagRecomputed else 0)

/-- Bytes 2 to 15 of the status record (R213). -/
def DrainSum.body (r : DrainSum) : Nat :=
  pb 0 1 (r.kind + 4 * flagBit r.special) + pb 2 2 r.row + pb 4 2 r.col + pb 6 4 r.lapsed + pb 10 4 r.maxCount

/-- The end of a drain: its status record, its counts, its flags and its ephemeris record (R213 to R215, R236). -/
def drainEnd (s : State) (k a : Nat) (r : DrainRun) : State :=
  let d := Drain.of r.word
  let fl := r.sum.flags r.redo
  let s := landWrite s r.er.mf (coreBase k + d.aux) (leBytes 2 fl ++ leBytes 14 r.sum.body) fun _ => true
  let s := if r.sum.kind ≠ 0 then flagCore (bumpQuad s .accNonfiniteCount k a 1) k flagNonfinite else s
  let s := if r.sum.lapsed ≠ 0 then flagCore (bumpQuad s .accLapseCount k a 1) k flagBoundLapsed else s
  if r.sum.kind ≠ 0 || r.sum.lapsed ≠ 0 then emit s (k / 24) 0x12 fl Blk.acc.num (k % 24 * 4 + a) r.sum.body else s

/-- A drain as its array enters a cycle: the row read in the cycle before is written out, and in cycle q + m the drain is complete
with its status record (R205, R213). -/
def drainEnter (k a : Nat) (s : State) (r : DrainRun) : State :=
  let d := Drain.of r.word
  let s := r.out.foldl (fun s w => landWrite s r.er.mf w.1 w.2 fun _ => true) s
  let st := arrayOf s k a
  if r.start + d.m ≤ st.clock then
    drainEnd (setArray s k a { st with drains := st.drains.filter fun x => x.bundle ≠ r.bundle }) k a r
  else setArray s k a { st with drains := st.drains.map fun x => if x.bundle = r.bundle then { x with out := [] } else x }

/-! ## The reads of a FEED (R120, R131, R132, R273, R277) -/

/-- The lines of a FEED from row i on, read one row after another, until a row fails its re-read: the lines read, the first
failed row of memory, and the effects. -/
def feedRows (f : Feed) (mf : MemFaults) : Nat → Nat → State → List (Nat × Bytes) → List (Nat × Bytes) × Option Nat × State
  | 0, _, s, acc => (acc, none, s)
  | fuel + 1, i, s, acc =>
    let base := f.src + i * (f.srcPitch * 64)
    let len := f.rowLines * 64
    let bad := failRow s mf base len
    let (data, s) := memRead (readEffects s mf base len) .engine base len
    let lines := (List.range f.rowLines).map fun j => (f.line + i * f.dstPitch + j, (data.drop (64 * j)).take 64)
    match bad with
    | some r => (acc, some r, s)
    | none => feedRows f mf fuel (i + 1) s (acc ++ lines)

/-- The reads of a FEED. -/
def feedRead (s : State) (f : Feed) (mf : MemFaults) : List (Nat × Bytes) × Option Nat × State := feedRows f mf f.rows 0 s []

/-- Guards armed by the reads of a FEED of a bundle (R277). -/
def feedArms (s : State) (k bundle : Nat) (f : Feed) : State :=
  (List.range f.rows).foldl (fun s i => armGuards s k bundle (f.src + i * (f.srcPitch * 64)) (f.rowLines * 64)) s

/-- A FEED's bytes reach the operand buffer. -/
def feedLand (s : State) (k a : Nat) (lines : List (Nat × Bytes)) : State :=
  setArray s k a (lines.foldl (fun st (l, b) => bufWrite st l b) (arrayOf s k a))

/-- A FEED's source row that fails its re-read (R273 row 6). -/
def feedFailure (s : State) (a bundle cycle row : Nat) : Failure :=
  ⟨6, bundle, cycle, some (Fin.ofNat 4 a), s.poison.contains row, false, some row⟩

/-! ## One cycle of an array (R136, R205, R263) -/

/-- A re-executed pass of the window that begins at bundle `point` merges in the present cycle into an entry with open set (R232). -/
def ArrayState.mergesOpen (a : ArrayState) (point : Nat) : Bool :=
  a.passes.any fun r => r.redo && decide (point ≤ r.bundle) && (r.due a.clock).any fun c =>
    (Map.getD a.acc (entryKey (r.pass.accRow + c.1) c.2) AccEntry.fresh0).opened

/-- The work of an array in its present cycle: sums reach their entries, drains read their rows, and the ports read their lines.
The drains of the bundles in `bad` do nothing: their checks have failed (R226, R281). A re-executed pass that would merge into an open
entry loses the replay (R232). -/
def arrayWork (bad : List Nat) (s : State) (k a : Nat) : State :=
  if (arrayOf s k a).mergesOpen (windowStart (coreOf s k)) then endStream s k stReplayLost
  else
  let s := setArray s k a { mergeDue (arrayOf s k a) (windowStart (coreOf s k)) (counter s k) with worked := true }
  let s := ((arrayOf s k a).drains.filter fun r => !bad.contains r.bundle).foldl (drainRead k a) s
  arrayPorts s k a

/-- An array enters its next cycle: passes and loads that are complete leave it, drained rows are written out. -/
def arrayEnter (s : State) (k a : Nat) : State :=
  let st := arrayOf s k a
  let x := st.clock + 1
  let st := { st with
    clock := x, worked := false, passes := st.passes.filter fun p => decide (x < p.complete)
    loads := st.loads.filter fun l => decide (x < l.done) }
  st.drains.foldl (drainEnter k a) (setArray s k a st)

end Sys2Proof.Machine
end

