-- ==== Sys2Proof/Machine/VecOps.lean ====
section
/-! DEFINITION. Operations of the vector engine: rates and latencies (R298, R321, R324), the start rule (R325), and what each
class computes from the bytes of core memory (R304 to R320). -/

namespace Sys2Proof.Machine

/-! ## Rates, busy cycles and latencies (R298, R321) -/

/-- Elements per cycle r, busy cycles B and latency λ of an instruction. -/
structure VecTime where
  rate : Nat
  busy : Nat
  latency : Nat
deriving DecidableEq, Repr

/-- Elements per cycle for a width in bits: 256 for 64, 512 for 32, 1,024 for 16 or fewer. -/
def widthRate (bits : Nat) : Nat := if bits = 64 then 256 else if bits = 32 then 512 else 1024

/-- The busy cycles of IROOT (R321); q is 3 for p = 2 and 4 for p = 4. -/
def irootBusy (n iters q : Nat) : Nat :=
  let e := divCeil (n * n) 512
  iters * (q * (n * e) + 3 * e) + 4 * e + 32

def vecTime (w : Nat) : VecTime :=
  let v := Vec.of w
  let on := fun rate latency => VecTime.mk rate (divCeil v.count rate) latency
  match v.cls with
  | 1 => if v.op = 5 || v.op = 6 then on (widthRate (elemBits v.fmt) / 4) 24 else on (widthRate (elemBits v.fmt)) 10
  | 2 => on (widthRate (max (elemBits v.cvtSrc) (elemBits v.cvtDst))) 10
  | 3 => on 256 20
  | 4 => on (widthRate (elemBits v.fmt)) (if v.op ≤ 4 then 16 else 10)
  | 5 => ⟨1, 1, if v.op = 2 then 10 else if v.op = 3 then 2 else 0⟩
  | _ => let i := Iroot.of w; ⟨512, irootBusy i.n i.iters (if i.op = 2 then 3 else 4), 0⟩

/-- An instruction that does nothing (R303). -/
def vecIdle (w : Nat) : Bool :=
  let v := Vec.of w
  if v.cls = clsMovr then false else if v.cls = clsIroot then (Iroot.of w).n = 0 else v.count = 0

/-! ## The start rule (R325) -/

/-- Registers of the engine by number: S0 to S7 are 0 to 7, VEC_SR_STEP 8, VEC_FLAGS 9. -/
structure VecRegs where
  reads : List Nat
  writes : List Nat
deriving DecidableEq, Repr

/-- The registers an instruction reads and writes (R307, R308, R310, R318). -/
def vecRegsOf (w : Nat) : VecRegs :=
  let v := Vec.of w
  let sr := fun rnd => if rnd = 5 then [8] else []
  match v.cls with
  | 1 => ⟨(if v.bSel = 2 then [v.srcBRaw] else []) ++ sr v.rnd, []⟩
  | 2 => ⟨sr v.cvtRnd, []⟩
  | 4 => ⟨sr v.rnd, []⟩
  | 5 => let r := movrReg w; if v.op = 3 then ⟨[r], []⟩ else if v.op = 4 then ⟨[r], [r]⟩ else ⟨[], [r]⟩
  | 6 => ⟨[(Iroot.of w).ridge], []⟩
  | _ => ⟨[], []⟩

/-- The first cycle from q in which an instruction may start. -/
def vecStart (c : CoreState) (w : Nat) (r : Ranges) (q : Int) : Int :=
  let v := c.vec
  let regs := vecRegsOf w
  let touched := r.reads ++ r.writes
  let t := max q (v.start + v.busy)
  let t := v.writes.foldl (fun t e => if touched.any fun x => overlaps x.1 x.2 e.1.base e.1.len then max t e.2 else t) t
  let t := v.regWrites.foldl (fun t e => if (regs.reads ++ regs.writes).contains e.1 then max t e.2 else t) t
  if regs.writes.contains 9 then max t v.flagsDone else t

/-- The engine with an instruction that starts now (R324, R325). -/
def vecAfter (v : VecEngine) (w : Nat) (r : Ranges) (run : VecRun) : VecEngine :=
  let t := vecTime w
  let q := v.clock
  let done := q + t.busy + t.latency
  let cls := (Vec.of w).cls
  { v with
    start := q, busy := t.busy, done := max v.done done, runs := v.runs ++ [run]
    writes := (v.writes.filter fun e => decide (q < e.2)) ++ r.writes.map fun x => (⟨x.1, x.2⟩, done)
    regWrites := (v.regWrites.filter fun e => decide (q < e.2)) ++ (vecRegsOf w).writes.map fun x => (x, done)
    flagsDone := if cls ≤ clsRow then max v.flagsDone done else v.flagsDone }

/-! ## Groups (R321, R324) -/

/-- Elements of an instruction; MOVR and IROOT count as one group and as the elements of A. -/
def vecElems (w : Nat) : Nat :=
  let v := Vec.of w
  if v.cls = clsMovr then 1 else if v.cls = clsIroot then (Iroot.of w).n * (Iroot.of w).n else v.count

/-- The groups an instruction reads. -/
def vecGroups (w : Nat) : Nat := divCeil (vecElems w) (vecTime w).rate

/-- Elements of the groups before group g. -/
def groupFrom (w g : Nat) : Nat := min (vecElems w) (g * (vecTime w).rate)

/-- Indices of n elements taken in turn, of which the elements from lo up to hi are meant: as offset and length (R315). -/
def wrapped (n lo hi : Nat) : List (Nat × Nat) :=
  if n ≤ hi - lo then [(0, n)]
  else if lo % n + (hi - lo) ≤ n then [(lo % n, hi - lo)]
  else [(lo % n, n - lo % n), (0, lo % n + (hi - lo) - n)]

/-- What group g reads of core memory, as offset and length in bytes (R301, R304, R307, R311, R315, R321, R324). -/
def vecGroupReads (w g : Nat) : List (Nat × Nat) :=
  let v := Vec.of w
  let lo := groupFrom w g
  let hi := groupFrom w (g + 1)
  let span := fun fmt base lo hi => (base + elemBytes fmt lo, elemBytes fmt hi - elemBytes fmt lo)
  if hi ≤ lo then []
  else match v.cls with
  | 1 =>
    span v.fmt v.srcA lo hi :: (if elemUnary v.op || v.bSel ≠ 0 then [] else [span v.fmt v.srcB lo hi])
      ++ (if v.op = 4 then [span v.fmt v.dst lo hi] else [])
  | 2 => span v.cvtSrc v.srcA lo hi :: (if isBlock v.cvtSrc then [(v.srcB + lo / 32, divCeil hi 32 - lo / 32)] else [])
  | 3 => [span v.fmt v.srcA lo hi]
  | 4 =>
    let wd := elemBits v.fmt / 8
    span v.fmt v.srcA lo hi ::
      (if v.op ≤ 4 then []
       else if v.op ≤ 6 then [(v.srcB + lo / v.rowLen * wd, ((hi - 1) / v.rowLen + 1 - lo / v.rowLen) * wd)]
       else (wrapped v.rowLen lo hi).map fun x => (v.srcB + x.1 * wd, x.2 * wd))
  | 5 => if v.op = 2 then [(v.srcA, 8)] else []
  | _ => [((Iroot.of w).srcA + 4 * lo, 4 * (hi - lo))]

/-! ## What an instruction computes -/

/-- The writes of an instruction as offsets in core memory, the exceptions it raised, and whether it wrote a NaN or an infinity
to an element (R116, R322). -/
structure VecOut where
  writes : List (Nat × Bytes)
  exc : Exc
  nonfinite : Bool
deriving DecidableEq, Repr

def VecOut.none : VecOut := ⟨[], Exc.none, false⟩

/-- What group g of an instruction in progress sees: the bytes that it and the groups before it have read, its own in place of theirs,
and the registers as they stood at the start (R324). -/
def vecView (s : State) (r : VecRun) (g : Nat) : State :=
  { s with
    mem := (r.got.filter fun e => decide (e.1 ≤ g)).foldl (fun m e => e.2.foldl (fun m x => putBytes m x.1 x.2) m) []
    regs := r.regs.foldl (fun m e => Map.put m e.1 e.2) s.regs }

/-- Bytes of core memory at an offset. -/
def coreBytes (s : State) (k off len : Nat) : Bytes := memBytes s (coreBase k + off) len

/-- Values of n elements of an unscaled format at an offset. -/
def coreVals (s : State) (k fmt off n : Nat) : List Num := (elemsOf fmt (coreBytes s k off (elemBytes fmt n)) n).map (decodeElem fmt)

/-- Scalar registers (R333). -/
def scalarReg : Nat → Reg
  | 0 => .vecScalar0 | 1 => .vecScalar1 | 2 => .vecScalar2 | 3 => .vecScalar3 | 4 => .vecScalar4 | 5 => .vecScalar5
  | 6 => .vecScalar6 | _ => .vecScalar7

/-- The SR bits of element i of a destination (R90, R91, R308). -/
def vecSr (s : State) (k fmt dst i : Nat) : Nat :=
  srBitsOf s.job.seed k (rdCore s .vecSrStep k) (srAddr fmt (coreBase k + dst) i)

/-- Results of a float format from result m on, written to consecutive elements at an offset. -/
def floatOutput (fmt dst m : Nat) (rs : List Rounded) : VecOut :=
  let rs := rs.drop m
  ⟨[(dst + elemBytes fmt m, packElems fmt (rs.map (·.code)))], rs.foldl (fun a r => a.or r.exc) Exc.none,
   rs.any fun r => (decodeElem fmt r.code).nonfinite⟩

/-- Exact results rounded under the instruction's mode to consecutive elements of its destination (R86, R308). -/
def roundedOutput (s : State) (k : Nat) (v : Vec) (m : Nat) (rs : List Exact) : VecOut :=
  floatOutput v.fmt v.dst m (rs.zipIdx.map fun (r, i) =>
    roundExact (floatFmtOf v.fmt) (Rnd.of v.rnd) (if v.rnd = 5 then vecSr s k v.fmt v.dst i else 0) r)

/-! ### ELEM (R304 to R308) -/

/-- d_i of an op (R304, R306). -/
def elemOp (op : Nat) (rnd : Rnd) (a b d : Num) : Exact :=
  match op with
  | 1 => opAdd rnd a b
  | 2 => opSub rnd a b
  | 3 => opMul a b
  | 4 => opFma rnd a b d
  | 5 => opDiv a b
  | 6 => opSqrt a
  | 7 => opMin a b
  | 8 => opMax a b
  | 9 => .of a.absolute
  | 0xA => .of a.negate
  | 0xB => .of a
  | 0xC => ⟨natNum (flagBit (numLt a b)), false, if a.isNan || b.isNan then Exc.nv else Exc.none⟩
  | _ => ⟨natNum (flagBit (numEq a b)), false, if a.isSig || b.isSig then Exc.nv else Exc.none⟩

/-- Operand b of ELEM: n values (R307). -/
def elemB (s : State) (k : Nat) (v : Vec) (n : Nat) : List Num :=
  match v.bSel with
  | 0 => coreVals s k v.fmt v.srcB n
  | 1 => List.replicate n (if v.fmt = 1 then decodeFloat fmtB32 v.imm else decodeElem v.fmt (v.imm % 2 ^ elemBits v.fmt))
  | _ => List.replicate n (decodeElem v.fmt (rdCore s (scalarReg v.srcBRaw) k % 2 ^ elemBits v.fmt))

/-- The elements of an ELEM instruction from element m up to n. -/
def elemOut (s : State) (k : Nat) (w m n : Nat) : VecOut :=
  let v := Vec.of w
  let a := coreVals s k v.fmt v.srcA n
  let b := if elemUnary v.op then a else elemB s k v n
  let d := if v.op = 4 then coreVals s k v.fmt v.dst n else a
  roundedOutput s k v m (((a.zip b).zip d).map fun ((a, b), d) => elemOp v.op (Rnd.of v.rnd) a b d)

/-! ### CVT (R94 to R105, R311, R843) -/

/-- The elements of a CVT instruction from element m up to n; a block-scaled destination is written in whole blocks, of which a group
holds a whole number. -/
def cvtOut (s : State) (k : Nat) (w m n : Nat) : VecOut :=
  let v := Vec.of w
  let scales := if isBlock v.cvtSrc then (coreBytes s k v.srcB (divCeil n 32)).map (·.toNat) else []
  let codes := elemsOf v.cvtSrc (coreBytes s k v.srcA (elemBytes v.cvtSrc n)) n
  let xs := codes.zipIdx.map fun (c, i) => decodeScaled v.cvtSrc c (scales.getD (i / 32) 0)
  let rnd := Rnd.of v.cvtRnd
  let sr := fun i => if v.cvtRnd = 5 then vecSr s k v.cvtDst v.dst i else 0
  if isBlock v.cvtDst then
    let bs := ((blocks32 xs).zipIdx.map fun (b, j) => convertBlock v.cvtDst rnd v.cvtSat (fun i => sr (32 * j + i)) b).drop (m / 32)
    ⟨[(v.dst + elemBytes v.cvtDst m, packElems v.cvtDst (bs.flatMap (·.codes))),
      (v.srcB + m / 32, bs.map fun b => BitVec.ofNat 8 b.scale)],
     bs.foldl (fun a b => a.or b.exc) Exc.none,
     bs.any fun b => b.codes.any fun c => (decodeScaled v.cvtDst c b.scale).nonfinite⟩
  else floatOutput v.cvtDst v.dst m (xs.zipIdx.map fun (x, i) => convertElem v.cvtDst rnd v.cvtSat false (sr i) x)

/-! ### SFU (R312, R313) -/

/-- A special function of an element: binary16 and Nf16 are evaluated in binary32 and rounded once. -/
def sfuElem (op fmt : Nat) (x : Num) : Rounded :=
  let r := sfu32 op x (roundNum fmtB32 .rne 0 x).code
  if fmt = 2 then r
  else
    let o := roundNum (floatFmtOf fmt) .rne 0 (decodeFloat fmtB32 r.code)
    ⟨o.code, r.exc.or o.exc⟩

def sfuOut (s : State) (k : Nat) (w m n : Nat) : VecOut :=
  let v := Vec.of w
  floatOutput v.fmt v.dst m ((coreVals s k v.fmt v.srcA n).map (sfuElem v.op v.fmt))

/-! ### ROW (R315 to R317) -/

/-- A binary64 value with the exceptions gathered so far. -/
structure Acc64 where
  x : Num
  exc : Exc
deriving DecidableEq, Repr

/-- a + b in binary64, RNE. -/
def Acc64.add (a b : Acc64) : Acc64 :=
  let r := roundExact fmtB64 .rne 0 (opAdd .rne a.x b.x)
  ⟨num64 r.code, (a.exc.or b.exc).or r.exc⟩

/-- Neighbours added in pairs. -/
def addPairs : List Acc64 → List Acc64
  | a :: b :: t => a.add b :: addPairs t
  | l => l

/-- The tree of R317 over 32 values: five rounds of pairs. -/
def treeSum (l : List Acc64) : Acc64 :=
  ((addPairs (addPairs (addPairs (addPairs (addPairs l))))).head?).getD ⟨natNum 0, Exc.none⟩

/-- row_sum of R317. -/
def rowSum (terms : List Acc64) : Acc64 :=
  (blocks32 terms).foldl (fun s b => s.add (treeSum (b ++ List.replicate (32 - b.length) ⟨natNum 0, Exc.none⟩))) ⟨natNum 0, Exc.none⟩

/-- term(x) of RSUM and RSUMSQ. -/
def rowTerm (squares : Bool) (x : Num) : Acc64 :=
  if squares then
    let r := roundExact fmtB64 .rne 0 (opMul x x)
    ⟨num64 r.code, r.exc⟩
  else ⟨x, Exc.none⟩

/-- The result of one row of a reduction. A row of one element is its own maximum: a signalling NaN raises invalid there as well
(R67, R322). -/
def rowReduce (op : Nat) (xs : List Num) : Exact :=
  match op with
  | 1 | 2 =>
    match xs with
    | [] => .of (natNum 0)
    | x :: t => t.foldl (fun a y => let r := if op = 1 then opMax a.x y else opMin a.x y; ⟨r.x, false, a.exc.or r.exc⟩)
        ⟨if x.isNan then .nan false else x, false, if x.isSig then Exc.nv else Exc.none⟩
  | _ => let r := rowSum (xs.map (rowTerm (op = 4))); ⟨r.x, false, r.exc⟩

/-- A list in rows of n. -/
def rowsOf {α : Type} (l : List α) (n : Nat) : List (List α) := (List.range (l.length / n)).map fun i => (l.drop (n * i)).take n

/-- The elements of a ROW instruction from element m up to `last`; a reduction writes the rows whose last element lies among them. -/
def rowOut (s : State) (k : Nat) (w m last : Nat) : VecOut :=
  let v := Vec.of w
  let n := v.rowLen
  let a := coreVals s k v.fmt v.srcA last
  if v.op ≤ 4 then roundedOutput s k v (m / n) ((rowsOf a n).map (rowReduce v.op))
  else
    let b := coreVals s k v.fmt v.srcB (if v.op ≤ 6 then divCeil last n else min last n)
    roundedOutput s k v m (a.zipIdx.map fun (x, i) =>
      let y := b.getD (if v.op ≤ 6 then i / n else i % n) (natNum 0)
      match v.op with
      | 5 | 8 => opMul x y
      | 6 => opSub (Rnd.of v.rnd) x y
      | _ => opAdd (Rnd.of v.rnd) x y)

/-! ### IROOT (R318 to R320) -/

/-- A square matrix, row by row. -/
abbrev Matrix_ := List (List Num)

def matGet (m : Matrix_) (i j : Nat) : Num := (m.getD i []).getD j (natNum 0)
def matOf (r c : Nat) (f : Nat → Nat → Num) : Matrix_ := (List.range r).map fun i => (List.range c).map (f i)
def matMap2 (f : Num → Num → Num) (a b : Matrix_) : Matrix_ := (a.zip b).map fun (x, y) => (x.zip y).map fun (p, q) => f p q
def transposed (n : Nat) (m : Matrix_) : Matrix_ := matOf n n fun i j => matGet m j i

/-- Binary32 operations with RNE. -/
def add32 (a b : Num) : Num := b32 (opAdd .rne a b)
def sub32f (a b : Num) : Num := b32 (opSub .rne a b)
def mul32 (a b : Num) : Num := b32 (opMul a b)
def div32 (a b : Num) : Num := b32 (opDiv a b)
def sqrt32 (a : Num) : Num := b32 (opSqrt a)
def fma32 (a b c : Num) : Num := b32 (opFma .rne a b c)

/-- A row times a column: the product for k = 0, then fused multiply-adds over k ascending (R319). -/
def dot32 (row col : List Num) : Num :=
  match row.zip col with
  | [] => natNum 0
  | (a, b) :: t => t.foldl (fun s (x, y) => fma32 x y s) (mul32 a b)

/-- The matrix product. -/
def matMul (n : Nat) (a b : Matrix_) : Matrix_ :=
  let cols := transposed n b
  a.map fun row => cols.map fun col => dot32 row col

/-- frob: squares summed in binary64 in row-major order, the root in binary64, then binary32 (R319). -/
def frob (m : Matrix_) : Num := r32 (fsqrt (m.flatten.foldl (fun s x => fadd s (fmul x x)) (natNum 0)))

def identity (n : Nat) : Matrix_ := matOf n n fun i j => natNum (flagBit (i = j))

/-- ⌊(2^(256 p) / m)^(1/p)⌋ for p = 2 and 4. -/
def rootInv (p m : Nat) : Nat := if p = 2 then isqrt (2 ^ 512 / m) else isqrt (isqrt (2 ^ 1024 / m))

/-- c^(-1/p) correctly rounded in binary64, then to binary32, for c above 0 (R319). -/
def invRoot (p : Nat) (c : Num) : Num :=
  match c with
  | .fin _ m e =>
    let d := (e % p).toNat
    let m' := m * 2 ^ d
    let r := rootInv p m'
    r32 (num64 (roundFinite fmtB64 .rne false 0 false r (-256 - (e - d) / p) (r ^ p * m' ≠ 2 ^ (256 * p))).code)
  | .inf _ => natNum 0
  | .nan _ => .nan false

/-- What the procedure of R319 ends with: outcome, iterations, last residual, norm, and the result of a converged run. -/
structure RootRun where
  outcome : Nat
  used : Nat
  r : Num
  c : Num
  result : Option Matrix_
deriving DecidableEq, Repr

/-- The loop of R319 from iteration k. -/
def irootLoop (n p iters : Nat) (tol c : Num) : Nat → Nat → Matrix_ → Matrix_ → RootRun
  | 0, k, _, _ => ⟨1, k, natNum 0, c, none⟩
  | fuel + 1, k, x, m =>
    let r := frob (matMap2 sub32f (identity n) m)
    if r.nonfinite then ⟨4, k, r, c, none⟩
    else if numLt r tol || numEq r tol then
      let s := invRoot p c
      ⟨0, k, r, c, some (x.map fun row => row.map fun e => mul32 e s)⟩
    else if k = iters then ⟨1, k, r, c, none⟩
    else
      let top := matMap2 sub32f ((identity n).map fun row => row.map fun e => mul32 (natNum (p + 1)) e) m
      let t := top.map fun row => row.map fun e => div32 e (natNum p)
      let t2 := matMul n t t
      let m' := if p = 2 then matMul n t2 m else matMul n (matMul n t2 t2) m
      irootLoop n p iters tol c fuel (k + 1) (matMul n x t) m'

/-- The inverse p-th root of an n × n matrix (R319). -/
def iroot (n p iters : Nat) (a : Matrix_) (eps tol : Num) : RootRun :=
  let b := matMap2 add32 a ((identity n).map fun row => row.map (mul32 eps))
  if b.any fun row => row.any Num.nonfinite then ⟨3, 0, natNum 0, natNum 0, none⟩
  else
    let c := frob b
    if c.isZero then ⟨2, 0, natNum 0, natNum 0, none⟩
    else irootLoop n p iters tol c (iters + 1) 0 (identity n) (b.map fun row => row.map fun x => div32 x c)

def code32 (x : Num) : Nat := (roundNum fmtB32 .rne 0 x).code

/-- A matrix of binary32 elements as it lies in memory, row-major. -/
def matrixAt (b : Bytes) (n : Nat) : Matrix_ := matOf n n fun i j => num32 (leAt b (4 * (i * n + j)) 4)
def matrixBytes (m : Matrix_) : Bytes := m.flatten.flatMap fun x => leBytes 4 (code32 x)

/-- IROOT: dst when converged, and the status record, which is the last write (R319, R320). -/
def irootOut (s : State) (k : Nat) (w _n : Nat) : VecOut :=
  let i := Iroot.of w
  let a := matrixAt (coreBytes s k i.srcA (4 * i.n * i.n)) i.n
  let run := iroot i.n i.op i.iters a (num32 (rdCore s (scalarReg i.ridge) k % 2 ^ 32)) (num32 i.tol)
  let status := leBytes 4 (run.outcome + 256 * run.used) ++ leBytes 4 (code32 run.r) ++ leBytes 4 (code32 run.c) ++ leBytes 4 0
  match run.result with
  | some m => ⟨[(i.dst, matrixBytes m), (i.aux, status)], Exc.none, m.any fun row => row.any Num.nonfinite⟩
  | none => ⟨[(i.aux, status)], Exc.none, false⟩

/-! ### MOVR (R310) -/

/-- STORER's bytes; the other operations write no memory. -/
def movrOut (s : State) (k : Nat) (w n : Nat) : VecOut :=
  let v := Vec.of w
  if v.op = 3 && n ≠ 0 then ⟨[(v.dst, leBytes 8 (rdCore s (scalarReg (movrReg w)) k))], Exc.none, false⟩ else VecOut.none

/-- The register a MOVR writes. -/
def movrTarget (w : Nat) : Reg := match movrReg w with | 8 => .vecSrStep | 9 => .vecFlags | r => scalarReg r

/-- The register effect of a MOVR; `b` are the bytes LOADR has read. -/
def movrRegs (s : State) (k w : Nat) (b : Bytes) : State :=
  let v := Vec.of w
  let r := movrTarget w
  match v.op with
  | 1 => wrCore s r k (if movrReg w = 9 then v.imm % 32 else v.imm)
  | 2 => wrCore s r k (leNat b)
  | 4 =>
    let old := rdCore s r k
    wrCore s r k (old / 2 ^ 32 * 2 ^ 32 + (old + v.imm) % 2 ^ 32)
  | _ => s

/-! ## An instruction in progress (R321, R322, R324, R327) -/

/-- What the elements of an instruction from m up to n write (R304, R311, R312, R315, R319, R310). -/
def vecOut (s : State) (k w m n : Nat) : VecOut :=
  match (Vec.of w).cls with
  | 1 => elemOut s k w m n
  | 2 => cvtOut s k w m n
  | 3 => sfuOut s k w m n
  | 4 => rowOut s k w m n
  | 5 => movrOut s k w n
  | _ => irootOut s k w n

/-- Completion: s + B + λ (R321, R324). -/
def VecRun.done (r : VecRun) : Int := r.start + (vecTime r.word).busy + (vecTime r.word).latency

/-- The cycles in which IROOT writes dst: from s + B − E − 1 on, 512 elements in each (R321). -/
def irootFrom (r : VecRun) : Int := r.start + (vecTime r.word).busy - vecGroups r.word - 1

/-- The group whose results are written in cycle x, if any: s + g + λ (R324). -/
def VecRun.groupAt (r : VecRun) (x : Int) : Option Nat :=
  let g := x - r.start - (vecTime r.word).latency
  if (Vec.of r.word).cls ≠ clsIroot && 0 ≤ g && g < vecGroups r.word then some g.toNat else none

/-- What an instruction writes in cycle x, as offsets of core memory, with the exceptions of those results and whether one is a NaN or
an infinity. -/
def VecRun.outAt (r : VecRun) (s : State) (k : Nat) (x : Int) : VecOut :=
  let w := r.word
  match r.groupAt x with
  | some g =>
    let o := vecOut (vecView s r g) k w (groupFrom w g) (groupFrom w (g + 1))
    { o with writes := o.writes.filter fun e => e.2 ≠ [] }
  | none =>
    let g := x - irootFrom r
    if (Vec.of w).cls ≠ clsIroot || g < 0 || vecGroups w < g then VecOut.none
    else
      let o := irootOut (vecView s r (vecGroups w)) k w 0
      let dst := if o.writes.length = 2 then o.writes.take 1 else []
      if g = vecGroups w then { o with writes := o.writes.drop (o.writes.length - 1) }
      else ⟨dst.map fun d => (d.1 + 2048 * g.toNat, (d.2.drop (2048 * g.toNat)).take 2048), Exc.none, false⟩

/-- The cycle in which the failure of a row that group g reads is detected: the write cycle of the group (R327), for IROOT the
cycle of its first write. -/
def VecRun.failAt (r : VecRun) (g : Nat) : Int :=
  if (Vec.of r.word).cls = clsIroot then irootFrom r else r.start + g + (vecTime r.word).latency

/-- The runs of the engine with one of them changed. -/
def VecEngine.change (v : VecEngine) (r : VecRun) : VecEngine :=
  { v with runs := v.runs.map fun x => if x.bundle = r.bundle then r else x }

/-- Group g of an instruction is read in cycle s + 1 + g: guards are armed, and a row that fails its re-read is noted (R324, R327). -/
def vecRead (k : Nat) (s : State) (r : VecRun) : State :=
  let g := (coreOf s k).vec.clock - r.start - 1
  if g < 0 then s
  else
    let reads := (vecGroupReads r.word g.toNat).map fun x => (coreBase k + x.1, x.2)
    if reads = [] then s
    else
      let bad := rangesBad s r.er.mf reads
      let r' := { r with
        got := Map.put r.got g.toNat (reads.map fun x => (x.1, memBytes s x.1 x.2))
        failed := match r.failed, bad with | none, some row => some (g.toNat, row) | f, _ => f
        er := reads.foldl (fun e x => readLeft e x.1 x.2) r.er }
      let s := reads.foldl (fun s x => engineRead s k r.bundle r.er .engineInput x.1 x.2) s
      let s := slipFor s k (lateBy r.er g.toNat) .engineInput
      let c := coreOf s k
      setCore s k { c with vec := c.vec.change r' }

/-- The results of an instruction that are due in the present cycle. -/
def vecResults (k : Nat) (s : State) (r : VecRun) : State :=
  let c := coreOf s k
  let o := r.outAt s k c.vec.clock
  let r' := { r with exc := r.exc ||| o.exc.bits, nonfinite := r.nonfinite || o.nonfinite }
  o.writes.foldl (fun s w => landWrite s r.er.mf (coreBase k + w.1) w.2 fun _ => true)
    (setCore s k { c with vec := c.vec.change r' })

/-- The writes of an instruction in the present cycle; a failed row stops it at the write cycle of the group that read it, before
the write (R324, R327, R328). -/
def vecWrite (k : Nat) (s : State) (r : VecRun) : State :=
  let x := (coreOf s k).vec.clock
  match r.failed with
  | some (g, row) =>
    if r.failAt g < x then s
    else if r.failAt g = x then detect s k ⟨7, r.bundle, counter s k, none, s.poison.contains row, false, some row⟩
    else vecResults k s r
  | none => vecResults k s r

/-- The rows of the root store that pass their re-read in the present cycle of an IROOT freeze the core for the delay (R327). -/
def rootStore (k : Nat) (s : State) (r : VecRun) : State :=
  let x := (coreOf s k).vec.clock - r.start
  (r.er.retries.filter fun e => (Vec.of r.word).cls = clsIroot && e.kind = .store && (e.place : Int) = x).foldl
    (fun s e => slipFor s k e.cycles .engineInput) s

/-- The work of the vector engine in its present cycle: results first, then reads. The instructions of the bundles in `bad` write
nothing: their checks have failed (R327). -/
def vecWork (bad : List Nat) (s : State) (k : Nat) : State :=
  let c := coreOf s k
  let good := fun s : State => (coreOf s k).vec.runs.filter fun r => !bad.contains r.bundle
  let s := setCore s k { c with vec := { c.vec with worked := true } }
  let s := (good s).foldl (vecWrite k) s
  (good s).foldl (rootStore k) ((good s).foldl (vecRead k) s)

/-- The registers that an instruction changes as it completes (R116, R310, R322, R332). -/
def vecRegs (k : Nat) (s : State) (r : VecRun) : State :=
  let w := r.word
  let s := if (Vec.of w).cls ≤ clsRow then wrCore s .vecFlags k (rdCore s .vecFlags k ||| r.exc) else s
  let s := if (Vec.of w).cls = clsMovr then movrRegs s k w (memBytes (vecView s r 0) (coreBase k + (Vec.of w).srcA) 8) else s
  if r.nonfinite then bumpCore s F.vecNonfiniteCount_count k 1 else s

/-- An instruction completes: flags, registers and counts (R116, R310, R322, R332). -/
def vecFinish (k : Nat) (s : State) (r : VecRun) : State :=
  let s := keepInPoint (vecRegs k s r) k r.bundle (vecRegs k (pointView s k) r)
  if r.nonfinite then flagCore s k flagNonfinite else s

/-- The engine enters its next cycle: the instructions complete in it take their last effects and leave. -/
def vecEnter (s : State) (k : Nat) : State :=
  let c := coreOf s k
  let x := c.vec.clock + 1
  let ended := c.vec.runs.filter fun r => decide (r.done ≤ x)
  let s := setCore s k { c with vec := { c.vec with clock := x, worked := false, runs := c.vec.runs.filter fun r => decide (x < r.done) } }
  ended.foldl (vecFinish k) s

end Sys2Proof.Machine
end

