-- ==== Sys2Proof/Machine/UpdOps.lean ====
section
/-! DEFINITION. Operations of the parameter update engine (R340 to R365) and the Almanac (R368 to R371). -/

namespace Sys2Proof.Machine

/-! ## The Almanac (R371) -/

/-- powi: binary64 square-and-multiply over the bits of n below `fuel`, most significant first (R343). -/
def powiFrom (x : Num) (n : Nat) : Nat → Num → Num
  | 0, r => r
  | fuel + 1, r =>
    let r := fmul r r
    powiFrom x n fuel (if bitOf n fuel then fmul r x else r)

def powi (x : Num) (n : Nat) : Num := powiFrom x n (if n = 0 then 0 else n.log2 + 1) (natNum 1)

/-- The largest integer at or below a value that is not negative. -/
def floorNum (x : Num) : Nat :=
  match x with
  | .fin false m e => if 0 ≤ e then m * 2 ^ e.toNat else m / 2 ^ (-e).toNat
  | _ => 0

/-- cos and exp2 of the Almanac: fixed functions within 1 ulp of binary64 (log entry 10). -/
def almFun (exp2 : Bool) (x : Num) : Num :=
  match x with
  | .fin neg m e =>
    let a := if exp2 then
        let y := toFix 4096 neg m e
        let k := y / fixOne
        let f := y - k * fixOne
        Approx.ofFix (expSum (fixMul f fixLn2) 120 0 fixOne 0) k (f = 0 && decide (-512 ≤ e ∨ m = 0))
      else Approx.ofFix (trigOf true (toFix (2 ^ 130) neg m e)) 0 (m = 0)
    num64 (within fmtB64 1 (Config.almChoice (flagBit exp2) (code64 x)) a).code
  | _ => .nan false

/-- The binary64 value nearest π. -/
def pi64 : Num := num64 0x4009_21FB_5444_2D18

/-- The smaller and the larger of two values. -/
def min64 (a b : Num) : Num := (opMin a b).x
def max64 (a b : Num) : Num := (opMax a b).x

/-- A register of an Almanac slot as a binary32 value, widened exactly. -/
def almValue (s : State) (f : Fld) (slot : Nat) : Num := num32 (rf s f 0 slot)

/-- almanac(slot, t), the procedure of R371. -/
def almanac (s : State) (slot t : Nat) : Num :=
  let e0 := almValue s F.almStart_e0 slot
  let ep := almValue s F.almPeak_ep slot
  let fl := almValue s F.almFloor_fl slot
  let rho := almValue s F.almRatio_rho slot
  let wn := rf s F.almWarmup_w 0 slot
  let dn := rf s F.almPeriod_d 0 slot
  let w := natNum wn
  let d := natNum dn
  let tt := num64 (code64 (natNum t))
  let one := natNum 1
  if 0 < wn && !numLt w tt then r32 (fadd e0 (fmul (fsub ep e0) (fdiv tt w)))
  else
    let u := fsub tt w
    let restart := rflag s F.almCtrl_restart 0 slot && dn ≠ 0
    let j := if restart then floorNum (fdiv (fsub u one) d) else 0
    let u := if restart then fsub u (fmul (num64 (code64 (natNum j))) d) else u
    let peak := fmul ep (powi rho j)
    let span := fsub peak fl
    match almShape s slot with
    | 1 => r32 peak
    | 2 => r32 (if dn = 0 then peak else fadd fl (fmul span (fsub one (fdiv (min64 u d) d))))
    | 3 => r32 (if dn = 0 then peak
        else fadd fl (fdiv (fmul span (fadd one (almFun false (fdiv (fmul pi64 (min64 u d)) d)))) (natNum 2)))
    | 4 => r32 (if dn = 0 then peak else fadd fl (fmul span (almFun true (fdiv u.negate d))))
    | _ =>
      let s0 := max64 w one
      r32 (fmul peak (fsqrt (fdiv s0 (fadd s0 u))))

/-! ## A command's constants (R341, R343) -/

/-- The state header (R341). -/
structure Header where
  step : Nat
  valid : Bool
  rootStep : Nat
deriving DecidableEq, Repr

def Header.of (b : Bytes) : Header := ⟨leAt b 0 8, bitOf (leAt b 8 1) 0, leAt b 16 8⟩

/-- The next step, saturating. -/
def Header.next (h : Header) : Nat := min (h.step + 1) (2 ^ 64 - 1)

/-- The bytes of a header whose other bytes stay as they were read. -/
def Header.bytes (h : Header) (old : Bytes) : Bytes :=
  let state := (leAt old 8 1) / 2 * 2 + flagBit h.valid
  leBytes 8 h.step ++ leBytes 1 state ++ (old.drop 9).take 7 ++ leBytes 8 h.rootStep ++ (old.drop 24).take 40

/-- The constants of a command. -/
structure UpdConst where
  t : Nat
  c1 : Num
  c2 : Num
  k1 : Num
  k2 : Num
  eta : Num
  a : Num
deriving DecidableEq, Repr

/-- The learning rate of a command that starts now: its own, or the Almanac's value times it, as a binary32 code (R343, R352). -/
def updEta (s : State) (u : Upd) (t : Nat) : Nat :=
  if u.lrSrc then code32 (fmul (almanac s u.slot t) (num32 u.lr)) else u.lr

/-- The constants of step t with a learning rate and a gradient multiplier, as binary32 codes (R343). -/
def updConst (l : Layer) (t eta a : Nat) : UpdConst :=
  let one := natNum 1
  let corr := fun beta => if l.biasCorr then r32 (fdiv one (fsub one (powi (num32 beta) t))) else one
  ⟨t, corr l.beta1, corr l.beta2, sub32f one (num32 l.beta1), sub32f one (num32 l.beta2), num32 eta, num32 a⟩

/-! ## Times and frozen blocks (R358, R361) -/

/-- The length of one group (R361). -/
def groupTime (u : Upd) (l : Layer) : Nat :=
  let b := l.b
  if !l.isMatrix then u.pace
  else 2 * divCeil (b * b) 256 * u.pace + 2 * divCeil (b * b * b) 1024 + 16 + if u.isRoot then 4 * irootBusy b 24 4 else 0

/-- The duration of a command (R361). -/
def updTime (u : Upd) (l : Layer) : Nat := 40 + updGroups u l * groupTime u l

/-- A block of 32 elements is frozen by the map (R358). -/
def blockFrozen (s : State) (l : Layer) (j : Nat) : Bool :=
  l.mapEn && bitOf (leNat (memBytes s (l.mapBase + j / 8) 1)) (j % 8)

/-- Real elements of block j. -/
def blockSize (l : Layer) (j : Nat) : Nat := min 32 (l.size - 32 * j)

/-- Frozen elements of an element-rule command's range (R358). -/
def frozenCount (s : State) (u : Upd) (l : Layer) : Nat :=
  (List.range (divCeil u.count 32)).foldl (fun n i =>
    let j := u.first * 8 + i
    if blockFrozen s l j then n + blockSize l j else n) 0

/-- The segments of group g that are computed and written: not those of frozen blocks (R358). -/
def liveSegs (s : State) (u : Upd) (l : Layer) (g : Nat) : List Seg :=
  if l.isMatrix then groupSegs u l g
  else (groupSegs u l g).flatMap fun x =>
    let blocks := List.range (divCeil x.count 32)
    if blocks.any fun i => blockFrozen s l (x.first / 32 + i) then
      (blocks.filter fun i => !blockFrozen s l (x.first / 32 + i)).map fun i =>
        ⟨x.first + 32 * i, min 32 (x.count - 32 * i), x.grad + 32 * i⟩
    else [x]

/-! ## The rules (R342 to R348) -/

/-- A gradient element as binary32 (R342). -/
def gradAt (s : State) (l : Layer) (i : Nat) : Num :=
  let wd := elemBits l.fmtG / 8
  let scale := if isBlock l.fmtG then leNat (memBytes s (l.gscaleBase + i / 32) 1) else 0
  r32 (decodeScaled l.fmtG (leNat (memBytes s (l.gBase + i * wd) wd)) scale)

/-- An element of a state tensor. -/
def stateAt (s : State) (base fmt i : Nat) : Num :=
  let wd := elemBits fmt / 8
  decodeElem fmt (leNat (memBytes s (base + i * wd) wd))

/-- One element under the element rule: w, m1, v1 and the direction d (R344). -/
structure ElemUpd where
  w : Num
  m1 : Num
  v1 : Num
  d : Num
deriving DecidableEq, Repr

def elemUpd (c : UpdConst) (l : Layer) (x w m v : Num) : ElemUpd :=
  let g := mul32 x c.a
  let m1 := fma32 (num32 l.beta1) m (mul32 c.k1 g)
  let v1 := fma32 (num32 l.beta2) v (mul32 c.k2 (mul32 g g))
  ⟨w, m1, v1, div32 (mul32 m1 c.c1) (add32 (sqrt32 (mul32 v1 c.c2)) (num32 l.delta))⟩

/-- The new parameter for a direction (R344). -/
def newWeight (c : UpdConst) (l : Layer) (w y : Num) : Num := fma32 c.eta.negate (fma32 (num32 l.lambda) w y) w

def segUpd (s : State) (c : UpdConst) (l : Layer) (x : Seg) : List ElemUpd :=
  (List.range x.count).map fun i =>
    elemUpd c l (gradAt s l (x.grad + i)) (stateAt s l.wBase l.fmtW (x.first + i)) (stateAt s l.mBase l.fmtM (x.first + i))
      (stateAt s l.vBase l.fmtV (x.first + i))

/-- Consecutive elements of a state tensor rounded to its storage format: their codes (R342). -/
def stateCodes (s : State) (k : Nat) (l : Layer) (c : UpdConst) (base fmt first : Nat) (xs : List Num) : List Nat :=
  xs.zipIdx.map fun (x, i) =>
    let sr := l.wrnd = 1
    (roundNum (floatFmtOf fmt) (if sr then .sr else .rne)
      (if sr then srBitsOf s.job.seed k (c.t % 2 ^ 32) (srAddr fmt base (first + i)) else 0) x).code

/-- What a group writes, and what it raises: a non-finite value of state, a fallback to the element direction. -/
structure GroupOut where
  writes : List (Nat × Bytes)
  nonfinite : Bool
  fallback : Bool
deriving DecidableEq, Repr

/-- The writes of one tensor. -/
def tensorWrites (s : State) (k : Nat) (l : Layer) (c : UpdConst) (base fmt : Nat) (rows : List (Seg × List Num)) : GroupOut :=
  let codes := rows.map fun (x, xs) => (x, stateCodes s k l c base fmt x.first xs)
  ⟨codes.map fun (x, cs) => (base + x.first * (elemBits fmt / 8), packElems fmt cs),
   codes.any fun (_, cs) => cs.any fun o => (decodeElem fmt o).nonfinite, false⟩

/-- The direction of a tile: PL · H · PR grafted on the norm of d, or d itself (R346). -/
def tileDirection (n : Nat) (valid : Bool) (c1 : Num) (pl pr : Matrix_) (m1 d : Matrix_) : Matrix_ × Bool :=
  if !valid then (d, true)
  else
    let h := m1.map fun row => row.map fun x => mul32 x c1
    let u := matMul n (matMul n pl h) pr
    let nd := frob d
    let nu := frob u
    if numLt (natNum 0) nu && !nu.nonfinite && !nd.nonfinite then
      let f := r32 (fdiv nd nu)
      (u.map fun row => row.map fun x => mul32 x f, false)
    else (d, true)

/-- Group g of an UPDATE (R344, R346). -/
def updateGroup (s : State) (k : Nat) (u : Upd) (l : Layer) (c : UpdConst) (valid : Bool) (g : Nat) : GroupOut :=
  let segs := liveSegs s u l g
  let rows := segs.map fun x => segUpd s c l x
  let d := rows.map fun r => r.map (·.d)
  let (y, fb) := if l.isMatrix then
      let part := fun p => matrixAt (memBytes s (tilePart l (u.first + g) p) (4 * l.b * l.b)) l.b
      tileDirection l.b valid c.c1 (part 2) (part 3) (rows.map fun r => r.map (·.m1)) d
    else (d, false)
  let w1 := (rows.zip y).map fun (r, ys) => (r.zip ys).map fun (e, yv) => newWeight c l e.w yv
  let ow := tensorWrites s k l c l.wBase l.fmtW (segs.zip w1)
  let om := tensorWrites s k l c l.mBase l.fmtM (segs.zip (rows.map fun r => r.map (·.m1)))
  let ov := tensorWrites s k l c l.vBase l.fmtV (segs.zip (rows.map fun r => r.map (·.v1)))
  ⟨ow.writes ++ om.writes ++ ov.writes, ow.nonfinite || om.nonfinite || ov.nonfinite, fb⟩

/-- One side of a tile's refresh: the root, or the failed attempts with their outcomes and the residual of the second (R348). -/
structure SideOut where
  root : Option Matrix_
  first : Nat
  second : Nat
  residual : Num
deriving DecidableEq, Repr

def refreshSide (l : Layer) (m : Matrix_) : SideOut :=
  let o1 := iroot l.b 4 24 m (natNum 0) (num32 l.tol)
  match o1.result with
  | some r => ⟨some r, 0, 0, o1.r⟩
  | none =>
    let o2 := iroot l.b 4 24 m (num32 l.ridge) (num32 l.tol)
    ⟨o2.result, o1.outcome, o2.outcome, o2.r⟩

/-- Group g of a UROOT: what it writes, whether a value is not finite, and its failed sides (R348). -/
structure RootOut where
  writes : List (Nat × Bytes)
  nonfinite : Bool
  failed : List (Nat × SideOut)
deriving DecidableEq, Repr

def urootGroup (s : State) (u : Upd) (l : Layer) (a : Num) (g : Nat) : RootOut :=
  let n := l.b
  let j := u.first + g
  let part := fun p => matrixAt (memBytes s (tilePart l j p) (4 * n * n)) n
  let grad : Matrix_ := (liveSegs s u l g).map fun x => (List.range x.count).map fun i => mul32 (gradAt s l (x.grad + i)) a
  let gt := transposed n grad
  let bs := num32 l.betaS
  let ks := sub32f (natNum 1) bs
  let mix := fun old prod => matMap2 (fun q p => fma32 bs q (mul32 ks p)) old prod
  let ql := mix (part 0) (matMul n grad gt)
  let qr := mix (part 1) (matMul n gt grad)
  let sides := [(0, refreshSide l ql), (1, refreshSide l qr)]
  let roots := sides.filterMap fun (i, o) => o.root.map fun r => (i, r)
  let bad := fun m : Matrix_ => m.any fun row => row.any Num.nonfinite
  ⟨[(tilePart l j 0, matrixBytes ql), (tilePart l j 1, matrixBytes qr)]
     ++ roots.map fun (i, r) => (tilePart l j (2 + i), matrixBytes r),
   bad ql || bad qr || (roots.any fun x => bad x.2), sides.filter fun x => x.2.root = none⟩

/-! ## A command in progress (R355 to R365) -/

/-- One retry of the engine: counted, the core frozen for its delay. A recomputation is a transient of the engine, and a margin count
where a residue or duplicated-unit check called for it; a re-read of a row of the root store is no recomputation (R364, R365, R736). -/
def retried (k : Nat) (s : State) (e : Retry) : State :=
  let s := bumpCore s F.updRetryCount_count k 1
  let s := if e.kind = .store then s else transient s kUpd k 0
  let s := if e.kind = .unit then marginCount s (k / 24) else s
  slipFor s k e.cycles .engineInput

/-- The retries of a group (R365). -/
def recomputed (k g : Nat) (s : State) (l : List Retry) : State := (l.filter fun e => e.place = g).foldl (retried k) s

/-- A row whose third read fails: two retries, and a failure of the command (R273, R365). -/
def updRowFailed (s : State) (k bundle row : Nat) : State :=
  let s := bumpCore (bumpCore s F.updRetryCount_count k 2) F.updCheckCount_count k 1
  detect s k ⟨7, bundle, counter s k, none, s.poison.contains row, false, some row⟩

/-- The inputs of group g have arrived (g = 0: the header and the constants): re-reads are retries, late inputs freeze the core, and
a row that fails for the third time is a failure of the command (R361, R362, R365). -/
def updInputs (s : State) (k bundle : Nat) (er : EngineRun) (g : Nat) (reads : List (Nat × Nat)) : State :=
  let again := reads.foldl (fun n r => n + ((againOf er.mf).filter fun a => decide (r.1 ≤ a) && decide (a < r.1 + r.2)).length) 0
  let bad := rangesBad s er.mf reads
  let s := reads.foldl (fun s r => checkRead s k er .engineInput r.1 r.2) s
  let s := if again = 0 then s else bumpCore s F.updRetryCount_count k again
  let s := slipFor (recomputed k g s er.retries) k (lateBy er g) .engineInput
  match bad with
  | some row => updRowFailed s k bundle row
  | none => s

/-- The reads of a command issue: the bytes as they stand, guards armed if the command belongs to the present window (R277, R361). -/
def updFetch (s : State) (k bundle w : Nat) : Map Byte × State :=
  let u := Upd.of w
  let rs := updReadRanges k u (layerOf s k u.layer)
  (rs.foldl (fun m r => putBytes m r.1 (memBytes s r.1 r.2)) [],
    if inWindow s k bundle then rs.foldl (fun s r => armGuards s k bundle r.1 r.2) s else s)

def UpdRun.upd (r : UpdRun) : Upd := Upd.of r.word

/-- The cycle in which a command is complete (R361). -/
def UpdRun.done (s : State) (k : Nat) (r : UpdRun) : Int := r.start + updTime r.upd (layerOf s k r.upd.layer)

/-- What a command in progress sees of memory: the bytes its reads brought. -/
def updView (s : State) (r : UpdRun) : State := { s with mem := r.got }

/-- The header a command has read. -/
def UpdRun.oldHeader (r : UpdRun) (l : Layer) : Bytes := mapBytes r.got l.hdrBase 64

/-- The constants of a command in progress. -/
def UpdRun.const (r : UpdRun) (k : Nat) (l : Layer) : UpdConst :=
  updConst l (Header.of (r.oldHeader l)).next r.eta (if r.upd.gsEn then leNat (mapBytes r.got (coreBase k + r.upd.gsOff) 4) else 0x3F80_0000)

/-- The codes of R674 that head a record. -/
def recordCodes : List Nat :=
  [0x01, 0x02, 0x03, 0x04, 0x05, 0x06, 0x10, 0x11, 0x12, 0x13, 0x14, 0x20, 0x21, 0x22, 0x30, 0x40, 0x50, 0x70, 0x7E]

/-- The code of the record of a failed root: an assigned one, and the text does not say which (R17, R349; log entry 33). -/
def rootRecordCode : Nat := recordCodes.getD (Config.rootRecordCode % recordCodes.length) 0x10

/-- A failed root counted and recorded; the record's code is an assigned one (R349, R674; log entry 33). -/
def rootFailed (s : State) (k bundle layer tile side : Nat) (o : SideOut) : State :=
  let count := fun s => bumpCore s F.updRootFailCount_count k 1
  emit (keepInPoint (count s) k bundle (count (pointView s k))) (k / 24) rootRecordCode 0 Blk.upd.num (k % 24)
    (Config.rootRecordPayload layer tile side o.first o.second (code32 o.residual) % 2 ^ 112)

def landAll (s : State) (mf : MemFaults) (ws : List (Nat × Bytes)) : State :=
  ws.foldl (fun s w => landWrite s mf w.1 w.2 fun _ => true) s

/-- The run of the engine, changed. -/
def setUpdRun (s : State) (k : Nat) (r : UpdRun) : State :=
  let c := coreOf s k
  setCore s k { c with upd := { c.upd with run := some r } }

/-- Group g of a command is written (R344, R346, R348, R361). -/
def updWriteGroup (s : State) (k : Nat) (r : UpdRun) (g : Nat) : State :=
  let u := r.upd
  let l := layerOf s k u.layer
  let c := r.const k l
  let view := updView s r
  if u.isRoot then
    let o := urootGroup view u l c.a g
    let s := o.failed.foldl (fun s x => rootFailed s k r.bundle u.layer (u.first + g) x.1 x.2) s
    let s := landAll s r.er.mf o.writes
    let s := if o.nonfinite then flagCore s k flagNonfinite else s
    if o.failed = [] then s else setUpdRun s k { r with fallback := true }
  else
    let o := updateGroup view k u l c (Header.of (r.oldHeader l)).valid g
    let s := landAll s r.er.mf o.writes
    let s := if o.nonfinite then flagCore s k flagNonfinite else s
    if o.fallback then flagCore (setUpdRun s k { r with fallback := true }) k flagPrecondFallback else s

/-- The header's new contents: the step of a final UPDATE, or the roots' state after a UROOT (R348, R356). -/
def newHeader (u : Upd) (h : Header) (failed : Bool) : Option Header :=
  if u.isRoot then
    if u.open_ || failed then some { h with valid := !failed && (u.open_ || h.valid), rootStep := if u.open_ then h.next else h.rootStep }
    else none
  else if u.final then some { h with step := h.next } else none

/-- The header written in the cycle before completion (R356, R361). -/
def updWriteHeader (s : State) (k : Nat) (r : UpdRun) : State :=
  let l := layerOf s k r.upd.layer
  let old := r.oldHeader l
  match newHeader r.upd (Header.of old) r.fallback with
  | some h => landWrite s r.er.mf l.hdrBase (h.bytes old) fun _ => true
  | none => s

/-- The group whose time has come in cycle x when the time of group 0 is `first`. -/
def groupDue (first x : Int) (t n : Nat) : Option Nat :=
  let d := x - first
  if 0 ≤ d && t ≠ 0 && d.toNat % t = 0 && d.toNat / t < n then some (d.toNat / t) else none

/-- The inputs that a command needs in cycle x (R361). -/
def updReadAt (s : State) (k : Nat) (r : UpdRun) (x : Int) : State :=
  let u := r.upd
  let l := layerOf s k u.layer
  let s := if x = r.start then updInputs s k r.bundle r.er 0 (headReads k u l) else s
  match groupDue (r.start + 16) x (groupTime u l) (updGroups u l) with
  | some g => updInputs s k r.bundle r.er (g + 1) (groupReads u l g)
  | none => s

/-- The group that a command writes in cycle x (R361). -/
def UpdRun.writes (s : State) (k : Nat) (r : UpdRun) (x : Int) : Option Nat :=
  let u := r.upd
  let l := layerOf s k u.layer
  let t := groupTime u l
  groupDue (r.start + 40 + (t - u.pace : Nat)) x t (updGroups u l)

/-- A command of a frozen layer reads and writes nothing (R357). -/
def updIdle (s : State) (k : Nat) (r : UpdRun) : Bool := (layerOf s k r.upd.layer).frozen

/-- The work of the update engine in its present cycle. The command of a bundle in `bad` writes nothing: its check has failed for
the third time (R364, R365). -/
def updWork (bad : List Nat) (s : State) (k : Nat) : State :=
  let c := coreOf s k
  let s := setCore s k { c with upd := { c.upd with worked := true } }
  match c.upd.run with
  | none => s
  | some r =>
    let x := c.upd.clock
    if updIdle s k r || bad.contains r.bundle then s
    else
      let s := match r.writes s k x with | some g => updWriteGroup s k r g | none => s
      let r := ((coreOf s k).upd.run).getD r
      let s := if x + 1 = r.done s k then updWriteHeader s k r else s
      updReadAt s k r x

/-- The counts that a command with n frozen elements changes as it completes (R350, R357, R358). -/
def updCounts (s : State) (k : Nat) (r : UpdRun) (n : Nat) : State :=
  let s := if r.fallback && !r.upd.isRoot then bumpCore s F.updFallbackCount_count k 1 else s
  if n = 0 then s else bumpCore s F.updFrozenCount_count k n

/-- A command completes: its counts and flags (R350, R357, R358). -/
def updFinish (s : State) (k : Nat) (r : UpdRun) : State :=
  let u := r.upd
  let l := layerOf s k u.layer
  let n := if l.frozen then (if l.isMatrix then u.count * (l.b * l.b) else u.count)
    else if l.isMatrix then 0 else frozenCount (updView s r) u l
  let s := keepInPoint (updCounts s k r n) k r.bundle (updCounts (pointView s k) k r n)
  if n = 0 then s else flagCore s k flagFrozenSkipped

/-- The engine enters its next cycle: a command complete in it leaves. -/
def updEnter (s : State) (k : Nat) : State :=
  let c := coreOf s k
  let x := c.upd.clock + 1
  let s := setCore s k { c with upd := { c.upd with clock := x, worked := false } }
  match c.upd.run with
  | some r =>
    if r.done s k ≤ x then
      let c := coreOf s k
      updFinish (setCore s k { c with upd := { c.upd with run := none } }) k r
    else s
  | none => s

/-- Where the starts of the update commands ahead stand, in cycles from the present one: the schedule cycle and the start of the one
looked at last, and the cycles after which the update engine and the vector engine are free for the next (R359, R361). -/
structure StartChain where
  cycle : Nat
  start : Int
  updFree : Int
  vecFree : Int
deriving DecidableEq, Repr

/-- Before any command ahead: the remainder of an interlock wait delays them all. -/
def StartChain.now (s : State) (k : Nat) : StartChain :=
  let c := coreOf s k
  ⟨counter s k, (c.interlocked.map (·.wait)).getD 0, c.upd.done - c.upd.clock, c.vec.done - c.vec.clock⟩

/-- The chain with a command issued at a schedule cycle: it starts at the first cycle at which the engine is free (R359). -/
def StartChain.next (h : StartChain) (cycle : Nat) (u : Upd) (time : Nat) : StartChain :=
  let q := h.start + (cycle - h.cycle : Nat)
  let start := max q (if u.isRoot then max h.updFree h.vecFree else h.updFree)
  ⟨cycle, start, start + time, if u.isRoot then start + time else h.vecFree⟩

/-- The update commands ahead that move something, with the cycles from now to their starts (R354, R359). -/
def updStarts (s : State) (k : Nat) : List (Placed × Int) :=
  let cmds := (ahead s k).filter fun p => p.b.wideValid && p.b.engine = engUpd && (Upd.of p.b.wide).count ≠ 0
  (cmds.foldl (fun (acc : StartChain × List (Placed × Int)) p =>
    let u := Upd.of p.b.wide
    let h := acc.1.next p.cycle u (updTime u (layerOf s k u.layer))
    (h, acc.2 ++ [(p, h.start)])) (StartChain.now s k, [])).2

/-- The reads of update commands that lie ahead in the stream issue in cycle s − lead, or at the start of the stream; s is the start
that the work in progress and the commands before it leave to a command (R361; log entry 96). -/
def updPrefetch (s : State) (k : Nat) : State :=
  (updStarts s k).foldl (fun s (p, start) =>
    let u := Upd.of p.b.wide
    let have_ := (Map.find (coreOf s k).upd.ahead p.index).isSome
    if u.lead ≠ 0 && decide (start ≤ u.lead) && !have_ then
      let (m, s) := updFetch s k p.index p.b.wide
      let c := coreOf s k
      setCore s k { c with upd := { c.upd with ahead := Map.put c.upd.ahead p.index m } }
    else s) s

end Sys2Proof.Machine
end

