-- ==== Sys2Proof/Machine/SeqOps.lean ====
section
/-! DEFINITION. Operations of the sequencer: fetching, replay points, the start and the end of a stream, the counting of freezes, one
arithmetic cycle of a core, and the replay procedure (R227 to R234, R247 to R250, R260 to R287, R851 to R853). -/

namespace Sys2Proof.Machine

/-! ## Replay points (R229, R270 to R272, R276, R279) -/

/-- What a replay point does to an array (R229, R279): open marks the entries that the passes in progress leave non-empty. -/
def markArray (a : ArrayState) : ArrayState :=
  let tiles := a.active :: a.pendingTile.toList
  { a with
    acc := a.settled.acc.foldl (fun m e =>
      Map.put m e.1 { Map.getD a.acc e.1 AccEntry.fresh0 with opened := !e.2.empty, landed := false }) a.acc
    reached := [], lineHit := false
    armed := (tiles.flatMap fun t => if t.k = 0 then [] else tileLines t).foldl insertNew [] }

/-- The snapshot of R271 at the bundle due next, in the present schedule cycle. -/
def pointAt (s : State) (k : Nat) (marked : Bool) : ReplayPt :=
  let c := coreOf s k
  { marked := marked, bundle := c.bundle, cycle := counter s k, before := c.prevCycle, crc := c.crc, regs := snapshotRegs s k
    active := c.arrays.map fun e => (e.1, e.2.active)
    pendingTiles := c.arrays.filterMap fun e => e.2.pendingTile.map fun t => (e.1, t)
    signalsSent := 0, waitsReleased := 0, attempts := 0, skipSignals := 0, skipWaits := 0
    carried := (c.feeds.map (·.bundle)).filter (inWindow s k)
    arrived := [], redo := [] }

/-- A replay point is placed. -/
def placePoint (s : State) (k : Nat) (marked : Bool) : State :=
  let c := coreOf s k
  setCore s k { c with point := some (pointAt s k marked), guards := [], arrays := Map.mapVals c.arrays markArray }

/-! ## The fetch unit (R248, R249, R851) -/

/-- Bundle i of the stream as its memory holds it. -/
def bundleWord (s : State) (k i : Nat) : Nat := leNat (memBytes s (streamBase s k + 32 * i) 32)

/-- The bundles fetched so far give the CRC-32 of the slot (R248). -/
def fetchedCrcOk (s : State) (k : Nat) : Bool :=
  let c := coreOf s k
  (c.buffer.foldl (fun r w => (leBytes 32 w).foldl crc32Byte r) c.crc) ^^^ 0xFFFF_FFFF = slotCrc s k (seqSlot s k)

/-- How far ahead of the schedule counter the fetch unit keeps bundles: those below the counter plus 4,096, and those at it, whose
reads may be due with a lead of 4,096 (R131, R262, R361, R851; log entry 145). -/
def fetchReach : Nat := 4097

/-- Bundles enter the stream buffer in stream order while their issue cycles lie below a limit, at most `fuel` of them (R851). A row
that fails its re-read, a bundle that fails its field checks, and a CRC-32 that differs once the last bundle is in end the stream
(R248, R249). -/
def fetchSome (k limit : Nat) : Nat → State → State
  | 0, s => s
  | fuel + 1, s =>
    let c := coreOf s k
    let i := c.bundle + c.buffer.length
    let w := bundleWord s k i
    let cycle := c.fetchCycle + (bundleOf w).delta
    let addr := streamBase s k + 32 * i
    if streamCount s k ≤ i || limit ≤ cycle then s
    else
      let bad := (failRow s c.fetchMf addr 32).isSome
      let s := readEffects s c.fetchMf addr 32
      if bad || !bundleFieldsOk s k (bundleOf w) then endStream s k stDataLost
      else
        let c := coreOf s k
        let s := setCore s k { c with buffer := c.buffer ++ [w], fetchCycle := cycle }
        if i + 1 = streamCount s k && !fetchedCrcOk s k then endStream s k stDataLost else fetchSome k limit fuel s

/-- A bundle that comes due in the present cycle and is late in the stream buffer freezes the core (R249, R851). -/
def lateFreeze (s : State) (k : Nat) : State :=
  let c := coreOf s k
  let due := ((ahead s k).filter fun p => decide (p.cycle ≤ counter s k)).map (·.index)
  let late := c.fetchLate.filter fun e => due.contains e.1
  late.foldl (fun s e => slipFor s k e.2 .bundleFetch) (setCore s k { c with fetchLate := c.fetchLate.filter fun e => !due.contains e.1 })

/-- The bundles of a cycle come due: one that is late freezes the core; empty ones are passed once nothing holds them (R249, R256,
R851). -/
def comeDue (s : State) (k : Nat) : State :=
  let s := lateFreeze s k
  if (coreOf s k).freeze = [] then passEmpty 8 s k else s

/-- The bundles of a list that are not in the stream buffer yet. -/
def notFetched (c : CoreState) (late : List (Nat × Nat)) : List (Nat × Nat) :=
  late.filter fun e => decide (c.bundle + c.buffer.length ≤ e.1)

/-! ## The start and the end of a stream (R247 to R250) -/

/-- The clocks of a core's engines stand at a schedule cycle, with no work in progress. -/
def ArrayState.setClock (a : ArrayState) (q : Int) : ArrayState :=
  { a with
    clock := q, worked := false, lastPass := none, loadCycle := q - 1024, drainDone := q, loads := [], passes := [], drains := [] }

def VecEngine.at_ (q : Int) : VecEngine := { VecEngine.fresh with clock := q, start := q, done := q, flagsDone := q }
def UpdEngine.at_ (q : Int) : UpdEngine := { UpdEngine.fresh with clock := q, done := q }

def CoreState.setClocks (c : CoreState) (q : Int) : CoreState :=
  { c with
    arrays := [0, 1, 2, 3].foldl (fun m a => Map.put m a ((Map.getD m a ArrayState.fresh).setClock q)) c.arrays
    vec := VecEngine.at_ q, upd := UpdEngine.at_ q }

/-- Nothing that an array started is in progress. -/
def ArrayState.idle (a : ArrayState) : Bool := a.loads = [] && a.passes = [] && a.drains = [] && a.spills = []

/-- Every bundle has issued and everything that it started is complete (R250). -/
def streamDone (s : State) (k : Nat) : Bool :=
  let c := coreOf s k
  runs s k && decide (streamCount s k ≤ c.bundle) && c.signals = [] && c.feeds = [] && (c.arrays.all fun e => e.2.idle)
    && c.vec.runs = [] && c.upd.run = none && c.detected = []

/-! ## One arithmetic cycle of a core (R260, R263, R852) -/

/-- The work of one engine in its present cycle, unless it is done: arrays 0 to 3, the vector engine 4, the update engine 5. -/
def engineWork (bad : List Nat) (k : Nat) (s : State) (e : Nat) : State :=
  let c := coreOf s k
  if e < 4 then (if (c.array e).worked then s else arrayWork bad s k e)
  else if e = 4 then (if c.vec.worked then s else vecWork bad s k)
  else if c.upd.worked then s else updWork bad s k

/-- One engine enters its next cycle. -/
def engineEnter (k : Nat) (s : State) (e : Nat) : State :=
  if e < 4 then arrayEnter s k e else if e = 4 then vecEnter s k else updEnter s k

/-- The engines of a core. -/
def engines : List Nat := [0, 1, 2, 3, 4, 5]

/-- The engines whose outstanding work a command at the interlock waits for; a UROOT is work of both engines (R360, R852). -/
def awaited (s : State) (k : Nat) : List Nat :=
  let c := coreOf s k
  let b := nextBundle s k
  let root := c.upd.run.any fun r => r.upd.isRoot
  if b.engine = engVec then 4 :: (if root then [5] else [])
  else if b.engine = engUpd then
    (if c.upd.clock < c.upd.done then [5] else [])
      ++ (if root || ((Upd.of b.wide).isRoot && decide (c.vec.clock < c.vec.done)) then [4] else [])
  else [arrayNum b.wide]

/-- The engines that advance in the present cycle: all of them, or in an interlock wait the awaited ones (R263, R852). -/
def active (s : State) (k : Nat) : List Nat := if (coreOf s k).interlocked = none then engines else awaited s k

/-- The work of the present cycle: every active engine's, and the reads of update commands ahead. Writes to lines the host may hold
freeze the core (R433). -/
def cycleWork (bad : List Nat) (s : State) (k : Nat) : State :=
  let held := s.heldWrites.length
  let s' := (active s k).foldl (engineWork bad k) s
  let s' := if (active s k).contains 5 || (nextBundle s k).engine = engUpd then updPrefetch s' k else s'
  freezeHeld s' k held

/-- The present cycle is over for some engines. -/
def enterAll (s : State) (k : Nat) (es : List Nat) : State :=
  let held := s.heldWrites.length
  freezeHeld (es.foldl (engineEnter k) s) k held

/-- Every command and every read of the present schedule cycle has been made, and nothing holds the core (R257 to R263). -/
def mayLeave (s : State) (k : Nat) : Bool :=
  let c := coreOf s k
  runs s k && !bundleDue s k && feedsOwed s k = [] && !spillDue c && c.detected = [] && !streamDone s k

/-- The schedule counter goes on to the next cycle (R260): engines enter it, the fetch unit reads up to 16 bundles, and the bundles of
the cycle come due. -/
def leaveCycle (s : State) (k : Nat) : State :=
  let s := bumpCore s F.seqReplayCycles_cycles k (redoRunning s k)
  let q := counter s k + 1
  let s := enterAll (wrCore s .seqSchedule k q) k engines
  let s := fetchSome k (q + fetchReach) 16 (setCore s k { coreOf s k with slipRun := 0 })
  if (coreOf s k).runDesc = none then s else comeDue s k

/-- One cycle of an interlock wait of n + 1 cycles (R852): the awaited engines work on, and the cycle is a slip. Nothing happens while a
spill has to take effect, or where a check fails. -/
def interlockStep (k n : Nat) (s : State) : State :=
  if spillDue (coreOf s k) then s
  else
    let s' := cycleWork [] s k
    if (coreOf s' k).detected ≠ [] then s
    else if (coreOf s' k).freeze ≠ [] || (coreOf s' k).runDesc = none then s'
    else
      let s' := countFrozen (enterAll s' k (awaited s k)) k 1 0
      setCore s' k { coreOf s' k with interlocked := some ⟨n⟩ }

/-- Cycles of an interlock wait, at most as many as are left, up to a freeze, a failed check, or a spill that has to take effect. -/
def interlockSteps (k : Nat) : Nat → State → State
  | 0, s => s
  | n + 1, s =>
    let s' := interlockStep k n s
    if (coreOf s' k).interlocked = some ⟨n⟩ && (coreOf s' k).freeze = [] then interlockSteps k n s' else s'

/-- One arithmetic cycle of a core: the work of the cycle, and, where it met no freeze, the next cycle. A cycle in which a check fails
waits for the core to act on the failure (REPLAY). An interlock wait goes on by one cycle; a frozen cycle passes (R263, R852). -/
def cycleStep (s : State) (k : Nat) : State :=
  let c := coreOf s k
  if c.runDesc = none || c.replaying ≠ none || c.detected ≠ [] then s
  else if c.freeze ≠ [] then setCore s k { c with frozen := c.frozen + 1 }
  else match c.interlocked with
  | some ⟨n + 1⟩ => if slipTooLong s k 1 then s else interlockStep k n s
  | some ⟨0⟩ => s
  | none =>
    if !mayLeave s k then s
    else
      let s' := cycleWork [] s k
      if (coreOf s' k).detected ≠ [] then s
      else if (coreOf s' k).freeze ≠ [] || (coreOf s' k).runDesc = none then s'
      else leaveCycle s' k

/-! ## Replay (R231, R273, R274, R279 to R287, R733, R734, R853) -/

/-- The column checks (`early`) or the checks of the adder tree on some element of a pass complete in cycle x: three cycles or one
cycle before the accumulator write (R136, R162, R226). The checks of a PE on the products of an element, to which R162 gives no cycle,
are reported with its column check (log entry 144). -/
def PassRun.checksAt (r : PassRun) (early : Bool) (x : Int) : Bool :=
  if early then r.tile.k ≠ 0 && r.due (x + 3) ≠ [] else r.due (x + 1) ≠ []

/-- The check whose failure is meant completes in the present cycle, of a command in progress, of the kind its row names; with an
entry in row 2 it is a check of that entry's spill, due now (R136, R162, R187, R226, R273, R327, R361). -/
def checkNow (s : State) (k : Nat) (f : Failure) : Bool :=
  let c := coreOf s k
  let drains := fun st : ArrayState => st.drains.any fun r =>
    r.bundle = f.bundle && decide (r.start ≤ st.clock) && decide (st.clock < r.start + (Drain.of r.word).m)
  match f.row, f.array with
    | 1, some a =>
      let st := c.array a.val
      (active s k).contains a.val && !st.worked && st.passes.any fun r => r.bundle = f.bundle && r.checksAt true st.clock
    | 2, some a =>
      let st := c.array a.val
      (active s k).contains a.val && match f.addr with
        | some e => st.spills.any fun p => p.bundle = f.bundle && entryKey p.row p.col = e && decide (p.due ≤ st.clock)
        | none => !st.worked && ((st.passes.any fun r => r.bundle = f.bundle && r.checksAt false st.clock) || drains st)
    | 3, some a => (active s k).contains a.val && !(c.array a.val).worked && drains (c.array a.val)
    | 7, none =>
      ((active s k).contains 4 && !c.vec.worked && c.vec.runs.any fun r => r.bundle = f.bundle && (Vec.of r.word).cls ≠ clsMovr
        && (if (Vec.of r.word).cls = clsIroot then decide (r.start < c.vec.clock) else (r.groupAt c.vec.clock).isSome))
      || ((active s k).contains 5 && !c.upd.worked
        && c.upd.run.any fun r => r.bundle = f.bundle && !updIdle s k r && (r.writes s k c.upd.clock).isSome)
    | _, _ => false

/-- A failure the environment reports is one whose check completes in the present schedule cycle. -/
def failureOk (s : State) (k : Nat) (f : Failure) : Bool := f.cycle = counter s k && checkNow s k f

/-- The inputs of the window are as they were read (R280). -/
def intact (c : CoreState) : Bool := !(c.guards.any fun e => e.2.hit) && !(c.arrays.any fun e => e.2.lineHit)

/-- The tests of R281, each applied to every failure of the cycle (R853): the ending status, if one holds. A command issued before the
point is one of a bundle before the point's (R274). -/
def replayEnds (s : State) (k : Nat) (p : ReplayPt) (f : Nat) (fails : List Failure) : Option Nat :=
  if fails.any fun x => decide (x.bundle < p.bundle) then some stReplayLost
  else if p.cycle + 2 ^ 27 ≤ f then some stReplayLost
  else if !intact (coreOf s k) then some stReplayLost
  else if p.attempts = 3 then some stDataLost
  else none

/-- The channel of a failure: kind, number, and the address of its CHECK record. -/
def failureChan (s : State) (k : Nat) (f : Failure) : Nat × Nat × Nat :=
  let a := arrChan k (f.array.getD 0).val
  match f.row, f.addr with
  | 4, some l => (kArray, a, l)
  | 6, some r => let c := rowChan s r; (c.kind, c.ch, c.index)
  | 7, some r => let c := rowChan s r; (c.kind, c.ch, c.index)
  | 7, none => (if (coreOf s k).vec.runs.any fun r => r.bundle = f.bundle then kVec else kUpd, k, 0)
  | 8, _ => (kBroadcast, a, 0)
  | _, _ => (kArray, a, 0)

/-- A failure of a check of the core's own units counted: in its register, as a transient, and against the margin where it came
from a residue or duplicated-unit check, as all checks of the accumulation path are (R163, R226, R228, R286, R328, R365, R736). Rows and lines of SRAM, and broadcast loads, were
counted as transients when they failed; a sector of HBM that was not poison is one here (R286, R429). -/
def countFailure (k : Nat) (s : State) (f : Failure) : State :=
  let die := k / 24
  let a := (f.array.getD 0).val
  let (kind, ch, addr) := failureChan s k f
  let margin := fun s : State => if f.margin || f.row = 2 || f.row = 3 then marginCount s die else s
  match f.row, f.addr with
  | 1, _ => margin (transient (bumpQuad s .arrResidueCount k a 1) kind ch addr)
  | 2, _ | 3, _ => margin (transient (bumpQuad s .accCheckCount k a 1) kind ch addr)
  | 5, _ =>
    let s := bumpQuad s .accCheckCount k a 1
    if f.poisoned then s else transient s kind ch addr
  | 7, none =>
    if kind = kVec then margin (transient (bumpCore s F.vecCheckCount_count k 1) kind ch addr)
    else margin (exhaust (transient (bumpCore s F.updCheckCount_count k 1) kind ch addr) kind ch addr)
  | 6, some _ | 7, some _ => if kind = kHbm && !f.poisoned then transient s kind ch addr else s
  | _, _ => s

/-- The failure a REPLAY record names: that of the command issued earliest (R853). Of several failures of one command the first is
named, those that commands met before those that checks report (log entry 112). -/
def namedFailure (l : List Failure) : Option Failure :=
  l.foldl (fun m f => match m with | none => some f | some g => if f.bundle < g.bundle then some f else some g) none

/-- The REPLAY record (R674, R853). -/
def replayRec (s : State) (k : Nat) (p : ReplayPt) (f : Nat) (x : Failure) (attempt status : Nat) : State :=
  let die := k / 24
  let n := k % 24
  let array := match x.array with | some a => a.val | none => 0xFF
  emit s die 0x11 0 Blk.seq.num n
    (pb 0 5 p.cycle + pb 5 5 f + pb 10 1 attempt + pb 11 1 array + pb 12 1 x.row + pb 13 1 status)

/-- The works of an array that issued before a bundle. -/
def ArrayState.before (a : ArrayState) (b : Nat) : ArrayState :=
  { a with
    loads := a.loads.filter fun x => decide (x.bundle < b), passes := a.passes.filter fun x => decide (x.bundle < b)
    drains := a.drains.filter fun x => decide (x.bundle < b) }

/-- Every command issued at or after the point that is not complete is discarded, with its reads; issue stops (R281). -/
def CoreState.discard (c : CoreState) (p : ReplayPt) : CoreState :=
  { c with
    arrays := Map.mapVals c.arrays fun a => a.before p.bundle
    vec := { c.vec with runs := c.vec.runs.filter fun r => decide (r.bundle < p.bundle) }
    upd := { c.upd with run := c.upd.run.filter fun r => decide (r.bundle < p.bundle), ahead := [] }
    signals := c.signals.filter fun x => decide (x.2.bundle < p.bundle)
    buffer := [], interlocked := none, detected := [], fetchLate := [] }

/-- The cycles after which nothing in progress is left. -/
def workLeft (s : State) (k : Nat) : Nat :=
  let c := coreOf s k
  let arrays := c.arrays.foldl (fun n e =>
    let a := e.2
    let n := a.passes.foldl (fun n p => max n (p.complete - a.clock).toNat) n
    let n := a.loads.foldl (fun n l => max n (l.done - a.clock).toNat) n
    a.drains.foldl (fun n r => max n (r.start + (Drain.of r.word).m - a.clock).toNat) n) 0
  let vec := c.vec.runs.foldl (fun n r => max n (r.done - c.vec.clock).toNat) arrays
  match c.upd.run with | some r => max vec (r.done s k - c.upd.clock).toNat | none => vec

/-- Cycles of the pause in which the commands issued before the point go on, pause cycle `j` the next (R281). Their merges take the tags
they have without the failure (R287). The pause stops at a failed check: one that a command meets, or one that is reported for the
cycle. -/
def pauseSteps (k : Nat) (fails : List (Nat × Failure)) : Nat → Nat → State → State
  | 0, _, s => s
  | n + 1, j, s =>
    let bad := (fails.filter fun e => e.1 = j && checkNow s k e.2).map (·.2)
    if bad ≠ [] then setCore s k { coreOf s k with detected := bad }
    else
      let s := engines.foldl (engineEnter k) (engines.foldl (engineWork [] k) s)
      let s := wrCore s .seqSchedule k (counter s k + 1)
      if (coreOf s k).detected ≠ [] || (coreOf s k).runDesc = none then s else pauseSteps k fails n (j + 1) s

/-- Spills that take effect before a replay (R231), in the order of their cycles, at most `fuel` of them: those of commands issued
before the point, and those whose exposure ended before the failed cycle. -/
def replaySpills (k : Nat) (p : ReplayPt) (f : Nat) (er : EngineRun) : Nat → State → State
  | 0, s => s
  | fuel + 1, s =>
    let l := (coreOf s k).arrays.flatMap fun e =>
      (e.2.spills.filter fun x => decide (x.bundle < p.bundle) || decide (x.cycle < f)).map fun x => (e.1, x)
    match earliestSpill l with
    | none => s
    | some (a, x) =>
      let st := arrayOf s k a
      replaySpills k p f er fuel (spillOne (setArray s k a { st with spills := st.spills.erase x }) k a er x)

/-- An entry emptied, with tally 0 (R231). -/
def AccEntry.emptied (e : AccEntry) : AccEntry := { e with value := 0, check := 0, empty := true, tally := 0 }

/-- An array after a replay: reached entries emptied, the tiles of the snapshot in place (R231, R281). -/
def replayArray (p : ReplayPt) (bcast : Bool) (a : Nat) (st : ArrayState) : ArrayState :=
  let active := match p.active.find? (fun e => e.1 = a) with | some e => e.2 | none => Tile.empty
  let pending := (p.pendingTiles.find? (fun e => e.1 = a)).map fun e => { e.2 with bcast := bcast }
  { st with
    acc := st.acc.map fun e => if st.reached.contains e.1 then (e.1, e.2.emptied) else e
    active := { active with bcast := bcast }, pendingTile := pending, spills := [] }

/-- Every array's entries and tiles. -/
def replayArrays (s : State) (k : Nat) (p : ReplayPt) : State :=
  (coreOf s k).arrays.foldl (fun s e => setArray s k e.1 (replayArray p (pathStatus s k e.1 = 1) e.1 (arrayOf s k e.1))) s

/-- The reads of a carried FEED issued again (R281). -/
def rereadFeed (k : Nat) (mf : MemFaults) (s : State) (x : FeedRead) : State :=
  let (lines, bad, s) := feedRead s (Feed.of x.word) mf
  let c := coreOf s k
  let s := setCore s k { c with feeds := c.feeds ++ [{ x with lines := if bad = none then lines else [] }] }
  match bad with
  | some row => detect s k (feedFailure s x.array x.bundle (counter s k) row)
  | none => s

/-- The carried FEEDs of a list whose bytes have all arrived at a failure: the bytes have reached the operand buffers (R132, R250,
R282). -/
def landArrived (s : State) (k : Nat) (p : ReplayPt) (arrived : List Nat) : State :=
  let here := fun r : FeedRead => p.carried.contains r.bundle && arrived.contains r.bundle
  let c := coreOf s k
  (c.feeds.filter here).foldl (fun s r => feedLand s k r.array r.lines)
    (setCore s k { c with feeds := c.feeds.filter fun r => !here r })

/-- The spills whose own checks have failed take no effect (R226, R364). -/
def dropFailed (s : State) (k : Nat) (fails : List Failure) : State :=
  fails.foldl (fun s f =>
    match f.row, f.array, f.addr with
    | 2, some a, some e =>
      let st := arrayOf s k a.val
      setArray s k a.val { st with
        spills := st.spills.filter fun p => !(p.bundle = f.bundle && entryKey p.row p.col = e && decide (p.due ≤ st.clock)) }
    | _, _, _ => s) s

/-- The point after one more replay for a failure in cycle f (R281, R282, R284); the carried FEEDs that are not among `feeds` are
complete. -/
def ReplayPt.again (p : ReplayPt) (f : Nat) (feeds : List FeedRead) : ReplayPt :=
  { p with
    attempts := p.attempts + 1, skipSignals := p.signalsSent, skipWaits := p.waitsReleased
    arrived := p.carried.filter fun b => !(feeds.any fun r => r.bundle = b)
    redo := f :: p.redo.filter fun x => decide (f ≤ x) }

/-- The commands issued before the point complete and their spills take effect, the schedule counter back at f behind them (R231,
R281, R287); writes that wait for the host hold the pause (R433). -/
def finishBefore (s : State) (k : Nat) (p : ReplayPt) (f : Nat) (r : ReplayCase) : State :=
  let held := s.heldWrites.length
  let work := workLeft s k
  let s := setCore s k { coreOf s k with pauseWork := work }
  let s := wrCore (pauseSteps k r.inPause (work + 1) 0 s) .seqSchedule k f
  let s := setCore s k { coreOf s k with detected := (coreOf s k).detected.map fun x => { x with cycle := f } }
  freezeHeld (replaySpills k p f { EngineRun.clean with mf := r.mf } (spillCount (coreOf s k)) s) k held

/-- A replay begins: the procedure of R281 up to the wait for the tiles. A WAIT that holds the core is discarded with the other
commands that are not complete. -/
def startReplay (s : State) (k : Nat) (p : ReplayPt) (f : Nat) (fails : List Failure) (r : ReplayCase) : State :=
  let s := withdrawWaits (dropFailed s k fails) fun w => w = .core k
  let feeds := (coreOf s k).feeds.filter fun x => p.carried.contains x.bundle
  let s := finishBefore (setCore s k { (coreOf s k).discard p with feeds := [] }) k p f r
  let q := (((coreOf s k).point).getD p).again f feeds
  let s := restoreRegs (replayArrays s k q) k q.regs
  let c := (coreOf s k).setClocks p.cycle
  let s := setCore s k { c with
    freeze := c.freeze.filter FreezeCond.isSnoop, replaying := some f, slipRun := 0, frozen := 0, point := some q }
  setSeqState (feeds.foldl (rereadFeed k r.mf) s) k seqPause

/-- The pause cycles that the reloaded tiles need: over the broadcast path the pending tile follows the active one (R140, R281). -/
def tilePause (a : ArrayState) : Nat :=
  let t := fun x : Tile => if x.k = 0 then 0 else x.kRows + 1
  let pending := match a.pendingTile with | some x => t x | none => 0
  if a.active.bcast then t a.active + pending else max (t a.active) pending

/-- The least number of pause cycles: 16, the commands issued before the point, the tiles, and the refill of the stream buffer with n
bundles at 16 a cycle (R281, R851). -/
def leastPause (c : CoreState) (n : Nat) : Nat :=
  c.arrays.foldl (fun m e => max m (tilePause e.2)) (max (max 16 c.pauseWork) (divCeil n 16))

end Sys2Proof.Machine
end

