-- ==== Sys2Proof/Machine/Cycle.lean ====
section
/-! DEFINITION. What a step does on an empty queue: one tick of time, in which the arithmetic clocks of the dies run and the cores
whose streams run go through their cycles (R41, R260, R650, R688, R705; log entries 7 and 8). -/

namespace Sys2Proof.Machine

/-- MHz × ticks in one arithmetic cycle of a die: a tick is 250 ps, and a stretched cycle lasts twice as long (R647, R705). -/
def cycleSpan (s : State) (die : Nat) : Nat := if stretches s die then 8000 else 4000

/-- One arithmetic cycle of every core of a die, lowest-numbered first; die 0's come before die 1's in a tick that ends a cycle of both.
The order is the model's: of two writes of one tick that no rule orders, the later core's stays (R57; DESIGN CHOICE, log entry 8). -/
def cycleCores (s : State) (die : Nat) : State :=
  ((s.cores.map (·.1)).filter fun k => k / 24 = die).foldl cycleStep s

/-- One tick of a die's arithmetic clock. -/
def tickClock (s : State) (die : Nat) : State :=
  if !clocksRun s then s
  else
    let c := clkOf s die
    let p := c.phase + rf s F.clkStatus_freqMhz die 0
    if p < cycleSpan s die then setClk s die { c with phase := p }
    else cycleCores (setClk s die { c with phase := p - cycleSpan s die }) die

/-- What a step does on an empty queue: one tick of time on both dies, in which messages arrive over the span bridge and the ports send
(log entry 7). -/
def blockTick (s : State) : State := sendPairs (tickClock (tickClock (bridgeArrive (idleTick s)) 0) 1)

end Sys2Proof.Machine
end

