-- ==== Sys2Proof/Machine/Arrays.lean ====
section
/-! DEFINITION. The commands of the matrix arrays: FEED, FEED_READ_ISSUE, MLOAD and the seven MPASS operations (R119 to R165,
R262, R279, R282, R850, R859). -/

namespace Sys2Proof.Machine

/-! ## FEED (R120, R124, R131, R132, R272, R279, R282) -/

/-- FEED at its due cycle (R131, R132): the bytes read ahead arrive, or the reads are made now; a late byte freezes the core. A
carried FEED that was complete at a failure does nothing again (R282). -/
def execFeed (c : CoreRef) (late : Nat) (mf : MemFaults) (s : State) : Host.Outcome State Fault Refusal :=
  let k := coreKey c
  match nextWide s k engArray with
  | none => .next s
  | some w =>
    let f := Feed.of w
    let core := coreOf s k
    let bundle := core.bundle
    if opcodeOf w ≠ 1 then .next s
    else if !f.moves || feedArrived core bundle then .next (wideIssued s k)
    else
      match core.feeds.find? (fun r => r.bundle = bundle) with
      | some r =>
        let s := setCore s k { core with feeds := core.feeds.filter fun x => x.bundle ≠ bundle }
        .next (slipFor (wideIssued (feedLand s k f.array r.lines) k) k late .feedLate)
      | none =>
        let (lines, bad, s) := feedRead (feedArms s k bundle f) f mf
        match bad with
        | some r => .next (detect (wideIssued s k) k (feedFailure s f.array bundle (counter s k) r))
        | none => .next (slipFor (wideIssued (feedLand s k f.array lines) k) k late .feedLate)

/-- FEED_READ_ISSUE (R131, R262): the feed scanner issues the reads of a FEED ahead of its due cycle, behind the commands of the
cycle (R278). Its reads arm guards only when its bundle lies in the current window (R272, R277). -/
def execFeedReadIssue (c : CoreRef) (bundle : Nat) (mf : MemFaults) (s : State) : Host.Outcome State Fault Refusal :=
  let k := coreKey c
  if !runs s k || bundleDue s k then .next s
  else match (feedsOwed s k).find? (fun x => x.1.index = bundle) with
  | none => .next s
  | some (x, f) =>
    let s := if inWindow s k bundle then feedArms s k bundle f else s
    let (lines, bad, s) := feedRead s f mf
    match bad with
    | some row => .next (detect s k (feedFailure s f.array bundle (counter s k) row))
    | none =>
      let core := coreOf s k
      .next (setCore s k { core with feeds := core.feeds ++ [⟨bundle, x.b.wide, counter s k, f.array, lines⟩] })

/-! ## MLOAD (R121, R140, R145, R150, R153, R160, R859) -/

/-- The degradation decision of an MLOAD: that of its first issue (R160, R715). -/
def degradeNow (s : State) (c : CoreState) (m : Mload) : Bool :=
  m.degradable && match c.degraded.find? (fun e => e.1 = c.bundle) with
    | some e => e.2
    | none => rflag s F.pwrStatus_tight 0 0

/-- The array after an MLOAD that starts now: its tile pending, with no line read yet, and its load in progress (R140, R145). -/
def loadArray (st : ArrayState) (bundle word : Nat) (degraded bc : Bool) (load : LoadFaults) (lf : LineFaults) : ArrayState :=
  let m := Mload.of word
  let plan := loadPlan bc m st.clock load
  let last := plan.starts.getLastD (st.clock, bc)
  let id := st.lastLoad + 1
  { st with
    pendingTile := some (newTile id word degraded last.2), loadCycle := last.1, lastLoad := id, failedLoads := (plan.checks.filter fun e => e.2 ≠ 0).length
    loads := st.loads ++ [⟨bundle, id, word, plan.starts, plan.checks, last.1 + m.kRows + m.n + 3, lf⟩] }

/-- MLOAD: the next stationary tile starts to load (R140, R141, R145); its port reads the lines in the cycles that follow (R859). -/
def execMload (c : CoreRef) (load : LoadFaults) (lines : LineFaults) (s : State) : Host.Outcome State Fault Refusal :=
  let k := coreKey c
  match nextWide s k engArray with
  | none => .next s
  | some w =>
    let m := Mload.of w
    let a := m.array
    let core := coreOf s k
    let bundle := core.bundle
    let st := arrayOf s k a
    let start := loadStart st st.clock
    if opcodeOf w ≠ 2 then .next s
    else if st.clock < start then .next (interlockFor s k (start - st.clock).toNat)
    else
      let degraded := degradeNow s core m
      let s := if m.degradable && !(core.degraded.any fun e => e.1 = bundle) then
          setCore s k { core with degraded := core.degraded ++ [(bundle, degraded)] } else s
      .next (wideIssued (setArray s k a (loadArray st bundle w degraded (pathStatus s k a = 1) load lines)) k)

/-! ## MPASS (R122, R125, R126, R136 to R147, R154 to R161, R232) -/

/-- The array after a pass of effect that starts now: its tile active, its rows merged into, its start recorded, and the pass in
progress (R136, R185). -/
def passArray (st : ArrayState) (p : Mpass) (bundle word cycle : Nat) (redo : Bool) (lf : LineFaults) : ArrayState :=
  let t := st.tile
  { st with
    active := t, pendingTile := none, lastPass := some (passRec p t st.clock)
    passes := st.passes ++ [⟨bundle, word, st.clock, t, st.bound, [], lf, redo, cycle⟩]
    merged := if p.merges t then ((List.range p.m).map (p.accRow + ·)).foldl insertNew st.merged else st.merged }

def stallReg (a : Nat) : Fld := match a with
  | 0 => F.arrStallA0_stallCycles | 1 => F.arrStallA1_stallCycles | 2 => F.arrStallA2_stallCycles | _ => F.arrStallA3_stallCycles

/-- The MPASS due next, if its op is `op`. -/
def nextPass (s : State) (k op : Nat) : Option Nat :=
  match nextWide s k engArray with
  | some w => if opcodeOf w = 3 && (Mpass.of w).op = op then some w else none
  | none => none

/-- An MPASS of one op: without effect for m or N of 0 (R125); held at the interlock until its start rule is met (R149);
otherwise it starts. -/
def runPass (s : State) (k op : Nat) (lines : LineFaults) : State :=
  match nextPass s k op with
  | none => s
  | some w =>
    let p := Mpass.of w
    let a := p.array
    let core := coreOf s k
    let st := arrayOf s k a
    let t := st.tile
    let start := passStart s k a st.clock (intervalOf p.fmt)
    if p.m = 0 || t.n = 0 then wideIssued s k
    else if st.clock < start then interlockFor s k (start - st.clock).toNat
    else
      let s := bump s (stallReg a) (k / 24) (k % 24) (passStall s k a (intervalOf p.fmt))
      let s := setArray s k a (passArray st p core.bundle w (counter s k) (redoing core (counter s k)) lines)
      wideIssued (if t.degraded then flagCore s k flagDegraded else s) k

/-- MPASS with op MAC (R154): products a × b, summed. -/
def execMpassMac (c : CoreRef) (lines : LineFaults) (s : State) : Host.Outcome State Fault Refusal :=
  .next (runPass s (coreKey c) 0 lines)

/-- MPASS with op L1 (R154, R156): absolute differences, summed. -/
def execMpassL1 (c : CoreRef) (lines : LineFaults) (s : State) : Host.Outcome State Fault Refusal :=
  .next (runPass s (coreKey c) 1 lines)

/-- MPASS with op L2SQ (R154, R156): squared differences, summed. -/
def execMpassL2sq (c : CoreRef) (lines : LineFaults) (s : State) : Host.Outcome State Fault Refusal :=
  .next (runPass s (coreKey c) 2 lines)

/-- MPASS with op MINPLUS (R154, R858): the minimum of sums. -/
def execMpassMinplus (c : CoreRef) (lines : LineFaults) (s : State) : Host.Outcome State Fault Refusal :=
  .next (runPass s (coreKey c) 3 lines)

/-- MPASS with op MAXPLUS (R154, R858): the maximum of sums. -/
def execMpassMaxplus (c : CoreRef) (lines : LineFaults) (s : State) : Host.Outcome State Fault Refusal :=
  .next (runPass s (coreKey c) 4 lines)

/-- MPASS with op MAXMIN (R154, R858): the maximum of minima. -/
def execMpassMaxmin (c : CoreRef) (lines : LineFaults) (s : State) : Host.Outcome State Fault Refusal :=
  .next (runPass s (coreKey c) 5 lines)

/-- MPASS with op MATCH (R154, R157): equal elements counted. -/
def execMpassMatch (c : CoreRef) (lines : LineFaults) (s : State) : Host.Outcome State Fault Refusal :=
  .next (runPass s (coreKey c) 6 lines)

end Sys2Proof.Machine
end

