-- ==== Sys2Proof/Machine/Accum.lean ====
section
/-! DEFINITION. The commands of the accumulation path: PLATE, DRAIN and SPILL (R179 to R222, R227, R230, R233). -/

namespace Sys2Proof.Machine

/-- The array after a PLATE of effect (R180, R182, R184, R185). -/
def plateArray (st : ArrayState) (p : Plate) : ArrayState :=
  let rows := (List.range p.m).map (p.accRow + ·)
  let cells := rows.flatMap fun r => (List.range p.n).map fun c => (r, c)
  let st := { st with
    bound := rows.foldl (fun m r => Map.put m r p.binding) st.bound
    merged := st.merged.filter fun r => !rows.contains r }
  cells.foldl (fun st (r, c) =>
    let e := entryOf st r c
    if e.fresh = p.init then st else setEntry st r c { e with fresh := p.init }) st

/-- PLATE: it takes effect in its issue cycle (R183, R185). -/
def execPlate (c : CoreRef) (s : State) : Host.Outcome State Fault Refusal :=
  let k := coreKey c
  match nextWide s k engAcc with
  | none => .next s
  | some w =>
    let p := Plate.of w
    if opcodeOf w ≠ 1 then .next s
    else if !p.acts then .next (wideIssued s k)
    else .next (wideIssued (setArray s k p.array (plateArray (arrayOf s k p.array) p)) k)

/-- The array after a DRAIN that starts now under its binding (R182, R204, R205). -/
def drainArray (st : ArrayState) (d : Drain) (r : DrainRun) : ArrayState :=
  { st with
    drainDone := st.clock + d.m, drains := st.drains ++ [r]
    merged := st.merged.filter fun r => !(decide (d.accRow ≤ r) && decide (r < d.accRow + d.m)) }

/-- DRAIN (R183, R204 to R222): it starts once every pass that started before it and every drain of its array is complete. -/
def execDrain (c : CoreRef) (er : EngineRun) (s : State) : Host.Outcome State Fault Refusal :=
  let k := coreKey c
  match nextWide s k engAcc with
  | none => .next s
  | some w =>
    let d := Drain.of w
    let st := arrayOf s k d.array
    let start := max st.clock (arrayDone st (counter s k))
    if opcodeOf w ≠ 2 then .next s
    else if !d.acts then .next (wideIssued s k)
    else if st.clock < start then .next (interlockFor s k (start - st.clock).toNat)
    else match Map.find st.bound d.accRow with
      | some b =>
        let core := coreOf s k
        let q := counter s k
        let r : DrainRun := ⟨core.bundle, w, st.clock, b, tagOf q, redoing core q, ⟨0, 0, 0, 0, 0, false⟩, [], er⟩
        .next (wideIssued (setArray s k d.array (drainArray st d r)) k)
      | none => .next (wideIssued s k)

/-- SPILL (R187 to R191): the earliest pending spill of an array takes effect, 8 cycles after the write that ended its exposure;
earlier spills of other arrays into the same plate entry come first. -/
def execSpill (c : CoreRef) (array : Fin 4) (er : EngineRun) (s : State) : Host.Outcome State Fault Refusal :=
  let k := coreKey c
  let st := arrayOf s k array.val
  let core := coreOf s k
  if core.runDesc = none || core.freeze ≠ [] || core.replaying ≠ none then .next s
  else match firstSpill st.spills with
    | none => .next s
    | some p =>
      if st.clock < p.due then .next s
      else
        let held := s.heldWrites.length
        let s := landInto k none (plateAddr k p.binding p.row p.col) 16 p.cycle er (spillCount core) s
        let st := arrayOf s k array.val
        .next (freezeHeld (spillOne (setArray s k array.val { st with spills := st.spills.erase p }) k array.val er p) k held)

end Sys2Proof.Machine
end

