-- ==== Sys2Proof/Machine/ColOps.lean ====
section
/-! DEFINITION. The collective engine's operations: acceptance checks, the data of a chain link, runs and their ends
(R475 to R499). -/

namespace Sys2Proof.Machine

/-- Op codes of R476. -/
def opReduceScatter : Nat := 3
def opAllGather : Nat := 4
def opAllReduce : Nat := 5
def opMulticast : Nat := 6

/-- The key of a collective command: die × 8 + DMA ring (R475). -/
def colKey (die r : Nat) : Nat := die * 8 + r

def colOf (s : State) (k : Nat) : Option Collective := Map.find s.cols k
def setCol (s : State) (k : Nat) (c : Collective) : State := { s with cols := Map.put s.cols k c }

/-- First flow of a DMA ring's commands, and the ring that a flow belongs to (R520). -/
def colFlow (k : Nat) : Nat := 32 + 16 * (k % 8)
def flowRing (flow : Nat) : Option Nat := if 32 ≤ flow && flow < 160 then some ((flow - 32) / 16) else none

/-! ## Acceptance (R477 to R479, R478, R530, R598) -/

/-- Formats a collective works on (R478). -/
def colFloat (f : Nat) : Bool := f == 1 || f == 2 || f == 3 || f == 4
def colInt (f : Nat) : Bool := f == 0xD || f == 0xE

/-- The command of a DMA descriptor (R476, R589); the group table is read later. -/
def colOfDesc (s : State) (die : Nat) (d : Desc) : Collective where
  k := d.k
  tag := d.tag
  op := bits (d.at_ 8 8) 3 0
  fmt := bits (d.at_ 8 8) 7 4
  carry := bits (d.at_ 8 8) 11 8
  stripes := bits (d.at_ 8 8) 16 12
  members := bits (d.at_ 8 8) 34 17
  group := d.at_ 16 6
  mgroup := d.at_ 22 2
  src := d.at_ 24 6
  dst := d.at_ 30 6
  elems := d.at_ 36 4
  start := bits (d.at_ 40 6) 40 0
  done := bits (d.at_ 46 6) 40 0
  recv := d.at_ 52 2
  runs := d.at_ 54 2
  bound := bits (d.at_ 8 8) 52 35
  signal := bits (d.at_ 56 8) 59 0
  table := []
  own := endpoint s die
  run := 0
  phase := .waiting
  released := false
  began := 0
  digest := 0
  status := stOk
  flags := 0
  runFlags := 0
  stopped := false
  got := []
  written := 0
  acks := 0
  refusals := 0
  fenced := []
  early := []

def Collective.isMcast (c : Collective) : Bool := c.op == opMulticast

/-- Bytes of an element of the input and of the running sum. -/
def Collective.w (c : Collective) : Nat := elemBits c.fmt / 8
def Collective.wc (c : Collective) : Nat := elemBits c.carry / 8

/-- Bytes at src and at dst (R476, R482 to R484, R492). -/
def Collective.srcLen (c : Collective) : Nat :=
  if c.isMcast then c.elems
  else if c.op = opAllGather then c.elems * c.w else c.members * (c.elems * c.w)
def Collective.dstLen (c : Collective) : Nat :=
  if c.isMcast then c.elems
  else if c.op = opReduceScatter then c.elems * c.wc else c.members * (c.elems * c.wc)

/-- The done SIGNAL, to the own die or module (R476). -/
def Collective.doneSignal (s : State) (c : Collective) : SignalReq :=
  ⟨bitOf c.done 40, if bitOf c.done 40 then location s * 2 else c.own, bits c.done 39 16, bits c.done 15 0, 24⟩

/-- The conditions of R478 that need no memory, with the reserved fields of R589. -/
def colFieldsOk (s : State) (die : Nat) (d : Desc) (c : Collective) : Bool :=
  let chain := !c.isMcast
  reservedOk d [(8, 8), (16, 48)]
    && bits (d.at_ 8 8) 63 53 = 0 && bits (d.at_ 40 6) 47 41 = 0 && bits (d.at_ 46 6) 47 41 = 0
    && bits (d.at_ 56 8) 63 60 = 0
    && (if chain then c.mgroup = 0 && c.recv = 0 else c.fmt = 0 && c.carry = 0 && c.group = 0)
    && (chain || c.members ≠ 0) && decide (c.members ≤ 131072)
    && decide (1 ≤ c.stripes) && decide (c.stripes ≤ 16)
    && (!chain || ((colFloat c.fmt && colFloat c.carry) || (colInt c.fmt && colInt c.carry)))
    && (c.op ≠ opAllGather || c.carry = c.fmt)
    && rangeIn s c.src c.srcLen (reachCol die) && rangeIn s c.dst c.dstLen (reachCol die)
    && (!chain || rangeIn s c.group (4 * c.members) (reachCol die))
    && !overlaps c.src c.srcLen c.dst c.dstLen
    && waitOk s (bitOf c.start 40) (bits c.start 39 16)
    && waitOk s (bitOf c.done 40) (bits c.done 39 16)
    && signalOk s (bits (d.at_ 56 8) 59 0)

/-- The group table's entries are well formed, with the own endpoint once (R477). -/
def groupOk (l : List Nat) (own : Nat) : Bool :=
  l.all (fun e => decide (e < 2 ^ 17)) && decide l.Nodup && l.contains own

/-- The CRC-32 that identifies a run (R481): op, fmt, carry_fmt, members, elems, stripes, the table's entries and the run
number, each little-endian (log entry 17). -/
def digestOf (op fmt carry members elems stripes : Nat) (table : List Nat) (run : Nat) : Nat :=
  crc32 (leBytes 1 op ++ leBytes 1 fmt ++ leBytes 1 carry ++ leBytes 4 members ++ leBytes 4 elems
    ++ leBytes 1 stripes ++ table.flatMap (leBytes 4) ++ leBytes 2 run)

def runDigest (c : Collective) : Nat := digestOf c.op c.fmt c.carry c.members c.elems c.stripes c.table c.run

/-- The digest that a multicast's destination forms of the sender's command (R481; log entry 22). -/
def mcastDigest (r : McastRun) : Nat := digestOf opMulticast 0 0 r.members r.total r.stripes [] r.run

/-- Whether a digest is that of the command's present run or a later one. -/
def Collective.names (c : Collective) (digest : Nat) : Bool :=
  (List.range (c.runs - c.run)).any fun i => runDigest { c with run := c.run + i } = digest

/-- COL_STATUS active bit of a ring (R504). -/
def setActive (s : State) (k : Nat) (on : Bool) : State :=
  let a := rf s F.colStatus_active (k / 8) 0
  let b := 2 ^ (k % 8)
  wf s F.colStatus_active (k / 8) 0 (if on then a ||| b else a &&& (255 - b))

/-- A packet dropped, an abort sent or received, a retry: counted, with its source of group 5 (R505, R627). -/
def colDrop (s : State) (die : Nat) : State := irq (bump s F.colDropCount_count die 0 1) die 5 19
def colAbort (s : State) (die : Nat) : State := irq (bump s F.colAbortCount_count die 0 1) die 5 17
def colRetry (s : State) (die : Nat) : State := irq (bump s F.colRetryCount_count die 0 1) die 5 18

/-! ## The data of a link (R482 to R487) -/

/-- The own position in the chain. -/
def Collective.pos (c : Collective) : Nat := c.table.idxOf c.own

/-- The chain's members. -/
def Collective.n (c : Collective) : Nat := c.table.length

/-- An endpoint precedes this member on a chain, and sends to it. -/
def Collective.predecessor (c : Collective) (ep : Nat) : Bool :=
  !c.isMcast && c.table.getD ((c.pos + c.n - 1) % c.n) 0 = ep

/-- The successor's endpoint. -/
def Collective.next (c : Collective) : Nat := c.table.getD ((c.pos + 1) % c.n) 0

/-- Elements in a 4 KiB packet of the running sum, and packets of a segment (R487). -/
def Collective.perPacket (c : Collective) : Nat := 4096 / c.wc
def Collective.packets (c : Collective) : Nat := divCeil c.elems c.perPacket

/-- Elements of packet q. -/
def Collective.count (c : Collective) (q : Nat) : Nat := min c.perPacket (c.elems - q * c.perPacket)

/-- Address of the own input elements of packet q of a segment. -/
def Collective.srcAt (c : Collective) (seg q : Nat) : Nat :=
  c.src + (if c.op = opAllGather then 0 else seg * (c.elems * c.w)) + q * c.perPacket * c.w

/-- Address of packet q of a segment at the destination. -/
def Collective.dstAt (c : Collective) (seg q : Nat) : Nat :=
  c.dst + (if c.op = opReduceScatter then 0 else seg * (c.elems * c.wc)) + q * c.perPacket * c.wc

/-- The own input codes of packet q of a segment; none where a row fails its re-read (R387). -/
def ownCodes (s : State) (mf : MemFaults) (c : Collective) (seg q : Nat) : Option (List Nat) × State :=
  let base := c.srcAt seg q
  let len := c.count q * c.w
  let s := readEffects s mf base len
  if (failRow s mf base len).isSome then (none, s)
  else
    let (b, s) := memRead s .engine base len
    (some (elemsOf c.fmt b (c.count q)), s)

/-- A code with whether it saturated an integer (R485). -/
def linkRound (carry : Nat) (x : Num) : Nat × Bool :=
  let r := convertElem carry .rne false false 0 x
  (r.code, (colInt carry && r.exc.invalid))

/-- The first link: the element converted to carry_fmt (R485). -/
def firstLink (fmt carry code : Nat) : Nat × Bool := linkRound carry (decodeElem fmt code)

/-- A later link: r + V rounded once to binary64, or saturating in INT64, then to carry_fmt (R221, R485). -/
def addLink (fmt carry r code : Nat) : Nat × Bool :=
  let a := decodeElem carry r
  let v := decodeElem fmt code
  if colInt carry then
    let sum := roundNumInt a v
    let o := linkRound carry (decodeElem 0xE sum.1)
    (o.1, sum.2 || o.2)
  else linkRound carry (fadd a v)
where
  /-- An INT64 sum with saturation. -/
  roundNumInt (a v : Num) : Nat × Bool :=
    match (opAdd .rne a v).x with
    | .fin neg m e => let r := roundInt 64 .rne 0 neg m e; (r.code, r.exc.invalid)
    | _ => (0, false)

/-- A packet of the running sum sent to the successor (R487, R517, R520). -/
def sendLink (s : State) (k : Nat) (c : Collective) (stage seg q : Nat) (codes : List Nat) : State :=
  queuePacket s (k / 8)
    (mkPacket ptData (2 + stage) c.next c.own (colFlow k + q % c.stripes) 0 seg (c.digest * 2 ^ 32 + q) (packElems c.carry codes))

/-- Completion flags set for the run. -/
def flagRun (c : Collective) (f : Nat) (on : Bool) : Collective :=
  if on then { c with runFlags := (setFlag (BitVec.ofNat 16 c.runFlags) f).toNat } else c

/-- Key of a segment's packet count. -/
def gotKey (stage seg : Nat) : Nat := stage * 2 ^ 20 + seg

/-- One more packet of a segment processed; a segment wholly written counts (R496). -/
def countPacket (c : Collective) (stage seg : Nat) (wrote : Bool) : Collective :=
  let g := Map.getD c.got (gotKey stage seg) 0 + 1
  { c with got := Map.put c.got (gotKey stage seg) g
           written := c.written + flagBit (wrote && g = c.packets) }

/-- Packet q of a segment written at the own destination (R482, R483, R489). -/
def writeLink (s : State) (k : Nat) (c : Collective) (seg q : Nat) (codes : List Nat) (mf : MemFaults) : State :=
  let bad := codes.any fun x => (decodeElem c.carry x).nonfinite
  setCol (memWrite s .engine mf (c.dstAt seg q) (packElems c.carry codes)) k (flagRun c flagNonfinite bad)

/-- A run stops with a status before it has executed to its end: nothing further is sent (R480, R495, R496). Packets that wait in the engine
for it go with it and are not counted, as those that arrive later are (DESIGN CHOICE, log entry 149). -/
def stopRun (s : State) (k : Nat) (status : Nat) : State :=
  match colOf s k with
  | none => s
  | some c =>
    let s := withdrawWaits s fun w => w = .collective k
    let mine := fun (key : Nat) => keyDie key = k / 8 && decide (2 ≤ keyVc key) && decide (keyVc key ≤ 4)
      && keyFlow key / 16 = 2 + k % 8
    let s := { s with flowsTx := s.flowsTx.map fun e => if mine e.1 then (e.1, { e.2 with queue := [] }) else e }
    setCol s k { c with phase := .ending, status := status, stopped := true, early := [] }

/-- A member's endpoint can be reached from a die (R495). -/
def canReach (s : State) (die ep : Nat) : Bool :=
  ep / 2 = location s || (rflag s F.fabRouteCtrl_routeValid die 0 && (chooseCandidate s die ep 0).isSome)

/-- Aborts to every other member that can still be reached, which the fenced or lost one cannot (R495, R496). -/
def sendAborts (s : State) (k : Nat) (status : Nat) (gone : Option Nat) : State :=
  match colOf s k with
  | none => s
  | some c =>
    (c.table.filter fun e => e ≠ c.own && gone ≠ some e && canReach s (k / 8) e).foldl (fun s e =>
      colAbort (queuePacket s (k / 8) (mkPacket ptAbort 0 e c.own (colFlow k) 0 0 (c.digest * 2 ^ 32 + status) []))
        (k / 8)) s

/-- The status of a member whose run a fence ends: PARTIAL once it has written a whole segment to its own dst, FENCED otherwise, also
when it has written packets of a segment that is not whole (R30, R495, R496; log entry 117). -/
def fencedStatus (c : Collective) : Nat := if c.written ≠ 0 then stPartial else stFenced

/-- No route remains to the successor: aborts, and LINK_LOST (R495). -/
def runLinkLost (s : State) (k : Nat) : State :=
  stopRun (sendAborts s k stLinkLost ((colOf s k).map Collective.next)) k stLinkLost

/-- A chain link receives FENCED: aborts, and PARTIAL or FENCED (R495). -/
def runFenced (s : State) (k : Nat) : State :=
  match colOf s k with
  | none => s
  | some c => stopRun (sendAborts s k stFenced (some c.next)) k (fencedStatus c)

/-- The status with which an abort ends a run: the one it carries, and PARTIAL for FENCED where a segment was written (R496). One that
no rule lets an abort carry is taken as LINK_LOST (R17, R491, R495; log entry 117). -/
def abortStatus (c : Collective) (status : Nat) : Nat :=
  if status = stFenced then fencedStatus c else if status = stDataLost then stDataLost else stLinkLost

/-- A source row of the run failed its re-read (R387, R426). -/
def runDataLost (s : State) (k : Nat) : State := stopRun s k stDataLost

/-- Failed residue checks of the adders at one packet (R491): each retry counts; the third failure ends the run with
DATA_LOST and aborts. Answers whether the packet was added. -/
def addRetries (s : State) (k : Nat) (fails : Nat) : Bool × State :=
  let die := k / 8
  let s := (List.range (min 2 fails)).foldl (fun s _ =>
    transient (colRetry s die) kCol die 0) s
  if 3 ≤ fails then (false, stopRun (sendAborts (exhaust s kCol die 0) k stDataLost none) k stDataLost) else (true, s)

/-- What becomes of a finished running sum of packet q: written at the owner, and gathered on by ALL_REDUCE, or forwarded
(R482, R484). -/
def passSum (s : State) (k seg q : Nat) (codes : List Nat) (mf : MemFaults) : State :=
  match colOf s k with
  | none => s
  | some c =>
    if seg = c.pos then
      let s := writeLink s k c seg q codes mf
      if c.op = opAllReduce && decide (1 < c.n) then sendLink s k c 1 seg q codes else s
    else sendLink s k c 0 seg q codes

/-- A packet of the first phase: the own elements added to the running sum (R485). -/
def addPacket (s : State) (k : Nat) (c : Collective) (seg q : Nat) (sum : List Nat) (fails : Nat) (mf : MemFaults) : State :=
  match ownCodes s mf c seg q with
  | (none, s) => runDataLost s k
  | (some own, s) =>
    match addRetries s k fails with
    | (false, s) => s
    | (true, s) =>
      let o := (sum.zip own).map fun (r, v) => addLink c.fmt c.carry r v
      let c := flagRun (countPacket c 0 seg (seg = c.pos)) flagBoundLapsed (o.any (·.2))
      passSum (setCol s k c) k seg q (o.map (·.1)) mf

/-- A packet of a gather: written, and passed on to all but the chain's last member (R483). -/
def gatherPacket (s : State) (k : Nat) (c : Collective) (seg q : Nat) (codes : List Nat) (mf : MemFaults) : State :=
  let c := countPacket c 1 seg true
  let s := writeLink s k c seg q codes mf
  if (c.pos + 1) % c.n = seg then s else sendLink s k c 1 seg q codes

/-- A DATA packet that the run processes. -/
def runPacket (s : State) (k : Nat) (p : Packet) (fails : Nat) (mf : MemFaults) : State :=
  match colOf s k with
  | none => s
  | some c =>
    let q := bits p.word 31 0
    let stage := if p.vc = 3 then 1 else 0
    if c.phase ≠ .running || c.isMcast || decide (c.n ≤ p.aux) || decide (c.packets ≤ q) then
      colDrop s (k / 8)
    else
      let codes := elemsOf c.carry p.payload (c.count q)
      if stage = 0 then addPacket s k c p.aux q codes fails mf else gatherPacket s k c p.aux q codes mf

/-- Whether every packet the run waits for has been processed, or every branch has answered (R482 to R484, R493). -/
def runComplete (c : Collective) : Bool :=
  if c.isMcast then decide (c.members ≤ c.acks + c.refusals + c.fenced.length)
  else (List.range c.n).all fun j =>
    (c.op = opAllGather || (c.pos = (j + 1) % c.n && decide (1 < c.n))
        || Map.getD c.got (gotKey 0 j) 0 = c.packets)
      && (c.op = opReduceScatter || j = c.pos || Map.getD c.got (gotKey 1 j) 0 = c.packets)

/-- The status of a multicast whose branches have all answered (R493). -/
def mcastStatus (c : Collective) : Nat :=
  if c.acks = c.members then stOk
  else if c.acks ≠ 0 then stPartial
  else if c.refusals = 0 then stFenced
  else stRefused

/-! ## Starting and ending a run -/

/-- The start WAIT of the run due: released at once with target 0, sent to its object otherwise (R461, R465, R480). -/
def startWait (s : State) (k : Nat) : State :=
  match colOf s k with
  | none => s
  | some c =>
    let c := { c with digest := runDigest c, phase := .waiting, runFlags := 0, stopped := false, status := stOk, got := []
                      written := 0, acks := 0, refusals := 0, fenced := [] }
    let die := k / 8
    if bits c.start 15 0 = 0 then bump (setCol s k { c with released := true }) F.synReleaseCount_count die 0 1
    else
      sendWait (setCol s k { c with released := false }) die
        ⟨bitOf c.start 40, bits c.start 39 16, bits c.start 15 0, true, c.bound, now s die, .collective k, 0⟩

/-- A run that waits for its start and for which an abort has already come ends with the abort's status (R496). -/
def earlyAbort (s : State) (k : Nat) : State :=
  match colOf s k with
  | none => s
  | some c =>
    match c.early.find? fun p => p.kind = ptAbort && bits p.word 63 32 = c.digest with
    | some p => stopRun s k (abortStatus c (bits p.word 7 0))
    | none => s

/-- The run due begins to wait for its start (R480, R486). -/
def nextRun (s : State) (k : Nat) : State := earlyAbort (startWait s k) k

/-- Packets waiting at a die for a command. -/
def waitingAt (s : State) (die : Nat) : List Packet := Map.getD s.colWaiting die []

/-- A packet's flow is of the ring of a command (R520). -/
def ownRing (k : Nat) (p : Packet) : Bool := flowRing p.flow = some (k % 8)

/-- A command that was accepted takes the packets that waited for its runs: those of its ring, or of another where none of its own ring
carries the digest; those of its ring for no run of it are dropped (R481, R486, R520; log entry 118). -/
def takeWaiting (s : State) (k : Nat) : State :=
  match colOf s k with
  | none => s
  | some c =>
    let die := k / 8
    let w := waitingAt s die
    let named := w.filter fun p => c.names (bits p.word 63 32)
    let mine := named.filter fun p => ownRing k p || !named.any fun q => ownRing k q && bits q.word 63 32 = bits p.word 63 32
    let bad := w.filter fun p => !c.names (bits p.word 63 32) && ownRing k p
    let s := { s with
      cols := Map.put s.cols k { c with early := c.early ++ mine }
      colWaiting := Map.put s.colWaiting die (w.filter fun p => !mine.contains p && !bad.contains p)
      colEnded := Map.put s.colEnded die ((Map.getD s.colEnded die []).filter fun d => !c.names d.1) }
    bad.foldl (fun s p => dropRec (colDrop s die) die 0 .col p) s

/-- A collective command starts from its ring: the checks in the order of R27, R28 and R478, then its first start WAIT. -/
def acceptCollective (s : State) (die r : Nat) (op : Nat) (mf : MemFaults) : State :=
  let n := 24 + r
  match takeDesc s die n (fun d => d.at_ 8 1 % 16 = op) with
  | none => s
  | some (d, s) =>
    let c := colOfDesc s die d
    let routed := rflag s F.fabRouteCtrl_routeValid die 0
    let stop := fun (s : State) (st : Nat) => ringAdvance (finishWith s die n d st) die n
    if !colFieldsOk s die d c then stop s stInvalid
    else if jobState s ≠ 2 || (c.isMcast && !routed) then stop s stRefused
    else if c.members = 0 || c.elems = 0 || c.runs = 0 then
      ringAdvance (finish s die n d stEmpty 0 0 0 c.signal) die n
    else
      let len := if c.isMcast then 0 else 4 * c.members
      let s := readEffects s mf c.group len
      if (failRow s mf c.group len).isSome then stop s stDataLost
      else
        let (b, s) := memRead s .engine c.group len
        let table := (List.range (len / 4)).map fun i => leAt b (4 * i) 4
        if !c.isMcast && !groupOk table c.own then stop s stInvalid
        else if !routed && table.any (fun e => e / 2 ≠ location s) then stop s stRefused
        else
          let k := colKey die r
          nextRun (takeWaiting (settlePower (setActive (setCol (keepActive s die n d) k { c with table := table }) k true)) k) k

/-- The own first elements of a chain: the segment that starts here is converted and sent; a member of its own writes it
(R482, R483). Packet q. -/
def firstPacket (mf : MemFaults) (k : Nat) (s : State) (q : Nat) : State :=
  match colOf s k with
  | none => s
  | some c =>
    if c.phase ≠ .running then s
    else
      let gather := c.op = opAllGather
      let seg := if gather then c.pos else (c.pos + c.n - 1) % c.n
      match ownCodes s mf c seg q with
      | (none, s) => runDataLost s k
      | (some own, s) =>
        let o := own.map (firstLink c.fmt c.carry)
        let codes := o.map (·.1)
        if gather then
          -- the own segment is written too; it counts among the segments of R496
          let c := countPacket c 1 seg true
          let s := writeLink s k c seg q codes mf
          if 1 < c.n then sendLink s k c 1 seg q codes else s
        else if 1 < c.n then sendLink (setCol s k (flagRun c flagBoundLapsed (o.any (·.2)))) k c 0 seg q codes
        else
          let c := flagRun (countPacket c 0 seg true) flagBoundLapsed (o.any (·.2))
          writeLink s k c seg q codes mf

/-- Packet q of a multicast (R492). -/
def mcastPacket (mf : MemFaults) (k : Nat) (s : State) (q : Nat) : State :=
  match colOf s k with
  | none => s
  | some c =>
    if c.phase ≠ .running then s
    else
      let base := c.src + q * 4096
      let len := min 4096 (c.elems - q * 4096)
      let s := readEffects s mf base len
      if (failRow s mf base len).isSome then runDataLost s k
      else
        let (b, s) := memRead s .engine base len
        queuePacket s (k / 8) (mkPacket ptMcast 4 0 c.own (colFlow k + q % c.stripes) 0 (c.mgroup * 4) (c.digest * 2 ^ 32 + q) b)

/-- The digest of a run that has ended, and whether with OK, noted on its die (R499). -/
def noteEnded (s : State) (die : Nat) (e : Nat × Bool) : State :=
  let l := Map.getD s.colEnded die []
  if l.contains e then s else { s with colEnded := Map.put s.colEnded die (l ++ [e]) }

/-- A run that has ended: its record, its counts and its done SIGNAL; the next run, or the command's completion (R480, R496,
R505, R674). A run that executed to its end sends its done SIGNAL (log entry 18). -/
def endRun (s : State) (k : Nat) (c : Collective) (status : Nat) : State :=
  let die := k / 8
  let delivered := if c.isMcast then c.acks else c.written
  let s := bump s F.colRunCount_count die 0 1
  let s := if status = stOk then s else irq s die 5 16
  let s := if status = stPartial || status = stFenced then bump s F.colPartialCount_count die 0 1 else s
  let s := emit s die 0x05 c.runFlags Blk.col.num (k % 8)
    (pb 0 1 status + pb 1 1 c.op + pb 2 2 c.run + pb 4 4 delivered)
  let s := if c.stopped then s else sendSignal s die (c.doneSignal s)
  let s := noteEnded s die (c.digest, status = stOk)
  let c := { c with flags := c.flags ||| c.runFlags }
  if status = stOk && decide (c.run + 1 < c.runs) then
    nextRun (setCol s k { c with run := c.run + 1 }) k
  else
    let n := 24 + k % 8
    let d := ((ringWork s die n).active.find? (fun d => d.k = c.k)).getD ⟨c.k, [], true⟩
    let s := setActive { s with cols := Map.del s.cols k } k false
    let s := dropActive s die n c.k
    let s := queueCompletion s die n (completionOf d status c.flags delivered 0 c.signal false)
    ringAdvance (settlePower s) die n

end Sys2Proof.Machine
end

