-- ==== Sys2Proof/Machine/FabRecv.lean ====
section
/-! DEFINITION. Receiving packets and moving flows: header checks, acknowledgement and order, delivery to the engines, lost
flows, port failure (R530 to R555). -/

namespace Sys2Proof.Machine

/-! ## Header checks (R538) -/

/-- Misrouted, stale and duplicate packets: counted, with their sources of group 5 (R518, R522, R530, R531, R538, R627). -/
def dropMisroute (s : State) (die : Nat) : State := irq (bump s F.fabMisrouteCount_count die 0 1) die 5 1
def dropStale (s : State) (die : Nat) : State := irq (bump s F.fabStaleCount_count die 0 1) die 5 0
def dropDup (s : State) (die : Nat) : State := irq (bump s F.fabDupCount_count die 0 1) die 5 2

/-- A packet's header as it reaches the router: sampled, and the counter held at or above its arrival stamp (R544, R668). -/
def takeHeader (s : State) (die p : Nat) (pkt : Packet) : State :=
  sampleHeader (arriveStamp s die pkt.stamp (lMinFabric pkt.hops)) die p 1 pkt

/-- Checks 1 to 3 of R538. -/
def headerChecks (s : State) (die p : Nat) (pkt : Packet) : Bool × State :=
  if 5 ≤ pkt.vc || pkt.kind = 0 || decide (9 ≤ pkt.kind) then (false, dropMisroute s die)
  else if !rflag s F.fabRouteCtrl_routeValid die 0 then (false, dropStale s die)
  else if pkt.epoch ≠ rf s F.fabRouteCtrl_epoch die 0 then (false, dropRec (dropStale s die) die p .fab pkt)
  else if pkt.dst ≠ endpoint s die then (false, dropRec (dropMisroute s die) die p .fab pkt)
  else (true, s)

/-- fseq f is later than g (R538). -/
def seqLater (f g : Nat) : Bool :=
  let d := (f + 2 ^ 16 - g) % 2 ^ 16
  decide (1 ≤ d) && decide (d ≤ 2 ^ 15 - 1)

/-- The key of the flow a received packet belongs to. -/
def rxKey (die : Nat) (pkt : Packet) : Nat := flowKey die pkt.src pkt.vc pkt.flow

/-- An ACK of a flow: the highest fseq accepted in order and the marks since the last one, with the fseq of the packet it answers
(R520, R535). -/
def sendAck (s : State) (key fseq : Nat) : State :=
  let f := flowRx s key
  let die := keyDie key
  let s := setFlowRx s key { f with sinceAck := 0, marks := 0 }
  queuePacket s die (mkPacket ptAck 1 (keyEp key) (endpoint s die) (keyFlow key) fseq 0
    ((f.expected + 2 ^ 16 - 1) % 2 ^ 16 + min 15 f.marks * 2 ^ 16) [])

/-- A packet of a flow accepted in order; every eighth since the last ACK sends one (R535). -/
def acceptSeq (s : State) (key : Nat) (pkt : Packet) : State :=
  let f := flowRx s key
  let s := setFlowRx s key { f with expected := (f.expected + 1) % 2 ^ 16, sinceAck := f.sinceAck + 1
                                    marks := f.marks + flagBit pkt.mark }
  if 8 ≤ f.sinceAck + 1 then sendAck s key pkt.fseq else s

/-- Bytes in the reorder store of a die (R539). -/
def reorderBytes (s : State) (die : Nat) : Nat :=
  ((s.flowsRx.filter fun e => keyDie e.1 = die).map fun e => (e.2.held.map packetBytes).sum).sum

/-- Check 5 of R538 and the order of R539: a duplicate is dropped and acknowledged; a later packet is held while the store
has room, once; the next expected one is accepted, with those held behind it. Answers the packets to process, in order. -/
def orderPacket (s : State) (die : Nat) (pkt : Packet) : List Packet × State :=
  let key := rxKey die pkt
  let f := flowRx s key
  if pkt.fseq = f.expected then
    drain (f.held.length + 1) key pkt s
  else if seqLater pkt.fseq f.expected then
    if f.held.any (fun h => h.fseq = pkt.fseq) then ([], s)
    else if 2 * 0x10_0000 < reorderBytes s die + packetBytes pkt then ([], s)
    else ([], setFlowRx s key { f with held := f.held ++ [pkt] })
  else ([], sendAck (dropDup s die) key pkt.fseq)
where
  /-- The expected packet and every held one that follows without a gap. -/
  drain : Nat → Nat → Packet → State → List Packet × State
    | 0, _, _, s => ([], s)
    | fuel + 1, key, p, s =>
      let s := acceptSeq s key p
      let f := flowRx s key
      match f.held.find? fun h => h.fseq = f.expected with
      | none => ([p], s)
      | some h =>
        let (l, s) := drain fuel key h (setFlowRx s key { f with held := f.held.erase h })
        (p :: l, s)

/-! ## Delivery -/

/-- The first command of a die for which `p` holds, the one of the packet's ring before the others (R520; log entry 118). -/
def colPick (s : State) (die : Nat) (pkt : Packet) (p : Collective → Bool) : Option Nat :=
  match s.cols.find? fun e => e.1 / 8 = die && ownRing e.1 pkt && p e.2 with
  | some e => some e.1
  | none => (s.cols.find? fun e => e.1 / 8 = die && p e.2).map (·.1)

/-- The collective command of a die whose run has a packet's digest (R481). -/
def colByDigest (s : State) (die : Nat) (pkt : Packet) : Option Nat :=
  colPick s die pkt fun c => c.digest = bits pkt.word 63 32

/-- The command whose later run has a packet's digest: the packet came before this member's run began (R486). -/
def colByLater (s : State) (die : Nat) (pkt : Packet) : Option Nat :=
  colPick s die pkt fun c => c.phase ≠ .ending &&
    (List.range (c.runs - c.run - 1)).any fun i => runDigest { c with run := c.run + 1 + i } = bits pkt.word 63 32

/-- The digest check of R481 for a packet that names a run: the run of a command that it names, now or later; no command of the die
yet, so that it waits in the engine; a run that has ended; or none. -/
inductive DigestHit where
  | now (k : Nat) | later (k : Nat) | wait | ended | none
deriving DecidableEq, Repr

/-- The job still takes packets: it runs, and its end has not taken effect (R499, R555). -/
def jobTakes (s : State) : Bool := jobRuns s && jobState s ≠ 3

/-- A packet is of a run that has ended: its digest is of one that ended other than with OK, or of any one for an abort. Data of a run that
ended with OK has all come, so its digest is of a repeated command (R486, R499; log entry 118). -/
def ofEnded (s : State) (die : Nat) (pkt : Packet) : Bool :=
  (Map.getD s.colEnded die []).any fun e => e.1 = bits pkt.word 63 32 && (!e.2 || pkt.kind = ptAbort)

/-- A packet that no command of the die names: of an ended run, or of an ended job (R499, R555), of no run where the command of its ring
still runs and has another digest (R481), and of a command to come otherwise (R486; log entry 118). -/
def unnamedHit (s : State) (die : Nat) (pkt : Packet) : DigestHit :=
  if !jobTakes s || ofEnded s die pkt then .ended
  else if s.cols.any fun e => e.1 / 8 = die && ownRing e.1 pkt && e.2.phase ≠ .ending && !runComplete e.2 then .none
  else .wait

def digestHit (s : State) (die : Nat) (pkt : Packet) : DigestHit :=
  match colByDigest s die pkt with
  | some k => .now k
  | Option.none => match colByLater s die pkt with
    | some k => .later k
    | Option.none => unnamedHit s die pkt

/-- The packet fails the digest check (R538). -/
def digestBad (s : State) (die : Nat) (pkt : Packet) : Bool :=
  digestHit s die pkt = .none || digestHit s die pkt = .ended

/-- A packet that fails the digest check: counted, and recorded where it is of no run (R481, R499). -/
def dropDigest (s : State) (die p : Nat) (pkt : Packet) : State :=
  let s' := colDrop s die
  if digestHit s die pkt = .ended then s' else dropRec s' die p .col pkt

/-- A packet kept for a later run of a command, or for a command to come (R486, R496). -/
def keepPacket (s : State) (k : Nat) (pkt : Packet) : State :=
  match colOf s k with
  | some c => setCol s k { c with early := c.early ++ [pkt] }
  | none => s

def keepWaiting (s : State) (die : Nat) (pkt : Packet) : State :=
  { s with colWaiting := Map.put s.colWaiting die (waitingAt s die ++ [pkt]) }

/-- A DATA packet taken by its run, or kept until its run has started (R486). -/
def deliverData (s : State) (die p : Nat) (pkt : Packet) (fails : Nat) (mf : MemFaults) : State :=
  match digestHit s die pkt with
  | .none => dropDigest s die p pkt
  | .ended => dropDigest s die p pkt
  | .wait => keepWaiting s die pkt
  | .later k => keepPacket s k pkt
  | .now k =>
    match colOf s k with
    | some c => if c.phase = .waiting then keepPacket s k pkt else runPacket s k pkt fails mf
    | none => s

/-- An abort taken by its run, or kept for it (R496). -/
def deliverAbort (s : State) (die p : Nat) (pkt : Packet) : State :=
  match digestHit s die pkt with
  | .none => dropDigest s die p pkt
  | .ended => dropDigest s die p pkt
  | .wait => keepWaiting (colAbort s die) die pkt
  | .later k => keepPacket (colAbort s die) k pkt
  | .now k =>
    match colOf s k with
    | some c => if c.phase = .ending then colAbort s die else stopRun (colAbort s die) k (abortStatus c (bits pkt.word 7 0))
    | none => s

/-- A SIGNAL packet taken by its object: delivered with its stamp, or lost; one with increment 0 has no effect (R463, R470, R849). To the
other die it goes on with this die's stamp beside it (R666, R682). -/
def deliverPacketSignal (s : State) (die : Nat) (pkt : Packet) : State :=
  let r := signalOf pkt.word pkt.flow
  if r.increment = 0 then s
  else if (r.far && decide (farCount s ≤ r.index)) || (!r.far && decide (65536 ≤ r.index)) then signalLost s die
  else
    deliverSignal s die (servingDie r.far r.index die) ⟨r.far, r.index, r.increment, pkt.src, pkt.stamp, now s die⟩

/-- Key of a multicast being received: its sender, the receiving die, the sender's ring and the digest (R520). -/
def mcastKey (die : Nat) (pkt : Packet) : Nat :=
  ((pkt.src * 2 + die) * 16 + pkt.flow / 16 % 16) * 2 ^ 32 + bits pkt.word 63 32

/-- The receiving die of such a key. -/
def mcastDie (key : Nat) : Nat := key / 2 ^ 36 % 2

/-- Why a destination refuses a multicast, if it does: the reason of its REFUSED record (R494). -/
def mcastRefusal (s : State) (die : Nat) (run : McastRun) : Option Nat :=
  if !rangeIn s run.dst run.total (reachCol die) then some 6
  else if hiddenIn s run.dst run.total ≠ [] then some 5
  else if jobState s ≠ 2 then some 4
  else none

/-- A multicast's bytes have landed at a destination: recv is signalled and the acknowledgement sent (R468, R492). -/
def mcastDone (s : State) (die : Nat) (pkt : Packet) (run : McastRun) : State :=
  let s := sendSignal s die ⟨false, endpoint s die, run.recv, 1, 24⟩
  respond s die pkt ptMcastAck pkt.fseq (bits pkt.word 63 32 * 2 ^ 32 + run.total % 2 ^ 32)

/-- A multicast packet at a destination: written, and once every write that the die's engine has issued has landed, recv is signalled and the
acknowledgement sent; or refused (R433, R468, R492 to R494). -/
def deliverMcast (s : State) (die : Nat) (pkt : Packet) (run : McastRun) (mf : MemFaults) : State :=
  let key := mcastKey die pkt
  let rx := Map.getD s.mcasts key ⟨0, false, run, none⟩
  let seen := rx.seen + pkt.payload.length
  let put := fun (s : State) (refused : Bool) (owed : Option Packet) =>
    { s with mcasts := if run.total ≤ seen && owed.isNone then Map.del s.mcasts key
                       else Map.put s.mcasts key ⟨seen, refused, run, owed⟩ }
  if rx.refused then put s true none
  else match mcastRefusal s die run with
    | some reason =>
      let s := refusedRec s die .col 0 run.dst .engine reason (bits pkt.word 63 32)
      put (respond s die pkt ptRefuse pkt.fseq (bits pkt.word 63 32 * 2 ^ 32)) true none
    | none =>
      let s := memWrite s .engine mf (run.dst + bits pkt.word 31 0 * 4096) pkt.payload
      if seen < run.total then put s false none
      else if s.heldWrites ≠ [] then put s false (some pkt)
      else mcastDone (put s false none) die pkt run

/-- Multicasts whose last bytes have landed since are completed (R468). -/
def mcastSettle (s : State) : State :=
  s.mcasts.foldl (fun s e =>
    match e.2.owed with
    | some p =>
      if s.heldWrites ≠ [] then s
      else mcastDone { s with mcasts := Map.del s.mcasts e.1 } (mcastDie e.1) p e.2.run
    | none => s) s

/-- A multicast packet ahead of its turn keeps the destination's side of its run beside it. -/
def noteMcast (s : State) (die : Nat) (pkt : Packet) (run : McastRun) : State :=
  let key := mcastKey die pkt
  if pkt.fseq = (flowRx s (rxKey die pkt)).expected || !seqLater pkt.fseq (flowRx s (rxKey die pkt)).expected
      || (Map.find s.mcasts key).isSome then s
  else { s with mcasts := Map.put s.mcasts key ⟨0, false, run, none⟩ }

/-- The destination's side of a packet's run: that of the packet received, or the one kept for a packet that waited. -/
def mcastRunFor (s : State) (die : Nat) (pkt : Packet) (run : McastRun) : McastRun :=
  match Map.find s.mcasts (mcastKey die pkt) with
  | some rx => rx.run
  | none => run

/-- Packets between the module's dies are delivered over the span bridge, in order, without route or epoch (R35, R667). -/
def deliverBridge (s : State) (die : Nat) (pkt : Packet) (fails : Nat) (mf : MemFaults) : State :=
  let s := arriveStamp s die pkt.stamp lMinBridge
  if pkt.kind = ptData then deliverData s die 0 pkt fails mf
  else if pkt.kind = ptAbort then deliverAbort s die 0 pkt
  else s

/-! ## Lost flows (R540) -/

/-- The chain run whose link a flow is: its key (R520). -/
def linkRun (s : State) (die dst vc flow : Nat) : Option Nat :=
  if (vc = 2 || vc = 3) && decide (32 ≤ flow) then
    let k := colKey die ((flow - 32) / 16)
    match colOf s k with
    | some c => if c.phase = .running && !c.isMcast && c.next = dst then some k else none
    | none => none
  else none

/-- A flow is lost: its SIGNALs are lost, its chain run finds no route, its packets leave the retention buffer (R540). -/
def flowLost (s : State) (key : Nat) : State :=
  let die := keyDie key
  let f := flowTx s key
  let all := f.retained.map (·.1) ++ f.queue
  let s := setFlowTx s key { f with queue := [], retained := [], resend := [], cand := none }
  let s := (all.filter fun p => p.kind = ptSignal).foldl (fun s _ => signalLost s die) s
  let s := match linkRun s die (keyEp key) (keyVc key) (keyFlow key) with
    | some k => runLinkLost s k
    | none => s
  settleOutstanding s die

/-- A multicast run with no port left ends with LINK_LOST (R533). -/
def mcastLost (s : State) (die flow : Nat) : State :=
  let k := colKey die ((flow - 32) / 16)
  match colOf s k with
  | some c => if c.phase = .running && c.isMcast then stopRun s k stLinkLost else s
  | none => s

end Sys2Proof.Machine
end

