-- ==== Sys2Proof/Machine/Collective.lean ====
section
/-! DEFINITION. The collective commands: REDUCE_SCATTER, ALL_GATHER, ALL_REDUCE, MULTICAST, and the start, end and timeout of a
run (R475 to R499). -/

namespace Sys2Proof.Machine

/-- REDUCE_SCATTER (R476 to R482). -/
def execReduceScatter (die : Die) (ring : Fin 8) (mf : MemFaults) (s : State) : Host.Outcome State Fault Refusal :=
  .next (acceptCollective s die.val ring.val opReduceScatter mf)

/-- ALL_GATHER (R476 to R479, R483). -/
def execAllGather (die : Die) (ring : Fin 8) (mf : MemFaults) (s : State) : Host.Outcome State Fault Refusal :=
  .next (acceptCollective s die.val ring.val opAllGather mf)

/-- ALL_REDUCE (R476 to R479, R484). -/
def execAllReduce (die : Die) (ring : Fin 8) (mf : MemFaults) (s : State) : Host.Outcome State Fault Refusal :=
  .next (acceptCollective s die.val ring.val opAllReduce mf)

/-- MULTICAST (R476 to R479, R492, R530). -/
def execMulticast (die : Die) (ring : Fin 8) (s : State) : Host.Outcome State Fault Refusal :=
  .next (acceptCollective s die.val ring.val opMulticast MemFaults.none)

/-- COLLECTIVE_RUN_START (R480, R486, R491): the start WAIT has released; the own first packets go out and the packets that waited
are processed, each with its failed residue checks. -/
def execCollectiveRunStart (die : Die) (ring : Fin 8) (failedAdds : List (Fin 4)) (mf : MemFaults) (s : State) :
    Host.Outcome State Fault Refusal :=
  let k := colKey die.val ring.val
  match colOf s k with
  | none => .next s
  | some c =>
    if c.phase ≠ .waiting || !c.released then .next s
    else
      let later := c.early.filter fun p => bits p.word 63 32 ≠ c.digest
      let s := setCol s k { c with phase := .running, began := now s die.val, early := later }
      if c.isMcast then
        if chooseCandidate s die.val 0 4 = none then .next (stopRun s k stLinkLost)
        else .next ((List.range (divCeil c.elems 4096)).foldl (mcastPacket mf k) s)
      else
        let s := (List.range c.packets).foldl (firstPacket mf k) s
        let waited := c.early.filter fun p => bits p.word 63 32 = c.digest
        .next ((waited.zipIdx).foldl (fun s (p, i) => runPacket s k p (failedAdds.getD i 0).val mf) s)

/-- COLLECTIVE_RUN_END (R468, R480, R493, R496): a run that is complete, or was stopped, ends. One that sends its done SIGNAL waits for
the writes that the engine issued before to land (R433). -/
def execCollectiveRunEnd (die : Die) (ring : Fin 8) (s : State) : Host.Outcome State Fault Refusal :=
  let k := colKey die.val ring.val
  match colOf s k with
  | none => .next s
  | some c =>
    if c.phase = .ending then .next (endRun s k c c.status)
    else if c.phase = .running && runComplete c && s.heldWrites = [] then .next (endRun s k c (if c.isMcast then mcastStatus c else stOk))
    else .next s

/-- COLLECTIVE_TIMEOUT (R467, R480): a start WAIT or a run older than bound × 64 µs ends with TIMEOUT. -/
def execCollectiveTimeout (die : Die) (ring : Fin 8) (s : State) : Host.Outcome State Fault Refusal :=
  let k := colKey die.val ring.val
  match colOf s k with
  | none => .next s
  | some c =>
    let limit := c.bound * 256_000
    if c.phase = .running && decide (c.began + limit ≤ now s die.val) && !runComplete c then
      .next (stopRun s k stTimeout)
    else if c.phase = .waiting && !c.released then
      let d := servingDie (bitOf c.start 40) (bits c.start 39 16) die.val
      let key := objKey (bitOf c.start 40) (bits c.start 39 16)
      match (heldAt s d key).find? (fun w => w.waiter = .collective k && decide (w.issued + limit ≤ now s die.val)) with
      | some w => .next (timeoutWait (setHeld s d key ((heldAt s d key).erase w)) d w)
      | none => .next s
    else .next s

end Sys2Proof.Machine
end

