-- ==== Sys2Proof/Machine/CompOps.lean ====
section
/-! DEFINITION. Companion slots: starting, stopping and the end of a program, what a program may access, and its control core (R616, R619
to R626). -/

namespace Sys2Proof.Machine

/-- The key of a companion slot: die × 4 + slot. -/
def compKey (die slot : Nat) : Nat := die * 4 + slot

def CompSlot.fresh : CompSlot := ⟨[], false⟩
def compOf (s : State) (k : Nat) : CompSlot := Map.getD s.comps k CompSlot.fresh
def setComp (s : State) (k : Nat) (c : CompSlot) : State := { s with comps := Map.put s.comps k c }

/-- CTL_COMP_STATUS state codes (R643). -/
def compIdle : Nat := 0
def compRunning : Nat := 1
def compExited : Nat := 2
def compFaulted : Nat := 3

def compState (s : State) (die slot : Nat) : Nat := rf s F.ctlCompStatus_state die slot

/-- A program runs in the slot and is not held by a WAIT. -/
def compActive (s : State) (die slot : Nat) : Bool :=
  compState s die slot = compRunning && !(compOf s (compKey die slot)).waiting

/-- CTL_CORE_STATE of control core 4 + s: 0b10 while the companion runs, 0b01 firmware otherwise (R619, R643). -/
def setCompCore (s : State) (die slot code : Nat) : State :=
  wr s .ctlCoreState die 0 (setBits (rd s .ctlCoreState die 0) (2 * (4 + slot) + 1) (2 * (4 + slot)) code)

/-- What a service answers in a0. -/
def compAnswer (s : State) (die slot v : Nat) : State := companionReturn s (compKey die slot) v

/-- Companion address of a slot's region of control memory, and its bytes (R622). -/
def compBase : Nat := 0x00F0_0000_0000
def compBytes : Nat := 2 * 0x10_0000

/-- The slot's control core runs a program from the first byte of its region in U mode; its other registers read 0 (R616, R621; log entry
154). -/
def compCore (s : State) (die slot : Nat) : State :=
  setCtlCore s die (4 + slot) { ControlCore.fresh with
    mode := .user, pc := BitVec.ofNat 64 compBase, mtimecmp := mtimecmp s die (4 + slot) }

/-- Firmware runs on the slot's control core again, in M mode (R619). -/
def firmwareCore (s : State) (die slot : Nat) : State :=
  setCtlCore s die (4 + slot) { ctlCore s die (4 + slot) with mode := .machine }

/-- A running program ends in a state; its WAIT is withdrawn and firmware runs on the core again (R619). -/
def compEnd (s : State) (die slot st : Nat) : State :=
  let k := compKey die slot
  let s := withdrawWaits s fun w => w = .companion k
  let s := setComp s k { compOf s k with waiting := false }
  setCompCore (wf (firmwareCore s die slot) F.ctlCompStatus_state die slot st) die slot 1

/-- A running program is stopped with result JOB_KILLED (R626, R643). -/
def compStop (s : State) (die slot : Nat) : State :=
  if compState s die slot = compRunning then
    wf (compEnd s die slot compIdle) F.ctlCompStatus_result die slot stJobKilled
  else s

/-- Every running program stops (R626). -/
def compStopAll (s : State) : State :=
  (List.range 8).foldl (fun s k => compStop s (k / 4) (k % 4)) s

/-- The source range of a start is one that R621 allows: usable HBM or shared memory of the slot's die. -/
def compRangeOk (s : State) (die src size : Nat) : Bool :=
  rangeIn s src size fun r => match r with
    | .hbm => true
    | .shared d => d = die
    | .core _ => false

/-- A start of a slot, checked in the order of R27 and R621; `mf` is what the read of the image meets (R387, R426, R430). -/
def compStart (s : State) (die slot : Nat) (mf : MemFaults) : State :=
  let src := rf s F.ctlCompSrc_src die slot
  let size := rf s F.ctlCompSize_size die slot
  let result := fun (s : State) (v : Nat) => wf s F.ctlCompStatus_result die slot v
  if 2 * 0x10_0000 < size || !compRangeOk s die src size then result s stInvalid
  else if jobState s ≠ 2 || compState s die slot = compRunning || hiddenIn s src size ≠ [] then result s stRefused
  else if size = 0 then result s stEmpty
  else if (failRow s mf src size).isSome then result (readEffects s mf src size) stDataLost
  else
    let s := readEffects s mf src size
    let s := setComp s (compKey die slot) ⟨putBytes [] 0 (memBytes s src size), false⟩
    let s := setCtlMem s die { ctlMemOf s die with poison := (ctlMemOf s die).poison.filter fun r => r / 16384 ≠ slot }
    let s := wf (result s stOk) F.ctlCompStatus_state die slot compRunning
    setCompCore (compCore s die slot) die slot 2

/-! ## Accesses of a program (R408, R622, R623; log entry 28) -/

/-- A range lies in the slot's region, which a program reads, writes and executes. -/
def inSlot (addr len : Nat) : Bool := decide (compBase ≤ addr) && decide (addr + len ≤ compBase + compBytes)

/-- A range lies in the device memory that a program reads and writes: usable HBM, or one of the shared memories. -/
def inDevice (s : State) (addr len : Nat) : Bool :=
  rangeIn s addr len fun r => match r with
    | .core _ => false
    | _ => true

/-- The number of a 128-byte row of a slot's region among the rows of the slots (R386). -/
def slotRow (slot addr : Nat) : Nat := slot * 16384 + (addr - compBase) / 128

/-- A row of a slot's region as companion addresses: its first byte. -/
def slotRowBase (row : Nat) : Nat := compBase + row % 16384 * 128

/-- A read of the slot's region meets a row that fails both reads, or one that holds a poison code (R386, R387, R389). -/
def slotFails (s : State) (die slot addr len : Nat) (mf : MemFaults) : Bool :=
  (mf.failAt.any fun a => decide (addr ≤ a) && decide (a < addr + len))
    || (ctlMemOf s die).poison.any fun r => r / 16384 = slot && overlaps addr len (slotRowBase r) 128

/-- The rows of control memory that hold a poison code after a store to the slot's region: whole rows get a valid code, and a row whose
merge read fails twice gets a poison one (R388, R389). -/
def slotPoison (s : State) (die slot addr len : Nat) (mf : MemFaults) : List Nat :=
  let whole := fun r => r / 16384 = slot && decide (addr ≤ slotRowBase r) && decide (slotRowBase r + 128 ≤ addr + len)
  let bad := (mf.mergeFails.filter fun a => decide (addr ≤ a) && decide (a < addr + len)).map (slotRow slot)
  (bad.filter fun r => !whole r).foldl insertNew ((ctlMemOf s die).poison.filter fun r => !whole r)

/-- A load: what it reads goes to the program, or none where it stops it; with what its checks count (R387, R426, R623). -/
def compLoad (s : State) (die slot addr len : Nat) (mf : MemFaults) : Option Bytes × State :=
  if inSlot addr len then
    (if slotFails s die slot addr len mf then none else some (mapBytes (compOf s (compKey die slot)).image (addr - compBase) len), s)
  else if !inDevice s addr len then (none, s)
  else
    match readRanges s mf (visibleIn s addr len) with
    | (some _, s) => (none, s)
    | (none, s) =>
      let (b, s) := memRead s .firmware addr len
      (some b, s)

/-- A store, or none where it stops the program (R277, R408, R623). -/
def compStore (s : State) (die slot addr : Nat) (data : Bytes) (mf : MemFaults) : Option State :=
  let k := compKey die slot
  if inSlot addr data.length then
    let s := setCtlMem s die { ctlMemOf s die with poison := slotPoison s die slot addr data.length mf }
    some (setComp s k { compOf s k with image := putBytes (compOf s k).image (addr - compBase) data })
  else if inDevice s addr data.length then some (memWrite s .firmware mf addr data)
  else none

/-- The CSRs that a program may read: cycle, time and instret (R622). -/
def csrCycle : Nat := 0xC00
def csrTime : Nat := 0xC01
def csrInstret : Nat := 0xC02

/-- What a CSR reads: time is the sidereal counter (R618); the two counts are left open (log entry 2). -/
def csrRead (s : State) (die number : Nat) : Nat × State := if number = csrTime then (coreTime s die, s) else fresh s

/-- A write of CTL_COMP_CTRL: stop, then start (R621, R643; log entry 29). -/
def compCtrlWrite (s : State) (die slot value : Nat) (mf : MemFaults) : State :=
  let s := if bitOf value 1 then compStop s die slot else s
  if bitOf value 0 then compStart s die slot mf else s

end Sys2Proof.Machine
end

