-- ==== Sys2Proof/Machine/HostOps.lean ====
section
/-! DEFINITION. Host accesses: when they reach the module, register writes by their register, and link state (R18 to R20, R34,
R604, R763, R855, R856). -/

namespace Sys2Proof.Machine

/-- A host access reaches the module's BARs: power and PERST_N high, the link up, the host interface ready (R604, R856). -/
def hostReaches (s : State) : Bool := s.host.powered && s.host.perstN && s.host.linkUp && rflag s F.hifStatus_ready 0 0

/-- The host interface with RDYBSY_N driven low or let go, at a stamp (R601, R603). -/
def rdySet (h : HostIf) (high : Bool) (stamp : Nat) : HostIf :=
  { h with rdybsyN := high, highSince := if high && !h.rdybsyN then stamp else h.highSince }

/-- The level of RDYBSY_N: low while the module cannot take accesses, and for the 2 µs of an attention pulse (R601, R602). -/
def rdyLevel (s : State) : Bool :=
  s.host.rdybsyN && !(match s.host.pulsed with | some t => decide (now s 0 < t + 8000) | none => false)

/-- A pulse may begin: the pin is held high, for 8 µs since it went high and since the end of the last pulse (R602, R603). -/
def mayPulse (s : State) : Bool :=
  s.host.rdybsyN && decide (s.host.highSince + 32000 ≤ now s 0)
    && (match s.host.pulsed with | some t => decide (t + 40000 ≤ now s 0) | none => true)

/-- The link is in ASPM L1: up, and the module in Nap (R44, R567). -/
def linkInL1 (s : State) : Bool := s.host.linkUp && powerState s = pwrNap

/-- A host access to BAR0 or BAR2 comes before the host interface is ready: PERST_N is high, and the link has not come up since (R856). -/
def unsupportedYet (s : State) : Bool :=
  s.host.powered && s.host.perstN && !s.host.opened && powerState s ≠ pwrDark

/-- Such an access completes as an unsupported request and changes nothing else (R856). -/
def unsupportedRequest (s : State) : State :=
  if unsupportedYet s then { s with answers := { s.answers with unsupported := s.answers.unsupported + 1 } } else s

/-- A REFUSED record at an offset of a window that need not be a register (R19, R674). It names unit 0 of the block, in the pages of cores
too, since such an access names no register (DESIGN CHOICE, log entry 157). -/
def refusedAt (s : State) (die blk addr : Nat) (m : Master) (reason value : Nat) : State :=
  emit s die 0x20 0 blk 0 (pb 0 8 addr + pb 8 1 (masterCode m) + pb 9 1 reason + pb 10 4 value)

/-- The die and block that a BAR offset belongs to. -/
def bar0Die (offset : Nat) : Nat := min 1 (offset / 0x200_0000)
def bar0Blk (offset : Nat) : Nat := offset % 0x200_0000 / 0x10_0000
def bar2Die (offset : Nat) : Nat := min 1 (offset / 0x4_0000)

/-- The host, whose accesses enter at die 0 (R34). -/
def hostSender : Sender := ⟨.host, 0⟩

/-- An access from a die to a register of the other one arrives there over the span bridge: it carries the stamp at which it left, 20 ns
ago (R35, R666, R667, R855; log entry 155). -/
def crossBridge (s : State) (sender die : Nat) : State :=
  if sender = die then s else arriveStamp s die (now s sender - 80) lMinBridge

/-- The register blocks that a sender reaches: the host those of both dies; firmware those of its own die, and from die 1 those of die 0
(R34, R616). -/
def senderReaches (b : Sender) (die : Nat) : Bool := b.master = .host || b.die.val = die || b.die.val = 1

/-- A BAR write by a sender: firmware acts at once on the blocks that it reaches; a host write acts when it reaches the module, and during
a restart it is ignored and recorded (R616, R763, R856). -/
def barWrite (s : State) (b : Sender) (die blk addr value : Nat) (f : State → State) : State :=
  if !s.host.powered || !senderReaches b die then s
  else if b.master ≠ .host then f (crossBridge s b.die.val die)
  else if !hostReaches s then unsupportedRequest s
  else if s.host.restart.isSome then refusedAt s die blk addr b.master 6 value
  else f (crossBridge s 0 die)

/-- The same for a BAR0 register: in recovery only the TRU block answers (R782). -/
def bar0Write (s : State) (b : Sender) (die blk addr value : Nat) (f : State → State) : State :=
  barWrite s b die blk addr value fun s =>
    if rflag s F.truStatus_recovery 0 0 && blk ≠ Blk.tru.num then refusedAt s die blk addr b.master 1 value else f s

/-- A write to a register by its block's rules (R20, R529, R574, R621, R634 to R639, R652, R684). -/
def writeReg (s : State) (m : Master) (r : Reg) (die unit value : Nat) (ok : Bool) (mf : MemFaults) : State :=
  match r with
  | .hifRingSize => ringSizeWrite s m die unit value ok
  | .hifRingBase => ringBaseWrite s m r die unit value
  | .hifRingCpl => ringBaseWrite s m r die unit value
  | .icuPend => icuPendWrite s m die unit value 0
  | .icuMask => icuMaskWrite s m die unit value
  | .icuTarget => icuTargetWrite s m die unit value
  | .sidSet => sidSetWrite s m die value
  | .fabRouteCtrl => routeCtrlWrite s m die value
  | .ctlCompCtrl => compCtrlWrite s die unit value mf
  | .sidCtrl => sourceSettle (plainWrite s m r die unit value)
  | _ => plainWrite s m r die unit value

/-- A write at a BAR0 offset: to the register there when the size is its width, an access under R19 otherwise (R18). -/
def writeAt (s : State) (m : Master) (offset size value : Nat) (ok : Bool) (mf : MemFaults) : State :=
  match regAt offset with
  | some (r, die, u) =>
    if r.info.width = 8 * size then writeReg s m r die u value ok mf
    else refusedAt s die (bar0Blk offset) offset m 1 value
  | none => refusedAt s (bar0Die offset) (bar0Blk offset) offset m 1 value

/-- An access of R19 names a register properly after all. -/
def isAssigned (bar2 : Bool) (offset size : Nat) : Bool :=
  if bar2 then
    offset % 0x1000 = 0 && size = 8 && decide (offset % 0x4_0000 / 0x1000 < 35) && decide (offset / 0x4_0000 < 2)
  else
    match regAt offset with
    | some (r, _, _) => r.info.width = 8 * size
    | none => false

/-- Every ring disabled, with nothing more to fetch or write to (R576, R609): fetched descriptors run on as orphans. -/
def ringsDown (s : State) : State :=
  let orphan := fun d : Desc => { d with orphan := true }
  { s with rings := s.rings.map fun e =>
      (e.1, { e.2 with fetched := e.2.fetched.map orphan, active := e.2.active.map orphan,
                       toWrite := e.2.toWrite.map fun c => { c with orphan := true }, ahead := [] }) }

/-- A link reset: L fields at reset, rings disabled, the link down (R22, R609, R758). RDYBSY_N stays as it is, with the attention that
waits and its repeats (R603, R758). A resource report still to come is written at the next enable (R774). -/
def linkDown (s : State) : State :=
  let s := resetLives (ringsDown s) [.l]
  { s with host := { s.host with linkUp := false, d3hot := false } }

/-! ## The snoop filter (R432, R433) -/

/-- Lines a die's filter holds. -/
def snoopOf (s : State) (die : Nat) : List Nat := Map.getD s.snoop die []

/-- The response to a back-invalidate: the line leaves the filter and the writes that waited land in order, and with them multicasts that
waited for them (R433, R468). -/
def releaseLine (s : State) (die line : Nat) : State :=
  let waits := s.heldWrites.filter fun w => w.1 = line
  let s := { s with
    snoop := Map.put s.snoop die ((snoopOf s die).filter fun l => l ≠ line)
    heldWrites := s.heldWrites.filter fun w => w.1 ≠ line }
  mcastSettle (waits.foldl (fun s w => { s with mem := w.2.foldl (fun m e => putByte m e.1 e.2) s.mem }) s)

/-- A line granted to the host: the oldest entry of a full filter is invalidated first (R432). -/
def grantLine (s : State) (die line : Nat) : State :=
  if (snoopOf s die).contains line then s
  else
    let s := if 2 ^ 20 ≤ (snoopOf s die).length then releaseLine s die ((snoopOf s die).headD 0) else s
    { s with snoop := Map.put s.snoop die (snoopOf s die ++ [line]) }

/-! ## CXL.mem reads (R426, R428 to R430, R434) -/

/-- One sector of a CXL.mem read: whether its data carries poison, with what its checks count. -/
def cxlSector (s : State) (a : Nat) (o : ReadOutcome) : Bool × State :=
  let (bad, s) := sectorRead s a o
  (bad, if bad then bump s F.hbmCxlPoisonCount_count (rowChan s a).die 0 1 else s)

/-! ## Restarts (R601, R761 to R763) -/

/-- A device restart or activation pause starts: RDYBSY_N falls, and every control core of both dies goes to its reset vector (R601, R761,
R762). -/
def startRestart (s : State) (k : RestartKind) : State :=
  if s.host.restart.isSome then s
  else
    let s := { s with ctlCores := [] }
    { s with host := { s.host with restart := some k, rdybsyN := false } }

/-! ## Contradictions in one Dome cycle (R605 to R607) -/

/-- Two stamps lie in one Dome cycle. -/
def sameDome (a b : Nat) : Bool := sameSpan 160 a b

/-- An action on an item of R605 noted, for contradictions in this Dome cycle. -/
def noteAct (s : State) (item outcome : Nat) (m : Master) : State :=
  { s with acts := (s.acts.filter fun a => sameDome a.stamp (now s 0)) ++ [⟨item, outcome, masterCode m, now s 0⟩] }

/-- The highest master above this one whose action in this Dome cycle set the item to another outcome (R607). -/
def higherAct (s : State) (item outcome : Nat) (m : Master) : Option Master :=
  [Master.presence, .management, .host].find? fun w =>
    decide (masterCode w < masterCode m) && s.acts.any fun a =>
      a.item = item && a.outcome ≠ outcome && a.master = masterCode w && sameDome a.stamp (now s 0)

/-- Outcomes of the job state and of the power state, as acts name them. -/
def actBegin : Nat := 1
def actEnd : Nat := 2
def actKill : Nat := 3
def actAwake : Nat := 0
def actNap : Nat := 1
def actDark : Nat := 2

/-- The records of a loser and of the winner, with event 0x08 for an action of the host (R599, R607). -/
def actRecords (s : State) (item : Nat) (loser winner : Master) (type tag : Nat) : State :=
  let ofHost := fun m : Master => if m = .host then (type, tag) else (0, 0)
  let s := masterRec s item winner stOk (ofHost winner).1 (ofHost winner).2 (masterCode loser)
  let s := masterRec s item loser stSuperseded (ofHost loser).1 (ofHost loser).2 (masterCode winner)
  if loser = .host then event s 0 0x08 type tag (masterCode winner) else s

/-- A descriptor of the host on the job state or the power state: overruled by a higher master's action of the same Dome cycle, refused,
or noted and done (R607). -/
def hostAct (s : State) (item outcome : Nat) (d : Desc) (refused : Bool) (k : State → State) : State :=
  match higherAct s item outcome .host with
  | some w => finishWith (actRecords s item .host w d.type d.tag) 0 32 d stSuperseded
  | none => if refused then finishWith s 0 32 d stRefused else k (noteAct s item outcome .host)

/-! ## Completions that change the module (R591, R594 to R597, R773) -/

/-- The job is over: JOB_STATUS reads 0b00 and what the job alone held is gone; the tag stays (R405, R773, R854). -/
def jobOver (s : State) : State :=
  let s := setJobState s 0
  let s := wf (wf s F.spmZeroStatus_busy 0 0 0) F.spmZeroStatus_busy 1 0 0
  { s with job := { s.job with key := 0, seed := 0, report := 0, far := 0, farBase := 0, killer := 0 } }

/-- What follows the completion of a job command or a RESTART with OK. -/
def completionEffect (s : State) (c : Completion) : State :=
  if c.status ≠ stOk then s
  else if c.kind = 0x30 then
    let s := wf (wf s F.spmZeroStatus_busy 0 0 0) F.spmZeroStatus_busy 1 0 0
    if jobState s = 1 then setJobState s 2 else s
  else if c.kind = 0x31 || c.kind = 0x32 then jobOver s
  else if c.kind = 0x37 then startRestart s .device
  else s

end Sys2Proof.Machine
end

