-- ==== Sys2Proof/Machine/Companion.lean ====
section
/-! DEFINITION. The companion slots' commands: start, stop, faults and the services of R624 (R619 to R626, R643). -/

namespace Sys2Proof.Machine

/-- COMPANION_START (R387, R426, R621, R643): a write of start to CTL_COMP_CTRL_s. -/
def execCompanionStart (by_ : Sender) (die : Die) (slot : SlotStart) (s : State) : Host.Outcome State Fault Refusal :=
  .next (bar0Write s by_ die.val Blk.ctl.num (regOffset .ctlCompCtrl die.val slot.slot.val) 1 fun s =>
    compCtrlWrite s die.val slot.slot.val 1 slot.mf)

/-- COMPANION_STOP (R643): a write of stop to CTL_COMP_CTRL_s. -/
def execCompanionStop (by_ : Sender) (die : Die) (slot : Fin 4) (s : State) : Host.Outcome State Fault Refusal :=
  .next (bar0Write s by_ die.val Blk.ctl.num (regOffset .ctlCompCtrl die.val slot.val) 2 fun s =>
    compCtrlWrite s die.val slot.val 2 MemFaults.none)

/-- A LOG record with its continuation (R624, R674). -/
def compLog (s : State) (die slot a1 a2 : Nat) : State :=
  emitAll s die Blk.ctl.num slot [(0x70, 0, pb 0 8 a1), (0x71, 0, pb 0 8 a2)]

/-- A program stopped with state faulted; a record holds the cause and the address (R622; log entry 28). -/
def compFault (s : State) (die slot cause addr : Nat) : State := compLog (compEnd s die slot compFaulted) die slot cause addr

/-- The causes of a fault, as RISC-V numbers its exceptions (PRESUMED, log entry 28). -/
def causeFetch : Nat := 1
def causeIllegal : Nat := 2
def causeLoad : Nat := 5
def causeStore : Nat := 7
def causeCall : Nat := 8

/-- What a program does at an address, and whether it stops there (R622 to R624). An access that the address table allows has its ordinary
effect; so has the read of a CSR that a program may read; the services' own effects are those of their commands. -/
def compDoes (s : State) (die slot addr : Nat) : CompAct → State
  | .load len mf =>
    match compLoad s die slot addr len mf with
    | (some b, s) => { s with answers := { s.answers with companion := leNat b } }
    | (none, s) => compFault s die slot causeLoad addr
  | .store data mf =>
    match compStore s die slot addr data mf with
    | some s => s
    | none => compFault s die slot causeStore addr
  | .fetch => if inSlot addr 2 then s else compFault s die slot causeFetch addr
  | .register => compFault s die slot causeLoad addr
  | .pmp => compFault s die slot causeLoad addr
  | .csr number write =>
    if write || !(number = csrCycle || number = csrTime || number = csrInstret) then compFault s die slot causeIllegal addr
    else
      let (v, s) := csrRead s die number
      { s with answers := { s.answers with companion := v } }
  | .call service => if 1 ≤ service && service ≤ 5 then s else compFault s die slot causeCall addr

/-- COMPANION_FAULT (R408, R622 to R624): an access or a call of a running program, which stops it with state faulted where it is
forbidden or its row or sector fails the re-read. -/
def execCompanionFault (die : Die) (slot : Fin 4) (cause : CompAct) (addr : BitVec 64) (s : State) :
    Host.Outcome State Fault Refusal :=
  if compActive s die.val slot.val then .next (compDoes s die.val slot.val addr.toNat cause) else .next s

/-- COMPANION_SIGNAL (R624, R625, R849): sent under R468 as flow 24. -/
def execCompanionSignal (die : Die) (slot : Fin 4) (a1 : BitVec 64) (s : State) : Host.Outcome State Fault Refusal :=
  let w := a1.toNat
  if !compActive s die.val slot.val then .next s
  else if 2 ^ 60 ≤ w || !signalOk s w then .next (compAnswer s die.val slot.val stInvalid)
  else .next (compAnswer (sendSignal s die.val (signalOf w 24)) die.val slot.val stOk)

/-- COMPANION_WAIT (R461, R465 to R467, R624, R625, R849): the program is held until its object releases it or its bound
ends; a target of 0 is satisfied at once. -/
def execCompanionWait (die : Die) (slot : Fin 4) (a1 : BitVec 64) (s : State) : Host.Outcome State Fault Refusal :=
  let d := die.val
  let k := compKey d slot.val
  let w := waitOf a1.toNat (now s d) (.companion k)
  if !compActive s d slot.val then .next s
  else if 2 ^ 60 ≤ a1.toNat || !waitOk s w.far w.index then .next (compAnswer s d slot.val stInvalid)
  else if w.target = 0 then .next (compAnswer (bump s F.synReleaseCount_count d 0 1) d slot.val stOk)
  else .next (sendWait (setComp s k { compOf s k with waiting := true }) d w)

/-- COMPANION_EXIT (R619, R624, R643). -/
def execCompanionExit (die : Die) (slot : Fin 4) (a1 : BitVec 64) (s : State) : Host.Outcome State Fault Refusal :=
  let d := die.val
  if compActive s d slot.val then
    .next (wf (compEnd s d slot.val compExited) F.ctlCompStatus_exit d slot.val (a1.toNat % 2 ^ 16))
  else .next s

/-- COMPANION_STAMP (R618, R624): the sidereal counter. -/
def execCompanionStamp (die : Die) (slot : Fin 4) (s : State) : Host.Outcome State Fault Refusal :=
  if compActive s die.val slot.val then .next (compAnswer s die.val slot.val (coreTime s die.val)) else .next s

/-- COMPANION_LOG (R624): 16 bytes of data in the ephemeris. -/
def execCompanionLog (die : Die) (slot : Fin 4) (a1 a2 : BitVec 64) (s : State) : Host.Outcome State Fault Refusal :=
  if compActive s die.val slot.val then
    .next (compAnswer (compLog s die.val slot.val a1.toNat a2.toNat) die.val slot.val stOk)
  else .next s

end Sys2Proof.Machine
end

