-- ==== Sys2Proof/Machine/Dma.lean ====
section
/-! DEFINITION. The memory-moving descriptors of the DMA rings: TRANSFER, FILL and COPY (R391 to R399, R588, R591, R592). -/

namespace Sys2Proof.Machine

/-! ## Fields and checks (R588, R591, R395, R842, R849) -/

def dmaOp (d : Desc) : Nat := d.at_ 8 1 % 16
def dmaSrcHost (d : Desc) : Bool := bitOf (d.at_ 8 1) 4
def dmaDstHost (d : Desc) : Bool := bitOf (d.at_ 8 1) 5
def dmaDst (d : Desc) : Nat := d.at_ 16 8
def dmaSrc (d : Desc) : Nat := d.at_ 24 8
def dmaLen (d : Desc) : Nat := d.at_ 32 5
def dmaPattern (d : Desc) : Nat := d.at_ 40 8
def dmaSignal (d : Desc) : Nat := d.at_ 56 8

/-- What every DMA descriptor of R588 must satisfy: its reserved bits, its signal field. -/
def dmaCommonOk (s : State) (d : Desc) : Bool :=
  reservedOk d [(8, 8), (16, 24), (40, 8), (56, 8)] && bits (d.at_ 8 8) 63 6 = 0 && bits (d.at_ 32 8) 63 40 = 0
    && bits (dmaSignal d) 63 60 = 0 && signalOk s (dmaSignal d)

/-- A device range that a DMA descriptor names (R48, R842). DMA reaches every region (R51). -/
def dmaRangeOk (s : State) (a len : Nat) : Bool := addrOk a && rangeOk s a len

/-- The address check of one side of a transfer: a host address is not checked (R591). -/
def sideOk (s : State) (host : Bool) (a len : Nat) : Bool := host || dmaRangeOk s a len

def transferOk (s : State) (d : Desc) : Bool :=
  dmaCommonOk s d && !(dmaSrcHost d && dmaDstHost d) && dmaPattern d = 0
    && sideOk s (dmaDstHost d) (dmaDst d) (dmaLen d) && sideOk s (dmaSrcHost d) (dmaSrc d) (dmaLen d)

def fillOk (s : State) (d : Desc) : Bool :=
  dmaCommonOk s d && !dmaSrcHost d && !dmaDstHost d && dmaSrc d = 0 && dmaRangeOk s (dmaDst d) (dmaLen d)

def copyOk (s : State) (d : Desc) : Bool :=
  dmaCommonOk s d && !dmaSrcHost d && !dmaDstHost d && dmaPattern d = 0 && dmaRangeOk s (dmaDst d) (dmaLen d)
    && dmaRangeOk s (dmaSrc d) (dmaLen d) && !overlaps (dmaDst d) (dmaLen d) (dmaSrc d) (dmaLen d)

/-! ## Data -/

/-- The bytes below the first failed row of a read of a range (R397). -/
def goodLen (s : State) (mf : MemFaults) (base len : Nat) : Nat :=
  match failRow s mf base len with
  | some r => r - base
  | none => len

/-- The bytes that moving a range in ascending address order writes: where the destination begins inside the source, bytes
already moved are read again (R592). -/
def ascending (src dst : Nat) (data : Bytes) : Bytes :=
  if src < dst && dst < src + data.length then
    (List.range data.length).map fun i => data.getD (i % (dst - src)) 0
  else data

/-- What a move reads from the device: the bytes that arrive before it stops, and the effects of the checked reads. -/
def moveSource (s : State) (mf : MemFaults) (src dst len : Nat) : Bytes × State :=
  let n := goodLen s mf src len
  let (data, s1) := memRead (readEffects s mf src len) .engine src n
  (ascending src dst data, s1)

/-- The completion of a move that wanted `len` bytes and wrote `n` (R397, R592). -/
def finishMove (s : State) (die ring : Nat) (d : Desc) (n : Nat) : State :=
  if n = dmaLen d then finish s die ring d stOk 0 n 0 (bits (dmaSignal d) 59 0)
  else finish s die ring d stDataLost 0 n 0 0

/-- The pattern bytes of a range: byte x holds pattern byte x mod 8 of its own address (R392). -/
def fillBytes (pattern base len : Nat) : Bytes :=
  (List.range len).map fun i => BitVec.ofNat 8 (pattern / 256 ^ ((base + i) % 8))

/-- EMPTY for a length of 0 (R394, R592): its completion SIGNAL is sent. -/
def finishEmpty (s : State) (die ring : Nat) (d : Desc) : State :=
  finish s die ring d stEmpty 0 0 0 (bits (dmaSignal d) 59 0)

/-- A range touches a tagged window that no running job holds (R396). -/
def dmaHidden (s : State) (a len : Nat) : Bool := hiddenIn s a len ≠ []

/-! ## The commands -/

/-- TRANSFER (R588, R591, R592, R598): bytes move in ascending address order between the device and the host, or within the
device. `hostData` is what the host reads returned before any error. -/
def execTransfer (die : Die) (ring : Fin 8) (hostData : Bytes) (mf : MemFaults) (s : State) :
    Host.Outcome State Fault Refusal :=
  let n := die.val
  let r := 24 + ring.val
  match takeDesc s n r (fun d => d.type = 0x20 && dmaOp d = 0) with
  | none => .next s
  | some (d, s) =>
    if !transferOk s d then .next (finishWith s n r d stInvalid)
    else if jobState s ≠ 2 then .next (finishWith s n r d stRefused)
    else if dmaLen d = 0 then .next (finishEmpty s n r d)
    else
      let (data, s) := if dmaSrcHost d then (hostData.take (dmaLen d), s)
        else moveSource s mf (dmaSrc d) (if dmaDstHost d then 0 else dmaDst d) (dmaLen d)
      let s := if dmaDstHost d then hostWrite s (dmaDst d) data else memWrite s .engine mf (dmaDst d) data
      .next (finishMove s n r d data.length)

/-- FILL (R391, R392, R394 to R396, R398). -/
def execFill (die : Die) (ring : Fin 8) (mf : MemFaults) (s : State) : Host.Outcome State Fault Refusal :=
  let n := die.val
  let r := 24 + ring.val
  match takeDesc s n r (fun d => d.type = 0x20 && dmaOp d = 1) with
  | none => .next s
  | some (d, s) =>
    if !fillOk s d then .next (finishWith s n r d stInvalid)
    else if jobState s ≠ 2 || dmaHidden s (dmaDst d) (dmaLen d) then .next (finishWith s n r d stRefused)
    else if dmaLen d = 0 then .next (finishEmpty s n r d)
    else
      let s := memWrite s .engine mf (dmaDst d) (fillBytes (dmaPattern d) (dmaDst d) (dmaLen d))
      .next (finishMove s n r d (dmaLen d))

/-- COPY (R391, R393 to R397). -/
def execCopy (die : Die) (ring : Fin 8) (mf : MemFaults) (s : State) : Host.Outcome State Fault Refusal :=
  let n := die.val
  let r := 24 + ring.val
  match takeDesc s n r (fun d => d.type = 0x20 && dmaOp d = 2) with
  | none => .next s
  | some (d, s) =>
    if !copyOk s d then .next (finishWith s n r d stInvalid)
    else if jobState s ≠ 2 || dmaHidden s (dmaDst d) (dmaLen d) || dmaHidden s (dmaSrc d) (dmaLen d) then
      .next (finishWith s n r d stRefused)
    else if dmaLen d = 0 then .next (finishEmpty s n r d)
    else
      let (data, s) := moveSource s mf (dmaSrc d) (dmaDst d) (dmaLen d)
      .next (finishMove (memWrite s .engine mf (dmaDst d) data) n r d data.length)

end Sys2Proof.Machine
end

