-- ==== Sys2Proof/Machine/Fabric.lean ====
section
/-! DEFINITION. The fabric's commands: flits, credits, packets sent and received, acknowledgements, throttling, port failure,
lane recalibration and the span bridge (chapter 11, R36, R754, R755). -/

namespace Sys2Proof.Machine

/-! ## Sending -/

/-- Room in a port's retention buffer for packets: 512 KiB, the last 32 KiB for channel 0, and 16,384 packets (R536, R537). -/
def retainRoom (s : State) (die p vc : Nat) (l : List Packet) : Bool :=
  let held := retainedOn s die p
  let keep := if vc = 0 then 512 * 1024 else 480 * 1024
  decide ((held.map packetBytes).sum + (l.map packetBytes).sum ≤ keep) && decide (held.length + l.length ≤ 16384)

/-- Room on a port for a packet: credits, the replay buffer and the retention buffer (R513, R515, R536, R537). -/
def portRoom (s : State) (die p : Nat) (pkt : Packet) : Bool :=
  linkRoom s die p pkt && (!isRetained pkt.kind || retainRoom s die p pkt.vc [pkt])

/-- The header as injected: the flow's next sequence number for a retained packet, epoch, the candidate's selectors, the stamp (R516,
R520, R526, R531). -/
def injected (s : State) (die : Nat) (c : Candidate) (next : Nat) (pkt : Packet) : Packet :=
  { pkt with
    fseq := if isRetained pkt.kind then next else pkt.fseq
    epoch := rf s F.fabRouteCtrl_epoch die 0
    hops := c.hops
    sel0 := if 1 ≤ c.hops then c.sel0 else 0
    sel1 := if 2 ≤ c.hops then c.sel1 else 0
    sel2 := if c.hops = 3 then c.sel2 else 0
    dst := if pkt.vc = 4 then Config.mcastDst (pkt.aux / 4) % 2 ^ 17 else pkt.dst
    stamp := now s die }

/-- One more attempt of the retained packet with a sequence number (R540). -/
def nextAttempt (l : List (Packet × Nat)) (fseq : Nat) : List (Packet × Nat) :=
  l.map fun e => if e.1.fseq = fseq then (e.1, e.2 + 1) else e

/-- A retained packet is sent again once its port has credits for it; a re-send of R540 is an attempt and is counted, a re-injection of R551
is not (R515, R540, R551). -/
def sendAgain (s : State) (die key : Nat) (q : Nat × Bool) (left : List (Nat × Bool)) : State :=
  let f := flowTx s key
  match f.cand, f.retained.find? fun e => e.1.fseq = q.1 with
  | some c, some e =>
    if !rflag s F.fabRouteCtrl_routeValid die 0 || !portUp s die c.port || !linkRoom s die c.port e.1 then s
    else if q.2 then
      let s := setFlowTx s key { f with resend := left, retained := nextAttempt f.retained q.1 }
      putOnWire (bump s F.fabRetxCount_count die 0 1) die c.port e.1
    else putOnWire (setFlowTx s key { f with resend := left }) die c.port e.1
  | _, _ => setFlowTx s key { f with resend := left }

/-- The first packet of a flow's queue injected on a candidate's port, where that has room (R513, R515, R530, R536, R537, R544). -/
def injectOn (s : State) (die key : Nat) (c : Candidate) (p : Packet) (rest : List Packet) : State :=
  let f := flowTx s key
  if !portUp s die c.port || !portRoom s die c.port p then s
  else
    let x := injected s die c f.next p
    let f' := if isRetained p.kind then
        { f with queue := rest, next := (f.next + 1) % 2 ^ 16, retained := f.retained ++ [(x, 1)], cand := some c }
      else { f with queue := rest, cand := some c }
    settleOutstanding (putOnWire (sampleHeader (setFlowTx s key f') die c.port 0 x) die c.port x) die

/-- PACKET_INJECT (R35, R463, R523 to R537): a packet of a flow is sent: one to be sent again first, then the first of its queue.
Traffic to the module's other die crosses the span bridge in its time; a flow with nothing outstanding chooses its candidate, and with none is lost. -/
def execPacketInject (die : Die) (flow : Nat) (dst : BitVec 17) (vc : InjectCase) (s : State) :
    Host.Outcome State Fault Refusal :=
  let d := die.val
  let key := flowKey d dst.toNat vc.vc.val flow
  let f := flowTx s key
  match f.resend, f.queue with
  | q :: left, _ => .next (sendAgain s d key q left)
  | [], [] => .next s
  | [], p :: rest =>
    if p.vc ≠ 4 && p.dst / 2 = location s then
      if now s d < p.stamp + bridgeTicks then .next s
      else .next (deliverBridge (setFlowTx s key { f with queue := rest }) (1 - d) p (vc.failedAdds.getD 0 0).val vc.mf)
    else if !rflag s F.fabRouteCtrl_routeValid d 0 then .next s
    else
      match if f.retained = [] then chooseCandidate s d p.dst p.vc else f.cand with
      | none => .next (if p.vc = 4 then mcastLost (flowLost s key) d flow else flowLost s key)
      | some c => .next (injectOn s d key c p rest)

/-! ## The link layer -/

/-- The lane that a resend or an exhaustion counts against: of the lanes in use the one with the most corrected symbols, the lowest of
those, and lane 0 where none was corrected (R735). -/
def chargedLane (inUse corrected : List Nat) : Nat :=
  (inUse.foldl (fun m l =>
    let n := corrected.getD l 0
    if m.2 < n || (m.2 = n && n ≠ 0 && decide (l < m.1)) then (l, n) else m) (0, 0)).1

/-- A flit has gone out and does not wait to go out again. -/
def PortState.gone (v : PortState) (e : TxFlit) : Bool := 1 ≤ e.attempts && !v.toWire.contains e.seq

/-- Every flit of the replay buffer waits for the lanes, in order; those that had gone out count against a lane when they go out again
(R513, R514, R735). -/
def resendFrom (v : PortState) (lane : Nat) : PortState :=
  { v with
    replayBuf := v.replayBuf.map fun e => if v.gone e then { e with lane := lane } else e
    toWire := v.replayBuf.map (·.seq) }

/-- A nak: every flit after the last good one that had gone out is to be resent; a flit whose third attempt is nakked has exhausted its
retry budget (R513, R514, R733, R735). -/
def nakFlits (s : State) (die p lane : Nat) : State :=
  let v := portOf s die p
  match v.replayBuf with
  | [] => s
  | f :: rest =>
    if !v.gone f || f.exhausted then s
    else if 3 ≤ f.attempts then
      irq (exhaust (setPort s die p { v with replayBuf := { f with exhausted := true } :: rest }) kLane (laneChan die p lane) f.seq)
        die 4 (16 + p)
    else setPort s die p (resendFrom v lane)

/-- Packets that a flit completed join those the port holds for the router; one with a length above 4,096 is dropped as one of a
reserved type is (R516, R518; log entry 115). -/
def takeContent (s : State) (die p : Nat) (content : Bytes) : State :=
  let v := portOf s die p
  let (l, rest) := addContent v.rxBytes content
  let fits := fun x : Packet => decide (x.payload.length ≤ 4096)
  let s := setPort s die p { v with rxBytes := rest, rxPkts := v.rxPkts ++ l.filter fits }
  (l.filter fun x => !fits x).foldl (fun s _ => dropMisroute s die) s

/-- FLIT_RECEIVE (R511 to R514): a flit with a bad CRC or a reserved type is dropped and nakked; a good one acknowledges, may
nak, and is taken when it is the next in order, an idle one apart (log entry 115). -/
def execFlitReceive (die : Die) (port : Fin 16) (flit : Flit) (s : State) : Host.Outcome State Fault Refusal :=
  let d := die.val
  let p := port.val
  if portStateOf s d p ≠ portIsUp then .next s
  else
    let v := portOf s d p
    if !flitGood flit then .next (setPort s d p { v with nakOwed := true })
    else
      let next := (v.rxSeq + 1) % 4096
      let buf := ackFlits v.replayBuf (flitAck flit)
      let v := { v with replayBuf := buf, toWire := v.toWire.filter fun q => buf.any fun e => e.seq = q }
      let taken := flitKind flit ≠ flitIdle && flitSeq flit = next
      let v := if taken then { v with rxSeq := next, nakOwed := false, ackOwed := true } else v
      let s := setPort s d p v
      let s := if taken && flitKind flit = flitPacket then takeContent s d p (flitContent flit) else s
      .next (if flitNak flit then nakFlits s d p (chargedLane v.inUse flit.corrected) else s)

/-- CREDIT_FLIT (R512, R515): credits return per channel, in flits. -/
def execCreditFlit (die : Die) (port : Fin 16) (credits : List Nat) (s : State) : Host.Outcome State Fault Refusal :=
  let d := die.val
  let p := port.val
  if portStateOf s d p ≠ portIsUp then .next s
  else
    let v := portOf s d p
    .next (setPort s d p { v with credits := (credits.zipIdx).foldl (fun m (n, vc) =>
      if n = 0 then m else Map.put m vc (Map.getD v.credits vc 64 + n)) v.credits })

/-- The module's answer on a link: the stratum it offers and its stamps, in a link-control flit (R512, R653, R657). -/
def answerLink (s : State) (die p : Nat) : State :=
  let v := portOf s die p
  if !replayRoom v 1 then s
  else setPort s die p (addFlit flitControl v (Config.linkContent true (offeredStratum s) (now s die) (now s die)))

/-- LINK_CONTROL_FLIT (R512, R653, R654, R657): the partner's stratum on a link, which the module answers with its own; the source of time
follows it. Training and width changes are the commands JOB_BEGIN, PORT_FAIL and RETRAIN_COMPLETE. -/
def execLinkControlFlit (die : Die) (port : Fin 16) (stratum : BitVec 4) (s : State) :
    Host.Outcome State Fault Refusal :=
  let d := die.val
  let p := port.val
  if portStateOf s d p ≠ portIsUp then .next s
  else
    let v := portOf s d p
    .next (sourceSettle (answerLink (setPort s d p { v with stratum := stratum.toNat }) d p))

/-! ## Receiving -/

/-- A packet of one of the kinds 1 to 8, the first of its channel that an up port holds, checked by R538. -/
def receive (s : State) (die p kind : Nat) (pkt : Packet) (k : State → State) : State :=
  if !portUp s die p || pkt.kind ≠ kind || rxFirst s die p pkt.vc ≠ some pkt then s
  else
    match headerChecks (takeHeader (takePacket s die p pkt) die p pkt) die p pkt with
    | (false, s) => s
    | (true, s) => k s

/-- Packets in their flow's order, each processed. -/
def inOrder (s : State) (die : Nat) (pkt : Packet) (k : State → Packet → Nat → State) : State :=
  let (l, s) := orderPacket s die pkt
  (l.zipIdx).foldl (fun s (p, i) => k s p i) s

/-- A packet whose digest is no run's has been dropped: it is acknowledged, and where it was the next of its flow those held
behind it are processed (R538). -/
def dropAcked (s : State) (die : Nat) (pkt : Packet) (k : State → Packet → Nat → State) : State :=
  let key := rxKey die pkt
  if pkt.fseq = (flowRx s key).expected then
    let (l, s) := orderPacket s die pkt
    (l.tail.zipIdx).foldl (fun s (p, i) => k s p (i + 1)) s
  else sendAck s key pkt.fseq

/-- A packet of a job that has ended is dropped on arrival and counted; it is acknowledged, and no flow of the next job moves on with it
(R499, R538, R555; log entry 119). -/
def dropLate (s : State) (die : Nat) (pkt : Packet) : State := sendAck (colDrop s die) (rxKey die pkt) pkt.fseq

/-- DATA_PACKET_RECEIVE (R481, R485 to R487, R491, R538, R539, R555): `failedAdds` are the failed residue checks of the packets that it
lets be processed, in order. -/
def execDataPacketReceive (die : Die) (port : Fin 16) (pkt : Packet) (failedAdds : List (Fin 4)) (mf : MemFaults) (s : State) :
    Host.Outcome State Fault Refusal :=
  let d := die.val
  let p := port.val
  let k := fun (s : State) (x : Packet) (i : Nat) => deliverData s d p x (failedAdds.getD i 0).val mf
  .next (receive s d p ptData pkt fun s =>
    if !jobTakes s then dropLate s d pkt
    else if digestBad s d pkt then dropAcked (dropDigest s d p pkt) d pkt k else inOrder s d pkt k)

/-- MCAST_RECEIVE (R481, R492, R494, R538). -/
def execMcastReceive (die : Die) (port : Fin 16) (pkt : Packet) (run : McastCase) (s : State) :
    Host.Outcome State Fault Refusal :=
  let d := die.val
  let p := port.val
  let k := fun (s : State) (x : Packet) (i : Nat) => deliverMcast s d x (if i = 0 then run.run else mcastRunFor s d x run.run) run.mf
  .next (receive s d p ptMcast pkt fun s =>
    if mcastDigest run.run ≠ bits pkt.word 63 32 then dropAcked (dropRec (colDrop s d) d p .col pkt) d pkt k
    else inOrder (noteMcast s d pkt run.run) d pkt k)

/-- SIGNAL_PACKET_RECEIVE (R463, R538, R555, R668). -/
def execSignalPacketReceive (die : Die) (port : Fin 16) (pkt : Packet) (s : State) :
    Host.Outcome State Fault Refusal :=
  let d := die.val
  .next (receive s d port.val ptSignal pkt fun s =>
    if !jobTakes s then dropLate s d pkt else inOrder s d pkt fun s x _ => deliverPacketSignal s d x)

/-- ABORT_RECEIVE (R495, R496, R538, R555). -/
def execAbortReceive (die : Die) (port : Fin 16) (pkt : Packet) (s : State) : Host.Outcome State Fault Refusal :=
  let d := die.val
  let p := port.val
  let k := fun (s : State) (x : Packet) (_ : Nat) => deliverAbort s d p x
  .next (receive s d p ptAbort pkt fun s =>
    if !jobTakes s then dropLate s d pkt
    else if digestBad s d pkt then dropAcked (dropDigest s d p pkt) d pkt k else inOrder s d pkt k)

/-- The full packet-byte rate of a width in kB/s (R508). -/
def fullRate (lanes : Nat) : Nat := lanes * 24_218_750

/-- A marked ACK lowers the port's rate for its channel, after hold_us since the last decrease (R542, R561). -/
def throttle (s : State) (die p vc : Nat) : State :=
  let cfg := rd s .fabThrottleCfg die 0
  let floor := bits cfg 23 20
  let dec := bits cfg 19 16
  let hold := bits cfg 7 0 * 4000
  let v := portOf s die p
  let full := fullRate (portLanes s die p)
  let rate := Map.getD v.rate vc full
  let ready := match Map.find v.lastDecrease vc with | some t => decide (t + hold ≤ now s die) | none => true
  if dec = 0 || !ready then s
  else
    let low := max (rate - rate / 2 ^ dec) (full / 2 ^ floor)
    if rate ≤ low then s
    else bump (setPort s die p { v with rate := Map.put v.rate vc low, lastDecrease := Map.put v.lastDecrease vc (now s die) })
      F.fabMarkCount_count die 0 1

/-- The sending flow that a response answers: a multicast's flow is one for all its destinations. -/
def answeredFlow (die : Nat) (pkt : Packet) (vc flow : Nat) : Nat := flowKey die (if vc = 4 then 0 else pkt.src) vc flow

/-- ACK_RECEIVE (R535 to R537, R542): packets up to the acknowledged fseq leave the retention buffer. `vc` is the channel of
the flow it answers, which the header does not carry (log entry 23). -/
def execAckReceive (die : Die) (port : Fin 16) (pkt : Packet) (vc : Fin 8) (s : State) :
    Host.Outcome State Fault Refusal :=
  let d := die.val
  .next (receive s d port.val ptAck pkt fun s =>
    let key := answeredFlow d pkt vc.val pkt.flow
    let f := flowTx s key
    let left := f.retained.filter fun e => seqLater e.1.fseq (bits pkt.word 15 0)
    let used := f.cand
    let s := setFlowTx s key { f with retained := left, cand := if left = [] then none else f.cand }
    let s := settleOutstanding s d
    match used with
    | some c => if bits pkt.word 19 16 ≠ 0 && decide (2 ≤ vc.val) && decide (vc.val ≤ 4) then throttle s d c.port vc.val else s
    | none => s)

/-- The multicast run of this die that a packet of its own, or an answer to one, belongs to: that of the ring of its flow, while its digest
is the packet's (R481, R493, R520). -/
def mcastRunOf (s : State) (die : Nat) (pkt : Packet) : Option (Nat × Collective) :=
  match flowRing pkt.flow with
  | none => none
  | some r => match colOf s (colKey die r) with
    | some c =>
      if c.isMcast && c.phase = .running && c.digest = bits pkt.word 63 32 then some (colKey die r, c) else none
    | none => none

/-- MCAST_ACK_RECEIVE (R493): one branch delivered. -/
def execMcastAckReceive (die : Die) (port : Fin 16) (pkt : Packet) (s : State) : Host.Outcome State Fault Refusal :=
  let d := die.val
  .next (receive s d port.val ptMcastAck pkt fun s =>
    match mcastRunOf s d pkt with
    | some (k, c) => setCol s k { c with acks := c.acks + 1 }
    | none => sendAck (dropDigest s d port.val pkt) (rxKey d pkt) pkt.fseq)

/-- REFUSE_RECEIVE (R493): one branch refused. -/
def execRefuseReceive (die : Die) (port : Fin 16) (pkt : Packet) (s : State) : Host.Outcome State Fault Refusal :=
  let d := die.val
  .next (receive s d port.val ptRefuse pkt fun s =>
    match mcastRunOf s d pkt with
    | some (k, c) => setCol s k { c with refusals := c.refusals + 1 }
    | none => sendAck (dropDigest s d port.val pkt) (rxKey d pkt) pkt.fseq)

/-- A fenced packet's consequence (R470, R493, R495). -/
def fencedPacket (s : State) (die : Nat) (src : Nat) (p : Packet) : State :=
  if p.kind = ptSignal then signalLost s die
  else if p.kind = ptData then
    match linkRun s die src p.vc p.flow with
    | some k => runFenced s k
    | none => s
  else if p.kind = ptMcast then
    match mcastRunOf s die p with
    | some (k, c) => setCol s k { c with fenced := insertNew c.fenced src }
    | none => s
  else s

/-- A FENCED return for a multicast packet that has left the retention buffer, as a further fenced member's does: it counts
for the multicast run that the flow belongs to (R493, R520; log entry 43). -/
def fencedMember (s : State) (die src vc flow : Nat) : State :=
  if vc = 4 && decide (32 ≤ flow) then
    match colOf s (colKey die ((flow - 32) / 16)) with
    | some c =>
      if c.isMcast && c.phase = .running then
        setCol s (colKey die ((flow - 32) / 16)) { c with fenced := insertNew c.fenced src }
      else s
    | none => s
  else s

/-- FENCED_RECEIVE (R470, R493, R495, R536): the named packet leaves the retention buffer; a SIGNAL is lost, a chain link
aborts, a multicast branch counts as fenced. -/
def execFencedReceive (die : Die) (port : Fin 16) (pkt : Packet) (vc : Fin 8) (s : State) :
    Host.Outcome State Fault Refusal :=
  let d := die.val
  .next (receive s d port.val ptFenced pkt fun s =>
    let key := answeredFlow d pkt vc.val (bits pkt.word 23 16)
    let f := flowTx s key
    match f.retained.find? fun e => e.1.fseq = bits pkt.word 15 0 with
    | none => fencedMember s d pkt.src vc.val (bits pkt.word 23 16)
    | some e =>
      let left := f.retained.erase e
      let s := setFlowTx s key { f with retained := left, cand := if left = [] then none else f.cand }
      fencedPacket (settleOutstanding s d) d pkt.src e.1)

/-- ACK_TIMER (R535): accepted packets wait for an ACK. -/
def execAckTimer (die : Die) (src : BitVec 17) (vc : Fin 8) (flow : Nat) (s : State) :
    Host.Outcome State Fault Refusal :=
  let key := flowKey die.val src.toNat vc.val flow
  if (flowRx s key).sinceAck = 0 then .next s else .next (sendAck s key (((flowRx s key).expected + 2 ^ 16 - 1) % 2 ^ 16))

/-- MGMT_PACKET_RECEIVE (R518): a packet on channels 5 to 7, of a reserved type or of type MGMT is dropped and counted. -/
def execMgmtPacketReceive (die : Die) (port : Fin 16) (pkt : Packet) (s : State) : Host.Outcome State Fault Refusal :=
  let d := die.val
  let p := port.val
  if portUp s d p && rxFirst s d p pkt.vc = some pkt && (decide (5 ≤ pkt.vc) || pkt.kind = 0 || decide (9 ≤ pkt.kind)) then
    .next (headerChecks (takeHeader (takePacket s d p pkt) d p pkt) d p pkt).2
  else .next s

/-! ## Timers of flows and rates -/

/-- RETRANSMIT_TIMEOUT (R540): every outstanding packet is to be sent again, in order, or the flow is lost after a third attempt. While
packets still wait to be sent again nothing more is owed. -/
def execRetransmitTimeout (die : Die) (flow : Nat) (dst : BitVec 17) (vc : Fin 8) (s : State) :
    Host.Outcome State Fault Refusal :=
  let d := die.val
  let key := flowKey d dst.toNat vc.val flow
  let f := flowTx s key
  match f.cand with
  | none => .next s
  | some c =>
    if f.retained = [] || f.resend ≠ [] then .next s
    else if f.retained.any fun e => decide (3 ≤ e.2) then .next (flowLost s key)
    else if !portUp s d c.port then .next s
    else .next (setFlowTx s key { f with resend := f.retained.map fun e => (e.1.fseq, true) })

/-- THROTTLE_RECOVER (R542, R561): a rate below full rises by full / 64, or at once to full with recover_us 0. -/
def execThrottleRecover (die : Die) (port : Fin 16) (vc : Fin 8) (s : State) : Host.Outcome State Fault Refusal :=
  let d := die.val
  let p := port.val
  let v := portOf s d p
  let us := rf s F.fabThrottleCfg_recoverUs d 0
  let full := fullRate (portLanes s d p)
  match Map.find v.rate vc.val with
  | none => .next s
  | some r =>
    let waited := match Map.find v.lastDecrease vc.val with | some t => decide (t + us * 4000 ≤ now s d) | none => true
    if !waited then .next s
    else
      let r' := if us = 0 then full else min full (r + full / 64)
      .next (setPort s d p { v with rate := if full ≤ r' then Map.del v.rate vc.val else Map.put v.rate vc.val r' })

/-- FABRIC_FLUSH (R555): 100 µs after a job's end, every retention buffer and the reorder store are discarded. -/
def execFabricFlush (s : State) : Host.Outcome State Fault Refusal :=
  if !s.job.flushOwed then .next s else .next (flushFabric s)

/-! ## Port failure (R547 to R553) -/

/-- LANE_LOCK_LOSS (R547): a lane in use loses lock. -/
def execLaneLockLoss (die : Die) (port : Fin 16) (lane : Fin 8) (s : State) : Host.Outcome State Fault Refusal :=
  let d := die.val
  let v := portOf s d port.val
  if v.inUse.contains lane.val && portStateOf s d port.val ≠ portDown && (Map.find v.unlocked lane.val).isNone then
    .next (setPort s d port.val { v with unlocked := Map.put v.unlocked lane.val (now s d) })
  else .next s

/-- Lanes of a port that have been without lock for more than 1 µs (R547). -/
def lostLanes (s : State) (die p : Nat) : List Nat :=
  ((portOf s die p).unlocked.filter fun e => decide (e.2 + 4000 < now s die)).map (·.1)

/-- LANE_LOCK_REGAIN (R547): a lane regains lock within 1 µs, and no failure follows. -/
def execLaneLockRegain (die : Die) (port : Fin 16) (lane : Fin 8) (s : State) : Host.Outcome State Fault Refusal :=
  let d := die.val
  let v := portOf s d port.val
  if (lostLanes s d port.val).contains lane.val then .next s
  else .next (setPort s d port.val { v with unlocked := Map.del v.unlocked lane.val })

/-- A collective run is under way on a die: a link failure counts (R497). -/
def linkEvent (s : State) (die : Nat) : State :=
  if s.cols.any fun e => e.1 / 8 = die && e.2.phase = .running then bump s F.colLinkEventCount_count die 0 1 else s

/-- Event 0x05 with the lanes now in use (R599). -/
def portEvent (s : State) (die p : Nat) : State := event s die 0x05 (die * 16 + p) (portLanes s die p) 0

/-- A port that goes down: its lanes and what its link layer held are gone (R549, R551). -/
def portLost (v : PortState) : PortState :=
  { v with inUse := [], unlocked := [], replayBuf := [], toWire := [], txPart := [], owed := [], rxBytes := [], rxPkts := []
           nakOwed := false, ackOwed := false }

/-- A port fails for a cause that holds: a lane without lock for more than 1 µs, or a flit that exhausted its budget; a port that fails
already does not fail again (R547). -/
def portFails (s : State) (die p : Nat) (cause : PortFailCause) : Bool :=
  let v := portOf s die p
  portStateOf s die p ≠ portDown && !v.failing && (match cause with
    | .lockLoss => lostLanes s die p ≠ []
    | .exhausted q => v.replayBuf.any fun e => e.seq = q.toNat && e.exhausted)

/-- PORT_FAIL (R547 to R551): the port retrains (NARROW) or goes down (DETOUR). The lanes that failed are classed; the cause is spent. -/
def execPortFail (die : Die) (port : Fin 16) (cause : PortFailCause) (s : State) : Host.Outcome State Fault Refusal :=
  let d := die.val
  let p := port.val
  if !portFails s d p cause then .next s
  else
    let s := match cause with
      | .lockLoss => (lostLanes s d p).foldl (fun s l => irq (exhaust s kLane (laneChan d p l) 0) d 4 (16 + p)) s
      | .exhausted _ => s
    let s := linkEvent s d
    let v := portOf s d p
    if bitOf (rd s .fabPortMode d 0) p then
      let s := setPort s d p (portLost { v with failing := true, reinject := true })
      let s := bump (setPortState s d p portDown 0) F.fabDetourCount_count d 0 1
      .next (sourceSettle (portEvent s d p))
    else
      let buf := v.replayBuf.map fun e => { e with exhausted := false }
      let s := setPort s d p { v with failing := true, unlocked := [], replayBuf := buf }
      .next (sourceSettle (bump (setPortState s d p portTraining (portLanes s d p)) F.fabRetrainCount_count d 0 1))

/-- RETRAIN_COMPLETE (R513, R514, R549, R553): up on the widest set of good lanes, within the width it had, with every unacknowledged flit
to go out, those that had gone out as resends against lane 0, since no flit failed (R735; log entry 37); or down. -/
def execRetrainComplete (die : Die) (port : Fin 16) (good : BitVec 8) (s : State) : Host.Outcome State Fault Refusal :=
  let d := die.val
  let p := port.val
  let v := portOf s d p
  if portStateOf s d p ≠ portTraining || !v.failing then .next s
  else
    let old := portLanes s d p
    let lanes := goodLanes s d p good.toNat
    let n := widthOf (min old lanes.length)
    if n = 0 then
      let s := setPort s d p (portLost { v with reinject := true })
      .next (sourceSettle (portEvent (setPortState s d p portDown 0) d p))
    else
      let s := setPort s d p { resendFrom v 0 with inUse := lanes.take n, unlocked := [], failing := false }
      let s := setPortState s d p portIsUp n
      .next (sourceSettle (if n < old then portEvent s d p else s))

/-- One flow of a downed port moves to a new candidate, where its retention buffer has room, to re-send with detour set; or it is
lost (R537, R551, R552). -/
def moveFlow (die : Nat) (s : State) (key : Nat) : State :=
  let f := flowTx s key
  match chooseCandidate s die (keyEp key) (keyVc key) with
  | none => if keyVc key = 4 then mcastLost (flowLost s key) die (keyFlow key) else flowLost s key
  | some c =>
    if !retainRoom s die c.port (keyVc key) (f.retained.map (·.1)) then s
    else
      let again := f.retained.map fun e =>
        ({ e.1 with
          detour := true
          hops := c.hops
          sel0 := if 1 ≤ c.hops then c.sel0 else 0
          sel1 := if 2 ≤ c.hops then c.sel1 else 0
          sel2 := if c.hops = 3 then c.sel2 else 0 }, e.2)
      setFlowTx s key { f with retained := again, resend := again.map fun e => (e.1.fseq, false), cand := some c }

/-- Flows with packets in a port's retention buffer. -/
def flowsOn (s : State) (die p : Nat) : List Nat :=
  (s.flowsTx.filter fun e => keyDie e.1 = die && e.2.retained ≠ [] &&
    (match e.2.cand with | some c => c.port = p | none => false)).map (·.1)

/-- DETOUR_REINJECT (R549, R551): the flows of a downed port move; those that find no room yet wait for it (R537). -/
def execDetourReinject (die : Die) (port : Fin 16) (s : State) : Host.Outcome State Fault Refusal :=
  let d := die.val
  let p := port.val
  if !(portOf s d p).reinject then .next s
  else
    let s := settleOutstanding ((flowsOn s d p).foldl (moveFlow d) s) d
    let v := portOf s d p
    .next (setPort s d p { v with reinject := flowsOn s d p ≠ [], failing := false })

/-! ## Lanes and the span bridge (R36, R37, R754, R755, R757) -/

/-- Background work of lanes runs in Active and Idle (R754, R757). -/
def awake (s : State) : Bool := powerState s = pwrActive || powerState s = pwrIdle

/-- Idle flits that a lane is to see in 10 s (R755). -/
def idleNeeded : Nat := 4096

/-- A lane that has seen fewer idle flits than it needs in 10 s makes its port insert the missing ones (R755). -/
def oweIdle (v : PortState) (seen : Nat) : PortState := { v with idleOwed := max v.idleOwed (idleNeeded - seen) }

/-- LANE_RECALIBRATE (R755): the lane takes new settings, which the manual leaves open, or keeps its old ones when its error
rate got worse (log entry 24). -/
def execLaneRecalibrate (die : Die) (port : Fin 16) (lane : Fin 8) (idleSeen : Nat) (worse : Bool) (s : State) :
    Host.Outcome State Fault Refusal :=
  let d := die.val
  let v := oweIdle (portOf s d port.val) idleSeen
  if !awake s || !v.inUse.contains lane.val then .next s
  else if worse then .next (setPort s d port.val v)
  else
    let (x, s) := fresh s
    .next (setPort s d port.val { v with settings := Map.put v.settings lane.val x })

/-- BRIDGE_FLIT_RECEIVE (R36, R37, R733): a flit that fails its CRC is replayed; on the third failure its lane group's budget
is exhausted and the group retired. -/
def execBridgeFlitReceive (group : Fin 64) (crcOk : Bool) (s : State) : Host.Outcome State Fault Refusal :=
  let g := group.val
  let tries := Map.getD s.flt.bridgeTries g 0
  let put := fun (s : State) (n : Nat) =>
    { s with flt := { s.flt with bridgeTries := if n = 0 then Map.del s.flt.bridgeTries g else Map.put s.flt.bridgeTries g n } }
  if s.flt.bridgeRetired.contains g then .next s
  else if crcOk then .next (put s 0)
  else if tries < 2 then .next (transient (put s (tries + 1)) kBridge g 0)
  else .next (exhaust (put s 0) kBridge g 0)

/-- BRIDGE_RECALIBRATE (R754, R757): a lane group in service takes new settings, which the manual leaves open. -/
def execBridgeRecalibrate (group : Fin 64) (s : State) : Host.Outcome State Fault Refusal :=
  if !awake s || s.flt.bridgeRetired.contains group.val then .next s
  else
    let (x, s) := fresh s
    .next { s with flt := { s.flt with bridgeSettings := Map.put s.flt.bridgeSettings group.val x } }

end Sys2Proof.Machine
end

