-- ==== Sys2Proof/Machine/JobOps.lean ====
section
/-! DEFINITION. Job operations: the ledger a job begin applies, residency, the resource report, the end of a job, kills and
the precedence of masters (R36 to R40, R400 to R413, R436, R593 to R608, R744 to R749). -/

namespace Sys2Proof.Machine

/-! ## The ledger at a job begin (R37, R436, R744, R748, R749) -/

/-- The ledger's regions after a job begin: every durable classed channel gets a record with state 2 (R749, R751). -/
def beginRegions (s : State) : FaultState :=
  ((ledgerDeciding s.flt.ledger).filter fun r => r.state = 1).foldl (fun f r =>
    ledgerAppend f { r with state := 2, appliedStamp := now s 0 }) s.flt

/-- The log after a job begin. -/
def beginLedger (s : State) : List LedgerRec := (beginRegions s).ledger

/-- A channel is retired in a ledger. -/
def retiredIn (l : List LedgerRec) (kind ch : Nat) : Bool := ledgerHas (ledgerDeciding l) kind ch 2

/-- Die 1 is unusable: fewer than 48 of the 64 lane groups remain (R37, R744). -/
def dieLost (l : List LedgerRec) : Bool :=
  decide (16 < ((ledgerDeciding l).filter fun r => r.kind = kBridge && r.state = 2).length)

/-- Pseudo-channels out of the usable list (R421, R436). -/
def beginOut (l : List LedgerRec) : List Nat :=
  (List.range 384).filter fun h => retiredIn l kHbm h || (dieLost l && decide (192 ≤ h))

/-- The two lists name the same pseudo-channels. -/
def sameList (a b : List Nat) : Bool := a.all b.contains && b.all a.contains

/-- A core may be offered (R165, R390, R744). -/
def coreOffered (s : State) (l : List LedgerRec) (k : Nat) : Bool :=
  !(dieLost l && decide (24 ≤ k)) && ((List.range 4).all fun a => pathStatus s k a ≠ 2)
    && !(ledgerDeciding l).any fun r => r.state = 2 &&
      ((r.kind = kCoreBank && r.channel / 128 = k) || ((r.kind = kVec || r.kind = kUpd) && r.channel = k))

/-- MiB of a die's shared memory (R390, R595). -/
def sharedOffered (l : List LedgerRec) (die : Nat) : Nat :=
  if (dieLost l && die = 1)
      || (ledgerDeciding l).any (fun r => r.state = 2 && r.kind = kSharedBank && r.channel / 64 = die) then 0
  else 192

/-- The ledger applied: channels, registers, the usable list, and what the job is offered (R38, R744, R745, R748). -/
def applyLedger (s : State) : State :=
  let l := beginLedger s
  let lost := dieLost l
  let out := beginOut l
  let s := ledgerRead (ledgerStore { s with flt := { beginRegions s with returned := false } })
  let s := accelSettle (wf { s with unusable := out } F.hbmStatus_usablePcs 0 0 (384 - out.length))
  let s := wf s F.ctlDieInfo_dieUsable 1 0 (flagBit !lost)
  let f0 := rf s F.clkLimit_ledgerMhz 0 0
  let f1 := rf s F.clkLimit_ledgerMhz 1 0
  { s with job := { s.job with
      cores := (List.range 48).filter (coreOffered s l)
      maxFreq := if lost then f0 else min f0 f1
      shared0 := sharedOffered l 0
      shared1 := sharedOffered l 1 } }

/-! ## Residency (R400 to R413) -/

/-- A window lies in what the resource report offers (R403, R407). -/
def windowOffered (s : State) (base len : Nat) : Bool :=
  rangeIn s base len fun r => match r with
    | .core k => s.job.cores.contains k
    | .shared d => d = 0 || rflag s F.ctlDieInfo_dieUsable 1 0
    | .hbm => true

/-- The table emptied and the tag gone (R406, R407). -/
def clearWindows (s : State) : State :=
  let s := (List.range 16).foldl (fun s n => wr s .spmResWindow 0 n 0) s
  let s := wf (wf s F.spmResStatus_windows 0 0 0) F.spmResStatus_tagValid 0 0 0
  { s with job := { s.job with tag := 0 } }

/-- The die of a scratchpad address, whether or not its memory has capacity (R47). -/
def scratchDie (a : Nat) : Nat :=
  if a < sharedBase 1 then 0 else if a < coreBase 0 then 1 else if a < coreBase 24 then 0 else 1

/-- A die takes part in the zeroing of some windows: HBM lies on both dies, a scratchpad on its own (R415, R422). -/
def zeroesOn (s : State) (die : Nat) (wins : List Span) : Bool :=
  (die = 0 || rflag s F.ctlDieInfo_dieUsable 1 0) && wins.any fun w => decide (w.base < sharedBase 0) || scratchDie w.base = die

/-- The residency rules of a job begin with a key (R407, R413). -/
def residencyBegin (s : State) (key : Nat) (listChanged : Bool) : State :=
  let wins := windows s
  let tagged := rflag s F.spmResStatus_tagValid 0 0
  let lb :=
    if !tagged || wins.isEmpty then 0
    else if listChanged || !(wins.all fun w => windowOffered s w.base w.len) then 3
    else if decide (key ≠ 0) && decide (key = s.job.tag) then 1
    else 2
  let held := decide (key ≠ 0) && decide (key = s.job.tag)
  if tagged && held && !listChanged && lb < 2 then wf s F.spmResStatus_lastBegin 0 0 lb
  else
    let s := [0, 1].foldl (fun s die => if zeroesOn s die wins then wf s F.spmZeroStatus_busy die 0 1 else s) s
    let s := wins.foldl (fun s w => zeroRange s w.base w.len) s
    let s := wf (clearWindows s) F.spmResStatus_lastBegin 0 0 lb
    countRec s 0 .spmResStatus 0 (rd s .spmResStatus 0 0)

/-! ## The resource report (R595) -/

/-- The 128 bytes of the resource report. -/
def reportBytes (s : State) (stamp : Nat) : Bytes :=
  let lost := !rflag s F.ctlDieInfo_dieUsable 1 0
  let mask := fun die => ((s.job.cores.filter fun k => k / 24 = die).map fun k => 2 ^ (k % 24)).sum
  let lane := fun p => if lost && decide (16 ≤ p) then 0 else portLanes s (p / 16) (p % 16)
  let route := fun die => rf s F.fabRouteCtrl_epoch die 0 + 16 * rf s F.fabRouteCtrl_routeValid die 0
  let p := 384 - s.unusable.length
  leBytes 8 (rd s .jobId 0 0) ++ leBytes 8 stamp ++ leBytes 1 (1 + 2 * flagBit !lost)
    ++ leBytes 1 (rf s F.spmResStatus_lastBegin 0 0) ++ leBytes 2 s.job.maxFreq ++ leBytes 4 p ++ leBytes 8 (usableHbm s)
    ++ leBytes 4 (mask 0) ++ leBytes 4 (mask 1) ++ leBytes 2 s.job.shared0 ++ leBytes 2 s.job.shared1
    ++ leBytes 4 s.job.far
    ++ leBytes 16 (((List.range 32).map fun p => lane p * 2 ^ (4 * p)).sum)
    ++ leBytes 1 (route 0) ++ leBytes 1 (route 1) ++ leBytes 6 0
    ++ leBytes 24 (((List.range 192).map fun a => if pathStatus s (a / 4) (a % 4) = 1 then 2 ^ a else 0).sum)
    ++ leBytes 32 0

/-- The resource report written, or owed to the next enable of die 0's management ring (R595, R774). -/
def writeReport (s : State) (d : Desc) (addr stamp : Nat) (ok : Bool) : State :=
  let b := reportBytes s stamp
  if addr = 0 then s
  else
    let owed := { s with host := { s.host with reportOwed := some (addr, b) } }
    if d.orphan || !s.host.linkUp then owed
    else if ok then hostWrite s addr b
    else ringFault owed 0 32 addr

/-! ## The end of a job (R405, R406, R456, R555, R596, R597) -/

/-- Messages on the span bridge that belong to the job: all but what one die tells the other about its time. -/
def ofJob (m : BridgeMsg) : Bool := match m.body with | .synced _ _ _ => false | _ => true

/-- Everything of the job's state returns to its reset values, and memory is zeroed outside `keep`. The programs that the end has stopped
read JOB_KILLED after it (R626). -/
def jobClear (s : State) (keep : List Span) : State :=
  let stopped := (List.range 8).filter fun k => compState s (k / 4) (k % 4) = compRunning
  let s := compStopAll s
  let s := countRecords (bankStretch (bankStretch (endHelio s) 0) 1)
  let s := zeroWhere s fun a => !inSpans keep a
  let s := { s with
    cores := []
    sync := []
    bridge := s.bridge.filter fun m => !ofJob m
    cols := []
    comps := []
    pwr := { s.pwr with waits := [], grant := none }
    job := { s.job with flushOwed := true } }
  let s := flowsRestart (resetLives s [.j])
  let s := stopped.foldl (fun s k => wf s F.ctlCompStatus_result (k / 4) (k % 4) stJobKilled) s
  wf (wf s F.spmZeroStatus_busy 0 0 1) F.spmZeroStatus_busy 1 0 1

/-- A ring's submitted descriptors whose completions have not been written (R596). -/
def ringOutstanding (s : State) (die n : Nat) : Bool :=
  let w := ringWork s die n
  let st := ringState s die n
  w.fetched ≠ [] || w.active ≠ [] || w.toWrite ≠ []
    || ((st = ringActive || st = ringFaulted) && ringHead s die n ≠ ringTail s die n)

/-- A core or DMA ring of either die holds such a descriptor. -/
def workOutstanding (s : State) : Bool :=
  [0, 1].any fun die => (List.range 32).any fun n => ringOutstanding s die n

/-- Insert a completion by its count's distance from DONE. -/
def insertByCount (done : Nat) (c : Completion) : List Completion → List Completion
  | [] => [c]
  | h :: t => if sub32 c.k done < sub32 h.k done then c :: h :: t else h :: insertByCount done c t

/-- Descriptors of a ring from DONE to the tail in force complete with JOB_KILLED in count order (R597). -/
def killRing (s : State) (die n : Nat) : State :=
  let w := ringWork s die n
  let done := ringDone s die n
  let st := ringState s die n
  let ran := w.toWrite.map fun c => { c with status := stJobKilled, signal := 0 }
  let held := (w.active ++ w.fetched).map fun d => completionOf d stJobKilled 0 0 0 0 false
  let unread := if st = ringActive || st = ringFaulted then
      (List.range (sub32 (ringTail s die n) (ringHead s die n))).map fun i =>
        (⟨(ringHead s die n + i) % 2 ^ 32, 0, 0, stJobKilled, 0, 0, 0, 0, false, false⟩ : Completion)
    else []
  let all := ran ++ held ++ unread
  let orphans := all.filter fun c => c.orphan
  let own := (all.filter fun c => !c.orphan).foldl (fun l c => insertByCount done c l) []
  let s := setRing s die n { w with fetched := [], active := [], toWrite := orphans ++ own }
  if unread = [] then s else wr s .hifRingHead die n (ringTail s die n)

/-- Every stream and collective run stops, and every outstanding descriptor of the core and DMA rings completes with JOB_KILLED
(R252, R499, R597). -/
def killWork (s : State) : State :=
  let s := (s.cores.map (·.1)).foldl (fun s k => endStream s k stJobKilled) s
  let s := (s.cols.map (·.1)).foldl (fun s k =>
    let s := stopRun s k stJobKilled
    match colOf s k with
    | some c => endRun s k c stJobKilled
    | none => s) s
  (List.range 64).foldl (fun s i => killRing s (i / 32) (i % 32)) s

/-- JOB_KILL's effect (R406, R597, R773). -/
def killJob (s : State) (m : Master) : State :=
  let s := wf (setJobState s 3) F.jobStatus_lastMaster 0 0 (lastMasterCode m)
  settlePower (clearWindows (jobClear (killWork s) []))

/-- A kill by a master other than the host is over once its JOB_KILLED records are written and its zeroing has reached every line:
event 0x03 (R406, R433, R597, R599). -/
def killSettle (s : State) : State :=
  let busy := s.rings.any fun e => decide (e.1 % 64 < 32) && e.2.toWrite ≠ []
  if jobState s ≠ 3 || s.job.killer = 0 || busy || s.heldWrites ≠ [] then s
  else event (jobOver s) 0 0x03 s.job.killer (rd s .jobId 0 0) stOk

/-! ## Contradictory masters (R605 to R608) -/

/-- A host action that is not yet acknowledged: the first of the management ring's completions that `p` picks. -/
def hostPending (s : State) (p : Completion → Bool) : Option Completion :=
  (ringWork s 0 32).toWrite.find? fun c => c.status = stOk && p c

/-- A host action overruled: it completes with SUPERSEDED, with the records of both actions and event 0x08 (R607). -/
def supersede (s : State) (item : Nat) (m : Master) (c : Completion) : State :=
  let w := ringWork s 0 32
  let s := setRing s 0 32 { w with toWrite := w.toWrite.map fun x =>
    if x = c then { x with status := stSuperseded, held := false } else x }
  actRecords s item .host m c.kind c.tag

/-- A firmware action that a pending host action overrules (R607). -/
def firmwareLoses (s : State) (item : Nat) (c : Completion) : State := actRecords s item .firmware .host c.kind c.tag

/-- A kill that takes effect: noted, and open until its records are written and its zeroing is over (R597, R608). -/
def killNow (s : State) (m : Master) : State :=
  let s := killJob (noteAct s 1 actKill m) m
  killSettle { s with job := { s.job with killer := masterCode m } }

/-- A kill of the running job by the management controller or firmware (R597, R599, R605 to R608). Firmware loses to an action of the host
that is not acknowledged, or came in the same Dome cycle. Answers whether the kill took effect. -/
def killByOther (s : State) (m : Master) : Bool × State :=
  if !jobRuns s then (false, s)
  else
    match hostPending s (fun c => c.kind = 0x30 || c.kind = 0x31) with
    | some c => if m = .firmware then (false, firmwareLoses s 1 c) else (true, killNow (supersede s 1 m c) m)
    | none =>
      match higherAct s 1 actKill m with
      | some w => (false, actRecords s 1 m w 0 0)
      | none => (true, killNow s m)

/-- A kill by firmware that is still open: it is not acknowledged until it completes (R608). -/
def firmwareKillOpen (s : State) : Bool := jobState s = 3 && s.job.killer = masterCode .firmware

/-! ## Contradictory power states (R605 to R608, R693) -/

/-- A host's request for a low-power state that is not yet acknowledged (R608). -/
def hostLowPower (s : State) : Option Completion :=
  hostPending s fun c => c.kind = 0x36 && s.host.lowPowerAsk = some c.k

/-- The host's unacknowledged request overruled by a master (R607, R693). -/
def overruleLowPower (s : State) (m : Master) : State :=
  match hostLowPower s with
  | some c =>
    let s := supersede s 2 m c
    { s with host := { s.host with lowPower := if s.pwr.thermDark then some .dark else none, lowPowerAsk := none } }
  | none => s

end Sys2Proof.Machine
end

