-- ==== Sys2Proof/Machine/Host.lean ====
section
/-! DEFINITION. The host interface's commands: register and doorbell writes, rings, descriptor fetch and completion, CXL.mem, link
events, the interrupt controller's commands, attention, and the flushing of held records (chapters 12 and 13, R431 to R434,
R529, R678, R684). -/

namespace Sys2Proof.Machine

/-! ## Register writes -/

/-- A control core's mtimecmp written by its firmware (R618). -/
def timerWrite (s : State) (die core value : Nat) : State :=
  if s.host.powered then setCtlCore s die core { ctlCore s die core with mtimecmp := value } else s

/-- REGISTER_WRITE (R18 to R20, R616, R618, R844, R855). -/
def execRegisterWrite (by_ : Sender) (offset size : Nat) (value : BusWrite) (s : State) : Host.Outcome State Fault Refusal :=
  match value.timer with
  | some c => .next (timerWrite s by_.die.val c.val value.value)
  | none =>
    .next (bar0Write s by_ (bar0Die offset) (bar0Blk offset) offset value.value fun s =>
      writeAt s by_.master offset size value.value value.reportOk value.mf)

/-- UNASSIGNED_ACCESS (R19, R569, R616, R763, R856): a read answers 0, a write is ignored, and a REFUSED record is written; an access that
names a register properly is none of these. Before the host interface is ready it is an unsupported request. -/
def execUnassignedAccess (by_ : Sender) (bar2 isWrite : Bool) (offset size value : Nat) (s : State) :
    Host.Outcome State Fault Refusal :=
  let die := if bar2 then bar2Die offset else bar0Die offset
  let blk := if bar2 then 0 else bar0Blk offset
  let answer := fun s : State => if isWrite then s else { s with answers := { s.answers with bus := 0 } }
  let v := if isWrite then value else 0
  if !s.host.powered || !senderReaches by_ die then .next s
  else if by_.master = .host && !hostReaches s then .next (unsupportedRequest s)
  else if by_.master = .host && s.host.restart.isSome then
    .next (if isWrite then refusedAt s die blk offset by_.master 6 v else answer s)
  else if isAssigned bar2 offset size && !(rflag s F.truStatus_recovery 0 0 && !bar2 && bar0Blk offset ≠ Blk.tru.num) then .next s
  else
    .next (answer (refusedAt (crossBridge s by_.die.val die) die blk offset by_.master 1 v))

/-- EPOCH_COMMIT (R529, R559): a FAB_ROUTE_CTRL write with commit set. -/
def execEpochCommit (by_ : Sender) (die : Die) (value : BitVec 32) (s : State) : Host.Outcome State Fault Refusal :=
  let v := setBits value.toNat 4 4 1
  .next (bar0Write s by_ die.val Blk.fab.num (regOffset .fabRouteCtrl die.val 0) v fun s => routeCtrlWrite s by_.master die.val v)

/-- EPOCH_SET (R529, R559): a FAB_ROUTE_CTRL write with commit clear. -/
def execEpochSet (by_ : Sender) (die : Die) (value : BitVec 32) (s : State) : Host.Outcome State Fault Refusal :=
  let v := setBits value.toNat 4 4 0
  .next (bar0Write s by_ die.val Blk.fab.num (regOffset .fabRouteCtrl die.val 0) v fun s => routeCtrlWrite s by_.master die.val v)

/-- SID_SET (R649, R652, R684). -/
def execSidSet (by_ : Sender) (die : Die) (value : BitVec 64) (s : State) : Host.Outcome State Fault Refusal :=
  .next (bar0Write s by_ die.val Blk.sid.num (regOffset .sidSet die.val 0) value.toNat fun s =>
    sidSetWrite s by_.master die.val value.toNat)

/-! ## The interrupt controller -/

/-- ICU_PEND_WRITE (R627, R634, R639, R640). -/
def execIcuPendWrite (by_ : Sender) (die : Die) (group : Fin 32) (value sameCycle : BitVec 32) (s : State) :
    Host.Outcome State Fault Refusal :=
  .next (bar0Write s by_ die.val Blk.icu.num (regOffset .icuPend die.val group.val) value.toNat fun s =>
    icuPendWrite s by_.master die.val group.val value.toNat sameCycle.toNat)

/-- ICU_MASK_WRITE (R636, R637, R639). -/
def execIcuMaskWrite (by_ : Sender) (die : Die) (group : Fin 32) (value : BitVec 32) (s : State) :
    Host.Outcome State Fault Refusal :=
  .next (bar0Write s by_ die.val Blk.icu.num (regOffset .icuMask die.val group.val) value.toNat fun s =>
    icuMaskWrite s by_.master die.val group.val value.toNat)

/-- ICU_TARGET_WRITE (R638, R639, R646). -/
def execIcuTargetWrite (by_ : Sender) (die : Die) (source : Fin 1024) (value : BitVec 32) (s : State) :
    Host.Outcome State Fault Refusal :=
  .next (bar0Write s by_ die.val Blk.icu.num (regOffset .icuTarget die.val source.val) value.toNat fun s =>
    icuTargetWrite s by_.master die.val source.val value.toNat)

/-- The control clock runs (R689). -/
def controlRuns (s : State) : Bool := s.host.powered && powerState s ≠ pwrNap && powerState s ≠ pwrDark

/-- The group's timer has run for its time (R630). -/
def holdoffOver (s : State) (die g : Nat) : Bool :=
  match Map.find s.icuTimers (die * 32 + g) with
  | some t => decide (t ≤ now s die)
  | none => false

/-- HOLDOFF_EXPIRY (R629 to R632): the group's timer has run out, and its pending unmasked sources are delivered to their targets. -/
def execHoldoffExpiry (die : Die) (group : Fin 32) (s : State) : Host.Outcome State Fault Refusal :=
  let d := die.val
  let g := group.val
  if !holdoffOver s d g || !controlRuns s then .next s
  else
    let live := icuLive s d g
    let s := { s with icuTimers := Map.del s.icuTimers (d * 32 + g) }
    let s := (List.range 8).foldl (fun s c =>
      if live &&& icuTargetMask s d g 1 c = 0 then s else wr s .icuSummary d c (rd s .icuSummary d c ||| 2 ^ g)) s
    if live &&& icuTargetMask s d g 2 0 = 0 then .next s
    else
      let s := wr s .icuSummaryHost d 0 (rd s .icuSummaryHost d 0 ||| 2 ^ g)
      .next { s with host := { s.host with attention := true } }

/-- ATTENTION_PULSE (R602, R603): RDYBSY_N is pulsed for the deliveries that wait, when it has been high for 8 µs; from then on the pulse may
repeat. -/
def execAttentionPulse (s : State) : Host.Outcome State Fault Refusal :=
  if s.host.attention && mayPulse s then
    .next { s with host := { s.host with
      attention := false, repeating := true, pulsed := some (now s 0) } }
  else .next s

/-- The repeat time has passed since the last pulse (R603). -/
def repeatDue (s : State) : Bool :=
  match s.host.pulsed with
  | some t => decide (t + rf s F.hifAttnCfg_repeatUs 0 0 * 4000 ≤ now s 0)
  | none => true

/-- ATTENTION_REPEAT (R603): the pulse is due again while a source that targets RDYBSY_N stays pending and unmasked; a repeat_us of 0 sends
no repeat. -/
def execAttentionRepeat (s : State) : Host.Outcome State Fault Refusal :=
  if !s.host.repeating then .next s
  else if !attentionNow s then .next { s with host := { s.host with repeating := false } }
  else if !rflag s F.hifAttnCfg_repeatUs 0 0 || !repeatDue s then .next s
  else .next { s with host := { s.host with attention := true } }

/-! ## Doorbells and rings -/

/-- A refused doorbell: counted, event 0x01, and source 4 of group 1 (R577, R578, R613, R627). -/
def doorbellRefused (s : State) (die n count tail : Nat) : State :=
  irq (event (bump s F.hifDbErrCount_count die 0 1) die 0x01 n count tail) die 1 4

/-- The DOORBELL record of every doorbell write (R846). -/
def doorbellRec (s : State) (die n count tail : Nat) : State :=
  emit s die 0x01 0 Blk.hif.num n (pb 0 4 count + pb 4 4 tail)

/-- A doorbell write of a submission ring as it reaches its die (R570, R577). -/
def doorbellWrite (s : State) (die n v : Nat) : State :=
  let c := v % 2 ^ 32
  let t := ringTail s die n
  let s := doorbellRec s die n c t
  if ringState s die n ≠ ringActive || 2 ^ 32 ≤ v then doorbellRefused s die n c t
  else if c = t then s
  else if 2 ^ 31 ≤ sub32 c t || ringSize s die n < sub32 c (ringDone s die n) then doorbellRefused s die n c t
  else wr s .hifRingTail die n c

/-- A doorbell write of the event or ephemeris ring as it reaches its die, checked against the head on its arrival (R570, R578). -/
def consumerWrite (s : State) (die n v : Nat) : State :=
  let c := v % 2 ^ 32
  let t := ringTail s die n
  let h := ringHead s die n
  let s := doorbellRec s die n c t
  if ringState s die n ≠ ringActive || 2 ^ 32 ≤ v then doorbellRefused s die n c t
  else if sub32 c t < 2 ^ 31 && sub32 h c < 2 ^ 31 then wr s .hifRingTail die n c
  else doorbellRefused s die n c t

/-- BAR2 offset of a doorbell (R569). -/
def doorbellAt (die n : Nat) : Nat := die * 0x4_0000 + n * 0x1000

/-- DOORBELL (R569, R570, R577, R846). -/
def execDoorbell (die : Die) (ring : Fin 33) (value : BitVec 64) (s : State) : Host.Outcome State Fault Refusal :=
  .next (barWrite s hostSender die.val Blk.hif.num (doorbellAt die.val ring.val) value.toNat fun s =>
    doorbellWrite s die.val ring.val value.toNat)

/-- CONSUMER_DOORBELL (R569, R570, R578, R846). -/
def execConsumerDoorbell (die : Die) (eph : Bool) (value : BitVec 64) (s : State) : Host.Outcome State Fault Refusal :=
  let n := if eph then 34 else 33
  .next (barWrite s hostSender die.val Blk.hif.num (doorbellAt die.val n) value.toNat fun s => consumerWrite s die.val n value.toNat)

/-- RING_ENABLE (R574, R774): the host writes a non-zero size. -/
def execRingEnable (die : Die) (ring : Fin 35) (size : RingSize) (s : State) : Host.Outcome State Fault Refusal :=
  .next (bar0Write s hostSender die.val Blk.hif.num (regOffset .hifRingSize die.val ring.val) size.size fun s =>
    ringSizeWrite s .host die.val ring.val size.size size.reportOk)

/-- RING_DISABLE (R575): the host writes a size of 0. -/
def execRingDisable (die : Die) (ring : Fin 35) (s : State) : Host.Outcome State Fault Refusal :=
  .next (bar0Write s hostSender die.val Blk.hif.num (regOffset .hifRingSize die.val ring.val) 0 fun s =>
    ringSizeWrite s .host die.val ring.val 0 true)

/-- DESCRIPTOR_FETCH (R571, R576, R580, R581, R763): the next submitted descriptor is read and accepted; an error or poison
faults the ring. -/
def execDescriptorFetch (die : Die) (ring : Fin 33) (data : Option Bytes) (s : State) : Host.Outcome State Fault Refusal :=
  let d := die.val
  let n := ring.val
  let w := ringWork s d n
  let k := ringHead s d n
  if ringState s d n ≠ ringActive || !hostReaches s || s.host.restart.isSome || !controlRuns s
      || 8 ≤ w.fetched.length || k = ringTail s d n then .next s
  else match data with
    | none => .next (ringFault s d n (w.base + k % w.size * 64))
    | some b =>
      let desc : Desc := ⟨k, b, false⟩
      let s := setRing s d n { w with fetched := w.fetched ++ [desc] }
      let s := wr s .hifRingHead d n ((k + 1) % 2 ^ 32)
      let s := emit s d 0x02 0 Blk.hif.num n (pb 0 4 k + pb 4 4 desc.tag + pb 8 1 desc.type)
      .next (ringAdvance s d n)

/-- What the zeroing of a job command met, as its completion is written: parity attempts are transients (R420, R429). -/
def zeroingOver (s : State) (c : Completion) (parity : List Nat) : State :=
  if c.status = stOk && (c.kind = 0x30 || c.kind = 0x31 || c.kind = 0x32) then parity.foldl parityRetry s else s

/-- COMPLETION_WRITE (R58 to R60, R583 to R585, R592): the oldest completion of a ring whose command's effects are all visible:
its SIGNAL is sent, its record written, and what the completion brings follows. The completion of a JOB_KILL comes after
those of the work it killed (R597). A job command's zeroing is over by then (R405 to R407, R429). -/
def execCompletionWrite (die : Die) (ring : Fin 33) (ok : RecordWrite) (s : State) : Host.Outcome State Fault Refusal :=
  let d := die.val
  let n := ring.val
  let w := ringWork s d n
  match w.toWrite.find? fun c => !c.held with
  | none => .next s
  | some c =>
    let killOpen := c.kind = 0x32 && c.status = stOk
      && s.rings.any fun e => decide (e.1 % 64 < 32) && e.2.toWrite ≠ []
    if s.heldWrites ≠ [] || killOpen then .next s
    else
      let s := setRing s d n { w with toWrite := w.toWrite.erase c }
      let sends := c.status = stOk || c.status = stEmpty || c.status = stPartial
      let s := if sends then sendSignal s d (signalOf c.signal 24) else s
      let s := completionEffect (writeCompletion (zeroingOver s c ok.parity) d n c ok.ok) c
      .next (killSettle (settlePower (ringAdvance (ringSettle s d n) d n)))

/-! ## CXL.mem -/

/-- A CXL.mem access reaches the module (R567, R763, R856). -/
def memReaches (s : State) : Bool := s.host.powered && s.host.perstN && s.host.linkUp

/-- A CXL.mem access that R409, R434 or R458 refuses is recorded with reason 0x7 (R674). -/
def memRefused (s : State) (addr : Nat) : State := refusedRec s 0 .hbm 0 addr .host 7 0

/-- CXL_MEM_READ (R44, R408, R409, R426, R432, R434, R458): 64 bytes, with what the reads of the two sectors met. A line that lies
only partly in the far table, which starts at a multiple of 16, reads as 0 in whole (DESIGN CHOICE, log entry 148). -/
def execCxlMemRead (addr : Nat) (first second : ReadOutcome) (s : State) : Host.Outcome State Fault Refusal :=
  if !memReaches s then .next s
  else
    let s := wakeFree s
    let ending := decide (jobState s = 3)
    let zeros := List.replicate 64 (0 : Byte)
    let answer := fun (s : State) (b : Bytes) (p : Bool) => { s with answers := { s.answers with cxlData := b, cxlPoison := p } }
    if usableHbm s ≤ addr then .next (answer (memRefused s addr) zeros true)
    else
      let s := killSettle (grantLine s ((hbmPlace s addr).1 / 192) (addr / 64))
      if ending || inFarTable s addr 64 then .next (answer s zeros false)
      else if hiddenIn s addr 64 ≠ [] then .next (answer (tagRefused s .host addr) zeros false)
      else
        let (p, s) := cxlSector s addr first
        let (q, s) := cxlSector s (addr + 32) second
        .next (answer s (memBytes s addr 64) (p || q))

/-- CXL_MEM_WRITE (R44, R277, R408, R409, R420, R427, R431, R434, R458): 64 bytes, two whole sectors. The write of a line that lies
only partly in the far table is dropped in whole (DESIGN CHOICE, log entry 148). -/
def execCxlMemWrite (addr : Nat) (data : CxlWrite) (s : State) : Host.Outcome State Fault Refusal :=
  if !memReaches s then .next s
  else
    let s := wakeFree s
    if usableHbm s ≤ addr || jobState s = 3 || inFarTable s addr 64 then .next (memRefused s addr)
    else if hiddenIn s addr 64 ≠ [] then .next (tagRefused s .host addr)
    else
      let s := writeCodes s data.mf addr 64 fun _ => true
      let s := lostWrites { s with mem := putBytes s.mem addr data.data } data.mf addr 64
      .next (hitGuards s addr 64 fun _ => true)

/-- BACK_INVALIDATE_RESPONSE (R433): the line leaves the snoop filter and the writes that waited for it land. -/
def execBackInvalidateResponse (die : Die) (line : Nat) (s : State) : Host.Outcome State Fault Refusal :=
  if (snoopOf s die.val).contains line && s.heldWrites.any (fun w => w.1 = line) then .next (killSettle (releaseLine s die.val line))
  else .next s

/-! ## The link -/

/-- CONFIGURATION_REQUEST (R604, R763, R856): retry status before the host interface is ready, served after. -/
def execConfigurationRequest (s : State) : Host.Outcome State Fault Refusal :=
  if !s.host.powered || !s.host.perstN || powerState s = pwrDark then .next s
  else .next { s with answers := { s.answers with config := some (rflag s F.hifStatus_ready 0 0) } }

/-- LINK_RESET (R22, R567, R609, R758, R774, R775): a hot reset or link down. -/
def execLinkReset (s : State) : Host.Outcome State Fault Refusal :=
  if s.host.powered && s.host.linkUp then .next (linkDown s) else .next s

/-- LINK_UP (R411, R415, R567, R601, R604, R611): the link reaches L0 and the host interface is ready; the scratchpads that Dark
switched off are zeroed by then (log entry 121). -/
def execLinkUp (rate width : BitVec 4) (flit256 : Bool) (s : State) : Host.Outcome State Fault Refusal :=
  if !s.host.powered || !s.host.perstN || s.host.linkUp || powerState s = pwrDark then .next s
  else
    let s := wf (wf s F.hifStatus_rate 0 0 rate.toNat) F.hifStatus_width 0 0 width.toNat
    let s := wf (wf s F.hifStatus_flit256 0 0 (flagBit flit256)) F.hifStatus_ready 0 0 1
    let s := if jobRuns s then s else wf (wf s F.spmZeroStatus_busy 0 0 0) F.spmZeroStatus_busy 1 0 0
    .next { s with host := rdySet { s.host with linkUp := true, opened := true } s.host.restart.isNone (now s 0) }

/-- CXL_RESET (R567, R759): a device restart, or while a job runs a link reset with a REFUSED record. -/
def execCxlReset (s : State) : Host.Outcome State Fault Refusal :=
  if !memReaches s then .next s
  else if jobRuns s then .next (refusedRec (linkDown s) 0 .hif 0 0 .host 4 0)
  else .next (startRestart s .device)

/-- D3HOT_ENTRY (R567): accepted; the module's power state is unchanged. -/
def execD3hotEntry (s : State) : Host.Outcome State Fault Refusal :=
  if memReaches s then .next { s with host := { s.host with d3hot := true } } else .next s

/-! ## Held records -/

/-- Held ephemeris records written in order while the ring has room, at most `fuel` of them (R677, R678). -/
def flushEph : Nat → State → Nat → State
  | 0, s, _ => s
  | fuel + 1, s, die =>
    let e := ephOf s die
    match e.held with
    | [] => s
    | r :: t =>
      if ringHasRoom s die 34 then flushEph fuel (ringPut (setEph s die { e with held := t }) die 34 (recordBytes r) 2) die
      else s

/-- Held events written in order while the ring has room, at most `fuel` of them (R600). -/
def flushEvents : Nat → State → Nat → State
  | 0, s, _ => s
  | fuel + 1, s, die =>
    match eventsOf s die with
    | [] => s
    | r :: t =>
      if ringHasRoom s die 33 then flushEvents fuel (ringPut (setEvents s die t) die 33 (eventBytes r) 1) die
      else s

/-- Address of the next record of a record ring (R572). -/
def nextRecordAt (s : State) (die n : Nat) : Nat := rd s .hifRingBase die n + ringHead s die n % ringSize s die n * 32

/-- Address of the record written last to a record ring. -/
def lastRecordAt (s : State) (die n : Nat) : Nat := rd s .hifRingBase die n + sub32 (ringHead s die n) 1 % ringSize s die n * 32

/-- The last record was written straight to its ring, and that write turns out to have failed (R576; log entry 122). -/
def lastWriteFailed (s : State) (die n : Nat) (ok : Bool) : Bool :=
  !ok && ringState s die n = ringActive && decide (ringHead s die n ≠ 0)

/-- EPHEMERIS_FLUSH (R576, R677, R678): held records go to the ring once it has room; a failed write faults the ring. -/
def execEphemerisFlush (die : Die) (ok : Bool) (s : State) : Host.Outcome State Fault Refusal :=
  let d := die.val
  if (ephOf s d).held = [] && lastWriteFailed s d 34 ok then .next (ringFault s d 34 (lastRecordAt s d 34))
  else if (ephOf s d).held = [] || !ringHasRoom s d 34 then .next s
  else if ok then .next (ephSettle (flushEph (ephOf s d).held.length s d) d)
  else .next (ringFault s d 34 (nextRecordAt s d 34))

/-- EVENT_FLUSH (R576, R600): held events go to the ring once it has room; a failed write faults the ring. -/
def execEventFlush (die : Die) (ok : Bool) (s : State) : Host.Outcome State Fault Refusal :=
  let d := die.val
  if eventsOf s d = [] && lastWriteFailed s d 33 ok then .next (ringFault s d 33 (lastRecordAt s d 33))
  else if eventsOf s d = [] || !ringHasRoom s d 33 then .next s
  else if ok then .next (flushEvents (eventsOf s d).length s d)
  else .next (ringFault s d 33 (nextRecordAt s d 33))

end Sys2Proof.Machine
end

