-- ==== Sys2Proof/Machine/Check.lean ====
section
/-! DEFINITION. The checks of a whole stream: the walk that follows each array's tile and bindings (R123, R182, R244), the
guards and the reads they cover (R276, R278), the limits of a schedule cycle (R257, R258), and the fault a failing stream
reports (R294, R295). -/

namespace Sys2Proof.Machine

/-! ## The walk (R123, R182, R244, R246) -/

/-- What the checks know of one array. At INSTALL the state at stream start is unknown (`known` false): a tile, an unused
mark or a row that the stream has not set is then unknown. At RUN everything is known. -/
structure Walk where
  known : Bool
  /-- an MLOAD or MPASS of the stream for the array precedes (R244) -/
  seen : Bool
  tile : Option TileView
  /-- an MLOAD whose tile no MPASS of effect has used -/
  unused : Option Bool
  bound : Map Binding
  /-- rows merged into since their PLATE with no DRAIN over them; none where that is unknown -/
  merged : Map (Option Bool)
deriving DecidableEq, Repr

def Walk.unknown : Walk := ⟨false, false, none, none, [], []⟩

/-- What an array's tile shows to the checks. -/
def Tile.view (t : Tile) : TileView := ⟨if t.fmt = 0 then none else some t.fmt, t.k, t.n, t.degradable⟩

/-- The walk's start from an array's state: the tile is the one most recently loaded. -/
def Walk.start (a : ArrayState) : Walk :=
  ⟨true, false, some ((a.pendingTile.getD a.active).view), some a.pendingTile.isSome, a.bound, a.merged.map fun r => (r, some true)⟩

/-- A row's binding: none unknown, some none unbound. -/
def Walk.bindOf (w : Walk) (r : Nat) : Option (Option Binding) :=
  match Map.find w.bound r with
  | some b => some (some b)
  | none => if w.known then some none else none

def Walk.mergedOf (w : Walk) (r : Nat) : Option Bool :=
  match Map.find w.merged r with
  | some x => x
  | none => if w.known then some false else none

def Walk.setMerged (w : Walk) (rows : List Nat) (v : Option Bool) : Walk :=
  { w with merged := rows.foldl (fun m r => Map.put m r v) w.merged }

/-- The outcome of one command of the walk: a condition fails; a condition waits for the array's state (R244). -/
structure Verdict where
  bad : Bool
  deferred : Bool
  next : Walk
deriving DecidableEq, Repr

def walkMload (w : Walk) (m : Mload) : Verdict :=
  ⟨w.unused = some true, !w.seen, { w with seen := true, tile := some ⟨some m.fmt, m.k, m.n, m.degradable⟩, unused := some true }⟩

/-- The conditions of R182 on one row that an MPASS reaches. -/
def rowFits (p : Mpass) (t : TileView) (b : Binding) : Bool :=
  decide (t.n ≤ b.cols) && (t.k = 0 || b.exposure % t.k = 0) && b.integer = isIntFmt p.fmt

def walkMpass (w : Walk) (p : Mpass) : Verdict :=
  let rows := (List.range p.m).map (p.accRow + ·)
  let w := { w with seen := true }
  match w.tile with
  | none => ⟨false, true, w.setMerged (rows.filter fun r => w.mergedOf r ≠ some true) none⟩
  | some t =>
    if !p.fits t then ⟨true, false, w⟩
    else if p.m = 0 || t.n = 0 then ⟨false, false, w⟩
    else
      let bad := rows.any fun r => match w.bindOf r with
        | none => false
        | some none => true
        | some (some b) => !rowFits p t b
      let w' := { w with unused := some false }
      ⟨bad, rows.any fun r => w.bindOf r = none, if t.k ≠ 0 || p.clear then w'.setMerged rows (some true) else w'⟩

def walkPlate (w : Walk) (p : Plate) : Verdict :=
  if !p.acts then ⟨false, false, w⟩
  else
    let rows := (List.range p.m).map (p.accRow + ·)
    let w' := { w with bound := rows.foldl (fun m r => Map.put m r p.binding) w.bound }
    ⟨rows.any fun r => w.mergedOf r = some true, rows.any fun r => w.bindOf r = none, w'.setMerged rows (some false)⟩

def walkDrain (w : Walk) (d : Drain) : Verdict :=
  if !d.acts then ⟨false, false, w⟩
  else
    let rows := (List.range d.m).map (d.accRow + ·)
    let bs := rows.map w.bindOf
    let known := bs.filterMap id
    let bad := match known with
      | [] => false
      | b :: t => (t.any fun x => x ≠ b) || (match b with | none => true | some b => !d.fits b)
    ⟨bad, bs.contains none, w.setMerged rows (some false)⟩

/-- One array or accumulation command of the walk; a FEED has no condition of this kind. -/
def walkStep (w : Walk) (engine word : Nat) : Verdict :=
  if engine = engArray then
    match opcodeOf word with
    | 2 => walkMload w (Mload.of word)
    | 3 => walkMpass w (Mpass.of word)
    | _ => ⟨false, false, w⟩
  else match opcodeOf word with
    | 1 => walkPlate w (Plate.of word)
    | _ => walkDrain w (Drain.of word)

/-! ## Guards and reads (R276, R278) -/

/-- A read that a guard must cover: `own` when it starts in its command's issue cycle, in issue order. -/
structure ScanRead where
  bundle : Nat
  base : Nat
  len : Nat
  cycle : Nat
  own : Bool
deriving DecidableEq, Repr

structure ScanGuard where
  bundle : Nat
  base : Nat
  len : Nat
  cycle : Nat
deriving DecidableEq, Repr

/-- A guard that covers a read and precedes it (R278). A read lies within one guard: two that adjoin do not cover it together (log
entry 141). -/
def ScanGuard.covers (g : ScanGuard) (r : ScanRead) : Bool :=
  decide (g.base ≤ r.base) && decide (r.base + r.len ≤ g.base + g.len)
    && (decide (g.cycle < r.cycle) || (g.cycle = r.cycle && (!r.own || decide (g.bundle < r.bundle))))

/-- The reads of core memory, shared memory and HBM by the wide command of a bundle that issues at cycle c (R278). The reads of
carried FEEDs, before the window's replay point, are exempt. The tensors of an update command are those that its entry of the
layer table names when the stream is installed (log entry 53). -/
def wideReads (s : State) (k i c point engine w : Nat) : List ScanRead :=
  match engine with
  | 1 =>
    let f := Feed.of w
    let rc := feedCycle f c
    if opcodeOf w = 1 && f.moves && decide (point ≤ rc) then
      (List.range f.rows).map fun x => ⟨i, f.src + x * (f.srcPitch * 64), f.rowLines * 64, rc, rc = c⟩
    else []
  | 2 =>
    let d := Drain.of w
    if opcodeOf w = 2 && d.acts && d.chain then
      (List.range d.m).map fun x => ⟨i, coreBase k + d.dst + x * d.pitch, d.n * 8, c, true⟩
    else []
  | 3 =>
    ((vecSpans w).reads.filter fun x => x.2 ≠ 0).map fun x => ⟨i, coreBase k + x.1, x.2, c + 1, false⟩
  | _ =>
    let u := Upd.of w
    ((updReadRanges k u (layerOf s k u.layer)).filter fun x => x.2 ≠ 0).map fun x => ⟨i, x.1, x.2, c - u.lead, c - u.lead = c⟩

/-! ## The scan of a stream (R243, R244, R257, R258, R294) -/

/-- The scan's state: the issue cycle reached, the bundles and queues of that cycle, the walks, the current window, the
inherited counts, what RUN evaluates again, and the failure found first: the lowest bundle, then the lowest reason. -/
structure Scan where
  cycle : Nat
  inCycle : Nat
  queues : List Nat
  walks : Map Walk
  point : Nat
  used : List Nat
  guards : List ScanGuard
  reads : List ScanRead
  counts : Map Nat
  kept : List (Nat × Nat)
  fault : Option (Nat × Nat)
deriving DecidableEq, Repr

def Scan.start : Scan := ⟨0, 0, [], [], 0, [], [], [], [], [], none⟩

/-- A failure of a bundle for a reason (R294). -/
def Scan.note (s : Scan) (bundle reason : Nat) (fails : Bool) : Scan :=
  if !fails then s
  else match s.fault with
    | none => { s with fault := some (bundle, reason) }
    | some (b, r) =>
      if bundle < b || (bundle = b && decide (reason < r)) then { s with fault := some (bundle, reason) } else s

/-- The window ends: every read lies in a guard that precedes it (R278). -/
def Scan.closeWindow (s : Scan) : Scan :=
  let bad := s.reads.filter fun r => !(s.guards.any fun g => g.covers r)
  let s := bad.foldl (fun s r => s.note r.bundle 4 true) s
  { s with used := [], guards := [], reads := [] }

/-- The queue of a wide command (R258). -/
def queueOf (engine w : Nat) : Nat :=
  match engine with
  | 1 => if opcodeOf w = 1 then arrayNum w else 4 + arrayNum w
  | 2 => 8 + arrayNum w
  | 3 => 12
  | _ => 13

/-- A wide command takes its queue's place in the cycle (R258); a reserved opcode of the array and accumulation engines names no
queue. A PLATE or DRAIN without rows or columns, and an update command whose other checks fail, take theirs too (log entry 110). -/
def scanQueue (s : Scan) (i : Nat) (b : Bundle) : Scan :=
  let known := if b.engine = engArray then decide (1 ≤ opcodeOf b.wide) && decide (opcodeOf b.wide ≤ 3)
    else if b.engine = engAcc then decide (1 ≤ opcodeOf b.wide) && decide (opcodeOf b.wide ≤ 2) else true
  let q := queueOf b.engine b.wide
  if known then { (s.note i 3 (s.queues.contains q)) with queues := q :: s.queues } else s

/-- The reads of a bundle's wide command join those that guards must cover, also where the command fails its chapter's check: of two
failures the lower reason is recorded (R278, R294). -/
def scanReads (st : State) (s : Scan) (k i : Nat) (b : Bundle) : Scan :=
  { s with reads := s.reads ++ wideReads st k i s.cycle s.point b.engine b.wide }

/-- The wide command of a bundle whose field checks hold. -/
def scanWide (st : State) (s : Scan) (k i : Nat) (b : Bundle) : Scan :=
  let a := arrayNum b.wide
  let s := scanReads st s k i b
  if b.engine ≤ 2 && !(b.engine = engArray && opcodeOf b.wide = 1) then
    let v := walkStep (Map.getD s.walks a Walk.unknown) b.engine b.wide
    let n := Map.getD s.counts a 0 + flagBit v.deferred
    let s := (s.note i 2 v.bad).note i 6 (v.deferred && n = 65)
    { s with walks := Map.put s.walks a v.next, counts := Map.put s.counts a n, kept := s.kept ++ [(b.engine, b.wide)] }
  else if b.engine = engUpd then { s with kept := s.kept ++ [(b.engine, b.wide)] }
  else s

/-- The narrow operation of a bundle whose checks hold (R258, R276). -/
def scanNarrow (s : Scan) (i : Nat) (w : Nat) : Scan :=
  let s := { (s.note i 3 (s.queues.contains 14)) with queues := 14 :: s.queues }
  if bits w 63 60 = 3 then
    let x := bits w 59 56
    let s := s.note i 4 (s.used.contains x)
    let g : ScanGuard := ⟨i, bits w 55 20 * 4096, bits w 19 0 * 4096, s.cycle⟩
    { s with used := x :: s.used, guards := if g.len = 0 then s.guards else s.guards ++ [g] }
  else s

/-- One bundle of the scan. -/
def scanBundle (st : State) (k : Nat) (s : Scan) (i : Nat) (b : Bundle) : Scan :=
  let cycle := s.cycle + b.delta
  let same := i ≠ 0 && b.delta = 0
  let s := { s with cycle := cycle, inCycle := if same then s.inCycle + 1 else 1, queues := if same then s.queues else [] }
  let s := (s.note i 7 (decide (2 ^ 40 ≤ cycle))).note i 3 (decide (8 < s.inCycle))
  let s := if b.mark then { s.closeWindow with point := cycle } else s
  if !headerOk b (farCount st) (location st) then s.note i 1 true
  else
    let s := if !b.wideValid then s
      else if !wideOk st k b.engine b.wide then
        if b.engine ≤ 2 then (scanQueue s i b).note i 2 true else scanReads st ((scanQueue s i b).note i 8 true) k i b
      else scanWide st (scanQueue s i b) k i b
    if b.narrowValid then scanNarrow s i b.narrow else s

/-- The scan of a list of bundles. -/
def scanFrom (st : State) (k : Nat) : Scan → Nat → List Bundle → Scan
  | s, _, [] => s.closeWindow
  | s, i, b :: t => scanFrom st k (scanBundle st k s i b) (i + 1) t

/-- The bundles of a stream's bytes. -/
def bundlesOf (data : Bytes) : List Bundle :=
  (List.range (data.length / 32)).map fun i => bundleOf (leAt data (32 * i) 32)

/-- The evaluation at RUN of what depends on the state at stream start: the inherited conditions (R246) and the update
commands (R366). -/
def runChecks (s : State) (k : Nat) : Map Walk → List (Nat × Nat) → Bool
  | _, [] => true
  | ws, (e, w) :: t =>
    if e = engUpd then updRunOk s k w && runChecks s k ws t
    else
      let a := arrayNum w
      let v := walkStep (Map.getD ws a (Walk.start (arrayOf s k a))) e w
      !v.bad && runChecks s k (Map.put ws a v.next) t

end Sys2Proof.Machine
end

