-- ==== Sys2Proof/Machine/Install.lean ====
section
/-! DEFINITION. The descriptors of the core rings: INSTALL, RUN and LAYERS (R239 to R246, R294 to R296, R336 to R339, R366,
R587, R598). -/

namespace Sys2Proof.Machine

/-- The core is halted (R251), or its job does not run (R598). -/
def coreRefuses (s : State) (k : Nat) : Bool := jobState s ≠ 2 || seqState s k = seqHalted

/-- SEQ_INSTALL_FAULT written (R294). -/
def installFault (s : State) (k slot reason bundle : Nat) : State :=
  wrCore s .seqInstallFault k (reason * 2 ^ 28 + slot * 2 ^ 24 + bundle)

/-- R241: a base aligned to 32 bytes, and the whole stream in the core's memory. -/
def streamRangeOk (k base count : Nat) : Bool :=
  base % 32 = 0 && (count = 0 || (decide (coreBase k ≤ base) && decide (base + 32 * count ≤ coreBase k + coreSize)))

/-- The slot filled (R243, R296). -/
def fillSlot (s : State) (k slot base count : Nat) (data : Bytes) (kept : List (Nat × Nat)) : State :=
  let die := k / 24
  let u := k % 24 * 16 + slot
  let s := wr s .seqSlotBase die u base
  let s := wr s .seqSlotInfo die u (2 ^ 31 + count)
  let s := wr s .seqSlotCrc die u (crc32 data)
  let c := coreOf s k
  setCore s k { c with inherited := Map.put c.inherited slot kept }

/-- INSTALL (R240 to R245, R278, R294). -/
def execInstall (c : CoreRef) (mf : MemFaults) (s : State) : Host.Outcome State Fault Refusal :=
  let k := coreKey c
  let die := c.die.val
  let n := c.core.val
  match takeDesc s die n (fun d => d.type = 0x10) with
  | none => .next s
  | some (d, s) =>
    let slot := d.at_ 8 1
    let base := d.at_ 16 8
    let count := d.at_ 24 4
    if !reservedOk d [(8, 1), (16, 8), (24, 4)] || 16 ≤ slot || !addrOk base || 2 ^ 19 ≤ count then
      .next (finishWith s die n d stInvalid)
    else if !streamRangeOk k base count then .next (finishWith (installFault s k slot 5 0) die n d stInvalid)
    else if coreRefuses s k || ((coreOf s k).runDesc.isSome && seqSlot s k = slot) then .next (finishWith s die n d stRefused)
    else if count = 0 then .next (finishWith s die n d stEmpty)
    else
      let bad := (failRow s mf base (32 * count)).isSome
      let s := readEffects s mf base (32 * count)
      if bad then .next (finishWith s die n d stDataLost)
      else
        let (data, s) := memRead s .engine base (32 * count)
        let r := scanFrom s k Scan.start 0 (bundlesOf data)
        match r.fault with
        | some (b, reason) => .next (finishWith (installFault s k slot reason b) die n d stInvalid)
        | none => .next (finish (fillSlot s k slot base count data r.kept) die n d stOk 0 count 0 0)

/-- The run state of a core whose stream is about to start. -/
def CoreState.forRun (c : CoreState) (k : Nat) : CoreState :=
  { c.stopped with
    runDesc := some k, bundle := 0, prevCycle := 0, fetchCycle := 0, crc := 0xFFFF_FFFF, markDone := false, wideDone := false, flags := 0
    ended := none, degraded := [] }

/-- RUN (R246, R366, R598): the inherited list and the update commands are evaluated, and the start check begins. -/
def execRun (c : CoreRef) (s : State) : Host.Outcome State Fault Refusal :=
  let k := coreKey c
  let die := c.die.val
  let n := c.core.val
  match takeDesc s die n (fun d => d.type = 0x11) with
  | none => .next s
  | some (d, s) =>
    let slot := d.at_ 8 1
    if !reservedOk d [(8, 1)] || 16 ≤ slot then .next (finishWith s die n d stInvalid)
    else if coreRefuses s k || !slotInstalled s k slot then .next (finishWith s die n d stRefused)
    else if !runChecks s k [] (Map.getD (coreOf s k).inherited slot []) then .next (finishWith s die n d stInvalid)
    else
      let s := setCore (keepActive s die n d) k ((coreOf s k).forRun d.k)
      .next (settlePower (wrCore s .seqState k (slot * 2 ^ 16 + seqStartCheck)))

/-- LAYERS (R336 to R339): an entry that was read and fails R339 comes before a row that could not be read. -/
def execLayers (c : CoreRef) (mf : MemFaults) (s : State) : Host.Outcome State Fault Refusal :=
  let k := coreKey c
  let die := c.die.val
  let n := c.core.val
  match takeDesc s die n (fun d => d.type = 0x12) with
  | none => .next s
  | some (d, s) =>
    let first := d.at_ 8 1
    let count := d.at_ 10 2
    let src := d.at_ 16 8
    let len := 128 * count
    if !reservedOk d [(8, 1), (10, 2), (16, 8)] || 2 ^ 9 ≤ count || 256 < first + count || !addrOk src || src % 64 ≠ 0
        || !rangeIn s src len (reachUpd k) then
      .next (finishWith s die n d stInvalid)
    else if coreRefuses s k || (coreOf s k).runDesc.isSome then .next (finishWith s die n d stRefused)
    else if count = 0 then .next (finishWith s die n d stEmpty)
    else
      let bad := (failRow s mf src len).isSome
      let read := fun i => failRow s mf (src + 128 * i) 128 = none
      let whole := (List.range count).filter read
      let s := readEffects s mf src len
      let (data, s) := memRead s .engine src len
      if !(whole.all fun i => layerOk s k ((data.drop (128 * i)).take 128)) then .next (finishWith s die n d stInvalid)
      else if bad then .next (finishWith s die n d stDataLost)
      else
        let core := coreOf s k
        let s := setCore s k { core with layers := putBytes core.layers (128 * first) data }
        .next (finish s die n d stOk 0 count 0 0)

end Sys2Proof.Machine
end

