-- ==== Sys2Proof/Machine/TruOps.lean ====
section
/-! DEFINITION. Identity, staging and boot: settings, image checks, the boot chain, fallback and the objects of R785
(chapter 18). -/

namespace Sys2Proof.Machine

/-! ## TRU_UPDATE_STATUS (R798, R811) -/

def usIdle : Nat := 0
def usReceiving : Nat := 1
def usVerifying : Nat := 2
def usProgramming : Nat := 3
def usReady : Nat := 4
def usArmed : Nat := 5
def usActivating : Nat := 6
def usTrial : Nat := 7
def usRejected : Nat := 8

def upState (s : State) : Nat := rf s F.truUpdateStatus_state 0 0
def setUp (s : State) (v : Nat) : State := wf s F.truUpdateStatus_state 0 0 v
def inTrial (s : State) : Bool := upState s = usTrial

/-- Master codes of TRU_UPDATE_STATUS: host and management controller. -/
def upMaster (m : Master) : Nat := if m = .host then 1 else 2

/-! ## Settings (R792 to R794, R808, R809) -/

/-- The settings in force. -/
def settingsNow (s : State) : Settings :=
  ⟨ownerLocked s, rflag s F.truStatus_ownerKey 0 0, s.tru.ownerDigest, s.tru.bundleSeq, s.tru.salt,
   rf s F.pwrMgmtCap_capW 0 0, rf s F.pwrMgmtCap_windowMs 0 0, s.flt.countSet, s.flt.windowSet⟩

/-- Settings put in force. -/
def settingsPut (s : State) (v : Settings) : State :=
  let s := wf (wf s F.truStatus_ownerLock 0 0 (flagBit v.ownerLock)) F.truStatus_ownerKey 0 0 (flagBit v.ownerKey)
  let s := wf (wf s F.pwrMgmtCap_capW 0 0 v.capW) F.pwrMgmtCap_windowMs 0 0 v.capMs
  { s with
    tru := { s.tru with ownerDigest := v.ownerDigest, bundleSeq := v.bundleSeq, salt := v.salt }
    flt := { s.flt with countSet := v.counts, windowSet := v.windows } }

/-- The settings' values in one list, as they are measured. -/
def Settings.values (v : Settings) : List Nat :=
  [flagBit v.ownerLock, flagBit v.ownerKey, v.ownerDigest, v.bundleSeq, v.salt, v.capW, v.capMs]
    ++ ((List.range 12).flatMap fun i => [Map.getD v.counts (i + 1) (if i = 11 then (4 : Nat) else 8),
          Map.getD v.windows (i + 1) (if i = 11 then 86400 else 3600)])

/-- The session ends and the staging area is erased (R787, R794). -/
def endSession (s : State) : State :=
  let s := wf (wf s F.truUpdateChunks_total 0 0 0) F.truUpdateChunks_staged 0 0 0
  { s with tru := { s.tru with staging := [], staged := [], session := false, sessionLen := 0, sessionDigest := 0 } }

/-- The ledger erased (R447, R752): every channel is healthy; registers loaded from it follow at the next job begin, except
that a pseudo-channel only classed is in service again at once. -/
def eraseLedger (s : State) : State :=
  let was := (List.range 384).filter fun h => pcState s h = 2
  let s := (List.range 384).foldl (fun s h => if pcState s h = 1 then setPcState s h 0 else s) s
  let s := wf s F.hbmStatus_changePending 0 0 (flagBit (was ≠ []))
  { s with flt := { s.flt with
      ledger := [], spare := [], pendingRecs := [], channels := [], returned := was ≠ [] } }

/-- The defaults of R794: settings, ledger, and the seal count. -/
def factoryDefaults (s : State) : State :=
  flashWrite (ledgerStore (wr (eraseLedger (settingsStore (settingsPut s .default))) .truSealCount 0 0 0)) 1

/-! ## Images (R777 to R779, R801) -/

/-- A field of n bytes at byte i of an image. -/
def imgAt (m : Map Byte) (i n : Nat) : Nat := leNat (mapBytes m i n)

def imgType (m : Map Byte) : Nat := imgAt m 6 1
def imgFmt (m : Map Byte) : Nat := imgAt m 10 2
def imgSvn (m : Map Byte) : Nat := imgAt m 12 4
def imgLen (m : Map Byte) : Nat := imgAt m 16 4
def imgSeq (m : Map Byte) : Nat := imgAt m 20 4
def imgIsBundle (m : Map Byte) : Bool := imgType m = 3

/-- A bundle's entry: item and value (R801); the reserved bytes of a good one are 0. -/
def bundleEntryOk (m : Map Byte) (i : Nat) : Bool :=
  let item := imgAt m (8192 + 8 * i) 2
  let v := imgAt m (8196 + 8 * i) 4
  imgAt m (8194 + 8 * i) 2 = 0 &&
    if 0x0001 ≤ item && item ≤ 0x000C then decide (v ≤ 255)
    else if 0x0101 ≤ item && item ≤ 0x010C then decide (v ≤ 604800)
    else if item = 0x0200 then decide (600 ≤ v) && decide (v ≤ 2000)
    else item = 0x0201 && decide (250 ≤ v) && decide (v ≤ 10000)

/-- A bundle's body is a whole number of good entries (R801). -/
def bundleOk (m : Map Byte) : Bool :=
  (imgLen m - 8192) % 8 = 0 && (List.range ((imgLen m - 8192) / 8)).all (bundleEntryOk m)

/-- One entry of a bundle applied to settings (R801). -/
def bundleEntry (m : Map Byte) (v : Settings) (i : Nat) : Settings :=
  let item := imgAt m (8192 + 8 * i) 2
  let x := imgAt m (8196 + 8 * i) 4
  if item ≤ 0x000C then { v with counts := Map.put v.counts item x }
  else if item ≤ 0x010C then { v with windows := Map.put v.windows (item - 0x0100) x }
  else if item = 0x0200 then { v with capW := x }
  else { v with capMs := x }

/-- The unit identity public key (R783). -/
def identityKey : Bytes := Config.mldsaPublic Config.unitSecret

/-- The bytes of a digest. -/
def digestBytes (d : Nat) : Bytes := leBytes 64 d

/-- The first condition of R779 that fails, by its reason; `staged`: the length given when staging began is checked too. -/
def imageReason (s : State) (m : Map Byte) (staged : Bool) : Option Nat :=
  let bundle := imgIsBundle m
  let key := mapBytes m 256 2592
  let zeros := fun a n => (mapBytes m a n).all fun b => b = 0
  if imgAt m 0 4 ≠ 0x4E5A_5346 || imgAt m 4 2 ≠ 1 || imgType m = 0 || 3 < imgType m || !zeros 152 104
      || !zeros 7475 717 || imgLen m < 8192 || 64 * 0x10_0000 < imgLen m || (bundle && !bundleOk m) then some 0x1
  else if (if bundle then !rflag s F.truStatus_ownerKey 0 0 || Config.sha3 key ≠ s.tru.ownerDigest
      else 3 < imgAt m 7 1 || Config.sha3 key ≠ Config.rootDigest (imgAt m 7 1)
        || bitOf (rf s F.truFuse_revoked 0 0) (imgAt m 7 1)) then some 0x2
  else if !Config.mldsaVerify key (mapBytes m 2848 4627) (Config.sha3 (mapBytes m 0 2848)) then some 0x3
  else if Config.sha3 (mapBytes m 8192 (imgLen m - 8192)) ≠ imgAt m 88 64 then some 0x4
  else if imgAt m 8 2 ≠ 0x4812 then some 0x5
  else if imgType m = 2 && imgAt m 24 64 ≠ Config.sha3 identityKey then some 0x6
  else if !bundle && decide (imgSvn m < rf s F.truFuse_svn 0 0) then some 0x7
  else if !bundle && decide (imgFmt m < rf s F.truSettings_storedFormat 0 0) then some 0x8
  else if bundle && decide (imgSeq m ≤ s.tru.bundleSeq) then some 0x9
  else if staged && imgLen m ≠ s.tru.sessionLen then some 0xA
  else none

/-- The image in a bank, when it is valid for this unit (R779). -/
def bankImage (s : State) (bank : Nat) : Option ImageInfo :=
  match (if bank = 0 then s.tru.bank0 else s.tru.bank1) with
  | none => some (.factory bank)
  | some m =>
    if imageReason s m false = none && !imgIsBundle m then
      some ⟨bank, some (imgAt m 88 64), imgSvn m, imgFmt m, imgType m = 2⟩
    else none

/-! ## The boot chain (R780, R782, R803, R805) -/

/-- A boot record written to flash, and the registers that follow it (R808, R811). -/
def truSettle (s : State) : State :=
  let s := bootStore s
  let s := wf (wf s F.truStatus_activeBank 0 0 s.tru.activeBank) F.truStatus_trial 0 0 (flagBit s.tru.trialSet)
  wf s F.truTrial_trialBoots 0 0 s.tru.trialBoots

/-- CTL_CORE_STATE of both dies: eight control cores in one state (R643). -/
def setCores (s : State) (v : Nat) : State := wr (wr s .ctlCoreState 0 0 v) .ctlCoreState 1 0 v

/-- The image in the control memory of both dies, and every control core at its entry point (R619, R780; log entry 154). -/
def loadCores (s : State) (i : ImageInfo) : State :=
  let entry := Config.imageEntry (i.digest.getD (Config.factoryDigest i.bank))
  { s with
    ctlCores := (List.range 16).map fun k => (k, { ControlCore.fresh with pc := BitVec.ofNat 64 entry })
    ctlMem := [(0, ⟨some i, []⟩), (1, ⟨some i, []⟩)] }

/-- An image loaded, measured and started (R780, R784); a trial of a newer settings format runs on defaults (R803). -/
def runImage (s : State) (i : ImageInfo) (trial : Bool) : State :=
  let newer := trial && decide (rf s F.truSettings_storedFormat 0 0 < i.fmt) && s.tru.saved.isNone
  let s := if newer then
      settingsPut { s with tru := { s.tru with saved := some (settingsNow s) } } .default
    else s
  let s := { s with tru := { s.tru with
    running := i, aliasSalt := s.tru.salt, bootSettings := settingsNow s, bootLedger := ledgerNow s } }
  let s := loadCores s i
  setCores (wf (wf s F.truStatus_recovery 0 0 0) F.truSettings_imageFormat 0 0 i.fmt) 0x5555

/-- The confirmation window begins: state TRIAL (R802, R806). -/
def startTrial (s : State) : State :=
  let s := wf (setUp s usTrial) F.truTrial_secondsLeft 0 0 600
  { s with tru := { s.tru with trialFrom := now s 0 } }

/-- The fallback's record and state: trial cleared, the stored settings back in force, IDLE with outcome fallen back, and a
COUNT record (R805). -/
def fallBack (s : State) : State :=
  let s := match s.tru.saved with
    | some v => settingsPut { s with tru := { s.tru with saved := none } } v
    | none => s
  let s := truSettle { s with tru := { s.tru with trialSet := false, trialBoots := 0 } }
  let s := wf (wf (setUp s usIdle) F.truUpdateStatus_outcome 0 0 2) F.truTrial_secondsLeft 0 0 0
  let s := endSession s
  countRec s 0 .truUpdateStatus 0 (rd s .truUpdateStatus 0 0)

/-- The bank of the boot record, or the other one, or recovery. -/
def bootActive (s : State) : State :=
  match bankImage s s.tru.activeBank, bankImage s (1 - s.tru.activeBank) with
  | some i, _ => runImage s i false
  | none, some i => runImage s i false
  | none, none => setCores (wf { s with ctlCores := [], ctlMem := [] } F.truStatus_recovery 0 0 1) 0

/-- The boot chain (R780). -/
def bootChain (s : State) : State :=
  if s.tru.trialSet then
    let s := truSettle { s with tru := { s.tru with trialBoots := s.tru.trialBoots + 1 } }
    match bankImage s s.tru.trialBank with
    | some i => if s.tru.trialBoots ≤ 3 then runImage s i true else bootActive (fallBack s)
    | none => bootActive (fallBack s)
  else bootActive (truSettle s)

/-- An activation restart (R644, R762): the ICU at its reset values, the levels of the inputs apart; the transient history
lost; the boot chain run. -/
def activationRestart (s : State) : State :=
  let inputs := setBits (rd s .icuInputState 0 0) 0 0 0
  let s := wr (resetBlock s .icu) .icuInputState 0 0 inputs
  let s := { s with icuTimers := [], flt := { s.flt with history := [] } }
  let s := startRestart { s with host := { s.host with attention := false, repeating := false } } .activation
  bootChain s

/-- The firmware that restarts checks the image in control memory against the measurement of the last boot; on a mismatch the boot chain
loads it again (R761, R780; log entry 47). -/
def deviceReboot (s : State) : State :=
  if rflag s F.truStatus_recovery 0 0 then s
  else
    let intact := Config.imageIntact s.freeCtr
    let s := { s with freeCtr := s.freeCtr + 1 }
    if intact then s else bootChain s

/-- An activation starts (R802). -/
def startActivation (s : State) : State :=
  activationRestart (truSettle { setUp s usActivating with
    tru := { s.tru with trialSet := true, trialBank := 1 - s.tru.activeBank, trialBoots := 0 } })

/-- A fallback from a trial (R805). -/
def fallBackNow (s : State) : State := activationRestart (fallBack s)

/-! ## The objects of R785 -/

/-- The frame of a command of the management connector holds together: CRC-32, reserved bytes, and a body of the length it gives (R829,
R831). -/
def frameOk (f : Bytes) (bodyOk : Nat → Bool) : Bool :=
  let n := f.length - 12
  decide (12 ≤ f.length) && leAt f 4 4 = 0 && leAt f 2 2 = n && bodyOk n && crc32 (f.take (8 + n)) = leAt f (8 + n) 4

/-- A request of a Nalpin object, its op and body. -/
inductive ObjReq where
  | unitCert | aliasCert
  | attest (nonce : Nat)
  | ledger (index : Nat)
  | begin_ (length digest : Nat)
  | chunk (index crc : Nat) (data : Bytes)
  | query (index : Nat)
  | abandon (rival : Option Master)
  | activate (when_ : Nat) (supplyLow : Bool) (rival : Option Master)
  | endTrial (rival : Option Master)
  | setLock | clearLock
  | enroll (key : Bytes)
  | unlock | rebind | factory
deriving DecidableEq, Repr

/-- An op's answer: status, body, and the state after it. -/
structure ObjAns where
  status : Nat
  body : Bytes
  after : State
deriving DecidableEq, Repr

/-- The body digest of the running image. -/
def runningDigest (s : State) : Nat :=
  match s.tru.running.digest with
  | some d => d
  | none => Config.factoryDigest s.tru.running.bank

/-- The seed of the alias key (R784). -/
def aliasSeed (s : State) : Nat :=
  Config.sha3 (leBytes 32 Config.unitSecret ++ digestBytes (runningDigest s) ++ leBytes 4 s.tru.running.svn
    ++ leBytes 32 s.tru.aliasSalt)

/-- The 32 bytes of a ledger record (R747). -/
def ledgerBytes (r : LedgerRec) : Bytes :=
  let b := leBytes 1 r.kind ++ leBytes 1 r.state ++ leBytes 1 r.cause ++ leBytes 1 r.transients ++ leBytes 4 r.channel
    ++ leBytes 8 r.classedStamp ++ leBytes 8 r.appliedStamp ++ leBytes 2 r.value ++ leBytes 2 0
  b ++ leBytes 4 (crc32 b)

/-- Evidence for a nonce, with its signature (R786). -/
def evidence (s : State) (nonce : Nat) : Bytes :=
  let flags := flagBit (ownerLocked s) + 2 * rf s F.truStatus_debugUnlocked 0 0 + 4 * flagBit (inTrial s)
    + 8 * rf s F.truStatus_sealOpen 0 0 + 16 * flagBit s.tru.running.diag
  let b := leBytes 32 nonce ++ leBytes 8 (now s 0) ++ leBytes 2 (rf s F.ctlDieInfo_moduleLocation 0 0) ++ leBytes 1 flags
    ++ leBytes 1 (rf s F.truFuse_svn 0 0) ++ leBytes 1 s.tru.running.svn ++ leBytes 1 s.tru.activeBank
    ++ leBytes 2 (rf s F.truSettings_storedFormat 0 0) ++ leBytes 4 (rd s .truSealCount 0 0) ++ leBytes 4 0
    ++ digestBytes Config.romDigest ++ digestBytes (runningDigest s)
    ++ digestBytes (Config.sha3 (Config.settingsImage s.tru.bootSettings.values))
    ++ digestBytes (Config.sha3 (s.tru.bootLedger.flatMap ledgerBytes)) ++ digestBytes s.tru.ownerDigest
  b ++ Config.mldsaSign (aliasSeed s) (Config.sha3 b)

/-- The session of the management controller stands against the host (R795). -/
def heldByMgmt (s : State) (m : Master) : Bool := m = .host && s.tru.session && rf s F.truUpdateStatus_master 0 0 = 2

def ansWith (status : Nat) (s : State) : ObjAns := ⟨status, [], s⟩

/-- BEGIN (R795, R803). -/
def updBegin (s : State) (m : Master) (length digest : Nat) : ObjAns :=
  let st := upState s
  if length < 8192 || 64 * 0x10_0000 < length then ansWith stInvalid s
  else if inTrial s || heldByMgmt s m then ansWith stRefused s
  else if s.tru.session && digest = s.tru.sessionDigest then ansWith stOk s
  else if st = usProgramming || st = usArmed || st = usActivating then ansWith stRefused s
  else
    let s := endSession s
    let s := wf (wf (setUp s usReceiving) F.truUpdateStatus_reason 0 0 0) F.truUpdateStatus_outcome 0 0 0
    let s := wf (wf s F.truUpdateStatus_master 0 0 (upMaster m)) F.truUpdateChunks_total 0 0 (divCeil length 4096)
    let s := bootStore s
    ansWith stOk { s with tru := { s.tru with session := true, sessionLen := length, sessionDigest := digest } }

/-- CHUNK (R796, R797). -/
def updChunk (s : State) (index crc : Nat) (data : Bytes) : ObjAns :=
  let total := divCeil s.tru.sessionLen 4096
  if !s.tru.session || total ≤ index || crc32 data ≠ crc
      || (data.drop (s.tru.sessionLen - 4096 * index)).any (fun b => b ≠ 0) then ansWith stInvalid s
  else if upState s ≠ usReceiving then ansWith stRefused s
  else if s.tru.staged.contains index then ansWith stOk s
  else
    let staged := s.tru.staged ++ [index]
    let s := { s with tru := { s.tru with staging := putBytes s.tru.staging (4096 * index) data, staged := staged } }
    let s := irq (wf (bootStore s) F.truUpdateChunks_staged 0 0 staged.length) 0 3 7
    ansWith stOk (if staged.length = total then setUp s usVerifying else s)

/-- QUERY (R787): state, reason, staged count and 4,096 bits of the bitmap (log entry 30). -/
def updQuery (s : State) (index : Nat) : ObjAns :=
  let bits := (List.range 512).map fun i =>
    BitVec.ofNat 8 (((List.range 8).map fun j =>
      if s.tru.staged.contains (32 * index + 8 * i + j) then 2 ^ j else 0).sum)
  ⟨stOk, leBytes 1 (upState s) ++ leBytes 1 (rf s F.truUpdateStatus_reason 0 0)
    ++ leBytes 2 (rf s F.truUpdateChunks_staged 0 0) ++ bits, s⟩

/-! ### Contradictory masters (R605 to R608, R791, R807; log entry 123) -/

/-- The master of a higher precedence whose contradictory action came in the same Dome cycle, or came while neither was acknowledged.
The codes of the masters rise as their precedence falls (R607, R674). -/
def outrankedBy (m : Master) (rival : Option Master) : Option Master :=
  rival.filter fun r => decide (masterCode r < masterCode m)

/-- The master an action acts as: presence for one that needs it, taken while it is latched (R791). -/
def actsAs (s : State) (m : Master) (needs : Bool) : Master := if needs && presenceLatched s then .presence else m

/-- An action on the firmware overruled by a higher master: the records of both, and event 0x08 for an action of the host (R599,
R607). It stops where it stands, before any effect. -/
def overruled (s : State) (m winner : Master) : State :=
  actRecords s 3 m winner 0 0

/-- ABANDON (R607, R787, R795, R807): overruled by a higher master's action, the activation that it contradicts included; refused while an
activation or a trial is under way (log entry 31). -/
def updAbandon (s : State) (m : Master) (rival : Option Master) : ObjAns :=
  if heldByMgmt s m then ansWith stRefused s
  else if let some w := outrankedBy m rival then ansWith stSuperseded (overruled s m w)
  else if upState s = usActivating || inTrial s then ansWith stRefused s
  else if !s.tru.session then ansWith stOk s
  else
    let s := endSession (wf (setUp s usIdle) F.truUpdateStatus_reason 0 0 0)
    ansWith stOk (bootStore (wf s F.truUpdateStatus_master 0 0 0))

/-- The staged image needs presence to be activated: a field diagnostic, or a newer settings format under the owner lock (R799). -/
def activateNeeds (s : State) : Bool :=
  let img := s.tru.staging
  imgType img = 2
    || (!imgIsBundle img && decide (rf s F.truSettings_storedFormat 0 0 < imgFmt img) && ownerLocked s)

/-- ACTIVATE (R791, R799 to R802, R807). -/
def updActivate (s : State) (m : Master) (when_ : Nat) (supplyLow : Bool) (rival : Option Master) : ObjAns :=
  let img := s.tru.staging
  let bundle := imgIsBundle img
  let m' := actsAs s m (activateNeeds s)
  if 1 < when_ then ansWith stInvalid s
  else if heldByMgmt s m then ansWith stRefused s
  else if let some w := outrankedBy m' rival then ansWith stSuperseded (overruled s m' w)
  else if upState s ≠ usReady || (activateNeeds s && !presenceLatched s)
      || (bundle && (ownerLocked s || supplyLow || jobRuns s))
      || (!bundle && jobRuns s && when_ = 0) then ansWith stRefused s
  else if bundle then
    let old := settingsNow s
    let v := (List.range ((imgLen img - 8192) / 8)).foldl (bundleEntry img) old
    let s := settingsStore (settingsPut s { v with bundleSeq := imgSeq img })
    let s := if v.capW ≠ old.capW || v.capMs ≠ old.capMs then masterRec s 0x10 m' stOk 0 0 0 else s
    ansWith stOk (endSession (wf (setUp s usIdle) F.truUpdateStatus_outcome 0 0 3))
  else if jobRuns s then ansWith stOk (setUp s usArmed)
  else ansWith stOk (startActivation s)

/-- The master of a lower precedence whose contradictory action an action overrules (R607). -/
def outranks (m : Master) (rival : Option Master) : Option Master :=
  rival.filter fun r => decide (masterCode m < masterCode r)

/-- END_TRIAL (R795, R803, R805, R807): a confirmation that contradicts it is overruled, with its records unless TRIAL_CONFIRM has written
them. -/
def updEndTrial (s : State) (m : Master) (rival : Option Master) : ObjAns :=
  if heldByMgmt s m || !inTrial s then ansWith stRefused s
  else
    let noted := s.acts.any fun a => a.item = 3 && a.master = masterCode .firmware && sameDome a.stamp (now s 0)
    let s := match outranks m rival with | some r => if r = .firmware && noted then s else overruled s r m | none => s
    ansWith stOk (fallBackNow s)

/-- The master of a command that asks for END_TRIAL, through the DOE mailbox or in an object of the management controller (R785, R795). -/
def endsTrial : Instr → Option Master
  | .updateEndTrial by_ => some by_.master
  | .mgmtObject frame _ =>
    if leAt frame 0 1 = 8 && frameOk frame (fun n => n = 9) && leAt frame 8 2 = 0x0603 && leAt frame 10 3 = 0 then some .management
    else none
  | _ => none

/-- An END_TRIAL that waits behind the present command has come in this Dome cycle; its master, where it is not refused (R607, R795). -/
def waitingEndTrial (s : State) : Option Master :=
  (s.pending.filterMap endsTrial).find? fun m => !heldByMgmt s m

/-- An AUTHORISE action: refused unless presence is latched, no job and no trial runs, and its own condition holds (R793, R803). It
acts as presence, the highest master, so no action overrules it (R607, R791). -/
def authorise (s : State) (cond : Bool) (f : State → State) : ObjAns :=
  if presenceLatched s && !jobRuns s && !inTrial s && upState s ≠ usActivating && cond then ansWith stOk (f s)
  else ansWith stRefused s

/-- Whether an object is served in recovery (R782). -/
def ObjReq.inRecovery : ObjReq → Bool
  | .unitCert | .aliasCert | .begin_ _ _ | .chunk _ _ _ | .query _ | .abandon _ | .activate _ _ _ | .endTrial _ => true
  | _ => false

/-- What an op does (R783 to R787, R793, R794). -/
def serveObj (s : State) (m : Master) (r : ObjReq) : ObjAns :=
  if rflag s F.truStatus_recovery 0 0 && !r.inRecovery then ansWith stRefused s
  else match r with
  | .unitCert => ⟨stOk, Config.unitCertificate, s⟩
  | .aliasCert =>
    ⟨stOk, Config.aliasCertificate (Config.mldsaPublic (aliasSeed s))
      (runningDigest s + 2 ^ 512 * (s.tru.running.svn + 2 ^ 32 * s.tru.aliasSalt)), s⟩
  | .attest n => ⟨stOk, evidence s n, s⟩
  | .ledger i => ⟨stOk, ((s.flt.ledger.drop i).take 128).flatMap ledgerBytes, s⟩
  | .begin_ l d => updBegin s m l d
  | .chunk i c b => updChunk s i c b
  | .query i => updQuery s i
  | .abandon r => updAbandon s m r
  | .activate w l r => updActivate s m w l r
  | .endTrial r => updEndTrial s m r
  | .setLock => authorise s (rflag s F.truStatus_ownerKey 0 0) fun s => settingsStore (wf s F.truStatus_ownerLock 0 0 1)
  | .clearLock => authorise s true fun s => settingsStore (wf s F.truStatus_ownerLock 0 0 0)
  | .enroll key =>
    if key.length ≠ 2592 then ansWith stInvalid s
    else authorise s (!ownerLocked s) fun s =>
      let s := settingsStore (wf s F.truStatus_ownerKey 0 0 1)
      { s with tru := { s.tru with ownerDigest := Config.sha3 key, bundleSeq := 0 } }
  | .unlock => authorise s true fun s => wf s F.truStatus_debugUnlocked 0 0 1
  | .rebind => authorise s true fun s =>
      let s := settingsStore s
      { s with tru := { s.tru with salt := Config.randomDraw s.tru.draws, draws := s.tru.draws + 1 } }
  | .factory => authorise s true fun s =>
      let s := endSession (factoryDefaults s)
      wf (wf (wf (setUp s usIdle) F.truUpdateStatus_reason 0 0 0) F.truUpdateStatus_master 0 0 0) F.truUpdateStatus_outcome 0 0 0

/-- An object as the host's DOE mailbox or the management controller carries it: answered with its header (R785). -/
def objAnswer (op tag : Nat) (a : ObjAns) : Bytes :=
  leBytes 1 op ++ leBytes 1 a.status ++ leBytes 2 0 ++ leBytes 4 tag ++ a.body

/-- A DOE object of the host needs the host interface ready; the other path is always there (R604, R785, R826). -/
def objReaches (s : State) (m : Master) : Bool :=
  if m = .host then s.host.powered && s.host.perstN && s.host.linkUp && rflag s F.hifStatus_ready 0 0 else s.host.powered

/-- An object's request from a master: its source of group 3 (R627), its effect and its answer. -/
def doe (s : State) (m : Master) (op : Nat) (r : ObjReq) : State :=
  if !objReaches s m then s
  else
    let a := serveObj (irq s 0 3 (if m = .host then 6 else 5)) m r
    { a.after with answers := { a.after.answers with doe := objAnswer op 0 a } }

end Sys2Proof.Machine
end

