-- ==== Sys2Proof/Machine/Jobs.lean ====
section
/-! DEFINITION. The job commands, residency, routing tables and the ledger's durability (R400 to R407, R436, R457, R527 to
R530, R593 to R598, R749, R750). -/

namespace Sys2Proof.Machine

/-- A management descriptor that completes with a status, an effect before it, and a count. -/
def mgmtDone (s : State) (die : Nat) (d : Desc) (status count : Nat) : State := finish s die 32 d status 0 count 0 0

/-- JOB_BEGIN's checks that make it INVALID (R15, R457, R594): `far` objects at `base`. -/
def beginInvalid (s : State) (d : Desc) : Bool :=
  let f := rf s F.synFarCount_count 0 0
  let base := rd s .synFarBase 0 0
  let usable := (384 - (beginOut (beginLedger s)).length) * (1152 * 0x10_0000)
  !reservedOk d [(8, 32)] || d.at_ 8 8 = 0 || d.at_ 32 8 % 64 ≠ 0 || decide (2 ^ 24 < f)
    || (0 < f && (decide (usable < base + 16 * f) || (windows s).any fun w => overlaps base (16 * f) w.base w.len))

/-- What a JOB_BEGIN that passes its checks does, in the order of R594 (R38, R407, R436, R456, R554, R595, R718, R739). -/
def beginJob (s : State) (d : Desc) (train : List (BitVec 8)) (reportOk : Bool) : State :=
  let stamp := now s 0
  let s := if s.job.flushOwed then flushFabric s else s
  let old := s.unusable
  let s := wf (setJobState s 1) F.jobStatus_lastMaster 0 0 0
  let s := wr s .jobId 0 0 (d.at_ 8 8)
  let s := applyLedger s
  let changed := !sameList old s.unusable
  let s := residencyBegin s (d.at_ 16 8) changed
  let s := if changed then zeroWhere s fun a => decide (a < sharedBase 0) else s
  let base := rd s .synFarBase 0 0
  let f := rf s F.synFarCount_count 0 0
  let s := { zeroRange s base (16 * f) with sync := [] }
  let s := { s with
    flt := { s.flt with countNow := s.flt.countSet, windowNow := s.flt.windowSet }
    pwr := { s.pwr with waits := [], grant := none }
    job := { s.job with key := d.at_ 16 8, seed := d.at_ 24 8, report := d.at_ 32 8, far := f, farBase := base, killer := 0 } }
  let s := sourceSettle (trainPorts s train)
  let s := if helioOn s then setBalance s 0 else s
  writeReport s d (d.at_ 32 8) stamp reportOk

/-- JOB_BEGIN (R457, R593 to R595, R773, R803). -/
def execJobBegin (train : List (BitVec 8)) (reportOk : Bool) (s : State) : Host.Outcome State Fault Refusal :=
  match takeDesc s 0 32 (fun d => d.type = 0x30) with
  | none => .next s
  | some (d, s) =>
    if beginInvalid s d then .next (mgmtDone s 0 d stInvalid 0)
    else .next (hostAct s 1 actBegin d (jobRuns s || inTrial s) fun s => mgmtDone (beginJob s d train reportOk) 0 d stOk 0)

/-- What a JOB_END that passes its checks does (R405, R456, R555, R596, R626). -/
def endJob (s : State) : State :=
  let s := wf (setJobState s 3) F.jobStatus_lastMaster 0 0 0
  let wins := windows s
  let s := { s with job := { s.job with tag := if wins = [] then 0 else s.job.key } }
  jobClear (wf s F.spmResStatus_tagValid 0 0 (flagBit (wins ≠ []))) wins

/-- JOB_END may end the job: it runs under this ID, and no work of it is outstanding (R596). A kill by firmware that is still open does not
stand against it: firmware is the lower master (R607, R608). -/
def mayEnd (s : State) (d : Desc) : Bool :=
  (jobState s = 2 || firmwareKillOpen s) && d.at_ 8 8 = rd s .jobId 0 0 && !workOutstanding s

/-- The end of the job by the host: a firmware kill that is open is superseded, and stops where it stands (R607, R608). -/
def endByHost (s : State) (d : Desc) : State :=
  let s := if firmwareKillOpen s then actRecords s 1 .firmware .host d.type d.tag else s
  endJob { s with job := { s.job with killer := 0 } }

/-- JOB_END (R596, R607, R608, R773). -/
def execJobEnd (s : State) : Host.Outcome State Fault Refusal :=
  match takeDesc s 0 32 (fun d => d.type = 0x31) with
  | none => .next s
  | some (d, s) =>
    if !reservedOk d [(8, 8)] then .next (mgmtDone s 0 d stInvalid 0)
    else .next (hostAct s 1 actEnd d (!mayEnd s d) fun s => mgmtDone (endByHost s d) 0 d stOk 0)

/-- JOB_KILL (R597, R607, R773). -/
def execJobKill (s : State) : Host.Outcome State Fault Refusal :=
  match takeDesc s 0 32 (fun d => d.type = 0x32) with
  | none => .next s
  | some (d, s) =>
    if !reservedOk d [(8, 8)] then .next (mgmtDone s 0 d stInvalid 0)
    else .next (hostAct s 1 actKill d (!jobRuns s || d.at_ 8 8 ≠ rd s .jobId 0 0) fun s => mgmtDone (killJob s .host) 0 d stOk 0)

/-- RESIDENCY (R402 to R404, R416, R590). -/
def execResidency (s : State) : Host.Outcome State Fault Refusal :=
  match takeDesc s 0 32 (fun d => d.type = 0x33) with
  | none => .next s
  | some (d, s) =>
    let n := d.at_ 8 1
    let base := d.at_ 16 8
    let len := d.at_ 24 8
    let others := (List.range 16).filterMap fun i =>
      let v := rd s .spmResWindow 0 i
      if i = n || bits v 63 40 = 0 then none else some (⟨bits v 31 0 * 0x1_0000, bits v 63 40 * 0x1_0000⟩ : Span)
    if !reservedOk d [(8, 1), (16, 16)] || 15 < n || !addrOk base || base % 0x1_0000 ≠ 0 || len % 0x1_0000 ≠ 0
        || !rangeOk s base len || others.any (fun w => overlaps base len w.base w.len) then
      .next (mgmtDone s 0 d stInvalid 0)
    else if jobState s ≠ 2 || s.job.key = 0 || !windowOffered s base len then .next (mgmtDone s 0 d stRefused 0)
    else
      let v := if len = 0 then 0 else len / 0x1_0000 * 2 ^ 40 + base / 0x1_0000
      let s := wr s .spmResWindow 0 n v
      .next (mgmtDone (wf s F.spmResStatus_windows 0 0 (windows s).length) 0 d stOk 0)

/-- An entry of the routing table is well formed (R524, R525, R528). -/
def routeOk (e : Nat) : Bool :=
  let n := bits e 127 125
  bits e 124 120 = 0 && decide (n ≤ 4) && (List.range 4).all fun i =>
    let c := bits e (30 * i + 29) (30 * i)
    let hops := bits c 25 24
    if n ≤ i then c = 0
    else (1 ≤ hops || bits c 23 16 = 0) && (2 ≤ hops || bits c 15 8 = 0) && (hops = 3 || bits c 7 0 = 0)

/-- Ports that an entry's candidates name. -/
def routePorts (e : Nat) : List Nat := (candidatesOf e).map (·.port)

/-- ROUTE_WRITE (R408, R527, R528, R584, R590). Rows that a tagged window hides are not read. -/
def execRouteWrite (die : Die) (mf : MemFaults) (s : State) : Host.Outcome State Fault Refusal :=
  let k := die.val
  match takeDesc s k 32 (fun d => d.type = 0x35) with
  | none => .next s
  | some (d, s) =>
    let first := d.at_ 8 4
    let count := d.at_ 12 4
    let src := d.at_ 16 8
    let reach : Region → Bool := fun r => match r with
      | .hbm => true
      | .shared x => x = k
      | .core _ => false
    if !reservedOk d [(8, 16)] || 65536 ≤ first || 2 ^ 17 ≤ count || 65536 < first + count || !addrOk src || src % 16 ≠ 0
        || !rangeIn s src (16 * count) reach then .next (mgmtDone s k d stInvalid 0)
    else if jobRuns s then .next (mgmtDone s k d stRefused 0)
    else if count = 0 then .next (mgmtDone s k d stEmpty 0)
    else
      let (bad, s) := readRanges s mf (visibleIn s src (16 * count))
      let (b, s) := memRead s .firmware src (16 * count)
      let entries := (List.range count).map fun i => leAt b (16 * i) 16
      let read := match bad with
        | some a => (a - src) / 16
        | none => count
      let busy := fun p => decide (rd s .fabPortOutstanding k p ≠ 0)
      if !(entries.take read).all routeOk then .next (mgmtDone s k d stInvalid 0)
      else if bad.isSome then .next (mgmtDone s k d stDataLost 0)
      else if (entries.zipIdx).any (fun (e, i) => (routePorts e ++ routePorts (routeEntry s k (first + i))).any busy) then
        .next (mgmtDone s k d stRefused 0)
      else
        let routes := (entries.zipIdx).foldl (fun m (e, i) =>
          let key := k * 65536 + first + i
          if e = 0 then Map.del m key else Map.put m key e) s.routes
        .next (mgmtDone (wf { s with routes := routes } F.fabRouteCtrl_routeValid k 0 0) k d stOk count)

/-- The deciding records of a full log written into the spare region, which is not active yet: a power loss leaves the old region active
and complete (R751). -/
def writeSpare (s : State) : State :=
  flashWrite { s with flt := { s.flt with spare := ledgerDeciding s.flt.ledger } } (1 - s.flt.region)

/-- LEDGER_DURABLE (R627, R750, R751, R803): the oldest record on its way to flash is written and read back. Where the active region is
full, the spare one is written first, and the next such command makes it the active one. -/
def execLedgerDurable (s : State) : Host.Outcome State Fault Refusal :=
  match s.flt.pendingRecs with
  | [] => .next s
  | r :: t =>
    if s.tru.saved.isSome then .next s
    else if ledgerFull s.flt && s.flt.spare ≠ ledgerDeciding s.flt.ledger then .next (writeSpare s)
    else
      let (d, _, _) := chanSource r.kind r.channel
      let s := { s with flt := { ledgerAppend s.flt r with pendingRecs := t } }
      .next (irq (ledgerStore s) d 8 2)

end Sys2Proof.Machine
end

