-- ==== Sys2Proof/Machine/ResetOps.lean ====
section
/-! DEFINITION. Resets and low power: what a module reset, POR, Nap and Dark do to the module's state (chapter 17, R687 to
R692, R824 to R826). -/

namespace Sys2Proof.Machine

/-- Every record a die holds is lost and counted (R679). -/
def dropHoldStore (s : State) (die : Nat) : State :=
  let e := ephOf s die
  match e.held with
  | [] => s
  | r :: _ => ephSettle (ephDropped (setEph s die { e with held := [] }) die r.seq e.held.length) die

/-- A reset in an activation pause (R806): whether the boot record already held the trial, which is durable by 50 ms of the
pause, is a free choice (log entry 104). If not, the previous bank boots and the state returns to READY. -/
def undoActivation (s : State) : State :=
  if upState s = usActivating then
    let (n, s) := fresh s
    if n % 2 = 0 then s
    else
      let s := match s.tru.saved with
        | some v => settingsPut { s with tru := { s.tru with saved := none } } v
        | none => s
      setUp { s with tru := { s.tru with trialSet := false, trialBoots := 0 } } usReady
  else s

/-- The boot chain after a reset; a trial that boots starts its window again (R780, R806). -/
def bootReset (s : State) : State :=
  let s := bootChain (undoActivation { s with host := { s.host with restart := none } })
  if s.tru.trialSet then startTrial s else s

/-- The boot chain at a wake from Dark: a trial's window goes on as it was retained (R767, R768, R780). -/
def bootWake (s : State) : State := bootChain { s with host := { s.host with restart := none } }

/-- The sampled location of both dies (R521, R765). -/
def sampleLocation (s : State) (loc : Nat) : State :=
  wf (wf s F.ctlDieInfo_moduleLocation 0 0 loc) F.ctlDieInfo_moduleLocation 1 0 loc

/-- A host interface whose link is down and whose rings are gone. -/
def hostFresh (h : HostIf) : HostIf :=
  { h with linkUp := false, rdybsyN := false, d3hot := false, restart := none, attention := false, repeating := false
           pulsed := none, highSince := 0
           reportOwed := none, lowPower := none, lowPowerAsk := none, wakePending := false, darkPerst := false
           darkLoc := none, opened := false }

/-- The job block after a module reset or POR: no job, no tag, and the shared memories the ledger leaves (R390, R773). -/
def jobFresh (s : State) : JobState :=
  ⟨0, 0, 0, 0, [], 1250, sharedOffered s.flt.ledger 0, sharedOffered s.flt.ledger 1, 0, 0, false, 0⟩

/-- What a reset does to PWR_STATUS it records as any change of it: once for the state field, once for tight (R714). -/
def powerRecords (before s : State) : State :=
  let rec_ := fun (f : Fld) (s : State) =>
    if rf before f 0 0 = rf s f 0 0 then s else countRec s 0 .pwrStatus 0 (rd s .pwrStatus 0 0)
  rec_ F.pwrStatus_tight (rec_ F.pwrStatus_state s)

/-- The ports at a reset: their lane settings stay (R757). -/
def portsFresh (s : State) : Map PortState := Map.mapVals s.ports fun v => { PortState.fresh with settings := v.settings }

/-- A module reset (R764, R766, R770): work, rings, held records, fabric configuration and memories are gone, fields of
lifetimes M, L and J at their reset values, the ledger read, the firmware reloaded and the ports trained with the settings last used
(R757). -/
def moduleReset (s : State) (train : List (BitVec 8)) : State :=
  let before := s
  let s := dropHoldStore (dropHoldStore s 0) 1
  let s := resetLives s [.m, .l, .j]
  let s := { s with
    mem := []
    poison := []
    snoop := []
    heldWrites := []
    cores := []
    sync := []
    bridge := []
    cols := []
    colWaiting := []
    colEnded := []
    mcasts := []
    routes := []
    flowsTx := []
    flowsRx := []
    ports := portsFresh s
    rings := []
    events := []
    icuTimers := []
    comps := []
    clk := []
    acts := []
    pwr := { s.pwr with
      lastOrder := 500, calm := 0, waits := [], grant := none, thermCeiling := 1250, thermDark := false, balance := 0, target := 0 }
    flt := { s.flt with history := [] }
    job := jobFresh s }
  let s := wf { s with host := hostFresh s.host } F.icuInputState_presenceLatched 0 0 0
  let s := powerRecords before s
  sourceSettle (trainPorts (bootReset (ledgerRead s)) train)

/-- The levels the inputs hold at POR (R824, R825). -/
def inputsAtPor (s : State) (pins : PinLevels) : State :=
  let v := pins.loc.toNat * 2 ^ 16 + 8 * flagBit pins.pwrbrkN + 4 * flagBit pins.sealClosed + 2 * flagBit pins.presN
  let s := wf (wr s .icuInputState 0 0 v) F.truStatus_sealOpen 0 0 (flagBit !pins.sealClosed)
  let s := if pins.sealClosed then s else bump s F.truSealCount_count 0 0 1
  let s := if pins.perstN then sampleLocation s pins.loc.toNat else s
  if pins.pwrbrkN then s else brakeChange s false fun p => { p with brakePin := true }

/-- The ledger's regions as a power loss leaves them: the record on its way to flash is lost, and may leave one behind whose crc fails
(R746, R748, R750; log entry 152). -/
def regionsAfterLoss (s : State) : FaultState :=
  let torn := match s.flt.pendingRecs with
    | r :: _ => if Config.tornRecord s.freeCtr && !ledgerFull s.flt then [{ r with torn := true }] else []
    | [] => []
  { State.reset.flt with
    ledger := s.flt.ledger ++ torn, spare := s.flt.spare, region := s.flt.region
    countSet := s.flt.countSet, windowSet := s.flt.windowSet, countNow := s.flt.countNow, windowNow := s.flt.windowNow }

/-- Power is gone (R22, R758, R814): everything is at its reset value but fuses and flash, and nothing runs. -/
def powerGone (s : State) : State :=
  let fuse := rd s .truFuse 0 0
  let kept := (resetLives s [.p, .m, .l, .j]).regs
  let s := { State.reset with
    pending := s.pending
    freeCtr := s.freeCtr + 1
    hostMem := s.hostMem
    answers := s.answers
    regs := kept
    tru := s.tru
    flash := s.flash
    job := jobFresh s
    host := { State.reset.host with powered := false, perstN := s.host.perstN }
    flt := regionsAfterLoss s }
  wr s .truFuse 0 0 fuse

/-- POR (R758, R770, R771, R824): the inputs are taken as they stand, the ledger read, the firmware booted and the ports
trained. -/
def powerUp (s : State) (pins : PinLevels) (train : List (BitVec 8)) : State :=
  let s := powerGone s
  let s := inputsAtPor { s with host := { s.host with powered := true, perstN := pins.perstN } } pins
  sourceSettle (trainPorts (bootReset (ledgerRead s)) train)

/-! ## Nap and Dark (R689 to R692, R767 to R769, R772) -/

/-- Every ring is idle and every completion written, and each die's hold store is empty or its ephemeris ring disabled
(R691). -/
def mayEnterLowPower (s : State) : Bool :=
  !jobRuns s && s.host.restart.isNone
    && [0, 1].all fun die =>
      ((List.range 33).all fun n => !ringOutstanding s die n)
        && ((ephOf s die).held = [] || ringState s die 34 = ringDisabled)

/-- The fabric configuration that Dark and a module reset lose (R556, R772). -/
def isFabricConfig (r : Reg) : Bool :=
  [Reg.fabRouteCtrl, .fabPortMode, .fabMcastPorts, .fabThrottleCfg, .fabSampleCfg].contains r

/-- Windows in the scratchpads leave the residency table (R410). -/
def dropSramWindows (s : State) : State :=
  let s := (List.range 16).foldl (fun s n =>
    if sharedBase 0 ≤ bits (rd s .spmResWindow 0 n) 31 0 * 0x1_0000 then wr s .spmResWindow 0 n 0 else s) s
  wf s F.spmResStatus_windows 0 0 (windows s).length

/-- A low-power state is asked for; a Dark that is owed stays (R692, R693). -/
def askLowPower (s : State) (p : LowPower) : State :=
  { s with host := { s.host with lowPower := if s.host.lowPower = some .dark then some .dark else some p } }

/-- Both counters at a multiple of the Dome domain's grain, where all stamps of Nap and Dark lie (R650). -/
def alignDome (s : State) : State := [0, 1].foldl (fun s d => stepTo s d (domeGrain (now s d))) s

/-- Entry to Nap (R633, R650, R689, R692). -/
def enterNap (s : State) : State :=
  let s := setPwrStatus (alignDome { s with host := { s.host with lowPower := none } }) F.pwrStatus_state pwrNap
  let s := clockStop (clockStop s 0) 1
  if s.host.wakePending then wakeFree s else s

/-- Device writes that wait for the host land: what Dark keeps of HBM includes them (R433, R772). -/
def landHeld (s : State) : State :=
  { s with mem := s.heldWrites.foldl (fun m w => w.2.foldl (fun m e => putByte m e.1 e.2) m) s.mem, heldWrites := [] }

/-- The fabric configuration registers at their reset values (R772). -/
def dropFabricConfig (s : State) : State :=
  { s with regs := s.regs.filter fun e => match regOfKey e.1 with
      | some r => !isFabricConfig r
      | none => true }

/-- What Dark loses beside the memories and the fabric configuration, the outstanding packets and control memory among it (R536, R679,
R767, R768, R772). -/
def darkGone (s : State) : State :=
  settleOutstanding (settleOutstanding { s with
    routes := []
    flowsTx := []
    flowsRx := []
    mcasts := []
    rings := []
    events := []
    cores := []
    comps := []
    ctlCores := []
    ctlMem := []
    bridge := []
    snoop := []
    colWaiting := []
    colEnded := []
    flt := { s.flt with history := [] } } 0) 1

/-- The host interface at the entry to Dark: no low-power state is owed, no earlier wake event counts, and RDYBSY_N falls; attention that
waits is kept with the interrupt controller (R601, R603, R689, R772). -/
def darkHost (s : State) : State :=
  { s with host := { s.host with
    lowPower := none, lowPowerAsk := none, wakePending := false, opened := false, rdybsyN := false, pulsed := none, darkLoc := none } }

/-- Entry to Dark (R43, R433, R601, R650, R679, R709, R767, R768, R772, R826). -/
def enterDark (s : State) : State :=
  let s := alignDome s
  let s := if s.pwr.thermDark then s else releaseTherm s
  let s := setPwrStatus (landHeld s) F.pwrStatus_state pwrDark
  let s := clockStop (clockStop s 0) 1
  let s := linkDown (dropHoldStore (dropHoldStore s 0) 1)
  let s := dropSramWindows (zeroWhere s fun a => decide (sharedBase 0 ≤ a))
  darkHost (darkGone (dropFabricConfig s))

/-- A wake from Dark (R411, R765, R767 to R770, R775, R826): the restored module boots and trains; a PERST_N edge that Dark
recorded is performed first. LOC counts as it was when PERST_N rose. -/
def wakeDark (s : State) (train : List (BitVec 8)) : State :=
  let reset := s.host.darkPerst
  let loc := s.host.darkLoc
  let s := { s with host := { s.host with wakePending := false, darkPerst := false, darkLoc := none } }
  let s := wf (wf s F.spmZeroStatus_busy 0 0 1) F.spmZeroStatus_busy 1 0 1
  let s := if reset then moduleReset s train
    else setPwrStatus (sourceSettle (trainPorts (bootWake s) train)) F.pwrStatus_state pwrIdle
  let s := match loc with
    | some v => sampleLocation s v
    | none => s
  releaseTherm (clockStart (clockStart s 0) 1)

end Sys2Proof.Machine
end

