-- ==== Sys2Proof/Machine/Sidereal.lean ====
section
/-! DEFINITION. Sidereal time: exchanges, the span bridge, TIMEIN and TIMEOUT (R657 to R663), and TELEMETRY records (R676). -/

namespace Sys2Proof.Machine

/-- The die that takes time from a port, and the module port (R655). -/
def timeTaker (s : State) : Option (Nat × Nat) := (timePort s).map fun p => (p / 16, p)

/-- 1 ms has passed since a die last asked for time (R657). -/
def mayAsk (s : State) (die : Nat) : Bool :=
  match (sidOf s die).lastAsk with
  | some t => decide (t + 4_000_000 ≤ now s die)
  | none => true

/-- A die asks for time on a port: a link-control flit that waits for the lanes; t1 is the stamp at which it leaves (R657; log entry
151). -/
def askTime (s : State) (die p : Nat) : State :=
  let v := portOf s die p
  if !replayRoom v 1 then s
  else
    let s := setPort s die p (addFlit flitControl v (Config.linkContent false (offeredStratum s) 0 0))
    setSid s die { sidOf s die with request := some (p, v.txSeq), lastAsk := some (now s die), asked := none }

/-- SIDEREAL_EXCHANGE (R654, R657): every 1 ms the die that owns the chosen port sends its request. -/
def execSiderealExchange (s : State) : Host.Outcome State Fault Refusal :=
  if !s.host.powered || pwrNap ≤ powerState s then .next s
  else
    let s := sourceSettle s
    match timeTaker s with
    | none => .next s
    | some (d, p) => .next (if mayAsk s d then askTime s d (p % 16) else s)

/-- What the other ports offer, counted at an exchange (R654). -/
def countBetter (s : State) (p : Nat) : State :=
  (List.range 32).foldl (fun s q =>
    let v := portOf s (q / 16) (q % 16)
    let n := if q ≠ p && portQualifies s q && decide (v.stratum < stratumOf s p) then v.better + 1 else 0
    if n = v.better then s else setPort s (q / 16) (q % 16) { v with better := n }) s

/-- EXCHANGE_ANSWER (R654, R657 to R659): t2 and t3 come from the partner; t4 is the counter. -/
def execExchangeAnswer (t2 t3 : BitVec 64) (stratum : BitVec 4) (s : State) : Host.Outcome State Fault Refusal :=
  match timeTaker s with
  | none => .next s
  | some (d, p) =>
    match (sidOf s d).asked with
    | none => .next s
    | some t1 =>
      let t4 : Int := Int.ofNat (now s d)
      let twice := (Int.ofNat t2.toNat - Int.ofNat t1) - (t4 - Int.ofNat t3.toNat)
      let delta := ((t4 - Int.ofNat t1) - (Int.ofNat t3.toNat - Int.ofNat t2.toNat)) / 2
      let s := setPort s d (p % 16) { portOf s d (p % 16) with stratum := stratum.toNat }
      let s := setSid s d { sidOf s d with asked := none }
      if stratum = 15 then .next (sourceSettle s)
      else
        let s := judge (correct (countBetter s p) d twice delta) d twice delta
        let s := setSid s d { sidOf s d with lastExchange := some (now s d) }
        .next (sourceSettle s)

/-- SYNC_LOSS_TIMEOUT (R659): no exchange of either die has completed for 10 ms. -/
def execSyncLossTimeout (s : State) : Host.Outcome State Fault Refusal :=
  let late := fun d => match (sidOf s d).lastExchange with
    | some t => decide (t + 40_000_000 ≤ now s d)
    | none => true
  let d := match timeTaker s with
    | some (d, _) => d
    | none => 0
  if late 0 && late 1 && (rflag s F.sidStatus_synced 0 0 || rflag s F.sidStatus_synced 1 0) then
    .next (setSyncedBoth (setSid s d { sidOf s d with good := 0 }) d false 0 0)
  else .next s

/-- A die that follows the other corrects its offset to it, and its synced is that of the other (R658, R660). -/
def follow (s : State) (die : Nat) : State :=
  let s := correct s die (2 * (Int.ofNat (now s (1 - die)) - Int.ofNat (now s die))) 0
  setSynced s die (rflag s F.sidStatus_synced (1 - die) 0) 0 0

/-- BRIDGE_TIME_MEASURE (R655, R658, R660): the following die measures how far its counter is behind the other's. -/
def execBridgeTimeMeasure (s : State) : Host.Outcome State Fault Refusal :=
  let follows := fun d => rf s F.sidStatus_source d 0 = srcBridge
  if !s.host.powered || pwrNap ≤ powerState s then .next s
  else if follows 1 then .next (follow s 1)
  else if follows 0 then .next (follow s 0)
  else .next s

/-- TIMEOUT_PULSE (R662): die 0's counter has reached a whole second, or has just gone past it. -/
def execTimeoutPulse (s : State) : Host.Outcome State Fault Refusal :=
  if !s.host.powered || !reached s 4_000_000_000 (sidOf s 0).lastPulse then .next s
  else .next (setSid s 0 { sidOf s 0 with lastPulse := some (now s 0) })

/-- TIMEOUT is high: for 10 µs from each whole second (R662). -/
def timeoutHigh (s : State) : Bool :=
  match (sidOf s 0).lastPulse with
  | some t => decide (now s 0 < t + 40_000)
  | none => false

/-- The distance of a stamp from the nearest whole second (R663). -/
def offSecond (i : Int) : Int :=
  let r := i % 4_000_000_000
  if r ≤ 2_000_000_000 then r else r - 4_000_000_000

/-- TIMEIN_EDGE (R663). -/
def execTimeinEdge (s : State) : Host.Outcome State Fault Refusal :=
  if !s.host.powered || !rflag s F.sidCtrl_timeinEn 0 0 then .next s
  else
    let e := offSecond (Int.ofNat (now s 0) - Int.ofNat (rf s F.sidTimeinDelay_delayTicks 0 0))
    let s := setSid s 0 { sidOf s 0 with lastTimein := some (now s 0) }
    let follows := rf s F.sidStatus_source 0 0 = srcTimein
      || (rflag s F.sidCtrl_master 0 0 && rflag s F.sidCtrl_extRef 0 0)
    if follows then .next (correct s 0 (-(2 * e)) 0)
    else if 200 < e.natAbs then .next (syncRec s 0 5 (-e) 0)
    else .next s

/-- TIMEIN_MISSING (R663): 1.1 s without an edge. -/
def execTimeinMissing (s : State) : Host.Outcome State Fault Refusal :=
  match (sidOf s 0).lastTimein with
  | none => .next s
  | some t =>
    if !rflag s F.sidCtrl_timeinEn 0 0 || now s 0 < t + 4_400_000_000 then .next s
    else .next (syncRec (irq (setSid s 0 { sidOf s 0 with lastTimein := none }) 0 9 2) 0 6 0 0)

/-- The payload of a TELEMETRY record (R674, R676): energy, mean power over the last 10 ms, frequencies, hottest reading. -/
def telemetryPayload (s : State) : Nat :=
  pb 0 6 (rd s .pwrEnergy 0 0) + pb 6 2 (min 65535 (s.pwr.history.take 10).sum) + pb 8 2 (rf s F.clkStatus_freqMhz 0 0)
    + pb 10 2 (rf s F.clkStatus_freqMhz 1 0) + pb 12 2 (rf s F.pwrTemp_hottest 0 0)

/-- TELEMETRY (R676): once when the counter has reached a multiple of 40,000,000, or has just gone past it. -/
def execTelemetry (s : State) : Host.Outcome State Fault Refusal :=
  let t := now s 0
  if !s.host.powered || powerState s = pwrDark || !rflag s F.ephCtrl_telemetryEn 0 0
      || !reached s 40_000_000 (s.mgmt.lastTelemetry.map (·.stamp)) then .next s
  else
    let p := telemetryPayload s
    let s := emit s 0 0x40 0 Blk.pwr.num 0 p
    let q := (rd s .ephSeq 0 0 + 2 ^ 32 - 1) % 2 ^ 32
    let r : Record := ⟨0x40, !rflag s F.sidStatus_synced 0 0, 0, q, t, Blk.pwr.num, 0, p⟩
    .next { s with mgmt := { s.mgmt with lastTelemetry := some r } }

end Sys2Proof.Machine
end

