-- ==== Sys2Proof/Machine/Mgmt.lean ====
section
/-! DEFINITION. The management connector's I3C target (R827 to R833) and the debug port (R837, R838). -/

namespace Sys2Proof.Machine

/-! ## Commands and responses (R829 to R833) -/

/-- A response: header, body and CRC-32 (R830). -/
def i3cResponse (code seq status : Nat) (body : Bytes) : Bytes :=
  let b := leBytes 1 code ++ leBytes 1 seq ++ leBytes 1 status ++ leBytes 1 0 ++ leBytes 2 body.length ++ leBytes 2 0 ++ body
  b ++ leBytes 4 (crc32 b)

/-- What a command answers: its status, its body, and the state after it. -/
structure MgmtAns where
  status : Nat
  body : Bytes
  after : State
deriving DecidableEq, Repr

/-- A command taken by the row of its code; a frame with a reserved code is answered with INVALID by any row. The target answers
once it has a dynamic address, in every power state (R827, R831, R832). -/
def mgmtCommand (s : State) (code : Nat) (f : Bytes) (bodyOk : Nat → Bool) (k : State → Bytes → MgmtAns) : State :=
  let c := leAt f 0 1
  if !s.host.powered || s.mgmt.addr.isNone || (c ≠ code && 1 ≤ c && c ≤ 8) then s
  else
    let s := irq s 0 3 5
    let a := if c = code && frameOk f bodyOk then k s ((f.drop 8).take (f.length - 12)) else ⟨stInvalid, [], s⟩
    { a.after with answers := { a.after.answers with i3c := some (i3cResponse c (leAt f 1 1) a.status a.body) } }

/-- A command that answers a status only. -/
def mgmtStatusOnly (status : Nat) (s : State) : MgmtAns := ⟨status, [], s⟩

/-- STATUS (R832). -/
def execMgmtStatus (frame : Bytes) (s : State) : Host.Outcome State Fault Refusal :=
  .next (mgmtCommand s 1 frame (· = 0) fun s _ =>
    ⟨stOk, [Reg.jobStatus, .pwrStatus, .pwrLimit, .pwrTemp, .truStatus, .truUpdateStatus].flatMap fun r =>
      leBytes 4 (readReg s r 0 0), s⟩)

/-- SET_CAP (R606, R694, R832): the cap is stored; it applies from the next control step. -/
def execMgmtSetCap (frame : Bytes) (s : State) : Host.Outcome State Fault Refusal :=
  .next (mgmtCommand s 2 frame (· = 4) fun s b =>
    let w := leAt b 0 2
    let t := leAt b 2 2
    if w < 600 || 2000 < w || t < 250 || 10000 < t then mgmtStatusOnly stInvalid s
    else
      let s := settingsStore (wf (wf s F.pwrMgmtCap_capW 0 0 w) F.pwrMgmtCap_windowMs 0 0 t)
      mgmtStatusOnly stOk (masterRec s 0x10 .management stOk 0 0 0))

/-- A request of the management controller for a power state: overruled by a presence press of the same Dome cycle that asks for another, or
noted and done (R605 to R607, R693). -/
def mgmtPower (s : State) (outcome : Nat) (k : State → MgmtAns) : MgmtAns :=
  match higherAct s 2 outcome .management with
  | some w => mgmtStatusOnly stSuperseded (actRecords s 2 .management w 0 0)
  | none => k (noteAct s 2 outcome .management)

/-- The management controller asks for a low-power state (R605 to R608, R690, R693). -/
def mgmtLowPower (s : State) (p : LowPower) : MgmtAns :=
  if jobRuns s || (p = .nap && powerState s = pwrDark) then mgmtStatusOnly stRefused s
  else mgmtPower s (if p = .nap then actNap else actDark) fun s =>
    if powerState s = (if p = .nap then pwrNap else pwrDark) then mgmtStatusOnly stOk s
    else
      let s := if s.host.lowPower = some p then s else overruleLowPower s .management
      mgmtStatusOnly stOk (askLowPower s p)

/-- NAP (R689, R690, R832). -/
def execMgmtNap (frame : Bytes) (s : State) : Host.Outcome State Fault Refusal :=
  .next (mgmtCommand s 3 frame (· = 0) fun s _ => mgmtLowPower s .nap)

/-- DARK (R45, R689, R832). -/
def execMgmtDark (frame : Bytes) (s : State) : Host.Outcome State Fault Refusal :=
  .next (mgmtCommand s 4 frame (· = 0) fun s _ => mgmtLowPower s .dark)

/-- WAKE (R607, R689, R692, R832): leaves Nap or Dark, once an entry under way is complete. -/
def execMgmtWake (frame : Bytes) (s : State) : Host.Outcome State Fault Refusal :=
  .next (mgmtCommand s 5 frame (· = 0) fun s _ => mgmtPower s actAwake fun s =>
    let s := overruleLowPower s .management
    let owed := decide (pwrNap ≤ powerState s) || s.host.lowPower.isSome
    mgmtStatusOnly stOk (if owed then { s with host := { s.host with wakePending := true } } else s))

/-- JOB_KILL (R597, R605 to R608, R832). -/
def execMgmtJobKill (frame : Bytes) (s : State) : Host.Outcome State Fault Refusal :=
  .next (mgmtCommand s 6 frame (· = 8) fun s b =>
    if !jobRuns s || leAt b 0 8 ≠ rd s .jobId 0 0 then mgmtStatusOnly stRefused s
    else mgmtStatusOnly stOk (killByOther s .management).2)

/-- TELEMETRY (R832): the latest TELEMETRY record; in Dark the energy counter and 0 in the other payload fields. -/
def execMgmtTelemetry (frame : Bytes) (s : State) : Host.Outcome State Fault Refusal :=
  .next (mgmtCommand s 7 frame (· = 0) fun s _ =>
    let r := s.mgmt.lastTelemetry.getD ⟨0x40, true, 0, 0, 0, Blk.pwr.num, 0, 0⟩
    let r := if powerState s = pwrDark then { r with payload := pb 0 6 (rd s .pwrEnergy 0 0) } else r
    ⟨stOk, recordBytes r 0, s⟩)

/-- The request an object's bytes spell: its type, then the object (R785, R787, R793); none: INVALID. -/
def objectOf (b : Bytes) (supplyLow : Bool) (rival : Option Master) : Option ObjReq :=
  let body := b.drop 9
  let n := body.length
  if b.length < 9 || leAt b 2 3 ≠ 0 then none
  else match leAt b 0 1, leAt b 1 1 with
    | 1, 1 => if n = 0 then some .unitCert else none
    | 1, 2 => if n = 0 then some .aliasCert else none
    | 2, 1 => if n = 32 then some (.attest (leNat body)) else none
    | 3, 1 => if n = 68 then some (.begin_ (leAt body 0 4) (leAt body 4 64)) else none
    | 3, 2 => if n = 4104 then some (.chunk (leAt body 0 4) (leAt body 4 4) (body.drop 8)) else none
    | 3, 3 => if n = 4 then some (.query (leAt body 0 4)) else none
    | 3, 4 => if n = 0 then some (.abandon rival) else none
    | 3, 5 => if n = 1 then some (.activate (leAt body 0 1) supplyLow rival) else none
    | 3, 6 => if n = 0 then some (.endTrial rival) else none
    | 4, 1 => if n = 0 then some .setLock else none
    | 4, 2 => if n = 0 then some .clearLock else none
    | 4, 3 => if n = 2592 then some (.enroll body) else none
    | 4, 4 => if n = 0 then some .unlock else none
    | 4, 5 => if n = 0 then some .rebind else none
    | 4, 6 => if n = 0 then some .factory else none
    | 5, 1 => if n = 4 then some (.ledger (leAt body 0 4)) else none
    | _, _ => none

/-- OBJECT (R785, R832): a Nalpin object, served as by the DOE mailbox. -/
def execMgmtObject (frame : Bytes) (supplyLow : ObjectCase) (s : State) : Host.Outcome State Fault Refusal :=
  .next (mgmtCommand s 8 frame (fun n => decide (1 ≤ n)) fun s b =>
    match objectOf b supplyLow.supplyLow supplyLow.rival with
    | none => mgmtStatusOnly stInvalid s
    | some r =>
      let a := serveObj s .management r
      ⟨a.status, objAnswer (leAt b 1 1) (leAt b 5 4) a, a.after⟩)

/-! ## CCCs (R827, R828; log entry 14) -/

/-- An answer of the target. -/
def i3cAnswer (s : State) (b : Bytes) : State :=
  if s.host.powered && s.mgmt.addr.isSome then { s with answers := { s.answers with i3c := some b } } else s

/-- A number as the bus sends it, most significant byte first. -/
def busBytes (n v : Nat) : Bytes := (leBytes n v).reverse

/-- A dynamic address is taken by a target that has none. -/
def takeAddress (s : State) (a : Nat) : State :=
  if s.host.powered && s.mgmt.addr.isNone then { s with mgmt := { s.mgmt with addr := some a } } else s

/-- ENTDAA (R827). -/
def execEntdaa (addr : BitVec 7) (s : State) : Host.Outcome State Fault Refusal := .next (takeAddress s addr.toNat)

/-- SETDASA from static address 0x3C (R827). -/
def execSetdasa (addr : BitVec 7) (s : State) : Host.Outcome State Fault Refusal := .next (takeAddress s addr.toNat)

/-- RSTDAA (R827). -/
def execRstdaa (s : State) : Host.Outcome State Fault Refusal :=
  if s.host.powered then .next { s with mgmt := { s.mgmt with addr := none } } else .next s

/-- The Provisioned ID (R828). -/
def provisionedId (s : State) : Nat :=
  0x1E87 * 2 ^ 33 + 0x4812 * 2 ^ 16 + rf s F.ctlDieInfo_moduleLocation 0 0

/-- GETPID (R828). -/
def execGetpid (s : State) : Host.Outcome State Fault Refusal := .next (i3cAnswer s (busBytes 6 (provisionedId s)))

/-- GETBCR (R827). -/
def execGetbcr (s : State) : Host.Outcome State Fault Refusal := .next (i3cAnswer s (busBytes 1 (Config.i3cCapability 0)))

/-- GETDCR (R827). -/
def execGetdcr (s : State) : Host.Outcome State Fault Refusal := .next (i3cAnswer s (busBytes 1 (Config.i3cCapability 1)))

/-- GETSTATUS (R827). -/
def execGetstatus (s : State) : Host.Outcome State Fault Refusal := .next (i3cAnswer s (busBytes 2 (Config.i3cCapability 2)))

/-- GETMWL (R827): 8,208 bytes. -/
def execGetmwl (s : State) : Host.Outcome State Fault Refusal := .next (i3cAnswer s (busBytes 2 8208))

/-- GETMRL (R827): 8,208 bytes. -/
def execGetmrl (s : State) : Host.Outcome State Fault Refusal := .next (i3cAnswer s (busBytes 2 8208))

/-! ## The debug port (R408, R837, R838) -/

/-- DEBUG_PORT_ACCESS: ignored until debug is unlocked; then a byte of device memory is read or written, tagged windows reading
0 and dropping writes. Reads, and the merge reads of writes, are checked and re-read (R387 to R389, R845); a byte whose row fails
twice reads as a free value (log entry 2). -/
def execDebugPortAccess (addr : Nat) (write : DebugCase) (s : State) : Host.Outcome State Fault Refusal :=
  let quiet := { s with answers := { s.answers with jtag := none } }
  if !s.host.powered || powerState s = pwrDark || !rflag s F.truStatus_debugUnlocked 0 0 || (regionOf s addr).isNone then
    .next quiet
  else match write.write with
    | some b => .next (memWrite quiet .debug write.mf addr [b])
    | none =>
      let (b, s) := memRead s .debug addr 1
      let (v, s) :=
        if hiddenIn s addr 1 ≠ [] then (b.headD 0, s)
        else if (failRow s write.mf addr 1).isSome then
          let (n, s) := fresh (readEffects s write.mf addr 1)
          (BitVec.ofNat 8 n, s)
        else (b.headD 0, readEffects s write.mf addr 1)
      .next { s with answers := { s.answers with jtag := some v } }

end Sys2Proof.Machine
end

