-- ==== Sys2Proof/Machine/Power.lean ====
section
/-! DEFINITION. Power, clocks, droop and Heliostat (chapter 15), the supply (R814 to R816), and the filtered inputs with the
presence latch (R641, R788 to R790). -/

namespace Sys2Proof.Machine

/-! ## The POWER descriptor (R725, R726) -/

/-- The front of die 0's management ring, when it is a POWER descriptor of an action. -/
def takePower (s : State) (action : Nat) : Option (Desc × State) :=
  takeDesc s 0 32 fun d => d.type = 0x36 && d.at_ 8 1 = action

def powerReserved (d : Desc) : Bool := reservedOk d [(8, 1), (12, 4)]
def powerValue (d : Desc) : Nat := d.at_ 12 2
def powerWindow (d : Desc) : Nat := d.at_ 14 2

/-- Completes with OK at the control step that first applies it (R726). -/
def finishHeld (s : State) (d : Desc) : State := settlePower (queueCompletion s 0 32 (completionOf d stOk 0 0 0 0 true))

/-- SET_CAP (R606, R694, R725, R726, R728). -/
def execSetCap (s : State) : Host.Outcome State Fault Refusal :=
  match takePower s 1 with
  | none => .next s
  | some (d, s) =>
    let w := powerValue d
    let t := powerWindow d
    if !powerReserved d || w < 600 || 2000 < w || t < 250 || 10000 < t then .next (finishWith s 0 32 d stInvalid)
    else
      let s := wr s .pwrHostCap 0 0 (2 ^ 31 + t * 2 ^ 16 + w)
      .next (finishHeld (masterRec s 0x10 .host stOk 0x36 d.tag 0) d)

/-- CLEAR_CAP (R726, R728). -/
def execClearCap (s : State) : Host.Outcome State Fault Refusal :=
  match takePower s 2 with
  | none => .next s
  | some (d, s) =>
    if !powerReserved d || powerValue d ≠ 0 || powerWindow d ≠ 0 then .next (finishWith s 0 32 d stInvalid)
    else .next (finishHeld (wf s F.pwrHostCap_valid 0 0 0) d)

/-- SET_CEILING (R606, R694, R725, R726, R728). -/
def execSetCeiling (s : State) : Host.Outcome State Fault Refusal :=
  match takePower s 3 with
  | none => .next s
  | some (d, s) =>
    let f := powerValue d
    if !powerReserved d || f < 500 || 1250 < f || f % 25 ≠ 0 || powerWindow d ≠ 0 then .next (finishWith s 0 32 d stInvalid)
    else
      let s := wr s .pwrHostCeiling 0 0 f
      .next (finishHeld (masterRec s 0x10 .host stOk 0x36 d.tag 0) d)

/-- CLEAR_CEILING (R726, R728). -/
def execClearCeiling (s : State) : Host.Outcome State Fault Refusal :=
  match takePower s 4 with
  | none => .next s
  | some (d, s) =>
    if !powerReserved d || powerValue d ≠ 0 || powerWindow d ≠ 0 then .next (finishWith s 0 32 d stInvalid)
    else .next (finishHeld (wr s .pwrHostCeiling 0 0 0) d)

/-- The host asks for a low-power state. -/
def askByHost (s : State) (p : LowPower) (d : Desc) : State :=
  let s := askLowPower s p
  { s with host := { s.host with lowPowerAsk := some d.k } }

/-- NAP (R607, R689 to R691, R693, R726): refused while a job runs. -/
def execNap (s : State) : Host.Outcome State Fault Refusal :=
  match takePower s 5 with
  | none => .next s
  | some (d, s) =>
    if !powerReserved d || powerValue d ≠ 0 || powerWindow d ≠ 0 then .next (finishWith s 0 32 d stInvalid)
    else if jobRuns s then .next (finishWith s 0 32 d stRefused)
    else .next (hostAct s 2 actNap d false fun s => finishWith (askByHost s .nap d) 0 32 d stOk)

/-- DARK (R45, R607, R689 to R691, R693, R726): refused while a job runs. -/
def execDark (s : State) : Host.Outcome State Fault Refusal :=
  match takePower s 6 with
  | none => .next s
  | some (d, s) =>
    if !powerReserved d || powerValue d ≠ 0 || powerWindow d ≠ 0 then .next (finishWith s 0 32 d stInvalid)
    else if jobRuns s then .next (finishWith s 0 32 d stRefused)
    else .next (hostAct s 2 actDark d false fun s => finishWith (askByHost s .dark d) 0 32 d stOk)

/-! ## The control step and the clocks (R697 to R706, R713) -/

/-- The energy of the interval counted, with the mean power of the last second (R697, R724, R728). -/
def countEnergy (s : State) (mj : Nat) : State :=
  let h := (mj :: s.pwr.history).take 10000
  let s := { s with pwr := { s.pwr with history := h, lastStep := some (now s 0) } }
  let s := wr s .pwrEnergy 0 0 (rd s .pwrEnergy 0 0 + mj)
  wf s F.pwrAvg_powerDw 0 0 (min 65535 ((h.take 1000).sum / 100))

/-- The procedure of R697 for the interval's energy: the frequency ordered and floor_stretch. -/
def orderStep (s : State) (mj : Nat) : State :=
  let ceiling := freqCeiling s
  let pick := affordable (budget s s.pwr.history) mj (rf s F.clkStatus_freqMhz 0 0) ceiling
  let f := pick.getD 500
  let s := wf s F.pwrStatus_ceilingMhz 0 0 ceiling
  let s := clkChange s 0 fun s => clkChange s 1 fun s => wf s F.pwrStatus_floorStretch 0 0 (flagBit pick.isNone)
  let s := orderBoth s f
  { s with pwr := { s.pwr with lastOrder := f } }

/-- The tight state after a control step (R713, R714). -/
def tightStep (s : State) : State :=
  if tightNow s then setPwrStatus { s with pwr := { s.pwr with calm := 0 } } F.pwrStatus_tight 1
  else
    let n := min 100 (s.pwr.calm + 1)
    let s := { s with pwr := { s.pwr with calm := n } }
    if n = 100 then setPwrStatus s F.pwrStatus_tight 0 else s

/-- What waited for a control step: POWER completions (R726) and a grant whose lower target now applies (R719). -/
def releaseHeld (s : State) : State :=
  let w := ringWork s 0 32
  let s := { s with pwr := { s.pwr with grant := s.pwr.grant.map fun g => (g.1, g.2.1, true) } }
  if w.toWrite.any (·.held) then setRing s 0 32 { w with toWrite := w.toWrite.map fun c => { c with held := false } } else s

/-- CONTROL_STEP (R695, R697 to R699, R713, R724): once when the counter has reached a multiple of 4,000,000. In Nap and Dark no frequency
is ordered, and the energy of the interval is counted as in every power state. -/
def execControlStep (energyMj : Nat) (s : State) : Host.Outcome State Fault Refusal :=
  if !s.host.powered || !reached s 4_000_000 s.pwr.lastStep then .next s
  else if !clocksRun s then .next (countEnergy s energyMj)
  else .next (releaseHeld (limitSettle (tightStep (orderStep (countEnergy s energyMj) energyMj))))

/-- DVFS_STEP (R687, R701, R702, R711): the step in progress ends and the next one toward the order starts; a clock that has
just started takes its first step. -/
def execDvfsStep (die : Die) (s : State) : Host.Outcome State Fault Refusal :=
  let d := die.val
  match (clkOf s d).stepTo with
  | none => .next (if clocksRun s then startStep s d else s)
  | some f =>
    if !clocksRun s || stepHeld s d then .next s
    else
      let s := clkChange s d fun s =>
        wf (wf (setClk s d { clkOf s d with stepTo := none }) F.clkStatus_freqMhz d 0 f) F.clkStatus_stepping d 0 0
      .next (brakeSettle (startStep s d) d)

/-- The mV below nominal that a die's sensors may read (R704). -/
def droopLimit (s : State) (die : Nat) : Nat := rf s F.clkDroopCfg_thresholdMv die 0

/-- DROOP_DETECT (R703, R704, R706): a sensor reads below nominal by more than threshold_mv. -/
def execDroopDetect (reading : DroopReading) (s : State) : Host.Outcome State Fault Refusal :=
  let d := reading.die.val
  if !clocksRun s || (clkOf s d).droop || reading.below ≤ droopLimit s d then .next s
  else
    let s := clkChange s d fun s => setClk s d { clkOf s d with droop := true }
    .next (irq (bump s F.clkDroopCount_count d 0 1) d 2 4)

/-- DROOP_CLEAR (R703, R704): every sensor has read above the threshold for 50 ns; a step in progress resumes 1 µs later. -/
def execDroopClear (reading : DroopReading) (s : State) : Host.Outcome State Fault Refusal :=
  let d := reading.die.val
  if !(clkOf s d).droop || droopLimit s d ≤ reading.below || reading.ns < 50 then .next s
  else
    let until_ := if (clkOf s d).stepTo.isSome then now s d + 4000 else 0
    .next (clkChange s d fun s => setClk s d { clkOf s d with droop := false, heldUntil := until_ })

/-- OVERPOWER_STRETCH (R705): the input power over the last 1 µs. Above 2,400 W both dies stretch, until it is below 2,300 W. -/
def execOverpowerStretch (watts : Nat) (s : State) : Host.Outcome State Fault Refusal :=
  if !clocksRun s || (2300 ≤ watts && watts ≤ 2400) then .next s
  else
    let on := decide (2400 < watts)
    .next ([0, 1].foldl (fun s d => clkChange s d fun s => setClk s d { clkOf s d with overPower := on }) s)

/-! ## Heliostat (R717 to R722) -/

/-- The balance after the decay of an epoch (R719). -/
def decayed (b : Int) : Int :=
  if 0 < b then b - Int.ofNat (divCeil b.toNat 8) else if b < 0 then b + (-b) / 8 else b

/-- The samples of the epoch that ends now (R719). -/
def epochSamples (s : State) : List WaitSample :=
  s.pwr.waits.filter fun x => decide (x.released < now s 0) && decide (now s 0 ≤ x.released + 400_000_000)

/-- W: the durations of the ended epoch's samples whose last_src names another module, summed by its location (R719). -/
def helioWaits (s : State) : Map Nat :=
  (epochSamples s).foldl (fun w x =>
    let loc := x.lastSrc / 2
    if loc = location s then w else Map.put w loc (Map.getD w loc 0 + x.duration)) []

/-- The location with the largest sum of waits, the lowest of those (R719). -/
def critical (w : Map Nat) : Option (Nat × Nat) :=
  w.foldl (fun m e => match m with
    | none => some e
    | some x => if x.2 < e.2 then some e else some x) none

/-- The slack reaches slack_min (R719): the sum of waits over cores × 400,000,000, against slack_min / 256. -/
def slackReached (s : State) (w : Map Nat) : Bool :=
  decide (rf s F.pwrHelioCfg_slackMin 0 0 * (s.job.cores.length * 400_000_000) ≤ 256 * (w.map (·.2)).sum)

/-- The balance left at an epoch boundary, and the increment a grant may have: step_w, and not below floor_w (R719). -/
def helioLeft (s : State) : Int := decayed (helioBalance s)
def helioIncrement (s : State) : Int :=
  min (Int.ofNat (rf s F.pwrHelioCfg_stepW 0 0))
    (Int.ofNat (rf s F.pwrHelioCfg_baseW 0 0) + helioLeft s - Int.ofNat (rf s F.pwrHelioCfg_floorW 0 0))

/-- The critical location an epoch grants to, if the slack is reached (R719). -/
def helioCritical (s : State) : Option Nat :=
  if slackReached s (helioWaits s) then (critical (helioWaits s)).map (fun c => c.1) else none

/-- The samples released before the boundary dropped, the grant set, and the boundary noted (R719). -/
def helioClose (s : State) (grant : Option (Nat × Nat × Bool)) : State :=
  { s with pwr := { s.pwr with
    waits := s.pwr.waits.filter fun x => decide (now s 0 ≤ x.released)
    grant := grant, lastEpoch := some (now s 0) } }

/-- HELIOSTAT_EPOCH (R719): once when the counter has reached a multiple of 400,000,000 while Heliostat runs. -/
def execHeliostatEpoch (s : State) : Host.Outcome State Fault Refusal :=
  if !helioOn s || !reached s 400_000_000 s.pwr.lastEpoch then .next s
  else
    let b := helioLeft s
    let g := helioIncrement s
    match helioCritical s with
    | some c =>
      if 0 < g then .next (setBalance (helioClose s (some (c, g.toNat, false))) (b - g))
      else .next (setBalance (helioClose s none) b)
    | none => .next (setBalance (helioClose s none) b)

/-- GRANT_SEND (R473, R719): 1 ms after the boundary, once a control step has applied the new target. -/
def execGrantSend (s : State) : Host.Outcome State Fault Refusal :=
  match s.pwr.grant with
  | some (c, g, true) =>
    if !helioOn s || now s 0 % 400_000_000 < 4_000_000 then .next s
    else
      let obj := rf s F.pwrHelioCfg_obj 0 0
      .next (sendSignal { s with pwr := { s.pwr with grant := none } } 0 ⟨false, 2 * c, obj, g, 24⟩)
  | _ => .next s

/-! ## Thermal control (R708 to R710) -/

/-- PWR_TEMP holds the hottest reading (R708). -/
def setTemp (s : State) (t : Nat) : State := wf s F.pwrTemp_hottest 0 0 t

/-- THERMAL_CEILING_STEP (R606, R708): a change of the ceiling is an action of firmware on a limit, and recorded. -/
def execThermalCeilingStep (hottest : BitVec 16) (s : State) : Host.Outcome State Fault Refusal :=
  if !clocksRun s then .next s
  else
    let t := hottest.toNat
    let limit := 10 * rf s F.pwrThermCfg_throttleC 0 0
    let c := s.pwr.thermCeiling
    let c := if limit ≤ t then max 500 (c - 25) else if t + 30 < limit then min 1250 (c + 25) else c
    let moved := c ≠ s.pwr.thermCeiling
    let s := { setTemp s t with pwr := { s.pwr with thermCeiling := c } }
    let s := if moved then masterRec s 0x10 .firmware stOk 0 0 0 else s
    .next (wf s F.pwrStatus_ceilingMhz 0 0 (freqCeiling s))

/-- THERMAL_ALERT (R709). -/
def execThermalAlert (hottest : BitVec 16) (s : State) : Host.Outcome State Fault Refusal :=
  if !s.host.powered || powerState s = pwrDark then .next s
  else
    let t := hottest.toNat
    let limit := 10 * rf s F.pwrThermCfg_alertC 0 0
    let s := setTemp s t
    if !s.pwr.thermAsserted && decide (limit ≤ t) then .next (setTherm s true)
    else if s.pwr.thermAsserted && decide (t + 50 < limit) then .next (setTherm s false)
    else .next s

/-- THERMAL_CRITICAL (R607, R608, R710, R826): firmware kills the running job, and Dark follows as soon as no job runs. -/
def execThermalCritical (hottest : BitVec 16) (s : State) : Host.Outcome State Fault Refusal :=
  if !clocksRun s || hottest.toNat < 10 * rf s F.pwrThermCfg_critC 0 0 then .next s
  else
    let s := (killByOther (setTemp s hottest.toNat) .firmware).2
    .next (askLowPower { s with pwr := { s.pwr with thermDark := true } } .dark)

/-! ## Power brake (R711, R712, R815) -/

/-- The brake acts: both dies stretch until they are at brake_mhz or below, and are ordered there (R705, R711). -/
def brakeAct (s : State) (record : Bool) (f : PowerState → PowerState) : State :=
  let s := brakeChange s record f
  if !clocksRun s then s
  else
    let s := [0, 1].foldl (fun s d => clkChange s d fun s => setClk s d { clkOf s d with brake := true }) s
    brakeSettle (brakeSettle (orderBrake s) 0) 1

/-- POWER_BRAKE (R711, R712). -/
def execPowerBrake (s : State) : Host.Outcome State Fault Refusal :=
  if !s.host.powered then .next s
  else .next (brakeAct (bump s F.pwrBrakeCount_count 0 0 1) false fun p => { p with brakePin := true })

/-- PWRBRK_N has gone high, or the supply has recovered: where neither still asks for it, the stretch of the brake ends (R705, R815). -/
def brakeEase (s : State) : State :=
  if s.pwr.brakeSupply || !rflag s F.icuInputState_pwrbrkN 0 0 then s else endBrakeStretch (endBrakeStretch s 0) 1

/-- BRAKE_RELEASE (R705, R711): the filtered level has been high for 1 ms. -/
def execBrakeRelease (s : State) : Host.Outcome State Fault Refusal :=
  if !s.pwr.brakePin || !rflag s F.icuInputState_pwrbrkN 0 0 then .next s
  else .next (brakeEase (brakeChange s false fun p => { p with brakePin := false }))

/-- SUPPLY_BRAKE (R815). -/
def execSupplyBrake (s : State) : Host.Outcome State Fault Refusal :=
  if !s.host.powered || s.pwr.brakeSupply then .next s
  else .next (brakeAct s true fun p => { p with brakeSupply := true })

/-- SUPPLY_RECOVER (R705, R815). -/
def execSupplyRecover (s : State) : Host.Outcome State Fault Refusal :=
  if !s.pwr.brakeSupply then .next s
  else .next (brakeEase (brakeChange s true fun p => { p with brakeSupply := false }))

/-- SUPPLY_LOSS (R758, R814, R820): the regulators turn off. -/
def execSupplyLoss (s : State) : Host.Outcome State Fault Refusal :=
  if s.host.powered then .next (powerGone s) else .next s

/-- SUPPLY_RESTART (R816): POR. -/
def execSupplyRestart (pins : PinLevels) (train : List (BitVec 8)) (s : State) : Host.Outcome State Fault Refusal :=
  if s.host.powered then .next s else .next (powerUp s pins train)

/-! ## Filtered inputs and presence (R641, R788 to R790) -/

/-- A press of PRES_N asks for Idle: it overrules a Nap that the host has asked for and that is not acknowledged, or that a lower master
asked for in this Dome cycle; an entry to Nap that is owed is completed and then left (R607, R689, R692, R693). -/
def pressWakes (s : State) : State :=
  let s := noteAct s 2 actAwake .presence
  let wakes := { s with host := { s.host with wakePending := true } }
  if powerState s = pwrNap then wakes
  else if s.host.lowPower ≠ some .nap then s
  else if (hostLowPower s).isSome then overruleLowPower s .presence
  else
    let now' := fun a : Act => a.item = 2 && a.outcome = actNap && sameDome a.stamp (now s 0)
    match [Master.management, .host].find? fun m => s.acts.any fun a => now' a && a.master = masterCode m with
    | some m => actRecords { s with host := { s.host with lowPower := none, lowPowerAsk := none } } 2 m .presence 0 0
    | none => wakes

/-- A press of PRES_N: latched while the seal loop is open, recorded otherwise; it wakes the module from Nap (R689, R788,
R789). -/
def pressed (s : State) : State :=
  let s := pressWakes s
  if rflag s F.icuInputState_sealClosed 0 0 then
    regRefused s .presence .icuInputState 0 0 6 (rd s .icuInputState 0 0)
  else irq (wf s F.icuInputState_presenceLatched 0 0 1) 0 3 0

/-- The seal loop opens or closes (R789, R790). -/
def sealChange (s : State) (closed : Bool) : State :=
  let s := wf s F.truStatus_sealOpen 0 0 (flagBit !closed)
  if closed then irq (wf s F.icuInputState_presenceLatched 0 0 0) 0 3 3
  else irq (bump s F.truSealCount_count 0 0 1) 0 3 2

/-- Dome cycles that an input must hold a level before its filter takes it: the count of its register, and one for a count of 0 (R641). -/
def filterCount (s : State) (input : FilteredInput) : Nat :=
  max 1 (match input with
    | .loc => rf s F.icuFilterLoc_count 0 0
    | .pres => rf s F.icuFilterPres_count 0 0
    | .sealLoop => rf s F.icuFilterSeal_count 0 0
    | .pwrbrk => rf s F.icuFilterPwrbrk_count 0 0)

/-- INPUT_FILTER_ACCEPT (R641): an input has held a level without a break for some Dome cycles, and its filter takes it once they are enough;
for one wire, bit 0 of the level (the seal loop: 1 closed). -/
def execInputFilterAccept (input : FilteredInput) (level : InputLevel) (s : State) : Host.Outcome State Fault Refusal :=
  let f := match input with
    | .loc => F.icuInputState_loc
    | .pres => F.icuInputState_presN
    | .sealLoop => F.icuInputState_sealClosed
    | .pwrbrk => F.icuInputState_pwrbrkN
  let v := if input = .loc then level.level.toNat else level.level.toNat % 2
  if !s.host.powered || rf s f 0 0 = v || level.cycles < filterCount s input then .next s
  else
    let s := wf s f 0 0 v
    match input with
    | .loc => .next (if v = rf s F.ctlDieInfo_moduleLocation 0 0 then s else irq s 0 3 4)
    | .pres => .next (if v = 0 then pressed s else s)
    | .sealLoop => .next (sealChange s (v = 1))
    | .pwrbrk => .next (if v = 0 then irq (irq s 0 2 3) 1 2 3 else brakeEase s)

/-- PRESENCE_EXPIRY (R789): the 30 s have passed. -/
def execPresenceExpiry (s : State) : Host.Outcome State Fault Refusal :=
  if presenceLatched s then .next (irq (wf s F.icuInputState_presenceLatched 0 0 0) 0 3 1) else .next s

end Sys2Proof.Machine
end

