-- ==== Sys2Proof/Machine/Resets.lean ====
section
/-! DEFINITION. Resets, restarts and the power-state commands (chapter 17, R689 to R692). -/

namespace Sys2Proof.Machine

/-- POR (R758, R771). -/
def execPor (pins : PinLevels) (train : List (BitVec 8)) (s : State) : Host.Outcome State Fault Refusal :=
  .next (powerUp s pins train)

/-- PERST_ASSERT (R764, R775): a module reset; in Dark the Dome domain records the edge. -/
def execPerstAssert (train : List (BitVec 8)) (s : State) : Host.Outcome State Fault Refusal :=
  if !s.host.powered || !s.host.perstN then .next s
  else
    let s := { s with host := { s.host with perstN := false } }
    if powerState s = pwrDark then .next { s with host := { s.host with darkPerst := true } }
    else .next (moduleReset s train)

/-- The reset count of ICU_FILTER_LOC, through which LOC is sampled (R641, R642). -/
def locCount : Nat := 25

/-- LOC as the filter with the reset count gives it: the level that it has held for the count, or else the one last accepted (R642; log
entry 93). -/
def filteredLoc (s : State) (l : InputLevel) : Nat := if locCount ≤ l.cycles then l.level.toNat else rf s F.icuInputState_loc 0 0

/-- PERST_DEASSERT (R521, R642, R765, R771): LOC[15:0] is sampled. In Dark the sample waits for the wake. -/
def execPerstDeassert (loc : InputLevel) (s : State) : Host.Outcome State Fault Refusal :=
  if !s.host.powered || s.host.perstN then .next s
  else
    let v := filteredLoc s loc
    let s := { s with host := { s.host with perstN := true } }
    .next (if powerState s = pwrDark then { s with host := { s.host with darkLoc := some v } } else sampleLocation s v)

/-- RESTART (R591, R758): refused while a job runs; otherwise the restart begins once its completion is written. -/
def execRestart (s : State) : Host.Outcome State Fault Refusal :=
  match takeDesc s 0 32 (fun d => d.type = 0x37) with
  | none => .next s
  | some (d, s) =>
    .next (finishWith s 0 32 d (if !reservedOk d [] then stInvalid else if jobRuns s then stRefused else stOk))

/-- RESTART_COMPLETE (R601, R761, R763, R802): the restart or activation pause ends. The firmware of a device restart checks its image; a trial
enters TRIAL. RDYBSY_N rises once the host interface has accepted configuration accesses. -/
def execRestartComplete (s : State) : Host.Outcome State Fault Refusal :=
  match s.host.restart with
  | none => .next s
  | some k =>
    let s := if k = .device then deviceReboot s else s
    let s := { s with host := rdySet { s.host with restart := none } (s.host.perstN && s.host.opened) (now s 0) }
    .next (if k = .activation && s.tru.trialSet then startTrial s else s)

/-- LOW_POWER_ENTRY (R691, R692): the entry that was asked for takes place once the module may enter. -/
def execLowPowerEntry (s : State) : Host.Outcome State Fault Refusal :=
  if !mayEnterLowPower s then .next s
  else match s.host.lowPower with
    | some .nap => .next (enterNap s)
    | some .dark => .next (enterDark s)
    | none => .next s

/-- WAKE (R633, R687, R689, R692): a wake event brings the module from Nap to Idle, and its ports train. -/
def execWake (train : List (BitVec 8)) (s : State) : Host.Outcome State Fault Refusal :=
  if powerState s = pwrNap && s.host.wakePending then .next (wakeTrained s train) else .next s

/-- DARK_WAKE (R769, R775). -/
def execDarkWake (train : List (BitVec 8)) (s : State) : Host.Outcome State Fault Refusal :=
  if powerState s = pwrDark && s.host.wakePending then .next (wakeDark s train) else .next s

end Sys2Proof.Machine
end

