-- ==== Sys2Proof/Machine/Scrub.lean ====
section
/-! DEFINITION. Patrol scrub of HBM: PATROL_SCRUB (R428, R429, R439 to R443, R451, R757). -/

namespace Sys2Proof.Machine

/-- Sectors of a pseudo-channel: 1,152 MiB of 32 bytes (R439). -/
def pcSectors : Nat := 37_748_736

/-- Sectors of the accelerated range: 1 MiB (R441). -/
def accelSectors : Nat := 32_768

/-- Place of a pseudo-channel in the usable list. -/
def usableIndex (s : State) (h : Nat) : Option Nat := (usableList s).findIdx? fun x => x = h

/-- Device address of a sector of the pseudo-channel at place i of the usable list (the inverse of R422). -/
def sectorAddr (s : State) (i sector : Nat) : Nat := (sector / 8 * (usableList s).length + i) * 256 + sector % 8 * 32

def setScrub (s : State) (h : Nat) (v : ScrubState) : State := { s with scrub := Map.put s.scrub h v }

/-- The sectors a command reads, and the scrub state after it: the next part of an accelerated range, a queued sector, or the
next 64 in order. -/
def scrubBatch (v : ScrubState) : Nat × Nat × ScrubState :=
  match v.accel, v.queued with
  | r :: t, _ =>
    let n := min 64 (r.past - r.next)
    (r.next, n, { v with accel := if r.past ≤ r.next + 64 then t else { r with next := r.next + n } :: t })
  | [], q :: t => (q, 1, { v with queued := t })
  | [], [] =>
    let n := v.next + 64
    (v.next, 64, if pcSectors ≤ n then { v with next := 0, passes := v.passes + 1 } else { v with next := n })

/-- The 1 MiB around a sector, clipped at the ends of the pseudo-channel (R441). -/
def accelRange (sector : Nat) : AccelRange :=
  let first := sector - accelSectors / 2
  ⟨first, first, min pcSectors (sector + accelSectors / 2)⟩

/-- The sector needed a re-read: its accelerated range starts, and is run after those found before it, unless it waits or runs already
(R441, R627; log entry 101). -/
def startAccel (s : State) (h sector : Nat) : State :=
  let v := scrubOf s h
  let r := accelRange sector
  if v.accel.any fun e => e.first = r.first && e.past = r.past then s
  else irq (setScrub s h { v with accel := v.accel ++ [r] }) (h / 192) 8 4

/-- The sector is not queued for a scrub any more: it has been rewritten (R428, R440). -/
def scrubbed (s : State) (h sector : Nat) : State :=
  let v := scrubOf s h
  setScrub s h { v with queued := v.queued.filter fun x => x ≠ sector }

/-- One scrub read. A sector with corrected severity is rewritten with the same data; one that fails its re-read stays as it is
and counts as a transient and an exhausted budget, unless it holds poison (R429, R440, R443, R845). -/
def scrubSector (s : State) (h i sector : Nat) (o : ReadOutcome) : State :=
  let a := sectorAddr s i sector
  let poisoned := s.poison.contains a || o.inverse
  let again := poisoned || o.first.fails
  let (bad, s) := sectorRead s a o
  let s := if bad && !poisoned then transient s kHbm h sector else s
  let s := if bad then s else scrubbed s h sector
  if again then startAccel s h sector else s

/-- The passes that every usable pseudo-channel of a die has made (R451). -/
def scrubPasses (s : State) (die : Nat) : State :=
  let least := match (usableList s).filter fun h => h / 192 = die with
    | [] => 0
    | h :: t => t.foldl (fun m x => min m (scrubOf s x).passes) (scrubOf s h).passes
  wf s F.hbmScrubStatus_passes die 0 (max (rf s F.hbmScrubStatus_passes die 0) (min 65535 least))

/-- PATROL_SCRUB of pseudo-channel h; `findings` gives the sectors of the read that were not clean. It runs in Active and Idle
(R439, R754). -/
def execPatrolScrub (h : Fin 384) (findings : List ScrubFinding) (s : State) : Host.Outcome State Fault Refusal :=
  match usableIndex s h.val with
  | none => .next s
  | some i =>
    if !s.host.powered || decide (pwrNap ≤ powerState s) then .next s
    else
      let (first, n, v) := scrubBatch (scrubOf s h.val)
      let outcome := fun j => match findings.find? (fun f => f.index.val = j) with | some f => f.outcome | none => .clean
      let s := (List.range n).foldl (fun s j => scrubSector s h.val i (first + j) (outcome j)) (setScrub s h.val v)
      .next (scrubPasses (accelSettle s) (h.val / 192))

end Sys2Proof.Machine
end

