-- ==== Sys2Proof/Machine/Seq.lean ====
section
/-! DEFINITION. The sequencer's commands: STREAM_START, STREAM_COMPLETE, REPLAY_POINT, INTERLOCK_RELEASE, CORE_RESUME,
WATCHDOG_TIMEOUT, REPLAY and REPLAY_RESUME (R247 to R250, R263 to R287, R851 to R853). -/

namespace Sys2Proof.Machine

/-- STREAM_START: the feed scanner has read the bundles whose issue cycles are below 4,096, and the schedule counter reads 0, which
is a replay point (R247, R270, R674, R851). A row of the stream that fails its re-read ends it (R249). -/
def execStreamStart (c : CoreRef) (mf : MemFaults) (late : List (Nat × Nat)) (s : State) : Host.Outcome State Fault Refusal :=
  let k := coreKey c
  match (coreOf s k).runDesc with
  | none => .next s
  | some rk =>
    if seqState s k ≠ seqStartCheck then .next s
    else
      let s := fetchSome k fetchReach 32768 (setCore (wrCore s .seqSchedule k 0) k { (coreOf s k).setClocks 0 with fetchMf := mf })
      if (coreOf s k).runDesc = none then .next s
      else
        let s := placePoint s k false
        let s := setCore s k { coreOf s k with fetchLate := notFetched (coreOf s k) late }
        let s := emit (setSeqState s k seqRunning) c.die.val 0x03 0 Blk.seq.num c.core.val (pb 0 1 (seqSlot s k) + pb 1 4 rk)
        .next (passEmpty 8 s k)

/-- STREAM_COMPLETE: all that the stream started is complete (R250). -/
def execStreamComplete (c : CoreRef) (s : State) : Host.Outcome State Fault Refusal :=
  let k := coreKey c
  if streamDone s k then .next (endStream s k stOk) else .next s

/-- REPLAY_POINT: the point lies before every command of its bundle (R270, R271). -/
def execReplayPoint (c : CoreRef) (s : State) : Host.Outcome State Fault Refusal :=
  let k := coreKey c
  if issues s k && !markPassed s k then
    .next (passEmpty 8 (placePoint (setCore s k { coreOf s k with markDone := true }) k true) k)
  else .next s

/-- INTERLOCK_RELEASE: the awaited work goes on through the cycles of the wait, each of them a slip, and the command may start once
its condition is met (R149, R204, R325, R359, R852). -/
def execInterlockRelease (c : CoreRef) (s : State) : Host.Outcome State Fault Refusal :=
  let k := coreKey c
  let core := coreOf s k
  match core.interlocked with
  | none => .next s
  | some i =>
    if core.freeze ≠ [] || core.detected ≠ [] || core.replaying ≠ none || slipTooLong s k i.wait then .next s
    else
      let s := interlockSteps k i.wait s
      if (coreOf s k).interlocked = some ⟨0⟩ && (coreOf s k).freeze = [] then
        .next (setSeqState (setCore s k { coreOf s k with interlocked := none }) k seqRunning)
      else .next s

/-- A back-invalidation that a core waits for has no response yet (R433). -/
def snoopHeld (s : State) (c : CoreState) : Bool :=
  c.freeze.any fun f => match f with
    | .backInvalidate l => s.heldWrites.any fun w => w.1 = l
    | _ => false

/-- CORE_RESUME: no freeze condition holds any more. A freeze lasts as long as the longest of its conditions; cycles beyond the
known slips are the length of a WAIT or of a back-invalidation, which `freezeCycles` gives (R265 to R267, R433). A command that waits
at an interlock goes on waiting (R852). -/
def execCoreResume (c : CoreRef) (freezeCycles : Nat) (s : State) : Host.Outcome State Fault Refusal :=
  let k := coreKey c
  let core := coreOf s k
  let slip := knownSlip core
  let snoop := core.freeze.any FreezeCond.isSnoop
  let total := if snoop || core.freeze.contains .waitOver then max slip freezeCycles else slip
  let slip := if snoop then total else slip
  if core.freeze = [] || core.replaying ≠ none || core.freeze.contains .waitHeld || snoopHeld s core || slipTooLong s k slip then .next s
  else
    let s := countFrozen s k slip (total - slip)
    let s := setCore s k { coreOf s k with freeze := [] }
    .next (if core.interlocked = none then passEmpty 8 (setSeqState s k seqRunning) k else s)

/-- The stream ends in the first slip cycle beyond limit_us of one continuous freeze (R269). -/
def slipTimeout (s : State) (k limit : Nat) : State := endStream (countFrozen s k (limit + 1 - (coreOf s k).slipRun) 0) k stTimeout

/-- WATCHDOG_TIMEOUT: a slip freeze has lasted longer than limit_us (R269). -/
def execWatchdogTimeout (c : CoreRef) (s : State) : Host.Outcome State Fault Refusal :=
  let k := coreKey c
  let core := coreOf s k
  let wait := match core.interlocked with | some i => i.wait | none => 0
  match slipLimit s k with
  | some l =>
    if core.runDesc ≠ none && core.replaying = none && (slipTooLong s k (max wait (knownSlip core)) || snoopHeld s core) then
      .next (slipTimeout s k l)
    else .next s
  | none => .next s

/-- The failures of a cycle end the stream: the record, and for DATA_LOST the channel exhausted (R281, R733, R734, R853). -/
def replayLost (s : State) (k : Nat) (p : ReplayPt) (f : Nat) (x : Failure) (status : Nat) : State :=
  let (kind, ch, addr) := failureChan s k x
  let s := if status = stDataLost && !x.poisoned then exhaust s kind ch addr else s
  endStream (replayRec s k p f x p.attempts status) k status

/-- A replay starts on a core: counted, with source c of group 7 (R627). -/
def replayStarts (s : State) (k : Nat) : State := irq (bumpCore s F.seqReplayCount_replays k 1) (k / 24) 7 (k % 24)

/-- The failures of one schedule cycle, tested and counted; where no test ends the stream a replay takes place (R281, R286, R853). The
cycle itself is one of those that the replays still re-executing took (R284). -/
def replayFor (s : State) (k : Nat) (p : ReplayPt) (fails : List Failure) (r : ReplayCase) : State :=
  match namedFailure fails with
  | none => s
  | some x =>
    let f := x.cycle
    let s := landArrived s k p r.arrived
    let ends := replayEnds s k p f fails
    let redo := if (coreOf s k).replaying = none then redoRunning s k else 0
    let chan := bumpCore (fails.foldl (countFailure k) s) F.seqReplayCycles_cycles k redo
    match ends with
    | some st => replayLost chan k p f x st
    | none => startReplay (replayStarts (replayRec chan k p f x (p.attempts + 1) 0) k) k p f fails r

/-- REPLAY: the procedure of R281 for the failures of the present schedule cycle: those that commands met, and those that the checks
of arrays, accumulators and engines report; a WAIT that issued in the cycle holds the core only from the next one on (R263). The work of the cycle is made first, but for the results whose checks failed (R136, R226,
R364); the delays of re-reads it met are slips. -/
def execReplay (c : CoreRef) (failures : ReplayCase) (s : State) : Host.Outcome State Fault Refusal :=
  let k := coreKey c
  let core := coreOf s k
  let reported := failures.failures
  match core.runDesc, core.point with
  | some _, some p =>
    if !(reported.all (failureOk s k)) || !(core.freeze.all fun c => c.isSnoop || c = .waitHeld || c = .waitOver) then .next s
    else if core.replaying ≠ none then
      if core.detected = [] || reported ≠ [] then .next s
      else .next (replayFor s k p core.detected failures)
    else if core.interlocked = none && bundleDue s k then .next s
    else
      let s' := cycleWork (reported.map (·.bundle)) s k
      let fails := (coreOf s' k).detected ++ reported
      let p := (coreOf s' k).point.getD p
      if (coreOf s' k).runDesc = none then .next s'
      else if fails = [] then .next s
      else
        let slip := knownSlip (coreOf s' k)
        match slipLimit s' k with
        | some l =>
          if slipTooLong s' k slip then .next (slipTimeout s' k l)
          else .next (replayFor (countFrozen s' k slip 0) k p fails failures)
        | none => .next (replayFor (countFrozen s' k slip 0) k p fails failures)
  | _, _ => .next s

/-- REPLAY_RESUME: the tiles are in place and the stream buffer is refilled; the counter is set to the point's cycle and issue
resumes at its bundle, whose point stays placed (R281, R284, R287, R851). A row of the stream that fails its re-read ends it (R249). -/
def execReplayResume (c : CoreRef) (pauseCycles : PauseEnd) (s : State) : Host.Outcome State Fault Refusal :=
  let k := coreKey c
  let core := coreOf s k
  match core.replaying, core.point with
  | some _, some p =>
    if core.detected ≠ [] || snoopHeld s core then .next s
    else
      let s' := setCore s k { core with
        bundle := p.bundle, prevCycle := p.before, fetchCycle := p.before, crc := p.crc, buffer := [], fetchMf := pauseCycles.mf
        markDone := p.marked, wideDone := false, freeze := [], replaying := none }
      let s' := bumpCore s' F.seqReplayCycles_cycles k (pauseCycles.cycles * p.redo.length)
      let s' := fetchSome k (p.cycle + fetchReach) 32768 (flagCore (wrCore s' .seqSchedule k p.cycle) k flagRecomputed)
      if (coreOf s' k).runDesc = none then .next s'
      else if pauseCycles.cycles < leastPause (coreOf s' k) ((ahead s' k).filter fun b => decide (b.cycle < p.cycle + 4096)).length then
        .next s
      else
        let s' := setCore s' k { coreOf s' k with fetchLate := notFetched (coreOf s' k) pauseCycles.late }
        .next (comeDue (setSeqState s' k seqRunning) k)
  | _, _ => .next s

end Sys2Proof.Machine
end

