-- ==== Sys2Proof/Machine/Sync.lean ====
section
/-! DEFINITION. The synchronisation commands: SIGNAL, SIGNAL_SEND, WAIT, GUARD, SIGNAL_APPLY, WAIT_ARRIVE, WAIT_TIMEOUT and the
SIGNAL descriptor (R276, R282, R453 to R474, R590, R591). -/

namespace Sys2Proof.Machine

/-- SIGNAL (R460, R463): it joins the synchronisation queue and waits there under R275. During re-execution a SIGNAL that had
been sent is passed over (R282). -/
def execSignal (c : CoreRef) (s : State) : Host.Outcome State Fault Refusal :=
  let k := coreKey c
  match nextNarrow s k 1 with
  | none => .next s
  | some w =>
    let core := coreOf s k
    let r := signalOf w (k % 24)
    let bundle := core.bundle
    let skip := match core.point with | some p => decide (0 < p.skipSignals) | none => false
    if r.increment = 0 then .next (narrowIssued s k)
    else if skip then
      let p := core.point.map fun p => { p with skipSignals := p.skipSignals - 1 }
      .next (narrowIssued (setCore s k { core with point := p }) k)
    else
      let q := core.signals ++ [(r, ⟨bundle⟩)]
      .next (narrowIssued (setCore s k { core with signals := q }) k)

/-- Every command that the core issued before a bundle's narrow slot has completed and passed its checks (R275): no pass, load,
drain, spill, vector instruction or update command of it is in progress, no failure of it is open, and no write of the core waits
for the host (R433). -/
def completedBefore (s : State) (k bundle : Nat) : Bool :=
  let c := coreOf s k
  !(c.arrays.any fun e =>
      (e.2.passes.any fun p => decide (p.bundle ≤ bundle)) || (e.2.loads.any fun p => decide (p.bundle ≤ bundle))
        || (e.2.drains.any fun p => decide (p.bundle ≤ bundle)) || (e.2.spills.any fun p => decide (p.bundle ≤ bundle)))
    && !(c.vec.runs.any fun r => decide (r.bundle ≤ bundle))
    && !(c.upd.run.any fun r => decide (r.bundle ≤ bundle))
    && !(c.detected.any fun f => decide (f.bundle ≤ bundle))
    && !(c.freeze.any fun f => match f with | .backInvalidate _ => true | _ => false)

/-- SIGNAL_SEND (R275, R468, R469): the oldest SIGNAL of the queue is sent once every command before it has completed. -/
def execSignalSend (c : CoreRef) (s : State) : Host.Outcome State Fault Refusal :=
  let k := coreKey c
  let core := coreOf s k
  match core.runDesc, core.replaying, core.signals with
  | some _, none, (r, o) :: t =>
    if !completedBefore s k o.bundle then .next s
    else
      let p := core.point.map fun p => if p.bundle ≤ o.bundle then { p with signalsSent := p.signalsSent + 1 } else p
      .next (sendSignal (setCore s k { core with signals := t, point := p }) (k / 24) r)
  | _, _, _ => .next s

/-- WAIT (R461, R465): it goes to its object's unit and holds the core; a target of 0 is satisfied at once. During re-execution
a WAIT that had been released passes at once (R282). -/
def execWait (c : CoreRef) (s : State) : Host.Outcome State Fault Refusal :=
  let k := coreKey c
  match nextNarrow s k 2 with
  | none => .next s
  | some word =>
    let core := coreOf s k
    let w := waitOf word (now s (k / 24)) (.core k)
    let skip := match core.point with | some p => decide (0 < p.skipWaits) | none => false
    if skip then
      let p := core.point.map fun p => { p with skipWaits := p.skipWaits - 1 }
      .next (narrowIssued (setCore s k { core with point := p }) k)
    else if w.target = 0 then
      let s := wakeWaiter (bump s F.synReleaseCount_count (k / 24) 0 1) (.core k)
      .next (narrowIssued s k)
    else .next (freezeCore (narrowIssued (sendWait s (k / 24) w) k) k .waitHeld)

/-- GUARD (R276): a range declared for the window; a length of 0 withdraws the index. A re-executed GUARD keeps its armed
state (R282). -/
def execGuard (c : CoreRef) (s : State) : Host.Outcome State Fault Refusal :=
  let k := coreKey c
  match nextNarrow s k 3 with
  | none => .next s
  | some w =>
    let core := coreOf s k
    let i := bits w 59 56
    let len := bits w 19 0 * 4096
    let base := bits w 55 20 * 4096
    let g := if len = 0 then Map.del core.guards i
      else match Map.find core.guards i with
        | some g => Map.put core.guards i { g with base := base, len := len }
        | none => Map.put core.guards i ⟨base, len, false, false⟩
    .next (narrowIssued (setCore s k { core with guards := g }) k)

/-- SIGNAL_APPLY (R464, R466, R470, R474, R720, R848): the object of the oldest SIGNAL that may be applied applies every SIGNAL that reached
it in that control-clock cycle, then examines its held WAITs; a grant goes to the power controller. `mf` is what the read of a far
object meets; an object waits for a write of its line that the host holds up (R433). -/
def execSignalApply (die : Die) (mf : MemFaults) (s : State) : Host.Outcome State Fault Refusal :=
  let d := die.val
  let u := syncOf s d
  match nextSignal s d with
  | none => .next s
  | some m =>
    let same := fun x : SignalMsg => x.far = m.far && x.index = m.index && x.arrival / 2 = m.arrival / 2 && decide (x.arrival ≤ now s d)
    let batch := u.signals.filter same
    let taken := setSync s d { u with signals := u.signals.filter fun x => !same x }
    if m.far && decide (farCount s ≤ m.index) then .next (batch.foldl (fun s _ => signalLost s d) taken)
    else if isGrant s d m.far m.index then
      .next (batch.foldl (fun s x => grantArrive s x.sent x.arrival x.increment) taken)
    else
      let s := objEffects taken mf m.far m.index
      if !objReads taken mf m.far m.index then .next (batch.foldl (fun s _ => signalLost s d) s)
      else
        let (o, sat) := applySignals (readObj s d m.far m.index) batch
        let s := writeObj s d m.far m.index o
        let s := bump s F.synSignalCount_count d 0 batch.length
        let s := (List.range sat).foldl (fun s _ =>
          let s := bump s F.synSaturateCount_count d 0 1
          irq (countRec s d .synSaturateCount 0 (rd s .synSaturateCount d 0)) d 5 10) s
        .next (examineObj s d m.far m.index o none)

/-- WAIT_ARRIVE (R465, R466, R467, R848): a WAIT joins its object behind those held, once the SIGNALs of its cycle have been
applied, and is tested; with bound 0 it times out when it is not satisfied. -/
def execWaitArrive (die : Die) (mf : MemFaults) (s : State) : Host.Outcome State Fault Refusal :=
  let d := die.val
  let u := syncOf s d
  match nextArriving s d with
  | none => .next s
  | some w =>
    let key := objKey w.far w.index
    let s := setSync s d { u with arriving := u.arriving.erase w }
    let s := setHeld s d key (heldAt s d key ++ [w])
    let reads := objReads s mf w.far w.index
    let s := objEffects s mf w.far w.index
    let s := if reads then examineObj s d w.far w.index (readObj s d w.far w.index) (some w) else s
    if w.bound = 0 && (heldAt s d key).contains w then
      .next (timeoutWait (setHeld s d key ((heldAt s d key).erase w)) d w)
    else .next s

/-- The WAITs of a unit that a bound can end, held ones first: those that arrive with a bound of 0 are decided at their first test
(R467). -/
def boundedWaits (s : State) (die : Nat) : List WaitReq :=
  (syncOf s die).held.flatMap (·.2) ++ (syncOf s die).arriving.filter fun w => w.bound ≠ 0

/-- A WAIT leaves its unit and its object as it is (R467). -/
def withdrawWait (s : State) (die : Nat) (w : WaitReq) : State :=
  let key := objKey w.far w.index
  if (heldAt s die key).contains w then setHeld s die key ((heldAt s die key).erase w)
  else
    let u := syncOf s die
    setSync s die { u with arriving := u.arriving.erase w }

/-- WAIT_TIMEOUT (R267, R467): a WAIT whose bound of 64 µs units has passed is withdrawn; the object stays unchanged. A core
has been frozen for the cycles that the command brings. -/
def execWaitTimeout (die : Die) (position : WaitEnd) (s : State) : Host.Outcome State Fault Refusal :=
  let d := die.val
  match (boundedWaits s d)[position.position]? with
  | none => .next s
  | some w =>
    if w.issued + w.bound * 256_000 ≤ now s d then
      let s := match w.waiter with
        | .core k => let slip := min position.cycles (knownSlip (coreOf s k)); countFrozen s k slip (position.cycles - slip)
        | _ => s
      .next (timeoutWait (withdrawWait s d w) d w)
    else .next s

/-- The SIGNAL descriptor of a management ring (R590, R591): OK once the SIGNAL is sent, or lost. -/
def execSignalDescriptor (die : Die) (s : State) : Host.Outcome State Fault Refusal :=
  let d := die.val
  match takeDesc s d 32 (fun x => x.type = 0x34) with
  | none => .next s
  | some (x, s) =>
    let w := x.at_ 8 8
    if !reservedOk x [(8, 8)] || bits w 63 60 ≠ 0 || !signalOk s w then
      .next (finishWith s d 32 x stInvalid)
    else .next (finishWith (sendSignal s d (signalOf w 24)) d 32 x stOk)

end Sys2Proof.Machine
end

