-- ==== Sys2Proof/Machine/Trust.lean ====
section
/-! DEFINITION. The commands of identity, authorisation and update (chapter 18). -/

namespace Sys2Proof.Machine

/-- DOE_DISCOVERY (R785): the object of an index, and the next index: Discovery itself, then the Nalpin objects 0x01 to 0x05 under
vendor ID 0x1E87 (log entry 32). -/
def execDoeDiscovery (index : Nat) (s : State) : Host.Outcome State Fault Refusal :=
  if !objReaches s .host then .next s
  else
    let s := irq s 0 3 6
    let next := if index < 5 then index + 1 else 0
    let b := if index = 0 then leBytes 2 0x0001 ++ leBytes 1 0 ++ leBytes 1 next
      else if index ≤ 5 then leBytes 2 0x1E87 ++ leBytes 1 index ++ leBytes 1 next
      else leBytes 4 0xFFFF
    .next { s with answers := { s.answers with doe := b } }

/-- IDENTITY_UNIT (R783, R785). -/
def execIdentityUnit (by_ : Master) (s : State) : Host.Outcome State Fault Refusal := .next (doe s by_ 0x01 .unitCert)

/-- IDENTITY_ALIAS (R784, R785). -/
def execIdentityAlias (by_ : Master) (s : State) : Host.Outcome State Fault Refusal := .next (doe s by_ 0x02 .aliasCert)

/-- ATTEST (R785, R786). -/
def execAttest (by_ : Master) (nonce : BitVec 256) (s : State) : Host.Outcome State Fault Refusal :=
  .next (doe s by_ 0x01 (.attest nonce.toNat))

/-- LEDGER_READ (R747, R785). -/
def execLedgerRead (by_ : Master) (index : Nat) (s : State) : Host.Outcome State Fault Refusal :=
  .next (doe s by_ 0x01 (.ledger index))

/-- UPDATE_BEGIN (R787, R795, R803). -/
def execUpdateBegin (by_ : Master) (length : Nat) (digest : BitVec 512) (s : State) : Host.Outcome State Fault Refusal :=
  .next (doe s by_ 0x01 (.begin_ length digest.toNat))

/-- UPDATE_CHUNK (R787, R796, R797). -/
def execUpdateChunk (by_ : Master) (index : Nat) (crc : BitVec 32) (data : Bytes) (s : State) :
    Host.Outcome State Fault Refusal :=
  .next (doe s by_ 0x02 (.chunk index crc.toNat data))

/-- UPDATE_QUERY (R787). -/
def execUpdateQuery (by_ : Master) (index : Nat) (s : State) : Host.Outcome State Fault Refusal :=
  .next (doe s by_ 0x03 (.query index))

/-- UPDATE_ABANDON (R787, R795, R807). -/
def execUpdateAbandon (by_ : Actor) (s : State) : Host.Outcome State Fault Refusal :=
  .next (doe s by_.master 0x04 (.abandon by_.rival))

/-- UPDATE_ACTIVATE (R787, R791, R799 to R802, R807). -/
def execUpdateActivate (by_ : Actor) (when_ : Nat) (supplyLow : Bool) (s : State) : Host.Outcome State Fault Refusal :=
  .next (doe s by_.master 0x05 (.activate when_ supplyLow by_.rival))

/-- UPDATE_END_TRIAL (R787, R803, R805, R807). -/
def execUpdateEndTrial (by_ : Actor) (s : State) : Host.Outcome State Fault Refusal :=
  .next (doe s by_.master 0x06 (.endTrial by_.rival))

/-- IMAGE_VERIFIED (R779, R797, R801): the staged image is checked. -/
def execImageVerified (s : State) : Host.Outcome State Fault Refusal :=
  if upState s ≠ usVerifying then .next s
  else match imageReason s s.tru.staging true with
    | some r => .next (wf (setUp s usRejected) F.truUpdateStatus_reason 0 0 r)
    | none => .next (setUp s (if imgIsBundle s.tru.staging then usReady else usProgramming))

/-- BANK_PROGRAMMED (R797): the staged image stands in the inactive bank. -/
def execBankProgrammed (s : State) : Host.Outcome State Fault Refusal :=
  if upState s ≠ usProgramming then .next s
  else
    let img := some s.tru.staging
    let s := setUp s usReady
    if s.tru.activeBank = 0 then .next { s with tru := { s.tru with bank1 := img } }
    else .next { s with tru := { s.tru with bank0 := img } }

/-- ACTIVATION_START (R760, R762, R802): an armed activation starts once no job runs. -/
def execActivationStart (s : State) : Host.Outcome State Fault Refusal :=
  if upState s = usArmed && !jobRuns s && s.host.restart.isNone then .next (startActivation s) else .next s

/-- The most bits of the fused security version (R776). -/
def svnBits : Nat := 128

/-- Fuses blown until the fused security version is that of an image, as far as the counter goes (R776, R804). -/
def blowFuses (s : State) (svn : Nat) : State :=
  let v := min svnBits svn
  if rf s F.truFuse_svn 0 0 < v then wf s F.truFuse_svn 0 0 v else s

/-- The trial image confirms its health (R22, R804). -/
def confirmTrial (s : State) : State :=
  let i := s.tru.running
  let s := { s with tru := { s.tru with activeBank := s.tru.trialBank, trialSet := false, trialBoots := 0 } }
  let s := blowFuses (wf (truSettle s) F.truTrial_secondsLeft 0 0 0) i.svn
  let s := if rf s F.truSettings_storedFormat 0 0 < i.fmt then
      let s := wf (factoryDefaults s) F.truSettings_storedFormat 0 0 i.fmt
      let s := wf (wf s F.truUpdateStatus_reason 0 0 0) F.truUpdateStatus_master 0 0 0
      let s := countRec s 0 .truSettings 0 (rd s .truSettings 0 0)
      { s with tru := { s.tru with saved := none } }
    else s
  endSession (wf (setUp s usIdle) F.truUpdateStatus_outcome 0 0 1)

/-- TRIAL_CONFIRM (R607, R804, R807): the trial image confirms its health; a field diagnostic cannot. Firmware loses to an END_TRIAL of the
same Dome cycle, before it or behind it. -/
def execTrialConfirm (s : State) : Host.Outcome State Fault Refusal :=
  if !inTrial s || s.tru.running.diag then .next s
  else match waitingEndTrial s with
    | some m => .next (overruled (noteAct s 3 0 .firmware) .firmware m)
    | none => .next (confirmTrial s)

/-- TRIAL_FALLBACK (R802, R805): the window of 600 s has passed without a confirmation. -/
def execTrialFallback (s : State) : Host.Outcome State Fault Refusal :=
  if inTrial s && decide (s.tru.trialFrom + 600 * 4_000_000_000 ≤ now s 0) then .next (fallBackNow s) else .next s

/-- SET_OWNER_LOCK (R792, R793). -/
def execSetOwnerLock (by_ : Master) (s : State) : Host.Outcome State Fault Refusal := .next (doe s by_ 0x01 .setLock)

/-- CLEAR_OWNER_LOCK (R793). -/
def execClearOwnerLock (by_ : Master) (s : State) : Host.Outcome State Fault Refusal := .next (doe s by_ 0x02 .clearLock)

/-- ENROLL_OWNER_KEY (R793). -/
def execEnrollOwnerKey (by_ : Master) (key : Bytes) (s : State) : Host.Outcome State Fault Refusal :=
  .next (doe s by_ 0x03 (.enroll key))

/-- DEBUG_UNLOCK (R793). -/
def execDebugUnlock (by_ : Master) (s : State) : Host.Outcome State Fault Refusal := .next (doe s by_ 0x04 .unlock)

/-- REBIND_IDENTITY (R793; log entry 13). -/
def execRebindIdentity (by_ : Master) (s : State) : Host.Outcome State Fault Refusal := .next (doe s by_ 0x05 .rebind)

/-- FACTORY_RESET (R447, R752, R793, R794). -/
def execFactoryReset (by_ : Master) (s : State) : Host.Outcome State Fault Refusal := .next (doe s by_ 0x06 .factory)

end Sys2Proof.Machine
end

