-- ==== Sys2Proof/Machine/Update.lean ====
section
/-! DEFINITION. The commands of the parameter update engine and the Almanac's requests: UPDATE, UROOT and ALMANAC_REQUEST (R335,
R343 to R371). -/

namespace Sys2Proof.Machine

/-- The first cycle from the present one, in the clocks of the two engines, in which a command may start (R359). -/
def updWait (c : CoreState) (isRoot : Bool) : Nat :=
  max (c.upd.done - c.upd.clock).toNat (if isRoot then (c.vec.done - c.vec.clock).toNat else 0)

/-- The engines with a command that starts now; a UROOT counts as a vector instruction (R360, R361). -/
def updBusy (c : CoreState) (r : UpdRun) (isRoot : Bool) (time : Nat) : CoreState :=
  let v := if isRoot then { c.vec with start := c.vec.clock, busy := time, done := c.vec.clock + time } else c.vec
  { c with vec := v, upd := { c.upd with done := c.upd.clock + time, run := some r, ahead := Map.del c.upd.ahead r.bundle } }

/-- An update command of an opcode, if one is due: without effect for a count of 0 (R354), held at the interlock (R359); otherwise
it starts with the bytes its reads brought, and reads them now if they were not issued ahead (R361). -/
def runUpdate (s : State) (k opcode : Nat) (er : EngineRun) : State :=
  match nextWide s k engUpd with
  | none => s
  | some w =>
    let u := Upd.of w
    let core := coreOf s k
    let l := layerOf s k u.layer
    let wait := updWait core u.isRoot
    if opcodeOf w ≠ opcode then s
    else if u.count = 0 then wideIssued s k
    else if 0 < wait then interlockFor s k wait
    else
      let (got, s) := match Map.find core.upd.ahead core.bundle with
        | some m => (m, s)
        | none => updFetch s k core.bundle w
      let t := (Header.of (mapBytes got l.hdrBase 64)).next
      let run : UpdRun := ⟨core.bundle, w, core.upd.clock, got, updEta s u t, false, er⟩
      wideIssued (setCore s k (updBusy (coreOf s k) run u.isRoot (updTime u l))) k

/-- UPDATE: a layer's rule applied to a range of its elements or tiles (R343 to R347, R352 to R358). -/
def execUpdate (c : CoreRef) (er : EngineRun) (s : State) : Host.Outcome State Fault Refusal :=
  .next (runUpdate s (coreKey c) 1 er)

/-- UROOT: the statistics and roots of a range of tiles refreshed (R348 to R351, R353). -/
def execUroot (c : CoreRef) (er : EngineRun) (s : State) : Host.Outcome State Fault Refusal :=
  .next (runUpdate s (coreKey c) 2 er)

/-- ALMANAC_REQUEST: the value of an enabled slot for a step (R368 to R371). -/
def execAlmanacRequest (_die : Die) (slot : Fin 16) (step : BitVec 64) (s : State) : Host.Outcome State Fault Refusal :=
  if step = 0 || !almEnabled s slot.val then .next s
  else .next { s with answers := { s.answers with almanac := code32 (almanac s slot.val step.toNat) } }

end Sys2Proof.Machine
end

