-- ==== Sys2Proof/Machine/Vector.lean ====
section
/-! DEFINITION. The vector instructions (R298 to R334). -/

namespace Sys2Proof.Machine

/-- The registers an instruction reads, as they stand at its start (R307, R308, R310, R318). -/
def vecRegsNow (s : State) (k w : Nat) : Map (BitVec 64) :=
  (vecRegsOf w).reads.map fun r =>
    let reg := if r = 8 then Reg.vecSrStep else scalarReg r
    (regKey reg (k / 24) (k % 24), BitVec.ofNat 64 (rdCore s reg k))

/-- A vector instruction of a class and op, if one is due: without effect for a count of 0, also while the engine is busy (R303; log
entry 139); held at the interlock until its
start rule is met (R325); otherwise it starts, and its groups are read and written in the cycles that follow (R324). -/
def runVector (s : State) (k cls op : Nat) (er : EngineRun) : State :=
  match nextWide s k engVec with
  | none => s
  | some w =>
    let v := Vec.of w
    if v.cls ≠ cls || v.op ≠ op then s
    else match vecRanges w with
    | none => s
    | some r =>
      let core := coreOf s k
      let start := vecStart core w r core.vec.clock
      if vecIdle w then wideIssued s k
      else if core.vec.clock < start then interlockFor s k (start - core.vec.clock).toNat
      else
        let run : VecRun := ⟨core.bundle, w, core.vec.clock, vecRegsNow s k w, [], none, 0, false, er⟩
        wideIssued (setCore s k { core with vec := vecAfter core.vec w r run }) k

/-- ADD: a + b (R304). -/
def execAdd (c : CoreRef) (er : EngineRun) (s : State) : Host.Outcome State Fault Refusal :=
  .next (runVector s (coreKey c) clsElem 1 er)

/-- SUB: a − b (R304). -/
def execSub (c : CoreRef) (er : EngineRun) (s : State) : Host.Outcome State Fault Refusal :=
  .next (runVector s (coreKey c) clsElem 2 er)

/-- MUL: a × b (R304). -/
def execMul (c : CoreRef) (er : EngineRun) (s : State) : Host.Outcome State Fault Refusal :=
  .next (runVector s (coreKey c) clsElem 3 er)

/-- FMA: a × b + d with one rounding (R304). -/
def execFma (c : CoreRef) (er : EngineRun) (s : State) : Host.Outcome State Fault Refusal :=
  .next (runVector s (coreKey c) clsElem 4 er)

/-- DIV: a / b (R304). -/
def execDiv (c : CoreRef) (er : EngineRun) (s : State) : Host.Outcome State Fault Refusal :=
  .next (runVector s (coreKey c) clsElem 5 er)

/-- SQRT: the square root of a (R304). -/
def execSqrt (c : CoreRef) (er : EngineRun) (s : State) : Host.Outcome State Fault Refusal :=
  .next (runVector s (coreKey c) clsElem 6 er)

/-- MIN: IEEE 754-2019 minimum (R304). -/
def execMin (c : CoreRef) (er : EngineRun) (s : State) : Host.Outcome State Fault Refusal :=
  .next (runVector s (coreKey c) clsElem 7 er)

/-- MAX: IEEE 754-2019 maximum (R304). -/
def execMax (c : CoreRef) (er : EngineRun) (s : State) : Host.Outcome State Fault Refusal :=
  .next (runVector s (coreKey c) clsElem 8 er)

/-- ABS: a with its sign cleared (R304). -/
def execAbs (c : CoreRef) (er : EngineRun) (s : State) : Host.Outcome State Fault Refusal :=
  .next (runVector s (coreKey c) clsElem 9 er)

/-- NEG: a with its sign inverted (R304). -/
def execNeg (c : CoreRef) (er : EngineRun) (s : State) : Host.Outcome State Fault Refusal :=
  .next (runVector s (coreKey c) clsElem 10 er)

/-- COPY: a (R304). -/
def execElemCopy (c : CoreRef) (er : EngineRun) (s : State) : Host.Outcome State Fault Refusal :=
  .next (runVector s (coreKey c) clsElem 11 er)

/-- CMPLT: 1.0 where a < b (R304). -/
def execCmplt (c : CoreRef) (er : EngineRun) (s : State) : Host.Outcome State Fault Refusal :=
  .next (runVector s (coreKey c) clsElem 12 er)

/-- CMPEQ: 1.0 where a = b (R304). -/
def execCmpeq (c : CoreRef) (er : EngineRun) (s : State) : Host.Outcome State Fault Refusal :=
  .next (runVector s (coreKey c) clsElem 13 er)

/-- CVT: conversion between formats (R94 to R105, R311). -/
def execCvt (c : CoreRef) (er : EngineRun) (s : State) : Host.Outcome State Fault Refusal :=
  .next (runVector s (coreKey c) clsCvt 0 er)

/-- SFU EXP2 (R312, R313). -/
def execExp2 (c : CoreRef) (er : EngineRun) (s : State) : Host.Outcome State Fault Refusal :=
  .next (runVector s (coreKey c) clsSfu 1 er)

/-- SFU EXP (R312, R313). -/
def execExp (c : CoreRef) (er : EngineRun) (s : State) : Host.Outcome State Fault Refusal :=
  .next (runVector s (coreKey c) clsSfu 2 er)

/-- SFU LOG2 (R312, R313). -/
def execLog2 (c : CoreRef) (er : EngineRun) (s : State) : Host.Outcome State Fault Refusal :=
  .next (runVector s (coreKey c) clsSfu 3 er)

/-- SFU LOG (R312, R313). -/
def execLog (c : CoreRef) (er : EngineRun) (s : State) : Host.Outcome State Fault Refusal :=
  .next (runVector s (coreKey c) clsSfu 4 er)

/-- SFU RCP (R312, R313). -/
def execRcp (c : CoreRef) (er : EngineRun) (s : State) : Host.Outcome State Fault Refusal :=
  .next (runVector s (coreKey c) clsSfu 5 er)

/-- SFU RSQRT (R312, R313). -/
def execRsqrt (c : CoreRef) (er : EngineRun) (s : State) : Host.Outcome State Fault Refusal :=
  .next (runVector s (coreKey c) clsSfu 6 er)

/-- SFU TANH (R312, R313). -/
def execTanh (c : CoreRef) (er : EngineRun) (s : State) : Host.Outcome State Fault Refusal :=
  .next (runVector s (coreKey c) clsSfu 7 er)

/-- SFU SIGMOID (R312, R313). -/
def execSigmoid (c : CoreRef) (er : EngineRun) (s : State) : Host.Outcome State Fault Refusal :=
  .next (runVector s (coreKey c) clsSfu 8 er)

/-- SFU SIN (R312, R313). -/
def execSin (c : CoreRef) (er : EngineRun) (s : State) : Host.Outcome State Fault Refusal :=
  .next (runVector s (coreKey c) clsSfu 9 er)

/-- SFU COS (R312, R313). -/
def execCos (c : CoreRef) (er : EngineRun) (s : State) : Host.Outcome State Fault Refusal :=
  .next (runVector s (coreKey c) clsSfu 10 er)

/-- SFU ERF (R312, R313). -/
def execErf (c : CoreRef) (er : EngineRun) (s : State) : Host.Outcome State Fault Refusal :=
  .next (runVector s (coreKey c) clsSfu 11 er)

/-- RMAX: the maximum of each row (R315). -/
def execRmax (c : CoreRef) (er : EngineRun) (s : State) : Host.Outcome State Fault Refusal :=
  .next (runVector s (coreKey c) clsRow 1 er)

/-- RMIN: the minimum of each row (R315). -/
def execRmin (c : CoreRef) (er : EngineRun) (s : State) : Host.Outcome State Fault Refusal :=
  .next (runVector s (coreKey c) clsRow 2 er)

/-- RSUM: the sum of each row (R315, R317). -/
def execRsum (c : CoreRef) (er : EngineRun) (s : State) : Host.Outcome State Fault Refusal :=
  .next (runVector s (coreKey c) clsRow 3 er)

/-- RSUMSQ: the sum of squares of each row (R315, R317). -/
def execRsumsq (c : CoreRef) (er : EngineRun) (s : State) : Host.Outcome State Fault Refusal :=
  .next (runVector s (coreKey c) clsRow 4 er)

/-- RSCALE: each row times its b (R315). -/
def execRscale (c : CoreRef) (er : EngineRun) (s : State) : Host.Outcome State Fault Refusal :=
  .next (runVector s (coreKey c) clsRow 5 er)

/-- RSUB: each row minus its b (R315). -/
def execRsub (c : CoreRef) (er : EngineRun) (s : State) : Host.Outcome State Fault Refusal :=
  .next (runVector s (coreKey c) clsRow 6 er)

/-- CADD: each column plus its b (R315). -/
def execCadd (c : CoreRef) (er : EngineRun) (s : State) : Host.Outcome State Fault Refusal :=
  .next (runVector s (coreKey c) clsRow 7 er)

/-- CMUL: each column times its b (R315). -/
def execCmul (c : CoreRef) (er : EngineRun) (s : State) : Host.Outcome State Fault Refusal :=
  .next (runVector s (coreKey c) clsRow 8 er)

/-- SETR: a register set to the immediate (R310). -/
def execSetr (c : CoreRef) (er : EngineRun) (s : State) : Host.Outcome State Fault Refusal :=
  .next (runVector s (coreKey c) clsMovr 1 er)

/-- LOADR: a scalar register loaded from core memory (R310). -/
def execLoadr (c : CoreRef) (er : EngineRun) (s : State) : Host.Outcome State Fault Refusal :=
  .next (runVector s (coreKey c) clsMovr 2 er)

/-- STORER: a scalar register stored to core memory (R310). -/
def execStorer (c : CoreRef) (er : EngineRun) (s : State) : Host.Outcome State Fault Refusal :=
  .next (runVector s (coreKey c) clsMovr 3 er)

/-- INCR: the immediate added to a register's low half (R310). -/
def execIncr (c : CoreRef) (er : EngineRun) (s : State) : Host.Outcome State Fault Refusal :=
  .next (runVector s (coreKey c) clsMovr 4 er)

/-- IROOT with p = 2: the inverse square root of a matrix (R318 to R321). -/
def execIrootSqrt (c : CoreRef) (er : EngineRun) (s : State) : Host.Outcome State Fault Refusal :=
  .next (runVector s (coreKey c) clsIroot 2 er)

/-- IROOT with p = 4: the inverse fourth root of a matrix (R318 to R321). -/
def execIrootFourth (c : CoreRef) (er : EngineRun) (s : State) : Host.Outcome State Fault Refusal :=
  .next (runVector s (coreKey c) clsIroot 4 er)

end Sys2Proof.Machine
end

