-- ==== Sys2Proof/Machine/Dispatch.lean ====
section
/-! DEFINITION. The meaning of each command: one arm per constructor, one direct call of its meaning. -/

namespace Sys2Proof.Machine

def exec (i : Instr) (s : State) : Host.Outcome State Fault Refusal :=
  match i with
  | .por pins train => Sys2Proof.Machine.execPor pins train s
  | .perstAssert train => Sys2Proof.Machine.execPerstAssert train s
  | .perstDeassert loc => Sys2Proof.Machine.execPerstDeassert loc s
  | .linkReset => Sys2Proof.Machine.execLinkReset s
  | .linkUp rate width flit256 => Sys2Proof.Machine.execLinkUp rate width flit256 s
  | .cxlReset => Sys2Proof.Machine.execCxlReset s
  | .d3hotEntry => Sys2Proof.Machine.execD3hotEntry s
  | .cxlMemRead addr first second => Sys2Proof.Machine.execCxlMemRead addr first second s
  | .cxlMemWrite addr data => Sys2Proof.Machine.execCxlMemWrite addr data s
  | .registerWrite by_ offset size value => Sys2Proof.Machine.execRegisterWrite by_ offset size value s
  | .unassignedAccess by_ bar2 isWrite offset size value => Sys2Proof.Machine.execUnassignedAccess by_ bar2 isWrite offset size value s
  | .doorbell die ring value => Sys2Proof.Machine.execDoorbell die ring value s
  | .consumerDoorbell die eph value => Sys2Proof.Machine.execConsumerDoorbell die eph value s
  | .ringEnable die ring size => Sys2Proof.Machine.execRingEnable die ring size s
  | .ringDisable die ring => Sys2Proof.Machine.execRingDisable die ring s
  | .descriptorFetch die ring data => Sys2Proof.Machine.execDescriptorFetch die ring data s
  | .completionWrite die ring ok => Sys2Proof.Machine.execCompletionWrite die ring ok s
  | .install c mf => Sys2Proof.Machine.execInstall c mf s
  | .run c => Sys2Proof.Machine.execRun c s
  | .layers c mf => Sys2Proof.Machine.execLayers c mf s
  | .transfer die ring hostData mf => Sys2Proof.Machine.execTransfer die ring hostData mf s
  | .fill die ring mf => Sys2Proof.Machine.execFill die ring mf s
  | .copy die ring mf => Sys2Proof.Machine.execCopy die ring mf s
  | .reduceScatter die ring mf => Sys2Proof.Machine.execReduceScatter die ring mf s
  | .allGather die ring mf => Sys2Proof.Machine.execAllGather die ring mf s
  | .allReduce die ring mf => Sys2Proof.Machine.execAllReduce die ring mf s
  | .multicast die ring => Sys2Proof.Machine.execMulticast die ring s
  | .collectiveRunStart die ring failedAdds mf => Sys2Proof.Machine.execCollectiveRunStart die ring failedAdds mf s
  | .collectiveRunEnd die ring => Sys2Proof.Machine.execCollectiveRunEnd die ring s
  | .collectiveTimeout die ring => Sys2Proof.Machine.execCollectiveTimeout die ring s
  | .jobBegin train reportOk => Sys2Proof.Machine.execJobBegin train reportOk s
  | .jobEnd => Sys2Proof.Machine.execJobEnd s
  | .jobKill => Sys2Proof.Machine.execJobKill s
  | .residency => Sys2Proof.Machine.execResidency s
  | .signalDescriptor die => Sys2Proof.Machine.execSignalDescriptor die s
  | .routeWrite die mf => Sys2Proof.Machine.execRouteWrite die mf s
  | .restart => Sys2Proof.Machine.execRestart s
  | .setCap => Sys2Proof.Machine.execSetCap s
  | .clearCap => Sys2Proof.Machine.execClearCap s
  | .setCeiling => Sys2Proof.Machine.execSetCeiling s
  | .clearCeiling => Sys2Proof.Machine.execClearCeiling s
  | .nap => Sys2Proof.Machine.execNap s
  | .dark => Sys2Proof.Machine.execDark s
  | .lowPowerEntry => Sys2Proof.Machine.execLowPowerEntry s
  | .wake train => Sys2Proof.Machine.execWake train s
  | .darkWake train => Sys2Proof.Machine.execDarkWake train s
  | .epochCommit by_ die value => Sys2Proof.Machine.execEpochCommit by_ die value s
  | .epochSet by_ die value => Sys2Proof.Machine.execEpochSet by_ die value s
  | .sidSet by_ die value => Sys2Proof.Machine.execSidSet by_ die value s
  | .icuPendWrite by_ die group value sameCycle => Sys2Proof.Machine.execIcuPendWrite by_ die group value sameCycle s
  | .icuMaskWrite by_ die group value => Sys2Proof.Machine.execIcuMaskWrite by_ die group value s
  | .icuTargetWrite by_ die source value => Sys2Proof.Machine.execIcuTargetWrite by_ die source value s
  | .holdoffExpiry die group => Sys2Proof.Machine.execHoldoffExpiry die group s
  | .attentionPulse => Sys2Proof.Machine.execAttentionPulse s
  | .attentionRepeat => Sys2Proof.Machine.execAttentionRepeat s
  | .companionStart by_ die slot => Sys2Proof.Machine.execCompanionStart by_ die slot s
  | .companionStop by_ die slot => Sys2Proof.Machine.execCompanionStop by_ die slot s
  | .companionFault die slot cause addr => Sys2Proof.Machine.execCompanionFault die slot cause addr s
  | .companionSignal die slot a1 => Sys2Proof.Machine.execCompanionSignal die slot a1 s
  | .companionWait die slot a1 => Sys2Proof.Machine.execCompanionWait die slot a1 s
  | .companionExit die slot a1 => Sys2Proof.Machine.execCompanionExit die slot a1 s
  | .companionStamp die slot => Sys2Proof.Machine.execCompanionStamp die slot s
  | .companionLog die slot a1 a2 => Sys2Proof.Machine.execCompanionLog die slot a1 a2 s
  | .streamStart c mf late => Sys2Proof.Machine.execStreamStart c mf late s
  | .streamComplete c => Sys2Proof.Machine.execStreamComplete c s
  | .replayPoint c => Sys2Proof.Machine.execReplayPoint c s
  | .feed c late mf => Sys2Proof.Machine.execFeed c late mf s
  | .feedReadIssue c bundle mf => Sys2Proof.Machine.execFeedReadIssue c bundle mf s
  | .mload c load lines => Sys2Proof.Machine.execMload c load lines s
  | .mpassMac c lines => Sys2Proof.Machine.execMpassMac c lines s
  | .mpassL1 c lines => Sys2Proof.Machine.execMpassL1 c lines s
  | .mpassL2sq c lines => Sys2Proof.Machine.execMpassL2sq c lines s
  | .mpassMinplus c lines => Sys2Proof.Machine.execMpassMinplus c lines s
  | .mpassMaxplus c lines => Sys2Proof.Machine.execMpassMaxplus c lines s
  | .mpassMaxmin c lines => Sys2Proof.Machine.execMpassMaxmin c lines s
  | .mpassMatch c lines => Sys2Proof.Machine.execMpassMatch c lines s
  | .plate c => Sys2Proof.Machine.execPlate c s
  | .drain c er => Sys2Proof.Machine.execDrain c er s
  | .spill c array er => Sys2Proof.Machine.execSpill c array er s
  | .interlockRelease c => Sys2Proof.Machine.execInterlockRelease c s
  | .coreResume c freezeCycles => Sys2Proof.Machine.execCoreResume c freezeCycles s
  | .watchdogTimeout c => Sys2Proof.Machine.execWatchdogTimeout c s
  | .replay c failures => Sys2Proof.Machine.execReplay c failures s
  | .replayResume c pauseCycles => Sys2Proof.Machine.execReplayResume c pauseCycles s
  | .signal c => Sys2Proof.Machine.execSignal c s
  | .signalSend c => Sys2Proof.Machine.execSignalSend c s
  | .wait c => Sys2Proof.Machine.execWait c s
  | .guard c => Sys2Proof.Machine.execGuard c s
  | .signalApply die mf => Sys2Proof.Machine.execSignalApply die mf s
  | .waitArrive die mf => Sys2Proof.Machine.execWaitArrive die mf s
  | .waitTimeout die position => Sys2Proof.Machine.execWaitTimeout die position s
  | .add c er => Sys2Proof.Machine.execAdd c er s
  | .sub c er => Sys2Proof.Machine.execSub c er s
  | .mul c er => Sys2Proof.Machine.execMul c er s
  | .fma c er => Sys2Proof.Machine.execFma c er s
  | .div c er => Sys2Proof.Machine.execDiv c er s
  | .sqrt c er => Sys2Proof.Machine.execSqrt c er s
  | .min c er => Sys2Proof.Machine.execMin c er s
  | .max c er => Sys2Proof.Machine.execMax c er s
  | .abs c er => Sys2Proof.Machine.execAbs c er s
  | .neg c er => Sys2Proof.Machine.execNeg c er s
  | .elemCopy c er => Sys2Proof.Machine.execElemCopy c er s
  | .cmplt c er => Sys2Proof.Machine.execCmplt c er s
  | .cmpeq c er => Sys2Proof.Machine.execCmpeq c er s
  | .cvt c er => Sys2Proof.Machine.execCvt c er s
  | .exp2 c er => Sys2Proof.Machine.execExp2 c er s
  | .exp c er => Sys2Proof.Machine.execExp c er s
  | .log2 c er => Sys2Proof.Machine.execLog2 c er s
  | .log c er => Sys2Proof.Machine.execLog c er s
  | .rcp c er => Sys2Proof.Machine.execRcp c er s
  | .rsqrt c er => Sys2Proof.Machine.execRsqrt c er s
  | .tanh c er => Sys2Proof.Machine.execTanh c er s
  | .sigmoid c er => Sys2Proof.Machine.execSigmoid c er s
  | .sin c er => Sys2Proof.Machine.execSin c er s
  | .cos c er => Sys2Proof.Machine.execCos c er s
  | .erf c er => Sys2Proof.Machine.execErf c er s
  | .rmax c er => Sys2Proof.Machine.execRmax c er s
  | .rmin c er => Sys2Proof.Machine.execRmin c er s
  | .rsum c er => Sys2Proof.Machine.execRsum c er s
  | .rsumsq c er => Sys2Proof.Machine.execRsumsq c er s
  | .rscale c er => Sys2Proof.Machine.execRscale c er s
  | .rsub c er => Sys2Proof.Machine.execRsub c er s
  | .cadd c er => Sys2Proof.Machine.execCadd c er s
  | .cmul c er => Sys2Proof.Machine.execCmul c er s
  | .setr c er => Sys2Proof.Machine.execSetr c er s
  | .loadr c er => Sys2Proof.Machine.execLoadr c er s
  | .storer c er => Sys2Proof.Machine.execStorer c er s
  | .incr c er => Sys2Proof.Machine.execIncr c er s
  | .irootSqrt c er => Sys2Proof.Machine.execIrootSqrt c er s
  | .irootFourth c er => Sys2Proof.Machine.execIrootFourth c er s
  | .update c er => Sys2Proof.Machine.execUpdate c er s
  | .uroot c er => Sys2Proof.Machine.execUroot c er s
  | .almanacRequest die slot step => Sys2Proof.Machine.execAlmanacRequest die slot step s
  | .patrolScrub h findings => Sys2Proof.Machine.execPatrolScrub h findings s
  | .flitReceive die port flit => Sys2Proof.Machine.execFlitReceive die port flit s
  | .creditFlit die port credits => Sys2Proof.Machine.execCreditFlit die port credits s
  | .linkControlFlit die port stratum => Sys2Proof.Machine.execLinkControlFlit die port stratum s
  | .ledgerDurable => Sys2Proof.Machine.execLedgerDurable s
  | .packetInject die flow dst vc => Sys2Proof.Machine.execPacketInject die flow dst vc s
  | .dataPacketReceive die port pkt failedAdds mf => Sys2Proof.Machine.execDataPacketReceive die port pkt failedAdds mf s
  | .mcastReceive die port pkt run => Sys2Proof.Machine.execMcastReceive die port pkt run s
  | .signalPacketReceive die port pkt => Sys2Proof.Machine.execSignalPacketReceive die port pkt s
  | .abortReceive die port pkt => Sys2Proof.Machine.execAbortReceive die port pkt s
  | .ackReceive die port pkt vc => Sys2Proof.Machine.execAckReceive die port pkt vc s
  | .mcastAckReceive die port pkt => Sys2Proof.Machine.execMcastAckReceive die port pkt s
  | .refuseReceive die port pkt => Sys2Proof.Machine.execRefuseReceive die port pkt s
  | .fencedReceive die port pkt vc => Sys2Proof.Machine.execFencedReceive die port pkt vc s
  | .ackTimer die src vc flow => Sys2Proof.Machine.execAckTimer die src vc flow s
  | .retransmitTimeout die flow dst vc => Sys2Proof.Machine.execRetransmitTimeout die flow dst vc s
  | .throttleRecover die port vc => Sys2Proof.Machine.execThrottleRecover die port vc s
  | .fabricFlush => Sys2Proof.Machine.execFabricFlush s
  | .laneLockLoss die port lane => Sys2Proof.Machine.execLaneLockLoss die port lane s
  | .portFail die port cause => Sys2Proof.Machine.execPortFail die port cause s
  | .retrainComplete die port good => Sys2Proof.Machine.execRetrainComplete die port good s
  | .detourReinject die port => Sys2Proof.Machine.execDetourReinject die port s
  | .laneRecalibrate die port lane idleSeen worse => Sys2Proof.Machine.execLaneRecalibrate die port lane idleSeen worse s
  | .bridgeFlitReceive group crcOk => Sys2Proof.Machine.execBridgeFlitReceive group crcOk s
  | .bridgeRecalibrate group => Sys2Proof.Machine.execBridgeRecalibrate group s
  | .siderealExchange => Sys2Proof.Machine.execSiderealExchange s
  | .exchangeAnswer t2 t3 stratum => Sys2Proof.Machine.execExchangeAnswer t2 t3 stratum s
  | .syncLossTimeout => Sys2Proof.Machine.execSyncLossTimeout s
  | .bridgeTimeMeasure => Sys2Proof.Machine.execBridgeTimeMeasure s
  | .timeoutPulse => Sys2Proof.Machine.execTimeoutPulse s
  | .timeinEdge => Sys2Proof.Machine.execTimeinEdge s
  | .timeinMissing => Sys2Proof.Machine.execTimeinMissing s
  | .telemetry => Sys2Proof.Machine.execTelemetry s
  | .ephemerisFlush die ok => Sys2Proof.Machine.execEphemerisFlush die ok s
  | .eventFlush die ok => Sys2Proof.Machine.execEventFlush die ok s
  | .controlStep energyMj => Sys2Proof.Machine.execControlStep energyMj s
  | .dvfsStep die => Sys2Proof.Machine.execDvfsStep die s
  | .droopDetect die => Sys2Proof.Machine.execDroopDetect die s
  | .droopClear die => Sys2Proof.Machine.execDroopClear die s
  | .overpowerStretch on => Sys2Proof.Machine.execOverpowerStretch on s
  | .heliostatEpoch => Sys2Proof.Machine.execHeliostatEpoch s
  | .grantSend => Sys2Proof.Machine.execGrantSend s
  | .thermalCeilingStep hottest => Sys2Proof.Machine.execThermalCeilingStep hottest s
  | .thermalAlert hottest => Sys2Proof.Machine.execThermalAlert hottest s
  | .thermalCritical hottest => Sys2Proof.Machine.execThermalCritical hottest s
  | .powerBrake => Sys2Proof.Machine.execPowerBrake s
  | .brakeRelease => Sys2Proof.Machine.execBrakeRelease s
  | .supplyBrake => Sys2Proof.Machine.execSupplyBrake s
  | .supplyRecover => Sys2Proof.Machine.execSupplyRecover s
  | .supplyLoss => Sys2Proof.Machine.execSupplyLoss s
  | .supplyRestart pins train => Sys2Proof.Machine.execSupplyRestart pins train s
  | .inputFilterAccept input level => Sys2Proof.Machine.execInputFilterAccept input level s
  | .presenceExpiry => Sys2Proof.Machine.execPresenceExpiry s
  | .doeDiscovery index => Sys2Proof.Machine.execDoeDiscovery index s
  | .identityUnit by_ => Sys2Proof.Machine.execIdentityUnit by_ s
  | .identityAlias by_ => Sys2Proof.Machine.execIdentityAlias by_ s
  | .attest by_ nonce => Sys2Proof.Machine.execAttest by_ nonce s
  | .ledgerRead by_ index => Sys2Proof.Machine.execLedgerRead by_ index s
  | .updateBegin by_ length digest => Sys2Proof.Machine.execUpdateBegin by_ length digest s
  | .updateChunk by_ index crc data => Sys2Proof.Machine.execUpdateChunk by_ index crc data s
  | .updateQuery by_ index => Sys2Proof.Machine.execUpdateQuery by_ index s
  | .updateAbandon by_ => Sys2Proof.Machine.execUpdateAbandon by_ s
  | .updateActivate by_ when_ supplyLow => Sys2Proof.Machine.execUpdateActivate by_ when_ supplyLow s
  | .updateEndTrial by_ => Sys2Proof.Machine.execUpdateEndTrial by_ s
  | .imageVerified => Sys2Proof.Machine.execImageVerified s
  | .bankProgrammed => Sys2Proof.Machine.execBankProgrammed s
  | .activationStart => Sys2Proof.Machine.execActivationStart s
  | .trialConfirm => Sys2Proof.Machine.execTrialConfirm s
  | .trialFallback => Sys2Proof.Machine.execTrialFallback s
  | .setOwnerLock by_ => Sys2Proof.Machine.execSetOwnerLock by_ s
  | .clearOwnerLock by_ => Sys2Proof.Machine.execClearOwnerLock by_ s
  | .enrollOwnerKey by_ key => Sys2Proof.Machine.execEnrollOwnerKey by_ key s
  | .debugUnlock by_ => Sys2Proof.Machine.execDebugUnlock by_ s
  | .rebindIdentity by_ => Sys2Proof.Machine.execRebindIdentity by_ s
  | .factoryReset by_ => Sys2Proof.Machine.execFactoryReset by_ s
  | .mgmtStatus frame => Sys2Proof.Machine.execMgmtStatus frame s
  | .mgmtSetCap frame => Sys2Proof.Machine.execMgmtSetCap frame s
  | .mgmtNap frame => Sys2Proof.Machine.execMgmtNap frame s
  | .mgmtDark frame => Sys2Proof.Machine.execMgmtDark frame s
  | .mgmtWake frame => Sys2Proof.Machine.execMgmtWake frame s
  | .mgmtJobKill frame => Sys2Proof.Machine.execMgmtJobKill frame s
  | .mgmtTelemetry frame => Sys2Proof.Machine.execMgmtTelemetry frame s
  | .mgmtObject frame supplyLow => Sys2Proof.Machine.execMgmtObject frame supplyLow s
  | .entdaa addr => Sys2Proof.Machine.execEntdaa addr s
  | .setdasa addr => Sys2Proof.Machine.execSetdasa addr s
  | .rstdaa => Sys2Proof.Machine.execRstdaa s
  | .getpid => Sys2Proof.Machine.execGetpid s
  | .getbcr => Sys2Proof.Machine.execGetbcr s
  | .getdcr => Sys2Proof.Machine.execGetdcr s
  | .getstatus => Sys2Proof.Machine.execGetstatus s
  | .getmwl => Sys2Proof.Machine.execGetmwl s
  | .getmrl => Sys2Proof.Machine.execGetmrl s
  | .laneLockRegain die port lane => Sys2Proof.Machine.execLaneLockRegain die port lane s
  | .restartComplete => Sys2Proof.Machine.execRestartComplete s
  | .backInvalidateResponse die line => Sys2Proof.Machine.execBackInvalidateResponse die line s
  | .configurationRequest => Sys2Proof.Machine.execConfigurationRequest s
  | .debugPortAccess addr write => Sys2Proof.Machine.execDebugPortAccess addr write s
  | .mgmtPacketReceive die port pkt => Sys2Proof.Machine.execMgmtPacketReceive die port pkt s

end Sys2Proof.Machine
end

