-- ==== Sys2Proof/Safety.lean ====
section
/-! DEFINITION. What counts as a safe step and as a well-kept state: no command stops the block, every store keeps its
canonical form, and a command touches only the parts of the state it names. -/

namespace Sys2Proof.Machine

/-- The outcome is a next state of which `p` holds. -/
def Gives (o : Host.Outcome State Fault Refusal) (p : State → Prop) : Prop := ∃ t, o = .next t ∧ p t

/-- The canonical form of device memory and of the host memory the module wrote: addresses strictly rising, no entry equal
to what an unlisted address reads as, 0. -/
def Memory.wf (m : Map Byte) : Bool := bytesWf m

/-- Device memory and host memory are in their canonical form. -/
def MemInv (s : State) : Prop := Memory.wf s.mem = true ∧ Memory.wf s.hostMem = true

/-- What a listed register entry must satisfy: its value fits the register's width. -/
def entryFits (e : Nat × BitVec 64) : Bool :=
  match regOfKey e.1 with
  | some r => decide (e.2.toNat < 2 ^ r.info.width)
  | none => true

/-- The registers are in canonical form: keys strictly rising, every value within its register's width. -/
def RegInv (s : State) : Prop := Map.rising s.regs = true ∧ s.regs.all entryFits = true

/-! ## When commands act, and what they leave -/

/-- A BAR write by this sender reaches the registers of a die and no restart turns it away (R604, R616, R763, R856). -/
def writeReaches (s : State) (b : Sender) (die : Nat) : Bool :=
  s.host.powered && senderReaches b die && (decide (b.master ≠ .host) || (hostReaches s && s.host.restart.isNone))

/-- A BAR0 register write by this sender is acted on: it reaches the die, and the module is not in recovery (R782). -/
def writeActs (s : State) (b : Sender) (die : Nat) : Bool := writeReaches s b die && !rflag s F.truStatus_recovery 0 0

/-- The state as a write finds it at its die: a write from the other die carries its stamp over the bridge (R666). -/
def asReached (s : State) (b : Sender) (die : Nat) : State := crossBridge s (if b.master = .host then 0 else b.die.val) die

/-- A counting field took `n` more, stopping at its largest value. -/
def Counts (s t : State) (f : Fld) (die unit n : Nat) : Prop :=
  rf t f die unit = satAdd (f.hi - f.lo + 1) (rf s f die unit) n

/-- Registers whose writes follow rules of their own, not the access codes of their fields. -/
def ruledRegs : List Reg :=
  [.hifRingSize, .hifRingBase, .hifRingCpl, .icuPend, .icuMask, .icuTarget, .sidSet, .fabRouteCtrl, .ctlCompCtrl, .sidCtrl]

/-- At least one ephemeris record was numbered on the die (R671). -/
def Recorded (s t : State) (die : Nat) : Prop := rd t .ephSeq die 0 ≠ rd s .ephSeq die 0

/-- An event of the die was told: the event ring took it, the die holds it behind those that wait, or it was lost and counted
(R599, R600). -/
def EventTold (s t : State) (die code arg0 arg1 arg2 : Nat) : Prop :=
  if eventsOf s die = [] ∧ ringHasRoom s die 33 then ringHead t die 33 = (ringHead s die 33 + 1) % 2 ^ 32
  else if (eventsOf s die).length < 64 then
    ∃ stamp, eventsOf t die = eventsOf s die ++ [⟨code, arg0, arg1, arg2, stamp⟩]
  else Counts s t F.hifEventLostCount_count die 0 1

/-- Interrupt source b of group g of the die is pending (R627). -/
def Pends (t : State) (die g b : Nat) : Prop := bitOf (rd t .icuPend die g) b = true

/-- A completion of the descriptor with this status is queued on its ring (R584). -/
def Completed (t : State) (die n : Nat) (d : Desc) (status : Nat) : Prop :=
  ∃ c ∈ (ringWork t die n).toWrite, c.k = d.k ∧ c.tag = d.tag ∧ c.kind = d.type ∧ c.status = status

/-- The same with a count. -/
def CompletedWith (t : State) (die n : Nat) (d : Desc) (status count : Nat) : Prop :=
  ∃ c ∈ (ringWork t die n).toWrite, c.k = d.k ∧ c.tag = d.tag ∧ c.kind = d.type ∧ c.status = status ∧ c.count = count

/-- The wide command of the bundle due has issued in the present cycle: the counter stays, and the bundle's narrow operation, if it has
one, or a later bundle is due (R257, R258, R260). -/
def WideIssued (s t : State) (k : Nat) : Prop :=
  counter t k = counter s k ∧
    if (nextBundle s k).narrowValid then (coreOf t k).bundle = (coreOf s k).bundle ∧ (coreOf t k).wideDone = true
    else (coreOf s k).bundle < (coreOf t k).bundle

/-- The narrow operation of the bundle due has issued in the present cycle, and a later bundle is due. -/
def NarrowIssued (s t : State) (k : Nat) : Prop :=
  counter t k = counter s k ∧ (coreOf s k).bundle < (coreOf t k).bundle

/-- The stream of the core has ended with a status, and its RUN's completion is queued (R250 to R252). -/
def StreamEnded (s t : State) (k status : Nat) : Prop :=
  (coreOf t k).runDesc = none ∧
  (coreOf t k).ended = some (status, if status = stOk then 0 else min (coreOf s k).bundle (streamCount s k - 1)) ∧
  seqState t k = (if status = stTimeout ∨ status = stDataLost ∨ status = stReplayLost then seqHalted else seqIdle) ∧
  ∃ c ∈ (ringWork t (k / 24) (k % 24)).toWrite, some c.k = (coreOf s k).runDesc ∧ c.status = status

/-- The lines a FEED moves, with the bytes memory holds for them (R120, R124). -/
def feedLines (s : State) (f : Feed) : List (Nat × Bytes) :=
  (List.range f.rows).flatMap fun i => (List.range f.rowLines).map fun j =>
    (f.line + i * f.dstPitch + j, memBytes s (f.src + i * (f.srcPitch * 64) + 64 * j) 64)

/-- No row that a range touches fails to read. -/
def readsWell (s : State) (base len : Nat) : Prop := failRow s MemFaults.none base len = none

/-- Every row of a FEED reads well, and no tagged window hides any of its bytes. -/
def feedReadsWell (s : State) (f : Feed) : Prop :=
  ∀ i < f.rows, readsWell s (f.src + i * (f.srcPitch * 64)) (f.rowLines * 64) ∧
    hiddenIn s (f.src + i * (f.srcPitch * 64)) (f.rowLines * 64) = []

/-- The stream of a core reads well, every bundle passes its field checks, and its bytes give the slot's CRC-32 (R248, R249). -/
def streamReads (s : State) (k : Nat) : Prop :=
  readsWell s (streamBase s k) (32 * streamCount s k) ∧
  (∀ i < streamCount s k, bundleFieldsOk s k (bundleOf (bundleWord s k i)) = true) ∧
  crc32 (memBytes s (streamBase s k) (32 * streamCount s k)) = slotCrc s k (seqSlot s k)

/-- Memory outside a range reads as before. -/
def MemSameOutside (s t : State) (base len : Nat) : Prop :=
  ∀ a, (a < base ∨ base + len ≤ a) → Map.getD t.mem a 0 = Map.getD s.mem a 0

/-- The vector instruction due next is this one, with its class, operation and ranges (R298). -/
def VecDue (s : State) (k cls op w : Nat) (r : Ranges) : Prop :=
  nextWide s k engVec = some w ∧ (Vec.of w).cls = cls ∧ (Vec.of w).op = op ∧ vecRanges w = some r

/-- It is not empty, and its start rule is met in the present cycle (R325). -/
def VecStarts (s : State) (k w : Nat) (r : Ranges) : Prop :=
  vecIdle w = false ∧ vecStart (coreOf s k) w r (coreOf s k).vec.clock ≤ (coreOf s k).vec.clock

/-- An instruction that has started leaves memory and the registers it will write as they are, and is in progress: the engine knows
its start, the registers as they stood, and what its reads will meet (R324). -/
def VecStarted (s t : State) (k w : Nat) (er : EngineRun) : Prop :=
  WideIssued s t k ∧ t.mem = s.mem ∧ t.regs = s.regs ∧ (coreOf t k).vec.start = (coreOf s k).vec.clock ∧
    (⟨(coreOf s k).bundle, w, (coreOf s k).vec.clock, vecRegsNow s k w, [], none, 0, false, er⟩ : VecRun) ∈ (coreOf t k).vec.runs

/-- Before its start rule is met an instruction waits at the interlock for the difference, and nothing else happens (R261, R325). -/
def VecWaits (s t : State) (k w : Nat) (r : Ranges) : Prop :=
  (coreOf t k).interlocked = some ⟨(vecStart (coreOf s k) w r (coreOf s k).vec.clock - (coreOf s k).vec.clock).toNat⟩ ∧
  seqState t k = seqFrozen ∧ t.mem = s.mem ∧ (coreOf t k).bundle = (coreOf s k).bundle ∧ (coreOf t k).vec = (coreOf s k).vec

/-- A packet of this kind, the first of its channel that an up port holds, passes the header checks of R538. -/
def Heard (s : State) (die p kind : Nat) (pkt : Packet) : Prop :=
  portUp s die p = true ∧ rxFirst s die p pkt.vc = some pkt ∧ pkt.kind = kind ∧ pkt.vc < 5 ∧ rflag s F.fabRouteCtrl_routeValid die 0 = true ∧
    pkt.epoch = rf s F.fabRouteCtrl_epoch die 0 ∧ pkt.dst = endpoint s die

/-- It is the next of its flow, and no later packet of the flow waits (R538, R539). -/
def HeardNext (s : State) (die p kind : Nat) (pkt : Packet) : Prop :=
  Heard s die p kind pkt ∧ pkt.fseq = (flowRx s (rxKey die pkt)).expected ∧ (flowRx s (rxKey die pkt)).held = []

/-- The module's clocks run and its lanes are worked on: powered, in Active or Idle. -/
def Awake (s : State) : Prop := s.host.powered = true ∧ powerState s < pwrNap

/-- A finite value in units of 2^q, for q at or below its exponent. -/
def Num.unitsAt : Num → Int → Int
  | .fin neg m e, q => (if neg then -1 else 1) * (m * 2 ^ (e - q).toNat : Nat)
  | _, _ => 0

/-- The core that a command belongs to: the commands of core rings, streams and engines. -/
def coreOfCommand : Instr → Option CoreRef
  | .install c .. | .run c | .layers c .. | .streamStart c .. | .streamComplete c | .replayPoint c | .feed c ..
  | .feedReadIssue c .. | .mload c .. | .mpassMac c .. | .mpassL1 c .. | .mpassL2sq c .. | .mpassMinplus c ..
  | .mpassMaxplus c .. | .mpassMaxmin c .. | .mpassMatch c .. | .plate c | .drain c .. | .spill c ..
  | .interlockRelease c | .coreResume c .. | .watchdogTimeout c | .replay c .. | .replayResume c .. | .signal c
  | .signalSend c | .wait c | .guard c | .add c .. | .sub c .. | .mul c .. | .fma c .. | .div c .. | .sqrt c ..
  | .min c .. | .max c .. | .abs c .. | .neg c .. | .elemCopy c .. | .cmplt c .. | .cmpeq c .. | .cvt c ..
  | .exp2 c .. | .exp c .. | .log2 c .. | .log c .. | .rcp c .. | .rsqrt c .. | .tanh c .. | .sigmoid c .. | .sin c ..
  | .cos c .. | .erf c .. | .rmax c .. | .rmin c .. | .rsum c .. | .rsumsq c .. | .rscale c .. | .rsub c ..
  | .cadd c .. | .cmul c .. | .setr c .. | .loadr c .. | .storer c .. | .incr c .. | .irootSqrt c ..
  | .irootFourth c .. | .update c .. | .uroot c .. => some c
  | _ => none

/-! ## Frames -/

/-- The parts of the state: one register of the map in all its units, one field of the host interface, or one of the other
fields. -/
inductive Part where
  | reg (r : Reg)
  | queue
  | freeCtr
  | mem
  | hostMem
  | poison
  | snoop
  | heldWrites
  | scrub
  | unusable
  | cores
  | sync
  | bridge
  | cols
  | colWaiting
  | colEnded
  | mcasts
  | routes
  | flowsTx
  | flowsRx
  | ports
  | rings
  | powered | perstN | linkUp | rdybsyN | d3hot | restart | attention | repeating | reportOwed | lowPower | lowPowerAsk
  | wakePending | darkPerst | darkLoc | opened | pulsed | highSince
  | answers
  | eph
  | events
  | icuTimers
  | comps
  | ctlCores
  | ctlMem
  | sid
  | pwr
  | clk
  | flt
  | tru
  | flash
  | acts
  | mgmt
  | job
deriving DecidableEq, Repr

/-- A part reads the same in two states: every unit of a register on both dies, or the whole of another field. -/
def Part.same (s t : State) : Part → Prop
  | .reg r => ∀ die unit, rd t r die unit = rd s r die unit
  | .queue => t.pending = s.pending
  | .freeCtr => t.freeCtr = s.freeCtr
  | .mem => t.mem = s.mem
  | .hostMem => t.hostMem = s.hostMem
  | .poison => t.poison = s.poison
  | .snoop => t.snoop = s.snoop
  | .heldWrites => t.heldWrites = s.heldWrites
  | .scrub => t.scrub = s.scrub
  | .unusable => t.unusable = s.unusable
  | .cores => t.cores = s.cores
  | .sync => t.sync = s.sync
  | .bridge => t.bridge = s.bridge
  | .cols => t.cols = s.cols
  | .colWaiting => t.colWaiting = s.colWaiting
  | .colEnded => t.colEnded = s.colEnded
  | .mcasts => t.mcasts = s.mcasts
  | .routes => t.routes = s.routes
  | .flowsTx => t.flowsTx = s.flowsTx
  | .flowsRx => t.flowsRx = s.flowsRx
  | .ports => t.ports = s.ports
  | .rings => t.rings = s.rings
  | .powered => t.host.powered = s.host.powered
  | .perstN => t.host.perstN = s.host.perstN
  | .linkUp => t.host.linkUp = s.host.linkUp
  | .rdybsyN => t.host.rdybsyN = s.host.rdybsyN
  | .d3hot => t.host.d3hot = s.host.d3hot
  | .restart => t.host.restart = s.host.restart
  | .attention => t.host.attention = s.host.attention
  | .repeating => t.host.repeating = s.host.repeating
  | .reportOwed => t.host.reportOwed = s.host.reportOwed
  | .lowPower => t.host.lowPower = s.host.lowPower
  | .lowPowerAsk => t.host.lowPowerAsk = s.host.lowPowerAsk
  | .wakePending => t.host.wakePending = s.host.wakePending
  | .darkPerst => t.host.darkPerst = s.host.darkPerst
  | .darkLoc => t.host.darkLoc = s.host.darkLoc
  | .opened => t.host.opened = s.host.opened
  | .pulsed => t.host.pulsed = s.host.pulsed
  | .highSince => t.host.highSince = s.host.highSince
  | .answers => t.answers = s.answers
  | .eph => t.eph = s.eph
  | .events => t.events = s.events
  | .icuTimers => t.icuTimers = s.icuTimers
  | .comps => t.comps = s.comps
  | .ctlCores => t.ctlCores = s.ctlCores
  | .ctlMem => t.ctlMem = s.ctlMem
  | .sid => t.sid = s.sid
  | .pwr => t.pwr = s.pwr
  | .clk => t.clk = s.clk
  | .flt => t.flt = s.flt
  | .tru => t.tru = s.tru
  | .flash => t.flash = s.flash
  | .acts => t.acts = s.acts
  | .mgmt => t.mgmt = s.mgmt
  | .job => t.job = s.job

/-- Every part outside `w` is unchanged from `s` to `t`. -/
structure Frame (w : List Part) (s t : State) : Prop where
  same : ∀ p, p ∉ w → Part.same s t p

/-- Every field of the host interface. -/
def hostParts : List Part :=
  [.powered, .perstN, .linkUp, .rdybsyN, .d3hot, .restart, .attention, .repeating, .reportOwed, .lowPower, .lowPowerAsk,
   .wakePending, .darkPerst, .darkLoc, .opened, .pulsed, .highSince]

/-- Every register. -/
def allRegs : List Part := Reg.all.map Part.reg

/-- Every register, and the parts of `w`. -/
def withRegs (w : List Part) : List Part := allRegs ++ w

/-! ## Footprints -/

/-- A source becomes pending (R627, R630). -/
def irqParts : List Part :=
  [.icuTimers, .wakePending, .reg .icuPend]

/-- An ephemeris record is written (R670 to R680). -/
def recordParts : List Part :=
  [.eph, .hostMem, .icuTimers, .wakePending, .reg .ephLostCount, .reg .ephSeq, .reg .hifRingHead, .reg .icuPend]

/-- An event is told, with its records (R599, R600). -/
def eventParts : List Part :=
  [.eph, .events, .hostMem, .icuTimers, .wakePending, .reg .ephLostCount, .reg .ephSeq, .reg .hifEventLostCount,
  .reg .hifRingHead, .reg .icuPend]

/-- A check failed: transients, budgets and classification (chapter 16). -/
def faultParts : List Part :=
  [.eph, .events, .flt, .hostMem, .icuTimers, .wakePending, .reg .arrPathStatus, .reg .ephLostCount, .reg .ephSeq,
  .reg .hbmPcState, .reg .hbmStatus, .reg .hifEventLostCount, .reg .hifRingHead, .reg .icuPend]

/-- A checked read of memory (R387, R426). -/
def readParts : List Part :=
  [.eph, .events, .flt, .hostMem, .icuTimers, .poison, .scrub, .wakePending, .reg .arrPathStatus, .reg .ephLostCount,
  .reg .ephSeq, .reg .hbmFailCount, .reg .hbmOdeccCorrCount, .reg .hbmOdeccUncorrCount, .reg .hbmPcState,
  .reg .hbmRereadCount, .reg .hbmStatus, .reg .hifEventLostCount, .reg .hifRingHead, .reg .icuPend,
  .reg .spmFailCount, .reg .spmRereadCount]

/-- A write to memory (R277, R388, R427, R433). -/
def storeParts : List Part :=
  [.cores, .eph, .events, .flt, .freeCtr, .heldWrites, .hostMem, .icuTimers, .mem, .poison, .scrub, .wakePending,
  .reg .arrPathStatus, .reg .ephLostCount, .reg .ephSeq, .reg .hbmFailCount, .reg .hbmOdeccCorrCount,
  .reg .hbmOdeccUncorrCount, .reg .hbmPcState, .reg .hbmPoisonCount, .reg .hbmRereadCount, .reg .hbmStatus,
  .reg .hifEventLostCount, .reg .hifRingHead, .reg .icuPend, .reg .spmFailCount, .reg .spmPoisonCount,
  .reg .spmRereadCount]

/-- A descriptor completes (R584, R689). -/
def finishParts : List Part :=
  [.eph, .hostMem, .icuTimers, .rings, .wakePending, .reg .ephLostCount, .reg .ephSeq, .reg .hifRingHead,
  .reg .icuPend, .reg .pwrStatus]

/-- A SIGNAL is sent (R460 to R470). -/
def signalParts : List Part :=
  [.bridge, .eph, .flowsTx, .hostMem, .icuTimers, .sync, .wakePending, .reg .ephLostCount, .reg .ephSeq,
  .reg .hifRingHead, .reg .icuPend, .reg .synLostCount]

/-- A stream goes on or ends (R250 to R252). -/
def streamParts : List Part :=
  [.bridge, .cores, .eph, .hostMem, .icuTimers, .rings, .sync, .wakePending, .reg .ephLostCount, .reg .ephSeq,
  .reg .hifRingHead, .reg .icuPend, .reg .pwrStatus, .reg .seqReplayCycles, .reg .seqSlipCycles, .reg .seqState,
  .reg .seqWaitCycles]

/-- A packet's header is taken (R544, R668). -/
def sampleParts : List Part :=
  [.eph, .hostMem, .icuTimers, .ports, .wakePending, .reg .ephLostCount, .reg .ephSeq, .reg .fabSampleSkipCount,
  .reg .hifRingHead, .reg .icuPend, .reg .sidClampCount, .reg .sidCount]

/-- The parts that a command may change. -/
def footprint : Instr → List Part
  | .por .. | .supplyRestart .. =>
    withRegs [.acts, .attention, .bridge, .clk, .colEnded, .colWaiting, .cols, .comps, .cores, .ctlCores, .ctlMem,
    .d3hot, .darkLoc, .darkPerst, .eph, .events, .flash, .flowsRx, .flowsTx, .flt, .freeCtr, .heldWrites, .highSince,
    .hostMem, .icuTimers, .job, .linkUp, .lowPower, .lowPowerAsk, .mcasts, .mem, .mgmt, .opened, .perstN, .poison,
    .ports, .powered, .pulsed, .pwr, .rdybsyN, .repeating, .reportOwed, .restart, .rings, .routes, .scrub, .sid,
    .snoop, .sync, .tru, .unusable, .wakePending]
  | .perstAssert .. | .darkWake .. =>
    withRegs [.acts, .attention, .bridge, .clk, .colEnded, .colWaiting, .cols, .comps, .cores, .ctlCores, .ctlMem,
    .d3hot, .darkLoc, .darkPerst, .eph, .events, .flash, .flowsRx, .flowsTx, .flt, .freeCtr, .heldWrites, .highSince,
    .hostMem, .icuTimers, .job, .linkUp, .lowPower, .lowPowerAsk, .mcasts, .mem, .opened, .perstN, .poison, .ports,
    .powered, .pulsed, .pwr, .rdybsyN, .repeating, .reportOwed, .restart, .rings, .routes, .sid, .snoop, .sync, .tru,
    .unusable, .wakePending]
  | .perstDeassert .. =>
    [.darkLoc, .perstN, .reg .ctlDieInfo]
  | .linkReset .. =>
    withRegs [.d3hot, .linkUp, .rings]
  | .linkUp .. =>
    [.attention, .d3hot, .darkLoc, .darkPerst, .highSince, .linkUp, .lowPower, .lowPowerAsk, .opened, .perstN,
    .powered, .pulsed, .rdybsyN, .repeating, .reportOwed, .restart, .wakePending, .reg .hifStatus,
    .reg .spmZeroStatus]
  | .cxlReset .. =>
    withRegs [.ctlCores, .d3hot, .eph, .hostMem, .icuTimers, .linkUp, .rdybsyN, .restart, .rings, .wakePending]
  | .d3hotEntry .. =>
    [.d3hot]
  | .cxlMemRead .. =>
    readParts ++ signalParts ++ [.answers, .clk, .freeCtr, .heldWrites, .job, .mcasts, .mem, .ports, .sid, .snoop,
    .reg .clkStatus, .reg .clkStretchCycles, .reg .fabPortState, .reg .hbmCxlPoisonCount, .reg .jobStatus,
    .reg .pwrStatus, .reg .sidLossCount, .reg .sidStatus, .reg .spmZeroStatus]
  | .cxlMemWrite .. =>
    readParts ++ [.bridge, .clk, .cores, .freeCtr, .mem, .ports, .sid, .reg .clkStatus, .reg .clkStretchCycles,
    .reg .fabPortState, .reg .hbmPoisonCount, .reg .pwrStatus, .reg .sidLossCount, .reg .sidStatus,
    .reg .spmPoisonCount]
  | .registerWrite .. =>
    withRegs [.answers, .bridge, .comps, .ctlCores, .ctlMem, .eph, .events, .flt, .hostMem, .icuTimers, .poison,
    .repeating, .reportOwed, .rings, .scrub, .sid, .sync, .wakePending]
  | .unassignedAccess .. | .sidSet .. =>
    recordParts ++ [.answers, .reg .sidClampCount, .reg .sidCount]
  | .doorbell .. | .consumerDoorbell .. =>
    eventParts ++ [.answers, .reg .hifDbErrCount, .reg .hifRingTail, .reg .sidClampCount, .reg .sidCount]
  | .ringEnable .. | .ringDisable .. =>
    eventParts ++ [.answers, .reportOwed, .rings, .reg .hifConfigErrCount, .reg .hifFetchFaultCount,
    .reg .hifRingDone, .reg .hifRingSize, .reg .hifRingState, .reg .hifRingTail, .reg .sidClampCount, .reg .sidCount]
  | .descriptorFetch .. =>
    eventParts ++ finishParts ++ [.reg .hifFetchFaultCount, .reg .hifRingState]
  | .completionWrite .. =>
    faultParts ++ signalParts ++ finishParts ++ [.ctlCores, .job, .rdybsyN, .restart, .reg .hifFetchFaultCount,
    .reg .hifRingDone, .reg .hifRingState, .reg .jobStatus, .reg .spmZeroStatus]
  | .install .. =>
    readParts ++ finishParts ++ [.cores, .reg .seqInstallFault, .reg .seqSlotBase, .reg .seqSlotCrc,
    .reg .seqSlotInfo]
  | .run .. =>
    finishParts ++ [.cores, .reg .seqState]
  | .layers .. =>
    readParts ++ finishParts ++ [.cores]
  | .transfer .. | .fill .. | .copy .. =>
    storeParts ++ finishParts
  | .reduceScatter .. | .allGather .. | .allReduce .. | .multicast .. =>
    readParts ++ finishParts ++ [.bridge, .colEnded, .colWaiting, .cols, .flowsTx, .sync, .reg .colDropCount,
    .reg .colStatus, .reg .synReleaseCount]
  | .collectiveRunStart .. =>
    storeParts ++ [.bridge, .cols, .flowsTx, .sync, .reg .colAbortCount, .reg .colDropCount, .reg .colRetryCount]
  | .collectiveRunEnd .. =>
    signalParts ++ finishParts ++ [.colEnded, .cols, .reg .colPartialCount, .reg .colRunCount, .reg .colStatus,
    .reg .synReleaseCount]
  | .collectiveTimeout .. =>
    streamParts ++ [.answers, .cols, .comps, .ctlCores, .flowsTx, .reg .synTimeoutCount]
  | .jobBegin .. =>
    withRegs [.acts, .bridge, .colEnded, .colWaiting, .eph, .events, .flash, .flowsRx, .flowsTx, .flt, .freeCtr,
    .heldWrites, .hostMem, .icuTimers, .job, .mcasts, .mem, .poison, .ports, .pwr, .reportOwed, .rings, .sid, .sync,
    .unusable, .wakePending]
  | .jobEnd .. =>
    withRegs [.acts, .bridge, .clk, .cols, .comps, .cores, .ctlCores, .eph, .events, .flowsRx, .flowsTx, .heldWrites,
    .hostMem, .icuTimers, .job, .mem, .poison, .pwr, .rings, .sync, .wakePending]
  | .jobKill .. =>
    withRegs [.acts, .bridge, .clk, .colEnded, .cols, .comps, .cores, .ctlCores, .eph, .events, .flowsRx, .flowsTx,
    .heldWrites, .hostMem, .icuTimers, .job, .mem, .poison, .pwr, .rings, .sync, .wakePending]
  | .residency .. =>
    finishParts ++ [.reg .spmResStatus, .reg .spmResWindow]
  | .signalDescriptor .. =>
    signalParts ++ finishParts
  | .routeWrite .. =>
    readParts ++ finishParts ++ [.routes, .reg .fabRouteCtrl]
  | .restart .. =>
    finishParts
  | .setCap .. | .clearCap .. =>
    finishParts ++ [.reg .pwrHostCap]
  | .setCeiling .. | .clearCeiling .. =>
    finishParts ++ [.reg .pwrHostCeiling]
  | .nap .. | .dark .. =>
    eventParts ++ finishParts ++ [.acts, .lowPower, .lowPowerAsk]
  | .lowPowerEntry .. =>
    withRegs [.bridge, .clk, .colEnded, .colWaiting, .comps, .cores, .ctlCores, .ctlMem, .d3hot, .darkLoc, .eph,
    .events, .flowsRx, .flowsTx, .flt, .freeCtr, .heldWrites, .hostMem, .icuTimers, .linkUp, .lowPower, .lowPowerAsk,
    .mcasts, .mem, .opened, .poison, .ports, .pulsed, .pwr, .rdybsyN, .repeating, .rings, .routes, .sid, .snoop,
    .wakePending]
  | .wake .. =>
    recordParts ++ [.bridge, .clk, .ports, .sid, .reg .clkStatus, .reg .clkStretchCycles, .reg .fabPortState,
    .reg .pwrStatus, .reg .sidLossCount, .reg .sidStatus]
  | .epochCommit .. | .epochSet .. =>
    recordParts ++ [.answers, .reg .fabRouteCtrl, .reg .sidClampCount, .reg .sidCount]
  | .icuPendWrite .. =>
    recordParts ++ [.answers, .repeating, .reg .icuSummary, .reg .icuSummaryHost, .reg .sidClampCount, .reg .sidCount]
  | .icuMaskWrite .. =>
    recordParts ++ [.answers, .repeating, .reg .icuMask, .reg .icuSummary, .reg .icuSummaryHost, .reg .sidClampCount,
    .reg .sidCount]
  | .icuTargetWrite .. =>
    recordParts ++ [.answers, .repeating, .reg .icuSummary, .reg .icuSummaryHost, .reg .icuTarget,
    .reg .sidClampCount, .reg .sidCount]
  | .holdoffExpiry .. =>
    [.attention, .icuTimers, .reg .icuSummary, .reg .icuSummaryHost]
  | .attentionPulse .. =>
    [.attention, .pulsed, .repeating]
  | .attentionRepeat .. =>
    [.attention, .repeating]
  | .companionStart .. | .companionStop .. =>
    readParts ++ [.answers, .bridge, .comps, .ctlCores, .ctlMem, .sync, .reg .ctlCompStatus, .reg .ctlCoreState,
    .reg .sidClampCount, .reg .sidCount]
  | .companionFault .. =>
    storeParts ++ [.answers, .bridge, .comps, .ctlCores, .ctlMem, .sync, .reg .ctlCompStatus, .reg .ctlCoreState]
  | .companionSignal .. =>
    signalParts ++ [.answers, .ctlCores]
  | .companionWait .. =>
    [.answers, .bridge, .comps, .ctlCores, .sync, .reg .synReleaseCount]
  | .companionExit .. =>
    [.bridge, .comps, .ctlCores, .sync, .reg .ctlCompStatus, .reg .ctlCoreState]
  | .companionStamp .. =>
    [.answers, .ctlCores]
  | .companionLog .. =>
    recordParts ++ [.answers, .ctlCores]
  | .streamStart .. | .replayResume .. =>
    readParts ++ streamParts ++ [.reg .seqSchedule]
  | .streamComplete .. | .watchdogTimeout .. =>
    streamParts
  | .replayPoint .. | .plate .. | .signal .. | .guard .. =>
    [.cores]
  | .feed .. =>
    readParts ++ [.cores, .reg .seqState]
  | .feedReadIssue .. =>
    readParts ++ [.cores]
  | .mload .. | .drain .. | .add .. | .sub .. | .mul .. | .fma .. | .div .. | .sqrt .. | .min .. | .max .. | .abs ..
  | .neg .. | .elemCopy .. | .cmplt .. | .cmpeq .. | .cvt .. | .exp2 .. | .exp .. | .log2 .. | .log .. | .rcp ..
  | .rsqrt .. | .tanh .. | .sigmoid .. | .sin .. | .cos .. | .erf .. | .rmax .. | .rmin .. | .rsum .. | .rsumsq ..
  | .rscale .. | .rsub .. | .cadd .. | .cmul .. | .setr .. | .loadr .. | .storer .. | .incr .. | .irootSqrt ..
  | .irootFourth .. | .update .. | .uroot .. =>
    [.cores, .reg .seqState]
  | .mpassMac .. | .mpassL1 .. | .mpassL2sq .. | .mpassMinplus .. | .mpassMaxplus .. | .mpassMaxmin ..
  | .mpassMatch .. =>
    [.cores, .reg .arrStallA0, .reg .arrStallA1, .reg .arrStallA2, .reg .arrStallA3, .reg .seqState]
  | .spill .. =>
    storeParts ++ [.reg .accSpillA0, .reg .accSpillA1, .reg .accSpillA2, .reg .accSpillA3, .reg .seqState]
  | .interlockRelease .. =>
    storeParts ++ streamParts ++ [.reg .accLapseCount, .reg .accNonfiniteCount, .reg .accSpillA0, .reg .accSpillA1,
    .reg .accSpillA2, .reg .accSpillA3, .reg .arrTransitCount, .reg .updCheckCount, .reg .updFallbackCount,
    .reg .updFrozenCount, .reg .updRetryCount, .reg .updRootFailCount, .reg .vecFlags, .reg .vecNonfiniteCount,
    .reg .vecScalar0, .reg .vecScalar1, .reg .vecScalar2, .reg .vecScalar3, .reg .vecScalar4, .reg .vecScalar5,
    .reg .vecScalar6, .reg .vecScalar7, .reg .vecSrStep]
  | .coreResume .. =>
    [.cores, .reg .seqReplayCycles, .reg .seqSlipCycles, .reg .seqState, .reg .seqWaitCycles]
  | .replay .. =>
    storeParts ++ streamParts ++ [.reg .accCheckCount, .reg .accLapseCount, .reg .accNonfiniteCount, .reg .accSpillA0,
    .reg .accSpillA1, .reg .accSpillA2, .reg .accSpillA3, .reg .arrResidueCount, .reg .arrTransitCount,
    .reg .seqReplayCount, .reg .seqSchedule, .reg .updCheckCount, .reg .updFallbackCount, .reg .updFrozenCount,
    .reg .updRetryCount, .reg .updRootFailCount, .reg .vecCheckCount, .reg .vecFlags, .reg .vecNonfiniteCount,
    .reg .vecScalar0, .reg .vecScalar1, .reg .vecScalar2, .reg .vecScalar3, .reg .vecScalar4, .reg .vecScalar5,
    .reg .vecScalar6, .reg .vecScalar7, .reg .vecSrStep]
  | .signalSend .. =>
    signalParts ++ [.cores]
  | .wait .. =>
    [.answers, .bridge, .cols, .comps, .cores, .ctlCores, .sync, .reg .seqState, .reg .synReleaseCount]
  | .signalApply .. =>
    storeParts ++ [.answers, .bridge, .cols, .comps, .ctlCores, .pwr, .sync, .reg .pwrGrantLostCount,
    .reg .pwrHelioStatus, .reg .synLostCount, .reg .synReleaseCount, .reg .synSaturateCount, .reg .synSignalCount,
    .reg .synWaitTicks]
  | .waitArrive .. =>
    storeParts ++ streamParts ++ [.answers, .cols, .comps, .ctlCores, .pwr, .reg .synReleaseCount,
    .reg .synTimeoutCount, .reg .synWaitTicks]
  | .waitTimeout .. =>
    streamParts ++ [.answers, .cols, .comps, .ctlCores, .reg .synTimeoutCount]
  | .almanacRequest .. | .getpid .. | .getbcr .. | .getdcr .. | .getstatus .. | .getmwl .. | .getmrl ..
  | .configurationRequest .. =>
    [.answers]
  | .patrolScrub .. =>
    readParts ++ [.reg .hbmScrubStatus]
  | .flitReceive .. =>
    faultParts ++ [.ports, .reg .fabMisrouteCount]
  | .creditFlit .. | .throttleRecover .. | .laneLockLoss .. | .laneLockRegain .. =>
    [.ports]
  | .linkControlFlit .. | .siderealExchange .. =>
    recordParts ++ [.bridge, .ports, .sid, .reg .sidLossCount, .reg .sidStatus]
  | .ledgerDurable .. =>
    irqParts ++ [.flash, .flt, .freeCtr]
  | .packetInject .. =>
    storeParts ++ signalParts ++ sampleParts ++ [.answers, .colWaiting, .cols, .reg .colAbortCount,
    .reg .colDropCount, .reg .colRetryCount, .reg .fabPortOutstanding, .reg .fabRetxCount]
  | .dataPacketReceive .. =>
    storeParts ++ sampleParts ++ [.bridge, .colWaiting, .cols, .flowsRx, .flowsTx, .sync, .reg .colAbortCount,
    .reg .colDropCount, .reg .colRetryCount, .reg .fabDupCount, .reg .fabMisrouteCount, .reg .fabStaleCount]
  | .mcastReceive .. =>
    storeParts ++ signalParts ++ sampleParts ++ [.flowsRx, .mcasts, .reg .colDropCount, .reg .fabDupCount,
    .reg .fabMisrouteCount, .reg .fabStaleCount]
  | .signalPacketReceive .. =>
    signalParts ++ sampleParts ++ [.flowsRx, .reg .colDropCount, .reg .fabDupCount, .reg .fabMisrouteCount,
    .reg .fabStaleCount]
  | .abortReceive .. =>
    sampleParts ++ [.bridge, .colWaiting, .cols, .flowsRx, .flowsTx, .sync, .reg .colAbortCount, .reg .colDropCount,
    .reg .fabDupCount, .reg .fabMisrouteCount, .reg .fabStaleCount]
  | .ackReceive .. =>
    sampleParts ++ [.flowsTx, .reg .fabMarkCount, .reg .fabMisrouteCount, .reg .fabPortOutstanding,
    .reg .fabStaleCount]
  | .mcastAckReceive .. | .refuseReceive .. =>
    sampleParts ++ [.cols, .flowsRx, .flowsTx, .reg .colDropCount, .reg .fabMisrouteCount, .reg .fabStaleCount]
  | .fencedReceive .. =>
    signalParts ++ sampleParts ++ [.cols, .reg .colAbortCount, .reg .fabMisrouteCount, .reg .fabPortOutstanding,
    .reg .fabStaleCount]
  | .ackTimer .. =>
    [.flowsRx, .flowsTx]
  | .retransmitTimeout .. =>
    signalParts ++ [.cols, .reg .colAbortCount, .reg .fabPortOutstanding]
  | .fabricFlush .. =>
    [.colEnded, .colWaiting, .flowsRx, .flowsTx, .job, .mcasts, .reg .fabPortOutstanding]
  | .portFail .. =>
    faultParts ++ [.bridge, .ports, .sid, .reg .colLinkEventCount, .reg .fabDetourCount, .reg .fabPortState,
    .reg .fabRetrainCount, .reg .sidLossCount, .reg .sidStatus]
  | .retrainComplete .. =>
    eventParts ++ [.bridge, .ports, .sid, .reg .fabPortState, .reg .sidLossCount, .reg .sidStatus]
  | .detourReinject .. =>
    signalParts ++ [.cols, .ports, .reg .colAbortCount, .reg .fabPortOutstanding]
  | .laneRecalibrate .. =>
    [.freeCtr, .ports]
  | .bridgeFlitReceive .. =>
    faultParts
  | .bridgeRecalibrate .. =>
    [.flt, .freeCtr]
  | .exchangeAnswer .. =>
    recordParts ++ [.bridge, .ports, .sid, .reg .sidCount, .reg .sidLossCount, .reg .sidStatus, .reg .sidStepCount]
  | .syncLossTimeout .. =>
    recordParts ++ [.bridge, .sid, .reg .sidLossCount, .reg .sidStatus]
  | .bridgeTimeMeasure .. =>
    recordParts ++ [.sid, .reg .sidCount, .reg .sidLossCount, .reg .sidStatus, .reg .sidStepCount]
  | .timeoutPulse .. =>
    [.sid]
  | .timeinEdge .. =>
    recordParts ++ [.sid, .reg .sidCount, .reg .sidStatus, .reg .sidStepCount]
  | .timeinMissing .. =>
    recordParts ++ [.sid]
  | .telemetry .. =>
    recordParts ++ [.mgmt]
  | .ephemerisFlush .. =>
    eventParts ++ [.repeating, .rings, .reg .hifFetchFaultCount, .reg .hifRingState, .reg .icuSummary,
    .reg .icuSummaryHost]
  | .eventFlush .. =>
    eventParts ++ [.rings, .reg .hifFetchFaultCount, .reg .hifRingState]
  | .controlStep .. =>
    eventParts ++ finishParts ++ [.clk, .pwr, .reg .clkStatus, .reg .clkStretchCycles, .reg .pwrAvg, .reg .pwrEnergy,
    .reg .pwrLimit]
  | .dvfsStep .. | .droopClear .. | .overpowerStretch .. =>
    [.clk, .reg .clkStatus, .reg .clkStretchCycles]
  | .droopDetect .. =>
    irqParts ++ [.clk, .reg .clkDroopCount, .reg .clkStatus, .reg .clkStretchCycles]
  | .heliostatEpoch .. =>
    recordParts ++ [.pwr, .reg .pwrHelioStatus]
  | .grantSend .. =>
    signalParts ++ [.pwr]
  | .thermalCeilingStep .. =>
    recordParts ++ [.pwr, .reg .pwrStatus, .reg .pwrTemp]
  | .thermalAlert .. =>
    eventParts ++ [.pwr, .reg .pwrStatus, .reg .pwrTemp]
  | .thermalCritical .. =>
    withRegs [.acts, .bridge, .clk, .colEnded, .cols, .comps, .cores, .ctlCores, .eph, .events, .flowsRx, .flowsTx,
    .heldWrites, .hostMem, .icuTimers, .job, .lowPower, .mem, .poison, .pwr, .rings, .sync, .wakePending]
  | .powerBrake .. =>
    recordParts ++ [.clk, .pwr, .reg .clkStatus, .reg .clkStretchCycles, .reg .pwrBrakeCount, .reg .pwrStatus]
  | .brakeRelease .. | .supplyBrake .. | .supplyRecover .. =>
    recordParts ++ [.clk, .pwr, .reg .clkStatus, .reg .clkStretchCycles, .reg .pwrStatus]
  | .supplyLoss .. =>
    withRegs [.acts, .attention, .bridge, .clk, .colEnded, .colWaiting, .cols, .comps, .cores, .ctlCores, .ctlMem,
    .d3hot, .darkLoc, .darkPerst, .eph, .events, .flowsRx, .flowsTx, .flt, .freeCtr, .heldWrites, .highSince,
    .icuTimers, .job, .linkUp, .lowPower, .lowPowerAsk, .mcasts, .mem, .mgmt, .opened, .perstN, .poison, .ports,
    .powered, .pulsed, .pwr, .rdybsyN, .repeating, .reportOwed, .restart, .rings, .routes, .scrub, .sid, .snoop,
    .sync, .unusable, .wakePending]
  | .inputFilterAccept .. =>
    eventParts ++ [.acts, .clk, .lowPower, .lowPowerAsk, .rings, .reg .clkStatus, .reg .clkStretchCycles,
    .reg .icuInputState, .reg .truSealCount, .reg .truStatus]
  | .presenceExpiry .. =>
    irqParts ++ [.reg .icuInputState]
  | .doeDiscovery .. | .mgmtStatus .. | .mgmtTelemetry .. =>
    irqParts ++ [.answers]
  | .identityUnit .. | .identityAlias .. | .attest .. | .ledgerRead .. | .updateBegin .. | .updateChunk ..
  | .updateQuery .. | .updateAbandon .. | .updateActivate .. | .updateEndTrial .. | .setOwnerLock ..
  | .clearOwnerLock .. | .enrollOwnerKey .. | .debugUnlock .. | .rebindIdentity .. | .factoryReset .. | .mgmtObject ..
  =>
    withRegs [.answers, .attention, .ctlCores, .ctlMem, .eph, .events, .flash, .flt, .freeCtr, .hostMem, .icuTimers,
    .rdybsyN, .repeating, .restart, .tru, .wakePending]
  | .imageVerified .. =>
    [.reg .truUpdateStatus]
  | .bankProgrammed .. =>
    [.tru, .reg .truUpdateStatus]
  | .activationStart .. | .trialFallback .. =>
    withRegs [.attention, .ctlCores, .ctlMem, .eph, .flash, .flt, .freeCtr, .hostMem, .icuTimers, .rdybsyN,
    .repeating, .restart, .tru, .wakePending]
  | .trialConfirm .. =>
    eventParts ++ [.acts, .flash, .flt, .freeCtr, .tru, .reg .hbmPcState, .reg .hbmStatus, .reg .pwrMgmtCap,
    .reg .truFuse, .reg .truSealCount, .reg .truSettings, .reg .truStatus, .reg .truTrial, .reg .truUpdateChunks,
    .reg .truUpdateStatus]
  | .mgmtSetCap .. =>
    recordParts ++ [.answers, .flash, .freeCtr, .reg .pwrMgmtCap]
  | .mgmtNap .. | .mgmtDark .. | .mgmtWake .. =>
    eventParts ++ [.acts, .answers, .lowPower, .lowPowerAsk, .rings]
  | .mgmtJobKill .. =>
    withRegs [.acts, .answers, .bridge, .clk, .colEnded, .cols, .comps, .cores, .ctlCores, .eph, .events, .flowsRx,
    .flowsTx, .heldWrites, .hostMem, .icuTimers, .job, .mem, .poison, .pwr, .rings, .sync, .wakePending]
  | .entdaa .. | .setdasa .. | .rstdaa .. =>
    [.mgmt]
  | .restartComplete .. =>
    recordParts ++ [.attention, .ctlCores, .ctlMem, .d3hot, .darkLoc, .darkPerst, .flash, .flt, .freeCtr, .highSince,
    .linkUp, .lowPower, .lowPowerAsk, .opened, .perstN, .powered, .pulsed, .rdybsyN, .repeating, .reportOwed,
    .restart, .tru, .reg .ctlCoreState, .reg .pwrMgmtCap, .reg .truSettings, .reg .truStatus, .reg .truTrial,
    .reg .truUpdateChunks, .reg .truUpdateStatus]
  | .backInvalidateResponse .. =>
    signalParts ++ eventParts ++ [.heldWrites, .job, .mcasts, .mem, .snoop, .reg .jobStatus, .reg .spmZeroStatus]
  | .debugPortAccess .. =>
    storeParts ++ [.answers]
  | .mgmtPacketReceive .. =>
    sampleParts ++ [.reg .fabMisrouteCount, .reg .fabStaleCount]

end Sys2Proof.Machine
end

