-- ==== Sys2Proof/WellFormed.lean ====
section
/-! DEFINITION. Which commands are well formed: what the types of the operands do not already say. -/

namespace Sys2Proof

/-- A list of the lanes that trained, one byte for each of the 32 module ports (R554). -/
def trainOk (train : List (BitVec 8)) : Bool := train.length == 32

/-- A packet whose header fields fit R516 and whose payload is at most 4 KiB. -/
def Packet.wellFormed (p : Packet) : Bool :=
  decide (p.kind < 16) && decide (p.vc < 8) && decide (p.epoch < 16) && decide (p.dst < 2 ^ 17) && decide (p.src < 2 ^ 17)
    && decide (p.flow < 256) && decide (p.fseq < 2 ^ 16) && decide (p.hops < 4) && decide (p.sel0 < 256) && decide (p.sel1 < 256)
    && decide (p.sel2 < 256) && decide (p.aux < 2 ^ 18) && decide (p.stamp < 2 ^ 64) && decide (p.word < 2 ^ 64)
    && decide (p.payload.length ≤ 4096)

/-- A line of the CXL.mem window (R431). -/
def lineOk (addr : Nat) : Bool := addr % 64 == 0 && decide (addr < 384 * 1152 * 0x10_0000)

/-- Who writes registers: the host through BAR0, and firmware (R20, R620). -/
def barMaster (m : Master) : Bool := m == .host || m == .firmware

/-- The same with the die of firmware (R616); a host access enters at die 0 (R34). -/
def barSender (b : Sender) : Bool := barMaster b.master && (b.master == .firmware || b.die == 0)

/-- A master that R607 ranks. -/
def ranked (m : Master) : Bool := m == .presence || m == .management || m == .host || m == .firmware

/-- Who sends objects: the host through the DOE mailbox, the management controller over I3C (R785). -/
def objectMaster (m : Master) : Bool := m == .host || m == .management

/-- A failure that a check of the core's own units reports; those of memory and of operand buffers are met by commands (R273). -/
def Failure.reported (f : Failure) : Bool :=
  (f.row == 1 || f.row == 2 || f.row == 3 || f.row == 7) && !f.poisoned && (f.addr.isNone || f.row == 2)

/-- What a command's operands must satisfy to be a command at all. -/
def Instr.wellFormed : Instr → Bool
  | .por _ train => trainOk train
  | .perstAssert train => trainOk train
  | .darkWake train => trainOk train
  | .wake train => trainOk train
  | .jobBegin train _ => trainOk train
  | .supplyRestart _ train => trainOk train
  | .linkUp rate width flit256 => decide (1 ≤ rate.toNat) && decide (rate.toNat ≤ if flit256 then 4 else 3) && decide (1 ≤ width.toNat) && decide (width.toNat ≤ 2)
  | .cxlMemRead addr _ _ => lineOk addr
  | .cxlMemWrite addr w => lineOk addr && w.data.length == 64
  | .registerWrite by_ offset size value =>
    barSender by_ && (value.timer.isNone || by_.master == .firmware) && (size == 4 || size == 8) && offset % size == 0 && decide (offset < 0x400_0000) && decide (value.value < 256 ^ size)
  | .unassignedAccess by_ bar2 _ offset size value =>
    (if bar2 then by_ == ⟨.host, 0⟩ else barSender by_) && decide (1 ≤ size) && decide (size ≤ 64) && decide (offset < if bar2 then 0x8_0000 else 0x400_0000) && decide (value < 256 ^ size)
  | .epochCommit by_ _ value => barSender by_ && value.toNat.testBit 4
  | .epochSet by_ _ value => barSender by_ && !value.toNat.testBit 4
  | .sidSet by_ _ _ => barSender by_
  | .icuPendWrite by_ _ _ _ _ => barSender by_
  | .icuMaskWrite by_ _ _ _ => barSender by_
  | .icuTargetWrite by_ _ _ _ => barSender by_
  | .companionStart by_ _ _ => barSender by_
  | .companionStop by_ _ _ => barSender by_
  | .identityUnit by_ => objectMaster by_
  | .identityAlias by_ => objectMaster by_
  | .attest by_ _ => objectMaster by_
  | .ledgerRead by_ index => objectMaster by_ && decide (index < 2 ^ 32)
  | .updateBegin by_ length _ => objectMaster by_ && decide (length < 2 ^ 32)
  | .updateChunk by_ index _ data => objectMaster by_ && decide (index < 2 ^ 32) && data.length == 4096
  | .updateQuery by_ index => objectMaster by_ && decide (index < 2 ^ 32)
  | .updateAbandon by_ => objectMaster by_.master && by_.rival.all ranked
  | .updateActivate by_ when_ _ => objectMaster by_.master && decide (when_ < 256) && by_.rival.all ranked
  | .updateEndTrial by_ => objectMaster by_.master && by_.rival.all ranked
  | .setOwnerLock by_ => objectMaster by_
  | .clearOwnerLock by_ => objectMaster by_
  | .enrollOwnerKey by_ key => objectMaster by_ && key.length == 2592
  | .debugUnlock by_ => objectMaster by_
  | .rebindIdentity by_ => objectMaster by_
  | .factoryReset by_ => objectMaster by_
  | .doeDiscovery index => decide (index < 256)
  | .ringEnable _ _ size => decide (16 ≤ size.size) && decide (size.size ≤ 65536)
  | .descriptorFetch _ _ (some data) => data.length == 64
  | .replay _ r => r.failures.all Failure.reported && r.inPause.all fun e => e.2.reported
  | .flitReceive _ _ f => f.data.length == 256 && decide (f.corrected.length ≤ 8)
  | .creditFlit _ _ credits => credits.length == 8
  | .dataPacketReceive _ _ p _ _ => p.wellFormed
  | .mcastReceive _ _ p _ => p.wellFormed
  | .signalPacketReceive _ _ p => p.wellFormed
  | .abortReceive _ _ p => p.wellFormed
  | .ackReceive _ _ p _ => p.wellFormed
  | .mcastAckReceive _ _ p => p.wellFormed
  | .refuseReceive _ _ p => p.wellFormed
  | .fencedReceive _ _ p _ => p.wellFormed
  | .mgmtPacketReceive _ _ p => p.wellFormed
  | .mgmtStatus f => decide (f.length ≤ 8208)
  | .mgmtSetCap f => decide (f.length ≤ 8208)
  | .mgmtNap f => decide (f.length ≤ 8208)
  | .mgmtDark f => decide (f.length ≤ 8208)
  | .mgmtWake f => decide (f.length ≤ 8208)
  | .mgmtJobKill f => decide (f.length ≤ 8208)
  | .mgmtTelemetry f => decide (f.length ≤ 8208)
  | .mgmtObject f r => decide (f.length ≤ 8208) && r.rival.all ranked
  | _ => true

end Sys2Proof
end

