-- ==== Sys2Proof/Certificates/Slice0/Obligations.lean ====
section
/-! DEFINITION. What is claimed of the model: each definition is a statement left to be proved. A clause `Gives (exec c s) p`
says that the command answers a next state of which `p` holds. -/

open Sys2Proof Sys2Proof.Machine

/-- A step with a command at the front of the queue is exec of that command with the queue's rest;
95_what_each_step_holds.md. -/
def Obligations.StepRunsTheFrontCommand : Prop :=
  ∀ (c : Instr) (rest : List Instr) (s : State),
    step { s with pending := c :: rest } = exec c { s with pending := rest }

/-- The state right after reset has its memories and registers in canonical form; 00_scope.md. -/
def Obligations.ResetIsCanonical : Prop :=
  MemInv State.reset ∧ RegInv State.reset

/-- Every step keeps device memory and host memory in their canonical form; 01_module_overview.md,
95_what_each_step_holds.md. -/
def Obligations.EveryStepKeepsMemoryCanonical : Prop :=
  ∀ s t : State, MemInv s → step s = .next t → MemInv t

/-- Every step keeps every register within the width its table gives it; 00_scope.md, 95_what_each_step_holds.md. -/
def Obligations.EveryStepKeepsRegistersInWidth : Prop :=
  ∀ s t : State, RegInv s → step s = .next t → RegInv t

/-- Every step leaves the queue's rest, and a step on an empty queue lets one tick pass (the model's choice, log 7);
95_what_each_step_holds.md, 14_sidereal_ephemeris.md. -/
def Obligations.AStepTakesOneCommandFromTheQueue : Prop :=
  (∀ s : State, Gives (step s) fun t => t.pending = s.pending.tail) ∧
  (∀ s : State, s.pending = [] → powerState s ≠ pwrNap → powerState s ≠ pwrDark → s.bridge = [] →
    (∀ d : Die, (sidOf s d).slew = 0 ∧ (sidOf s d).rate = 0 ∧ (sidOf s d).rateAcc = 0) →
    Gives (step s) fun t =>
      now t 0 = (now s 0 + 1) % 2 ^ 64 ∧ now t 1 = (now s 1 + 1) % 2 ^ 64 ∧
      (s.cores = [] → s.ports = [] → Frame [.reg .sidCount, .sid, .clk] s t)) ∧
  (∀ s : State, s.pending = [] → (powerState s = pwrNap ∨ powerState s = pwrDark) → s.bridge = [] →
    Gives (step s) fun t => ∀ d : Die, now t d = (now s d / 160 + 1) * 160 % 2 ^ 64)

/-- After a module reset or POR the module is in Idle at 500 MHz on both dies and JOB_STATUS reads 0b00; R766. -/
def Obligations.PowerUpAndModuleResetEndInIdle : Prop :=
  (∀ (pins : PinLevels) (train : List (BitVec 8)) (s : State), RegInv s →
    Gives (exec (.por pins train) s) fun t =>
      powerState t = pwrIdle ∧ rf t F.clkStatus_freqMhz 0 0 = 500 ∧ rf t F.clkStatus_freqMhz 1 0 = 500 ∧
      jobState t = 0 ∧ jobRuns t = false) ∧
  (∀ (train : List (BitVec 8)) (s : State), RegInv s → s.host.powered = true → s.host.perstN = true →
    powerState s ≠ pwrDark →
    Gives (exec (.perstAssert train) s) fun t =>
      powerState t = pwrIdle ∧ rf t F.clkStatus_freqMhz 0 0 = 500 ∧ rf t F.clkStatus_freqMhz 1 0 = 500 ∧
      jobState t = 0 ∧ jobRuns t = false)

/-- POR, PERST_N edges, link resets and link up complete with the effects chapters 12 and 17 give them;
12_host_interface.md, 17_resets_states.md. -/
def Obligations.ResetsAndTheLinkComplete : Prop :=
  (∀ (pins : PinLevels) (train : List (BitVec 8)) (s : State), RegInv s →
    Gives (exec (.por pins train) s) fun t =>
      t.mem = [] ∧ t.cores = [] ∧ t.rings = [] ∧ t.cols = [] ∧ t.host.powered = true ∧ t.host.perstN = pins.perstN ∧
      t.host.linkUp = false ∧ t.host.rdybsyN = false) ∧
  (∀ (pins : PinLevels) (train : List (BitVec 8)) (s : State), RegInv s → s.host.powered = false →
    Gives (exec (.supplyRestart pins train) s) fun t =>
      t.mem = [] ∧ t.cores = [] ∧ t.rings = [] ∧ t.cols = [] ∧ t.host.powered = true ∧ t.host.perstN = pins.perstN ∧
      t.host.linkUp = false ∧ t.host.rdybsyN = false ∧ powerState t = pwrIdle) ∧
  (∀ (train : List (BitVec 8)) (s : State), s.host.powered = true → s.host.perstN = true → powerState s ≠ pwrDark →
    Gives (exec (.perstAssert train) s) fun t =>
      t.mem = [] ∧ t.cores = [] ∧ t.rings = [] ∧ t.cols = [] ∧ t.comps = [] ∧ t.events = [] ∧ t.routes = [] ∧
      t.host.perstN = false ∧ t.host.linkUp = false ∧ t.host.rdybsyN = false ∧ now t 0 = now s 0 ∧ now t 1 = now s 1) ∧
  (∀ (train : List (BitVec 8)) (s : State), s.host.powered = true → s.host.perstN = true → powerState s = pwrDark →
    Gives (exec (.perstAssert train) s) fun t =>
      t.host.perstN = false ∧ t.host.darkPerst = true ∧ t.mem = s.mem ∧ t.regs = s.regs) ∧
  (∀ (loc : BitVec 16) (cycles : Nat) (s : State), s.host.powered = true → s.host.perstN = false →
    let v := if 25 ≤ cycles then loc.toNat else rf s F.icuInputState_loc 0 0
    Gives (exec (.perstDeassert ⟨loc, cycles⟩) s) fun t =>
      t.host.perstN = true ∧
      (powerState s ≠ pwrDark → ∀ d : Die, rf t F.ctlDieInfo_moduleLocation d 0 = v) ∧
      (powerState s = pwrDark → t.regs = s.regs ∧ t.host.darkLoc = some v)) ∧
  (∀ s : State, RegInv s → s.host.powered = true → s.host.linkUp = true →
    Gives (exec .linkReset s) fun t =>
      t.host.linkUp = false ∧ t.host.rdybsyN = s.host.rdybsyN ∧ t.host.attention = s.host.attention ∧ (∀ (d : Die) (n : Fin 35), ringState t d n = ringDisabled) ∧
      (∀ e ∈ t.rings, (∀ d ∈ e.2.fetched, d.orphan = true) ∧ (∀ d ∈ e.2.active, d.orphan = true) ∧
        ∀ c ∈ e.2.toWrite, c.orphan = true) ∧
      jobState t = jobState s ∧ t.cores = s.cores ∧ t.cols = s.cols ∧ t.mem = s.mem) ∧
  (∀ (rate width : BitVec 4) (flit256 : Bool) (s : State), s.host.powered = true → s.host.perstN = true →
    s.host.linkUp = false → powerState s ≠ pwrDark →
    Gives (exec (.linkUp rate width flit256) s) fun t =>
      t.host.linkUp = true ∧ t.host.opened = true ∧ rf t F.hifStatus_rate 0 0 = rate.toNat ∧ rf t F.hifStatus_width 0 0 = width.toNat ∧
      rf t F.hifStatus_flit256 0 0 = flagBit flit256 ∧ rf t F.hifStatus_ready 0 0 = 1 ∧
      t.host.rdybsyN = s.host.restart.isNone) ∧
  (∀ s : State, s.host.restart ≠ none →
    Gives (exec .restartComplete s) fun t => t.host.restart = none ∧ t.host.rdybsyN = (s.host.perstN && s.host.opened) ∧ t.mem = s.mem) ∧
  (∀ s : State, memReaches s = true → jobRuns s = false → s.host.restart = none →
    Gives (exec .cxlReset s) fun t =>
      t.host.restart = some .device ∧ t.ctlCores = [] ∧ t.host.rdybsyN = false ∧ t.host.linkUp = true ∧ t.mem = s.mem ∧ t.regs = s.regs) ∧
  (∀ s : State, memReaches s = true → jobRuns s = true →
    Gives (exec .cxlReset s) fun t => t.host.linkUp = false ∧ t.host.restart = s.host.restart ∧ jobState t = jobState s ∧
      t.cores = s.cores) ∧
  (∀ s : State, memReaches s = true →
    Gives (exec .d3hotEntry s) fun t => t.host.d3hot = true ∧ powerState t = powerState s ∧ t.regs = s.regs) ∧
  (∀ s : State, s.host.powered = true → s.host.perstN = true → powerState s ≠ pwrDark →
    Gives (exec .configurationRequest s) fun t => t.answers.config = some (rflag s F.hifStatus_ready 0 0))

/-- A record takes the next sequence number and the stamp, and goes to the ephemeris ring, the hold store, or the count of
lost records; 14_sidereal_ephemeris.md R670, R671, R677 to R679. -/
def Obligations.RecordsAreNumberedAndKept : Prop :=
  ∀ (s : State) (die : Die) (code flags block unit payload : Nat), (ephOf s die).lostFirst = none →
    let t := emit s die code flags block unit payload
    let e := ephOf s die
    rd t .ephSeq die 0 = (rd s .ephSeq die 0 + 1) % 2 ^ 32 ∧
    (ephTakes e.held.length 1 code = true → e.held = [] → ringHasRoom s die 34 = true →
      ringHead t die 34 = (ringHead s die 34 + 1) % 2 ^ 32 ∧ ephOf t die = e) ∧
    (ephTakes e.held.length 1 code = true → (e.held ≠ [] ∨ ringHasRoom s die 34 = false) →
      (ephOf t die).held = e.held ++ [⟨code, !rflag s F.sidStatus_synced die 0, flags, rd s .ephSeq die 0, now s die, block, unit, payload⟩] ∧
      ringHead t die 34 = ringHead s die 34) ∧
    (ephTakes e.held.length 1 code = false →
      (ephOf t die).held = e.held ∧ (ephOf t die).lostFirst = some (rd s .ephSeq die 0) ∧
      rd t .ephLostCount die 0 = satAdd 32 (rd s .ephLostCount die 0) 1)

/-- A ring is configured only through its registers: bases and sizes are taken only at size 0, anything else is ignored
and counted; 12_host_interface.md R572, R574, R575, R774. -/
def Obligations.RingsAreConfiguredThroughTheirRegisters : Prop :=
  ∀ (die : Die) (n : Fin 35) (v : Nat) (ok : Bool) (mf : MemFaults) (s : State), writeActs s hostSender die = true →
    (ringSize s die n = 0 → Gives (exec (.registerWrite hostSender (regOffset .hifRingBase die n) 8 ⟨v, ok, mf, none⟩) s) fun t =>
      rd t .hifRingBase die n = writeValue s .hifRingBase 0 v % 2 ^ 64) ∧
    (ringSize s die n = 0 → n.val < 33 → Gives (exec (.registerWrite hostSender (regOffset .hifRingCpl die n) 8 ⟨v, ok, mf, none⟩) s) fun t =>
      rd t .hifRingCpl die n = writeValue s .hifRingCpl 0 v % 2 ^ 64) ∧
    (ringSize s die n ≠ 0 → Gives (exec (.registerWrite hostSender (regOffset .hifRingBase die n) 8 ⟨v, ok, mf, none⟩) s) fun t =>
      rd t .hifRingBase die n = rd s .hifRingBase die n ∧
      Counts s t F.hifConfigErrCount_count die 0 1 ∧ Recorded s t die) ∧
    (ringSize s die n ≠ 0 → n.val < 33 → Gives (exec (.registerWrite hostSender (regOffset .hifRingCpl die n) 8 ⟨v, ok, mf, none⟩) s) fun t =>
      rd t .hifRingCpl die n = rd s .hifRingCpl die n ∧
      Counts s t F.hifConfigErrCount_count die 0 1 ∧ Recorded s t die) ∧
    (33 ≤ n.val → Gives (exec (.registerWrite hostSender (regOffset .hifRingCpl die n) 8 ⟨v, ok, mf, none⟩) s) fun t =>
      rd t .hifRingCpl die n = rd s .hifRingCpl die n) ∧
    (ringSize s die n = 0 → ringState s die n = ringDisabled → ringSizeOk v = true →
      (ok = true ∨ s.host.reportOwed = none) →
      Gives (exec (.ringEnable die n ⟨v, ok⟩) s) fun t =>
        ringSize t die n = v ∧ ringState t die n = ringActive ∧ ringHead t die n = 0 ∧ ringTail t die n = 0 ∧
        ringDone t die n = 0) ∧
    (ringSize s 0 32 = 0 → ringState s 0 32 = ringDisabled → ringSizeOk v = true → s.host.reportOwed ≠ none →
      (Gives (exec (.ringEnable 0 32 ⟨v, true⟩) s) fun t => t.host.reportOwed = none) ∧
      (Gives (exec (.ringEnable 0 32 ⟨v, false⟩) s) fun t =>
        ringState t 0 32 = ringFaulted ∧ t.host.reportOwed = s.host.reportOwed ∧ t.hostMem = s.hostMem)) ∧
    (0 < v → v ≤ 65536 → (ringSize s die n ≠ 0 ∨ ringState s die n ≠ ringDisabled ∨ ringSizeOk v = false) →
      Gives (exec (.ringEnable die n ⟨v, ok⟩) s) fun t =>
        ringSize t die n = ringSize s die n ∧ ringState t die n = ringState s die n ∧ ringTail t die n = ringTail s die n ∧
        ringDone t die n = ringDone s die n ∧
        Counts s t F.hifConfigErrCount_count die 0 1 ∧ Recorded s t die) ∧
    (ringSize s die n ≠ 0 → Gives (exec (.ringDisable die n) s) fun t =>
      ringSize t die n = 0 ∧ ringTail t die n = ringTail s die n ∧ ringHead t die n = ringHead s die n ∧
      (33 ≤ n.val → ringState t die n = ringDisabled) ∧
      (n.val < 33 → ringState t die n =
        if (ringWork s die n).fetched = [] ∧ (ringWork s die n).active = [] ∧ (ringWork s die n).toWrite = [] then ringDisabled
        else ringDraining))

/-- A doorbell of a submission ring repeats the tail, is refused and counted with event 0x01, or becomes the tail; R577.
-/
def Obligations.ASubmissionDoorbellMovesTheTail : Prop :=
  ∀ (die : Die) (n : Fin 33) (v : BitVec 64) (s : State), writeReaches s hostSender die = true →
    let c := v.toNat % 2 ^ 32
    let tail := ringTail s die n
    let refused := fun t : State => ringTail t die n = tail ∧ ringHead t die n = ringHead s die n ∧
      Counts s t F.hifDbErrCount_count die 0 1 ∧ EventTold s t die 0x01 n c tail ∧
      Recorded s t die
    (ringState s die n = ringActive → v.toNat < 2 ^ 32 → c = tail → Gives (exec (.doorbell die n v) s) fun t =>
      ringTail t die n = tail ∧ rf t F.hifDbErrCount_count die 0 = rf s F.hifDbErrCount_count die 0 ∧ t.events = s.events ∧
      Recorded s t die) ∧
    (ringState s die n = ringActive → v.toNat < 2 ^ 32 → c ≠ tail →
      (2 ^ 31 ≤ sub32 c tail ∨ ringSize s die n < sub32 c (ringDone s die n)) →
      Gives (exec (.doorbell die n v) s) refused) ∧
    (ringState s die n = ringActive → v.toNat < 2 ^ 32 → c ≠ tail → sub32 c tail < 2 ^ 31 →
      sub32 c (ringDone s die n) ≤ ringSize s die n → Gives (exec (.doorbell die n v) s) fun t =>
      ringTail t die n = c ∧ rf t F.hifDbErrCount_count die 0 = rf s F.hifDbErrCount_count die 0 ∧ t.events = s.events ∧
      Recorded s t die) ∧
    ((ringState s die n ≠ ringActive ∨ 2 ^ 32 ≤ v.toNat) → Gives (exec (.doorbell die n v) s) refused)

/-- A consumer doorbell, a descriptor fetch and a completion write complete with their effects on the ring;
12_host_interface.md R576, R578, R580, R583, R585. -/
def Obligations.RingWorkCompletes : Prop :=
  (∀ (die : Die) (eph : Bool) (v : BitVec 64) (s : State), writeReaches s hostSender die = true →
    let n := if eph then 34 else 33
    let h := ringHead (asReached s hostSender die) die n
    (ringState s die n = ringActive → v.toNat < 2 ^ 32 → sub32 v.toNat (ringTail s die n) < 2 ^ 31 → sub32 h v.toNat < 2 ^ 31 →
      Gives (exec (.consumerDoorbell die eph v) s) fun t => ringTail t die n = v.toNat ∧ Recorded s t die) ∧
    ((ringState s die n ≠ ringActive ∨ 2 ^ 32 ≤ v.toNat ∨ 2 ^ 31 ≤ sub32 v.toNat (ringTail s die n) ∨
        2 ^ 31 ≤ sub32 h v.toNat) →
      Gives (exec (.consumerDoorbell die eph v) s) fun t => ringTail t die n = ringTail s die n ∧
        Counts s t F.hifDbErrCount_count die 0 1 ∧ Recorded s t die)) ∧
  (∀ (die : Die) (n : Fin 33) (b : Bytes) (s : State), ringState s die n = ringActive → hostReaches s = true →
    s.host.restart = none → controlRuns s = true → (ringWork s die n).fetched.length < 8 →
    ringHead s die n ≠ ringTail s die n →
    Gives (exec (.descriptorFetch die n (some b)) s) fun t =>
      ringHead t die n = (ringHead s die n + 1) % 2 ^ 32 ∧ Recorded s t die ∧
      (((ringWork s die n).fetched ++ [(⟨ringHead s die n, b, false⟩ : Desc)]).all (descKnown die n) = true →
        (ringWork t die n).fetched = (ringWork s die n).fetched ++ [(⟨ringHead s die n, b, false⟩ : Desc)])) ∧
  (∀ (die : Die) (n : Fin 33) (s : State), ringState s die n = ringActive → hostReaches s = true →
    s.host.restart = none → controlRuns s = true → (ringWork s die n).fetched.length < 8 →
    ringHead s die n ≠ ringTail s die n →
    Gives (exec (.descriptorFetch die n none) s) fun t =>
      ringState t die n = ringFaulted ∧ ringHead t die n = ringHead s die n ∧
      Counts s t F.hifFetchFaultCount_count die 0 1 ∧
      EventTold s t die 0x02 n ((ringWork s die n).base + ringHead s die n % (ringWork s die n).size * 64) 0) ∧
  (∀ (die : Die) (n : Fin 33) (c : Completion) (parity : List Nat) (s : State),
    (ringWork s die n).toWrite.find? (fun c => !c.held) = some c → c.kind ≠ 0x32 → s.heldWrites = [] → c.orphan = false →
    (ringWork s die n).faulted = false → (ringWork s die n).ahead = [] → ringDone s die n < 2 ^ 32 →
    Gives (exec (.completionWrite die n ⟨true, parity⟩) s) fun t =>
      ringDone t die n = (if c.k = ringDone s die n then (ringDone s die n + 1) % 2 ^ 32 else ringDone s die n) ∧
      Pends t die (if n.val < 32 then 0 else 1) (if n.val < 32 then n.val else 0) ∧ Recorded s t die)

/-- CXL.mem reads and writes move 64 bytes, are poisoned, dropped or refused as the rules say, and a back-invalidate lets
held writes land; 08_scratchpads.md R408, R409, 09_hbm.md R426 to R434, 01_module_overview.md R44. -/
def Obligations.CxlMemoryAccessesComplete : Prop :=
  (∀ (addr : Nat) (s : State), memReaches s = true → addr + 64 ≤ usableHbm s → jobState s ≠ 3 → inFarTable s addr 64 = false →
    hiddenIn s addr 64 = [] → addr ∉ s.poison → addr + 32 ∉ s.poison →
    Gives (exec (.cxlMemRead addr .clean .clean) s) fun t =>
      let die := (hbmPlace s addr).1 / 192
      t.answers.cxlData = memBytes t addr 64 ∧ t.answers.cxlPoison = false ∧ addr / 64 ∈ snoopOf t die ∧
      ((snoopOf s die).length < 2 ^ 20 → t.mem = s.mem) ∧ (powerState s = pwrNap → powerState t = pwrIdle)) ∧
  (∀ (addr : Nat) (s : State), memReaches s = true → addr + 64 ≤ usableHbm s → jobState s ≠ 3 → inFarTable s addr 64 = false →
    hiddenIn s addr 64 = [] → addr ∉ s.poison → addr + 32 ∉ s.poison →
    Gives (exec (.cxlMemRead addr (.failed false) .clean) s) fun t =>
      t.answers.cxlPoison = true ∧ t.answers.cxlData = memBytes t addr 64 ∧
      Counts s t F.hbmCxlPoisonCount_count (rowChan s addr).die 0 1) ∧
  (∀ (addr : Nat) (a b : ReadOutcome) (s : State), memReaches s = true → usableHbm s ≤ addr →
    Gives (exec (.cxlMemRead addr a b) s) fun t =>
      t.answers.cxlData = List.replicate 64 0 ∧ t.answers.cxlPoison = true ∧ t.mem = s.mem ∧ Recorded (wakeFree s) t 0) ∧
  (∀ (addr : Nat) (a b : ReadOutcome) (s : State), memReaches s = true → addr < usableHbm s → jobState s ≠ 3 →
    inFarTable s addr 64 = false → hiddenIn s addr 64 ≠ [] →
    Gives (exec (.cxlMemRead addr a b) s) fun t =>
      t.answers.cxlData = List.replicate 64 0 ∧ Recorded (wakeFree s) t 0 ∧ Pends t 0 8 5) ∧
  (∀ (addr : Nat) (a b : ReadOutcome) (s : State), memReaches s = true → addr < usableHbm s → jobState s = 3 →
    Gives (exec (.cxlMemRead addr a b) s) fun t => t.answers.cxlData = List.replicate 64 0) ∧
  (∀ (addr : Nat) (data : Bytes) (s : State), memReaches s = true → data.length = 64 → addr < usableHbm s → jobState s ≠ 3 →
    inFarTable s addr 64 = false → hiddenIn s addr 64 = [] →
    Gives (exec (.cxlMemWrite addr ⟨data, .none⟩) s) fun t =>
      (∀ i < 64, Map.getD t.mem (addr + i) 0 = data.getD i 0) ∧ MemSameOutside s t addr 64 ∧
      addr ∉ t.poison ∧ addr + 32 ∉ t.poison) ∧
  (∀ (addr : Nat) (data : CxlWrite) (s : State), memReaches s = true → (usableHbm s ≤ addr ∨ jobState s = 3) →
    Gives (exec (.cxlMemWrite addr data) s) fun t => t.mem = s.mem ∧ Recorded (wakeFree s) t 0) ∧
  (∀ (addr : Nat) (data : CxlWrite) (s : State), memReaches s = true → addr < usableHbm s → jobState s ≠ 3 →
    inFarTable s addr 64 = false → hiddenIn s addr 64 ≠ [] →
    Gives (exec (.cxlMemWrite addr data) s) fun t => t.mem = s.mem ∧ Recorded (wakeFree s) t 0 ∧ Pends t 0 8 5) ∧
  (∀ (die : Die) (line : Nat) (s : State), line ∈ snoopOf s die → (s.heldWrites.any fun w => w.1 = line) = true →
    Gives (exec (.backInvalidateResponse die line) s) fun t =>
      line ∉ snoopOf t die ∧ (∀ w ∈ t.heldWrites, w.1 ≠ line) ∧
      (∀ a, (∀ w ∈ s.heldWrites, w.1 = line → ∀ e ∈ w.2, e.1 ≠ a) → Map.getD t.mem a 0 = Map.getD s.mem a 0) ∧
      (∀ w : Nat × Map Byte, (s.heldWrites.filter fun x => x.1 = line) = [w] → Map.rising w.2 = true →
        ∀ e ∈ w.2, Map.getD t.mem e.1 0 = e.2))

/-- A register write sets, keeps, clears or raises each field as its access code says; 00_scope.md R20. -/
def Obligations.FieldsAreWrittenByTheirAccessCodes : Prop :=
  ∀ (s : State) (r : Reg) (old new : Nat), ∀ f ∈ r.info.fields,
    let o := bits old f.hi f.lo
    let n := bits new f.hi f.lo
    bits (writeValue s r old new) f.hi f.lo =
      match f.access with
      | .rw => n
      | .ro => o
      | .wo => o
      | .w1c => o &&& (2 ^ (f.hi - f.lo + 1) - 1 - n)
      | .w1s => o ||| n
      | .rwl => if ownerLocked s then o else n
      | .rwp => if presenceLatched s then n else o

/-- A register write takes effect by its access codes or is refused with a record; an unassigned access reads 0 or is
ignored; 00_scope.md R18 to R20, 12_host_interface.md R604, R856, 13_control_complex.md R616, R618,
17_resets_states.md R763. -/
def Obligations.RegisterAccessesComplete : Prop :=
  (∀ (b : Sender) (offset size v die u : Nat) (r : Reg) (ok : Bool) (mf : MemFaults) (s : State), regAt offset = some (r, die, u) → r.info.width = 8 * size →
    r ∉ ruledRegs → writeReaches s b die = true → (rflag s F.truStatus_recovery 0 0 = false ∨ r.info.blk = .tru) →
    (r.info.homing ≠ .shared ∨ die = 0) →
    let s1 := asReached s b die
    (lockReason s1 r = none → blockReason s1 r v = none → Gives (exec (.registerWrite b offset size ⟨v, ok, mf, none⟩) s) fun t =>
      rd t r die u = writeValue s1 r (rd s1 r die u) v % 2 ^ r.info.width ∧
      ∀ r' d u', r' ≠ r → rd t r' d u' = rd s1 r' d u') ∧
    ((lockReason s1 r ≠ none ∨ blockReason s1 r v ≠ none) → Gives (exec (.registerWrite b offset size ⟨v, ok, mf, none⟩) s) fun t =>
      rd t r die u = rd s1 r die u ∧ Recorded s1 t die ∧ t.mem = s.mem)) ∧
  (∀ (b : Sender) (bar2 : Bool) (offset size v : Nat) (s : State),
    let die := if bar2 then bar2Die offset else bar0Die offset
    writeReaches s b die = true → isAssigned bar2 offset size = false →
    (Gives (exec (.unassignedAccess b bar2 false offset size v) s) fun t =>
      t.answers.bus = 0 ∧ Recorded (asReached s b die) t die ∧ t.mem = s.mem) ∧
    (Gives (exec (.unassignedAccess b bar2 true offset size v) s) fun t =>
      t.answers.bus = s.answers.bus ∧ Recorded (asReached s b die) t die ∧ t.mem = s.mem)) ∧
  (∀ (offset size : Nat) (bar2 isWrite : Bool) (value : BusWrite) (v : Nat) (s : State), value.timer = none →
    unsupportedYet s = true → hostReaches s = false →
    let u : State := { s with answers := { s.answers with unsupported := s.answers.unsupported + 1 } }
    exec (.registerWrite hostSender offset size value) s = .next u ∧
    exec (.unassignedAccess hostSender bar2 isWrite offset size v) s = .next u) ∧
  (∀ (offset size : Nat) (value : BusWrite) (s : State), value.timer = none → bar0Die offset = 1 →
    exec (.registerWrite ⟨.firmware, 0⟩ offset size value) s = .next s) ∧
  (∀ (die : Die) (offset size : Nat) (value : BusWrite) (c : Fin 8) (s : State), value.timer = some c → s.host.powered = true →
    Gives (exec (.registerWrite ⟨.firmware, die⟩ offset size value) s) fun t =>
      mtimecmp t die c = value.value ∧ t.regs = s.regs ∧ t.mem = s.mem ∧
      (timerPending t die c = true ↔ value.value ≤ now s die) ∧
      ∀ (d : Die) (x : Fin 8), (d ≠ die ∨ x ≠ c) → mtimecmp t d x = mtimecmp s d x)

/-- A command that names a register's write does what the register write at that register's offset does;
95_what_each_step_holds.md, 01_module_overview.md R52. -/
def Obligations.NamedWritesAreRegisterWrites : Prop :=
  ∀ (m : Sender) (die : Die) (ok : Bool) (mf : MemFaults) (s : State),
    (∀ v : BitVec 32, v.toNat.testBit 4 = false →
      exec (.epochSet m die v) s = exec (.registerWrite m (regOffset .fabRouteCtrl die 0) 4 ⟨v.toNat, ok, mf, none⟩) s) ∧
    (∀ v : BitVec 32, v.toNat.testBit 4 = true →
      exec (.epochCommit m die v) s = exec (.registerWrite m (regOffset .fabRouteCtrl die 0) 4 ⟨v.toNat, ok, mf, none⟩) s) ∧
    (∀ v : BitVec 64, exec (.sidSet m die v) s = exec (.registerWrite m (regOffset .sidSet die 0) 8 ⟨v.toNat, ok, mf, none⟩) s) ∧
    (∀ (g : Fin 32) (v : BitVec 32),
      exec (.icuPendWrite m die g v 0) s = exec (.registerWrite m (regOffset .icuPend die g) 4 ⟨v.toNat, ok, mf, none⟩) s) ∧
    (∀ (g : Fin 32) (v : BitVec 32),
      exec (.icuMaskWrite m die g v) s = exec (.registerWrite m (regOffset .icuMask die g) 4 ⟨v.toNat, ok, mf, none⟩) s) ∧
    (∀ (src : Fin 1024) (v : BitVec 32),
      exec (.icuTargetWrite m die src v) s = exec (.registerWrite m (regOffset .icuTarget die src) 4 ⟨v.toNat, ok, mf, none⟩) s) ∧
    (∀ slot : Fin 4, exec (.companionStart m die ⟨slot, mf⟩) s = exec (.registerWrite m (regOffset .ctlCompCtrl die slot) 4 ⟨1, ok, mf, none⟩) s) ∧
    (∀ slot : Fin 4, exec (.companionStop m die slot) s = exec (.registerWrite m (regOffset .ctlCompCtrl die slot) 4 ⟨2, ok, mf, none⟩) s) ∧
    (∀ (n : Fin 35) (v : Nat),
      exec (.ringEnable die n ⟨v, ok⟩) s = exec (.registerWrite hostSender (regOffset .hifRingSize die n) 4 ⟨v, ok, mf, none⟩) s) ∧
    (∀ n : Fin 35, exec (.ringDisable die n) s = exec (.registerWrite hostSender (regOffset .hifRingSize die n) 4 ⟨0, ok, mf, none⟩) s)

/-- Writes of the routing epoch, SID_SET and the interrupt controller take effect where their rules allow and are refused
with a record where not; 11_fabric.md R529, 14_sidereal_ephemeris.md R684, 13_control_complex.md R634 to R640, R646.
-/
def Obligations.RuledRegisterWritesComplete : Prop :=
  ∀ (m : Sender) (die : Die) (s : State), writeActs s m die = true →
    let s1 := asReached s m die
    (∀ v : BitVec 32, jobRuns s1 = false → (∀ p < 16, rd s1 .fabPortOutstanding die p = 0) →
      (Gives (exec (.epochCommit m die v) s) fun t =>
        rf t F.fabRouteCtrl_epoch die 0 = bits v.toNat 3 0 ∧ rf t F.fabRouteCtrl_routeValid die 0 = 1) ∧
      (Gives (exec (.epochSet m die v) s) fun t =>
        rf t F.fabRouteCtrl_epoch die 0 = bits v.toNat 3 0 ∧ rf t F.fabRouteCtrl_routeValid die 0 = 0)) ∧
    (∀ v : BitVec 32, jobRuns s1 = true →
      (Gives (exec (.epochCommit m die v) s) fun t => rd t .fabRouteCtrl die 0 = rd s1 .fabRouteCtrl die 0 ∧ Recorded s1 t die) ∧
      (Gives (exec (.epochSet m die v) s) fun t => rd t .fabRouteCtrl die 0 = rd s1 .fabRouteCtrl die 0 ∧ Recorded s1 t die)) ∧
    (∀ v : BitVec 64, rflag s1 F.sidCtrl_master 0 0 = true → jobRuns s1 = false → now s1 die < v.toNat →
      Gives (exec (.sidSet m die v) s) fun t => now t die = v.toNat) ∧
    (∀ v : BitVec 64, (rflag s1 F.sidCtrl_master 0 0 = false ∨ jobRuns s1 = true ∨ v.toNat ≤ now s1 die) →
      Gives (exec (.sidSet m die v) s) fun t => now t die = now s1 die ∧ Recorded s1 t die) ∧
    (∀ (g : Fin 32) (v same : BitVec 32), (m.master ≠ .host ∨ firmwareBits s1 die g = 0) →
      Gives (exec (.icuPendWrite m die g v same) s) fun t =>
        icuPend t die g = (v.toNat ||| same.toNat) &&& icuValid die g ||| (if g = 1 ∧ (ephOf s1 die).held ≠ [] then 8 else 0)) ∧
    (∀ (g : Fin 32) (v : BitVec 32),
      Gives (exec (.icuMaskWrite m die g v) s) fun t =>
        icuMask t die g = limited m.master (firmwareBits s1 die g) (icuMask s1 die g) v.toNat &&& icuValid die g) ∧
    (∀ (src : Fin 1024) (v : BitVec 32), bitOf (icuValid die (src / 32)) (src % 32) = true →
      (bits v.toNat 5 4 ≠ 3 → bitOf (icuMask s1 die (src / 32)) (src % 32) = true →
        (m.master ≠ .host ∨ (bits v.toNat 5 4 ≠ 1 ∧ bits (rd s1 .icuTarget die src) 5 4 ≠ 1)) →
        Gives (exec (.icuTargetWrite m die src v) s) fun t =>
          rd t .icuTarget die src = bits v.toNat 5 4 * 16 + bits v.toNat 2 0) ∧
      ((bits v.toNat 5 4 = 3 ∨ bitOf (icuMask s1 die (src / 32)) (src % 32) = false ∨
        (m.master = .host ∧ (bits v.toNat 5 4 = 1 ∨ bits (rd s1 .icuTarget die src) 5 4 = 1))) →
        Gives (exec (.icuTargetWrite m die src v) s) fun t =>
          rd t .icuTarget die src = rd s1 .icuTarget die src ∧ Recorded s1 t die))

/-- INSTALL fills a slot, RUN takes the core to its start check, LAYERS fills the layer table; each refuses and is empty
as its rules say; 05_core_streams_replay.md R240 to R246, 07_parameter_update.md R336 to R339, 12_host_interface.md
R587, R598. -/
def Obligations.CoreDescriptorsComplete : Prop :=
  ∀ (c : CoreRef) (d : Desc) (s s1 : State),
    let k := coreKey c
    (takeDesc s c.die c.core (fun d => d.type = 0x10) = some (d, s1) → reservedOk d [(8, 1), (16, 8), (24, 4)] = true →
      d.at_ 8 1 < 16 → addrOk (d.at_ 16 8) = true → d.at_ 24 4 < 2 ^ 19 → streamRangeOk k (d.at_ 16 8) (d.at_ 24 4) = true →
      (coreRefuses s1 k = false → ((coreOf s1 k).runDesc = none ∨ seqSlot s1 k ≠ d.at_ 8 1) →
        (d.at_ 24 4 = 0 → Gives (exec (.install c .none) s) fun t =>
          Completed t c.die c.core d stEmpty ∧ t.mem = s.mem) ∧
        (d.at_ 24 4 ≠ 0 → readsWell s1 (d.at_ 16 8) (32 * d.at_ 24 4) → hiddenIn s1 (d.at_ 16 8) (32 * d.at_ 24 4) = [] →
          (scanFrom s1 k Scan.start 0 (bundlesOf (memBytes s1 (d.at_ 16 8) (32 * d.at_ 24 4)))).fault = none →
          Gives (exec (.install c .none) s) fun t =>
            slotBase t k (d.at_ 8 1) = d.at_ 16 8 % 2 ^ 64 ∧ slotInstalled t k (d.at_ 8 1) = true ∧
            slotBundles t k (d.at_ 8 1) = d.at_ 24 4 ∧
            slotCrc t k (d.at_ 8 1) = crc32 (memBytes s (d.at_ 16 8) (32 * d.at_ 24 4)) % 2 ^ 32 ∧
            CompletedWith t c.die c.core d stOk (d.at_ 24 4) ∧ t.mem = s.mem)) ∧
      (coreRefuses s1 k = true → Gives (exec (.install c .none) s) fun t =>
        Completed t c.die c.core d stRefused ∧ t.cores = s.cores ∧ t.mem = s.mem)) ∧
    (takeDesc s c.die c.core (fun d => d.type = 0x11) = some (d, s1) → reservedOk d [(8, 1)] = true → d.at_ 8 1 < 16 →
      (coreRefuses s1 k = false → slotInstalled s1 k (d.at_ 8 1) = true →
        runChecks s1 k [] (Map.getD (coreOf s1 k).inherited (d.at_ 8 1) []) = true →
        Gives (exec (.run c) s) fun t =>
          (coreOf t k).runDesc = some d.k ∧ (coreOf t k).bundle = 0 ∧ (coreOf t k).prevCycle = 0 ∧ seqState t k = seqStartCheck ∧
          seqSlot t k = d.at_ 8 1 ∧ d ∈ (ringWork t c.die c.core).active ∧ t.mem = s.mem) ∧
      ((coreRefuses s1 k = true ∨ slotInstalled s1 k (d.at_ 8 1) = false) → Gives (exec (.run c) s) fun t =>
        Completed t c.die c.core d stRefused ∧ t.cores = s.cores ∧ t.mem = s.mem)) ∧
    (takeDesc s c.die c.core (fun d => d.type = 0x12) = some (d, s1) → reservedOk d [(8, 1), (10, 2), (16, 8)] = true →
      d.at_ 10 2 < 2 ^ 9 → d.at_ 8 1 + d.at_ 10 2 ≤ 256 → addrOk (d.at_ 16 8) = true → d.at_ 16 8 % 64 = 0 →
      rangeIn s1 (d.at_ 16 8) (128 * d.at_ 10 2) (reachUpd k) = true →
      (coreRefuses s1 k = false → (coreOf s1 k).runDesc = none →
        (d.at_ 10 2 = 0 → Gives (exec (.layers c .none) s) fun t => Completed t c.die c.core d stEmpty ∧ t.mem = s.mem) ∧
        (d.at_ 10 2 ≠ 0 → readsWell s1 (d.at_ 16 8) (128 * d.at_ 10 2) → hiddenIn s1 (d.at_ 16 8) (128 * d.at_ 10 2) = [] →
          ((List.range (d.at_ 10 2)).all fun i => layerOk s1 k (memBytes s1 (d.at_ 16 8 + 128 * i) 128)) = true →
          Gives (exec (.layers c .none) s) fun t =>
            mapBytes (coreOf t k).layers (128 * d.at_ 8 1) (128 * d.at_ 10 2) = memBytes s (d.at_ 16 8) (128 * d.at_ 10 2) ∧
            (∀ a, (a < 128 * d.at_ 8 1 ∨ 128 * (d.at_ 8 1 + d.at_ 10 2) ≤ a) →
              Map.getD (coreOf t k).layers a 0 = Map.getD (coreOf s k).layers a 0) ∧
            CompletedWith t c.die c.core d stOk (d.at_ 10 2) ∧ t.mem = s.mem)) ∧
      ((coreRefuses s1 k = true ∨ (coreOf s1 k).runDesc ≠ none) → Gives (exec (.layers c .none) s) fun t =>
        Completed t c.die c.core d stRefused ∧ t.cores = s.cores ∧ t.mem = s.mem))

/-- A stream starts at cycle 0 at a replay point, marks place points, each cycle counts one, and the stream completes with
OK or ends with DATA_LOST; 05_core_streams_replay.md R247 to R251, R257 to R263, R270, R271, R290, R851. -/
def Obligations.StreamsStartMarkAndComplete : Prop :=
  (∀ (c : CoreRef) (rk : Nat) (s : State),
    let k := coreKey c
    (coreOf s k).runDesc = some rk → seqState s k = seqStartCheck → (coreOf s k).bundle = 0 → (coreOf s k).buffer = [] →
    ((coreOf s k).crc = 0xFFFF_FFFF → streamReads s k →
      Gives (exec (.streamStart c .none []) s) fun t =>
        (∃ p, (coreOf t k).point = some p ∧ p.bundle = 0 ∧ p.cycle = 0 ∧ p.attempts = 0 ∧ p.redo = []) ∧
        (coreOf t k).guards = [] ∧ counter t k = 0 ∧ seqState t k = seqRunning ∧ (coreOf t k).runDesc = some rk ∧
        Recorded s t c.die) ∧
    (streamCount s k ≠ 0 → (coreOf s k).fetchCycle + (bundleOf (bundleWord s k 0)).delta < 4096 →
      failRow s .none (streamBase s k) 32 ≠ none →
      Gives (exec (.streamStart c .none []) s) fun t => StreamEnded s t k stDataLost)) ∧
  (∀ (c : CoreRef) (s : State),
    let k := coreKey c
    issues s k = true → (nextBundle s k).mark = true → (coreOf s k).markDone = false →
    Gives (exec (.replayPoint c) s) fun t =>
      (∃ p, (coreOf t k).point = some p ∧ p.marked = true ∧ p.bundle = (coreOf s k).bundle ∧ p.cycle = counter s k ∧
        p.regs = snapshotRegs s k ∧ p.attempts = 0 ∧ p.signalsSent = 0 ∧ p.waitsReleased = 0) ∧
      (coreOf t k).guards = [] ∧ counter t k = counter s k) ∧
  (∀ (s : State) (k : Nat), mayLeave s k = true →
    let s' := cycleWork [] s k
    ((coreOf s' k).detected ≠ [] → cycleStep s k = s) ∧
    ((coreOf s' k).detected = [] → (coreOf s' k).freeze = [] → (coreOf s' k).runDesc ≠ none →
      counter (cycleStep s k) k = (counter s k + 1) % 2 ^ 64 ∧
      ∀ a < 4, (arrayOf (cycleStep s k) k a).clock = (arrayOf s k a).clock + 1)) ∧
  (∀ (c : CoreRef) (s : State),
    let k := coreKey c
    (coreOf s k).runDesc ≠ none → streamDone s k = true →
    Gives (exec (.streamComplete c) s) fun t => StreamEnded s t k stOk ∧ t.mem = s.mem)

/-- A FEED writes the lines it moves into the operand buffer in order, whether it reads at its due cycle or ahead of it;
03_matrix_arrays.md R120, R124, R131, R132, 05_core_streams_replay.md R262, R273, R278, R282. -/
def Obligations.FeedsFillTheOperandBuffer : Prop :=
  (∀ (c : CoreRef) (w late : Nat) (s : State),
    let k := coreKey c
    let f := Feed.of w
    nextWide s k engArray = some w → opcodeOf w = 1 →
    ((f.moves = false ∨ feedArrived (coreOf s k) (coreOf s k).bundle = true) →
      Gives (exec (.feed c late .none) s) fun t =>
        WideIssued s t k ∧ (arrayOf t k f.array).opbuf = (arrayOf s k f.array).opbuf ∧ t.mem = s.mem) ∧
    (f.moves = true → feedArrived (coreOf s k) (coreOf s k).bundle = false →
      ((∀ r ∈ (coreOf s k).feeds, r.bundle ≠ (coreOf s k).bundle) → feedReadsWell s f →
        Gives (exec (.feed c late .none) s) fun t =>
          (arrayOf t k f.array).opbuf =
            (feedLines s f).foldl (fun m e => putBytes m (64 * e.1) e.2) (arrayOf s k f.array).opbuf ∧
          WideIssued s t k ∧ t.mem = s.mem ∧ (0 < late → .feedLate late ∈ (coreOf t k).freeze ∧ seqState t k = seqFrozen)) ∧
      (∀ r, (coreOf s k).feeds.find? (fun r => r.bundle = (coreOf s k).bundle) = some r →
        Gives (exec (.feed c late .none) s) fun t =>
          (arrayOf t k f.array).opbuf = r.lines.foldl (fun m e => putBytes m (64 * e.1) e.2) (arrayOf s k f.array).opbuf ∧
          WideIssued s t k ∧ t.mem = s.mem))) ∧
  (∀ (c : CoreRef) (bundle : Nat) (p : Placed) (f : Feed) (s : State),
    let k := coreKey c
    runs s k = true → bundleDue s k = false → (feedsOwed s k).find? (fun x => x.1.index = bundle) = some (p, f) →
    feedReadsWell s f →
    Gives (exec (.feedReadIssue c bundle .none) s) fun t =>
      (∃ r, (coreOf t k).feeds = (coreOf s k).feeds ++ [r] ∧ r.bundle = bundle ∧ r.array = f.array ∧ r.lines = feedLines s f) ∧
      (coreOf t k).arrays = (coreOf s k).arrays ∧ (coreOf t k).bundle = (coreOf s k).bundle ∧ t.mem = s.mem)

/-- MLOAD starts the load of the next tile, or waits at the interlock; PLATE binds its rows and sets their fresh bits;
neither touches memory; 03_matrix_arrays.md R121, R140, R141, R145, R149, R160, 04_accumulation_drain.md R179 to R185.
-/
def Obligations.TilesAndPlatesComplete : Prop :=
  (∀ (c : CoreRef) (w : Nat) (s : State),
    let k := coreKey c
    let m := Mload.of w
    let a := arrayOf s k m.array
    let bcast := decide (pathStatus s k m.array = 1)
    nextWide s k engArray = some w → opcodeOf w = 2 →
    (loadStart a a.clock ≤ a.clock →
      Gives (exec (.mload c .none .none) s) fun t =>
        let b := arrayOf t k m.array
        b.pendingTile = some (newTile (a.lastLoad + 1) w (degradeNow s (coreOf s k) m) bcast) ∧ b.loadCycle = a.clock ∧
        (∃ l ∈ b.loads, l.id = a.lastLoad + 1 ∧ l.word = w ∧ l.bundle = (coreOf s k).bundle ∧ l.starts = [(a.clock, bcast)] ∧
          l.checks = []) ∧
        b.active = a.active ∧ b.acc = a.acc ∧ b.opbuf = a.opbuf ∧ WideIssued s t k ∧ t.mem = s.mem) ∧
    (a.clock < loadStart a a.clock →
      Gives (exec (.mload c .none .none) s) fun t =>
        (coreOf t k).interlocked = some ⟨(loadStart a a.clock - a.clock).toNat⟩ ∧
        seqState t k = seqFrozen ∧ (coreOf t k).bundle = (coreOf s k).bundle ∧ (coreOf t k).arrays = (coreOf s k).arrays)) ∧
  (∀ (c : CoreRef) (w : Nat) (s : State),
    let k := coreKey c
    let p := Plate.of w
    nextWide s k engAcc = some w → opcodeOf w = 1 → p.n ≤ 128 →
    (p.acts = true → Gives (exec (.plate c) s) fun t =>
      WideIssued s t k ∧ t.mem = s.mem ∧
      (∀ i < p.m, Map.find (arrayOf t k p.array).bound (p.accRow + i) = some p.binding) ∧
      (∀ r, (r < p.accRow ∨ p.accRow + p.m ≤ r) →
        Map.find (arrayOf t k p.array).bound r = Map.find (arrayOf s k p.array).bound r) ∧
      (∀ i < p.m, ∀ col < p.n, entryOf (arrayOf t k p.array) (p.accRow + i) col =
        { entryOf (arrayOf s k p.array) (p.accRow + i) col with fresh := p.init }) ∧
      (∀ r col, col < 128 → (r < p.accRow ∨ p.accRow + p.m ≤ r ∨ p.n ≤ col) →
        entryOf (arrayOf t k p.array) r col = entryOf (arrayOf s k p.array) r col)) ∧
    (p.acts = false → Gives (exec (.plate c) s) fun t => WideIssued s t k ∧ arrayOf t k p.array = arrayOf s k p.array))

/-- Each of the seven MPASS operations starts its pass with the tile made active, and each cell of a pass is merged in its
write cycle; 03_matrix_arrays.md R122, R125, R126, R136 to R139, R143, R149, R154, 04_accumulation_drain.md R178,
R185, R186. -/
def Obligations.EveryPassOperationMergesItsCells : Prop :=
  (∀ (c : CoreRef) (i : Instr) (op w : Nat) (s : State),
    (i, op) ∈ [(Instr.mpassMac c .none, 0), (.mpassL1 c .none, 1), (.mpassL2sq c .none, 2), (.mpassMinplus c .none, 3),
      (.mpassMaxplus c .none, 4), (.mpassMaxmin c .none, 5), (.mpassMatch c .none, 6)] →
    let k := coreKey c
    let p := Mpass.of w
    let a := arrayOf s k p.array
    let start := passStart s k p.array a.clock (intervalOf p.fmt)
    nextPass s k op = some w →
    ((p.m = 0 ∨ a.tile.n = 0) → Gives (exec i s) fun t => WideIssued s t k ∧ arrayOf t k p.array = a) ∧
    (p.m ≠ 0 → a.tile.n ≠ 0 →
      (start ≤ a.clock → Gives (exec i s) fun t =>
        let b := arrayOf t k p.array
        b.active = a.tile ∧ b.pendingTile = none ∧ b.lastPass = some ⟨a.clock, p.m, intervalOf p.fmt, a.tile.kRows, a.tile.n⟩ ∧
        (∃ r, b.passes = a.passes ++ [r] ∧ r.bundle = (coreOf s k).bundle ∧ r.word = w ∧ r.start = a.clock ∧ r.tile = a.tile ∧
          r.bound = a.bound ∧ r.got = []) ∧
        b.acc = a.acc ∧ b.opbuf = a.opbuf ∧ WideIssued s t k ∧ t.mem = s.mem) ∧
      (a.clock < start → Gives (exec i s) fun t =>
        (coreOf t k).interlocked = some ⟨(start - a.clock).toNat⟩ ∧ seqState t k = seqFrozen ∧
        (coreOf t k).bundle = (coreOf s k).bundle ∧ (coreOf t k).arrays = (coreOf s k).arrays))) ∧
  (∀ (a : ArrayState) (r : PassRun) (point cycle : Nat), a.passes = [r] → r.tile.n ≤ 128 →
    let p := r.pass
    let b := mergeDue a point cycle
    (∀ m n, (m, n) ∈ r.due a.clock →
      entryOf b (p.accRow + m) n =
        entryOf (mergeEntry ⟨redOf p.op, r.tile.k, p.clear, isIntFmt p.fmt, r.bundle, decide (point ≤ r.bundle)⟩ r.bound a
          (p.accRow + m) n (r.sum m n) cycle (a.clock + 8)) (p.accRow + m) n) ∧
    (∀ row col, col < 128 → (∀ m n, (m, n) ∈ r.due a.clock → (row, col) ≠ (p.accRow + m, n)) →
      entryOf b row col = entryOf a row col) ∧ b.opbuf = a.opbuf) ∧
  (∀ (r : PassRun) (x : Int) (m n : Nat),
    (m, n) ∈ r.due x ↔
      m < r.pass.m ∧ n < r.tile.n ∧ (r.tile.k ≠ 0 ∨ r.pass.clear = true) ∧
      x = r.start + m * intervalOf r.pass.fmt + r.tile.kRows + n + 7 + (intervalOf r.pass.fmt - 1 : Nat))

/-- The sum of an integer pass is the exact reduction of the exact products, in 32-bit two's complement;
03_matrix_arrays.md R154, R156, 02_number_formats.md R113. -/
def Obligations.IntegerPassesAreExact : Prop :=
  ∀ (fmt pw : Nat) (row col : List Nat),
    let xs := operandInts fmt row
    let ys := operandInts fmt col
    sumBits 0 pw true fmt fmt row [] col [] false = codeOf 32 ((List.zipWith (· * ·) xs ys).sum) ∧
    sumBits 1 pw true fmt fmt row [] col [] false = codeOf 32 ((List.zipWith (fun x y => ((x - y).natAbs : Int)) xs ys).sum) ∧
    sumBits 2 pw true fmt fmt row [] col [] false = codeOf 32 ((List.zipWith (fun x y => (x - y) ^ 2) xs ys).sum) ∧
    sumBits 6 pw true fmt fmt row [] col [] false = codeOf 32 ((List.zipWith (fun x y => if x = y then (1 : Int) else 0) xs ys).sum) ∧
    (row ≠ [] → col ≠ [] →
      (∃ v, sumBits 3 pw true fmt fmt row [] col [] false = codeOf 32 v ∧ v ∈ List.zipWith (· + ·) xs ys ∧
        ∀ z ∈ List.zipWith (· + ·) xs ys, v ≤ z) ∧
      (∃ v, sumBits 4 pw true fmt fmt row [] col [] false = codeOf 32 v ∧ v ∈ List.zipWith (· + ·) xs ys ∧
        ∀ z ∈ List.zipWith (· + ·) xs ys, z ≤ v) ∧
      (∃ v, sumBits 5 pw true fmt fmt row [] col [] false = codeOf 32 v ∧ v ∈ List.zipWith min xs ys ∧
        ∀ z ∈ List.zipWith min xs ys, z ≤ v))

/-- A drain starts under its binding and each of its rows empties its cells and writes only its plate row; a spill writes
only its plate entry; 04_accumulation_drain.md R187 to R194, R204 to R213, R230, R233. -/
def Obligations.DrainsAndSpillsComplete : Prop :=
  (∀ (c : CoreRef) (w : Nat) (s : State),
    let k := coreKey c
    let d := Drain.of w
    let a := arrayOf s k d.array
    nextWide s k engAcc = some w → opcodeOf w = 2 →
    (d.acts = false → Gives (exec (.drain c .clean) s) fun t => WideIssued s t k ∧ t.mem = s.mem) ∧
    (d.acts = true → arrayDone a (counter s k) ≤ a.clock → ∀ b, Map.find a.bound d.accRow = some b →
      Gives (exec (.drain c .clean) s) fun t =>
        let a' := arrayOf t k d.array
        (∃ r, a'.drains = a.drains ++ [r] ∧ r.bundle = (coreOf s k).bundle ∧ r.word = w ∧ r.start = a.clock ∧ r.binding = b ∧
          r.tag = counter s k % 2 ^ 28 ∧ r.redo = redoing (coreOf s k) (counter s k)) ∧
        a'.drainDone = a.clock + d.m ∧ a'.acc = a.acc ∧ a'.bound = a.bound ∧ WideIssued s t k ∧ t.mem = s.mem) ∧
    (d.acts = true → a.clock < arrayDone a (counter s k) →
      Gives (exec (.drain c .clean) s) fun t =>
        (coreOf t k).interlocked = some ⟨(arrayDone a (counter s k) - a.clock).toNat⟩ ∧ seqState t k = seqFrozen ∧
        (coreOf t k).bundle = (coreOf s k).bundle ∧ (coreOf t k).arrays = (coreOf s k).arrays)) ∧
  (∀ (s : State) (k a i : Nat) (r : DrainRun),
    let d := Drain.of r.word
    let t := drainOne s k a r i
    d.n ≤ 128 →
    (∀ col < d.n, let e := entryOf (arrayOf t k a) (d.accRow + i) col
      e.empty = true ∧ e.tally = 0 ∧ e.fresh = false) ∧
    (∀ row col, col < 128 → (row ≠ d.accRow + i ∨ d.n ≤ col) → entryOf (arrayOf t k a) row col = entryOf (arrayOf s k a) row col) ∧
    MemSameOutside s t (plateAddr k r.binding (d.accRow + i) 0) (16 * d.n)) ∧
  (∀ (s : State) (k a : Nat) (r : DrainRun),
    let addr := coreBase k + (Drain.of r.word).aux
    snoopedIn s addr 16 = [] →
    memBytes (drainEnd s k a r) addr 16 = leBytes 2 (r.sum.flags r.redo) ++ leBytes 14 r.sum.body ∧
    MemSameOutside s (drainEnd s k a r) addr 16) ∧
  (∀ (c : CoreRef) (array : Fin 4) (p : PendingSpill) (s : State),
    let k := coreKey c
    let a := arrayOf s k array
    let addr := plateAddr k p.binding p.row p.col
    let e := entryOf a p.row p.col
    (coreOf s k).runDesc ≠ none → (coreOf s k).freeze = [] → (coreOf s k).replaying = none →
    firstSpill a.spills = some p → p.due ≤ a.clock → spillsInto s k none addr 16 p.cycle = [] → readsWell s addr 16 →
    Gives (exec (.spill c array .clean) s) fun t =>
      (arrayOf t k array).spills = a.spills.erase p ∧ (entryOf (arrayOf t k array) p.row p.col).fresh = false ∧
      MemSameOutside s t addr 16 ∧
      (redoing (coreOf s k) p.cycle = false → snoopedIn s addr 16 = [] →
        memBytes t addr 16 = (foldPlate (PlateEntry.ofBytes (memBytes s addr 16)) e.fresh (decide (leNat (memBytes s addr 16) = 0))
          p.binding.integer p.reduction.toNat p.value.toNat p.tally (tagOf p.cycle)).toBytes p.binding.integer))

/-- Each element instruction and CVT that is due starts, its groups write their results in their cycles, and its
exceptions join VEC_FLAGS at its end; 06_vector_engine.md R298, R303 to R308, R311, R321 to R325. -/
def Obligations.ElementInstructionsComplete : Prop :=
  (∀ (c : CoreRef) (er : EngineRun) (i : Instr) (op w : Nat) (r : Ranges) (s : State),
    (i, op) ∈ [(Instr.add c er, 1), (.sub c er, 2), (.mul c er, 3), (.fma c er, 4), (.div c er, 5), (.sqrt c er, 6),
      (.min c er, 7), (.max c er, 8), (.abs c er, 9), (.neg c er, 10), (.elemCopy c er, 11), (.cmplt c er, 12),
      (.cmpeq c er, 13)] →
    let k := coreKey c
    VecDue s k clsElem op w r →
    (vecIdle w = true → Gives (exec i s) fun t => WideIssued s t k ∧ t.mem = s.mem ∧ t.regs = s.regs) ∧
    (VecStarts s k w r → Gives (exec i s) fun t => VecStarted s t k w er) ∧
    (vecIdle w = false → (coreOf s k).vec.clock < vecStart (coreOf s k) w r (coreOf s k).vec.clock →
      Gives (exec i s) fun t => VecWaits s t k w r)) ∧
  (∀ (c : CoreRef) (er : EngineRun) (i : Instr) (op w : Nat) (r : Ranges) (s : State),
    (i, op) ∈ [(Instr.cvt c er, 0)] →
    let k := coreKey c
    VecDue s k clsCvt op w r →
    (vecIdle w = true → Gives (exec i s) fun t => WideIssued s t k ∧ t.mem = s.mem ∧ t.regs = s.regs) ∧
    (VecStarts s k w r → Gives (exec i s) fun t => VecStarted s t k w er) ∧
    (vecIdle w = false → (coreOf s k).vec.clock < vecStart (coreOf s k) w r (coreOf s k).vec.clock →
      Gives (exec i s) fun t => VecWaits s t k w r)) ∧
  (∀ (s : State) (k : Nat) (r : VecRun), r.failed = none → s.snoop = [] →
    let o := r.outAt s k (coreOf s k).vec.clock
    let t := vecWrite k s r
    t.mem = o.writes.foldl (fun m w => putBytes m (coreBase k + w.1) w.2) s.mem ∧
    (coreOf t k).vec = (coreOf s k).vec.change { r with exc := r.exc ||| o.exc.bits, nonfinite := r.nonfinite || o.nonfinite }) ∧
  (∀ (s : State) (k w : Nat), (Vec.of w).cls = clsElem → (Vec.of w).fmt ∈ [1, 2, 3, 4] → 0 < (Vec.of w).count →
    let whole := elemOut s k w 0 (Vec.of w).count
    let group := fun g => elemOut s k w (groupFrom w g) (groupFrom w (g + 1))
    let groups := List.range (vecGroups w)
    (∀ g < vecGroups w, (group g).writes.map (·.1) = [(Vec.of w).dst + elemBytes (Vec.of w).fmt (g * (vecTime w).rate)]) ∧
    (groups.flatMap fun g => (group g).writes.flatMap (·.2)) = whole.writes.flatMap (·.2) ∧
    groups.foldl (fun a g => a ||| (group g).exc.bits) 0 = whole.exc.bits ∧
    (groups.any fun g => (group g).nonfinite) = whole.nonfinite) ∧
  (∀ (s : State) (k : Nat) (r : VecRun), (Vec.of r.word).cls ∈ [clsElem, clsCvt] →
    let t := vecFinish k s r
    rdCore t .vecFlags k = (rdCore s .vecFlags k ||| r.exc) % 2 ^ 32 ∧ t.mem = s.mem ∧
    Counts s t F.vecNonfiniteCount_count (k / 24) (k % 24) (flagBit r.nonfinite) ∧
    (r.nonfinite = true → (coreOf t k).flags = setFlag (coreOf s k).flags flagNonfinite))

/-- Each special function and row instruction that is due starts, or waits for its start rule, and its exceptions join
VEC_FLAGS at its end; 06_vector_engine.md R303, R312 to R317, R321 to R325. -/
def Obligations.SpecialAndRowInstructionsComplete : Prop :=
  (∀ (c : CoreRef) (er : EngineRun) (i : Instr) (op w : Nat) (r : Ranges) (s : State),
    (i, op) ∈ [(Instr.exp2 c er, 1), (.exp c er, 2), (.log2 c er, 3), (.log c er, 4), (.rcp c er, 5), (.rsqrt c er, 6),
      (.tanh c er, 7), (.sigmoid c er, 8), (.sin c er, 9), (.cos c er, 10), (.erf c er, 11)] →
    let k := coreKey c
    VecDue s k clsSfu op w r →
    (vecIdle w = true → Gives (exec i s) fun t => WideIssued s t k ∧ t.mem = s.mem ∧ t.regs = s.regs) ∧
    (VecStarts s k w r → Gives (exec i s) fun t => VecStarted s t k w er) ∧
    (vecIdle w = false → (coreOf s k).vec.clock < vecStart (coreOf s k) w r (coreOf s k).vec.clock →
      Gives (exec i s) fun t => VecWaits s t k w r)) ∧
  (∀ (c : CoreRef) (er : EngineRun) (i : Instr) (op w : Nat) (r : Ranges) (s : State),
    (i, op) ∈ [(Instr.rmax c er, 1), (.rmin c er, 2), (.rsum c er, 3), (.rsumsq c er, 4), (.rscale c er, 5), (.rsub c er, 6),
      (.cadd c er, 7), (.cmul c er, 8)] →
    let k := coreKey c
    VecDue s k clsRow op w r →
    (vecIdle w = true → Gives (exec i s) fun t => WideIssued s t k ∧ t.mem = s.mem ∧ t.regs = s.regs) ∧
    (VecStarts s k w r → Gives (exec i s) fun t => VecStarted s t k w er) ∧
    (vecIdle w = false → (coreOf s k).vec.clock < vecStart (coreOf s k) w r (coreOf s k).vec.clock →
      Gives (exec i s) fun t => VecWaits s t k w r)) ∧
  (∀ (s : State) (k : Nat) (r : VecRun), (Vec.of r.word).cls ∈ [clsSfu, clsRow] →
    let t := vecFinish k s r
    rdCore t .vecFlags k = (rdCore s .vecFlags k ||| r.exc) % 2 ^ 32 ∧ t.mem = s.mem ∧
    Counts s t F.vecNonfiniteCount_count (k / 24) (k % 24) (flagBit r.nonfinite) ∧
    (r.nonfinite = true → (coreOf t k).flags = setFlag (coreOf s k).flags flagNonfinite))

/-- SETR, LOADR, STORER and INCR start and move their registers as they complete; IROOT starts and writes its matrix and
status record last; 06_vector_engine.md R310, R318 to R321, R325. -/
def Obligations.RegisterMovesAndRootsComplete : Prop :=
  (∀ (c : CoreRef) (er : EngineRun) (i : Instr) (op w : Nat) (r : Ranges) (s : State),
    (i, op) ∈ [(Instr.setr c er, 1), (.loadr c er, 2), (.storer c er, 3), (.incr c er, 4)] →
    let k := coreKey c
    VecDue s k clsMovr op w r →
    (vecIdle w = true → Gives (exec i s) fun t => WideIssued s t k ∧ t.mem = s.mem ∧ t.regs = s.regs) ∧
    (VecStarts s k w r → Gives (exec i s) fun t => VecStarted s t k w er) ∧
    (vecIdle w = false → (coreOf s k).vec.clock < vecStart (coreOf s k) w r (coreOf s k).vec.clock →
      Gives (exec i s) fun t => VecWaits s t k w r)) ∧
  (∀ (c : CoreRef) (er : EngineRun) (i : Instr) (op w : Nat) (r : Ranges) (s : State),
    (i, op) ∈ [(Instr.irootSqrt c er, 2), (.irootFourth c er, 4)] →
    let k := coreKey c
    VecDue s k clsIroot op w r →
    (vecIdle w = true → Gives (exec i s) fun t => WideIssued s t k ∧ t.mem = s.mem ∧ t.regs = s.regs) ∧
    (VecStarts s k w r → Gives (exec i s) fun t => VecStarted s t k w er) ∧
    (vecIdle w = false → (coreOf s k).vec.clock < vecStart (coreOf s k) w r (coreOf s k).vec.clock →
      Gives (exec i s) fun t => VecWaits s t k w r)) ∧
  (∀ (s : State) (k : Nat) (r : VecRun), (Vec.of r.word).cls = clsMovr →
    let v := Vec.of r.word
    let reg := movrTarget r.word
    let t := vecFinish k s r
    t.mem = s.mem ∧
    (v.op = 1 → rdCore t reg k = (if movrReg r.word = 9 then v.imm % 32 else v.imm) % 2 ^ reg.info.width) ∧
    (v.op = 2 → ∀ b : Bytes, b.length = 8 → r.got = [(0, [(coreBase k + v.srcA, b)])] →
      rdCore t reg k = leNat b % 2 ^ reg.info.width) ∧
    (v.op = 3 → rdCore t reg k = rdCore s reg k) ∧
    (v.op = 4 → rdCore t reg k =
      (rdCore s reg k / 2 ^ 32 * 2 ^ 32 + (rdCore s reg k + v.imm) % 2 ^ 32) % 2 ^ reg.info.width)) ∧
  (∀ (s0 s : State) (k : Nat) (r : VecRun),
    let v := Vec.of r.word
    v.cls = clsMovr → v.op = 3 → movrReg r.word < 8 → r.regs = vecRegsNow s0 k r.word → r.failed = none → (coreOf s k).vec.clock = r.start + 2 →
    (snoopedIn s (coreBase k + v.dst) 8 = [] →
      memBytes (vecWrite k s r) (coreBase k + v.dst) 8 = leBytes 8 (rdCore s0 (scalarReg (movrReg r.word)) k)) ∧
    MemSameOutside s (vecWrite k s r) (coreBase k + v.dst) 8) ∧
  (∀ (s : State) (k : Nat) (r : VecRun), (Vec.of r.word).cls = clsIroot → (Iroot.of r.word).n ≠ 0 →
    let last := r.start + (vecTime r.word).busy - 1
    let all := (irootOut (vecView s r (vecGroups r.word)) k r.word 0).writes
    (r.outAt s k last).writes = all.drop (all.length - 1) ∧ ∀ x, last < x → (r.outAt s k x).writes = [])

/-- Sums, differences, products and fused multiply-adds of finite values are exact before their one rounding;
02_number_formats.md R86, 06_vector_engine.md R304. -/
def Obligations.ElementArithmeticIsExact : Prop :=
  ∀ (rnd : Rnd) (n1 n2 n3 : Bool) (m1 m2 m3 : Nat) (e1 e2 e3 : Int),
    let a := Num.fin n1 m1 e1
    let b := Num.fin n2 m2 e2
    let d := Num.fin n3 m3 e3
    (∀ q : Int, q ≤ e1 → q ≤ e2 →
      (∃ n m e, opAdd rnd a b = Exact.of (.fin n m e) ∧ (Num.fin n m e).unitsAt q = a.unitsAt q + b.unitsAt q) ∧
      (∃ n m e, opSub rnd a b = Exact.of (.fin n m e) ∧ (Num.fin n m e).unitsAt q = a.unitsAt q - b.unitsAt q)) ∧
    (∀ q r : Int, q ≤ e1 → r ≤ e2 →
      (∃ n m e, opMul a b = Exact.of (.fin n m e) ∧ (Num.fin n m e).unitsAt (q + r) = a.unitsAt q * b.unitsAt r) ∧
      (q + r ≤ e3 → ∃ n m e, opFma rnd a b d = Exact.of (.fin n m e) ∧
        (Num.fin n m e).unitsAt (q + r) = a.unitsAt q * b.unitsAt r + d.unitsAt (q + r)))

/-- A value that a binary format holds rounds to its own code in every mode, without an exception; 02_number_formats.md
R64, R65, R68, R85, R86. -/
def Obligations.RepresentableValuesRoundToThemselves : Prop :=
  ∀ f ∈ [fmtB64, fmtB32, fmtB16, fmtNf16, fmtW36], ∀ (rnd : Rnd) (sr code : Nat), code < 2 ^ (1 + f.ebits + f.fbits) →
    (decodeFloat f code).isNan = false →
    (f.flush = true → (code >>> f.fbits) % 2 ^ f.ebits = 0 → code % 2 ^ f.fbits = 0) →
    roundExact f rnd sr (Exact.of (decodeFloat f code)) = ⟨code, Exc.none⟩

/-- An interlock release, a resumed freeze and the watchdog end the wait of a core with its slip cycles counted;
05_core_streams_replay.md R250 to R252, R261 to R269, R852. -/
def Obligations.FrozenCoresGoOn : Prop :=
  (∀ (c : CoreRef) (wait : Nat) (s : State),
    let k := coreKey c
    let s' := interlockSteps k wait s
    (coreOf s k).interlocked = some ⟨wait⟩ → (coreOf s k).freeze = [] → (coreOf s k).detected = [] → (coreOf s k).replaying = none →
    slipTooLong s k wait = false →
    ((coreOf s' k).interlocked = some ⟨0⟩ → (coreOf s' k).freeze = [] →
      Gives (exec (.interlockRelease c) s) fun t =>
        (coreOf t k).interlocked = none ∧ (coreOf t k).freeze = [] ∧ seqState t k = seqRunning ∧ t.mem = s'.mem) ∧
    ((coreOf s k).runDesc ≠ none → ((coreOf s k).arrays.all fun e => e.2.idle) = true → (coreOf s k).vec.runs = [] →
      (coreOf s k).upd.run = none →
      Gives (exec (.interlockRelease c) s) fun t =>
        (coreOf t k).interlocked = none ∧ seqState t k = seqRunning ∧ (coreOf t k).bundle = (coreOf s k).bundle ∧
        Counts s t F.seqSlipCycles_cycles (k / 24) (k % 24) wait ∧ t.mem = s.mem)) ∧
  (∀ (c : CoreRef) (n : Nat) (s : State),
    let k := coreKey c
    (coreOf s k).freeze ≠ [] → (coreOf s k).replaying = none →
    (∀ f ∈ (coreOf s k).freeze, f ≠ .waitHeld ∧ f ≠ .waitOver ∧ f.isSnoop = false) →
    slipTooLong s k (knownSlip (coreOf s k)) = false →
    Gives (exec (.coreResume c n) s) fun t =>
      (coreOf t k).freeze = [] ∧ (coreOf s k).bundle ≤ (coreOf t k).bundle ∧
      ((coreOf s k).interlocked = none → seqState t k = seqRunning) ∧ (coreOf t k).interlocked = (coreOf s k).interlocked ∧
      ((coreOf s k).interlocked ≠ none → (coreOf t k).bundle = (coreOf s k).bundle) ∧
      Counts s t F.seqSlipCycles_cycles (k / 24) (k % 24) (knownSlip (coreOf s k)) ∧ t.mem = s.mem) ∧
  (∀ (c : CoreRef) (n : Nat) (s : State),
    let k := coreKey c
    .waitOver ∈ (coreOf s k).freeze → (coreOf s k).replaying = none →
    (∀ f ∈ (coreOf s k).freeze, f = .waitOver) → (coreOf s k).interlocked = none →
    Gives (exec (.coreResume c n) s) fun t =>
      (coreOf t k).freeze = [] ∧ seqState t k = seqRunning ∧ Counts s t F.seqWaitCycles_cycles (k / 24) (k % 24) n ∧
      rf t F.seqSlipCycles_cycles (k / 24) (k % 24) = rf s F.seqSlipCycles_cycles (k / 24) (k % 24)) ∧
  (∀ (c : CoreRef) (l : Nat) (s : State),
    let k := coreKey c
    slipLimit s k = some l → (coreOf s k).runDesc ≠ none → (coreOf s k).replaying = none → 0 < knownSlip (coreOf s k) →
    l < (coreOf s k).slipRun + knownSlip (coreOf s k) →
    Gives (exec (.watchdogTimeout c) s) fun t => StreamEnded s t k stTimeout ∧ t.mem = s.mem)

/-- A replay restores the point's registers and counts an attempt, a fourth failure or a broken window ends the stream,
and the core resumes at the point; 05_core_streams_replay.md R271, R273, R274, R280 to R287, R851, R853,
04_accumulation_drain.md R231. -/
def Obligations.ReplaysRestoreTheirPoint : Prop :=
  (∀ (c : CoreRef) (fails : List Failure) (arrived : List Nat) (p : ReplayPt) (x : Failure) (s : State),
    let k := coreKey c
    let s' := cycleWork (fails.map (·.bundle)) s k
    let all := (coreOf s' k).detected ++ fails
    let u := landArrived (countFrozen s' k (knownSlip (coreOf s' k)) 0) k p arrived
    (coreOf s k).runDesc ≠ none → (coreOf s k).replaying = none → (coreOf s k).point ≠ none →
    (∀ f ∈ (coreOf s k).freeze, f.isSnoop = true ∨ f = .waitHeld ∨ f = .waitOver) → (∀ x ∈ fails, failureOk s k x = true) →
    ((coreOf s k).interlocked ≠ none ∨ bundleDue s k = false) →
    (coreOf s' k).runDesc ≠ none → slipTooLong s' k (knownSlip (coreOf s' k)) = false →
    (coreOf s' k).point = some p → namedFailure all = some x →
    (replayEnds u k p x.cycle all = none → Gives (exec (.replay c ⟨fails, arrived, .none, []⟩) s) fun t =>
      (coreOf t k).replaying = some x.cycle ∧ (∀ f ∈ (coreOf t k).freeze, f.isSnoop = true) ∧ seqState t k = seqPause ∧
      (∃ q, (coreOf t k).point = some q ∧ q.attempts = p.attempts + 1 ∧ q.bundle = p.bundle ∧ q.cycle = p.cycle ∧
        q.skipSignals = p.signalsSent ∧ q.skipWaits = p.waitsReleased ∧
        ∀ r ∈ snapRegs, rdCore t r k = (Map.getD q.regs (regKey r (k / 24) (k % 24)) 0).toNat % 2 ^ r.info.width) ∧
      Counts s t F.seqReplayCount_replays (k / 24) (k % 24) 1) ∧
    (∀ st, replayEnds u k p x.cycle all = some st → Gives (exec (.replay c ⟨fails, arrived, .none, []⟩) s) fun t =>
      StreamEnded s t k st ∧ rf t F.seqReplayCount_replays (k / 24) (k % 24) = rf s F.seqReplayCount_replays (k / 24) (k % 24))) ∧
  (∀ (s : State) (k f : Nat) (p : ReplayPt) (fails : List Failure),
    (((∃ x ∈ fails, x.bundle < p.bundle) ∨ p.cycle + 2 ^ 27 ≤ f ∨ intact (coreOf s k) = false) →
      replayEnds s k p f fails = some stReplayLost) ∧
    ((∀ x ∈ fails, p.bundle ≤ x.bundle) → f < p.cycle + 2 ^ 27 → intact (coreOf s k) = true →
      replayEnds s k p f fails = if p.attempts = 3 then some stDataLost else none)) ∧
  (∀ (c : CoreRef) (n f : Nat) (p : ReplayPt) (s : State),
    let k := coreKey c
    (coreOf s k).runDesc ≠ none → (coreOf s k).replaying = some f → (coreOf s k).point = some p → (coreOf s k).detected = [] →
    snoopHeld s (coreOf s k) = false → streamReads s k → p.bundle ≤ streamCount s k →
    p.crc = (memBytes s (streamBase s k) (32 * p.bundle)).foldl crc32Byte 0xFFFF_FFFF →
    2048 ≤ n → (coreOf s k).pauseWork ≤ n → (∀ e ∈ (coreOf s k).arrays, tilePause e.2 ≤ n) →
    Gives (exec (.replayResume c ⟨n, .none, []⟩) s) fun t =>
      (coreOf t k).replaying = none ∧ p.bundle ≤ (coreOf t k).bundle ∧ seqState t k = seqRunning ∧
      counter t k = p.cycle % 2 ^ 64 ∧ (coreOf t k).flags = setFlag (coreOf s k).flags flagRecomputed ∧
      (coreOf t k).arrays = (coreOf s k).arrays ∧ t.mem = s.mem)

/-- A stream's SIGNAL joins the queue and is sent in order, its WAIT goes to its object and holds the core, and GUARD
declares a range; 10_sync_collectives.md R460 to R468, 05_core_streams_replay.md R275, R276, R282. -/
def Obligations.CoreSignalsWaitsAndGuardsComplete : Prop :=
  (∀ (c : CoreRef) (w : Nat) (s : State),
    let k := coreKey c
    let core := coreOf s k
    let r := signalOf w (k % 24)
    nextNarrow s k 1 = some w →
    (r.increment = 0 → Gives (exec (.signal c) s) fun t => NarrowIssued s t k ∧ (coreOf t k).signals = core.signals) ∧
    (r.increment ≠ 0 → (∀ p, core.point = some p → p.skipSignals = 0) → Gives (exec (.signal c) s) fun t =>
      NarrowIssued s t k ∧ ∃ o, (coreOf t k).signals = core.signals ++ [(r, o)] ∧ o.bundle = core.bundle) ∧
    (∀ p, r.increment ≠ 0 → core.point = some p → 0 < p.skipSignals → Gives (exec (.signal c) s) fun t =>
      NarrowIssued s t k ∧ (coreOf t k).signals = core.signals ∧
      (coreOf t k).point = some { p with skipSignals := p.skipSignals - 1 })) ∧
  (∀ (c : CoreRef) (r : SignalReq) (o : OutCmd) (rest : List (SignalReq × OutCmd)) (s : State),
    let k := coreKey c
    let dest := servingDie r.far r.index (r.endpoint % 2)
    (coreOf s k).runDesc ≠ none → (coreOf s k).replaying = none → (coreOf s k).signals = (r, o) :: rest →
    completedBefore s k o.bundle = true →
    Gives (exec (.signalSend c) s) fun t =>
      (coreOf t k).signals = rest ∧
      (r.increment ≠ 0 → r.endpoint / 2 = location s → (r.far = true → r.index < farCount s) →
        ∃ m : SignalMsg, m.far = r.far ∧ m.index = r.index ∧ m.increment = r.increment ∧
          if dest = c.die then (syncOf t dest).signals = (syncOf s dest).signals ++ [m] ∧ t.bridge = s.bridge
          else t.sync = s.sync ∧ t.bridge = s.bridge ++ [⟨dest, now s c.die, now s dest + bridgeTicks, .signal m⟩])) ∧
  (∀ (c : CoreRef) (word : Nat) (s : State),
    let k := coreKey c
    let core := coreOf s k
    let w := waitOf word (now s c.die) (.core k)
    nextNarrow s k 2 = some word →
    ((∀ p, core.point = some p → p.skipWaits = 0) → w.target = 0 → Gives (exec (.wait c) s) fun t =>
      NarrowIssued s t k ∧ Counts s t F.synReleaseCount_count c.die 0 1 ∧ t.sync = s.sync) ∧
    ((∀ p, core.point = some p → p.skipWaits = 0) → w.target ≠ 0 → Gives (exec (.wait c) s) fun t =>
      let d := servingDie w.far w.index c.die
      NarrowIssued s t k ∧ .waitHeld ∈ (coreOf t k).freeze ∧ seqState t k = seqFrozen ∧
      if d = c.die then
        (syncOf t d).arriving = (syncOf s d).arriving ++ [{ w with arrival := now s d + lMinDie }] ∧ t.bridge = s.bridge
      else t.sync = s.sync ∧ t.bridge = s.bridge ++ [⟨d, now s c.die, now s d + bridgeTicks, .wait w⟩]) ∧
    (∀ p, core.point = some p → 0 < p.skipWaits → Gives (exec (.wait c) s) fun t =>
      NarrowIssued s t k ∧ t.sync = s.sync ∧ (coreOf t k).point = some { p with skipWaits := p.skipWaits - 1 })) ∧
  (∀ (c : CoreRef) (w : Nat) (s : State),
    let k := coreKey c
    let old := Map.find (coreOf s k).guards (bits w 59 56)
    nextNarrow s k 3 = some w →
    (bits w 19 0 = 0 → Gives (exec (.guard c) s) fun t => NarrowIssued s t k ∧ Map.find (coreOf t k).guards (bits w 59 56) = none) ∧
    (bits w 19 0 ≠ 0 → Gives (exec (.guard c) s) fun t => NarrowIssued s t k ∧
      Map.find (coreOf t k).guards (bits w 59 56) = some ⟨bits w 55 20 * 4096, bits w 19 0 * 4096,
        (match old with | some g => g.armed | none => false), (match old with | some g => g.hit | none => false)⟩))

/-- An object adds the SIGNALs of a cycle and stops at its largest value; a WAIT joins, is released at its target, or
times out; 10_sync_collectives.md R464 to R467. -/
def Obligations.ObjectsCountSignalsAndReleaseWaits : Prop :=
  (∀ (die : Die) (m : SignalMsg) (mf : MemFaults) (s : State),
    let o : SyncObj := Map.getD (syncOf s die).near m.index ⟨0, 0, 0⟩
    nextSignal s die = some m → m.far = false → isGrant s die false m.index = false →
    ((syncOf s die).signals.filter fun x => x.far = false && x.index = m.index && x.arrival / 2 = m.arrival / 2
      && decide (x.arrival ≤ now s die)) = [m] → heldAt s die m.index = [] →
    Gives (exec (.signalApply die mf) s) fun t =>
      Map.find (syncOf t die).near m.index = some ⟨min (o.count + m.increment) (2 ^ 32 - 1), m.src, m.sent⟩ ∧
      (syncOf t die).signals = (syncOf s die).signals.erase m ∧ Counts s t F.synSignalCount_count die 0 1) ∧
  (∀ (die : Die) (w : WaitReq) (mf : MemFaults) (s : State),
    let o : SyncObj := Map.getD (syncOf s die).near w.index ⟨0, 0, 0⟩
    nextArriving s die = some w → w.far = false → heldAt s die w.index = [] →
    (w.target ≤ o.count → w.overdue (now s die) = false → Gives (exec (.waitArrive die mf) s) fun t =>
      heldAt t die w.index = [] ∧ Counts s t F.synReleaseCount_count die 0 1 ∧
      (Map.getD (syncOf t die).near w.index ⟨0, 0, 0⟩).count = if w.consume then o.count - w.target else o.count) ∧
    ((o.count < w.target ∨ w.overdue (now s die) = true) → w.bound ≠ 0 → Gives (exec (.waitArrive die mf) s) fun t =>
      heldAt t die w.index = [w] ∧ Map.getD (syncOf t die).near w.index ⟨0, 0, 0⟩ = o ∧
      (syncOf t die).arriving = (syncOf s die).arriving.erase w) ∧
    (o.count < w.target → w.bound = 0 → Gives (exec (.waitArrive die mf) s) fun t =>
      heldAt t die w.index = [] ∧ Counts s t F.synTimeoutCount_count die 0 1)) ∧
  (∀ (die : Die) (i n : Nat) (w : WaitReq) (s : State),
    let key := objKey w.far w.index
    (boundedWaits s die)[i]? = some w → w.issued + w.bound * 256_000 ≤ now s die →
    ((∀ k, w.waiter ≠ .core k) ∨ waiterDie w.waiter ≠ die) →
    Gives (exec (.waitTimeout die ⟨i, n⟩) s) fun t =>
      heldAt t die key = (heldAt s die key).erase w ∧ (syncOf t die).near = (syncOf s die).near ∧
      (syncOf t die).arriving =
        (if w ∈ heldAt s die key then (syncOf s die).arriving else (syncOf s die).arriving.erase w) ∧
      Counts s t F.synTimeoutCount_count die 0 1 ∧
      (waiterDie w.waiter ≠ die → t.bridge = s.bridge ++ [⟨1 - die, now s die, now s (1 - die) + bridgeTicks, .timeout w.waiter⟩])) ∧
  (∀ (die : Die) (i k n : Nat) (w : WaitReq) (s : State),
    (boundedWaits s die)[i]? = some w → w.issued + w.bound * 256_000 ≤ now s die → w.waiter = .core k → k / 24 = die →
    (coreOf s k).runDesc ≠ none →
    Gives (exec (.waitTimeout die ⟨i, n⟩) s) fun t => StreamEnded s t k stTimeout ∧ Counts s t F.synTimeoutCount_count die 0 1)

/-- An update command starts or waits, writes its groups and its header in their cycles, and counts what it froze; the
Almanac answers its value; 07_parameter_update.md R343 to R361, R368 to R371. -/
def Obligations.UpdatesAndAlmanacComplete : Prop :=
  (∀ (c : CoreRef) (er : EngineRun) (i : Instr) (op w : Nat) (s : State),
    (i, op) ∈ [(Instr.update c er, 1), (.uroot c er, 2)] →
    let k := coreKey c
    let u := Upd.of w
    let l := layerOf s k u.layer
    let v := (coreOf s k).upd
    let wait := updWait (coreOf s k) u.isRoot
    nextWide s k engUpd = some w → opcodeOf w = op →
    (u.count = 0 → Gives (exec i s) fun t => WideIssued s t k ∧ t.mem = s.mem) ∧
    (u.count ≠ 0 → wait = 0 → Gives (exec i s) fun t =>
      WideIssued s t k ∧ t.mem = s.mem ∧ (coreOf t k).upd.done = v.clock + updTime u l ∧
      ∃ r, (coreOf t k).upd.run = some r ∧ r.bundle = (coreOf s k).bundle ∧ r.word = w ∧ r.start = v.clock ∧ r.er = er) ∧
    (u.count ≠ 0 → 0 < wait → Gives (exec i s) fun t =>
      (coreOf t k).interlocked = some ⟨wait⟩ ∧ seqState t k = seqFrozen ∧ t.mem = s.mem ∧
      (coreOf t k).bundle = (coreOf s k).bundle ∧ (coreOf t k).upd = v)) ∧
  (∀ (s : State) (k : Nat) (r : UpdRun),
    let l := layerOf s k r.upd.layer
    let n := if l.isMatrix then r.upd.count * (l.b * l.b) else r.upd.count
    let t := updFinish s k r
    l.frozen = true →
    (∀ bad, (coreOf s k).upd.run = some r → (updWork bad s k).mem = s.mem) ∧ t.mem = s.mem ∧
    Counts s t F.updFrozenCount_count (k / 24) (k % 24) n ∧
    (n ≠ 0 → (coreOf t k).flags = setFlag (coreOf s k).flags flagFrozenSkipped)) ∧
  (∀ (s : State) (k g : Nat) (r : UpdRun), s.snoop = [] → r.er.mf.writeFails = [] →
    let l := layerOf s k r.upd.layer
    (updWriteGroup s k r g).mem =
      (if r.upd.isRoot then (urootGroup (updView s r) r.upd l (r.const k l).a g).writes
        else (updateGroup (updView s r) k r.upd l (r.const k l) (Header.of (r.oldHeader l)).valid g).writes).foldl
          (fun m w => putBytes m w.1 w.2) s.mem) ∧
  (∀ (s : State) (k : Nat) (r : UpdRun),
    let l := layerOf s k r.upd.layer
    let t := updWriteHeader s k r
    snoopedIn s l.hdrBase 64 = [] → r.er.mf.writeFails = [] →
    MemSameOutside s t l.hdrBase 64 ∧
    (r.upd.isRoot = false → r.upd.final = true →
      leNat (memBytes t l.hdrBase 8) = min (leNat (mapBytes r.got l.hdrBase 8) + 1) (2 ^ 64 - 1) ∧
      memBytes t (l.hdrBase + 9) 7 = mapBytes r.got (l.hdrBase + 9) 7 ∧
      memBytes t (l.hdrBase + 16) 48 = mapBytes r.got (l.hdrBase + 16) 48) ∧
    (r.upd.isRoot = false → r.upd.final = false → t = s)) ∧
  (∀ (die : Die) (slot : Fin 16) (step : BitVec 64) (s : State), almEnabled s slot = true → step ≠ 0 →
    Gives (exec (.almanacRequest die slot step) s) fun t =>
      t.answers.almanac = code32 (almanac s slot step.toNat) ∧ Frame [.answers] s t)

/-- FILL, COPY and TRANSFER write exactly the bytes their rules give, leave every other byte, and complete with the count;
08_scratchpads.md R391 to R397, 12_host_interface.md R588, R591, R592, R598. -/
def Obligations.DmaMovesComplete : Prop :=
  ∀ (die : Die) (ring : Fin 8) (hostData : Bytes) (mf : MemFaults) (d : Desc) (s s1 : State),
    let r := 24 + ring.val
    let dst := dmaDst d
    let src := dmaSrc d
    let len := dmaLen d
    let want := fun (op : Nat) => takeDesc s die r (fun d => d.type = 0x20 && dmaOp d = op) = some (d, s1)
    (want 1 → fillOk s1 d = true → jobState s1 = 2 → dmaHidden s1 dst len = false → len ≠ 0 →
      Gives (exec (.fill die ring mf) s) fun t =>
        (mf.writeFails = [] → (snoopedIn s1 dst len = [] → ∀ i < len,
          Map.getD t.mem (dst + i) 0 = BitVec.ofNat 8 (dmaPattern d / 256 ^ ((dst + i) % 8))) ∧ MemSameOutside s t dst len) ∧
        CompletedWith t die r d stOk len) ∧
    (want 2 → copyOk s1 d = true → jobState s1 = 2 → dmaHidden s1 dst len = false → dmaHidden s1 src len = false → len ≠ 0 →
      Gives (exec (.copy die ring mf) s) fun t =>
        let n := match failRow s1 mf src len with | some r => r - src | none => len
        (mf.writeFails = [] → (snoopedIn s1 dst n = [] → ∀ i < n, Map.getD t.mem (dst + i) 0 = Map.getD s.mem (src + i) 0) ∧
          MemSameOutside s t dst n) ∧ CompletedWith t die r d (if n = len then stOk else stDataLost) n) ∧
    (want 0 → transferOk s1 d = true → jobState s1 = 2 → len ≠ 0 →
      (dmaSrcHost d = true → dmaHidden s1 dst len = false → Gives (exec (.transfer die ring hostData mf) s) fun t =>
        let n := min len hostData.length
        (mf.writeFails = [] → (snoopedIn s1 dst n = [] → ∀ i < n, Map.getD t.mem (dst + i) 0 = hostData.getD i 0) ∧
          MemSameOutside s t dst n) ∧ CompletedWith t die r d (if n = len then stOk else stDataLost) n) ∧
      (dmaSrcHost d = false → dmaDstHost d = false → readsWell s1 src len → dmaHidden s1 dst len = false →
        dmaHidden s1 src len = false → Gives (exec (.transfer die ring hostData .none) s) fun t =>
        (snoopedIn s1 dst len = [] → ∀ i < len, Map.getD t.mem (dst + i) 0 =
          Map.getD s.mem (src + if src < dst ∧ dst < src + len then i % (dst - src) else i) 0) ∧
        MemSameOutside s t dst len ∧ CompletedWith t die r d stOk len) ∧
      (dmaSrcHost d = false → dmaDstHost d = true → readsWell s1 src len → dmaHidden s1 src len = false →
        powerState s ≠ pwrIdle → Gives (exec (.transfer die ring hostData .none) s) fun t =>
        (∀ i < len, Map.getD t.hostMem (dst + i) 0 = Map.getD s.mem (src + i) 0) ∧
        (∀ a, (a < dst ∨ dst + len ≤ a) → Map.getD t.hostMem a 0 = Map.getD s.hostMem a 0) ∧
        t.mem = s.mem ∧ CompletedWith t die r d stOk len)) ∧
    (∀ (i : Instr) (op : Nat) (ok hidden : Bool),
      (i, op, ok, hidden) ∈ [(Instr.transfer die ring hostData mf, 0, transferOk s1 d, false),
        (.fill die ring mf, 1, fillOk s1 d, dmaHidden s1 dst len),
        (.copy die ring mf, 2, copyOk s1 d, dmaHidden s1 dst len || dmaHidden s1 src len)] →
      want op →
      (ok = false → Gives (exec i s) fun t => Completed t die r d stInvalid ∧ t.mem = s.mem) ∧
      (ok = true → (jobState s1 ≠ 2 ∨ hidden = true) → Gives (exec i s) fun t => Completed t die r d stRefused ∧ t.mem = s.mem) ∧
      (ok = true → jobState s1 = 2 → hidden = false → len = 0 → Gives (exec i s) fun t =>
        CompletedWith t die r d stEmpty 0 ∧ t.mem = s.mem))

/-- A collective command that passes its checks becomes active with its table and its start WAIT; each failed check
completes it with its own status; 10_sync_collectives.md R475 to R480, R504, 12_host_interface.md R598, 11_fabric.md
R530. -/
def Obligations.CollectivesAreAcceptedAndWait : Prop :=
  ∀ (die : Die) (ring : Fin 8) (i : Instr) (op : Nat) (d : Desc) (s s1 : State),
    (i, op) ∈ [(Instr.reduceScatter die ring .none, opReduceScatter), (.allGather die ring .none, opAllGather),
      (.allReduce die ring .none, opAllReduce), (.multicast die ring, opMulticast)] →
    let r := 24 + ring.val
    let k := colKey die ring
    let c := colOfDesc s1 die d
    let routed := rflag s1 F.fabRouteCtrl_routeValid die 0
    let len := if c.isMcast then 0 else 4 * c.members
    let table := (List.range (len / 4)).map fun i => leAt (memBytes s c.group len) (4 * i) 4
    takeDesc s die r (fun d => d.at_ 8 1 % 16 = op) = some (d, s1) → waitingAt s die = [] →
    (colFieldsOk s1 die d c = false → Gives (exec i s) fun t => Completed t die r d stInvalid ∧ t.mem = s.mem ∧ t.cols = s.cols) ∧
    (colFieldsOk s1 die d c = true →
      ((jobState s1 ≠ 2 ∨ (c.isMcast = true ∧ routed = false)) →
        Gives (exec i s) fun t => Completed t die r d stRefused ∧ t.mem = s.mem ∧ t.cols = s.cols) ∧
      (jobState s1 = 2 → (c.isMcast = true → routed = true) →
        ((c.members = 0 ∨ c.elems = 0 ∨ c.runs = 0) →
          Gives (exec i s) fun t => CompletedWith t die r d stEmpty 0 ∧ t.mem = s.mem ∧ t.cols = s.cols) ∧
        (c.members ≠ 0 → c.elems ≠ 0 → c.runs ≠ 0 → readsWell s1 c.group len → hiddenIn s1 c.group len = [] →
          (c.isMcast = false → groupOk table c.own = false →
            Gives (exec i s) fun t => Completed t die r d stInvalid ∧ t.mem = s.mem ∧ t.cols = s.cols) ∧
          ((c.isMcast = true ∨ groupOk table c.own = true) → routed = false → table.any (fun e => e / 2 ≠ location s1) = true →
            Gives (exec i s) fun t => Completed t die r d stRefused ∧ t.mem = s.mem ∧ t.cols = s.cols) ∧
          ((c.isMcast = true ∨ groupOk table c.own = true) → (routed = true ∨ table.any (fun e => e / 2 ≠ location s1) = false) →
            Gives (exec i s) fun t =>
              (∃ c', colOf t k = some c' ∧ c'.k = d.k ∧ c'.op = bits (d.at_ 8 8) 3 0 ∧ c'.table = table ∧ c'.run = 0 ∧
                c'.phase = .waiting ∧ (c'.released = true ↔ bits c.start 15 0 = 0)) ∧
              d ∈ (ringWork t die r).active ∧ bitOf (rf t F.colStatus_active die 0) ring = true ∧ t.mem = s.mem ∧
              (bits c.start 15 0 = 0 → Counts s t F.synReleaseCount_count die 0 1 ∧ t.sync = s.sync) ∧
              (bits c.start 15 0 ≠ 0 →
                let dest := servingDie (bitOf c.start 40) (bits c.start 39 16) die
                ∃ w : WaitReq, w.far = bitOf c.start 40 ∧ w.index = bits c.start 39 16 ∧ w.target = bits c.start 15 0 ∧
                  w.consume = true ∧ w.bound = c.bound ∧ w.waiter = .collective k ∧
                  if dest = die then (syncOf t dest).arriving = (syncOf s dest).arriving ++ [w] ∧ t.bridge = s.bridge
                  else t.sync = s.sync ∧ t.bridge = s.bridge ++ [⟨dest, now s die, now s dest + bridgeTicks, .wait w⟩])))))

/-- A released run starts by sending its own packets, a complete or stopped run ends with its counts, and an overdue wait
or run ends with TIMEOUT; 10_sync_collectives.md R467, R480 to R487, R492, R493, R496, R505, 11_fabric.md R533. -/
def Obligations.RunsStartEndAndTimeOut : Prop :=
  (∀ (die : Die) (ring : Fin 8) (fails : List (Fin 4)) (c : Collective) (s : State),
    let k := colKey die ring
    let start := exec (.collectiveRunStart die ring fails .none) s
    colOf s k = some c → c.phase = .waiting → c.released = true →
    (c.isMcast = true → chooseCandidate s die 0 4 = none → Gives start fun t =>
      ∃ c', colOf t k = some c' ∧ c'.phase = .ending ∧ c'.status = stLinkLost ∧ c'.stopped = true ∧ t.mem = s.mem) ∧
    (c.isMcast = true → chooseCandidate s die 0 4 ≠ none →
      (∀ q < divCeil c.elems 4096, readsWell s (c.src + q * 4096) (min 4096 (c.elems - q * 4096)) ∧
        hiddenIn s (c.src + q * 4096) (min 4096 (c.elems - q * 4096)) = []) → Gives start fun t =>
      (∃ c', colOf t k = some c' ∧ c'.phase = .running ∧ c'.began = now s die) ∧ t.mem = s.mem ∧
      ∀ q < divCeil c.elems 4096,
        ∃ p ∈ (flowTx t (flowKey die 0 4 (colFlow k + q % c.stripes))).queue, p.kind = ptMcast ∧
          p.word = c.digest * 2 ^ 32 + q ∧ p.payload = memBytes s (c.src + q * 4096) (min 4096 (c.elems - q * 4096))) ∧
    (c.isMcast = false → (∀ p ∈ c.early, bits p.word 63 32 ≠ c.digest) →
      let seg := if c.op = opAllGather then c.pos else (c.pos + c.n - 1) % c.n
      (∀ q < c.packets, readsWell s (c.srcAt seg q) (c.count q * c.w)) → Gives start fun t =>
      (∃ c', colOf t k = some c' ∧ c'.phase = .running ∧ c'.began = now s die) ∧
      (c.op ≠ opAllGather → 1 < c.n → (∀ q < c.packets, hiddenIn s (c.srcAt seg q) (c.count q * c.w) = []) →
        t.mem = s.mem ∧ ∀ q < c.packets,
          ∃ p ∈ (flowTx t (flowKey die c.next 2 (colFlow k + q % c.stripes))).queue, p.kind = ptData ∧ p.aux = seg ∧
            p.word = c.digest * 2 ^ 32 + q ∧
            p.payload = packElems c.carry ((elemsOf c.fmt (memBytes s (c.srcAt seg q) (c.count q * c.w)) (c.count q)).map
              fun x => (firstLink c.fmt c.carry x).1)))) ∧
  (∀ (die : Die) (ring : Fin 8) (c : Collective) (st : Nat) (s : State),
    let k := colKey die ring
    colOf s k = some c →
    ((c.phase = .ending ∧ st = c.status) ∨
      (c.phase = .running ∧ runComplete c = true ∧ s.heldWrites = [] ∧ st = if c.isMcast then mcastStatus c else stOk)) →
    Gives (exec (.collectiveRunEnd die ring) s) fun t =>
      Counts s t F.colRunCount_count die 0 1 ∧ t.mem = s.mem ∧
      (st = stOk → c.run + 1 < c.runs → (∀ p ∈ c.early, p.kind ≠ ptAbort) → ∃ c', colOf t k = some c' ∧ c'.run = c.run + 1 ∧ c'.phase = .waiting) ∧
      ((st ≠ stOk ∨ c.runs ≤ c.run + 1) → colOf t k = none ∧
        ∃ x ∈ (ringWork t die (24 + ring)).toWrite, x.k = c.k ∧ x.status = st)) ∧
  (∀ (die : Die) (ring : Fin 8) (c : Collective) (s : State),
    let k := colKey die ring
    let ends := fun (t : State) => ∃ c', colOf t k = some c' ∧ c'.phase = .ending ∧ c'.status = stTimeout
    colOf s k = some c →
    (c.phase = .running → runComplete c = false → c.began + c.bound * 256000 ≤ now s die →
      Gives (exec (.collectiveTimeout die ring) s) fun t => ends t ∧ t.mem = s.mem) ∧
    (∀ w, c.phase = .waiting → c.released = false →
      let d := servingDie (bitOf c.start 40) (bits c.start 39 16) die
      let key := objKey (bitOf c.start 40) (bits c.start 39 16)
      heldAt s d key = [w] → w.waiter = .collective k → w.issued + c.bound * 256000 ≤ now s die →
      Gives (exec (.collectiveTimeout die ring) s) fun t =>
        heldAt t d key = [] ∧ Counts s t F.synTimeoutCount_count d 0 1 ∧ t.mem = s.mem ∧ (d = die → ends t) ∧
        (d ≠ die → t.bridge = s.bridge ++ [⟨1 - d, now s d, now s (1 - d) + bridgeTicks, .timeout (.collective k)⟩])))

/-- JOB_BEGIN takes the job's values and zeroes the far table, JOB_END zeroes all but the windows, JOB_KILL zeroes
everything and ends all work; 12_host_interface.md R593 to R597, R607, R608, 08_scratchpads.md R405 to R407, 09_hbm.md
R436. -/
def Obligations.JobsBeginEndAndAreKilled : Prop :=
  ∀ (train : List (BitVec 8)) (ok : Bool) (d : Desc) (s s1 : State),
    let refused := fun (i : Instr) => Gives (exec i s) fun t => Completed t 0 32 d stRefused ∧ t.mem = s.mem ∧ jobState t = jobState s
    let free := ∀ e ∈ s.snoop, e.2 = []
    let lost := fun (i : Instr) => Gives (exec i s) fun t => Completed t 0 32 d stSuperseded ∧ t.mem = s.mem ∧ jobState t = jobState s
    let gone := fun (t : State) => t.cores = [] ∧ t.sync = [] ∧ t.cols = [] ∧ t.comps = []
    (takeDesc s 0 32 (fun d => d.type = 0x30) = some (d, s1) → beginInvalid s1 d = false →
      (higherAct s1 1 actBegin .host ≠ none → lost (.jobBegin train ok)) ∧
      (higherAct s1 1 actBegin .host = none → (jobRuns s1 = true ∨ inTrial s1 = true) → refused (.jobBegin train ok)) ∧
      (higherAct s1 1 actBegin .host = none → jobRuns s1 = false → inTrial s1 = false → Gives (exec (.jobBegin train ok) s) fun t =>
        let f := rf s F.synFarCount_count 0 0
        let base := rd s .synFarBase 0 0
        jobState t = 1 ∧ rf t F.jobStatus_lastMaster 0 0 = 0 ∧ rd t .jobId 0 0 = d.at_ 8 8 ∧ t.job.key = d.at_ 16 8 ∧
        t.job.seed = d.at_ 24 8 ∧ t.job.far = f ∧ t.job.farBase = base ∧ t.sync = [] ∧ Completed t 0 32 d stOk ∧
        (free → ∀ a, base ≤ a → a < base + 16 * f → Map.getD t.mem a 0 = 0) ∧
        (windows s = [] → sameList s.unusable t.unusable = true → MemSameOutside s t base (16 * f)) ∧
        (free → sameList s.unusable t.unusable = false → ∀ a < sharedBase 0, Map.getD t.mem a 0 = 0) ∧
        (d.at_ 32 8 ≠ 0 → ok = true → s.host.linkUp = true → d.orphan = false →
          powerState s1 = (if anyRuns s1 then pwrActive else pwrIdle) →
          mapBytes t.hostMem (d.at_ 32 8) 128 = reportBytes t (now s 0)))) ∧
    (takeDesc s 0 32 (fun d => d.type = 0x31) = some (d, s1) → reservedOk d [(8, 8)] = true →
      let ends := jobState s1 = 2 ∨ (jobState s1 = 3 ∧ s.job.killer = masterCode .firmware)
      (higherAct s1 1 actEnd .host ≠ none → lost .jobEnd) ∧
      (higherAct s1 1 actEnd .host = none → (¬ends ∨ d.at_ 8 8 ≠ rd s .jobId 0 0 ∨ workOutstanding s1 = true) → refused .jobEnd) ∧
      (higherAct s1 1 actEnd .host = none → ends → d.at_ 8 8 = rd s .jobId 0 0 → workOutstanding s1 = false → Gives (exec .jobEnd s) fun t =>
        jobState t = 3 ∧ gone t ∧ Completed t 0 32 d stOk ∧ rflag t F.spmZeroStatus_busy 0 0 = true ∧
        (rflag t F.spmResStatus_tagValid 0 0 = true ↔ windows s ≠ []) ∧ t.job.tag = (if windows s = [] then 0 else s.job.key) ∧
        (∀ a, inSpans (windows s) a = true → Map.getD t.mem a 0 = Map.getD s.mem a 0) ∧
        (free → ∀ a, inSpans (windows s) a = false → Map.getD t.mem a 0 = 0))) ∧
    (takeDesc s 0 32 (fun d => d.type = 0x32) = some (d, s1) → reservedOk d [(8, 8)] = true →
      (higherAct s1 1 actKill .host ≠ none → lost .jobKill) ∧
      (higherAct s1 1 actKill .host = none → (jobRuns s1 = false ∨ d.at_ 8 8 ≠ rd s .jobId 0 0) → refused .jobKill) ∧
      (higherAct s1 1 actKill .host = none → jobRuns s1 = true → d.at_ 8 8 = rd s .jobId 0 0 → Gives (exec .jobKill s) fun t =>
        jobState t = 3 ∧ gone t ∧ Completed t 0 32 d stOk ∧ windows t = [] ∧ t.job.tag = 0 ∧
        rflag t F.spmResStatus_tagValid 0 0 = false ∧ (free → t.mem = []) ∧
        ∀ die < 2, ∀ n < 32, (ringWork t die n).fetched = [] ∧ (ringWork t die n).active = [] ∧
          ∀ c ∈ (ringWork t die n).toWrite, c.status = stJobKilled))

/-- RESIDENCY sets its window, ROUTE_WRITE its entries, SIGNAL its message, RESTART and the ledger complete, each refused
as its rules say; 08_scratchpads.md R402, R403, R416, 11_fabric.md R527, R528, 12_host_interface.md R590, R591,
10_sync_collectives.md R460, R463, 16_faults_background.md R746, R750, R751. -/
def Obligations.ManagementDescriptorsComplete : Prop :=
  (∀ (d : Desc) (s s1 : State),
    let n := d.at_ 8 1
    let base := d.at_ 16 8
    let len := d.at_ 24 8
    takeDesc s 0 32 (fun d => d.type = 0x33) = some (d, s1) → reservedOk d [(8, 1), (16, 16)] = true → n ≤ 15 → addrOk base = true →
    base % 0x1_0000 = 0 → len % 0x1_0000 = 0 → rangeOk s1 base len = true →
    (∀ i < 16, i ≠ n → bits (rd s .spmResWindow 0 i) 63 40 ≠ 0 →
      overlaps base len (bits (rd s .spmResWindow 0 i) 31 0 * 0x1_0000) (bits (rd s .spmResWindow 0 i) 63 40 * 0x1_0000) = false) →
    (jobState s1 = 2 → s.job.key ≠ 0 → windowOffered s1 base len = true → Gives (exec .residency s) fun t =>
      rd t .spmResWindow 0 n = (if len = 0 then 0 else len / 0x1_0000 * 2 ^ 40 + base / 0x1_0000) ∧
      (∀ i < 16, i ≠ n → rd t .spmResWindow 0 i = rd s .spmResWindow 0 i) ∧
      rf t F.spmResStatus_windows 0 0 = (windows t).length ∧ Completed t 0 32 d stOk ∧ t.mem = s.mem) ∧
    ((jobState s1 ≠ 2 ∨ s.job.key = 0 ∨ windowOffered s1 base len = false) → Gives (exec .residency s) fun t =>
      Completed t 0 32 d stRefused ∧ t.mem = s.mem ∧ ∀ i, rd t .spmResWindow 0 i = rd s .spmResWindow 0 i)) ∧
  (∀ (die : Die) (d : Desc) (s s1 : State),
    let first := d.at_ 8 4
    let count := d.at_ 12 4
    let src := d.at_ 16 8
    let entry := fun i => leAt (memBytes s src (16 * count)) (16 * i) 16
    takeDesc s die 32 (fun d => d.type = 0x35) = some (d, s1) → reservedOk d [(8, 16)] = true → first < 65536 → count < 2 ^ 17 →
    first + count ≤ 65536 → addrOk src = true → src % 16 = 0 →
    rangeIn s1 src (16 * count) (fun r => match r with | .hbm => true | .shared x => x = die | .core _ => false) = true →
    (jobRuns s1 = true → Gives (exec (.routeWrite die .none) s) fun t => Completed t die 32 d stRefused ∧ t.routes = s.routes) ∧
    (jobRuns s1 = false → count = 0 →
      Gives (exec (.routeWrite die .none) s) fun t => Completed t die 32 d stEmpty ∧ t.routes = s.routes) ∧
    (jobRuns s1 = false → count ≠ 0 → readsWell s1 src (16 * count) → hiddenIn s1 src (16 * count) = [] →
      (∀ i < count, routeOk (entry i) = true) →
      (∀ i < count, ∀ p ∈ routePorts (entry i) ++ routePorts (routeEntry s die (first + i)), rd s .fabPortOutstanding die p = 0) →
      Gives (exec (.routeWrite die .none) s) fun t =>
        (∀ i < count, routeEntry t die (first + i) = entry i) ∧
        (∀ d' < 2, ∀ loc < 65536, (d' ≠ die.val ∨ loc < first ∨ first + count ≤ loc) → routeEntry t d' loc = routeEntry s d' loc) ∧
        rflag t F.fabRouteCtrl_routeValid die 0 = false ∧ CompletedWith t die 32 d stOk count ∧ t.mem = s.mem)) ∧
  (∀ (die : Die) (d : Desc) (s s1 : State),
    let r := signalOf (d.at_ 8 8) 24
    takeDesc s die 32 (fun d => d.type = 0x34) = some (d, s1) → reservedOk d [(8, 8)] = true → d.at_ 8 8 < 2 ^ 60 →
    signalOk s1 (d.at_ 8 8) = true → r.increment ≠ 0 → r.far = false → r.endpoint / 2 = location s →
    Gives (exec (.signalDescriptor die) s) fun t =>
      (∃ m : SignalMsg, m.far = false ∧ m.index = r.index ∧ m.increment = r.increment ∧
        let dest := r.endpoint % 2
        if dest = die then (syncOf t dest).signals = (syncOf s dest).signals ++ [m] ∧ t.bridge = s.bridge
        else t.sync = s.sync ∧ t.bridge = s.bridge ++ [⟨dest, now s die, now s dest + bridgeTicks, .signal m⟩]) ∧
      Completed t die 32 d stOk ∧ t.mem = s.mem) ∧
  (∀ (d : Desc) (s s1 : State),
    takeDesc s 0 32 (fun d => d.type = 0x37) = some (d, s1) → reservedOk d [] = true →
    Gives (exec .restart s) fun t => Completed t 0 32 d (if jobRuns s1 then stRefused else stOk) ∧
      t.host.restart = s.host.restart ∧ t.mem = s.mem) ∧
  (∀ (r : LedgerRec) (rest : List LedgerRec) (s : State), s.flt.pendingRecs = r :: rest → s.tru.saved = none →
    let full := 32768 ≤ s.flt.ledger.length
    let deciding := ledgerDeciding s.flt.ledger
    ((full → s.flt.spare = deciding) → Gives (exec .ledgerDurable s) fun t =>
      t.flt.ledger = (if full then deciding else s.flt.ledger) ++ [r] ∧ t.flt.region = (if full then 1 - s.flt.region else s.flt.region) ∧
      t.flt.pendingRecs = rest ∧ Pends t (chanSource r.kind r.channel).1 8 2) ∧
    (full → s.flt.spare ≠ deciding → Gives (exec .ledgerDurable s) fun t =>
      t.flt.ledger = s.flt.ledger ∧ t.flt.region = s.flt.region ∧ t.flt.spare = deciding ∧ t.flt.pendingRecs = s.flt.pendingRecs))

/-- POWER actions set and clear the host's limits with a completion held for the control step, and NAP and DARK ask for
their state; 15_power_clocks.md R725, R726, R728, 15_power_clocks.md R689 to R693, 12_host_interface.md R607. -/
def Obligations.PowerDescriptorsComplete : Prop :=
  ∀ (d : Desc) (s s1 : State),
    let w := powerValue d
    let ms := powerWindow d
    let act := fun (a : Nat) => takePower s a = some (d, s1) ∧ powerReserved d = true
    let held := fun (t : State) => ∃ c ∈ (ringWork t 0 32).toWrite, c.k = d.k ∧ c.tag = d.tag ∧ c.kind = 0x36 ∧ c.status = stOk ∧ c.held = true
    let bad := fun (t : State) => Completed t 0 32 d stInvalid ∧ rd t .pwrHostCap 0 0 = rd s .pwrHostCap 0 0 ∧
      rd t .pwrHostCeiling 0 0 = rd s .pwrHostCeiling 0 0
    (act 1 → (600 ≤ w → w ≤ 2000 → 250 ≤ ms → ms ≤ 10000 → Gives (exec .setCap s) fun t =>
        rf t F.pwrHostCap_capW 0 0 = w ∧ rf t F.pwrHostCap_windowMs 0 0 = ms ∧ rflag t F.pwrHostCap_valid 0 0 = true ∧ held t) ∧
      ((w < 600 ∨ 2000 < w ∨ ms < 250 ∨ 10000 < ms) → Gives (exec .setCap s) bad)) ∧
    (act 2 → (w = 0 → ms = 0 → Gives (exec .clearCap s) fun t => rflag t F.pwrHostCap_valid 0 0 = false ∧ held t) ∧
      ((w ≠ 0 ∨ ms ≠ 0) → Gives (exec .clearCap s) bad)) ∧
    (act 3 → (500 ≤ w → w ≤ 1250 → w % 25 = 0 → ms = 0 → Gives (exec .setCeiling s) fun t =>
        rd t .pwrHostCeiling 0 0 = w ∧ held t) ∧
      ((w < 500 ∨ 1250 < w ∨ w % 25 ≠ 0 ∨ ms ≠ 0) → Gives (exec .setCeiling s) bad)) ∧
    (act 4 → (w = 0 → ms = 0 → Gives (exec .clearCeiling s) fun t => rd t .pwrHostCeiling 0 0 = 0 ∧ held t) ∧
      ((w ≠ 0 ∨ ms ≠ 0) → Gives (exec .clearCeiling s) bad)) ∧
    (act 5 → w = 0 → ms = 0 →
      (jobRuns s1 = true → Gives (exec .nap s) fun t => Completed t 0 32 d stRefused ∧ t.host.lowPower = s.host.lowPower) ∧
      (jobRuns s1 = false → higherAct s1 2 actNap .host ≠ none → Gives (exec .nap s) fun t =>
        Completed t 0 32 d stSuperseded ∧ t.host.lowPower = s.host.lowPower) ∧
      (higherAct s1 2 actNap .host = none → jobRuns s1 = false → Gives (exec .nap s) fun t => Completed t 0 32 d stOk ∧
        t.host.lowPower = some (if s.host.lowPower = some .dark then .dark else .nap))) ∧
    (act 6 → w = 0 → ms = 0 →
      (jobRuns s1 = true → Gives (exec .dark s) fun t => Completed t 0 32 d stRefused ∧ t.host.lowPower = s.host.lowPower) ∧
      (jobRuns s1 = false → higherAct s1 2 actDark .host ≠ none → Gives (exec .dark s) fun t =>
        Completed t 0 32 d stSuperseded ∧ t.host.lowPower = s.host.lowPower) ∧
      (higherAct s1 2 actDark .host = none → jobRuns s1 = false → Gives (exec .dark s) fun t => Completed t 0 32 d stOk ∧ t.host.lowPower = some .dark))

/-- An asked-for Nap or Dark is entered once nothing is owed, Dark loses the SRAMs and keeps HBM, and a wake event brings
the module to Idle; 15_power_clocks.md R687 to R692, 17_resets_states.md R767 to R770, R772, R775, 08_scratchpads.md
R410, R411. -/
def Obligations.LowPowerIsEnteredAndLeft : Prop :=
  (∀ s : State, mayEnterLowPower s = true →
    (s.host.lowPower = some .nap → Gives (exec .lowPowerEntry s) fun t =>
      t.host.lowPower = none ∧ t.mem = s.mem ∧ (powerState t = pwrNap ∨ powerState t = pwrIdle) ∧
      (s.host.wakePending = true → powerState t = pwrIdle) ∧
      (s.host.wakePending = false → bitOf (icuMask s 0 1) 2 = true → bitOf (icuMask s 0 1) 3 = true → powerState t = pwrNap)) ∧
    (s.host.lowPower = some .dark → Gives (exec .lowPowerEntry s) fun t =>
      powerState t = pwrDark ∧ t.host.lowPower = none ∧ t.host.linkUp = false ∧ t.host.rdybsyN = false ∧ t.routes = [] ∧
      t.flowsTx = [] ∧ t.flowsRx = [] ∧ t.rings = [] ∧ t.snoop = [] ∧ t.cores = [] ∧
      (∀ a < sharedBase 0, Map.getD t.mem a 0 = Map.getD (landHeld s).mem a 0) ∧
      (s.heldWrites = [] → ∀ a < sharedBase 0, Map.getD t.mem a 0 = Map.getD s.mem a 0) ∧
      ((∀ e ∈ s.snoop, e.2 = []) → ∀ a, sharedBase 0 ≤ a → Map.getD t.mem a 0 = 0))) ∧
  (∀ (train : List (BitVec 8)) (s : State), powerState s = pwrNap → s.host.wakePending = true →
    (∀ d : Die, 500 ≤ rf s F.clkStatus_targetMhz d 0) → 500 ≤ rf s F.pwrTightCfg_brakeMhz 0 0 →
    Gives (exec (.wake train) s) fun t =>
      powerState t = pwrIdle ∧ rf t F.clkStatus_freqMhz 0 0 = 500 ∧ rf t F.clkStatus_freqMhz 1 0 = 500 ∧
      t.host.wakePending = false ∧ t.mem = s.mem) ∧
  (∀ (train : List (BitVec 8)) (s : State), RegInv s → powerState s = pwrDark → s.host.wakePending = true →
    (∀ d : Die, 500 ≤ rf s F.clkStatus_targetMhz d 0) → 500 ≤ rf s F.pwrTightCfg_brakeMhz 0 0 →
    Gives (exec (.darkWake train) s) fun t =>
      powerState t = pwrIdle ∧ rf t F.clkStatus_freqMhz 0 0 = 500 ∧ rf t F.clkStatus_freqMhz 1 0 = 500 ∧
      t.host.wakePending = false ∧ t.host.darkPerst = false ∧
      (s.host.darkPerst = true → t.mem = []) ∧ (s.host.darkPerst = false → t.mem = s.mem))

/-- A companion slot starts with its image, stops, faults and exits with its state, and its services answer as R624 gives
them; 13_control_complex.md R619 to R626, R643, 10_sync_collectives.md R461, R468. -/
def Obligations.CompanionsComplete : Prop :=
  (∀ (b : Sender) (die : Die) (slot : Fin 4) (mf : MemFaults) (s : State), writeActs s b die = true →
    let s1 := asReached s b die
    let src := rf s1 F.ctlCompSrc_src die slot
    let size := rf s1 F.ctlCompSize_size die slot
    let ends := fun (v : Nat) => Gives (exec (.companionStart b die ⟨slot, mf⟩) s) fun t =>
      rf t F.ctlCompStatus_result die slot = v ∧ compState t die slot = compState s1 die slot ∧ t.comps = s.comps
    ((2 * 0x10_0000 < size ∨ compRangeOk s1 die src size = false) → ends stInvalid) ∧
    (size ≤ 2 * 0x10_0000 → compRangeOk s1 die src size = true →
      ((jobState s1 ≠ 2 ∨ compState s1 die slot = compRunning ∨ hiddenIn s1 src size ≠ []) → ends stRefused) ∧
      (jobState s1 = 2 → compState s1 die slot ≠ compRunning → hiddenIn s1 src size = [] →
        (size = 0 → ends stEmpty) ∧
        (size ≠ 0 → failRow s1 mf src size ≠ none → ends stDataLost) ∧
        (size ≠ 0 → failRow s1 mf src size = none → Gives (exec (.companionStart b die ⟨slot, mf⟩) s) fun t =>
          compState t die slot = compRunning ∧ rf t F.ctlCompStatus_result die slot = stOk ∧
          mapBytes (compOf t (compKey die slot)).image 0 size = memBytes s src size ∧
          (compOf t (compKey die slot)).waiting = false ∧ (ctlCore t die (4 + slot)).mode = .user ∧
          bits (rd t .ctlCoreState die 0) (2 * (4 + slot) + 1) (2 * (4 + slot)) = 2 ∧ t.mem = s.mem))) ∧
    (compState s1 die slot = compRunning → Gives (exec (.companionStop b die slot) s) fun t =>
      compState t die slot = compIdle ∧ rf t F.ctlCompStatus_result die slot = stJobKilled ∧
      (compOf t (compKey die slot)).waiting = false ∧ (ctlCore t die (4 + slot)).mode = .machine ∧
      bits (rd t .ctlCoreState die 0) (2 * (4 + slot) + 1) (2 * (4 + slot)) = 1) ∧
    (compState s1 die slot ≠ compRunning → Gives (exec (.companionStop b die slot) s) fun t =>
      compState t die slot = compState s1 die slot ∧ t.comps = s.comps)) ∧
  (∀ (die : Die) (slot : Fin 4) (addr : BitVec 64) (s : State), compActive s die slot = true →
    let a := addr.toNat
    let does := fun (x : CompAct) => Gives (exec (.companionFault die slot x addr) s)
    let faults := fun (x : CompAct) => does x fun t => compState t die slot = compFaulted ∧ Recorded s t die
    let image := fun (t : State) (n : Nat) => mapBytes (compOf t (compKey die slot)).image (a - compBase) n
    faults .register ∧ faults .pmp ∧ (inSlot a 2 = false → faults .fetch) ∧
    (∀ n write, (write = true ∨ n ∉ [csrCycle, csrTime, csrInstret]) → faults (.csr n write)) ∧
    does (.csr csrTime false) (fun t => t.answers.companion = now s die ∧ Frame [.answers] s t) ∧
    (∀ n, (n = 0 ∨ 5 < n) → faults (.call n)) ∧
    (∀ n mf, inSlot a n = false → inDevice s a n = false → faults (.load n mf)) ∧
    (∀ n mf, inSlot a n = true → slotFails s die slot a n mf = true → faults (.load n mf)) ∧
    (∀ n mf, inSlot a n = true → slotFails s die slot a n mf = false → does (.load n mf) fun t =>
      t.answers.companion = leNat (image s n) ∧ Frame [.answers] s t) ∧
    (∀ n, inSlot a n = false → inDevice s a n = true → readsWell s a n → hiddenIn s a n = [] → does (.load n .none) fun t =>
      t.answers.companion = leNat (memBytes s a n) ∧ t.mem = s.mem ∧ compState t die slot = compRunning) ∧
    (∀ data mf, inSlot a data.length = false → inDevice s a data.length = false → faults (.store data mf)) ∧
    (∀ data mf, inSlot a data.length = true → does (.store data mf) fun t =>
      image t data.length = data ∧ t.mem = s.mem ∧ compState t die slot = compRunning) ∧
    (∀ data, inSlot a data.length = false → inDevice s a data.length = true → hiddenIn s a data.length = [] →
      snoopedIn s a data.length = [] → does (.store data .none) fun t =>
        memBytes t a data.length = data ∧ MemSameOutside s t a data.length ∧ compState t die slot = compRunning)) ∧
  (∀ (die : Die) (slot : Fin 4) (a1 a2 : BitVec 64) (s : State), compActive s die slot = true →
    let answers := fun (t : State) (v : Nat) => t.answers.companion = v ∧
      Map.find (ctlCore t die (4 + slot)).x 10 = some (BitVec.ofNat 64 v)
    Gives (exec (.companionExit die slot a1) s) (fun t =>
      compState t die slot = compExited ∧ rf t F.ctlCompStatus_exit die slot = a1.toNat % 2 ^ 16) ∧
    Gives (exec (.companionStamp die slot) s) (fun t => answers t (coreTime s die) ∧ Frame [.answers, .ctlCores] s t) ∧
    Gives (exec (.companionLog die slot a1 a2) s) (fun t => answers t stOk ∧ Recorded s t die) ∧
    (let r := signalOf a1.toNat 24
     ((2 ^ 60 ≤ a1.toNat ∨ signalOk s a1.toNat = false) → Gives (exec (.companionSignal die slot a1) s) fun t =>
       answers t stInvalid ∧ Frame [.answers, .ctlCores] s t) ∧
     (a1.toNat < 2 ^ 60 → signalOk s a1.toNat = true → r.increment ≠ 0 → r.far = false → r.endpoint / 2 = location s →
       Gives (exec (.companionSignal die slot a1) s) fun t => answers t stOk ∧
         ∃ x : SignalMsg, x.far = false ∧ x.index = r.index ∧ x.increment = r.increment ∧
           let dest := r.endpoint % 2
           if dest = die then (syncOf t dest).signals = (syncOf s dest).signals ++ [x] ∧ t.bridge = s.bridge
           else t.sync = s.sync ∧ t.bridge = s.bridge ++ [⟨dest, now s die, now s dest + bridgeTicks, .signal x⟩])) ∧
    (let w := waitOf a1.toNat (now s die) (.companion (compKey die slot))
     ((2 ^ 60 ≤ a1.toNat ∨ waitOk s w.far w.index = false) → Gives (exec (.companionWait die slot a1) s) fun t =>
       answers t stInvalid ∧ Frame [.answers, .ctlCores] s t) ∧
     (a1.toNat < 2 ^ 60 → waitOk s w.far w.index = true →
       (w.target = 0 → Gives (exec (.companionWait die slot a1) s) fun t =>
         answers t stOk ∧ Counts s t F.synReleaseCount_count die 0 1) ∧
       (w.target ≠ 0 → Gives (exec (.companionWait die slot a1) s) fun t =>
         let dest := servingDie w.far w.index die
         (compOf t (compKey die slot)).waiting = true ∧ compState t die slot = compRunning ∧
         if dest = die then
           (syncOf t dest).arriving = (syncOf s dest).arriving ++ [{ w with arrival := now s die + lMinDie }] ∧ t.bridge = s.bridge
         else t.sync = s.sync ∧ t.bridge = s.bridge ++ [⟨dest, now s die, now s dest + bridgeTicks, .wait w⟩]))))

/-- A hold-off expiry delivers the pending sources to their targets, attention is pulsed and repeated, and a filtered
input acts as its kind says; 13_control_complex.md R629 to R632, R641, 12_host_interface.md R602, R603,
18_trust_update.md R788 to R790. -/
def Obligations.InterruptsAndInputsComplete : Prop :=
  (∀ (die : Die) (g : Fin 32) (s : State), holdoffOver s die g = true → controlRuns s = true →
    Gives (exec (.holdoffExpiry die g) s) fun t =>
      timerRuns t die g = false ∧
      (∀ c < 8, (icuLive s die g &&& icuTargetMask s die g 1 c ≠ 0 → bitOf (rd t .icuSummary die c) g = true) ∧
        (icuLive s die g &&& icuTargetMask s die g 1 c = 0 → rd t .icuSummary die c = rd s .icuSummary die c)) ∧
      (icuLive s die g &&& icuTargetMask s die g 2 0 ≠ 0 → bitOf (rd t .icuSummaryHost die 0) g = true ∧ t.host.attention = true) ∧
      (icuLive s die g &&& icuTargetMask s die g 2 0 = 0 →
        rd t .icuSummaryHost die 0 = rd s .icuSummaryHost die 0 ∧ t.host.attention = s.host.attention)) ∧
  (∀ s : State, s.host.attention = true → mayPulse s = true → Gives (exec .attentionPulse s) fun t =>
    t.host.attention = false ∧ t.host.repeating = true ∧ t.host.pulsed = some (now s 0) ∧
    Frame [.attention, .repeating, .pulsed] s t) ∧
  (∀ s : State, s.host.repeating = true →
    (attentionNow s = true → rflag s F.hifAttnCfg_repeatUs 0 0 = true → repeatDue s = true →
      Gives (exec .attentionRepeat s) fun t => t.host.attention = true ∧ t.host.repeating = true ∧ Frame [.attention] s t) ∧
    (attentionNow s = false → Gives (exec .attentionRepeat s) fun t => t.host.repeating = false ∧ Frame [.repeating] s t) ∧
    (attentionNow s = true → (rflag s F.hifAttnCfg_repeatUs 0 0 = false ∨ repeatDue s = false) →
      Gives (exec .attentionRepeat s) fun t => t = s)) ∧
  (∀ (v : BitVec 16) (n : Nat) (s : State), s.host.powered = true → (∀ i, filterCount s i ≤ n) →
    (rf s F.icuInputState_presN 0 0 = 1 → v.toNat % 2 = 0 → Gives (exec (.inputFilterAccept .pres ⟨v, n⟩) s) fun t =>
      rf t F.icuInputState_presN 0 0 = 0 ∧
      (rflag s F.icuInputState_sealClosed 0 0 = false → presenceLatched t = true ∧ Pends t 0 3 0) ∧
      (rflag s F.icuInputState_sealClosed 0 0 = true → presenceLatched t = presenceLatched s ∧ Recorded s t 0)) ∧
    (rf s F.icuInputState_sealClosed 0 0 = 0 → v.toNat % 2 = 1 → Gives (exec (.inputFilterAccept .sealLoop ⟨v, n⟩) s) fun t =>
      rf t F.icuInputState_sealClosed 0 0 = 1 ∧ presenceLatched t = false ∧ rf t F.truStatus_sealOpen 0 0 = 0 ∧ Pends t 0 3 3) ∧
    (rf s F.icuInputState_sealClosed 0 0 = 1 → v.toNat % 2 = 0 → Gives (exec (.inputFilterAccept .sealLoop ⟨v, n⟩) s) fun t =>
      rf t F.icuInputState_sealClosed 0 0 = 0 ∧ rf t F.truStatus_sealOpen 0 0 = 1 ∧
      Counts s t F.truSealCount_count 0 0 1 ∧ Pends t 0 3 2) ∧
    (rf s F.icuInputState_loc 0 0 ≠ v.toNat → Gives (exec (.inputFilterAccept .loc ⟨v, n⟩) s) fun t =>
      rf t F.icuInputState_loc 0 0 = v.toNat ∧ location t = location s ∧ (v.toNat ≠ location s → Pends t 0 3 4)) ∧
    (rf s F.icuInputState_pwrbrkN 0 0 = 1 → v.toNat % 2 = 0 → Gives (exec (.inputFilterAccept .pwrbrk ⟨v, n⟩) s) fun t =>
      rf t F.icuInputState_pwrbrkN 0 0 = 0 ∧ Pends t 0 2 3 ∧ Pends t 1 2 3)) ∧
  (∀ s : State, presenceLatched s = true → Gives (exec .presenceExpiry s) fun t => presenceLatched t = false ∧ Pends t 0 3 1)

/-- A flit is taken in order, acknowledges and naks, credits return, a link control flit sets the stratum, and lanes lose
and regain lock; 11_fabric.md R510 to R516, R547, 16_faults_background.md R735, 14_sidereal_ephemeris.md R653, R654.
-/
def Obligations.FlitsCreditsAndLanesComplete : Prop :=
  (∀ (die : Die) (port : Fin 16) (f : Flit) (s : State), portStateOf s die port = portIsUp →
    let v := portOf s die port
    let left := ackFlits v.replayBuf (flitAck f)
    let next := (v.rxSeq + 1) % 4096
    let taken := flitKind f ≠ flitIdle ∧ flitSeq f = next
    let got := addContent v.rxBytes (flitContent f)
    (flitGood f = false → Gives (exec (.flitReceive die port f) s) fun t =>
      portOf t die port = { v with nakOwed := true } ∧ Frame [.ports] s t) ∧
    (flitGood f = true → flitNak f = false → Gives (exec (.flitReceive die port f) s) fun t =>
      let w := portOf t die port
      w.replayBuf = left ∧ w.rxSeq = (if taken then next else v.rxSeq) ∧ (taken → w.nakOwed = false ∧ w.ackOwed = true) ∧
      (taken → flitKind f = flitPacket → w.rxBytes = got.2 ∧
        w.rxPkts = v.rxPkts ++ got.1.filter fun x => decide (x.payload.length ≤ 4096)) ∧
      (¬(taken ∧ flitKind f = flitPacket) → w.rxBytes = v.rxBytes ∧ w.rxPkts = v.rxPkts ∧ Frame [.ports] s t)) ∧
    (∀ e rest, flitGood f = true → flitNak f = true → left = e :: rest → 1 ≤ e.attempts → e.seq ∉ v.toWire → e.exhausted = false →
      (e.attempts < 3 → Gives (exec (.flitReceive die port f) s) fun t =>
        (portOf t die port).replayBuf = left.map (fun x =>
          if 1 ≤ x.attempts ∧ x.seq ∉ v.toWire then { x with lane := chargedLane v.inUse f.corrected } else x) ∧
        (portOf t die port).toWire = left.map (fun x => x.seq)) ∧
      (3 ≤ e.attempts → Gives (exec (.flitReceive die port f) s) fun t =>
        (portOf t die port).replayBuf = { e with exhausted := true } :: rest ∧ Pends t die 4 (16 + port)))) ∧
  (∀ (die : Die) (port : Fin 16) (s : State), portUp s die port = true → linkBusy (portOf s die port) = true →
    let v := closeFlits (portOf s die port)
    let t := sendPair s die port
    Counts s t F.fabLinkReplayCount_count die 0 ((pairFlits v).filter fun e => decide (1 ≤ e.attempts)).length ∧
    ((portOf s die port).replayBuf.length ≤ 512 → (portOf t die port).replayBuf.length ≤ 512)) ∧
  (∀ (die : Die) (port : Fin 16) (credits : List Nat) (s : State), portStateOf s die port = portIsUp →
    Gives (exec (.creditFlit die port credits) s) fun t =>
      (∀ vc, Map.getD (portOf t die port).credits vc 64 = Map.getD (portOf s die port).credits vc 64 + credits.getD vc 0) ∧
      Frame [.ports] s t) ∧
  (∀ (die : Die) (port : Fin 16) (stratum : BitVec 4) (s : State), portStateOf s die port = portIsUp →
    Gives (exec (.linkControlFlit die port stratum) s) fun t =>
      (portOf t die port).stratum = stratum.toNat ∧
      ((portOf s die port).replayBuf.length < 512 →
        ∃ e, (portOf t die port).replayBuf = (portOf s die port).replayBuf ++ [e] ∧ e.kind = flitControl)) ∧
  (∀ (die : Die) (port : Fin 16) (lane : Fin 8) (s : State),
    (lane.val ∈ (portOf s die port).inUse → portStateOf s die port ≠ portDown → Map.find (portOf s die port).unlocked lane = none →
      Gives (exec (.laneLockLoss die port lane) s) fun t =>
        Map.find (portOf t die port).unlocked lane = some (now s die) ∧ Frame [.ports] s t) ∧
    (lane.val ∉ lostLanes s die port →
      Gives (exec (.laneLockRegain die port lane) s) fun t =>
        Map.find (portOf t die port).unlocked lane = none ∧ Frame [.ports] s t)) ∧
  (∀ p : Packet, p.wellFormed = true → packetOf (packetHeader p) p.payload = p ∧
    (p.kind ≠ 0 → addContent [] (packetData p) = ([p], []))) ∧
  (∀ (h : Nat) (flits : List Bytes), (codewordPair h flits).length = 2 * 544 ∧ ∀ x ∈ codewordPair h flits, x < 2 ^ 10)

/-- A packet is injected on its flow's candidate and kept until acknowledged, resent at a timeout, lost without a route,
and flushed after a job; 11_fabric.md R531 to R537, R540, R542, R555, 10_sync_collectives.md R470, R486. -/
def Obligations.PacketsAreSentAndRetained : Prop :=
  (∀ (die : Die) (flow : Nat) (dst : BitVec 17) (vc : Fin 8) (adds : List (Fin 4)) (mf : MemFaults) (p : Packet)
      (rest : List Packet) (s : State),
    let key := flowKey die dst.toNat vc flow
    let f := flowTx s key
    let i := Instr.packetInject die flow dst ⟨vc, adds, mf⟩
    (f.resend = [] → f.queue = p :: rest → flow < 256 → p.vc = vc → p.flow = flow →
      (∀ c, (vc.val = 4 ∨ p.dst / 2 ≠ location s) → rflag s F.fabRouteCtrl_routeValid die 0 = true →
        (if f.retained = [] then chooseCandidate s die p.dst p.vc else f.cand) = some c →
        portUp s die c.port = true → portRoom s die c.port p = true → Gives (exec i s) fun t =>
          let x := injected s die c f.next p
          let v := portOf s die c.port
          let v' := portOf t die c.port
          t.answers.wire = some (die * 16 + c.port, x) ∧ (flowTx t key).queue = rest ∧
          (flowTx t key).retained = (if isRetained p.kind then f.retained ++ [(x, 1)] else f.retained) ∧
          (flowTx t key).cand = some c ∧
          ∃ l : List TxFlit, v'.toWire = v.toWire ++ l.map (fun e => e.seq) ∧ v'.replayBuf = v.replayBuf ++ l ∧
            (∀ e ∈ l, e.kind = flitPacket ∧ e.content.length = 248) ∧
            l.flatMap (fun e => e.content) ++ v'.txPart = v.txPart ++ packetData x) ∧
      (vc.val = 0 → p.kind = ptSignal → p.dst / 2 ≠ location s → rflag s F.fabRouteCtrl_routeValid die 0 = true →
        f.retained = [] → rest = [] → chooseCandidate s die p.dst 0 = none → Gives (exec i s) fun t =>
          (flowTx t key).queue = [] ∧ (flowTx t key).retained = [] ∧ Counts s t F.synLostCount_count die 0 1) ∧
      (∀ k c, vc.val ≠ 4 → p.dst / 2 = location s → p.kind = ptData → p.stamp + bridgeTicks ≤ now s die →
        colByDigest s (1 - die.val) p = some k → colOf s k = some c → c.phase = .waiting → Gives (exec i s) fun t =>
          (flowTx t key).queue = rest ∧ colOf t k = some { c with early := c.early ++ [p] })) ∧
    (∀ q again left c e, f.resend = (q, again) :: left → f.cand = some c → f.retained.find? (fun e => e.1.fseq = q) = some e →
      rflag s F.fabRouteCtrl_routeValid die 0 = true → portUp s die c.port = true → linkRoom s die c.port e.1 = true →
      Gives (exec i s) fun t => t.answers.wire = some (die * 16 + c.port, e.1) ∧
        flowTx t key = { f with resend := left, retained := if again then nextAttempt f.retained q else f.retained } ∧
        Counts s t F.fabRetxCount_count die 0 (if again then 1 else 0))) ∧
  (∀ (die : Die) (port : Fin 16) (pkt : Packet) (vc : Fin 8) (s : State), Heard s die port ptAck pkt →
    let key := answeredFlow die pkt vc pkt.flow
    let left := (flowTx s key).retained.filter fun e => seqLater e.1.fseq (bits pkt.word 15 0)
    Gives (exec (.ackReceive die port pkt vc) s) fun t =>
      (flowTx t key).retained = left ∧ (left = [] → (flowTx t key).cand = none) ∧ (flowTx t key).queue = (flowTx s key).queue ∧
      ∀ p : Fin 16, rd t .fabPortOutstanding die p = (retainedOn t die p).length % 2 ^ 32) ∧
  (∀ (die : Die) (src : BitVec 17) (vc : Fin 8) (flow : Nat) (s : State),
    let f := flowRx s (flowKey die src.toNat vc flow)
    flow < 256 → f.sinceAck ≠ 0 → Gives (exec (.ackTimer die src vc flow) s) fun t =>
      flowRx t (flowKey die src.toNat vc flow) = { f with sinceAck := 0, marks := 0 } ∧
      ∃ a, (flowTx t (flowKey die src.toNat 1 flow)).queue = (flowTx s (flowKey die src.toNat 1 flow)).queue ++ [a] ∧
        a.kind = ptAck ∧ a.dst = src.toNat ∧ a.flow = flow ∧ bits a.word 15 0 = (f.expected + 2 ^ 16 - 1) % 2 ^ 16) ∧
  (∀ (die : Die) (flow : Nat) (dst : BitVec 17) (vc : Fin 8) (c : Candidate) (s : State),
    let key := flowKey die dst.toNat vc flow
    let f := flowTx s key
    flow < 256 → f.cand = some c → f.retained ≠ [] → f.resend = [] →
    ((∀ e ∈ f.retained, e.2 < 3) → portUp s die c.port = true → Gives (exec (.retransmitTimeout die flow dst vc) s) fun t =>
      flowTx t key = { f with resend := f.retained.map (fun e => (e.1.fseq, true)) } ∧ Frame [.flowsTx] s t) ∧
    (vc.val = 0 → (∃ e ∈ f.retained, 3 ≤ e.2) → Gives (exec (.retransmitTimeout die flow dst vc) s) fun t =>
      (flowTx t key).retained = [] ∧ (flowTx t key).queue = [] ∧ (flowTx t key).cand = none)) ∧
  (∀ (die : Die) (port : Fin 16) (vc : Fin 8) (r : Nat) (s : State),
    let v := portOf s die port
    let us := rf s F.fabThrottleCfg_recoverUs die 0
    let full := fullRate (portLanes s die port)
    Map.find v.rate vc = some r → (∀ x, Map.find v.lastDecrease vc = some x → x + us * 4000 ≤ now s die) →
    Gives (exec (.throttleRecover die port vc) s) fun t =>
      Map.getD (portOf t die port).rate vc full = (if us = 0 then full else min full (r + full / 64)) ∧ Frame [.ports] s t) ∧
  (∀ s : State, s.job.flushOwed = true → Gives (exec .fabricFlush s) fun t =>
    (∀ e ∈ t.flowsTx, e.2.retained = []) ∧ (∀ e ∈ t.flowsRx, e.2.held = []) ∧ t.mcasts = [] ∧ t.colWaiting = [] ∧ t.job.flushOwed = false)

/-- A packet that passes its checks reaches its run, object or memory in its flow's order; a stale, foreign or unknown one
is dropped and counted; 11_fabric.md R518, R522, R531, R538, R539, 10_sync_collectives.md R463, R470, R481, R486, R492
to R496. -/
def Obligations.PacketsAreReceivedOrDropped : Prop :=
  (∀ (die : Die) (port : Fin 16) (pkt : Packet) (adds : List (Fin 4)) (mf : MemFaults) (run : McastRun) (s : State),
    let digest := bits pkt.word 63 32
    let next := fun (t : State) => (flowRx t (rxKey die pkt)).expected = (pkt.fseq + 1) % 2 ^ 16
    (∀ k c, HeardNext s die port ptData pkt → jobTakes s = true → colByDigest s die pkt = some k → colOf s k = some c → c.phase = .waiting →
      Gives (exec (.dataPacketReceive die port pkt adds mf) s) fun t =>
        colOf t k = some { c with early := c.early ++ [pkt] } ∧ next t ∧ t.mem = s.mem) ∧
    (HeardNext s die port ptData pkt → digestHit s die pkt = .wait → Gives (exec (.dataPacketReceive die port pkt adds mf) s) fun t =>
      waitingAt t die = waitingAt s die ++ [pkt] ∧ next t ∧ t.cols = s.cols ∧ t.mem = s.mem) ∧
    (∀ k c, HeardNext s die port ptAbort pkt → jobTakes s = true → colByDigest s die pkt = some k → colOf s k = some c → c.phase ≠ .ending →
      Gives (exec (.abortReceive die port pkt) s) fun t =>
        (∃ c', colOf t k = some c' ∧ c'.phase = .ending ∧ c'.stopped = true ∧ c'.status = abortStatus c (bits pkt.word 7 0)) ∧
        Counts s t F.colAbortCount_count die 0 1 ∧ next t) ∧
    (let r := signalOf pkt.word pkt.flow
     HeardNext s die port ptSignal pkt → jobTakes s = true → r.increment ≠ 0 → r.far = false → r.index < 65536 →
      Gives (exec (.signalPacketReceive die port pkt) s) fun t =>
        (∃ m, (syncOf t die).signals = (syncOf s die).signals ++ [m] ∧ m.index = r.index ∧ m.increment = r.increment ∧
          m.src = pkt.src) ∧ next t) ∧
    (let rx := Map.getD s.mcasts (mcastKey die pkt) ⟨0, false, run, none⟩
     let base := run.dst + bits pkt.word 31 0 * 4096
     let queued := fun (t : State) (kind : Nat) =>
       ∃ a ∈ (flowTx t (flowKey die pkt.src 1 pkt.flow)).queue, a.kind = kind ∧ bits a.word 63 32 = digest
     HeardNext s die port ptMcast pkt → mcastDigest run = digest → rx.refused = false →
      (mcastRefusal s die run = none → hiddenIn s base pkt.payload.length = [] →
        Gives (exec (.mcastReceive die port pkt ⟨run, mf⟩) s) fun t =>
          (mf.writeFails = [] → (snoopedIn s base pkt.payload.length = [] → ∀ i < pkt.payload.length,
            Map.getD t.mem (base + i) 0 = pkt.payload.getD i 0) ∧ MemSameOutside s t base pkt.payload.length) ∧ next t ∧
          (run.total ≤ rx.seen + pkt.payload.length → s.heldWrites = [] →
            snoopedIn s base pkt.payload.length = [] → queued t ptMcastAck)) ∧
      (mcastRefusal s die run ≠ none → Gives (exec (.mcastReceive die port pkt ⟨run, mf⟩) s) fun t =>
        queued t ptRefuse ∧ t.mem = s.mem ∧ next t)) ∧
    (∀ i kind, (i, kind) ∈ [(Instr.dataPacketReceive die port pkt adds mf, ptData), (.abortReceive die port pkt, ptAbort)] →
      Heard s die port kind pkt → jobTakes s = true → (flowRx s (rxKey die pkt)).held = [] → digestBad s die pkt = true → Gives (exec i s) fun t =>
        Counts s t F.colDropCount_count die 0 1 ∧ t.cols = s.cols ∧ t.mem = s.mem) ∧
    (∀ i kind, (i, kind) ∈ [(Instr.dataPacketReceive die port pkt adds mf, ptData), (.abortReceive die port pkt, ptAbort),
        (.signalPacketReceive die port pkt, ptSignal)] →
      Heard s die port kind pkt → jobTakes s = false → Gives (exec i s) fun t =>
        Counts s t F.colDropCount_count die 0 1 ∧ t.cols = s.cols ∧ t.sync = s.sync ∧ t.mem = s.mem ∧
        (flowRx t (rxKey die pkt)).expected = (flowRx s (rxKey die pkt)).expected)) ∧
  (∀ (die : Die) (port : Fin 16) (pkt : Packet) (vc : Fin 8) (s : State),
    (∀ k c, Heard s die port ptMcastAck pkt → mcastRunOf s die pkt = some (k, c) →
      Gives (exec (.mcastAckReceive die port pkt) s) fun t => colOf t k = some { c with acks := c.acks + 1 }) ∧
    (∀ k c, Heard s die port ptRefuse pkt → mcastRunOf s die pkt = some (k, c) →
      Gives (exec (.refuseReceive die port pkt) s) fun t => colOf t k = some { c with refusals := c.refusals + 1 }) ∧
    (∀ e, let f := flowTx s (answeredFlow die pkt vc (bits pkt.word 23 16))
      Heard s die port ptFenced pkt → f.retained.find? (fun e => e.1.fseq = bits pkt.word 15 0) = some e → e.1.kind = ptSignal →
      Gives (exec (.fencedReceive die port pkt vc) s) fun t =>
        (flowTx t (answeredFlow die pkt vc (bits pkt.word 23 16))).retained = f.retained.erase e ∧
        Counts s t F.synLostCount_count die 0 1)) ∧
  (∀ (die : Die) (port : Fin 16) (pkt : Packet) (adds : List (Fin 4)) (mf : MemFaults) (run : McastRun) (vc : Fin 8) (i : Instr) (kind : Nat) (s : State),
    (i, kind) ∈ [(Instr.dataPacketReceive die port pkt adds mf, ptData), (.mcastReceive die port pkt ⟨run, mf⟩, ptMcast),
      (.signalPacketReceive die port pkt, ptSignal), (.abortReceive die port pkt, ptAbort), (.ackReceive die port pkt vc, ptAck),
      (.mcastAckReceive die port pkt, ptMcastAck), (.refuseReceive die port pkt, ptRefuse), (.fencedReceive die port pkt vc, ptFenced)] →
    portUp s die port = true → rxFirst s die port pkt.vc = some pkt → pkt.kind = kind → pkt.vc < 5 → rflag s F.fabRouteCtrl_routeValid die 0 = true →
    pkt.epoch ≠ rf s F.fabRouteCtrl_epoch die 0 → Gives (exec i s) fun t =>
      Counts s t F.fabStaleCount_count die 0 1 ∧ t.cols = s.cols ∧ t.flowsTx = s.flowsTx ∧ t.flowsRx = s.flowsRx ∧ t.mem = s.mem) ∧
  (∀ (die : Die) (port : Fin 16) (pkt : Packet) (s : State), portUp s die port = true → rxFirst s die port pkt.vc = some pkt →
    (5 ≤ pkt.vc ∨ pkt.kind = 0 ∨ 9 ≤ pkt.kind) → Gives (exec (.mgmtPacketReceive die port pkt) s) fun t =>
      Counts s t F.fabMisrouteCount_count die 0 1 ∧ t.cols = s.cols ∧ t.flowsTx = s.flowsTx ∧ t.flowsRx = s.flowsRx ∧
      t.sync = s.sync ∧ t.mem = s.mem)

/-- A failed port retrains or goes down and its flows move, lanes and the bridge take new settings, and a lane group of
the bridge retires after three failures; 11_fabric.md R547 to R551, 01_module_overview.md R36, R37,
16_faults_background.md R733, R754, R755. -/
def Obligations.PortsFailRetrainAndRecalibrate : Prop :=
  (∀ (die : Die) (port : Fin 16) (cause : PortFailCause) (s : State),
    let v := portOf s die port
    portStateOf s die port ≠ portDown → v.failing = false →
    (match cause with
      | .lockLoss => ∃ e ∈ v.unlocked, e.2 + 4000 < now s die
      | .exhausted q => ∃ e ∈ v.replayBuf, e.seq = q.toNat ∧ e.exhausted = true) →
    Gives (exec (.portFail die port cause) s) fun t =>
      (portOf t die port).failing = true ∧
      (bitOf (rd s .fabPortMode die 0) port = true → portStateOf t die port = portDown ∧ portLanes t die port = 0 ∧
        (portOf t die port).reinject = true ∧ Counts s t F.fabDetourCount_count die 0 1) ∧
      (bitOf (rd s .fabPortMode die 0) port = false → portStateOf t die port = portTraining ∧
        Counts s t F.fabRetrainCount_count die 0 1)) ∧
  (∀ (die : Die) (port : Fin 16) (good : BitVec 8) (s : State),
    let v := portOf s die port
    let lanes := goodLanes s die port good.toNat
    let n := widthOf (min (portLanes s die port) lanes.length)
    portStateOf s die port = portTraining → v.failing = true →
    Gives (exec (.retrainComplete die port good) s) fun t =>
      (n ≠ 0 → portStateOf t die port = portIsUp ∧ portLanes t die port = n ∧
        (portOf t die port).failing = false ∧ (portOf t die port).inUse = lanes.take n ∧
        (portOf t die port).replayBuf = v.replayBuf.map (fun e => if v.gone e = true then { e with lane := 0 } else e) ∧
        (portOf t die port).toWire = v.replayBuf.map (fun e => e.seq)) ∧
      (n = 0 → portStateOf t die port = portDown ∧ (portOf t die port).reinject = true)) ∧
  (∀ (die : Die) (port : Fin 16) (s : State), (portOf s die port).reinject = true → portStateOf s die port = portDown →
    Gives (exec (.detourReinject die port) s) fun t =>
      ((portOf t die port).reinject = true ↔ flowsOn t die port ≠ []) ∧ (portOf t die port).failing = false ∧
      ∀ key c, keyDie key = die → (flowTx s key).cand = some c → c.port = port → (flowTx s key).retained ≠ [] →
        let f := flowTx s key
        let f' := flowTx t key
        let moved := (∀ p ∈ f'.retained, p.1.detour = true) ∧ f'.retained.length = f.retained.length ∧
          f'.resend = f'.retained.map (fun e => (e.1.fseq, false)) ∧ ∃ c', f'.cand = some c' ∧ c'.port ≠ port
        ((chooseCandidate s die (keyEp key) (keyVc key)).isSome = true →
          moved ∨ (f'.retained = f.retained ∧ f'.cand = f.cand)) ∧
        (∀ c', flowsOn s die port = [key] → chooseCandidate s die (keyEp key) (keyVc key) = some c' →
          retainRoom s die c'.port (keyVc key) (f.retained.map (fun e => e.1)) = true → moved ∧ f'.cand = some c')) ∧
  (∀ (die : Die) (port : Fin 16) (lane : Fin 8) (idle : Nat) (s : State), Awake s → lane.val ∈ (portOf s die port).inUse →
    Gives (exec (.laneRecalibrate die port lane idle false) s) (fun t =>
      Map.find (portOf t die port).settings lane = some (Config.freeValue s.freeCtr) ∧ t.freeCtr = s.freeCtr + 1 ∧
      (portOf t die port).idleOwed = max (portOf s die port).idleOwed (4096 - idle) ∧ Frame [.ports, .freeCtr] s t) ∧
    Gives (exec (.laneRecalibrate die port lane idle true) s) (fun t =>
      (portOf t die port).settings = (portOf s die port).settings ∧
      (portOf t die port).idleOwed = max (portOf s die port).idleOwed (4096 - idle) ∧ Frame [.ports] s t)) ∧
  (∀ (g : Fin 64) (s : State), g.val ∉ s.flt.bridgeRetired →
    (Awake s → Gives (exec (.bridgeRecalibrate g) s) fun t =>
      Map.find t.flt.bridgeSettings g = some (Config.freeValue s.freeCtr) ∧ t.freeCtr = s.freeCtr + 1 ∧ Frame [.flt, .freeCtr] s t) ∧
    Gives (exec (.bridgeFlitReceive g true) s) (fun t => Map.getD t.flt.bridgeTries g 0 = 0 ∧ Frame [.flt] s t) ∧
    (Map.getD s.flt.bridgeTries g 0 < 2 → Gives (exec (.bridgeFlitReceive g false) s) fun t =>
      Map.getD t.flt.bridgeTries g 0 = Map.getD s.flt.bridgeTries g 0 + 1) ∧
    (2 ≤ Map.getD s.flt.bridgeTries g 0 → chanState s kBridge g = 0 → Gives (exec (.bridgeFlitReceive g false) s) fun t =>
      g.val ∈ t.flt.bridgeRetired ∧ Map.getD t.flt.bridgeTries g 0 = 0))

/-- An exchange takes its stamps and corrects the counter by slewing or a step, synced is lost on bad or missing
exchanges, and TIMEIN and TIMEOUT act; 14_sidereal_ephemeris.md R654, R657 to R663, R684. -/
def Obligations.TimeIsTakenAndCorrected : Prop :=
  (∀ (d p : Nat) (s : State), Awake s →
    let u := sourceSettle s
    timeTaker u = some (d, p) → mayAsk u d = true → (portOf u d (p % 16)).replayBuf.length < 512 →
    Gives (exec .siderealExchange s) fun t =>
      (sidOf t d).lastAsk = some (now s d) ∧ (sidOf t d).request = some (p % 16, (portOf u d (p % 16)).txSeq) ∧
      (∃ e, (portOf t d (p % 16)).replayBuf = (portOf u d (p % 16)).replayBuf ++ [e] ∧ e.kind = flitControl) ∧ now t d = now s d) ∧
  (∀ (die : Die) (port : Fin 16) (n : Nat) (s : State), portUp s die port = true → linkBusy (portOf s die port) = true →
    (sidOf s die).request = some (port.val, n) → (∃ e ∈ pairFlits (closeFlits (portOf s die port)), e.seq = n) →
    (sidOf (sendPair s die port) die).asked = some (now s die)) ∧
  (∀ (t2 t3 : BitVec 64) (stratum : BitVec 4) (d p t1 : Nat) (s : State),
    timeTaker s = some (d, p) → d < 2 → (sidOf s d).asked = some t1 → stratum ≠ 15 →
    let twice : Int := (t2.toNat - t1) - (now s d - t3.toNat)
    let told := rf s F.sidStatus_source (1 - d) 0 = srcBridge ∧ rflag s F.sidStatus_synced (1 - d) 0 = true
    Gives (exec (.exchangeAnswer t2 t3 stratum) s) fun t =>
      (sidOf t d).asked = none ∧
      (8000 < twice → now t d = (now s d + (twice / 2).toNat) % 2 ^ 64 ∧ Counts s t F.sidStepCount_count d 0 1 ∧
        (sidOf t d).slew = 0) ∧
      (-8000 ≤ twice → twice ≤ 8000 → now t d = now s d ∧ (sidOf t d).slew = Int.tdiv twice 2) ∧
      (20 < twice.natAbs → rflag t F.sidStatus_synced d 0 = false ∧
        (told → ∃ m ∈ t.bridge, m.dest = 1 - d ∧ ∃ x y, m.body = .synced false x y))) ∧
  (∀ (die : Die) (twice delta : Int) (s : State),
    let t := judge s die twice delta
    (twice.natAbs ≤ 8 → 2 ≤ (sidOf s die).good → rflag t F.sidStatus_synced die 0 = true ∧
      (rf s F.sidStatus_source (1 - die.val) 0 = srcBridge → rflag s F.sidStatus_synced (1 - die.val) 0 = false →
        ∃ m ∈ t.bridge, m.dest = 1 - die.val ∧ ∃ x y, m.body = .synced true x y))) ∧
  (∀ s : State,
    let d := match timeTaker s with | some (d, _) => d | none => 0
    d < 2 → (∀ (die : Die) x, (sidOf s die).lastExchange = some x → x + 40000000 ≤ now s die) →
    (rflag s F.sidStatus_synced 0 0 = true ∨ rflag s F.sidStatus_synced 1 0 = true) →
    Gives (exec .syncLossTimeout s) fun t => rflag t F.sidStatus_synced d 0 = false ∧
      (rflag s F.sidStatus_synced d 0 = true → Counts s t F.sidLossCount_count d 0 1) ∧
      (rf s F.sidStatus_source (1 - d) 0 = srcBridge → rflag s F.sidStatus_synced (1 - d) 0 = true →
        ∃ m ∈ t.bridge, m.dest = 1 - d ∧ ∃ x y, m.body = .synced false x y)) ∧
  (∀ s : State, Awake s → rf s F.sidStatus_source 1 0 = srcBridge → Gives (exec .bridgeTimeMeasure s) fun t =>
    now t 0 = now s 0 ∧ rflag t F.sidStatus_synced 1 0 = rflag s F.sidStatus_synced 0 0 ∧
    (now s 0 ≤ now s 1 + 4000 → now s 1 ≤ now s 0 + 4000 →
      now t 1 = now s 1 ∧ (sidOf t 1).slew = (now s 0 : Int) - now s 1) ∧
    (now s 1 + 4000 < now s 0 → now t 1 = now s 0 % 2 ^ 64 ∧ Counts s t F.sidStepCount_count 1 0 1)) ∧
  (∀ s : State, s.host.powered = true → crossed s 0 4000000000 = true →
    (∀ x, (sidOf s 0).lastPulse = some x → x / 4000000000 ≠ now s 0 / 4000000000) → Gives (exec .timeoutPulse s) fun t =>
    timeoutHigh t = true ∧ Frame [.sid] s t) ∧
  (∀ s : State, s.host.powered = true → rflag s F.sidCtrl_timeinEn 0 0 = true →
    let e := offSecond ((now s 0 : Int) - rf s F.sidTimeinDelay_delayTicks 0 0)
    let follows := rf s F.sidStatus_source 0 0 = srcTimein ∨
      (rflag s F.sidCtrl_master 0 0 = true ∧ rflag s F.sidCtrl_extRef 0 0 = true)
    Gives (exec .timeinEdge s) fun t =>
      (sidOf t 0).lastTimein = some (now s 0) ∧
      (follows → e.natAbs ≤ 4000 → (sidOf t 0).slew = -e ∧ now t 0 = now s 0) ∧
      (¬ follows → 200 < e.natAbs → Recorded s t 0 ∧ now t 0 = now s 0)) ∧
  (∀ (x : Nat) (s : State), (sidOf s 0).lastTimein = some x → rflag s F.sidCtrl_timeinEn 0 0 = true → x + 4400000000 ≤ now s 0 →
    Gives (exec .timeinMissing s) fun t => (sidOf t 0).lastTimein = none ∧ Pends t 0 9 2)

/-- TELEMETRY numbers a record and keeps it, held records and events go to their rings in order while there is room, and
scrub changes no data; 14_sidereal_ephemeris.md R676 to R678, 12_host_interface.md R576, R600, 09_hbm.md R439 to R443.
-/
def Obligations.RecordsAreFlushedAndScrubbed : Prop :=
  (∀ s : State, s.host.powered = true → powerState s ≠ pwrDark → rflag s F.ephCtrl_telemetryEn 0 0 = true →
    crossed s 0 40000000 = true → (∀ r, s.mgmt.lastTelemetry = some r → r.stamp / 40000000 ≠ now s 0 / 40000000) →
    Gives (exec .telemetry s) fun t =>
      Recorded s t 0 ∧ ∃ r, t.mgmt.lastTelemetry = some r ∧ r.code = 0x40 ∧ r.stamp = now s 0 ∧
        r.payload % 2 ^ 48 = rd s .pwrEnergy 0 0 % 2 ^ 48 ∧ bits r.payload 63 48 = min 65535 ((s.pwr.history.take 10).sum) ∧
        bits r.payload 79 64 = rf s F.clkStatus_freqMhz 0 0 ∧ bits r.payload 95 80 = rf s F.clkStatus_freqMhz 1 0 ∧
        bits r.payload 111 96 = rf s F.pwrTemp_hottest 0 0) ∧
  (∀ (die : Die) (s : State),
    ((ephOf s die).held ≠ [] → ringHasRoom s die 34 = true →
      Gives (exec (.ephemerisFlush die true) s) (fun t => ∃ n, 1 ≤ n ∧ n ≤ (ephOf s die).held.length ∧
        (ephOf t die).held = (ephOf s die).held.drop n ∧ ringHead t die 34 = (ringHead s die 34 + n) % 2 ^ 32 ∧
        ((ephOf t die).held = [] ∨ ringHasRoom t die 34 = false)) ∧
      Gives (exec (.ephemerisFlush die false) s) (fun t => ringState t die 34 = ringFaulted ∧
        (ephOf s die).held <+: (ephOf t die).held ∧ Counts s t F.hifFetchFaultCount_count die 0 1)) ∧
    (eventsOf s die ≠ [] → ringHasRoom s die 33 = true →
      Gives (exec (.eventFlush die true) s) (fun t => ∃ n, 1 ≤ n ∧ n ≤ (eventsOf s die).length ∧
        eventsOf t die = (eventsOf s die).drop n ∧ ringHead t die 33 = (ringHead s die 33 + n) % 2 ^ 32 ∧
        (eventsOf t die = [] ∨ ringHasRoom t die 33 = false)) ∧
      Gives (exec (.eventFlush die false) s) (fun t => ringState t die 33 = ringFaulted ∧ eventsOf s die <+: eventsOf t die ∧
        Counts s t F.hifFetchFaultCount_count die 0 1))) ∧
  (∀ (h : Fin 384) (findings : List ScrubFinding) (s : State), usableIndex s h ≠ none → Awake s →
    Gives (exec (.patrolScrub h findings) s) fun t =>
      let b := scrubBatch (scrubOf s h)
      t.mem = s.mem ∧ ((∀ f ∈ findings, f.outcome.inverse = false) → t.poison = s.poison) ∧
      (findings = [] → s.poison = [] →
        scrubOf t h = { b.2.2 with queued := b.2.2.queued.filter fun x => decide (x < b.1 ∨ b.1 + b.2.1 ≤ x) }))

/-- A control step orders both dies to the highest affordable frequency and releases held completions; steps, droop and
overpower act on the clock; 15_power_clocks.md R695, R697, R701 to R706, R724, R726. -/
def Obligations.PowerAndClocksAreControlled : Prop :=
  (∀ (mj : Nat) (s : State), s.host.powered = true → clocksRun s = false → reached s 4000000 s.pwr.lastStep = true →
    Gives (exec (.controlStep mj) s) fun t => rd t .pwrEnergy 0 0 = (rd s .pwrEnergy 0 0 + mj) % 2 ^ 64 ∧
      Frame [.reg .pwrEnergy, .reg .pwrAvg, .pwr] s t) ∧
  (∀ (mj : Nat) (s : State), clocksRun s = true → crossed s 0 4000000 = true →
    (∀ x, s.pwr.lastStep = some x → x / 4000000 ≠ now s 0 / 4000000) →
    let pick := affordable (budget s ((mj :: s.pwr.history).take 10000)) mj (rf s F.clkStatus_freqMhz 0 0) (freqCeiling s)
    Gives (exec (.controlStep mj) s) fun t =>
      rd t .pwrEnergy 0 0 = (rd s .pwrEnergy 0 0 + mj) % 2 ^ 64 ∧ t.pwr.history = (mj :: s.pwr.history).take 10000 ∧
      rf t F.pwrStatus_ceilingMhz 0 0 = freqCeiling s ∧
      rf t F.clkStatus_targetMhz 0 0 = pick.getD 500 ∧ rf t F.clkStatus_targetMhz 1 0 = pick.getD 500 ∧
      (rflag t F.pwrStatus_floorStretch 0 0 = true ↔ pick = none) ∧ t.pwr.lastOrder = pick.getD 500 ∧
      (∀ c ∈ (ringWork t 0 32).toWrite, c.held = false) ∧ t.mem = s.mem) ∧
  (∀ (b : Int) (m f0 ceiling f : Nat), affordable b m f0 ceiling = some f →
    500 ≤ f ∧ f ≤ ceiling ∧ f % 25 = 0 ∧ (Config.predictedPower m f0 f : Int) ≤ b ∧
    ∀ g, f < g → g ≤ ceiling → g ≤ 1250 → g % 25 = 0 → b < (Config.predictedPower m f0 g : Int)) ∧
  (∀ (die : Die) (f : Nat) (s : State), (clkOf s die).stepTo = some f → f ≤ 1250 → clocksRun s = true → stepHeld s die = false →
    Gives (exec (.dvfsStep die) s) fun t =>
      let target := rf s F.clkStatus_targetMhz die 0
      rf t F.clkStatus_freqMhz die 0 = (if target < f then max target (f - 25) else f) ∧ rf t F.clkStatus_targetMhz die 0 = target ∧
      ((clkOf t die).stepTo = none ↔ target = f)) ∧
  (∀ (die : Die) (x : DroopReading) (s : State), x.die = die → clocksRun s = true → (clkOf s die).droop = false →
    rf s F.clkDroopCfg_thresholdMv die 0 < x.below → Gives (exec (.droopDetect x) s) fun t =>
    (clkOf t die).droop = true ∧ rf t F.clkStatus_stretch die 0 = 1 ∧ Counts s t F.clkDroopCount_count die 0 1 ∧ Pends t die 2 4) ∧
  (∀ (die : Die) (x : DroopReading) (s : State), x.die = die → (clkOf s die).droop = true →
    x.below < rf s F.clkDroopCfg_thresholdMv die 0 → 50 ≤ x.ns → Gives (exec (.droopClear x) s) fun t =>
    (clkOf t die).droop = false ∧ ((clkOf s die).stepTo ≠ none → (clkOf t die).heldUntil = now s die + 4000) ∧
    (rf t F.clkStatus_stretch die 0 = 1 ↔
      ((clkOf s die).overPower = true ∨ (clkOf s die).brake = true ∨ rflag s F.pwrStatus_floorStretch 0 0 = true))) ∧
  (∀ (w : Nat) (die : Die) (s : State), clocksRun s = true → Gives (exec (.overpowerStretch w) s) fun t =>
    (2400 < w → (clkOf t die).overPower = true ∧ rf t F.clkStatus_stretch die 0 = 1) ∧
    (w < 2300 → (clkOf t die).overPower = false) ∧ (2300 ≤ w → w ≤ 2400 → t = s))

/-- A Heliostat epoch decays the balance and grants, heat lowers the ceiling, alerts and kills the job, and brakes and the
supply act as their rules say; 15_power_clocks.md R708 to R713, R718, R719, 19_pins_electrical.md R814 to R816. -/
def Obligations.HeliostatThermalAndBrakesAct : Prop :=
  (∀ s : State, helioOn s = true → crossed s 0 400000000 = true →
    (∀ x, s.pwr.lastEpoch = some x → x / 400000000 ≠ now s 0 / 400000000) →
    let base : Int := rf s F.pwrHelioCfg_baseW 0 0
    let balance := fun (t : State) (b : Int) => t.pwr.balance = b ∧ t.pwr.target = (base + b).toNat ∧
      rf t F.pwrHelioStatus_balanceW 0 0 = codeOf 16 b
    Gives (exec .heliostatEpoch s) fun t =>
      t.pwr.waits = (s.pwr.waits.filter fun x => decide (now s 0 ≤ x.released)) ∧ t.pwr.lastEpoch = some (now s 0) ∧
      (∀ c, helioCritical s = some c → 0 < helioIncrement s →
        t.pwr.grant = some (c, (helioIncrement s).toNat, false) ∧
        balance t (helioLeft s - helioIncrement s)) ∧
      ((helioCritical s = none ∨ helioIncrement s ≤ 0) →
        t.pwr.grant = none ∧ balance t (helioLeft s))) ∧
  (∀ (c g : Nat) (s : State), s.pwr.grant = some (c, g, true) → g < 65536 → helioOn s = true → 4000000 ≤ now s 0 % 400000000 →
    Gives (exec .grantSend s) fun t => t.pwr.grant = none ∧
      (c ≠ location s → rflag s F.fabRouteCtrl_routeValid 0 0 = true → g ≠ 0 →
        ∃ p ∈ (flowTx t (flowKey 0 (2 * c) 0 24)).queue, p.kind = ptSignal ∧ p.dst = 2 * c ∧
          (signalOf p.word 24).index = rf s F.pwrHelioCfg_obj 0 0 ∧ (signalOf p.word 24).increment = g)) ∧
  (∀ (x : BitVec 16) (s : State), clocksRun s = true →
    let limit := 10 * rf s F.pwrThermCfg_throttleC 0 0
    Gives (exec (.thermalCeilingStep x) s) fun t =>
      t.pwr.thermCeiling = (if limit ≤ x.toNat then max 500 (s.pwr.thermCeiling - 25)
        else if x.toNat + 30 < limit then min 1250 (s.pwr.thermCeiling + 25) else s.pwr.thermCeiling) ∧
      rf t F.pwrTemp_hottest 0 0 = x.toNat ∧ (t.pwr.thermCeiling ≠ s.pwr.thermCeiling → Recorded s t 0)) ∧
  (∀ (x : BitVec 16) (s : State), s.host.powered = true → powerState s ≠ pwrDark →
    let limit := 10 * rf s F.pwrThermCfg_alertC 0 0
    Gives (exec (.thermalAlert x) s) fun t =>
      (s.pwr.thermAsserted = false → limit ≤ x.toNat →
        t.pwr.thermAsserted = true ∧ rf t F.pwrStatus_therm 0 0 = 1 ∧ Pends t 0 2 2 ∧ Pends t 1 2 2) ∧
      (s.pwr.thermAsserted = true → x.toNat + 50 < limit → t.pwr.thermAsserted = false ∧ rf t F.pwrStatus_therm 0 0 = 0) ∧
      (s.pwr.thermAsserted = true → limit ≤ x.toNat + 50 → t.pwr.thermAsserted = true)) ∧
  (∀ (x : BitVec 16) (s : State), clocksRun s = true → 10 * rf s F.pwrThermCfg_critC 0 0 ≤ x.toNat →
    Gives (exec (.thermalCritical x) s) fun t =>
      t.host.lowPower = some .dark ∧ t.pwr.thermDark = true ∧
      (jobRuns s = true → hostPending s (fun c => c.kind = 0x30 || c.kind = 0x31) = none →
        higherAct s 1 actKill .firmware = none → (jobState t = 3 ∨ jobState t = 0) ∧ t.cores = [] ∧ t.cols = [])) ∧
  (∀ s : State, s.host.powered = true → Gives (exec .powerBrake s) fun t =>
    t.pwr.brakePin = true ∧ rf t F.pwrStatus_brake 0 0 = 1 ∧ rf t F.pwrStatus_tight 0 0 = 1 ∧
    Counts s t F.pwrBrakeCount_count 0 0 1) ∧
  (∀ s : State, s.pwr.brakePin = true → rflag s F.icuInputState_pwrbrkN 0 0 = true → Gives (exec .brakeRelease s) fun t =>
    t.pwr.brakePin = false ∧ rf t F.pwrStatus_brake 0 0 = flagBit s.pwr.brakeSupply) ∧
  (∀ s : State, s.host.powered = true → s.pwr.brakeSupply = false → Gives (exec .supplyBrake s) fun t =>
    t.pwr.brakeSupply = true ∧ rf t F.pwrStatus_brake 0 0 = 1 ∧ rf t F.pwrStatus_tight 0 0 = 1) ∧
  (∀ s : State, s.pwr.brakeSupply = true → Gives (exec .supplyRecover s) fun t =>
    t.pwr.brakeSupply = false ∧ rf t F.pwrStatus_brake 0 0 = flagBit s.pwr.brakePin) ∧
  (∀ s : State, s.host.powered = true → Gives (exec .supplyLoss s) fun t =>
    t.host.powered = false ∧ t.mem = [] ∧ t.cores = [] ∧ t.rings = [] ∧ t.hostMem = s.hostMem ∧
    ledgerReadable t.flt.ledger = ledgerReadable s.flt.ledger) ∧
  (∀ (pins : PinLevels) (train : List (BitVec 8)) (s : State), s.host.powered = false →
    exec (.supplyRestart pins train) s = exec (.por pins train) s)

/-- Discovery, the certificates, attestation, the ledger and the update query answer the object their rules give and
change nothing but the interrupt; 18_trust_update.md R782 to R787, 16_faults_background.md R747. -/
def Obligations.TrustObjectsAnswer : Prop :=
  ∀ (m : Master) (s : State), objReaches s m = true →
    let quiet := Frame [.reg .icuPend, .icuTimers, .wakePending, .answers] s
    let open_ := rflag s F.truStatus_recovery 0 0 = false
    let tells := fun (i : Instr) (op st : Nat) (body : Bytes) => Gives (exec i s) fun t =>
      t.answers.doe = leBytes 1 op ++ leBytes 1 st ++ leBytes 2 0 ++ leBytes 4 0 ++ body ∧
      Pends t 0 3 (if m = .host then 6 else 5) ∧ quiet t
    tells (.identityUnit m) 1 stOk Config.unitCertificate ∧
    tells (.identityAlias m) 2 stOk (Config.aliasCertificate (Config.mldsaPublic (aliasSeed s))
      (runningDigest s + 2 ^ 512 * (s.tru.running.svn + 2 ^ 32 * s.tru.aliasSalt))) ∧
    (∀ nonce : BitVec 256, (open_ → tells (.attest m nonce) 1 stOk (evidence s nonce.toNat)) ∧
      (¬ open_ → tells (.attest m nonce) 1 stRefused [])) ∧
    (∀ index, (open_ → tells (.ledgerRead m index) 1 stOk (((s.flt.ledger.drop index).take 128).flatMap ledgerBytes)) ∧
      (¬ open_ → tells (.ledgerRead m index) 1 stRefused [])) ∧
    (∀ index, Gives (exec (.updateQuery m index) s) fun t =>
      t.answers.doe.take 12 = leBytes 1 3 ++ leBytes 1 stOk ++ leBytes 2 0 ++ leBytes 4 0 ++ leBytes 1 (upState s) ++
        leBytes 1 (rf s F.truUpdateStatus_reason 0 0) ++ leBytes 2 (rf s F.truUpdateChunks_staged 0 0) ∧
      (∀ i < 4096, bitOf (leAt t.answers.doe (12 + i / 8) 1) (i % 8) = s.tru.staged.contains (32 * index + i)) ∧ quiet t) ∧
    (∀ index, m = .host → Gives (exec (.doeDiscovery index) s) fun t =>
      t.answers.doe = (if index = 0 then leBytes 2 1 ++ leBytes 1 0 ++ leBytes 1 1
        else if index ≤ 5 then leBytes 2 0x1E87 ++ leBytes 1 index ++ leBytes 1 (if index < 5 then index + 1 else 0)
        else leBytes 4 0xFFFF) ∧ quiet t)

/-- An update is begun, staged, verified, programmed, armed, activated, confirmed or fallen back with the states of R798;
18_trust_update.md R787, R795 to R805. -/
def Obligations.UpdatesMoveThroughTheirStates : Prop :=
  (∀ (m : Master) (s : State), objReaches s m = true → heldByMgmt s m = false →
    (∀ (length : Nat) (digest : BitVec 512), 8192 ≤ length → length ≤ 64 * 0x10_0000 → inTrial s = false →
      (s.tru.session = false ∨ digest.toNat ≠ s.tru.sessionDigest) → upState s ≠ usProgramming → upState s ≠ usArmed →
      upState s ≠ usActivating → Gives (exec (.updateBegin m length digest) s) fun t =>
        upState t = usReceiving ∧ t.tru.session = true ∧ t.tru.sessionLen = length ∧ t.tru.sessionDigest = digest.toNat ∧
        t.tru.staged = [] ∧ t.tru.staging = [] ∧ rf t F.truUpdateChunks_total 0 0 = divCeil length 4096) ∧
    (∀ (index : Nat) (crc : BitVec 32) (data : Bytes), s.tru.session = true → index < divCeil s.tru.sessionLen 4096 →
      crc32 data = crc.toNat → (∀ b ∈ data.drop (s.tru.sessionLen - 4096 * index), b = 0) → upState s = usReceiving →
      index ∉ s.tru.staged → Gives (exec (.updateChunk m index crc data) s) fun t =>
        (∀ i < data.length, Map.getD t.tru.staging (4096 * index + i) 0 = data.getD i 0) ∧ t.tru.staged = s.tru.staged ++ [index] ∧
        upState t = (if s.tru.staged.length + 1 = divCeil s.tru.sessionLen 4096 then usVerifying else usReceiving) ∧ Pends t 0 3 7) ∧
    (∀ rival, s.tru.session = true → upState s ≠ usActivating → inTrial s = false →
      (outrankedBy m rival = none → Gives (exec (.updateAbandon ⟨m, rival⟩) s) fun t =>
        upState t = usIdle ∧ t.tru.session = false ∧ t.tru.staging = [] ∧ t.tru.staged = []) ∧
      (outrankedBy m rival ≠ none → Gives (exec (.updateAbandon ⟨m, rival⟩) s) fun t =>
        leAt t.answers.doe 1 1 = stSuperseded ∧ Recorded s t 0 ∧ upState t = upState s ∧ t.tru = s.tru)) ∧
    (∀ (w : Nat) (low : Bool) (rival : Option Master), w ≤ 1 → upState s = usReady →
      (activateNeeds s = true → presenceLatched s = true) → (jobRuns s = true → w = 1 ∧ imgIsBundle s.tru.staging = false) →
      let i := Instr.updateActivate ⟨m, rival⟩ w low
      let beaten := outrankedBy (actsAs s m (activateNeeds s)) rival
      (beaten ≠ none → Gives (exec i s) fun t =>
        leAt t.answers.doe 1 1 = stSuperseded ∧ Recorded s t 0 ∧ upState t = usReady ∧ t.tru = s.tru) ∧
      (beaten = none → imgIsBundle s.tru.staging = true → ownerLocked s = false → low = false → jobRuns s = false → Gives (exec i s) fun t =>
        upState t = usIdle ∧ rf t F.truUpdateStatus_outcome 0 0 = 3 ∧ t.tru.session = false ∧
        t.tru.bundleSeq = imgSeq s.tru.staging ∧ t.flt.countSet = ((List.range ((imgLen s.tru.staging - 8192) / 8)).foldl
          (bundleEntry s.tru.staging) (settingsNow s)).counts) ∧
      (imgIsBundle s.tru.staging = false → beaten = none → jobRuns s = true → Gives (exec i s) fun t => upState t = usArmed ∧ t.host.restart = s.host.restart) ∧
      (imgIsBundle s.tru.staging = false → beaten = none → jobRuns s = false → s.host.restart = none → Gives (exec i s) fun t =>
        t.host.restart = some .activation ∧ t.host.rdybsyN = false ∧ (bankImage s (1 - s.tru.activeBank) ≠ none →
          upState t = usActivating ∧ t.tru.trialSet = true ∧ t.tru.trialBank = 1 - s.tru.activeBank))) ∧
    (∀ rival, inTrial s = true → Gives (exec (.updateEndTrial ⟨m, rival⟩) s) fun t =>
      upState t = usIdle ∧ rf t F.truUpdateStatus_outcome 0 0 = 2 ∧ t.tru.trialSet = false ∧ t.tru.activeBank = s.tru.activeBank ∧
      (outranks m rival ≠ none → Recorded s t 0))) ∧
  (∀ s : State, upState s = usVerifying → Gives (exec .imageVerified s) fun t =>
    (∀ r, imageReason s s.tru.staging true = some r → upState t = usRejected ∧ rf t F.truUpdateStatus_reason 0 0 = r % 2 ^ 4) ∧
    (imageReason s s.tru.staging true = none → upState t = if imgIsBundle s.tru.staging then usReady else usProgramming)) ∧
  (∀ s : State, upState s = usProgramming → Gives (exec .bankProgrammed s) fun t =>
    upState t = usReady ∧ (s.tru.activeBank = 0 → t.tru.bank1 = some s.tru.staging ∧ t.tru.bank0 = s.tru.bank0) ∧
    (s.tru.activeBank ≠ 0 → t.tru.bank0 = some s.tru.staging ∧ t.tru.bank1 = s.tru.bank1)) ∧
  (∀ s : State, upState s = usArmed → jobRuns s = false → s.host.restart = none → Gives (exec .activationStart s) fun t =>
    t.host.restart = some .activation ∧ t.host.rdybsyN = false ∧ (bankImage s (1 - s.tru.activeBank) ≠ none →
      upState t = usActivating ∧ t.tru.trialSet = true ∧ t.tru.trialBank = 1 - s.tru.activeBank)) ∧
  (∀ s : State, inTrial s = true → s.tru.running.diag = false →
    (waitingEndTrial s ≠ none → Gives (exec .trialConfirm s) fun t => upState t = usTrial ∧ t.tru = s.tru ∧ Recorded s t 0) ∧
    (waitingEndTrial s = none → Gives (exec .trialConfirm s) fun t => upState t = usIdle ∧ rf t F.truUpdateStatus_outcome 0 0 = 1 ∧ t.tru.activeBank = s.tru.trialBank ∧ t.tru.trialSet = false ∧
    rf t F.truFuse_svn 0 0 = max (rf s F.truFuse_svn 0 0) (min 128 s.tru.running.svn))) ∧
  (∀ s : State, inTrial s = true → s.tru.trialFrom + 600 * 4000000000 ≤ now s 0 → Gives (exec .trialFallback s) fun t =>
    upState t = usIdle ∧ rf t F.truUpdateStatus_outcome 0 0 = 2 ∧ t.tru.trialSet = false ∧ t.tru.activeBank = s.tru.activeBank)

/-- An AUTHORISE action takes effect with presence, no job and no trial, and is REFUSED otherwise; the debug port answers
only once unlocked; 18_trust_update.md R793, R794, R803, 17_resets_states.md, 19_pins_electrical.md R837, R838. -/
def Obligations.AuthorisedActionsNeedPresence : Prop :=
  (∀ (m : Master) (key : Bytes) (s : State), objReaches s m = true → rflag s F.truStatus_recovery 0 0 = false →
    let done := fun (t : State) (op : Nat) => t.answers.doe = leBytes 1 op ++ leBytes 1 stOk ++ leBytes 2 0 ++ leBytes 4 0
    (presenceLatched s = true → jobRuns s = false → inTrial s = false → upState s ≠ usActivating →
      (rflag s F.truStatus_ownerKey 0 0 = true → Gives (exec (.setOwnerLock m) s) fun t => ownerLocked t = true ∧ done t 1) ∧
      Gives (exec (.clearOwnerLock m) s) (fun t => ownerLocked t = false ∧ done t 2) ∧
      (key.length = 2592 → ownerLocked s = false → Gives (exec (.enrollOwnerKey m key) s) fun t =>
        rflag t F.truStatus_ownerKey 0 0 = true ∧ t.tru.ownerDigest = Config.sha3 key ∧ t.tru.bundleSeq = 0 ∧ done t 3) ∧
      Gives (exec (.debugUnlock m) s) (fun t => rflag t F.truStatus_debugUnlocked 0 0 = true ∧ done t 4) ∧
      Gives (exec (.rebindIdentity m) s) (fun t => t.tru.salt = Config.randomDraw s.tru.draws ∧ t.tru.draws = s.tru.draws + 1 ∧ done t 5) ∧
      Gives (exec (.factoryReset m) s) (fun t => ownerLocked t = false ∧ rflag t F.truStatus_ownerKey 0 0 = false ∧
        t.flt.ledger = [] ∧ t.flt.pendingRecs = [] ∧ rd t .truSealCount 0 0 = 0 ∧ upState t = usIdle ∧ done t 6)) ∧
    ((presenceLatched s = false ∨ jobRuns s = true ∨ inTrial s = true) → ∀ i op,
      (i, op) ∈ [(Instr.setOwnerLock m, 1), (.clearOwnerLock m, 2), (.debugUnlock m, 4), (.rebindIdentity m, 5), (.factoryReset m, 6)] ++
        (if key.length = 2592 then [(.enrollOwnerKey m key, 3)] else []) →
      Gives (exec i s) fun t => t.answers.doe = leBytes 1 op ++ leBytes 1 stRefused ++ leBytes 2 0 ++ leBytes 4 0 ∧
        Frame [.reg .icuPend, .icuTimers, .wakePending, .answers] s t)) ∧
  (∀ (a : Nat) (b : Byte) (s : State),
    (rflag s F.truStatus_debugUnlocked 0 0 = false → ∀ w mf, Gives (exec (.debugPortAccess a ⟨w, mf⟩) s) fun t =>
      t.answers.jtag = none ∧ Frame [.answers] s t) ∧
    (∀ mf, s.host.powered = true → powerState s ≠ pwrDark → rflag s F.truStatus_debugUnlocked 0 0 = true → regionOf s a ≠ none →
      hiddenIn s a 1 = [] →
      (failRow s mf a 1 = none → Gives (exec (.debugPortAccess a ⟨none, mf⟩) s) fun t =>
        t.answers.jtag = some (Map.getD s.mem a 0) ∧ t.mem = s.mem) ∧
      (failRow s mf a 1 ≠ none → Gives (exec (.debugPortAccess a ⟨none, mf⟩) s) fun t =>
        (∃ n, t.answers.jtag = some (BitVec.ofNat 8 (Config.freeValue n))) ∧ t.mem = s.mem) ∧
      (mf.writeFails = [] → Gives (exec (.debugPortAccess a ⟨some b, mf⟩) s) fun t => (snoopedIn s a 1 = [] → Map.getD t.mem a 0 = b) ∧
        MemSameOutside s t a 1)))

/-- Each management command answers a framed response with its status and body, with the effect R832 gives it, and a bad
frame answers INVALID; 19_pins_electrical.md R829 to R832, 12_host_interface.md R597, R605 to R608, 15_power_clocks.md
R689, R690. -/
def Obligations.ManagementCommandsAnswer : Prop :=
  (∀ (frame : Bytes) (low : Bool) (rival : Option Master) (s : State), s.host.powered = true → s.mgmt.addr.isSome = true →
    let body := (frame.drop 8).take (frame.length - 12)
    let seq := leAt frame 1 1
    let tells := fun (t : State) (code st : Nat) (b : Bytes) => t.answers.i3c = some (i3cResponse code seq st b)
    let ok := fun (code : Nat) (p : Nat → Bool) => leAt frame 0 1 = code ∧ frameOk frame p = true
    (∀ i code (p : Nat → Bool),
      (i = .mgmtStatus frame ∧ code = 1 ∧ p = (fun n => decide (n = 0))) ∨ (i = .mgmtSetCap frame ∧ code = 2 ∧ p = (fun n => decide (n = 4))) ∨
      (i = .mgmtNap frame ∧ code = 3 ∧ p = (fun n => decide (n = 0))) ∨ (i = .mgmtDark frame ∧ code = 4 ∧ p = (fun n => decide (n = 0))) ∨
      (i = .mgmtWake frame ∧ code = 5 ∧ p = (fun n => decide (n = 0))) ∨ (i = .mgmtJobKill frame ∧ code = 6 ∧ p = (fun n => decide (n = 8))) ∨
      (i = .mgmtTelemetry frame ∧ code = 7 ∧ p = (fun n => decide (n = 0))) ∨
      (i = .mgmtObject frame ⟨low, rival⟩ ∧ code = 8 ∧ p = (fun n => decide (1 ≤ n))) →
      leAt frame 0 1 = code → frameOk frame p = false → Gives (exec i s) fun t =>
        tells t code stInvalid [] ∧ Frame [.reg .icuPend, .icuTimers, .wakePending, .answers] s t) ∧
    (ok 1 (fun n => decide (n = 0)) → Gives (exec (.mgmtStatus frame) s) fun t => tells t 1 stOk
      (leBytes 4 (readReg s .jobStatus 0 0) ++ leBytes 4 (readReg s .pwrStatus 0 0) ++ leBytes 4 (readReg s .pwrLimit 0 0) ++
        leBytes 4 (readReg s .pwrTemp 0 0) ++ leBytes 4 (readReg s .truStatus 0 0) ++ leBytes 4 (readReg s .truUpdateStatus 0 0))) ∧
    (ok 2 (fun n => decide (n = 4)) →
      let w := leAt body 0 2
      let ms := leAt body 2 2
      Gives (exec (.mgmtSetCap frame) s) fun t =>
        (600 ≤ w ∧ w ≤ 2000 ∧ 250 ≤ ms ∧ ms ≤ 10000 → tells t 2 stOk [] ∧ rf t F.pwrMgmtCap_capW 0 0 = w ∧
          rf t F.pwrMgmtCap_windowMs 0 0 = ms) ∧
        (¬ (600 ≤ w ∧ w ≤ 2000 ∧ 250 ≤ ms ∧ ms ≤ 10000) → tells t 2 stInvalid [] ∧ rd t .pwrMgmtCap 0 0 = rd s .pwrMgmtCap 0 0)) ∧
    (∀ i code st power, (i, code, st, power) ∈ [(Instr.mgmtNap frame, 3, LowPower.nap, pwrNap), (.mgmtDark frame, 4, .dark, pwrDark)] →
      ok code (fun n => decide (n = 0)) → Gives (exec i s) fun t =>
        (jobRuns s = true → tells t code stRefused [] ∧ t.host.lowPower = s.host.lowPower) ∧
        (st = .nap → powerState s = pwrDark → tells t code stRefused [] ∧ t.host.lowPower = s.host.lowPower) ∧
        (jobRuns s = false → (st = .nap → powerState s ≠ pwrDark) → higherAct s 2 (if st = .nap then actNap else actDark) .management ≠ none →
          tells t code stSuperseded [] ∧ Recorded s t 0 ∧ t.host.lowPower = s.host.lowPower) ∧
        (jobRuns s = false → (st = .nap → powerState s ≠ pwrDark) → higherAct s 2 (if st = .nap then actNap else actDark) .management = none →
          tells t code stOk [] ∧
          (powerState s ≠ power → s.pwr.thermDark = false → hostLowPower s ≠ none ∨ s.host.lowPower ≠ some .dark →
            t.host.lowPower = some st))) ∧
    (ok 5 (fun n => decide (n = 0)) → higherAct s 2 actAwake .management = none → Gives (exec (.mgmtWake frame) s) fun t =>
      tells t 5 stOk [] ∧ (pwrNap ≤ powerState s → t.host.wakePending = true)) ∧
    (ok 6 (fun n => decide (n = 8)) → Gives (exec (.mgmtJobKill frame) s) fun t =>
      ((jobRuns s = false ∨ leAt body 0 8 ≠ rd s .jobId 0 0) → tells t 6 stRefused [] ∧ jobState t = jobState s ∧ t.mem = s.mem) ∧
      (jobRuns s = true → leAt body 0 8 = rd s .jobId 0 0 → hostPending s (fun c => c.kind = 0x30 || c.kind = 0x31) = none →
        higherAct s 1 actKill .management = none →
        tells t 6 stOk [] ∧ (jobState t = 3 ∨ jobState t = 0) ∧ t.cores = [] ∧ t.cols = [] ∧ t.comps = [])) ∧
    (∀ r, ok 7 (fun n => decide (n = 0)) → s.mgmt.lastTelemetry = some r → Gives (exec (.mgmtTelemetry frame) s) fun t =>
      tells t 7 stOk (recordBytes (if powerState s = pwrDark then { r with payload := pb 0 6 (rd s .pwrEnergy 0 0) } else r) 0)) ∧
    (ok 8 (fun n => decide (1 ≤ n)) → Gives (exec (.mgmtObject frame ⟨low, rival⟩) s) fun t =>
      (objectOf body low rival = none → tells t 8 stInvalid []) ∧
      (∀ r, objectOf body low rival = some r → ∃ a : ObjAns, a = serveObj (irq s 0 3 5) .management r ∧
        tells t 8 a.status (objAnswer (leAt body 1 1) (leAt body 5 4) a))))

/-- ENTDAA and SETDASA give a target without an address its dynamic address, RSTDAA takes it, and the other CCCs answer
their bytes; 19_pins_electrical.md R827, R828. -/
def Obligations.BusTransfersComplete : Prop :=
  ∀ (a : BitVec 7) (s : State), s.host.powered = true →
    (∀ i, i ∈ [Instr.entdaa a, .setdasa a] → Gives (exec i s) fun t =>
      t.mgmt.addr = (if s.mgmt.addr = none then some a.toNat else s.mgmt.addr) ∧ Frame [.mgmt] s t) ∧
    Gives (exec .rstdaa s) (fun t => t.mgmt.addr = none ∧ Frame [.mgmt] s t) ∧
    (s.mgmt.addr ≠ none →
      Gives (exec .getpid s) (fun t => (∃ b, t.answers.i3c = some b ∧ b.length = 6 ∧
        leNat b.reverse % 2 ^ 16 = location s % 2 ^ 16 ∧ bits (leNat b.reverse) 31 16 = 0x4812 ∧ bits (leNat b.reverse) 32 32 = 0 ∧
        bits (leNat b.reverse) 47 33 = 0x1E87) ∧ Frame [.answers] s t) ∧
      (∀ i, i ∈ [Instr.getmwl, .getmrl] → Gives (exec i s) fun t => t.answers.i3c = some [0x20, 0x10] ∧ Frame [.answers] s t) ∧
      (∀ i n len, (i, n, len) ∈ [(Instr.getbcr, 0, 1), (.getdcr, 1, 1), (.getstatus, 2, 2)] → Gives (exec i s) fun t =>
        t.answers.i3c = some (busBytes len (Config.i3cCapability n)) ∧ Frame [.answers] s t))

/-- A DATA packet of a running chain adds the own elements and goes on to the successor, or is written where its segment
ends, as R482 to R485 say; 10_sync_collectives.md R482 to R487, R491. -/
def Obligations.ARunningChainAddsAndPassesOn : Prop :=
  ∀ (die : Die) (port : Fin 16) (pkt : Packet) (adds : List (Fin 4)) (k : Nat) (c : Collective) (s : State),
    let q := bits pkt.word 31 0
    let seg := pkt.aux
    let base := c.dstAt seg q
    let codes := elemsOf c.carry pkt.payload (c.count q)
    let own := elemsOf c.fmt (memBytes s (c.srcAt seg q) (c.count q * c.w)) (c.count q)
    let sums := (codes.zip own).map fun x => (addLink c.fmt c.carry x.1 x.2).1
    let len := fun (l : List Nat) => (packElems c.carry l).length
    let goes := fun (t : State) (stage : Nat) (l : List Nat) =>
      ∃ p ∈ (flowTx t (flowKey die c.next (2 + stage) (colFlow k + q % c.stripes))).queue, p.kind = ptData ∧ p.aux = seg ∧
        p.word = c.digest * 2 ^ 32 + q ∧ p.payload = packElems c.carry l
    let lands := fun (t : State) (l : List Nat) =>
      (snoopedIn s base (len l) = [] → ∀ i < len l, Map.getD t.mem (base + i) 0 = (packElems c.carry l).getD i 0) ∧
      MemSameOutside s t base (len l)
    HeardNext s die port ptData pkt → jobTakes s = true → colByDigest s die pkt = some k → k / 8 = die → colOf s k = some c →
    c.phase = .running → c.isMcast = false → seg < c.n → q < c.packets → (adds.getD 0 0).val < 3 →
    (pkt.vc = 2 → readsWell s (c.srcAt seg q) (c.count q * c.w) → hiddenIn s (c.srcAt seg q) (c.count q * c.w) = [] →
      (seg ≠ c.pos → Gives (exec (.dataPacketReceive die port pkt adds .none) s) fun t => goes t 0 sums ∧ t.mem = s.mem) ∧
      (seg = c.pos → hiddenIn s base (len sums) = [] → Gives (exec (.dataPacketReceive die port pkt adds .none) s) fun t =>
        lands t sums ∧ (c.op = opAllReduce → 1 < c.n → goes t 1 sums))) ∧
    (pkt.vc = 3 → hiddenIn s base (len codes) = [] → Gives (exec (.dataPacketReceive die port pkt adds .none) s) fun t =>
      lands t codes ∧ ((c.pos + 1) % c.n ≠ seg → goes t 1 codes))

/-- Each of the 231 commands leaves every part of the state outside its footprint as it was; 95_what_each_step_holds.md,
00_scope.md R20. -/
def Obligations.EveryCommandKeepsToItsFootprint : Prop :=
  ∀ (i : Instr) (s t : State), exec i s = .next t → Frame (footprint i) s t

/-- The module enters Dark only when no job is running, and a request for Dark while a job runs completes with REFUSED;
R45. -/
def Obligations.DarkIsEnteredOnlyWithoutAJob : Prop :=
  (∀ s t : State, RegInv s → powerState s ≠ pwrDark → step s = .next t → powerState t = pwrDark → jobRuns s = false) ∧
  (∀ (d : Desc) (s s1 : State), takePower s 6 = some (d, s1) → powerReserved d = true → powerValue d = 0 → powerWindow d = 0 →
    jobRuns s1 = true → Gives (exec .dark s) fun t => Completed t 0 32 d stRefused) ∧
  (∀ (frame : Bytes) (s : State), s.host.powered = true → s.mgmt.addr.isSome = true → leAt frame 0 1 = 4 →
    frameOk frame (fun n => decide (n = 0)) = true → jobRuns s = true → Gives (exec (.mgmtDark frame) s) fun t =>
      t.answers.i3c = some (i3cResponse 4 (leAt frame 1 1) stRefused []))

/-- A link reset does not change a field with Lifetime J; R23. -/
def Obligations.ALinkResetKeepsJobFields : Prop :=
  ∀ s : State, RegInv s → Gives (exec .linkReset s) fun t =>
    ∀ (r : Reg) (die unit : Nat), ∀ f ∈ r.info.fields, f.life = .j →
      bits (rd t r die unit) f.hi f.lo = bits (rd s r die unit) f.hi f.lo

/-- No command of a core's ring, stream or engines, a replay included, changes another core but for the hit marks of its
guards; 05_core_streams_replay.md R277, R285, 01_module_overview.md R33. -/
def Obligations.CoresKeepToThemselves : Prop :=
  ∀ (i : Instr) (c c' : CoreRef) (s : State), coreOfCommand i = some c → c' ≠ c → Gives (exec i s) fun t =>
    { coreOf t (coreKey c') with guards := (coreOf s (coreKey c')).guards } = coreOf s (coreKey c') ∧
    ∀ r : Reg, r.info.stride = 0x1000 → rdCore t r (coreKey c') = rdCore s r (coreKey c')
end

