-- ==== Sys2Proof/Laws/Keyed.lean ====
section
/-! SUPPORT. Keyed data and registers: what a lookup finds after a change, and what a register reads after a write. -/

set_option Elab.async false

namespace Sys2Proof

theorem Map.find_put_same {α : Type} (m : Map α) (k : Nat) (v : α) : Map.find (Map.put m k v) k = some v := by
  induction m with
  | nil => simp [Map.put, Map.find]
  | cons e t ih =>
    obtain ⟨k', v'⟩ := e
    unfold Map.put
    split
    · simp [Map.find]
    · split
      · simp [Map.find]
      · rename_i h
        rw [Map.find, if_neg (fun h' => h h'.symm), ih]

theorem Map.find_put_ne {α : Type} (m : Map α) (k k' : Nat) (v : α) (h : k' ≠ k) :
    Map.find (Map.put m k v) k' = Map.find m k' := by
  induction m with
  | nil => simp [Map.put, Map.find, Ne.symm h]
  | cons e t ih =>
    obtain ⟨a, b⟩ := e
    unfold Map.put
    split
    · simp [Map.find, Ne.symm h]
    · split
      · rename_i h1; subst h1; simp [Map.find, Ne.symm h]
      · simp [Map.find, ih]

theorem Map.find_del_same {α : Type} (m : Map α) (k : Nat) : Map.find (Map.del m k) k = none := by
  induction m with
  | nil => rfl
  | cons e t ih =>
    obtain ⟨a, b⟩ := e
    by_cases h : a = k
    · simpa [Map.del, h] using ih
    · simpa [Map.del, Map.find, h] using ih

theorem Map.find_filter {α : Type} (m : Map α) (p : Nat × α → Bool) (k : Nat) (h : ∀ v, p (k, v) = true) :
    Map.find (m.filter p) k = Map.find m k := by
  induction m with
  | nil => rfl
  | cons e t ih =>
    obtain ⟨a, b⟩ := e
    by_cases ha : a = k
    · subst ha; simp [List.filter, h b, Map.find]
    · cases hp : p (a, b) <;> simp [List.filter, hp, Map.find, ha, ih]

theorem Map.find_del_ne {α : Type} (m : Map α) (k k' : Nat) (h : k' ≠ k) : Map.find (Map.del m k) k' = Map.find m k' :=
  Map.find_filter m _ k' fun _ => by simp [h]

namespace Machine

@[simp] theorem find_putReg_same (m : Map (BitVec 64)) (k reset v : Nat) :
    Map.find (putReg m k reset v) k = if v = reset then none else some (BitVec.ofNat 64 v) := by
  unfold putReg; split
  · exact Map.find_del_same m k
  · exact Map.find_put_same m k _

theorem find_putReg_ne (m : Map (BitVec 64)) (k k' reset v : Nat) (h : k' ≠ k) :
    Map.find (putReg m k reset v) k' = Map.find m k' := by
  unfold putReg; split
  · exact Map.find_del_ne m k k' h
  · exact Map.find_put_ne m k k' _ h

/-- The register of a key is the one it was made for. -/
theorem regKey_div (r : Reg) (die unit : Nat) : regKey r die unit / 65536 = r.idx := by
  unfold regKey; omega

theorem regKey_ne (r r' : Reg) (h : r'.idx ≠ r.idx) (die unit die' unit' : Nat) :
    regKey r' die' unit' ≠ regKey r die unit := by
  intro e
  have h1 := congrArg (· / 65536) e
  simp only [regKey_div] at h1
  exact h h1

theorem Reg.idx_inj {r r' : Reg} (h : r'.idx = r.idx) : r' = r := by
  have h2 : ∀ a : Reg, Reg.ofNat a.ctorIdx = a := fun a => by cases a <;> rfl
  rw [← h2 r', ← h2 r]
  exact congrArg Reg.ofNat h

/-- Another register reads the same after a write. -/
theorem rd_wr_other (s : State) (r r' : Reg) (h : r' ≠ r) (die unit v die' unit' : Nat) :
    rd (wr s r die unit v) r' die' unit' = rd s r' die' unit' := by
  have hk := regKey_ne r r' (fun e => h (Reg.idx_inj e)) (homeDie r die) unit (homeDie r' die') unit'
  simp only [rd, wr, find_putReg_ne _ _ _ _ _ hk]

/-- The register reads the value written, cut to its width. -/
theorem rd_wr_same (s : State) (r : Reg) (die unit v : Nat) (h : r.info.width ≤ 64) :
    rd (wr s r die unit v) r die unit = v % 2 ^ r.info.width := by
  simp only [rd, wr, find_putReg_same]
  have hw : v % 2 ^ r.info.width < 2 ^ 64 :=
    lt_of_lt_of_le (Nat.mod_lt _ (by positivity)) (Nat.pow_le_pow_right (by norm_num) h)
  by_cases hr : v % 2 ^ r.info.width = resetVal r (homeDie r die)
  · simp only [hr, if_true]
  · simp only [hr, if_false, BitVec.toNat_ofNat, Nat.mod_eq_of_lt hw]

/-- Another unit of the register reads the same after a write. -/
theorem rd_wr_unit (s : State) (r : Reg) (die unit v die' unit' : Nat)
    (h : (homeDie r die' % 2, unit' % 32768) ≠ (homeDie r die % 2, unit % 32768)) :
    rd (wr s r die unit v) r die' unit' = rd s r die' unit' := by
  have hk : regKey r (homeDie r die') unit' ≠ regKey r (homeDie r die) unit := by
    intro e; apply h; unfold regKey at e
    refine Prod.ext ?_ ?_ <;> simp <;> omega
  simp only [rd, wr, find_putReg_ne _ _ _ _ _ hk]

end Machine
end Sys2Proof
end

