-- ==== Sys2Proof/Laws/Memory.lean ====
section
/-! SUPPORT. The canonical form of byte stores: every operation on one keeps it, and what a byte reads as afterwards. -/

set_option Elab.async false

namespace Sys2Proof

theorem Map.rising_tail {α : Type} {e : Nat × α} {t : Map α} (h : Map.rising (e :: t) = true) : Map.rising t = true := by
  cases t with
  | nil => rfl
  | cons e' t' =>
    obtain ⟨k, v⟩ := e
    obtain ⟨k', v'⟩ := e'
    simp only [Map.rising, Bool.and_eq_true] at h
    exact h.2

/-- Keys strictly rising, said of the first key and the rest. -/
theorem Map.rising_cons {α : Type} (k : Nat) (v : α) (t : Map α) :
    Map.rising ((k, v) :: t) = true ↔ (∀ e ∈ t, k < e.1) ∧ Map.rising t = true := by
  induction t generalizing k v with
  | nil => simp [Map.rising]
  | cons e' t' ih =>
    obtain ⟨k', v'⟩ := e'
    simp only [Map.rising, Bool.and_eq_true, decide_eq_true_eq]
    constructor
    · rintro ⟨hk, hr⟩
      refine ⟨fun e he => ?_, hr⟩
      rcases List.mem_cons.mp he with rfl | he
      · exact hk
      · exact lt_trans hk (((ih k' v').mp hr).1 e he)
    · rintro ⟨ha, hr⟩
      exact ⟨ha _ (List.mem_cons_self ..), hr⟩

theorem Map.rising_filter {α : Type} (p : Nat × α → Bool) {m : Map α} (h : Map.rising m = true) :
    Map.rising (m.filter p) = true := by
  induction m with
  | nil => rfl
  | cons e t ih =>
    obtain ⟨k, v⟩ := e
    have ht := (Map.rising_cons k v t).mp h
    cases hp : p (k, v)
    · simpa [List.filter, hp] using ih ht.2
    · simp only [List.filter, hp]
      exact (Map.rising_cons k v _).mpr ⟨fun e he => ht.1 e (List.mem_of_mem_filter he), ih ht.2⟩

theorem Map.mem_put {α : Type} {m : Map α} {k : Nat} {v : α} {e : Nat × α} (h : e ∈ Map.put m k v) : e = (k, v) ∨ e ∈ m := by
  induction m with
  | nil => simpa [Map.put] using h
  | cons a t ih =>
    obtain ⟨k', v'⟩ := a
    unfold Map.put at h
    split at h
    · rcases List.mem_cons.mp h with h | h
      · exact .inl h
      · exact .inr h
    · split at h
      · rcases List.mem_cons.mp h with h | h
        · exact .inl h
        · exact .inr (List.mem_cons_of_mem _ h)
      · rcases List.mem_cons.mp h with h | h
        · exact .inr (h ▸ List.mem_cons_self ..)
        · rcases ih h with h | h
          · exact .inl h
          · exact .inr (List.mem_cons_of_mem _ h)

theorem Map.rising_put {α : Type} {m : Map α} (k : Nat) (v : α) (h : Map.rising m = true) : Map.rising (Map.put m k v) = true := by
  induction m with
  | nil => rfl
  | cons a t ih =>
    obtain ⟨k', v'⟩ := a
    have ht := (Map.rising_cons k' v' t).mp h
    unfold Map.put
    split
    · rename_i hk
      refine (Map.rising_cons k v _).mpr ⟨fun e he => ?_, h⟩
      rcases List.mem_cons.mp he with rfl | he
      · exact hk
      · exact lt_trans hk (ht.1 e he)
    · split
      · rename_i hk; subst hk
        exact (Map.rising_cons k v t).mpr ht
      · rename_i h1 h2
        refine (Map.rising_cons k' v' _).mpr ⟨fun e he => ?_, ih ht.2⟩
        rcases Map.mem_put he with rfl | he
        · show k' < k; omega
        · exact ht.1 e he

theorem bytesWf_iff (m : Map Byte) : bytesWf m = true ↔ Map.rising m = true ∧ ∀ e ∈ m, e.2 ≠ 0 := by
  simp [bytesWf]

/-- Dropping entries keeps the canonical form. -/
theorem bytesWf_filter (p : Nat × Byte → Bool) {m : Map Byte} (h : bytesWf m = true) : bytesWf (m.filter p) = true := by
  rw [bytesWf_iff] at *
  exact ⟨Map.rising_filter p h.1, fun e he => h.2 e (List.mem_of_mem_filter he)⟩

/-- Storing a byte keeps the canonical form. -/
theorem bytesWf_putByte {m : Map Byte} (a : Nat) (b : Byte) (h : bytesWf m = true) : bytesWf (putByte m a b) = true := by
  unfold putByte
  split
  · exact bytesWf_filter _ h
  · rename_i hb
    rw [bytesWf_iff] at *
    refine ⟨Map.rising_put a b h.1, fun e he => ?_⟩
    rcases Map.mem_put he with rfl | he
    · exact hb
    · exact h.2 e he

/-- Storing bytes keeps the canonical form. -/
theorem bytesWf_putBytes (data : Bytes) : ∀ (m : Map Byte) (a : Nat), bytesWf m = true → bytesWf (putBytes m a data) = true := by
  induction data with
  | nil => exact fun m a h => h
  | cons b t ih => exact fun m a h => ih _ _ (bytesWf_putByte a b h)

namespace Machine

/-- Storing the bytes a predicate keeps keeps the canonical form. -/
theorem bytesWf_putSome (p : Nat → Bool) (data : Bytes) :
    ∀ (m : Map Byte) (a : Nat), bytesWf m = true → bytesWf (putSome p m a data) = true := by
  induction data with
  | nil => exact fun m a h => h
  | cons b t ih =>
    intro m a h
    unfold putSome
    split
    · exact ih _ _ (bytesWf_putByte a b h)
    · exact ih _ _ h

/-- Folding byte stores keeps the canonical form. -/
theorem bytesWf_foldl {α : Type} (f : Map Byte → α → Map Byte) (hf : ∀ m x, bytesWf m = true → bytesWf (f m x) = true)
    (l : List α) (m : Map Byte) (h : bytesWf m = true) : bytesWf (l.foldl f m) = true := by
  induction l generalizing m with
  | nil => exact h
  | cons a t ih => exact ih _ (hf _ _ h)

end Machine

/-! ## What a byte reads as -/

theorem Map.find_none_of_lt {α : Type} {m : Map α} {k : Nat} (h : ∀ e ∈ m, e.1 ≠ k) : Map.find m k = none := by
  induction m with
  | nil => rfl
  | cons e t ih =>
    obtain ⟨k', v'⟩ := e
    have h1 : k' ≠ k := h _ (List.mem_cons_self ..)
    simp [Map.find, h1, ih fun e he => h e (List.mem_cons_of_mem _ he)]

/-- The stored byte reads back. -/
theorem getD_putByte_same (m : Map Byte) (a : Nat) (b : Byte) : Map.getD (putByte m a b) a 0 = b := by
  unfold putByte Map.getD
  split
  · rename_i h; subst h
    rw [Map.find_none_of_lt]; rfl
    intro e he; simpa [Map.del] using (List.mem_filter.mp he).2
  · induction m with
    | nil => simp [Map.put, Map.find]
    | cons e t ih =>
      obtain ⟨k', v'⟩ := e
      unfold Map.put
      split
      · simp [Map.find]
      · split
        · simp [Map.find]
        · rename_i h1 h2
          rw [Map.find, if_neg (fun h' => h2 h'.symm)]; exact ih

/-- Another byte reads as before. -/
theorem getD_putByte_ne (m : Map Byte) (a a' : Nat) (b : Byte) (h : a' ≠ a) :
    Map.getD (putByte m a b) a' 0 = Map.getD m a' 0 := by
  unfold putByte Map.getD
  congr 1
  split
  · induction m with
    | nil => rfl
    | cons e t ih =>
      obtain ⟨k', v'⟩ := e
      by_cases hk : k' = a
      · subst hk; simpa [Map.del, Map.find, Ne.symm h] using ih
      · by_cases hk' : k' = a'
        · subst hk'; simp [Map.del, Map.find, h]
        · simpa [Map.del, Map.find, hk, hk'] using ih
  · induction m with
    | nil => simp [Map.put, Map.find, Ne.symm h]
    | cons e t ih =>
      obtain ⟨k', v'⟩ := e
      unfold Map.put
      split
      · simp [Map.find, Ne.symm h]
      · split
        · rename_i h1; subst h1; simp [Map.find, Ne.symm h]
        · simp [Map.find, ih]

/-- Bytes outside the stored ones read as before. -/
theorem getD_putBytes_outside (data : Bytes) : ∀ (m : Map Byte) (a x : Nat), (x < a ∨ a + data.length ≤ x) →
    Map.getD (putBytes m a data) x 0 = Map.getD m x 0 := by
  induction data with
  | nil => exact fun m a x _ => rfl
  | cons b t ih =>
    intro m a x h
    simp only [List.length_cons] at h
    rw [putBytes, ih _ _ _ (by omega), getD_putByte_ne _ _ _ _ (by omega)]

/-- Each stored byte reads back. -/
theorem getD_putBytes_inside (data : Bytes) : ∀ (m : Map Byte) (a i : Nat) (h : i < data.length),
    Map.getD (putBytes m a data) (a + i) 0 = data[i] := by
  induction data with
  | nil => exact fun m a i h => absurd h (by simp)
  | cons b t ih =>
    intro m a i h
    cases i with
    | zero =>
      simp only [Nat.add_zero, List.getElem_cons_zero]
      rw [putBytes, getD_putBytes_outside _ _ _ _ (by omega), getD_putByte_same]
    | succ i =>
      have : a + (i + 1) = a + 1 + i := by omega
      rw [putBytes, this, ih _ _ i (by simpa using h)]; rfl

namespace Machine

/-- Bytes outside the stored range read as before, and so do those that are not kept. -/
theorem getD_putSome_outside (p : Nat → Bool) (data : Bytes) : ∀ (m : Map Byte) (a x : Nat),
    (x < a ∨ a + data.length ≤ x ∨ p x = false) → Map.getD (putSome p m a data) x 0 = Map.getD m x 0 := by
  induction data with
  | nil => exact fun m a x _ => rfl
  | cons b t ih =>
    intro m a x h
    simp only [List.length_cons] at h
    have hx : x < a + 1 ∨ a + 1 + t.length ≤ x ∨ p x = false := by
      rcases h with h | h | h
      · exact .inl (by omega)
      · exact .inr (.inl (by omega))
      · exact .inr (.inr h)
    rw [putSome, ih _ _ _ hx]
    split
    · by_cases hxa : x = a
      · subst hxa; simp_all
      · exact getD_putByte_ne _ _ _ _ hxa
    · rfl

/-- Each kept stored byte reads back. -/
theorem getD_putSome_inside (p : Nat → Bool) (data : Bytes) : ∀ (m : Map Byte) (a i : Nat) (h : i < data.length),
    p (a + i) = true → Map.getD (putSome p m a data) (a + i) 0 = data[i] := by
  induction data with
  | nil => exact fun m a i h => absurd h (by simp)
  | cons b t ih =>
    intro m a i h hp
    cases i with
    | zero =>
      simp only [Nat.add_zero] at hp
      simp only [Nat.add_zero, List.getElem_cons_zero]
      rw [putSome, getD_putSome_outside _ _ _ _ _ (Or.inl (by omega)), if_pos hp, getD_putByte_same]
    | succ i =>
      have e : a + (i + 1) = a + 1 + i := by omega
      rw [putSome, e, ih _ _ i (by simpa using h) (e ▸ hp)]; rfl

end Machine

/-! ## Check codes (R386, R425, R845) -/

theorem crc16Bit_lt {c : Nat} (h : c < 65536) : crc16Bit c < 65536 := by
  unfold crc16Bit
  split
  · exact Nat.xor_lt_two_pow (n := 16) (Nat.mod_lt _ (by decide)) (by decide)
  · omega

theorem crc16_lt (bs : Bytes) : crc16 bs < 65536 := by
  unfold crc16
  have step : ∀ (l : Bytes) (c : Nat), c < 65536 → l.foldl crc16Byte c < 65536 := by
    intro l
    induction l with
    | nil => intro c h; exact h
    | cons b t ih =>
      intro c h
      refine ih _ ?_
      have hb : b.toNat * 256 < 65536 := by have := b.isLt; omega
      have hx : c ^^^ (b.toNat * 256) < 65536 := Nat.xor_lt_two_pow (n := 16) h hb
      unfold crc16Byte
      exact crc16Bit_lt (crc16Bit_lt (crc16Bit_lt (crc16Bit_lt (crc16Bit_lt (crc16Bit_lt (crc16Bit_lt (crc16Bit_lt hx)))))))
  exact step bs _ (by decide)

namespace Machine

/-- The stored code of a row or sector differs from the code over its bytes exactly where it is poison, whose code is the inverse. -/
theorem codeFails_iff (s : State) (r : Nat) : codeFails s r = true ↔ r ∈ s.poison := by
  have h : codeOver s r < 65536 := by
    unfold codeOver sectorCode rowCode
    dsimp only
    split <;> exact crc16_lt _
  unfold codeFails storedCode
  by_cases hp : r ∈ s.poison
  · simp [hp]; omega
  · simp [hp]

end Machine

end Sys2Proof
end

