-- ==== Sys2Proof/Laws/Effect.lean ====
section
/-! SUPPORT. What an operation can do, said once: an effect lists the parts of the state that may change, and says that the
memories stay in canonical form and the registers within their widths. Effects compose; each shared operation has one effect
lemma in the files after this one, which a proof cites in place of unfolding the operation. -/

set_option Elab.async false

namespace Sys2Proof.Machine

/-! ## Lists of parts -/

/-- A number for each part. -/
def Part.code : Part → Nat
  | .reg r => r.idx
  | .queue => 200 | .freeCtr => 201 | .mem => 202 | .hostMem => 203 | .poison => 204 | .snoop => 205
  | .heldWrites => 206 | .scrub => 207 | .unusable => 208 | .cores => 209 | .sync => 210 | .cols => 211
  | .colWaiting => 212 | .colEnded => 213 | .mcasts => 214 | .routes => 215 | .flowsTx => 216 | .flowsRx => 217
  | .ports => 218 | .rings => 219 | .answers => 220 | .eph => 221 | .events => 222 | .icuTimers => 223
  | .comps => 224 | .sid => 225 | .pwr => 226 | .clk => 227 | .flt => 228 | .tru => 229 | .flash => 230
  | .acts => 231 | .mgmt => 232 | .job => 233 | .powered => 234 | .perstN => 235 | .linkUp => 236
  | .rdybsyN => 237 | .d3hot => 238 | .restart => 239 | .attention => 240 | .repeating => 241
  | .reportOwed => 242 | .lowPower => 243 | .lowPowerAsk => 244 | .wakePending => 245 | .darkPerst => 246
  | .pulsed => 247 | .highSince => 248 | .bridge => 249 | .ctlCores => 250 | .ctlMem => 251 | .darkLoc => 252
  | .opened => 253

/-- The parts of a list as the bits of a number, which the kernel compares fast. -/
def partMask (w : List Part) : Nat := w.foldr (fun p m => 2 ^ p.code ||| m) 0

/-- Every part of `w` is in `w'`. -/
def partsIn (w w' : List Part) : Bool := (partMask w ||| partMask w') == partMask w'

theorem Reg.idx_lt (r : Reg) : r.idx < 200 := by cases r <;> decide

theorem Part.code_inj {p q : Part} (h : p.code = q.code) : p = q := by
  cases p with
  | reg r =>
    have hr := Reg.idx_lt r
    cases q with
    | reg r' => exact congrArg _ (Reg.idx_inj h)
    | _ => simp only [Part.code] at h; omega
  | _ =>
    cases q with
    | reg r' => have hr := Reg.idx_lt r'; simp only [Part.code] at h; omega
    | _ => first | rfl | exact absurd h (by decide)

theorem testBit_partMask (w : List Part) (n : Nat) : (partMask w).testBit n = w.any fun p => p.code = n := by
  induction w with
  | nil => simp [partMask]
  | cons p t ih =>
    have : partMask (p :: t) = 2 ^ p.code ||| partMask t := rfl
    rw [this, Nat.testBit_or, ih, Nat.testBit_two_pow, List.any_cons]

theorem mem_of_partsIn {w w' : List Part} (h : partsIn w w' = true) {p : Part} (hp : p ∈ w) : p ∈ w' := by
  have h1 : (partMask w).testBit p.code = true := by
    rw [testBit_partMask]; exact List.any_eq_true.mpr ⟨p, hp, by simp⟩
  have h2 : (partMask w').testBit p.code = true := by
    rw [← eq_of_beq h, Nat.testBit_or, h1, Bool.true_or]
  rw [testBit_partMask] at h2
  obtain ⟨q, hq, he⟩ := List.any_eq_true.mp h2
  exact Part.code_inj (of_decide_eq_true he) ▸ hq

theorem partsIn_trans {a b c : List Part} (h1 : partsIn a b = true) (h2 : partsIn b c = true) : partsIn a c = true := by
  simp only [partsIn, beq_iff_eq] at *
  rw [← h2, ← Nat.lor_assoc, h1]

theorem partsIn_head (p : Part) (w : List Part) : partsIn [p] (p :: w) = true := by
  simp only [partsIn, partMask, List.foldr, beq_iff_eq]
  rw [Nat.or_zero, ← Nat.lor_assoc, Nat.or_self]

theorem partsIn_tail (p : Part) (w : List Part) : partsIn w (p :: w) = true := by
  simp only [partsIn, beq_iff_eq]
  show partMask w ||| (2 ^ p.code ||| partMask w) = 2 ^ p.code ||| partMask w
  rw [Nat.lor_comm, Nat.lor_assoc, Nat.or_self]

/-- A register stands in the list at its number. -/
theorem Reg.all_idx (r : Reg) : Reg.all[r.idx]? = some r := by cases r <;> rfl

/-- What holds of every register of the list holds of every register. -/
theorem Reg.forall_of_all {p : Reg → Bool} (h : Reg.all.all p = true) (r : Reg) : p r = true :=
  List.all_eq_true.mp h r (List.mem_of_getElem? (Reg.all_idx r))

theorem mem_allRegs (r : Reg) : Part.reg r ∈ allRegs := List.mem_map_of_mem (List.mem_of_getElem? (Reg.all_idx r))

theorem mem_withRegs (r : Reg) (w : List Part) : Part.reg r ∈ withRegs w := List.mem_append_left _ (mem_allRegs r)

theorem mem_withRegs_right {p : Part} {w : List Part} (h : p ∈ w) : p ∈ withRegs w := List.mem_append_right _ h

theorem partMask_append (a b : List Part) : partMask (a ++ b) = partMask a ||| partMask b := by
  induction a with
  | nil => simp [partMask]
  | cons p t ih =>
    show 2 ^ p.code ||| partMask (t ++ b) = (2 ^ p.code ||| partMask t) ||| partMask b
    rw [ih, Nat.lor_assoc]

theorem partMask_allRegs : partMask allRegs = 2 ^ 165 - 1 := by decide +kernel

theorem partsIn_all1 {a b : List Part} (h : (partMask a ||| (2 ^ 165 - 1 ||| partMask b)) = (2 ^ 165 - 1 ||| partMask b)) :
    partsIn a (withRegs b) = true := by
  simp only [partsIn, withRegs, partMask_append, partMask_allRegs, beq_iff_eq]; exact h

theorem partsIn_all2 {a b : List Part} (h : (partMask a ||| (2 ^ 165 - 1 ||| partMask b)) = (2 ^ 165 - 1 ||| partMask b)) :
    partsIn (withRegs a) (withRegs b) = true := by
  simp only [partsIn, withRegs, partMask_append, partMask_allRegs, beq_iff_eq]
  rw [Nat.lor_assoc, h, ← Nat.lor_assoc, Nat.or_self]

/-! ## Frames and effects -/

theorem Part.same_refl (s : State) (p : Part) : Part.same s s p := by cases p <;> simp [Part.same]

theorem Part.same_trans {s t u : State} {p : Part} (h1 : Part.same s t p) (h2 : Part.same t u p) : Part.same s u p := by
  cases p <;> simp_all [Part.same]

/-- From `s` to `t` only the parts of `w` may change, the memories stay in canonical form and the registers fit. -/
structure Effect (w : List Part) (s t : State) : Prop where
  frame : Frame w s t
  mem : MemInv s → MemInv t
  regs : RegInv s → RegInv t

theorem Effect.refl (w : List Part) (s : State) : Effect w s s := ⟨⟨fun p _ => Part.same_refl s p⟩, id, id⟩

theorem Effect.trans {w : List Part} {s t u : State} (h1 : Effect w s t) (h2 : Effect w t u) : Effect w s u :=
  ⟨⟨fun p hp => Part.same_trans (h1.frame.same p hp) (h2.frame.same p hp)⟩, fun h => h2.mem (h1.mem h), fun h => h2.regs (h1.regs h)⟩

theorem Effect.mono_mem {w w' : List Part} {s t : State} (h : Effect w s t) (hw : ∀ p ∈ w, p ∈ w') : Effect w' s t :=
  ⟨⟨fun p hp => h.frame.same p fun hm => hp (hw p hm)⟩, h.mem, h.regs⟩

theorem Effect.mono {w w' : List Part} {s t : State} (h : Effect w s t) (hw : partsIn w w' = true) : Effect w' s t :=
  h.mono_mem fun _ hp => mem_of_partsIn hw hp

theorem Effect.foldl_mem {α : Type} {w : List Part} (f : State → α → State) (l : List α)
    (hf : ∀ s x, x ∈ l → Effect w s (f s x)) (s : State) : Effect w s (l.foldl f s) := by
  induction l generalizing s with
  | nil => exact Effect.refl w s
  | cons a t ih => exact (hf s a (List.mem_cons_self ..)).trans (ih (fun s x hx => hf s x (List.mem_cons_of_mem _ hx)) _)

theorem Effect.foldl {α : Type} {w : List Part} (f : State → α → State) (hf : ∀ s x, Effect w s (f s x)) (l : List α)
    (s : State) : Effect w s (l.foldl f s) := Effect.foldl_mem f l (fun s x _ => hf s x) s

/-- One more operation after others. -/
theorem Effect.after {w w' : List Part} {s t u : State} (h2 : Effect w' t u) (hw : partsIn w' w = true) (h1 : Effect w s t) :
    Effect w s u := h1.trans (h2.mono hw)

theorem Effect.ite {w : List Part} {s a b : State} {c : Prop} [Decidable c] (h1 : Effect w s a) (h2 : Effect w s b) :
    Effect w s (if c then a else b) := by
  split <;> assumption

theorem Effect.snd {α : Type} {w : List Part} {s t : State} {x : α × State} {a : α} (h : Effect w s x.2) (e : x = (a, t)) :
    Effect w s t := by subst e; exact h

theorem Effect.fst {α : Type} {w : List Part} {s t : State} {x : State × α} {a : α} (h : Effect w s x.1) (e : x = (t, a)) :
    Effect w s t := by subst e; exact h

theorem Effect.snd3 {α β : Type} {w : List Part} {s t : State} {x : α × β × State} {a : α} {b : β} (h : Effect w s x.2.2)
    (e : x = (a, b, t)) : Effect w s t := by subst e; exact h

theorem Effect.snd4 {α β γ : Type} {w : List Part} {s t : State} {x : α × β × γ × State} {a : α} {b : β} {c : γ}
    (h : Effect w s x.2.2.2) (e : x = (a, b, c, t)) : Effect w s t := by subst e; exact h

/-- The command answers a next state with an effect. -/
def Does (w : List Part) (s : State) (o : Host.Outcome State Fault Refusal) : Prop := ∃ t, o = .next t ∧ Effect w s t

theorem Does.next {w : List Part} {s t : State} (h : Effect w s t) : Does w s (.next t) := ⟨t, rfl, h⟩

theorem Does.ite {w : List Part} {s : State} {c : Prop} [Decidable c] {a b : Host.Outcome State Fault Refusal}
    (h1 : Does w s a) (h2 : Does w s b) : Does w s (if c then a else b) := by
  split <;> assumption

/-! ## Registers -/

theorem entryFits_reset (r : Reg) (die : Nat) (h : die < 2) : resetVal r die < 2 ^ r.info.width := by
  have h0 : ∀ r : Reg, resetVal r 0 < 2 ^ r.info.width := fun r =>
    of_decide_eq_true (Reg.forall_of_all (p := fun r => decide (resetVal r 0 < 2 ^ r.info.width)) (by decide +kernel) r)
  have h1 : ∀ r : Reg, resetVal r 1 < 2 ^ r.info.width := fun r =>
    of_decide_eq_true (Reg.forall_of_all (p := fun r => decide (resetVal r 1 < 2 ^ r.info.width)) (by decide +kernel) r)
  rcases (by omega : die = 0 ∨ die = 1) with rfl | rfl
  · exact h0 r
  · exact h1 r

theorem regOfKey_regKey (r : Reg) (die unit : Nat) : regOfKey (regKey r die unit) = some r := by
  unfold regOfKey
  rw [regKey_div, Reg.all_idx]

/-- A register map in canonical form. -/
def RegMap (m : Map (BitVec 64)) : Prop := Map.rising m = true ∧ m.all entryFits = true

theorem regInv_put {m : Map (BitVec 64)} {k v : Nat} (h : RegMap m)
    (hv : entryFits (k, BitVec.ofNat 64 v) = true) (reset : Nat) : RegMap (putReg m k reset v) := by
  unfold putReg
  split
  · refine ⟨Map.rising_filter _ h.1, ?_⟩
    have h2 := h.2
    rw [List.all_eq_true] at *
    exact fun e he => h2 e (List.mem_of_mem_filter he)
  · refine ⟨Map.rising_put _ _ h.1, ?_⟩
    have h2 := h.2
    rw [List.all_eq_true] at *
    intro e he
    rcases Map.mem_put he with rfl | he
    · exact hv
    · exact h2 e he

theorem wr_effect (s : State) (r : Reg) (die unit v : Nat) : Effect [.reg r] s (wr s r die unit v) where
  frame := ⟨fun p hp => by
    cases p with
    | reg r' => exact fun d u => rd_wr_other s r r' (fun e => hp (by simp [e])) die unit v d u
    | _ => rfl⟩
  mem := id
  regs := fun h => regInv_put h (by
    simp only [entryFits, regOfKey_regKey, BitVec.toNat_ofNat]
    exact decide_eq_true (lt_of_le_of_lt (Nat.mod_le _ _) (Nat.mod_lt _ (by positivity)))) _

theorem wf_effect (s : State) (f : Fld) (die unit v : Nat) : Effect [.reg f.reg] s (wf s f die unit v) := wr_effect _ _ _ _ _

theorem bump_effect (s : State) (f : Fld) (die unit n : Nat) : Effect [.reg f.reg] s (bump s f die unit n) := wr_effect _ _ _ _ _

theorem wr_effect_all (s : State) (r : Reg) (die unit v : Nat) (w : List Part) : Effect (withRegs w) s (wr s r die unit v) :=
  (wr_effect s r die unit v).mono_mem fun p hp => by
    rw [List.mem_singleton] at hp; subst hp; exact mem_withRegs r w

/-- Registers replaced by others that fit. -/
theorem effect_regs {w : List Part} {s t : State} (m : Map (BitVec 64)) (hm : RegMap t.regs → RegMap m)
    (h : Effect (withRegs w) s t) : Effect (withRegs w) s { t with regs := m } :=
  h.trans ⟨⟨fun p hp => by cases p <;> first | rfl | exact absurd (mem_withRegs _ _) hp⟩, id, hm⟩

theorem regInv_filter (p : Nat × BitVec 64 → Bool) {m : Map (BitVec 64)} (h : RegMap m) : RegMap (m.filter p) := by
  refine ⟨Map.rising_filter p h.1, ?_⟩
  have h2 := h.2
  rw [List.all_eq_true] at *
  exact fun e he => h2 e (List.mem_of_mem_filter he)

theorem resetEntry_key {ls : List Lifetime} {e e' : Nat × BitVec 64} (h : resetEntry ls e = some e') : e'.1 = e.1 := by
  unfold resetEntry at h
  split at h
  · injection h with h; rw [h]
  · dsimp only at h
    split at h
    · exact absurd h (by simp)
    · injection h with h; rw [← h]

theorem regInv_lives (ls : List Lifetime) {m : Map (BitVec 64)} (h : RegMap m) : RegMap (m.filterMap (resetEntry ls)) := by
  constructor
  · have h1 := h.1
    clear h
    induction m with
    | nil => rfl
    | cons a t ih =>
      obtain ⟨k, v⟩ := a
      have ht := (Map.rising_cons k v t).mp h1
      rw [List.filterMap_cons]
      split
      · exact ih ht.2
      · rename_i e he
        have hk : e.1 = k := resetEntry_key he
        obtain ⟨k', v'⟩ := e
        simp only at hk; subst hk
        refine (Map.rising_cons _ v' _).mpr ⟨fun x hx => ?_, ih ht.2⟩
        obtain ⟨y, hy, hxy⟩ := List.mem_filterMap.mp hx
        rw [resetEntry_key hxy]; exact ht.1 y hy
  · have h2 := h.2
    rw [List.all_eq_true] at *
    intro e he
    obtain ⟨a, ha, hea⟩ := List.mem_filterMap.mp he
    have hfit := h2 a ha
    unfold resetEntry at hea
    split at hea
    · injection hea with hea; subst hea; exact hfit
    · rename_i r hr
      simp only [entryFits, hr, decide_eq_true_eq] at hfit
      dsimp only at hea
      split at hea
      · exact absurd hea (by simp)
      · injection hea with hea; subst hea
        simp only [entryFits, hr, BitVec.toNat_ofNat, decide_eq_true_eq]
        refine lt_of_le_of_lt (Nat.mod_le _ _) (Nat.or_lt_two_pow ?_ ?_)
        · exact lt_of_le_of_lt Nat.and_le_left hfit
        · exact lt_of_le_of_lt Nat.and_le_left (entryFits_reset r _ (Nat.mod_lt _ (by norm_num)))

theorem resetLives_effect (s : State) (ls : List Lifetime) : Effect (withRegs []) s (resetLives s ls) :=
  effect_regs _ (regInv_lives ls) (Effect.refl _ s)

theorem resetBlock_effect (s : State) (b : Blk) : Effect (withRegs []) s (resetBlock s b) :=
  effect_regs _ (regInv_filter _) (Effect.refl _ s)

end Sys2Proof.Machine
end

