-- ==== Sys2Proof/Laws/Parts.lean ====
section
/-! SUPPORT. Setting the fields of the state one by one, as effects. -/

set_option maxRecDepth 8000

set_option Elab.async false
set_option linter.unusedTactic false
set_option linter.unreachableTactic false
set_option linter.unusedVariables false
set_option linter.unusedSimpArgs false

namespace Sys2Proof.Machine

theorem wrCore_effect (s : State) (r : Reg) (k v : Nat) : Effect [.reg r] s (wrCore s r k v) := wr_effect _ _ _ _ _

theorem bumpCore_effect (s : State) (f : Fld) (k n : Nat) : Effect [.reg f.reg] s (bumpCore s f k n) := bump_effect _ _ _ _ _

theorem bumpQuad_effect (s : State) (r : Reg) (k a n : Nat) : Effect [.reg r] s (bumpQuad s r k a n) :=
  bump_effect s ⟨r, 8 * a + 7, 8 * a⟩ _ _ _

/-- Fields of the host interface that differ between two values are among the parts of `w`. -/
structure HostIn (w : List Part) (a b : HostIf) : Prop where
  powered : b.powered = a.powered ∨ Part.powered ∈ w
  perstN : b.perstN = a.perstN ∨ Part.perstN ∈ w
  linkUp : b.linkUp = a.linkUp ∨ Part.linkUp ∈ w
  rdybsyN : b.rdybsyN = a.rdybsyN ∨ Part.rdybsyN ∈ w
  d3hot : b.d3hot = a.d3hot ∨ Part.d3hot ∈ w
  restart : b.restart = a.restart ∨ Part.restart ∈ w
  attention : b.attention = a.attention ∨ Part.attention ∈ w
  repeating : b.repeating = a.repeating ∨ Part.repeating ∈ w
  reportOwed : b.reportOwed = a.reportOwed ∨ Part.reportOwed ∈ w
  lowPower : b.lowPower = a.lowPower ∨ Part.lowPower ∈ w
  lowPowerAsk : b.lowPowerAsk = a.lowPowerAsk ∨ Part.lowPowerAsk ∈ w
  wakePending : b.wakePending = a.wakePending ∨ Part.wakePending ∈ w
  darkPerst : b.darkPerst = a.darkPerst ∨ Part.darkPerst ∈ w
  darkLoc : b.darkLoc = a.darkLoc ∨ Part.darkLoc ∈ w
  opened : b.opened = a.opened ∨ Part.opened ∈ w
  pulsed : b.pulsed = a.pulsed ∨ Part.pulsed ∈ w
  highSince : b.highSince = a.highSince ∨ Part.highSince ∈ w

theorem effect_set_host {w : List Part} {s t : State} (v : HostIf) (hv : HostIn w t.host v) (h : Effect w s t) :
    Effect w s { t with host := v } := by
  refine h.trans ⟨⟨fun p hp => ?_⟩, id, id⟩
  cases p <;> first
    | rfl
    | (intro _ _; rfl)
    | exact hv.powered.resolve_right hp
    | exact hv.perstN.resolve_right hp
    | exact hv.linkUp.resolve_right hp
    | exact hv.rdybsyN.resolve_right hp
    | exact hv.d3hot.resolve_right hp
    | exact hv.restart.resolve_right hp
    | exact hv.attention.resolve_right hp
    | exact hv.repeating.resolve_right hp
    | exact hv.reportOwed.resolve_right hp
    | exact hv.lowPower.resolve_right hp
    | exact hv.lowPowerAsk.resolve_right hp
    | exact hv.wakePending.resolve_right hp
    | exact hv.darkPerst.resolve_right hp
    | exact hv.darkLoc.resolve_right hp
    | exact hv.opened.resolve_right hp
    | exact hv.pulsed.resolve_right hp
    | exact hv.highSince.resolve_right hp

theorem effect_set_acts {w : List Part} {s t : State} (v0) (hw : partsIn [.acts] w = true)
    (h : Effect w s t) : Effect w s { t with acts := v0 } :=
  h.trans (Effect.mono (w := [.acts])
    ⟨⟨fun p hp => by cases p <;> first | rfl | (intro _ _; rfl) | exact absurd (by decide) hp⟩, id, id⟩ hw)

theorem effect_set_answers {w : List Part} {s t : State} (v0) (hw : partsIn [.answers] w = true)
    (h : Effect w s t) : Effect w s { t with answers := v0 } :=
  h.trans (Effect.mono (w := [.answers])
    ⟨⟨fun p hp => by cases p <;> first | rfl | (intro _ _; rfl) | exact absurd (by decide) hp⟩, id, id⟩ hw)

theorem effect_set_bridge {w : List Part} {s t : State} (v0) (hw : partsIn [.bridge] w = true)
    (h : Effect w s t) : Effect w s { t with bridge := v0 } :=
  h.trans (Effect.mono (w := [.bridge])
    ⟨⟨fun p hp => by cases p <;> first | rfl | (intro _ _; rfl) | exact absurd (by decide) hp⟩, id, id⟩ hw)

theorem effect_set_clk {w : List Part} {s t : State} (v0) (hw : partsIn [.clk] w = true)
    (h : Effect w s t) : Effect w s { t with clk := v0 } :=
  h.trans (Effect.mono (w := [.clk])
    ⟨⟨fun p hp => by cases p <;> first | rfl | (intro _ _; rfl) | exact absurd (by decide) hp⟩, id, id⟩ hw)

theorem effect_set_colEnded {w : List Part} {s t : State} (v0) (hw : partsIn [.colEnded] w = true)
    (h : Effect w s t) : Effect w s { t with colEnded := v0 } :=
  h.trans (Effect.mono (w := [.colEnded])
    ⟨⟨fun p hp => by cases p <;> first | rfl | (intro _ _; rfl) | exact absurd (by decide) hp⟩, id, id⟩ hw)

theorem effect_set_colWaiting {w : List Part} {s t : State} (v0) (hw : partsIn [.colWaiting] w = true)
    (h : Effect w s t) : Effect w s { t with colWaiting := v0 } :=
  h.trans (Effect.mono (w := [.colWaiting])
    ⟨⟨fun p hp => by cases p <;> first | rfl | (intro _ _; rfl) | exact absurd (by decide) hp⟩, id, id⟩ hw)

theorem effect_set_cols {w : List Part} {s t : State} (v0) (hw : partsIn [.cols] w = true)
    (h : Effect w s t) : Effect w s { t with cols := v0 } :=
  h.trans (Effect.mono (w := [.cols])
    ⟨⟨fun p hp => by cases p <;> first | rfl | (intro _ _; rfl) | exact absurd (by decide) hp⟩, id, id⟩ hw)

theorem effect_set_comps {w : List Part} {s t : State} (v0) (hw : partsIn [.comps] w = true)
    (h : Effect w s t) : Effect w s { t with comps := v0 } :=
  h.trans (Effect.mono (w := [.comps])
    ⟨⟨fun p hp => by cases p <;> first | rfl | (intro _ _; rfl) | exact absurd (by decide) hp⟩, id, id⟩ hw)

theorem effect_set_cores {w : List Part} {s t : State} (v0) (hw : partsIn [.cores] w = true)
    (h : Effect w s t) : Effect w s { t with cores := v0 } :=
  h.trans (Effect.mono (w := [.cores])
    ⟨⟨fun p hp => by cases p <;> first | rfl | (intro _ _; rfl) | exact absurd (by decide) hp⟩, id, id⟩ hw)

theorem effect_set_ctlCores {w : List Part} {s t : State} (v0) (hw : partsIn [.ctlCores] w = true)
    (h : Effect w s t) : Effect w s { t with ctlCores := v0 } :=
  h.trans (Effect.mono (w := [.ctlCores])
    ⟨⟨fun p hp => by cases p <;> first | rfl | (intro _ _; rfl) | exact absurd (by decide) hp⟩, id, id⟩ hw)

theorem effect_set_ctlMem {w : List Part} {s t : State} (v0) (hw : partsIn [.ctlMem] w = true)
    (h : Effect w s t) : Effect w s { t with ctlMem := v0 } :=
  h.trans (Effect.mono (w := [.ctlMem])
    ⟨⟨fun p hp => by cases p <;> first | rfl | (intro _ _; rfl) | exact absurd (by decide) hp⟩, id, id⟩ hw)

theorem effect_set_eph {w : List Part} {s t : State} (v0) (hw : partsIn [.eph] w = true)
    (h : Effect w s t) : Effect w s { t with eph := v0 } :=
  h.trans (Effect.mono (w := [.eph])
    ⟨⟨fun p hp => by cases p <;> first | rfl | (intro _ _; rfl) | exact absurd (by decide) hp⟩, id, id⟩ hw)

theorem effect_set_events {w : List Part} {s t : State} (v0) (hw : partsIn [.events] w = true)
    (h : Effect w s t) : Effect w s { t with events := v0 } :=
  h.trans (Effect.mono (w := [.events])
    ⟨⟨fun p hp => by cases p <;> first | rfl | (intro _ _; rfl) | exact absurd (by decide) hp⟩, id, id⟩ hw)

theorem effect_set_flash {w : List Part} {s t : State} (v0) (hw : partsIn [.flash] w = true)
    (h : Effect w s t) : Effect w s { t with flash := v0 } :=
  h.trans (Effect.mono (w := [.flash])
    ⟨⟨fun p hp => by cases p <;> first | rfl | (intro _ _; rfl) | exact absurd (by decide) hp⟩, id, id⟩ hw)

theorem effect_set_flowsRx {w : List Part} {s t : State} (v0) (hw : partsIn [.flowsRx] w = true)
    (h : Effect w s t) : Effect w s { t with flowsRx := v0 } :=
  h.trans (Effect.mono (w := [.flowsRx])
    ⟨⟨fun p hp => by cases p <;> first | rfl | (intro _ _; rfl) | exact absurd (by decide) hp⟩, id, id⟩ hw)

theorem effect_set_flowsTx {w : List Part} {s t : State} (v0) (hw : partsIn [.flowsTx] w = true)
    (h : Effect w s t) : Effect w s { t with flowsTx := v0 } :=
  h.trans (Effect.mono (w := [.flowsTx])
    ⟨⟨fun p hp => by cases p <;> first | rfl | (intro _ _; rfl) | exact absurd (by decide) hp⟩, id, id⟩ hw)

theorem effect_set_flt {w : List Part} {s t : State} (v0) (hw : partsIn [.flt] w = true)
    (h : Effect w s t) : Effect w s { t with flt := v0 } :=
  h.trans (Effect.mono (w := [.flt])
    ⟨⟨fun p hp => by cases p <;> first | rfl | (intro _ _; rfl) | exact absurd (by decide) hp⟩, id, id⟩ hw)

theorem effect_set_freeCtr {w : List Part} {s t : State} (v0) (hw : partsIn [.freeCtr] w = true)
    (h : Effect w s t) : Effect w s { t with freeCtr := v0 } :=
  h.trans (Effect.mono (w := [.freeCtr])
    ⟨⟨fun p hp => by cases p <;> first | rfl | (intro _ _; rfl) | exact absurd (by decide) hp⟩, id, id⟩ hw)

theorem effect_set_hostMem {w : List Part} {s t : State} (v0) (hw : partsIn [.hostMem] w = true) (hm : MemInv t → MemInv { t with hostMem := v0 })
    (h : Effect w s t) : Effect w s { t with hostMem := v0 } :=
  h.trans (Effect.mono (w := [.hostMem])
    ⟨⟨fun p hp => by cases p <;> first | rfl | (intro _ _; rfl) | exact absurd (by decide) hp⟩, hm, id⟩ hw)

theorem effect_set_icuTimers {w : List Part} {s t : State} (v0) (hw : partsIn [.icuTimers] w = true)
    (h : Effect w s t) : Effect w s { t with icuTimers := v0 } :=
  h.trans (Effect.mono (w := [.icuTimers])
    ⟨⟨fun p hp => by cases p <;> first | rfl | (intro _ _; rfl) | exact absurd (by decide) hp⟩, id, id⟩ hw)

theorem effect_set_job {w : List Part} {s t : State} (v0) (hw : partsIn [.job] w = true)
    (h : Effect w s t) : Effect w s { t with job := v0 } :=
  h.trans (Effect.mono (w := [.job])
    ⟨⟨fun p hp => by cases p <;> first | rfl | (intro _ _; rfl) | exact absurd (by decide) hp⟩, id, id⟩ hw)

theorem effect_set_mcasts {w : List Part} {s t : State} (v0) (hw : partsIn [.mcasts] w = true)
    (h : Effect w s t) : Effect w s { t with mcasts := v0 } :=
  h.trans (Effect.mono (w := [.mcasts])
    ⟨⟨fun p hp => by cases p <;> first | rfl | (intro _ _; rfl) | exact absurd (by decide) hp⟩, id, id⟩ hw)

theorem effect_set_mem {w : List Part} {s t : State} (v0) (hw : partsIn [.mem] w = true) (hm : MemInv t → MemInv { t with mem := v0 })
    (h : Effect w s t) : Effect w s { t with mem := v0 } :=
  h.trans (Effect.mono (w := [.mem])
    ⟨⟨fun p hp => by cases p <;> first | rfl | (intro _ _; rfl) | exact absurd (by decide) hp⟩, hm, id⟩ hw)

theorem effect_set_mgmt {w : List Part} {s t : State} (v0) (hw : partsIn [.mgmt] w = true)
    (h : Effect w s t) : Effect w s { t with mgmt := v0 } :=
  h.trans (Effect.mono (w := [.mgmt])
    ⟨⟨fun p hp => by cases p <;> first | rfl | (intro _ _; rfl) | exact absurd (by decide) hp⟩, id, id⟩ hw)

theorem effect_set_queue {w : List Part} {s t : State} (v0) (hw : partsIn [.queue] w = true)
    (h : Effect w s t) : Effect w s { t with pending := v0 } :=
  h.trans (Effect.mono (w := [.queue])
    ⟨⟨fun p hp => by cases p <;> first | rfl | (intro _ _; rfl) | exact absurd (by decide) hp⟩, id, id⟩ hw)

theorem effect_set_poison {w : List Part} {s t : State} (v0) (hw : partsIn [.poison] w = true)
    (h : Effect w s t) : Effect w s { t with poison := v0 } :=
  h.trans (Effect.mono (w := [.poison])
    ⟨⟨fun p hp => by cases p <;> first | rfl | (intro _ _; rfl) | exact absurd (by decide) hp⟩, id, id⟩ hw)

theorem effect_set_ports {w : List Part} {s t : State} (v0) (hw : partsIn [.ports] w = true)
    (h : Effect w s t) : Effect w s { t with ports := v0 } :=
  h.trans (Effect.mono (w := [.ports])
    ⟨⟨fun p hp => by cases p <;> first | rfl | (intro _ _; rfl) | exact absurd (by decide) hp⟩, id, id⟩ hw)

theorem effect_set_pwr {w : List Part} {s t : State} (v0) (hw : partsIn [.pwr] w = true)
    (h : Effect w s t) : Effect w s { t with pwr := v0 } :=
  h.trans (Effect.mono (w := [.pwr])
    ⟨⟨fun p hp => by cases p <;> first | rfl | (intro _ _; rfl) | exact absurd (by decide) hp⟩, id, id⟩ hw)

theorem effect_set_regs {w : List Part} {s t : State} (v0) (hw : partsIn (withRegs []) w = true) (hr : RegMap t.regs → RegMap v0)
    (h : Effect w s t) : Effect w s { t with regs := v0 } :=
  h.trans (Effect.mono (w := (withRegs []))
    ⟨⟨fun p hp => by cases p <;> first | rfl | (intro _ _; rfl) | exact absurd (mem_withRegs _ _) hp | exact absurd (mem_withRegs_right (by decide)) hp⟩, id, hr⟩ hw)

theorem effect_set_rings {w : List Part} {s t : State} (v0) (hw : partsIn [.rings] w = true)
    (h : Effect w s t) : Effect w s { t with rings := v0 } :=
  h.trans (Effect.mono (w := [.rings])
    ⟨⟨fun p hp => by cases p <;> first | rfl | (intro _ _; rfl) | exact absurd (by decide) hp⟩, id, id⟩ hw)

theorem effect_set_routes {w : List Part} {s t : State} (v0) (hw : partsIn [.routes] w = true)
    (h : Effect w s t) : Effect w s { t with routes := v0 } :=
  h.trans (Effect.mono (w := [.routes])
    ⟨⟨fun p hp => by cases p <;> first | rfl | (intro _ _; rfl) | exact absurd (by decide) hp⟩, id, id⟩ hw)

theorem effect_set_scrub {w : List Part} {s t : State} (v0) (hw : partsIn [.scrub] w = true)
    (h : Effect w s t) : Effect w s { t with scrub := v0 } :=
  h.trans (Effect.mono (w := [.scrub])
    ⟨⟨fun p hp => by cases p <;> first | rfl | (intro _ _; rfl) | exact absurd (by decide) hp⟩, id, id⟩ hw)

theorem effect_set_sid {w : List Part} {s t : State} (v0) (hw : partsIn [.sid] w = true)
    (h : Effect w s t) : Effect w s { t with sid := v0 } :=
  h.trans (Effect.mono (w := [.sid])
    ⟨⟨fun p hp => by cases p <;> first | rfl | (intro _ _; rfl) | exact absurd (by decide) hp⟩, id, id⟩ hw)

theorem effect_set_snoop {w : List Part} {s t : State} (v0) (hw : partsIn [.snoop] w = true)
    (h : Effect w s t) : Effect w s { t with snoop := v0 } :=
  h.trans (Effect.mono (w := [.snoop])
    ⟨⟨fun p hp => by cases p <;> first | rfl | (intro _ _; rfl) | exact absurd (by decide) hp⟩, id, id⟩ hw)

theorem effect_set_sync {w : List Part} {s t : State} (v0) (hw : partsIn [.sync] w = true)
    (h : Effect w s t) : Effect w s { t with sync := v0 } :=
  h.trans (Effect.mono (w := [.sync])
    ⟨⟨fun p hp => by cases p <;> first | rfl | (intro _ _; rfl) | exact absurd (by decide) hp⟩, id, id⟩ hw)

theorem effect_set_tru {w : List Part} {s t : State} (v0) (hw : partsIn [.tru] w = true)
    (h : Effect w s t) : Effect w s { t with tru := v0 } :=
  h.trans (Effect.mono (w := [.tru])
    ⟨⟨fun p hp => by cases p <;> first | rfl | (intro _ _; rfl) | exact absurd (by decide) hp⟩, id, id⟩ hw)

theorem effect_set_unusable {w : List Part} {s t : State} (v0) (hw : partsIn [.unusable] w = true)
    (h : Effect w s t) : Effect w s { t with unusable := v0 } :=
  h.trans (Effect.mono (w := [.unusable])
    ⟨⟨fun p hp => by cases p <;> first | rfl | (intro _ _; rfl) | exact absurd (by decide) hp⟩, id, id⟩ hw)

theorem effect_set_ctlCores_ctlMem {w : List Part} {s t : State} (v0) (v1) (hw : partsIn [.ctlCores, .ctlMem] w = true)
    (h : Effect w s t) : Effect w s { t with ctlCores := v0, ctlMem := v1 } :=
  h.trans (Effect.mono (w := [.ctlCores, .ctlMem])
    ⟨⟨fun p hp => by cases p <;> first | rfl | (intro _ _; rfl) | exact absurd (by decide) hp⟩, id, id⟩ hw)

theorem effect_set_flowsTx_flowsRx {w : List Part} {s t : State} (v0) (v1) (hw : partsIn [.flowsTx, .flowsRx] w = true)
    (h : Effect w s t) : Effect w s { t with flowsTx := v0, flowsRx := v1 } :=
  h.trans (Effect.mono (w := [.flowsTx, .flowsRx])
    ⟨⟨fun p hp => by cases p <;> first | rfl | (intro _ _; rfl) | exact absurd (by decide) hp⟩, id, id⟩ hw)

theorem effect_set_flt_tru {w : List Part} {s t : State} (v0) (v1) (hw : partsIn [.flt, .tru] w = true)
    (h : Effect w s t) : Effect w s { t with flt := v0, tru := v1 } :=
  h.trans (Effect.mono (w := [.flt, .tru])
    ⟨⟨fun p hp => by cases p <;> first | rfl | (intro _ _; rfl) | exact absurd (by decide) hp⟩, id, id⟩ hw)

theorem effect_set_freeCtr_flash {w : List Part} {s t : State} (v0) (v1) (hw : partsIn [.freeCtr, .flash] w = true)
    (h : Effect w s t) : Effect w s { t with freeCtr := v0, flash := v1 } :=
  h.trans (Effect.mono (w := [.freeCtr, .flash])
    ⟨⟨fun p hp => by cases p <;> first | rfl | (intro _ _; rfl) | exact absurd (by decide) hp⟩, id, id⟩ hw)

theorem effect_set_freeCtr_mem {w : List Part} {s t : State} (v0) (v1) (hw : partsIn [.freeCtr, .mem] w = true) (hm : MemInv t → MemInv { t with freeCtr := v0, mem := v1 })
    (h : Effect w s t) : Effect w s { t with freeCtr := v0, mem := v1 } :=
  h.trans (Effect.mono (w := [.freeCtr, .mem])
    ⟨⟨fun p hp => by cases p <;> first | rfl | (intro _ _; rfl) | exact absurd (by decide) hp⟩, hm, id⟩ hw)

theorem effect_set_icuTimers_flt {w : List Part} {s t : State} (v0) (v1) (hw : partsIn [.icuTimers, .flt] w = true)
    (h : Effect w s t) : Effect w s { t with icuTimers := v0, flt := v1 } :=
  h.trans (Effect.mono (w := [.icuTimers, .flt])
    ⟨⟨fun p hp => by cases p <;> first | rfl | (intro _ _; rfl) | exact absurd (by decide) hp⟩, id, id⟩ hw)

theorem effect_set_mem_heldWrites {w : List Part} {s t : State} (v0) (v1) (hw : partsIn [.mem, .heldWrites] w = true) (hm : MemInv t → MemInv { t with mem := v0, heldWrites := v1 })
    (h : Effect w s t) : Effect w s { t with mem := v0, heldWrites := v1 } :=
  h.trans (Effect.mono (w := [.mem, .heldWrites])
    ⟨⟨fun p hp => by cases p <;> first | rfl | (intro _ _; rfl) | exact absurd (by decide) hp⟩, hm, id⟩ hw)

theorem effect_set_regs_flt {w : List Part} {s t : State} (v0) (v1) (hw : partsIn (withRegs [.flt]) w = true) (hr : RegMap t.regs → RegMap v0)
    (h : Effect w s t) : Effect w s { t with regs := v0, flt := v1 } :=
  h.trans (Effect.mono (w := (withRegs [.flt]))
    ⟨⟨fun p hp => by cases p <;> first | rfl | (intro _ _; rfl) | exact absurd (mem_withRegs _ _) hp | exact absurd (mem_withRegs_right (by decide)) hp⟩, id, hr⟩ hw)

theorem effect_set_snoop_heldWrites {w : List Part} {s t : State} (v0) (v1) (hw : partsIn [.snoop, .heldWrites] w = true)
    (h : Effect w s t) : Effect w s { t with snoop := v0, heldWrites := v1 } :=
  h.trans (Effect.mono (w := [.snoop, .heldWrites])
    ⟨⟨fun p hp => by cases p <;> first | rfl | (intro _ _; rfl) | exact absurd (by decide) hp⟩, id, id⟩ hw)

theorem effect_set_sync_bridge {w : List Part} {s t : State} (v0) (v1) (hw : partsIn [.sync, .bridge] w = true)
    (h : Effect w s t) : Effect w s { t with sync := v0, bridge := v1 } :=
  h.trans (Effect.mono (w := [.sync, .bridge])
    ⟨⟨fun p hp => by cases p <;> first | rfl | (intro _ _; rfl) | exact absurd (by decide) hp⟩, id, id⟩ hw)

theorem effect_set_cols_colWaiting_colEnded {w : List Part} {s t : State} (v0) (v1) (v2) (hw : partsIn [.cols, .colWaiting, .colEnded] w = true)
    (h : Effect w s t) : Effect w s { t with cols := v0, colWaiting := v1, colEnded := v2 } :=
  h.trans (Effect.mono (w := [.cols, .colWaiting, .colEnded])
    ⟨⟨fun p hp => by cases p <;> first | rfl | (intro _ _; rfl) | exact absurd (by decide) hp⟩, id, id⟩ hw)

theorem effect_set_mem_poison_heldWrites {w : List Part} {s t : State} (v0) (v1) (v2) (hw : partsIn [.mem, .poison, .heldWrites] w = true) (hm : MemInv t → MemInv { t with mem := v0, poison := v1, heldWrites := v2 })
    (h : Effect w s t) : Effect w s { t with mem := v0, poison := v1, heldWrites := v2 } :=
  h.trans (Effect.mono (w := [.mem, .poison, .heldWrites])
    ⟨⟨fun p hp => by cases p <;> first | rfl | (intro _ _; rfl) | exact absurd (by decide) hp⟩, hm, id⟩ hw)

theorem effect_set_pwr_flt_job {w : List Part} {s t : State} (v0) (v1) (v2) (hw : partsIn [.pwr, .flt, .job] w = true)
    (h : Effect w s t) : Effect w s { t with pwr := v0, flt := v1, job := v2 } :=
  h.trans (Effect.mono (w := [.pwr, .flt, .job])
    ⟨⟨fun p hp => by cases p <;> first | rfl | (intro _ _; rfl) | exact absurd (by decide) hp⟩, id, id⟩ hw)

theorem effect_set_colWaiting_colEnded_mcasts_flowsTx_flowsRx_job {w : List Part} {s t : State} (v0) (v1) (v2) (v3) (v4) (v5) (hw : partsIn [.colWaiting, .colEnded, .mcasts, .flowsTx, .flowsRx, .job] w = true)
    (h : Effect w s t) : Effect w s { t with colWaiting := v0, colEnded := v1, mcasts := v2, flowsTx := v3, flowsRx := v4, job := v5 } :=
  h.trans (Effect.mono (w := [.colWaiting, .colEnded, .mcasts, .flowsTx, .flowsRx, .job])
    ⟨⟨fun p hp => by cases p <;> first | rfl | (intro _ _; rfl) | exact absurd (by decide) hp⟩, id, id⟩ hw)

theorem effect_set_cores_sync_bridge_cols_comps_pwr_job {w : List Part} {s t : State} (v0) (v1) (v2) (v3) (v4) (v5) (v6) (hw : partsIn [.cores, .sync, .bridge, .cols, .comps, .pwr, .job] w = true)
    (h : Effect w s t) : Effect w s { t with cores := v0, sync := v1, bridge := v2, cols := v3, comps := v4, pwr := v5, job := v6 } :=
  h.trans (Effect.mono (w := [.cores, .sync, .bridge, .cols, .comps, .pwr, .job])
    ⟨⟨fun p hp => by cases p <;> first | rfl | (intro _ _; rfl) | exact absurd (by decide) hp⟩, id, id⟩ hw)

theorem effect_set_dark {w : List Part} {s t : State} (v0) (v1) (v2) (v3) (v4) (v5) (v6) (v7) (v8) (v9) (v10) (v11) (v12) (v13) (v14) (hw : partsIn [.snoop, .cores, .bridge, .colWaiting, .colEnded, .mcasts, .routes, .flowsTx, .flowsRx, .rings, .events, .comps, .ctlCores, .ctlMem, .flt] w = true)
    (h : Effect w s t) : Effect w s { t with snoop := v0, cores := v1, bridge := v2, colWaiting := v3, colEnded := v4, mcasts := v5, routes := v6, flowsTx := v7, flowsRx := v8, rings := v9, events := v10, comps := v11, ctlCores := v12, ctlMem := v13, flt := v14 } :=
  h.trans (Effect.mono (w := [.snoop, .cores, .bridge, .colWaiting, .colEnded, .mcasts, .routes, .flowsTx, .flowsRx, .rings, .events, .comps, .ctlCores, .ctlMem, .flt])
    ⟨⟨fun p hp => by cases p <;> first | rfl | (intro _ _; rfl) | exact absurd (by decide) hp⟩, id, id⟩ hw)

theorem effect_set_module {w : List Part} {s t : State} (v0) (v1) (v2) (v3) (v4) (v5) (v6) (v7) (v8) (v9) (v10) (v11) (v12) (v13) (v14) (v15) (v16) (v17) (v18) (v19) (v20) (v21) (v22) (v23) (hw : partsIn [.mem, .poison, .snoop, .heldWrites, .cores, .sync, .bridge, .cols, .colWaiting, .colEnded, .mcasts, .routes, .flowsTx, .flowsRx, .ports, .rings, .events, .icuTimers, .comps, .pwr, .clk, .flt, .acts, .job] w = true) (hm : MemInv t → MemInv { t with mem := v0, poison := v1, snoop := v2, heldWrites := v3, cores := v4, sync := v5, bridge := v6, cols := v7, colWaiting := v8, colEnded := v9, mcasts := v10, routes := v11, flowsTx := v12, flowsRx := v13, ports := v14, rings := v15, events := v16, icuTimers := v17, comps := v18, pwr := v19, clk := v20, flt := v21, acts := v22, job := v23 })
    (h : Effect w s t) : Effect w s { t with mem := v0, poison := v1, snoop := v2, heldWrites := v3, cores := v4, sync := v5, bridge := v6, cols := v7, colWaiting := v8, colEnded := v9, mcasts := v10, routes := v11, flowsTx := v12, flowsRx := v13, ports := v14, rings := v15, events := v16, icuTimers := v17, comps := v18, pwr := v19, clk := v20, flt := v21, acts := v22, job := v23 } :=
  h.trans (Effect.mono (w := [.mem, .poison, .snoop, .heldWrites, .cores, .sync, .bridge, .cols, .colWaiting, .colEnded, .mcasts, .routes, .flowsTx, .flowsRx, .ports, .rings, .events, .icuTimers, .comps, .pwr, .clk, .flt, .acts, .job])
    ⟨⟨fun p hp => by cases p <;> first | rfl | (intro _ _; rfl) | exact absurd (by decide) hp⟩, hm, id⟩ hw)

end Sys2Proof.Machine
end

