-- ==== Sys2Proof/Laws/OpsEffect.lean ====
section
/-! SUPPORT. One effect lemma for each operation of Machine/Ops.lean: the parts it may change. -/

set_option maxRecDepth 2000

set_option Elab.async false
set_option linter.unusedTactic false
set_option linter.unreachableTactic false
set_option linter.unusedVariables false
set_option linter.unusedSimpArgs false

namespace Sys2Proof.Machine

theorem stepTo_effect (s : State) (die stamp : Nat) :
    Effect [.reg .sidCount] s (stepTo s die stamp) := by
  unfold stepTo
  repeat' (first
    | with_reducible exact Effect.refl _ _
    | (with_reducible show partsIn _ _ = true); decide +kernel
    | with_reducible apply Effect.ite
    | (with_reducible apply Effect.after; with_reducible apply wr_effect)
    | extract_lets
    | split
    | (refine ⟨⟨?_⟩, id, id⟩; intro p hp; cases p <;> first | rfl | (intro _ _; rfl) | (refine absurd ?_ hp; decide)))

theorem setSid_effect (s : State) (die : Nat) (v : SidState) :
    Effect [.sid] s (setSid s die v) := by
  unfold setSid
  repeat' (first
    | with_reducible exact Effect.refl _ _
    | (with_reducible show partsIn _ _ = true); decide +kernel
    | with_reducible apply Effect.ite
    | extract_lets
    | split
    | with_reducible apply effect_set_sid
    | (refine ⟨⟨?_⟩, id, id⟩; intro p hp; cases p <;> first | rfl | (intro _ _; rfl) | (refine absurd ?_ hp; decide)))

theorem setCtlCore_effect (s : State) (die core : Nat) (c : ControlCore) :
    Effect [.ctlCores] s (setCtlCore s die core c) := by
  unfold setCtlCore
  repeat' (first
    | with_reducible exact Effect.refl _ _
    | (with_reducible show partsIn _ _ = true); decide +kernel
    | with_reducible apply Effect.ite
    | extract_lets
    | split
    | with_reducible apply effect_set_ctlCores
    | (refine ⟨⟨?_⟩, id, id⟩; intro p hp; cases p <;> first | rfl | (intro _ _; rfl) | (refine absurd ?_ hp; decide)))

theorem setCtlMem_effect (s : State) (die : Nat) (m : ControlMem) :
    Effect [.ctlMem] s (setCtlMem s die m) := by
  unfold setCtlMem
  repeat' (first
    | with_reducible exact Effect.refl _ _
    | (with_reducible show partsIn _ _ = true); decide +kernel
    | with_reducible apply Effect.ite
    | extract_lets
    | split
    | with_reducible apply effect_set_ctlMem
    | (refine ⟨⟨?_⟩, id, id⟩; intro p hp; cases p <;> first | rfl | (intro _ _; rfl) | (refine absurd ?_ hp; decide)))

theorem flashWrite_effect (s : State) (region : Nat) :
    Effect [.flash, .freeCtr] s (flashWrite s region) := by
  unfold flashWrite
  repeat' (first
    | with_reducible exact Effect.refl _ _
    | (with_reducible show partsIn _ _ = true); decide +kernel
    | with_reducible apply Effect.ite
    | extract_lets
    | split
    | with_reducible apply effect_set_freeCtr_flash
    | (refine ⟨⟨?_⟩, id, id⟩; intro p hp; cases p <;> first | rfl | (intro _ _; rfl) | (refine absurd ?_ hp; decide)))

theorem settingsStore_effect (s : State) :
    Effect [.flash, .freeCtr] s (settingsStore s) := by
  unfold settingsStore
  repeat' (first
    | with_reducible exact Effect.refl _ _
    | (with_reducible show partsIn _ _ = true); decide +kernel
    | with_reducible apply Effect.ite
    | (with_reducible apply Effect.after; with_reducible apply flashWrite_effect)
    | extract_lets
    | split
    | with_reducible apply effect_set_flash
    | (refine ⟨⟨?_⟩, id, id⟩; intro p hp; cases p <;> first | rfl | (intro _ _; rfl) | (refine absurd ?_ hp; decide)))

theorem ledgerStore_effect (s : State) :
    Effect [.flash, .freeCtr] s (ledgerStore s) := by
  unfold ledgerStore
  repeat' (first
    | with_reducible exact Effect.refl _ _
    | (with_reducible show partsIn _ _ = true); decide +kernel
    | with_reducible apply Effect.ite
    | (with_reducible apply Effect.after; with_reducible apply flashWrite_effect)
    | extract_lets
    | split
    | (refine ⟨⟨?_⟩, id, id⟩; intro p hp; cases p <;> first | rfl | (intro _ _; rfl) | (refine absurd ?_ hp; decide)))

theorem bootStore_effect (s : State) :
    Effect [.flash, .freeCtr] s (bootStore s) := by
  unfold bootStore
  repeat' (first
    | with_reducible exact Effect.refl _ _
    | (with_reducible show partsIn _ _ = true); decide +kernel
    | with_reducible apply Effect.ite
    | (with_reducible apply Effect.after; with_reducible apply flashWrite_effect)
    | extract_lets
    | split
    | (refine ⟨⟨?_⟩, id, id⟩; intro p hp; cases p <;> first | rfl | (intro _ _; rfl) | (refine absurd ?_ hp; decide)))

theorem hostWrite_effect (s : State) (addr : Nat) (data : Bytes) :
    Effect [.hostMem] s (hostWrite s addr data) := by
  unfold hostWrite
  repeat' (first
    | with_reducible exact Effect.refl _ _
    | (with_reducible show MemInv _ → MemInv _); first | exact fun h => ⟨bytesWf_putSome _ _ _ _ h.1, h.2⟩ | exact fun h => ⟨bytesWf_putBytes _ _ _ h.1, h.2⟩ | exact fun h => ⟨h.1, bytesWf_putBytes _ _ _ h.2⟩ | exact fun h => ⟨bytesWf_filter _ h.1, h.2⟩ | exact fun h => ⟨rfl, h.2⟩ | exact fun h => ⟨bytesWf_foldl _ (fun _ _ => bytesWf_putByte _ _) _ _ h.1, h.2⟩ | exact fun h => ⟨bytesWf_foldl _ (fun _ _ => bytesWf_foldl _ (fun _ _ => bytesWf_putByte _ _) _ _) _ _ h.1, h.2⟩
    | (with_reducible show partsIn _ _ = true); decide +kernel
    | with_reducible apply Effect.ite
    | extract_lets
    | split
    | with_reducible apply effect_set_hostMem
    | (refine ⟨⟨?_⟩, id, id⟩; intro p hp; cases p <;> first | rfl | (intro _ _; rfl) | (refine absurd ?_ hp; decide)))

theorem icuArm_effect (s : State) (die g : Nat) :
    Effect [.icuTimers, .wakePending] s (icuArm s die g) := by
  unfold icuArm
  repeat' (first
    | with_reducible exact Effect.refl _ _
    | (with_reducible show HostIn _ _ _); constructor <;> first | exact Or.inl (by with_reducible rfl) | exact Or.inr (by decide) | exact Or.inl rfl
    | (with_reducible show partsIn _ _ = true); decide +kernel
    | with_reducible apply Effect.ite
    | extract_lets
    | split
    | dsimp +zetaDelta only
    | with_reducible apply effect_set_icuTimers
    | with_reducible apply effect_set_host
    | (refine ⟨⟨?_⟩, id, id⟩; intro p hp; cases p <;> first | rfl | (intro _ _; rfl) | (refine absurd ?_ hp; decide)))

theorem irq_effect (s : State) (die g b : Nat) :
    Effect [.icuTimers, .wakePending, .reg .icuPend] s (irq s die g b) := by
  unfold irq
  repeat' (first
    | with_reducible exact Effect.refl _ _
    | (with_reducible show partsIn _ _ = true); decide +kernel
    | with_reducible apply Effect.ite
    | (with_reducible apply Effect.after; with_reducible apply icuArm_effect)
    | (with_reducible apply Effect.after; with_reducible apply wr_effect)
    | extract_lets
    | split
    | (refine ⟨⟨?_⟩, id, id⟩; intro p hp; cases p <;> first | rfl | (intro _ _; rfl) | (refine absurd ?_ hp; decide)))

theorem icuSummarise_effect (s : State) (die g : Nat) :
    Effect [.reg .icuSummary, .reg .icuSummaryHost] s (icuSummarise s die g) := by
  unfold icuSummarise
  repeat' (first
    | with_reducible exact Effect.refl _ _
    | (with_reducible show partsIn _ _ = true); decide +kernel
    | with_reducible apply Effect.ite
    | (with_reducible apply Effect.after; with_reducible apply wr_effect)
    | (with_reducible apply Effect.trans; pick_goal 2; with_reducible apply Effect.foldl; intro _ _)
    | extract_lets
    | split
    | (refine ⟨⟨?_⟩, id, id⟩; intro p hp; cases p <;> first | rfl | (intro _ _; rfl) | (refine absurd ?_ hp; decide)))

theorem icuSettle_effect (s : State) (die g : Nat) :
    Effect [.repeating, .reg .icuSummary, .reg .icuSummaryHost] s (icuSettle s die g) := by
  unfold icuSettle
  repeat' (first
    | with_reducible exact Effect.refl _ _
    | (with_reducible show HostIn _ _ _); constructor <;> first | exact Or.inl (by with_reducible rfl) | exact Or.inr (by decide) | exact Or.inl rfl
    | (with_reducible show partsIn _ _ = true); decide +kernel
    | with_reducible apply Effect.ite
    | (with_reducible apply Effect.after; with_reducible apply icuSummarise_effect)
    | extract_lets
    | split
    | with_reducible apply effect_set_host
    | (refine ⟨⟨?_⟩, id, id⟩; intro p hp; cases p <;> first | rfl | (intro _ _; rfl) | (refine absurd ?_ hp; decide)))

theorem setEph_effect (s : State) (die : Nat) (e : Ephemeris) :
    Effect [.eph] s (setEph s die e) := by
  unfold setEph
  repeat' (first
    | with_reducible exact Effect.refl _ _
    | (with_reducible show partsIn _ _ = true); decide +kernel
    | with_reducible apply Effect.ite
    | extract_lets
    | split
    | with_reducible apply effect_set_eph
    | (refine ⟨⟨?_⟩, id, id⟩; intro p hp; cases p <;> first | rfl | (intro _ _; rfl) | (refine absurd ?_ hp; decide)))

theorem ringPut_effect (s : State) (die n : Nat) (body : Nat → Bytes) (source : Nat) :
    Effect [.hostMem, .icuTimers, .wakePending, .reg .hifRingHead, .reg .icuPend] s (ringPut s die n body source) := by
  unfold ringPut
  repeat' (first
    | with_reducible exact Effect.refl _ _
    | (with_reducible show partsIn _ _ = true); decide +kernel
    | with_reducible apply Effect.ite
    | (with_reducible apply Effect.after; with_reducible apply irq_effect)
    | (with_reducible apply Effect.after; with_reducible apply hostWrite_effect)
    | (with_reducible apply Effect.after; with_reducible apply wr_effect)
    | extract_lets
    | split
    | (refine ⟨⟨?_⟩, id, id⟩; intro p hp; cases p <;> first | rfl | (intro _ _; rfl) | (refine absurd ?_ hp; decide)))

theorem newRecord_effect (s : State) (die code flags block unit payload : Nat) :
    Effect [.reg .ephSeq] s (newRecord s die code flags block unit payload).2 := by
  unfold newRecord
  repeat' (first
    | with_reducible exact Effect.refl _ _
    | (with_reducible show partsIn _ _ = true); decide +kernel
    | with_reducible apply Effect.ite
    | (with_reducible apply Effect.after; with_reducible apply wr_effect)
    | extract_lets
    | split
    | (refine ⟨⟨?_⟩, id, id⟩; intro p hp; cases p <;> first | rfl | (intro _ _; rfl) | (refine absurd ?_ hp; decide)))

theorem ephAppend_effect (s : State) (die : Nat) (r : Record) :
    Effect [.eph, .hostMem, .icuTimers, .wakePending, .reg .hifRingHead, .reg .icuPend] s (ephAppend s die r) := by
  unfold ephAppend
  repeat' (first
    | with_reducible exact Effect.refl _ _
    | (with_reducible show partsIn _ _ = true); decide +kernel
    | with_reducible apply Effect.ite
    | (with_reducible apply Effect.after; with_reducible apply ringPut_effect)
    | (with_reducible apply Effect.after; with_reducible apply setEph_effect)
    | (with_reducible apply Effect.after; with_reducible apply irq_effect)
    | extract_lets
    | split
    | (refine ⟨⟨?_⟩, id, id⟩; intro p hp; cases p <;> first | rfl | (intro _ _; rfl) | (refine absurd ?_ hp; decide)))

theorem ephSettle_effect (s : State) (die : Nat) :
    Effect [.repeating, .reg .icuPend, .reg .icuSummary, .reg .icuSummaryHost] s (ephSettle s die) := by
  unfold ephSettle
  repeat' (first
    | with_reducible exact Effect.refl _ _
    | (with_reducible show partsIn _ _ = true); decide +kernel
    | with_reducible apply Effect.ite
    | (with_reducible apply Effect.after; with_reducible apply icuSettle_effect)
    | (with_reducible apply Effect.after; with_reducible apply wr_effect)
    | extract_lets
    | split
    | (refine ⟨⟨?_⟩, id, id⟩; intro p hp; cases p <;> first | rfl | (intro _ _; rfl) | (refine absurd ?_ hp; decide)))

theorem ephLost_effect (s : State) (die : Nat) :
    Effect [.eph, .hostMem, .icuTimers, .wakePending, .reg .ephSeq, .reg .hifRingHead, .reg .icuPend] s (ephLost s die) := by
  unfold ephLost
  repeat' (first
    | with_reducible exact Effect.refl _ _
    | (with_reducible show partsIn _ _ = true); decide +kernel
    | with_reducible apply Effect.ite
    | (with_reducible apply Effect.after; with_reducible apply ephAppend_effect)
    | (with_reducible apply Effect.after; with_reducible apply newRecord_effect)
    | with_reducible refine Effect.after (Effect.snd (newRecord_effect _ _ _ _ _ _ _) (by assumption)) ?_ ?_
    | (with_reducible apply Effect.after; with_reducible apply setEph_effect)
    | extract_lets
    | split
    | (refine ⟨⟨?_⟩, id, id⟩; intro p hp; cases p <;> first | rfl | (intro _ _; rfl) | (refine absurd ?_ hp; decide)))

theorem ephDropped_effect (s : State) (die q n : Nat) :
    Effect [.eph, .reg .ephLostCount] s (ephDropped s die q n) := by
  unfold ephDropped
  repeat' (first
    | with_reducible exact Effect.refl _ _
    | (with_reducible show partsIn _ _ = true); decide +kernel
    | with_reducible apply Effect.ite
    | (with_reducible apply Effect.after; with_reducible apply setEph_effect)
    | (with_reducible apply Effect.after; with_reducible apply bump_effect)
    | extract_lets
    | split
    | (refine ⟨⟨?_⟩, id, id⟩; intro p hp; cases p <;> first | rfl | (intro _ _; rfl) | (refine absurd ?_ hp; decide)))

theorem emitAll_effect (s : State) (die block unit : Nat) (bodies : List (Nat × Nat × Nat)) :
    Effect [.eph, .hostMem, .icuTimers, .wakePending, .reg .ephLostCount, .reg .ephSeq, .reg .hifRingHead, .reg .icuPend] s (emitAll s die block unit bodies) := by
  unfold emitAll
  repeat' (first
    | with_reducible exact Effect.refl _ _
    | (with_reducible show partsIn _ _ = true); decide +kernel
    | with_reducible apply Effect.ite
    | (with_reducible apply Effect.after; with_reducible apply ephDropped_effect)
    | (with_reducible apply Effect.after; with_reducible apply ephLost_effect)
    | (with_reducible apply Effect.after; with_reducible apply ephAppend_effect)
    | (with_reducible apply Effect.after; with_reducible apply newRecord_effect)
    | with_reducible refine Effect.after (Effect.snd (newRecord_effect _ _ _ _ _ _ _) (by assumption)) ?_ ?_
    | (with_reducible apply Effect.after; with_reducible apply wr_effect)
    | (with_reducible apply Effect.trans; pick_goal 2; with_reducible apply Effect.foldl; intro _ _)
    | extract_lets
    | split
    | (refine ⟨⟨?_⟩, id, id⟩; intro p hp; cases p <;> first | rfl | (intro _ _; rfl) | (refine absurd ?_ hp; decide)))

theorem emit_effect (s : State) (die code flags block unit payload : Nat) :
    Effect [.eph, .hostMem, .icuTimers, .wakePending, .reg .ephLostCount, .reg .ephSeq, .reg .hifRingHead, .reg .icuPend] s (emit s die code flags block unit payload) := by
  unfold emit
  repeat' (first
    | with_reducible exact Effect.refl _ _
    | (with_reducible show partsIn _ _ = true); decide +kernel
    | with_reducible apply Effect.ite
    | (with_reducible apply Effect.after; with_reducible apply emitAll_effect)
    | extract_lets
    | split
    | (refine ⟨⟨?_⟩, id, id⟩; intro p hp; cases p <;> first | rfl | (intro _ _; rfl) | (refine absurd ?_ hp; decide)))

theorem refusedRec_effect (s : State) (die : Nat) (b : Blk) (unit addr : Nat) (m : Master) (reason value : Nat) :
    Effect [.eph, .hostMem, .icuTimers, .wakePending, .reg .ephLostCount, .reg .ephSeq, .reg .hifRingHead, .reg .icuPend] s (refusedRec s die b unit addr m reason value) := by
  unfold refusedRec
  repeat' (first
    | with_reducible exact Effect.refl _ _
    | (with_reducible show partsIn _ _ = true); decide +kernel
    | with_reducible apply Effect.ite
    | (with_reducible apply Effect.after; with_reducible apply emit_effect)
    | extract_lets
    | split
    | (refine ⟨⟨?_⟩, id, id⟩; intro p hp; cases p <;> first | rfl | (intro _ _; rfl) | (refine absurd ?_ hp; decide)))

theorem masterRec_effect (s : State) (item : Nat) (m : Master) (status type tag other : Nat) :
    Effect [.eph, .hostMem, .icuTimers, .wakePending, .reg .ephLostCount, .reg .ephSeq, .reg .hifRingHead, .reg .icuPend] s (masterRec s item m status type tag other) := by
  unfold masterRec
  repeat' (first
    | with_reducible exact Effect.refl _ _
    | (with_reducible show partsIn _ _ = true); decide +kernel
    | with_reducible apply Effect.ite
    | (with_reducible apply Effect.after; with_reducible apply emit_effect)
    | extract_lets
    | split
    | (refine ⟨⟨?_⟩, id, id⟩; intro p hp; cases p <;> first | rfl | (intro _ _; rfl) | (refine absurd ?_ hp; decide)))

theorem countRec_effect (s : State) (die : Nat) (r : Reg) (unit value : Nat) :
    Effect [.eph, .hostMem, .icuTimers, .wakePending, .reg .ephLostCount, .reg .ephSeq, .reg .hifRingHead, .reg .icuPend] s (countRec s die r unit value) := by
  unfold countRec
  repeat' (first
    | with_reducible exact Effect.refl _ _
    | (with_reducible show partsIn _ _ = true); decide +kernel
    | with_reducible apply Effect.ite
    | (with_reducible apply Effect.after; with_reducible apply emit_effect)
    | extract_lets
    | split
    | (refine ⟨⟨?_⟩, id, id⟩; intro p hp; cases p <;> first | rfl | (intro _ _; rfl) | (refine absurd ?_ hp; decide)))

theorem countRecords_effect (s : State) :
    Effect [.eph, .hostMem, .icuTimers, .wakePending, .reg .ephLostCount, .reg .ephSeq, .reg .hifRingHead, .reg .icuPend] s (countRecords s) := by
  unfold countRecords
  repeat' (first
    | with_reducible exact Effect.refl _ _
    | (with_reducible show partsIn _ _ = true); decide +kernel
    | with_reducible apply Effect.ite
    | (with_reducible apply Effect.after; with_reducible apply countRec_effect)
    | (with_reducible apply Effect.trans; pick_goal 2; with_reducible apply Effect.foldl; intro _ _)
    | extract_lets
    | split
    | (refine ⟨⟨?_⟩, id, id⟩; intro p hp; cases p <;> first | rfl | (intro _ _; rfl) | (refine absurd ?_ hp; decide)))

theorem syncRec_effect (s : State) (die action : Nat) (theta delta : Int) :
    Effect [.eph, .hostMem, .icuTimers, .wakePending, .reg .ephLostCount, .reg .ephSeq, .reg .hifRingHead, .reg .icuPend] s (syncRec s die action theta delta) := by
  unfold syncRec
  repeat' (first
    | with_reducible exact Effect.refl _ _
    | (with_reducible show partsIn _ _ = true); decide +kernel
    | with_reducible apply Effect.ite
    | (with_reducible apply Effect.after; with_reducible apply emit_effect)
    | extract_lets
    | split
    | (refine ⟨⟨?_⟩, id, id⟩; intro p hp; cases p <;> first | rfl | (intro _ _; rfl) | (refine absurd ?_ hp; decide)))

theorem setEvents_effect (s : State) (die : Nat) (l : List EventRec) :
    Effect [.events] s (setEvents s die l) := by
  unfold setEvents
  repeat' (first
    | with_reducible exact Effect.refl _ _
    | (with_reducible show partsIn _ _ = true); decide +kernel
    | with_reducible apply Effect.ite
    | extract_lets
    | split
    | with_reducible apply effect_set_events
    | (refine ⟨⟨?_⟩, id, id⟩; intro p hp; cases p <;> first | rfl | (intro _ _; rfl) | (refine absurd ?_ hp; decide)))

abbrev event_parts : List Part :=
  [.eph, .events, .hostMem, .icuTimers, .wakePending, .reg .ephLostCount, .reg .ephSeq, .reg .hifEventLostCount, .reg .hifRingHead, .reg .icuPend]

theorem event_effect (s : State) (die code arg0 arg1 arg2 : Nat) :
    Effect event_parts s (event s die code arg0 arg1 arg2) := by
  unfold event
  repeat' (first
    | with_reducible exact Effect.refl _ _
    | (with_reducible show partsIn _ _ = true); decide +kernel
    | with_reducible apply Effect.ite
    | (with_reducible apply Effect.after; with_reducible apply setEvents_effect)
    | (with_reducible apply Effect.after; with_reducible apply emitAll_effect)
    | (with_reducible apply Effect.after; with_reducible apply ringPut_effect)
    | (with_reducible apply Effect.after; with_reducible apply bump_effect)
    | extract_lets
    | split
    | (refine ⟨⟨?_⟩, id, id⟩; intro p hp; cases p <;> first | rfl | (intro _ _; rfl) | (refine absurd ?_ hp; decide)))

theorem setJobState_effect (s : State) (v : Nat) :
    Effect [.icuTimers, .wakePending, .reg .icuPend, .reg .jobStatus] s (setJobState s v) := by
  unfold setJobState
  repeat' (first
    | with_reducible exact Effect.refl _ _
    | (with_reducible show partsIn _ _ = true); decide +kernel
    | with_reducible apply Effect.ite
    | (with_reducible apply Effect.after; with_reducible apply irq_effect)
    | (with_reducible apply Effect.after; with_reducible apply wf_effect)
    | extract_lets
    | split
    | (refine ⟨⟨?_⟩, id, id⟩; intro p hp; cases p <;> first | rfl | (intro _ _; rfl) | (refine absurd ?_ hp; decide)))

theorem fresh_effect (s : State) :
    Effect [.freeCtr] s (fresh s).2 := by
  unfold fresh
  repeat' (first
    | with_reducible exact Effect.refl _ _
    | (with_reducible show partsIn _ _ = true); decide +kernel
    | with_reducible apply Effect.ite
    | extract_lets
    | split
    | with_reducible apply effect_set_freeCtr
    | (refine ⟨⟨?_⟩, id, id⟩; intro p hp; cases p <;> first | rfl | (intro _ _; rfl) | (refine absurd ?_ hp; decide)))

theorem tickDie_effect (s : State) (die : Nat) :
    Effect [.sid, .reg .sidCount] s (tickDie s die) := by
  unfold tickDie
  repeat' (first
    | with_reducible exact Effect.refl _ _
    | (with_reducible show partsIn _ _ = true); decide +kernel
    | with_reducible apply Effect.ite
    | (with_reducible apply Effect.after; with_reducible apply setSid_effect)
    | (with_reducible apply Effect.after; with_reducible apply wr_effect)
    | extract_lets
    | split
    | (refine ⟨⟨?_⟩, id, id⟩; intro p hp; cases p <;> first | rfl | (intro _ _; rfl) | (refine absurd ?_ hp; decide)))

theorem idleTick_effect (s : State) :
    Effect [.sid, .reg .sidCount] s (idleTick s) := by
  unfold idleTick
  repeat' (first
    | with_reducible exact Effect.refl _ _
    | (with_reducible show partsIn _ _ = true); decide +kernel
    | with_reducible apply Effect.ite
    | (with_reducible apply Effect.after; with_reducible apply tickDie_effect)
    | extract_lets
    | split
    | (refine ⟨⟨?_⟩, id, id⟩; intro p hp; cases p <;> first | rfl | (intro _ _; rfl) | (refine absurd ?_ hp; decide)))

end Sys2Proof.Machine
end

