-- ==== Sys2Proof/Laws/ChannelsEffect.lean ====
section
/-! SUPPORT. One effect lemma for each operation of Machine/Channels.lean: the parts it may change. -/

set_option maxRecDepth 2000

set_option Elab.async false
set_option linter.unusedTactic false
set_option linter.unreachableTactic false
set_option linter.unusedVariables false
set_option linter.unusedSimpArgs false

namespace Sys2Proof.Machine

theorem setChan_effect (s : State) (kind ch v : Nat) :
    Effect [.flt] s (setChan s kind ch v) := by
  unfold setChan
  repeat' (first
    | with_reducible exact Effect.refl _ _
    | (with_reducible show partsIn _ _ = true); decide +kernel
    | with_reducible apply Effect.ite
    | extract_lets
    | split
    | with_reducible apply effect_set_flt
    | (refine ⟨⟨?_⟩, id, id⟩; intro p hp; cases p <;> first | rfl | (intro _ _; rfl) | (refine absurd ?_ hp; decide)))

theorem setHistory_effect (s : State) (kind ch : Nat) (l : List Nat) :
    Effect [.flt] s (setHistory s kind ch l) := by
  unfold setHistory
  repeat' (first
    | with_reducible exact Effect.refl _ _
    | (with_reducible show partsIn _ _ = true); decide +kernel
    | with_reducible apply Effect.ite
    | extract_lets
    | split
    | with_reducible apply effect_set_flt
    | (refine ⟨⟨?_⟩, id, id⟩; intro p hp; cases p <;> first | rfl | (intro _ _; rfl) | (refine absurd ?_ hp; decide)))

theorem checkRec_effect (s : State) (kind ch ev addr : Nat) :
    Effect [.eph, .hostMem, .icuTimers, .wakePending, .reg .ephLostCount, .reg .ephSeq, .reg .hifRingHead, .reg .icuPend] s (checkRec s kind ch ev addr) := by
  unfold checkRec
  repeat' (first
    | with_reducible exact Effect.refl _ _
    | (with_reducible show partsIn _ _ = true); decide +kernel
    | with_reducible apply Effect.ite
    | (with_reducible apply Effect.after; with_reducible apply emit_effect)
    | (with_reducible apply Effect.after; with_reducible apply irq_effect)
    | extract_lets
    | split
    | (refine ⟨⟨?_⟩, id, id⟩; intro p hp; cases p <;> first | rfl | (intro _ _; rfl) | (refine absurd ?_ hp; decide)))

theorem setPcState_effect (s : State) (h v : Nat) :
    Effect [.reg .hbmPcState] s (setPcState s h v) := by
  unfold setPcState
  repeat' (first
    | with_reducible exact Effect.refl _ _
    | (with_reducible show partsIn _ _ = true); decide +kernel
    | with_reducible apply Effect.ite
    | (with_reducible apply Effect.after; with_reducible apply wr_effect)
    | extract_lets
    | split
    | (refine ⟨⟨?_⟩, id, id⟩; intro p hp; cases p <;> first | rfl | (intro _ _; rfl) | (refine absurd ?_ hp; decide)))

theorem setPathStatus_effect (s : State) (coreKey a v : Nat) :
    Effect [.reg .arrPathStatus] s (setPathStatus s coreKey a v) := by
  unfold setPathStatus
  repeat' (first
    | with_reducible exact Effect.refl _ _
    | (with_reducible show partsIn _ _ = true); decide +kernel
    | with_reducible apply Effect.ite
    | (with_reducible apply Effect.after; with_reducible apply wr_effect)
    | extract_lets
    | split
    | (refine ⟨⟨?_⟩, id, id⟩; intro p hp; cases p <;> first | rfl | (intro _ _; rfl) | (refine absurd ?_ hp; decide)))

theorem classifyEffect_effect (s : State) (kind ch : Nat) :
    Effect [.flt, .icuTimers, .wakePending, .reg .arrPathStatus, .reg .hbmPcState, .reg .hbmStatus, .reg .icuPend] s (classifyEffect s kind ch) := by
  unfold classifyEffect
  repeat' (first
    | with_reducible exact Effect.refl _ _
    | (with_reducible show partsIn _ _ = true); decide +kernel
    | with_reducible apply Effect.ite
    | (with_reducible apply Effect.after; with_reducible apply setPathStatus_effect)
    | (with_reducible apply Effect.after; with_reducible apply setPcState_effect)
    | (with_reducible apply Effect.after; with_reducible apply irq_effect)
    | (with_reducible apply Effect.after; with_reducible apply wf_effect)
    | extract_lets
    | split
    | with_reducible apply effect_set_flt
    | (refine ⟨⟨?_⟩, id, id⟩; intro p hp; cases p <;> first | rfl | (intro _ _; rfl) | (refine absurd ?_ hp; decide)))

abbrev classify_parts : List Part :=
  [.eph, .events, .flt, .hostMem, .icuTimers, .wakePending, .reg .arrPathStatus, .reg .ephLostCount, .reg .ephSeq, .reg .hbmPcState, .reg .hbmStatus, .reg .hifEventLostCount, .reg .hifRingHead, .reg .icuPend]

theorem classify_effect (s : State) (kind ch cause count : Nat) :
    Effect classify_parts s (classify s kind ch cause count) := by
  unfold classify
  repeat' (first
    | with_reducible exact Effect.refl _ _
    | (with_reducible show partsIn _ _ = true); decide +kernel
    | with_reducible apply Effect.ite
    | (with_reducible apply Effect.after; with_reducible apply classifyEffect_effect)
    | (with_reducible apply Effect.after; with_reducible apply setHistory_effect)
    | (with_reducible apply Effect.after; with_reducible apply setChan_effect)
    | (with_reducible apply Effect.after; with_reducible apply event_effect)
    | (with_reducible apply Effect.after; with_reducible apply emit_effect)
    | (with_reducible apply Effect.after; with_reducible apply irq_effect)
    | extract_lets
    | split
    | with_reducible apply effect_set_flt
    | (refine ⟨⟨?_⟩, id, id⟩; intro p hp; cases p <;> first | rfl | (intro _ _; rfl) | (refine absurd ?_ hp; decide)))

abbrev countTransient_parts : List Part :=
  [.eph, .events, .flt, .hostMem, .icuTimers, .wakePending, .reg .arrPathStatus, .reg .ephLostCount, .reg .ephSeq, .reg .hbmPcState, .reg .hbmStatus, .reg .hifEventLostCount, .reg .hifRingHead, .reg .icuPend]

theorem countTransient_effect (s : State) (kind ch : Nat) :
    Effect countTransient_parts s (countTransient s kind ch) := by
  unfold countTransient
  repeat' (first
    | with_reducible exact Effect.refl _ _
    | (with_reducible show partsIn _ _ = true); decide +kernel
    | with_reducible apply Effect.ite
    | (with_reducible apply Effect.after; with_reducible apply classify_effect)
    | (with_reducible apply Effect.after; with_reducible apply setHistory_effect)
    | extract_lets
    | split
    | (refine ⟨⟨?_⟩, id, id⟩; intro p hp; cases p <;> first | rfl | (intro _ _; rfl) | (refine absurd ?_ hp; decide)))

abbrev transient_parts : List Part :=
  [.eph, .events, .flt, .hostMem, .icuTimers, .wakePending, .reg .arrPathStatus, .reg .ephLostCount, .reg .ephSeq, .reg .hbmPcState, .reg .hbmStatus, .reg .hifEventLostCount, .reg .hifRingHead, .reg .icuPend]

theorem transient_effect (s : State) (kind ch addr : Nat) :
    Effect transient_parts s (transient s kind ch addr) := by
  unfold transient
  repeat' (first
    | with_reducible exact Effect.refl _ _
    | (with_reducible show partsIn _ _ = true); decide +kernel
    | with_reducible apply Effect.ite
    | (with_reducible apply Effect.after; with_reducible apply countTransient_effect)
    | (with_reducible apply Effect.after; with_reducible apply checkRec_effect)
    | extract_lets
    | split
    | (refine ⟨⟨?_⟩, id, id⟩; intro p hp; cases p <;> first | rfl | (intro _ _; rfl) | (refine absurd ?_ hp; decide)))

abbrev exhaust_parts : List Part :=
  [.eph, .events, .flt, .hostMem, .icuTimers, .wakePending, .reg .arrPathStatus, .reg .ephLostCount, .reg .ephSeq, .reg .hbmPcState, .reg .hbmStatus, .reg .hifEventLostCount, .reg .hifRingHead, .reg .icuPend]

theorem exhaust_effect (s : State) (kind ch addr : Nat) :
    Effect exhaust_parts s (exhaust s kind ch addr) := by
  unfold exhaust
  repeat' (first
    | with_reducible exact Effect.refl _ _
    | (with_reducible show partsIn _ _ = true); decide +kernel
    | with_reducible apply Effect.ite
    | (with_reducible apply Effect.after; with_reducible apply classify_effect)
    | (with_reducible apply Effect.after; with_reducible apply checkRec_effect)
    | extract_lets
    | split
    | (refine ⟨⟨?_⟩, id, id⟩; intro p hp; cases p <;> first | rfl | (intro _ _; rfl) | (refine absurd ?_ hp; decide)))

abbrev marginCount_parts : List Part :=
  [.eph, .events, .flt, .hostMem, .icuTimers, .wakePending, .reg .arrPathStatus, .reg .ephLostCount, .reg .ephSeq, .reg .hbmPcState, .reg .hbmStatus, .reg .hifEventLostCount, .reg .hifRingHead, .reg .icuPend]

theorem marginCount_effect (s : State) (die : Nat) :
    Effect marginCount_parts s (marginCount s die) := by
  unfold marginCount
  repeat' (first
    | with_reducible exact Effect.refl _ _
    | (with_reducible show partsIn _ _ = true); decide +kernel
    | with_reducible apply Effect.ite
    | (with_reducible apply Effect.after; with_reducible apply countTransient_effect)
    | extract_lets
    | split
    | (refine ⟨⟨?_⟩, id, id⟩; intro p hp; cases p <;> first | rfl | (intro _ _; rfl) | (refine absurd ?_ hp; decide)))

theorem loadRecord_effect (s : State) (r : LedgerRec) :
    Effect [.reg .arrPathStatus, .reg .fabPortState, .reg .hbmPcState] s (loadRecord s r) := by
  unfold loadRecord
  repeat' (first
    | with_reducible exact Effect.refl _ _
    | (with_reducible show partsIn _ _ = true); decide +kernel
    | with_reducible apply Effect.ite
    | (with_reducible apply Effect.after; with_reducible apply setPathStatus_effect)
    | (with_reducible apply Effect.after; with_reducible apply setPcState_effect)
    | (with_reducible apply Effect.after; with_reducible apply wr_effect)
    | extract_lets
    | split
    | (refine ⟨⟨?_⟩, id, id⟩; intro p hp; cases p <;> first | rfl | (intro _ _; rfl) | (refine absurd ?_ hp; decide)))

theorem ledgerRead_effect (s : State) :
    Effect (withRegs [.flt, .unusable]) s (ledgerRead s) := by
  unfold ledgerRead
  repeat' (first
    | with_reducible exact Effect.refl _ _
    | exact regInv_filter _
    | (with_reducible apply partsIn_all2); decide +kernel
    | (with_reducible apply partsIn_all1); decide +kernel
    | (with_reducible show partsIn _ _ = true); decide +kernel
    | with_reducible apply Effect.ite
    | (with_reducible apply Effect.after; with_reducible apply loadRecord_effect)
    | (with_reducible apply Effect.after; with_reducible apply wf_effect)
    | (with_reducible apply Effect.trans; pick_goal 2; with_reducible apply Effect.foldl; intro _ _)
    | extract_lets
    | split
    | with_reducible apply effect_set_regs_flt
    | with_reducible apply effect_set_unusable
    | (refine ⟨⟨?_⟩, id, id⟩; intro p hp; cases p <;> first | rfl | (intro _ _; rfl) | (refine absurd ?_ hp; decide)))

end Sys2Proof.Machine
end

