-- ==== Sys2Proof/Laws/MemEffect.lean ====
section
/-! SUPPORT. One effect lemma for each operation of Machine/Mem.lean: the parts it may change. -/

set_option maxRecDepth 2000

set_option Elab.async false
set_option linter.unusedTactic false
set_option linter.unreachableTactic false
set_option linter.unusedVariables false
set_option linter.unusedSimpArgs false

namespace Sys2Proof.Machine

abbrev rowReread_parts : List Part :=
  [.eph, .events, .flt, .hostMem, .icuTimers, .wakePending, .reg .arrPathStatus, .reg .ephLostCount, .reg .ephSeq, .reg .hbmPcState, .reg .hbmRereadCount, .reg .hbmStatus, .reg .hifEventLostCount, .reg .hifRingHead, .reg .icuPend, .reg .spmRereadCount]

theorem rowReread_effect (s : State) (a : Nat) :
    Effect rowReread_parts s (rowReread s a) := by
  unfold rowReread
  repeat' (first
    | with_reducible exact Effect.refl _ _
    | (with_reducible show partsIn _ _ = true); decide +kernel
    | with_reducible apply Effect.ite
    | (with_reducible apply Effect.after; with_reducible apply transient_effect)
    | (with_reducible apply Effect.after; with_reducible apply bump_effect)
    | extract_lets
    | split
    | (refine ⟨⟨?_⟩, id, id⟩; intro p hp; cases p <;> first | rfl | (intro _ _; rfl) | (refine absurd ?_ hp; decide)))

abbrev rowFail_parts : List Part :=
  [.eph, .events, .flt, .hostMem, .icuTimers, .wakePending, .reg .arrPathStatus, .reg .ephLostCount, .reg .ephSeq, .reg .hbmFailCount, .reg .hbmPcState, .reg .hbmStatus, .reg .hifEventLostCount, .reg .hifRingHead, .reg .icuPend, .reg .spmFailCount]

theorem rowFail_effect (s : State) (a : Nat) :
    Effect rowFail_parts s (rowFail s a) := by
  unfold rowFail
  repeat' (first
    | with_reducible exact Effect.refl _ _
    | (with_reducible show partsIn _ _ = true); decide +kernel
    | with_reducible apply Effect.ite
    | (with_reducible apply Effect.after; with_reducible apply exhaust_effect)
    | (with_reducible apply Effect.after; with_reducible apply transient_effect)
    | (with_reducible apply Effect.after; with_reducible apply bump_effect)
    | extract_lets
    | split
    | (refine ⟨⟨?_⟩, id, id⟩; intro p hp; cases p <;> first | rfl | (intro _ _; rfl) | (refine absurd ?_ hp; decide)))

theorem sectorCorrected_effect (s : State) (a : Nat) :
    Effect [.scrub, .reg .hbmOdeccCorrCount] s (sectorCorrected s a) := by
  unfold sectorCorrected
  extract_lets
  with_reducible apply effect_set_scrub
  · decide
  · exact (bump_effect _ _ _ _ _).mono (by decide)

theorem sectorUncorrected_effect (s : State) (a : Nat) :
    Effect [.reg .hbmOdeccUncorrCount] s (sectorUncorrected s a) := by
  unfold sectorUncorrected
  repeat' (first
    | with_reducible exact Effect.refl _ _
    | (with_reducible show partsIn _ _ = true); decide +kernel
    | with_reducible apply Effect.ite
    | (with_reducible apply Effect.after; with_reducible apply bump_effect)
    | extract_lets
    | split
    | (refine ⟨⟨?_⟩, id, id⟩; intro p hp; cases p <;> first | rfl | (intro _ _; rfl) | (refine absurd ?_ hp; decide)))

abbrev parityRetry_parts : List Part :=
  [.eph, .events, .flt, .hostMem, .icuTimers, .wakePending, .reg .arrPathStatus, .reg .ephLostCount, .reg .ephSeq, .reg .hbmPcState, .reg .hbmStatus, .reg .hifEventLostCount, .reg .hifRingHead, .reg .icuPend]

theorem parityRetry_effect (s : State) (a : Nat) :
    Effect parityRetry_parts s (parityRetry s a) := by
  unfold parityRetry
  repeat' (first
    | with_reducible exact Effect.refl _ _
    | (with_reducible show partsIn _ _ = true); decide +kernel
    | with_reducible apply Effect.ite
    | (with_reducible apply Effect.after; with_reducible apply transient_effect)
    | extract_lets
    | split
    | (refine ⟨⟨?_⟩, id, id⟩; intro p hp; cases p <;> first | rfl | (intro _ _; rfl) | (refine absurd ?_ hp; decide)))

abbrev readEffects_parts : List Part :=
  [.eph, .events, .flt, .hostMem, .icuTimers, .poison, .scrub, .wakePending, .reg .arrPathStatus, .reg .ephLostCount, .reg .ephSeq, .reg .hbmFailCount, .reg .hbmOdeccCorrCount, .reg .hbmOdeccUncorrCount, .reg .hbmPcState, .reg .hbmRereadCount, .reg .hbmStatus, .reg .hifEventLostCount, .reg .hifRingHead, .reg .icuPend, .reg .spmFailCount, .reg .spmRereadCount]

theorem readEffects_effect (s : State) (mf : MemFaults) (base len : Nat) :
    Effect readEffects_parts s (readEffects s mf base len) := by
  unfold readEffects
  extract_lets bad stop seen passed s1 s2 s3 s4 s5
  have h1 : Effect readEffects_parts s s1 := effect_set_poison _ (by decide) (Effect.refl _ _)
  have h2 : Effect readEffects_parts s s2 :=
    h1.trans (Effect.foldl _ (fun s' a => (rowReread_effect s' a).mono (by decide)) _ _)
  have h3 : Effect readEffects_parts s s3 :=
    h2.trans (Effect.foldl _ (fun s' a => (sectorCorrected_effect s' a).mono (by decide)) _ _)
  have h4 : Effect readEffects_parts s s4 :=
    h3.trans (Effect.foldl _ (fun s' a => (sectorUncorrected_effect s' a).mono (by decide)) _ _)
  have h5 : Effect readEffects_parts s s5 :=
    h4.trans (Effect.foldl _ (fun s' a => (parityRetry_effect s' a).mono (by decide)) _ _)
  clear_value s5
  generalize bad = b
  cases b with
  | some r => exact h5.trans ((rowFail_effect _ _).mono (by decide))
  | none => exact h5

abbrev tryEffects_parts : List Part :=
  [.eph, .events, .flt, .hostMem, .icuTimers, .scrub, .wakePending, .reg .arrPathStatus, .reg .ephLostCount, .reg .ephSeq, .reg .hbmOdeccCorrCount, .reg .hbmOdeccUncorrCount, .reg .hbmPcState, .reg .hbmStatus, .reg .hifEventLostCount, .reg .hifRingHead, .reg .icuPend]

theorem tryEffects_effect (s : State) (a : Nat) (t : ReadTry) :
    Effect tryEffects_parts s (tryEffects s a t) := by
  unfold tryEffects
  repeat' (first
    | with_reducible exact Effect.refl _ _
    | (with_reducible show partsIn _ _ = true); decide +kernel
    | with_reducible apply Effect.ite
    | (with_reducible apply Effect.after; with_reducible apply parityRetry_effect)
    | (with_reducible apply Effect.after; with_reducible apply sectorUncorrected_effect)
    | (with_reducible apply Effect.after; with_reducible apply sectorCorrected_effect)
    | extract_lets
    | split
    | (refine ⟨⟨?_⟩, id, id⟩; intro p hp; cases p <;> first | rfl | (intro _ _; rfl) | (refine absurd ?_ hp; decide)))

abbrev sectorRead_parts : List Part :=
  [.eph, .events, .flt, .hostMem, .icuTimers, .poison, .scrub, .wakePending, .reg .arrPathStatus, .reg .ephLostCount, .reg .ephSeq, .reg .hbmFailCount, .reg .hbmOdeccCorrCount, .reg .hbmOdeccUncorrCount, .reg .hbmPcState, .reg .hbmRereadCount, .reg .hbmStatus, .reg .hifEventLostCount, .reg .hifRingHead, .reg .icuPend, .reg .spmFailCount, .reg .spmRereadCount]

theorem sectorRead_effect (s : State) (a : Nat) (o : ReadOutcome) :
    Effect sectorRead_parts s (sectorRead s a o).2 := by
  unfold sectorRead
  repeat' (first
    | with_reducible exact Effect.refl _ _
    | (with_reducible show partsIn _ _ = true); decide +kernel
    | with_reducible apply Effect.ite
    | (with_reducible apply Effect.after; with_reducible apply tryEffects_effect)
    | (with_reducible apply Effect.after; with_reducible apply rowFail_effect)
    | (with_reducible apply Effect.after; with_reducible apply rowReread_effect)
    | extract_lets
    | split
    | with_reducible apply effect_set_poison
    | (refine ⟨⟨?_⟩, id, id⟩; intro p hp; cases p <;> first | rfl | (intro _ _; rfl) | (refine absurd ?_ hp; decide)))

theorem accelSettle_effect (s : State) :
    Effect [.reg .hbmScrubStatus] s (accelSettle s) := by
  unfold accelSettle
  repeat' (first
    | with_reducible exact Effect.refl _ _
    | (with_reducible show partsIn _ _ = true); decide +kernel
    | with_reducible apply Effect.ite
    | (with_reducible apply Effect.after; with_reducible apply wf_effect)
    | (with_reducible apply Effect.trans; pick_goal 2; with_reducible apply Effect.foldl; intro _ _)
    | extract_lets
    | split
    | (refine ⟨⟨?_⟩, id, id⟩; intro p hp; cases p <;> first | rfl | (intro _ _; rfl) | (refine absurd ?_ hp; decide)))

theorem tagRefused_effect (s : State) (m : Master) (addr : Nat) :
    Effect [.eph, .hostMem, .icuTimers, .wakePending, .reg .ephLostCount, .reg .ephSeq, .reg .hifRingHead, .reg .icuPend] s (tagRefused s m addr) := by
  unfold tagRefused
  repeat' (first
    | with_reducible exact Effect.refl _ _
    | (with_reducible show partsIn _ _ = true); decide +kernel
    | with_reducible apply Effect.ite
    | (with_reducible apply Effect.after; with_reducible apply refusedRec_effect)
    | (with_reducible apply Effect.after; with_reducible apply irq_effect)
    | extract_lets
    | split
    | (refine ⟨⟨?_⟩, id, id⟩; intro p hp; cases p <;> first | rfl | (intro _ _; rfl) | (refine absurd ?_ hp; decide)))

theorem memRead_effect (s : State) (m : Master) (base len : Nat) :
    Effect [.eph, .hostMem, .icuTimers, .wakePending, .reg .ephLostCount, .reg .ephSeq, .reg .hifRingHead, .reg .icuPend] s (memRead s m base len).2 := by
  unfold memRead
  repeat' (first
    | with_reducible exact Effect.refl _ _
    | (with_reducible show partsIn _ _ = true); decide +kernel
    | with_reducible apply Effect.ite
    | (with_reducible apply Effect.after; with_reducible apply tagRefused_effect)
    | extract_lets
    | split
    | (refine ⟨⟨?_⟩, id, id⟩; intro p hp; cases p <;> first | rfl | (intro _ _; rfl) | (refine absurd ?_ hp; decide)))

abbrev readRanges_parts : List Part :=
  [.eph, .events, .flt, .hostMem, .icuTimers, .poison, .scrub, .wakePending, .reg .arrPathStatus, .reg .ephLostCount, .reg .ephSeq, .reg .hbmFailCount, .reg .hbmOdeccCorrCount, .reg .hbmOdeccUncorrCount, .reg .hbmPcState, .reg .hbmRereadCount, .reg .hbmStatus, .reg .hifEventLostCount, .reg .hifRingHead, .reg .icuPend, .reg .spmFailCount, .reg .spmRereadCount]

theorem readRanges_effect (s : State) (mf : MemFaults) (l : List (Nat × Nat)) :
    Effect readRanges_parts s (readRanges s mf l).2 := by
  induction l generalizing s with
  | nil => unfold readRanges; exact Effect.refl _ _
  | cons h t ih =>
    obtain ⟨a, len⟩ := h
    unfold readRanges
    extract_lets
    split
    · exact (readEffects_effect _ _ _ _).mono (by decide +kernel)
    · exact ((readEffects_effect _ _ _ _).mono (by decide +kernel)).trans (ih _)

theorem hitGuards_effect (s : State) (base len : Nat) (keep : Nat → Bool) :
    Effect [.cores] s (hitGuards s base len keep) := by
  unfold hitGuards
  repeat' (first
    | with_reducible exact Effect.refl _ _
    | (with_reducible show partsIn _ _ = true); decide +kernel
    | with_reducible apply Effect.ite
    | extract_lets
    | split
    | with_reducible apply effect_set_cores
    | (refine ⟨⟨?_⟩, id, id⟩; intro p hp; cases p <;> first | rfl | (intro _ _; rfl) | (refine absurd ?_ hp; decide)))

abbrev poisonRow_parts : List Part :=
  [.eph, .hostMem, .icuTimers, .poison, .wakePending, .reg .ephLostCount, .reg .ephSeq, .reg .hbmPoisonCount, .reg .hifRingHead, .reg .icuPend, .reg .spmPoisonCount]

theorem poisonRow_effect (s : State) (r : Nat) :
    Effect poisonRow_parts s (poisonRow s r) := by
  unfold poisonRow
  repeat' (first
    | with_reducible exact Effect.refl _ _
    | (with_reducible show partsIn _ _ = true); decide +kernel
    | with_reducible apply Effect.ite
    | (with_reducible apply Effect.after; with_reducible apply emit_effect)
    | (with_reducible apply Effect.after; with_reducible apply irq_effect)
    | (with_reducible apply Effect.after; with_reducible apply bump_effect)
    | extract_lets
    | split
    | with_reducible apply effect_set_poison
    | (refine ⟨⟨?_⟩, id, id⟩; intro p hp; cases p <;> first | rfl | (intro _ _; rfl) | (refine absurd ?_ hp; decide)))

abbrev mergeRow_parts : List Part :=
  [.eph, .events, .flt, .hostMem, .icuTimers, .poison, .scrub, .wakePending, .reg .arrPathStatus, .reg .ephLostCount, .reg .ephSeq, .reg .hbmFailCount, .reg .hbmOdeccCorrCount, .reg .hbmOdeccUncorrCount, .reg .hbmPcState, .reg .hbmPoisonCount, .reg .hbmRereadCount, .reg .hbmStatus, .reg .hifEventLostCount, .reg .hifRingHead, .reg .icuPend, .reg .spmFailCount, .reg .spmPoisonCount, .reg .spmRereadCount]

theorem mergeRow_effect (s : State) (mf : MemFaults) (r : Nat) :
    Effect mergeRow_parts s (mergeRow s mf r) := by
  unfold mergeRow
  repeat' (first
    | with_reducible exact Effect.refl _ _
    | (with_reducible show partsIn _ _ = true); decide +kernel
    | with_reducible apply Effect.ite
    | (with_reducible apply Effect.after; with_reducible apply poisonRow_effect)
    | (with_reducible apply Effect.after; with_reducible apply sectorUncorrected_effect)
    | (with_reducible apply Effect.after; with_reducible apply sectorCorrected_effect)
    | (with_reducible apply Effect.after; with_reducible apply rowFail_effect)
    | (with_reducible apply Effect.after; with_reducible apply rowReread_effect)
    | extract_lets
    | split
    | with_reducible apply effect_set_poison
    | (refine ⟨⟨?_⟩, id, id⟩; intro p hp; cases p <;> first | rfl | (intro _ _; rfl) | (refine absurd ?_ hp; decide)))

abbrev writeCodes_parts : List Part :=
  [.eph, .events, .flt, .hostMem, .icuTimers, .poison, .scrub, .wakePending, .reg .arrPathStatus, .reg .ephLostCount, .reg .ephSeq, .reg .hbmFailCount, .reg .hbmOdeccCorrCount, .reg .hbmOdeccUncorrCount, .reg .hbmPcState, .reg .hbmPoisonCount, .reg .hbmRereadCount, .reg .hbmStatus, .reg .hifEventLostCount, .reg .hifRingHead, .reg .icuPend, .reg .spmFailCount, .reg .spmPoisonCount, .reg .spmRereadCount]

theorem writeCodes_effect (s : State) (mf : MemFaults) (base len : Nat) (keep : Nat → Bool) :
    Effect writeCodes_parts s (writeCodes s mf base len keep) := by
  unfold writeCodes
  repeat' (first
    | with_reducible exact Effect.refl _ _
    | (with_reducible show partsIn _ _ = true); decide +kernel
    | with_reducible apply Effect.ite
    | (with_reducible apply Effect.after; with_reducible apply mergeRow_effect)
    | (with_reducible apply Effect.after; with_reducible apply parityRetry_effect)
    | (with_reducible apply Effect.trans; pick_goal 2; with_reducible apply Effect.foldl; intro _ _)
    | extract_lets
    | split
    | with_reducible apply effect_set_poison
    | (refine ⟨⟨?_⟩, id, id⟩; intro p hp; cases p <;> first | rfl | (intro _ _; rfl) | (refine absurd ?_ hp; decide)))

theorem stored_effect (s : State) (base : Nat) (data : Bytes) (keep : Nat → Bool) (lines : List Nat) :
    Effect [.heldWrites, .mem] s (stored s base data keep lines) := by
  unfold stored
  repeat' (first
    | with_reducible exact Effect.refl _ _
    | (with_reducible show MemInv _ → MemInv _); first | exact fun h => ⟨bytesWf_putSome _ _ _ _ h.1, h.2⟩ | exact fun h => ⟨bytesWf_putBytes _ _ _ h.1, h.2⟩ | exact fun h => ⟨h.1, bytesWf_putBytes _ _ _ h.2⟩ | exact fun h => ⟨bytesWf_filter _ h.1, h.2⟩ | exact fun h => ⟨rfl, h.2⟩ | exact fun h => ⟨bytesWf_foldl _ (fun _ _ => bytesWf_putByte _ _) _ _ h.1, h.2⟩ | exact fun h => ⟨bytesWf_foldl _ (fun _ _ => bytesWf_foldl _ (fun _ _ => bytesWf_putByte _ _) _ _) _ _ h.1, h.2⟩
    | (with_reducible show partsIn _ _ = true); decide +kernel
    | with_reducible apply Effect.ite
    | extract_lets
    | split
    | with_reducible apply effect_set_mem_heldWrites
    | (refine ⟨⟨?_⟩, id, id⟩; intro p hp; cases p <;> first | rfl | (intro _ _; rfl) | (refine absurd ?_ hp; decide)))

theorem lostWrite_effect (s : State) (a : Nat) :
    Effect [.freeCtr, .mem] s (lostWrite s a) := by
  unfold lostWrite
  repeat' (first
    | with_reducible exact Effect.refl _ _
    | (with_reducible show MemInv _ → MemInv _); first | exact fun h => ⟨bytesWf_putSome _ _ _ _ h.1, h.2⟩ | exact fun h => ⟨bytesWf_putBytes _ _ _ h.1, h.2⟩ | exact fun h => ⟨h.1, bytesWf_putBytes _ _ _ h.2⟩ | exact fun h => ⟨bytesWf_filter _ h.1, h.2⟩ | exact fun h => ⟨rfl, h.2⟩ | exact fun h => ⟨bytesWf_foldl _ (fun _ _ => bytesWf_putByte _ _) _ _ h.1, h.2⟩ | exact fun h => ⟨bytesWf_foldl _ (fun _ _ => bytesWf_foldl _ (fun _ _ => bytesWf_putByte _ _) _ _) _ _ h.1, h.2⟩
    | (with_reducible show partsIn _ _ = true); decide +kernel
    | with_reducible apply Effect.ite
    | extract_lets
    | split
    | with_reducible apply effect_set_freeCtr_mem
    | (refine ⟨⟨?_⟩, id, id⟩; intro p hp; cases p <;> first | rfl | (intro _ _; rfl) | (refine absurd ?_ hp; decide)))

theorem lostWrites_effect (s : State) (mf : MemFaults) (base len : Nat) :
    Effect [.freeCtr, .mem] s (lostWrites s mf base len) := by
  unfold lostWrites
  repeat' (first
    | with_reducible exact Effect.refl _ _
    | (with_reducible show partsIn _ _ = true); decide +kernel
    | with_reducible apply Effect.ite
    | (with_reducible apply Effect.after; with_reducible apply lostWrite_effect)
    | (with_reducible apply Effect.trans; pick_goal 2; with_reducible apply Effect.foldl; intro _ _)
    | extract_lets
    | split
    | (refine ⟨⟨?_⟩, id, id⟩; intro p hp; cases p <;> first | rfl | (intro _ _; rfl) | (refine absurd ?_ hp; decide)))

abbrev storeBytes_parts : List Part :=
  [.eph, .events, .flt, .freeCtr, .heldWrites, .hostMem, .icuTimers, .mem, .poison, .scrub, .wakePending, .reg .arrPathStatus, .reg .ephLostCount, .reg .ephSeq, .reg .hbmFailCount, .reg .hbmOdeccCorrCount, .reg .hbmOdeccUncorrCount, .reg .hbmPcState, .reg .hbmPoisonCount, .reg .hbmRereadCount, .reg .hbmStatus, .reg .hifEventLostCount, .reg .hifRingHead, .reg .icuPend, .reg .spmFailCount, .reg .spmPoisonCount, .reg .spmRereadCount]

theorem storeBytes_effect (s : State) (mf : MemFaults) (base : Nat) (data : Bytes) (keep : Nat → Bool) :
    Effect storeBytes_parts s (storeBytes s mf base data keep) := by
  unfold storeBytes
  repeat' (first
    | with_reducible exact Effect.refl _ _
    | (with_reducible show partsIn _ _ = true); decide +kernel
    | with_reducible apply Effect.ite
    | (with_reducible apply Effect.after; with_reducible apply lostWrites_effect)
    | (with_reducible apply Effect.after; with_reducible apply stored_effect)
    | (with_reducible apply Effect.after; with_reducible apply writeCodes_effect)
    | extract_lets
    | split
    | (refine ⟨⟨?_⟩, id, id⟩; intro p hp; cases p <;> first | rfl | (intro _ _; rfl) | (refine absurd ?_ hp; decide)))

abbrev landWrite_parts : List Part :=
  [.cores, .eph, .events, .flt, .freeCtr, .heldWrites, .hostMem, .icuTimers, .mem, .poison, .scrub, .wakePending, .reg .arrPathStatus, .reg .ephLostCount, .reg .ephSeq, .reg .hbmFailCount, .reg .hbmOdeccCorrCount, .reg .hbmOdeccUncorrCount, .reg .hbmPcState, .reg .hbmPoisonCount, .reg .hbmRereadCount, .reg .hbmStatus, .reg .hifEventLostCount, .reg .hifRingHead, .reg .icuPend, .reg .spmFailCount, .reg .spmPoisonCount, .reg .spmRereadCount]

theorem landWrite_effect (s : State) (mf : MemFaults) (base : Nat) (data : Bytes) (keep : Nat → Bool) :
    Effect landWrite_parts s (landWrite s mf base data keep) := by
  unfold landWrite
  repeat' (first
    | with_reducible exact Effect.refl _ _
    | (with_reducible show partsIn _ _ = true); decide +kernel
    | with_reducible apply Effect.ite
    | (with_reducible apply Effect.after; with_reducible apply storeBytes_effect)
    | (with_reducible apply Effect.after; with_reducible apply hitGuards_effect)
    | extract_lets
    | split
    | (refine ⟨⟨?_⟩, id, id⟩; intro p hp; cases p <;> first | rfl | (intro _ _; rfl) | (refine absurd ?_ hp; decide)))

abbrev memWrite_parts : List Part :=
  [.cores, .eph, .events, .flt, .freeCtr, .heldWrites, .hostMem, .icuTimers, .mem, .poison, .scrub, .wakePending, .reg .arrPathStatus, .reg .ephLostCount, .reg .ephSeq, .reg .hbmFailCount, .reg .hbmOdeccCorrCount, .reg .hbmOdeccUncorrCount, .reg .hbmPcState, .reg .hbmPoisonCount, .reg .hbmRereadCount, .reg .hbmStatus, .reg .hifEventLostCount, .reg .hifRingHead, .reg .icuPend, .reg .spmFailCount, .reg .spmPoisonCount, .reg .spmRereadCount]

theorem memWrite_effect (s : State) (m : Master) (mf : MemFaults) (base : Nat) (data : Bytes) :
    Effect memWrite_parts s (memWrite s m mf base data) := by
  unfold memWrite
  repeat' (first
    | with_reducible exact Effect.refl _ _
    | (with_reducible show partsIn _ _ = true); decide +kernel
    | with_reducible apply Effect.ite
    | (with_reducible apply Effect.after; with_reducible apply landWrite_effect)
    | (with_reducible apply Effect.after; with_reducible apply tagRefused_effect)
    | extract_lets
    | split
    | (refine ⟨⟨?_⟩, id, id⟩; intro p hp; cases p <;> first | rfl | (intro _ _; rfl) | (refine absurd ?_ hp; decide)))

theorem zeroWhere_effect (s : State) (p : Nat → Bool) :
    Effect [.heldWrites, .mem, .poison] s (zeroWhere s p) := by
  unfold zeroWhere
  repeat' (first
    | with_reducible exact Effect.refl _ _
    | (with_reducible show MemInv _ → MemInv _); first | exact fun h => ⟨bytesWf_putSome _ _ _ _ h.1, h.2⟩ | exact fun h => ⟨bytesWf_putBytes _ _ _ h.1, h.2⟩ | exact fun h => ⟨h.1, bytesWf_putBytes _ _ _ h.2⟩ | exact fun h => ⟨bytesWf_filter _ h.1, h.2⟩ | exact fun h => ⟨rfl, h.2⟩ | exact fun h => ⟨bytesWf_foldl _ (fun _ _ => bytesWf_putByte _ _) _ _ h.1, h.2⟩ | exact fun h => ⟨bytesWf_foldl _ (fun _ _ => bytesWf_foldl _ (fun _ _ => bytesWf_putByte _ _) _ _) _ _ h.1, h.2⟩
    | (with_reducible show partsIn _ _ = true); decide +kernel
    | with_reducible apply Effect.ite
    | extract_lets
    | split
    | with_reducible apply effect_set_mem_poison_heldWrites
    | (refine ⟨⟨?_⟩, id, id⟩; intro p hp; cases p <;> first | rfl | (intro _ _; rfl) | (refine absurd ?_ hp; decide)))

theorem zeroRange_effect (s : State) (base len : Nat) :
    Effect [.heldWrites, .mem, .poison] s (zeroRange s base len) := by
  unfold zeroRange
  repeat' (first
    | with_reducible exact Effect.refl _ _
    | (with_reducible show partsIn _ _ = true); decide +kernel
    | with_reducible apply Effect.ite
    | (with_reducible apply Effect.after; with_reducible apply zeroWhere_effect)
    | extract_lets
    | split
    | (refine ⟨⟨?_⟩, id, id⟩; intro p hp; cases p <;> first | rfl | (intro _ _; rfl) | (refine absurd ?_ hp; decide)))

end Sys2Proof.Machine
end

