-- ==== Sys2Proof/Laws/RegAccessEffect.lean ====
section
/-! SUPPORT. One effect lemma for each operation of Machine/RegAccess.lean: the parts it may change. -/

set_option maxRecDepth 2000

set_option Elab.async false
set_option linter.unusedTactic false
set_option linter.unreachableTactic false
set_option linter.unusedVariables false
set_option linter.unusedSimpArgs false

namespace Sys2Proof.Machine

theorem setClk_effect (s : State) (die : Nat) (c : ClockState) :
    Effect [.clk] s (setClk s die c) := by
  unfold setClk
  repeat' (first
    | with_reducible exact Effect.refl _ _
    | (with_reducible show partsIn _ _ = true); decide +kernel
    | with_reducible apply Effect.ite
    | extract_lets
    | split
    | with_reducible apply effect_set_clk
    | (refine ⟨⟨?_⟩, id, id⟩; intro p hp; cases p <;> first | rfl | (intro _ _; rfl) | (refine absurd ?_ hp; decide)))

theorem regRefused_effect (s : State) (m : Master) (r : Reg) (die unit reason value : Nat) :
    Effect [.eph, .hostMem, .icuTimers, .wakePending, .reg .ephLostCount, .reg .ephSeq, .reg .hifRingHead, .reg .icuPend] s (regRefused s m r die unit reason value) := by
  unfold regRefused
  repeat' (first
    | with_reducible exact Effect.refl _ _
    | (with_reducible show partsIn _ _ = true); decide +kernel
    | with_reducible apply Effect.ite
    | (with_reducible apply Effect.after; with_reducible apply refusedRec_effect)
    | extract_lets
    | split
    | (refine ⟨⟨?_⟩, id, id⟩; intro p hp; cases p <;> first | rfl | (intro _ _; rfl) | (refine absurd ?_ hp; decide)))

theorem plainWrite_effect (s : State) (m : Master) (r : Reg) (die unit value : Nat) :
    Effect (withRegs [.eph, .wakePending, .hostMem, .icuTimers]) s (plainWrite s m r die unit value) := by
  unfold plainWrite
  repeat' split
  all_goals first
    | exact Effect.refl _ _
    | exact (regRefused_effect _ _ _ _ _ _ _).mono (by decide +kernel)
    | exact wr_effect_all _ _ _ _ _ _

abbrev configErr_parts : List Part :=
  [.eph, .hostMem, .icuTimers, .wakePending, .reg .ephLostCount, .reg .ephSeq, .reg .hifConfigErrCount, .reg .hifRingHead, .reg .icuPend]

theorem configErr_effect (s : State) (m : Master) (r : Reg) (die n value : Nat) :
    Effect configErr_parts s (configErr s m r die n value) := by
  unfold configErr
  repeat' (first
    | with_reducible exact Effect.refl _ _
    | (with_reducible show partsIn _ _ = true); decide +kernel
    | with_reducible apply Effect.ite
    | (with_reducible apply Effect.after; with_reducible apply regRefused_effect)
    | (with_reducible apply Effect.after; with_reducible apply irq_effect)
    | (with_reducible apply Effect.after; with_reducible apply bump_effect)
    | extract_lets
    | split
    | (refine ⟨⟨?_⟩, id, id⟩; intro p hp; cases p <;> first | rfl | (intro _ _; rfl) | (refine absurd ?_ hp; decide)))

theorem setRing_effect (s : State) (die n : Nat) (w : RingWork) :
    Effect [.rings] s (setRing s die n w) := by
  unfold setRing
  repeat' (first
    | with_reducible exact Effect.refl _ _
    | (with_reducible show partsIn _ _ = true); decide +kernel
    | with_reducible apply Effect.ite
    | extract_lets
    | split
    | with_reducible apply effect_set_rings
    | (refine ⟨⟨?_⟩, id, id⟩; intro p hp; cases p <;> first | rfl | (intro _ _; rfl) | (refine absurd ?_ hp; decide)))

theorem ringSettle_effect (s : State) (die n : Nat) :
    Effect [.reg .hifRingState] s (ringSettle s die n) := by
  unfold ringSettle
  repeat' (first
    | with_reducible exact Effect.refl _ _
    | (with_reducible show partsIn _ _ = true); decide +kernel
    | with_reducible apply Effect.ite
    | (with_reducible apply Effect.after; with_reducible apply wf_effect)
    | extract_lets
    | split
    | (refine ⟨⟨?_⟩, id, id⟩; intro p hp; cases p <;> first | rfl | (intro _ _; rfl) | (refine absurd ?_ hp; decide)))

abbrev ringFault_parts : List Part :=
  [.eph, .events, .hostMem, .icuTimers, .rings, .wakePending, .reg .ephLostCount, .reg .ephSeq, .reg .hifEventLostCount, .reg .hifFetchFaultCount, .reg .hifRingHead, .reg .hifRingState, .reg .icuPend]

theorem ringFault_effect (s : State) (die n addr : Nat) :
    Effect ringFault_parts s (ringFault s die n addr) := by
  unfold ringFault
  repeat' (first
    | with_reducible exact Effect.refl _ _
    | (with_reducible show partsIn _ _ = true); decide +kernel
    | with_reducible apply Effect.ite
    | (with_reducible apply Effect.after; with_reducible apply setRing_effect)
    | (with_reducible apply Effect.after; with_reducible apply event_effect)
    | (with_reducible apply Effect.after; with_reducible apply irq_effect)
    | (with_reducible apply Effect.after; with_reducible apply bump_effect)
    | (with_reducible apply Effect.after; with_reducible apply wf_effect)
    | extract_lets
    | split
    | (refine ⟨⟨?_⟩, id, id⟩; intro p hp; cases p <;> first | rfl | (intro _ _; rfl) | (refine absurd ?_ hp; decide)))

abbrev reportSettle_parts : List Part :=
  [.eph, .events, .hostMem, .icuTimers, .reportOwed, .rings, .wakePending, .reg .ephLostCount, .reg .ephSeq, .reg .hifEventLostCount, .reg .hifFetchFaultCount, .reg .hifRingHead, .reg .hifRingState, .reg .icuPend]

theorem reportSettle_effect (s : State) (die n : Nat) (ok : Bool) :
    Effect reportSettle_parts s (reportSettle s die n ok) := by
  unfold reportSettle
  repeat' (first
    | with_reducible exact Effect.refl _ _
    | (with_reducible show HostIn _ _ _); constructor <;> first | exact Or.inl (by with_reducible rfl) | exact Or.inr (by decide) | exact Or.inl rfl
    | (with_reducible show partsIn _ _ = true); decide +kernel
    | with_reducible apply Effect.ite
    | (with_reducible apply Effect.after; with_reducible apply ringFault_effect)
    | (with_reducible apply Effect.after; with_reducible apply hostWrite_effect)
    | extract_lets
    | split
    | with_reducible apply effect_set_host
    | (refine ⟨⟨?_⟩, id, id⟩; intro p hp; cases p <;> first | rfl | (intro _ _; rfl) | (refine absurd ?_ hp; decide)))

abbrev ringSizeWrite_parts : List Part :=
  [.eph, .events, .hostMem, .icuTimers, .reportOwed, .rings, .wakePending, .reg .ephLostCount, .reg .ephSeq, .reg .hifConfigErrCount, .reg .hifEventLostCount, .reg .hifFetchFaultCount, .reg .hifRingDone, .reg .hifRingHead, .reg .hifRingSize, .reg .hifRingState, .reg .hifRingTail, .reg .icuPend]

theorem ringSizeWrite_effect (s : State) (m : Master) (die n v : Nat) (ok : Bool) :
    Effect ringSizeWrite_parts s (ringSizeWrite s m die n v ok) := by
  unfold ringSizeWrite
  repeat' (first
    | with_reducible exact Effect.refl _ _
    | (with_reducible show partsIn _ _ = true); decide +kernel
    | with_reducible apply Effect.ite
    | (with_reducible apply Effect.after; with_reducible apply reportSettle_effect)
    | (with_reducible apply Effect.after; with_reducible apply ringSettle_effect)
    | (with_reducible apply Effect.after; with_reducible apply setRing_effect)
    | (with_reducible apply Effect.after; with_reducible apply configErr_effect)
    | (with_reducible apply Effect.after; with_reducible apply wf_effect)
    | (with_reducible apply Effect.after; with_reducible apply wr_effect)
    | extract_lets
    | split
    | (refine ⟨⟨?_⟩, id, id⟩; intro p hp; cases p <;> first | rfl | (intro _ _; rfl) | (refine absurd ?_ hp; decide)))

theorem ringBaseWrite_effect (s : State) (m : Master) (r : Reg) (die n v : Nat) :
    Effect (withRegs [.eph, .wakePending, .hostMem, .icuTimers]) s (ringBaseWrite s m r die n v) := by
  unfold ringBaseWrite
  repeat' split
  all_goals first
    | exact Effect.refl _ _
    | exact wr_effect_all _ _ _ _ _ _
    | exact (configErr_effect _ _ _ _ _ _).mono (by decide +kernel)

theorem limitRefused_effect (s : State) (m : Master) (r : Reg) (die g lock old new : Nat) :
    Effect [.eph, .hostMem, .icuTimers, .wakePending, .reg .ephLostCount, .reg .ephSeq, .reg .hifRingHead, .reg .icuPend] s (limitRefused s m r die g lock old new) := by
  unfold limitRefused
  repeat' (first
    | with_reducible exact Effect.refl _ _
    | (with_reducible show partsIn _ _ = true); decide +kernel
    | with_reducible apply Effect.ite
    | (with_reducible apply Effect.after; with_reducible apply regRefused_effect)
    | extract_lets
    | split
    | (refine ⟨⟨?_⟩, id, id⟩; intro p hp; cases p <;> first | rfl | (intro _ _; rfl) | (refine absurd ?_ hp; decide)))

abbrev icuPendWrite_parts : List Part :=
  [.eph, .hostMem, .icuTimers, .repeating, .wakePending, .reg .ephLostCount, .reg .ephSeq, .reg .hifRingHead, .reg .icuPend, .reg .icuSummary, .reg .icuSummaryHost]

theorem icuPendWrite_effect (s : State) (m : Master) (die g value same : Nat) :
    Effect icuPendWrite_parts s (icuPendWrite s m die g value same) := by
  unfold icuPendWrite
  repeat' (first
    | with_reducible exact Effect.refl _ _
    | (with_reducible show partsIn _ _ = true); decide +kernel
    | with_reducible apply Effect.ite
    | (with_reducible apply Effect.after; with_reducible apply limitRefused_effect)
    | (with_reducible apply Effect.after; with_reducible apply icuSettle_effect)
    | (with_reducible apply Effect.after; with_reducible apply icuArm_effect)
    | (with_reducible apply Effect.after; with_reducible apply wr_effect)
    | extract_lets
    | split
    | (refine ⟨⟨?_⟩, id, id⟩; intro p hp; cases p <;> first | rfl | (intro _ _; rfl) | (refine absurd ?_ hp; decide)))

abbrev icuMaskWrite_parts : List Part :=
  [.eph, .hostMem, .icuTimers, .repeating, .wakePending, .reg .ephLostCount, .reg .ephSeq, .reg .hifRingHead, .reg .icuMask, .reg .icuPend, .reg .icuSummary, .reg .icuSummaryHost]

theorem icuMaskWrite_effect (s : State) (m : Master) (die g value : Nat) :
    Effect icuMaskWrite_parts s (icuMaskWrite s m die g value) := by
  unfold icuMaskWrite
  repeat' (first
    | with_reducible exact Effect.refl _ _
    | (with_reducible show partsIn _ _ = true); decide +kernel
    | with_reducible apply Effect.ite
    | (with_reducible apply Effect.after; with_reducible apply limitRefused_effect)
    | (with_reducible apply Effect.after; with_reducible apply icuSettle_effect)
    | (with_reducible apply Effect.after; with_reducible apply icuArm_effect)
    | (with_reducible apply Effect.after; with_reducible apply wr_effect)
    | extract_lets
    | split
    | (refine ⟨⟨?_⟩, id, id⟩; intro p hp; cases p <;> first | rfl | (intro _ _; rfl) | (refine absurd ?_ hp; decide)))

abbrev icuTargetWrite_parts : List Part :=
  [.eph, .hostMem, .icuTimers, .repeating, .wakePending, .reg .ephLostCount, .reg .ephSeq, .reg .hifRingHead, .reg .icuPend, .reg .icuSummary, .reg .icuSummaryHost, .reg .icuTarget]

theorem icuTargetWrite_effect (s : State) (m : Master) (die src value : Nat) :
    Effect icuTargetWrite_parts s (icuTargetWrite s m die src value) := by
  unfold icuTargetWrite
  repeat' (first
    | with_reducible exact Effect.refl _ _
    | (with_reducible show partsIn _ _ = true); decide +kernel
    | with_reducible apply Effect.ite
    | (with_reducible apply Effect.after; with_reducible apply regRefused_effect)
    | (with_reducible apply Effect.after; with_reducible apply icuSettle_effect)
    | (with_reducible apply Effect.after; with_reducible apply wr_effect)
    | extract_lets
    | split
    | (refine ⟨⟨?_⟩, id, id⟩; intro p hp; cases p <;> first | rfl | (intro _ _; rfl) | (refine absurd ?_ hp; decide)))

abbrev sidSetWrite_parts : List Part :=
  [.eph, .hostMem, .icuTimers, .wakePending, .reg .ephLostCount, .reg .ephSeq, .reg .hifRingHead, .reg .icuPend, .reg .sidCount]

theorem sidSetWrite_effect (s : State) (m : Master) (die value : Nat) :
    Effect sidSetWrite_parts s (sidSetWrite s m die value) := by
  unfold sidSetWrite
  repeat' (first
    | with_reducible exact Effect.refl _ _
    | (with_reducible show partsIn _ _ = true); decide +kernel
    | with_reducible apply Effect.ite
    | (with_reducible apply Effect.after; with_reducible apply regRefused_effect)
    | (with_reducible apply Effect.after; with_reducible apply wr_effect)
    | extract_lets
    | split
    | (refine ⟨⟨?_⟩, id, id⟩; intro p hp; cases p <;> first | rfl | (intro _ _; rfl) | (refine absurd ?_ hp; decide)))

abbrev routeCtrlWrite_parts : List Part :=
  [.eph, .hostMem, .icuTimers, .wakePending, .reg .ephLostCount, .reg .ephSeq, .reg .fabRouteCtrl, .reg .hifRingHead, .reg .icuPend]

theorem routeCtrlWrite_effect (s : State) (m : Master) (die value : Nat) :
    Effect routeCtrlWrite_parts s (routeCtrlWrite s m die value) := by
  unfold routeCtrlWrite
  repeat' (first
    | with_reducible exact Effect.refl _ _
    | (with_reducible show partsIn _ _ = true); decide +kernel
    | with_reducible apply Effect.ite
    | (with_reducible apply Effect.after; with_reducible apply regRefused_effect)
    | (with_reducible apply Effect.after; with_reducible apply wf_effect)
    | extract_lets
    | split
    | (refine ⟨⟨?_⟩, id, id⟩; intro p hp; cases p <;> first | rfl | (intro _ _; rfl) | (refine absurd ?_ hp; decide)))

end Sys2Proof.Machine
end

