-- ==== Sys2Proof/Laws/RingOpsEffect.lean ====
section
/-! SUPPORT. One effect lemma for each operation of Machine/RingOps.lean: the parts it may change. -/

set_option maxRecDepth 2000

set_option Elab.async false
set_option linter.unusedTactic false
set_option linter.unreachableTactic false
set_option linter.unusedVariables false
set_option linter.unusedSimpArgs false

namespace Sys2Proof.Machine

theorem setPwrStatus_effect (s : State) (f : Fld) (v : Nat) :
    Effect [.reg f.reg, .eph, .wakePending, .hostMem, .icuTimers, .reg .ephLostCount, .reg .ephSeq, .reg .hifRingHead, .reg .icuPend] s (setPwrStatus s f v) := by
  unfold setPwrStatus
  split
  · exact Effect.refl _ _
  · refine Effect.trans ?_ ((countRec_effect _ _ _ _ _).mono ?_)
    · exact (wf_effect s f _ _ _).mono (partsIn_head _ _)
    · exact partsIn_tail _ _

abbrev settlePower_parts : List Part :=
  [.eph, .hostMem, .icuTimers, .wakePending, .reg .ephLostCount, .reg .ephSeq, .reg .hifRingHead, .reg .icuPend, .reg .pwrStatus]

theorem settlePower_effect (s : State) :
    Effect settlePower_parts s (settlePower s) := by
  unfold settlePower
  repeat' (first
    | with_reducible exact Effect.refl _ _
    | (with_reducible show partsIn _ _ = true); decide +kernel
    | with_reducible apply Effect.ite
    | (with_reducible apply Effect.after; with_reducible apply setPwrStatus_effect)
    | extract_lets
    | split
    | (refine ⟨⟨?_⟩, id, id⟩; intro p hp; cases p <;> first | rfl | (intro _ _; rfl) | (refine absurd ?_ hp; decide)))

theorem queueCompletion_effect (s : State) (die n : Nat) (c : Completion) :
    Effect [.rings] s (queueCompletion s die n c) := by
  unfold queueCompletion
  repeat' (first
    | with_reducible exact Effect.refl _ _
    | (with_reducible show partsIn _ _ = true); decide +kernel
    | with_reducible apply Effect.ite
    | (with_reducible apply Effect.after; with_reducible apply setRing_effect)
    | extract_lets
    | split
    | (refine ⟨⟨?_⟩, id, id⟩; intro p hp; cases p <;> first | rfl | (intro _ _; rfl) | (refine absurd ?_ hp; decide)))

abbrev finish_parts : List Part :=
  [.eph, .hostMem, .icuTimers, .rings, .wakePending, .reg .ephLostCount, .reg .ephSeq, .reg .hifRingHead, .reg .icuPend, .reg .pwrStatus]

theorem finish_effect (s : State) (die n : Nat) (d : Desc) (status flags count detail signal : Nat) :
    Effect finish_parts s (finish s die n d status flags count detail signal) := by
  unfold finish
  repeat' (first
    | with_reducible exact Effect.refl _ _
    | (with_reducible show partsIn _ _ = true); decide +kernel
    | with_reducible apply Effect.ite
    | (with_reducible apply Effect.after; with_reducible apply queueCompletion_effect)
    | (with_reducible apply Effect.after; with_reducible apply settlePower_effect)
    | extract_lets
    | split
    | (refine ⟨⟨?_⟩, id, id⟩; intro p hp; cases p <;> first | rfl | (intro _ _; rfl) | (refine absurd ?_ hp; decide)))

abbrev finishWith_parts : List Part :=
  [.eph, .hostMem, .icuTimers, .rings, .wakePending, .reg .ephLostCount, .reg .ephSeq, .reg .hifRingHead, .reg .icuPend, .reg .pwrStatus]

theorem finishWith_effect (s : State) (die n : Nat) (d : Desc) (status : Nat) :
    Effect finishWith_parts s (finishWith s die n d status) := by
  unfold finishWith
  repeat' (first
    | with_reducible exact Effect.refl _ _
    | (with_reducible show partsIn _ _ = true); decide +kernel
    | with_reducible apply Effect.ite
    | (with_reducible apply Effect.after; with_reducible apply finish_effect)
    | extract_lets
    | split
    | (refine ⟨⟨?_⟩, id, id⟩; intro p hp; cases p <;> first | rfl | (intro _ _; rfl) | (refine absurd ?_ hp; decide)))

abbrev ringAdvance_parts : List Part :=
  [.eph, .hostMem, .icuTimers, .rings, .wakePending, .reg .ephLostCount, .reg .ephSeq, .reg .hifRingHead, .reg .icuPend, .reg .pwrStatus]

theorem ringAdvance_effect (s : State) (die n : Nat) :
    Effect ringAdvance_parts s (ringAdvance s die n) := by
  unfold ringAdvance
  repeat' (first
    | with_reducible exact Effect.refl _ _
    | (with_reducible show partsIn _ _ = true); decide +kernel
    | with_reducible apply Effect.ite
    | (with_reducible apply Effect.after; with_reducible apply finishWith_effect)
    | (with_reducible apply Effect.after; with_reducible apply setRing_effect)
    | extract_lets
    | split
    | (refine ⟨⟨?_⟩, id, id⟩; intro p hp; cases p <;> first | rfl | (intro _ _; rfl) | (refine absurd ?_ hp; decide)))

theorem takeDesc_effect {s s' : State} {die n : Nat} {want : Desc → Bool} {d : Desc} (h : takeDesc s die n want = some (d, s')) :
    Effect [.rings] s s' := by
  unfold takeDesc at h
  extract_lets at h
  split at h
  · split at h
    · injection h with h; injection h with h1 h2; subst h2; exact setRing_effect _ _ _ _
    · exact absurd h (by simp)
  · exact absurd h (by simp)

theorem keepActive_effect (s : State) (die n : Nat) (d : Desc) :
    Effect [.rings] s (keepActive s die n d) := by
  unfold keepActive
  repeat' (first
    | with_reducible exact Effect.refl _ _
    | (with_reducible show partsIn _ _ = true); decide +kernel
    | with_reducible apply Effect.ite
    | (with_reducible apply Effect.after; with_reducible apply setRing_effect)
    | extract_lets
    | split
    | (refine ⟨⟨?_⟩, id, id⟩; intro p hp; cases p <;> first | rfl | (intro _ _; rfl) | (refine absurd ?_ hp; decide)))

theorem dropActive_effect (s : State) (die n k : Nat) :
    Effect [.rings] s (dropActive s die n k) := by
  unfold dropActive
  repeat' (first
    | with_reducible exact Effect.refl _ _
    | (with_reducible show partsIn _ _ = true); decide +kernel
    | with_reducible apply Effect.ite
    | (with_reducible apply Effect.after; with_reducible apply setRing_effect)
    | extract_lets
    | split
    | (refine ⟨⟨?_⟩, id, id⟩; intro p hp; cases p <;> first | rfl | (intro _ _; rfl) | (refine absurd ?_ hp; decide)))

theorem completionEph_effect (s : State) (die n : Nat) (c : Completion) :
    Effect [.eph, .hostMem, .icuTimers, .wakePending, .reg .ephLostCount, .reg .ephSeq, .reg .hifRingHead, .reg .icuPend] s (completionEph s die n c) := by
  unfold completionEph
  repeat' (first
    | with_reducible exact Effect.refl _ _
    | (with_reducible show partsIn _ _ = true); decide +kernel
    | with_reducible apply Effect.ite
    | (with_reducible apply Effect.after; with_reducible apply emit_effect)
    | extract_lets
    | split
    | (refine ⟨⟨?_⟩, id, id⟩; intro p hp; cases p <;> first | rfl | (intro _ _; rfl) | (refine absurd ?_ hp; decide)))

abbrev writeCompletion_parts : List Part :=
  [.eph, .events, .hostMem, .icuTimers, .rings, .wakePending, .reg .ephLostCount, .reg .ephSeq, .reg .hifEventLostCount, .reg .hifFetchFaultCount, .reg .hifRingDone, .reg .hifRingHead, .reg .hifRingState, .reg .icuPend]

theorem writeCompletion_effect (s : State) (die n : Nat) (c : Completion) (ok : Bool) :
    Effect writeCompletion_parts s (writeCompletion s die n c ok) := by
  unfold writeCompletion
  repeat' (first
    | with_reducible exact Effect.refl _ _
    | (with_reducible show partsIn _ _ = true); decide +kernel
    | with_reducible apply Effect.ite
    | (with_reducible apply Effect.after; with_reducible apply completionEph_effect)
    | (with_reducible apply Effect.after; with_reducible apply ringFault_effect)
    | (with_reducible apply Effect.after; with_reducible apply setRing_effect)
    | (with_reducible apply Effect.after; with_reducible apply irq_effect)
    | (with_reducible apply Effect.after; with_reducible apply hostWrite_effect)
    | (with_reducible apply Effect.after; with_reducible apply wr_effect)
    | extract_lets
    | split
    | (refine ⟨⟨?_⟩, id, id⟩; intro p hp; cases p <;> first | rfl | (intro _ _; rfl) | (refine absurd ?_ hp; decide)))

end Sys2Proof.Machine
end

