-- ==== Sys2Proof/Laws/FabOpsEffect.lean ====
section
/-! SUPPORT. One effect lemma for each operation of Machine/FabOps.lean: the parts it may change. -/

set_option maxRecDepth 2000

set_option Elab.async false
set_option linter.unusedTactic false
set_option linter.unreachableTactic false
set_option linter.unusedVariables false
set_option linter.unusedSimpArgs false

namespace Sys2Proof.Machine

theorem setFlowTx_effect (s : State) (key : Nat) (f : FlowTx) :
    Effect [.flowsTx] s (setFlowTx s key f) := by
  unfold setFlowTx
  repeat' (first
    | with_reducible exact Effect.refl _ _
    | (with_reducible show partsIn _ _ = true); decide +kernel
    | with_reducible apply Effect.ite
    | extract_lets
    | split
    | with_reducible apply effect_set_flowsTx
    | (refine ⟨⟨?_⟩, id, id⟩; intro p hp; cases p <;> first | rfl | (intro _ _; rfl) | (refine absurd ?_ hp; decide)))

theorem setFlowRx_effect (s : State) (key : Nat) (f : FlowRx) :
    Effect [.flowsRx] s (setFlowRx s key f) := by
  unfold setFlowRx
  repeat' (first
    | with_reducible exact Effect.refl _ _
    | (with_reducible show partsIn _ _ = true); decide +kernel
    | with_reducible apply Effect.ite
    | extract_lets
    | split
    | with_reducible apply effect_set_flowsRx
    | (refine ⟨⟨?_⟩, id, id⟩; intro p hp; cases p <;> first | rfl | (intro _ _; rfl) | (refine absurd ?_ hp; decide)))

theorem queuePacket_effect (s : State) (die : Nat) (p : Packet) :
    Effect [.flowsTx] s (queuePacket s die p) := by
  unfold queuePacket
  repeat' (first
    | with_reducible exact Effect.refl _ _
    | (with_reducible show partsIn _ _ = true); decide +kernel
    | with_reducible apply Effect.ite
    | (with_reducible apply Effect.after; with_reducible apply setFlowTx_effect)
    | extract_lets
    | split
    | (refine ⟨⟨?_⟩, id, id⟩; intro p hp; cases p <;> first | rfl | (intro _ _; rfl) | (refine absurd ?_ hp; decide)))

theorem respond_effect (s : State) (die : Nat) (p : Packet) (kind fseq word : Nat) :
    Effect [.flowsTx] s (respond s die p kind fseq word) := by
  unfold respond
  repeat' (first
    | with_reducible exact Effect.refl _ _
    | (with_reducible show partsIn _ _ = true); decide +kernel
    | with_reducible apply Effect.ite
    | (with_reducible apply Effect.after; with_reducible apply queuePacket_effect)
    | extract_lets
    | split
    | (refine ⟨⟨?_⟩, id, id⟩; intro p hp; cases p <;> first | rfl | (intro _ _; rfl) | (refine absurd ?_ hp; decide)))

theorem flowsRestart_effect (s : State) :
    Effect [.flowsRx, .flowsTx] s (flowsRestart s) := by
  unfold flowsRestart
  repeat' (first
    | with_reducible exact Effect.refl _ _
    | (with_reducible show partsIn _ _ = true); decide +kernel
    | with_reducible apply Effect.ite
    | extract_lets
    | split
    | with_reducible apply effect_set_flowsTx_flowsRx
    | (refine ⟨⟨?_⟩, id, id⟩; intro p hp; cases p <;> first | rfl | (intro _ _; rfl) | (refine absurd ?_ hp; decide)))

theorem setPort_effect (s : State) (die p : Nat) (v : PortState) :
    Effect [.ports] s (setPort s die p v) := by
  unfold setPort
  repeat' (first
    | with_reducible exact Effect.refl _ _
    | (with_reducible show partsIn _ _ = true); decide +kernel
    | with_reducible apply Effect.ite
    | extract_lets
    | split
    | with_reducible apply effect_set_ports
    | (refine ⟨⟨?_⟩, id, id⟩; intro p hp; cases p <;> first | rfl | (intro _ _; rfl) | (refine absurd ?_ hp; decide)))

theorem setPortState_effect (s : State) (die p st lanes : Nat) :
    Effect [.icuTimers, .wakePending, .reg .fabPortState, .reg .icuPend] s (setPortState s die p st lanes) := by
  unfold setPortState
  repeat' (first
    | with_reducible exact Effect.refl _ _
    | (with_reducible show partsIn _ _ = true); decide +kernel
    | with_reducible apply Effect.ite
    | (with_reducible apply Effect.after; with_reducible apply irq_effect)
    | (with_reducible apply Effect.after; with_reducible apply wf_effect)
    | extract_lets
    | split
    | (refine ⟨⟨?_⟩, id, id⟩; intro p hp; cases p <;> first | rfl | (intro _ _; rfl) | (refine absurd ?_ hp; decide)))

theorem trainPort_effect (s : State) (die p mask : Nat) :
    Effect [.icuTimers, .ports, .wakePending, .reg .fabPortState, .reg .icuPend] s (trainPort s die p mask) := by
  unfold trainPort
  repeat' (first
    | with_reducible exact Effect.refl _ _
    | (with_reducible show partsIn _ _ = true); decide +kernel
    | with_reducible apply Effect.ite
    | (with_reducible apply Effect.after; with_reducible apply setPortState_effect)
    | (with_reducible apply Effect.after; with_reducible apply setPort_effect)
    | extract_lets
    | split
    | (refine ⟨⟨?_⟩, id, id⟩; intro p hp; cases p <;> first | rfl | (intro _ _; rfl) | (refine absurd ?_ hp; decide)))

theorem trainPorts_effect (s : State) (train : List (BitVec 8)) :
    Effect [.icuTimers, .ports, .wakePending, .reg .fabPortState, .reg .icuPend] s (trainPorts s train) := by
  unfold trainPorts
  repeat' (first
    | with_reducible exact Effect.refl _ _
    | (with_reducible show partsIn _ _ = true); decide +kernel
    | with_reducible apply Effect.ite
    | (with_reducible apply Effect.after; with_reducible apply trainPort_effect)
    | (with_reducible apply Effect.trans; pick_goal 2; with_reducible apply Effect.foldl; intro _ _)
    | extract_lets
    | split
    | (refine ⟨⟨?_⟩, id, id⟩; intro p hp; cases p <;> first | rfl | (intro _ _; rfl) | (refine absurd ?_ hp; decide)))

theorem settleOutstanding_effect (s : State) (die : Nat) :
    Effect [.reg .fabPortOutstanding] s (settleOutstanding s die) := by
  unfold settleOutstanding
  repeat' (first
    | with_reducible exact Effect.refl _ _
    | (with_reducible show partsIn _ _ = true); decide +kernel
    | with_reducible apply Effect.ite
    | (with_reducible apply Effect.after; with_reducible apply wr_effect)
    | (with_reducible apply Effect.trans; pick_goal 2; with_reducible apply Effect.foldl; intro _ _)
    | extract_lets
    | split
    | (refine ⟨⟨?_⟩, id, id⟩; intro p hp; cases p <;> first | rfl | (intro _ _; rfl) | (refine absurd ?_ hp; decide)))

theorem flushFabric_effect (s : State) :
    Effect [.colEnded, .colWaiting, .flowsRx, .flowsTx, .job, .mcasts, .reg .fabPortOutstanding] s (flushFabric s) := by
  unfold flushFabric
  repeat' (first
    | with_reducible exact Effect.refl _ _
    | (with_reducible show partsIn _ _ = true); decide +kernel
    | with_reducible apply Effect.ite
    | (with_reducible apply Effect.after; with_reducible apply settleOutstanding_effect)
    | extract_lets
    | split
    | with_reducible apply effect_set_colWaiting_colEnded_mcasts_flowsTx_flowsRx_job
    | (refine ⟨⟨?_⟩, id, id⟩; intro p hp; cases p <;> first | rfl | (intro _ _; rfl) | (refine absurd ?_ hp; decide)))

abbrev sampleHeader_parts : List Part :=
  [.eph, .hostMem, .icuTimers, .ports, .wakePending, .reg .ephLostCount, .reg .ephSeq, .reg .fabSampleSkipCount, .reg .hifRingHead, .reg .icuPend]

theorem sampleHeader_effect (s : State) (die p dir : Nat) (pkt : Packet) :
    Effect sampleHeader_parts s (sampleHeader s die p dir pkt) := by
  unfold sampleHeader
  repeat' (first
    | with_reducible exact Effect.refl _ _
    | (with_reducible show partsIn _ _ = true); decide +kernel
    | with_reducible apply Effect.ite
    | (with_reducible apply Effect.after; with_reducible apply setPort_effect)
    | (with_reducible apply Effect.after; with_reducible apply emitAll_effect)
    | (with_reducible apply Effect.after; with_reducible apply irq_effect)
    | (with_reducible apply Effect.after; with_reducible apply bump_effect)
    | extract_lets
    | split
    | (refine ⟨⟨?_⟩, id, id⟩; intro p hp; cases p <;> first | rfl | (intro _ _; rfl) | (refine absurd ?_ hp; decide)))

abbrev arriveStamp_parts : List Part :=
  [.eph, .hostMem, .icuTimers, .wakePending, .reg .ephLostCount, .reg .ephSeq, .reg .hifRingHead, .reg .icuPend, .reg .sidClampCount, .reg .sidCount]

theorem arriveStamp_effect (s : State) (die sent lmin : Nat) :
    Effect arriveStamp_parts s (arriveStamp s die sent lmin) := by
  unfold arriveStamp
  repeat' (first
    | with_reducible exact Effect.refl _ _
    | (with_reducible show partsIn _ _ = true); decide +kernel
    | with_reducible apply Effect.ite
    | (with_reducible apply Effect.after; with_reducible apply syncRec_effect)
    | (with_reducible apply Effect.after; with_reducible apply stepTo_effect)
    | (with_reducible apply Effect.after; with_reducible apply bump_effect)
    | extract_lets
    | split
    | (refine ⟨⟨?_⟩, id, id⟩; intro p hp; cases p <;> first | rfl | (intro _ _; rfl) | (refine absurd ?_ hp; decide)))

theorem bridgeSend_effect (s : State) (die : Nat) (b : BridgeBody) :
    Effect [.bridge] s (bridgeSend s die b) := by
  unfold bridgeSend
  repeat' (first
    | with_reducible exact Effect.refl _ _
    | (with_reducible show partsIn _ _ = true); decide +kernel
    | with_reducible apply Effect.ite
    | extract_lets
    | split
    | with_reducible apply effect_set_bridge
    | (refine ⟨⟨?_⟩, id, id⟩; intro p hp; cases p <;> first | rfl | (intro _ _; rfl) | (refine absurd ?_ hp; decide)))

theorem dropRec_effect (s : State) (die p : Nat) (b : Blk) (pkt : Packet) :
    Effect [.eph, .hostMem, .icuTimers, .wakePending, .reg .ephLostCount, .reg .ephSeq, .reg .hifRingHead, .reg .icuPend] s (dropRec s die p b pkt) := by
  unfold dropRec
  repeat' (first
    | with_reducible exact Effect.refl _ _
    | (with_reducible show partsIn _ _ = true); decide +kernel
    | with_reducible apply Effect.ite
    | (with_reducible apply Effect.after; with_reducible apply refusedRec_effect)
    | extract_lets
    | split
    | (refine ⟨⟨?_⟩, id, id⟩; intro p hp; cases p <;> first | rfl | (intro _ _; rfl) | (refine absurd ?_ hp; decide)))

end Sys2Proof.Machine
end

