-- ==== Sys2Proof/Laws/LinkEffect.lean ====
section
/-! SUPPORT. One effect lemma for each operation of Machine/Link.lean: the parts it may change. -/

set_option maxRecDepth 2000

set_option Elab.async false
set_option linter.unusedTactic false
set_option linter.unreachableTactic false
set_option linter.unusedVariables false
set_option linter.unusedSimpArgs false

namespace Sys2Proof.Machine

theorem putOnWire_effect (s : State) (die p : Nat) (pkt : Packet) :
    Effect [.answers, .ports] s (putOnWire s die p pkt) := by
  unfold putOnWire
  repeat' (first
    | with_reducible exact Effect.refl _ _
    | (with_reducible show partsIn _ _ = true); decide +kernel
    | with_reducible apply Effect.ite
    | (with_reducible apply Effect.after; with_reducible apply setPort_effect)
    | (with_reducible apply Effect.trans; pick_goal 2; with_reducible apply Effect.foldl; intro _ _)
    | extract_lets
    | split
    | with_reducible apply effect_set_answers
    | (refine ⟨⟨?_⟩, id, id⟩; intro p hp; cases p <;> first | rfl | (intro _ _; rfl) | (refine absurd ?_ hp; decide)))

abbrev resendFlit_parts : List Part :=
  [.eph, .events, .flt, .hostMem, .icuTimers, .wakePending, .reg .arrPathStatus, .reg .ephLostCount, .reg .ephSeq, .reg .fabLinkReplayCount, .reg .hbmPcState, .reg .hbmStatus, .reg .hifEventLostCount, .reg .hifRingHead, .reg .icuPend]

theorem resendFlit_effect (die p : Nat) (s : State) (e : TxFlit) :
    Effect resendFlit_parts s (resendFlit die p s e) := by
  unfold resendFlit
  repeat' (first
    | with_reducible exact Effect.refl _ _
    | (with_reducible show partsIn _ _ = true); decide +kernel
    | with_reducible apply Effect.ite
    | (with_reducible apply Effect.after; with_reducible apply transient_effect)
    | (with_reducible apply Effect.after; with_reducible apply bump_effect)
    | extract_lets
    | split
    | (refine ⟨⟨?_⟩, id, id⟩; intro p hp; cases p <;> first | rfl | (intro _ _; rfl) | (refine absurd ?_ hp; decide)))

theorem requestLeaves_effect (s : State) (die p : Nat) (out : List TxFlit) :
    Effect [.sid] s (requestLeaves s die p out) := by
  unfold requestLeaves
  repeat' (first
    | with_reducible exact Effect.refl _ _
    | (with_reducible show partsIn _ _ = true); decide +kernel
    | with_reducible apply Effect.ite
    | (with_reducible apply Effect.after; with_reducible apply setSid_effect)
    | extract_lets
    | split
    | (refine ⟨⟨?_⟩, id, id⟩; intro p hp; cases p <;> first | rfl | (intro _ _; rfl) | (refine absurd ?_ hp; decide)))

theorem idlePair_effect (s : State) (die p : Nat) :
    Effect [.ports] s (idlePair s die p) := by
  unfold idlePair
  repeat' (first
    | with_reducible exact Effect.refl _ _
    | (with_reducible show partsIn _ _ = true); decide +kernel
    | with_reducible apply Effect.ite
    | (with_reducible apply Effect.after; with_reducible apply setPort_effect)
    | extract_lets
    | split
    | (refine ⟨⟨?_⟩, id, id⟩; intro p hp; cases p <;> first | rfl | (intro _ _; rfl) | (refine absurd ?_ hp; decide)))

abbrev sendPair_parts : List Part :=
  [.answers, .eph, .events, .flt, .freeCtr, .hostMem, .icuTimers, .ports, .sid, .wakePending, .reg .arrPathStatus, .reg .ephLostCount, .reg .ephSeq, .reg .fabLinkReplayCount, .reg .hbmPcState, .reg .hbmStatus, .reg .hifEventLostCount, .reg .hifRingHead, .reg .icuPend]

theorem sendPair_effect (s : State) (die p : Nat) :
    Effect sendPair_parts s (sendPair s die p) := by
  unfold sendPair
  repeat' (first
    | with_reducible exact Effect.refl _ _
    | (with_reducible show partsIn _ _ = true); decide +kernel
    | with_reducible apply Effect.ite
    | (with_reducible apply Effect.after; with_reducible apply idlePair_effect)
    | (with_reducible apply Effect.after; with_reducible apply requestLeaves_effect)
    | (with_reducible apply Effect.after; with_reducible apply resendFlit_effect)
    | (with_reducible apply Effect.after; with_reducible apply setPort_effect)
    | (with_reducible apply Effect.after; with_reducible apply fresh_effect)
    | with_reducible refine Effect.after (Effect.snd (fresh_effect _) (by assumption)) ?_ ?_
    | (with_reducible apply Effect.trans; pick_goal 2; with_reducible apply Effect.foldl; intro _ _)
    | extract_lets
    | split
    | with_reducible apply effect_set_answers
    | (refine ⟨⟨?_⟩, id, id⟩; intro p hp; cases p <;> first | rfl | (intro _ _; rfl) | (refine absurd ?_ hp; decide)))

abbrev sendPairs_parts : List Part :=
  [.answers, .eph, .events, .flt, .freeCtr, .hostMem, .icuTimers, .ports, .sid, .wakePending, .reg .arrPathStatus, .reg .ephLostCount, .reg .ephSeq, .reg .fabLinkReplayCount, .reg .hbmPcState, .reg .hbmStatus, .reg .hifEventLostCount, .reg .hifRingHead, .reg .icuPend]

theorem sendPairs_effect (s : State) :
    Effect sendPairs_parts s (sendPairs s) := by
  unfold sendPairs
  repeat' (first
    | with_reducible exact Effect.refl _ _
    | (with_reducible show partsIn _ _ = true); decide +kernel
    | with_reducible apply Effect.ite
    | (with_reducible apply Effect.after; with_reducible apply sendPair_effect)
    | (with_reducible apply Effect.trans; pick_goal 2; with_reducible apply Effect.foldl; intro _ _)
    | extract_lets
    | split
    | with_reducible apply effect_set_answers
    | (refine ⟨⟨?_⟩, id, id⟩; intro p hp; cases p <;> first | rfl | (intro _ _; rfl) | (refine absurd ?_ hp; decide)))

theorem takePacket_effect (s : State) (die p : Nat) (pkt : Packet) :
    Effect [.ports] s (takePacket s die p pkt) := by
  unfold takePacket
  repeat' (first
    | with_reducible exact Effect.refl _ _
    | (with_reducible show partsIn _ _ = true); decide +kernel
    | with_reducible apply Effect.ite
    | (with_reducible apply Effect.after; with_reducible apply setPort_effect)
    | extract_lets
    | split
    | (refine ⟨⟨?_⟩, id, id⟩; intro p hp; cases p <;> first | rfl | (intro _ _; rfl) | (refine absurd ?_ hp; decide)))

end Sys2Proof.Machine
end

