-- ==== Sys2Proof/Laws/CoreOpsEffect.lean ====
section
/-! SUPPORT. One effect lemma for each operation of Machine/CoreOps.lean: the parts it may change. -/

set_option maxRecDepth 2000

set_option Elab.async false
set_option linter.unusedTactic false
set_option linter.unreachableTactic false
set_option linter.unusedVariables false
set_option linter.unusedSimpArgs false

namespace Sys2Proof.Machine

theorem setCore_effect (s : State) (k : Nat) (c : CoreState) :
    Effect [.cores] s (setCore s k c) := by
  unfold setCore
  repeat' (first
    | with_reducible exact Effect.refl _ _
    | (with_reducible show partsIn _ _ = true); decide +kernel
    | with_reducible apply Effect.ite
    | extract_lets
    | split
    | with_reducible apply effect_set_cores
    | (refine ⟨⟨?_⟩, id, id⟩; intro p hp; cases p <;> first | rfl | (intro _ _; rfl) | (refine absurd ?_ hp; decide)))

theorem setArray_effect (s : State) (k a : Nat) (v : ArrayState) :
    Effect [.cores] s (setArray s k a v) := by
  unfold setArray
  repeat' (first
    | with_reducible exact Effect.refl _ _
    | (with_reducible show partsIn _ _ = true); decide +kernel
    | with_reducible apply Effect.ite
    | (with_reducible apply Effect.after; with_reducible apply setCore_effect)
    | extract_lets
    | split
    | (refine ⟨⟨?_⟩, id, id⟩; intro p hp; cases p <;> first | rfl | (intro _ _; rfl) | (refine absurd ?_ hp; decide)))

theorem setSeqState_effect (s : State) (k v : Nat) :
    Effect [.reg .seqState] s (setSeqState s k v) := by
  unfold setSeqState
  repeat' (first
    | with_reducible exact Effect.refl _ _
    | (with_reducible show partsIn _ _ = true); decide +kernel
    | with_reducible apply Effect.ite
    | (with_reducible apply Effect.after; with_reducible apply wf_effect)
    | extract_lets
    | split
    | (refine ⟨⟨?_⟩, id, id⟩; intro p hp; cases p <;> first | rfl | (intro _ _; rfl) | (refine absurd ?_ hp; decide)))

theorem restoreRegs_effect (s : State) (k : Nat) (m : Map (BitVec 64)) :
    Effect (snapRegs.map Part.reg) s (restoreRegs s k m) := by
  unfold restoreRegs
  exact Effect.foldl_mem _ _ (fun s' r hr => (wr_effect _ _ _ _ _).mono_mem fun p hp => by
    rw [List.mem_singleton] at hp; subst hp; exact List.mem_map_of_mem hr) _

abbrev pointView_parts : List Part :=
  [.reg .updFallbackCount, .reg .updFrozenCount, .reg .updRootFailCount, .reg .vecFlags, .reg .vecNonfiniteCount, .reg .vecScalar0, .reg .vecScalar1, .reg .vecScalar2, .reg .vecScalar3, .reg .vecScalar4, .reg .vecScalar5, .reg .vecScalar6, .reg .vecScalar7, .reg .vecSrStep]

theorem pointView_effect (s : State) (k : Nat) :
    Effect pointView_parts s (pointView s k) := by
  unfold pointView
  repeat' (first
    | with_reducible exact Effect.refl _ _
    | (with_reducible show partsIn _ _ = true); decide +kernel
    | with_reducible apply Effect.ite
    | (with_reducible apply Effect.after; with_reducible apply restoreRegs_effect)
    | extract_lets
    | split
    | (refine ⟨⟨?_⟩, id, id⟩; intro p hp; cases p <;> first | rfl | (intro _ _; rfl) | (refine absurd ?_ hp; decide)))

theorem keepInPoint_effect (s : State) (k bundle : Nat) (v : State) :
    Effect [.cores] s (keepInPoint s k bundle v) := by
  unfold keepInPoint
  split
  · split
    · exact setCore_effect s k _
    · exact Effect.refl _ _
  · exact Effect.refl _ _

theorem passEmpty_effect  (n : Nat) : ∀ (s : State) (k : Nat),
    Effect [.cores] s (passEmpty n s k) := by
  induction n with
  | zero => intros; unfold passEmpty; exact Effect.refl _ _
  | succ n ih =>
    intros; unfold passEmpty
    repeat' (first
      | with_reducible exact Effect.refl _ _
      | (with_reducible show partsIn _ _ = true); decide +kernel
      | with_reducible apply Effect.ite
      | (with_reducible apply Effect.after; with_reducible apply ih)
      | (with_reducible apply Effect.after; with_reducible apply setCore_effect)
      | extract_lets
      | split
      | (refine ⟨⟨?_⟩, id, id⟩; intro p hp; cases p <;> first | rfl | (intro _ _; rfl) | (refine absurd ?_ hp; decide)))

theorem freezeCore_effect (s : State) (k : Nat) (f : FreezeCond) :
    Effect [.cores, .reg .seqState] s (freezeCore s k f) := by
  unfold freezeCore
  repeat' (first
    | with_reducible exact Effect.refl _ _
    | (with_reducible show partsIn _ _ = true); decide +kernel
    | with_reducible apply Effect.ite
    | (with_reducible apply Effect.after; with_reducible apply setSeqState_effect)
    | (with_reducible apply Effect.after; with_reducible apply setCore_effect)
    | extract_lets
    | split
    | (refine ⟨⟨?_⟩, id, id⟩; intro p hp; cases p <;> first | rfl | (intro _ _; rfl) | (refine absurd ?_ hp; decide)))

theorem nextOne_effect (s : State) (k : Nat) :
    Effect [.cores] s (nextOne s k) := by
  unfold nextOne
  repeat' (first
    | with_reducible exact Effect.refl _ _
    | (with_reducible show partsIn _ _ = true); decide +kernel
    | with_reducible apply Effect.ite
    | (with_reducible apply Effect.after; with_reducible apply passEmpty_effect)
    | (with_reducible apply Effect.after; with_reducible apply setCore_effect)
    | extract_lets
    | split
    | (refine ⟨⟨?_⟩, id, id⟩; intro p hp; cases p <;> first | rfl | (intro _ _; rfl) | (refine absurd ?_ hp; decide)))

theorem wideIssued_effect (s : State) (k : Nat) :
    Effect [.cores] s (wideIssued s k) := by
  unfold wideIssued
  repeat' (first
    | with_reducible exact Effect.refl _ _
    | (with_reducible show partsIn _ _ = true); decide +kernel
    | with_reducible apply Effect.ite
    | (with_reducible apply Effect.after; with_reducible apply nextOne_effect)
    | (with_reducible apply Effect.after; with_reducible apply setCore_effect)
    | extract_lets
    | split
    | (refine ⟨⟨?_⟩, id, id⟩; intro p hp; cases p <;> first | rfl | (intro _ _; rfl) | (refine absurd ?_ hp; decide)))

theorem narrowIssued_effect (s : State) (k : Nat) :
    Effect [.cores] s (narrowIssued s k) := by
  unfold narrowIssued
  repeat' (first
    | with_reducible exact Effect.refl _ _
    | (with_reducible show partsIn _ _ = true); decide +kernel
    | with_reducible apply Effect.ite
    | (with_reducible apply Effect.after; with_reducible apply nextOne_effect)
    | extract_lets
    | split
    | (refine ⟨⟨?_⟩, id, id⟩; intro p hp; cases p <;> first | rfl | (intro _ _; rfl) | (refine absurd ?_ hp; decide)))

theorem slipFor_effect (s : State) (k cycles : Nat) (f : Nat → FreezeCond) :
    Effect [.cores, .reg .seqState] s (slipFor s k cycles f) := by
  unfold slipFor
  repeat' (first
    | with_reducible exact Effect.refl _ _
    | (with_reducible show partsIn _ _ = true); decide +kernel
    | with_reducible apply Effect.ite
    | (with_reducible apply Effect.after; with_reducible apply freezeCore_effect)
    | extract_lets
    | split
    | (refine ⟨⟨?_⟩, id, id⟩; intro p hp; cases p <;> first | rfl | (intro _ _; rfl) | (refine absurd ?_ hp; decide)))

theorem interlockFor_effect (s : State) (k wait : Nat) :
    Effect [.cores, .reg .seqState] s (interlockFor s k wait) := by
  unfold interlockFor
  repeat' (first
    | with_reducible exact Effect.refl _ _
    | (with_reducible show partsIn _ _ = true); decide +kernel
    | with_reducible apply Effect.ite
    | (with_reducible apply Effect.after; with_reducible apply setSeqState_effect)
    | (with_reducible apply Effect.after; with_reducible apply setCore_effect)
    | extract_lets
    | split
    | (refine ⟨⟨?_⟩, id, id⟩; intro p hp; cases p <;> first | rfl | (intro _ _; rfl) | (refine absurd ?_ hp; decide)))

theorem flagCore_effect (s : State) (k f : Nat) :
    Effect [.cores] s (flagCore s k f) := by
  unfold flagCore
  repeat' (first
    | with_reducible exact Effect.refl _ _
    | (with_reducible show partsIn _ _ = true); decide +kernel
    | with_reducible apply Effect.ite
    | (with_reducible apply Effect.after; with_reducible apply setCore_effect)
    | extract_lets
    | split
    | (refine ⟨⟨?_⟩, id, id⟩; intro p hp; cases p <;> first | rfl | (intro _ _; rfl) | (refine absurd ?_ hp; decide)))

theorem countSlip_effect (s : State) (k cycles : Nat) :
    Effect [.cores, .reg .seqSlipCycles] s (countSlip s k cycles) := by
  unfold countSlip
  repeat' (first
    | with_reducible exact Effect.refl _ _
    | (with_reducible show partsIn _ _ = true); decide +kernel
    | with_reducible apply Effect.ite
    | (with_reducible apply Effect.after; with_reducible apply flagCore_effect)
    | (with_reducible apply Effect.after; with_reducible apply bumpCore_effect)
    | extract_lets
    | split
    | (refine ⟨⟨?_⟩, id, id⟩; intro p hp; cases p <;> first | rfl | (intro _ _; rfl) | (refine absurd ?_ hp; decide)))

theorem freezeHeld_effect (s : State) (k n : Nat) :
    Effect [.cores, .reg .seqState] s (freezeHeld s k n) := by
  unfold freezeHeld
  repeat' (first
    | with_reducible exact Effect.refl _ _
    | (with_reducible show partsIn _ _ = true); decide +kernel
    | with_reducible apply Effect.ite
    | (with_reducible apply Effect.after; with_reducible apply freezeCore_effect)
    | (with_reducible apply Effect.trans; pick_goal 2; with_reducible apply Effect.foldl; intro _ _)
    | extract_lets
    | split
    | (refine ⟨⟨?_⟩, id, id⟩; intro p hp; cases p <;> first | rfl | (intro _ _; rfl) | (refine absurd ?_ hp; decide)))

theorem countFrozen_effect (s : State) (k slip wait : Nat) :
    Effect [.cores, .reg .seqReplayCycles, .reg .seqSlipCycles, .reg .seqWaitCycles] s (countFrozen s k slip wait) := by
  unfold countFrozen
  repeat' (first
    | with_reducible exact Effect.refl _ _
    | (with_reducible show partsIn _ _ = true); decide +kernel
    | with_reducible apply Effect.ite
    | (with_reducible apply Effect.after; with_reducible apply countSlip_effect)
    | (with_reducible apply Effect.after; with_reducible apply setCore_effect)
    | (with_reducible apply Effect.after; with_reducible apply bumpCore_effect)
    | extract_lets
    | split
    | (refine ⟨⟨?_⟩, id, id⟩; intro p hp; cases p <;> first | rfl | (intro _ _; rfl) | (refine absurd ?_ hp; decide)))

theorem countCut_effect (s : State) (k : Nat) :
    Effect [.cores, .reg .seqReplayCycles, .reg .seqSlipCycles, .reg .seqWaitCycles] s (countCut s k) := by
  unfold countCut
  repeat' (first
    | with_reducible exact Effect.refl _ _
    | (with_reducible show partsIn _ _ = true); decide +kernel
    | with_reducible apply Effect.ite
    | (with_reducible apply Effect.after; with_reducible apply countFrozen_effect)
    | extract_lets
    | split
    | (refine ⟨⟨?_⟩, id, id⟩; intro p hp; cases p <;> first | rfl | (intro _ _; rfl) | (refine absurd ?_ hp; decide)))

theorem armGuards_effect (s : State) (k bundle base len : Nat) :
    Effect [.cores] s (armGuards s k bundle base len) := by
  unfold armGuards
  repeat' (first
    | with_reducible exact Effect.refl _ _
    | (with_reducible show partsIn _ _ = true); decide +kernel
    | with_reducible apply Effect.ite
    | (with_reducible apply Effect.after; with_reducible apply setCore_effect)
    | extract_lets
    | split
    | (refine ⟨⟨?_⟩, id, id⟩; intro p hp; cases p <;> first | rfl | (intro _ _; rfl) | (refine absurd ?_ hp; decide)))

theorem withdrawWaits_effect (s : State) (p : Waiter → Bool) :
    Effect [.bridge, .sync] s (withdrawWaits s p) := by
  unfold withdrawWaits
  repeat' (first
    | with_reducible exact Effect.refl _ _
    | (with_reducible show partsIn _ _ = true); decide +kernel
    | with_reducible apply Effect.ite
    | extract_lets
    | split
    | with_reducible apply effect_set_sync_bridge
    | (refine ⟨⟨?_⟩, id, id⟩; intro p hp; cases p <;> first | rfl | (intro _ _; rfl) | (refine absurd ?_ hp; decide)))

abbrev endStream_parts : List Part :=
  [.bridge, .cores, .eph, .hostMem, .icuTimers, .rings, .sync, .wakePending, .reg .ephLostCount, .reg .ephSeq, .reg .hifRingHead, .reg .icuPend, .reg .pwrStatus, .reg .seqReplayCycles, .reg .seqSlipCycles, .reg .seqState, .reg .seqWaitCycles]

theorem endStream_effect (s : State) (k status : Nat) :
    Effect endStream_parts s (endStream s k status) := by
  unfold endStream
  repeat' (first
    | with_reducible exact Effect.refl _ _
    | (with_reducible show partsIn _ _ = true); decide +kernel
    | with_reducible apply Effect.ite
    | (with_reducible apply Effect.after; with_reducible apply withdrawWaits_effect)
    | (with_reducible apply Effect.after; with_reducible apply countCut_effect)
    | (with_reducible apply Effect.after; with_reducible apply setSeqState_effect)
    | (with_reducible apply Effect.after; with_reducible apply setCore_effect)
    | (with_reducible apply Effect.after; with_reducible apply dropActive_effect)
    | (with_reducible apply Effect.after; with_reducible apply ringAdvance_effect)
    | (with_reducible apply Effect.after; with_reducible apply queueCompletion_effect)
    | (with_reducible apply Effect.after; with_reducible apply settlePower_effect)
    | (with_reducible apply Effect.after; with_reducible apply irq_effect)
    | extract_lets
    | split
    | (refine ⟨⟨?_⟩, id, id⟩; intro p hp; cases p <;> first | rfl | (intro _ _; rfl) | (refine absurd ?_ hp; decide)))

end Sys2Proof.Machine
end

