-- ==== Sys2Proof/Laws/SyncOpsEffect.lean ====
section
/-! SUPPORT. One effect lemma for each operation of Machine/SyncOps.lean: the parts it may change. -/

set_option maxRecDepth 2000

set_option Elab.async false
set_option linter.unusedTactic false
set_option linter.unreachableTactic false
set_option linter.unusedVariables false
set_option linter.unusedSimpArgs false

namespace Sys2Proof.Machine

theorem setSync_effect (s : State) (die : Nat) (u : SyncUnit) :
    Effect [.sync] s (setSync s die u) := by
  unfold setSync
  repeat' (first
    | with_reducible exact Effect.refl _ _
    | (with_reducible show partsIn _ _ = true); decide +kernel
    | with_reducible apply Effect.ite
    | extract_lets
    | split
    | with_reducible apply effect_set_sync
    | (refine ⟨⟨?_⟩, id, id⟩; intro p hp; cases p <;> first | rfl | (intro _ _; rfl) | (refine absurd ?_ hp; decide)))

abbrev objEffects_parts : List Part :=
  [.eph, .events, .flt, .hostMem, .icuTimers, .poison, .scrub, .wakePending, .reg .arrPathStatus, .reg .ephLostCount, .reg .ephSeq, .reg .hbmFailCount, .reg .hbmOdeccCorrCount, .reg .hbmOdeccUncorrCount, .reg .hbmPcState, .reg .hbmRereadCount, .reg .hbmStatus, .reg .hifEventLostCount, .reg .hifRingHead, .reg .icuPend, .reg .spmFailCount, .reg .spmRereadCount]

theorem objEffects_effect (s : State) (mf : MemFaults) (far : Bool) (index : Nat) :
    Effect objEffects_parts s (objEffects s mf far index) := by
  unfold objEffects
  repeat' (first
    | with_reducible exact Effect.refl _ _
    | (with_reducible show partsIn _ _ = true); decide +kernel
    | with_reducible apply Effect.ite
    | (with_reducible apply Effect.after; with_reducible apply readEffects_effect)
    | extract_lets
    | split
    | (refine ⟨⟨?_⟩, id, id⟩; intro p hp; cases p <;> first | rfl | (intro _ _; rfl) | (refine absurd ?_ hp; decide)))

abbrev writeObj_parts : List Part :=
  [.cores, .eph, .events, .flt, .freeCtr, .heldWrites, .hostMem, .icuTimers, .mem, .poison, .scrub, .sync, .wakePending, .reg .arrPathStatus, .reg .ephLostCount, .reg .ephSeq, .reg .hbmFailCount, .reg .hbmOdeccCorrCount, .reg .hbmOdeccUncorrCount, .reg .hbmPcState, .reg .hbmPoisonCount, .reg .hbmRereadCount, .reg .hbmStatus, .reg .hifEventLostCount, .reg .hifRingHead, .reg .icuPend, .reg .spmFailCount, .reg .spmPoisonCount, .reg .spmRereadCount]

theorem writeObj_effect (s : State) (die : Nat) (far : Bool) (index : Nat) (o : SyncObj) :
    Effect writeObj_parts s (writeObj s die far index o) := by
  unfold writeObj
  repeat' (first
    | with_reducible exact Effect.refl _ _
    | (with_reducible show partsIn _ _ = true); decide +kernel
    | with_reducible apply Effect.ite
    | (with_reducible apply Effect.after; with_reducible apply setSync_effect)
    | (with_reducible apply Effect.after; with_reducible apply landWrite_effect)
    | extract_lets
    | split
    | (refine ⟨⟨?_⟩, id, id⟩; intro p hp; cases p <;> first | rfl | (intro _ _; rfl) | (refine absurd ?_ hp; decide)))

abbrev signalLost_parts : List Part :=
  [.eph, .hostMem, .icuTimers, .wakePending, .reg .ephLostCount, .reg .ephSeq, .reg .hifRingHead, .reg .icuPend, .reg .synLostCount]

theorem signalLost_effect (s : State) (die : Nat) :
    Effect signalLost_parts s (signalLost s die) := by
  unfold signalLost
  repeat' (first
    | with_reducible exact Effect.refl _ _
    | (with_reducible show partsIn _ _ = true); decide +kernel
    | with_reducible apply Effect.ite
    | (with_reducible apply Effect.after; with_reducible apply countRec_effect)
    | (with_reducible apply Effect.after; with_reducible apply irq_effect)
    | (with_reducible apply Effect.after; with_reducible apply bump_effect)
    | extract_lets
    | split
    | (refine ⟨⟨?_⟩, id, id⟩; intro p hp; cases p <;> first | rfl | (intro _ _; rfl) | (refine absurd ?_ hp; decide)))

abbrev setBalance_parts : List Part :=
  [.eph, .hostMem, .icuTimers, .pwr, .wakePending, .reg .ephLostCount, .reg .ephSeq, .reg .hifRingHead, .reg .icuPend, .reg .pwrHelioStatus]

theorem setBalance_effect (s : State) (b : Int) :
    Effect setBalance_parts s (setBalance s b) := by
  unfold setBalance
  repeat' (first
    | with_reducible exact Effect.refl _ _
    | (with_reducible show partsIn _ _ = true); decide +kernel
    | with_reducible apply Effect.ite
    | (with_reducible apply Effect.after; with_reducible apply countRec_effect)
    | (with_reducible apply Effect.after; with_reducible apply wf_effect)
    | extract_lets
    | split
    | with_reducible apply effect_set_pwr
    | (refine ⟨⟨?_⟩, id, id⟩; intro p hp; cases p <;> first | rfl | (intro _ _; rfl) | (refine absurd ?_ hp; decide)))

abbrev endHelio_parts : List Part :=
  [.eph, .hostMem, .icuTimers, .pwr, .wakePending, .reg .ephLostCount, .reg .ephSeq, .reg .hifRingHead, .reg .icuPend, .reg .pwrHelioStatus]

theorem endHelio_effect (s : State) :
    Effect endHelio_parts s (endHelio s) := by
  unfold endHelio
  repeat' (first
    | with_reducible exact Effect.refl _ _
    | (with_reducible show partsIn _ _ = true); decide +kernel
    | with_reducible apply Effect.ite
    | (with_reducible apply Effect.after; with_reducible apply countRec_effect)
    | (with_reducible apply Effect.after; with_reducible apply wf_effect)
    | extract_lets
    | split
    | with_reducible apply effect_set_pwr
    | (refine ⟨⟨?_⟩, id, id⟩; intro p hp; cases p <;> first | rfl | (intro _ _; rfl) | (refine absurd ?_ hp; decide)))

abbrev grantArrive_parts : List Part :=
  [.eph, .hostMem, .icuTimers, .pwr, .wakePending, .reg .ephLostCount, .reg .ephSeq, .reg .hifRingHead, .reg .icuPend, .reg .pwrGrantLostCount, .reg .pwrHelioStatus]

theorem grantArrive_effect (s : State) (sent arrival increment : Nat) :
    Effect grantArrive_parts s (grantArrive s sent arrival increment) := by
  unfold grantArrive
  repeat' (first
    | with_reducible exact Effect.refl _ _
    | (with_reducible show partsIn _ _ = true); decide +kernel
    | with_reducible apply Effect.ite
    | (with_reducible apply Effect.after; with_reducible apply setBalance_effect)
    | (with_reducible apply Effect.after; with_reducible apply bump_effect)
    | extract_lets
    | split
    | (refine ⟨⟨?_⟩, id, id⟩; intro p hp; cases p <;> first | rfl | (intro _ _; rfl) | (refine absurd ?_ hp; decide)))

theorem deliverSignal_effect (s : State) (die dest : Nat) (m : SignalMsg) :
    Effect [.bridge, .sync] s (deliverSignal s die dest m) := by
  unfold deliverSignal
  repeat' (first
    | with_reducible exact Effect.refl _ _
    | (with_reducible show partsIn _ _ = true); decide +kernel
    | with_reducible apply Effect.ite
    | (with_reducible apply Effect.after; with_reducible apply setSync_effect)
    | (with_reducible apply Effect.after; with_reducible apply bridgeSend_effect)
    | extract_lets
    | split
    | (refine ⟨⟨?_⟩, id, id⟩; intro p hp; cases p <;> first | rfl | (intro _ _; rfl) | (refine absurd ?_ hp; decide)))

abbrev sendSignal_parts : List Part :=
  [.bridge, .eph, .flowsTx, .hostMem, .icuTimers, .sync, .wakePending, .reg .ephLostCount, .reg .ephSeq, .reg .hifRingHead, .reg .icuPend, .reg .synLostCount]

theorem sendSignal_effect (s : State) (die : Nat) (r : SignalReq) :
    Effect sendSignal_parts s (sendSignal s die r) := by
  unfold sendSignal
  repeat' (first
    | with_reducible exact Effect.refl _ _
    | (with_reducible show partsIn _ _ = true); decide +kernel
    | with_reducible apply Effect.ite
    | (with_reducible apply Effect.after; with_reducible apply deliverSignal_effect)
    | (with_reducible apply Effect.after; with_reducible apply signalLost_effect)
    | (with_reducible apply Effect.after; with_reducible apply queuePacket_effect)
    | extract_lets
    | split
    | (refine ⟨⟨?_⟩, id, id⟩; intro p hp; cases p <;> first | rfl | (intro _ _; rfl) | (refine absurd ?_ hp; decide)))

theorem waitSample_effect (s : State) (die : Nat) (w : WaitReq) (o : SyncObj) :
    Effect [.pwr, .reg .synWaitTicks] s (waitSample s die w o) := by
  unfold waitSample
  repeat' (first
    | with_reducible exact Effect.refl _ _
    | (with_reducible show partsIn _ _ = true); decide +kernel
    | with_reducible apply Effect.ite
    | (with_reducible apply Effect.after; with_reducible apply bump_effect)
    | extract_lets
    | split
    | with_reducible apply effect_set_pwr
    | (refine ⟨⟨?_⟩, id, id⟩; intro p hp; cases p <;> first | rfl | (intro _ _; rfl) | (refine absurd ?_ hp; decide)))

theorem companionReturn_effect (s : State) (k v : Nat) :
    Effect [.answers, .ctlCores] s (companionReturn s k v) := by
  unfold companionReturn
  repeat' (first
    | with_reducible exact Effect.refl _ _
    | (with_reducible show partsIn _ _ = true); decide +kernel
    | with_reducible apply Effect.ite
    | (with_reducible apply Effect.after; with_reducible apply setCtlCore_effect)
    | extract_lets
    | split
    | with_reducible apply effect_set_answers
    | (refine ⟨⟨?_⟩, id, id⟩; intro p hp; cases p <;> first | rfl | (intro _ _; rfl) | (refine absurd ?_ hp; decide)))

theorem companionGoes_effect (s : State) (k v : Nat) :
    Effect [.answers, .comps, .ctlCores] s (companionGoes s k v) := by
  unfold companionGoes
  repeat' (first
    | with_reducible exact Effect.refl _ _
    | (with_reducible show partsIn _ _ = true); decide +kernel
    | with_reducible apply Effect.ite
    | (with_reducible apply Effect.after; with_reducible apply companionReturn_effect)
    | extract_lets
    | split
    | with_reducible apply effect_set_comps
    | (refine ⟨⟨?_⟩, id, id⟩; intro p hp; cases p <;> first | rfl | (intro _ _; rfl) | (refine absurd ?_ hp; decide)))

theorem wakeWaiter_effect (s : State) (w : Waiter) : Effect [.answers, .cols, .comps, .cores, .ctlCores] s (wakeWaiter s w) := by
  unfold wakeWaiter
  split
  · exact (setCore_effect _ _ _).mono (by decide)
  · split
    · exact effect_set_cols _ (by decide) (Effect.refl _ _)
    · exact Effect.refl _ _
  · exact (companionGoes_effect _ _ _).mono (by decide)

abbrev releaseWait_parts : List Part :=
  [.answers, .bridge, .cols, .comps, .cores, .ctlCores, .pwr, .reg .synReleaseCount, .reg .synWaitTicks]

theorem releaseWait_effect (o : SyncObj) (wasHeld : Bool) (die : Nat) (s : State) (w : WaitReq) :
    Effect releaseWait_parts s (releaseWait o wasHeld die s w) := by
  unfold releaseWait
  repeat' (first
    | with_reducible exact Effect.refl _ _
    | (with_reducible show partsIn _ _ = true); decide +kernel
    | with_reducible apply Effect.ite
    | (with_reducible apply Effect.after; with_reducible apply wakeWaiter_effect)
    | (with_reducible apply Effect.after; with_reducible apply waitSample_effect)
    | (with_reducible apply Effect.after; with_reducible apply bridgeSend_effect)
    | (with_reducible apply Effect.after; with_reducible apply bump_effect)
    | extract_lets
    | split
    | (refine ⟨⟨?_⟩, id, id⟩; intro p hp; cases p <;> first | rfl | (intro _ _; rfl) | (refine absurd ?_ hp; decide)))

abbrev timeoutWaiter_parts : List Part :=
  [.answers, .bridge, .cols, .comps, .cores, .ctlCores, .eph, .hostMem, .icuTimers, .rings, .sync, .wakePending, .reg .ephLostCount, .reg .ephSeq, .reg .hifRingHead, .reg .icuPend, .reg .pwrStatus, .reg .seqReplayCycles, .reg .seqSlipCycles, .reg .seqState, .reg .seqWaitCycles]

theorem timeoutWaiter_effect (s : State) (w : Waiter) :
    Effect timeoutWaiter_parts s (timeoutWaiter s w) := by
  unfold timeoutWaiter
  repeat' (first
    | with_reducible exact Effect.refl _ _
    | (with_reducible show partsIn _ _ = true); decide +kernel
    | with_reducible apply Effect.ite
    | (with_reducible apply Effect.after; with_reducible apply companionGoes_effect)
    | (with_reducible apply Effect.after; with_reducible apply endStream_effect)
    | extract_lets
    | split
    | with_reducible apply effect_set_cols
    | (refine ⟨⟨?_⟩, id, id⟩; intro p hp; cases p <;> first | rfl | (intro _ _; rfl) | (refine absurd ?_ hp; decide)))

abbrev timeoutWait_parts : List Part :=
  [.answers, .bridge, .cols, .comps, .cores, .ctlCores, .eph, .hostMem, .icuTimers, .rings, .sync, .wakePending, .reg .ephLostCount, .reg .ephSeq, .reg .hifRingHead, .reg .icuPend, .reg .pwrStatus, .reg .seqReplayCycles, .reg .seqSlipCycles, .reg .seqState, .reg .seqWaitCycles, .reg .synTimeoutCount]

theorem timeoutWait_effect (s : State) (die : Nat) (w : WaitReq) :
    Effect timeoutWait_parts s (timeoutWait s die w) := by
  unfold timeoutWait
  repeat' (first
    | with_reducible exact Effect.refl _ _
    | (with_reducible show partsIn _ _ = true); decide +kernel
    | with_reducible apply Effect.ite
    | (with_reducible apply Effect.after; with_reducible apply timeoutWaiter_effect)
    | (with_reducible apply Effect.after; with_reducible apply bridgeSend_effect)
    | (with_reducible apply Effect.after; with_reducible apply irq_effect)
    | (with_reducible apply Effect.after; with_reducible apply bump_effect)
    | extract_lets
    | split
    | dsimp +zetaDelta only
    | (refine ⟨⟨?_⟩, id, id⟩; intro p hp; cases p <;> first | rfl | (intro _ _; rfl) | (refine absurd ?_ hp; decide)))

theorem setHeld_effect (s : State) (die key : Nat) (l : List WaitReq) :
    Effect [.sync] s (setHeld s die key l) := by
  unfold setHeld
  repeat' (first
    | with_reducible exact Effect.refl _ _
    | (with_reducible show partsIn _ _ = true); decide +kernel
    | with_reducible apply Effect.ite
    | (with_reducible apply Effect.after; with_reducible apply setSync_effect)
    | extract_lets
    | split
    | (refine ⟨⟨?_⟩, id, id⟩; intro p hp; cases p <;> first | rfl | (intro _ _; rfl) | (refine absurd ?_ hp; decide)))

abbrev examineObj_parts : List Part :=
  [.answers, .bridge, .cols, .comps, .cores, .ctlCores, .eph, .events, .flt, .freeCtr, .heldWrites, .hostMem, .icuTimers, .mem, .poison, .pwr, .scrub, .sync, .wakePending, .reg .arrPathStatus, .reg .ephLostCount, .reg .ephSeq, .reg .hbmFailCount, .reg .hbmOdeccCorrCount, .reg .hbmOdeccUncorrCount, .reg .hbmPcState, .reg .hbmPoisonCount, .reg .hbmRereadCount, .reg .hbmStatus, .reg .hifEventLostCount, .reg .hifRingHead, .reg .icuPend, .reg .spmFailCount, .reg .spmPoisonCount, .reg .spmRereadCount, .reg .synReleaseCount, .reg .synWaitTicks]

theorem examineObj_effect (s : State) (die : Nat) (far : Bool) (index : Nat) (o : SyncObj) (first : Option WaitReq) :
    Effect examineObj_parts s (examineObj s die far index o first) := by
  unfold examineObj
  repeat' (first
    | with_reducible exact Effect.refl _ _
    | (with_reducible show partsIn _ _ = true); decide +kernel
    | with_reducible apply Effect.ite
    | (with_reducible apply Effect.after; with_reducible apply setHeld_effect)
    | (with_reducible apply Effect.after; with_reducible apply releaseWait_effect)
    | (with_reducible apply Effect.after; with_reducible apply writeObj_effect)
    | (with_reducible apply Effect.trans; pick_goal 2; with_reducible apply Effect.foldl; intro _ _)
    | extract_lets
    | split
    | (refine ⟨⟨?_⟩, id, id⟩; intro p hp; cases p <;> first | rfl | (intro _ _; rfl) | (refine absurd ?_ hp; decide)))

theorem joinArriving_effect (s : State) (die : Nat) (w : WaitReq) :
    Effect [.sync] s (joinArriving s die w) := by
  unfold joinArriving
  repeat' (first
    | with_reducible exact Effect.refl _ _
    | (with_reducible show partsIn _ _ = true); decide +kernel
    | with_reducible apply Effect.ite
    | (with_reducible apply Effect.after; with_reducible apply setSync_effect)
    | extract_lets
    | split
    | (refine ⟨⟨?_⟩, id, id⟩; intro p hp; cases p <;> first | rfl | (intro _ _; rfl) | (refine absurd ?_ hp; decide)))

theorem sendWait_effect (s : State) (die : Nat) (w : WaitReq) :
    Effect [.bridge, .sync] s (sendWait s die w) := by
  unfold sendWait
  repeat' (first
    | with_reducible exact Effect.refl _ _
    | (with_reducible show partsIn _ _ = true); decide +kernel
    | with_reducible apply Effect.ite
    | (with_reducible apply Effect.after; with_reducible apply joinArriving_effect)
    | (with_reducible apply Effect.after; with_reducible apply bridgeSend_effect)
    | extract_lets
    | split
    | (refine ⟨⟨?_⟩, id, id⟩; intro p hp; cases p <;> first | rfl | (intro _ _; rfl) | (refine absurd ?_ hp; decide)))

end Sys2Proof.Machine
end

