-- ==== Sys2Proof/Laws/SyncEffect.lean ====
section
/-! SUPPORT. One effect lemma for each operation of Machine/Sync.lean: the parts it may change. -/

set_option maxRecDepth 2000

set_option Elab.async false
set_option linter.unusedTactic false
set_option linter.unreachableTactic false
set_option linter.unusedVariables false
set_option linter.unusedSimpArgs false

namespace Sys2Proof.Machine

theorem withdrawWait_effect (s : State) (die : Nat) (w : WaitReq) :
    Effect [.sync] s (withdrawWait s die w) := by
  unfold withdrawWait
  repeat' (first
    | with_reducible exact Effect.refl _ _
    | (with_reducible show partsIn _ _ = true); decide +kernel
    | with_reducible apply Effect.ite
    | (with_reducible apply Effect.after; with_reducible apply setHeld_effect)
    | (with_reducible apply Effect.after; with_reducible apply setSync_effect)
    | extract_lets
    | split
    | (refine ⟨⟨?_⟩, id, id⟩; intro p hp; cases p <;> first | rfl | (intro _ _; rfl) | (refine absurd ?_ hp; decide)))

end Sys2Proof.Machine
end

