-- ==== Sys2Proof/Laws/ColOpsEffect.lean ====
section
/-! SUPPORT. One effect lemma for each operation of Machine/ColOps.lean: the parts it may change. -/

set_option maxRecDepth 2000

set_option Elab.async false
set_option linter.unusedTactic false
set_option linter.unreachableTactic false
set_option linter.unusedVariables false
set_option linter.unusedSimpArgs false

namespace Sys2Proof.Machine

theorem setCol_effect (s : State) (k : Nat) (c : Collective) :
    Effect [.cols] s (setCol s k c) := by
  unfold setCol
  repeat' (first
    | with_reducible exact Effect.refl _ _
    | (with_reducible show partsIn _ _ = true); decide +kernel
    | with_reducible apply Effect.ite
    | extract_lets
    | split
    | with_reducible apply effect_set_cols
    | (refine ⟨⟨?_⟩, id, id⟩; intro p hp; cases p <;> first | rfl | (intro _ _; rfl) | (refine absurd ?_ hp; decide)))

theorem setActive_effect (s : State) (k : Nat) (on : Bool) :
    Effect [.reg .colStatus] s (setActive s k on) := by
  unfold setActive
  repeat' (first
    | with_reducible exact Effect.refl _ _
    | (with_reducible show partsIn _ _ = true); decide +kernel
    | with_reducible apply Effect.ite
    | (with_reducible apply Effect.after; with_reducible apply wf_effect)
    | extract_lets
    | split
    | (refine ⟨⟨?_⟩, id, id⟩; intro p hp; cases p <;> first | rfl | (intro _ _; rfl) | (refine absurd ?_ hp; decide)))

theorem colDrop_effect (s : State) (die : Nat) :
    Effect [.icuTimers, .wakePending, .reg .colDropCount, .reg .icuPend] s (colDrop s die) := by
  unfold colDrop
  repeat' (first
    | with_reducible exact Effect.refl _ _
    | (with_reducible show partsIn _ _ = true); decide +kernel
    | with_reducible apply Effect.ite
    | (with_reducible apply Effect.after; with_reducible apply irq_effect)
    | (with_reducible apply Effect.after; with_reducible apply bump_effect)
    | extract_lets
    | split
    | (refine ⟨⟨?_⟩, id, id⟩; intro p hp; cases p <;> first | rfl | (intro _ _; rfl) | (refine absurd ?_ hp; decide)))

theorem colAbort_effect (s : State) (die : Nat) :
    Effect [.icuTimers, .wakePending, .reg .colAbortCount, .reg .icuPend] s (colAbort s die) := by
  unfold colAbort
  repeat' (first
    | with_reducible exact Effect.refl _ _
    | (with_reducible show partsIn _ _ = true); decide +kernel
    | with_reducible apply Effect.ite
    | (with_reducible apply Effect.after; with_reducible apply irq_effect)
    | (with_reducible apply Effect.after; with_reducible apply bump_effect)
    | extract_lets
    | split
    | (refine ⟨⟨?_⟩, id, id⟩; intro p hp; cases p <;> first | rfl | (intro _ _; rfl) | (refine absurd ?_ hp; decide)))

theorem colRetry_effect (s : State) (die : Nat) :
    Effect [.icuTimers, .wakePending, .reg .colRetryCount, .reg .icuPend] s (colRetry s die) := by
  unfold colRetry
  repeat' (first
    | with_reducible exact Effect.refl _ _
    | (with_reducible show partsIn _ _ = true); decide +kernel
    | with_reducible apply Effect.ite
    | (with_reducible apply Effect.after; with_reducible apply irq_effect)
    | (with_reducible apply Effect.after; with_reducible apply bump_effect)
    | extract_lets
    | split
    | (refine ⟨⟨?_⟩, id, id⟩; intro p hp; cases p <;> first | rfl | (intro _ _; rfl) | (refine absurd ?_ hp; decide)))

abbrev ownCodes_parts : List Part :=
  [.eph, .events, .flt, .hostMem, .icuTimers, .poison, .scrub, .wakePending, .reg .arrPathStatus, .reg .ephLostCount, .reg .ephSeq, .reg .hbmFailCount, .reg .hbmOdeccCorrCount, .reg .hbmOdeccUncorrCount, .reg .hbmPcState, .reg .hbmRereadCount, .reg .hbmStatus, .reg .hifEventLostCount, .reg .hifRingHead, .reg .icuPend, .reg .spmFailCount, .reg .spmRereadCount]

theorem ownCodes_effect (s : State) (mf : MemFaults) (c : Collective) (seg q : Nat) :
    Effect ownCodes_parts s (ownCodes s mf c seg q).2 := by
  unfold ownCodes
  repeat' (first
    | with_reducible exact Effect.refl _ _
    | (with_reducible show partsIn _ _ = true); decide +kernel
    | with_reducible apply Effect.ite
    | (with_reducible apply Effect.after; with_reducible apply memRead_effect)
    | with_reducible refine Effect.after (Effect.snd (memRead_effect _ _ _ _) (by assumption)) ?_ ?_
    | (with_reducible apply Effect.after; with_reducible apply readEffects_effect)
    | extract_lets
    | split
    | (refine ⟨⟨?_⟩, id, id⟩; intro p hp; cases p <;> first | rfl | (intro _ _; rfl) | (refine absurd ?_ hp; decide)))

theorem sendLink_effect (s : State) (k : Nat) (c : Collective) (stage seg q : Nat) (codes : List Nat) :
    Effect [.flowsTx] s (sendLink s k c stage seg q codes) := by
  unfold sendLink
  repeat' (first
    | with_reducible exact Effect.refl _ _
    | (with_reducible show partsIn _ _ = true); decide +kernel
    | with_reducible apply Effect.ite
    | (with_reducible apply Effect.after; with_reducible apply queuePacket_effect)
    | extract_lets
    | split
    | (refine ⟨⟨?_⟩, id, id⟩; intro p hp; cases p <;> first | rfl | (intro _ _; rfl) | (refine absurd ?_ hp; decide)))

abbrev writeLink_parts : List Part :=
  [.cols, .cores, .eph, .events, .flt, .freeCtr, .heldWrites, .hostMem, .icuTimers, .mem, .poison, .scrub, .wakePending, .reg .arrPathStatus, .reg .ephLostCount, .reg .ephSeq, .reg .hbmFailCount, .reg .hbmOdeccCorrCount, .reg .hbmOdeccUncorrCount, .reg .hbmPcState, .reg .hbmPoisonCount, .reg .hbmRereadCount, .reg .hbmStatus, .reg .hifEventLostCount, .reg .hifRingHead, .reg .icuPend, .reg .spmFailCount, .reg .spmPoisonCount, .reg .spmRereadCount]

theorem writeLink_effect (s : State) (k : Nat) (c : Collective) (seg q : Nat) (codes : List Nat) (mf : MemFaults) :
    Effect writeLink_parts s (writeLink s k c seg q codes mf) := by
  unfold writeLink
  repeat' (first
    | with_reducible exact Effect.refl _ _
    | (with_reducible show partsIn _ _ = true); decide +kernel
    | with_reducible apply Effect.ite
    | (with_reducible apply Effect.after; with_reducible apply setCol_effect)
    | (with_reducible apply Effect.after; with_reducible apply memWrite_effect)
    | extract_lets
    | split
    | (refine ⟨⟨?_⟩, id, id⟩; intro p hp; cases p <;> first | rfl | (intro _ _; rfl) | (refine absurd ?_ hp; decide)))

theorem stopRun_effect (s : State) (k : Nat) (status : Nat) :
    Effect [.bridge, .cols, .flowsTx, .sync] s (stopRun s k status) := by
  unfold stopRun
  repeat' (first
    | with_reducible exact Effect.refl _ _
    | (with_reducible show partsIn _ _ = true); decide +kernel
    | with_reducible apply Effect.ite
    | (with_reducible apply Effect.after; with_reducible apply setCol_effect)
    | (with_reducible apply Effect.after; with_reducible apply withdrawWaits_effect)
    | extract_lets
    | split
    | with_reducible apply effect_set_flowsTx
    | (refine ⟨⟨?_⟩, id, id⟩; intro p hp; cases p <;> first | rfl | (intro _ _; rfl) | (refine absurd ?_ hp; decide)))

theorem sendAborts_effect (s : State) (k : Nat) (status : Nat) (gone : Option Nat) :
    Effect [.flowsTx, .icuTimers, .wakePending, .reg .colAbortCount, .reg .icuPend] s (sendAborts s k status gone) := by
  unfold sendAborts
  repeat' (first
    | with_reducible exact Effect.refl _ _
    | (with_reducible show partsIn _ _ = true); decide +kernel
    | with_reducible apply Effect.ite
    | (with_reducible apply Effect.after; with_reducible apply colAbort_effect)
    | (with_reducible apply Effect.after; with_reducible apply queuePacket_effect)
    | (with_reducible apply Effect.trans; pick_goal 2; with_reducible apply Effect.foldl; intro _ _)
    | extract_lets
    | split
    | (refine ⟨⟨?_⟩, id, id⟩; intro p hp; cases p <;> first | rfl | (intro _ _; rfl) | (refine absurd ?_ hp; decide)))

theorem runLinkLost_effect (s : State) (k : Nat) :
    Effect [.bridge, .cols, .flowsTx, .icuTimers, .sync, .wakePending, .reg .colAbortCount, .reg .icuPend] s (runLinkLost s k) := by
  unfold runLinkLost
  repeat' (first
    | with_reducible exact Effect.refl _ _
    | (with_reducible show partsIn _ _ = true); decide +kernel
    | with_reducible apply Effect.ite
    | (with_reducible apply Effect.after; with_reducible apply sendAborts_effect)
    | (with_reducible apply Effect.after; with_reducible apply stopRun_effect)
    | extract_lets
    | split
    | (refine ⟨⟨?_⟩, id, id⟩; intro p hp; cases p <;> first | rfl | (intro _ _; rfl) | (refine absurd ?_ hp; decide)))

theorem runFenced_effect (s : State) (k : Nat) :
    Effect [.bridge, .cols, .flowsTx, .icuTimers, .sync, .wakePending, .reg .colAbortCount, .reg .icuPend] s (runFenced s k) := by
  unfold runFenced
  repeat' (first
    | with_reducible exact Effect.refl _ _
    | (with_reducible show partsIn _ _ = true); decide +kernel
    | with_reducible apply Effect.ite
    | (with_reducible apply Effect.after; with_reducible apply sendAborts_effect)
    | (with_reducible apply Effect.after; with_reducible apply stopRun_effect)
    | extract_lets
    | split
    | (refine ⟨⟨?_⟩, id, id⟩; intro p hp; cases p <;> first | rfl | (intro _ _; rfl) | (refine absurd ?_ hp; decide)))

theorem runDataLost_effect (s : State) (k : Nat) :
    Effect [.bridge, .cols, .flowsTx, .sync] s (runDataLost s k) := by
  unfold runDataLost
  repeat' (first
    | with_reducible exact Effect.refl _ _
    | (with_reducible show partsIn _ _ = true); decide +kernel
    | with_reducible apply Effect.ite
    | (with_reducible apply Effect.after; with_reducible apply stopRun_effect)
    | extract_lets
    | split
    | (refine ⟨⟨?_⟩, id, id⟩; intro p hp; cases p <;> first | rfl | (intro _ _; rfl) | (refine absurd ?_ hp; decide)))

abbrev addRetries_parts : List Part :=
  [.bridge, .cols, .eph, .events, .flowsTx, .flt, .hostMem, .icuTimers, .sync, .wakePending, .reg .arrPathStatus, .reg .colAbortCount, .reg .colRetryCount, .reg .ephLostCount, .reg .ephSeq, .reg .hbmPcState, .reg .hbmStatus, .reg .hifEventLostCount, .reg .hifRingHead, .reg .icuPend]

theorem addRetries_effect (s : State) (k : Nat) (fails : Nat) :
    Effect addRetries_parts s (addRetries s k fails).2 := by
  unfold addRetries
  repeat' (first
    | with_reducible exact Effect.refl _ _
    | (with_reducible show partsIn _ _ = true); decide +kernel
    | with_reducible apply Effect.ite
    | (with_reducible apply Effect.after; with_reducible apply sendAborts_effect)
    | (with_reducible apply Effect.after; with_reducible apply stopRun_effect)
    | (with_reducible apply Effect.after; with_reducible apply colRetry_effect)
    | (with_reducible apply Effect.after; with_reducible apply exhaust_effect)
    | (with_reducible apply Effect.after; with_reducible apply transient_effect)
    | (with_reducible apply Effect.trans; pick_goal 2; with_reducible apply Effect.foldl; intro _ _)
    | extract_lets
    | split
    | (refine ⟨⟨?_⟩, id, id⟩; intro p hp; cases p <;> first | rfl | (intro _ _; rfl) | (refine absurd ?_ hp; decide)))

abbrev passSum_parts : List Part :=
  [.cols, .cores, .eph, .events, .flowsTx, .flt, .freeCtr, .heldWrites, .hostMem, .icuTimers, .mem, .poison, .scrub, .wakePending, .reg .arrPathStatus, .reg .ephLostCount, .reg .ephSeq, .reg .hbmFailCount, .reg .hbmOdeccCorrCount, .reg .hbmOdeccUncorrCount, .reg .hbmPcState, .reg .hbmPoisonCount, .reg .hbmRereadCount, .reg .hbmStatus, .reg .hifEventLostCount, .reg .hifRingHead, .reg .icuPend, .reg .spmFailCount, .reg .spmPoisonCount, .reg .spmRereadCount]

theorem passSum_effect (s : State) (k seg q : Nat) (codes : List Nat) (mf : MemFaults) :
    Effect passSum_parts s (passSum s k seg q codes mf) := by
  unfold passSum
  repeat' (first
    | with_reducible exact Effect.refl _ _
    | (with_reducible show partsIn _ _ = true); decide +kernel
    | with_reducible apply Effect.ite
    | (with_reducible apply Effect.after; with_reducible apply writeLink_effect)
    | (with_reducible apply Effect.after; with_reducible apply sendLink_effect)
    | extract_lets
    | split
    | (refine ⟨⟨?_⟩, id, id⟩; intro p hp; cases p <;> first | rfl | (intro _ _; rfl) | (refine absurd ?_ hp; decide)))

abbrev addPacket_parts : List Part :=
  [.bridge, .cols, .cores, .eph, .events, .flowsTx, .flt, .freeCtr, .heldWrites, .hostMem, .icuTimers, .mem, .poison, .scrub, .sync, .wakePending, .reg .arrPathStatus, .reg .colAbortCount, .reg .colRetryCount, .reg .ephLostCount, .reg .ephSeq, .reg .hbmFailCount, .reg .hbmOdeccCorrCount, .reg .hbmOdeccUncorrCount, .reg .hbmPcState, .reg .hbmPoisonCount, .reg .hbmRereadCount, .reg .hbmStatus, .reg .hifEventLostCount, .reg .hifRingHead, .reg .icuPend, .reg .spmFailCount, .reg .spmPoisonCount, .reg .spmRereadCount]

theorem addPacket_effect (s : State) (k : Nat) (c : Collective) (seg q : Nat) (sum : List Nat) (fails : Nat) (mf : MemFaults) :
    Effect addPacket_parts s (addPacket s k c seg q sum fails mf) := by
  unfold addPacket
  repeat' (first
    | with_reducible exact Effect.refl _ _
    | (with_reducible show partsIn _ _ = true); decide +kernel
    | with_reducible apply Effect.ite
    | (with_reducible apply Effect.after; with_reducible apply passSum_effect)
    | (with_reducible apply Effect.after; with_reducible apply addRetries_effect)
    | with_reducible refine Effect.after (Effect.snd (addRetries_effect _ _ _) (by assumption)) ?_ ?_
    | (with_reducible apply Effect.after; with_reducible apply runDataLost_effect)
    | (with_reducible apply Effect.after; with_reducible apply ownCodes_effect)
    | with_reducible refine Effect.after (Effect.snd (ownCodes_effect _ _ _ _ _) (by assumption)) ?_ ?_
    | (with_reducible apply Effect.after; with_reducible apply setCol_effect)
    | extract_lets
    | split
    | (refine ⟨⟨?_⟩, id, id⟩; intro p hp; cases p <;> first | rfl | (intro _ _; rfl) | (refine absurd ?_ hp; decide)))

abbrev gatherPacket_parts : List Part :=
  [.cols, .cores, .eph, .events, .flowsTx, .flt, .freeCtr, .heldWrites, .hostMem, .icuTimers, .mem, .poison, .scrub, .wakePending, .reg .arrPathStatus, .reg .ephLostCount, .reg .ephSeq, .reg .hbmFailCount, .reg .hbmOdeccCorrCount, .reg .hbmOdeccUncorrCount, .reg .hbmPcState, .reg .hbmPoisonCount, .reg .hbmRereadCount, .reg .hbmStatus, .reg .hifEventLostCount, .reg .hifRingHead, .reg .icuPend, .reg .spmFailCount, .reg .spmPoisonCount, .reg .spmRereadCount]

theorem gatherPacket_effect (s : State) (k : Nat) (c : Collective) (seg q : Nat) (codes : List Nat) (mf : MemFaults) :
    Effect gatherPacket_parts s (gatherPacket s k c seg q codes mf) := by
  unfold gatherPacket
  repeat' (first
    | with_reducible exact Effect.refl _ _
    | (with_reducible show partsIn _ _ = true); decide +kernel
    | with_reducible apply Effect.ite
    | (with_reducible apply Effect.after; with_reducible apply writeLink_effect)
    | (with_reducible apply Effect.after; with_reducible apply sendLink_effect)
    | extract_lets
    | split
    | (refine ⟨⟨?_⟩, id, id⟩; intro p hp; cases p <;> first | rfl | (intro _ _; rfl) | (refine absurd ?_ hp; decide)))

abbrev runPacket_parts : List Part :=
  [.bridge, .cols, .cores, .eph, .events, .flowsTx, .flt, .freeCtr, .heldWrites, .hostMem, .icuTimers, .mem, .poison, .scrub, .sync, .wakePending, .reg .arrPathStatus, .reg .colAbortCount, .reg .colDropCount, .reg .colRetryCount, .reg .ephLostCount, .reg .ephSeq, .reg .hbmFailCount, .reg .hbmOdeccCorrCount, .reg .hbmOdeccUncorrCount, .reg .hbmPcState, .reg .hbmPoisonCount, .reg .hbmRereadCount, .reg .hbmStatus, .reg .hifEventLostCount, .reg .hifRingHead, .reg .icuPend, .reg .spmFailCount, .reg .spmPoisonCount, .reg .spmRereadCount]

theorem runPacket_effect (s : State) (k : Nat) (p : Packet) (fails : Nat) (mf : MemFaults) :
    Effect runPacket_parts s (runPacket s k p fails mf) := by
  unfold runPacket
  repeat' (first
    | with_reducible exact Effect.refl _ _
    | (with_reducible show partsIn _ _ = true); decide +kernel
    | with_reducible apply Effect.ite
    | (with_reducible apply Effect.after; with_reducible apply gatherPacket_effect)
    | (with_reducible apply Effect.after; with_reducible apply addPacket_effect)
    | (with_reducible apply Effect.after; with_reducible apply colDrop_effect)
    | extract_lets
    | split
    | (refine ⟨⟨?_⟩, id, id⟩; intro p hp; cases p <;> first | rfl | (intro _ _; rfl) | (refine absurd ?_ hp; decide)))

theorem startWait_effect (s : State) (k : Nat) :
    Effect [.bridge, .cols, .sync, .reg .synReleaseCount] s (startWait s k) := by
  unfold startWait
  repeat' (first
    | with_reducible exact Effect.refl _ _
    | (with_reducible show partsIn _ _ = true); decide +kernel
    | with_reducible apply Effect.ite
    | (with_reducible apply Effect.after; with_reducible apply setCol_effect)
    | (with_reducible apply Effect.after; with_reducible apply sendWait_effect)
    | (with_reducible apply Effect.after; with_reducible apply bump_effect)
    | extract_lets
    | split
    | (refine ⟨⟨?_⟩, id, id⟩; intro p hp; cases p <;> first | rfl | (intro _ _; rfl) | (refine absurd ?_ hp; decide)))

theorem earlyAbort_effect (s : State) (k : Nat) :
    Effect [.bridge, .cols, .flowsTx, .sync] s (earlyAbort s k) := by
  unfold earlyAbort
  repeat' (first
    | with_reducible exact Effect.refl _ _
    | (with_reducible show partsIn _ _ = true); decide +kernel
    | with_reducible apply Effect.ite
    | (with_reducible apply Effect.after; with_reducible apply stopRun_effect)
    | extract_lets
    | split
    | (refine ⟨⟨?_⟩, id, id⟩; intro p hp; cases p <;> first | rfl | (intro _ _; rfl) | (refine absurd ?_ hp; decide)))

theorem nextRun_effect (s : State) (k : Nat) :
    Effect [.bridge, .cols, .flowsTx, .sync, .reg .synReleaseCount] s (nextRun s k) := by
  unfold nextRun
  repeat' (first
    | with_reducible exact Effect.refl _ _
    | (with_reducible show partsIn _ _ = true); decide +kernel
    | with_reducible apply Effect.ite
    | (with_reducible apply Effect.after; with_reducible apply earlyAbort_effect)
    | (with_reducible apply Effect.after; with_reducible apply startWait_effect)
    | extract_lets
    | split
    | (refine ⟨⟨?_⟩, id, id⟩; intro p hp; cases p <;> first | rfl | (intro _ _; rfl) | (refine absurd ?_ hp; decide)))

abbrev takeWaiting_parts : List Part :=
  [.colEnded, .colWaiting, .cols, .eph, .hostMem, .icuTimers, .wakePending, .reg .colDropCount, .reg .ephLostCount, .reg .ephSeq, .reg .hifRingHead, .reg .icuPend]

theorem takeWaiting_effect (s : State) (k : Nat) :
    Effect takeWaiting_parts s (takeWaiting s k) := by
  unfold takeWaiting
  repeat' (first
    | with_reducible exact Effect.refl _ _
    | (with_reducible show partsIn _ _ = true); decide +kernel
    | with_reducible apply Effect.ite
    | (with_reducible apply Effect.after; with_reducible apply colDrop_effect)
    | (with_reducible apply Effect.after; with_reducible apply dropRec_effect)
    | (with_reducible apply Effect.trans; pick_goal 2; with_reducible apply Effect.foldl; intro _ _)
    | extract_lets
    | split
    | with_reducible apply effect_set_cols_colWaiting_colEnded
    | (refine ⟨⟨?_⟩, id, id⟩; intro p hp; cases p <;> first | rfl | (intro _ _; rfl) | (refine absurd ?_ hp; decide)))

abbrev acceptCollective_parts : List Part :=
  [.bridge, .colEnded, .colWaiting, .cols, .eph, .events, .flowsTx, .flt, .hostMem, .icuTimers, .poison, .rings, .scrub, .sync, .wakePending, .reg .arrPathStatus, .reg .colDropCount, .reg .colStatus, .reg .ephLostCount, .reg .ephSeq, .reg .hbmFailCount, .reg .hbmOdeccCorrCount, .reg .hbmOdeccUncorrCount, .reg .hbmPcState, .reg .hbmRereadCount, .reg .hbmStatus, .reg .hifEventLostCount, .reg .hifRingHead, .reg .icuPend, .reg .pwrStatus, .reg .spmFailCount, .reg .spmRereadCount, .reg .synReleaseCount]

theorem acceptCollective_effect (s : State) (die r : Nat) (op : Nat) (mf : MemFaults) :
    Effect acceptCollective_parts s (acceptCollective s die r op mf) := by
  unfold acceptCollective
  repeat' (first
    | with_reducible exact Effect.refl _ _
    | (with_reducible show partsIn _ _ = true); decide +kernel
    | with_reducible apply Effect.ite
    | (with_reducible apply Effect.after; with_reducible apply takeWaiting_effect)
    | (with_reducible apply Effect.after; with_reducible apply nextRun_effect)
    | (with_reducible apply Effect.after; with_reducible apply setActive_effect)
    | (with_reducible apply Effect.after; with_reducible apply setCol_effect)
    | (with_reducible apply Effect.after; with_reducible apply keepActive_effect)
    | with_reducible refine Effect.after (takeDesc_effect (by assumption)) ?_ ?_
    | (with_reducible apply Effect.after; with_reducible apply ringAdvance_effect)
    | (with_reducible apply Effect.after; with_reducible apply finishWith_effect)
    | (with_reducible apply Effect.after; with_reducible apply finish_effect)
    | (with_reducible apply Effect.after; with_reducible apply settlePower_effect)
    | (with_reducible apply Effect.after; with_reducible apply memRead_effect)
    | with_reducible refine Effect.after (Effect.snd (memRead_effect _ _ _ _) (by assumption)) ?_ ?_
    | (with_reducible apply Effect.after; with_reducible apply readEffects_effect)
    | extract_lets
    | split
    | (refine ⟨⟨?_⟩, id, id⟩; intro p hp; cases p <;> first | rfl | (intro _ _; rfl) | (refine absurd ?_ hp; decide)))

abbrev firstPacket_parts : List Part :=
  [.bridge, .cols, .cores, .eph, .events, .flowsTx, .flt, .freeCtr, .heldWrites, .hostMem, .icuTimers, .mem, .poison, .scrub, .sync, .wakePending, .reg .arrPathStatus, .reg .ephLostCount, .reg .ephSeq, .reg .hbmFailCount, .reg .hbmOdeccCorrCount, .reg .hbmOdeccUncorrCount, .reg .hbmPcState, .reg .hbmPoisonCount, .reg .hbmRereadCount, .reg .hbmStatus, .reg .hifEventLostCount, .reg .hifRingHead, .reg .icuPend, .reg .spmFailCount, .reg .spmPoisonCount, .reg .spmRereadCount]

theorem firstPacket_effect (mf : MemFaults) (k : Nat) (s : State) (q : Nat) :
    Effect firstPacket_parts s (firstPacket mf k s q) := by
  unfold firstPacket
  repeat' (first
    | with_reducible exact Effect.refl _ _
    | (with_reducible show partsIn _ _ = true); decide +kernel
    | with_reducible apply Effect.ite
    | (with_reducible apply Effect.after; with_reducible apply runDataLost_effect)
    | (with_reducible apply Effect.after; with_reducible apply writeLink_effect)
    | (with_reducible apply Effect.after; with_reducible apply sendLink_effect)
    | (with_reducible apply Effect.after; with_reducible apply ownCodes_effect)
    | with_reducible refine Effect.after (Effect.snd (ownCodes_effect _ _ _ _ _) (by assumption)) ?_ ?_
    | (with_reducible apply Effect.after; with_reducible apply setCol_effect)
    | extract_lets
    | split
    | (refine ⟨⟨?_⟩, id, id⟩; intro p hp; cases p <;> first | rfl | (intro _ _; rfl) | (refine absurd ?_ hp; decide)))

abbrev mcastPacket_parts : List Part :=
  [.bridge, .cols, .eph, .events, .flowsTx, .flt, .hostMem, .icuTimers, .poison, .scrub, .sync, .wakePending, .reg .arrPathStatus, .reg .ephLostCount, .reg .ephSeq, .reg .hbmFailCount, .reg .hbmOdeccCorrCount, .reg .hbmOdeccUncorrCount, .reg .hbmPcState, .reg .hbmRereadCount, .reg .hbmStatus, .reg .hifEventLostCount, .reg .hifRingHead, .reg .icuPend, .reg .spmFailCount, .reg .spmRereadCount]

theorem mcastPacket_effect (mf : MemFaults) (k : Nat) (s : State) (q : Nat) :
    Effect mcastPacket_parts s (mcastPacket mf k s q) := by
  unfold mcastPacket
  repeat' (first
    | with_reducible exact Effect.refl _ _
    | (with_reducible show partsIn _ _ = true); decide +kernel
    | with_reducible apply Effect.ite
    | (with_reducible apply Effect.after; with_reducible apply runDataLost_effect)
    | (with_reducible apply Effect.after; with_reducible apply queuePacket_effect)
    | (with_reducible apply Effect.after; with_reducible apply memRead_effect)
    | with_reducible refine Effect.after (Effect.snd (memRead_effect _ _ _ _) (by assumption)) ?_ ?_
    | (with_reducible apply Effect.after; with_reducible apply readEffects_effect)
    | extract_lets
    | split
    | (refine ⟨⟨?_⟩, id, id⟩; intro p hp; cases p <;> first | rfl | (intro _ _; rfl) | (refine absurd ?_ hp; decide)))

theorem noteEnded_effect (s : State) (die : Nat) (e : Nat × Bool) :
    Effect [.colEnded] s (noteEnded s die e) := by
  unfold noteEnded
  repeat' (first
    | with_reducible exact Effect.refl _ _
    | (with_reducible show partsIn _ _ = true); decide +kernel
    | with_reducible apply Effect.ite
    | extract_lets
    | split
    | with_reducible apply effect_set_colEnded
    | (refine ⟨⟨?_⟩, id, id⟩; intro p hp; cases p <;> first | rfl | (intro _ _; rfl) | (refine absurd ?_ hp; decide)))

abbrev endRun_parts : List Part :=
  [.bridge, .colEnded, .cols, .eph, .flowsTx, .hostMem, .icuTimers, .rings, .sync, .wakePending, .reg .colPartialCount, .reg .colRunCount, .reg .colStatus, .reg .ephLostCount, .reg .ephSeq, .reg .hifRingHead, .reg .icuPend, .reg .pwrStatus, .reg .synLostCount, .reg .synReleaseCount]

theorem endRun_effect (s : State) (k : Nat) (c : Collective) (status : Nat) :
    Effect endRun_parts s (endRun s k c status) := by
  unfold endRun
  repeat' (first
    | with_reducible exact Effect.refl _ _
    | (with_reducible show partsIn _ _ = true); decide +kernel
    | with_reducible apply Effect.ite
    | (with_reducible apply Effect.after; with_reducible apply noteEnded_effect)
    | (with_reducible apply Effect.after; with_reducible apply nextRun_effect)
    | (with_reducible apply Effect.after; with_reducible apply setActive_effect)
    | (with_reducible apply Effect.after; with_reducible apply setCol_effect)
    | (with_reducible apply Effect.after; with_reducible apply sendSignal_effect)
    | (with_reducible apply Effect.after; with_reducible apply dropActive_effect)
    | (with_reducible apply Effect.after; with_reducible apply ringAdvance_effect)
    | (with_reducible apply Effect.after; with_reducible apply queueCompletion_effect)
    | (with_reducible apply Effect.after; with_reducible apply settlePower_effect)
    | (with_reducible apply Effect.after; with_reducible apply emit_effect)
    | (with_reducible apply Effect.after; with_reducible apply irq_effect)
    | (with_reducible apply Effect.after; with_reducible apply bump_effect)
    | extract_lets
    | split
    | with_reducible apply effect_set_cols
    | (refine ⟨⟨?_⟩, id, id⟩; intro p hp; cases p <;> first | rfl | (intro _ _; rfl) | (refine absurd ?_ hp; decide)))

end Sys2Proof.Machine
end

