-- ==== Sys2Proof/Laws/FabRecvEffect.lean ====
section
/-! SUPPORT. One effect lemma for each operation of Machine/FabRecv.lean: the parts it may change. -/

set_option maxRecDepth 2000

set_option Elab.async false
set_option linter.unusedTactic false
set_option linter.unreachableTactic false
set_option linter.unusedVariables false
set_option linter.unusedSimpArgs false

namespace Sys2Proof.Machine

theorem dropMisroute_effect (s : State) (die : Nat) :
    Effect [.icuTimers, .wakePending, .reg .fabMisrouteCount, .reg .icuPend] s (dropMisroute s die) := by
  unfold dropMisroute
  repeat' (first
    | with_reducible exact Effect.refl _ _
    | (with_reducible show partsIn _ _ = true); decide +kernel
    | with_reducible apply Effect.ite
    | (with_reducible apply Effect.after; with_reducible apply irq_effect)
    | (with_reducible apply Effect.after; with_reducible apply bump_effect)
    | extract_lets
    | split
    | (refine ⟨⟨?_⟩, id, id⟩; intro p hp; cases p <;> first | rfl | (intro _ _; rfl) | (refine absurd ?_ hp; decide)))

theorem dropStale_effect (s : State) (die : Nat) :
    Effect [.icuTimers, .wakePending, .reg .fabStaleCount, .reg .icuPend] s (dropStale s die) := by
  unfold dropStale
  repeat' (first
    | with_reducible exact Effect.refl _ _
    | (with_reducible show partsIn _ _ = true); decide +kernel
    | with_reducible apply Effect.ite
    | (with_reducible apply Effect.after; with_reducible apply irq_effect)
    | (with_reducible apply Effect.after; with_reducible apply bump_effect)
    | extract_lets
    | split
    | (refine ⟨⟨?_⟩, id, id⟩; intro p hp; cases p <;> first | rfl | (intro _ _; rfl) | (refine absurd ?_ hp; decide)))

theorem dropDup_effect (s : State) (die : Nat) :
    Effect [.icuTimers, .wakePending, .reg .fabDupCount, .reg .icuPend] s (dropDup s die) := by
  unfold dropDup
  repeat' (first
    | with_reducible exact Effect.refl _ _
    | (with_reducible show partsIn _ _ = true); decide +kernel
    | with_reducible apply Effect.ite
    | (with_reducible apply Effect.after; with_reducible apply irq_effect)
    | (with_reducible apply Effect.after; with_reducible apply bump_effect)
    | extract_lets
    | split
    | (refine ⟨⟨?_⟩, id, id⟩; intro p hp; cases p <;> first | rfl | (intro _ _; rfl) | (refine absurd ?_ hp; decide)))

abbrev takeHeader_parts : List Part :=
  [.eph, .hostMem, .icuTimers, .ports, .wakePending, .reg .ephLostCount, .reg .ephSeq, .reg .fabSampleSkipCount, .reg .hifRingHead, .reg .icuPend, .reg .sidClampCount, .reg .sidCount]

theorem takeHeader_effect (s : State) (die p : Nat) (pkt : Packet) :
    Effect takeHeader_parts s (takeHeader s die p pkt) := by
  unfold takeHeader
  repeat' (first
    | with_reducible exact Effect.refl _ _
    | (with_reducible show partsIn _ _ = true); decide +kernel
    | with_reducible apply Effect.ite
    | (with_reducible apply Effect.after; with_reducible apply arriveStamp_effect)
    | (with_reducible apply Effect.after; with_reducible apply sampleHeader_effect)
    | extract_lets
    | split
    | (refine ⟨⟨?_⟩, id, id⟩; intro p hp; cases p <;> first | rfl | (intro _ _; rfl) | (refine absurd ?_ hp; decide)))

abbrev headerChecks_parts : List Part :=
  [.eph, .hostMem, .icuTimers, .wakePending, .reg .ephLostCount, .reg .ephSeq, .reg .fabMisrouteCount, .reg .fabStaleCount, .reg .hifRingHead, .reg .icuPend]

theorem headerChecks_effect (s : State) (die p : Nat) (pkt : Packet) :
    Effect headerChecks_parts s (headerChecks s die p pkt).2 := by
  unfold headerChecks
  repeat' (first
    | with_reducible exact Effect.refl _ _
    | (with_reducible show partsIn _ _ = true); decide +kernel
    | with_reducible apply Effect.ite
    | (with_reducible apply Effect.after; with_reducible apply dropStale_effect)
    | (with_reducible apply Effect.after; with_reducible apply dropMisroute_effect)
    | (with_reducible apply Effect.after; with_reducible apply dropRec_effect)
    | extract_lets
    | split
    | (refine ⟨⟨?_⟩, id, id⟩; intro p hp; cases p <;> first | rfl | (intro _ _; rfl) | (refine absurd ?_ hp; decide)))

theorem sendAck_effect (s : State) (key fseq : Nat) :
    Effect [.flowsRx, .flowsTx] s (sendAck s key fseq) := by
  unfold sendAck
  repeat' (first
    | with_reducible exact Effect.refl _ _
    | (with_reducible show partsIn _ _ = true); decide +kernel
    | with_reducible apply Effect.ite
    | (with_reducible apply Effect.after; with_reducible apply queuePacket_effect)
    | (with_reducible apply Effect.after; with_reducible apply setFlowRx_effect)
    | extract_lets
    | split
    | (refine ⟨⟨?_⟩, id, id⟩; intro p hp; cases p <;> first | rfl | (intro _ _; rfl) | (refine absurd ?_ hp; decide)))

theorem acceptSeq_effect (s : State) (key : Nat) (pkt : Packet) :
    Effect [.flowsRx, .flowsTx] s (acceptSeq s key pkt) := by
  unfold acceptSeq
  repeat' (first
    | with_reducible exact Effect.refl _ _
    | (with_reducible show partsIn _ _ = true); decide +kernel
    | with_reducible apply Effect.ite
    | (with_reducible apply Effect.after; with_reducible apply sendAck_effect)
    | (with_reducible apply Effect.after; with_reducible apply setFlowRx_effect)
    | extract_lets
    | split
    | (refine ⟨⟨?_⟩, id, id⟩; intro p hp; cases p <;> first | rfl | (intro _ _; rfl) | (refine absurd ?_ hp; decide)))

theorem orderPacket_drain_effect (n : Nat) : ∀ (key : Nat) (p : Packet) (s : State),
    Effect [.flowsRx, .flowsTx, .icuTimers, .wakePending, .reg .fabDupCount, .reg .icuPend] s (orderPacket.drain n key p s).2 := by
  induction n with
  | zero => intros; unfold orderPacket.drain; exact Effect.refl _ _
  | succ n ih =>
    intros
    unfold orderPacket.drain
    extract_lets
    split
    · exact (acceptSeq_effect _ _ _).mono (by decide)
    · refine Effect.trans ?_ (ih _ _ _)
      refine Effect.trans ?_ ((setFlowRx_effect _ _ _).mono (by decide))
      exact (acceptSeq_effect _ _ _).mono (by decide)

theorem orderPacket_effect (s : State) (die : Nat) (pkt : Packet) : Effect [.flowsRx, .flowsTx, .icuTimers, .wakePending, .reg .fabDupCount, .reg .icuPend] s (orderPacket s die pkt).2 := by
  unfold orderPacket
  extract_lets
  repeat' split
  · exact orderPacket_drain_effect _ _ _ _
  · exact Effect.refl _ _
  · exact Effect.refl _ _
  · exact (setFlowRx_effect _ _ _).mono (by decide)
  · exact ((dropDup_effect _ _).mono (by decide)).trans ((sendAck_effect _ _ _).mono (by decide))

abbrev dropDigest_parts : List Part :=
  [.eph, .hostMem, .icuTimers, .wakePending, .reg .colDropCount, .reg .ephLostCount, .reg .ephSeq, .reg .hifRingHead, .reg .icuPend]

theorem dropDigest_effect (s : State) (die p : Nat) (pkt : Packet) :
    Effect dropDigest_parts s (dropDigest s die p pkt) := by
  unfold dropDigest
  repeat' (first
    | with_reducible exact Effect.refl _ _
    | (with_reducible show partsIn _ _ = true); decide +kernel
    | with_reducible apply Effect.ite
    | (with_reducible apply Effect.after; with_reducible apply colDrop_effect)
    | (with_reducible apply Effect.after; with_reducible apply dropRec_effect)
    | extract_lets
    | split
    | (refine ⟨⟨?_⟩, id, id⟩; intro p hp; cases p <;> first | rfl | (intro _ _; rfl) | (refine absurd ?_ hp; decide)))

theorem keepPacket_effect (s : State) (k : Nat) (pkt : Packet) :
    Effect [.cols] s (keepPacket s k pkt) := by
  unfold keepPacket
  repeat' (first
    | with_reducible exact Effect.refl _ _
    | (with_reducible show partsIn _ _ = true); decide +kernel
    | with_reducible apply Effect.ite
    | (with_reducible apply Effect.after; with_reducible apply setCol_effect)
    | extract_lets
    | split
    | (refine ⟨⟨?_⟩, id, id⟩; intro p hp; cases p <;> first | rfl | (intro _ _; rfl) | (refine absurd ?_ hp; decide)))

theorem keepWaiting_effect (s : State) (die : Nat) (pkt : Packet) :
    Effect [.colWaiting] s (keepWaiting s die pkt) := by
  unfold keepWaiting
  repeat' (first
    | with_reducible exact Effect.refl _ _
    | (with_reducible show partsIn _ _ = true); decide +kernel
    | with_reducible apply Effect.ite
    | extract_lets
    | split
    | with_reducible apply effect_set_colWaiting
    | (refine ⟨⟨?_⟩, id, id⟩; intro p hp; cases p <;> first | rfl | (intro _ _; rfl) | (refine absurd ?_ hp; decide)))

abbrev deliverData_parts : List Part :=
  [.bridge, .colWaiting, .cols, .cores, .eph, .events, .flowsTx, .flt, .freeCtr, .heldWrites, .hostMem, .icuTimers, .mem, .poison, .scrub, .sync, .wakePending, .reg .arrPathStatus, .reg .colAbortCount, .reg .colDropCount, .reg .colRetryCount, .reg .ephLostCount, .reg .ephSeq, .reg .hbmFailCount, .reg .hbmOdeccCorrCount, .reg .hbmOdeccUncorrCount, .reg .hbmPcState, .reg .hbmPoisonCount, .reg .hbmRereadCount, .reg .hbmStatus, .reg .hifEventLostCount, .reg .hifRingHead, .reg .icuPend, .reg .spmFailCount, .reg .spmPoisonCount, .reg .spmRereadCount]

theorem deliverData_effect (s : State) (die p : Nat) (pkt : Packet) (fails : Nat) (mf : MemFaults) :
    Effect deliverData_parts s (deliverData s die p pkt fails mf) := by
  unfold deliverData
  repeat' (first
    | with_reducible exact Effect.refl _ _
    | (with_reducible show partsIn _ _ = true); decide +kernel
    | with_reducible apply Effect.ite
    | (with_reducible apply Effect.after; with_reducible apply keepWaiting_effect)
    | (with_reducible apply Effect.after; with_reducible apply keepPacket_effect)
    | (with_reducible apply Effect.after; with_reducible apply dropDigest_effect)
    | (with_reducible apply Effect.after; with_reducible apply runPacket_effect)
    | extract_lets
    | split
    | (refine ⟨⟨?_⟩, id, id⟩; intro p hp; cases p <;> first | rfl | (intro _ _; rfl) | (refine absurd ?_ hp; decide)))

abbrev deliverAbort_parts : List Part :=
  [.bridge, .colWaiting, .cols, .eph, .flowsTx, .hostMem, .icuTimers, .sync, .wakePending, .reg .colAbortCount, .reg .colDropCount, .reg .ephLostCount, .reg .ephSeq, .reg .hifRingHead, .reg .icuPend]

theorem deliverAbort_effect (s : State) (die p : Nat) (pkt : Packet) :
    Effect deliverAbort_parts s (deliverAbort s die p pkt) := by
  unfold deliverAbort
  repeat' (first
    | with_reducible exact Effect.refl _ _
    | (with_reducible show partsIn _ _ = true); decide +kernel
    | with_reducible apply Effect.ite
    | (with_reducible apply Effect.after; with_reducible apply keepWaiting_effect)
    | (with_reducible apply Effect.after; with_reducible apply keepPacket_effect)
    | (with_reducible apply Effect.after; with_reducible apply dropDigest_effect)
    | (with_reducible apply Effect.after; with_reducible apply stopRun_effect)
    | (with_reducible apply Effect.after; with_reducible apply colAbort_effect)
    | extract_lets
    | split
    | (refine ⟨⟨?_⟩, id, id⟩; intro p hp; cases p <;> first | rfl | (intro _ _; rfl) | (refine absurd ?_ hp; decide)))

abbrev deliverPacketSignal_parts : List Part :=
  [.bridge, .eph, .hostMem, .icuTimers, .sync, .wakePending, .reg .ephLostCount, .reg .ephSeq, .reg .hifRingHead, .reg .icuPend, .reg .synLostCount]

theorem deliverPacketSignal_effect (s : State) (die : Nat) (pkt : Packet) :
    Effect deliverPacketSignal_parts s (deliverPacketSignal s die pkt) := by
  unfold deliverPacketSignal
  repeat' (first
    | with_reducible exact Effect.refl _ _
    | (with_reducible show partsIn _ _ = true); decide +kernel
    | with_reducible apply Effect.ite
    | (with_reducible apply Effect.after; with_reducible apply deliverSignal_effect)
    | (with_reducible apply Effect.after; with_reducible apply signalLost_effect)
    | extract_lets
    | split
    | (refine ⟨⟨?_⟩, id, id⟩; intro p hp; cases p <;> first | rfl | (intro _ _; rfl) | (refine absurd ?_ hp; decide)))

abbrev mcastDone_parts : List Part :=
  [.bridge, .eph, .flowsTx, .hostMem, .icuTimers, .sync, .wakePending, .reg .ephLostCount, .reg .ephSeq, .reg .hifRingHead, .reg .icuPend, .reg .synLostCount]

theorem mcastDone_effect (s : State) (die : Nat) (pkt : Packet) (run : McastRun) :
    Effect mcastDone_parts s (mcastDone s die pkt run) := by
  unfold mcastDone
  repeat' (first
    | with_reducible exact Effect.refl _ _
    | (with_reducible show partsIn _ _ = true); decide +kernel
    | with_reducible apply Effect.ite
    | (with_reducible apply Effect.after; with_reducible apply sendSignal_effect)
    | (with_reducible apply Effect.after; with_reducible apply respond_effect)
    | extract_lets
    | split
    | (refine ⟨⟨?_⟩, id, id⟩; intro p hp; cases p <;> first | rfl | (intro _ _; rfl) | (refine absurd ?_ hp; decide)))

abbrev deliverMcast_parts : List Part :=
  [.bridge, .cores, .eph, .events, .flowsTx, .flt, .freeCtr, .heldWrites, .hostMem, .icuTimers, .mcasts, .mem, .poison, .scrub, .sync, .wakePending, .reg .arrPathStatus, .reg .ephLostCount, .reg .ephSeq, .reg .hbmFailCount, .reg .hbmOdeccCorrCount, .reg .hbmOdeccUncorrCount, .reg .hbmPcState, .reg .hbmPoisonCount, .reg .hbmRereadCount, .reg .hbmStatus, .reg .hifEventLostCount, .reg .hifRingHead, .reg .icuPend, .reg .spmFailCount, .reg .spmPoisonCount, .reg .spmRereadCount, .reg .synLostCount]

theorem deliverMcast_effect (s : State) (die : Nat) (pkt : Packet) (run : McastRun) (mf : MemFaults) :
    Effect deliverMcast_parts s (deliverMcast s die pkt run mf) := by
  unfold deliverMcast
  repeat' (first
    | with_reducible exact Effect.refl _ _
    | (with_reducible show partsIn _ _ = true); decide +kernel
    | with_reducible apply Effect.ite
    | (with_reducible apply Effect.after; with_reducible apply mcastDone_effect)
    | (with_reducible apply Effect.after; with_reducible apply respond_effect)
    | (with_reducible apply Effect.after; with_reducible apply memWrite_effect)
    | (with_reducible apply Effect.after; with_reducible apply refusedRec_effect)
    | extract_lets
    | split
    | with_reducible apply effect_set_mcasts
    | (refine ⟨⟨?_⟩, id, id⟩; intro p hp; cases p <;> first | rfl | (intro _ _; rfl) | (refine absurd ?_ hp; decide)))

abbrev mcastSettle_parts : List Part :=
  [.bridge, .eph, .flowsTx, .hostMem, .icuTimers, .mcasts, .sync, .wakePending, .reg .ephLostCount, .reg .ephSeq, .reg .hifRingHead, .reg .icuPend, .reg .synLostCount]

theorem mcastSettle_effect (s : State) :
    Effect mcastSettle_parts s (mcastSettle s) := by
  unfold mcastSettle
  repeat' (first
    | with_reducible exact Effect.refl _ _
    | (with_reducible show partsIn _ _ = true); decide +kernel
    | with_reducible apply Effect.ite
    | (with_reducible apply Effect.after; with_reducible apply mcastDone_effect)
    | (with_reducible apply Effect.trans; pick_goal 2; with_reducible apply Effect.foldl; intro _ _)
    | extract_lets
    | split
    | with_reducible apply effect_set_mcasts
    | (refine ⟨⟨?_⟩, id, id⟩; intro p hp; cases p <;> first | rfl | (intro _ _; rfl) | (refine absurd ?_ hp; decide)))

theorem noteMcast_effect (s : State) (die : Nat) (pkt : Packet) (run : McastRun) :
    Effect [.mcasts] s (noteMcast s die pkt run) := by
  unfold noteMcast
  repeat' (first
    | with_reducible exact Effect.refl _ _
    | (with_reducible show partsIn _ _ = true); decide +kernel
    | with_reducible apply Effect.ite
    | extract_lets
    | split
    | with_reducible apply effect_set_mcasts
    | (refine ⟨⟨?_⟩, id, id⟩; intro p hp; cases p <;> first | rfl | (intro _ _; rfl) | (refine absurd ?_ hp; decide)))

abbrev deliverBridge_parts : List Part :=
  [.bridge, .colWaiting, .cols, .cores, .eph, .events, .flowsTx, .flt, .freeCtr, .heldWrites, .hostMem, .icuTimers, .mem, .poison, .scrub, .sync, .wakePending, .reg .arrPathStatus, .reg .colAbortCount, .reg .colDropCount, .reg .colRetryCount, .reg .ephLostCount, .reg .ephSeq, .reg .hbmFailCount, .reg .hbmOdeccCorrCount, .reg .hbmOdeccUncorrCount, .reg .hbmPcState, .reg .hbmPoisonCount, .reg .hbmRereadCount, .reg .hbmStatus, .reg .hifEventLostCount, .reg .hifRingHead, .reg .icuPend, .reg .sidClampCount, .reg .sidCount, .reg .spmFailCount, .reg .spmPoisonCount, .reg .spmRereadCount]

theorem deliverBridge_effect (s : State) (die : Nat) (pkt : Packet) (fails : Nat) (mf : MemFaults) :
    Effect deliverBridge_parts s (deliverBridge s die pkt fails mf) := by
  unfold deliverBridge
  repeat' (first
    | with_reducible exact Effect.refl _ _
    | (with_reducible show partsIn _ _ = true); decide +kernel
    | with_reducible apply Effect.ite
    | (with_reducible apply Effect.after; with_reducible apply deliverAbort_effect)
    | (with_reducible apply Effect.after; with_reducible apply deliverData_effect)
    | (with_reducible apply Effect.after; with_reducible apply arriveStamp_effect)
    | extract_lets
    | split
    | (refine ⟨⟨?_⟩, id, id⟩; intro p hp; cases p <;> first | rfl | (intro _ _; rfl) | (refine absurd ?_ hp; decide)))

abbrev flowLost_parts : List Part :=
  [.bridge, .cols, .eph, .flowsTx, .hostMem, .icuTimers, .sync, .wakePending, .reg .colAbortCount, .reg .ephLostCount, .reg .ephSeq, .reg .fabPortOutstanding, .reg .hifRingHead, .reg .icuPend, .reg .synLostCount]

theorem flowLost_effect (s : State) (key : Nat) :
    Effect flowLost_parts s (flowLost s key) := by
  unfold flowLost
  repeat' (first
    | with_reducible exact Effect.refl _ _
    | (with_reducible show partsIn _ _ = true); decide +kernel
    | with_reducible apply Effect.ite
    | (with_reducible apply Effect.after; with_reducible apply runLinkLost_effect)
    | (with_reducible apply Effect.after; with_reducible apply signalLost_effect)
    | (with_reducible apply Effect.after; with_reducible apply settleOutstanding_effect)
    | (with_reducible apply Effect.after; with_reducible apply setFlowTx_effect)
    | (with_reducible apply Effect.trans; pick_goal 2; with_reducible apply Effect.foldl; intro _ _)
    | extract_lets
    | split
    | (refine ⟨⟨?_⟩, id, id⟩; intro p hp; cases p <;> first | rfl | (intro _ _; rfl) | (refine absurd ?_ hp; decide)))

theorem mcastLost_effect (s : State) (die flow : Nat) :
    Effect [.bridge, .cols, .flowsTx, .sync] s (mcastLost s die flow) := by
  unfold mcastLost
  repeat' (first
    | with_reducible exact Effect.refl _ _
    | (with_reducible show partsIn _ _ = true); decide +kernel
    | with_reducible apply Effect.ite
    | (with_reducible apply Effect.after; with_reducible apply stopRun_effect)
    | extract_lets
    | split
    | (refine ⟨⟨?_⟩, id, id⟩; intro p hp; cases p <;> first | rfl | (intro _ _; rfl) | (refine absurd ?_ hp; decide)))

end Sys2Proof.Machine
end

