-- ==== Sys2Proof/Laws/SidOpsEffect.lean ====
section
/-! SUPPORT. One effect lemma for each operation of Machine/SidOps.lean: the parts it may change. -/

set_option maxRecDepth 2000

set_option Elab.async false
set_option linter.unusedTactic false
set_option linter.unreachableTactic false
set_option linter.unusedVariables false
set_option linter.unusedSimpArgs false

namespace Sys2Proof.Machine

abbrev setSynced_parts : List Part :=
  [.eph, .hostMem, .icuTimers, .wakePending, .reg .ephLostCount, .reg .ephSeq, .reg .hifRingHead, .reg .icuPend, .reg .sidLossCount, .reg .sidStatus]

theorem setSynced_effect (s : State) (die : Nat) (on : Bool) (theta delta : Int) :
    Effect setSynced_parts s (setSynced s die on theta delta) := by
  unfold setSynced
  repeat' (first
    | with_reducible exact Effect.refl _ _
    | (with_reducible show partsIn _ _ = true); decide +kernel
    | with_reducible apply Effect.ite
    | (with_reducible apply Effect.after; with_reducible apply syncRec_effect)
    | (with_reducible apply Effect.after; with_reducible apply irq_effect)
    | (with_reducible apply Effect.after; with_reducible apply bump_effect)
    | (with_reducible apply Effect.after; with_reducible apply wf_effect)
    | extract_lets
    | split
    | (refine ⟨⟨?_⟩, id, id⟩; intro p hp; cases p <;> first | rfl | (intro _ _; rfl) | (refine absurd ?_ hp; decide)))

theorem tellFollower_effect (s : State) (theta delta : Int) :
    Effect [.bridge] s (tellFollower s theta delta) := by
  unfold tellFollower
  repeat' (first
    | with_reducible exact Effect.refl _ _
    | (with_reducible show partsIn _ _ = true); decide +kernel
    | with_reducible apply Effect.ite
    | (with_reducible apply Effect.after; with_reducible apply bridgeSend_effect)
    | (with_reducible apply Effect.trans; pick_goal 2; with_reducible apply Effect.foldl; intro _ _)
    | extract_lets
    | split
    | (refine ⟨⟨?_⟩, id, id⟩; intro p hp; cases p <;> first | rfl | (intro _ _; rfl) | (refine absurd ?_ hp; decide)))

abbrev setSource_parts : List Part :=
  [.eph, .hostMem, .icuTimers, .sid, .wakePending, .reg .ephLostCount, .reg .ephSeq, .reg .hifRingHead, .reg .icuPend, .reg .sidLossCount, .reg .sidStatus]

theorem setSource_effect (s : State) (die src stratum port : Nat) :
    Effect setSource_parts s (setSource s die src stratum port) := by
  unfold setSource
  repeat' (first
    | with_reducible exact Effect.refl _ _
    | (with_reducible show partsIn _ _ = true); decide +kernel
    | with_reducible apply Effect.ite
    | (with_reducible apply Effect.after; with_reducible apply setSynced_effect)
    | (with_reducible apply Effect.after; with_reducible apply syncRec_effect)
    | (with_reducible apply Effect.after; with_reducible apply setSid_effect)
    | (with_reducible apply Effect.after; with_reducible apply wf_effect)
    | extract_lets
    | split
    | (refine ⟨⟨?_⟩, id, id⟩; intro p hp; cases p <;> first | rfl | (intro _ _; rfl) | (refine absurd ?_ hp; decide)))

abbrev chooseSources_parts : List Part :=
  [.eph, .hostMem, .icuTimers, .sid, .wakePending, .reg .ephLostCount, .reg .ephSeq, .reg .hifRingHead, .reg .icuPend, .reg .sidLossCount, .reg .sidStatus]

theorem chooseSources_effect (s : State) :
    Effect chooseSources_parts s (chooseSources s) := by
  unfold chooseSources
  repeat' (first
    | with_reducible exact Effect.refl _ _
    | (with_reducible show partsIn _ _ = true); decide +kernel
    | with_reducible apply Effect.ite
    | (with_reducible apply Effect.after; with_reducible apply setSource_effect)
    | extract_lets
    | split
    | (refine ⟨⟨?_⟩, id, id⟩; intro p hp; cases p <;> first | rfl | (intro _ _; rfl) | (refine absurd ?_ hp; decide)))

abbrev sourceSettle_parts : List Part :=
  [.bridge, .eph, .hostMem, .icuTimers, .sid, .wakePending, .reg .ephLostCount, .reg .ephSeq, .reg .hifRingHead, .reg .icuPend, .reg .sidLossCount, .reg .sidStatus]

theorem sourceSettle_effect (s : State) :
    Effect sourceSettle_parts s (sourceSettle s) := by
  unfold sourceSettle
  repeat' (first
    | with_reducible exact Effect.refl _ _
    | (with_reducible show partsIn _ _ = true); decide +kernel
    | with_reducible apply Effect.ite
    | (with_reducible apply Effect.after; with_reducible apply chooseSources_effect)
    | (with_reducible apply Effect.after; with_reducible apply tellFollower_effect)
    | extract_lets
    | split
    | (refine ⟨⟨?_⟩, id, id⟩; intro p hp; cases p <;> first | rfl | (intro _ _; rfl) | (refine absurd ?_ hp; decide)))

abbrev correct_parts : List Part :=
  [.eph, .hostMem, .icuTimers, .sid, .wakePending, .reg .ephLostCount, .reg .ephSeq, .reg .hifRingHead, .reg .icuPend, .reg .sidCount, .reg .sidStatus, .reg .sidStepCount]

theorem correct_effect (s : State) (die : Nat) (twice delta : Int) :
    Effect correct_parts s (correct s die twice delta) := by
  unfold correct
  repeat' (first
    | with_reducible exact Effect.refl _ _
    | (with_reducible show partsIn _ _ = true); decide +kernel
    | with_reducible apply Effect.ite
    | (with_reducible apply Effect.after; with_reducible apply syncRec_effect)
    | (with_reducible apply Effect.after; with_reducible apply setSid_effect)
    | (with_reducible apply Effect.after; with_reducible apply stepTo_effect)
    | (with_reducible apply Effect.after; with_reducible apply bump_effect)
    | (with_reducible apply Effect.after; with_reducible apply wf_effect)
    | extract_lets
    | split
    | (refine ⟨⟨?_⟩, id, id⟩; intro p hp; cases p <;> first | rfl | (intro _ _; rfl) | (refine absurd ?_ hp; decide)))

abbrev setSyncedBoth_parts : List Part :=
  [.bridge, .eph, .hostMem, .icuTimers, .wakePending, .reg .ephLostCount, .reg .ephSeq, .reg .hifRingHead, .reg .icuPend, .reg .sidLossCount, .reg .sidStatus]

theorem setSyncedBoth_effect (s : State) (die : Nat) (on : Bool) (theta delta : Int) :
    Effect setSyncedBoth_parts s (setSyncedBoth s die on theta delta) := by
  unfold setSyncedBoth
  repeat' (first
    | with_reducible exact Effect.refl _ _
    | (with_reducible show partsIn _ _ = true); decide +kernel
    | with_reducible apply Effect.ite
    | (with_reducible apply Effect.after; with_reducible apply tellFollower_effect)
    | (with_reducible apply Effect.after; with_reducible apply setSynced_effect)
    | extract_lets
    | split
    | (refine ⟨⟨?_⟩, id, id⟩; intro p hp; cases p <;> first | rfl | (intro _ _; rfl) | (refine absurd ?_ hp; decide)))

abbrev judge_parts : List Part :=
  [.bridge, .eph, .hostMem, .icuTimers, .sid, .wakePending, .reg .ephLostCount, .reg .ephSeq, .reg .hifRingHead, .reg .icuPend, .reg .sidLossCount, .reg .sidStatus]

theorem judge_effect (s : State) (die : Nat) (twice delta : Int) :
    Effect judge_parts s (judge s die twice delta) := by
  unfold judge
  repeat' (first
    | with_reducible exact Effect.refl _ _
    | (with_reducible show partsIn _ _ = true); decide +kernel
    | with_reducible apply Effect.ite
    | (with_reducible apply Effect.after; with_reducible apply setSyncedBoth_effect)
    | (with_reducible apply Effect.after; with_reducible apply setSid_effect)
    | extract_lets
    | split
    | (refine ⟨⟨?_⟩, id, id⟩; intro p hp; cases p <;> first | rfl | (intro _ _; rfl) | (refine absurd ?_ hp; decide)))

abbrev bridgeDeliver_parts : List Part :=
  [.answers, .bridge, .cols, .comps, .cores, .ctlCores, .eph, .hostMem, .icuTimers, .rings, .sync, .wakePending, .reg .ephLostCount, .reg .ephSeq, .reg .hifRingHead, .reg .icuPend, .reg .pwrStatus, .reg .seqReplayCycles, .reg .seqSlipCycles, .reg .seqState, .reg .seqWaitCycles, .reg .sidClampCount, .reg .sidCount, .reg .sidLossCount, .reg .sidStatus]

theorem bridgeDeliver_effect (s : State) (m : BridgeMsg) :
    Effect bridgeDeliver_parts s (bridgeDeliver s m) := by
  unfold bridgeDeliver
  repeat' (first
    | with_reducible exact Effect.refl _ _
    | (with_reducible show partsIn _ _ = true); decide +kernel
    | with_reducible apply Effect.ite
    | (with_reducible apply Effect.after; with_reducible apply setSynced_effect)
    | (with_reducible apply Effect.after; with_reducible apply joinArriving_effect)
    | (with_reducible apply Effect.after; with_reducible apply timeoutWaiter_effect)
    | (with_reducible apply Effect.after; with_reducible apply wakeWaiter_effect)
    | (with_reducible apply Effect.after; with_reducible apply deliverSignal_effect)
    | (with_reducible apply Effect.after; with_reducible apply arriveStamp_effect)
    | extract_lets
    | split
    | (refine ⟨⟨?_⟩, id, id⟩; intro p hp; cases p <;> first | rfl | (intro _ _; rfl) | (refine absurd ?_ hp; decide)))

abbrev bridgeArrive_parts : List Part :=
  [.answers, .bridge, .cols, .comps, .cores, .ctlCores, .eph, .hostMem, .icuTimers, .rings, .sync, .wakePending, .reg .ephLostCount, .reg .ephSeq, .reg .hifRingHead, .reg .icuPend, .reg .pwrStatus, .reg .seqReplayCycles, .reg .seqSlipCycles, .reg .seqState, .reg .seqWaitCycles, .reg .sidClampCount, .reg .sidCount, .reg .sidLossCount, .reg .sidStatus]

theorem bridgeArrive_effect (s : State) :
    Effect bridgeArrive_parts s (bridgeArrive s) := by
  unfold bridgeArrive
  repeat' (first
    | with_reducible exact Effect.refl _ _
    | (with_reducible show partsIn _ _ = true); decide +kernel
    | with_reducible apply Effect.ite
    | (with_reducible apply Effect.after; with_reducible apply bridgeDeliver_effect)
    | (with_reducible apply Effect.trans; pick_goal 2; with_reducible apply Effect.foldl; intro _ _)
    | extract_lets
    | split
    | with_reducible apply effect_set_bridge
    | (refine ⟨⟨?_⟩, id, id⟩; intro p hp; cases p <;> first | rfl | (intro _ _; rfl) | (refine absurd ?_ hp; decide)))

end Sys2Proof.Machine
end

