-- ==== Sys2Proof/Laws/FabricEffect.lean ====
section
/-! SUPPORT. One effect lemma for each operation of Machine/Fabric.lean: the parts it may change. -/

set_option maxRecDepth 2000

set_option Elab.async false
set_option linter.unusedTactic false
set_option linter.unreachableTactic false
set_option linter.unusedVariables false
set_option linter.unusedSimpArgs false

namespace Sys2Proof.Machine

theorem sendAgain_effect (s : State) (die key : Nat) (q : Nat × Bool) (left : List (Nat × Bool)) :
    Effect [.answers, .flowsTx, .ports, .reg .fabRetxCount] s (sendAgain s die key q left) := by
  unfold sendAgain
  repeat' (first
    | with_reducible exact Effect.refl _ _
    | (with_reducible show partsIn _ _ = true); decide +kernel
    | with_reducible apply Effect.ite
    | (with_reducible apply Effect.after; with_reducible apply putOnWire_effect)
    | (with_reducible apply Effect.after; with_reducible apply setFlowTx_effect)
    | (with_reducible apply Effect.after; with_reducible apply bump_effect)
    | extract_lets
    | split
    | (refine ⟨⟨?_⟩, id, id⟩; intro p hp; cases p <;> first | rfl | (intro _ _; rfl) | (refine absurd ?_ hp; decide)))

abbrev injectOn_parts : List Part :=
  [.answers, .eph, .flowsTx, .hostMem, .icuTimers, .ports, .wakePending, .reg .ephLostCount, .reg .ephSeq, .reg .fabPortOutstanding, .reg .fabSampleSkipCount, .reg .hifRingHead, .reg .icuPend]

theorem injectOn_effect (s : State) (die key : Nat) (c : Candidate) (p : Packet) (rest : List Packet) :
    Effect injectOn_parts s (injectOn s die key c p rest) := by
  unfold injectOn
  repeat' (first
    | with_reducible exact Effect.refl _ _
    | (with_reducible show partsIn _ _ = true); decide +kernel
    | with_reducible apply Effect.ite
    | (with_reducible apply Effect.after; with_reducible apply putOnWire_effect)
    | (with_reducible apply Effect.after; with_reducible apply sampleHeader_effect)
    | (with_reducible apply Effect.after; with_reducible apply settleOutstanding_effect)
    | (with_reducible apply Effect.after; with_reducible apply setFlowTx_effect)
    | extract_lets
    | split
    | (refine ⟨⟨?_⟩, id, id⟩; intro p hp; cases p <;> first | rfl | (intro _ _; rfl) | (refine absurd ?_ hp; decide)))

abbrev nakFlits_parts : List Part :=
  [.eph, .events, .flt, .hostMem, .icuTimers, .ports, .wakePending, .reg .arrPathStatus, .reg .ephLostCount, .reg .ephSeq, .reg .hbmPcState, .reg .hbmStatus, .reg .hifEventLostCount, .reg .hifRingHead, .reg .icuPend]

theorem nakFlits_effect (s : State) (die p lane : Nat) :
    Effect nakFlits_parts s (nakFlits s die p lane) := by
  unfold nakFlits
  repeat' (first
    | with_reducible exact Effect.refl _ _
    | (with_reducible show partsIn _ _ = true); decide +kernel
    | with_reducible apply Effect.ite
    | (with_reducible apply Effect.after; with_reducible apply setPort_effect)
    | (with_reducible apply Effect.after; with_reducible apply exhaust_effect)
    | (with_reducible apply Effect.after; with_reducible apply irq_effect)
    | extract_lets
    | split
    | (refine ⟨⟨?_⟩, id, id⟩; intro p hp; cases p <;> first | rfl | (intro _ _; rfl) | (refine absurd ?_ hp; decide)))

theorem takeContent_effect (s : State) (die p : Nat) (content : Bytes) :
    Effect [.icuTimers, .ports, .wakePending, .reg .fabMisrouteCount, .reg .icuPend] s (takeContent s die p content) := by
  unfold takeContent
  repeat' (first
    | with_reducible exact Effect.refl _ _
    | (with_reducible show partsIn _ _ = true); decide +kernel
    | with_reducible apply Effect.ite
    | (with_reducible apply Effect.after; with_reducible apply dropMisroute_effect)
    | (with_reducible apply Effect.after; with_reducible apply setPort_effect)
    | (with_reducible apply Effect.trans; pick_goal 2; with_reducible apply Effect.foldl; intro _ _)
    | extract_lets
    | split
    | (refine ⟨⟨?_⟩, id, id⟩; intro p hp; cases p <;> first | rfl | (intro _ _; rfl) | (refine absurd ?_ hp; decide)))

theorem answerLink_effect (s : State) (die p : Nat) :
    Effect [.ports] s (answerLink s die p) := by
  unfold answerLink
  repeat' (first
    | with_reducible exact Effect.refl _ _
    | (with_reducible show partsIn _ _ = true); decide +kernel
    | with_reducible apply Effect.ite
    | (with_reducible apply Effect.after; with_reducible apply setPort_effect)
    | extract_lets
    | split
    | (refine ⟨⟨?_⟩, id, id⟩; intro p hp; cases p <;> first | rfl | (intro _ _; rfl) | (refine absurd ?_ hp; decide)))

theorem receive_effect {w : List Part} {s0 s : State} {die p kind : Nat} {pkt : Packet} {k : State → State}
    (hw : partsIn [.eph, .hostMem, .icuTimers, .ports, .wakePending, .reg .ephLostCount, .reg .ephSeq, .reg .fabMisrouteCount, .reg .fabSampleSkipCount, .reg .fabStaleCount, .reg .hifRingHead, .reg .icuPend, .reg .sidClampCount, .reg .sidCount] w = true) (hk : ∀ s', Effect w s' (k s')) (h : Effect w s0 s) :
    Effect w s0 (receive s die p kind pkt k) := by
  have hc : Effect w s0 (headerChecks (takeHeader (takePacket s die p pkt) die p pkt) die p pkt).2 :=
    ((h.trans ((takePacket_effect _ _ _ _).mono (partsIn_trans (by decide) hw))).trans ((takeHeader_effect _ _ _ _).mono (partsIn_trans (by decide) hw))).trans ((headerChecks_effect _ _ _ _).mono (partsIn_trans (by decide) hw))
  unfold receive
  split
  · exact h
  · split
    · rename_i e; rw [e] at hc; exact hc
    · rename_i e; rw [e] at hc; exact hc.trans (hk _)

theorem inOrder_effect {w : List Part} {s0 s : State} {die : Nat} {pkt : Packet} {k : State → Packet → Nat → State}
    (hw : partsIn [.flowsRx, .flowsTx, .icuTimers, .wakePending, .reg .fabDupCount, .reg .icuPend] w = true) (hk : ∀ s' q i, Effect w s' (k s' q i)) (h : Effect w s0 s) :
    Effect w s0 (inOrder s die pkt k) := by
  unfold inOrder
  exact (h.trans ((orderPacket_effect _ _ _).mono hw)).trans (Effect.foldl _ (fun s' (x : Packet × Nat) => hk s' x.1 x.2) _ _)

theorem dropAcked_effect {w : List Part} {s0 s : State} {die : Nat} {pkt : Packet} {k : State → Packet → Nat → State}
    (hw : partsIn [.flowsRx, .flowsTx, .icuTimers, .wakePending, .reg .fabDupCount, .reg .icuPend] w = true) (hk : ∀ s' q i, Effect w s' (k s' q i)) (h : Effect w s0 s) :
    Effect w s0 (dropAcked s die pkt k) := by
  unfold dropAcked
  dsimp only
  split
  · exact (h.trans ((orderPacket_effect _ _ _).mono (partsIn_trans (by decide) hw))).trans
      (Effect.foldl _ (fun s' (x : Packet × Nat) => hk s' x.1 (x.2 + 1)) _ _)
  · exact h.trans ((sendAck_effect _ _ _).mono (partsIn_trans (by decide) hw))

theorem dropLate_effect (s : State) (die : Nat) (pkt : Packet) :
    Effect [.flowsRx, .flowsTx, .icuTimers, .wakePending, .reg .colDropCount, .reg .icuPend] s (dropLate s die pkt) := by
  unfold dropLate
  repeat' (first
    | with_reducible exact Effect.refl _ _
    | (with_reducible show partsIn _ _ = true); decide +kernel
    | with_reducible apply Effect.ite
    | (with_reducible apply Effect.after; with_reducible apply sendAck_effect)
    | (with_reducible apply Effect.after; with_reducible apply colDrop_effect)
    | extract_lets
    | split
    | (refine ⟨⟨?_⟩, id, id⟩; intro p hp; cases p <;> first | rfl | (intro _ _; rfl) | (refine absurd ?_ hp; decide)))

theorem throttle_effect (s : State) (die p vc : Nat) :
    Effect [.ports, .reg .fabMarkCount] s (throttle s die p vc) := by
  unfold throttle
  repeat' (first
    | with_reducible exact Effect.refl _ _
    | (with_reducible show partsIn _ _ = true); decide +kernel
    | with_reducible apply Effect.ite
    | (with_reducible apply Effect.after; with_reducible apply setPort_effect)
    | (with_reducible apply Effect.after; with_reducible apply bump_effect)
    | extract_lets
    | split
    | (refine ⟨⟨?_⟩, id, id⟩; intro p hp; cases p <;> first | rfl | (intro _ _; rfl) | (refine absurd ?_ hp; decide)))

abbrev fencedPacket_parts : List Part :=
  [.bridge, .cols, .eph, .flowsTx, .hostMem, .icuTimers, .sync, .wakePending, .reg .colAbortCount, .reg .ephLostCount, .reg .ephSeq, .reg .hifRingHead, .reg .icuPend, .reg .synLostCount]

theorem fencedPacket_effect (s : State) (die : Nat) (src : Nat) (p : Packet) :
    Effect fencedPacket_parts s (fencedPacket s die src p) := by
  unfold fencedPacket
  repeat' (first
    | with_reducible exact Effect.refl _ _
    | (with_reducible show partsIn _ _ = true); decide +kernel
    | with_reducible apply Effect.ite
    | (with_reducible apply Effect.after; with_reducible apply runFenced_effect)
    | (with_reducible apply Effect.after; with_reducible apply setCol_effect)
    | (with_reducible apply Effect.after; with_reducible apply signalLost_effect)
    | extract_lets
    | split
    | (refine ⟨⟨?_⟩, id, id⟩; intro p hp; cases p <;> first | rfl | (intro _ _; rfl) | (refine absurd ?_ hp; decide)))

theorem fencedMember_effect (s : State) (die src vc flow : Nat) :
    Effect [.cols] s (fencedMember s die src vc flow) := by
  unfold fencedMember
  repeat' (first
    | with_reducible exact Effect.refl _ _
    | (with_reducible show partsIn _ _ = true); decide +kernel
    | with_reducible apply Effect.ite
    | (with_reducible apply Effect.after; with_reducible apply setCol_effect)
    | extract_lets
    | split
    | (refine ⟨⟨?_⟩, id, id⟩; intro p hp; cases p <;> first | rfl | (intro _ _; rfl) | (refine absurd ?_ hp; decide)))

theorem linkEvent_effect (s : State) (die : Nat) :
    Effect [.reg .colLinkEventCount] s (linkEvent s die) := by
  unfold linkEvent
  repeat' (first
    | with_reducible exact Effect.refl _ _
    | (with_reducible show partsIn _ _ = true); decide +kernel
    | with_reducible apply Effect.ite
    | (with_reducible apply Effect.after; with_reducible apply bump_effect)
    | extract_lets
    | split
    | (refine ⟨⟨?_⟩, id, id⟩; intro p hp; cases p <;> first | rfl | (intro _ _; rfl) | (refine absurd ?_ hp; decide)))

abbrev portEvent_parts : List Part :=
  [.eph, .events, .hostMem, .icuTimers, .wakePending, .reg .ephLostCount, .reg .ephSeq, .reg .hifEventLostCount, .reg .hifRingHead, .reg .icuPend]

theorem portEvent_effect (s : State) (die p : Nat) :
    Effect portEvent_parts s (portEvent s die p) := by
  unfold portEvent
  repeat' (first
    | with_reducible exact Effect.refl _ _
    | (with_reducible show partsIn _ _ = true); decide +kernel
    | with_reducible apply Effect.ite
    | (with_reducible apply Effect.after; with_reducible apply event_effect)
    | extract_lets
    | split
    | (refine ⟨⟨?_⟩, id, id⟩; intro p hp; cases p <;> first | rfl | (intro _ _; rfl) | (refine absurd ?_ hp; decide)))

abbrev moveFlow_parts : List Part :=
  [.bridge, .cols, .eph, .flowsTx, .hostMem, .icuTimers, .sync, .wakePending, .reg .colAbortCount, .reg .ephLostCount, .reg .ephSeq, .reg .fabPortOutstanding, .reg .hifRingHead, .reg .icuPend, .reg .synLostCount]

theorem moveFlow_effect (die : Nat) (s : State) (key : Nat) :
    Effect moveFlow_parts s (moveFlow die s key) := by
  unfold moveFlow
  repeat' (first
    | with_reducible exact Effect.refl _ _
    | (with_reducible show partsIn _ _ = true); decide +kernel
    | with_reducible apply Effect.ite
    | (with_reducible apply Effect.after; with_reducible apply mcastLost_effect)
    | (with_reducible apply Effect.after; with_reducible apply flowLost_effect)
    | (with_reducible apply Effect.after; with_reducible apply setFlowTx_effect)
    | extract_lets
    | split
    | (refine ⟨⟨?_⟩, id, id⟩; intro p hp; cases p <;> first | rfl | (intro _ _; rfl) | (refine absurd ?_ hp; decide)))

end Sys2Proof.Machine
end

