-- ==== Sys2Proof/Laws/PwrOpsEffect.lean ====
section
/-! SUPPORT. One effect lemma for each operation of Machine/PwrOps.lean: the parts it may change. -/

set_option maxRecDepth 2000

set_option Elab.async false
set_option linter.unusedTactic false
set_option linter.unreachableTactic false
set_option linter.unusedVariables false
set_option linter.unusedSimpArgs false

namespace Sys2Proof.Machine

theorem bankStretch_effect (s : State) (die : Nat) :
    Effect [.clk, .reg .clkStretchCycles] s (bankStretch s die) := by
  unfold bankStretch
  repeat' (first
    | with_reducible exact Effect.refl _ _
    | (with_reducible show partsIn _ _ = true); decide +kernel
    | with_reducible apply Effect.ite
    | (with_reducible apply Effect.after; with_reducible apply setClk_effect)
    | (with_reducible apply Effect.after; with_reducible apply bump_effect)
    | extract_lets
    | split
    | (refine ⟨⟨?_⟩, id, id⟩; intro p hp; cases p <;> first | rfl | (intro _ _; rfl) | (refine absurd ?_ hp; decide)))

theorem clkChange_effect {w : List Part} {s0 s : State} {die : Nat} {f : State → State}
    (hw : partsIn [.clk, .reg .clkStatus, .reg .clkStretchCycles] w = true) (hk : ∀ s', Effect w s' (f s')) (h : Effect w s0 s) : Effect w s0 (clkChange s die f) := by
  unfold clkChange
  extract_lets s1 on c s2
  have h1 : Effect w s0 s1 := (h.trans ((bankStretch_effect _ _).mono (partsIn_trans (by decide) hw))).trans (hk _)
  have h2 : Effect w s0 s2 := h1.trans ((setClk_effect _ _ _).mono (partsIn_trans (by decide) hw))
  exact h2.trans ((wf_effect _ _ _ _ _).mono (partsIn_trans (by decide) hw))

theorem endBrakeStretch_effect (s : State) (die : Nat) :
    Effect [.clk, .reg .clkStatus, .reg .clkStretchCycles] s (endBrakeStretch s die) := by
  unfold endBrakeStretch
  repeat' (first
    | with_reducible exact Effect.refl _ _
    | (with_reducible show partsIn _ _ = true); decide +kernel
    | with_reducible apply Effect.ite
    | intro _
    | with_reducible apply clkChange_effect
    | (with_reducible apply Effect.after; with_reducible apply setClk_effect)
    | extract_lets
    | split
    | (refine ⟨⟨?_⟩, id, id⟩; intro p hp; cases p <;> first | rfl | (intro _ _; rfl) | (refine absurd ?_ hp; decide)))

theorem brakeSettle_effect (s : State) (die : Nat) :
    Effect [.clk, .reg .clkStatus, .reg .clkStretchCycles] s (brakeSettle s die) := by
  unfold brakeSettle
  repeat' (first
    | with_reducible exact Effect.refl _ _
    | (with_reducible show partsIn _ _ = true); decide +kernel
    | with_reducible apply Effect.ite
    | (with_reducible apply Effect.after; with_reducible apply endBrakeStretch_effect)
    | extract_lets
    | split
    | (refine ⟨⟨?_⟩, id, id⟩; intro p hp; cases p <;> first | rfl | (intro _ _; rfl) | (refine absurd ?_ hp; decide)))

theorem startStep_effect (s : State) (die : Nat) :
    Effect [.clk, .reg .clkStatus, .reg .clkStretchCycles] s (startStep s die) := by
  unfold startStep
  repeat' (first
    | with_reducible exact Effect.refl _ _
    | (with_reducible show partsIn _ _ = true); decide +kernel
    | with_reducible apply Effect.ite
    | intro _
    | with_reducible apply clkChange_effect
    | (with_reducible apply Effect.after; with_reducible apply brakeSettle_effect)
    | (with_reducible apply Effect.after; with_reducible apply setClk_effect)
    | (with_reducible apply Effect.after; with_reducible apply wf_effect)
    | extract_lets
    | split
    | (refine ⟨⟨?_⟩, id, id⟩; intro p hp; cases p <;> first | rfl | (intro _ _; rfl) | (refine absurd ?_ hp; decide)))

theorem orderDie_effect (s : State) (die mhz : Nat) :
    Effect [.clk, .reg .clkStatus, .reg .clkStretchCycles] s (orderDie s die mhz) := by
  unfold orderDie
  repeat' (first
    | with_reducible exact Effect.refl _ _
    | (with_reducible show partsIn _ _ = true); decide +kernel
    | with_reducible apply Effect.ite
    | (with_reducible apply Effect.after; with_reducible apply startStep_effect)
    | (with_reducible apply Effect.after; with_reducible apply wf_effect)
    | extract_lets
    | split
    | (refine ⟨⟨?_⟩, id, id⟩; intro p hp; cases p <;> first | rfl | (intro _ _; rfl) | (refine absurd ?_ hp; decide)))

theorem orderBoth_effect (s : State) (mhz : Nat) :
    Effect [.clk, .reg .clkStatus, .reg .clkStretchCycles] s (orderBoth s mhz) := by
  unfold orderBoth
  repeat' (first
    | with_reducible exact Effect.refl _ _
    | (with_reducible show partsIn _ _ = true); decide +kernel
    | with_reducible apply Effect.ite
    | (with_reducible apply Effect.after; with_reducible apply orderDie_effect)
    | extract_lets
    | split
    | (refine ⟨⟨?_⟩, id, id⟩; intro p hp; cases p <;> first | rfl | (intro _ _; rfl) | (refine absurd ?_ hp; decide)))

theorem clockStop_effect (s : State) (die : Nat) :
    Effect [.clk, .reg .clkStatus, .reg .clkStretchCycles] s (clockStop s die) := by
  unfold clockStop
  repeat' (first
    | with_reducible exact Effect.refl _ _
    | (with_reducible show partsIn _ _ = true); decide +kernel
    | with_reducible apply Effect.ite
    | (with_reducible apply Effect.after; with_reducible apply bankStretch_effect)
    | (with_reducible apply Effect.after; with_reducible apply setClk_effect)
    | (with_reducible apply Effect.after; with_reducible apply wf_effect)
    | extract_lets
    | split
    | (refine ⟨⟨?_⟩, id, id⟩; intro p hp; cases p <;> first | rfl | (intro _ _; rfl) | (refine absurd ?_ hp; decide)))

theorem clockStart_effect (s : State) (die : Nat) :
    Effect [.clk, .reg .clkStatus, .reg .clkStretchCycles] s (clockStart s die) := by
  unfold clockStart
  repeat' (first
    | with_reducible exact Effect.refl _ _
    | (with_reducible show partsIn _ _ = true); decide +kernel
    | with_reducible apply Effect.ite
    | intro _
    | with_reducible apply clkChange_effect
    | (with_reducible apply Effect.after; with_reducible apply clockStop_effect)
    | (with_reducible apply Effect.after; with_reducible apply startStep_effect)
    | (with_reducible apply Effect.after; with_reducible apply wf_effect)
    | extract_lets
    | split
    | (refine ⟨⟨?_⟩, id, id⟩; intro p hp; cases p <;> first | rfl | (intro _ _; rfl) | (refine absurd ?_ hp; decide)))

abbrev wakeNow_parts : List Part :=
  [.clk, .eph, .hostMem, .icuTimers, .wakePending, .reg .clkStatus, .reg .clkStretchCycles, .reg .ephLostCount, .reg .ephSeq, .reg .hifRingHead, .reg .icuPend, .reg .pwrStatus]

theorem wakeNow_effect (s : State) :
    Effect wakeNow_parts s (wakeNow s) := by
  unfold wakeNow
  repeat' (first
    | with_reducible exact Effect.refl _ _
    | (with_reducible show HostIn _ _ _); constructor <;> first | exact Or.inl (by with_reducible rfl) | exact Or.inr (by decide) | exact Or.inl rfl
    | (with_reducible show partsIn _ _ = true); decide +kernel
    | with_reducible apply Effect.ite
    | (with_reducible apply Effect.after; with_reducible apply clockStart_effect)
    | (with_reducible apply Effect.after; with_reducible apply setPwrStatus_effect)
    | extract_lets
    | split
    | with_reducible apply effect_set_host
    | (refine ⟨⟨?_⟩, id, id⟩; intro p hp; cases p <;> first | rfl | (intro _ _; rfl) | (refine absurd ?_ hp; decide)))

abbrev wakeTrained_parts : List Part :=
  [.bridge, .clk, .eph, .hostMem, .icuTimers, .ports, .sid, .wakePending, .reg .clkStatus, .reg .clkStretchCycles, .reg .ephLostCount, .reg .ephSeq, .reg .fabPortState, .reg .hifRingHead, .reg .icuPend, .reg .pwrStatus, .reg .sidLossCount, .reg .sidStatus]

theorem wakeTrained_effect (s : State) (train : List (BitVec 8)) :
    Effect wakeTrained_parts s (wakeTrained s train) := by
  unfold wakeTrained
  repeat' (first
    | with_reducible exact Effect.refl _ _
    | (with_reducible show partsIn _ _ = true); decide +kernel
    | with_reducible apply Effect.ite
    | (with_reducible apply Effect.after; with_reducible apply wakeNow_effect)
    | (with_reducible apply Effect.after; with_reducible apply sourceSettle_effect)
    | (with_reducible apply Effect.after; with_reducible apply trainPorts_effect)
    | extract_lets
    | split
    | (refine ⟨⟨?_⟩, id, id⟩; intro p hp; cases p <;> first | rfl | (intro _ _; rfl) | (refine absurd ?_ hp; decide)))

abbrev wakeFree_parts : List Part :=
  [.bridge, .clk, .eph, .freeCtr, .hostMem, .icuTimers, .ports, .sid, .wakePending, .reg .clkStatus, .reg .clkStretchCycles, .reg .ephLostCount, .reg .ephSeq, .reg .fabPortState, .reg .hifRingHead, .reg .icuPend, .reg .pwrStatus, .reg .sidLossCount, .reg .sidStatus]

theorem wakeFree_effect (s : State) :
    Effect wakeFree_parts s (wakeFree s) := by
  unfold wakeFree
  repeat' (first
    | with_reducible exact Effect.refl _ _
    | (with_reducible show partsIn _ _ = true); decide +kernel
    | with_reducible apply Effect.ite
    | (with_reducible apply Effect.after; with_reducible apply wakeTrained_effect)
    | extract_lets
    | split
    | with_reducible apply effect_set_freeCtr
    | (refine ⟨⟨?_⟩, id, id⟩; intro p hp; cases p <;> first | rfl | (intro _ _; rfl) | (refine absurd ?_ hp; decide)))

abbrev setTherm_parts : List Part :=
  [.eph, .events, .hostMem, .icuTimers, .pwr, .wakePending, .reg .ephLostCount, .reg .ephSeq, .reg .hifEventLostCount, .reg .hifRingHead, .reg .icuPend, .reg .pwrStatus]

theorem setTherm_effect (s : State) (on : Bool) :
    Effect setTherm_parts s (setTherm s on) := by
  unfold setTherm
  repeat' (first
    | with_reducible exact Effect.refl _ _
    | (with_reducible show partsIn _ _ = true); decide +kernel
    | with_reducible apply Effect.ite
    | (with_reducible apply Effect.after; with_reducible apply event_effect)
    | (with_reducible apply Effect.after; with_reducible apply irq_effect)
    | (with_reducible apply Effect.after; with_reducible apply wf_effect)
    | extract_lets
    | split
    | with_reducible apply effect_set_pwr
    | (refine ⟨⟨?_⟩, id, id⟩; intro p hp; cases p <;> first | rfl | (intro _ _; rfl) | (refine absurd ?_ hp; decide)))

abbrev releaseTherm_parts : List Part :=
  [.eph, .events, .hostMem, .icuTimers, .pwr, .wakePending, .reg .ephLostCount, .reg .ephSeq, .reg .hifEventLostCount, .reg .hifRingHead, .reg .icuPend, .reg .pwrStatus]

theorem releaseTherm_effect (s : State) :
    Effect releaseTherm_parts s (releaseTherm s) := by
  unfold releaseTherm
  repeat' (first
    | with_reducible exact Effect.refl _ _
    | (with_reducible show partsIn _ _ = true); decide +kernel
    | with_reducible apply Effect.ite
    | (with_reducible apply Effect.after; with_reducible apply setTherm_effect)
    | extract_lets
    | split
    | with_reducible apply effect_set_pwr
    | (refine ⟨⟨?_⟩, id, id⟩; intro p hp; cases p <;> first | rfl | (intro _ _; rfl) | (refine absurd ?_ hp; decide)))

abbrev limitSettle_parts : List Part :=
  [.eph, .events, .hostMem, .icuTimers, .pwr, .wakePending, .reg .ephLostCount, .reg .ephSeq, .reg .hifEventLostCount, .reg .hifRingHead, .reg .icuPend, .reg .pwrLimit]

theorem limitSettle_effect (s : State) :
    Effect limitSettle_parts s (limitSettle s) := by
  unfold limitSettle
  repeat' (first
    | with_reducible exact Effect.refl _ _
    | (with_reducible show partsIn _ _ = true); decide +kernel
    | with_reducible apply Effect.ite
    | (with_reducible apply Effect.after; with_reducible apply event_effect)
    | (with_reducible apply Effect.after; with_reducible apply irq_effect)
    | (with_reducible apply Effect.after; with_reducible apply wf_effect)
    | extract_lets
    | split
    | with_reducible apply effect_set_pwr
    | (refine ⟨⟨?_⟩, id, id⟩; intro p hp; cases p <;> first | rfl | (intro _ _; rfl) | (refine absurd ?_ hp; decide)))

abbrev brakeChange_parts : List Part :=
  [.eph, .hostMem, .icuTimers, .pwr, .wakePending, .reg .ephLostCount, .reg .ephSeq, .reg .hifRingHead, .reg .icuPend, .reg .pwrStatus]

theorem brakeChange_effect (s : State) (record : Bool) (f : PowerState → PowerState) :
    Effect brakeChange_parts s (brakeChange s record f) := by
  unfold brakeChange
  repeat' (first
    | with_reducible exact Effect.refl _ _
    | (with_reducible show partsIn _ _ = true); decide +kernel
    | with_reducible apply Effect.ite
    | (with_reducible apply Effect.after; with_reducible apply setPwrStatus_effect)
    | (with_reducible apply Effect.after; with_reducible apply countRec_effect)
    | (with_reducible apply Effect.after; with_reducible apply wf_effect)
    | extract_lets
    | split
    | with_reducible apply effect_set_pwr
    | (refine ⟨⟨?_⟩, id, id⟩; intro p hp; cases p <;> first | rfl | (intro _ _; rfl) | (refine absurd ?_ hp; decide)))

theorem orderBrake_effect (s : State) :
    Effect [.clk, .reg .clkStatus, .reg .clkStretchCycles] s (orderBrake s) := by
  unfold orderBrake
  repeat' (first
    | with_reducible exact Effect.refl _ _
    | (with_reducible show partsIn _ _ = true); decide +kernel
    | with_reducible apply Effect.ite
    | (with_reducible apply Effect.after; with_reducible apply orderDie_effect)
    | (with_reducible apply Effect.trans; pick_goal 2; with_reducible apply Effect.foldl; intro _ _)
    | extract_lets
    | split
    | (refine ⟨⟨?_⟩, id, id⟩; intro p hp; cases p <;> first | rfl | (intro _ _; rfl) | (refine absurd ?_ hp; decide)))

end Sys2Proof.Machine
end

