-- ==== Sys2Proof/Laws/CompOpsEffect.lean ====
section
/-! SUPPORT. One effect lemma for each operation of Machine/CompOps.lean: the parts it may change. -/

set_option maxRecDepth 2000

set_option Elab.async false
set_option linter.unusedTactic false
set_option linter.unreachableTactic false
set_option linter.unusedVariables false
set_option linter.unusedSimpArgs false

namespace Sys2Proof.Machine

theorem setComp_effect (s : State) (k : Nat) (c : CompSlot) :
    Effect [.comps] s (setComp s k c) := by
  unfold setComp
  repeat' (first
    | with_reducible exact Effect.refl _ _
    | (with_reducible show partsIn _ _ = true); decide +kernel
    | with_reducible apply Effect.ite
    | extract_lets
    | split
    | with_reducible apply effect_set_comps
    | (refine ⟨⟨?_⟩, id, id⟩; intro p hp; cases p <;> first | rfl | (intro _ _; rfl) | (refine absurd ?_ hp; decide)))

theorem setCompCore_effect (s : State) (die slot code : Nat) :
    Effect [.reg .ctlCoreState] s (setCompCore s die slot code) := by
  unfold setCompCore
  repeat' (first
    | with_reducible exact Effect.refl _ _
    | (with_reducible show partsIn _ _ = true); decide +kernel
    | with_reducible apply Effect.ite
    | (with_reducible apply Effect.after; with_reducible apply wr_effect)
    | extract_lets
    | split
    | (refine ⟨⟨?_⟩, id, id⟩; intro p hp; cases p <;> first | rfl | (intro _ _; rfl) | (refine absurd ?_ hp; decide)))

theorem compAnswer_effect (s : State) (die slot v : Nat) :
    Effect [.answers, .ctlCores] s (compAnswer s die slot v) := by
  unfold compAnswer
  repeat' (first
    | with_reducible exact Effect.refl _ _
    | (with_reducible show partsIn _ _ = true); decide +kernel
    | with_reducible apply Effect.ite
    | (with_reducible apply Effect.after; with_reducible apply companionReturn_effect)
    | extract_lets
    | split
    | (refine ⟨⟨?_⟩, id, id⟩; intro p hp; cases p <;> first | rfl | (intro _ _; rfl) | (refine absurd ?_ hp; decide)))

theorem compCore_effect (s : State) (die slot : Nat) :
    Effect [.ctlCores] s (compCore s die slot) := by
  unfold compCore
  repeat' (first
    | with_reducible exact Effect.refl _ _
    | (with_reducible show partsIn _ _ = true); decide +kernel
    | with_reducible apply Effect.ite
    | (with_reducible apply Effect.after; with_reducible apply setCtlCore_effect)
    | extract_lets
    | split
    | (refine ⟨⟨?_⟩, id, id⟩; intro p hp; cases p <;> first | rfl | (intro _ _; rfl) | (refine absurd ?_ hp; decide)))

theorem firmwareCore_effect (s : State) (die slot : Nat) :
    Effect [.ctlCores] s (firmwareCore s die slot) := by
  unfold firmwareCore
  repeat' (first
    | with_reducible exact Effect.refl _ _
    | (with_reducible show partsIn _ _ = true); decide +kernel
    | with_reducible apply Effect.ite
    | (with_reducible apply Effect.after; with_reducible apply setCtlCore_effect)
    | extract_lets
    | split
    | (refine ⟨⟨?_⟩, id, id⟩; intro p hp; cases p <;> first | rfl | (intro _ _; rfl) | (refine absurd ?_ hp; decide)))

theorem compEnd_effect (s : State) (die slot st : Nat) :
    Effect [.bridge, .comps, .ctlCores, .sync, .reg .ctlCompStatus, .reg .ctlCoreState] s (compEnd s die slot st) := by
  unfold compEnd
  repeat' (first
    | with_reducible exact Effect.refl _ _
    | (with_reducible show partsIn _ _ = true); decide +kernel
    | with_reducible apply Effect.ite
    | (with_reducible apply Effect.after; with_reducible apply firmwareCore_effect)
    | (with_reducible apply Effect.after; with_reducible apply setCompCore_effect)
    | (with_reducible apply Effect.after; with_reducible apply setComp_effect)
    | (with_reducible apply Effect.after; with_reducible apply withdrawWaits_effect)
    | (with_reducible apply Effect.after; with_reducible apply wf_effect)
    | extract_lets
    | split
    | (refine ⟨⟨?_⟩, id, id⟩; intro p hp; cases p <;> first | rfl | (intro _ _; rfl) | (refine absurd ?_ hp; decide)))

theorem compStop_effect (s : State) (die slot : Nat) :
    Effect [.bridge, .comps, .ctlCores, .sync, .reg .ctlCompStatus, .reg .ctlCoreState] s (compStop s die slot) := by
  unfold compStop
  repeat' (first
    | with_reducible exact Effect.refl _ _
    | (with_reducible show partsIn _ _ = true); decide +kernel
    | with_reducible apply Effect.ite
    | (with_reducible apply Effect.after; with_reducible apply compEnd_effect)
    | (with_reducible apply Effect.after; with_reducible apply wf_effect)
    | extract_lets
    | split
    | (refine ⟨⟨?_⟩, id, id⟩; intro p hp; cases p <;> first | rfl | (intro _ _; rfl) | (refine absurd ?_ hp; decide)))

theorem compStopAll_effect (s : State) :
    Effect [.bridge, .comps, .ctlCores, .sync, .reg .ctlCompStatus, .reg .ctlCoreState] s (compStopAll s) := by
  unfold compStopAll
  repeat' (first
    | with_reducible exact Effect.refl _ _
    | (with_reducible show partsIn _ _ = true); decide +kernel
    | with_reducible apply Effect.ite
    | (with_reducible apply Effect.after; with_reducible apply compStop_effect)
    | (with_reducible apply Effect.trans; pick_goal 2; with_reducible apply Effect.foldl; intro _ _)
    | extract_lets
    | split
    | (refine ⟨⟨?_⟩, id, id⟩; intro p hp; cases p <;> first | rfl | (intro _ _; rfl) | (refine absurd ?_ hp; decide)))

abbrev compStart_parts : List Part :=
  [.comps, .ctlCores, .ctlMem, .eph, .events, .flt, .hostMem, .icuTimers, .poison, .scrub, .wakePending, .reg .arrPathStatus, .reg .ctlCompStatus, .reg .ctlCoreState, .reg .ephLostCount, .reg .ephSeq, .reg .hbmFailCount, .reg .hbmOdeccCorrCount, .reg .hbmOdeccUncorrCount, .reg .hbmPcState, .reg .hbmRereadCount, .reg .hbmStatus, .reg .hifEventLostCount, .reg .hifRingHead, .reg .icuPend, .reg .spmFailCount, .reg .spmRereadCount]

theorem compStart_effect (s : State) (die slot : Nat) (mf : MemFaults) :
    Effect compStart_parts s (compStart s die slot mf) := by
  unfold compStart
  repeat' (first
    | with_reducible exact Effect.refl _ _
    | (with_reducible show partsIn _ _ = true); decide +kernel
    | with_reducible apply Effect.ite
    | (with_reducible apply Effect.after; with_reducible apply compCore_effect)
    | (with_reducible apply Effect.after; with_reducible apply setCompCore_effect)
    | (with_reducible apply Effect.after; with_reducible apply setComp_effect)
    | (with_reducible apply Effect.after; with_reducible apply readEffects_effect)
    | (with_reducible apply Effect.after; with_reducible apply setCtlMem_effect)
    | (with_reducible apply Effect.after; with_reducible apply wf_effect)
    | extract_lets
    | split
    | (refine ⟨⟨?_⟩, id, id⟩; intro p hp; cases p <;> first | rfl | (intro _ _; rfl) | (refine absurd ?_ hp; decide)))

abbrev compLoad_parts : List Part :=
  [.eph, .events, .flt, .hostMem, .icuTimers, .poison, .scrub, .wakePending, .reg .arrPathStatus, .reg .ephLostCount, .reg .ephSeq, .reg .hbmFailCount, .reg .hbmOdeccCorrCount, .reg .hbmOdeccUncorrCount, .reg .hbmPcState, .reg .hbmRereadCount, .reg .hbmStatus, .reg .hifEventLostCount, .reg .hifRingHead, .reg .icuPend, .reg .spmFailCount, .reg .spmRereadCount]

theorem compLoad_effect (s : State) (die slot addr len : Nat) (mf : MemFaults) :
    Effect compLoad_parts s (compLoad s die slot addr len mf).2 := by
  unfold compLoad
  repeat' (first
    | with_reducible exact Effect.refl _ _
    | (with_reducible show partsIn _ _ = true); decide +kernel
    | with_reducible apply Effect.ite
    | (with_reducible apply Effect.after; with_reducible apply readRanges_effect)
    | with_reducible refine Effect.after (Effect.snd (readRanges_effect _ _ _) (by assumption)) ?_ ?_
    | (with_reducible apply Effect.after; with_reducible apply memRead_effect)
    | with_reducible refine Effect.after (Effect.snd (memRead_effect _ _ _ _) (by assumption)) ?_ ?_
    | extract_lets
    | split
    | (refine ⟨⟨?_⟩, id, id⟩; intro p hp; cases p <;> first | rfl | (intro _ _; rfl) | (refine absurd ?_ hp; decide)))

abbrev compStore_parts : List Part :=
  [.comps, .cores, .ctlMem, .eph, .events, .flt, .freeCtr, .heldWrites, .hostMem, .icuTimers, .mem, .poison, .scrub, .wakePending, .reg .arrPathStatus, .reg .ephLostCount, .reg .ephSeq, .reg .hbmFailCount, .reg .hbmOdeccCorrCount, .reg .hbmOdeccUncorrCount, .reg .hbmPcState, .reg .hbmPoisonCount, .reg .hbmRereadCount, .reg .hbmStatus, .reg .hifEventLostCount, .reg .hifRingHead, .reg .icuPend, .reg .spmFailCount, .reg .spmPoisonCount, .reg .spmRereadCount]

theorem compStore_effect {s s' : State} {die slot addr : Nat} {data : Bytes} {mf : MemFaults}
    (h : compStore s die slot addr data mf = some s') : Effect compStore_parts s s' := by
  unfold compStore at h
  dsimp only at h
  split at h
  · injection h with h
    subst h
    exact ((setCtlMem_effect _ _ _).mono (by decide +kernel)).trans ((setComp_effect _ _ _).mono (by decide +kernel))
  · split at h
    · injection h with h
      subst h
      exact (memWrite_effect _ _ _ _ _).mono (by decide +kernel)
    · exact absurd h (by simp)

theorem csrRead_effect (s : State) (die number : Nat) :
    Effect [.freeCtr] s (csrRead s die number).2 := by
  unfold csrRead
  repeat' (first
    | with_reducible exact Effect.refl _ _
    | (with_reducible show partsIn _ _ = true); decide +kernel
    | with_reducible apply Effect.ite
    | (with_reducible apply Effect.after; with_reducible apply fresh_effect)
    | with_reducible refine Effect.after (Effect.snd (fresh_effect _) (by assumption)) ?_ ?_
    | extract_lets
    | split
    | (refine ⟨⟨?_⟩, id, id⟩; intro p hp; cases p <;> first | rfl | (intro _ _; rfl) | (refine absurd ?_ hp; decide)))

abbrev compCtrlWrite_parts : List Part :=
  [.bridge, .comps, .ctlCores, .ctlMem, .eph, .events, .flt, .hostMem, .icuTimers, .poison, .scrub, .sync, .wakePending, .reg .arrPathStatus, .reg .ctlCompStatus, .reg .ctlCoreState, .reg .ephLostCount, .reg .ephSeq, .reg .hbmFailCount, .reg .hbmOdeccCorrCount, .reg .hbmOdeccUncorrCount, .reg .hbmPcState, .reg .hbmRereadCount, .reg .hbmStatus, .reg .hifEventLostCount, .reg .hifRingHead, .reg .icuPend, .reg .spmFailCount, .reg .spmRereadCount]

theorem compCtrlWrite_effect (s : State) (die slot value : Nat) (mf : MemFaults) :
    Effect compCtrlWrite_parts s (compCtrlWrite s die slot value mf) := by
  unfold compCtrlWrite
  repeat' (first
    | with_reducible exact Effect.refl _ _
    | (with_reducible show partsIn _ _ = true); decide +kernel
    | with_reducible apply Effect.ite
    | (with_reducible apply Effect.after; with_reducible apply compStart_effect)
    | (with_reducible apply Effect.after; with_reducible apply compStop_effect)
    | extract_lets
    | split
    | (refine ⟨⟨?_⟩, id, id⟩; intro p hp; cases p <;> first | rfl | (intro _ _; rfl) | (refine absurd ?_ hp; decide)))

end Sys2Proof.Machine
end

