-- ==== Sys2Proof/Laws/HostOpsEffect.lean ====
section
/-! SUPPORT. One effect lemma for each operation of Machine/HostOps.lean: the parts it may change. -/

set_option maxRecDepth 2000

set_option Elab.async false
set_option linter.unusedTactic false
set_option linter.unreachableTactic false
set_option linter.unusedVariables false
set_option linter.unusedSimpArgs false

namespace Sys2Proof.Machine

theorem unsupportedRequest_effect (s : State) :
    Effect [.answers] s (unsupportedRequest s) := by
  unfold unsupportedRequest
  repeat' (first
    | with_reducible exact Effect.refl _ _
    | (with_reducible show partsIn _ _ = true); decide +kernel
    | with_reducible apply Effect.ite
    | extract_lets
    | split
    | with_reducible apply effect_set_answers
    | (refine ⟨⟨?_⟩, id, id⟩; intro p hp; cases p <;> first | rfl | (intro _ _; rfl) | (refine absurd ?_ hp; decide)))

theorem refusedAt_effect (s : State) (die blk addr : Nat) (m : Master) (reason value : Nat) :
    Effect [.eph, .hostMem, .icuTimers, .wakePending, .reg .ephLostCount, .reg .ephSeq, .reg .hifRingHead, .reg .icuPend] s (refusedAt s die blk addr m reason value) := by
  unfold refusedAt
  repeat' (first
    | with_reducible exact Effect.refl _ _
    | (with_reducible show partsIn _ _ = true); decide +kernel
    | with_reducible apply Effect.ite
    | (with_reducible apply Effect.after; with_reducible apply emit_effect)
    | extract_lets
    | split
    | (refine ⟨⟨?_⟩, id, id⟩; intro p hp; cases p <;> first | rfl | (intro _ _; rfl) | (refine absurd ?_ hp; decide)))

abbrev crossBridge_parts : List Part :=
  [.eph, .hostMem, .icuTimers, .wakePending, .reg .ephLostCount, .reg .ephSeq, .reg .hifRingHead, .reg .icuPend, .reg .sidClampCount, .reg .sidCount]

theorem crossBridge_effect (s : State) (sender die : Nat) :
    Effect crossBridge_parts s (crossBridge s sender die) := by
  unfold crossBridge
  repeat' (first
    | with_reducible exact Effect.refl _ _
    | (with_reducible show partsIn _ _ = true); decide +kernel
    | with_reducible apply Effect.ite
    | (with_reducible apply Effect.after; with_reducible apply arriveStamp_effect)
    | extract_lets
    | split
    | (refine ⟨⟨?_⟩, id, id⟩; intro p hp; cases p <;> first | rfl | (intro _ _; rfl) | (refine absurd ?_ hp; decide)))

theorem barWrite_effect {w : List Part} {s0 s : State} {m : Sender} {die blk addr value : Nat} {f : State → State}
    (hw : partsIn [.answers, .eph, .hostMem, .icuTimers, .wakePending, .reg .ephLostCount, .reg .ephSeq, .reg .hifRingHead, .reg .icuPend, .reg .sidClampCount, .reg .sidCount] w = true) (hk : ∀ s', Effect w s' (f s')) (h : Effect w s0 s) :
    Effect w s0 (barWrite s m die blk addr value f) := by
  unfold barWrite
  repeat' split
  · exact h
  · exact (h.trans ((crossBridge_effect _ _ _).mono (partsIn_trans (by decide) hw))).trans (hk _)
  · exact h.trans ((unsupportedRequest_effect _).mono (partsIn_trans (by decide) hw))
  · exact h.trans ((refusedAt_effect _ _ _ _ _ _ _).mono (partsIn_trans (by decide) hw))
  · exact (h.trans ((crossBridge_effect _ _ _).mono (partsIn_trans (by decide) hw))).trans (hk _)

theorem bar0Write_effect {w : List Part} {s0 s : State} {m : Sender} {die blk addr value : Nat} {f : State → State}
    (hw : partsIn [.answers, .eph, .hostMem, .icuTimers, .wakePending, .reg .ephLostCount, .reg .ephSeq, .reg .hifRingHead, .reg .icuPend, .reg .sidClampCount, .reg .sidCount] w = true) (hk : ∀ s', Effect w s' (f s')) (h : Effect w s0 s) :
    Effect w s0 (bar0Write s m die blk addr value f) := by
  unfold bar0Write
  refine barWrite_effect hw (fun s' => ?_) h
  split
  · exact (refusedAt_effect _ _ _ _ _ _ _).mono (partsIn_trans (by decide) hw)
  · exact hk _

abbrev writeReg_parts : List Part :=
  (withRegs [.bridge, .comps, .ctlCores, .ctlMem, .eph, .events, .flt, .hostMem, .icuTimers, .poison, .repeating, .reportOwed, .rings, .scrub, .sid, .sync, .wakePending])

theorem writeReg_effect (s : State) (m : Master) (r : Reg) (die unit value : Nat) (ok : Bool) (mf : MemFaults) :
    Effect writeReg_parts s (writeReg s m r die unit value ok mf) := by
  unfold writeReg
  repeat' (first
    | with_reducible exact Effect.refl _ _
    | (with_reducible apply partsIn_all2); decide +kernel
    | (with_reducible apply partsIn_all1); decide +kernel
    | (with_reducible show partsIn _ _ = true); decide +kernel
    | with_reducible apply Effect.ite
    | (with_reducible apply Effect.after; with_reducible apply compCtrlWrite_effect)
    | (with_reducible apply Effect.after; with_reducible apply sourceSettle_effect)
    | (with_reducible apply Effect.after; with_reducible apply routeCtrlWrite_effect)
    | (with_reducible apply Effect.after; with_reducible apply sidSetWrite_effect)
    | (with_reducible apply Effect.after; with_reducible apply icuTargetWrite_effect)
    | (with_reducible apply Effect.after; with_reducible apply icuMaskWrite_effect)
    | (with_reducible apply Effect.after; with_reducible apply icuPendWrite_effect)
    | (with_reducible apply Effect.after; with_reducible apply ringBaseWrite_effect)
    | (with_reducible apply Effect.after; with_reducible apply ringSizeWrite_effect)
    | (with_reducible apply Effect.after; with_reducible apply plainWrite_effect)
    | extract_lets
    | split
    | (refine ⟨⟨?_⟩, id, id⟩; intro p hp; cases p <;> first | rfl | (intro _ _; rfl) | (refine absurd ?_ hp; decide)))

abbrev writeAt_parts : List Part :=
  (withRegs [.bridge, .comps, .ctlCores, .ctlMem, .eph, .events, .flt, .hostMem, .icuTimers, .poison, .repeating, .reportOwed, .rings, .scrub, .sid, .sync, .wakePending])

theorem writeAt_effect (s : State) (m : Master) (offset size value : Nat) (ok : Bool) (mf : MemFaults) :
    Effect writeAt_parts s (writeAt s m offset size value ok mf) := by
  unfold writeAt
  repeat' (first
    | with_reducible exact Effect.refl _ _
    | (with_reducible apply partsIn_all2); decide +kernel
    | (with_reducible apply partsIn_all1); decide +kernel
    | (with_reducible show partsIn _ _ = true); decide +kernel
    | with_reducible apply Effect.ite
    | (with_reducible apply Effect.after; with_reducible apply writeReg_effect)
    | (with_reducible apply Effect.after; with_reducible apply refusedAt_effect)
    | extract_lets
    | split
    | (refine ⟨⟨?_⟩, id, id⟩; intro p hp; cases p <;> first | rfl | (intro _ _; rfl) | (refine absurd ?_ hp; decide)))

theorem ringsDown_effect (s : State) :
    Effect [.rings] s (ringsDown s) := by
  unfold ringsDown
  repeat' (first
    | with_reducible exact Effect.refl _ _
    | (with_reducible show partsIn _ _ = true); decide +kernel
    | with_reducible apply Effect.ite
    | extract_lets
    | split
    | with_reducible apply effect_set_rings
    | (refine ⟨⟨?_⟩, id, id⟩; intro p hp; cases p <;> first | rfl | (intro _ _; rfl) | (refine absurd ?_ hp; decide)))

theorem linkDown_effect (s : State) :
    Effect (withRegs [.d3hot, .linkUp, .rings]) s (linkDown s) := by
  unfold linkDown
  repeat' (first
    | with_reducible exact Effect.refl _ _
    | (with_reducible show HostIn _ _ _); constructor <;> first | exact Or.inl (by with_reducible rfl) | exact Or.inr (by decide) | exact Or.inl rfl
    | (with_reducible apply partsIn_all2); decide +kernel
    | (with_reducible apply partsIn_all1); decide +kernel
    | (with_reducible show partsIn _ _ = true); decide +kernel
    | with_reducible apply Effect.ite
    | (with_reducible apply Effect.after; with_reducible apply ringsDown_effect)
    | (with_reducible apply Effect.after; with_reducible apply resetLives_effect)
    | extract_lets
    | split
    | with_reducible apply effect_set_host
    | (refine ⟨⟨?_⟩, id, id⟩; intro p hp; cases p <;> first | rfl | (intro _ _; rfl) | (refine absurd ?_ hp; decide)))

abbrev releaseLine_parts : List Part :=
  [.bridge, .eph, .flowsTx, .heldWrites, .hostMem, .icuTimers, .mcasts, .mem, .snoop, .sync, .wakePending, .reg .ephLostCount, .reg .ephSeq, .reg .hifRingHead, .reg .icuPend, .reg .synLostCount]

theorem releaseLine_effect (s : State) (die line : Nat) :
    Effect releaseLine_parts s (releaseLine s die line) := by
  unfold releaseLine
  repeat' (first
    | with_reducible exact Effect.refl _ _
    | (with_reducible show MemInv _ → MemInv _); first | exact fun h => ⟨bytesWf_putSome _ _ _ _ h.1, h.2⟩ | exact fun h => ⟨bytesWf_putBytes _ _ _ h.1, h.2⟩ | exact fun h => ⟨h.1, bytesWf_putBytes _ _ _ h.2⟩ | exact fun h => ⟨bytesWf_filter _ h.1, h.2⟩ | exact fun h => ⟨rfl, h.2⟩ | exact fun h => ⟨bytesWf_foldl _ (fun _ _ => bytesWf_putByte _ _) _ _ h.1, h.2⟩ | exact fun h => ⟨bytesWf_foldl _ (fun _ _ => bytesWf_foldl _ (fun _ _ => bytesWf_putByte _ _) _ _) _ _ h.1, h.2⟩
    | (with_reducible show partsIn _ _ = true); decide +kernel
    | with_reducible apply Effect.ite
    | (with_reducible apply Effect.after; with_reducible apply mcastSettle_effect)
    | (with_reducible apply Effect.trans; pick_goal 2; with_reducible apply Effect.foldl; intro _ _)
    | extract_lets
    | split
    | with_reducible apply effect_set_snoop_heldWrites
    | with_reducible apply effect_set_mem
    | (refine ⟨⟨?_⟩, id, id⟩; intro p hp; cases p <;> first | rfl | (intro _ _; rfl) | (refine absurd ?_ hp; decide)))

abbrev grantLine_parts : List Part :=
  [.bridge, .eph, .flowsTx, .heldWrites, .hostMem, .icuTimers, .mcasts, .mem, .snoop, .sync, .wakePending, .reg .ephLostCount, .reg .ephSeq, .reg .hifRingHead, .reg .icuPend, .reg .synLostCount]

theorem grantLine_effect (s : State) (die line : Nat) :
    Effect grantLine_parts s (grantLine s die line) := by
  unfold grantLine
  repeat' (first
    | with_reducible exact Effect.refl _ _
    | (with_reducible show partsIn _ _ = true); decide +kernel
    | with_reducible apply Effect.ite
    | (with_reducible apply Effect.after; with_reducible apply releaseLine_effect)
    | extract_lets
    | split
    | with_reducible apply effect_set_snoop
    | (refine ⟨⟨?_⟩, id, id⟩; intro p hp; cases p <;> first | rfl | (intro _ _; rfl) | (refine absurd ?_ hp; decide)))

abbrev cxlSector_parts : List Part :=
  [.eph, .events, .flt, .hostMem, .icuTimers, .poison, .scrub, .wakePending, .reg .arrPathStatus, .reg .ephLostCount, .reg .ephSeq, .reg .hbmCxlPoisonCount, .reg .hbmFailCount, .reg .hbmOdeccCorrCount, .reg .hbmOdeccUncorrCount, .reg .hbmPcState, .reg .hbmRereadCount, .reg .hbmStatus, .reg .hifEventLostCount, .reg .hifRingHead, .reg .icuPend, .reg .spmFailCount, .reg .spmRereadCount]

theorem cxlSector_effect (s : State) (a : Nat) (o : ReadOutcome) :
    Effect cxlSector_parts s (cxlSector s a o).2 := by
  unfold cxlSector
  repeat' (first
    | with_reducible exact Effect.refl _ _
    | (with_reducible show partsIn _ _ = true); decide +kernel
    | with_reducible apply Effect.ite
    | (with_reducible apply Effect.after; with_reducible apply sectorRead_effect)
    | with_reducible refine Effect.after (Effect.snd (sectorRead_effect _ _ _) (by assumption)) ?_ ?_
    | (with_reducible apply Effect.after; with_reducible apply bump_effect)
    | extract_lets
    | split
    | (refine ⟨⟨?_⟩, id, id⟩; intro p hp; cases p <;> first | rfl | (intro _ _; rfl) | (refine absurd ?_ hp; decide)))

theorem startRestart_effect (s : State) (k : RestartKind) :
    Effect [.ctlCores, .rdybsyN, .restart] s (startRestart s k) := by
  unfold startRestart
  repeat' (first
    | with_reducible exact Effect.refl _ _
    | (with_reducible show HostIn _ _ _); constructor <;> first | exact Or.inl (by with_reducible rfl) | exact Or.inr (by decide) | exact Or.inl rfl
    | (with_reducible show partsIn _ _ = true); decide +kernel
    | with_reducible apply Effect.ite
    | extract_lets
    | split
    | with_reducible apply effect_set_ctlCores
    | with_reducible apply effect_set_host
    | (refine ⟨⟨?_⟩, id, id⟩; intro p hp; cases p <;> first | rfl | (intro _ _; rfl) | (refine absurd ?_ hp; decide)))

theorem noteAct_effect (s : State) (item outcome : Nat) (m : Master) :
    Effect [.acts] s (noteAct s item outcome m) := by
  unfold noteAct
  repeat' (first
    | with_reducible exact Effect.refl _ _
    | (with_reducible show partsIn _ _ = true); decide +kernel
    | with_reducible apply Effect.ite
    | extract_lets
    | split
    | with_reducible apply effect_set_acts
    | (refine ⟨⟨?_⟩, id, id⟩; intro p hp; cases p <;> first | rfl | (intro _ _; rfl) | (refine absurd ?_ hp; decide)))

abbrev actRecords_parts : List Part :=
  [.eph, .events, .hostMem, .icuTimers, .wakePending, .reg .ephLostCount, .reg .ephSeq, .reg .hifEventLostCount, .reg .hifRingHead, .reg .icuPend]

theorem actRecords_effect (s : State) (item : Nat) (loser winner : Master) (type tag : Nat) :
    Effect actRecords_parts s (actRecords s item loser winner type tag) := by
  unfold actRecords
  repeat' (first
    | with_reducible exact Effect.refl _ _
    | (with_reducible show partsIn _ _ = true); decide +kernel
    | with_reducible apply Effect.ite
    | (with_reducible apply Effect.after; with_reducible apply event_effect)
    | (with_reducible apply Effect.after; with_reducible apply masterRec_effect)
    | extract_lets
    | split
    | (refine ⟨⟨?_⟩, id, id⟩; intro p hp; cases p <;> first | rfl | (intro _ _; rfl) | (refine absurd ?_ hp; decide)))

theorem hostAct_effect {w : List Part} {s0 s : State} {item outcome : Nat} {d : Desc} {refused : Bool} {k : State → State}
    (hw : partsIn [.acts, .eph, .events, .hostMem, .icuTimers, .rings, .wakePending, .reg .ephLostCount, .reg .ephSeq, .reg .hifEventLostCount, .reg .hifRingHead, .reg .icuPend, .reg .pwrStatus] w = true) (hk : ∀ s', Effect w s' (k s')) (h : Effect w s0 s) :
    Effect w s0 (hostAct s item outcome d refused k) := by
  unfold hostAct
  repeat' split
  · exact (h.trans ((actRecords_effect _ _ _ _ _ _).mono (partsIn_trans (by decide) hw))).trans
      ((finishWith_effect _ _ _ _ _).mono (partsIn_trans (by decide) hw))
  · exact h.trans ((finishWith_effect _ _ _ _ _).mono (partsIn_trans (by decide) hw))
  · exact (h.trans ((noteAct_effect _ _ _ _).mono (partsIn_trans (by decide) hw))).trans (hk _)

theorem jobOver_effect (s : State) :
    Effect [.icuTimers, .job, .wakePending, .reg .icuPend, .reg .jobStatus, .reg .spmZeroStatus] s (jobOver s) := by
  unfold jobOver
  repeat' (first
    | with_reducible exact Effect.refl _ _
    | (with_reducible show partsIn _ _ = true); decide +kernel
    | with_reducible apply Effect.ite
    | (with_reducible apply Effect.after; with_reducible apply setJobState_effect)
    | (with_reducible apply Effect.after; with_reducible apply wf_effect)
    | extract_lets
    | split
    | with_reducible apply effect_set_job
    | (refine ⟨⟨?_⟩, id, id⟩; intro p hp; cases p <;> first | rfl | (intro _ _; rfl) | (refine absurd ?_ hp; decide)))

abbrev completionEffect_parts : List Part :=
  [.ctlCores, .icuTimers, .job, .rdybsyN, .restart, .wakePending, .reg .icuPend, .reg .jobStatus, .reg .spmZeroStatus]

theorem completionEffect_effect (s : State) (c : Completion) :
    Effect completionEffect_parts s (completionEffect s c) := by
  unfold completionEffect
  repeat' (first
    | with_reducible exact Effect.refl _ _
    | (with_reducible show partsIn _ _ = true); decide +kernel
    | with_reducible apply Effect.ite
    | (with_reducible apply Effect.after; with_reducible apply jobOver_effect)
    | (with_reducible apply Effect.after; with_reducible apply startRestart_effect)
    | (with_reducible apply Effect.after; with_reducible apply setJobState_effect)
    | (with_reducible apply Effect.after; with_reducible apply wf_effect)
    | extract_lets
    | split
    | (refine ⟨⟨?_⟩, id, id⟩; intro p hp; cases p <;> first | rfl | (intro _ _; rfl) | (refine absurd ?_ hp; decide)))

end Sys2Proof.Machine
end

