-- ==== Sys2Proof/Laws/JobOpsEffect.lean ====
section
/-! SUPPORT. One effect lemma for each operation of Machine/JobOps.lean: the parts it may change. -/

set_option maxRecDepth 2000

set_option Elab.async false
set_option linter.unusedTactic false
set_option linter.unreachableTactic false
set_option linter.unusedVariables false
set_option linter.unusedSimpArgs false

namespace Sys2Proof.Machine

abbrev applyLedger_parts : List Part :=
  (withRegs [.flash, .flt, .freeCtr, .job, .unusable])

theorem applyLedger_effect (s : State) :
    Effect applyLedger_parts s (applyLedger s) := by
  unfold applyLedger
  repeat' (first
    | with_reducible exact Effect.refl _ _
    | (with_reducible apply partsIn_all2); decide +kernel
    | (with_reducible apply partsIn_all1); decide +kernel
    | (with_reducible show partsIn _ _ = true); decide +kernel
    | with_reducible apply Effect.ite
    | (with_reducible apply Effect.after; with_reducible apply accelSettle_effect)
    | (with_reducible apply Effect.after; with_reducible apply ledgerRead_effect)
    | (with_reducible apply Effect.after; with_reducible apply ledgerStore_effect)
    | (with_reducible apply Effect.after; with_reducible apply wf_effect)
    | extract_lets
    | split
    | with_reducible apply effect_set_flt
    | with_reducible apply effect_set_unusable
    | with_reducible apply effect_set_job
    | (refine ⟨⟨?_⟩, id, id⟩; intro p hp; cases p <;> first | rfl | (intro _ _; rfl) | (refine absurd ?_ hp; decide)))

theorem clearWindows_effect (s : State) :
    Effect [.job, .reg .spmResStatus, .reg .spmResWindow] s (clearWindows s) := by
  unfold clearWindows
  repeat' (first
    | with_reducible exact Effect.refl _ _
    | (with_reducible show partsIn _ _ = true); decide +kernel
    | with_reducible apply Effect.ite
    | (with_reducible apply Effect.after; with_reducible apply wf_effect)
    | (with_reducible apply Effect.after; with_reducible apply wr_effect)
    | (with_reducible apply Effect.trans; pick_goal 2; with_reducible apply Effect.foldl; intro _ _)
    | extract_lets
    | split
    | with_reducible apply effect_set_job
    | (refine ⟨⟨?_⟩, id, id⟩; intro p hp; cases p <;> first | rfl | (intro _ _; rfl) | (refine absurd ?_ hp; decide)))

abbrev residencyBegin_parts : List Part :=
  [.eph, .heldWrites, .hostMem, .icuTimers, .job, .mem, .poison, .wakePending, .reg .ephLostCount, .reg .ephSeq, .reg .hifRingHead, .reg .icuPend, .reg .spmResStatus, .reg .spmResWindow, .reg .spmZeroStatus]

theorem residencyBegin_effect (s : State) (key : Nat) (listChanged : Bool) :
    Effect residencyBegin_parts s (residencyBegin s key listChanged) := by
  unfold residencyBegin
  repeat' (first
    | with_reducible exact Effect.refl _ _
    | (with_reducible show partsIn _ _ = true); decide +kernel
    | with_reducible apply Effect.ite
    | (with_reducible apply Effect.after; with_reducible apply clearWindows_effect)
    | (with_reducible apply Effect.after; with_reducible apply zeroRange_effect)
    | (with_reducible apply Effect.after; with_reducible apply countRec_effect)
    | (with_reducible apply Effect.after; with_reducible apply wf_effect)
    | (with_reducible apply Effect.trans; pick_goal 2; with_reducible apply Effect.foldl; intro _ _)
    | extract_lets
    | split
    | (refine ⟨⟨?_⟩, id, id⟩; intro p hp; cases p <;> first | rfl | (intro _ _; rfl) | (refine absurd ?_ hp; decide)))

abbrev writeReport_parts : List Part :=
  [.eph, .events, .hostMem, .icuTimers, .reportOwed, .rings, .wakePending, .reg .ephLostCount, .reg .ephSeq, .reg .hifEventLostCount, .reg .hifFetchFaultCount, .reg .hifRingHead, .reg .hifRingState, .reg .icuPend]

theorem writeReport_effect (s : State) (d : Desc) (addr stamp : Nat) (ok : Bool) :
    Effect writeReport_parts s (writeReport s d addr stamp ok) := by
  unfold writeReport
  repeat' (first
    | with_reducible exact Effect.refl _ _
    | (with_reducible show HostIn _ _ _); constructor <;> first | exact Or.inl (by with_reducible rfl) | exact Or.inr (by decide) | exact Or.inl rfl
    | (with_reducible show partsIn _ _ = true); decide +kernel
    | with_reducible apply Effect.ite
    | (with_reducible apply Effect.after; with_reducible apply ringFault_effect)
    | (with_reducible apply Effect.after; with_reducible apply hostWrite_effect)
    | extract_lets
    | split
    | with_reducible apply effect_set_host
    | (refine ⟨⟨?_⟩, id, id⟩; intro p hp; cases p <;> first | rfl | (intro _ _; rfl) | (refine absurd ?_ hp; decide)))

abbrev jobClear_parts : List Part :=
  (withRegs [.bridge, .clk, .cols, .comps, .cores, .ctlCores, .eph, .flowsRx, .flowsTx, .heldWrites, .hostMem, .icuTimers, .job, .mem, .poison, .pwr, .sync, .wakePending])

theorem jobClear_effect (s : State) (keep : List Span) :
    Effect jobClear_parts s (jobClear s keep) := by
  unfold jobClear
  repeat' (first
    | with_reducible exact Effect.refl _ _
    | (with_reducible apply partsIn_all2); decide +kernel
    | (with_reducible apply partsIn_all1); decide +kernel
    | (with_reducible show partsIn _ _ = true); decide +kernel
    | with_reducible apply Effect.ite
    | (with_reducible apply Effect.after; with_reducible apply compStopAll_effect)
    | (with_reducible apply Effect.after; with_reducible apply bankStretch_effect)
    | (with_reducible apply Effect.after; with_reducible apply endHelio_effect)
    | (with_reducible apply Effect.after; with_reducible apply flowsRestart_effect)
    | (with_reducible apply Effect.after; with_reducible apply zeroWhere_effect)
    | (with_reducible apply Effect.after; with_reducible apply countRecords_effect)
    | (with_reducible apply Effect.after; with_reducible apply resetLives_effect)
    | (with_reducible apply Effect.after; with_reducible apply wf_effect)
    | (with_reducible apply Effect.trans; pick_goal 2; with_reducible apply Effect.foldl; intro _ _)
    | extract_lets
    | split
    | with_reducible apply effect_set_cores_sync_bridge_cols_comps_pwr_job
    | (refine ⟨⟨?_⟩, id, id⟩; intro p hp; cases p <;> first | rfl | (intro _ _; rfl) | (refine absurd ?_ hp; decide)))

theorem killRing_effect (s : State) (die n : Nat) :
    Effect [.rings, .reg .hifRingHead] s (killRing s die n) := by
  unfold killRing
  repeat' (first
    | with_reducible exact Effect.refl _ _
    | (with_reducible show partsIn _ _ = true); decide +kernel
    | with_reducible apply Effect.ite
    | (with_reducible apply Effect.after; with_reducible apply setRing_effect)
    | (with_reducible apply Effect.after; with_reducible apply wr_effect)
    | (with_reducible apply Effect.trans; pick_goal 2; with_reducible apply Effect.foldl; intro _ _)
    | extract_lets
    | split
    | (refine ⟨⟨?_⟩, id, id⟩; intro p hp; cases p <;> first | rfl | (intro _ _; rfl) | (refine absurd ?_ hp; decide)))

abbrev killWork_parts : List Part :=
  [.bridge, .colEnded, .cols, .cores, .eph, .flowsTx, .hostMem, .icuTimers, .rings, .sync, .wakePending, .reg .colPartialCount, .reg .colRunCount, .reg .colStatus, .reg .ephLostCount, .reg .ephSeq, .reg .hifRingHead, .reg .icuPend, .reg .pwrStatus, .reg .seqReplayCycles, .reg .seqSlipCycles, .reg .seqState, .reg .seqWaitCycles, .reg .synLostCount, .reg .synReleaseCount]

theorem killWork_effect (s : State) :
    Effect killWork_parts s (killWork s) := by
  unfold killWork
  repeat' (first
    | with_reducible exact Effect.refl _ _
    | (with_reducible show partsIn _ _ = true); decide +kernel
    | with_reducible apply Effect.ite
    | (with_reducible apply Effect.after; with_reducible apply killRing_effect)
    | (with_reducible apply Effect.after; with_reducible apply endRun_effect)
    | (with_reducible apply Effect.after; with_reducible apply stopRun_effect)
    | (with_reducible apply Effect.after; with_reducible apply endStream_effect)
    | (with_reducible apply Effect.trans; pick_goal 2; with_reducible apply Effect.foldl; intro _ _)
    | extract_lets
    | split
    | (refine ⟨⟨?_⟩, id, id⟩; intro p hp; cases p <;> first | rfl | (intro _ _; rfl) | (refine absurd ?_ hp; decide)))

abbrev killJob_parts : List Part :=
  (withRegs [.bridge, .clk, .colEnded, .cols, .comps, .cores, .ctlCores, .eph, .flowsRx, .flowsTx, .heldWrites, .hostMem, .icuTimers, .job, .mem, .poison, .pwr, .rings, .sync, .wakePending])

theorem killJob_effect (s : State) (m : Master) :
    Effect killJob_parts s (killJob s m) := by
  unfold killJob
  repeat' (first
    | with_reducible exact Effect.refl _ _
    | (with_reducible apply partsIn_all2); decide +kernel
    | (with_reducible apply partsIn_all1); decide +kernel
    | (with_reducible show partsIn _ _ = true); decide +kernel
    | with_reducible apply Effect.ite
    | (with_reducible apply Effect.after; with_reducible apply killWork_effect)
    | (with_reducible apply Effect.after; with_reducible apply jobClear_effect)
    | (with_reducible apply Effect.after; with_reducible apply clearWindows_effect)
    | (with_reducible apply Effect.after; with_reducible apply settlePower_effect)
    | (with_reducible apply Effect.after; with_reducible apply setJobState_effect)
    | (with_reducible apply Effect.after; with_reducible apply wf_effect)
    | extract_lets
    | split
    | (refine ⟨⟨?_⟩, id, id⟩; intro p hp; cases p <;> first | rfl | (intro _ _; rfl) | (refine absurd ?_ hp; decide)))

abbrev killSettle_parts : List Part :=
  [.eph, .events, .hostMem, .icuTimers, .job, .wakePending, .reg .ephLostCount, .reg .ephSeq, .reg .hifEventLostCount, .reg .hifRingHead, .reg .icuPend, .reg .jobStatus, .reg .spmZeroStatus]

theorem killSettle_effect (s : State) :
    Effect killSettle_parts s (killSettle s) := by
  unfold killSettle
  repeat' (first
    | with_reducible exact Effect.refl _ _
    | (with_reducible show partsIn _ _ = true); decide +kernel
    | with_reducible apply Effect.ite
    | (with_reducible apply Effect.after; with_reducible apply jobOver_effect)
    | (with_reducible apply Effect.after; with_reducible apply event_effect)
    | extract_lets
    | split
    | (refine ⟨⟨?_⟩, id, id⟩; intro p hp; cases p <;> first | rfl | (intro _ _; rfl) | (refine absurd ?_ hp; decide)))

abbrev supersede_parts : List Part :=
  [.eph, .events, .hostMem, .icuTimers, .rings, .wakePending, .reg .ephLostCount, .reg .ephSeq, .reg .hifEventLostCount, .reg .hifRingHead, .reg .icuPend]

theorem supersede_effect (s : State) (item : Nat) (m : Master) (c : Completion) :
    Effect supersede_parts s (supersede s item m c) := by
  unfold supersede
  repeat' (first
    | with_reducible exact Effect.refl _ _
    | (with_reducible show partsIn _ _ = true); decide +kernel
    | with_reducible apply Effect.ite
    | (with_reducible apply Effect.after; with_reducible apply actRecords_effect)
    | (with_reducible apply Effect.after; with_reducible apply setRing_effect)
    | extract_lets
    | split
    | (refine ⟨⟨?_⟩, id, id⟩; intro p hp; cases p <;> first | rfl | (intro _ _; rfl) | (refine absurd ?_ hp; decide)))

abbrev firmwareLoses_parts : List Part :=
  [.eph, .events, .hostMem, .icuTimers, .wakePending, .reg .ephLostCount, .reg .ephSeq, .reg .hifEventLostCount, .reg .hifRingHead, .reg .icuPend]

theorem firmwareLoses_effect (s : State) (item : Nat) (c : Completion) :
    Effect firmwareLoses_parts s (firmwareLoses s item c) := by
  unfold firmwareLoses
  repeat' (first
    | with_reducible exact Effect.refl _ _
    | (with_reducible show partsIn _ _ = true); decide +kernel
    | with_reducible apply Effect.ite
    | (with_reducible apply Effect.after; with_reducible apply actRecords_effect)
    | extract_lets
    | split
    | (refine ⟨⟨?_⟩, id, id⟩; intro p hp; cases p <;> first | rfl | (intro _ _; rfl) | (refine absurd ?_ hp; decide)))

abbrev killNow_parts : List Part :=
  (withRegs [.acts, .bridge, .clk, .colEnded, .cols, .comps, .cores, .ctlCores, .eph, .events, .flowsRx, .flowsTx, .heldWrites, .hostMem, .icuTimers, .job, .mem, .poison, .pwr, .rings, .sync, .wakePending])

theorem killNow_effect (s : State) (m : Master) :
    Effect killNow_parts s (killNow s m) := by
  unfold killNow
  repeat' (first
    | with_reducible exact Effect.refl _ _
    | (with_reducible apply partsIn_all2); decide +kernel
    | (with_reducible apply partsIn_all1); decide +kernel
    | (with_reducible show partsIn _ _ = true); decide +kernel
    | with_reducible apply Effect.ite
    | (with_reducible apply Effect.after; with_reducible apply killSettle_effect)
    | (with_reducible apply Effect.after; with_reducible apply killJob_effect)
    | (with_reducible apply Effect.after; with_reducible apply noteAct_effect)
    | extract_lets
    | split
    | with_reducible apply effect_set_job
    | (refine ⟨⟨?_⟩, id, id⟩; intro p hp; cases p <;> first | rfl | (intro _ _; rfl) | (refine absurd ?_ hp; decide)))

abbrev killByOther_parts : List Part :=
  (withRegs [.acts, .bridge, .clk, .colEnded, .cols, .comps, .cores, .ctlCores, .eph, .events, .flowsRx, .flowsTx, .heldWrites, .hostMem, .icuTimers, .job, .mem, .poison, .pwr, .rings, .sync, .wakePending])

theorem killByOther_effect (s : State) (m : Master) :
    Effect killByOther_parts s (killByOther s m).2 := by
  unfold killByOther
  repeat' (first
    | with_reducible exact Effect.refl _ _
    | (with_reducible apply partsIn_all2); decide +kernel
    | (with_reducible apply partsIn_all1); decide +kernel
    | (with_reducible show partsIn _ _ = true); decide +kernel
    | with_reducible apply Effect.ite
    | (with_reducible apply Effect.after; with_reducible apply killNow_effect)
    | (with_reducible apply Effect.after; with_reducible apply firmwareLoses_effect)
    | (with_reducible apply Effect.after; with_reducible apply supersede_effect)
    | (with_reducible apply Effect.after; with_reducible apply actRecords_effect)
    | extract_lets
    | split
    | (refine ⟨⟨?_⟩, id, id⟩; intro p hp; cases p <;> first | rfl | (intro _ _; rfl) | (refine absurd ?_ hp; decide)))

abbrev overruleLowPower_parts : List Part :=
  [.eph, .events, .hostMem, .icuTimers, .lowPower, .lowPowerAsk, .rings, .wakePending, .reg .ephLostCount, .reg .ephSeq, .reg .hifEventLostCount, .reg .hifRingHead, .reg .icuPend]

theorem overruleLowPower_effect (s : State) (m : Master) :
    Effect overruleLowPower_parts s (overruleLowPower s m) := by
  unfold overruleLowPower
  repeat' (first
    | with_reducible exact Effect.refl _ _
    | (with_reducible show HostIn _ _ _); constructor <;> first | exact Or.inl (by with_reducible rfl) | exact Or.inr (by decide) | exact Or.inl rfl
    | (with_reducible show partsIn _ _ = true); decide +kernel
    | with_reducible apply Effect.ite
    | (with_reducible apply Effect.after; with_reducible apply supersede_effect)
    | extract_lets
    | split
    | with_reducible apply effect_set_host
    | (refine ⟨⟨?_⟩, id, id⟩; intro p hp; cases p <;> first | rfl | (intro _ _; rfl) | (refine absurd ?_ hp; decide)))

end Sys2Proof.Machine
end

