-- ==== Sys2Proof/Laws/HostEffect.lean ====
section
/-! SUPPORT. One effect lemma for each operation of Machine/Host.lean: the parts it may change. -/

set_option maxRecDepth 2000

set_option Elab.async false
set_option linter.unusedTactic false
set_option linter.unreachableTactic false
set_option linter.unusedVariables false
set_option linter.unusedSimpArgs false

namespace Sys2Proof.Machine

theorem timerWrite_effect (s : State) (die core value : Nat) :
    Effect [.ctlCores] s (timerWrite s die core value) := by
  unfold timerWrite
  repeat' (first
    | with_reducible exact Effect.refl _ _
    | (with_reducible show partsIn _ _ = true); decide +kernel
    | with_reducible apply Effect.ite
    | (with_reducible apply Effect.after; with_reducible apply setCtlCore_effect)
    | extract_lets
    | split
    | (refine ⟨⟨?_⟩, id, id⟩; intro p hp; cases p <;> first | rfl | (intro _ _; rfl) | (refine absurd ?_ hp; decide)))

abbrev doorbellRefused_parts : List Part :=
  [.eph, .events, .hostMem, .icuTimers, .wakePending, .reg .ephLostCount, .reg .ephSeq, .reg .hifDbErrCount, .reg .hifEventLostCount, .reg .hifRingHead, .reg .icuPend]

theorem doorbellRefused_effect (s : State) (die n count tail : Nat) :
    Effect doorbellRefused_parts s (doorbellRefused s die n count tail) := by
  unfold doorbellRefused
  repeat' (first
    | with_reducible exact Effect.refl _ _
    | (with_reducible show partsIn _ _ = true); decide +kernel
    | with_reducible apply Effect.ite
    | (with_reducible apply Effect.after; with_reducible apply event_effect)
    | (with_reducible apply Effect.after; with_reducible apply irq_effect)
    | (with_reducible apply Effect.after; with_reducible apply bump_effect)
    | extract_lets
    | split
    | (refine ⟨⟨?_⟩, id, id⟩; intro p hp; cases p <;> first | rfl | (intro _ _; rfl) | (refine absurd ?_ hp; decide)))

theorem doorbellRec_effect (s : State) (die n count tail : Nat) :
    Effect [.eph, .hostMem, .icuTimers, .wakePending, .reg .ephLostCount, .reg .ephSeq, .reg .hifRingHead, .reg .icuPend] s (doorbellRec s die n count tail) := by
  unfold doorbellRec
  repeat' (first
    | with_reducible exact Effect.refl _ _
    | (with_reducible show partsIn _ _ = true); decide +kernel
    | with_reducible apply Effect.ite
    | (with_reducible apply Effect.after; with_reducible apply emit_effect)
    | extract_lets
    | split
    | (refine ⟨⟨?_⟩, id, id⟩; intro p hp; cases p <;> first | rfl | (intro _ _; rfl) | (refine absurd ?_ hp; decide)))

abbrev doorbellWrite_parts : List Part :=
  [.eph, .events, .hostMem, .icuTimers, .wakePending, .reg .ephLostCount, .reg .ephSeq, .reg .hifDbErrCount, .reg .hifEventLostCount, .reg .hifRingHead, .reg .hifRingTail, .reg .icuPend]

theorem doorbellWrite_effect (s : State) (die n v : Nat) :
    Effect doorbellWrite_parts s (doorbellWrite s die n v) := by
  unfold doorbellWrite
  repeat' (first
    | with_reducible exact Effect.refl _ _
    | (with_reducible show partsIn _ _ = true); decide +kernel
    | with_reducible apply Effect.ite
    | (with_reducible apply Effect.after; with_reducible apply doorbellRec_effect)
    | (with_reducible apply Effect.after; with_reducible apply doorbellRefused_effect)
    | (with_reducible apply Effect.after; with_reducible apply wr_effect)
    | extract_lets
    | split
    | (refine ⟨⟨?_⟩, id, id⟩; intro p hp; cases p <;> first | rfl | (intro _ _; rfl) | (refine absurd ?_ hp; decide)))

abbrev consumerWrite_parts : List Part :=
  [.eph, .events, .hostMem, .icuTimers, .wakePending, .reg .ephLostCount, .reg .ephSeq, .reg .hifDbErrCount, .reg .hifEventLostCount, .reg .hifRingHead, .reg .hifRingTail, .reg .icuPend]

theorem consumerWrite_effect (s : State) (die n v : Nat) :
    Effect consumerWrite_parts s (consumerWrite s die n v) := by
  unfold consumerWrite
  repeat' (first
    | with_reducible exact Effect.refl _ _
    | (with_reducible show partsIn _ _ = true); decide +kernel
    | with_reducible apply Effect.ite
    | (with_reducible apply Effect.after; with_reducible apply doorbellRec_effect)
    | (with_reducible apply Effect.after; with_reducible apply doorbellRefused_effect)
    | (with_reducible apply Effect.after; with_reducible apply wr_effect)
    | extract_lets
    | split
    | (refine ⟨⟨?_⟩, id, id⟩; intro p hp; cases p <;> first | rfl | (intro _ _; rfl) | (refine absurd ?_ hp; decide)))

abbrev zeroingOver_parts : List Part :=
  [.eph, .events, .flt, .hostMem, .icuTimers, .wakePending, .reg .arrPathStatus, .reg .ephLostCount, .reg .ephSeq, .reg .hbmPcState, .reg .hbmStatus, .reg .hifEventLostCount, .reg .hifRingHead, .reg .icuPend]

theorem zeroingOver_effect (s : State) (c : Completion) (parity : List Nat) :
    Effect zeroingOver_parts s (zeroingOver s c parity) := by
  unfold zeroingOver
  repeat' (first
    | with_reducible exact Effect.refl _ _
    | (with_reducible show partsIn _ _ = true); decide +kernel
    | with_reducible apply Effect.ite
    | (with_reducible apply Effect.after; with_reducible apply parityRetry_effect)
    | (with_reducible apply Effect.trans; pick_goal 2; with_reducible apply Effect.foldl; intro _ _)
    | extract_lets
    | split
    | (refine ⟨⟨?_⟩, id, id⟩; intro p hp; cases p <;> first | rfl | (intro _ _; rfl) | (refine absurd ?_ hp; decide)))

theorem memRefused_effect (s : State) (addr : Nat) :
    Effect [.eph, .hostMem, .icuTimers, .wakePending, .reg .ephLostCount, .reg .ephSeq, .reg .hifRingHead, .reg .icuPend] s (memRefused s addr) := by
  unfold memRefused
  repeat' (first
    | with_reducible exact Effect.refl _ _
    | (with_reducible show partsIn _ _ = true); decide +kernel
    | with_reducible apply Effect.ite
    | (with_reducible apply Effect.after; with_reducible apply refusedRec_effect)
    | extract_lets
    | split
    | (refine ⟨⟨?_⟩, id, id⟩; intro p hp; cases p <;> first | rfl | (intro _ _; rfl) | (refine absurd ?_ hp; decide)))

theorem flushEph_effect  (n : Nat) : ∀ (s : State) (die : Nat),
    Effect [.eph, .hostMem, .icuTimers, .wakePending, .reg .hifRingHead, .reg .icuPend] s (flushEph n s die) := by
  induction n with
  | zero => intros; unfold flushEph; exact Effect.refl _ _
  | succ n ih =>
    intros; unfold flushEph
    repeat' (first
      | with_reducible exact Effect.refl _ _
      | (with_reducible show partsIn _ _ = true); decide +kernel
      | with_reducible apply Effect.ite
      | (with_reducible apply Effect.after; with_reducible apply ih)
      | (with_reducible apply Effect.after; with_reducible apply ringPut_effect)
      | (with_reducible apply Effect.after; with_reducible apply setEph_effect)
      | extract_lets
      | split
      | (refine ⟨⟨?_⟩, id, id⟩; intro p hp; cases p <;> first | rfl | (intro _ _; rfl) | (refine absurd ?_ hp; decide)))

theorem flushEvents_effect  (n : Nat) : ∀ (s : State) (die : Nat),
    Effect [.events, .hostMem, .icuTimers, .wakePending, .reg .hifRingHead, .reg .icuPend] s (flushEvents n s die) := by
  induction n with
  | zero => intros; unfold flushEvents; exact Effect.refl _ _
  | succ n ih =>
    intros; unfold flushEvents
    repeat' (first
      | with_reducible exact Effect.refl _ _
      | (with_reducible show partsIn _ _ = true); decide +kernel
      | with_reducible apply Effect.ite
      | (with_reducible apply Effect.after; with_reducible apply ih)
      | (with_reducible apply Effect.after; with_reducible apply setEvents_effect)
      | (with_reducible apply Effect.after; with_reducible apply ringPut_effect)
      | extract_lets
      | split
      | (refine ⟨⟨?_⟩, id, id⟩; intro p hp; cases p <;> first | rfl | (intro _ _; rfl) | (refine absurd ?_ hp; decide)))

end Sys2Proof.Machine
end

