-- ==== Sys2Proof/Laws/CompanionEffect.lean ====
section
/-! SUPPORT. One effect lemma for each operation of Machine/Companion.lean: the parts it may change. -/

set_option maxRecDepth 2000

set_option Elab.async false
set_option linter.unusedTactic false
set_option linter.unreachableTactic false
set_option linter.unusedVariables false
set_option linter.unusedSimpArgs false

namespace Sys2Proof.Machine

theorem compLog_effect (s : State) (die slot a1 a2 : Nat) :
    Effect [.eph, .hostMem, .icuTimers, .wakePending, .reg .ephLostCount, .reg .ephSeq, .reg .hifRingHead, .reg .icuPend] s (compLog s die slot a1 a2) := by
  unfold compLog
  repeat' (first
    | with_reducible exact Effect.refl _ _
    | (with_reducible show partsIn _ _ = true); decide +kernel
    | with_reducible apply Effect.ite
    | (with_reducible apply Effect.after; with_reducible apply emitAll_effect)
    | extract_lets
    | split
    | (refine ⟨⟨?_⟩, id, id⟩; intro p hp; cases p <;> first | rfl | (intro _ _; rfl) | (refine absurd ?_ hp; decide)))

abbrev compFault_parts : List Part :=
  [.bridge, .comps, .ctlCores, .eph, .hostMem, .icuTimers, .sync, .wakePending, .reg .ctlCompStatus, .reg .ctlCoreState, .reg .ephLostCount, .reg .ephSeq, .reg .hifRingHead, .reg .icuPend]

theorem compFault_effect (s : State) (die slot cause addr : Nat) :
    Effect compFault_parts s (compFault s die slot cause addr) := by
  unfold compFault
  repeat' (first
    | with_reducible exact Effect.refl _ _
    | (with_reducible show partsIn _ _ = true); decide +kernel
    | with_reducible apply Effect.ite
    | (with_reducible apply Effect.after; with_reducible apply compLog_effect)
    | (with_reducible apply Effect.after; with_reducible apply compEnd_effect)
    | extract_lets
    | split
    | (refine ⟨⟨?_⟩, id, id⟩; intro p hp; cases p <;> first | rfl | (intro _ _; rfl) | (refine absurd ?_ hp; decide)))

abbrev compDoes_parts : List Part :=
  [.answers, .bridge, .comps, .cores, .ctlCores, .ctlMem, .eph, .events, .flt, .freeCtr, .heldWrites, .hostMem, .icuTimers, .mem, .poison, .scrub, .sync, .wakePending, .reg .arrPathStatus, .reg .ctlCompStatus, .reg .ctlCoreState, .reg .ephLostCount, .reg .ephSeq, .reg .hbmFailCount, .reg .hbmOdeccCorrCount, .reg .hbmOdeccUncorrCount, .reg .hbmPcState, .reg .hbmPoisonCount, .reg .hbmRereadCount, .reg .hbmStatus, .reg .hifEventLostCount, .reg .hifRingHead, .reg .icuPend, .reg .spmFailCount, .reg .spmPoisonCount, .reg .spmRereadCount]

theorem compDoes_effect (s : State) (die slot addr : Nat) (c : CompAct) :
    Effect compDoes_parts s (compDoes s die slot addr c) := by
  unfold compDoes
  repeat' (first
    | with_reducible exact Effect.refl _ _
    | (with_reducible show partsIn _ _ = true); decide +kernel
    | with_reducible apply Effect.ite
    | (with_reducible apply Effect.after; with_reducible apply compFault_effect)
    | (with_reducible apply Effect.after; with_reducible apply csrRead_effect)
    | with_reducible refine Effect.after (Effect.snd (csrRead_effect _ _ _) (by assumption)) ?_ ?_
    | with_reducible refine Effect.after (compStore_effect (by assumption)) ?_ ?_
    | (with_reducible apply Effect.after; with_reducible apply compLoad_effect)
    | with_reducible refine Effect.after (Effect.snd (compLoad_effect _ _ _ _ _ _) (by assumption)) ?_ ?_
    | extract_lets
    | split
    | with_reducible apply effect_set_answers
    | (refine ⟨⟨?_⟩, id, id⟩; intro p hp; cases p <;> first | rfl | (intro _ _; rfl) | (refine absurd ?_ hp; decide)))

end Sys2Proof.Machine
end

