-- ==== Sys2Proof/Laws/TruOpsEffect.lean ====
section
/-! SUPPORT. One effect lemma for each operation of Machine/TruOps.lean: the parts it may change. -/

set_option maxRecDepth 2000

set_option Elab.async false
set_option linter.unusedTactic false
set_option linter.unreachableTactic false
set_option linter.unusedVariables false
set_option linter.unusedSimpArgs false

namespace Sys2Proof.Machine

theorem setUp_effect (s : State) (v : Nat) :
    Effect [.reg .truUpdateStatus] s (setUp s v) := by
  unfold setUp
  repeat' (first
    | with_reducible exact Effect.refl _ _
    | (with_reducible show partsIn _ _ = true); decide +kernel
    | with_reducible apply Effect.ite
    | (with_reducible apply Effect.after; with_reducible apply wf_effect)
    | extract_lets
    | split
    | (refine ⟨⟨?_⟩, id, id⟩; intro p hp; cases p <;> first | rfl | (intro _ _; rfl) | (refine absurd ?_ hp; decide)))

theorem settingsPut_effect (s : State) (v : Settings) :
    Effect [.flt, .tru, .reg .pwrMgmtCap, .reg .truStatus] s (settingsPut s v) := by
  unfold settingsPut
  repeat' (first
    | with_reducible exact Effect.refl _ _
    | (with_reducible show partsIn _ _ = true); decide +kernel
    | with_reducible apply Effect.ite
    | (with_reducible apply Effect.after; with_reducible apply wf_effect)
    | extract_lets
    | split
    | with_reducible apply effect_set_flt_tru
    | (refine ⟨⟨?_⟩, id, id⟩; intro p hp; cases p <;> first | rfl | (intro _ _; rfl) | (refine absurd ?_ hp; decide)))

theorem endSession_effect (s : State) :
    Effect [.tru, .reg .truUpdateChunks] s (endSession s) := by
  unfold endSession
  repeat' (first
    | with_reducible exact Effect.refl _ _
    | (with_reducible show partsIn _ _ = true); decide +kernel
    | with_reducible apply Effect.ite
    | (with_reducible apply Effect.after; with_reducible apply wf_effect)
    | extract_lets
    | split
    | with_reducible apply effect_set_tru
    | (refine ⟨⟨?_⟩, id, id⟩; intro p hp; cases p <;> first | rfl | (intro _ _; rfl) | (refine absurd ?_ hp; decide)))

theorem eraseLedger_effect (s : State) :
    Effect [.flt, .reg .hbmPcState, .reg .hbmStatus] s (eraseLedger s) := by
  unfold eraseLedger
  repeat' (first
    | with_reducible exact Effect.refl _ _
    | (with_reducible show partsIn _ _ = true); decide +kernel
    | with_reducible apply Effect.ite
    | (with_reducible apply Effect.after; with_reducible apply setPcState_effect)
    | (with_reducible apply Effect.after; with_reducible apply wf_effect)
    | (with_reducible apply Effect.trans; pick_goal 2; with_reducible apply Effect.foldl; intro _ _)
    | extract_lets
    | split
    | with_reducible apply effect_set_flt
    | (refine ⟨⟨?_⟩, id, id⟩; intro p hp; cases p <;> first | rfl | (intro _ _; rfl) | (refine absurd ?_ hp; decide)))

abbrev factoryDefaults_parts : List Part :=
  [.flash, .flt, .freeCtr, .tru, .reg .hbmPcState, .reg .hbmStatus, .reg .pwrMgmtCap, .reg .truSealCount, .reg .truStatus]

theorem factoryDefaults_effect (s : State) :
    Effect factoryDefaults_parts s (factoryDefaults s) := by
  unfold factoryDefaults
  repeat' (first
    | with_reducible exact Effect.refl _ _
    | (with_reducible show partsIn _ _ = true); decide +kernel
    | with_reducible apply Effect.ite
    | (with_reducible apply Effect.after; with_reducible apply eraseLedger_effect)
    | (with_reducible apply Effect.after; with_reducible apply settingsPut_effect)
    | (with_reducible apply Effect.after; with_reducible apply ledgerStore_effect)
    | (with_reducible apply Effect.after; with_reducible apply settingsStore_effect)
    | (with_reducible apply Effect.after; with_reducible apply flashWrite_effect)
    | (with_reducible apply Effect.after; with_reducible apply wr_effect)
    | extract_lets
    | split
    | (refine ⟨⟨?_⟩, id, id⟩; intro p hp; cases p <;> first | rfl | (intro _ _; rfl) | (refine absurd ?_ hp; decide)))

theorem truSettle_effect (s : State) :
    Effect [.flash, .freeCtr, .reg .truStatus, .reg .truTrial] s (truSettle s) := by
  unfold truSettle
  repeat' (first
    | with_reducible exact Effect.refl _ _
    | (with_reducible show partsIn _ _ = true); decide +kernel
    | with_reducible apply Effect.ite
    | (with_reducible apply Effect.after; with_reducible apply bootStore_effect)
    | (with_reducible apply Effect.after; with_reducible apply wf_effect)
    | extract_lets
    | split
    | (refine ⟨⟨?_⟩, id, id⟩; intro p hp; cases p <;> first | rfl | (intro _ _; rfl) | (refine absurd ?_ hp; decide)))

theorem setCores_effect (s : State) (v : Nat) :
    Effect [.reg .ctlCoreState] s (setCores s v) := by
  unfold setCores
  repeat' (first
    | with_reducible exact Effect.refl _ _
    | (with_reducible show partsIn _ _ = true); decide +kernel
    | with_reducible apply Effect.ite
    | (with_reducible apply Effect.after; with_reducible apply wr_effect)
    | extract_lets
    | split
    | (refine ⟨⟨?_⟩, id, id⟩; intro p hp; cases p <;> first | rfl | (intro _ _; rfl) | (refine absurd ?_ hp; decide)))

theorem loadCores_effect (s : State) (i : ImageInfo) :
    Effect [.ctlCores, .ctlMem] s (loadCores s i) := by
  unfold loadCores
  repeat' (first
    | with_reducible exact Effect.refl _ _
    | (with_reducible show partsIn _ _ = true); decide +kernel
    | with_reducible apply Effect.ite
    | extract_lets
    | split
    | with_reducible apply effect_set_ctlCores_ctlMem
    | (refine ⟨⟨?_⟩, id, id⟩; intro p hp; cases p <;> first | rfl | (intro _ _; rfl) | (refine absurd ?_ hp; decide)))

theorem runImage_effect (s : State) (i : ImageInfo) (trial : Bool) :
    Effect [.ctlCores, .ctlMem, .flt, .tru, .reg .ctlCoreState, .reg .pwrMgmtCap, .reg .truSettings, .reg .truStatus] s (runImage s i trial) := by
  unfold runImage
  repeat' (first
    | with_reducible exact Effect.refl _ _
    | (with_reducible show partsIn _ _ = true); decide +kernel
    | with_reducible apply Effect.ite
    | (with_reducible apply Effect.after; with_reducible apply loadCores_effect)
    | (with_reducible apply Effect.after; with_reducible apply setCores_effect)
    | (with_reducible apply Effect.after; with_reducible apply settingsPut_effect)
    | (with_reducible apply Effect.after; with_reducible apply wf_effect)
    | extract_lets
    | split
    | with_reducible apply effect_set_tru
    | (refine ⟨⟨?_⟩, id, id⟩; intro p hp; cases p <;> first | rfl | (intro _ _; rfl) | (refine absurd ?_ hp; decide)))

theorem startTrial_effect (s : State) :
    Effect [.tru, .reg .truTrial, .reg .truUpdateStatus] s (startTrial s) := by
  unfold startTrial
  repeat' (first
    | with_reducible exact Effect.refl _ _
    | (with_reducible show partsIn _ _ = true); decide +kernel
    | with_reducible apply Effect.ite
    | (with_reducible apply Effect.after; with_reducible apply setUp_effect)
    | (with_reducible apply Effect.after; with_reducible apply wf_effect)
    | extract_lets
    | split
    | with_reducible apply effect_set_tru
    | (refine ⟨⟨?_⟩, id, id⟩; intro p hp; cases p <;> first | rfl | (intro _ _; rfl) | (refine absurd ?_ hp; decide)))

abbrev fallBack_parts : List Part :=
  [.eph, .flash, .flt, .freeCtr, .hostMem, .icuTimers, .tru, .wakePending, .reg .ephLostCount, .reg .ephSeq, .reg .hifRingHead, .reg .icuPend, .reg .pwrMgmtCap, .reg .truStatus, .reg .truTrial, .reg .truUpdateChunks, .reg .truUpdateStatus]

theorem fallBack_effect (s : State) :
    Effect fallBack_parts s (fallBack s) := by
  unfold fallBack
  repeat' (first
    | with_reducible exact Effect.refl _ _
    | (with_reducible show partsIn _ _ = true); decide +kernel
    | with_reducible apply Effect.ite
    | (with_reducible apply Effect.after; with_reducible apply truSettle_effect)
    | (with_reducible apply Effect.after; with_reducible apply endSession_effect)
    | (with_reducible apply Effect.after; with_reducible apply settingsPut_effect)
    | (with_reducible apply Effect.after; with_reducible apply setUp_effect)
    | (with_reducible apply Effect.after; with_reducible apply countRec_effect)
    | (with_reducible apply Effect.after; with_reducible apply wf_effect)
    | extract_lets
    | split
    | with_reducible apply effect_set_tru
    | (refine ⟨⟨?_⟩, id, id⟩; intro p hp; cases p <;> first | rfl | (intro _ _; rfl) | (refine absurd ?_ hp; decide)))

theorem bootActive_effect (s : State) :
    Effect [.ctlCores, .ctlMem, .flt, .tru, .reg .ctlCoreState, .reg .pwrMgmtCap, .reg .truSettings, .reg .truStatus] s (bootActive s) := by
  unfold bootActive
  repeat' (first
    | with_reducible exact Effect.refl _ _
    | (with_reducible show partsIn _ _ = true); decide +kernel
    | with_reducible apply Effect.ite
    | (with_reducible apply Effect.after; with_reducible apply runImage_effect)
    | (with_reducible apply Effect.after; with_reducible apply setCores_effect)
    | (with_reducible apply Effect.after; with_reducible apply wf_effect)
    | extract_lets
    | split
    | with_reducible apply effect_set_ctlCores_ctlMem
    | (refine ⟨⟨?_⟩, id, id⟩; intro p hp; cases p <;> first | rfl | (intro _ _; rfl) | (refine absurd ?_ hp; decide)))

abbrev bootChain_parts : List Part :=
  [.ctlCores, .ctlMem, .eph, .flash, .flt, .freeCtr, .hostMem, .icuTimers, .tru, .wakePending, .reg .ctlCoreState, .reg .ephLostCount, .reg .ephSeq, .reg .hifRingHead, .reg .icuPend, .reg .pwrMgmtCap, .reg .truSettings, .reg .truStatus, .reg .truTrial, .reg .truUpdateChunks, .reg .truUpdateStatus]

theorem bootChain_effect (s : State) :
    Effect bootChain_parts s (bootChain s) := by
  unfold bootChain
  repeat' (first
    | with_reducible exact Effect.refl _ _
    | (with_reducible show partsIn _ _ = true); decide +kernel
    | with_reducible apply Effect.ite
    | (with_reducible apply Effect.after; with_reducible apply bootActive_effect)
    | (with_reducible apply Effect.after; with_reducible apply fallBack_effect)
    | (with_reducible apply Effect.after; with_reducible apply runImage_effect)
    | (with_reducible apply Effect.after; with_reducible apply truSettle_effect)
    | extract_lets
    | split
    | with_reducible apply effect_set_tru
    | (refine ⟨⟨?_⟩, id, id⟩; intro p hp; cases p <;> first | rfl | (intro _ _; rfl) | (refine absurd ?_ hp; decide)))

abbrev activationRestart_parts : List Part :=
  (withRegs [.attention, .ctlCores, .ctlMem, .eph, .flash, .flt, .freeCtr, .hostMem, .icuTimers, .rdybsyN, .repeating, .restart, .tru, .wakePending])

theorem activationRestart_effect (s : State) :
    Effect activationRestart_parts s (activationRestart s) := by
  unfold activationRestart
  repeat' (first
    | with_reducible exact Effect.refl _ _
    | (with_reducible show HostIn _ _ _); constructor <;> first | exact Or.inl (by with_reducible rfl) | exact Or.inr (by decide) | exact Or.inl rfl
    | (with_reducible apply partsIn_all2); decide +kernel
    | (with_reducible apply partsIn_all1); decide +kernel
    | (with_reducible show partsIn _ _ = true); decide +kernel
    | with_reducible apply Effect.ite
    | (with_reducible apply Effect.after; with_reducible apply bootChain_effect)
    | (with_reducible apply Effect.after; with_reducible apply startRestart_effect)
    | (with_reducible apply Effect.after; with_reducible apply resetBlock_effect)
    | (with_reducible apply Effect.after; with_reducible apply wr_effect)
    | extract_lets
    | split
    | with_reducible apply effect_set_icuTimers_flt
    | with_reducible apply effect_set_host
    | (refine ⟨⟨?_⟩, id, id⟩; intro p hp; cases p <;> first | rfl | (intro _ _; rfl) | (refine absurd ?_ hp; decide)))

abbrev deviceReboot_parts : List Part :=
  [.ctlCores, .ctlMem, .eph, .flash, .flt, .freeCtr, .hostMem, .icuTimers, .tru, .wakePending, .reg .ctlCoreState, .reg .ephLostCount, .reg .ephSeq, .reg .hifRingHead, .reg .icuPend, .reg .pwrMgmtCap, .reg .truSettings, .reg .truStatus, .reg .truTrial, .reg .truUpdateChunks, .reg .truUpdateStatus]

theorem deviceReboot_effect (s : State) :
    Effect deviceReboot_parts s (deviceReboot s) := by
  unfold deviceReboot
  repeat' (first
    | with_reducible exact Effect.refl _ _
    | (with_reducible show partsIn _ _ = true); decide +kernel
    | with_reducible apply Effect.ite
    | (with_reducible apply Effect.after; with_reducible apply bootChain_effect)
    | extract_lets
    | split
    | with_reducible apply effect_set_freeCtr
    | (refine ⟨⟨?_⟩, id, id⟩; intro p hp; cases p <;> first | rfl | (intro _ _; rfl) | (refine absurd ?_ hp; decide)))

abbrev startActivation_parts : List Part :=
  (withRegs [.attention, .ctlCores, .ctlMem, .eph, .flash, .flt, .freeCtr, .hostMem, .icuTimers, .rdybsyN, .repeating, .restart, .tru, .wakePending])

theorem startActivation_effect (s : State) :
    Effect startActivation_parts s (startActivation s) := by
  unfold startActivation
  repeat' (first
    | with_reducible exact Effect.refl _ _
    | (with_reducible apply partsIn_all2); decide +kernel
    | (with_reducible apply partsIn_all1); decide +kernel
    | (with_reducible show partsIn _ _ = true); decide +kernel
    | with_reducible apply Effect.ite
    | (with_reducible apply Effect.after; with_reducible apply activationRestart_effect)
    | (with_reducible apply Effect.after; with_reducible apply truSettle_effect)
    | (with_reducible apply Effect.after; with_reducible apply setUp_effect)
    | extract_lets
    | split
    | with_reducible apply effect_set_tru
    | (refine ⟨⟨?_⟩, id, id⟩; intro p hp; cases p <;> first | rfl | (intro _ _; rfl) | (refine absurd ?_ hp; decide)))

abbrev fallBackNow_parts : List Part :=
  (withRegs [.attention, .ctlCores, .ctlMem, .eph, .flash, .flt, .freeCtr, .hostMem, .icuTimers, .rdybsyN, .repeating, .restart, .tru, .wakePending])

theorem fallBackNow_effect (s : State) :
    Effect fallBackNow_parts s (fallBackNow s) := by
  unfold fallBackNow
  repeat' (first
    | with_reducible exact Effect.refl _ _
    | (with_reducible apply partsIn_all2); decide +kernel
    | (with_reducible apply partsIn_all1); decide +kernel
    | (with_reducible show partsIn _ _ = true); decide +kernel
    | with_reducible apply Effect.ite
    | (with_reducible apply Effect.after; with_reducible apply activationRestart_effect)
    | (with_reducible apply Effect.after; with_reducible apply fallBack_effect)
    | extract_lets
    | split
    | (refine ⟨⟨?_⟩, id, id⟩; intro p hp; cases p <;> first | rfl | (intro _ _; rfl) | (refine absurd ?_ hp; decide)))

theorem ansWith_effect (status : Nat) (s : State) :
    Effect [] s (ansWith status s).after := by
  unfold ansWith
  repeat' (first
    | with_reducible exact Effect.refl _ _
    | (with_reducible show partsIn _ _ = true); decide +kernel
    | with_reducible apply Effect.ite
    | extract_lets
    | split
    | (refine ⟨⟨?_⟩, id, id⟩; intro p hp; cases p <;> first | rfl | (intro _ _; rfl) | (refine absurd ?_ hp; decide)))

theorem updBegin_effect (s : State) (m : Master) (length digest : Nat) :
    Effect [.flash, .freeCtr, .tru, .reg .truUpdateChunks, .reg .truUpdateStatus] s (updBegin s m length digest).after := by
  unfold updBegin
  repeat' (first
    | with_reducible exact Effect.refl _ _
    | (with_reducible show partsIn _ _ = true); decide +kernel
    | with_reducible apply Effect.ite
    | (with_reducible apply Effect.after; with_reducible apply ansWith_effect)
    | (with_reducible apply Effect.after; with_reducible apply endSession_effect)
    | (with_reducible apply Effect.after; with_reducible apply setUp_effect)
    | (with_reducible apply Effect.after; with_reducible apply bootStore_effect)
    | (with_reducible apply Effect.after; with_reducible apply wf_effect)
    | extract_lets
    | split
    | with_reducible apply effect_set_tru
    | (refine ⟨⟨?_⟩, id, id⟩; intro p hp; cases p <;> first | rfl | (intro _ _; rfl) | (refine absurd ?_ hp; decide)))

theorem updChunk_effect (s : State) (index crc : Nat) (data : Bytes) :
    Effect [.flash, .freeCtr, .icuTimers, .tru, .wakePending, .reg .icuPend, .reg .truUpdateChunks, .reg .truUpdateStatus] s (updChunk s index crc data).after := by
  unfold updChunk
  repeat' (first
    | with_reducible exact Effect.refl _ _
    | (with_reducible show partsIn _ _ = true); decide +kernel
    | with_reducible apply Effect.ite
    | (with_reducible apply Effect.after; with_reducible apply ansWith_effect)
    | (with_reducible apply Effect.after; with_reducible apply setUp_effect)
    | (with_reducible apply Effect.after; with_reducible apply irq_effect)
    | (with_reducible apply Effect.after; with_reducible apply bootStore_effect)
    | (with_reducible apply Effect.after; with_reducible apply wf_effect)
    | extract_lets
    | split
    | with_reducible apply effect_set_tru
    | (refine ⟨⟨?_⟩, id, id⟩; intro p hp; cases p <;> first | rfl | (intro _ _; rfl) | (refine absurd ?_ hp; decide)))

theorem updQuery_effect (s : State) (index : Nat) :
    Effect [] s (updQuery s index).after := by
  unfold updQuery
  repeat' (first
    | with_reducible exact Effect.refl _ _
    | (with_reducible show partsIn _ _ = true); decide +kernel
    | with_reducible apply Effect.ite
    | extract_lets
    | split
    | (refine ⟨⟨?_⟩, id, id⟩; intro p hp; cases p <;> first | rfl | (intro _ _; rfl) | (refine absurd ?_ hp; decide)))

abbrev overruled_parts : List Part :=
  [.eph, .events, .hostMem, .icuTimers, .wakePending, .reg .ephLostCount, .reg .ephSeq, .reg .hifEventLostCount, .reg .hifRingHead, .reg .icuPend]

theorem overruled_effect (s : State) (m winner : Master) :
    Effect overruled_parts s (overruled s m winner) := by
  unfold overruled
  repeat' (first
    | with_reducible exact Effect.refl _ _
    | (with_reducible show partsIn _ _ = true); decide +kernel
    | with_reducible apply Effect.ite
    | (with_reducible apply Effect.after; with_reducible apply actRecords_effect)
    | extract_lets
    | split
    | (refine ⟨⟨?_⟩, id, id⟩; intro p hp; cases p <;> first | rfl | (intro _ _; rfl) | (refine absurd ?_ hp; decide)))

abbrev updAbandon_parts : List Part :=
  [.eph, .events, .flash, .freeCtr, .hostMem, .icuTimers, .tru, .wakePending, .reg .ephLostCount, .reg .ephSeq, .reg .hifEventLostCount, .reg .hifRingHead, .reg .icuPend, .reg .truUpdateChunks, .reg .truUpdateStatus]

theorem updAbandon_effect (s : State) (m : Master) (rival : Option Master) :
    Effect updAbandon_parts s (updAbandon s m rival).after := by
  unfold updAbandon
  repeat' (first
    | with_reducible exact Effect.refl _ _
    | (with_reducible show partsIn _ _ = true); decide +kernel
    | with_reducible apply Effect.ite
    | (with_reducible apply Effect.after; with_reducible apply overruled_effect)
    | (with_reducible apply Effect.after; with_reducible apply ansWith_effect)
    | (with_reducible apply Effect.after; with_reducible apply endSession_effect)
    | (with_reducible apply Effect.after; with_reducible apply setUp_effect)
    | (with_reducible apply Effect.after; with_reducible apply bootStore_effect)
    | (with_reducible apply Effect.after; with_reducible apply wf_effect)
    | extract_lets
    | split
    | (refine ⟨⟨?_⟩, id, id⟩; intro p hp; cases p <;> first | rfl | (intro _ _; rfl) | (refine absurd ?_ hp; decide)))

abbrev updActivate_parts : List Part :=
  (withRegs [.attention, .ctlCores, .ctlMem, .eph, .events, .flash, .flt, .freeCtr, .hostMem, .icuTimers, .rdybsyN, .repeating, .restart, .tru, .wakePending])

theorem updActivate_effect (s : State) (m : Master) (when_ : Nat) (supplyLow : Bool) (rival : Option Master) :
    Effect updActivate_parts s (updActivate s m when_ supplyLow rival).after := by
  unfold updActivate
  repeat' (first
    | with_reducible exact Effect.refl _ _
    | (with_reducible apply partsIn_all2); decide +kernel
    | (with_reducible apply partsIn_all1); decide +kernel
    | (with_reducible show partsIn _ _ = true); decide +kernel
    | with_reducible apply Effect.ite
    | (with_reducible apply Effect.after; with_reducible apply overruled_effect)
    | (with_reducible apply Effect.after; with_reducible apply ansWith_effect)
    | (with_reducible apply Effect.after; with_reducible apply startActivation_effect)
    | (with_reducible apply Effect.after; with_reducible apply endSession_effect)
    | (with_reducible apply Effect.after; with_reducible apply settingsPut_effect)
    | (with_reducible apply Effect.after; with_reducible apply setUp_effect)
    | (with_reducible apply Effect.after; with_reducible apply masterRec_effect)
    | (with_reducible apply Effect.after; with_reducible apply settingsStore_effect)
    | (with_reducible apply Effect.after; with_reducible apply wf_effect)
    | (with_reducible apply Effect.trans; pick_goal 2; with_reducible apply Effect.foldl; intro _ _)
    | extract_lets
    | split
    | (refine ⟨⟨?_⟩, id, id⟩; intro p hp; cases p <;> first | rfl | (intro _ _; rfl) | (refine absurd ?_ hp; decide)))

abbrev updEndTrial_parts : List Part :=
  (withRegs [.attention, .ctlCores, .ctlMem, .eph, .events, .flash, .flt, .freeCtr, .hostMem, .icuTimers, .rdybsyN, .repeating, .restart, .tru, .wakePending])

theorem updEndTrial_effect (s : State) (m : Master) (rival : Option Master) :
    Effect updEndTrial_parts s (updEndTrial s m rival).after := by
  unfold updEndTrial
  repeat' (first
    | with_reducible exact Effect.refl _ _
    | (with_reducible apply partsIn_all2); decide +kernel
    | (with_reducible apply partsIn_all1); decide +kernel
    | (with_reducible show partsIn _ _ = true); decide +kernel
    | with_reducible apply Effect.ite
    | (with_reducible apply Effect.after; with_reducible apply overruled_effect)
    | (with_reducible apply Effect.after; with_reducible apply ansWith_effect)
    | (with_reducible apply Effect.after; with_reducible apply fallBackNow_effect)
    | extract_lets
    | split
    | dsimp +zetaDelta only
    | (refine ⟨⟨?_⟩, id, id⟩; intro p hp; cases p <;> first | rfl | (intro _ _; rfl) | (refine absurd ?_ hp; decide)))

theorem authorise_effect {w : List Part} {s0 s : State} {cond : Bool} {f : State → State}
    (hk : ∀ s', Effect w s' (f s')) (h : Effect w s0 s) : Effect w s0 (authorise s cond f).after := by
  unfold authorise
  split
  · exact h.trans (hk _)
  · exact h

abbrev serveObj_parts : List Part :=
  (withRegs [.attention, .ctlCores, .ctlMem, .eph, .events, .flash, .flt, .freeCtr, .hostMem, .icuTimers, .rdybsyN, .repeating, .restart, .tru, .wakePending])

theorem serveObj_effect (s : State) (m : Master) (r : ObjReq) :
    Effect serveObj_parts s (serveObj s m r).after := by
  unfold serveObj
  repeat' (first
    | with_reducible exact Effect.refl _ _
    | (with_reducible apply partsIn_all2); decide +kernel
    | (with_reducible apply partsIn_all1); decide +kernel
    | (with_reducible show partsIn _ _ = true); decide +kernel
    | with_reducible apply Effect.ite
    | intro _
    | with_reducible apply authorise_effect
    | (with_reducible apply Effect.after; with_reducible apply updEndTrial_effect)
    | (with_reducible apply Effect.after; with_reducible apply updActivate_effect)
    | (with_reducible apply Effect.after; with_reducible apply updAbandon_effect)
    | (with_reducible apply Effect.after; with_reducible apply updQuery_effect)
    | (with_reducible apply Effect.after; with_reducible apply updChunk_effect)
    | (with_reducible apply Effect.after; with_reducible apply updBegin_effect)
    | (with_reducible apply Effect.after; with_reducible apply ansWith_effect)
    | (with_reducible apply Effect.after; with_reducible apply factoryDefaults_effect)
    | (with_reducible apply Effect.after; with_reducible apply endSession_effect)
    | (with_reducible apply Effect.after; with_reducible apply setUp_effect)
    | (with_reducible apply Effect.after; with_reducible apply settingsStore_effect)
    | (with_reducible apply Effect.after; with_reducible apply wf_effect)
    | extract_lets
    | split
    | with_reducible apply effect_set_tru
    | (refine ⟨⟨?_⟩, id, id⟩; intro p hp; cases p <;> first | rfl | (intro _ _; rfl) | (refine absurd ?_ hp; decide)))

abbrev doe_parts : List Part :=
  (withRegs [.answers, .attention, .ctlCores, .ctlMem, .eph, .events, .flash, .flt, .freeCtr, .hostMem, .icuTimers, .rdybsyN, .repeating, .restart, .tru, .wakePending])

theorem doe_effect (s : State) (m : Master) (op : Nat) (r : ObjReq) :
    Effect doe_parts s (doe s m op r) := by
  unfold doe
  repeat' (first
    | with_reducible exact Effect.refl _ _
    | (with_reducible apply partsIn_all2); decide +kernel
    | (with_reducible apply partsIn_all1); decide +kernel
    | (with_reducible show partsIn _ _ = true); decide +kernel
    | with_reducible apply Effect.ite
    | (with_reducible apply Effect.after; with_reducible apply serveObj_effect)
    | (with_reducible apply Effect.after; with_reducible apply irq_effect)
    | extract_lets
    | split
    | with_reducible apply effect_set_answers
    | (refine ⟨⟨?_⟩, id, id⟩; intro p hp; cases p <;> first | rfl | (intro _ _; rfl) | (refine absurd ?_ hp; decide)))

end Sys2Proof.Machine
end

