-- ==== Sys2Proof/Laws/TrustEffect.lean ====
section
/-! SUPPORT. One effect lemma for each operation of Machine/Trust.lean: the parts it may change. -/

set_option maxRecDepth 2000

set_option Elab.async false
set_option linter.unusedTactic false
set_option linter.unreachableTactic false
set_option linter.unusedVariables false
set_option linter.unusedSimpArgs false

namespace Sys2Proof.Machine

theorem blowFuses_effect (s : State) (svn : Nat) :
    Effect [.reg .truFuse] s (blowFuses s svn) := by
  unfold blowFuses
  repeat' (first
    | with_reducible exact Effect.refl _ _
    | (with_reducible show partsIn _ _ = true); decide +kernel
    | with_reducible apply Effect.ite
    | (with_reducible apply Effect.after; with_reducible apply wf_effect)
    | extract_lets
    | split
    | (refine ⟨⟨?_⟩, id, id⟩; intro p hp; cases p <;> first | rfl | (intro _ _; rfl) | (refine absurd ?_ hp; decide)))

abbrev confirmTrial_parts : List Part :=
  [.eph, .flash, .flt, .freeCtr, .hostMem, .icuTimers, .tru, .wakePending, .reg .ephLostCount, .reg .ephSeq, .reg .hbmPcState, .reg .hbmStatus, .reg .hifRingHead, .reg .icuPend, .reg .pwrMgmtCap, .reg .truFuse, .reg .truSealCount, .reg .truSettings, .reg .truStatus, .reg .truTrial, .reg .truUpdateChunks, .reg .truUpdateStatus]

theorem confirmTrial_effect (s : State) :
    Effect confirmTrial_parts s (confirmTrial s) := by
  unfold confirmTrial
  repeat' (first
    | with_reducible exact Effect.refl _ _
    | (with_reducible show partsIn _ _ = true); decide +kernel
    | with_reducible apply Effect.ite
    | (with_reducible apply Effect.after; with_reducible apply blowFuses_effect)
    | (with_reducible apply Effect.after; with_reducible apply truSettle_effect)
    | (with_reducible apply Effect.after; with_reducible apply factoryDefaults_effect)
    | (with_reducible apply Effect.after; with_reducible apply endSession_effect)
    | (with_reducible apply Effect.after; with_reducible apply setUp_effect)
    | (with_reducible apply Effect.after; with_reducible apply countRec_effect)
    | (with_reducible apply Effect.after; with_reducible apply wf_effect)
    | extract_lets
    | split
    | with_reducible apply effect_set_tru
    | (refine ⟨⟨?_⟩, id, id⟩; intro p hp; cases p <;> first | rfl | (intro _ _; rfl) | (refine absurd ?_ hp; decide)))

end Sys2Proof.Machine
end

