-- ==== Sys2Proof/Laws/ResetOpsEffect.lean ====
section
/-! SUPPORT. One effect lemma for each operation of Machine/ResetOps.lean: the parts it may change. -/

set_option maxRecDepth 2000

set_option Elab.async false
set_option linter.unusedTactic false
set_option linter.unreachableTactic false
set_option linter.unusedVariables false
set_option linter.unusedSimpArgs false

namespace Sys2Proof.Machine

theorem dropHoldStore_effect (s : State) (die : Nat) :
    Effect [.eph, .repeating, .reg .ephLostCount, .reg .icuPend, .reg .icuSummary, .reg .icuSummaryHost] s (dropHoldStore s die) := by
  unfold dropHoldStore
  repeat' (first
    | with_reducible exact Effect.refl _ _
    | (with_reducible show partsIn _ _ = true); decide +kernel
    | with_reducible apply Effect.ite
    | (with_reducible apply Effect.after; with_reducible apply ephDropped_effect)
    | (with_reducible apply Effect.after; with_reducible apply ephSettle_effect)
    | (with_reducible apply Effect.after; with_reducible apply setEph_effect)
    | extract_lets
    | split
    | (refine ⟨⟨?_⟩, id, id⟩; intro p hp; cases p <;> first | rfl | (intro _ _; rfl) | (refine absurd ?_ hp; decide)))

theorem undoActivation_effect (s : State) :
    Effect [.flt, .freeCtr, .tru, .reg .pwrMgmtCap, .reg .truStatus, .reg .truUpdateStatus] s (undoActivation s) := by
  unfold undoActivation
  repeat' (first
    | with_reducible exact Effect.refl _ _
    | (with_reducible show partsIn _ _ = true); decide +kernel
    | with_reducible apply Effect.ite
    | (with_reducible apply Effect.after; with_reducible apply settingsPut_effect)
    | (with_reducible apply Effect.after; with_reducible apply setUp_effect)
    | (with_reducible apply Effect.after; with_reducible apply fresh_effect)
    | with_reducible refine Effect.after (Effect.snd (fresh_effect _) (by assumption)) ?_ ?_
    | extract_lets
    | split
    | with_reducible apply effect_set_tru
    | (refine ⟨⟨?_⟩, id, id⟩; intro p hp; cases p <;> first | rfl | (intro _ _; rfl) | (refine absurd ?_ hp; decide)))

abbrev bootReset_parts : List Part :=
  [.ctlCores, .ctlMem, .eph, .flash, .flt, .freeCtr, .hostMem, .icuTimers, .restart, .tru, .wakePending, .reg .ctlCoreState, .reg .ephLostCount, .reg .ephSeq, .reg .hifRingHead, .reg .icuPend, .reg .pwrMgmtCap, .reg .truSettings, .reg .truStatus, .reg .truTrial, .reg .truUpdateChunks, .reg .truUpdateStatus]

theorem bootReset_effect (s : State) :
    Effect bootReset_parts s (bootReset s) := by
  unfold bootReset
  repeat' (first
    | with_reducible exact Effect.refl _ _
    | (with_reducible show HostIn _ _ _); constructor <;> first | exact Or.inl (by with_reducible rfl) | exact Or.inr (by decide) | exact Or.inl rfl
    | (with_reducible show partsIn _ _ = true); decide +kernel
    | with_reducible apply Effect.ite
    | (with_reducible apply Effect.after; with_reducible apply undoActivation_effect)
    | (with_reducible apply Effect.after; with_reducible apply bootChain_effect)
    | (with_reducible apply Effect.after; with_reducible apply startTrial_effect)
    | extract_lets
    | split
    | with_reducible apply effect_set_host
    | (refine ⟨⟨?_⟩, id, id⟩; intro p hp; cases p <;> first | rfl | (intro _ _; rfl) | (refine absurd ?_ hp; decide)))

abbrev bootWake_parts : List Part :=
  [.ctlCores, .ctlMem, .eph, .flash, .flt, .freeCtr, .hostMem, .icuTimers, .restart, .tru, .wakePending, .reg .ctlCoreState, .reg .ephLostCount, .reg .ephSeq, .reg .hifRingHead, .reg .icuPend, .reg .pwrMgmtCap, .reg .truSettings, .reg .truStatus, .reg .truTrial, .reg .truUpdateChunks, .reg .truUpdateStatus]

theorem bootWake_effect (s : State) :
    Effect bootWake_parts s (bootWake s) := by
  unfold bootWake
  repeat' (first
    | with_reducible exact Effect.refl _ _
    | (with_reducible show HostIn _ _ _); constructor <;> first | exact Or.inl (by with_reducible rfl) | exact Or.inr (by decide) | exact Or.inl rfl
    | (with_reducible show partsIn _ _ = true); decide +kernel
    | with_reducible apply Effect.ite
    | (with_reducible apply Effect.after; with_reducible apply bootChain_effect)
    | extract_lets
    | split
    | with_reducible apply effect_set_host
    | (refine ⟨⟨?_⟩, id, id⟩; intro p hp; cases p <;> first | rfl | (intro _ _; rfl) | (refine absurd ?_ hp; decide)))

theorem sampleLocation_effect (s : State) (loc : Nat) :
    Effect [.reg .ctlDieInfo] s (sampleLocation s loc) := by
  unfold sampleLocation
  repeat' (first
    | with_reducible exact Effect.refl _ _
    | (with_reducible show partsIn _ _ = true); decide +kernel
    | with_reducible apply Effect.ite
    | (with_reducible apply Effect.after; with_reducible apply wf_effect)
    | extract_lets
    | split
    | (refine ⟨⟨?_⟩, id, id⟩; intro p hp; cases p <;> first | rfl | (intro _ _; rfl) | (refine absurd ?_ hp; decide)))

theorem powerRecords_effect (before s : State) :
    Effect [.eph, .hostMem, .icuTimers, .wakePending, .reg .ephLostCount, .reg .ephSeq, .reg .hifRingHead, .reg .icuPend] s (powerRecords before s) := by
  unfold powerRecords
  extract_lets rec_
  have h : ∀ (f : Fld) (s' : State), Effect [.eph, .hostMem, .icuTimers, .wakePending, .reg .ephLostCount, .reg .ephSeq, .reg .hifRingHead, .reg .icuPend] s' (rec_ f s') := by
    intro f s'
    show Effect _ _ (if _ then _ else _)
    split
    · exact Effect.refl _ _
    · exact (countRec_effect _ _ _ _ _).mono (by decide +kernel)
  exact (h _ _).trans (h _ _)

abbrev moduleReset_parts : List Part :=
  (withRegs [.acts, .attention, .bridge, .clk, .colEnded, .colWaiting, .cols, .comps, .cores, .ctlCores, .ctlMem, .d3hot, .darkLoc, .darkPerst, .eph, .events, .flash, .flowsRx, .flowsTx, .flt, .freeCtr, .heldWrites, .highSince, .hostMem, .icuTimers, .job, .linkUp, .lowPower, .lowPowerAsk, .mcasts, .mem, .opened, .perstN, .poison, .ports, .powered, .pulsed, .pwr, .rdybsyN, .repeating, .reportOwed, .restart, .rings, .routes, .sid, .snoop, .sync, .tru, .unusable, .wakePending])

theorem moduleReset_effect (s : State) (train : List (BitVec 8)) :
    Effect moduleReset_parts s (moduleReset s train) := by
  unfold moduleReset
  repeat' (first
    | with_reducible exact Effect.refl _ _
    | (with_reducible show HostIn _ _ _); constructor <;> first | exact Or.inl (by with_reducible rfl) | exact Or.inr (by decide) | exact Or.inl rfl
    | (with_reducible show MemInv _ → MemInv _); first | exact fun h => ⟨bytesWf_putSome _ _ _ _ h.1, h.2⟩ | exact fun h => ⟨bytesWf_putBytes _ _ _ h.1, h.2⟩ | exact fun h => ⟨h.1, bytesWf_putBytes _ _ _ h.2⟩ | exact fun h => ⟨bytesWf_filter _ h.1, h.2⟩ | exact fun h => ⟨rfl, h.2⟩ | exact fun h => ⟨bytesWf_foldl _ (fun _ _ => bytesWf_putByte _ _) _ _ h.1, h.2⟩ | exact fun h => ⟨bytesWf_foldl _ (fun _ _ => bytesWf_foldl _ (fun _ _ => bytesWf_putByte _ _) _ _) _ _ h.1, h.2⟩
    | (with_reducible apply partsIn_all2); decide +kernel
    | (with_reducible apply partsIn_all1); decide +kernel
    | (with_reducible show partsIn _ _ = true); decide +kernel
    | with_reducible apply Effect.ite
    | (with_reducible apply Effect.after; with_reducible apply powerRecords_effect)
    | (with_reducible apply Effect.after; with_reducible apply bootReset_effect)
    | (with_reducible apply Effect.after; with_reducible apply dropHoldStore_effect)
    | (with_reducible apply Effect.after; with_reducible apply sourceSettle_effect)
    | (with_reducible apply Effect.after; with_reducible apply trainPorts_effect)
    | (with_reducible apply Effect.after; with_reducible apply ledgerRead_effect)
    | (with_reducible apply Effect.after; with_reducible apply resetLives_effect)
    | (with_reducible apply Effect.after; with_reducible apply wf_effect)
    | extract_lets
    | split
    | with_reducible apply effect_set_module
    | with_reducible apply effect_set_host
    | (refine ⟨⟨?_⟩, id, id⟩; intro p hp; cases p <;> first | rfl | (intro _ _; rfl) | (refine absurd ?_ hp; decide)))

abbrev inputsAtPor_parts : List Part :=
  [.eph, .hostMem, .icuTimers, .pwr, .wakePending, .reg .ctlDieInfo, .reg .ephLostCount, .reg .ephSeq, .reg .hifRingHead, .reg .icuInputState, .reg .icuPend, .reg .pwrStatus, .reg .truSealCount, .reg .truStatus]

theorem inputsAtPor_effect (s : State) (pins : PinLevels) :
    Effect inputsAtPor_parts s (inputsAtPor s pins) := by
  unfold inputsAtPor
  repeat' (first
    | with_reducible exact Effect.refl _ _
    | (with_reducible show partsIn _ _ = true); decide +kernel
    | with_reducible apply Effect.ite
    | (with_reducible apply Effect.after; with_reducible apply sampleLocation_effect)
    | (with_reducible apply Effect.after; with_reducible apply brakeChange_effect)
    | (with_reducible apply Effect.after; with_reducible apply bump_effect)
    | (with_reducible apply Effect.after; with_reducible apply wf_effect)
    | (with_reducible apply Effect.after; with_reducible apply wr_effect)
    | extract_lets
    | split
    | (refine ⟨⟨?_⟩, id, id⟩; intro p hp; cases p <;> first | rfl | (intro _ _; rfl) | (refine absurd ?_ hp; decide)))

theorem powerGone_effect (s : State) :
    Effect (withRegs [.acts, .attention, .bridge, .clk, .colEnded, .colWaiting, .cols, .comps, .cores, .ctlCores, .ctlMem, .d3hot, .darkLoc, .darkPerst, .eph, .events, .flowsRx, .flowsTx, .flt, .freeCtr, .heldWrites, .highSince, .icuTimers, .job, .linkUp, .lowPower, .lowPowerAsk, .mcasts, .mem, .mgmt, .opened, .perstN, .poison, .ports, .powered, .pulsed, .pwr, .rdybsyN, .repeating, .reportOwed, .restart, .rings, .routes, .scrub, .sid, .snoop, .sync, .unusable, .wakePending]) s (powerGone s) := by
  unfold powerGone
  extract_lets
  with_reducible apply Effect.after
  with_reducible apply wr_effect
  decide +kernel
  refine ⟨⟨?_⟩, fun h => ⟨rfl, h.2⟩, fun h => regInv_lives _ h⟩
  intro p hp
  cases p <;> first | rfl | exact absurd (mem_withRegs _ _) hp | exact absurd (mem_withRegs_right (by decide)) hp

abbrev powerUp_parts : List Part :=
  (withRegs [.acts, .attention, .bridge, .clk, .colEnded, .colWaiting, .cols, .comps, .cores, .ctlCores, .ctlMem, .d3hot, .darkLoc, .darkPerst, .eph, .events, .flash, .flowsRx, .flowsTx, .flt, .freeCtr, .heldWrites, .highSince, .hostMem, .icuTimers, .job, .linkUp, .lowPower, .lowPowerAsk, .mcasts, .mem, .mgmt, .opened, .perstN, .poison, .ports, .powered, .pulsed, .pwr, .rdybsyN, .repeating, .reportOwed, .restart, .rings, .routes, .scrub, .sid, .snoop, .sync, .tru, .unusable, .wakePending])

theorem powerUp_effect (s : State) (pins : PinLevels) (train : List (BitVec 8)) :
    Effect powerUp_parts s (powerUp s pins train) := by
  unfold powerUp
  repeat' (first
    | with_reducible exact Effect.refl _ _
    | (with_reducible show HostIn _ _ _); constructor <;> first | exact Or.inl (by with_reducible rfl) | exact Or.inr (by decide) | exact Or.inl rfl
    | (with_reducible apply partsIn_all2); decide +kernel
    | (with_reducible apply partsIn_all1); decide +kernel
    | (with_reducible show partsIn _ _ = true); decide +kernel
    | with_reducible apply Effect.ite
    | (with_reducible apply Effect.after; with_reducible apply powerGone_effect)
    | (with_reducible apply Effect.after; with_reducible apply inputsAtPor_effect)
    | (with_reducible apply Effect.after; with_reducible apply bootReset_effect)
    | (with_reducible apply Effect.after; with_reducible apply sourceSettle_effect)
    | (with_reducible apply Effect.after; with_reducible apply trainPorts_effect)
    | (with_reducible apply Effect.after; with_reducible apply ledgerRead_effect)
    | extract_lets
    | split
    | with_reducible apply effect_set_host
    | (refine ⟨⟨?_⟩, id, id⟩; intro p hp; cases p <;> first | rfl | (intro _ _; rfl) | (refine absurd ?_ hp; decide)))

theorem dropSramWindows_effect (s : State) :
    Effect [.reg .spmResStatus, .reg .spmResWindow] s (dropSramWindows s) := by
  unfold dropSramWindows
  repeat' (first
    | with_reducible exact Effect.refl _ _
    | (with_reducible show partsIn _ _ = true); decide +kernel
    | with_reducible apply Effect.ite
    | (with_reducible apply Effect.after; with_reducible apply wf_effect)
    | (with_reducible apply Effect.after; with_reducible apply wr_effect)
    | (with_reducible apply Effect.trans; pick_goal 2; with_reducible apply Effect.foldl; intro _ _)
    | extract_lets
    | split
    | (refine ⟨⟨?_⟩, id, id⟩; intro p hp; cases p <;> first | rfl | (intro _ _; rfl) | (refine absurd ?_ hp; decide)))

theorem askLowPower_effect (s : State) (p : LowPower) :
    Effect [.lowPower] s (askLowPower s p) := by
  unfold askLowPower
  repeat' (first
    | with_reducible exact Effect.refl _ _
    | (with_reducible show HostIn _ _ _); constructor <;> first | exact Or.inl (by with_reducible rfl) | exact Or.inr (by decide) | exact Or.inl rfl
    | (with_reducible show partsIn _ _ = true); decide +kernel
    | with_reducible apply Effect.ite
    | extract_lets
    | split
    | with_reducible apply effect_set_host
    | (refine ⟨⟨?_⟩, id, id⟩; intro p hp; cases p <;> first | rfl | (intro _ _; rfl) | (refine absurd ?_ hp; decide)))

theorem alignDome_effect (s : State) :
    Effect [.reg .sidCount] s (alignDome s) := by
  unfold alignDome
  repeat' (first
    | with_reducible exact Effect.refl _ _
    | (with_reducible show partsIn _ _ = true); decide +kernel
    | with_reducible apply Effect.ite
    | (with_reducible apply Effect.after; with_reducible apply stepTo_effect)
    | (with_reducible apply Effect.trans; pick_goal 2; with_reducible apply Effect.foldl; intro _ _)
    | extract_lets
    | split
    | (refine ⟨⟨?_⟩, id, id⟩; intro p hp; cases p <;> first | rfl | (intro _ _; rfl) | (refine absurd ?_ hp; decide)))

abbrev enterNap_parts : List Part :=
  [.bridge, .clk, .eph, .freeCtr, .hostMem, .icuTimers, .lowPower, .ports, .sid, .wakePending, .reg .clkStatus, .reg .clkStretchCycles, .reg .ephLostCount, .reg .ephSeq, .reg .fabPortState, .reg .hifRingHead, .reg .icuPend, .reg .pwrStatus, .reg .sidCount, .reg .sidLossCount, .reg .sidStatus]

theorem enterNap_effect (s : State) :
    Effect enterNap_parts s (enterNap s) := by
  unfold enterNap
  repeat' (first
    | with_reducible exact Effect.refl _ _
    | (with_reducible show HostIn _ _ _); constructor <;> first | exact Or.inl (by with_reducible rfl) | exact Or.inr (by decide) | exact Or.inl rfl
    | (with_reducible show partsIn _ _ = true); decide +kernel
    | with_reducible apply Effect.ite
    | (with_reducible apply Effect.after; with_reducible apply alignDome_effect)
    | (with_reducible apply Effect.after; with_reducible apply wakeFree_effect)
    | (with_reducible apply Effect.after; with_reducible apply clockStop_effect)
    | (with_reducible apply Effect.after; with_reducible apply setPwrStatus_effect)
    | extract_lets
    | split
    | with_reducible apply effect_set_host
    | (refine ⟨⟨?_⟩, id, id⟩; intro p hp; cases p <;> first | rfl | (intro _ _; rfl) | (refine absurd ?_ hp; decide)))

theorem landHeld_effect (s : State) :
    Effect [.heldWrites, .mem] s (landHeld s) := by
  unfold landHeld
  repeat' (first
    | with_reducible exact Effect.refl _ _
    | (with_reducible show MemInv _ → MemInv _); first | exact fun h => ⟨bytesWf_putSome _ _ _ _ h.1, h.2⟩ | exact fun h => ⟨bytesWf_putBytes _ _ _ h.1, h.2⟩ | exact fun h => ⟨h.1, bytesWf_putBytes _ _ _ h.2⟩ | exact fun h => ⟨bytesWf_filter _ h.1, h.2⟩ | exact fun h => ⟨rfl, h.2⟩ | exact fun h => ⟨bytesWf_foldl _ (fun _ _ => bytesWf_putByte _ _) _ _ h.1, h.2⟩ | exact fun h => ⟨bytesWf_foldl _ (fun _ _ => bytesWf_foldl _ (fun _ _ => bytesWf_putByte _ _) _ _) _ _ h.1, h.2⟩
    | (with_reducible show partsIn _ _ = true); decide +kernel
    | with_reducible apply Effect.ite
    | (with_reducible apply Effect.trans; pick_goal 2; with_reducible apply Effect.foldl; intro _ _)
    | extract_lets
    | split
    | with_reducible apply effect_set_mem_heldWrites
    | (refine ⟨⟨?_⟩, id, id⟩; intro p hp; cases p <;> first | rfl | (intro _ _; rfl) | (refine absurd ?_ hp; decide)))

theorem dropFabricConfig_effect (s : State) :
    Effect (withRegs []) s (dropFabricConfig s) := by
  unfold dropFabricConfig
  repeat' (first
    | with_reducible exact Effect.refl _ _
    | exact regInv_filter _
    | (with_reducible apply partsIn_all2); decide +kernel
    | (with_reducible apply partsIn_all1); decide +kernel
    | (with_reducible show partsIn _ _ = true); decide +kernel
    | with_reducible apply Effect.ite
    | extract_lets
    | split
    | with_reducible apply effect_set_regs
    | (refine ⟨⟨?_⟩, id, id⟩; intro p hp; cases p <;> first | rfl | (intro _ _; rfl) | (refine absurd ?_ hp; decide)))

abbrev darkGone_parts : List Part :=
  [.bridge, .colEnded, .colWaiting, .comps, .cores, .ctlCores, .ctlMem, .events, .flowsRx, .flowsTx, .flt, .mcasts, .rings, .routes, .snoop, .reg .fabPortOutstanding]

theorem darkGone_effect (s : State) :
    Effect darkGone_parts s (darkGone s) := by
  unfold darkGone
  repeat' (first
    | with_reducible exact Effect.refl _ _
    | (with_reducible show partsIn _ _ = true); decide +kernel
    | with_reducible apply Effect.ite
    | (with_reducible apply Effect.after; with_reducible apply settleOutstanding_effect)
    | extract_lets
    | split
    | with_reducible apply effect_set_dark
    | (refine ⟨⟨?_⟩, id, id⟩; intro p hp; cases p <;> first | rfl | (intro _ _; rfl) | (refine absurd ?_ hp; decide)))

theorem darkHost_effect (s : State) :
    Effect [.darkLoc, .lowPower, .lowPowerAsk, .opened, .pulsed, .rdybsyN, .wakePending] s (darkHost s) := by
  unfold darkHost
  repeat' (first
    | with_reducible exact Effect.refl _ _
    | (with_reducible show HostIn _ _ _); constructor <;> first | exact Or.inl (by with_reducible rfl) | exact Or.inr (by decide) | exact Or.inl rfl
    | (with_reducible show partsIn _ _ = true); decide +kernel
    | with_reducible apply Effect.ite
    | extract_lets
    | split
    | with_reducible apply effect_set_host
    | (refine ⟨⟨?_⟩, id, id⟩; intro p hp; cases p <;> first | rfl | (intro _ _; rfl) | (refine absurd ?_ hp; decide)))

abbrev enterDark_parts : List Part :=
  (withRegs [.bridge, .clk, .colEnded, .colWaiting, .comps, .cores, .ctlCores, .ctlMem, .d3hot, .darkLoc, .eph, .events, .flowsRx, .flowsTx, .flt, .heldWrites, .hostMem, .icuTimers, .linkUp, .lowPower, .lowPowerAsk, .mcasts, .mem, .opened, .poison, .pulsed, .pwr, .rdybsyN, .repeating, .rings, .routes, .snoop, .wakePending])

theorem enterDark_effect (s : State) :
    Effect enterDark_parts s (enterDark s) := by
  unfold enterDark
  repeat' (first
    | with_reducible exact Effect.refl _ _
    | (with_reducible apply partsIn_all2); decide +kernel
    | (with_reducible apply partsIn_all1); decide +kernel
    | (with_reducible show partsIn _ _ = true); decide +kernel
    | with_reducible apply Effect.ite
    | (with_reducible apply Effect.after; with_reducible apply darkHost_effect)
    | (with_reducible apply Effect.after; with_reducible apply darkGone_effect)
    | (with_reducible apply Effect.after; with_reducible apply dropFabricConfig_effect)
    | (with_reducible apply Effect.after; with_reducible apply landHeld_effect)
    | (with_reducible apply Effect.after; with_reducible apply alignDome_effect)
    | (with_reducible apply Effect.after; with_reducible apply dropSramWindows_effect)
    | (with_reducible apply Effect.after; with_reducible apply dropHoldStore_effect)
    | (with_reducible apply Effect.after; with_reducible apply linkDown_effect)
    | (with_reducible apply Effect.after; with_reducible apply releaseTherm_effect)
    | (with_reducible apply Effect.after; with_reducible apply clockStop_effect)
    | (with_reducible apply Effect.after; with_reducible apply setPwrStatus_effect)
    | (with_reducible apply Effect.after; with_reducible apply zeroWhere_effect)
    | extract_lets
    | split
    | (refine ⟨⟨?_⟩, id, id⟩; intro p hp; cases p <;> first | rfl | (intro _ _; rfl) | (refine absurd ?_ hp; decide)))

abbrev wakeDark_parts : List Part :=
  (withRegs [.acts, .attention, .bridge, .clk, .colEnded, .colWaiting, .cols, .comps, .cores, .ctlCores, .ctlMem, .d3hot, .darkLoc, .darkPerst, .eph, .events, .flash, .flowsRx, .flowsTx, .flt, .freeCtr, .heldWrites, .highSince, .hostMem, .icuTimers, .job, .linkUp, .lowPower, .lowPowerAsk, .mcasts, .mem, .opened, .perstN, .poison, .ports, .powered, .pulsed, .pwr, .rdybsyN, .repeating, .reportOwed, .restart, .rings, .routes, .sid, .snoop, .sync, .tru, .unusable, .wakePending])

theorem wakeDark_effect (s : State) (train : List (BitVec 8)) :
    Effect wakeDark_parts s (wakeDark s train) := by
  unfold wakeDark
  repeat' (first
    | with_reducible exact Effect.refl _ _
    | (with_reducible show HostIn _ _ _); constructor <;> first | exact Or.inl (by with_reducible rfl) | exact Or.inr (by decide) | exact Or.inl rfl
    | (with_reducible apply partsIn_all2); decide +kernel
    | (with_reducible apply partsIn_all1); decide +kernel
    | (with_reducible show partsIn _ _ = true); decide +kernel
    | with_reducible apply Effect.ite
    | (with_reducible apply Effect.after; with_reducible apply moduleReset_effect)
    | (with_reducible apply Effect.after; with_reducible apply sampleLocation_effect)
    | (with_reducible apply Effect.after; with_reducible apply bootWake_effect)
    | (with_reducible apply Effect.after; with_reducible apply releaseTherm_effect)
    | (with_reducible apply Effect.after; with_reducible apply clockStart_effect)
    | (with_reducible apply Effect.after; with_reducible apply sourceSettle_effect)
    | (with_reducible apply Effect.after; with_reducible apply trainPorts_effect)
    | (with_reducible apply Effect.after; with_reducible apply setPwrStatus_effect)
    | (with_reducible apply Effect.after; with_reducible apply wf_effect)
    | extract_lets
    | split
    | with_reducible apply effect_set_host
    | (refine ⟨⟨?_⟩, id, id⟩; intro p hp; cases p <;> first | rfl | (intro _ _; rfl) | (refine absurd ?_ hp; decide)))

end Sys2Proof.Machine
end

