-- ==== Sys2Proof/Laws/JobsEffect.lean ====
section
/-! SUPPORT. One effect lemma for each operation of Machine/Jobs.lean: the parts it may change. -/

set_option maxRecDepth 2000

set_option Elab.async false
set_option linter.unusedTactic false
set_option linter.unreachableTactic false
set_option linter.unusedVariables false
set_option linter.unusedSimpArgs false

namespace Sys2Proof.Machine

abbrev mgmtDone_parts : List Part :=
  [.eph, .hostMem, .icuTimers, .rings, .wakePending, .reg .ephLostCount, .reg .ephSeq, .reg .hifRingHead, .reg .icuPend, .reg .pwrStatus]

theorem mgmtDone_effect (s : State) (die : Nat) (d : Desc) (status count : Nat) :
    Effect mgmtDone_parts s (mgmtDone s die d status count) := by
  unfold mgmtDone
  repeat' (first
    | with_reducible exact Effect.refl _ _
    | (with_reducible show partsIn _ _ = true); decide +kernel
    | with_reducible apply Effect.ite
    | (with_reducible apply Effect.after; with_reducible apply finish_effect)
    | extract_lets
    | split
    | (refine ⟨⟨?_⟩, id, id⟩; intro p hp; cases p <;> first | rfl | (intro _ _; rfl) | (refine absurd ?_ hp; decide)))

abbrev beginJob_parts : List Part :=
  (withRegs [.bridge, .colEnded, .colWaiting, .eph, .events, .flash, .flowsRx, .flowsTx, .flt, .freeCtr, .heldWrites, .hostMem, .icuTimers, .job, .mcasts, .mem, .poison, .ports, .pwr, .reportOwed, .rings, .sid, .sync, .unusable, .wakePending])

theorem beginJob_effect (s : State) (d : Desc) (train : List (BitVec 8)) (reportOk : Bool) :
    Effect beginJob_parts s (beginJob s d train reportOk) := by
  unfold beginJob
  repeat' (first
    | with_reducible exact Effect.refl _ _
    | (with_reducible apply partsIn_all2); decide +kernel
    | (with_reducible apply partsIn_all1); decide +kernel
    | (with_reducible show partsIn _ _ = true); decide +kernel
    | with_reducible apply Effect.ite
    | (with_reducible apply Effect.after; with_reducible apply writeReport_effect)
    | (with_reducible apply Effect.after; with_reducible apply residencyBegin_effect)
    | (with_reducible apply Effect.after; with_reducible apply applyLedger_effect)
    | (with_reducible apply Effect.after; with_reducible apply sourceSettle_effect)
    | (with_reducible apply Effect.after; with_reducible apply setBalance_effect)
    | (with_reducible apply Effect.after; with_reducible apply flushFabric_effect)
    | (with_reducible apply Effect.after; with_reducible apply trainPorts_effect)
    | (with_reducible apply Effect.after; with_reducible apply zeroRange_effect)
    | (with_reducible apply Effect.after; with_reducible apply zeroWhere_effect)
    | (with_reducible apply Effect.after; with_reducible apply setJobState_effect)
    | (with_reducible apply Effect.after; with_reducible apply wf_effect)
    | (with_reducible apply Effect.after; with_reducible apply wr_effect)
    | extract_lets
    | split
    | with_reducible apply effect_set_sync
    | with_reducible apply effect_set_pwr_flt_job
    | (refine ⟨⟨?_⟩, id, id⟩; intro p hp; cases p <;> first | rfl | (intro _ _; rfl) | (refine absurd ?_ hp; decide)))

abbrev endJob_parts : List Part :=
  (withRegs [.bridge, .clk, .cols, .comps, .cores, .ctlCores, .eph, .flowsRx, .flowsTx, .heldWrites, .hostMem, .icuTimers, .job, .mem, .poison, .pwr, .sync, .wakePending])

theorem endJob_effect (s : State) :
    Effect endJob_parts s (endJob s) := by
  unfold endJob
  repeat' (first
    | with_reducible exact Effect.refl _ _
    | (with_reducible apply partsIn_all2); decide +kernel
    | (with_reducible apply partsIn_all1); decide +kernel
    | (with_reducible show partsIn _ _ = true); decide +kernel
    | with_reducible apply Effect.ite
    | (with_reducible apply Effect.after; with_reducible apply jobClear_effect)
    | (with_reducible apply Effect.after; with_reducible apply setJobState_effect)
    | (with_reducible apply Effect.after; with_reducible apply wf_effect)
    | extract_lets
    | split
    | with_reducible apply effect_set_job
    | (refine ⟨⟨?_⟩, id, id⟩; intro p hp; cases p <;> first | rfl | (intro _ _; rfl) | (refine absurd ?_ hp; decide)))

abbrev endByHost_parts : List Part :=
  (withRegs [.bridge, .clk, .cols, .comps, .cores, .ctlCores, .eph, .events, .flowsRx, .flowsTx, .heldWrites, .hostMem, .icuTimers, .job, .mem, .poison, .pwr, .sync, .wakePending])

theorem endByHost_effect (s : State) (d : Desc) :
    Effect endByHost_parts s (endByHost s d) := by
  unfold endByHost
  repeat' (first
    | with_reducible exact Effect.refl _ _
    | (with_reducible apply partsIn_all2); decide +kernel
    | (with_reducible apply partsIn_all1); decide +kernel
    | (with_reducible show partsIn _ _ = true); decide +kernel
    | with_reducible apply Effect.ite
    | (with_reducible apply Effect.after; with_reducible apply endJob_effect)
    | (with_reducible apply Effect.after; with_reducible apply actRecords_effect)
    | extract_lets
    | split
    | with_reducible apply effect_set_job
    | (refine ⟨⟨?_⟩, id, id⟩; intro p hp; cases p <;> first | rfl | (intro _ _; rfl) | (refine absurd ?_ hp; decide)))

theorem writeSpare_effect (s : State) :
    Effect [.flash, .flt, .freeCtr] s (writeSpare s) := by
  unfold writeSpare
  repeat' (first
    | with_reducible exact Effect.refl _ _
    | (with_reducible show partsIn _ _ = true); decide +kernel
    | with_reducible apply Effect.ite
    | (with_reducible apply Effect.after; with_reducible apply flashWrite_effect)
    | extract_lets
    | split
    | with_reducible apply effect_set_flt
    | (refine ⟨⟨?_⟩, id, id⟩; intro p hp; cases p <;> first | rfl | (intro _ _; rfl) | (refine absurd ?_ hp; decide)))

end Sys2Proof.Machine
end

