-- ==== Sys2Proof/Laws/PowerEffect.lean ====
section
/-! SUPPORT. One effect lemma for each operation of Machine/Power.lean: the parts it may change. -/

set_option maxRecDepth 2000

set_option Elab.async false
set_option linter.unusedTactic false
set_option linter.unreachableTactic false
set_option linter.unusedVariables false
set_option linter.unusedSimpArgs false

namespace Sys2Proof.Machine

theorem takePower_effect {s s' : State} {action : Nat} {d : Desc} (h : takePower s action = some (d, s')) : Effect [.rings] s s' :=
  takeDesc_effect h

abbrev finishHeld_parts : List Part :=
  [.eph, .hostMem, .icuTimers, .rings, .wakePending, .reg .ephLostCount, .reg .ephSeq, .reg .hifRingHead, .reg .icuPend, .reg .pwrStatus]

theorem finishHeld_effect (s : State) (d : Desc) :
    Effect finishHeld_parts s (finishHeld s d) := by
  unfold finishHeld
  repeat' (first
    | with_reducible exact Effect.refl _ _
    | (with_reducible show partsIn _ _ = true); decide +kernel
    | with_reducible apply Effect.ite
    | (with_reducible apply Effect.after; with_reducible apply queueCompletion_effect)
    | (with_reducible apply Effect.after; with_reducible apply settlePower_effect)
    | extract_lets
    | split
    | (refine ⟨⟨?_⟩, id, id⟩; intro p hp; cases p <;> first | rfl | (intro _ _; rfl) | (refine absurd ?_ hp; decide)))

theorem askByHost_effect (s : State) (p : LowPower) (d : Desc) :
    Effect [.lowPower, .lowPowerAsk] s (askByHost s p d) := by
  unfold askByHost
  repeat' (first
    | with_reducible exact Effect.refl _ _
    | (with_reducible show HostIn _ _ _); constructor <;> first | exact Or.inl (by with_reducible rfl) | exact Or.inr (by decide) | exact Or.inl rfl
    | (with_reducible show partsIn _ _ = true); decide +kernel
    | with_reducible apply Effect.ite
    | (with_reducible apply Effect.after; with_reducible apply askLowPower_effect)
    | extract_lets
    | split
    | with_reducible apply effect_set_host
    | (refine ⟨⟨?_⟩, id, id⟩; intro p hp; cases p <;> first | rfl | (intro _ _; rfl) | (refine absurd ?_ hp; decide)))

theorem countEnergy_effect (s : State) (mj : Nat) :
    Effect [.pwr, .reg .pwrAvg, .reg .pwrEnergy] s (countEnergy s mj) := by
  unfold countEnergy
  repeat' (first
    | with_reducible exact Effect.refl _ _
    | (with_reducible show partsIn _ _ = true); decide +kernel
    | with_reducible apply Effect.ite
    | (with_reducible apply Effect.after; with_reducible apply wf_effect)
    | (with_reducible apply Effect.after; with_reducible apply wr_effect)
    | extract_lets
    | split
    | with_reducible apply effect_set_pwr
    | (refine ⟨⟨?_⟩, id, id⟩; intro p hp; cases p <;> first | rfl | (intro _ _; rfl) | (refine absurd ?_ hp; decide)))

theorem orderStep_effect (s : State) (mj : Nat) :
    Effect [.clk, .pwr, .reg .clkStatus, .reg .clkStretchCycles, .reg .pwrStatus] s (orderStep s mj) := by
  unfold orderStep
  repeat' (first
    | with_reducible exact Effect.refl _ _
    | (with_reducible show partsIn _ _ = true); decide +kernel
    | with_reducible apply Effect.ite
    | intro _
    | with_reducible apply clkChange_effect
    | (with_reducible apply Effect.after; with_reducible apply orderBoth_effect)
    | (with_reducible apply Effect.after; with_reducible apply wf_effect)
    | extract_lets
    | split
    | with_reducible apply effect_set_pwr
    | (refine ⟨⟨?_⟩, id, id⟩; intro p hp; cases p <;> first | rfl | (intro _ _; rfl) | (refine absurd ?_ hp; decide)))

abbrev tightStep_parts : List Part :=
  [.eph, .hostMem, .icuTimers, .pwr, .wakePending, .reg .ephLostCount, .reg .ephSeq, .reg .hifRingHead, .reg .icuPend, .reg .pwrStatus]

theorem tightStep_effect (s : State) :
    Effect tightStep_parts s (tightStep s) := by
  unfold tightStep
  repeat' (first
    | with_reducible exact Effect.refl _ _
    | (with_reducible show partsIn _ _ = true); decide +kernel
    | with_reducible apply Effect.ite
    | (with_reducible apply Effect.after; with_reducible apply setPwrStatus_effect)
    | extract_lets
    | split
    | with_reducible apply effect_set_pwr
    | (refine ⟨⟨?_⟩, id, id⟩; intro p hp; cases p <;> first | rfl | (intro _ _; rfl) | (refine absurd ?_ hp; decide)))

theorem releaseHeld_effect (s : State) :
    Effect [.pwr, .rings] s (releaseHeld s) := by
  unfold releaseHeld
  repeat' (first
    | with_reducible exact Effect.refl _ _
    | (with_reducible show partsIn _ _ = true); decide +kernel
    | with_reducible apply Effect.ite
    | (with_reducible apply Effect.after; with_reducible apply setRing_effect)
    | extract_lets
    | split
    | with_reducible apply effect_set_pwr
    | (refine ⟨⟨?_⟩, id, id⟩; intro p hp; cases p <;> first | rfl | (intro _ _; rfl) | (refine absurd ?_ hp; decide)))

theorem helioClose_effect (s : State) (grant : Option (Nat × Nat × Bool)) :
    Effect [.pwr] s (helioClose s grant) := by
  unfold helioClose
  repeat' (first
    | with_reducible exact Effect.refl _ _
    | (with_reducible show partsIn _ _ = true); decide +kernel
    | with_reducible apply Effect.ite
    | extract_lets
    | split
    | with_reducible apply effect_set_pwr
    | (refine ⟨⟨?_⟩, id, id⟩; intro p hp; cases p <;> first | rfl | (intro _ _; rfl) | (refine absurd ?_ hp; decide)))

theorem setTemp_effect (s : State) (t : Nat) :
    Effect [.reg .pwrTemp] s (setTemp s t) := by
  unfold setTemp
  repeat' (first
    | with_reducible exact Effect.refl _ _
    | (with_reducible show partsIn _ _ = true); decide +kernel
    | with_reducible apply Effect.ite
    | (with_reducible apply Effect.after; with_reducible apply wf_effect)
    | extract_lets
    | split
    | (refine ⟨⟨?_⟩, id, id⟩; intro p hp; cases p <;> first | rfl | (intro _ _; rfl) | (refine absurd ?_ hp; decide)))

abbrev brakeAct_parts : List Part :=
  [.clk, .eph, .hostMem, .icuTimers, .pwr, .wakePending, .reg .clkStatus, .reg .clkStretchCycles, .reg .ephLostCount, .reg .ephSeq, .reg .hifRingHead, .reg .icuPend, .reg .pwrStatus]

theorem brakeAct_effect (s : State) (record : Bool) (f : PowerState → PowerState) :
    Effect brakeAct_parts s (brakeAct s record f) := by
  unfold brakeAct
  repeat' (first
    | with_reducible exact Effect.refl _ _
    | (with_reducible show partsIn _ _ = true); decide +kernel
    | with_reducible apply Effect.ite
    | intro _
    | with_reducible apply clkChange_effect
    | (with_reducible apply Effect.after; with_reducible apply orderBrake_effect)
    | (with_reducible apply Effect.after; with_reducible apply brakeChange_effect)
    | (with_reducible apply Effect.after; with_reducible apply brakeSettle_effect)
    | (with_reducible apply Effect.after; with_reducible apply setClk_effect)
    | (with_reducible apply Effect.trans; pick_goal 2; with_reducible apply Effect.foldl; intro _ _)
    | extract_lets
    | split
    | (refine ⟨⟨?_⟩, id, id⟩; intro p hp; cases p <;> first | rfl | (intro _ _; rfl) | (refine absurd ?_ hp; decide)))

theorem brakeEase_effect (s : State) :
    Effect [.clk, .reg .clkStatus, .reg .clkStretchCycles] s (brakeEase s) := by
  unfold brakeEase
  repeat' (first
    | with_reducible exact Effect.refl _ _
    | (with_reducible show partsIn _ _ = true); decide +kernel
    | with_reducible apply Effect.ite
    | (with_reducible apply Effect.after; with_reducible apply endBrakeStretch_effect)
    | extract_lets
    | split
    | (refine ⟨⟨?_⟩, id, id⟩; intro p hp; cases p <;> first | rfl | (intro _ _; rfl) | (refine absurd ?_ hp; decide)))

abbrev pressWakes_parts : List Part :=
  [.acts, .eph, .events, .hostMem, .icuTimers, .lowPower, .lowPowerAsk, .rings, .wakePending, .reg .ephLostCount, .reg .ephSeq, .reg .hifEventLostCount, .reg .hifRingHead, .reg .icuPend]

theorem pressWakes_effect (s : State) :
    Effect pressWakes_parts s (pressWakes s) := by
  unfold pressWakes
  repeat' (first
    | with_reducible exact Effect.refl _ _
    | (with_reducible show HostIn _ _ _); constructor <;> first | exact Or.inl (by with_reducible rfl) | exact Or.inr (by decide) | exact Or.inl rfl
    | (with_reducible show partsIn _ _ = true); decide +kernel
    | with_reducible apply Effect.ite
    | (with_reducible apply Effect.after; with_reducible apply overruleLowPower_effect)
    | (with_reducible apply Effect.after; with_reducible apply actRecords_effect)
    | (with_reducible apply Effect.after; with_reducible apply noteAct_effect)
    | extract_lets
    | split
    | with_reducible apply effect_set_host
    | (refine ⟨⟨?_⟩, id, id⟩; intro p hp; cases p <;> first | rfl | (intro _ _; rfl) | (refine absurd ?_ hp; decide)))

abbrev pressed_parts : List Part :=
  [.acts, .eph, .events, .hostMem, .icuTimers, .lowPower, .lowPowerAsk, .rings, .wakePending, .reg .ephLostCount, .reg .ephSeq, .reg .hifEventLostCount, .reg .hifRingHead, .reg .icuInputState, .reg .icuPend]

theorem pressed_effect (s : State) :
    Effect pressed_parts s (pressed s) := by
  unfold pressed
  repeat' (first
    | with_reducible exact Effect.refl _ _
    | (with_reducible show partsIn _ _ = true); decide +kernel
    | with_reducible apply Effect.ite
    | (with_reducible apply Effect.after; with_reducible apply pressWakes_effect)
    | (with_reducible apply Effect.after; with_reducible apply regRefused_effect)
    | (with_reducible apply Effect.after; with_reducible apply irq_effect)
    | (with_reducible apply Effect.after; with_reducible apply wf_effect)
    | extract_lets
    | split
    | (refine ⟨⟨?_⟩, id, id⟩; intro p hp; cases p <;> first | rfl | (intro _ _; rfl) | (refine absurd ?_ hp; decide)))

theorem sealChange_effect (s : State) (closed : Bool) :
    Effect [.icuTimers, .wakePending, .reg .icuInputState, .reg .icuPend, .reg .truSealCount, .reg .truStatus] s (sealChange s closed) := by
  unfold sealChange
  repeat' (first
    | with_reducible exact Effect.refl _ _
    | (with_reducible show partsIn _ _ = true); decide +kernel
    | with_reducible apply Effect.ite
    | (with_reducible apply Effect.after; with_reducible apply irq_effect)
    | (with_reducible apply Effect.after; with_reducible apply bump_effect)
    | (with_reducible apply Effect.after; with_reducible apply wf_effect)
    | extract_lets
    | split
    | (refine ⟨⟨?_⟩, id, id⟩; intro p hp; cases p <;> first | rfl | (intro _ _; rfl) | (refine absurd ?_ hp; decide)))

end Sys2Proof.Machine
end

