-- ==== Sys2Proof/Laws/SiderealEffect.lean ====
section
/-! SUPPORT. One effect lemma for each operation of Machine/Sidereal.lean: the parts it may change. -/

set_option maxRecDepth 2000

set_option Elab.async false
set_option linter.unusedTactic false
set_option linter.unreachableTactic false
set_option linter.unusedVariables false
set_option linter.unusedSimpArgs false

namespace Sys2Proof.Machine

theorem askTime_effect (s : State) (die p : Nat) :
    Effect [.ports, .sid] s (askTime s die p) := by
  unfold askTime
  repeat' (first
    | with_reducible exact Effect.refl _ _
    | (with_reducible show partsIn _ _ = true); decide +kernel
    | with_reducible apply Effect.ite
    | (with_reducible apply Effect.after; with_reducible apply setPort_effect)
    | (with_reducible apply Effect.after; with_reducible apply setSid_effect)
    | extract_lets
    | split
    | (refine ⟨⟨?_⟩, id, id⟩; intro p hp; cases p <;> first | rfl | (intro _ _; rfl) | (refine absurd ?_ hp; decide)))

theorem countBetter_effect (s : State) (p : Nat) :
    Effect [.ports] s (countBetter s p) := by
  unfold countBetter
  repeat' (first
    | with_reducible exact Effect.refl _ _
    | (with_reducible show partsIn _ _ = true); decide +kernel
    | with_reducible apply Effect.ite
    | (with_reducible apply Effect.after; with_reducible apply setPort_effect)
    | (with_reducible apply Effect.trans; pick_goal 2; with_reducible apply Effect.foldl; intro _ _)
    | extract_lets
    | split
    | (refine ⟨⟨?_⟩, id, id⟩; intro p hp; cases p <;> first | rfl | (intro _ _; rfl) | (refine absurd ?_ hp; decide)))

abbrev follow_parts : List Part :=
  [.eph, .hostMem, .icuTimers, .sid, .wakePending, .reg .ephLostCount, .reg .ephSeq, .reg .hifRingHead, .reg .icuPend, .reg .sidCount, .reg .sidLossCount, .reg .sidStatus, .reg .sidStepCount]

theorem follow_effect (s : State) (die : Nat) :
    Effect follow_parts s (follow s die) := by
  unfold follow
  repeat' (first
    | with_reducible exact Effect.refl _ _
    | (with_reducible show partsIn _ _ = true); decide +kernel
    | with_reducible apply Effect.ite
    | (with_reducible apply Effect.after; with_reducible apply correct_effect)
    | (with_reducible apply Effect.after; with_reducible apply setSynced_effect)
    | extract_lets
    | split
    | (refine ⟨⟨?_⟩, id, id⟩; intro p hp; cases p <;> first | rfl | (intro _ _; rfl) | (refine absurd ?_ hp; decide)))

end Sys2Proof.Machine
end

