-- ==== Sys2Proof/Laws/MgmtEffect.lean ====
section
/-! SUPPORT. One effect lemma for each operation of Machine/Mgmt.lean: the parts it may change. -/

set_option maxRecDepth 2000

set_option Elab.async false
set_option linter.unusedTactic false
set_option linter.unreachableTactic false
set_option linter.unusedVariables false
set_option linter.unusedSimpArgs false

namespace Sys2Proof.Machine

theorem mgmtCommand_effect {w : List Part} {s0 s : State} {code : Nat} {f : Bytes} {bodyOk : Nat → Bool} {k : State → Bytes → MgmtAns}
    (hw : partsIn [.answers, .icuTimers, .wakePending, .reg .icuPend] w = true) (hk : ∀ s' b, Effect w s' (k s' b).after) (h : Effect w s0 s) :
    Effect w s0 (mgmtCommand s code f bodyOk k) := by
  unfold mgmtCommand
  extract_lets c s1 a
  split
  · exact h
  · have h1 : Effect w s0 s1 := h.trans ((irq_effect _ _ _ _).mono (partsIn_trans (by decide) hw))
    have h2 : Effect w s0 a.after := by
      show Effect w s0 (if _ then _ else _ : MgmtAns).after
      split
      · exact h1.trans (hk _ _)
      · exact h1
    exact effect_set_answers _ (partsIn_trans (by decide) hw) h2

theorem mgmtStatusOnly_effect (status : Nat) (s : State) :
    Effect [] s (mgmtStatusOnly status s).after := by
  unfold mgmtStatusOnly
  repeat' (first
    | with_reducible exact Effect.refl _ _
    | (with_reducible show partsIn _ _ = true); decide +kernel
    | with_reducible apply Effect.ite
    | extract_lets
    | split
    | (refine ⟨⟨?_⟩, id, id⟩; intro p hp; cases p <;> first | rfl | (intro _ _; rfl) | (refine absurd ?_ hp; decide)))

theorem mgmtPower_effect {w : List Part} {s0 s : State} {outcome : Nat} {k : State → MgmtAns}
    (hw : partsIn [.acts, .eph, .events, .hostMem, .icuTimers, .wakePending, .reg .ephLostCount, .reg .ephSeq, .reg .hifEventLostCount, .reg .hifRingHead, .reg .icuPend] w = true) (hk : ∀ s', Effect w s' (k s').after) (h : Effect w s0 s) :
    Effect w s0 (mgmtPower s outcome k).after := by
  unfold mgmtPower
  split
  · rename_i m _
    refine h.trans (show Effect w s (actRecords s 2 .management m 0 0) from ?_)
    exact (actRecords_effect _ _ _ _ _ _).mono (partsIn_trans (by decide) hw)
  · exact (h.trans ((noteAct_effect _ _ _ _).mono (partsIn_trans (by decide) hw))).trans (hk _)

abbrev mgmtLowPower_parts : List Part :=
  [.acts, .eph, .events, .hostMem, .icuTimers, .lowPower, .lowPowerAsk, .rings, .wakePending, .reg .ephLostCount, .reg .ephSeq, .reg .hifEventLostCount, .reg .hifRingHead, .reg .icuPend]

theorem mgmtLowPower_effect (s : State) (p : LowPower) :
    Effect mgmtLowPower_parts s (mgmtLowPower s p).after := by
  unfold mgmtLowPower
  repeat' (first
    | with_reducible exact Effect.refl _ _
    | (with_reducible show partsIn _ _ = true); decide +kernel
    | with_reducible apply Effect.ite
    | intro _
    | with_reducible apply mgmtPower_effect
    | (with_reducible apply Effect.after; with_reducible apply mgmtStatusOnly_effect)
    | (with_reducible apply Effect.after; with_reducible apply askLowPower_effect)
    | (with_reducible apply Effect.after; with_reducible apply overruleLowPower_effect)
    | extract_lets
    | split
    | (refine ⟨⟨?_⟩, id, id⟩; intro p hp; cases p <;> first | rfl | (intro _ _; rfl) | (refine absurd ?_ hp; decide)))

theorem i3cAnswer_effect (s : State) (b : Bytes) :
    Effect [.answers] s (i3cAnswer s b) := by
  unfold i3cAnswer
  repeat' (first
    | with_reducible exact Effect.refl _ _
    | (with_reducible show partsIn _ _ = true); decide +kernel
    | with_reducible apply Effect.ite
    | extract_lets
    | split
    | with_reducible apply effect_set_answers
    | (refine ⟨⟨?_⟩, id, id⟩; intro p hp; cases p <;> first | rfl | (intro _ _; rfl) | (refine absurd ?_ hp; decide)))

theorem takeAddress_effect (s : State) (a : Nat) :
    Effect [.mgmt] s (takeAddress s a) := by
  unfold takeAddress
  repeat' (first
    | with_reducible exact Effect.refl _ _
    | (with_reducible show partsIn _ _ = true); decide +kernel
    | with_reducible apply Effect.ite
    | extract_lets
    | split
    | with_reducible apply effect_set_mgmt
    | (refine ⟨⟨?_⟩, id, id⟩; intro p hp; cases p <;> first | rfl | (intro _ _; rfl) | (refine absurd ?_ hp; decide)))

end Sys2Proof.Machine
end

