-- ==== Sys2Proof/Laws/InstallEffect.lean ====
section
/-! SUPPORT. One effect lemma for each operation of Machine/Install.lean: the parts it may change. -/

set_option maxRecDepth 2000

set_option Elab.async false
set_option linter.unusedTactic false
set_option linter.unreachableTactic false
set_option linter.unusedVariables false
set_option linter.unusedSimpArgs false

namespace Sys2Proof.Machine

theorem installFault_effect (s : State) (k slot reason bundle : Nat) :
    Effect [.reg .seqInstallFault] s (installFault s k slot reason bundle) := by
  unfold installFault
  repeat' (first
    | with_reducible exact Effect.refl _ _
    | (with_reducible show partsIn _ _ = true); decide +kernel
    | with_reducible apply Effect.ite
    | (with_reducible apply Effect.after; with_reducible apply wrCore_effect)
    | extract_lets
    | split
    | (refine ⟨⟨?_⟩, id, id⟩; intro p hp; cases p <;> first | rfl | (intro _ _; rfl) | (refine absurd ?_ hp; decide)))

theorem fillSlot_effect (s : State) (k slot base count : Nat) (data : Bytes) (kept : List (Nat × Nat)) :
    Effect [.cores, .reg .seqSlotBase, .reg .seqSlotCrc, .reg .seqSlotInfo] s (fillSlot s k slot base count data kept) := by
  unfold fillSlot
  repeat' (first
    | with_reducible exact Effect.refl _ _
    | (with_reducible show partsIn _ _ = true); decide +kernel
    | with_reducible apply Effect.ite
    | (with_reducible apply Effect.after; with_reducible apply setCore_effect)
    | (with_reducible apply Effect.after; with_reducible apply wr_effect)
    | extract_lets
    | split
    | (refine ⟨⟨?_⟩, id, id⟩; intro p hp; cases p <;> first | rfl | (intro _ _; rfl) | (refine absurd ?_ hp; decide)))

end Sys2Proof.Machine
end

