-- ==== Sys2Proof/Laws/ArrOpsEffect.lean ====
section
/-! SUPPORT. One effect lemma for each operation of Machine/ArrOps.lean: the parts it may change. -/

set_option maxRecDepth 2000

set_option Elab.async false
set_option linter.unusedTactic false
set_option linter.unreachableTactic false
set_option linter.unusedVariables false
set_option linter.unusedSimpArgs false

namespace Sys2Proof.Machine

theorem detect_effect (s : State) (k : Nat) (f : Failure) :
    Effect [.cores] s (detect s k f) := by
  unfold detect
  repeat' (first
    | with_reducible exact Effect.refl _ _
    | (with_reducible show partsIn _ _ = true); decide +kernel
    | with_reducible apply Effect.ite
    | (with_reducible apply Effect.after; with_reducible apply setCore_effect)
    | extract_lets
    | split
    | (refine ⟨⟨?_⟩, id, id⟩; intro p hp; cases p <;> first | rfl | (intro _ _; rfl) | (refine absurd ?_ hp; decide)))

abbrev portEffects_parts : List Part :=
  [.cores, .eph, .events, .flt, .hostMem, .icuTimers, .wakePending, .reg .arrPathStatus, .reg .ephLostCount, .reg .ephSeq, .reg .hbmPcState, .reg .hbmStatus, .reg .hifEventLostCount, .reg .hifRingHead, .reg .icuPend, .reg .seqState, .reg .spmFailCount, .reg .spmRereadCount]

theorem portEffects_effect (s : State) (k a bundle : Nat) (lf : LineFaults) (lines : List Nat) :
    Effect portEffects_parts s (portEffects s k a bundle lf lines) := by
  unfold portEffects
  repeat' (first
    | with_reducible exact Effect.refl _ _
    | (with_reducible show partsIn _ _ = true); decide +kernel
    | with_reducible apply Effect.ite
    | (with_reducible apply Effect.after; with_reducible apply detect_effect)
    | (with_reducible apply Effect.after; with_reducible apply slipFor_effect)
    | (with_reducible apply Effect.after; with_reducible apply setArray_effect)
    | (with_reducible apply Effect.after; with_reducible apply exhaust_effect)
    | (with_reducible apply Effect.after; with_reducible apply transient_effect)
    | (with_reducible apply Effect.after; with_reducible apply bump_effect)
    | (with_reducible apply Effect.trans; pick_goal 2; with_reducible apply Effect.foldl; intro _ _)
    | extract_lets
    | split
    | (refine ⟨⟨?_⟩, id, id⟩; intro p hp; cases p <;> first | rfl | (intro _ _; rfl) | (refine absurd ?_ hp; decide)))

abbrev passPort_parts : List Part :=
  [.cores, .eph, .events, .flt, .hostMem, .icuTimers, .wakePending, .reg .arrPathStatus, .reg .ephLostCount, .reg .ephSeq, .reg .hbmPcState, .reg .hbmStatus, .reg .hifEventLostCount, .reg .hifRingHead, .reg .icuPend, .reg .seqState, .reg .spmFailCount, .reg .spmRereadCount]

theorem passPort_effect (k a : Nat) (s : State) (r : PassRun) :
    Effect passPort_parts s (passPort k a s r) := by
  unfold passPort
  repeat' (first
    | with_reducible exact Effect.refl _ _
    | (with_reducible show partsIn _ _ = true); decide +kernel
    | with_reducible apply Effect.ite
    | (with_reducible apply Effect.after; with_reducible apply portEffects_effect)
    | (with_reducible apply Effect.after; with_reducible apply setArray_effect)
    | extract_lets
    | split
    | (refine ⟨⟨?_⟩, id, id⟩; intro p hp; cases p <;> first | rfl | (intro _ _; rfl) | (refine absurd ?_ hp; decide)))

abbrev loadCheck_parts : List Part :=
  [.cores, .eph, .events, .flt, .hostMem, .icuTimers, .wakePending, .reg .arrPathStatus, .reg .arrTransitCount, .reg .ephLostCount, .reg .ephSeq, .reg .hbmPcState, .reg .hbmStatus, .reg .hifEventLostCount, .reg .hifRingHead, .reg .icuPend]

theorem loadCheck_effect (k a bundle : Nat) (s : State) (kind : Nat) :
    Effect loadCheck_parts s (loadCheck k a bundle s kind) := by
  unfold loadCheck
  repeat' (first
    | with_reducible exact Effect.refl _ _
    | (with_reducible show partsIn _ _ = true); decide +kernel
    | with_reducible apply Effect.ite
    | (with_reducible apply Effect.after; with_reducible apply detect_effect)
    | (with_reducible apply Effect.after; with_reducible apply transient_effect)
    | (with_reducible apply Effect.after; with_reducible apply bumpQuad_effect)
    | extract_lets
    | split
    | (refine ⟨⟨?_⟩, id, id⟩; intro p hp; cases p <;> first | rfl | (intro _ _; rfl) | (refine absurd ?_ hp; decide)))

abbrev loadPort_parts : List Part :=
  [.cores, .eph, .events, .flt, .hostMem, .icuTimers, .wakePending, .reg .arrPathStatus, .reg .arrTransitCount, .reg .ephLostCount, .reg .ephSeq, .reg .hbmPcState, .reg .hbmStatus, .reg .hifEventLostCount, .reg .hifRingHead, .reg .icuPend, .reg .seqState, .reg .spmFailCount, .reg .spmRereadCount]

theorem loadPort_effect (k a : Nat) (s : State) (l : LoadRun) :
    Effect loadPort_parts s (loadPort k a s l) := by
  unfold loadPort
  repeat' (first
    | with_reducible exact Effect.refl _ _
    | (with_reducible show partsIn _ _ = true); decide +kernel
    | with_reducible apply Effect.ite
    | (with_reducible apply Effect.after; with_reducible apply loadCheck_effect)
    | (with_reducible apply Effect.after; with_reducible apply portEffects_effect)
    | (with_reducible apply Effect.after; with_reducible apply setArray_effect)
    | (with_reducible apply Effect.after; with_reducible apply setCore_effect)
    | (with_reducible apply Effect.trans; pick_goal 2; with_reducible apply Effect.foldl; intro _ _)
    | extract_lets
    | split
    | (refine ⟨⟨?_⟩, id, id⟩; intro p hp; cases p <;> first | rfl | (intro _ _; rfl) | (refine absurd ?_ hp; decide)))

abbrev arrayPorts_parts : List Part :=
  [.cores, .eph, .events, .flt, .hostMem, .icuTimers, .wakePending, .reg .arrPathStatus, .reg .arrTransitCount, .reg .ephLostCount, .reg .ephSeq, .reg .hbmPcState, .reg .hbmStatus, .reg .hifEventLostCount, .reg .hifRingHead, .reg .icuPend, .reg .seqState, .reg .spmFailCount, .reg .spmRereadCount]

theorem arrayPorts_effect (s : State) (k a : Nat) :
    Effect arrayPorts_parts s (arrayPorts s k a) := by
  unfold arrayPorts
  repeat' (first
    | with_reducible exact Effect.refl _ _
    | (with_reducible show partsIn _ _ = true); decide +kernel
    | with_reducible apply Effect.ite
    | (with_reducible apply Effect.after; with_reducible apply loadPort_effect)
    | (with_reducible apply Effect.after; with_reducible apply passPort_effect)
    | (with_reducible apply Effect.trans; pick_goal 2; with_reducible apply Effect.foldl; intro _ _)
    | extract_lets
    | split
    | (refine ⟨⟨?_⟩, id, id⟩; intro p hp; cases p <;> first | rfl | (intro _ _; rfl) | (refine absurd ?_ hp; decide)))

end Sys2Proof.Machine
end

