-- ==== Sys2Proof/Laws/AccOpsEffect.lean ====
section
/-! SUPPORT. One effect lemma for each operation of Machine/AccOps.lean: the parts it may change. -/

set_option maxRecDepth 2000

set_option Elab.async false
set_option linter.unusedTactic false
set_option linter.unreachableTactic false
set_option linter.unusedVariables false
set_option linter.unusedSimpArgs false

namespace Sys2Proof.Machine

abbrev plateWrite_parts : List Part :=
  [.eph, .events, .flt, .freeCtr, .heldWrites, .hostMem, .icuTimers, .mem, .poison, .scrub, .wakePending, .reg .arrPathStatus, .reg .ephLostCount, .reg .ephSeq, .reg .hbmFailCount, .reg .hbmOdeccCorrCount, .reg .hbmOdeccUncorrCount, .reg .hbmPcState, .reg .hbmPoisonCount, .reg .hbmRereadCount, .reg .hbmStatus, .reg .hifEventLostCount, .reg .hifRingHead, .reg .icuPend, .reg .spmFailCount, .reg .spmPoisonCount, .reg .spmRereadCount]

theorem plateWrite_effect (s : State) (addr : Nat) (data : Bytes) :
    Effect plateWrite_parts s (plateWrite s addr data) := by
  unfold plateWrite
  repeat' (first
    | with_reducible exact Effect.refl _ _
    | (with_reducible show partsIn _ _ = true); decide +kernel
    | with_reducible apply Effect.ite
    | (with_reducible apply Effect.after; with_reducible apply storeBytes_effect)
    | extract_lets
    | split
    | (refine ⟨⟨?_⟩, id, id⟩; intro p hp; cases p <;> first | rfl | (intro _ _; rfl) | (refine absurd ?_ hp; decide)))

abbrev landSpill_parts : List Part :=
  [.cores, .eph, .events, .flt, .freeCtr, .heldWrites, .hostMem, .icuTimers, .mem, .poison, .scrub, .wakePending, .reg .accSpillA0, .reg .accSpillA1, .reg .accSpillA2, .reg .accSpillA3, .reg .arrPathStatus, .reg .ephLostCount, .reg .ephSeq, .reg .hbmFailCount, .reg .hbmOdeccCorrCount, .reg .hbmOdeccUncorrCount, .reg .hbmPcState, .reg .hbmPoisonCount, .reg .hbmRereadCount, .reg .hbmStatus, .reg .hifEventLostCount, .reg .hifRingHead, .reg .icuPend, .reg .spmFailCount, .reg .spmPoisonCount, .reg .spmRereadCount]

theorem bump_spill_effect (s : State) (a die unit n : Nat) :
    Effect [.reg .accSpillA0, .reg .accSpillA1, .reg .accSpillA2, .reg .accSpillA3] s (bump s (spillReg a) die unit n) := by
  unfold spillReg
  split <;> exact (bump_effect _ _ _ _ _).mono (by decide)

theorem landSpill_effect (s : State) (k a : Nat) (sp : PendingSpill) :
    Effect landSpill_parts s (landSpill s k a sp) := by
  unfold landSpill
  repeat' (first
    | with_reducible exact Effect.refl _ _
    | (with_reducible show partsIn _ _ = true); decide +kernel
    | with_reducible apply Effect.ite
    | (with_reducible apply Effect.after; with_reducible apply bump_spill_effect)
    | (with_reducible apply Effect.after; with_reducible apply plateWrite_effect)
    | (with_reducible apply Effect.after; with_reducible apply setArray_effect)
    | (with_reducible apply Effect.after; with_reducible apply bump_effect)
    | extract_lets
    | split
    | (refine ⟨⟨?_⟩, id, id⟩; intro p hp; cases p <;> first | rfl | (intro _ _; rfl) | (refine absurd ?_ hp; decide)))

abbrev checkRead_parts : List Part :=
  [.cores, .eph, .events, .flt, .hostMem, .icuTimers, .poison, .scrub, .wakePending, .reg .arrPathStatus, .reg .ephLostCount, .reg .ephSeq, .reg .hbmFailCount, .reg .hbmOdeccCorrCount, .reg .hbmOdeccUncorrCount, .reg .hbmPcState, .reg .hbmRereadCount, .reg .hbmStatus, .reg .hifEventLostCount, .reg .hifRingHead, .reg .icuPend, .reg .seqState, .reg .spmFailCount, .reg .spmRereadCount]

theorem checkRead_effect (s : State) (k : Nat) (er : EngineRun) (f : Nat → FreezeCond) (base len : Nat) :
    Effect checkRead_parts s (checkRead s k er f base len) := by
  unfold checkRead
  repeat' (first
    | with_reducible exact Effect.refl _ _
    | (with_reducible show partsIn _ _ = true); decide +kernel
    | with_reducible apply Effect.ite
    | (with_reducible apply Effect.after; with_reducible apply slipFor_effect)
    | (with_reducible apply Effect.after; with_reducible apply readEffects_effect)
    | (with_reducible apply Effect.trans; pick_goal 2; with_reducible apply Effect.foldl; intro _ _)
    | extract_lets
    | split
    | (refine ⟨⟨?_⟩, id, id⟩; intro p hp; cases p <;> first | rfl | (intro _ _; rfl) | (refine absurd ?_ hp; decide)))

abbrev engineRead_parts : List Part :=
  [.cores, .eph, .events, .flt, .hostMem, .icuTimers, .poison, .scrub, .wakePending, .reg .arrPathStatus, .reg .ephLostCount, .reg .ephSeq, .reg .hbmFailCount, .reg .hbmOdeccCorrCount, .reg .hbmOdeccUncorrCount, .reg .hbmPcState, .reg .hbmRereadCount, .reg .hbmStatus, .reg .hifEventLostCount, .reg .hifRingHead, .reg .icuPend, .reg .seqState, .reg .spmFailCount, .reg .spmRereadCount]

theorem engineRead_effect (s : State) (k bundle : Nat) (er : EngineRun) (f : Nat → FreezeCond) (base len : Nat) :
    Effect engineRead_parts s (engineRead s k bundle er f base len) := by
  unfold engineRead
  repeat' (first
    | with_reducible exact Effect.refl _ _
    | (with_reducible show partsIn _ _ = true); decide +kernel
    | with_reducible apply Effect.ite
    | (with_reducible apply Effect.after; with_reducible apply checkRead_effect)
    | (with_reducible apply Effect.after; with_reducible apply armGuards_effect)
    | extract_lets
    | split
    | (refine ⟨⟨?_⟩, id, id⟩; intro p hp; cases p <;> first | rfl | (intro _ _; rfl) | (refine absurd ?_ hp; decide)))

abbrev spillOne_parts : List Part :=
  [.cores, .eph, .events, .flt, .freeCtr, .heldWrites, .hostMem, .icuTimers, .mem, .poison, .scrub, .wakePending, .reg .accSpillA0, .reg .accSpillA1, .reg .accSpillA2, .reg .accSpillA3, .reg .arrPathStatus, .reg .ephLostCount, .reg .ephSeq, .reg .hbmFailCount, .reg .hbmOdeccCorrCount, .reg .hbmOdeccUncorrCount, .reg .hbmPcState, .reg .hbmPoisonCount, .reg .hbmRereadCount, .reg .hbmStatus, .reg .hifEventLostCount, .reg .hifRingHead, .reg .icuPend, .reg .seqState, .reg .spmFailCount, .reg .spmPoisonCount, .reg .spmRereadCount]

theorem spillOne_effect (s : State) (k a : Nat) (er : EngineRun) (sp : PendingSpill) :
    Effect spillOne_parts s (spillOne s k a er sp) := by
  unfold spillOne
  repeat' (first
    | with_reducible exact Effect.refl _ _
    | (with_reducible show partsIn _ _ = true); decide +kernel
    | with_reducible apply Effect.ite
    | (with_reducible apply Effect.after; with_reducible apply engineRead_effect)
    | (with_reducible apply Effect.after; with_reducible apply landSpill_effect)
    | (with_reducible apply Effect.after; with_reducible apply detect_effect)
    | extract_lets
    | split
    | dsimp +zetaDelta only
    | (refine ⟨⟨?_⟩, id, id⟩; intro p hp; cases p <;> first | rfl | (intro _ _; rfl) | (refine absurd ?_ hp; decide)))

abbrev landInto_parts : List Part :=
  [.cores, .eph, .events, .flt, .freeCtr, .heldWrites, .hostMem, .icuTimers, .mem, .poison, .scrub, .wakePending, .reg .accSpillA0, .reg .accSpillA1, .reg .accSpillA2, .reg .accSpillA3, .reg .arrPathStatus, .reg .ephLostCount, .reg .ephSeq, .reg .hbmFailCount, .reg .hbmOdeccCorrCount, .reg .hbmOdeccUncorrCount, .reg .hbmPcState, .reg .hbmPoisonCount, .reg .hbmRereadCount, .reg .hbmStatus, .reg .hifEventLostCount, .reg .hifRingHead, .reg .icuPend, .reg .seqState, .reg .spmFailCount, .reg .spmPoisonCount, .reg .spmRereadCount]

theorem landInto_effect (k : Nat) (own : Option Nat) (base len before : Nat) (er : EngineRun) (n : Nat) : ∀ (s : State),
    Effect landInto_parts s (landInto k own base len before er n s) := by
  induction n with
  | zero => intros; unfold landInto; exact Effect.refl _ _
  | succ n ih =>
    intros; unfold landInto
    repeat' (first
      | with_reducible exact Effect.refl _ _
      | (with_reducible show partsIn _ _ = true); decide +kernel
      | with_reducible apply Effect.ite
      | (with_reducible apply Effect.after; with_reducible apply ih)
      | (with_reducible apply Effect.after; with_reducible apply spillOne_effect)
      | (with_reducible apply Effect.after; with_reducible apply setArray_effect)
      | extract_lets
      | split
      | (refine ⟨⟨?_⟩, id, id⟩; intro p hp; cases p <;> first | rfl | (intro _ _; rfl) | (refine absurd ?_ hp; decide)))

abbrev drainOne_parts : List Part :=
  [.cores, .eph, .events, .flt, .freeCtr, .heldWrites, .hostMem, .icuTimers, .mem, .poison, .scrub, .wakePending, .reg .accSpillA0, .reg .accSpillA1, .reg .accSpillA2, .reg .accSpillA3, .reg .arrPathStatus, .reg .ephLostCount, .reg .ephSeq, .reg .hbmFailCount, .reg .hbmOdeccCorrCount, .reg .hbmOdeccUncorrCount, .reg .hbmPcState, .reg .hbmPoisonCount, .reg .hbmRereadCount, .reg .hbmStatus, .reg .hifEventLostCount, .reg .hifRingHead, .reg .icuPend, .reg .spmFailCount, .reg .spmPoisonCount, .reg .spmRereadCount]

theorem drainOne_effect (s : State) (k a : Nat) (r : DrainRun) (i : Nat) :
    Effect drainOne_parts s (drainOne s k a r i) := by
  unfold drainOne
  repeat' (first
    | with_reducible exact Effect.refl _ _
    | (with_reducible show partsIn _ _ = true); decide +kernel
    | with_reducible apply Effect.ite
    | (with_reducible apply Effect.after; with_reducible apply bump_spill_effect)
    | (with_reducible apply Effect.after; with_reducible apply plateWrite_effect)
    | (with_reducible apply Effect.after; with_reducible apply setArray_effect)
    | (with_reducible apply Effect.after; with_reducible apply bump_effect)
    | extract_lets
    | split
    | (refine ⟨⟨?_⟩, id, id⟩; intro p hp; cases p <;> first | rfl | (intro _ _; rfl) | (refine absurd ?_ hp; decide)))

abbrev drainRead_parts : List Part :=
  [.cores, .eph, .events, .flt, .freeCtr, .heldWrites, .hostMem, .icuTimers, .mem, .poison, .scrub, .wakePending, .reg .accSpillA0, .reg .accSpillA1, .reg .accSpillA2, .reg .accSpillA3, .reg .arrPathStatus, .reg .ephLostCount, .reg .ephSeq, .reg .hbmFailCount, .reg .hbmOdeccCorrCount, .reg .hbmOdeccUncorrCount, .reg .hbmPcState, .reg .hbmPoisonCount, .reg .hbmRereadCount, .reg .hbmStatus, .reg .hifEventLostCount, .reg .hifRingHead, .reg .icuPend, .reg .seqState, .reg .spmFailCount, .reg .spmPoisonCount, .reg .spmRereadCount]

theorem drainRead_effect (k a : Nat) (s : State) (r : DrainRun) :
    Effect drainRead_parts s (drainRead k a s r) := by
  unfold drainRead
  repeat' (first
    | with_reducible exact Effect.refl _ _
    | (with_reducible show partsIn _ _ = true); decide +kernel
    | with_reducible apply Effect.ite
    | (with_reducible apply Effect.after; with_reducible apply drainOne_effect)
    | (with_reducible apply Effect.after; with_reducible apply landInto_effect)
    | (with_reducible apply Effect.after; with_reducible apply engineRead_effect)
    | (with_reducible apply Effect.after; with_reducible apply detect_effect)
    | (with_reducible apply Effect.trans; pick_goal 2; with_reducible apply Effect.foldl; intro _ _)
    | extract_lets
    | split
    | dsimp +zetaDelta only
    | (refine ⟨⟨?_⟩, id, id⟩; intro p hp; cases p <;> first | rfl | (intro _ _; rfl) | (refine absurd ?_ hp; decide)))

abbrev drainEnd_parts : List Part :=
  [.cores, .eph, .events, .flt, .freeCtr, .heldWrites, .hostMem, .icuTimers, .mem, .poison, .scrub, .wakePending, .reg .accLapseCount, .reg .accNonfiniteCount, .reg .arrPathStatus, .reg .ephLostCount, .reg .ephSeq, .reg .hbmFailCount, .reg .hbmOdeccCorrCount, .reg .hbmOdeccUncorrCount, .reg .hbmPcState, .reg .hbmPoisonCount, .reg .hbmRereadCount, .reg .hbmStatus, .reg .hifEventLostCount, .reg .hifRingHead, .reg .icuPend, .reg .spmFailCount, .reg .spmPoisonCount, .reg .spmRereadCount]

theorem drainEnd_effect (s : State) (k a : Nat) (r : DrainRun) :
    Effect drainEnd_parts s (drainEnd s k a r) := by
  unfold drainEnd
  repeat' (first
    | with_reducible exact Effect.refl _ _
    | (with_reducible show partsIn _ _ = true); decide +kernel
    | with_reducible apply Effect.ite
    | (with_reducible apply Effect.after; with_reducible apply flagCore_effect)
    | (with_reducible apply Effect.after; with_reducible apply landWrite_effect)
    | (with_reducible apply Effect.after; with_reducible apply emit_effect)
    | (with_reducible apply Effect.after; with_reducible apply bumpQuad_effect)
    | extract_lets
    | split
    | (refine ⟨⟨?_⟩, id, id⟩; intro p hp; cases p <;> first | rfl | (intro _ _; rfl) | (refine absurd ?_ hp; decide)))

abbrev drainEnter_parts : List Part :=
  [.cores, .eph, .events, .flt, .freeCtr, .heldWrites, .hostMem, .icuTimers, .mem, .poison, .scrub, .wakePending, .reg .accLapseCount, .reg .accNonfiniteCount, .reg .arrPathStatus, .reg .ephLostCount, .reg .ephSeq, .reg .hbmFailCount, .reg .hbmOdeccCorrCount, .reg .hbmOdeccUncorrCount, .reg .hbmPcState, .reg .hbmPoisonCount, .reg .hbmRereadCount, .reg .hbmStatus, .reg .hifEventLostCount, .reg .hifRingHead, .reg .icuPend, .reg .spmFailCount, .reg .spmPoisonCount, .reg .spmRereadCount]

theorem drainEnter_effect (k a : Nat) (s : State) (r : DrainRun) :
    Effect drainEnter_parts s (drainEnter k a s r) := by
  unfold drainEnter
  repeat' (first
    | with_reducible exact Effect.refl _ _
    | (with_reducible show partsIn _ _ = true); decide +kernel
    | with_reducible apply Effect.ite
    | (with_reducible apply Effect.after; with_reducible apply drainEnd_effect)
    | (with_reducible apply Effect.after; with_reducible apply setArray_effect)
    | (with_reducible apply Effect.after; with_reducible apply landWrite_effect)
    | (with_reducible apply Effect.trans; pick_goal 2; with_reducible apply Effect.foldl; intro _ _)
    | extract_lets
    | split
    | (refine ⟨⟨?_⟩, id, id⟩; intro p hp; cases p <;> first | rfl | (intro _ _; rfl) | (refine absurd ?_ hp; decide)))

abbrev feedRows_parts : List Part :=
  [.eph, .events, .flt, .hostMem, .icuTimers, .poison, .scrub, .wakePending, .reg .arrPathStatus, .reg .ephLostCount, .reg .ephSeq, .reg .hbmFailCount, .reg .hbmOdeccCorrCount, .reg .hbmOdeccUncorrCount, .reg .hbmPcState, .reg .hbmRereadCount, .reg .hbmStatus, .reg .hifEventLostCount, .reg .hifRingHead, .reg .icuPend, .reg .spmFailCount, .reg .spmRereadCount]

theorem feedRows_effect (f : Feed) (mf : MemFaults) (n : Nat) : ∀ (i : Nat) (s : State) (acc : List (Nat × Bytes)),
    Effect feedRows_parts s (feedRows f mf n i s acc).2.2 := by
  induction n with
  | zero => intros; unfold feedRows; exact Effect.refl _ _
  | succ n ih =>
    intros; unfold feedRows
    repeat' (first
      | with_reducible exact Effect.refl _ _
      | (with_reducible show partsIn _ _ = true); decide +kernel
      | with_reducible apply Effect.ite
      | (with_reducible apply Effect.after; with_reducible apply ih)
      | (with_reducible apply Effect.after; with_reducible apply memRead_effect)
      | with_reducible refine Effect.after (Effect.snd (memRead_effect _ _ _ _) (by assumption)) ?_ ?_
      | (with_reducible apply Effect.after; with_reducible apply readEffects_effect)
      | extract_lets
      | split
      | dsimp +zetaDelta only
      | (refine ⟨⟨?_⟩, id, id⟩; intro p hp; cases p <;> first | rfl | (intro _ _; rfl) | (refine absurd ?_ hp; decide)))

abbrev feedRead_parts : List Part :=
  [.eph, .events, .flt, .hostMem, .icuTimers, .poison, .scrub, .wakePending, .reg .arrPathStatus, .reg .ephLostCount, .reg .ephSeq, .reg .hbmFailCount, .reg .hbmOdeccCorrCount, .reg .hbmOdeccUncorrCount, .reg .hbmPcState, .reg .hbmRereadCount, .reg .hbmStatus, .reg .hifEventLostCount, .reg .hifRingHead, .reg .icuPend, .reg .spmFailCount, .reg .spmRereadCount]

theorem feedRead_effect (s : State) (f : Feed) (mf : MemFaults) :
    Effect feedRead_parts s (feedRead s f mf).2.2 := by
  unfold feedRead
  repeat' (first
    | with_reducible exact Effect.refl _ _
    | (with_reducible show partsIn _ _ = true); decide +kernel
    | with_reducible apply Effect.ite
    | (with_reducible apply Effect.after; with_reducible apply feedRows_effect)
    | with_reducible refine Effect.after (Effect.snd4 (feedRows_effect _ _) (by assumption)) ?_ ?_
    | extract_lets
    | split
    | (refine ⟨⟨?_⟩, id, id⟩; intro p hp; cases p <;> first | rfl | (intro _ _; rfl) | (refine absurd ?_ hp; decide)))

theorem feedArms_effect (s : State) (k bundle : Nat) (f : Feed) :
    Effect [.cores] s (feedArms s k bundle f) := by
  unfold feedArms
  repeat' (first
    | with_reducible exact Effect.refl _ _
    | (with_reducible show partsIn _ _ = true); decide +kernel
    | with_reducible apply Effect.ite
    | (with_reducible apply Effect.after; with_reducible apply armGuards_effect)
    | (with_reducible apply Effect.trans; pick_goal 2; with_reducible apply Effect.foldl; intro _ _)
    | extract_lets
    | split
    | (refine ⟨⟨?_⟩, id, id⟩; intro p hp; cases p <;> first | rfl | (intro _ _; rfl) | (refine absurd ?_ hp; decide)))

theorem feedLand_effect (s : State) (k a : Nat) (lines : List (Nat × Bytes)) :
    Effect [.cores] s (feedLand s k a lines) := by
  unfold feedLand
  repeat' (first
    | with_reducible exact Effect.refl _ _
    | (with_reducible show partsIn _ _ = true); decide +kernel
    | with_reducible apply Effect.ite
    | (with_reducible apply Effect.after; with_reducible apply setArray_effect)
    | (with_reducible apply Effect.trans; pick_goal 2; with_reducible apply Effect.foldl; intro _ _)
    | extract_lets
    | split
    | (refine ⟨⟨?_⟩, id, id⟩; intro p hp; cases p <;> first | rfl | (intro _ _; rfl) | (refine absurd ?_ hp; decide)))

abbrev arrayWork_parts : List Part :=
  [.bridge, .cores, .eph, .events, .flt, .freeCtr, .heldWrites, .hostMem, .icuTimers, .mem, .poison, .rings, .scrub, .sync, .wakePending, .reg .accSpillA0, .reg .accSpillA1, .reg .accSpillA2, .reg .accSpillA3, .reg .arrPathStatus, .reg .arrTransitCount, .reg .ephLostCount, .reg .ephSeq, .reg .hbmFailCount, .reg .hbmOdeccCorrCount, .reg .hbmOdeccUncorrCount, .reg .hbmPcState, .reg .hbmPoisonCount, .reg .hbmRereadCount, .reg .hbmStatus, .reg .hifEventLostCount, .reg .hifRingHead, .reg .icuPend, .reg .pwrStatus, .reg .seqReplayCycles, .reg .seqSlipCycles, .reg .seqState, .reg .seqWaitCycles, .reg .spmFailCount, .reg .spmPoisonCount, .reg .spmRereadCount]

theorem arrayWork_effect (bad : List Nat) (s : State) (k a : Nat) :
    Effect arrayWork_parts s (arrayWork bad s k a) := by
  unfold arrayWork
  repeat' (first
    | with_reducible exact Effect.refl _ _
    | (with_reducible show partsIn _ _ = true); decide +kernel
    | with_reducible apply Effect.ite
    | (with_reducible apply Effect.after; with_reducible apply drainRead_effect)
    | (with_reducible apply Effect.after; with_reducible apply arrayPorts_effect)
    | (with_reducible apply Effect.after; with_reducible apply endStream_effect)
    | (with_reducible apply Effect.after; with_reducible apply setArray_effect)
    | (with_reducible apply Effect.trans; pick_goal 2; with_reducible apply Effect.foldl; intro _ _)
    | extract_lets
    | split
    | (refine ⟨⟨?_⟩, id, id⟩; intro p hp; cases p <;> first | rfl | (intro _ _; rfl) | (refine absurd ?_ hp; decide)))

abbrev arrayEnter_parts : List Part :=
  [.cores, .eph, .events, .flt, .freeCtr, .heldWrites, .hostMem, .icuTimers, .mem, .poison, .scrub, .wakePending, .reg .accLapseCount, .reg .accNonfiniteCount, .reg .arrPathStatus, .reg .ephLostCount, .reg .ephSeq, .reg .hbmFailCount, .reg .hbmOdeccCorrCount, .reg .hbmOdeccUncorrCount, .reg .hbmPcState, .reg .hbmPoisonCount, .reg .hbmRereadCount, .reg .hbmStatus, .reg .hifEventLostCount, .reg .hifRingHead, .reg .icuPend, .reg .spmFailCount, .reg .spmPoisonCount, .reg .spmRereadCount]

theorem arrayEnter_effect (s : State) (k a : Nat) :
    Effect arrayEnter_parts s (arrayEnter s k a) := by
  unfold arrayEnter
  repeat' (first
    | with_reducible exact Effect.refl _ _
    | (with_reducible show partsIn _ _ = true); decide +kernel
    | with_reducible apply Effect.ite
    | (with_reducible apply Effect.after; with_reducible apply drainEnter_effect)
    | (with_reducible apply Effect.after; with_reducible apply setArray_effect)
    | (with_reducible apply Effect.trans; pick_goal 2; with_reducible apply Effect.foldl; intro _ _)
    | extract_lets
    | split
    | (refine ⟨⟨?_⟩, id, id⟩; intro p hp; cases p <;> first | rfl | (intro _ _; rfl) | (refine absurd ?_ hp; decide)))

end Sys2Proof.Machine
end

