-- ==== Sys2Proof/Laws/VecOpsEffect.lean ====
section
/-! SUPPORT. One effect lemma for each operation of Machine/VecOps.lean: the parts it may change. -/

set_option maxRecDepth 2000

set_option Elab.async false
set_option linter.unusedTactic false
set_option linter.unreachableTactic false
set_option linter.unusedVariables false
set_option linter.unusedSimpArgs false

namespace Sys2Proof.Machine

abbrev movrRegs_parts : List Part :=
  [.reg .vecFlags, .reg .vecScalar0, .reg .vecScalar1, .reg .vecScalar2, .reg .vecScalar3, .reg .vecScalar4, .reg .vecScalar5, .reg .vecScalar6, .reg .vecScalar7, .reg .vecSrStep]

theorem movrTarget_mem (w : Nat) : Part.reg (movrTarget w) ∈ movrRegs_parts := by
  unfold movrTarget
  split
  · decide
  · decide
  · unfold scalarReg; split <;> decide

theorem movrRegs_effect (s : State) (k w : Nat) (b : Bytes) : Effect movrRegs_parts s (movrRegs s k w b) := by
  have hw : ∀ v, Effect movrRegs_parts s (wrCore s (movrTarget w) k v) := fun v =>
    (wrCore_effect s (movrTarget w) k v).mono_mem fun p hp => by
      rw [List.mem_singleton] at hp; subst hp; exact movrTarget_mem w
  unfold movrRegs
  extract_lets
  split
  · exact hw _
  · exact hw _
  · exact hw _
  · exact Effect.refl _ _

abbrev vecRead_parts : List Part :=
  [.cores, .eph, .events, .flt, .hostMem, .icuTimers, .poison, .scrub, .wakePending, .reg .arrPathStatus, .reg .ephLostCount, .reg .ephSeq, .reg .hbmFailCount, .reg .hbmOdeccCorrCount, .reg .hbmOdeccUncorrCount, .reg .hbmPcState, .reg .hbmRereadCount, .reg .hbmStatus, .reg .hifEventLostCount, .reg .hifRingHead, .reg .icuPend, .reg .seqState, .reg .spmFailCount, .reg .spmRereadCount]

theorem vecRead_effect (k : Nat) (s : State) (r : VecRun) :
    Effect vecRead_parts s (vecRead k s r) := by
  unfold vecRead
  repeat' (first
    | with_reducible exact Effect.refl _ _
    | (with_reducible show partsIn _ _ = true); decide +kernel
    | with_reducible apply Effect.ite
    | (with_reducible apply Effect.after; with_reducible apply engineRead_effect)
    | (with_reducible apply Effect.after; with_reducible apply slipFor_effect)
    | (with_reducible apply Effect.after; with_reducible apply setCore_effect)
    | (with_reducible apply Effect.trans; pick_goal 2; with_reducible apply Effect.foldl; intro _ _)
    | extract_lets
    | split
    | (refine ⟨⟨?_⟩, id, id⟩; intro p hp; cases p <;> first | rfl | (intro _ _; rfl) | (refine absurd ?_ hp; decide)))

abbrev vecResults_parts : List Part :=
  [.cores, .eph, .events, .flt, .freeCtr, .heldWrites, .hostMem, .icuTimers, .mem, .poison, .scrub, .wakePending, .reg .arrPathStatus, .reg .ephLostCount, .reg .ephSeq, .reg .hbmFailCount, .reg .hbmOdeccCorrCount, .reg .hbmOdeccUncorrCount, .reg .hbmPcState, .reg .hbmPoisonCount, .reg .hbmRereadCount, .reg .hbmStatus, .reg .hifEventLostCount, .reg .hifRingHead, .reg .icuPend, .reg .spmFailCount, .reg .spmPoisonCount, .reg .spmRereadCount]

theorem vecResults_effect (k : Nat) (s : State) (r : VecRun) :
    Effect vecResults_parts s (vecResults k s r) := by
  unfold vecResults
  repeat' (first
    | with_reducible exact Effect.refl _ _
    | (with_reducible show partsIn _ _ = true); decide +kernel
    | with_reducible apply Effect.ite
    | (with_reducible apply Effect.after; with_reducible apply setCore_effect)
    | (with_reducible apply Effect.after; with_reducible apply landWrite_effect)
    | (with_reducible apply Effect.trans; pick_goal 2; with_reducible apply Effect.foldl; intro _ _)
    | extract_lets
    | split
    | (refine ⟨⟨?_⟩, id, id⟩; intro p hp; cases p <;> first | rfl | (intro _ _; rfl) | (refine absurd ?_ hp; decide)))

abbrev vecWrite_parts : List Part :=
  [.cores, .eph, .events, .flt, .freeCtr, .heldWrites, .hostMem, .icuTimers, .mem, .poison, .scrub, .wakePending, .reg .arrPathStatus, .reg .ephLostCount, .reg .ephSeq, .reg .hbmFailCount, .reg .hbmOdeccCorrCount, .reg .hbmOdeccUncorrCount, .reg .hbmPcState, .reg .hbmPoisonCount, .reg .hbmRereadCount, .reg .hbmStatus, .reg .hifEventLostCount, .reg .hifRingHead, .reg .icuPend, .reg .spmFailCount, .reg .spmPoisonCount, .reg .spmRereadCount]

theorem vecWrite_effect (k : Nat) (s : State) (r : VecRun) :
    Effect vecWrite_parts s (vecWrite k s r) := by
  unfold vecWrite
  repeat' (first
    | with_reducible exact Effect.refl _ _
    | (with_reducible show partsIn _ _ = true); decide +kernel
    | with_reducible apply Effect.ite
    | (with_reducible apply Effect.after; with_reducible apply vecResults_effect)
    | (with_reducible apply Effect.after; with_reducible apply detect_effect)
    | extract_lets
    | split
    | (refine ⟨⟨?_⟩, id, id⟩; intro p hp; cases p <;> first | rfl | (intro _ _; rfl) | (refine absurd ?_ hp; decide)))

theorem rootStore_effect (k : Nat) (s : State) (r : VecRun) :
    Effect [.cores, .reg .seqState] s (rootStore k s r) := by
  unfold rootStore
  repeat' (first
    | with_reducible exact Effect.refl _ _
    | (with_reducible show partsIn _ _ = true); decide +kernel
    | with_reducible apply Effect.ite
    | (with_reducible apply Effect.after; with_reducible apply slipFor_effect)
    | (with_reducible apply Effect.trans; pick_goal 2; with_reducible apply Effect.foldl; intro _ _)
    | extract_lets
    | split
    | (refine ⟨⟨?_⟩, id, id⟩; intro p hp; cases p <;> first | rfl | (intro _ _; rfl) | (refine absurd ?_ hp; decide)))

abbrev vecWork_parts : List Part :=
  [.cores, .eph, .events, .flt, .freeCtr, .heldWrites, .hostMem, .icuTimers, .mem, .poison, .scrub, .wakePending, .reg .arrPathStatus, .reg .ephLostCount, .reg .ephSeq, .reg .hbmFailCount, .reg .hbmOdeccCorrCount, .reg .hbmOdeccUncorrCount, .reg .hbmPcState, .reg .hbmPoisonCount, .reg .hbmRereadCount, .reg .hbmStatus, .reg .hifEventLostCount, .reg .hifRingHead, .reg .icuPend, .reg .seqState, .reg .spmFailCount, .reg .spmPoisonCount, .reg .spmRereadCount]

theorem vecWork_effect (bad : List Nat) (s : State) (k : Nat) :
    Effect vecWork_parts s (vecWork bad s k) := by
  unfold vecWork
  repeat' (first
    | with_reducible exact Effect.refl _ _
    | (with_reducible show partsIn _ _ = true); decide +kernel
    | with_reducible apply Effect.ite
    | (with_reducible apply Effect.after; with_reducible apply rootStore_effect)
    | (with_reducible apply Effect.after; with_reducible apply vecWrite_effect)
    | (with_reducible apply Effect.after; with_reducible apply vecRead_effect)
    | (with_reducible apply Effect.after; with_reducible apply setCore_effect)
    | (with_reducible apply Effect.trans; pick_goal 2; with_reducible apply Effect.foldl; intro _ _)
    | extract_lets
    | split
    | (refine ⟨⟨?_⟩, id, id⟩; intro p hp; cases p <;> first | rfl | (intro _ _; rfl) | (refine absurd ?_ hp; decide)))

abbrev vecRegs_parts : List Part :=
  [.reg .vecFlags, .reg .vecNonfiniteCount, .reg .vecScalar0, .reg .vecScalar1, .reg .vecScalar2, .reg .vecScalar3, .reg .vecScalar4, .reg .vecScalar5, .reg .vecScalar6, .reg .vecScalar7, .reg .vecSrStep]

theorem vecRegs_effect (k : Nat) (s : State) (r : VecRun) :
    Effect vecRegs_parts s (vecRegs k s r) := by
  unfold vecRegs
  repeat' (first
    | with_reducible exact Effect.refl _ _
    | (with_reducible show partsIn _ _ = true); decide +kernel
    | with_reducible apply Effect.ite
    | (with_reducible apply Effect.after; with_reducible apply movrRegs_effect)
    | (with_reducible apply Effect.after; with_reducible apply bumpCore_effect)
    | (with_reducible apply Effect.after; with_reducible apply wrCore_effect)
    | extract_lets
    | split
    | (refine ⟨⟨?_⟩, id, id⟩; intro p hp; cases p <;> first | rfl | (intro _ _; rfl) | (refine absurd ?_ hp; decide)))

abbrev vecFinish_parts : List Part :=
  [.cores, .reg .updFallbackCount, .reg .updFrozenCount, .reg .updRootFailCount, .reg .vecFlags, .reg .vecNonfiniteCount, .reg .vecScalar0, .reg .vecScalar1, .reg .vecScalar2, .reg .vecScalar3, .reg .vecScalar4, .reg .vecScalar5, .reg .vecScalar6, .reg .vecScalar7, .reg .vecSrStep]

theorem vecFinish_effect (k : Nat) (s : State) (r : VecRun) :
    Effect vecFinish_parts s (vecFinish k s r) := by
  unfold vecFinish
  repeat' (first
    | with_reducible exact Effect.refl _ _
    | (with_reducible show partsIn _ _ = true); decide +kernel
    | with_reducible apply Effect.ite
    | (with_reducible apply Effect.after; with_reducible apply vecRegs_effect)
    | (with_reducible apply Effect.after; with_reducible apply flagCore_effect)
    | (with_reducible apply Effect.after; with_reducible apply keepInPoint_effect)
    | (with_reducible apply Effect.after; with_reducible apply pointView_effect)
    | extract_lets
    | split
    | (refine ⟨⟨?_⟩, id, id⟩; intro p hp; cases p <;> first | rfl | (intro _ _; rfl) | (refine absurd ?_ hp; decide)))

abbrev vecEnter_parts : List Part :=
  [.cores, .reg .updFallbackCount, .reg .updFrozenCount, .reg .updRootFailCount, .reg .vecFlags, .reg .vecNonfiniteCount, .reg .vecScalar0, .reg .vecScalar1, .reg .vecScalar2, .reg .vecScalar3, .reg .vecScalar4, .reg .vecScalar5, .reg .vecScalar6, .reg .vecScalar7, .reg .vecSrStep]

theorem vecEnter_effect (s : State) (k : Nat) :
    Effect vecEnter_parts s (vecEnter s k) := by
  unfold vecEnter
  repeat' (first
    | with_reducible exact Effect.refl _ _
    | (with_reducible show partsIn _ _ = true); decide +kernel
    | with_reducible apply Effect.ite
    | (with_reducible apply Effect.after; with_reducible apply vecFinish_effect)
    | (with_reducible apply Effect.after; with_reducible apply setCore_effect)
    | (with_reducible apply Effect.trans; pick_goal 2; with_reducible apply Effect.foldl; intro _ _)
    | extract_lets
    | split
    | (refine ⟨⟨?_⟩, id, id⟩; intro p hp; cases p <;> first | rfl | (intro _ _; rfl) | (refine absurd ?_ hp; decide)))

end Sys2Proof.Machine
end

