-- ==== Sys2Proof/Laws/UpdOpsEffect.lean ====
section
/-! SUPPORT. One effect lemma for each operation of Machine/UpdOps.lean: the parts it may change. -/

set_option maxRecDepth 2000

set_option Elab.async false
set_option linter.unusedTactic false
set_option linter.unreachableTactic false
set_option linter.unusedVariables false
set_option linter.unusedSimpArgs false

namespace Sys2Proof.Machine

abbrev retried_parts : List Part :=
  [.cores, .eph, .events, .flt, .hostMem, .icuTimers, .wakePending, .reg .arrPathStatus, .reg .ephLostCount, .reg .ephSeq, .reg .hbmPcState, .reg .hbmStatus, .reg .hifEventLostCount, .reg .hifRingHead, .reg .icuPend, .reg .seqState, .reg .updRetryCount]

theorem retried_effect (k : Nat) (s : State) (e : Retry) :
    Effect retried_parts s (retried k s e) := by
  unfold retried
  repeat' (first
    | with_reducible exact Effect.refl _ _
    | (with_reducible show partsIn _ _ = true); decide +kernel
    | with_reducible apply Effect.ite
    | (with_reducible apply Effect.after; with_reducible apply slipFor_effect)
    | (with_reducible apply Effect.after; with_reducible apply marginCount_effect)
    | (with_reducible apply Effect.after; with_reducible apply transient_effect)
    | (with_reducible apply Effect.after; with_reducible apply bumpCore_effect)
    | extract_lets
    | split
    | (refine ⟨⟨?_⟩, id, id⟩; intro p hp; cases p <;> first | rfl | (intro _ _; rfl) | (refine absurd ?_ hp; decide)))

abbrev recomputed_parts : List Part :=
  [.cores, .eph, .events, .flt, .hostMem, .icuTimers, .wakePending, .reg .arrPathStatus, .reg .ephLostCount, .reg .ephSeq, .reg .hbmPcState, .reg .hbmStatus, .reg .hifEventLostCount, .reg .hifRingHead, .reg .icuPend, .reg .seqState, .reg .updRetryCount]

theorem recomputed_effect (k g : Nat) (s : State) (l : List Retry) :
    Effect recomputed_parts s (recomputed k g s l) := by
  unfold recomputed
  repeat' (first
    | with_reducible exact Effect.refl _ _
    | (with_reducible show partsIn _ _ = true); decide +kernel
    | with_reducible apply Effect.ite
    | (with_reducible apply Effect.after; with_reducible apply retried_effect)
    | (with_reducible apply Effect.trans; pick_goal 2; with_reducible apply Effect.foldl; intro _ _)
    | extract_lets
    | split
    | (refine ⟨⟨?_⟩, id, id⟩; intro p hp; cases p <;> first | rfl | (intro _ _; rfl) | (refine absurd ?_ hp; decide)))

theorem updRowFailed_effect (s : State) (k bundle row : Nat) :
    Effect [.cores, .reg .updCheckCount, .reg .updRetryCount] s (updRowFailed s k bundle row) := by
  unfold updRowFailed
  repeat' (first
    | with_reducible exact Effect.refl _ _
    | (with_reducible show partsIn _ _ = true); decide +kernel
    | with_reducible apply Effect.ite
    | (with_reducible apply Effect.after; with_reducible apply detect_effect)
    | (with_reducible apply Effect.after; with_reducible apply bumpCore_effect)
    | extract_lets
    | split
    | (refine ⟨⟨?_⟩, id, id⟩; intro p hp; cases p <;> first | rfl | (intro _ _; rfl) | (refine absurd ?_ hp; decide)))

abbrev updInputs_parts : List Part :=
  [.cores, .eph, .events, .flt, .hostMem, .icuTimers, .poison, .scrub, .wakePending, .reg .arrPathStatus, .reg .ephLostCount, .reg .ephSeq, .reg .hbmFailCount, .reg .hbmOdeccCorrCount, .reg .hbmOdeccUncorrCount, .reg .hbmPcState, .reg .hbmRereadCount, .reg .hbmStatus, .reg .hifEventLostCount, .reg .hifRingHead, .reg .icuPend, .reg .seqState, .reg .spmFailCount, .reg .spmRereadCount, .reg .updCheckCount, .reg .updRetryCount]

theorem updInputs_effect (s : State) (k bundle : Nat) (er : EngineRun) (g : Nat) (reads : List (Nat × Nat)) :
    Effect updInputs_parts s (updInputs s k bundle er g reads) := by
  unfold updInputs
  repeat' (first
    | with_reducible exact Effect.refl _ _
    | (with_reducible show partsIn _ _ = true); decide +kernel
    | with_reducible apply Effect.ite
    | (with_reducible apply Effect.after; with_reducible apply updRowFailed_effect)
    | (with_reducible apply Effect.after; with_reducible apply recomputed_effect)
    | (with_reducible apply Effect.after; with_reducible apply checkRead_effect)
    | (with_reducible apply Effect.after; with_reducible apply slipFor_effect)
    | (with_reducible apply Effect.after; with_reducible apply bumpCore_effect)
    | (with_reducible apply Effect.trans; pick_goal 2; with_reducible apply Effect.foldl; intro _ _)
    | extract_lets
    | split
    | dsimp +zetaDelta only
    | (refine ⟨⟨?_⟩, id, id⟩; intro p hp; cases p <;> first | rfl | (intro _ _; rfl) | (refine absurd ?_ hp; decide)))

theorem updFetch_effect (s : State) (k bundle w : Nat) :
    Effect [.cores] s (updFetch s k bundle w).2 := by
  unfold updFetch
  repeat' (first
    | with_reducible exact Effect.refl _ _
    | (with_reducible show partsIn _ _ = true); decide +kernel
    | with_reducible apply Effect.ite
    | (with_reducible apply Effect.after; with_reducible apply armGuards_effect)
    | (with_reducible apply Effect.trans; pick_goal 2; with_reducible apply Effect.foldl; intro _ _)
    | extract_lets
    | split
    | (refine ⟨⟨?_⟩, id, id⟩; intro p hp; cases p <;> first | rfl | (intro _ _; rfl) | (refine absurd ?_ hp; decide)))

abbrev rootFailed_parts : List Part :=
  [.cores, .eph, .hostMem, .icuTimers, .wakePending, .reg .ephLostCount, .reg .ephSeq, .reg .hifRingHead, .reg .icuPend, .reg .updFallbackCount, .reg .updFrozenCount, .reg .updRootFailCount, .reg .vecFlags, .reg .vecNonfiniteCount, .reg .vecScalar0, .reg .vecScalar1, .reg .vecScalar2, .reg .vecScalar3, .reg .vecScalar4, .reg .vecScalar5, .reg .vecScalar6, .reg .vecScalar7, .reg .vecSrStep]

theorem rootFailed_effect (s : State) (k bundle layer tile side : Nat) (o : SideOut) :
    Effect rootFailed_parts s (rootFailed s k bundle layer tile side o) := by
  unfold rootFailed
  repeat' (first
    | with_reducible exact Effect.refl _ _
    | (with_reducible show partsIn _ _ = true); decide +kernel
    | with_reducible apply Effect.ite
    | (with_reducible apply Effect.after; with_reducible apply keepInPoint_effect)
    | (with_reducible apply Effect.after; with_reducible apply pointView_effect)
    | (with_reducible apply Effect.after; with_reducible apply emit_effect)
    | (with_reducible apply Effect.after; with_reducible apply bumpCore_effect)
    | extract_lets
    | split
    | (refine ⟨⟨?_⟩, id, id⟩; intro p hp; cases p <;> first | rfl | (intro _ _; rfl) | (refine absurd ?_ hp; decide)))

abbrev landAll_parts : List Part :=
  [.cores, .eph, .events, .flt, .freeCtr, .heldWrites, .hostMem, .icuTimers, .mem, .poison, .scrub, .wakePending, .reg .arrPathStatus, .reg .ephLostCount, .reg .ephSeq, .reg .hbmFailCount, .reg .hbmOdeccCorrCount, .reg .hbmOdeccUncorrCount, .reg .hbmPcState, .reg .hbmPoisonCount, .reg .hbmRereadCount, .reg .hbmStatus, .reg .hifEventLostCount, .reg .hifRingHead, .reg .icuPend, .reg .spmFailCount, .reg .spmPoisonCount, .reg .spmRereadCount]

theorem landAll_effect (s : State) (mf : MemFaults) (ws : List (Nat × Bytes)) :
    Effect landAll_parts s (landAll s mf ws) := by
  unfold landAll
  repeat' (first
    | with_reducible exact Effect.refl _ _
    | (with_reducible show partsIn _ _ = true); decide +kernel
    | with_reducible apply Effect.ite
    | (with_reducible apply Effect.after; with_reducible apply landWrite_effect)
    | (with_reducible apply Effect.trans; pick_goal 2; with_reducible apply Effect.foldl; intro _ _)
    | extract_lets
    | split
    | (refine ⟨⟨?_⟩, id, id⟩; intro p hp; cases p <;> first | rfl | (intro _ _; rfl) | (refine absurd ?_ hp; decide)))

theorem setUpdRun_effect (s : State) (k : Nat) (r : UpdRun) :
    Effect [.cores] s (setUpdRun s k r) := by
  unfold setUpdRun
  repeat' (first
    | with_reducible exact Effect.refl _ _
    | (with_reducible show partsIn _ _ = true); decide +kernel
    | with_reducible apply Effect.ite
    | (with_reducible apply Effect.after; with_reducible apply setCore_effect)
    | extract_lets
    | split
    | (refine ⟨⟨?_⟩, id, id⟩; intro p hp; cases p <;> first | rfl | (intro _ _; rfl) | (refine absurd ?_ hp; decide)))

abbrev updWriteGroup_parts : List Part :=
  [.cores, .eph, .events, .flt, .freeCtr, .heldWrites, .hostMem, .icuTimers, .mem, .poison, .scrub, .wakePending, .reg .arrPathStatus, .reg .ephLostCount, .reg .ephSeq, .reg .hbmFailCount, .reg .hbmOdeccCorrCount, .reg .hbmOdeccUncorrCount, .reg .hbmPcState, .reg .hbmPoisonCount, .reg .hbmRereadCount, .reg .hbmStatus, .reg .hifEventLostCount, .reg .hifRingHead, .reg .icuPend, .reg .spmFailCount, .reg .spmPoisonCount, .reg .spmRereadCount, .reg .updFallbackCount, .reg .updFrozenCount, .reg .updRootFailCount, .reg .vecFlags, .reg .vecNonfiniteCount, .reg .vecScalar0, .reg .vecScalar1, .reg .vecScalar2, .reg .vecScalar3, .reg .vecScalar4, .reg .vecScalar5, .reg .vecScalar6, .reg .vecScalar7, .reg .vecSrStep]

theorem updWriteGroup_effect (s : State) (k : Nat) (r : UpdRun) (g : Nat) :
    Effect updWriteGroup_parts s (updWriteGroup s k r g) := by
  unfold updWriteGroup
  repeat' (first
    | with_reducible exact Effect.refl _ _
    | (with_reducible show partsIn _ _ = true); decide +kernel
    | with_reducible apply Effect.ite
    | (with_reducible apply Effect.after; with_reducible apply setUpdRun_effect)
    | (with_reducible apply Effect.after; with_reducible apply landAll_effect)
    | (with_reducible apply Effect.after; with_reducible apply rootFailed_effect)
    | (with_reducible apply Effect.after; with_reducible apply flagCore_effect)
    | (with_reducible apply Effect.trans; pick_goal 2; with_reducible apply Effect.foldl; intro _ _)
    | extract_lets
    | split
    | (refine ⟨⟨?_⟩, id, id⟩; intro p hp; cases p <;> first | rfl | (intro _ _; rfl) | (refine absurd ?_ hp; decide)))

abbrev updWriteHeader_parts : List Part :=
  [.cores, .eph, .events, .flt, .freeCtr, .heldWrites, .hostMem, .icuTimers, .mem, .poison, .scrub, .wakePending, .reg .arrPathStatus, .reg .ephLostCount, .reg .ephSeq, .reg .hbmFailCount, .reg .hbmOdeccCorrCount, .reg .hbmOdeccUncorrCount, .reg .hbmPcState, .reg .hbmPoisonCount, .reg .hbmRereadCount, .reg .hbmStatus, .reg .hifEventLostCount, .reg .hifRingHead, .reg .icuPend, .reg .spmFailCount, .reg .spmPoisonCount, .reg .spmRereadCount]

theorem updWriteHeader_effect (s : State) (k : Nat) (r : UpdRun) :
    Effect updWriteHeader_parts s (updWriteHeader s k r) := by
  unfold updWriteHeader
  repeat' (first
    | with_reducible exact Effect.refl _ _
    | (with_reducible show partsIn _ _ = true); decide +kernel
    | with_reducible apply Effect.ite
    | (with_reducible apply Effect.after; with_reducible apply landWrite_effect)
    | extract_lets
    | split
    | (refine ⟨⟨?_⟩, id, id⟩; intro p hp; cases p <;> first | rfl | (intro _ _; rfl) | (refine absurd ?_ hp; decide)))

abbrev updReadAt_parts : List Part :=
  [.cores, .eph, .events, .flt, .hostMem, .icuTimers, .poison, .scrub, .wakePending, .reg .arrPathStatus, .reg .ephLostCount, .reg .ephSeq, .reg .hbmFailCount, .reg .hbmOdeccCorrCount, .reg .hbmOdeccUncorrCount, .reg .hbmPcState, .reg .hbmRereadCount, .reg .hbmStatus, .reg .hifEventLostCount, .reg .hifRingHead, .reg .icuPend, .reg .seqState, .reg .spmFailCount, .reg .spmRereadCount, .reg .updCheckCount, .reg .updRetryCount]

theorem updReadAt_effect (s : State) (k : Nat) (r : UpdRun) (x : Int) :
    Effect updReadAt_parts s (updReadAt s k r x) := by
  unfold updReadAt
  repeat' (first
    | with_reducible exact Effect.refl _ _
    | (with_reducible show partsIn _ _ = true); decide +kernel
    | with_reducible apply Effect.ite
    | (with_reducible apply Effect.after; with_reducible apply updInputs_effect)
    | extract_lets
    | split
    | (refine ⟨⟨?_⟩, id, id⟩; intro p hp; cases p <;> first | rfl | (intro _ _; rfl) | (refine absurd ?_ hp; decide)))

abbrev updWork_parts : List Part :=
  [.cores, .eph, .events, .flt, .freeCtr, .heldWrites, .hostMem, .icuTimers, .mem, .poison, .scrub, .wakePending, .reg .arrPathStatus, .reg .ephLostCount, .reg .ephSeq, .reg .hbmFailCount, .reg .hbmOdeccCorrCount, .reg .hbmOdeccUncorrCount, .reg .hbmPcState, .reg .hbmPoisonCount, .reg .hbmRereadCount, .reg .hbmStatus, .reg .hifEventLostCount, .reg .hifRingHead, .reg .icuPend, .reg .seqState, .reg .spmFailCount, .reg .spmPoisonCount, .reg .spmRereadCount, .reg .updCheckCount, .reg .updFallbackCount, .reg .updFrozenCount, .reg .updRetryCount, .reg .updRootFailCount, .reg .vecFlags, .reg .vecNonfiniteCount, .reg .vecScalar0, .reg .vecScalar1, .reg .vecScalar2, .reg .vecScalar3, .reg .vecScalar4, .reg .vecScalar5, .reg .vecScalar6, .reg .vecScalar7, .reg .vecSrStep]

theorem updWork_effect (bad : List Nat) (s : State) (k : Nat) :
    Effect updWork_parts s (updWork bad s k) := by
  unfold updWork
  repeat' (first
    | with_reducible exact Effect.refl _ _
    | (with_reducible show partsIn _ _ = true); decide +kernel
    | with_reducible apply Effect.ite
    | (with_reducible apply Effect.after; with_reducible apply updReadAt_effect)
    | (with_reducible apply Effect.after; with_reducible apply updWriteHeader_effect)
    | (with_reducible apply Effect.after; with_reducible apply updWriteGroup_effect)
    | (with_reducible apply Effect.after; with_reducible apply setCore_effect)
    | extract_lets
    | split
    | (refine ⟨⟨?_⟩, id, id⟩; intro p hp; cases p <;> first | rfl | (intro _ _; rfl) | (refine absurd ?_ hp; decide)))

theorem updCounts_effect (s : State) (k : Nat) (r : UpdRun) (n : Nat) :
    Effect [.reg .updFallbackCount, .reg .updFrozenCount] s (updCounts s k r n) := by
  unfold updCounts
  repeat' (first
    | with_reducible exact Effect.refl _ _
    | (with_reducible show partsIn _ _ = true); decide +kernel
    | with_reducible apply Effect.ite
    | (with_reducible apply Effect.after; with_reducible apply bumpCore_effect)
    | extract_lets
    | split
    | (refine ⟨⟨?_⟩, id, id⟩; intro p hp; cases p <;> first | rfl | (intro _ _; rfl) | (refine absurd ?_ hp; decide)))

abbrev updFinish_parts : List Part :=
  [.cores, .reg .updFallbackCount, .reg .updFrozenCount, .reg .updRootFailCount, .reg .vecFlags, .reg .vecNonfiniteCount, .reg .vecScalar0, .reg .vecScalar1, .reg .vecScalar2, .reg .vecScalar3, .reg .vecScalar4, .reg .vecScalar5, .reg .vecScalar6, .reg .vecScalar7, .reg .vecSrStep]

theorem updFinish_effect (s : State) (k : Nat) (r : UpdRun) :
    Effect updFinish_parts s (updFinish s k r) := by
  unfold updFinish
  repeat' (first
    | with_reducible exact Effect.refl _ _
    | (with_reducible show partsIn _ _ = true); decide +kernel
    | with_reducible apply Effect.ite
    | (with_reducible apply Effect.after; with_reducible apply updCounts_effect)
    | (with_reducible apply Effect.after; with_reducible apply flagCore_effect)
    | (with_reducible apply Effect.after; with_reducible apply keepInPoint_effect)
    | (with_reducible apply Effect.after; with_reducible apply pointView_effect)
    | extract_lets
    | split
    | (refine ⟨⟨?_⟩, id, id⟩; intro p hp; cases p <;> first | rfl | (intro _ _; rfl) | (refine absurd ?_ hp; decide)))

abbrev updEnter_parts : List Part :=
  [.cores, .reg .updFallbackCount, .reg .updFrozenCount, .reg .updRootFailCount, .reg .vecFlags, .reg .vecNonfiniteCount, .reg .vecScalar0, .reg .vecScalar1, .reg .vecScalar2, .reg .vecScalar3, .reg .vecScalar4, .reg .vecScalar5, .reg .vecScalar6, .reg .vecScalar7, .reg .vecSrStep]

theorem updEnter_effect (s : State) (k : Nat) :
    Effect updEnter_parts s (updEnter s k) := by
  unfold updEnter
  repeat' (first
    | with_reducible exact Effect.refl _ _
    | (with_reducible show partsIn _ _ = true); decide +kernel
    | with_reducible apply Effect.ite
    | (with_reducible apply Effect.after; with_reducible apply updFinish_effect)
    | (with_reducible apply Effect.after; with_reducible apply setCore_effect)
    | extract_lets
    | split
    | (refine ⟨⟨?_⟩, id, id⟩; intro p hp; cases p <;> first | rfl | (intro _ _; rfl) | (refine absurd ?_ hp; decide)))

theorem updPrefetch_effect (s : State) (k : Nat) :
    Effect [.cores] s (updPrefetch s k) := by
  unfold updPrefetch
  repeat' (first
    | with_reducible exact Effect.refl _ _
    | (with_reducible show partsIn _ _ = true); decide +kernel
    | with_reducible apply Effect.ite
    | (with_reducible apply Effect.after; with_reducible apply updFetch_effect)
    | with_reducible refine Effect.after (Effect.snd (updFetch_effect _ _ _ _) (by assumption)) ?_ ?_
    | (with_reducible apply Effect.after; with_reducible apply setCore_effect)
    | (with_reducible apply Effect.trans; pick_goal 2; with_reducible apply Effect.foldl; intro _ _)
    | extract_lets
    | split
    | (refine ⟨⟨?_⟩, id, id⟩; intro p hp; cases p <;> first | rfl | (intro _ _; rfl) | (refine absurd ?_ hp; decide)))

end Sys2Proof.Machine
end

