-- ==== Sys2Proof/Laws/SeqOpsEffect.lean ====
section
/-! SUPPORT. One effect lemma for each operation of Machine/SeqOps.lean: the parts it may change. -/

set_option maxRecDepth 2000

set_option Elab.async false
set_option linter.unusedTactic false
set_option linter.unreachableTactic false
set_option linter.unusedVariables false
set_option linter.unusedSimpArgs false

namespace Sys2Proof.Machine

theorem placePoint_effect (s : State) (k : Nat) (marked : Bool) :
    Effect [.cores] s (placePoint s k marked) := by
  unfold placePoint
  repeat' (first
    | with_reducible exact Effect.refl _ _
    | (with_reducible show partsIn _ _ = true); decide +kernel
    | with_reducible apply Effect.ite
    | (with_reducible apply Effect.after; with_reducible apply setCore_effect)
    | extract_lets
    | split
    | (refine ⟨⟨?_⟩, id, id⟩; intro p hp; cases p <;> first | rfl | (intro _ _; rfl) | (refine absurd ?_ hp; decide)))

abbrev fetchSome_parts : List Part :=
  [.bridge, .cores, .eph, .events, .flt, .hostMem, .icuTimers, .poison, .rings, .scrub, .sync, .wakePending, .reg .arrPathStatus, .reg .ephLostCount, .reg .ephSeq, .reg .hbmFailCount, .reg .hbmOdeccCorrCount, .reg .hbmOdeccUncorrCount, .reg .hbmPcState, .reg .hbmRereadCount, .reg .hbmStatus, .reg .hifEventLostCount, .reg .hifRingHead, .reg .icuPend, .reg .pwrStatus, .reg .seqReplayCycles, .reg .seqSlipCycles, .reg .seqState, .reg .seqWaitCycles, .reg .spmFailCount, .reg .spmRereadCount]

theorem fetchSome_effect (k limit : Nat) (n : Nat) : ∀ (s : State),
    Effect fetchSome_parts s (fetchSome k limit n s) := by
  induction n with
  | zero => intros; unfold fetchSome; exact Effect.refl _ _
  | succ n ih =>
    intros; unfold fetchSome
    repeat' (first
      | with_reducible exact Effect.refl _ _
      | (with_reducible show partsIn _ _ = true); decide +kernel
      | with_reducible apply Effect.ite
      | (with_reducible apply Effect.after; with_reducible apply ih)
      | (with_reducible apply Effect.after; with_reducible apply endStream_effect)
      | (with_reducible apply Effect.after; with_reducible apply setCore_effect)
      | (with_reducible apply Effect.after; with_reducible apply readEffects_effect)
      | extract_lets
      | split
      | (refine ⟨⟨?_⟩, id, id⟩; intro p hp; cases p <;> first | rfl | (intro _ _; rfl) | (refine absurd ?_ hp; decide)))

theorem lateFreeze_effect (s : State) (k : Nat) :
    Effect [.cores, .reg .seqState] s (lateFreeze s k) := by
  unfold lateFreeze
  repeat' (first
    | with_reducible exact Effect.refl _ _
    | (with_reducible show partsIn _ _ = true); decide +kernel
    | with_reducible apply Effect.ite
    | (with_reducible apply Effect.after; with_reducible apply slipFor_effect)
    | (with_reducible apply Effect.after; with_reducible apply setCore_effect)
    | (with_reducible apply Effect.trans; pick_goal 2; with_reducible apply Effect.foldl; intro _ _)
    | extract_lets
    | split
    | (refine ⟨⟨?_⟩, id, id⟩; intro p hp; cases p <;> first | rfl | (intro _ _; rfl) | (refine absurd ?_ hp; decide)))

theorem comeDue_effect (s : State) (k : Nat) :
    Effect [.cores, .reg .seqState] s (comeDue s k) := by
  unfold comeDue
  repeat' (first
    | with_reducible exact Effect.refl _ _
    | (with_reducible show partsIn _ _ = true); decide +kernel
    | with_reducible apply Effect.ite
    | (with_reducible apply Effect.after; with_reducible apply lateFreeze_effect)
    | (with_reducible apply Effect.after; with_reducible apply passEmpty_effect)
    | extract_lets
    | split
    | (refine ⟨⟨?_⟩, id, id⟩; intro p hp; cases p <;> first | rfl | (intro _ _; rfl) | (refine absurd ?_ hp; decide)))

abbrev engineWork_parts : List Part :=
  [.bridge, .cores, .eph, .events, .flt, .freeCtr, .heldWrites, .hostMem, .icuTimers, .mem, .poison, .rings, .scrub, .sync, .wakePending, .reg .accSpillA0, .reg .accSpillA1, .reg .accSpillA2, .reg .accSpillA3, .reg .arrPathStatus, .reg .arrTransitCount, .reg .ephLostCount, .reg .ephSeq, .reg .hbmFailCount, .reg .hbmOdeccCorrCount, .reg .hbmOdeccUncorrCount, .reg .hbmPcState, .reg .hbmPoisonCount, .reg .hbmRereadCount, .reg .hbmStatus, .reg .hifEventLostCount, .reg .hifRingHead, .reg .icuPend, .reg .pwrStatus, .reg .seqReplayCycles, .reg .seqSlipCycles, .reg .seqState, .reg .seqWaitCycles, .reg .spmFailCount, .reg .spmPoisonCount, .reg .spmRereadCount, .reg .updCheckCount, .reg .updFallbackCount, .reg .updFrozenCount, .reg .updRetryCount, .reg .updRootFailCount, .reg .vecFlags, .reg .vecNonfiniteCount, .reg .vecScalar0, .reg .vecScalar1, .reg .vecScalar2, .reg .vecScalar3, .reg .vecScalar4, .reg .vecScalar5, .reg .vecScalar6, .reg .vecScalar7, .reg .vecSrStep]

theorem engineWork_effect (bad : List Nat) (k : Nat) (s : State) (e : Nat) :
    Effect engineWork_parts s (engineWork bad k s e) := by
  unfold engineWork
  repeat' (first
    | with_reducible exact Effect.refl _ _
    | (with_reducible show partsIn _ _ = true); decide +kernel
    | with_reducible apply Effect.ite
    | (with_reducible apply Effect.after; with_reducible apply updWork_effect)
    | (with_reducible apply Effect.after; with_reducible apply vecWork_effect)
    | (with_reducible apply Effect.after; with_reducible apply arrayWork_effect)
    | extract_lets
    | split
    | (refine ⟨⟨?_⟩, id, id⟩; intro p hp; cases p <;> first | rfl | (intro _ _; rfl) | (refine absurd ?_ hp; decide)))

abbrev engineEnter_parts : List Part :=
  [.cores, .eph, .events, .flt, .freeCtr, .heldWrites, .hostMem, .icuTimers, .mem, .poison, .scrub, .wakePending, .reg .accLapseCount, .reg .accNonfiniteCount, .reg .arrPathStatus, .reg .ephLostCount, .reg .ephSeq, .reg .hbmFailCount, .reg .hbmOdeccCorrCount, .reg .hbmOdeccUncorrCount, .reg .hbmPcState, .reg .hbmPoisonCount, .reg .hbmRereadCount, .reg .hbmStatus, .reg .hifEventLostCount, .reg .hifRingHead, .reg .icuPend, .reg .spmFailCount, .reg .spmPoisonCount, .reg .spmRereadCount, .reg .updFallbackCount, .reg .updFrozenCount, .reg .updRootFailCount, .reg .vecFlags, .reg .vecNonfiniteCount, .reg .vecScalar0, .reg .vecScalar1, .reg .vecScalar2, .reg .vecScalar3, .reg .vecScalar4, .reg .vecScalar5, .reg .vecScalar6, .reg .vecScalar7, .reg .vecSrStep]

theorem engineEnter_effect (k : Nat) (s : State) (e : Nat) :
    Effect engineEnter_parts s (engineEnter k s e) := by
  unfold engineEnter
  repeat' (first
    | with_reducible exact Effect.refl _ _
    | (with_reducible show partsIn _ _ = true); decide +kernel
    | with_reducible apply Effect.ite
    | (with_reducible apply Effect.after; with_reducible apply updEnter_effect)
    | (with_reducible apply Effect.after; with_reducible apply vecEnter_effect)
    | (with_reducible apply Effect.after; with_reducible apply arrayEnter_effect)
    | extract_lets
    | split
    | (refine ⟨⟨?_⟩, id, id⟩; intro p hp; cases p <;> first | rfl | (intro _ _; rfl) | (refine absurd ?_ hp; decide)))

abbrev cycleWork_parts : List Part :=
  [.bridge, .cores, .eph, .events, .flt, .freeCtr, .heldWrites, .hostMem, .icuTimers, .mem, .poison, .rings, .scrub, .sync, .wakePending, .reg .accSpillA0, .reg .accSpillA1, .reg .accSpillA2, .reg .accSpillA3, .reg .arrPathStatus, .reg .arrTransitCount, .reg .ephLostCount, .reg .ephSeq, .reg .hbmFailCount, .reg .hbmOdeccCorrCount, .reg .hbmOdeccUncorrCount, .reg .hbmPcState, .reg .hbmPoisonCount, .reg .hbmRereadCount, .reg .hbmStatus, .reg .hifEventLostCount, .reg .hifRingHead, .reg .icuPend, .reg .pwrStatus, .reg .seqReplayCycles, .reg .seqSlipCycles, .reg .seqState, .reg .seqWaitCycles, .reg .spmFailCount, .reg .spmPoisonCount, .reg .spmRereadCount, .reg .updCheckCount, .reg .updFallbackCount, .reg .updFrozenCount, .reg .updRetryCount, .reg .updRootFailCount, .reg .vecFlags, .reg .vecNonfiniteCount, .reg .vecScalar0, .reg .vecScalar1, .reg .vecScalar2, .reg .vecScalar3, .reg .vecScalar4, .reg .vecScalar5, .reg .vecScalar6, .reg .vecScalar7, .reg .vecSrStep]

theorem cycleWork_effect (bad : List Nat) (s : State) (k : Nat) :
    Effect cycleWork_parts s (cycleWork bad s k) := by
  unfold cycleWork
  repeat' (first
    | with_reducible exact Effect.refl _ _
    | (with_reducible show partsIn _ _ = true); decide +kernel
    | with_reducible apply Effect.ite
    | (with_reducible apply Effect.after; with_reducible apply engineWork_effect)
    | (with_reducible apply Effect.after; with_reducible apply updPrefetch_effect)
    | (with_reducible apply Effect.after; with_reducible apply freezeHeld_effect)
    | (with_reducible apply Effect.trans; pick_goal 2; with_reducible apply Effect.foldl; intro _ _)
    | extract_lets
    | split
    | (refine ⟨⟨?_⟩, id, id⟩; intro p hp; cases p <;> first | rfl | (intro _ _; rfl) | (refine absurd ?_ hp; decide)))

abbrev enterAll_parts : List Part :=
  [.cores, .eph, .events, .flt, .freeCtr, .heldWrites, .hostMem, .icuTimers, .mem, .poison, .scrub, .wakePending, .reg .accLapseCount, .reg .accNonfiniteCount, .reg .arrPathStatus, .reg .ephLostCount, .reg .ephSeq, .reg .hbmFailCount, .reg .hbmOdeccCorrCount, .reg .hbmOdeccUncorrCount, .reg .hbmPcState, .reg .hbmPoisonCount, .reg .hbmRereadCount, .reg .hbmStatus, .reg .hifEventLostCount, .reg .hifRingHead, .reg .icuPend, .reg .seqState, .reg .spmFailCount, .reg .spmPoisonCount, .reg .spmRereadCount, .reg .updFallbackCount, .reg .updFrozenCount, .reg .updRootFailCount, .reg .vecFlags, .reg .vecNonfiniteCount, .reg .vecScalar0, .reg .vecScalar1, .reg .vecScalar2, .reg .vecScalar3, .reg .vecScalar4, .reg .vecScalar5, .reg .vecScalar6, .reg .vecScalar7, .reg .vecSrStep]

theorem enterAll_effect (s : State) (k : Nat) (es : List Nat) :
    Effect enterAll_parts s (enterAll s k es) := by
  unfold enterAll
  repeat' (first
    | with_reducible exact Effect.refl _ _
    | (with_reducible show partsIn _ _ = true); decide +kernel
    | with_reducible apply Effect.ite
    | (with_reducible apply Effect.after; with_reducible apply engineEnter_effect)
    | (with_reducible apply Effect.after; with_reducible apply freezeHeld_effect)
    | (with_reducible apply Effect.trans; pick_goal 2; with_reducible apply Effect.foldl; intro _ _)
    | extract_lets
    | split
    | (refine ⟨⟨?_⟩, id, id⟩; intro p hp; cases p <;> first | rfl | (intro _ _; rfl) | (refine absurd ?_ hp; decide)))

abbrev leaveCycle_parts : List Part :=
  [.bridge, .cores, .eph, .events, .flt, .freeCtr, .heldWrites, .hostMem, .icuTimers, .mem, .poison, .rings, .scrub, .sync, .wakePending, .reg .accLapseCount, .reg .accNonfiniteCount, .reg .arrPathStatus, .reg .ephLostCount, .reg .ephSeq, .reg .hbmFailCount, .reg .hbmOdeccCorrCount, .reg .hbmOdeccUncorrCount, .reg .hbmPcState, .reg .hbmPoisonCount, .reg .hbmRereadCount, .reg .hbmStatus, .reg .hifEventLostCount, .reg .hifRingHead, .reg .icuPend, .reg .pwrStatus, .reg .seqReplayCycles, .reg .seqSchedule, .reg .seqSlipCycles, .reg .seqState, .reg .seqWaitCycles, .reg .spmFailCount, .reg .spmPoisonCount, .reg .spmRereadCount, .reg .updFallbackCount, .reg .updFrozenCount, .reg .updRootFailCount, .reg .vecFlags, .reg .vecNonfiniteCount, .reg .vecScalar0, .reg .vecScalar1, .reg .vecScalar2, .reg .vecScalar3, .reg .vecScalar4, .reg .vecScalar5, .reg .vecScalar6, .reg .vecScalar7, .reg .vecSrStep]

theorem leaveCycle_effect (s : State) (k : Nat) :
    Effect leaveCycle_parts s (leaveCycle s k) := by
  unfold leaveCycle
  repeat' (first
    | with_reducible exact Effect.refl _ _
    | (with_reducible show partsIn _ _ = true); decide +kernel
    | with_reducible apply Effect.ite
    | (with_reducible apply Effect.after; with_reducible apply enterAll_effect)
    | (with_reducible apply Effect.after; with_reducible apply comeDue_effect)
    | (with_reducible apply Effect.after; with_reducible apply fetchSome_effect)
    | (with_reducible apply Effect.after; with_reducible apply setCore_effect)
    | (with_reducible apply Effect.after; with_reducible apply bumpCore_effect)
    | (with_reducible apply Effect.after; with_reducible apply wrCore_effect)
    | extract_lets
    | split
    | (refine ⟨⟨?_⟩, id, id⟩; intro p hp; cases p <;> first | rfl | (intro _ _; rfl) | (refine absurd ?_ hp; decide)))

abbrev interlockStep_parts : List Part :=
  [.bridge, .cores, .eph, .events, .flt, .freeCtr, .heldWrites, .hostMem, .icuTimers, .mem, .poison, .rings, .scrub, .sync, .wakePending, .reg .accLapseCount, .reg .accNonfiniteCount, .reg .accSpillA0, .reg .accSpillA1, .reg .accSpillA2, .reg .accSpillA3, .reg .arrPathStatus, .reg .arrTransitCount, .reg .ephLostCount, .reg .ephSeq, .reg .hbmFailCount, .reg .hbmOdeccCorrCount, .reg .hbmOdeccUncorrCount, .reg .hbmPcState, .reg .hbmPoisonCount, .reg .hbmRereadCount, .reg .hbmStatus, .reg .hifEventLostCount, .reg .hifRingHead, .reg .icuPend, .reg .pwrStatus, .reg .seqReplayCycles, .reg .seqSlipCycles, .reg .seqState, .reg .seqWaitCycles, .reg .spmFailCount, .reg .spmPoisonCount, .reg .spmRereadCount, .reg .updCheckCount, .reg .updFallbackCount, .reg .updFrozenCount, .reg .updRetryCount, .reg .updRootFailCount, .reg .vecFlags, .reg .vecNonfiniteCount, .reg .vecScalar0, .reg .vecScalar1, .reg .vecScalar2, .reg .vecScalar3, .reg .vecScalar4, .reg .vecScalar5, .reg .vecScalar6, .reg .vecScalar7, .reg .vecSrStep]

theorem interlockStep_effect (k n : Nat) (s : State) :
    Effect interlockStep_parts s (interlockStep k n s) := by
  unfold interlockStep
  repeat' (first
    | with_reducible exact Effect.refl _ _
    | (with_reducible show partsIn _ _ = true); decide +kernel
    | with_reducible apply Effect.ite
    | (with_reducible apply Effect.after; with_reducible apply enterAll_effect)
    | (with_reducible apply Effect.after; with_reducible apply cycleWork_effect)
    | (with_reducible apply Effect.after; with_reducible apply countFrozen_effect)
    | (with_reducible apply Effect.after; with_reducible apply setCore_effect)
    | extract_lets
    | split
    | (refine ⟨⟨?_⟩, id, id⟩; intro p hp; cases p <;> first | rfl | (intro _ _; rfl) | (refine absurd ?_ hp; decide)))

abbrev interlockSteps_parts : List Part :=
  [.bridge, .cores, .eph, .events, .flt, .freeCtr, .heldWrites, .hostMem, .icuTimers, .mem, .poison, .rings, .scrub, .sync, .wakePending, .reg .accLapseCount, .reg .accNonfiniteCount, .reg .accSpillA0, .reg .accSpillA1, .reg .accSpillA2, .reg .accSpillA3, .reg .arrPathStatus, .reg .arrTransitCount, .reg .ephLostCount, .reg .ephSeq, .reg .hbmFailCount, .reg .hbmOdeccCorrCount, .reg .hbmOdeccUncorrCount, .reg .hbmPcState, .reg .hbmPoisonCount, .reg .hbmRereadCount, .reg .hbmStatus, .reg .hifEventLostCount, .reg .hifRingHead, .reg .icuPend, .reg .pwrStatus, .reg .seqReplayCycles, .reg .seqSlipCycles, .reg .seqState, .reg .seqWaitCycles, .reg .spmFailCount, .reg .spmPoisonCount, .reg .spmRereadCount, .reg .updCheckCount, .reg .updFallbackCount, .reg .updFrozenCount, .reg .updRetryCount, .reg .updRootFailCount, .reg .vecFlags, .reg .vecNonfiniteCount, .reg .vecScalar0, .reg .vecScalar1, .reg .vecScalar2, .reg .vecScalar3, .reg .vecScalar4, .reg .vecScalar5, .reg .vecScalar6, .reg .vecScalar7, .reg .vecSrStep]

theorem interlockSteps_effect (k : Nat) (n : Nat) : ∀ (s : State),
    Effect interlockSteps_parts s (interlockSteps k n s) := by
  induction n with
  | zero => intros; unfold interlockSteps; exact Effect.refl _ _
  | succ n ih =>
    intros; unfold interlockSteps
    repeat' (first
      | with_reducible exact Effect.refl _ _
      | (with_reducible show partsIn _ _ = true); decide +kernel
      | with_reducible apply Effect.ite
      | (with_reducible apply Effect.after; with_reducible apply ih)
      | (with_reducible apply Effect.after; with_reducible apply interlockStep_effect)
      | extract_lets
      | split
      | (refine ⟨⟨?_⟩, id, id⟩; intro p hp; cases p <;> first | rfl | (intro _ _; rfl) | (refine absurd ?_ hp; decide)))

abbrev cycleStep_parts : List Part :=
  [.bridge, .cores, .eph, .events, .flt, .freeCtr, .heldWrites, .hostMem, .icuTimers, .mem, .poison, .rings, .scrub, .sync, .wakePending, .reg .accLapseCount, .reg .accNonfiniteCount, .reg .accSpillA0, .reg .accSpillA1, .reg .accSpillA2, .reg .accSpillA3, .reg .arrPathStatus, .reg .arrTransitCount, .reg .ephLostCount, .reg .ephSeq, .reg .hbmFailCount, .reg .hbmOdeccCorrCount, .reg .hbmOdeccUncorrCount, .reg .hbmPcState, .reg .hbmPoisonCount, .reg .hbmRereadCount, .reg .hbmStatus, .reg .hifEventLostCount, .reg .hifRingHead, .reg .icuPend, .reg .pwrStatus, .reg .seqReplayCycles, .reg .seqSchedule, .reg .seqSlipCycles, .reg .seqState, .reg .seqWaitCycles, .reg .spmFailCount, .reg .spmPoisonCount, .reg .spmRereadCount, .reg .updCheckCount, .reg .updFallbackCount, .reg .updFrozenCount, .reg .updRetryCount, .reg .updRootFailCount, .reg .vecFlags, .reg .vecNonfiniteCount, .reg .vecScalar0, .reg .vecScalar1, .reg .vecScalar2, .reg .vecScalar3, .reg .vecScalar4, .reg .vecScalar5, .reg .vecScalar6, .reg .vecScalar7, .reg .vecSrStep]

theorem cycleStep_effect (s : State) (k : Nat) :
    Effect cycleStep_parts s (cycleStep s k) := by
  unfold cycleStep
  repeat' (first
    | with_reducible exact Effect.refl _ _
    | (with_reducible show partsIn _ _ = true); decide +kernel
    | with_reducible apply Effect.ite
    | (with_reducible apply Effect.after; with_reducible apply interlockStep_effect)
    | (with_reducible apply Effect.after; with_reducible apply leaveCycle_effect)
    | (with_reducible apply Effect.after; with_reducible apply cycleWork_effect)
    | (with_reducible apply Effect.after; with_reducible apply setCore_effect)
    | extract_lets
    | split
    | (refine ⟨⟨?_⟩, id, id⟩; intro p hp; cases p <;> first | rfl | (intro _ _; rfl) | (refine absurd ?_ hp; decide)))

abbrev countFailure_parts : List Part :=
  [.eph, .events, .flt, .hostMem, .icuTimers, .wakePending, .reg .accCheckCount, .reg .arrPathStatus, .reg .arrResidueCount, .reg .ephLostCount, .reg .ephSeq, .reg .hbmPcState, .reg .hbmStatus, .reg .hifEventLostCount, .reg .hifRingHead, .reg .icuPend, .reg .updCheckCount, .reg .vecCheckCount]

theorem countFailure_effect (k : Nat) (s : State) (f : Failure) :
    Effect countFailure_parts s (countFailure k s f) := by
  unfold countFailure
  repeat' (first
    | with_reducible exact Effect.refl _ _
    | (with_reducible show partsIn _ _ = true); decide +kernel
    | with_reducible apply Effect.ite
    | (with_reducible apply Effect.after; with_reducible apply marginCount_effect)
    | (with_reducible apply Effect.after; with_reducible apply exhaust_effect)
    | (with_reducible apply Effect.after; with_reducible apply transient_effect)
    | (with_reducible apply Effect.after; with_reducible apply bumpQuad_effect)
    | (with_reducible apply Effect.after; with_reducible apply bumpCore_effect)
    | extract_lets
    | split
    | (refine ⟨⟨?_⟩, id, id⟩; intro p hp; cases p <;> first | rfl | (intro _ _; rfl) | (refine absurd ?_ hp; decide)))

theorem replayRec_effect (s : State) (k : Nat) (p : ReplayPt) (f : Nat) (x : Failure) (attempt status : Nat) :
    Effect [.eph, .hostMem, .icuTimers, .wakePending, .reg .ephLostCount, .reg .ephSeq, .reg .hifRingHead, .reg .icuPend] s (replayRec s k p f x attempt status) := by
  unfold replayRec
  repeat' (first
    | with_reducible exact Effect.refl _ _
    | (with_reducible show partsIn _ _ = true); decide +kernel
    | with_reducible apply Effect.ite
    | (with_reducible apply Effect.after; with_reducible apply emit_effect)
    | extract_lets
    | split
    | (refine ⟨⟨?_⟩, id, id⟩; intro p hp; cases p <;> first | rfl | (intro _ _; rfl) | (refine absurd ?_ hp; decide)))

abbrev pauseSteps_parts : List Part :=
  [.bridge, .cores, .eph, .events, .flt, .freeCtr, .heldWrites, .hostMem, .icuTimers, .mem, .poison, .rings, .scrub, .sync, .wakePending, .reg .accLapseCount, .reg .accNonfiniteCount, .reg .accSpillA0, .reg .accSpillA1, .reg .accSpillA2, .reg .accSpillA3, .reg .arrPathStatus, .reg .arrTransitCount, .reg .ephLostCount, .reg .ephSeq, .reg .hbmFailCount, .reg .hbmOdeccCorrCount, .reg .hbmOdeccUncorrCount, .reg .hbmPcState, .reg .hbmPoisonCount, .reg .hbmRereadCount, .reg .hbmStatus, .reg .hifEventLostCount, .reg .hifRingHead, .reg .icuPend, .reg .pwrStatus, .reg .seqReplayCycles, .reg .seqSchedule, .reg .seqSlipCycles, .reg .seqState, .reg .seqWaitCycles, .reg .spmFailCount, .reg .spmPoisonCount, .reg .spmRereadCount, .reg .updCheckCount, .reg .updFallbackCount, .reg .updFrozenCount, .reg .updRetryCount, .reg .updRootFailCount, .reg .vecFlags, .reg .vecNonfiniteCount, .reg .vecScalar0, .reg .vecScalar1, .reg .vecScalar2, .reg .vecScalar3, .reg .vecScalar4, .reg .vecScalar5, .reg .vecScalar6, .reg .vecScalar7, .reg .vecSrStep]

theorem pauseSteps_effect (k : Nat) (fails : List (Nat × Failure)) (n : Nat) : ∀ (j : Nat) (s : State),
    Effect pauseSteps_parts s (pauseSteps k fails n j s) := by
  induction n with
  | zero => intros; unfold pauseSteps; exact Effect.refl _ _
  | succ n ih =>
    intros; unfold pauseSteps
    repeat' (first
      | with_reducible exact Effect.refl _ _
      | (with_reducible show partsIn _ _ = true); decide +kernel
      | with_reducible apply Effect.ite
      | (with_reducible apply Effect.after; with_reducible apply ih)
      | (with_reducible apply Effect.after; with_reducible apply engineEnter_effect)
      | (with_reducible apply Effect.after; with_reducible apply engineWork_effect)
      | (with_reducible apply Effect.after; with_reducible apply setCore_effect)
      | (with_reducible apply Effect.after; with_reducible apply wrCore_effect)
      | (with_reducible apply Effect.trans; pick_goal 2; with_reducible apply Effect.foldl; intro _ _)
      | extract_lets
      | split
      | (refine ⟨⟨?_⟩, id, id⟩; intro p hp; cases p <;> first | rfl | (intro _ _; rfl) | (refine absurd ?_ hp; decide)))

abbrev replaySpills_parts : List Part :=
  [.cores, .eph, .events, .flt, .freeCtr, .heldWrites, .hostMem, .icuTimers, .mem, .poison, .scrub, .wakePending, .reg .accSpillA0, .reg .accSpillA1, .reg .accSpillA2, .reg .accSpillA3, .reg .arrPathStatus, .reg .ephLostCount, .reg .ephSeq, .reg .hbmFailCount, .reg .hbmOdeccCorrCount, .reg .hbmOdeccUncorrCount, .reg .hbmPcState, .reg .hbmPoisonCount, .reg .hbmRereadCount, .reg .hbmStatus, .reg .hifEventLostCount, .reg .hifRingHead, .reg .icuPend, .reg .seqState, .reg .spmFailCount, .reg .spmPoisonCount, .reg .spmRereadCount]

theorem replaySpills_effect (k : Nat) (p : ReplayPt) (f : Nat) (er : EngineRun) (n : Nat) : ∀ (s : State),
    Effect replaySpills_parts s (replaySpills k p f er n s) := by
  induction n with
  | zero => intros; unfold replaySpills; exact Effect.refl _ _
  | succ n ih =>
    intros; unfold replaySpills
    repeat' (first
      | with_reducible exact Effect.refl _ _
      | (with_reducible show partsIn _ _ = true); decide +kernel
      | with_reducible apply Effect.ite
      | (with_reducible apply Effect.after; with_reducible apply ih)
      | (with_reducible apply Effect.after; with_reducible apply spillOne_effect)
      | (with_reducible apply Effect.after; with_reducible apply setArray_effect)
      | extract_lets
      | split
      | (refine ⟨⟨?_⟩, id, id⟩; intro p hp; cases p <;> first | rfl | (intro _ _; rfl) | (refine absurd ?_ hp; decide)))

theorem replayArrays_effect (s : State) (k : Nat) (p : ReplayPt) :
    Effect [.cores] s (replayArrays s k p) := by
  unfold replayArrays
  repeat' (first
    | with_reducible exact Effect.refl _ _
    | (with_reducible show partsIn _ _ = true); decide +kernel
    | with_reducible apply Effect.ite
    | (with_reducible apply Effect.after; with_reducible apply setArray_effect)
    | (with_reducible apply Effect.trans; pick_goal 2; with_reducible apply Effect.foldl; intro _ _)
    | extract_lets
    | split
    | (refine ⟨⟨?_⟩, id, id⟩; intro p hp; cases p <;> first | rfl | (intro _ _; rfl) | (refine absurd ?_ hp; decide)))

abbrev rereadFeed_parts : List Part :=
  [.cores, .eph, .events, .flt, .hostMem, .icuTimers, .poison, .scrub, .wakePending, .reg .arrPathStatus, .reg .ephLostCount, .reg .ephSeq, .reg .hbmFailCount, .reg .hbmOdeccCorrCount, .reg .hbmOdeccUncorrCount, .reg .hbmPcState, .reg .hbmRereadCount, .reg .hbmStatus, .reg .hifEventLostCount, .reg .hifRingHead, .reg .icuPend, .reg .spmFailCount, .reg .spmRereadCount]

theorem rereadFeed_effect (k : Nat) (mf : MemFaults) (s : State) (x : FeedRead) :
    Effect rereadFeed_parts s (rereadFeed k mf s x) := by
  unfold rereadFeed
  repeat' (first
    | with_reducible exact Effect.refl _ _
    | (with_reducible show partsIn _ _ = true); decide +kernel
    | with_reducible apply Effect.ite
    | (with_reducible apply Effect.after; with_reducible apply feedRead_effect)
    | with_reducible refine Effect.after (Effect.snd3 (feedRead_effect _ _ _) (by assumption)) ?_ ?_
    | (with_reducible apply Effect.after; with_reducible apply detect_effect)
    | (with_reducible apply Effect.after; with_reducible apply setCore_effect)
    | extract_lets
    | split
    | (refine ⟨⟨?_⟩, id, id⟩; intro p hp; cases p <;> first | rfl | (intro _ _; rfl) | (refine absurd ?_ hp; decide)))

theorem landArrived_effect (s : State) (k : Nat) (p : ReplayPt) (arrived : List Nat) :
    Effect [.cores] s (landArrived s k p arrived) := by
  unfold landArrived
  repeat' (first
    | with_reducible exact Effect.refl _ _
    | (with_reducible show partsIn _ _ = true); decide +kernel
    | with_reducible apply Effect.ite
    | (with_reducible apply Effect.after; with_reducible apply feedLand_effect)
    | (with_reducible apply Effect.after; with_reducible apply setCore_effect)
    | (with_reducible apply Effect.trans; pick_goal 2; with_reducible apply Effect.foldl; intro _ _)
    | extract_lets
    | split
    | (refine ⟨⟨?_⟩, id, id⟩; intro p hp; cases p <;> first | rfl | (intro _ _; rfl) | (refine absurd ?_ hp; decide)))

theorem dropFailed_effect (s : State) (k : Nat) (fails : List Failure) :
    Effect [.cores] s (dropFailed s k fails) := by
  unfold dropFailed
  repeat' (first
    | with_reducible exact Effect.refl _ _
    | (with_reducible show partsIn _ _ = true); decide +kernel
    | with_reducible apply Effect.ite
    | (with_reducible apply Effect.after; with_reducible apply setArray_effect)
    | (with_reducible apply Effect.trans; pick_goal 2; with_reducible apply Effect.foldl; intro _ _)
    | extract_lets
    | split
    | (refine ⟨⟨?_⟩, id, id⟩; intro p hp; cases p <;> first | rfl | (intro _ _; rfl) | (refine absurd ?_ hp; decide)))

abbrev finishBefore_parts : List Part :=
  [.bridge, .cores, .eph, .events, .flt, .freeCtr, .heldWrites, .hostMem, .icuTimers, .mem, .poison, .rings, .scrub, .sync, .wakePending, .reg .accLapseCount, .reg .accNonfiniteCount, .reg .accSpillA0, .reg .accSpillA1, .reg .accSpillA2, .reg .accSpillA3, .reg .arrPathStatus, .reg .arrTransitCount, .reg .ephLostCount, .reg .ephSeq, .reg .hbmFailCount, .reg .hbmOdeccCorrCount, .reg .hbmOdeccUncorrCount, .reg .hbmPcState, .reg .hbmPoisonCount, .reg .hbmRereadCount, .reg .hbmStatus, .reg .hifEventLostCount, .reg .hifRingHead, .reg .icuPend, .reg .pwrStatus, .reg .seqReplayCycles, .reg .seqSchedule, .reg .seqSlipCycles, .reg .seqState, .reg .seqWaitCycles, .reg .spmFailCount, .reg .spmPoisonCount, .reg .spmRereadCount, .reg .updCheckCount, .reg .updFallbackCount, .reg .updFrozenCount, .reg .updRetryCount, .reg .updRootFailCount, .reg .vecFlags, .reg .vecNonfiniteCount, .reg .vecScalar0, .reg .vecScalar1, .reg .vecScalar2, .reg .vecScalar3, .reg .vecScalar4, .reg .vecScalar5, .reg .vecScalar6, .reg .vecScalar7, .reg .vecSrStep]

theorem finishBefore_effect (s : State) (k : Nat) (p : ReplayPt) (f : Nat) (r : ReplayCase) :
    Effect finishBefore_parts s (finishBefore s k p f r) := by
  unfold finishBefore
  repeat' (first
    | with_reducible exact Effect.refl _ _
    | (with_reducible show partsIn _ _ = true); decide +kernel
    | with_reducible apply Effect.ite
    | (with_reducible apply Effect.after; with_reducible apply replaySpills_effect)
    | (with_reducible apply Effect.after; with_reducible apply pauseSteps_effect)
    | (with_reducible apply Effect.after; with_reducible apply freezeHeld_effect)
    | (with_reducible apply Effect.after; with_reducible apply setCore_effect)
    | (with_reducible apply Effect.after; with_reducible apply wrCore_effect)
    | extract_lets
    | split
    | (refine ⟨⟨?_⟩, id, id⟩; intro p hp; cases p <;> first | rfl | (intro _ _; rfl) | (refine absurd ?_ hp; decide)))

abbrev startReplay_parts : List Part :=
  [.bridge, .cores, .eph, .events, .flt, .freeCtr, .heldWrites, .hostMem, .icuTimers, .mem, .poison, .rings, .scrub, .sync, .wakePending, .reg .accLapseCount, .reg .accNonfiniteCount, .reg .accSpillA0, .reg .accSpillA1, .reg .accSpillA2, .reg .accSpillA3, .reg .arrPathStatus, .reg .arrTransitCount, .reg .ephLostCount, .reg .ephSeq, .reg .hbmFailCount, .reg .hbmOdeccCorrCount, .reg .hbmOdeccUncorrCount, .reg .hbmPcState, .reg .hbmPoisonCount, .reg .hbmRereadCount, .reg .hbmStatus, .reg .hifEventLostCount, .reg .hifRingHead, .reg .icuPend, .reg .pwrStatus, .reg .seqReplayCycles, .reg .seqSchedule, .reg .seqSlipCycles, .reg .seqState, .reg .seqWaitCycles, .reg .spmFailCount, .reg .spmPoisonCount, .reg .spmRereadCount, .reg .updCheckCount, .reg .updFallbackCount, .reg .updFrozenCount, .reg .updRetryCount, .reg .updRootFailCount, .reg .vecFlags, .reg .vecNonfiniteCount, .reg .vecScalar0, .reg .vecScalar1, .reg .vecScalar2, .reg .vecScalar3, .reg .vecScalar4, .reg .vecScalar5, .reg .vecScalar6, .reg .vecScalar7, .reg .vecSrStep]

theorem startReplay_effect (s : State) (k : Nat) (p : ReplayPt) (f : Nat) (fails : List Failure) (r : ReplayCase) :
    Effect startReplay_parts s (startReplay s k p f fails r) := by
  unfold startReplay
  repeat' (first
    | with_reducible exact Effect.refl _ _
    | (with_reducible show partsIn _ _ = true); decide +kernel
    | with_reducible apply Effect.ite
    | (with_reducible apply Effect.after; with_reducible apply finishBefore_effect)
    | (with_reducible apply Effect.after; with_reducible apply dropFailed_effect)
    | (with_reducible apply Effect.after; with_reducible apply rereadFeed_effect)
    | (with_reducible apply Effect.after; with_reducible apply replayArrays_effect)
    | (with_reducible apply Effect.after; with_reducible apply withdrawWaits_effect)
    | (with_reducible apply Effect.after; with_reducible apply restoreRegs_effect)
    | (with_reducible apply Effect.after; with_reducible apply setSeqState_effect)
    | (with_reducible apply Effect.after; with_reducible apply setCore_effect)
    | (with_reducible apply Effect.trans; pick_goal 2; with_reducible apply Effect.foldl; intro _ _)
    | extract_lets
    | split
    | (refine ⟨⟨?_⟩, id, id⟩; intro p hp; cases p <;> first | rfl | (intro _ _; rfl) | (refine absurd ?_ hp; decide)))

end Sys2Proof.Machine
end

