-- ==== Sys2Proof/Laws/CycleEffect.lean ====
section
/-! SUPPORT. One effect lemma for each operation of Machine/Cycle.lean: the parts it may change. -/

set_option maxRecDepth 2000

set_option Elab.async false
set_option linter.unusedTactic false
set_option linter.unreachableTactic false
set_option linter.unusedVariables false
set_option linter.unusedSimpArgs false

namespace Sys2Proof.Machine

abbrev cycleCores_parts : List Part :=
  [.bridge, .cores, .eph, .events, .flt, .freeCtr, .heldWrites, .hostMem, .icuTimers, .mem, .poison, .rings, .scrub, .sync, .wakePending, .reg .accLapseCount, .reg .accNonfiniteCount, .reg .accSpillA0, .reg .accSpillA1, .reg .accSpillA2, .reg .accSpillA3, .reg .arrPathStatus, .reg .arrTransitCount, .reg .ephLostCount, .reg .ephSeq, .reg .hbmFailCount, .reg .hbmOdeccCorrCount, .reg .hbmOdeccUncorrCount, .reg .hbmPcState, .reg .hbmPoisonCount, .reg .hbmRereadCount, .reg .hbmStatus, .reg .hifEventLostCount, .reg .hifRingHead, .reg .icuPend, .reg .pwrStatus, .reg .seqReplayCycles, .reg .seqSchedule, .reg .seqSlipCycles, .reg .seqState, .reg .seqWaitCycles, .reg .spmFailCount, .reg .spmPoisonCount, .reg .spmRereadCount, .reg .updCheckCount, .reg .updFallbackCount, .reg .updFrozenCount, .reg .updRetryCount, .reg .updRootFailCount, .reg .vecFlags, .reg .vecNonfiniteCount, .reg .vecScalar0, .reg .vecScalar1, .reg .vecScalar2, .reg .vecScalar3, .reg .vecScalar4, .reg .vecScalar5, .reg .vecScalar6, .reg .vecScalar7, .reg .vecSrStep]

theorem cycleCores_effect (s : State) (die : Nat) :
    Effect cycleCores_parts s (cycleCores s die) := by
  unfold cycleCores
  repeat' (first
    | with_reducible exact Effect.refl _ _
    | (with_reducible show partsIn _ _ = true); decide +kernel
    | with_reducible apply Effect.ite
    | (with_reducible apply Effect.after; with_reducible apply cycleStep_effect)
    | (with_reducible apply Effect.trans; pick_goal 2; with_reducible apply Effect.foldl; intro _ _)
    | extract_lets
    | split
    | (refine ⟨⟨?_⟩, id, id⟩; intro p hp; cases p <;> first | rfl | (intro _ _; rfl) | (refine absurd ?_ hp; decide)))

abbrev tickClock_parts : List Part :=
  [.bridge, .clk, .cores, .eph, .events, .flt, .freeCtr, .heldWrites, .hostMem, .icuTimers, .mem, .poison, .rings, .scrub, .sync, .wakePending, .reg .accLapseCount, .reg .accNonfiniteCount, .reg .accSpillA0, .reg .accSpillA1, .reg .accSpillA2, .reg .accSpillA3, .reg .arrPathStatus, .reg .arrTransitCount, .reg .ephLostCount, .reg .ephSeq, .reg .hbmFailCount, .reg .hbmOdeccCorrCount, .reg .hbmOdeccUncorrCount, .reg .hbmPcState, .reg .hbmPoisonCount, .reg .hbmRereadCount, .reg .hbmStatus, .reg .hifEventLostCount, .reg .hifRingHead, .reg .icuPend, .reg .pwrStatus, .reg .seqReplayCycles, .reg .seqSchedule, .reg .seqSlipCycles, .reg .seqState, .reg .seqWaitCycles, .reg .spmFailCount, .reg .spmPoisonCount, .reg .spmRereadCount, .reg .updCheckCount, .reg .updFallbackCount, .reg .updFrozenCount, .reg .updRetryCount, .reg .updRootFailCount, .reg .vecFlags, .reg .vecNonfiniteCount, .reg .vecScalar0, .reg .vecScalar1, .reg .vecScalar2, .reg .vecScalar3, .reg .vecScalar4, .reg .vecScalar5, .reg .vecScalar6, .reg .vecScalar7, .reg .vecSrStep]

theorem tickClock_effect (s : State) (die : Nat) :
    Effect tickClock_parts s (tickClock s die) := by
  unfold tickClock
  repeat' (first
    | with_reducible exact Effect.refl _ _
    | (with_reducible show partsIn _ _ = true); decide +kernel
    | with_reducible apply Effect.ite
    | (with_reducible apply Effect.after; with_reducible apply cycleCores_effect)
    | (with_reducible apply Effect.after; with_reducible apply setClk_effect)
    | extract_lets
    | split
    | (refine ⟨⟨?_⟩, id, id⟩; intro p hp; cases p <;> first | rfl | (intro _ _; rfl) | (refine absurd ?_ hp; decide)))

abbrev blockTick_parts : List Part :=
  [.answers, .bridge, .clk, .cols, .comps, .cores, .ctlCores, .eph, .events, .flt, .freeCtr, .heldWrites, .hostMem, .icuTimers, .mem, .poison, .ports, .rings, .scrub, .sid, .sync, .wakePending, .reg .accLapseCount, .reg .accNonfiniteCount, .reg .accSpillA0, .reg .accSpillA1, .reg .accSpillA2, .reg .accSpillA3, .reg .arrPathStatus, .reg .arrTransitCount, .reg .ephLostCount, .reg .ephSeq, .reg .fabLinkReplayCount, .reg .hbmFailCount, .reg .hbmOdeccCorrCount, .reg .hbmOdeccUncorrCount, .reg .hbmPcState, .reg .hbmPoisonCount, .reg .hbmRereadCount, .reg .hbmStatus, .reg .hifEventLostCount, .reg .hifRingHead, .reg .icuPend, .reg .pwrStatus, .reg .seqReplayCycles, .reg .seqSchedule, .reg .seqSlipCycles, .reg .seqState, .reg .seqWaitCycles, .reg .sidClampCount, .reg .sidCount, .reg .sidLossCount, .reg .sidStatus, .reg .spmFailCount, .reg .spmPoisonCount, .reg .spmRereadCount, .reg .updCheckCount, .reg .updFallbackCount, .reg .updFrozenCount, .reg .updRetryCount, .reg .updRootFailCount, .reg .vecFlags, .reg .vecNonfiniteCount, .reg .vecScalar0, .reg .vecScalar1, .reg .vecScalar2, .reg .vecScalar3, .reg .vecScalar4, .reg .vecScalar5, .reg .vecScalar6, .reg .vecScalar7, .reg .vecSrStep]

theorem blockTick_effect (s : State) :
    Effect blockTick_parts s (blockTick s) := by
  unfold blockTick
  repeat' (first
    | with_reducible exact Effect.refl _ _
    | (with_reducible show partsIn _ _ = true); decide +kernel
    | with_reducible apply Effect.ite
    | (with_reducible apply Effect.after; with_reducible apply tickClock_effect)
    | (with_reducible apply Effect.after; with_reducible apply bridgeArrive_effect)
    | (with_reducible apply Effect.after; with_reducible apply sendPairs_effect)
    | (with_reducible apply Effect.after; with_reducible apply idleTick_effect)
    | extract_lets
    | split
    | (refine ⟨⟨?_⟩, id, id⟩; intro p hp; cases p <;> first | rfl | (intro _ _; rfl) | (refine absurd ?_ hp; decide)))

end Sys2Proof.Machine
end

