-- ==== Sys2Proof/Laws/ArraysEffect.lean ====
section
/-! SUPPORT. One effect lemma for each operation of Machine/Arrays.lean: the parts it may change. -/

set_option maxRecDepth 2000

set_option Elab.async false
set_option linter.unusedTactic false
set_option linter.unreachableTactic false
set_option linter.unusedVariables false
set_option linter.unusedSimpArgs false

namespace Sys2Proof.Machine

theorem bump_stall_effect (s : State) (a die unit n : Nat) :
    Effect [.reg .arrStallA0, .reg .arrStallA1, .reg .arrStallA2, .reg .arrStallA3] s (bump s (stallReg a) die unit n) := by
  unfold stallReg
  split <;> exact (bump_effect _ _ _ _ _).mono (by decide)

theorem runPass_effect (s : State) (k op : Nat) (lines : LineFaults) :
    Effect [.cores, .reg .arrStallA0, .reg .arrStallA1, .reg .arrStallA2, .reg .arrStallA3, .reg .seqState] s (runPass s k op lines) := by
  unfold runPass
  repeat' (first
    | with_reducible exact Effect.refl _ _
    | (with_reducible show partsIn _ _ = true); decide +kernel
    | with_reducible apply Effect.ite
    | (with_reducible apply Effect.after; with_reducible apply bump_stall_effect)
    | (with_reducible apply Effect.after; with_reducible apply flagCore_effect)
    | (with_reducible apply Effect.after; with_reducible apply interlockFor_effect)
    | (with_reducible apply Effect.after; with_reducible apply wideIssued_effect)
    | (with_reducible apply Effect.after; with_reducible apply setArray_effect)
    | (with_reducible apply Effect.after; with_reducible apply bump_effect)
    | extract_lets
    | split
    | (refine ⟨⟨?_⟩, id, id⟩; intro p hp; cases p <;> first | rfl | (intro _ _; rfl) | (refine absurd ?_ hp; decide)))

end Sys2Proof.Machine
end

