-- ==== Sys2Proof/Laws/Fields.lean ====
section
/-! SUPPORT. Register fields: what a field reads after a write of it, of another field of the register, and of another
register. -/

set_option Elab.async false

namespace Sys2Proof

/-- A field replaced in a word reads back, cut to its width. -/
theorem bits_setBits_same (w hi lo v : Nat) : bits (setBits w hi lo v) hi lo = v % 2 ^ (hi - lo + 1) := by
  unfold setBits bits
  set n := hi - lo + 1
  rw [Nat.shiftRight_eq_div_pow, Nat.shiftRight_eq_div_pow]
  have hp : 0 < 2 ^ lo := by positivity
  have hw : w - w / 2 ^ lo % 2 ^ n * 2 ^ lo = w / 2 ^ lo / 2 ^ n * 2 ^ n * 2 ^ lo + w % 2 ^ lo := by
    have h1 := Nat.div_add_mod w (2 ^ lo)
    have h2 := Nat.div_add_mod (w / 2 ^ lo) (2 ^ n)
    have h3 : w = (w / 2 ^ lo / 2 ^ n * 2 ^ n + w / 2 ^ lo % 2 ^ n) * 2 ^ lo + w % 2 ^ lo := by
      conv_lhs => rw [← h1, ← h2]
      ring
    have h4 : (w / 2 ^ lo / 2 ^ n * 2 ^ n + w / 2 ^ lo % 2 ^ n) * 2 ^ lo =
        w / 2 ^ lo / 2 ^ n * 2 ^ n * 2 ^ lo + w / 2 ^ lo % 2 ^ n * 2 ^ lo := Nat.add_mul _ _ _
    omega
  rw [hw]
  have e : w / 2 ^ lo / 2 ^ n * 2 ^ n * 2 ^ lo + w % 2 ^ lo + v % 2 ^ n * 2 ^ lo =
      w % 2 ^ lo + 2 ^ lo * (w / 2 ^ lo / 2 ^ n * 2 ^ n + v % 2 ^ n) := by ring
  rw [e, Nat.add_mul_div_left _ _ hp, Nat.div_eq_of_lt (Nat.mod_lt _ hp), Nat.zero_add, Nat.mul_comm, Nat.mul_add_mod,
    Nat.mod_mod]

/-- The bits of a word cut to a width that holds the field. -/
theorem bits_mod (w hi lo n : Nat) (h : hi < n) (hl : lo ≤ hi) : bits (w % 2 ^ n) hi lo = bits w hi lo := by
  unfold bits
  rw [Nat.shiftRight_eq_div_pow, Nat.shiftRight_eq_div_pow]
  apply Nat.eq_of_testBit_eq
  intro i
  simp only [Nat.testBit_mod_two_pow, Nat.testBit_div_two_pow]
  by_cases hi' : i < hi - lo + 1
  · have : i + lo < n := by omega
    simp [hi', this]
  · simp [hi']

/-- Bit i of a word with a field replaced. -/
theorem testBit_setBits (w hi lo v i : Nat) :
    (setBits w hi lo v).testBit i = if lo ≤ i ∧ i - lo < hi - lo + 1 then v.testBit (i - lo) else w.testBit i := by
  have key : setBits w hi lo v = w % 2 ^ lo + 2 ^ lo * (v % 2 ^ (hi - lo + 1) + 2 ^ (hi - lo + 1) * (w / 2 ^ lo / 2 ^ (hi - lo + 1))) := by
    unfold setBits bits
    set n := hi - lo + 1
    rw [Nat.shiftRight_eq_div_pow]
    have h1 := Nat.div_add_mod w (2 ^ lo)
    have h2 := Nat.div_add_mod (w / 2 ^ lo) (2 ^ n)
    have h3 : w = (w / 2 ^ lo / 2 ^ n * 2 ^ n + w / 2 ^ lo % 2 ^ n) * 2 ^ lo + w % 2 ^ lo := by
      conv_lhs => rw [← h1, ← h2]
      ring
    have h4 : (w / 2 ^ lo / 2 ^ n * 2 ^ n + w / 2 ^ lo % 2 ^ n) * 2 ^ lo =
        w / 2 ^ lo / 2 ^ n * 2 ^ n * 2 ^ lo + w / 2 ^ lo % 2 ^ n * 2 ^ lo := Nat.add_mul _ _ _
    have h5 : 2 ^ lo * (v % 2 ^ n + 2 ^ n * (w / 2 ^ lo / 2 ^ n)) =
      v % 2 ^ n * 2 ^ lo + w / 2 ^ lo / 2 ^ n * 2 ^ n * 2 ^ lo := by ring
    omega
  set n := hi - lo + 1
  rw [key, Nat.add_comm]
  by_cases h1 : lo ≤ i
  · rw [Nat.testBit_two_pow_mul_add _ (Nat.mod_lt _ (by positivity)), if_neg (by omega)]
    rw [Nat.add_comm, Nat.testBit_two_pow_mul_add _ (Nat.mod_lt _ (by positivity))]
    by_cases h2 : i - lo < n
    · rw [if_pos h2, if_pos ⟨h1, h2⟩, Nat.testBit_mod_two_pow]; simp [h2]
    · rw [if_neg h2, if_neg (by omega), Nat.testBit_div_two_pow, Nat.testBit_div_two_pow]
      congr 1; omega
  · rw [Nat.testBit_two_pow_mul_add _ (Nat.mod_lt _ (by positivity)), if_pos (by omega), if_neg (by omega),
      Nat.testBit_mod_two_pow]
    simp; omega

/-- Bit i of a field. -/
theorem testBit_bits (w hi lo i : Nat) : (bits w hi lo).testBit i = (decide (i < hi - lo + 1) && w.testBit (i + lo)) := by
  unfold bits
  rw [Nat.testBit_mod_two_pow, Nat.shiftRight_eq_div_pow, Nat.testBit_div_two_pow]

/-- A field beside the replaced one reads as before. -/
theorem bits_setBits_other (w hi lo v hi' lo' : Nat) (hl : lo ≤ hi) (hl' : lo' ≤ hi') (h : hi < lo' ∨ hi' < lo) :
    bits (setBits w hi lo v) hi' lo' = bits w hi' lo' := by
  apply Nat.eq_of_testBit_eq
  intro i
  rw [testBit_bits, testBit_bits, testBit_setBits]
  by_cases hi2 : i < hi' - lo' + 1
  · rw [if_neg (by omega)]
  · simp [hi2]

namespace Machine

/-- A field fits its register. -/
def Fld.fits (f : Fld) : Bool := decide (f.lo ≤ f.hi) && decide (f.hi < f.reg.info.width) && decide (f.reg.info.width ≤ 64)

/-- A field written reads back, cut to its width. -/
theorem rf_wf_same (s : State) (f : Fld) (die unit v : Nat) (h : f.fits = true) :
    rf (wf s f die unit v) f die unit = v % 2 ^ (f.hi - f.lo + 1) := by
  simp only [Fld.fits, Bool.and_eq_true, decide_eq_true_eq] at h
  unfold rf wf
  rw [rd_wr_same _ _ _ _ _ h.2, bits_mod _ _ _ _ h.1.2 h.1.1, bits_setBits_same]

/-- Another field of the register reads as before. -/
theorem rf_wf_field (s : State) (f g : Fld) (die unit v : Nat) (hr : g.reg = f.reg) (h : f.fits = true) (hg : g.fits = true)
    (hd : f.hi < g.lo ∨ g.hi < f.lo) :
    rf (wf s f die unit v) g die unit = rf s g die unit := by
  simp only [Fld.fits, Bool.and_eq_true, decide_eq_true_eq] at h hg
  unfold rf wf
  rw [hr, rd_wr_same _ _ _ _ _ h.2, bits_mod _ _ _ _ (hr ▸ hg.1.2) hg.1.1, bits_setBits_other _ _ _ _ _ _ h.1.1 hg.1.1 hd]

/-- A field of another register reads as before. -/
theorem rf_wf_other (s : State) (f g : Fld) (die unit v die' unit' : Nat) (hr : g.reg ≠ f.reg) :
    rf (wf s f die unit v) g die' unit' = rf s g die' unit' := by
  unfold rf wf; rw [rd_wr_other _ _ _ hr]

theorem rf_wr_other (s : State) (r : Reg) (g : Fld) (die unit v die' unit' : Nat) (hr : g.reg ≠ r) :
    rf (wr s r die unit v) g die' unit' = rf s g die' unit' := by
  unfold rf; rw [rd_wr_other _ _ _ hr]

/-- The same register of another unit. -/
theorem rf_wf_unit (s : State) (f g : Fld) (die unit v die' unit' : Nat) (hr : g.reg = f.reg)
    (h : (homeDie f.reg die' % 2, unit' % 32768) ≠ (homeDie f.reg die % 2, unit % 32768)) :
    rf (wf s f die unit v) g die' unit' = rf s g die' unit' := by
  unfold rf wf; rw [hr, rd_wr_unit _ _ _ _ _ _ _ h]

end Machine
end Sys2Proof
end

