-- ==== Sys2Proof/Laws/VectorEffect.lean ====
section
/-! SUPPORT. One effect lemma for each operation of Machine/Vector.lean: the parts it may change. -/

set_option maxRecDepth 2000

set_option Elab.async false
set_option linter.unusedTactic false
set_option linter.unreachableTactic false
set_option linter.unusedVariables false
set_option linter.unusedSimpArgs false

namespace Sys2Proof.Machine

theorem runVector_effect (s : State) (k cls op : Nat) (er : EngineRun) :
    Effect [.cores, .reg .seqState] s (runVector s k cls op er) := by
  unfold runVector
  repeat' (first
    | with_reducible exact Effect.refl _ _
    | (with_reducible show partsIn _ _ = true); decide +kernel
    | with_reducible apply Effect.ite
    | (with_reducible apply Effect.after; with_reducible apply interlockFor_effect)
    | (with_reducible apply Effect.after; with_reducible apply wideIssued_effect)
    | (with_reducible apply Effect.after; with_reducible apply setCore_effect)
    | extract_lets
    | split
    | (refine ⟨⟨?_⟩, id, id⟩; intro p hp; cases p <;> first | rfl | (intro _ _; rfl) | (refine absurd ?_ hp; decide)))

end Sys2Proof.Machine
end

