-- ==== Sys2Proof/Laws/UpdateEffect.lean ====
section
/-! SUPPORT. One effect lemma for each operation of Machine/Update.lean: the parts it may change. -/

set_option maxRecDepth 2000

set_option Elab.async false
set_option linter.unusedTactic false
set_option linter.unreachableTactic false
set_option linter.unusedVariables false
set_option linter.unusedSimpArgs false

namespace Sys2Proof.Machine

theorem runUpdate_effect (s : State) (k opcode : Nat) (er : EngineRun) :
    Effect [.cores, .reg .seqState] s (runUpdate s k opcode er) := by
  unfold runUpdate
  repeat' (first
    | with_reducible exact Effect.refl _ _
    | (with_reducible show partsIn _ _ = true); decide +kernel
    | with_reducible apply Effect.ite
    | (with_reducible apply Effect.after; with_reducible apply updFetch_effect)
    | with_reducible refine Effect.after (Effect.snd (updFetch_effect _ _ _ _) (by assumption)) ?_ ?_
    | (with_reducible apply Effect.after; with_reducible apply interlockFor_effect)
    | (with_reducible apply Effect.after; with_reducible apply wideIssued_effect)
    | (with_reducible apply Effect.after; with_reducible apply setCore_effect)
    | extract_lets
    | split
    | (refine ⟨⟨?_⟩, id, id⟩; intro p hp; cases p <;> first | rfl | (intro _ _; rfl) | (refine absurd ?_ hp; decide)))

end Sys2Proof.Machine
end

