-- ==== Sys2Proof/Laws/SeqEffect.lean ====
section
/-! SUPPORT. One effect lemma for each operation of Machine/Seq.lean: the parts it may change. -/

set_option maxRecDepth 2000

set_option Elab.async false
set_option linter.unusedTactic false
set_option linter.unreachableTactic false
set_option linter.unusedVariables false
set_option linter.unusedSimpArgs false

namespace Sys2Proof.Machine

abbrev slipTimeout_parts : List Part :=
  [.bridge, .cores, .eph, .hostMem, .icuTimers, .rings, .sync, .wakePending, .reg .ephLostCount, .reg .ephSeq, .reg .hifRingHead, .reg .icuPend, .reg .pwrStatus, .reg .seqReplayCycles, .reg .seqSlipCycles, .reg .seqState, .reg .seqWaitCycles]

theorem slipTimeout_effect (s : State) (k limit : Nat) :
    Effect slipTimeout_parts s (slipTimeout s k limit) := by
  unfold slipTimeout
  repeat' (first
    | with_reducible exact Effect.refl _ _
    | (with_reducible show partsIn _ _ = true); decide +kernel
    | with_reducible apply Effect.ite
    | (with_reducible apply Effect.after; with_reducible apply endStream_effect)
    | (with_reducible apply Effect.after; with_reducible apply countFrozen_effect)
    | extract_lets
    | split
    | (refine ⟨⟨?_⟩, id, id⟩; intro p hp; cases p <;> first | rfl | (intro _ _; rfl) | (refine absurd ?_ hp; decide)))

abbrev replayLost_parts : List Part :=
  [.bridge, .cores, .eph, .events, .flt, .hostMem, .icuTimers, .rings, .sync, .wakePending, .reg .arrPathStatus, .reg .ephLostCount, .reg .ephSeq, .reg .hbmPcState, .reg .hbmStatus, .reg .hifEventLostCount, .reg .hifRingHead, .reg .icuPend, .reg .pwrStatus, .reg .seqReplayCycles, .reg .seqSlipCycles, .reg .seqState, .reg .seqWaitCycles]

theorem replayLost_effect (s : State) (k : Nat) (p : ReplayPt) (f : Nat) (x : Failure) (status : Nat) :
    Effect replayLost_parts s (replayLost s k p f x status) := by
  unfold replayLost
  repeat' (first
    | with_reducible exact Effect.refl _ _
    | (with_reducible show partsIn _ _ = true); decide +kernel
    | with_reducible apply Effect.ite
    | (with_reducible apply Effect.after; with_reducible apply replayRec_effect)
    | (with_reducible apply Effect.after; with_reducible apply endStream_effect)
    | (with_reducible apply Effect.after; with_reducible apply exhaust_effect)
    | extract_lets
    | split
    | (refine ⟨⟨?_⟩, id, id⟩; intro p hp; cases p <;> first | rfl | (intro _ _; rfl) | (refine absurd ?_ hp; decide)))

theorem replayStarts_effect (s : State) (k : Nat) :
    Effect [.icuTimers, .wakePending, .reg .icuPend, .reg .seqReplayCount] s (replayStarts s k) := by
  unfold replayStarts
  repeat' (first
    | with_reducible exact Effect.refl _ _
    | (with_reducible show partsIn _ _ = true); decide +kernel
    | with_reducible apply Effect.ite
    | (with_reducible apply Effect.after; with_reducible apply irq_effect)
    | (with_reducible apply Effect.after; with_reducible apply bumpCore_effect)
    | extract_lets
    | split
    | (refine ⟨⟨?_⟩, id, id⟩; intro p hp; cases p <;> first | rfl | (intro _ _; rfl) | (refine absurd ?_ hp; decide)))

abbrev replayFor_parts : List Part :=
  [.bridge, .cores, .eph, .events, .flt, .freeCtr, .heldWrites, .hostMem, .icuTimers, .mem, .poison, .rings, .scrub, .sync, .wakePending, .reg .accCheckCount, .reg .accLapseCount, .reg .accNonfiniteCount, .reg .accSpillA0, .reg .accSpillA1, .reg .accSpillA2, .reg .accSpillA3, .reg .arrPathStatus, .reg .arrResidueCount, .reg .arrTransitCount, .reg .ephLostCount, .reg .ephSeq, .reg .hbmFailCount, .reg .hbmOdeccCorrCount, .reg .hbmOdeccUncorrCount, .reg .hbmPcState, .reg .hbmPoisonCount, .reg .hbmRereadCount, .reg .hbmStatus, .reg .hifEventLostCount, .reg .hifRingHead, .reg .icuPend, .reg .pwrStatus, .reg .seqReplayCount, .reg .seqReplayCycles, .reg .seqSchedule, .reg .seqSlipCycles, .reg .seqState, .reg .seqWaitCycles, .reg .spmFailCount, .reg .spmPoisonCount, .reg .spmRereadCount, .reg .updCheckCount, .reg .updFallbackCount, .reg .updFrozenCount, .reg .updRetryCount, .reg .updRootFailCount, .reg .vecCheckCount, .reg .vecFlags, .reg .vecNonfiniteCount, .reg .vecScalar0, .reg .vecScalar1, .reg .vecScalar2, .reg .vecScalar3, .reg .vecScalar4, .reg .vecScalar5, .reg .vecScalar6, .reg .vecScalar7, .reg .vecSrStep]

theorem replayFor_effect (s : State) (k : Nat) (p : ReplayPt) (fails : List Failure) (r : ReplayCase) :
    Effect replayFor_parts s (replayFor s k p fails r) := by
  unfold replayFor
  repeat' (first
    | with_reducible exact Effect.refl _ _
    | (with_reducible show partsIn _ _ = true); decide +kernel
    | with_reducible apply Effect.ite
    | (with_reducible apply Effect.after; with_reducible apply replayStarts_effect)
    | (with_reducible apply Effect.after; with_reducible apply replayLost_effect)
    | (with_reducible apply Effect.after; with_reducible apply startReplay_effect)
    | (with_reducible apply Effect.after; with_reducible apply landArrived_effect)
    | (with_reducible apply Effect.after; with_reducible apply replayRec_effect)
    | (with_reducible apply Effect.after; with_reducible apply countFailure_effect)
    | (with_reducible apply Effect.after; with_reducible apply bumpCore_effect)
    | (with_reducible apply Effect.trans; pick_goal 2; with_reducible apply Effect.foldl; intro _ _)
    | extract_lets
    | split
    | dsimp +zetaDelta only
    | (refine ⟨⟨?_⟩, id, id⟩; intro p hp; cases p <;> first | rfl | (intro _ _; rfl) | (refine absurd ?_ hp; decide)))

end Sys2Proof.Machine
end

