-- ==== Sys2Proof/Laws/State.lean ====
section
/-! SUPPORT. For each operation that sets one part of the state, what every other field reads after it, and the part read
back. -/

set_option Elab.async false

namespace Sys2Proof.Machine

/-! ### wr -/

@[simp] theorem wr_pending (s : State) (r : Reg) (die unit v : Nat) : (wr s r die unit v).pending = s.pending := rfl
@[simp] theorem wr_freeCtr (s : State) (r : Reg) (die unit v : Nat) : (wr s r die unit v).freeCtr = s.freeCtr := rfl
@[simp] theorem wr_mem (s : State) (r : Reg) (die unit v : Nat) : (wr s r die unit v).mem = s.mem := rfl
@[simp] theorem wr_hostMem (s : State) (r : Reg) (die unit v : Nat) : (wr s r die unit v).hostMem = s.hostMem := rfl
@[simp] theorem wr_poison (s : State) (r : Reg) (die unit v : Nat) : (wr s r die unit v).poison = s.poison := rfl
@[simp] theorem wr_snoop (s : State) (r : Reg) (die unit v : Nat) : (wr s r die unit v).snoop = s.snoop := rfl
@[simp] theorem wr_heldWrites (s : State) (r : Reg) (die unit v : Nat) : (wr s r die unit v).heldWrites = s.heldWrites := rfl
@[simp] theorem wr_scrub (s : State) (r : Reg) (die unit v : Nat) : (wr s r die unit v).scrub = s.scrub := rfl
@[simp] theorem wr_unusable (s : State) (r : Reg) (die unit v : Nat) : (wr s r die unit v).unusable = s.unusable := rfl
@[simp] theorem wr_cores (s : State) (r : Reg) (die unit v : Nat) : (wr s r die unit v).cores = s.cores := rfl
@[simp] theorem wr_sync (s : State) (r : Reg) (die unit v : Nat) : (wr s r die unit v).sync = s.sync := rfl
@[simp] theorem wr_bridge (s : State) (r : Reg) (die unit v : Nat) : (wr s r die unit v).bridge = s.bridge := rfl
@[simp] theorem wr_cols (s : State) (r : Reg) (die unit v : Nat) : (wr s r die unit v).cols = s.cols := rfl
@[simp] theorem wr_colWaiting (s : State) (r : Reg) (die unit v : Nat) : (wr s r die unit v).colWaiting = s.colWaiting := rfl
@[simp] theorem wr_colEnded (s : State) (r : Reg) (die unit v : Nat) : (wr s r die unit v).colEnded = s.colEnded := rfl
@[simp] theorem wr_mcasts (s : State) (r : Reg) (die unit v : Nat) : (wr s r die unit v).mcasts = s.mcasts := rfl
@[simp] theorem wr_routes (s : State) (r : Reg) (die unit v : Nat) : (wr s r die unit v).routes = s.routes := rfl
@[simp] theorem wr_flowsTx (s : State) (r : Reg) (die unit v : Nat) : (wr s r die unit v).flowsTx = s.flowsTx := rfl
@[simp] theorem wr_flowsRx (s : State) (r : Reg) (die unit v : Nat) : (wr s r die unit v).flowsRx = s.flowsRx := rfl
@[simp] theorem wr_ports (s : State) (r : Reg) (die unit v : Nat) : (wr s r die unit v).ports = s.ports := rfl
@[simp] theorem wr_rings (s : State) (r : Reg) (die unit v : Nat) : (wr s r die unit v).rings = s.rings := rfl
@[simp] theorem wr_host (s : State) (r : Reg) (die unit v : Nat) : (wr s r die unit v).host = s.host := rfl
@[simp] theorem wr_answers (s : State) (r : Reg) (die unit v : Nat) : (wr s r die unit v).answers = s.answers := rfl
@[simp] theorem wr_eph (s : State) (r : Reg) (die unit v : Nat) : (wr s r die unit v).eph = s.eph := rfl
@[simp] theorem wr_events (s : State) (r : Reg) (die unit v : Nat) : (wr s r die unit v).events = s.events := rfl
@[simp] theorem wr_icuTimers (s : State) (r : Reg) (die unit v : Nat) : (wr s r die unit v).icuTimers = s.icuTimers := rfl
@[simp] theorem wr_comps (s : State) (r : Reg) (die unit v : Nat) : (wr s r die unit v).comps = s.comps := rfl
@[simp] theorem wr_ctlCores (s : State) (r : Reg) (die unit v : Nat) : (wr s r die unit v).ctlCores = s.ctlCores := rfl
@[simp] theorem wr_ctlMem (s : State) (r : Reg) (die unit v : Nat) : (wr s r die unit v).ctlMem = s.ctlMem := rfl
@[simp] theorem wr_sid (s : State) (r : Reg) (die unit v : Nat) : (wr s r die unit v).sid = s.sid := rfl
@[simp] theorem wr_pwr (s : State) (r : Reg) (die unit v : Nat) : (wr s r die unit v).pwr = s.pwr := rfl
@[simp] theorem wr_clk (s : State) (r : Reg) (die unit v : Nat) : (wr s r die unit v).clk = s.clk := rfl
@[simp] theorem wr_flt (s : State) (r : Reg) (die unit v : Nat) : (wr s r die unit v).flt = s.flt := rfl
@[simp] theorem wr_tru (s : State) (r : Reg) (die unit v : Nat) : (wr s r die unit v).tru = s.tru := rfl
@[simp] theorem wr_flash (s : State) (r : Reg) (die unit v : Nat) : (wr s r die unit v).flash = s.flash := rfl
@[simp] theorem wr_acts (s : State) (r : Reg) (die unit v : Nat) : (wr s r die unit v).acts = s.acts := rfl
@[simp] theorem wr_mgmt (s : State) (r : Reg) (die unit v : Nat) : (wr s r die unit v).mgmt = s.mgmt := rfl
@[simp] theorem wr_job (s : State) (r : Reg) (die unit v : Nat) : (wr s r die unit v).job = s.job := rfl

/-! ### wf -/

@[simp] theorem wf_pending (s : State) (f : Fld) (die unit v : Nat) : (wf s f die unit v).pending = s.pending := rfl
@[simp] theorem wf_freeCtr (s : State) (f : Fld) (die unit v : Nat) : (wf s f die unit v).freeCtr = s.freeCtr := rfl
@[simp] theorem wf_mem (s : State) (f : Fld) (die unit v : Nat) : (wf s f die unit v).mem = s.mem := rfl
@[simp] theorem wf_hostMem (s : State) (f : Fld) (die unit v : Nat) : (wf s f die unit v).hostMem = s.hostMem := rfl
@[simp] theorem wf_poison (s : State) (f : Fld) (die unit v : Nat) : (wf s f die unit v).poison = s.poison := rfl
@[simp] theorem wf_snoop (s : State) (f : Fld) (die unit v : Nat) : (wf s f die unit v).snoop = s.snoop := rfl
@[simp] theorem wf_heldWrites (s : State) (f : Fld) (die unit v : Nat) : (wf s f die unit v).heldWrites = s.heldWrites := rfl
@[simp] theorem wf_scrub (s : State) (f : Fld) (die unit v : Nat) : (wf s f die unit v).scrub = s.scrub := rfl
@[simp] theorem wf_unusable (s : State) (f : Fld) (die unit v : Nat) : (wf s f die unit v).unusable = s.unusable := rfl
@[simp] theorem wf_cores (s : State) (f : Fld) (die unit v : Nat) : (wf s f die unit v).cores = s.cores := rfl
@[simp] theorem wf_sync (s : State) (f : Fld) (die unit v : Nat) : (wf s f die unit v).sync = s.sync := rfl
@[simp] theorem wf_bridge (s : State) (f : Fld) (die unit v : Nat) : (wf s f die unit v).bridge = s.bridge := rfl
@[simp] theorem wf_cols (s : State) (f : Fld) (die unit v : Nat) : (wf s f die unit v).cols = s.cols := rfl
@[simp] theorem wf_colWaiting (s : State) (f : Fld) (die unit v : Nat) : (wf s f die unit v).colWaiting = s.colWaiting := rfl
@[simp] theorem wf_colEnded (s : State) (f : Fld) (die unit v : Nat) : (wf s f die unit v).colEnded = s.colEnded := rfl
@[simp] theorem wf_mcasts (s : State) (f : Fld) (die unit v : Nat) : (wf s f die unit v).mcasts = s.mcasts := rfl
@[simp] theorem wf_routes (s : State) (f : Fld) (die unit v : Nat) : (wf s f die unit v).routes = s.routes := rfl
@[simp] theorem wf_flowsTx (s : State) (f : Fld) (die unit v : Nat) : (wf s f die unit v).flowsTx = s.flowsTx := rfl
@[simp] theorem wf_flowsRx (s : State) (f : Fld) (die unit v : Nat) : (wf s f die unit v).flowsRx = s.flowsRx := rfl
@[simp] theorem wf_ports (s : State) (f : Fld) (die unit v : Nat) : (wf s f die unit v).ports = s.ports := rfl
@[simp] theorem wf_rings (s : State) (f : Fld) (die unit v : Nat) : (wf s f die unit v).rings = s.rings := rfl
@[simp] theorem wf_host (s : State) (f : Fld) (die unit v : Nat) : (wf s f die unit v).host = s.host := rfl
@[simp] theorem wf_answers (s : State) (f : Fld) (die unit v : Nat) : (wf s f die unit v).answers = s.answers := rfl
@[simp] theorem wf_eph (s : State) (f : Fld) (die unit v : Nat) : (wf s f die unit v).eph = s.eph := rfl
@[simp] theorem wf_events (s : State) (f : Fld) (die unit v : Nat) : (wf s f die unit v).events = s.events := rfl
@[simp] theorem wf_icuTimers (s : State) (f : Fld) (die unit v : Nat) : (wf s f die unit v).icuTimers = s.icuTimers := rfl
@[simp] theorem wf_comps (s : State) (f : Fld) (die unit v : Nat) : (wf s f die unit v).comps = s.comps := rfl
@[simp] theorem wf_ctlCores (s : State) (f : Fld) (die unit v : Nat) : (wf s f die unit v).ctlCores = s.ctlCores := rfl
@[simp] theorem wf_ctlMem (s : State) (f : Fld) (die unit v : Nat) : (wf s f die unit v).ctlMem = s.ctlMem := rfl
@[simp] theorem wf_sid (s : State) (f : Fld) (die unit v : Nat) : (wf s f die unit v).sid = s.sid := rfl
@[simp] theorem wf_pwr (s : State) (f : Fld) (die unit v : Nat) : (wf s f die unit v).pwr = s.pwr := rfl
@[simp] theorem wf_clk (s : State) (f : Fld) (die unit v : Nat) : (wf s f die unit v).clk = s.clk := rfl
@[simp] theorem wf_flt (s : State) (f : Fld) (die unit v : Nat) : (wf s f die unit v).flt = s.flt := rfl
@[simp] theorem wf_tru (s : State) (f : Fld) (die unit v : Nat) : (wf s f die unit v).tru = s.tru := rfl
@[simp] theorem wf_flash (s : State) (f : Fld) (die unit v : Nat) : (wf s f die unit v).flash = s.flash := rfl
@[simp] theorem wf_acts (s : State) (f : Fld) (die unit v : Nat) : (wf s f die unit v).acts = s.acts := rfl
@[simp] theorem wf_mgmt (s : State) (f : Fld) (die unit v : Nat) : (wf s f die unit v).mgmt = s.mgmt := rfl
@[simp] theorem wf_job (s : State) (f : Fld) (die unit v : Nat) : (wf s f die unit v).job = s.job := rfl

/-! ### hostWrite -/

@[simp] theorem hostWrite_pending (s : State) (addr : Nat) (data : Bytes) : (hostWrite s addr data).pending = s.pending := rfl
@[simp] theorem hostWrite_freeCtr (s : State) (addr : Nat) (data : Bytes) : (hostWrite s addr data).freeCtr = s.freeCtr := rfl
@[simp] theorem hostWrite_regs (s : State) (addr : Nat) (data : Bytes) : (hostWrite s addr data).regs = s.regs := rfl
@[simp] theorem hostWrite_mem (s : State) (addr : Nat) (data : Bytes) : (hostWrite s addr data).mem = s.mem := rfl
@[simp] theorem hostWrite_poison (s : State) (addr : Nat) (data : Bytes) : (hostWrite s addr data).poison = s.poison := rfl
@[simp] theorem hostWrite_snoop (s : State) (addr : Nat) (data : Bytes) : (hostWrite s addr data).snoop = s.snoop := rfl
@[simp] theorem hostWrite_heldWrites (s : State) (addr : Nat) (data : Bytes) : (hostWrite s addr data).heldWrites = s.heldWrites := rfl
@[simp] theorem hostWrite_scrub (s : State) (addr : Nat) (data : Bytes) : (hostWrite s addr data).scrub = s.scrub := rfl
@[simp] theorem hostWrite_unusable (s : State) (addr : Nat) (data : Bytes) : (hostWrite s addr data).unusable = s.unusable := rfl
@[simp] theorem hostWrite_cores (s : State) (addr : Nat) (data : Bytes) : (hostWrite s addr data).cores = s.cores := rfl
@[simp] theorem hostWrite_sync (s : State) (addr : Nat) (data : Bytes) : (hostWrite s addr data).sync = s.sync := rfl
@[simp] theorem hostWrite_bridge (s : State) (addr : Nat) (data : Bytes) : (hostWrite s addr data).bridge = s.bridge := rfl
@[simp] theorem hostWrite_cols (s : State) (addr : Nat) (data : Bytes) : (hostWrite s addr data).cols = s.cols := rfl
@[simp] theorem hostWrite_colWaiting (s : State) (addr : Nat) (data : Bytes) : (hostWrite s addr data).colWaiting = s.colWaiting := rfl
@[simp] theorem hostWrite_colEnded (s : State) (addr : Nat) (data : Bytes) : (hostWrite s addr data).colEnded = s.colEnded := rfl
@[simp] theorem hostWrite_mcasts (s : State) (addr : Nat) (data : Bytes) : (hostWrite s addr data).mcasts = s.mcasts := rfl
@[simp] theorem hostWrite_routes (s : State) (addr : Nat) (data : Bytes) : (hostWrite s addr data).routes = s.routes := rfl
@[simp] theorem hostWrite_flowsTx (s : State) (addr : Nat) (data : Bytes) : (hostWrite s addr data).flowsTx = s.flowsTx := rfl
@[simp] theorem hostWrite_flowsRx (s : State) (addr : Nat) (data : Bytes) : (hostWrite s addr data).flowsRx = s.flowsRx := rfl
@[simp] theorem hostWrite_ports (s : State) (addr : Nat) (data : Bytes) : (hostWrite s addr data).ports = s.ports := rfl
@[simp] theorem hostWrite_rings (s : State) (addr : Nat) (data : Bytes) : (hostWrite s addr data).rings = s.rings := rfl
@[simp] theorem hostWrite_host (s : State) (addr : Nat) (data : Bytes) : (hostWrite s addr data).host = s.host := rfl
@[simp] theorem hostWrite_answers (s : State) (addr : Nat) (data : Bytes) : (hostWrite s addr data).answers = s.answers := rfl
@[simp] theorem hostWrite_eph (s : State) (addr : Nat) (data : Bytes) : (hostWrite s addr data).eph = s.eph := rfl
@[simp] theorem hostWrite_events (s : State) (addr : Nat) (data : Bytes) : (hostWrite s addr data).events = s.events := rfl
@[simp] theorem hostWrite_icuTimers (s : State) (addr : Nat) (data : Bytes) : (hostWrite s addr data).icuTimers = s.icuTimers := rfl
@[simp] theorem hostWrite_comps (s : State) (addr : Nat) (data : Bytes) : (hostWrite s addr data).comps = s.comps := rfl
@[simp] theorem hostWrite_ctlCores (s : State) (addr : Nat) (data : Bytes) : (hostWrite s addr data).ctlCores = s.ctlCores := rfl
@[simp] theorem hostWrite_ctlMem (s : State) (addr : Nat) (data : Bytes) : (hostWrite s addr data).ctlMem = s.ctlMem := rfl
@[simp] theorem hostWrite_sid (s : State) (addr : Nat) (data : Bytes) : (hostWrite s addr data).sid = s.sid := rfl
@[simp] theorem hostWrite_pwr (s : State) (addr : Nat) (data : Bytes) : (hostWrite s addr data).pwr = s.pwr := rfl
@[simp] theorem hostWrite_clk (s : State) (addr : Nat) (data : Bytes) : (hostWrite s addr data).clk = s.clk := rfl
@[simp] theorem hostWrite_flt (s : State) (addr : Nat) (data : Bytes) : (hostWrite s addr data).flt = s.flt := rfl
@[simp] theorem hostWrite_tru (s : State) (addr : Nat) (data : Bytes) : (hostWrite s addr data).tru = s.tru := rfl
@[simp] theorem hostWrite_flash (s : State) (addr : Nat) (data : Bytes) : (hostWrite s addr data).flash = s.flash := rfl
@[simp] theorem hostWrite_acts (s : State) (addr : Nat) (data : Bytes) : (hostWrite s addr data).acts = s.acts := rfl
@[simp] theorem hostWrite_mgmt (s : State) (addr : Nat) (data : Bytes) : (hostWrite s addr data).mgmt = s.mgmt := rfl
@[simp] theorem hostWrite_job (s : State) (addr : Nat) (data : Bytes) : (hostWrite s addr data).job = s.job := rfl

/-! ### setSid -/

@[simp] theorem setSid_pending (s : State) (die : Nat) (v : SidState) : (setSid s die v).pending = s.pending := rfl
@[simp] theorem setSid_freeCtr (s : State) (die : Nat) (v : SidState) : (setSid s die v).freeCtr = s.freeCtr := rfl
@[simp] theorem setSid_regs (s : State) (die : Nat) (v : SidState) : (setSid s die v).regs = s.regs := rfl
@[simp] theorem setSid_mem (s : State) (die : Nat) (v : SidState) : (setSid s die v).mem = s.mem := rfl
@[simp] theorem setSid_hostMem (s : State) (die : Nat) (v : SidState) : (setSid s die v).hostMem = s.hostMem := rfl
@[simp] theorem setSid_poison (s : State) (die : Nat) (v : SidState) : (setSid s die v).poison = s.poison := rfl
@[simp] theorem setSid_snoop (s : State) (die : Nat) (v : SidState) : (setSid s die v).snoop = s.snoop := rfl
@[simp] theorem setSid_heldWrites (s : State) (die : Nat) (v : SidState) : (setSid s die v).heldWrites = s.heldWrites := rfl
@[simp] theorem setSid_scrub (s : State) (die : Nat) (v : SidState) : (setSid s die v).scrub = s.scrub := rfl
@[simp] theorem setSid_unusable (s : State) (die : Nat) (v : SidState) : (setSid s die v).unusable = s.unusable := rfl
@[simp] theorem setSid_cores (s : State) (die : Nat) (v : SidState) : (setSid s die v).cores = s.cores := rfl
@[simp] theorem setSid_sync (s : State) (die : Nat) (v : SidState) : (setSid s die v).sync = s.sync := rfl
@[simp] theorem setSid_bridge (s : State) (die : Nat) (v : SidState) : (setSid s die v).bridge = s.bridge := rfl
@[simp] theorem setSid_cols (s : State) (die : Nat) (v : SidState) : (setSid s die v).cols = s.cols := rfl
@[simp] theorem setSid_colWaiting (s : State) (die : Nat) (v : SidState) : (setSid s die v).colWaiting = s.colWaiting := rfl
@[simp] theorem setSid_colEnded (s : State) (die : Nat) (v : SidState) : (setSid s die v).colEnded = s.colEnded := rfl
@[simp] theorem setSid_mcasts (s : State) (die : Nat) (v : SidState) : (setSid s die v).mcasts = s.mcasts := rfl
@[simp] theorem setSid_routes (s : State) (die : Nat) (v : SidState) : (setSid s die v).routes = s.routes := rfl
@[simp] theorem setSid_flowsTx (s : State) (die : Nat) (v : SidState) : (setSid s die v).flowsTx = s.flowsTx := rfl
@[simp] theorem setSid_flowsRx (s : State) (die : Nat) (v : SidState) : (setSid s die v).flowsRx = s.flowsRx := rfl
@[simp] theorem setSid_ports (s : State) (die : Nat) (v : SidState) : (setSid s die v).ports = s.ports := rfl
@[simp] theorem setSid_rings (s : State) (die : Nat) (v : SidState) : (setSid s die v).rings = s.rings := rfl
@[simp] theorem setSid_host (s : State) (die : Nat) (v : SidState) : (setSid s die v).host = s.host := rfl
@[simp] theorem setSid_answers (s : State) (die : Nat) (v : SidState) : (setSid s die v).answers = s.answers := rfl
@[simp] theorem setSid_eph (s : State) (die : Nat) (v : SidState) : (setSid s die v).eph = s.eph := rfl
@[simp] theorem setSid_events (s : State) (die : Nat) (v : SidState) : (setSid s die v).events = s.events := rfl
@[simp] theorem setSid_icuTimers (s : State) (die : Nat) (v : SidState) : (setSid s die v).icuTimers = s.icuTimers := rfl
@[simp] theorem setSid_comps (s : State) (die : Nat) (v : SidState) : (setSid s die v).comps = s.comps := rfl
@[simp] theorem setSid_ctlCores (s : State) (die : Nat) (v : SidState) : (setSid s die v).ctlCores = s.ctlCores := rfl
@[simp] theorem setSid_ctlMem (s : State) (die : Nat) (v : SidState) : (setSid s die v).ctlMem = s.ctlMem := rfl
@[simp] theorem setSid_pwr (s : State) (die : Nat) (v : SidState) : (setSid s die v).pwr = s.pwr := rfl
@[simp] theorem setSid_clk (s : State) (die : Nat) (v : SidState) : (setSid s die v).clk = s.clk := rfl
@[simp] theorem setSid_flt (s : State) (die : Nat) (v : SidState) : (setSid s die v).flt = s.flt := rfl
@[simp] theorem setSid_tru (s : State) (die : Nat) (v : SidState) : (setSid s die v).tru = s.tru := rfl
@[simp] theorem setSid_flash (s : State) (die : Nat) (v : SidState) : (setSid s die v).flash = s.flash := rfl
@[simp] theorem setSid_acts (s : State) (die : Nat) (v : SidState) : (setSid s die v).acts = s.acts := rfl
@[simp] theorem setSid_mgmt (s : State) (die : Nat) (v : SidState) : (setSid s die v).mgmt = s.mgmt := rfl
@[simp] theorem setSid_job (s : State) (die : Nat) (v : SidState) : (setSid s die v).job = s.job := rfl

/-! ### setEph -/

@[simp] theorem setEph_pending (s : State) (die : Nat) (v : Ephemeris) : (setEph s die v).pending = s.pending := rfl
@[simp] theorem setEph_freeCtr (s : State) (die : Nat) (v : Ephemeris) : (setEph s die v).freeCtr = s.freeCtr := rfl
@[simp] theorem setEph_regs (s : State) (die : Nat) (v : Ephemeris) : (setEph s die v).regs = s.regs := rfl
@[simp] theorem setEph_mem (s : State) (die : Nat) (v : Ephemeris) : (setEph s die v).mem = s.mem := rfl
@[simp] theorem setEph_hostMem (s : State) (die : Nat) (v : Ephemeris) : (setEph s die v).hostMem = s.hostMem := rfl
@[simp] theorem setEph_poison (s : State) (die : Nat) (v : Ephemeris) : (setEph s die v).poison = s.poison := rfl
@[simp] theorem setEph_snoop (s : State) (die : Nat) (v : Ephemeris) : (setEph s die v).snoop = s.snoop := rfl
@[simp] theorem setEph_heldWrites (s : State) (die : Nat) (v : Ephemeris) : (setEph s die v).heldWrites = s.heldWrites := rfl
@[simp] theorem setEph_scrub (s : State) (die : Nat) (v : Ephemeris) : (setEph s die v).scrub = s.scrub := rfl
@[simp] theorem setEph_unusable (s : State) (die : Nat) (v : Ephemeris) : (setEph s die v).unusable = s.unusable := rfl
@[simp] theorem setEph_cores (s : State) (die : Nat) (v : Ephemeris) : (setEph s die v).cores = s.cores := rfl
@[simp] theorem setEph_sync (s : State) (die : Nat) (v : Ephemeris) : (setEph s die v).sync = s.sync := rfl
@[simp] theorem setEph_bridge (s : State) (die : Nat) (v : Ephemeris) : (setEph s die v).bridge = s.bridge := rfl
@[simp] theorem setEph_cols (s : State) (die : Nat) (v : Ephemeris) : (setEph s die v).cols = s.cols := rfl
@[simp] theorem setEph_colWaiting (s : State) (die : Nat) (v : Ephemeris) : (setEph s die v).colWaiting = s.colWaiting := rfl
@[simp] theorem setEph_colEnded (s : State) (die : Nat) (v : Ephemeris) : (setEph s die v).colEnded = s.colEnded := rfl
@[simp] theorem setEph_mcasts (s : State) (die : Nat) (v : Ephemeris) : (setEph s die v).mcasts = s.mcasts := rfl
@[simp] theorem setEph_routes (s : State) (die : Nat) (v : Ephemeris) : (setEph s die v).routes = s.routes := rfl
@[simp] theorem setEph_flowsTx (s : State) (die : Nat) (v : Ephemeris) : (setEph s die v).flowsTx = s.flowsTx := rfl
@[simp] theorem setEph_flowsRx (s : State) (die : Nat) (v : Ephemeris) : (setEph s die v).flowsRx = s.flowsRx := rfl
@[simp] theorem setEph_ports (s : State) (die : Nat) (v : Ephemeris) : (setEph s die v).ports = s.ports := rfl
@[simp] theorem setEph_rings (s : State) (die : Nat) (v : Ephemeris) : (setEph s die v).rings = s.rings := rfl
@[simp] theorem setEph_host (s : State) (die : Nat) (v : Ephemeris) : (setEph s die v).host = s.host := rfl
@[simp] theorem setEph_answers (s : State) (die : Nat) (v : Ephemeris) : (setEph s die v).answers = s.answers := rfl
@[simp] theorem setEph_events (s : State) (die : Nat) (v : Ephemeris) : (setEph s die v).events = s.events := rfl
@[simp] theorem setEph_icuTimers (s : State) (die : Nat) (v : Ephemeris) : (setEph s die v).icuTimers = s.icuTimers := rfl
@[simp] theorem setEph_comps (s : State) (die : Nat) (v : Ephemeris) : (setEph s die v).comps = s.comps := rfl
@[simp] theorem setEph_ctlCores (s : State) (die : Nat) (v : Ephemeris) : (setEph s die v).ctlCores = s.ctlCores := rfl
@[simp] theorem setEph_ctlMem (s : State) (die : Nat) (v : Ephemeris) : (setEph s die v).ctlMem = s.ctlMem := rfl
@[simp] theorem setEph_sid (s : State) (die : Nat) (v : Ephemeris) : (setEph s die v).sid = s.sid := rfl
@[simp] theorem setEph_pwr (s : State) (die : Nat) (v : Ephemeris) : (setEph s die v).pwr = s.pwr := rfl
@[simp] theorem setEph_clk (s : State) (die : Nat) (v : Ephemeris) : (setEph s die v).clk = s.clk := rfl
@[simp] theorem setEph_flt (s : State) (die : Nat) (v : Ephemeris) : (setEph s die v).flt = s.flt := rfl
@[simp] theorem setEph_tru (s : State) (die : Nat) (v : Ephemeris) : (setEph s die v).tru = s.tru := rfl
@[simp] theorem setEph_flash (s : State) (die : Nat) (v : Ephemeris) : (setEph s die v).flash = s.flash := rfl
@[simp] theorem setEph_acts (s : State) (die : Nat) (v : Ephemeris) : (setEph s die v).acts = s.acts := rfl
@[simp] theorem setEph_mgmt (s : State) (die : Nat) (v : Ephemeris) : (setEph s die v).mgmt = s.mgmt := rfl
@[simp] theorem setEph_job (s : State) (die : Nat) (v : Ephemeris) : (setEph s die v).job = s.job := rfl

/-! ### setEvents -/

@[simp] theorem setEvents_pending (s : State) (die : Nat) (l : List EventRec) : (setEvents s die l).pending = s.pending := rfl
@[simp] theorem setEvents_freeCtr (s : State) (die : Nat) (l : List EventRec) : (setEvents s die l).freeCtr = s.freeCtr := rfl
@[simp] theorem setEvents_regs (s : State) (die : Nat) (l : List EventRec) : (setEvents s die l).regs = s.regs := rfl
@[simp] theorem setEvents_mem (s : State) (die : Nat) (l : List EventRec) : (setEvents s die l).mem = s.mem := rfl
@[simp] theorem setEvents_hostMem (s : State) (die : Nat) (l : List EventRec) : (setEvents s die l).hostMem = s.hostMem := rfl
@[simp] theorem setEvents_poison (s : State) (die : Nat) (l : List EventRec) : (setEvents s die l).poison = s.poison := rfl
@[simp] theorem setEvents_snoop (s : State) (die : Nat) (l : List EventRec) : (setEvents s die l).snoop = s.snoop := rfl
@[simp] theorem setEvents_heldWrites (s : State) (die : Nat) (l : List EventRec) : (setEvents s die l).heldWrites = s.heldWrites := rfl
@[simp] theorem setEvents_scrub (s : State) (die : Nat) (l : List EventRec) : (setEvents s die l).scrub = s.scrub := rfl
@[simp] theorem setEvents_unusable (s : State) (die : Nat) (l : List EventRec) : (setEvents s die l).unusable = s.unusable := rfl
@[simp] theorem setEvents_cores (s : State) (die : Nat) (l : List EventRec) : (setEvents s die l).cores = s.cores := rfl
@[simp] theorem setEvents_sync (s : State) (die : Nat) (l : List EventRec) : (setEvents s die l).sync = s.sync := rfl
@[simp] theorem setEvents_bridge (s : State) (die : Nat) (l : List EventRec) : (setEvents s die l).bridge = s.bridge := rfl
@[simp] theorem setEvents_cols (s : State) (die : Nat) (l : List EventRec) : (setEvents s die l).cols = s.cols := rfl
@[simp] theorem setEvents_colWaiting (s : State) (die : Nat) (l : List EventRec) : (setEvents s die l).colWaiting = s.colWaiting := rfl
@[simp] theorem setEvents_colEnded (s : State) (die : Nat) (l : List EventRec) : (setEvents s die l).colEnded = s.colEnded := rfl
@[simp] theorem setEvents_mcasts (s : State) (die : Nat) (l : List EventRec) : (setEvents s die l).mcasts = s.mcasts := rfl
@[simp] theorem setEvents_routes (s : State) (die : Nat) (l : List EventRec) : (setEvents s die l).routes = s.routes := rfl
@[simp] theorem setEvents_flowsTx (s : State) (die : Nat) (l : List EventRec) : (setEvents s die l).flowsTx = s.flowsTx := rfl
@[simp] theorem setEvents_flowsRx (s : State) (die : Nat) (l : List EventRec) : (setEvents s die l).flowsRx = s.flowsRx := rfl
@[simp] theorem setEvents_ports (s : State) (die : Nat) (l : List EventRec) : (setEvents s die l).ports = s.ports := rfl
@[simp] theorem setEvents_rings (s : State) (die : Nat) (l : List EventRec) : (setEvents s die l).rings = s.rings := rfl
@[simp] theorem setEvents_host (s : State) (die : Nat) (l : List EventRec) : (setEvents s die l).host = s.host := rfl
@[simp] theorem setEvents_answers (s : State) (die : Nat) (l : List EventRec) : (setEvents s die l).answers = s.answers := rfl
@[simp] theorem setEvents_eph (s : State) (die : Nat) (l : List EventRec) : (setEvents s die l).eph = s.eph := rfl
@[simp] theorem setEvents_icuTimers (s : State) (die : Nat) (l : List EventRec) : (setEvents s die l).icuTimers = s.icuTimers := rfl
@[simp] theorem setEvents_comps (s : State) (die : Nat) (l : List EventRec) : (setEvents s die l).comps = s.comps := rfl
@[simp] theorem setEvents_ctlCores (s : State) (die : Nat) (l : List EventRec) : (setEvents s die l).ctlCores = s.ctlCores := rfl
@[simp] theorem setEvents_ctlMem (s : State) (die : Nat) (l : List EventRec) : (setEvents s die l).ctlMem = s.ctlMem := rfl
@[simp] theorem setEvents_sid (s : State) (die : Nat) (l : List EventRec) : (setEvents s die l).sid = s.sid := rfl
@[simp] theorem setEvents_pwr (s : State) (die : Nat) (l : List EventRec) : (setEvents s die l).pwr = s.pwr := rfl
@[simp] theorem setEvents_clk (s : State) (die : Nat) (l : List EventRec) : (setEvents s die l).clk = s.clk := rfl
@[simp] theorem setEvents_flt (s : State) (die : Nat) (l : List EventRec) : (setEvents s die l).flt = s.flt := rfl
@[simp] theorem setEvents_tru (s : State) (die : Nat) (l : List EventRec) : (setEvents s die l).tru = s.tru := rfl
@[simp] theorem setEvents_flash (s : State) (die : Nat) (l : List EventRec) : (setEvents s die l).flash = s.flash := rfl
@[simp] theorem setEvents_acts (s : State) (die : Nat) (l : List EventRec) : (setEvents s die l).acts = s.acts := rfl
@[simp] theorem setEvents_mgmt (s : State) (die : Nat) (l : List EventRec) : (setEvents s die l).mgmt = s.mgmt := rfl
@[simp] theorem setEvents_job (s : State) (die : Nat) (l : List EventRec) : (setEvents s die l).job = s.job := rfl

/-! ### setCore -/

@[simp] theorem setCore_pending (s : State) (k : Nat) (v : CoreState) : (setCore s k v).pending = s.pending := rfl
@[simp] theorem setCore_freeCtr (s : State) (k : Nat) (v : CoreState) : (setCore s k v).freeCtr = s.freeCtr := rfl
@[simp] theorem setCore_regs (s : State) (k : Nat) (v : CoreState) : (setCore s k v).regs = s.regs := rfl
@[simp] theorem setCore_mem (s : State) (k : Nat) (v : CoreState) : (setCore s k v).mem = s.mem := rfl
@[simp] theorem setCore_hostMem (s : State) (k : Nat) (v : CoreState) : (setCore s k v).hostMem = s.hostMem := rfl
@[simp] theorem setCore_poison (s : State) (k : Nat) (v : CoreState) : (setCore s k v).poison = s.poison := rfl
@[simp] theorem setCore_snoop (s : State) (k : Nat) (v : CoreState) : (setCore s k v).snoop = s.snoop := rfl
@[simp] theorem setCore_heldWrites (s : State) (k : Nat) (v : CoreState) : (setCore s k v).heldWrites = s.heldWrites := rfl
@[simp] theorem setCore_scrub (s : State) (k : Nat) (v : CoreState) : (setCore s k v).scrub = s.scrub := rfl
@[simp] theorem setCore_unusable (s : State) (k : Nat) (v : CoreState) : (setCore s k v).unusable = s.unusable := rfl
@[simp] theorem setCore_sync (s : State) (k : Nat) (v : CoreState) : (setCore s k v).sync = s.sync := rfl
@[simp] theorem setCore_bridge (s : State) (k : Nat) (v : CoreState) : (setCore s k v).bridge = s.bridge := rfl
@[simp] theorem setCore_cols (s : State) (k : Nat) (v : CoreState) : (setCore s k v).cols = s.cols := rfl
@[simp] theorem setCore_colWaiting (s : State) (k : Nat) (v : CoreState) : (setCore s k v).colWaiting = s.colWaiting := rfl
@[simp] theorem setCore_colEnded (s : State) (k : Nat) (v : CoreState) : (setCore s k v).colEnded = s.colEnded := rfl
@[simp] theorem setCore_mcasts (s : State) (k : Nat) (v : CoreState) : (setCore s k v).mcasts = s.mcasts := rfl
@[simp] theorem setCore_routes (s : State) (k : Nat) (v : CoreState) : (setCore s k v).routes = s.routes := rfl
@[simp] theorem setCore_flowsTx (s : State) (k : Nat) (v : CoreState) : (setCore s k v).flowsTx = s.flowsTx := rfl
@[simp] theorem setCore_flowsRx (s : State) (k : Nat) (v : CoreState) : (setCore s k v).flowsRx = s.flowsRx := rfl
@[simp] theorem setCore_ports (s : State) (k : Nat) (v : CoreState) : (setCore s k v).ports = s.ports := rfl
@[simp] theorem setCore_rings (s : State) (k : Nat) (v : CoreState) : (setCore s k v).rings = s.rings := rfl
@[simp] theorem setCore_host (s : State) (k : Nat) (v : CoreState) : (setCore s k v).host = s.host := rfl
@[simp] theorem setCore_answers (s : State) (k : Nat) (v : CoreState) : (setCore s k v).answers = s.answers := rfl
@[simp] theorem setCore_eph (s : State) (k : Nat) (v : CoreState) : (setCore s k v).eph = s.eph := rfl
@[simp] theorem setCore_events (s : State) (k : Nat) (v : CoreState) : (setCore s k v).events = s.events := rfl
@[simp] theorem setCore_icuTimers (s : State) (k : Nat) (v : CoreState) : (setCore s k v).icuTimers = s.icuTimers := rfl
@[simp] theorem setCore_comps (s : State) (k : Nat) (v : CoreState) : (setCore s k v).comps = s.comps := rfl
@[simp] theorem setCore_ctlCores (s : State) (k : Nat) (v : CoreState) : (setCore s k v).ctlCores = s.ctlCores := rfl
@[simp] theorem setCore_ctlMem (s : State) (k : Nat) (v : CoreState) : (setCore s k v).ctlMem = s.ctlMem := rfl
@[simp] theorem setCore_sid (s : State) (k : Nat) (v : CoreState) : (setCore s k v).sid = s.sid := rfl
@[simp] theorem setCore_pwr (s : State) (k : Nat) (v : CoreState) : (setCore s k v).pwr = s.pwr := rfl
@[simp] theorem setCore_clk (s : State) (k : Nat) (v : CoreState) : (setCore s k v).clk = s.clk := rfl
@[simp] theorem setCore_flt (s : State) (k : Nat) (v : CoreState) : (setCore s k v).flt = s.flt := rfl
@[simp] theorem setCore_tru (s : State) (k : Nat) (v : CoreState) : (setCore s k v).tru = s.tru := rfl
@[simp] theorem setCore_flash (s : State) (k : Nat) (v : CoreState) : (setCore s k v).flash = s.flash := rfl
@[simp] theorem setCore_acts (s : State) (k : Nat) (v : CoreState) : (setCore s k v).acts = s.acts := rfl
@[simp] theorem setCore_mgmt (s : State) (k : Nat) (v : CoreState) : (setCore s k v).mgmt = s.mgmt := rfl
@[simp] theorem setCore_job (s : State) (k : Nat) (v : CoreState) : (setCore s k v).job = s.job := rfl

/-! ### setSync -/

@[simp] theorem setSync_pending (s : State) (die : Nat) (v : SyncUnit) : (setSync s die v).pending = s.pending := rfl
@[simp] theorem setSync_freeCtr (s : State) (die : Nat) (v : SyncUnit) : (setSync s die v).freeCtr = s.freeCtr := rfl
@[simp] theorem setSync_regs (s : State) (die : Nat) (v : SyncUnit) : (setSync s die v).regs = s.regs := rfl
@[simp] theorem setSync_mem (s : State) (die : Nat) (v : SyncUnit) : (setSync s die v).mem = s.mem := rfl
@[simp] theorem setSync_hostMem (s : State) (die : Nat) (v : SyncUnit) : (setSync s die v).hostMem = s.hostMem := rfl
@[simp] theorem setSync_poison (s : State) (die : Nat) (v : SyncUnit) : (setSync s die v).poison = s.poison := rfl
@[simp] theorem setSync_snoop (s : State) (die : Nat) (v : SyncUnit) : (setSync s die v).snoop = s.snoop := rfl
@[simp] theorem setSync_heldWrites (s : State) (die : Nat) (v : SyncUnit) : (setSync s die v).heldWrites = s.heldWrites := rfl
@[simp] theorem setSync_scrub (s : State) (die : Nat) (v : SyncUnit) : (setSync s die v).scrub = s.scrub := rfl
@[simp] theorem setSync_unusable (s : State) (die : Nat) (v : SyncUnit) : (setSync s die v).unusable = s.unusable := rfl
@[simp] theorem setSync_cores (s : State) (die : Nat) (v : SyncUnit) : (setSync s die v).cores = s.cores := rfl
@[simp] theorem setSync_bridge (s : State) (die : Nat) (v : SyncUnit) : (setSync s die v).bridge = s.bridge := rfl
@[simp] theorem setSync_cols (s : State) (die : Nat) (v : SyncUnit) : (setSync s die v).cols = s.cols := rfl
@[simp] theorem setSync_colWaiting (s : State) (die : Nat) (v : SyncUnit) : (setSync s die v).colWaiting = s.colWaiting := rfl
@[simp] theorem setSync_colEnded (s : State) (die : Nat) (v : SyncUnit) : (setSync s die v).colEnded = s.colEnded := rfl
@[simp] theorem setSync_mcasts (s : State) (die : Nat) (v : SyncUnit) : (setSync s die v).mcasts = s.mcasts := rfl
@[simp] theorem setSync_routes (s : State) (die : Nat) (v : SyncUnit) : (setSync s die v).routes = s.routes := rfl
@[simp] theorem setSync_flowsTx (s : State) (die : Nat) (v : SyncUnit) : (setSync s die v).flowsTx = s.flowsTx := rfl
@[simp] theorem setSync_flowsRx (s : State) (die : Nat) (v : SyncUnit) : (setSync s die v).flowsRx = s.flowsRx := rfl
@[simp] theorem setSync_ports (s : State) (die : Nat) (v : SyncUnit) : (setSync s die v).ports = s.ports := rfl
@[simp] theorem setSync_rings (s : State) (die : Nat) (v : SyncUnit) : (setSync s die v).rings = s.rings := rfl
@[simp] theorem setSync_host (s : State) (die : Nat) (v : SyncUnit) : (setSync s die v).host = s.host := rfl
@[simp] theorem setSync_answers (s : State) (die : Nat) (v : SyncUnit) : (setSync s die v).answers = s.answers := rfl
@[simp] theorem setSync_eph (s : State) (die : Nat) (v : SyncUnit) : (setSync s die v).eph = s.eph := rfl
@[simp] theorem setSync_events (s : State) (die : Nat) (v : SyncUnit) : (setSync s die v).events = s.events := rfl
@[simp] theorem setSync_icuTimers (s : State) (die : Nat) (v : SyncUnit) : (setSync s die v).icuTimers = s.icuTimers := rfl
@[simp] theorem setSync_comps (s : State) (die : Nat) (v : SyncUnit) : (setSync s die v).comps = s.comps := rfl
@[simp] theorem setSync_ctlCores (s : State) (die : Nat) (v : SyncUnit) : (setSync s die v).ctlCores = s.ctlCores := rfl
@[simp] theorem setSync_ctlMem (s : State) (die : Nat) (v : SyncUnit) : (setSync s die v).ctlMem = s.ctlMem := rfl
@[simp] theorem setSync_sid (s : State) (die : Nat) (v : SyncUnit) : (setSync s die v).sid = s.sid := rfl
@[simp] theorem setSync_pwr (s : State) (die : Nat) (v : SyncUnit) : (setSync s die v).pwr = s.pwr := rfl
@[simp] theorem setSync_clk (s : State) (die : Nat) (v : SyncUnit) : (setSync s die v).clk = s.clk := rfl
@[simp] theorem setSync_flt (s : State) (die : Nat) (v : SyncUnit) : (setSync s die v).flt = s.flt := rfl
@[simp] theorem setSync_tru (s : State) (die : Nat) (v : SyncUnit) : (setSync s die v).tru = s.tru := rfl
@[simp] theorem setSync_flash (s : State) (die : Nat) (v : SyncUnit) : (setSync s die v).flash = s.flash := rfl
@[simp] theorem setSync_acts (s : State) (die : Nat) (v : SyncUnit) : (setSync s die v).acts = s.acts := rfl
@[simp] theorem setSync_mgmt (s : State) (die : Nat) (v : SyncUnit) : (setSync s die v).mgmt = s.mgmt := rfl
@[simp] theorem setSync_job (s : State) (die : Nat) (v : SyncUnit) : (setSync s die v).job = s.job := rfl

/-! ### setCol -/

@[simp] theorem setCol_pending (s : State) (k : Nat) (v : Collective) : (setCol s k v).pending = s.pending := rfl
@[simp] theorem setCol_freeCtr (s : State) (k : Nat) (v : Collective) : (setCol s k v).freeCtr = s.freeCtr := rfl
@[simp] theorem setCol_regs (s : State) (k : Nat) (v : Collective) : (setCol s k v).regs = s.regs := rfl
@[simp] theorem setCol_mem (s : State) (k : Nat) (v : Collective) : (setCol s k v).mem = s.mem := rfl
@[simp] theorem setCol_hostMem (s : State) (k : Nat) (v : Collective) : (setCol s k v).hostMem = s.hostMem := rfl
@[simp] theorem setCol_poison (s : State) (k : Nat) (v : Collective) : (setCol s k v).poison = s.poison := rfl
@[simp] theorem setCol_snoop (s : State) (k : Nat) (v : Collective) : (setCol s k v).snoop = s.snoop := rfl
@[simp] theorem setCol_heldWrites (s : State) (k : Nat) (v : Collective) : (setCol s k v).heldWrites = s.heldWrites := rfl
@[simp] theorem setCol_scrub (s : State) (k : Nat) (v : Collective) : (setCol s k v).scrub = s.scrub := rfl
@[simp] theorem setCol_unusable (s : State) (k : Nat) (v : Collective) : (setCol s k v).unusable = s.unusable := rfl
@[simp] theorem setCol_cores (s : State) (k : Nat) (v : Collective) : (setCol s k v).cores = s.cores := rfl
@[simp] theorem setCol_sync (s : State) (k : Nat) (v : Collective) : (setCol s k v).sync = s.sync := rfl
@[simp] theorem setCol_bridge (s : State) (k : Nat) (v : Collective) : (setCol s k v).bridge = s.bridge := rfl
@[simp] theorem setCol_colWaiting (s : State) (k : Nat) (v : Collective) : (setCol s k v).colWaiting = s.colWaiting := rfl
@[simp] theorem setCol_colEnded (s : State) (k : Nat) (v : Collective) : (setCol s k v).colEnded = s.colEnded := rfl
@[simp] theorem setCol_mcasts (s : State) (k : Nat) (v : Collective) : (setCol s k v).mcasts = s.mcasts := rfl
@[simp] theorem setCol_routes (s : State) (k : Nat) (v : Collective) : (setCol s k v).routes = s.routes := rfl
@[simp] theorem setCol_flowsTx (s : State) (k : Nat) (v : Collective) : (setCol s k v).flowsTx = s.flowsTx := rfl
@[simp] theorem setCol_flowsRx (s : State) (k : Nat) (v : Collective) : (setCol s k v).flowsRx = s.flowsRx := rfl
@[simp] theorem setCol_ports (s : State) (k : Nat) (v : Collective) : (setCol s k v).ports = s.ports := rfl
@[simp] theorem setCol_rings (s : State) (k : Nat) (v : Collective) : (setCol s k v).rings = s.rings := rfl
@[simp] theorem setCol_host (s : State) (k : Nat) (v : Collective) : (setCol s k v).host = s.host := rfl
@[simp] theorem setCol_answers (s : State) (k : Nat) (v : Collective) : (setCol s k v).answers = s.answers := rfl
@[simp] theorem setCol_eph (s : State) (k : Nat) (v : Collective) : (setCol s k v).eph = s.eph := rfl
@[simp] theorem setCol_events (s : State) (k : Nat) (v : Collective) : (setCol s k v).events = s.events := rfl
@[simp] theorem setCol_icuTimers (s : State) (k : Nat) (v : Collective) : (setCol s k v).icuTimers = s.icuTimers := rfl
@[simp] theorem setCol_comps (s : State) (k : Nat) (v : Collective) : (setCol s k v).comps = s.comps := rfl
@[simp] theorem setCol_ctlCores (s : State) (k : Nat) (v : Collective) : (setCol s k v).ctlCores = s.ctlCores := rfl
@[simp] theorem setCol_ctlMem (s : State) (k : Nat) (v : Collective) : (setCol s k v).ctlMem = s.ctlMem := rfl
@[simp] theorem setCol_sid (s : State) (k : Nat) (v : Collective) : (setCol s k v).sid = s.sid := rfl
@[simp] theorem setCol_pwr (s : State) (k : Nat) (v : Collective) : (setCol s k v).pwr = s.pwr := rfl
@[simp] theorem setCol_clk (s : State) (k : Nat) (v : Collective) : (setCol s k v).clk = s.clk := rfl
@[simp] theorem setCol_flt (s : State) (k : Nat) (v : Collective) : (setCol s k v).flt = s.flt := rfl
@[simp] theorem setCol_tru (s : State) (k : Nat) (v : Collective) : (setCol s k v).tru = s.tru := rfl
@[simp] theorem setCol_flash (s : State) (k : Nat) (v : Collective) : (setCol s k v).flash = s.flash := rfl
@[simp] theorem setCol_acts (s : State) (k : Nat) (v : Collective) : (setCol s k v).acts = s.acts := rfl
@[simp] theorem setCol_mgmt (s : State) (k : Nat) (v : Collective) : (setCol s k v).mgmt = s.mgmt := rfl
@[simp] theorem setCol_job (s : State) (k : Nat) (v : Collective) : (setCol s k v).job = s.job := rfl

/-! ### setFlowTx -/

@[simp] theorem setFlowTx_pending (s : State) (k : Nat) (v : FlowTx) : (setFlowTx s k v).pending = s.pending := rfl
@[simp] theorem setFlowTx_freeCtr (s : State) (k : Nat) (v : FlowTx) : (setFlowTx s k v).freeCtr = s.freeCtr := rfl
@[simp] theorem setFlowTx_regs (s : State) (k : Nat) (v : FlowTx) : (setFlowTx s k v).regs = s.regs := rfl
@[simp] theorem setFlowTx_mem (s : State) (k : Nat) (v : FlowTx) : (setFlowTx s k v).mem = s.mem := rfl
@[simp] theorem setFlowTx_hostMem (s : State) (k : Nat) (v : FlowTx) : (setFlowTx s k v).hostMem = s.hostMem := rfl
@[simp] theorem setFlowTx_poison (s : State) (k : Nat) (v : FlowTx) : (setFlowTx s k v).poison = s.poison := rfl
@[simp] theorem setFlowTx_snoop (s : State) (k : Nat) (v : FlowTx) : (setFlowTx s k v).snoop = s.snoop := rfl
@[simp] theorem setFlowTx_heldWrites (s : State) (k : Nat) (v : FlowTx) : (setFlowTx s k v).heldWrites = s.heldWrites := rfl
@[simp] theorem setFlowTx_scrub (s : State) (k : Nat) (v : FlowTx) : (setFlowTx s k v).scrub = s.scrub := rfl
@[simp] theorem setFlowTx_unusable (s : State) (k : Nat) (v : FlowTx) : (setFlowTx s k v).unusable = s.unusable := rfl
@[simp] theorem setFlowTx_cores (s : State) (k : Nat) (v : FlowTx) : (setFlowTx s k v).cores = s.cores := rfl
@[simp] theorem setFlowTx_sync (s : State) (k : Nat) (v : FlowTx) : (setFlowTx s k v).sync = s.sync := rfl
@[simp] theorem setFlowTx_bridge (s : State) (k : Nat) (v : FlowTx) : (setFlowTx s k v).bridge = s.bridge := rfl
@[simp] theorem setFlowTx_cols (s : State) (k : Nat) (v : FlowTx) : (setFlowTx s k v).cols = s.cols := rfl
@[simp] theorem setFlowTx_colWaiting (s : State) (k : Nat) (v : FlowTx) : (setFlowTx s k v).colWaiting = s.colWaiting := rfl
@[simp] theorem setFlowTx_colEnded (s : State) (k : Nat) (v : FlowTx) : (setFlowTx s k v).colEnded = s.colEnded := rfl
@[simp] theorem setFlowTx_mcasts (s : State) (k : Nat) (v : FlowTx) : (setFlowTx s k v).mcasts = s.mcasts := rfl
@[simp] theorem setFlowTx_routes (s : State) (k : Nat) (v : FlowTx) : (setFlowTx s k v).routes = s.routes := rfl
@[simp] theorem setFlowTx_flowsRx (s : State) (k : Nat) (v : FlowTx) : (setFlowTx s k v).flowsRx = s.flowsRx := rfl
@[simp] theorem setFlowTx_ports (s : State) (k : Nat) (v : FlowTx) : (setFlowTx s k v).ports = s.ports := rfl
@[simp] theorem setFlowTx_rings (s : State) (k : Nat) (v : FlowTx) : (setFlowTx s k v).rings = s.rings := rfl
@[simp] theorem setFlowTx_host (s : State) (k : Nat) (v : FlowTx) : (setFlowTx s k v).host = s.host := rfl
@[simp] theorem setFlowTx_answers (s : State) (k : Nat) (v : FlowTx) : (setFlowTx s k v).answers = s.answers := rfl
@[simp] theorem setFlowTx_eph (s : State) (k : Nat) (v : FlowTx) : (setFlowTx s k v).eph = s.eph := rfl
@[simp] theorem setFlowTx_events (s : State) (k : Nat) (v : FlowTx) : (setFlowTx s k v).events = s.events := rfl
@[simp] theorem setFlowTx_icuTimers (s : State) (k : Nat) (v : FlowTx) : (setFlowTx s k v).icuTimers = s.icuTimers := rfl
@[simp] theorem setFlowTx_comps (s : State) (k : Nat) (v : FlowTx) : (setFlowTx s k v).comps = s.comps := rfl
@[simp] theorem setFlowTx_ctlCores (s : State) (k : Nat) (v : FlowTx) : (setFlowTx s k v).ctlCores = s.ctlCores := rfl
@[simp] theorem setFlowTx_ctlMem (s : State) (k : Nat) (v : FlowTx) : (setFlowTx s k v).ctlMem = s.ctlMem := rfl
@[simp] theorem setFlowTx_sid (s : State) (k : Nat) (v : FlowTx) : (setFlowTx s k v).sid = s.sid := rfl
@[simp] theorem setFlowTx_pwr (s : State) (k : Nat) (v : FlowTx) : (setFlowTx s k v).pwr = s.pwr := rfl
@[simp] theorem setFlowTx_clk (s : State) (k : Nat) (v : FlowTx) : (setFlowTx s k v).clk = s.clk := rfl
@[simp] theorem setFlowTx_flt (s : State) (k : Nat) (v : FlowTx) : (setFlowTx s k v).flt = s.flt := rfl
@[simp] theorem setFlowTx_tru (s : State) (k : Nat) (v : FlowTx) : (setFlowTx s k v).tru = s.tru := rfl
@[simp] theorem setFlowTx_flash (s : State) (k : Nat) (v : FlowTx) : (setFlowTx s k v).flash = s.flash := rfl
@[simp] theorem setFlowTx_acts (s : State) (k : Nat) (v : FlowTx) : (setFlowTx s k v).acts = s.acts := rfl
@[simp] theorem setFlowTx_mgmt (s : State) (k : Nat) (v : FlowTx) : (setFlowTx s k v).mgmt = s.mgmt := rfl
@[simp] theorem setFlowTx_job (s : State) (k : Nat) (v : FlowTx) : (setFlowTx s k v).job = s.job := rfl

/-! ### setFlowRx -/

@[simp] theorem setFlowRx_pending (s : State) (k : Nat) (v : FlowRx) : (setFlowRx s k v).pending = s.pending := rfl
@[simp] theorem setFlowRx_freeCtr (s : State) (k : Nat) (v : FlowRx) : (setFlowRx s k v).freeCtr = s.freeCtr := rfl
@[simp] theorem setFlowRx_regs (s : State) (k : Nat) (v : FlowRx) : (setFlowRx s k v).regs = s.regs := rfl
@[simp] theorem setFlowRx_mem (s : State) (k : Nat) (v : FlowRx) : (setFlowRx s k v).mem = s.mem := rfl
@[simp] theorem setFlowRx_hostMem (s : State) (k : Nat) (v : FlowRx) : (setFlowRx s k v).hostMem = s.hostMem := rfl
@[simp] theorem setFlowRx_poison (s : State) (k : Nat) (v : FlowRx) : (setFlowRx s k v).poison = s.poison := rfl
@[simp] theorem setFlowRx_snoop (s : State) (k : Nat) (v : FlowRx) : (setFlowRx s k v).snoop = s.snoop := rfl
@[simp] theorem setFlowRx_heldWrites (s : State) (k : Nat) (v : FlowRx) : (setFlowRx s k v).heldWrites = s.heldWrites := rfl
@[simp] theorem setFlowRx_scrub (s : State) (k : Nat) (v : FlowRx) : (setFlowRx s k v).scrub = s.scrub := rfl
@[simp] theorem setFlowRx_unusable (s : State) (k : Nat) (v : FlowRx) : (setFlowRx s k v).unusable = s.unusable := rfl
@[simp] theorem setFlowRx_cores (s : State) (k : Nat) (v : FlowRx) : (setFlowRx s k v).cores = s.cores := rfl
@[simp] theorem setFlowRx_sync (s : State) (k : Nat) (v : FlowRx) : (setFlowRx s k v).sync = s.sync := rfl
@[simp] theorem setFlowRx_bridge (s : State) (k : Nat) (v : FlowRx) : (setFlowRx s k v).bridge = s.bridge := rfl
@[simp] theorem setFlowRx_cols (s : State) (k : Nat) (v : FlowRx) : (setFlowRx s k v).cols = s.cols := rfl
@[simp] theorem setFlowRx_colWaiting (s : State) (k : Nat) (v : FlowRx) : (setFlowRx s k v).colWaiting = s.colWaiting := rfl
@[simp] theorem setFlowRx_colEnded (s : State) (k : Nat) (v : FlowRx) : (setFlowRx s k v).colEnded = s.colEnded := rfl
@[simp] theorem setFlowRx_mcasts (s : State) (k : Nat) (v : FlowRx) : (setFlowRx s k v).mcasts = s.mcasts := rfl
@[simp] theorem setFlowRx_routes (s : State) (k : Nat) (v : FlowRx) : (setFlowRx s k v).routes = s.routes := rfl
@[simp] theorem setFlowRx_flowsTx (s : State) (k : Nat) (v : FlowRx) : (setFlowRx s k v).flowsTx = s.flowsTx := rfl
@[simp] theorem setFlowRx_ports (s : State) (k : Nat) (v : FlowRx) : (setFlowRx s k v).ports = s.ports := rfl
@[simp] theorem setFlowRx_rings (s : State) (k : Nat) (v : FlowRx) : (setFlowRx s k v).rings = s.rings := rfl
@[simp] theorem setFlowRx_host (s : State) (k : Nat) (v : FlowRx) : (setFlowRx s k v).host = s.host := rfl
@[simp] theorem setFlowRx_answers (s : State) (k : Nat) (v : FlowRx) : (setFlowRx s k v).answers = s.answers := rfl
@[simp] theorem setFlowRx_eph (s : State) (k : Nat) (v : FlowRx) : (setFlowRx s k v).eph = s.eph := rfl
@[simp] theorem setFlowRx_events (s : State) (k : Nat) (v : FlowRx) : (setFlowRx s k v).events = s.events := rfl
@[simp] theorem setFlowRx_icuTimers (s : State) (k : Nat) (v : FlowRx) : (setFlowRx s k v).icuTimers = s.icuTimers := rfl
@[simp] theorem setFlowRx_comps (s : State) (k : Nat) (v : FlowRx) : (setFlowRx s k v).comps = s.comps := rfl
@[simp] theorem setFlowRx_ctlCores (s : State) (k : Nat) (v : FlowRx) : (setFlowRx s k v).ctlCores = s.ctlCores := rfl
@[simp] theorem setFlowRx_ctlMem (s : State) (k : Nat) (v : FlowRx) : (setFlowRx s k v).ctlMem = s.ctlMem := rfl
@[simp] theorem setFlowRx_sid (s : State) (k : Nat) (v : FlowRx) : (setFlowRx s k v).sid = s.sid := rfl
@[simp] theorem setFlowRx_pwr (s : State) (k : Nat) (v : FlowRx) : (setFlowRx s k v).pwr = s.pwr := rfl
@[simp] theorem setFlowRx_clk (s : State) (k : Nat) (v : FlowRx) : (setFlowRx s k v).clk = s.clk := rfl
@[simp] theorem setFlowRx_flt (s : State) (k : Nat) (v : FlowRx) : (setFlowRx s k v).flt = s.flt := rfl
@[simp] theorem setFlowRx_tru (s : State) (k : Nat) (v : FlowRx) : (setFlowRx s k v).tru = s.tru := rfl
@[simp] theorem setFlowRx_flash (s : State) (k : Nat) (v : FlowRx) : (setFlowRx s k v).flash = s.flash := rfl
@[simp] theorem setFlowRx_acts (s : State) (k : Nat) (v : FlowRx) : (setFlowRx s k v).acts = s.acts := rfl
@[simp] theorem setFlowRx_mgmt (s : State) (k : Nat) (v : FlowRx) : (setFlowRx s k v).mgmt = s.mgmt := rfl
@[simp] theorem setFlowRx_job (s : State) (k : Nat) (v : FlowRx) : (setFlowRx s k v).job = s.job := rfl

/-! ### setPort -/

@[simp] theorem setPort_pending (s : State) (die p : Nat) (v : PortState) : (setPort s die p v).pending = s.pending := rfl
@[simp] theorem setPort_freeCtr (s : State) (die p : Nat) (v : PortState) : (setPort s die p v).freeCtr = s.freeCtr := rfl
@[simp] theorem setPort_regs (s : State) (die p : Nat) (v : PortState) : (setPort s die p v).regs = s.regs := rfl
@[simp] theorem setPort_mem (s : State) (die p : Nat) (v : PortState) : (setPort s die p v).mem = s.mem := rfl
@[simp] theorem setPort_hostMem (s : State) (die p : Nat) (v : PortState) : (setPort s die p v).hostMem = s.hostMem := rfl
@[simp] theorem setPort_poison (s : State) (die p : Nat) (v : PortState) : (setPort s die p v).poison = s.poison := rfl
@[simp] theorem setPort_snoop (s : State) (die p : Nat) (v : PortState) : (setPort s die p v).snoop = s.snoop := rfl
@[simp] theorem setPort_heldWrites (s : State) (die p : Nat) (v : PortState) : (setPort s die p v).heldWrites = s.heldWrites := rfl
@[simp] theorem setPort_scrub (s : State) (die p : Nat) (v : PortState) : (setPort s die p v).scrub = s.scrub := rfl
@[simp] theorem setPort_unusable (s : State) (die p : Nat) (v : PortState) : (setPort s die p v).unusable = s.unusable := rfl
@[simp] theorem setPort_cores (s : State) (die p : Nat) (v : PortState) : (setPort s die p v).cores = s.cores := rfl
@[simp] theorem setPort_sync (s : State) (die p : Nat) (v : PortState) : (setPort s die p v).sync = s.sync := rfl
@[simp] theorem setPort_bridge (s : State) (die p : Nat) (v : PortState) : (setPort s die p v).bridge = s.bridge := rfl
@[simp] theorem setPort_cols (s : State) (die p : Nat) (v : PortState) : (setPort s die p v).cols = s.cols := rfl
@[simp] theorem setPort_colWaiting (s : State) (die p : Nat) (v : PortState) : (setPort s die p v).colWaiting = s.colWaiting := rfl
@[simp] theorem setPort_colEnded (s : State) (die p : Nat) (v : PortState) : (setPort s die p v).colEnded = s.colEnded := rfl
@[simp] theorem setPort_mcasts (s : State) (die p : Nat) (v : PortState) : (setPort s die p v).mcasts = s.mcasts := rfl
@[simp] theorem setPort_routes (s : State) (die p : Nat) (v : PortState) : (setPort s die p v).routes = s.routes := rfl
@[simp] theorem setPort_flowsTx (s : State) (die p : Nat) (v : PortState) : (setPort s die p v).flowsTx = s.flowsTx := rfl
@[simp] theorem setPort_flowsRx (s : State) (die p : Nat) (v : PortState) : (setPort s die p v).flowsRx = s.flowsRx := rfl
@[simp] theorem setPort_rings (s : State) (die p : Nat) (v : PortState) : (setPort s die p v).rings = s.rings := rfl
@[simp] theorem setPort_host (s : State) (die p : Nat) (v : PortState) : (setPort s die p v).host = s.host := rfl
@[simp] theorem setPort_answers (s : State) (die p : Nat) (v : PortState) : (setPort s die p v).answers = s.answers := rfl
@[simp] theorem setPort_eph (s : State) (die p : Nat) (v : PortState) : (setPort s die p v).eph = s.eph := rfl
@[simp] theorem setPort_events (s : State) (die p : Nat) (v : PortState) : (setPort s die p v).events = s.events := rfl
@[simp] theorem setPort_icuTimers (s : State) (die p : Nat) (v : PortState) : (setPort s die p v).icuTimers = s.icuTimers := rfl
@[simp] theorem setPort_comps (s : State) (die p : Nat) (v : PortState) : (setPort s die p v).comps = s.comps := rfl
@[simp] theorem setPort_ctlCores (s : State) (die p : Nat) (v : PortState) : (setPort s die p v).ctlCores = s.ctlCores := rfl
@[simp] theorem setPort_ctlMem (s : State) (die p : Nat) (v : PortState) : (setPort s die p v).ctlMem = s.ctlMem := rfl
@[simp] theorem setPort_sid (s : State) (die p : Nat) (v : PortState) : (setPort s die p v).sid = s.sid := rfl
@[simp] theorem setPort_pwr (s : State) (die p : Nat) (v : PortState) : (setPort s die p v).pwr = s.pwr := rfl
@[simp] theorem setPort_clk (s : State) (die p : Nat) (v : PortState) : (setPort s die p v).clk = s.clk := rfl
@[simp] theorem setPort_flt (s : State) (die p : Nat) (v : PortState) : (setPort s die p v).flt = s.flt := rfl
@[simp] theorem setPort_tru (s : State) (die p : Nat) (v : PortState) : (setPort s die p v).tru = s.tru := rfl
@[simp] theorem setPort_flash (s : State) (die p : Nat) (v : PortState) : (setPort s die p v).flash = s.flash := rfl
@[simp] theorem setPort_acts (s : State) (die p : Nat) (v : PortState) : (setPort s die p v).acts = s.acts := rfl
@[simp] theorem setPort_mgmt (s : State) (die p : Nat) (v : PortState) : (setPort s die p v).mgmt = s.mgmt := rfl
@[simp] theorem setPort_job (s : State) (die p : Nat) (v : PortState) : (setPort s die p v).job = s.job := rfl

/-! ### setClk -/

@[simp] theorem setClk_pending (s : State) (die : Nat) (v : ClockState) : (setClk s die v).pending = s.pending := rfl
@[simp] theorem setClk_freeCtr (s : State) (die : Nat) (v : ClockState) : (setClk s die v).freeCtr = s.freeCtr := rfl
@[simp] theorem setClk_regs (s : State) (die : Nat) (v : ClockState) : (setClk s die v).regs = s.regs := rfl
@[simp] theorem setClk_mem (s : State) (die : Nat) (v : ClockState) : (setClk s die v).mem = s.mem := rfl
@[simp] theorem setClk_hostMem (s : State) (die : Nat) (v : ClockState) : (setClk s die v).hostMem = s.hostMem := rfl
@[simp] theorem setClk_poison (s : State) (die : Nat) (v : ClockState) : (setClk s die v).poison = s.poison := rfl
@[simp] theorem setClk_snoop (s : State) (die : Nat) (v : ClockState) : (setClk s die v).snoop = s.snoop := rfl
@[simp] theorem setClk_heldWrites (s : State) (die : Nat) (v : ClockState) : (setClk s die v).heldWrites = s.heldWrites := rfl
@[simp] theorem setClk_scrub (s : State) (die : Nat) (v : ClockState) : (setClk s die v).scrub = s.scrub := rfl
@[simp] theorem setClk_unusable (s : State) (die : Nat) (v : ClockState) : (setClk s die v).unusable = s.unusable := rfl
@[simp] theorem setClk_cores (s : State) (die : Nat) (v : ClockState) : (setClk s die v).cores = s.cores := rfl
@[simp] theorem setClk_sync (s : State) (die : Nat) (v : ClockState) : (setClk s die v).sync = s.sync := rfl
@[simp] theorem setClk_bridge (s : State) (die : Nat) (v : ClockState) : (setClk s die v).bridge = s.bridge := rfl
@[simp] theorem setClk_cols (s : State) (die : Nat) (v : ClockState) : (setClk s die v).cols = s.cols := rfl
@[simp] theorem setClk_colWaiting (s : State) (die : Nat) (v : ClockState) : (setClk s die v).colWaiting = s.colWaiting := rfl
@[simp] theorem setClk_colEnded (s : State) (die : Nat) (v : ClockState) : (setClk s die v).colEnded = s.colEnded := rfl
@[simp] theorem setClk_mcasts (s : State) (die : Nat) (v : ClockState) : (setClk s die v).mcasts = s.mcasts := rfl
@[simp] theorem setClk_routes (s : State) (die : Nat) (v : ClockState) : (setClk s die v).routes = s.routes := rfl
@[simp] theorem setClk_flowsTx (s : State) (die : Nat) (v : ClockState) : (setClk s die v).flowsTx = s.flowsTx := rfl
@[simp] theorem setClk_flowsRx (s : State) (die : Nat) (v : ClockState) : (setClk s die v).flowsRx = s.flowsRx := rfl
@[simp] theorem setClk_ports (s : State) (die : Nat) (v : ClockState) : (setClk s die v).ports = s.ports := rfl
@[simp] theorem setClk_rings (s : State) (die : Nat) (v : ClockState) : (setClk s die v).rings = s.rings := rfl
@[simp] theorem setClk_host (s : State) (die : Nat) (v : ClockState) : (setClk s die v).host = s.host := rfl
@[simp] theorem setClk_answers (s : State) (die : Nat) (v : ClockState) : (setClk s die v).answers = s.answers := rfl
@[simp] theorem setClk_eph (s : State) (die : Nat) (v : ClockState) : (setClk s die v).eph = s.eph := rfl
@[simp] theorem setClk_events (s : State) (die : Nat) (v : ClockState) : (setClk s die v).events = s.events := rfl
@[simp] theorem setClk_icuTimers (s : State) (die : Nat) (v : ClockState) : (setClk s die v).icuTimers = s.icuTimers := rfl
@[simp] theorem setClk_comps (s : State) (die : Nat) (v : ClockState) : (setClk s die v).comps = s.comps := rfl
@[simp] theorem setClk_ctlCores (s : State) (die : Nat) (v : ClockState) : (setClk s die v).ctlCores = s.ctlCores := rfl
@[simp] theorem setClk_ctlMem (s : State) (die : Nat) (v : ClockState) : (setClk s die v).ctlMem = s.ctlMem := rfl
@[simp] theorem setClk_sid (s : State) (die : Nat) (v : ClockState) : (setClk s die v).sid = s.sid := rfl
@[simp] theorem setClk_pwr (s : State) (die : Nat) (v : ClockState) : (setClk s die v).pwr = s.pwr := rfl
@[simp] theorem setClk_flt (s : State) (die : Nat) (v : ClockState) : (setClk s die v).flt = s.flt := rfl
@[simp] theorem setClk_tru (s : State) (die : Nat) (v : ClockState) : (setClk s die v).tru = s.tru := rfl
@[simp] theorem setClk_flash (s : State) (die : Nat) (v : ClockState) : (setClk s die v).flash = s.flash := rfl
@[simp] theorem setClk_acts (s : State) (die : Nat) (v : ClockState) : (setClk s die v).acts = s.acts := rfl
@[simp] theorem setClk_mgmt (s : State) (die : Nat) (v : ClockState) : (setClk s die v).mgmt = s.mgmt := rfl
@[simp] theorem setClk_job (s : State) (die : Nat) (v : ClockState) : (setClk s die v).job = s.job := rfl

/-! ### setRing -/

@[simp] theorem setRing_pending (s : State) (die n : Nat) (v : RingWork) : (setRing s die n v).pending = s.pending := rfl
@[simp] theorem setRing_freeCtr (s : State) (die n : Nat) (v : RingWork) : (setRing s die n v).freeCtr = s.freeCtr := rfl
@[simp] theorem setRing_regs (s : State) (die n : Nat) (v : RingWork) : (setRing s die n v).regs = s.regs := rfl
@[simp] theorem setRing_mem (s : State) (die n : Nat) (v : RingWork) : (setRing s die n v).mem = s.mem := rfl
@[simp] theorem setRing_hostMem (s : State) (die n : Nat) (v : RingWork) : (setRing s die n v).hostMem = s.hostMem := rfl
@[simp] theorem setRing_poison (s : State) (die n : Nat) (v : RingWork) : (setRing s die n v).poison = s.poison := rfl
@[simp] theorem setRing_snoop (s : State) (die n : Nat) (v : RingWork) : (setRing s die n v).snoop = s.snoop := rfl
@[simp] theorem setRing_heldWrites (s : State) (die n : Nat) (v : RingWork) : (setRing s die n v).heldWrites = s.heldWrites := rfl
@[simp] theorem setRing_scrub (s : State) (die n : Nat) (v : RingWork) : (setRing s die n v).scrub = s.scrub := rfl
@[simp] theorem setRing_unusable (s : State) (die n : Nat) (v : RingWork) : (setRing s die n v).unusable = s.unusable := rfl
@[simp] theorem setRing_cores (s : State) (die n : Nat) (v : RingWork) : (setRing s die n v).cores = s.cores := rfl
@[simp] theorem setRing_sync (s : State) (die n : Nat) (v : RingWork) : (setRing s die n v).sync = s.sync := rfl
@[simp] theorem setRing_bridge (s : State) (die n : Nat) (v : RingWork) : (setRing s die n v).bridge = s.bridge := rfl
@[simp] theorem setRing_cols (s : State) (die n : Nat) (v : RingWork) : (setRing s die n v).cols = s.cols := rfl
@[simp] theorem setRing_colWaiting (s : State) (die n : Nat) (v : RingWork) : (setRing s die n v).colWaiting = s.colWaiting := rfl
@[simp] theorem setRing_colEnded (s : State) (die n : Nat) (v : RingWork) : (setRing s die n v).colEnded = s.colEnded := rfl
@[simp] theorem setRing_mcasts (s : State) (die n : Nat) (v : RingWork) : (setRing s die n v).mcasts = s.mcasts := rfl
@[simp] theorem setRing_routes (s : State) (die n : Nat) (v : RingWork) : (setRing s die n v).routes = s.routes := rfl
@[simp] theorem setRing_flowsTx (s : State) (die n : Nat) (v : RingWork) : (setRing s die n v).flowsTx = s.flowsTx := rfl
@[simp] theorem setRing_flowsRx (s : State) (die n : Nat) (v : RingWork) : (setRing s die n v).flowsRx = s.flowsRx := rfl
@[simp] theorem setRing_ports (s : State) (die n : Nat) (v : RingWork) : (setRing s die n v).ports = s.ports := rfl
@[simp] theorem setRing_host (s : State) (die n : Nat) (v : RingWork) : (setRing s die n v).host = s.host := rfl
@[simp] theorem setRing_answers (s : State) (die n : Nat) (v : RingWork) : (setRing s die n v).answers = s.answers := rfl
@[simp] theorem setRing_eph (s : State) (die n : Nat) (v : RingWork) : (setRing s die n v).eph = s.eph := rfl
@[simp] theorem setRing_events (s : State) (die n : Nat) (v : RingWork) : (setRing s die n v).events = s.events := rfl
@[simp] theorem setRing_icuTimers (s : State) (die n : Nat) (v : RingWork) : (setRing s die n v).icuTimers = s.icuTimers := rfl
@[simp] theorem setRing_comps (s : State) (die n : Nat) (v : RingWork) : (setRing s die n v).comps = s.comps := rfl
@[simp] theorem setRing_ctlCores (s : State) (die n : Nat) (v : RingWork) : (setRing s die n v).ctlCores = s.ctlCores := rfl
@[simp] theorem setRing_ctlMem (s : State) (die n : Nat) (v : RingWork) : (setRing s die n v).ctlMem = s.ctlMem := rfl
@[simp] theorem setRing_sid (s : State) (die n : Nat) (v : RingWork) : (setRing s die n v).sid = s.sid := rfl
@[simp] theorem setRing_pwr (s : State) (die n : Nat) (v : RingWork) : (setRing s die n v).pwr = s.pwr := rfl
@[simp] theorem setRing_clk (s : State) (die n : Nat) (v : RingWork) : (setRing s die n v).clk = s.clk := rfl
@[simp] theorem setRing_flt (s : State) (die n : Nat) (v : RingWork) : (setRing s die n v).flt = s.flt := rfl
@[simp] theorem setRing_tru (s : State) (die n : Nat) (v : RingWork) : (setRing s die n v).tru = s.tru := rfl
@[simp] theorem setRing_flash (s : State) (die n : Nat) (v : RingWork) : (setRing s die n v).flash = s.flash := rfl
@[simp] theorem setRing_acts (s : State) (die n : Nat) (v : RingWork) : (setRing s die n v).acts = s.acts := rfl
@[simp] theorem setRing_mgmt (s : State) (die n : Nat) (v : RingWork) : (setRing s die n v).mgmt = s.mgmt := rfl
@[simp] theorem setRing_job (s : State) (die n : Nat) (v : RingWork) : (setRing s die n v).job = s.job := rfl

/-! ### setScrub -/

@[simp] theorem setScrub_pending (s : State) (k : Nat) (v : ScrubState) : (setScrub s k v).pending = s.pending := rfl
@[simp] theorem setScrub_freeCtr (s : State) (k : Nat) (v : ScrubState) : (setScrub s k v).freeCtr = s.freeCtr := rfl
@[simp] theorem setScrub_regs (s : State) (k : Nat) (v : ScrubState) : (setScrub s k v).regs = s.regs := rfl
@[simp] theorem setScrub_mem (s : State) (k : Nat) (v : ScrubState) : (setScrub s k v).mem = s.mem := rfl
@[simp] theorem setScrub_hostMem (s : State) (k : Nat) (v : ScrubState) : (setScrub s k v).hostMem = s.hostMem := rfl
@[simp] theorem setScrub_poison (s : State) (k : Nat) (v : ScrubState) : (setScrub s k v).poison = s.poison := rfl
@[simp] theorem setScrub_snoop (s : State) (k : Nat) (v : ScrubState) : (setScrub s k v).snoop = s.snoop := rfl
@[simp] theorem setScrub_heldWrites (s : State) (k : Nat) (v : ScrubState) : (setScrub s k v).heldWrites = s.heldWrites := rfl
@[simp] theorem setScrub_unusable (s : State) (k : Nat) (v : ScrubState) : (setScrub s k v).unusable = s.unusable := rfl
@[simp] theorem setScrub_cores (s : State) (k : Nat) (v : ScrubState) : (setScrub s k v).cores = s.cores := rfl
@[simp] theorem setScrub_sync (s : State) (k : Nat) (v : ScrubState) : (setScrub s k v).sync = s.sync := rfl
@[simp] theorem setScrub_bridge (s : State) (k : Nat) (v : ScrubState) : (setScrub s k v).bridge = s.bridge := rfl
@[simp] theorem setScrub_cols (s : State) (k : Nat) (v : ScrubState) : (setScrub s k v).cols = s.cols := rfl
@[simp] theorem setScrub_colWaiting (s : State) (k : Nat) (v : ScrubState) : (setScrub s k v).colWaiting = s.colWaiting := rfl
@[simp] theorem setScrub_colEnded (s : State) (k : Nat) (v : ScrubState) : (setScrub s k v).colEnded = s.colEnded := rfl
@[simp] theorem setScrub_mcasts (s : State) (k : Nat) (v : ScrubState) : (setScrub s k v).mcasts = s.mcasts := rfl
@[simp] theorem setScrub_routes (s : State) (k : Nat) (v : ScrubState) : (setScrub s k v).routes = s.routes := rfl
@[simp] theorem setScrub_flowsTx (s : State) (k : Nat) (v : ScrubState) : (setScrub s k v).flowsTx = s.flowsTx := rfl
@[simp] theorem setScrub_flowsRx (s : State) (k : Nat) (v : ScrubState) : (setScrub s k v).flowsRx = s.flowsRx := rfl
@[simp] theorem setScrub_ports (s : State) (k : Nat) (v : ScrubState) : (setScrub s k v).ports = s.ports := rfl
@[simp] theorem setScrub_rings (s : State) (k : Nat) (v : ScrubState) : (setScrub s k v).rings = s.rings := rfl
@[simp] theorem setScrub_host (s : State) (k : Nat) (v : ScrubState) : (setScrub s k v).host = s.host := rfl
@[simp] theorem setScrub_answers (s : State) (k : Nat) (v : ScrubState) : (setScrub s k v).answers = s.answers := rfl
@[simp] theorem setScrub_eph (s : State) (k : Nat) (v : ScrubState) : (setScrub s k v).eph = s.eph := rfl
@[simp] theorem setScrub_events (s : State) (k : Nat) (v : ScrubState) : (setScrub s k v).events = s.events := rfl
@[simp] theorem setScrub_icuTimers (s : State) (k : Nat) (v : ScrubState) : (setScrub s k v).icuTimers = s.icuTimers := rfl
@[simp] theorem setScrub_comps (s : State) (k : Nat) (v : ScrubState) : (setScrub s k v).comps = s.comps := rfl
@[simp] theorem setScrub_ctlCores (s : State) (k : Nat) (v : ScrubState) : (setScrub s k v).ctlCores = s.ctlCores := rfl
@[simp] theorem setScrub_ctlMem (s : State) (k : Nat) (v : ScrubState) : (setScrub s k v).ctlMem = s.ctlMem := rfl
@[simp] theorem setScrub_sid (s : State) (k : Nat) (v : ScrubState) : (setScrub s k v).sid = s.sid := rfl
@[simp] theorem setScrub_pwr (s : State) (k : Nat) (v : ScrubState) : (setScrub s k v).pwr = s.pwr := rfl
@[simp] theorem setScrub_clk (s : State) (k : Nat) (v : ScrubState) : (setScrub s k v).clk = s.clk := rfl
@[simp] theorem setScrub_flt (s : State) (k : Nat) (v : ScrubState) : (setScrub s k v).flt = s.flt := rfl
@[simp] theorem setScrub_tru (s : State) (k : Nat) (v : ScrubState) : (setScrub s k v).tru = s.tru := rfl
@[simp] theorem setScrub_flash (s : State) (k : Nat) (v : ScrubState) : (setScrub s k v).flash = s.flash := rfl
@[simp] theorem setScrub_acts (s : State) (k : Nat) (v : ScrubState) : (setScrub s k v).acts = s.acts := rfl
@[simp] theorem setScrub_mgmt (s : State) (k : Nat) (v : ScrubState) : (setScrub s k v).mgmt = s.mgmt := rfl
@[simp] theorem setScrub_job (s : State) (k : Nat) (v : ScrubState) : (setScrub s k v).job = s.job := rfl

/-! ### setComp -/

@[simp] theorem setComp_pending (s : State) (k : Nat) (v : CompSlot) : (setComp s k v).pending = s.pending := rfl
@[simp] theorem setComp_freeCtr (s : State) (k : Nat) (v : CompSlot) : (setComp s k v).freeCtr = s.freeCtr := rfl
@[simp] theorem setComp_regs (s : State) (k : Nat) (v : CompSlot) : (setComp s k v).regs = s.regs := rfl
@[simp] theorem setComp_mem (s : State) (k : Nat) (v : CompSlot) : (setComp s k v).mem = s.mem := rfl
@[simp] theorem setComp_hostMem (s : State) (k : Nat) (v : CompSlot) : (setComp s k v).hostMem = s.hostMem := rfl
@[simp] theorem setComp_poison (s : State) (k : Nat) (v : CompSlot) : (setComp s k v).poison = s.poison := rfl
@[simp] theorem setComp_snoop (s : State) (k : Nat) (v : CompSlot) : (setComp s k v).snoop = s.snoop := rfl
@[simp] theorem setComp_heldWrites (s : State) (k : Nat) (v : CompSlot) : (setComp s k v).heldWrites = s.heldWrites := rfl
@[simp] theorem setComp_scrub (s : State) (k : Nat) (v : CompSlot) : (setComp s k v).scrub = s.scrub := rfl
@[simp] theorem setComp_unusable (s : State) (k : Nat) (v : CompSlot) : (setComp s k v).unusable = s.unusable := rfl
@[simp] theorem setComp_cores (s : State) (k : Nat) (v : CompSlot) : (setComp s k v).cores = s.cores := rfl
@[simp] theorem setComp_sync (s : State) (k : Nat) (v : CompSlot) : (setComp s k v).sync = s.sync := rfl
@[simp] theorem setComp_bridge (s : State) (k : Nat) (v : CompSlot) : (setComp s k v).bridge = s.bridge := rfl
@[simp] theorem setComp_cols (s : State) (k : Nat) (v : CompSlot) : (setComp s k v).cols = s.cols := rfl
@[simp] theorem setComp_colWaiting (s : State) (k : Nat) (v : CompSlot) : (setComp s k v).colWaiting = s.colWaiting := rfl
@[simp] theorem setComp_colEnded (s : State) (k : Nat) (v : CompSlot) : (setComp s k v).colEnded = s.colEnded := rfl
@[simp] theorem setComp_mcasts (s : State) (k : Nat) (v : CompSlot) : (setComp s k v).mcasts = s.mcasts := rfl
@[simp] theorem setComp_routes (s : State) (k : Nat) (v : CompSlot) : (setComp s k v).routes = s.routes := rfl
@[simp] theorem setComp_flowsTx (s : State) (k : Nat) (v : CompSlot) : (setComp s k v).flowsTx = s.flowsTx := rfl
@[simp] theorem setComp_flowsRx (s : State) (k : Nat) (v : CompSlot) : (setComp s k v).flowsRx = s.flowsRx := rfl
@[simp] theorem setComp_ports (s : State) (k : Nat) (v : CompSlot) : (setComp s k v).ports = s.ports := rfl
@[simp] theorem setComp_rings (s : State) (k : Nat) (v : CompSlot) : (setComp s k v).rings = s.rings := rfl
@[simp] theorem setComp_host (s : State) (k : Nat) (v : CompSlot) : (setComp s k v).host = s.host := rfl
@[simp] theorem setComp_answers (s : State) (k : Nat) (v : CompSlot) : (setComp s k v).answers = s.answers := rfl
@[simp] theorem setComp_eph (s : State) (k : Nat) (v : CompSlot) : (setComp s k v).eph = s.eph := rfl
@[simp] theorem setComp_events (s : State) (k : Nat) (v : CompSlot) : (setComp s k v).events = s.events := rfl
@[simp] theorem setComp_icuTimers (s : State) (k : Nat) (v : CompSlot) : (setComp s k v).icuTimers = s.icuTimers := rfl
@[simp] theorem setComp_ctlCores (s : State) (k : Nat) (v : CompSlot) : (setComp s k v).ctlCores = s.ctlCores := rfl
@[simp] theorem setComp_ctlMem (s : State) (k : Nat) (v : CompSlot) : (setComp s k v).ctlMem = s.ctlMem := rfl
@[simp] theorem setComp_sid (s : State) (k : Nat) (v : CompSlot) : (setComp s k v).sid = s.sid := rfl
@[simp] theorem setComp_pwr (s : State) (k : Nat) (v : CompSlot) : (setComp s k v).pwr = s.pwr := rfl
@[simp] theorem setComp_clk (s : State) (k : Nat) (v : CompSlot) : (setComp s k v).clk = s.clk := rfl
@[simp] theorem setComp_flt (s : State) (k : Nat) (v : CompSlot) : (setComp s k v).flt = s.flt := rfl
@[simp] theorem setComp_tru (s : State) (k : Nat) (v : CompSlot) : (setComp s k v).tru = s.tru := rfl
@[simp] theorem setComp_flash (s : State) (k : Nat) (v : CompSlot) : (setComp s k v).flash = s.flash := rfl
@[simp] theorem setComp_acts (s : State) (k : Nat) (v : CompSlot) : (setComp s k v).acts = s.acts := rfl
@[simp] theorem setComp_mgmt (s : State) (k : Nat) (v : CompSlot) : (setComp s k v).mgmt = s.mgmt := rfl
@[simp] theorem setComp_job (s : State) (k : Nat) (v : CompSlot) : (setComp s k v).job = s.job := rfl

/-! ### A keyed part set, then read -/

@[simp] theorem coreOf_setCore_same (s : State) (k : Nat) (v : CoreState) : coreOf (setCore s k v) k = v := by
  simp [coreOf, setCore, Map.getD, Map.find_put_same]

theorem coreOf_setCore_ne (s : State) (k k' : Nat) (v : CoreState) (h : k' ≠ k) : coreOf (setCore s k v) k' = coreOf s k' := by
  simp [coreOf, setCore, Map.getD, Map.find_put_ne _ _ _ _ h]

@[simp] theorem coreOf_wr (s : State) (r : Reg) (die unit v k : Nat) : coreOf (wr s r die unit v) k = coreOf s k := rfl

@[simp] theorem sidOf_setSid_same (s : State) (die : Nat) (v : SidState) : sidOf (setSid s die v) die = v := by
  simp [sidOf, setSid, Map.getD, Map.find_put_same]

theorem sidOf_setSid_ne (s : State) (die k' : Nat) (v : SidState) (h : k' ≠ die) : sidOf (setSid s die v) k' = sidOf s k' := by
  simp [sidOf, setSid, Map.getD, Map.find_put_ne _ _ _ _ h]

@[simp] theorem sidOf_wr (s : State) (r : Reg) (die unit v k : Nat) : sidOf (wr s r die unit v) k = sidOf s k := rfl

@[simp] theorem ephOf_setEph_same (s : State) (die : Nat) (v : Ephemeris) : ephOf (setEph s die v) die = v := by
  simp [ephOf, setEph, Map.getD, Map.find_put_same]

theorem ephOf_setEph_ne (s : State) (die k' : Nat) (v : Ephemeris) (h : k' ≠ die) : ephOf (setEph s die v) k' = ephOf s k' := by
  simp [ephOf, setEph, Map.getD, Map.find_put_ne _ _ _ _ h]

@[simp] theorem ephOf_wr (s : State) (r : Reg) (die unit v k : Nat) : ephOf (wr s r die unit v) k = ephOf s k := rfl

@[simp] theorem syncOf_setSync_same (s : State) (die : Nat) (v : SyncUnit) : syncOf (setSync s die v) die = v := by
  simp [syncOf, setSync, Map.getD, Map.find_put_same]

theorem syncOf_setSync_ne (s : State) (die k' : Nat) (v : SyncUnit) (h : k' ≠ die) : syncOf (setSync s die v) k' = syncOf s k' := by
  simp [syncOf, setSync, Map.getD, Map.find_put_ne _ _ _ _ h]

@[simp] theorem syncOf_wr (s : State) (r : Reg) (die unit v k : Nat) : syncOf (wr s r die unit v) k = syncOf s k := rfl

@[simp] theorem clkOf_setClk_same (s : State) (die : Nat) (v : ClockState) : clkOf (setClk s die v) die = v := by
  simp [clkOf, setClk, Map.getD, Map.find_put_same]

theorem clkOf_setClk_ne (s : State) (die k' : Nat) (v : ClockState) (h : k' ≠ die) : clkOf (setClk s die v) k' = clkOf s k' := by
  simp [clkOf, setClk, Map.getD, Map.find_put_ne _ _ _ _ h]

@[simp] theorem clkOf_wr (s : State) (r : Reg) (die unit v k : Nat) : clkOf (wr s r die unit v) k = clkOf s k := rfl

@[simp] theorem scrubOf_setScrub_same (s : State) (k : Nat) (v : ScrubState) : scrubOf (setScrub s k v) k = v := by
  simp [scrubOf, setScrub, Map.getD, Map.find_put_same]

theorem scrubOf_setScrub_ne (s : State) (k k' : Nat) (v : ScrubState) (h : k' ≠ k) : scrubOf (setScrub s k v) k' = scrubOf s k' := by
  simp [scrubOf, setScrub, Map.getD, Map.find_put_ne _ _ _ _ h]

@[simp] theorem scrubOf_wr (s : State) (r : Reg) (die unit v k : Nat) : scrubOf (wr s r die unit v) k = scrubOf s k := rfl

@[simp] theorem compOf_setComp_same (s : State) (k : Nat) (v : CompSlot) : compOf (setComp s k v) k = v := by
  simp [compOf, setComp, Map.getD, Map.find_put_same]

theorem compOf_setComp_ne (s : State) (k k' : Nat) (v : CompSlot) (h : k' ≠ k) : compOf (setComp s k v) k' = compOf s k' := by
  simp [compOf, setComp, Map.getD, Map.find_put_ne _ _ _ _ h]

@[simp] theorem compOf_wr (s : State) (r : Reg) (die unit v k : Nat) : compOf (wr s r die unit v) k = compOf s k := rfl

@[simp] theorem eventsOf_setEvents_same (s : State) (die : Nat) (v : List EventRec) : eventsOf (setEvents s die v) die = v := by
  simp [eventsOf, setEvents, Map.getD, Map.find_put_same]

theorem eventsOf_setEvents_ne (s : State) (die k' : Nat) (v : List EventRec) (h : k' ≠ die) : eventsOf (setEvents s die v) k' = eventsOf s k' := by
  simp [eventsOf, setEvents, Map.getD, Map.find_put_ne _ _ _ _ h]

@[simp] theorem eventsOf_wr (s : State) (r : Reg) (die unit v k : Nat) : eventsOf (wr s r die unit v) k = eventsOf s k := rfl

@[simp] theorem rd_hostWrite (s : State) (addr : Nat) (data : Bytes) (r : Reg) (d u : Nat) : rd (hostWrite s addr data) r d u = rd s r d u := rfl
@[simp] theorem rd_setSid (s : State) (die : Nat) (v : SidState) (r : Reg) (d u : Nat) : rd (setSid s die v) r d u = rd s r d u := rfl
@[simp] theorem rd_setEph (s : State) (die : Nat) (v : Ephemeris) (r : Reg) (d u : Nat) : rd (setEph s die v) r d u = rd s r d u := rfl
@[simp] theorem rd_setEvents (s : State) (die : Nat) (l : List EventRec) (r : Reg) (d u : Nat) : rd (setEvents s die l) r d u = rd s r d u := rfl
@[simp] theorem rd_setCore (s : State) (k : Nat) (v : CoreState) (r : Reg) (d u : Nat) : rd (setCore s k v) r d u = rd s r d u := rfl
@[simp] theorem rd_setSync (s : State) (die : Nat) (v : SyncUnit) (r : Reg) (d u : Nat) : rd (setSync s die v) r d u = rd s r d u := rfl
@[simp] theorem rd_setCol (s : State) (k : Nat) (v : Collective) (r : Reg) (d u : Nat) : rd (setCol s k v) r d u = rd s r d u := rfl
@[simp] theorem rd_setFlowTx (s : State) (k : Nat) (v : FlowTx) (r : Reg) (d u : Nat) : rd (setFlowTx s k v) r d u = rd s r d u := rfl
@[simp] theorem rd_setFlowRx (s : State) (k : Nat) (v : FlowRx) (r : Reg) (d u : Nat) : rd (setFlowRx s k v) r d u = rd s r d u := rfl
@[simp] theorem rd_setPort (s : State) (die p : Nat) (v : PortState) (r : Reg) (d u : Nat) : rd (setPort s die p v) r d u = rd s r d u := rfl
@[simp] theorem rd_setClk (s : State) (die : Nat) (v : ClockState) (r : Reg) (d u : Nat) : rd (setClk s die v) r d u = rd s r d u := rfl
@[simp] theorem rd_setRing (s : State) (die n : Nat) (v : RingWork) (r : Reg) (d u : Nat) : rd (setRing s die n v) r d u = rd s r d u := rfl
@[simp] theorem rd_setScrub (s : State) (k : Nat) (v : ScrubState) (r : Reg) (d u : Nat) : rd (setScrub s k v) r d u = rd s r d u := rfl
@[simp] theorem rd_setComp (s : State) (k : Nat) (v : CompSlot) (r : Reg) (d u : Nat) : rd (setComp s k v) r d u = rd s r d u := rfl
end Sys2Proof.Machine
end

