-- ==== Sys2Proof/Tests/Slice0.lean ====
section
/-! SUPPORT. Tests: a command refused by each check of well-formedness, and for each statement a state and operands that meet
its hypotheses, with the effect that the manual gives there. -/

set_option Elab.async false
set_option linter.unusedVariables false

namespace Sys2Proof.Tests

open Sys2Proof.Machine

/-- The command answers a next state that passes the check. -/
def after (o : Host.Outcome State Fault Refusal) (p : State → Bool) : Bool :=
  match o with
  | .next t => p t
  | _ => false

/-- A module that has power and whose host reaches it. -/
def up : State :=
  let s := { State.reset with host := { State.reset.host with perstN := true, linkUp := true, rdybsyN := true } }
  wf s F.hifStatus_ready 0 0 1

/-- The same in Active, with a job running. -/
def busy : State := wf (wf up F.pwrStatus_state 0 0 0) F.jobStatus_state 0 0 2

/-- A ring of a die, active with 16 entries. -/
def ringOn (s : State) (die n : Nat) : State := wf (wf s F.hifRingSize_entries die n 16) F.hifRingState_state die n 1

/-- Pins at rest. -/
def pins : PinLevels := ⟨5, true, true, true, true⟩

/-- Every lane trained. -/
def lanes : List (BitVec 8) := List.replicate 32 255

def core0 : CoreRef := ⟨0, 0⟩

/-! ## Well-formedness -/

/-- A packet of a kind. -/
def packet (kind : Nat) : Packet := ⟨kind, 0, 0, 0, 0, 0, 0, 0, 0, 0, 0, false, false, 0, 0, 0, []⟩

theorem test_wf_por : (.por pins [] : Instr).wellFormed = false := by decide +kernel
theorem test_wf_perstAssert : (.perstAssert [] : Instr).wellFormed = false := by decide +kernel
theorem test_wf_darkWake : (.darkWake [] : Instr).wellFormed = false := by decide +kernel
theorem test_wf_wake : (.wake [1] : Instr).wellFormed = false := by decide +kernel
theorem test_wf_jobBegin : (.jobBegin [] true : Instr).wellFormed = false := by decide +kernel
theorem test_wf_supplyRestart : (.supplyRestart pins [] : Instr).wellFormed = false := by decide +kernel
theorem test_wf_linkUp_rate : (.linkUp 5 1 true : Instr).wellFormed = false := by decide +kernel
theorem test_wf_linkUp_flit : (.linkUp 4 1 false : Instr).wellFormed = false := by decide +kernel
theorem test_wf_linkUp_width : (.linkUp 1 3 false : Instr).wellFormed = false := by decide +kernel
theorem test_wf_cxlMemRead : (.cxlMemRead 32 .clean .clean : Instr).wellFormed = false := by decide +kernel
theorem test_wf_cxlMemWrite_line : (.cxlMemWrite (384 * 1152 * 1048576) ⟨List.replicate 64 0, .none⟩ : Instr).wellFormed = false := by decide +kernel
theorem test_wf_cxlMemWrite_length : (.cxlMemWrite 0 ⟨[], .none⟩ : Instr).wellFormed = false := by decide +kernel
theorem test_wf_registerWrite_master : (.registerWrite ⟨.debug, 0⟩ 0 4 ⟨0, true, .none, none⟩ : Instr).wellFormed = false := by decide +kernel
theorem test_wf_registerWrite_size : (.registerWrite ⟨.host, 0⟩ 0 2 ⟨0, true, .none, none⟩ : Instr).wellFormed = false := by decide +kernel
theorem test_wf_registerWrite_aligned : (.registerWrite ⟨.host, 0⟩ 4 8 ⟨0, true, .none, none⟩ : Instr).wellFormed = false := by decide +kernel
theorem test_wf_registerWrite_offset : (.registerWrite ⟨.host, 0⟩ 67108864 4 ⟨0, true, .none, none⟩ : Instr).wellFormed = false := by decide +kernel
theorem test_wf_registerWrite_value : (.registerWrite ⟨.host, 0⟩ 0 4 ⟨4294967296, true, .none, none⟩ : Instr).wellFormed = false := by decide +kernel
theorem test_wf_unassignedAccess_master : (.unassignedAccess ⟨.firmware, 0⟩ true true 0 4 0 : Instr).wellFormed = false := by decide +kernel
theorem test_wf_unassignedAccess_size : (.unassignedAccess ⟨.host, 0⟩ false true 0 65 0 : Instr).wellFormed = false := by decide +kernel
theorem test_wf_unassignedAccess_offset : (.unassignedAccess ⟨.host, 0⟩ true true 524288 4 0 : Instr).wellFormed = false := by decide +kernel
theorem test_wf_unassignedAccess_value : (.unassignedAccess ⟨.host, 0⟩ false true 0 1 256 : Instr).wellFormed = false := by decide +kernel
theorem test_wf_epochCommit_master : (.epochCommit ⟨.debug, 0⟩ 0 16 : Instr).wellFormed = false := by decide +kernel
theorem test_wf_epochCommit_bit : (.epochCommit ⟨.host, 0⟩ 0 0 : Instr).wellFormed = false := by decide +kernel
theorem test_wf_epochSet_master : (.epochSet ⟨.debug, 0⟩ 0 0 : Instr).wellFormed = false := by decide +kernel
theorem test_wf_epochSet_bit : (.epochSet ⟨.host, 0⟩ 0 16 : Instr).wellFormed = false := by decide +kernel
theorem test_wf_sidSet : (.sidSet ⟨.presence, 0⟩ 0 0 : Instr).wellFormed = false := by decide +kernel
theorem test_wf_icuPendWrite : (.icuPendWrite ⟨.debug, 0⟩ 0 0 0 0 : Instr).wellFormed = false := by decide +kernel
theorem test_wf_icuMaskWrite : (.icuMaskWrite ⟨.debug, 0⟩ 0 0 0 : Instr).wellFormed = false := by decide +kernel
theorem test_wf_icuTargetWrite : (.icuTargetWrite ⟨.debug, 0⟩ 0 0 0 : Instr).wellFormed = false := by decide +kernel
theorem test_wf_companionStart : (.companionStart ⟨.debug, 0⟩ 0 ⟨0, .none⟩ : Instr).wellFormed = false := by decide +kernel
theorem test_wf_companionStop : (.companionStop ⟨.debug, 0⟩ 0 0 : Instr).wellFormed = false := by decide +kernel
theorem test_wf_identityUnit : (.identityUnit .firmware : Instr).wellFormed = false := by decide +kernel
theorem test_wf_identityAlias : (.identityAlias .firmware : Instr).wellFormed = false := by decide +kernel
theorem test_wf_attest : (.attest .firmware 0 : Instr).wellFormed = false := by decide +kernel
theorem test_wf_ledgerRead_master : (.ledgerRead .firmware 0 : Instr).wellFormed = false := by decide +kernel
theorem test_wf_ledgerRead_index : (.ledgerRead .host 4294967296 : Instr).wellFormed = false := by decide +kernel
theorem test_wf_updateBegin_master : (.updateBegin .debug 0 0 : Instr).wellFormed = false := by decide +kernel
theorem test_wf_updateBegin_length : (.updateBegin .host 4294967296 0 : Instr).wellFormed = false := by decide +kernel
theorem test_wf_updateChunk_master : (.updateChunk .debug 0 0 (List.replicate 4096 0) : Instr).wellFormed = false := by decide +kernel
theorem test_wf_updateChunk_index : (.updateChunk .host 4294967296 0 (List.replicate 4096 0) : Instr).wellFormed = false := by decide +kernel
theorem test_wf_updateChunk_length : (.updateChunk .host 0 0 [] : Instr).wellFormed = false := by decide +kernel
theorem test_wf_updateQuery_master : (.updateQuery .debug 0 : Instr).wellFormed = false := by decide +kernel
theorem test_wf_updateQuery_index : (.updateQuery .host 4294967296 : Instr).wellFormed = false := by decide +kernel
theorem test_wf_updateAbandon : (.updateAbandon ⟨.debug, none⟩ : Instr).wellFormed = false := by decide +kernel
theorem test_wf_updateAbandon_rival : (.updateAbandon ⟨.host, some .debug⟩ : Instr).wellFormed = false := by decide +kernel
theorem test_wf_updateEndTrial_rival : (.updateEndTrial ⟨.host, some .debug⟩ : Instr).wellFormed = false := by decide +kernel
theorem test_wf_updateActivate_master : (.updateActivate ⟨.debug, none⟩ 0 false : Instr).wellFormed = false := by decide +kernel
theorem test_wf_updateActivate_when : (.updateActivate ⟨.host, none⟩ 256 false : Instr).wellFormed = false := by decide +kernel
theorem test_wf_updateActivate_rival : (.updateActivate ⟨.host, some .debug⟩ 0 false : Instr).wellFormed = false := by decide +kernel
theorem test_wf_updateEndTrial : (.updateEndTrial ⟨.debug, none⟩ : Instr).wellFormed = false := by decide +kernel
theorem test_wf_setOwnerLock : (.setOwnerLock .debug : Instr).wellFormed = false := by decide +kernel
theorem test_wf_clearOwnerLock : (.clearOwnerLock .debug : Instr).wellFormed = false := by decide +kernel
theorem test_wf_enrollOwnerKey_master : (.enrollOwnerKey .debug (List.replicate 2592 0) : Instr).wellFormed = false := by decide +kernel
theorem test_wf_enrollOwnerKey_length : (.enrollOwnerKey .host [] : Instr).wellFormed = false := by decide +kernel
theorem test_wf_debugUnlock : (.debugUnlock .debug : Instr).wellFormed = false := by decide +kernel
theorem test_wf_rebindIdentity : (.rebindIdentity .debug : Instr).wellFormed = false := by decide +kernel
theorem test_wf_factoryReset : (.factoryReset .debug : Instr).wellFormed = false := by decide +kernel
theorem test_wf_doeDiscovery : (.doeDiscovery 256 : Instr).wellFormed = false := by decide +kernel
theorem test_wf_ringEnable_low : (.ringEnable 0 0 ⟨15, true⟩ : Instr).wellFormed = false := by decide +kernel
theorem test_wf_ringEnable_high : (.ringEnable 0 0 ⟨65537, true⟩ : Instr).wellFormed = false := by decide +kernel
theorem test_wf_descriptorFetch : (.descriptorFetch 0 0 (some []) : Instr).wellFormed = false := by decide +kernel
theorem test_wf_replay_row : (.replay core0 ⟨[⟨4, 0, 0, none, false, false, none⟩], [], .none, []⟩ : Instr).wellFormed = false := by decide +kernel
theorem test_wf_replay_poisoned : (.replay core0 ⟨[⟨1, 0, 0, none, true, false, none⟩], [], .none, []⟩ : Instr).wellFormed = false := by decide +kernel
theorem test_wf_replay_addr : (.replay core0 ⟨[⟨1, 0, 0, none, false, false, some 0⟩], [], .none, []⟩ : Instr).wellFormed = false := by decide +kernel
theorem test_wf_flitReceive : (.flitReceive 0 0 ⟨[], []⟩ : Instr).wellFormed = false := by decide +kernel
theorem test_wf_flitReceive_lanes : (.flitReceive 0 0 ⟨List.replicate 256 0, List.replicate 9 0⟩ : Instr).wellFormed = false := by decide +kernel
theorem test_wf_replay_inPause : (.replay core0 ⟨[], [], .none, [(0, ⟨4, 0, 0, none, false, false, none⟩)]⟩ : Instr).wellFormed = false := by decide +kernel
theorem test_wf_registerWrite_sender : (.registerWrite ⟨.host, 1⟩ 0 4 ⟨0, true, .none, none⟩ : Instr).wellFormed = false := by decide +kernel
theorem test_wf_registerWrite_timer : (.registerWrite ⟨.host, 0⟩ 0 4 ⟨0, true, .none, some 0⟩ : Instr).wellFormed = false := by decide +kernel
theorem test_wf_creditFlit : (.creditFlit 0 0 [] : Instr).wellFormed = false := by decide +kernel
theorem test_wf_packet_kind : (.dataPacketReceive 0 0 { packet 0 with kind := 16 } [] MemFaults.none : Instr).wellFormed = false := by decide +kernel
theorem test_wf_packet_vc : (.dataPacketReceive 0 0 { packet 0 with vc := 8 } [] MemFaults.none : Instr).wellFormed = false := by decide +kernel
theorem test_wf_packet_epoch : (.dataPacketReceive 0 0 { packet 0 with epoch := 16 } [] MemFaults.none : Instr).wellFormed = false := by decide +kernel
theorem test_wf_packet_dst : (.dataPacketReceive 0 0 { packet 0 with dst := 131072 } [] MemFaults.none : Instr).wellFormed = false := by decide +kernel
theorem test_wf_packet_src : (.dataPacketReceive 0 0 { packet 0 with src := 131072 } [] MemFaults.none : Instr).wellFormed = false := by decide +kernel
theorem test_wf_packet_flow : (.dataPacketReceive 0 0 { packet 0 with flow := 256 } [] MemFaults.none : Instr).wellFormed = false := by decide +kernel
theorem test_wf_packet_fseq : (.dataPacketReceive 0 0 { packet 0 with fseq := 65536 } [] MemFaults.none : Instr).wellFormed = false := by decide +kernel
theorem test_wf_packet_hops : (.dataPacketReceive 0 0 { packet 0 with hops := 4 } [] MemFaults.none : Instr).wellFormed = false := by decide +kernel
theorem test_wf_packet_sel0 : (.dataPacketReceive 0 0 { packet 0 with sel0 := 256 } [] MemFaults.none : Instr).wellFormed = false := by decide +kernel
theorem test_wf_packet_sel1 : (.dataPacketReceive 0 0 { packet 0 with sel1 := 256 } [] MemFaults.none : Instr).wellFormed = false := by decide +kernel
theorem test_wf_packet_sel2 : (.dataPacketReceive 0 0 { packet 0 with sel2 := 256 } [] MemFaults.none : Instr).wellFormed = false := by decide +kernel
theorem test_wf_packet_aux : (.dataPacketReceive 0 0 { packet 0 with aux := 262144 } [] MemFaults.none : Instr).wellFormed = false := by decide +kernel
theorem test_wf_packet_stamp : (.dataPacketReceive 0 0 { packet 0 with stamp := 18446744073709551616 } [] MemFaults.none : Instr).wellFormed = false := by decide +kernel
theorem test_wf_packet_word : (.dataPacketReceive 0 0 { packet 0 with word := 18446744073709551616 } [] MemFaults.none : Instr).wellFormed = false := by decide +kernel
theorem test_wf_packet_payload : (.dataPacketReceive 0 0 { packet 0 with payload := List.replicate 4097 0 } [] MemFaults.none : Instr).wellFormed = false := by decide +kernel
theorem test_wf_mcastReceive : (.mcastReceive 0 0 { packet 0 with vc := 8 } ⟨⟨0, 0, 0, 0, 0, 0⟩, .none⟩ : Instr).wellFormed = false := by decide +kernel
theorem test_wf_signalPacketReceive : (.signalPacketReceive 0 0 { packet 0 with vc := 8 } : Instr).wellFormed = false := by decide +kernel
theorem test_wf_abortReceive : (.abortReceive 0 0 { packet 0 with vc := 8 } : Instr).wellFormed = false := by decide +kernel
theorem test_wf_ackReceive : (.ackReceive 0 0 { packet 0 with vc := 8 } 0 : Instr).wellFormed = false := by decide +kernel
theorem test_wf_mcastAckReceive : (.mcastAckReceive 0 0 { packet 0 with vc := 8 } : Instr).wellFormed = false := by decide +kernel
theorem test_wf_refuseReceive : (.refuseReceive 0 0 { packet 0 with vc := 8 } : Instr).wellFormed = false := by decide +kernel
theorem test_wf_fencedReceive : (.fencedReceive 0 0 { packet 0 with vc := 8 } 0 : Instr).wellFormed = false := by decide +kernel
theorem test_wf_mgmtPacketReceive : (.mgmtPacketReceive 0 0 { packet 0 with vc := 8 } : Instr).wellFormed = false := by decide +kernel
theorem test_wf_mgmtStatus : (.mgmtStatus (List.replicate 8209 0) : Instr).wellFormed = false := by decide +kernel
theorem test_wf_mgmtSetCap : (.mgmtSetCap (List.replicate 8209 0) : Instr).wellFormed = false := by decide +kernel
theorem test_wf_mgmtNap : (.mgmtNap (List.replicate 8209 0) : Instr).wellFormed = false := by decide +kernel
theorem test_wf_mgmtDark : (.mgmtDark (List.replicate 8209 0) : Instr).wellFormed = false := by decide +kernel
theorem test_wf_mgmtWake : (.mgmtWake (List.replicate 8209 0) : Instr).wellFormed = false := by decide +kernel
theorem test_wf_mgmtJobKill : (.mgmtJobKill (List.replicate 8209 0) : Instr).wellFormed = false := by decide +kernel
theorem test_wf_mgmtTelemetry : (.mgmtTelemetry (List.replicate 8209 0) : Instr).wellFormed = false := by decide +kernel
theorem test_wf_mgmtObject : (.mgmtObject (List.replicate 8209 0) ⟨false, none⟩ : Instr).wellFormed = false := by decide +kernel
theorem test_wf_mgmtObject_rival : (.mgmtObject [] ⟨false, some .debug⟩ : Instr).wellFormed = false := by decide +kernel
theorem test_wf_accepts : (Instr.dataPacketReceive 0 0 (packet 3) [] MemFaults.none).wellFormed = true := by decide +kernel

/-! ## Resets, the queue, the link -/

theorem test_step_front : ((step { up with pending := [.getdcr, .getbcr] }) matches .next _) = true ∧
    after (step { up with pending := [.getdcr, .getbcr] }) (fun t => decide (t.pending = [.getbcr])) = true := by decide +kernel

theorem test_reset_canonical : MemInv State.reset ∧ RegInv State.reset := by
  unfold MemInv RegInv; decide +kernel

theorem test_step_keeps_memory : MemInv up ∧ RegInv up ∧ after (step up) (fun t => decide (Memory.wf t.mem = true)) = true := by
  unfold MemInv RegInv; decide +kernel

theorem test_idle_tick : up.pending = [] ∧ powerState up ≠ pwrNap ∧ powerState up ≠ pwrDark ∧ (sidOf up 0).slew = 0 ∧
    (sidOf up 1).slew = 0 ∧ (sidOf up 0).rate = 0 ∧ (sidOf up 1).rate = 0 ∧ (sidOf up 0).rateAcc = 0 ∧ (sidOf up 1).rateAcc = 0 ∧
    up.bridge = [] ∧ up.cores = [] ∧ up.ports = [] ∧
    after (step up) (fun t => decide (now t 0 = now up 0 + 1 ∧ now t 1 = now up 1 + 1 ∧ t.pending = [])) = true := by
  decide +kernel

/-- Asleep in Nap. -/
def napping : State := wf up F.pwrStatus_state 0 0 pwrNap

theorem test_idle_tick_nap : napping.pending = [] ∧ powerState napping = pwrNap ∧ napping.bridge = [] ∧
    after (step (wr napping .sidCount 1 0 7)) (fun t => decide (now t 0 = 160 ∧ now t 1 = 160)) = true := by decide +kernel

theorem test_por : RegInv busy ∧ after (exec (.por pins lanes) busy) (fun t => decide (powerState t = pwrIdle ∧
    rf t F.clkStatus_freqMhz 0 0 = 500 ∧ jobState t = 0 ∧ t.mem = [] ∧ t.host.perstN = true ∧ t.host.rdybsyN = false)) = true := by
  unfold RegInv; decide +kernel

theorem test_perstAssert : RegInv busy ∧ busy.host.powered = true ∧ busy.host.perstN = true ∧ powerState busy ≠ pwrDark ∧
    after (exec (.perstAssert lanes) busy) (fun t => decide (powerState t = pwrIdle ∧ rf t F.clkStatus_freqMhz 1 0 = 500 ∧
      jobState t = 0 ∧ t.host.perstN = false ∧ t.host.linkUp = false)) = true := by
  unfold RegInv; decide +kernel

def darkened : State := wf up F.pwrStatus_state 0 0 3

theorem test_perstAssert_dark : darkened.host.powered = true ∧ darkened.host.perstN = true ∧ powerState darkened = pwrDark ∧
    after (exec (.perstAssert lanes) darkened) (fun t => decide (t.host.darkPerst = true ∧ t.regs = darkened.regs)) = true := by
  decide +kernel

theorem test_perstDeassert : State.reset.host.powered = true ∧ State.reset.host.perstN = false ∧
    after (exec (.perstDeassert ⟨9, 25⟩) State.reset) (fun t => decide (t.host.perstN = true ∧
      rf t F.ctlDieInfo_moduleLocation 0 0 = 9 ∧ rf t F.ctlDieInfo_moduleLocation 1 0 = 9)) = true ∧
    after (exec (.perstDeassert ⟨9, 24⟩) State.reset) (fun t => decide (t.host.perstN = true ∧
      rf t F.ctlDieInfo_moduleLocation 0 0 = rf State.reset F.icuInputState_loc 0 0)) = true := by decide +kernel

theorem test_perstDeassert_dark :
    let s := { darkened with host := { darkened.host with perstN := false } }
    s.host.powered = true ∧ s.host.perstN = false ∧ powerState s = pwrDark ∧
    after (exec (.perstDeassert ⟨9, 25⟩) s) (fun t => decide (t.host.perstN = true ∧ t.regs = s.regs ∧ t.host.darkLoc = some 9)) = true := by
  decide +kernel

theorem test_supplyRestart :
    let s := { busy with host := { busy.host with powered := false } }
    RegInv s ∧ s.host.powered = false ∧ after (exec (.supplyRestart pins lanes) s) (fun t => decide (powerState t = pwrIdle ∧ t.mem = [] ∧
      t.host.powered = true ∧ t.host.rdybsyN = false)) = true := by
  unfold RegInv; decide +kernel

theorem test_linkReset : RegInv (ringOn busy 1 34) ∧ busy.host.powered = true ∧ busy.host.linkUp = true ∧
    after (exec .linkReset (ringOn busy 1 34)) (fun t => decide (t.host.linkUp = false ∧ t.host.rdybsyN = true ∧
      ringState t 1 34 = ringDisabled ∧ ringSize t 1 34 = 0 ∧ t.host.attention = busy.host.attention ∧ jobState t = 2)) = true := by
  unfold RegInv; decide +kernel

def unlinked : State := { up with host := { up.host with linkUp := false, rdybsyN := false } }

theorem test_linkUp : unlinked.host.powered = true ∧ unlinked.host.perstN = true ∧ unlinked.host.linkUp = false ∧
    powerState unlinked ≠ pwrDark ∧
    after (exec (.linkUp 4 2 true) unlinked) (fun t => decide (t.host.linkUp = true ∧ t.host.opened = true ∧ rf t F.hifStatus_rate 0 0 = 4 ∧
      rf t F.hifStatus_width 0 0 = 2 ∧ rf t F.hifStatus_flit256 0 0 = 1 ∧ rf t F.hifStatus_ready 0 0 = 1 ∧
      t.host.rdybsyN = true)) = true := by decide +kernel

def restarting : State := { up with host := { up.host with restart := some .activation, rdybsyN := false } }

theorem test_restartComplete : restarting.host.restart ≠ none ∧
    after (exec .restartComplete { restarting with host := { restarting.host with opened := true } })
      (fun t => decide (t.host.restart = none ∧ t.host.rdybsyN = true)) = true ∧
    after (exec .restartComplete { restarting with host := { restarting.host with opened := false } })
      (fun t => decide (t.host.restart = none ∧ t.host.rdybsyN = false)) = true := by
  decide +kernel

theorem test_cxlReset : memReaches up = true ∧ jobRuns up = false ∧ up.host.restart = none ∧
    after (exec .cxlReset up) (fun t => decide (t.host.restart = some .device ∧ t.ctlCores = [] ∧ t.host.rdybsyN = false ∧ t.host.linkUp = true)) = true := by
  decide +kernel

theorem test_cxlReset_job : memReaches busy = true ∧ jobRuns busy = true ∧
    after (exec .cxlReset busy) (fun t => decide (t.host.linkUp = false ∧ t.host.restart = none ∧ jobState t = 2)) = true := by
  decide +kernel

theorem test_d3hotEntry : after (exec .d3hotEntry up) (fun t => decide (t.host.d3hot = true ∧ powerState t = powerState up)) = true := by
  decide +kernel

theorem test_configurationRequest : after (exec .configurationRequest up) (fun t => decide (t.answers.config = some true)) = true ∧
    after (exec .configurationRequest { State.reset with host := { State.reset.host with perstN := true } })
      (fun t => decide (t.answers.config = some false)) = true := by decide +kernel

/-! ## Records and rings -/

def full : State := setEph up 0 ⟨List.replicate 8192 ⟨1, true, 0, 0, 0, 0, 0, 0⟩, none, 0⟩

theorem test_record_kept : (ephOf up 0).lostFirst = none ∧ ephTakes (ephOf up 0).held.length 1 1 = true ∧
    ringHasRoom up 0 34 = false ∧ (ephOf (emit up 0 1 0 2 3 4) 0).held = [⟨1, true, 0, 0, 0, 2, 3, 4⟩] ∧
    rd (emit up 0 1 0 2 3 4) .ephSeq 0 0 = 1 := by decide +kernel

theorem test_record_written : ephTakes (ephOf (ringOn up 0 34) 0).held.length 1 1 = true ∧ (ephOf (ringOn up 0 34) 0).held = [] ∧
    ringHasRoom (ringOn up 0 34) 0 34 = true ∧ ringHead (emit (ringOn up 0 34) 0 1 0 2 3 4) 0 34 = 1 ∧
    Map.getD (emit (ringOn up 0 34) 0 1 0 2 3 4).hostMem 0 0 = 1 := by decide +kernel

theorem test_record_lost : (ephOf full 0).lostFirst = none ∧ ephTakes (ephOf full 0).held.length 1 1 = false ∧
    (ephOf (emit full 0 1 0 2 3 4) 0).lostFirst = some 0 ∧ rd (emit full 0 1 0 2 3 4) .ephLostCount 0 0 = 1 := by decide +kernel

theorem test_ring_base_taken : writeActs up hostSender 1 = true ∧ ringSize up 1 7 = 0 ∧
    after (exec (.registerWrite ⟨.host, 0⟩ (regOffset .hifRingBase 1 7) 8 ⟨0x3000, true, .none, none⟩) up) (fun t => decide (rd t .hifRingBase 1 7 = 0x3000)) = true ∧
    after (exec (.registerWrite ⟨.host, 0⟩ (regOffset .hifRingCpl 1 7) 8 ⟨0x3000, true, .none, none⟩) up) (fun t => decide (rd t .hifRingCpl 1 7 = 0x3000)) = true := by
  decide +kernel

theorem test_ring_base_kept : ringSize (ringOn up 1 7) 1 7 ≠ 0 ∧ writeActs (ringOn up 1 7) hostSender 1 = true ∧
    after (exec (.registerWrite ⟨.host, 0⟩ (regOffset .hifRingBase 1 7) 8 ⟨0x3000, true, .none, none⟩) (ringOn up 1 7)) (fun t => decide (rd t .hifRingBase 1 7 = 0 ∧
      rf t F.hifConfigErrCount_count 1 0 = 1 ∧ rd t .ephSeq 1 0 ≠ 0)) = true ∧
    after (exec (.registerWrite ⟨.host, 0⟩ (regOffset .hifRingCpl 1 7) 8 ⟨0x3000, true, .none, none⟩) (ringOn up 1 7)) (fun t => decide (rd t .hifRingCpl 1 7 = 0 ∧
      rf t F.hifConfigErrCount_count 1 0 = 1 ∧ rd t .ephSeq 1 0 ≠ 0)) = true := by
  decide +kernel

theorem test_record_ring_has_no_completions : 33 ≤ (34 : Fin 35).val ∧
    after (exec (.registerWrite ⟨.host, 0⟩ (regOffset .hifRingCpl 0 34) 8 ⟨0x3000, true, .none, none⟩) up) (fun t => decide (rd t .hifRingCpl 0 34 = 0)) = true := by
  decide +kernel

theorem test_ringEnable : writeActs up hostSender 0 = true ∧ ringSize up 0 34 = 0 ∧ ringState up 0 34 = ringDisabled ∧ ringSizeOk 16 = true ∧
    ringSizeOk 65536 = true ∧
    after (exec (.ringEnable 0 34 ⟨65536, true⟩) up) (fun t => decide (ringSize t 0 34 = 65536 ∧ ringState t 0 34 = ringActive ∧ ringHead t 0 34 = 0)) = true := by
  decide +kernel

/-- A report is owed for the job's begin. -/
def reporting : State := { up with host := { up.host with reportOwed := some ⟨4096, [1, 2]⟩ } }

theorem test_ringEnable_report : ringSize reporting 0 32 = 0 ∧ ringState reporting 0 32 = ringDisabled ∧ reporting.host.reportOwed ≠ none ∧
    after (exec (.ringEnable 0 32 ⟨16, true⟩) reporting) (fun t => decide (t.host.reportOwed = none ∧ Map.getD t.hostMem 4096 0 = 1)) = true ∧
    after (exec (.ringEnable 0 32 ⟨16, false⟩) reporting) (fun t => decide (ringState t 0 32 = ringFaulted ∧
      t.host.reportOwed = reporting.host.reportOwed ∧ t.hostMem = [])) = true := by decide +kernel

theorem test_ringEnable_refused : ringSizeOk 17 = false ∧
    after (exec (.ringEnable 1 0 ⟨17, true⟩) up) (fun t => decide (ringSize t 1 0 = 0 ∧ rf t F.hifConfigErrCount_count 1 0 = 1)) = true ∧
    after (exec (.ringEnable 0 0 ⟨32, true⟩) (ringOn up 0 0)) (fun t => decide (ringSize t 0 0 = 16 ∧ rf t F.hifConfigErrCount_count 0 0 = 1)) = true := by
  decide +kernel

theorem test_ringDisable : ringSize (ringOn up 0 0) 0 0 ≠ 0 ∧
    after (exec (.ringDisable 0 0) (ringOn up 0 0)) (fun t => decide (ringSize t 0 0 = 0 ∧ ringState t 0 0 = ringDisabled)) = true ∧
    after (exec (.ringDisable 0 0) (setRing (ringOn up 0 0) 0 0 ⟨[⟨0, [], false⟩], [], [], [], 0, 0, 16, false⟩))
      (fun t => decide (ringState t 0 0 = ringDraining)) = true := by decide +kernel

theorem test_doorbell_repeats : writeReaches (ringOn up 0 0) hostSender 0 = true ∧ ringState (ringOn up 0 0) 0 0 = ringActive ∧
    after (exec (.doorbell 0 0 0) (ringOn up 0 0)) (fun t => decide (ringTail t 0 0 = 0 ∧ rf t F.hifDbErrCount_count 0 0 = 0)) = true := by
  decide +kernel

theorem test_doorbell_moves : sub32 16 (ringTail (ringOn up 0 0) 0 0) < 2 ^ 31 ∧ sub32 16 (ringDone (ringOn up 0 0) 0 0) ≤ ringSize (ringOn up 0 0) 0 0 ∧
    after (exec (.doorbell 0 0 16) (ringOn up 0 0)) (fun t => decide (ringTail t 0 0 = 16)) = true := by decide +kernel

theorem test_doorbell_refused : ringSize (ringOn up 0 0) 0 0 < sub32 17 (ringDone (ringOn up 0 0) 0 0) ∧
    after (exec (.doorbell 0 0 17) (ringOn up 0 0)) (fun t => decide (ringTail t 0 0 = 0 ∧ rf t F.hifDbErrCount_count 0 0 = 1 ∧
      eventsOf t 0 = [⟨1, 0, 17, 0, 0⟩])) = true ∧
    after (exec (.doorbell 0 0 1) up) (fun t => decide (ringTail t 0 0 = 0 ∧ rf t F.hifDbErrCount_count 0 0 = 1)) = true ∧
    after (exec (.doorbell 0 0 0x100000000) (ringOn up 0 0)) (fun t => decide (rf t F.hifDbErrCount_count 0 0 = 1)) = true := by
  decide +kernel

def headed (n h : Nat) : State := wr (ringOn up 0 n) .hifRingHead 0 n h

theorem test_consumerDoorbell : writeReaches (headed 33 4) hostSender 0 = true ∧ ringState (headed 33 4) 0 33 = ringActive ∧
    sub32 4 (ringTail (headed 33 4) 0 33) < 2 ^ 31 ∧ sub32 (ringHead (headed 33 4) 0 33) 4 < 2 ^ 31 ∧
    sub32 (ringHead (headed 34 4) 0 34) 4 + 2 < 2 ^ 31 ∧
    after (exec (.consumerDoorbell 0 false 4) (headed 33 4)) (fun t => decide (ringTail t 0 33 = 4)) = true ∧
    after (exec (.consumerDoorbell 0 true 4) (headed 34 4)) (fun t => decide (ringTail t 0 34 = 4)) = true := by decide +kernel

theorem test_consumerDoorbell_refused : 2 ^ 31 ≤ sub32 (ringHead (headed 33 4) 0 33) 5 ∧
    after (exec (.consumerDoorbell 0 false 5) (headed 33 4)) (fun t => decide (ringTail t 0 33 = 0 ∧ rf t F.hifDbErrCount_count 0 0 = 1)) = true ∧
    after (exec (.consumerDoorbell 1 true 0) up) (fun t => decide (rf t F.hifDbErrCount_count 1 0 = 1)) = true := by decide +kernel

def tailed : State := wr (ringOn up 0 32) .hifRingTail 0 32 1

def desc (type : Nat) (body : Bytes) (n : Nat) : Bytes := leBytes 1 type ++ body ++ List.replicate (63 - body.length) 0

theorem test_descriptorFetch : ringState tailed 0 32 = ringActive ∧ hostReaches tailed = true ∧ tailed.host.restart = none ∧
    controlRuns tailed = true ∧ (ringWork tailed 0 32).fetched.length < 8 ∧ ringHead tailed 0 32 ≠ ringTail tailed 0 32 ∧
    descKnown 0 32 ⟨0, desc 0x33 [] 0, false⟩ = true ∧
    after (exec (.descriptorFetch 0 32 (some (desc 0x33 [] 0))) tailed) (fun t => decide (ringHead t 0 32 = 1 ∧
      (ringWork t 0 32).fetched.length = 1)) = true ∧
    after (exec (.descriptorFetch 0 32 (some (desc 0x7F [] 0))) tailed) (fun t => decide ((ringWork t 0 32).fetched = [] ∧
      (ringWork t 0 32).toWrite.length = 1)) = true ∧
    after (exec (.descriptorFetch 0 32 none) tailed) (fun t => decide (ringState t 0 32 = ringFaulted ∧
      rf t F.hifFetchFaultCount_count 0 0 = 1 ∧ (eventsOf t 0).length = 1)) = true := by decide +kernel

def owed (n : Nat) : State := setRing (ringOn up 0 n) 0 n ⟨[], [], [⟨0, 7, 0x10, stOk, 0, 3, 0, 0, false, false⟩], [], 0, 4096, 16, false⟩

theorem test_completionWrite : (owed 24).heldWrites = [] ∧ ringState (owed 24) 0 24 ≠ ringFaulted ∧
    (ringWork (owed 24) 0 24).toWrite.find? (fun c => !c.held) = some ⟨0, 7, 0x10, stOk, 0, 3, 0, 0, false, false⟩ ∧
    (ringWork (owed 24) 0 24).ahead = [] ∧ ringDone (owed 24) 0 24 < 2 ^ 32 ∧
    after (exec (.completionWrite 0 24 ⟨true, []⟩) (owed 24)) (fun t => decide (ringDone t 0 24 = 1 ∧
      bitOf (rd t .icuPend 0 0) 24 = true ∧ Map.getD t.hostMem 4100 0 = 7 ∧ rd t .ephSeq 0 0 ≠ 0)) = true ∧
    after (exec (.completionWrite 0 32 ⟨true, []⟩) (owed 32)) (fun t => bitOf (rd t .icuPend 0 1) 0) = true := by decide +kernel

/-! ## Streams -/

/-- A descriptor waits fetched on a ring: its 64 bytes as one number. -/
def given (s : State) (die n v : Nat) : State :=
  setRing (ringOn s die n) die n ⟨[⟨0, leBytes 64 v, false⟩], [], [], [], 0, 0, 16, false⟩

/-- The ring that a descriptor was on holds its completion with a status and a count. -/
def told (t : State) (die n status count : Nat) : Bool :=
  match (ringWork t die n).toWrite with
  | [c] => decide (c.k = 0 ∧ c.status = status ∧ c.count = count)
  | _ => false

/-- A bundle with a wide command, and one with a narrow operation. -/
def wideB (delta engine w : Nat) : Nat := delta * 2 ^ 232 + 2 ^ 230 + engine * 2 ^ 226 + w * 2 ^ 64
def narrowB (delta w : Nat) : Nat := delta * 2 ^ 232 + 2 ^ 229 + w
def marked (b : Nat) : Nat := b + 2 ^ 231

/-- Bytes stored. -/
def poke (s : State) (a : Nat) (data : Bytes) : State := { s with mem := putBytes s.mem a data }

/-- A value of n bytes stored. -/
def pokeN (s : State) (a n v : Nat) : State := poke s a (leBytes n v)

def streamAt : Nat := coreBase 0 + 0x8000

/-- The replay point at the start of a stream. -/
def point0 : ReplayPt := ⟨false, 0, 0, 0, 0xFFFF_FFFF, [], [], [], 0, 0, 0, 0, 0, [], [], []⟩

/-- Core 0 runs a stream of these bundles, all of them in its stream buffer, and stands in the issue cycle of the first. -/
def streaming (bundles : List Nat) : State :=
  let q := (bundleOf (bundles.headD 0)).delta
  let s := poke busy streamAt (bundles.flatMap (leBytes 32))
  let s := wr (wr s .seqSlotBase 0 0 streamAt) .seqSlotInfo 0 0 (2 ^ 31 + bundles.length)
  let s := wr s .seqSlotCrc 0 0 (crc32 (bundles.flatMap (leBytes 32)))
  let s := setRing (ringOn s 0 0) 0 0 ⟨[], [⟨0, leBytes 64 0x11, false⟩], [], [], 0, 0, 16, false⟩
  let s := wr (wr s .seqState 0 0 2) .seqSchedule 0 0 q
  setCore s 0 { CoreState.fresh.setClocks q with runDesc := some 0, buffer := bundles, point := some point0 }

/-- The same in another schedule cycle. -/
def atCycle (s : State) (q : Nat) : State := setCore (wr s .seqSchedule 0 0 q) 0 ((coreOf s 0).setClocks q)

/-- A row of memory is poisoned. -/
def poisonedAt (s : State) (a : Nat) : State := { s with poison := [a] }

def installable (count : Nat) : State := given (poke busy streamAt (leBytes 32 (marked 0))) 0 0 (0x10 + 2 * 256 ^ 8 + streamAt * 256 ^ 16 + count * 256 ^ 24)

theorem test_install : (takeDesc (installable 1) 0 0 fun d => d.type = 0x10).isSome = true ∧ coreRefuses (installable 1) 0 = false ∧
    (coreOf (installable 1) 0).runDesc = none ∧ failRow (installable 1) MemFaults.none streamAt 32 = none ∧
    hiddenIn (installable 1) streamAt 32 = [] ∧
    (scanFrom (installable 1) 0 Scan.start 0 (bundlesOf (memBytes (installable 1) streamAt 32))).fault = none ∧
    after (exec (.install core0 .none) (installable 1)) (fun t => told t 0 0 stOk 1 && slotInstalled t 0 2 &&
      decide (slotBase t 0 2 = streamAt) && decide (slotBundles t 0 2 = 1)) = true ∧
    after (exec (.install core0 .none) (installable 0)) (fun t => told t 0 0 stEmpty 0) = true := by decide +kernel

theorem test_install_refused : coreRefuses (wf (installable 1) F.jobStatus_state 0 0 1) 0 = true ∧
    after (exec (.install core0 .none) (wf (installable 1) F.jobStatus_state 0 0 1)) (fun t => told t 0 0 stRefused 0) = true := by
  decide +kernel

def runnable : State := given (wr busy .seqSlotInfo 0 2 (2 ^ 31 + 1)) 0 0 (0x11 + 2 * 256 ^ 8)

theorem test_run : (takeDesc runnable 0 0 fun d => d.type = 0x11).isSome = true ∧ coreRefuses runnable 0 = false ∧
    slotInstalled runnable 0 2 = true ∧ runChecks runnable 0 [] (Map.getD (coreOf runnable 0).inherited 2 []) = true ∧
    after (exec (.run core0) runnable) (fun t => decide ((coreOf t 0).runDesc = some 0 ∧ seqState t 0 = seqStartCheck ∧
      seqSlot t 0 = 2 ∧ (ringWork t 0 0).active.length = 1)) = true ∧
    after (exec (.run core0) (given busy 0 0 (0x11 + 2 * 256 ^ 8))) (fun t => told t 0 0 stRefused 0) = true := by decide +kernel

def layersGiven (s : State) (count : Nat) : State := given s 0 0 (0x12 + 3 * 256 ^ 8 + count * 256 ^ 10 + (coreBase 0) * 256 ^ 16)

theorem test_layers : (takeDesc (layersGiven busy 1) 0 0 fun d => d.type = 0x12).isSome = true ∧
    rangeIn (layersGiven busy 1) (coreBase 0) 128 (reachUpd 0) = true ∧
    after (exec (.layers core0 .none) (layersGiven busy 0)) (fun t => told t 0 0 stEmpty 0) = true ∧
    after (exec (.layers core0 .none) (setCore (layersGiven busy 1) 0 { CoreState.fresh with runDesc := some 1 }))
      (fun t => told t 0 0 stRefused 0) = true := by decide +kernel

def checking : State := setCore (wr (streaming [marked 0]) .seqState 0 0 seqStartCheck) 0 { CoreState.fresh with runDesc := some 0 }

theorem test_streamStart : (coreOf checking 0).runDesc = some 0 ∧ seqState checking 0 = seqStartCheck ∧ (coreOf checking 0).bundle = 0 ∧
    (coreOf checking 0).buffer = [] ∧ (coreOf checking 0).crc = 0xFFFF_FFFF ∧ streamReads checking 0 ∧
    after (exec (.streamStart core0 .none []) checking) (fun t => decide (seqState t 0 = seqRunning ∧ counter t 0 = 0 ∧
      (coreOf t 0).point.map (·.bundle) = some 0 ∧ (coreOf t 0).buffer = [marked 0] ∧ rd t .ephSeq 0 0 ≠ 0)) = true := by
  unfold streamReads readsWell; decide +kernel

theorem test_streamStart_lost : streamCount checking 0 ≠ 0 ∧
    (coreOf checking 0).fetchCycle + (bundleOf (bundleWord checking 0 0)).delta < 4096 ∧
    failRow (poisonedAt checking streamAt) .none (streamBase checking 0) 32 ≠ none ∧
    after (exec (.streamStart core0 .none []) (poisonedAt checking streamAt)) (fun t => told t 0 0 stDataLost 0 &&
      decide (seqState t 0 = seqHalted)) = true := by decide +kernel

theorem test_replayPoint : issues (atCycle (streaming [marked (wideB 5 2 0)]) 4) 0 = false ∧
    issues (streaming [marked (5 * 2 ^ 232)]) 0 = true ∧ (nextBundle (streaming [marked (5 * 2 ^ 232)]) 0).mark = true ∧
    (coreOf (streaming [marked (5 * 2 ^ 232)]) 0).markDone = false ∧
    after (exec (.replayPoint core0) (streaming [marked (5 * 2 ^ 232)])) (fun t =>
      decide (((coreOf t 0).point.map fun p => (p.marked, p.bundle, p.cycle)) = some (true, 0, 5) ∧ counter t 0 = 5)) = true := by
  decide +kernel

/-- An array whose port reads a line that fails its re-read. -/
def lineFails : State :=
  let s := atCycle (streaming [9 * 2 ^ 232]) 5
  setArray s 0 0 { arrayOf s 0 0 with passes := [⟨0, 3 * 2 ^ 124 + 0xB * 2 ^ 118 + 1 * 2 ^ 103, 5, ⟨1, 0, 0xB, 4, 1, false, false, false, []⟩, [], [], ⟨[], some (0, 3), []⟩, false, 5⟩] }

theorem test_cycle : mayLeave (atCycle (streaming [9 * 2 ^ 232]) 5) 0 = true ∧
    (let t := cycleWork [] (atCycle (streaming [9 * 2 ^ 232]) 5) 0
     (coreOf t 0).detected = [] ∧ (coreOf t 0).freeze = [] ∧ (coreOf t 0).runDesc ≠ none) ∧
    counter (cycleStep (atCycle (streaming [9 * 2 ^ 232]) 5) 0) 0 = 6 ∧
    mayLeave lineFails 0 = true ∧ (coreOf (cycleWork [] lineFails 0) 0).detected ≠ [] ∧ counter (cycleStep lineFails 0) 0 = 5 := by
  decide +kernel

def finished : State := setCore (streaming [0]) 0 { coreOf (streaming [0]) 0 with bundle := 1, buffer := [] }

theorem test_streamComplete : (coreOf finished 0).runDesc ≠ none ∧ streamDone finished 0 = true ∧
    after (exec (.streamComplete core0) finished) (fun t => told t 0 0 stOk 0 && decide (seqState t 0 = seqIdle) &&
      decide ((coreOf t 0).ended = some (stOk, 0))) = true := by decide +kernel

/-! ## The matrix arrays -/

/-- FEED of one line of core memory to line 5 of array 2, at cycle 9 with a lead. -/
def feedW (lead rows : Nat) : Nat := 1 * 2 ^ 124 + 2 * 2 ^ 122 + lead * 2 ^ 109 + coreBase 0 * 2 ^ 61 + 5 * 2 ^ 48 + rows * 2 ^ 37 + 1 * 2 ^ 29 + 1 * 2 ^ 16 + 1

def feeding (lead rows : Nat) : State := pokeN (streaming [wideB 9 1 (feedW lead rows), 0]) (coreBase 0) 8 0x0102030405060708

/-- The same, where the bytes had all arrived at a failure. -/
def fedBefore : State := setCore (feeding 0 1) 0 { coreOf (feeding 0 1) 0 with point := some { point0 with arrived := [0] } }

theorem test_feed : nextWide (feeding 0 1) 0 engArray = some (feedW 0 1) ∧ opcodeOf (feedW 0 1) = 1 ∧ (Feed.of (feedW 0 1)).moves = true ∧
    feedArrived (coreOf (feeding 0 1) 0) 0 = false ∧ (coreOf (feeding 0 1) 0).feeds = [] ∧ feedReadsWell (feeding 0 1) (Feed.of (feedW 0 1)) ∧
    after (exec (.feed core0 3 .none) (feeding 0 1)) (fun t => decide (Map.getD (arrayOf t 0 2).opbuf 320 0 = 8 ∧
      counter t 0 = 9 ∧ seqState t 0 = seqFrozen)) = true ∧
    nextWide (feeding 0 0) 0 engArray = some (feedW 0 0) ∧ (Feed.of (feedW 0 0)).moves = false ∧
    after (exec (.feed core0 0 .none) (feeding 0 0)) (fun t => decide ((arrayOf t 0 2).opbuf = [] ∧ (coreOf t 0).bundle = 2)) = true ∧
    nextWide fedBefore 0 engArray = some (feedW 0 1) ∧ feedArrived (coreOf fedBefore 0) (coreOf fedBefore 0).bundle = true ∧
    after (exec (.feed core0 0 .none) fedBefore) (fun t => decide ((arrayOf t 0 2).opbuf = [] ∧ (coreOf t 0).bundle = 2)) = true := by
  unfold feedReadsWell readsWell; decide +kernel

def feedingAhead : State := atCycle (feeding 4 1) 5

theorem test_feedReadIssue : runs feedingAhead 0 = true ∧ bundleDue feedingAhead 0 = false ∧
    (feedsOwed feedingAhead 0).find? (fun x => x.1.index = 0) = some (⟨0, 9, bundleOf (wideB 9 1 (feedW 4 1))⟩, Feed.of (feedW 4 1)) ∧
    feedReadsWell feedingAhead (Feed.of (feedW 4 1)) ∧
    after (exec (.feedReadIssue core0 0 .none) feedingAhead) (fun t => decide ((coreOf t 0).feeds.length = 1 ∧ (coreOf t 0).bundle = 0)) = true ∧
    after (exec (.feedReadIssue core0 0 .none) feedingAhead) (fun t =>
      let u := atCycle t 9
      decide ((coreOf u 0).feeds.find? (fun r => r.bundle = 0) ≠ none ∧ feedArrived (coreOf u 0) 0 = false ∧
        nextWide u 0 engArray = some (feedW 4 1)) && after (exec (.feed core0 0 .none) u) fun v => decide (Map.getD (arrayOf v 0 2).opbuf 320 0 = 8)) = true := by
  unfold feedReadsWell readsWell; decide +kernel

/-- MLOAD of an 8-bit integer tile, K 4 and N 2, columns at lines 0 and 1 of array 0. -/
def mloadW : Nat := 2 * 2 ^ 124 + 0xB * 2 ^ 118 + 4 * 2 ^ 107 + 2 * 2 ^ 99 + 1 * 2 ^ 78

def loading : State :=
  let s := streaming [wideB 9 1 mloadW, 50 * 2 ^ 232]
  setArray s 0 0 { arrayOf s 0 0 with opbuf := [(0, 1), (1, 2), (2, 3), (3, 4), (64, 5)] }

theorem test_mload : nextWide loading 0 engArray = some mloadW ∧ opcodeOf mloadW = 2 ∧
    loadStart (arrayOf loading 0 0) (arrayOf loading 0 0).clock ≤ (arrayOf loading 0 0).clock ∧
    after (exec (.mload core0 .none .none) loading) (fun t => decide (((arrayOf t 0 0).pendingTile.map fun x => (x.k, x.n, x.got)) = some (4, 2, []) ∧
      (arrayOf t 0 0).loads.length = 1 ∧ (coreOf t 0).bundle = 1)) = true := by decide +kernel

/-- The cycles after an MLOAD read its columns. -/
def loaded : State := match exec (.mload core0 .none .none) loading with
  | .next t => cycleStep (cycleStep (cycleStep (cycleStep t 0) 0) 0) 0
  | _ => loading

theorem test_mload_reads : ((arrayOf loaded 0 0).pendingTile.map fun x => (x.column 0, x.column 1)) = some ([1, 2, 3, 4], [5, 0, 0, 0]) ∧
    counter loaded 0 = 13 := by decide +kernel

def loadingEarly : State := setArray loading 0 0 { arrayOf loading 0 0 with lastPass := some ⟨20, 2, 1, 4, 2⟩ }

theorem test_mload_waits : nextWide loadingEarly 0 engArray = some mloadW ∧
    (arrayOf loadingEarly 0 0).clock < loadStart (arrayOf loadingEarly 0 0) (arrayOf loadingEarly 0 0).clock ∧
    after (exec (.mload core0 .none .none) loadingEarly) (fun t => decide ((coreOf t 0).interlocked = some ⟨12⟩ ∧ seqState t 0 = seqFrozen ∧
      (coreOf t 0).bundle = 0)) = true := by decide +kernel

/-- PLATE of rows 7 and 8, two columns, fresh, integer, exposure 256, plate at 0x400. -/
def plateW (m : Nat) : Nat := 1 * 2 ^ 124 + 7 * 2 ^ 113 + m * 2 ^ 103 + 2 * 2 ^ 95 + 2 ^ 94 + 2 ^ 93 + 256 * 2 ^ 78 + 16 * 2 ^ 60

theorem test_plate : nextWide (streaming [wideB 9 2 (plateW 2)]) 0 engAcc = some (plateW 2) ∧ opcodeOf (plateW 2) = 1 ∧
    (Plate.of (plateW 2)).n ≤ 128 ∧ (Plate.of (plateW 2)).acts = true ∧
    after (exec (.plate core0) (streaming [wideB 9 2 (plateW 2)])) (fun t => decide (Map.find (arrayOf t 0 0).bound 8 = some ⟨7, 2, 2, true, 256, 1024⟩ ∧
      Map.find (arrayOf t 0 0).bound 9 = none ∧ (entryOf (arrayOf t 0 0) 7 1).fresh = true ∧ (entryOf (arrayOf t 0 0) 7 2).fresh = false)) = true ∧
    (Plate.of (plateW 0)).acts = false ∧
    after (exec (.plate core0) (streaming [wideB 9 2 (plateW 0)])) (fun t => decide ((arrayOf t 0 0).bound = [])) = true := by decide +kernel

/-- MPASS of 8-bit integers with an operation: one row at line 2, accumulated into row 7. -/
def passW (op m : Nat) : Nat := 3 * 2 ^ 124 + 0xB * 2 ^ 118 + op * 2 ^ 114 + m * 2 ^ 103 + 7 * 2 ^ 94 + 2 * 2 ^ 81

def tile : Tile := ⟨1, mloadW, 0xB, 4, 2, false, false, false, [(0, [1, 2, 3, 4]), (64, [5, 255, 0, 0])]⟩

def passing (op m : Nat) : State :=
  let s := streaming [wideB 900 1 (passW op m), 0]
  setArray s 0 0 { arrayOf s 0 0 with
    loadCycle := 0, active := tile, opbuf := [(128, 3), (129, 2), (130, 255), (131, 1)]
    bound := [(7, ⟨7, 1, 2, true, 256, 1024⟩)]
    acc := [(7 * 128, { AccEntry.fresh0 with fresh := true }), (7 * 128 + 1, { AccEntry.fresh0 with fresh := true })] }

/-- The pass has started, its tile is in use, and its start is recorded. -/
def started (o : Host.Outcome State Fault Refusal) : Bool :=
  after o fun t => decide ((arrayOf t 0 0).lastPass = some ⟨900, 1, 1, 2, 2⟩ ∧ (arrayOf t 0 0).passes.length = 1 ∧ (coreOf t 0).bundle = 2)

theorem test_pass_hypotheses : ∀ op < 7, nextPass (passing op 1) 0 op = some (passW op 1) ∧ (Mpass.of (passW op 1)).m ≠ 0 ∧
    (arrayOf (passing op 1) 0 0).tile.n ≠ 0 ∧
    passStart (passing op 1) 0 0 (arrayOf (passing op 1) 0 0).clock (intervalOf (Mpass.of (passW op 1)).fmt) ≤
      (arrayOf (passing op 1) 0 0).clock := by decide +kernel

theorem test_mpassMac : started (exec (.mpassMac core0 .none) (passing 0 1)) = true := by decide +kernel
theorem test_mpassL1 : started (exec (.mpassL1 core0 .none) (passing 1 1)) = true := by decide +kernel
theorem test_mpassL2sq : started (exec (.mpassL2sq core0 .none) (passing 2 1)) = true := by decide +kernel
theorem test_mpassMinplus : started (exec (.mpassMinplus core0 .none) (passing 3 1)) = true := by decide +kernel
theorem test_mpassMaxplus : started (exec (.mpassMaxplus core0 .none) (passing 4 1)) = true := by decide +kernel
theorem test_mpassMaxmin : started (exec (.mpassMaxmin core0 .none) (passing 5 1)) = true := by decide +kernel
theorem test_mpassMatch : started (exec (.mpassMatch core0 .none) (passing 6 1)) = true := by decide +kernel

def passingEarly : State := setArray (passing 0 1) 0 0 { arrayOf (passing 0 1) 0 0 with loadCycle := 899 }

theorem test_mpass_waits : nextPass passingEarly 0 0 = some (passW 0 1) ∧
    (arrayOf passingEarly 0 0).clock < passStart passingEarly 0 0 (arrayOf passingEarly 0 0).clock 1 ∧
    after (exec (.mpassMac core0 .none) passingEarly) (fun t => decide ((coreOf t 0).interlocked = some ⟨2⟩ ∧ seqState t 0 = seqFrozen)) = true := by
  decide +kernel

theorem test_mpass_empty : (Mpass.of (passW 0 0)).m = 0 ∧ nextPass (passing 0 0) 0 0 = some (passW 0 0) ∧
    after (exec (.mpassMac core0 .none) (passing 0 0)) (fun t => decide (arrayOf t 0 0 = arrayOf (passing 0 0) 0 0 ∧ (coreOf t 0).bundle = 2)) = true := by
  decide +kernel

/-- The pass as its stream port has read its row. -/
def passRun (op : Nat) : PassRun :=
  ⟨0, passW op 1, 900, tile, [(7, ⟨7, 1, 2, true, 256, 1024⟩)], [(0, [3, 2, 255, 1])], .none, false, 900⟩

/-- The sums of the two columns, worked out by hand from R154. -/
theorem test_pass_sums : ((List.range 7).map fun op => ((passRun op).sum 0 0, (passRun op).sum 0 1)) =
    [(8, 13), (9, 7), (29, 15), (2, 0xFFFFFFFF), (5, 8), (2, 3), (1, 0)] := by decide +kernel

def merging (clock : Int) : ArrayState := { arrayOf (passing 0 1) 0 0 with clock := clock, passes := [passRun 0] }

/-- The first cell is written in cycle 900 + 2 + 0 + 7, the second in the next. -/
theorem test_pass_merges : (merging 909).passes = [passRun 0] ∧ tile.n ≤ 128 ∧ (0, 0) ∈ (passRun 0).due 909 ∧ (passRun 0).due 908 = [] ∧
    (entryOf (mergeDue (merging 909) 0 909) 7 0).value.toNat = 8 ∧ (entryOf (mergeDue (merging 909) 0 909) 7 0).tally = 4 ∧
    (entryOf (mergeDue (merging 909) 0 909) 7 1).empty = true ∧
    (entryOf (mergeDue (merging 910) 0 910) 7 1).value.toNat = 13 := by decide +kernel
/-! ## Drains and spills -/

/-- DRAIN of row 7, two columns, to int32 at 0x200, its record at 0x300. -/
def drainW (m : Nat) : Nat := 2 * 2 ^ 124 + 0xD * 2 ^ 118 + m * 2 ^ 104 + 7 * 2 ^ 95 + 2 * 2 ^ 87 + 8 * 2 ^ 69 + 1 * 2 ^ 55 + 12 * 2 ^ 37

def bound7 : Binding := ⟨7, 1, 2, true, 256, 1024⟩

def draining (m : Nat) : State :=
  let s := streaming [wideB 900 2 (drainW m), 0]
  setArray s 0 0 { arrayOf s 0 0 with
    bound := [(7, bound7)]
    acc := [(7 * 128, { AccEntry.fresh0 with value := 8, empty := false, tally := 4, fresh := true, check := BitVec.ofNat 5 (residueOf true 8) }),
      (7 * 128 + 1, { AccEntry.fresh0 with value := 13, empty := false, tally := 4, fresh := true, check := BitVec.ofNat 5 (residueOf true 13) })] }

/-- Some arithmetic cycles of core 0 after a command. -/
def cycles (n : Nat) (o : Host.Outcome State Fault Refusal) : State :=
  match o with
  | .next t => (List.range n).foldl (fun s _ => cycleStep s 0) t
  | _ => State.reset

theorem test_drain : nextWide (draining 1) 0 engAcc = some (drainW 1) ∧ opcodeOf (drainW 1) = 2 ∧ (Drain.of (drainW 1)).acts = true ∧
    arrayDone (arrayOf (draining 1) 0 0) (counter (draining 1) 0) ≤ (arrayOf (draining 1) 0 0).clock ∧ Map.find (arrayOf (draining 1) 0 0).bound 7 = some bound7 ∧
    after (exec (.drain core0 .clean) (draining 1)) (fun t => decide ((arrayOf t 0 0).drains.length = 1 ∧ (arrayOf t 0 0).drainDone = 901 ∧
      t.mem = (draining 1).mem)) = true ∧
    nextWide (draining 0) 0 engAcc = some (drainW 0) ∧ (Drain.of (drainW 0)).acts = false ∧
    after (exec (.drain core0 .clean) (draining 0)) (fun t => decide (t.mem = (draining 0).mem ∧ (coreOf t 0).bundle = 2)) = true := by
  decide +kernel

/-- The row leaves in the cycle after its read: the outputs 8 and 13, and empty entries. -/
theorem test_drain_runs : (let t := cycles 2 (exec (.drain core0 .clean) (draining 1))
    (entryOf (arrayOf t 0 0) 7 0).empty = true ∧ leNat (memBytes t (coreBase 0 + 0x200) 4) = 8 ∧
      leNat (memBytes t (coreBase 0 + 0x204) 4) = 13 ∧ (arrayOf t 0 0).drains = []) := by decide +kernel

def drainingEarly : State := setArray (draining 1) 0 0 { arrayOf (draining 1) 0 0 with drainDone := 903 }

theorem test_drain_waits : nextWide drainingEarly 0 engAcc = some (drainW 1) ∧
    (arrayOf drainingEarly 0 0).clock < arrayDone (arrayOf drainingEarly 0 0) (counter drainingEarly 0) ∧
    after (exec (.drain core0 .clean) drainingEarly) (fun t => decide ((coreOf t 0).interlocked = some ⟨3⟩ ∧ seqState t 0 = seqFrozen)) = true := by
  decide +kernel

def drainRun : DrainRun := ⟨0, drainW 1, 900, bound7, 900, false, ⟨0, 0, 0, 0, 0, false⟩, [], .clean⟩

theorem test_drain_row : (Drain.of (drainW 1)).n ≤ 128 ∧ snoopedIn (draining 1) (coreBase 0 + (Drain.of (drainW 1)).aux) 16 = [] ∧
    (entryOf (arrayOf (drainOne (draining 1) 0 0 drainRun 0) 0 0) 7 1).empty = true := by decide +kernel

def pend : PendingSpill := ⟨7, 1, 13, 0, 256, 5, 13, bound7, 0⟩

def spilling : State :=
  let s := streaming [wideB 900 2 (drainW 1), 0]
  setArray s 0 2 { arrayOf s 0 2 with spills := [pend] }

theorem test_spill : (coreOf spilling 0).runDesc ≠ none ∧ (coreOf spilling 0).freeze = [] ∧ (coreOf spilling 0).replaying = none ∧
    firstSpill (arrayOf spilling 0 2).spills = some pend ∧ pend.due ≤ (arrayOf spilling 0 2).clock ∧
    spillsInto spilling 0 none (plateAddr 0 bound7 7 1) 16 pend.cycle = [] ∧
    failRow spilling MemFaults.none (plateAddr 0 bound7 7 1) 16 = none ∧ redoing (coreOf spilling 0) pend.cycle = false ∧
    snoopedIn spilling (plateAddr 0 bound7 7 1) 16 = [] ∧
    after (exec (.spill core0 2 .clean) spilling) (fun t => decide ((arrayOf t 0 2).spills = [] ∧
      leNat (memBytes t (coreBase 0 + 1024 + 16) 8) = 13)) = true := by decide +kernel

/-! ## The vector engine -/

/-- An instruction word of one element at 0x80, operands at 0 and 0x40. -/
def vecW (cls op fmt count imm : Nat) : Nat :=
  cls * 2 ^ 124 + op * 2 ^ 118 + fmt * 2 ^ 114 + 2 * 2 ^ 93 + (if cls = 1 ∧ ¬ elemUnary op ∨ cls = 4 ∧ 4 < op then 2 ^ 57 else 0) + count * 2 ^ 32 + imm

/-- It is due, with binary32 values a at 0, b at 0x40 and d at 0x80. -/
def vecing (w a b d : Nat) : State :=
  pokeN (pokeN (pokeN (streaming [wideB 9 3 w, 0]) (coreBase 0) 8 a) (coreBase 0 + 0x40) 8 b) (coreBase 0 + 0x80) 8 d

def result (t : State) : Nat := leNat (memBytes t (coreBase 0 + 0x80) 4)

def f4 : Nat := 0x40800000
def f2 : Nat := 0x40000000
def f1 : Nat := 0x3F800000

/-- The instruction is due and starts, it is in progress, and what it will write is this result. -/
def gives (i : Instr) (cls op w a b d r : Nat) : Bool :=
  let s := vecing w a b d
  decide (nextWide s 0 engVec = some w ∧ (Vec.of w).cls = cls ∧ (Vec.of w).op = op ∧ vecIdle w = false) &&
  (match vecRanges w with
    | some x => decide (vecStart (coreOf s 0) w x (coreOf s 0).vec.clock ≤ (coreOf s 0).vec.clock)
    | none => false) &&
  after (exec i s) fun t => decide ((coreOf t 0).vec.runs.length = 1 ∧ t.mem = s.mem ∧ (coreOf t 0).bundle = 2) &&
    match (vecOut t 0 w 0 (vecElems w)).writes with
    | x :: _ => decide (x.1 = 0x80 ∧ leNat (x.2.take 4) = r)
    | [] => false

theorem test_elements : ([(.add core0 .clean, 1, 0x40C00000), (.sub core0 .clean, 2, f2), (.mul core0 .clean, 3, 0x41000000),
    (.fma core0 .clean, 4, 0x41100000), (.div core0 .clean, 5, f2), (.sqrt core0 .clean, 6, f2), (.min core0 .clean, 7, f2),
    (.max core0 .clean, 8, f4), (.abs core0 .clean, 9, f4), (.neg core0 .clean, 10, 0xC0800000), (.elemCopy core0 .clean, 11, f4),
    (.cmplt core0 .clean, 12, 0), (.cmpeq core0 .clean, 13, 0)] : List (Instr × Nat × Nat)).all
      (fun x => gives x.1 1 x.2.1 (vecW 1 x.2.1 2 1 0) f4 f2 f1 x.2.2) = true := by decide +kernel

/-- Started in cycle 9 with 10 cycles of latency, ADD writes in cycle 19 and completes in cycle 20. -/
theorem test_add_runs : (let t := cycles 11 (exec (.add core0 .clean) (vecing (vecW 1 1 2 1 0) f4 f2 f1))
    result t = 0x40C00000 ∧ (coreOf t 0).vec.runs = [] ∧ counter t 0 = 20) ∧
    result (cycles 10 (exec (.add core0 .clean) (vecing (vecW 1 1 2 1 0) f4 f2 f1))) = f1 := by decide +kernel

def addRun : VecRun := ⟨0, vecW 1 1 2 1 0, 9, [], [], none, 0, false, .clean⟩

/-- The exceptions of 4 + infinity − ... : a sum that overflows raises overflow and inexact at its completion. -/
def overRun : VecRun := { addRun with got := [(0, [(coreBase 0, leBytes 4 0x7F7FFFFF), (coreBase 0 + 64, leBytes 4 0x7F7FFFFF)])] }

theorem test_vec_finish : (Vec.of addRun.word).cls = clsElem ∧ addRun.failed = none ∧ (vecing addRun.word f4 f2 f1).snoop = [] ∧
    (Vec.of addRun.word).fmt = 2 ∧ 0 < (Vec.of addRun.word).count ∧ (elemOut (vecView State.reset overRun 0) 0 overRun.word 0 1).nonfinite = true ∧
    (elemOut (vecView State.reset overRun 0) 0 overRun.word 0 1).exc.bits = 5 ∧
    rdCore (vecFinish 0 busy { overRun with exc := 5, nonfinite := true }) .vecFlags 0 = 5 ∧
    rdCore (vecFinish 0 busy { overRun with exc := 5, nonfinite := true }) .vecNonfiniteCount 0 = 1 := by decide +kernel

theorem test_element_idle : VecDue (vecing (vecW 1 1 2 0 0) f4 f2 f1) 0 clsElem 1 (vecW 1 1 2 0 0) ⟨[(0, 0), (64, 0)], [(128, 0)]⟩ ∧
    vecIdle (vecW 1 1 2 0 0) = true ∧
    after (exec (.add core0 .clean) (vecing (vecW 1 1 2 0 0) f4 f2 f1)) (fun t => decide (result t = f1 ∧ (coreOf t 0).bundle = 2)) = true := by
  unfold VecDue; decide +kernel

def vecBusy : State :=
  let s := vecing (vecW 1 1 2 1 0) f4 f2 f1
  setCore s 0 { coreOf s 0 with vec := { (coreOf s 0).vec with start := 5, busy := 8 } }

theorem test_add_waits : VecDue vecBusy 0 clsElem 1 (vecW 1 1 2 1 0) ⟨[(0, 4), (64, 4)], [(128, 4)]⟩ ∧
    (coreOf vecBusy 0).vec.clock < vecStart (coreOf vecBusy 0) (vecW 1 1 2 1 0) ⟨[(0, 4), (64, 4)], [(128, 4)]⟩ (coreOf vecBusy 0).vec.clock ∧
    after (exec (.add core0 .clean) vecBusy) (fun t => decide ((coreOf t 0).interlocked = some ⟨4⟩ ∧ seqState t 0 = seqFrozen ∧ result t = f1)) = true := by
  unfold VecDue; decide +kernel

/-- binary32 4.0 to int32. -/
theorem test_cvt : gives (.cvt core0 .clean) 2 0 (vecW 2 0 0 1 (2 * 2 ^ 12 + 0xD * 2 ^ 8)) f4 0 0 4 = true := by decide +kernel

/-- Infinity, and the quiet NaN a function of it raises. -/
def fInf : Nat := 0x7F800000

theorem test_special : ([(.exp2 core0 .clean, 1, f4, 0x41800000), (.exp core0 .clean, 2, fInf, fInf), (.log2 core0 .clean, 3, fInf, fInf),
    (.log core0 .clean, 4, fInf, fInf), (.rcp core0 .clean, 5, f4, 0x3E800000), (.rsqrt core0 .clean, 6, fInf, 0),
    (.tanh core0 .clean, 7, fInf, f1), (.sigmoid core0 .clean, 8, fInf, f1), (.sin core0 .clean, 9, fInf, 0x7FC00000), (.cos core0 .clean, 10, fInf, 0x7FC00000),
    (.erf core0 .clean, 11, fInf, f1)] : List (Instr × Nat × Nat × Nat)).all
      (fun x => gives x.1 3 x.2.1 (vecW 3 x.2.1 2 1 0) x.2.2.1 0 0 x.2.2.2) = true := by decide +kernel

/-- A row of two elements, 4 and 2. -/
theorem test_rows : ([(.rmax core0 .clean, 1, f4), (.rmin core0 .clean, 2, f2), (.rsum core0 .clean, 3, 0x40C00000),
    (.rsumsq core0 .clean, 4, 0x41A00000), (.rscale core0 .clean, 5, f4), (.rsub core0 .clean, 6, 0x40400000), (.cadd core0 .clean, 7, 0x40A00000),
    (.cmul core0 .clean, 8, f4)] : List (Instr × Nat × Nat)).all
      (fun x => gives x.1 4 x.2.1 (vecW 4 x.2.1 2 2 2) (f4 + f2 * 2 ^ 32) f1 0 x.2.2) = true := by decide +kernel

/-- MOVR of S3. -/
def movrW (op src dst imm : Nat) : Nat := 5 * 2 ^ 124 + op * 2 ^ 118 + 3 * 2 ^ 114 + dst * 2 ^ 93 + src * 2 ^ 75 + imm

def moving (w : Nat) : State := wrCore (pokeN (streaming [wideB 9 3 w, 0]) (coreBase 0 + 64) 8 0x55) .vecScalar3 0 0xFFFFFFFF

/-- A MOVR starts, and takes effect as it completes. -/
def moves (i : Instr) (op src dst imm n : Nat) (p : State → Bool) : Bool :=
  let w := movrW op src dst imm
  let s := moving w
  decide (nextWide s 0 engVec = some w ∧ (Vec.of w).cls = clsMovr ∧ (Vec.of w).op = op ∧ vecIdle w = false) &&
  (match vecRanges w with
    | some x => decide (vecStart (coreOf s 0) w x (coreOf s 0).vec.clock ≤ (coreOf s 0).vec.clock)
    | none => false) &&
  after (exec i s) (fun t => decide ((coreOf t 0).vec.runs.length = 1 ∧ t.mem = s.mem ∧ t.regs = s.regs)) && p (cycles n (exec i s))

theorem test_moves : moves (.setr core0 .clean) 1 0 0 7 1 (fun t => decide (rdCore t .vecScalar3 0 = 7)) = true ∧
    moves (.loadr core0 .clean) 2 1 0 0 11 (fun t => decide (rdCore t .vecScalar3 0 = 0x55)) = true ∧
    moves (.storer core0 .clean) 3 0 2 0 3 (fun t => decide (leNat (memBytes t (coreBase 0 + 128) 8) = 0xFFFFFFFF)) = true ∧
    moves (.incr core0 .clean) 4 0 0 2 1 (fun t => decide (rdCore t .vecScalar3 0 = 1)) = true := by decide +kernel

def storeRun : VecRun := ⟨0, movrW 3 0 2 0, 9, vecRegsNow (moving (movrW 3 0 2 0)) 0 (movrW 3 0 2 0), [], none, 0, false, .clean⟩

theorem test_move_hypotheses : (Vec.of storeRun.word).cls = clsMovr ∧ (Vec.of storeRun.word).op = 3 ∧ movrReg storeRun.word < 8 ∧
    (coreOf (atCycle (moving storeRun.word) 11) 0).vec.clock = storeRun.start + 2 ∧
    snoopedIn (atCycle (moving storeRun.word) 11) (coreBase 0 + (Vec.of storeRun.word).dst) 8 = [] ∧
    (Vec.of (movrW 1 0 0 7)).cls = clsMovr := by decide +kernel

/-- IROOT of a matrix of order n at 0, to 0x80, its record at 0xC0. -/
def irootW (op n : Nat) : Nat := 6 * 2 ^ 124 + op * 2 ^ 118 + 2 * 2 ^ 114 + 2 * 2 ^ 93 + 3 * 2 ^ 57 + 4 * 2 ^ 50 + n * 2 ^ 32 + f1

theorem test_iroot_hypotheses : VecDue (vecing (irootW 2 0) f4 0 f1) 0 clsIroot 2 (irootW 2 0) ⟨[], []⟩ ∧
    vecIdle (irootW 2 0) = true ∧ vecIdle (irootW 2 1) = false ∧ vecRanges (irootW 2 1) = some ⟨[(0, 4)], [(128, 4), (192, 16)]⟩ ∧
    (Vec.of (irootW 4 1)).cls = clsIroot ∧ (Iroot.of (irootW 4 1)).n ≠ 0 ∧
    after (exec (.irootSqrt core0 .clean) (vecing (irootW 2 0) f4 0 f1)) (fun t => decide (result t = f1 ∧ (coreOf t 0).bundle = 2)) = true ∧
    after (exec (.irootFourth core0 .clean) (vecing (irootW 4 0) f4 0 f1)) (fun t => decide (result t = f1 ∧ (coreOf t 0).bundle = 2)) = true := by
  unfold VecDue; decide +kernel

theorem test_iroots : gives (.irootSqrt core0 .clean) 6 2 (irootW 2 1) f1 0 0 f1 = true ∧
    gives (.irootFourth core0 .clean) 6 4 (irootW 4 1) f1 0 0 f1 = true := by decide +kernel

/-! ## Slips, replays, synchronisation -/

def withCore (s : State) (f : CoreState → CoreState) : State := setCore s 0 (f (coreOf s 0))

def waiting : State := wf (withCore (streaming [wideB 9 3 (vecW 1 1 2 1 0)]) fun c => { c with interlocked := some ⟨4⟩ }) F.seqState_state 0 0 seqFrozen

theorem test_interlockRelease : (coreOf waiting 0).interlocked = some ⟨4⟩ ∧ (coreOf waiting 0).freeze = [] ∧ (coreOf waiting 0).detected = [] ∧
    slipTooLong waiting 0 4 = false ∧ (coreOf (interlockSteps 0 4 waiting) 0).interlocked = some ⟨0⟩ ∧
    (coreOf (interlockSteps 0 4 waiting) 0).freeze = [] ∧ ((coreOf waiting 0).arrays.all fun e => e.2.idle) = true ∧ (coreOf waiting 0).vec.runs = [] ∧
    after (exec (.interlockRelease core0) waiting) (fun t => decide ((coreOf t 0).interlocked = none ∧ seqState t 0 = seqRunning ∧
      rf t F.seqSlipCycles_cycles 0 0 = 4)) = true := by decide +kernel

def frozenBy (f : FreezeCond) : State := wf (withCore (streaming [wideB 9 3 (vecW 1 1 2 1 0)]) fun c => { c with freeze := [f] }) F.seqState_state 0 0 seqFrozen

theorem test_coreResume : (coreOf (frozenBy (.feedLate 6)) 0).freeze ≠ [] ∧ knownSlip (coreOf (frozenBy (.feedLate 6)) 0) = 6 ∧
    slipTooLong (frozenBy (.feedLate 6)) 0 6 = false ∧
    after (exec (.coreResume core0 6) (frozenBy (.feedLate 6))) (fun t => decide ((coreOf t 0).freeze = [] ∧ seqState t 0 = seqRunning ∧
      rf t F.seqSlipCycles_cycles 0 0 = 6)) = true ∧
    after (exec (.coreResume core0 11) (frozenBy .waitOver)) (fun t => decide ((coreOf t 0).freeze = [] ∧
      rf t F.seqWaitCycles_cycles 0 0 = 11 ∧ rf t F.seqSlipCycles_cycles 0 0 = 0)) = true := by decide +kernel

def watched : State := wf (wf (frozenBy (.feedLate 501)) F.seqWatchdog_enable 0 0 1) F.seqWatchdog_limitUs 0 0 1

theorem test_watchdogTimeout : slipLimit watched 0 = some 500 ∧ 500 < (coreOf watched 0).slipRun + knownSlip (coreOf watched 0) ∧ (coreOf watched 0).runDesc ≠ none ∧
    (coreOf watched 0).replaying = none ∧
    after (exec (.watchdogTimeout core0) watched) (fun t => told t 0 0 stTimeout 0 && decide (seqState t 0 = seqHalted)) = true := by
  decide +kernel

/-- The check of the vector instruction of bundle 0 fails as its result is due, in cycle 19. -/
def failing (attempts : Nat) : State :=
  withCore (atCycle (streaming [wideB 9 3 (vecW 1 1 2 1 0), 90 * 2 ^ 232]) 19) fun c =>
    { c with
      bundle := 1, prevCycle := 9, buffer := [90 * 2 ^ 232], vec := { c.vec with runs := [addRun] }
      point := c.point.map fun p => { p with attempts := attempts, signalsSent := 2 } }

def failure : Failure := ⟨7, 0, 19, none, false, false, none⟩

/-- The replay tests for the state that the cycle's work leaves. -/
def verdict (s : State) : Option (Option Nat) :=
  let s' := cycleWork [0] s 0
  (coreOf s' 0).point.map fun p =>
    replayEnds (landArrived (countFrozen s' 0 (knownSlip (coreOf s' 0)) 0) 0 p []) 0 p 19 ((coreOf s' 0).detected ++ [failure])

theorem test_replay : failureOk (failing 0) 0 failure = true ∧ (coreOf (failing 0) 0).freeze = [] ∧ (coreOf (failing 0) 0).interlocked = none ∧
    bundleDue (failing 0) 0 = false ∧ (coreOf (failing 0) 0).replaying = none ∧ (coreOf (cycleWork [0] (failing 0) 0) 0).detected = [] ∧
    (coreOf (cycleWork [0] (failing 0) 0) 0).runDesc ≠ none ∧ slipTooLong (cycleWork [0] (failing 0) 0) 0 0 = false ∧
    namedFailure [failure] = some failure ∧ verdict (failing 0) = some none ∧
    after (exec (.replay core0 ⟨[failure], [], .none, []⟩) (failing 0)) (fun t => decide ((coreOf t 0).replaying = some 19 ∧ seqState t 0 = seqPause ∧
      ((coreOf t 0).point.map fun p => (p.attempts, p.skipSignals)) = some (1, 2) ∧ rf t F.seqReplayCount_replays 0 0 = 1 ∧
      (coreOf t 0).vec.runs = [])) = true ∧
    verdict (failing 3) = some (some stDataLost) ∧
    after (exec (.replay core0 ⟨[failure], [], .none, []⟩) (failing 3)) (fun t => told t 0 0 stDataLost 0 &&
      decide (rf t F.seqReplayCount_replays 0 0 = 0)) = true := by decide +kernel

def hitWindow : State := withCore (failing 0) fun c => { c with guards := [(0, ⟨0, 4096, true, true⟩)] }

theorem test_replay_lost : intact (coreOf hitWindow 0) = false ∧ verdict hitWindow = some (some stReplayLost) ∧
    after (exec (.replay core0 ⟨[failure], [], .none, []⟩) hitWindow) (fun t => told t 0 0 stReplayLost 0) = true := by decide +kernel

def paused : State :=
  wf (withCore (failing 1) fun c => { c with replaying := some 19, vec := VecEngine.at_ 0 }) F.seqState_state 0 0 seqPause

theorem test_replayResume : (coreOf paused 0).runDesc ≠ none ∧ (coreOf paused 0).replaying = some 19 ∧ (coreOf paused 0).point ≠ none ∧
    (coreOf paused 0).detected = [] ∧ snoopHeld paused (coreOf paused 0) = false ∧ streamReads paused 0 ∧
    ((coreOf paused 0).arrays.all fun e => decide (tilePause e.2 ≤ 2048)) = true ∧ point0.bundle ≤ streamCount paused 0 ∧
    point0.crc = (memBytes paused (streamBase paused 0) (32 * point0.bundle)).foldl crc32Byte 0xFFFF_FFFF ∧
    after (exec (.replayResume core0 ⟨2048, .none, []⟩) paused) (fun t => decide ((coreOf t 0).replaying = none ∧ (coreOf t 0).bundle = 0 ∧
      seqState t 0 = seqRunning ∧ counter t 0 = 0 ∧ (coreOf t 0).flags ≠ 0)) = true := by
  unfold streamReads readsWell; decide +kernel

/-- SIGNAL to near object 9 of this die with an increment; WAIT on it; GUARD of slot 3. -/
def signalN (inc : Nat) : Nat := 1 * 2 ^ 60 + 9 * 2 ^ 18 + inc * 2 ^ 2
def waitN (target : Nat) : Nat := 2 * 2 ^ 60 + 9 * 2 ^ 35 + target * 2 ^ 19
def guardN (len : Nat) : Nat := 3 * 2 ^ 60 + 3 * 2 ^ 56 + 2 * 2 ^ 20 + len

def narrow (n : Nat) : State := streaming [narrowB 4 n, wideB 90 3 (vecW 1 1 2 1 0)]

def skipping (s : State) : State := withCore s fun c => { c with point := c.point.map fun p => { p with skipSignals := 1, skipWaits := 1 } }

theorem test_signal : nextNarrow (narrow (signalN 5)) 0 1 = some (signalN 5) ∧ (signalOf (signalN 5) 0).increment = 5 ∧
    after (exec (.signal core0) (narrow (signalN 5))) (fun t => decide ((coreOf t 0).signals.length = 1 ∧ (coreOf t 0).bundle = 1)) = true ∧
    after (exec (.signal core0) (narrow (signalN 0))) (fun t => decide ((coreOf t 0).signals = [] ∧ (coreOf t 0).bundle = 1)) = true ∧
    after (exec (.signal core0) (skipping (narrow (signalN 5)))) (fun t => decide ((coreOf t 0).signals = [] ∧
      ((coreOf t 0).point.map (·.skipSignals)) = some 0)) = true := by decide +kernel

def sending : State := withCore (narrow (signalN 5)) fun c => { c with signals := [(⟨false, 0, 9, 5, 0⟩, ⟨0⟩)] }

theorem test_signalSend : (coreOf sending 0).signals = [(⟨false, 0, 9, 5, 0⟩, ⟨0⟩)] ∧ (coreOf sending 0).replaying = none ∧ completedBefore sending 0 0 = true ∧ location sending = 0 ∧
    helioOn sending = false ∧
    after (exec (.signalSend core0) sending) (fun t => decide ((coreOf t 0).signals = [] ∧
      (syncOf t 0).signals.map (fun m => (m.index, m.increment)) = [(9, 5)])) = true := by decide +kernel

/-- SIGNAL and WAIT for far object 1, which the other die serves. -/
def farWait : Nat := 2 * 2 ^ 60 + 2 ^ 59 + 1 * 2 ^ 35 + 3 * 2 ^ 19

theorem test_wait_bridge : servingDie true 1 0 = 1 ∧ (waitOf farWait 0 (.core 0)).far = true ∧ nextNarrow (narrow farWait) 0 2 = some farWait ∧
    after (exec (.wait core0) (narrow farWait)) (fun t => decide (t.sync = [] ∧ t.bridge.map (fun m => (m.dest, m.due)) = [(1, bridgeTicks)] ∧
      (coreOf t 0).freeze = [.waitHeld])) = true := by decide +kernel

theorem test_wait : nextNarrow (narrow (waitN 3)) 0 2 = some (waitN 3) ∧ (waitOf (waitN 3) 0 (.core 0)).target = 3 ∧
    after (exec (.wait core0) (narrow (waitN 3))) (fun t => decide ((syncOf t 0).arriving.map (·.index) = [9] ∧
      (coreOf t 0).freeze = [.waitHeld] ∧ seqState t 0 = seqFrozen)) = true ∧
    after (exec (.wait core0) (narrow (waitN 0))) (fun t => decide (t.sync = [] ∧ rf t F.synReleaseCount_count 0 0 = 1 ∧ (coreOf t 0).bundle = 1)) = true ∧
    after (exec (.wait core0) (skipping (narrow (waitN 3)))) (fun t => decide (t.sync = [] ∧ (coreOf t 0).freeze = [])) = true := by decide +kernel

theorem test_guard : nextNarrow (narrow (guardN 1)) 0 3 = some (guardN 1) ∧
    after (exec (.guard core0) (narrow (guardN 1))) (fun t => decide (Map.find (coreOf t 0).guards 3 = some ⟨8192, 4096, false, false⟩)) = true ∧
    after (exec (.guard core0) (withCore (narrow (guardN 0)) fun c => { c with guards := [(3, ⟨0, 1, true, false⟩)] }))
      (fun t => decide ((coreOf t 0).guards = [])) = true := by decide +kernel

def objects (near : Map SyncObj) (signals : List SignalMsg) (arriving : List WaitReq) (held : Map (List WaitReq)) : State :=
  setSync busy 1 ⟨near, signals, arriving, held⟩

theorem test_signalApply : after (exec (.signalApply 1 .none) (objects [(9, ⟨2 ^ 32 - 2, 0, 0⟩)] [⟨false, 9, 5, 7, 11, 0⟩] [] []))
    (fun t => decide (Map.find (syncOf t 1).near 9 = some ⟨2 ^ 32 - 1, 7, 11⟩ ∧ (syncOf t 1).signals = [] ∧ rf t F.synSignalCount_count 1 0 = 1)) = true := by
  decide +kernel

def req (target bound : Nat) (consume : Bool) : WaitReq := ⟨false, 9, target, consume, bound, 0, .companion 4, 0⟩

theorem test_waitArrive : nextArriving (objects [(9, ⟨3, 0, 0⟩)] [] [req 3 0 true] []) 1 = some (req 3 0 true) ∧
    after (exec (.waitArrive 1 .none) (objects [(9, ⟨3, 0, 0⟩)] [] [req 3 0 true] [])) (fun t =>
      decide ((Map.getD (syncOf t 1).near 9 ⟨0, 0, 0⟩).count = 0 ∧ rf t F.synReleaseCount_count 1 0 = 1)) = true ∧
    after (exec (.waitArrive 1 .none) (objects [(9, ⟨3, 0, 0⟩)] [] [req 4 2 true] [])) (fun t => decide (heldAt t 1 9 = [req 4 2 true])) = true ∧
    after (exec (.waitArrive 1 .none) (objects [(9, ⟨3, 0, 0⟩)] [] [req 4 0 true] [])) (fun t =>
      decide (heldAt t 1 9 = [] ∧ rf t F.synTimeoutCount_count 1 0 = 1)) = true := by decide +kernel

/-- A WAIT of the other die's core is held here, and one is on its way. -/
def heldForOther : State :=
  wr (objects [] [] [req 6 1 false] [(9, [⟨false, 9, 4, true, 1, 0, .core 0, 0⟩])]) .sidCount 1 0 256000

theorem test_waitTimeout_bridge : (boundedWaits heldForOther 1)[0]? = some ⟨false, 9, 4, true, 1, 0, .core 0, 0⟩ ∧
    (boundedWaits heldForOther 1)[1]? = some (req 6 1 false) ∧ waiterDie (.core 0) ≠ 1 ∧
    after (exec (.waitTimeout 1 ⟨0, 0⟩) heldForOther) (fun t => decide (heldAt t 1 9 = [] ∧
      t.bridge = [⟨0, 256000, 0 + bridgeTicks, .timeout (.core 0)⟩])) = true ∧
    after (exec (.waitTimeout 1 ⟨1, 0⟩) heldForOther) (fun t => decide ((syncOf t 1).arriving = [] ∧ (heldAt t 1 9).length = 1 ∧
      rf t F.synTimeoutCount_count 1 0 = 1)) = true := by decide +kernel

theorem test_waitTimeout : after (exec (.waitTimeout 1 ⟨0, 0⟩) (wr (objects [] [] [] [(9, [req 4 1 true])]) .sidCount 1 0 256000)) (fun t =>
      decide (heldAt t 1 9 = [] ∧ rf t F.synTimeoutCount_count 1 0 = 1)) = true ∧
    after (exec (.waitTimeout 0 ⟨0, 0⟩) (setSync (frozenBy .waitHeld) 0 ⟨[], [], [], [(9, [⟨false, 9, 4, true, 0, 0, .core 0, 0⟩])]⟩)) (fun t =>
      told t 0 0 stTimeout 0 && decide (rf t F.synTimeoutCount_count 0 0 = 1)) = true := by decide +kernel

/-! ## Updates, data movement, collectives -/

/-- UPDATE of one block of layer 3. -/
def updW (op count : Nat) : Nat := op * 2 ^ 124 + 3 * 2 ^ 116 + count * 2 ^ 76 + 1 * 2 ^ 33

/-- A layer entry of a rule: binary32 everywhere, 16 elements or one tile of order 4, weights at 0, gradients at 0x1000,
moments at 0x2000 and 0x3000, header at 0x4000. -/
def layerV (rule frozen : Nat) : Nat :=
  rule + frozen * 256 + (if rule = 2 then 1 else 0x22) * 256 ^ 2 + 0x22 * 256 ^ 3 + (if rule = 2 then 4 else 0) * 256 ^ 4
    + (if rule = 2 then 4 * 2 ^ 32 + 4 else 16) * 256 ^ 8 + coreBase 0 * 256 ^ 16 + (coreBase 0 + 0x1000) * 256 ^ 24
    + (coreBase 0 + 0x2000) * 256 ^ 32 + (coreBase 0 + 0x3000) * 256 ^ 40 + (coreBase 0 + 0x4000) * 256 ^ 48

def updating (op rule frozen count : Nat) : State :=
  withCore (streaming [wideB 9 4 (updW op count), 0]) fun c => { c with layers := putBytes [] (3 * 128) (leBytes 128 (layerV rule frozen)) }

theorem test_update_frozen : nextWide (updating 1 1 1 1) 0 engUpd = some (updW 1 1) ∧ opcodeOf (updW 1 1) = 1 ∧ (Upd.of (updW 1 1)).count ≠ 0 ∧
    (layerOf (updating 1 1 1 1) 0 3).frozen = true ∧ updWait (coreOf (updating 1 1 1 1) 0) false = 0 ∧
    after (exec (.update core0 .clean) (updating 1 1 1 1)) (fun t => decide ((coreOf t 0).upd.run.isSome = true ∧ (coreOf t 0).bundle = 2)) = true ∧
    (Upd.of (updW 1 0)).count = 0 ∧
    after (exec (.update core0 .clean) (updating 1 1 0 0)) (fun t => decide ((coreOf t 0).bundle = 2 ∧ (coreOf t 0).upd.run = none)) = true := by
  decide +kernel

/-- The commands of a frozen layer complete and count its elements. -/
def rooting : State :=
  match exec (.uroot core0 .clean) (updating 2 2 1 1) with
  | .next t => t
  | _ => State.reset

theorem test_uroot_frozen : nextWide (updating 2 2 1 1) 0 engUpd = some (updW 2 1) ∧ (coreOf rooting 0).upd.run.isSome = true ∧
    ((coreOf rooting 0).upd.run.map fun r => rf (updFinish rooting 0 r) F.updFrozenCount_count 0 0) = some 16 := by decide +kernel

def updBusy : State := withCore (updating 1 1 1 1) fun c => { c with upd := { c.upd with done := 12 } }

/-- The frozen command is in progress; an open one would write its group and its header. -/
def openRun : UpdRun := ⟨0, updW 1 1 + 2 ^ 32, 9, [], f1, false, .clean⟩

theorem test_update_writes_hypotheses : (updating 1 1 0 1).snoop = [] ∧ openRun.er.mf.writeFails = [] ∧ openRun.upd.isRoot = false ∧
    snoopedIn (updating 1 1 0 1) (layerOf (updating 1 1 0 1) 0 openRun.upd.layer).hdrBase 64 = [] ∧
    openRun.upd.final = true ∧
    leNat (memBytes (updWriteHeader (updating 1 1 0 1) 0 openRun) (coreBase 0 + 0x4000) 8) = 1 := by
  decide +kernel

theorem test_update_waits : nextWide updBusy 0 engUpd = some (updW 1 1) ∧ updWait (coreOf updBusy 0) false = 3 ∧
    after (exec (.update core0 .clean) updBusy) (fun t => decide ((coreOf t 0).interlocked = some ⟨3⟩ ∧ seqState t 0 = seqFrozen)) = true := by
  decide +kernel

def almOn : State := wf (wf up F.almCtrl_shape 0 2 1) F.almPeak_ep 0 2 f4

theorem test_almanacRequest : almEnabled almOn 2 = true ∧
    after (exec (.almanacRequest 0 2 7) almOn) (fun t => decide (t.answers.almanac = f4)) = true := by decide +kernel

/-- A DMA descriptor: operation, destination, source, length, pattern. -/
def dmaV (op dst src len pattern : Nat) : Nat :=
  0x20 + op * 256 ^ 8 + dst * 256 ^ 16 + src * 256 ^ 24 + len * 256 ^ 32 + pattern * 256 ^ 40

def dmaing (op dst src len pattern : Nat) : State := given (pokeN busy 4096 8 0x1122334455667788) 0 24 (dmaV op dst src len pattern)

def okDesc (ok : State → Desc → Bool) (s : State) (op : Nat) : Bool :=
  match takeDesc s 0 24 fun d => d.type = 0x20 && dmaOp d = op with
  | some (d, s1) => ok s1 d && decide (jobState s1 = 2) && !dmaHidden s1 (dmaDst d) (dmaLen d) && decide (snoopedIn s1 (dmaDst d) (dmaLen d) = [])
  | none => false

theorem test_fill : okDesc fillOk (dmaing 1 0x2003 0 5 0x0102030405060708) 1 = true ∧
    after (exec (.fill 0 0 .none) (dmaing 1 0x2003 0 5 0x0102030405060708)) (fun t => told t 0 24 stOk 5 &&
      decide (memBytes t 0x2002 7 = [0, 5, 4, 3, 2, 1, 0])) = true ∧
    after (exec (.fill 0 0 .none) (dmaing 1 0x2003 0 0 0)) (fun t => told t 0 24 stEmpty 0) = true ∧
    after (exec (.fill 0 0 .none) (wf (dmaing 1 0x2003 0 5 0) F.jobStatus_state 0 0 1)) (fun t => told t 0 24 stRefused 0) = true ∧
    after (exec (.fill 0 0 .none) (dmaing 1 0x2003 1 5 0)) (fun t => told t 0 24 stInvalid 0) = true := by decide +kernel

theorem test_copy : okDesc copyOk (dmaing 2 0x2003 4096 8 0) 2 = true ∧
    after (exec (.copy 0 0 .none) (dmaing 2 0x2003 4096 8 0)) (fun t => told t 0 24 stOk 8 &&
      decide (leNat (memBytes t 0x2003 8) = 0x1122334455667788)) = true ∧
    after (exec (.copy 0 0 { MemFaults.none with failAt := some 4096 }) (dmaing 2 0x2003 4096 8 0)) (fun t => told t 0 24 stDataLost 0) = true := by
  decide +kernel

theorem test_transfer : okDesc transferOk (dmaing 0x10 0x2003 77 3 0) 0 = true ∧
    after (exec (.transfer 0 0 [7, 8, 9] .none) (dmaing 0x10 0x2003 77 3 0)) (fun t => told t 0 24 stOk 3 &&
      decide (memBytes t 0x2003 3 = [7, 8, 9])) = true ∧
    after (exec (.transfer 0 0 [7] .none) (dmaing 0x10 0x2003 77 3 0)) (fun t => told t 0 24 stDataLost 1) = true ∧
    powerState (dmaing 0x20 77 4096 8 0) ≠ pwrIdle ∧
    after (exec (.transfer 0 0 [] .none) (dmaing 0x20 77 4096 8 0)) (fun t => told t 0 24 stOk 8 &&
      decide (Map.getD t.hostMem 77 0 = 0x88)) = true ∧
    after (exec (.transfer 0 0 [] .none) (dmaing 0 4098 4096 4 0)) (fun t => told t 0 24 stOk 4 &&
      decide (memBytes t 4096 6 = [0x88, 0x77, 0x88, 0x77, 0x88, 0x77])) = true := by decide +kernel

/-- A collective descriptor: int32 from 0 to 0x10000, its group of one member at 0x20000, one run, one stripe. -/
def colV (op members elems start : Nat) : Nat :=
  0x20 + (op + (if op = opMulticast then 0 else 0xDD0) + 2 ^ 12 + members * 2 ^ 17 + 3 * 2 ^ 35) * 256 ^ 8 + (if op = opMulticast then 0 else 0x20000) * 256 ^ 16
    + 0x10000 * 256 ^ 30 + elems * 256 ^ 36 + start * 256 ^ 40 + 1 * 256 ^ 54

def colGiven (v : Nat) : State := given busy 0 24 v

def active1 (t : State) (start : Bool) : Bool :=
  match colOf t (colKey 0 0) with
  | some c => decide (c.phase = .waiting ∧ c.run = 0 ∧ c.released = start) && bitOf (rf t F.colStatus_active 0 0) 0
  | none => false

theorem test_reduceScatter : after (exec (.reduceScatter 0 0 .none) (colGiven (colV opReduceScatter 1 8 0))) (fun t => active1 t true &&
      decide (rf t F.synReleaseCount_count 0 0 = 1)) = true ∧
    after (exec (.reduceScatter 0 0 .none) (colGiven (colV opReduceScatter 1 8 (9 * 2 ^ 16 + 2)))) (fun t => active1 t false &&
      decide ((syncOf t 0).arriving.map (fun w => (w.index, w.target)) = [(9, 2)])) = true ∧
    after (exec (.reduceScatter 0 0 .none) (colGiven (colV opReduceScatter 2 8 0))) (fun t => told t 0 24 stInvalid 0) = true ∧
    after (exec (.reduceScatter 0 0 .none) (colGiven (colV opReduceScatter 0 8 0))) (fun t => told t 0 24 stEmpty 0) = true ∧
    after (exec (.reduceScatter 0 0 .none) (wf (colGiven (colV opReduceScatter 1 8 0)) F.jobStatus_state 0 0 1)) (fun t => told t 0 24 stRefused 0) = true := by
  decide +kernel

theorem test_allGather : after (exec (.allGather 0 0 .none) (colGiven (colV opAllGather 1 8 0))) (fun t => active1 t true) = true := by decide +kernel

theorem test_allReduce : after (exec (.allReduce 0 0 .none) (colGiven (colV opAllReduce 1 8 0))) (fun t => active1 t true) = true ∧
    after (exec (.allReduce 0 0 .none) (pokeN (colGiven (colV opAllReduce 2 8 0)) 0x20004 4 9)) (fun t => told t 0 24 stRefused 0) = true := by
  decide +kernel

def routed (s : State) : State := wf s F.fabRouteCtrl_routeValid 0 0 1

theorem test_multicast : after (exec (.multicast 0 0) (colGiven (colV opMulticast 1 8 0))) (fun t => told t 0 24 stRefused 0) = true ∧
    after (exec (.multicast 0 0) (routed (colGiven (colV opMulticast 1 8 0)))) (fun t => active1 t true) = true := by decide +kernel

/-- A chain of one member with its WAIT released, and a multicast of 8 bytes. -/
def chain1 (op : Nat) : Collective :=
  { colOfDesc busy 0 ⟨0, leBytes 64 (colV op 1 8 0), false⟩ with table := [0], released := true, digest := 77 }

def colIn (s : State) (c : Collective) : State :=
  setRing (setCol s (colKey 0 0) c) 0 24 ⟨[], [⟨0, leBytes 64 0x20, false⟩], [], [], 0, 0, 16, false⟩

theorem test_runStart_chain : after (exec (.collectiveRunStart 0 0 [] .none) (colIn (pokeN busy 0 4 5) (chain1 opAllReduce))) (fun t =>
    decide ((colOf t (colKey 0 0)).map (fun c => c.phase) = some .running ∧ leNat (memBytes t 0x10000 4) = 5)) = true := by decide +kernel

theorem test_runStart_multicast : chooseCandidate (colIn busy (chain1 opMulticast)) 0 0 4 = none ∧
    after (exec (.collectiveRunStart 0 0 [] .none) (colIn busy (chain1 opMulticast))) (fun t =>
      decide ((colOf t (colKey 0 0)).map (fun c => (c.phase, c.status, c.stopped)) = some (.ending, stLinkLost, true))) = true := by decide +kernel

/-- Two members, the own die's and the other one's. -/
def chain2 (op : Nat) : Collective := { chain1 op with table := [0, 1], members := 2 }

theorem test_runStart_pair : (chain2 opAllReduce).n = 2 ∧ (chain2 opAllReduce).next = 1 ∧ (chain2 opAllReduce).packets = 1 ∧
    hiddenIn busy ((chain2 opAllReduce).srcAt 1 0) 32 = [] ∧
    after (exec (.collectiveRunStart 0 0 [] .none) (colIn (pokeN busy 32 4 5) (chain2 opAllReduce))) (fun t =>
      decide ((flowTx t (flowKey 0 1 2 (colFlow 0))).queue.map (fun p => (p.kind, p.aux, p.word / 2 ^ 32, leNat (p.payload.take 4))) =
        [(ptData, 1, 77, 5)])) = true := by decide +kernel

/-- Port 3 is up, and the only one of the die's multicasts. -/
def mcastUp : State := wr (wf busy F.fabPortState_state 0 3 portIsUp) .fabMcastPorts 0 0 8

theorem test_runStart_mcast_sends : chooseCandidate (colIn mcastUp (chain1 opMulticast)) 0 0 4 ≠ none ∧
    hiddenIn mcastUp 0 8 = [] ∧
    after (exec (.collectiveRunStart 0 0 [] .none) (colIn (pokeN mcastUp 0 4 5) (chain1 opMulticast))) (fun t =>
      decide ((colOf t (colKey 0 0)).map (fun c => c.phase) = some .running ∧
        (flowTx t (flowKey 0 0 4 (colFlow 0))).queue.map (fun p => (p.kind, leNat p.payload)) = [(ptMcast, 5)])) = true := by decide +kernel

/-- A far table of four objects. -/
def fars (s : State) : State := { s with job := { s.job with far := 4, farBase := 0x400000 } }

theorem test_startWait_bridge : servingDie true 1 0 = 1 ∧
    after (exec (.reduceScatter 0 0 .none) (fars (colGiven (colV opReduceScatter 1 8 (2 ^ 40 + 1 * 2 ^ 16 + 2))))) (fun t =>
      decide (t.bridge.map (fun m => (m.dest, m.due)) = [(1, bridgeTicks)])) = true := by decide +kernel

theorem test_runEnd : after (exec (.collectiveRunEnd 0 0) (colIn busy { chain1 opAllReduce with phase := .ending, status := stLinkLost })) (fun t =>
      told t 0 24 stLinkLost 0 && decide (colOf t (colKey 0 0) = none ∧ rf t F.colRunCount_count 0 0 = 1)) = true ∧
    after (exec (.collectiveRunEnd 0 0) (colIn busy { chain1 opAllReduce with phase := .ending, runs := 2 })) (fun t =>
      decide ((colOf t (colKey 0 0)).map (fun c => (c.run, c.phase)) = some (1, .waiting))) = true := by decide +kernel

def late (s : State) : State := wr s .sidCount 0 0 (3 * 256000)

theorem test_collectiveTimeout : runComplete { chain1 opReduceScatter with phase := .running } = false ∧
    after (exec (.collectiveTimeout 0 0) (late (colIn busy { chain1 opReduceScatter with phase := .running }))) (fun t =>
      decide ((colOf t (colKey 0 0)).map (fun c => (c.phase, c.status)) = some (.ending, stTimeout))) = true ∧
    after (exec (.collectiveTimeout 0 0) (setSync (late (colIn busy { chain1 opReduceScatter with released := false, start := 9 * 2 ^ 16 + 2 })) 0
      ⟨[], [], [], [(9, [⟨false, 9, 2, true, 3, 0, .collective (colKey 0 0), 0⟩])]⟩)) (fun t =>
      decide ((colOf t (colKey 0 0)).map (fun c => (c.phase, c.status)) = some (.ending, stTimeout) ∧ heldAt t 0 9 = [])) = true := by decide +kernel

theorem test_startWait_times_out_over_there :
    let s := setSync (wr (late (colIn busy { chain1 opReduceScatter with released := false, start := 2 ^ 40 + 1 * 2 ^ 16 + 2 })) .sidCount 1 0 (3 * 256000))
      1 ⟨[], [], [], [(objKey true 1, [⟨true, 1, 2, true, 3, 0, .collective (colKey 0 0), 0⟩])]⟩
    heldAt s 1 (objKey true 1) = [⟨true, 1, 2, true, 3, 0, .collective (colKey 0 0), 0⟩] ∧
    after (exec (.collectiveTimeout 0 0) s) (fun t => decide (heldAt t 1 (objKey true 1) = [] ∧
      t.bridge.map (fun m => (m.dest, m.body)) = [(0, .timeout (.collective (colKey 0 0)))])) = true := by decide +kernel
/-! ## Jobs, power states, companions, interrupts -/

def calm : State := wf busy F.jobStatus_state 0 0 0

def jobV (report : Nat) : Nat := 0x30 + 0x55 * 256 ^ 8 + 0x66 * 256 ^ 16 + 0x77 * 256 ^ 24 + report * 256 ^ 32

def beginning (report : Nat) : State :=
  wf (wr (pokeN (given calm 0 32 (jobV report)) 0x10000 4 9) .synFarBase 0 0 0x10000) F.synFarCount_count 0 0 1

theorem test_jobBegin : (takeDesc (beginning 64) 0 32 fun d => d.type = 0x30).isSome = true ∧ beginInvalid (beginning 64) ⟨0, leBytes 64 (jobV 64), false⟩ = false ∧
    jobRuns (beginning 64) = false ∧ inTrial (beginning 64) = false ∧
    after (exec (.jobBegin lanes true) (beginning 64)) (fun t => told t 0 32 stOk 0 && decide (jobState t = 1 ∧ rd t .jobId 0 0 = 0x55 ∧
      t.job.key = 0x66 ∧ t.job.seed = 0x77 ∧ t.job.far = 1 ∧ Map.getD t.mem 0x10000 0 = 0 ∧ t.hostMem ≠ [])) = true := by decide +kernel

theorem test_jobBegin_report : powerState (wf (beginning 64) F.pwrStatus_state 0 0 1) = pwrIdle ∧ anyRuns (wf (beginning 64) F.pwrStatus_state 0 0 1) = false ∧
    after (exec (.jobBegin lanes true) (wf (beginning 64) F.pwrStatus_state 0 0 1)) (fun t =>
      decide (mapBytes t.hostMem 64 128 = reportBytes t (now (beginning 64) 0))) = true := by decide +kernel

theorem test_jobBegin_refused : after (exec (.jobBegin lanes true) (wf (beginning 0) F.jobStatus_state 0 0 2)) (fun t =>
    told t 0 32 stRefused 0 && decide (jobState t = 2)) = true := by decide +kernel

def jobbed (type : Nat) : State :=
  wr (wr (pokeN (given busy 0 32 (type + 0x55 * 256 ^ 8)) 0x10000 4 9) .jobId 0 0 0x55) .spmResWindow 0 3 (2 ^ 40 + 1)

theorem test_jobEnd : workOutstanding (jobbed 0x31) = false ∧ windows (jobbed 0x31) ≠ [] ∧
    after (exec .jobEnd (pokeN (jobbed 0x31) 0x20000 4 9)) (fun t => told t 0 32 stOk 0 && decide (jobState t = 3 ∧ Map.getD t.mem 0x10000 0 = 9 ∧
      Map.getD t.mem 0x20000 0 = 0 ∧ rflag t F.spmResStatus_tagValid 0 0 = true)) = true ∧
    after (exec .jobEnd (wf (jobbed 0x31) F.jobStatus_state 0 0 1)) (fun t => told t 0 32 stRefused 0) = true := by decide +kernel

theorem test_jobKill : after (exec .jobKill (jobbed 0x32)) (fun t => told t 0 32 stOk 0 && decide (jobState t = 3 ∧ t.mem = [] ∧ windows t = [])) = true ∧
    after (exec .jobKill (wr (jobbed 0x32) .jobId 0 0 1)) (fun t => told t 0 32 stRefused 0 && decide (t.mem ≠ [])) = true := by decide +kernel

def keyed (s : State) (key : Nat) : State := { s with job := { s.job with key := key } }

def windowed (key : Nat) : State := keyed (given busy 0 32 (0x33 + 2 * 256 ^ 8 + 0x10000 * 256 ^ 16 + 0x20000 * 256 ^ 24)) key

theorem test_residency : windowOffered (windowed 7) 0x10000 0x20000 = true ∧ rangeOk (windowed 7) 0x10000 0x20000 = true ∧
    after (exec .residency (windowed 7)) (fun t => told t 0 32 stOk 0 && decide (rd t .spmResWindow 0 2 = 2 * 2 ^ 40 + 1 ∧ rf t F.spmResStatus_windows 0 0 = 1)) = true ∧
    after (exec .residency (windowed 0)) (fun t => told t 0 32 stRefused 0 && decide (rd t .spmResWindow 0 2 = 0)) = true := by decide +kernel

/-- An entry of one candidate: port 5, no hops. -/
def route5 : Nat := 2 ^ 125 + 5 * 2 ^ 26

def routing (s : State) (count : Nat) : State := pokeN (given s 1 32 (0x35 + 9 * 256 ^ 8 + count * 256 ^ 12 + 0x400 * 256 ^ 16)) 0x400 16 route5

theorem test_routeWrite : routeOk route5 = true ∧ routePorts route5 = [5] ∧
    after (exec (.routeWrite 1 .none) (routing calm 1)) (fun t => told t 1 32 stOk 1 && decide (routeEntry t 1 9 = route5 ∧ routeEntry t 1 10 = 0)) = true ∧
    after (exec (.routeWrite 1 .none) (routing calm 0)) (fun t => told t 1 32 stEmpty 0) = true ∧
    after (exec (.routeWrite 1 .none) (routing busy 1)) (fun t => told t 1 32 stRefused 0 && decide (t.routes = [])) = true := by decide +kernel

theorem test_signalDescriptor : signalOk (given busy 1 32 (0x34 + signalN 5 % 2 ^ 60 * 256 ^ 8)) (signalN 5 % 2 ^ 60) = true ∧
    after (exec (.signalDescriptor 1) (given busy 1 32 (0x34 + signalN 5 % 2 ^ 60 * 256 ^ 8))) (fun t => told t 1 32 stOk 0 &&
      decide (t.bridge.map (fun m => m.dest) = [0])) = true ∧
    after (exec (.signalDescriptor 0) (given busy 0 32 (0x34 + signalN 5 % 2 ^ 60 * 256 ^ 8))) (fun t =>
      decide ((syncOf t 0).signals.map (fun m => (m.index, m.increment)) = [(9, 5)])) = true := by decide +kernel

theorem test_restart : after (exec .restart (given calm 0 32 0x37)) (fun t => told t 0 32 stOk 0) = true ∧
    after (exec .restart (given busy 0 32 0x37)) (fun t => told t 0 32 stRefused 0) = true := by decide +kernel

/-- A record of an array classed. -/
def hurt : LedgerRec := ⟨kArray, 1, 1, 3, 0, 5, 0, 0, false⟩

theorem test_ledgerDurable : after (exec .ledgerDurable { up with flt := { up.flt with pendingRecs := [hurt] } }) (fun t =>
    decide (t.flt.ledger = [hurt] ∧ t.flt.pendingRecs = [])) = true := by decide +kernel

def powerV (action value window : Nat) : Nat := 0x36 + action * 256 ^ 8 + value * 256 ^ 12 + window * 256 ^ 14

def powered (action value window : Nat) : State := given calm 0 32 (powerV action value window)

/-- Held for the control step. -/
def isHeld (t : State) : Bool := (ringWork t 0 32).toWrite.all fun c => c.held && decide (c.status = stOk)

theorem test_setCap : after (exec .setCap (powered 1 600 250)) (fun t => isHeld t && decide (rf t F.pwrHostCap_capW 0 0 = 600 ∧ rf t F.pwrHostCap_windowMs 0 0 = 250)) = true ∧
    after (exec .setCap (powered 1 2000 10000)) (fun t => isHeld t && decide (rf t F.pwrHostCap_capW 0 0 = 2000)) = true ∧
    after (exec .setCap (powered 1 599 250)) (fun t => told t 0 32 stInvalid 0) = true := by decide +kernel

theorem test_clearCap : after (exec .clearCap (wf (powered 2 0 0) F.pwrHostCap_valid 0 0 1)) (fun t => isHeld t && decide (rf t F.pwrHostCap_valid 0 0 = 0)) = true ∧
    after (exec .clearCap (powered 2 1 0)) (fun t => told t 0 32 stInvalid 0) = true := by decide +kernel

theorem test_setCeiling : after (exec .setCeiling (powered 3 1250 0)) (fun t => isHeld t && decide (rd t .pwrHostCeiling 0 0 = 1250)) = true ∧
    after (exec .setCeiling (powered 3 510 0)) (fun t => told t 0 32 stInvalid 0) = true := by decide +kernel

theorem test_clearCeiling : after (exec .clearCeiling (wr (powered 4 0 0) .pwrHostCeiling 0 0 700)) (fun t => isHeld t && decide (rd t .pwrHostCeiling 0 0 = 0)) = true ∧
    after (exec .clearCeiling (powered 4 0 1)) (fun t => told t 0 32 stInvalid 0) = true := by decide +kernel

theorem test_nap : after (exec .nap (powered 5 0 0)) (fun t => told t 0 32 stOk 0 && decide (t.host.lowPower = some .nap)) = true ∧
    after (exec .nap (given busy 0 32 (powerV 5 0 0))) (fun t => told t 0 32 stRefused 0 && decide (t.host.lowPower = none)) = true := by decide +kernel

theorem test_dark : after (exec .dark (powered 6 0 0)) (fun t => told t 0 32 stOk 0 && decide (t.host.lowPower = some .dark)) = true ∧
    after (exec .dark (given busy 0 32 (powerV 6 0 0))) (fun t => told t 0 32 stRefused 0) = true := by decide +kernel

def sleepy (k : LowPower) : State := { (wf calm F.pwrStatus_state 0 0 1) with host := { calm.host with lowPower := some k } }

theorem test_lowPowerEntry : mayEnterLowPower (sleepy .nap) = true ∧ bitOf (icuMask (sleepy .nap) 0 1) 2 = true ∧ bitOf (icuMask (sleepy .nap) 0 1) 3 = true ∧
    after (exec .lowPowerEntry (sleepy .nap)) (fun t => decide (powerState t = pwrNap ∧ t.host.lowPower = none)) = true ∧
    after (exec .lowPowerEntry (pokeN (pokeN (sleepy .dark) 8 1 7) (sharedBase 0) 1 7)) (fun t => decide (powerState t = pwrDark ∧ t.host.linkUp = false ∧
      Map.getD t.mem 8 0 = 7 ∧ Map.getD t.mem (sharedBase 0) 0 = 0)) = true := by decide +kernel

def called (st : Nat) : State := { (wf calm F.pwrStatus_state 0 0 st) with host := { calm.host with wakePending := true, darkPerst := false } }

theorem test_wake : powerState (called 2) = pwrNap ∧
    after (exec (.wake lanes) (called 2)) (fun t => decide (powerState t = pwrIdle ∧ rf t F.clkStatus_freqMhz 0 0 = 500 ∧ t.host.wakePending = false)) = true := by
  decide +kernel

theorem test_darkWake : RegInv (called 3) ∧ powerState (called 3) = pwrDark ∧
    after (exec (.darkWake lanes) (pokeN (called 3) 8 1 7)) (fun t => decide (powerState t = pwrIdle ∧ Map.getD t.mem 8 0 = 7)) = true := by
  unfold RegInv; decide +kernel

def imaged (size : Nat) : State := wf (wf (pokeN busy 0x8000 4 0x13) F.ctlCompSrc_src 1 2 0x8000) F.ctlCompSize_size 1 2 size

theorem test_companionStart : writeActs (imaged 4) ⟨.firmware, 1⟩ 1 = true ∧ compRangeOk (imaged 4) 1 0x8000 4 = true ∧
    after (exec (.companionStart ⟨.firmware, 1⟩ 1 ⟨2, .none⟩) (imaged 4)) (fun t => decide (compState t 1 2 = compRunning ∧ rf t F.ctlCompStatus_result 1 2 = stOk ∧
      mapBytes (compOf t (compKey 1 2)).image 0 4 = [0x13, 0, 0, 0])) = true ∧
    after (exec (.companionStart ⟨.host, 0⟩ 1 ⟨2, .none⟩) (imaged 0)) (fun t => decide (rf t F.ctlCompStatus_result 1 2 = stEmpty)) = true ∧
    after (exec (.companionStart ⟨.host, 0⟩ 1 ⟨2, .none⟩) (imaged (2 * 0x10_0000 + 1))) (fun t => decide (rf t F.ctlCompStatus_result 1 2 = stInvalid)) = true ∧
    after (exec (.companionStart ⟨.host, 0⟩ 1 ⟨2, .none⟩) (wf (imaged 4) F.jobStatus_state 0 0 1)) (fun t => decide (rf t F.ctlCompStatus_result 1 2 = stRefused)) = true := by
  decide +kernel

def running : State := wf busy F.ctlCompStatus_state 1 2 compRunning

/-- The row of the image is poisoned. -/
theorem test_companionStart_lost : failRow (poisonedAt (imaged 4) 0x8000) .none 0x8000 4 ≠ none ∧
    after (exec (.companionStart ⟨.firmware, 1⟩ 1 ⟨2, .none⟩) (poisonedAt (imaged 4) 0x8000)) (fun t =>
      decide (rf t F.ctlCompStatus_result 1 2 = stDataLost ∧ compState t 1 2 = compState busy 1 2)) = true := by decide +kernel

theorem test_companionStop : after (exec (.companionStop ⟨.host, 0⟩ 1 2) running) (fun t => decide (compState t 1 2 = compIdle ∧
      rf t F.ctlCompStatus_result 1 2 = stJobKilled)) = true ∧
    after (exec (.companionStop ⟨.host, 0⟩ 1 2) busy) (fun t => decide (compState t 1 2 = compState busy 1 2)) = true := by decide +kernel

theorem test_companion_services : compActive running 1 2 = true ∧
    after (exec (.companionFault 1 2 .register 0) running) (fun t => decide (compState t 1 2 = compFaulted ∧ rd t .ephSeq 1 0 ≠ 0)) = true ∧
    after (exec (.companionExit 1 2 0x10007) running) (fun t => decide (compState t 1 2 = compExited ∧ rf t F.ctlCompStatus_exit 1 2 = 7)) = true ∧
    after (exec (.companionStamp 1 2) (wr running .sidCount 1 0 9)) (fun t => decide (t.answers.companion = 9)) = true ∧
    after (exec (.companionLog 1 2 1 2) running) (fun t => decide (t.answers.companion = stOk ∧ rd t .ephSeq 1 0 ≠ 0)) = true := by decide +kernel

theorem test_companionSignal : signalOk running (signalN 5 % 2 ^ 60) = true ∧
    after (exec (.companionSignal 1 2 (BitVec.ofNat 64 (signalN 5 % 2 ^ 60))) running) (fun t => decide (t.answers.companion = stOk ∧ t.bridge.map (fun m => m.dest) = [0])) = true ∧
    after (exec (.companionSignal 1 2 (BitVec.ofNat 64 (2 ^ 60))) running) (fun t => decide (t.answers.companion = stInvalid)) = true := by decide +kernel

theorem test_companionWait : waitOk running false 9 = true ∧
    after (exec (.companionWait 1 2 (BitVec.ofNat 64 (waitN 3 % 2 ^ 60))) running) (fun t => decide ((syncOf t 1).arriving.length = 1 ∧
      (compOf t (compKey 1 2)).waiting = true)) = true ∧
    after (exec (.companionWait 1 2 (BitVec.ofNat 64 (waitN 0 % 2 ^ 60))) running) (fun t => decide (t.answers.companion = stOk ∧ rf t F.synReleaseCount_count 1 0 = 1)) = true ∧
    after (exec (.companionWait 1 2 (BitVec.ofNat 64 (2 ^ 60))) running) (fun t => decide (t.answers.companion = stInvalid)) = true := by decide +kernel

/-- Source 0 of group 2 pends unmasked, aimed at control core 3 or at RDYBSY_N. -/
def interrupted (target : Nat) : State :=
  { (wr (wr (wr up .icuPend 1 2 1) .icuMask 1 2 0x1E) .icuTarget 1 64 target) with icuTimers := [(1 * 32 + 2, 0)] }

theorem test_holdoffExpiry : holdoffOver (interrupted 0x13) 1 2 = true ∧ controlRuns (interrupted 0x13) = true ∧
    after (exec (.holdoffExpiry 1 2) (interrupted 0x13)) (fun t => decide (timerRuns t 1 2 = false ∧ rd t .icuSummary 1 3 = 4 ∧ rd t .icuSummary 1 2 = 0)) = true ∧
    after (exec (.holdoffExpiry 1 2) (interrupted 0x20)) (fun t => decide (rd t .icuSummaryHost 1 0 = 4 ∧ t.host.attention = true)) = true := by decide +kernel

/-- At stamp 80,000 and in the pulse state of the pin. -/
def attentive (s : State) (pulsed : Option Nat) : State :=
  let s := wr s .sidCount 0 0 80000
  { s with host := { s.host with attention := true, highSince := 0, pulsed := pulsed } }

theorem test_attentionPulse : mayPulse (attentive up none) = true ∧
    after (exec .attentionPulse (attentive up none)) (fun t => decide (t.host.attention = false ∧ t.host.pulsed = some 80000)) = true := by
  decide +kernel

def repeats (s : State) : State :=
  { wr s .sidCount 0 0 80000 with host := { s.host with repeating := true, pulsed := some 0 } }

theorem test_attentionRepeat : attentionNow (repeats (interrupted 0x20)) = true ∧
    rflag (repeats (wf (interrupted 0x20) F.hifAttnCfg_repeatUs 0 0 5)) F.hifAttnCfg_repeatUs 0 0 = true ∧
    repeatDue (repeats (wf (interrupted 0x20) F.hifAttnCfg_repeatUs 0 0 5)) = true ∧
    after (exec .attentionRepeat (repeats (wf (interrupted 0x20) F.hifAttnCfg_repeatUs 0 0 5))) (fun t => decide (t.host.attention = true)) = true ∧
    attentionNow (repeats up) = false ∧ after (exec .attentionRepeat (repeats up)) (fun t => decide (t.host.repeating = false)) = true := by decide +kernel

def inputs (presN sealed pwrbrkN : Nat) : State :=
  wf (wf (wf up F.icuInputState_presN 0 0 presN) F.icuInputState_sealClosed 0 0 sealed) F.icuInputState_pwrbrkN 0 0 pwrbrkN

theorem test_inputs : after (exec (.inputFilterAccept .pres ⟨0, 4294967295⟩) (inputs 1 0 1)) (fun t => presenceLatched t && bitOf (rd t .icuPend 0 3) 0) = true ∧
    after (exec (.inputFilterAccept .pres ⟨0, 4294967295⟩) (inputs 1 1 1)) (fun t => !presenceLatched t && decide (rd t .ephSeq 0 0 ≠ 0)) = true ∧
    after (exec (.inputFilterAccept .sealLoop ⟨1, 4294967295⟩) (inputs 1 0 1)) (fun t => decide (rf t F.icuInputState_sealClosed 0 0 = 1) && bitOf (rd t .icuPend 0 3) 3) = true ∧
    after (exec (.inputFilterAccept .sealLoop ⟨0, 4294967295⟩) (inputs 1 1 1)) (fun t => decide (rf t F.truStatus_sealOpen 0 0 = 1 ∧ rf t F.truSealCount_count 0 0 = 1)) = true ∧
    after (exec (.inputFilterAccept .loc ⟨9, 4294967295⟩) (inputs 1 1 1)) (fun t => decide (rf t F.icuInputState_loc 0 0 = 9 ∧ location t = 0) && bitOf (rd t .icuPend 0 3) 4) = true ∧
    after (exec (.inputFilterAccept .pwrbrk ⟨0, 4294967295⟩) (inputs 1 1 1)) (fun t => bitOf (rd t .icuPend 1 2) 3) = true := by decide +kernel

theorem test_presenceExpiry : after (exec .presenceExpiry (wf up F.icuInputState_presenceLatched 0 0 1)) (fun t =>
    !presenceLatched t && bitOf (rd t .icuPend 0 3) 1) = true := by decide +kernel


/-! ### Contradictions, presence and the companion's accesses -/

/-- Another master acted in this Dome cycle. -/
def acted (s : State) (item outcome : Nat) (m : Master) : State := noteAct s item outcome m

theorem test_superseded : higherAct (acted (jobbed 0x31) 1 actKill .management) 1 actEnd .host ≠ none ∧
    after (exec .jobEnd (acted (jobbed 0x31) 1 actKill .management)) (fun t => told t 0 32 stSuperseded 0 && decide (jobState t = 2)) = true ∧
    after (exec .jobKill (acted (jobbed 0x32) 1 actEnd .management)) (fun t => told t 0 32 stSuperseded 0) = true ∧
    after (exec (.jobBegin lanes true) (acted (beginning 64) 1 actKill .management)) (fun t => told t 0 32 stSuperseded 0 && decide (jobState t = 0)) = true ∧
    after (exec .nap (acted (powered 5 0 0) 2 actAwake .management)) (fun t => told t 0 32 stSuperseded 0 && decide (t.host.lowPower = none)) = true ∧
    after (exec .dark (acted (powered 6 0 0) 2 actAwake .presence)) (fun t => told t 0 32 stSuperseded 0 && decide (t.host.lowPower = none)) = true := by
  decide +kernel

/-- A kill by firmware is still open. -/
def firmwareKilling : State :=
  let s := wf (jobbed 0x31) F.jobStatus_state 0 0 3
  { s with job := { s.job with killer := masterCode .firmware } }

theorem test_jobEnd_over_firmware : jobState firmwareKilling = 3 ∧ higherAct firmwareKilling 1 actEnd .host = none ∧ workOutstanding firmwareKilling = false ∧
    after (exec .jobEnd firmwareKilling) (fun t => told t 0 32 stOk 0 && decide (jobState t = 3)) = true := by decide +kernel

theorem test_wake_hypotheses : 500 ≤ rf (called 2) F.clkStatus_targetMhz 0 0 ∧ 500 ≤ rf (called 2) F.clkStatus_targetMhz 1 0 ∧
    500 ≤ rf (called 2) F.pwrTightCfg_brakeMhz 0 0 ∧ 500 ≤ rf (called 3) F.clkStatus_targetMhz 1 0 ∧ (called 2).host.wakePending = true := by decide +kernel

theorem test_attentionRepeat_waits : repeatDue (repeats (interrupted 0x20)) = false ∧ attentionNow (repeats (interrupted 0x20)) = true ∧
    after (exec .attentionRepeat (repeats (interrupted 0x20))) (fun t => decide (t = repeats (interrupted 0x20))) = true := by decide +kernel

/-- What the program in slot 2 of die 1 does at an address. -/
def acts (x : CompAct) (addr : Nat) : Host.Outcome State Fault Refusal := exec (.companionFault 1 2 x (BitVec.ofNat 64 addr)) (pokeN running 0x40 4 0x1234)

theorem test_companion_acts : inSlot compBase 4 = true ∧ inDevice running 0x40 4 = true ∧ inSlot 0x40 4 = false ∧
    after (acts .fetch 0) (fun t => decide (compState t 1 2 = compFaulted)) = true ∧
    after (acts (.csr csrTime true) 0) (fun t => decide (compState t 1 2 = compFaulted)) = true ∧
    after (acts (.csr csrTime false) 0) (fun t => decide (compState t 1 2 = compRunning)) = true ∧
    after (acts (.call 6) 0) (fun t => decide (compState t 1 2 = compFaulted)) = true ∧
    after (acts (.load 4 .none) 0x40) (fun t => decide (t.answers.companion = 0x1234)) = true ∧
    after (acts (.store [9, 8] .none) 0x42) (fun t => decide (leNat (memBytes t 0x40 4) = 0x08091234)) = true ∧
    after (acts (.store [7] .none) compBase) (fun t => decide (mapBytes (compOf t (compKey 1 2)).image 0 1 = [7])) = true ∧
    after (acts (.load 4 .none) (2 ^ 63)) (fun t => decide (compState t 1 2 = compFaulted ∧ rd t .ephSeq 1 0 ≠ 0)) = true := by decide +kernel

/-- A log full of records whose CRC fails: none of them decides a channel. -/
def fullLog (spare : List LedgerRec) : State :=
  { up with flt := { up.flt with pendingRecs := [hurt], ledger := List.replicate 32768 { hurt with torn := true }, spare := spare } }

theorem test_ledger_full : ledgerDeciding (fullLog []).flt.ledger = [] ∧ 32768 ≤ (fullLog []).flt.ledger.length ∧ (fullLog []).tru.saved = none ∧
    after (exec .ledgerDurable (fullLog [])) (fun t => decide (t.flt.ledger = [hurt] ∧ t.flt.region = 1)) = true ∧
    after (exec .ledgerDurable (fullLog [hurt])) (fun t => decide (t.flt.ledger.length = 32768 ∧ t.flt.spare = [] ∧ t.flt.pendingRecs = [hurt])) = true := by
  decide +kernel
/-! ## The fabric -/

/-- A port that is up with eight lanes, routing valid in epoch 3. -/
def ported (s : State) : State :=
  wf (wf (wf (wf s F.fabPortState_state 0 5 2) F.fabPortState_lanes 0 5 8) F.fabRouteCtrl_epoch 0 0 3) F.fabRouteCtrl_routeValid 0 0 1

def port5 (s : State) (f : PortState → PortState) : State := setPort s 0 5 (f (portOf s 0 5))

/-- A flit of the replay buffer. -/
def sent (seq attempts : Nat) : TxFlit := ⟨seq, flitPacket, List.replicate 248 0, attempts, false, 0⟩

def flitted : State := port5 (ported busy) fun v => { v with replayBuf := [sent 7 1, sent 8 1, sent 9 1], rxSeq := 4095 }

/-- A flit as its bytes arrive, with a packet in its content. -/
def wire (kind ack seq : Nat) (nak : Bool) (content : Bytes) : Flit := ⟨flitBytes seq kind ack nak content, []⟩

/-- A SIGNAL packet without payload. -/
def bare : Packet := { packet 3 with word := 7 }

theorem test_flit_fields : flitGood (wire 1 8 5 true []) = true ∧ flitKind (wire 1 8 5 true []) = 1 ∧ flitAck (wire 1 8 5 true []) = 8 ∧
    flitSeq (wire 1 8 5 true []) = 5 ∧ flitNak (wire 1 8 5 true []) = true ∧ flitGood (wire 4 8 5 true []) = false ∧
    flitGood ⟨(flitBytes 5 1 8 true []).set 9 1, []⟩ = false := by decide +kernel

theorem test_flitReceive : portStateOf flitted 0 5 = portIsUp ∧ ackFlits (portOf flitted 0 5).replayBuf 8 = [sent 9 1] ∧
    after (exec (.flitReceive 0 5 (wire 1 8 0 false (packetData bare))) flitted) (fun t => decide ((portOf t 0 5).rxSeq = 0 ∧
      (portOf t 0 5).replayBuf = [sent 9 1] ∧ (portOf t 0 5).rxPkts = [bare] ∧ (portOf t 0 5).rxBytes = [])) = true ∧
    (portOf flitted 0 5).toWire = [] ∧
    after (exec (.flitReceive 0 5 (wire 1 8 3 true [])) flitted) (fun t => decide ((portOf t 0 5).rxSeq = 4095 ∧ (portOf t 0 5).replayBuf = [sent 9 1] ∧
      (portOf t 0 5).toWire = [9] ∧ rf t F.fabLinkReplayCount_count 0 0 = 0)) = true ∧
    after (exec (.flitReceive 0 5 (wire 4 8 0 false [])) flitted) (fun t => decide ((portOf t 0 5).nakOwed = true ∧ (portOf t 0 5).rxSeq = 4095)) = true := by
  decide +kernel

/-- A packet of 300 bytes crosses into a second flit. -/
theorem test_packets_cross_flits : bare.wellFormed = true ∧ packetOf (packetHeader bare) [] = bare ∧
    (let big := { packet 1 with payload := List.replicate 268 (1 : Byte) }
     (addContent [] ((packetData big).take 248)).1 = [] ∧
     (addContent (addContent [] ((packetData big).take 248)).2 ((packetData big).drop 248 ++ packetData bare)).1 = [big, bare]) := by
  decide +kernel

/-- A codeword is divisible by the first two factors of the generator polynomial. -/
theorem test_codewords : rsGenerator.length = 30 ∧ rsGenerator.foldl (fun x y => x ^^^ y) 1 = 0 ∧
    (let c := [5, 9] ++ rsParity [5, 9]
     c.foldl (fun x y => x ^^^ y) 0 = 0 ∧ c.foldl (fun x y => gfMul 2 x ^^^ y) 0 = 0) := by decide +kernel

theorem test_creditFlit : after (exec (.creditFlit 0 5 [1, 2, 3, 0, 0, 0, 0, 9]) flitted) (fun t =>
    decide (Map.getD (portOf t 0 5).credits 2 64 = 67 ∧ Map.getD (portOf t 0 5).credits 7 64 = 73)) = true := by decide +kernel

theorem test_linkControlFlit : after (exec (.linkControlFlit 0 5 6) flitted) (fun t => decide ((portOf t 0 5).stratum = 6 ∧
    (portOf t 0 5).replayBuf.map (·.kind) = [1, 1, 1, 3] ∧ (portOf t 0 5).toWire.length = 1)) = true := by decide +kernel

def laned : State := port5 (ported busy) fun v => { v with inUse := [0, 1, 2, 3, 4, 5, 6, 7], unlocked := [(2, 0)] }

theorem test_lanes : portStateOf laned 0 5 ≠ portDown ∧ (portOf laned 0 5).failing = false ∧
    after (exec (.laneLockLoss 0 5 6) laned) (fun t => decide (Map.find (portOf t 0 5).unlocked 6 = some 0)) = true ∧
    after (exec (.laneLockRegain 0 5 2) laned) (fun t => decide ((portOf t 0 5).unlocked = [])) = true := by decide +kernel

/-- A SIGNAL packet to location 4 waits on flow 3 of channel 0, with a route to it. -/
def wired : Packet := { packet 3 with dst := 8, flow := 3, fseq := 11, word := 4 }

def queued (s : State) (route : Bool) : State :=
  setFlowTx (if route then { ported s with routes := [(4, route5)] } else ported s) (flowKey 0 8 0 3) ⟨12, [wired], [], [], none⟩

theorem test_packetInject : chooseCandidate (queued busy true) 0 8 0 = some ⟨5, 0, 0, 0, 0⟩ ∧ portRoom (queued busy true) 0 5 wired = true ∧
    after (exec (.packetInject 0 3 8 ⟨0, [], .none⟩) (queued busy true)) (fun t => decide ((t.answers.wire.map (·.1)) = some 5 ∧
      (flowTx t (flowKey 0 8 0 3)).queue = [] ∧ (flowTx t (flowKey 0 8 0 3)).retained.length = 1 ∧ rd t .fabPortOutstanding 0 5 = 1)) = true ∧
    chooseCandidate (queued busy false) 0 8 0 = none ∧
    after (exec (.packetInject 0 3 8 ⟨0, [], .none⟩) (queued busy false)) (fun t => decide ((flowTx t (flowKey 0 8 0 3)).queue = [] ∧ rf t F.synLostCount_count 0 0 = 1)) = true := by
  decide +kernel

/-- A DATA packet of digest 77 for the other die of the module. -/
def bridged : State := setFlowTx (setCol (ported busy) (colKey 1 0) { chain1 opReduceScatter with phase := .waiting }) (flowKey 0 1 2 3)
  ⟨12, [{ packet 1 with vc := 2, dst := 1, flow := 3, word := 77 * 2 ^ 32 }], [], [], none⟩

theorem test_packetInject_bridge : colByDigest bridged 1 { packet 1 with vc := 2, dst := 1, flow := 3, word := 77 * 2 ^ 32 } = some (colKey 1 0) ∧
    after (exec (.packetInject 0 3 1 ⟨2, [], .none⟩) bridged) (fun t => decide ((flowTx t (flowKey 0 1 2 3)).queue.length = 1)) = true ∧
    after (exec (.packetInject 0 3 1 ⟨2, [], .none⟩) (wr bridged .sidCount 0 0 bridgeTicks)) (fun t => decide (((colOf t (colKey 1 0)).map (·.early.length)) = some 1)) = true := by decide +kernel

def retained (tries : Nat) : State :=
  setFlowTx (ported busy) (flowKey 0 8 0 3) ⟨12, [], [(wired, tries)], [], some ⟨5, 0, 0, 0, 0⟩⟩

/-- A packet as it arrives for die 0. -/
def arriving (kind vc word : Nat) : Packet := { packet kind with vc := vc, epoch := 3, src := 8, flow := 3, word := word }

/-- It is the first packet that port 5 holds. -/
def got (s : State) (p : Packet) : State := port5 s fun v => { v with rxPkts := [p] }

theorem test_heard : portUp (got (retained 1) (arriving 5 1 11)) 0 5 = true ∧ rxFirst (got (retained 1) (arriving 5 1 11)) 0 5 1 = some (arriving 5 1 11) ∧
    rflag (retained 1) F.fabRouteCtrl_routeValid 0 0 = true ∧ rf (retained 1) F.fabRouteCtrl_epoch 0 0 = 3 ∧ endpoint (retained 1) 0 = 0 ∧
    (flowRx (retained 1) (rxKey 0 (arriving 5 1 11))).expected = 0 ∧ (flowRx (retained 1) (rxKey 0 (arriving 5 1 11))).held = [] := by decide +kernel

theorem test_ackReceive :
    after (exec (.ackReceive 0 5 (arriving 5 1 11) 0) (got (retained 1) (arriving 5 1 11))) (fun t => decide ((flowTx t (flowKey 0 8 0 3)).retained = [] ∧
      (flowTx t (flowKey 0 8 0 3)).cand = none)) = true ∧
    after (exec (.ackReceive 0 5 (arriving 5 1 10) 0) (got (retained 1) (arriving 5 1 10))) (fun t => decide ((flowTx t (flowKey 0 8 0 3)).retained.length = 1 ∧
      rd t .fabPortOutstanding 0 5 = 1)) = true := by decide +kernel

theorem test_ackTimer : after (exec (.ackTimer 0 8 0 3) (setFlowRx (ported busy) (flowKey 0 8 0 3) ⟨5, [], 2, 0⟩)) (fun t =>
    decide (((flowTx t (flowKey 0 8 1 3)).queue.map fun p => (p.kind, p.dst, p.word % 2 ^ 16)) = [(5, 8, 4)] ∧ (flowRx t (flowKey 0 8 0 3)).sinceAck = 0)) = true := by
  decide +kernel

theorem test_retransmitTimeout : after (exec (.retransmitTimeout 0 3 8 0) (retained 2)) (fun t => decide ((flowTx t (flowKey 0 8 0 3)).retained = [(wired, 2)] ∧
      (flowTx t (flowKey 0 8 0 3)).resend = [(11, true)] ∧
      rf t F.fabRetxCount_count 0 0 = 0)) = true ∧
    after (exec (.retransmitTimeout 0 3 8 0) (retained 3)) (fun t => decide ((flowTx t (flowKey 0 8 0 3)).retained = [] ∧
      (flowTx t (flowKey 0 8 0 3)).cand = none)) = true := by decide +kernel

/-- A packet is sent again, and counted, when it goes out. -/
def resent (again : Bool) : State := setFlowTx (ported busy) (flowKey 0 8 0 3) ⟨12, [], [(wired, 2)], [(11, again)], some ⟨5, 0, 0, 0, 0⟩⟩

theorem test_resend : rflag (resent true) F.fabRouteCtrl_routeValid 0 0 = true ∧ linkRoom (resent true) 0 5 wired = true ∧
    after (exec (.packetInject 0 3 8 ⟨0, [], .none⟩) (resent true)) (fun t => decide ((flowTx t (flowKey 0 8 0 3)).retained = [(wired, 3)] ∧
      (flowTx t (flowKey 0 8 0 3)).resend = [] ∧ rf t F.fabRetxCount_count 0 0 = 1 ∧ t.answers.wire.map (·.1) = some 5)) = true ∧
    after (exec (.packetInject 0 3 8 ⟨0, [], .none⟩) (resent false)) (fun t => decide ((flowTx t (flowKey 0 8 0 3)).retained = [(wired, 2)] ∧
      rf t F.fabRetxCount_count 0 0 = 0 ∧ t.answers.wire.map (·.1) = some 5)) = true := by decide +kernel

theorem test_throttleRecover : after (exec (.throttleRecover 0 5 2) (wf (port5 (ported busy) fun v => { v with rate := [(2, 1000)] }) F.fabThrottleCfg_recoverUs 0 0 0))
    (fun t => decide (Map.getD (portOf t 0 5).rate 2 (fullRate 8) = fullRate 8)) = true := by decide +kernel

theorem test_fabricFlush : after (exec .fabricFlush { (retained 1) with job := { busy.job with flushOwed := true } }) (fun t =>
    decide ((flowTx t (flowKey 0 8 0 3)).retained = [] ∧ t.job.flushOwed = false)) = true := by decide +kernel

def oneCol (op : Nat) (ph : RunPhase) : State := setCol (ported busy) (colKey 0 0) { chain1 op with phase := ph, members := 2 }

/-- A packet on a flow of ring 0. -/
def onRing (p : Packet) : Packet := { p with flow := 35 }

/-- A running chain in which the sender of the packets comes before this die. -/
def secondOf : State := setCol (ported busy) (colKey 0 0) { chain1 opReduceScatter with phase := .running, members := 2, table := [8, 0] }

/-- A packet that waits at port 5 is received. -/
def receives (i : Instr) (s : State) (p : Packet) (q : State → Bool) : Bool := after (exec i (got s p)) q

theorem test_dataPacketReceive : colByDigest (oneCol opReduceScatter .waiting) 0 (arriving 1 2 (77 * 2 ^ 32)) = some (colKey 0 0) ∧
    receives (.dataPacketReceive 0 5 (arriving 1 2 (77 * 2 ^ 32)) [] .none) (oneCol opReduceScatter .waiting) (arriving 1 2 (77 * 2 ^ 32)) (fun t =>
      decide (((colOf t (colKey 0 0)).map (·.early.length)) = some 1 ∧ (flowRx t (rxKey 0 (arriving 1 2 0))).expected = 1 ∧ (portOf t 0 5).rxPkts = [])) = true ∧
    digestHit (oneCol opReduceScatter .waiting) 0 (arriving 1 2 (78 * 2 ^ 32)) = .wait ∧
    receives (.dataPacketReceive 0 5 (arriving 1 2 (78 * 2 ^ 32)) [] .none) (oneCol opReduceScatter .waiting) (arriving 1 2 (78 * 2 ^ 32)) (fun t =>
      decide ((waitingAt t 0).length = 1)) = true ∧
    digestBad secondOf 0 (onRing (arriving 1 2 (78 * 2 ^ 32))) = true ∧ (flowRx secondOf (rxKey 0 (onRing (arriving 1 2 0)))).held = [] ∧
    receives (.dataPacketReceive 0 5 (onRing (arriving 1 2 (78 * 2 ^ 32))) [] .none) secondOf (onRing (arriving 1 2 (78 * 2 ^ 32))) (fun t =>
      decide (rf t F.colDropCount_count 0 0 = 1)) = true ∧
    receives (.dataPacketReceive 0 5 { arriving 1 2 0 with epoch := 4 } [] .none) (oneCol opReduceScatter .waiting) { arriving 1 2 0 with epoch := 4 } (fun t =>
      decide (rf t F.fabStaleCount_count 0 0 = 1 ∧ t.flowsRx = [])) = true := by decide +kernel

theorem test_abortReceive : receives (.abortReceive 0 5 (arriving 4 0 (77 * 2 ^ 32 + stLinkLost))) (oneCol opReduceScatter .running)
    (arriving 4 0 (77 * 2 ^ 32 + stLinkLost)) (fun t =>
    decide (((colOf t (colKey 0 0)).map fun c => (c.phase, c.status, c.stopped)) = some (.ending, stLinkLost, true) ∧ rf t F.colAbortCount_count 0 0 = 1)) = true := by
  decide +kernel

theorem test_signalPacketReceive : jobRuns (ported busy) = true ∧
    receives (.signalPacketReceive 0 5 (arriving 3 0 (signalN 5 % 2 ^ 60))) (ported busy) (arriving 3 0 (signalN 5 % 2 ^ 60)) (fun t =>
    decide ((syncOf t 0).signals.map (fun m => (m.index, m.increment, m.src)) = [(9, 5, 8)])) = true := by decide +kernel

/-- Once the job has ended, packets of it are dropped. -/
def ended : State := wf (ported busy) F.jobStatus_state 0 0 3

theorem test_late : jobTakes ended = false ∧
    ([(.dataPacketReceive 0 5 (arriving 1 2 (77 * 2 ^ 32)) [] .none, arriving 1 2 (77 * 2 ^ 32)), (.abortReceive 0 5 (arriving 4 0 (77 * 2 ^ 32)), arriving 4 0 (77 * 2 ^ 32)),
      (.signalPacketReceive 0 5 (arriving 3 0 (signalN 5 % 2 ^ 60)), arriving 3 0 (signalN 5 % 2 ^ 60))] : List (Instr × Packet)).all (fun x =>
        receives x.1 ended x.2 fun t => decide (rf t F.colDropCount_count 0 0 = 1 ∧ t.sync = ended.sync)) = true := by decide +kernel

def mrun (total : Nat) : McastRun := ⟨0x5000, total, 0, 2, 1, 0⟩

/-- Three bytes of a multicast whose destination works with this run. -/
def mpkt (kind : Nat) : Packet := { arriving kind (if kind = 2 then 4 else 1) (mcastDigest (mrun 3) * 2 ^ 32) with payload := if kind = 2 then [7, 8, 9] else [] }

theorem test_mcastReceive : mcastRefusal (got (ported busy) (mpkt 2)) 0 (mrun 3) = none ∧ hiddenIn (ported busy) 0x5000 3 = [] ∧
    (ported busy).heldWrites = [] ∧ snoopedIn (ported busy) 0x5000 3 = [] ∧
    receives (.mcastReceive 0 5 (mpkt 2) ⟨mrun 3, .none⟩) (ported busy) (mpkt 2) (fun t =>
      decide (memBytes t 0x5000 3 = [7, 8, 9] ∧ ((flowTx t (flowKey 0 8 1 3)).queue.map (·.kind)) = [6])) = true ∧
    mcastRefusal (ported calm) 0 (mrun 3) = some 4 ∧
    receives (.mcastReceive 0 5 (mpkt 2) ⟨mrun 3, .none⟩) (ported calm) (mpkt 2) (fun t =>
      decide (t.mem = [] ∧ ((flowTx t (flowKey 0 8 1 3)).queue.map (·.kind)) = [7])) = true := by decide +kernel

theorem test_mcast_answers : (mcastRunOf (oneCol opMulticast .running) 0 (onRing (arriving 6 1 (77 * 2 ^ 32)))).isSome = true ∧
    (mcastRunOf (oneCol opMulticast .running) 0 { arriving 6 1 (77 * 2 ^ 32) with flow := 51 }).isSome = false ∧
    receives (.mcastAckReceive 0 5 (onRing (arriving 6 1 (77 * 2 ^ 32)))) (oneCol opMulticast .running) (onRing (arriving 6 1 (77 * 2 ^ 32))) (fun t =>
      decide ((colOf t (colKey 0 0)).map (·.acks) = some 1)) = true ∧
    receives (.refuseReceive 0 5 (onRing (arriving 7 1 (77 * 2 ^ 32)))) (oneCol opMulticast .running) (onRing (arriving 7 1 (77 * 2 ^ 32))) (fun t =>
      decide ((colOf t (colKey 0 0)).map (·.refusals) = some 1)) = true := by
  decide +kernel

theorem test_fencedReceive : receives (.fencedReceive 0 5 (arriving 8 1 (3 * 2 ^ 16 + 11)) 0) (retained 1) (arriving 8 1 (3 * 2 ^ 16 + 11)) (fun t =>
    decide ((flowTx t (flowKey 0 8 0 3)).retained = [] ∧ rf t F.synLostCount_count 0 0 = 1)) = true := by decide +kernel

theorem test_mgmtPacketReceive : receives (.mgmtPacketReceive 0 5 (arriving 9 0 0)) (ported busy) (arriving 9 0 0) (fun t => decide (rf t F.fabMisrouteCount_count 0 0 = 1)) = true ∧
    receives (.mgmtPacketReceive 0 5 (arriving 1 5 0)) (ported busy) (arriving 1 5 0) (fun t => decide (rf t F.fabMisrouteCount_count 0 0 = 1)) = true := by decide +kernel

/-- A multicast with port 5 among its ports starts and queues its packet. -/
def casting : State := wf (colIn (pokeN { ported busy with routes := [] } 0 4 5) (chain1 opMulticast)) F.fabMcastPorts_ports 0 0 32

/-- The lane that lost lock at 0 has been out for more than 1 µs, and lane 3 has just gone. -/
def lockLost (s : State) : State := wr (port5 s fun v => { v with unlocked := [(2, 0), (3, 4000)] }) .sidCount 0 0 5000

theorem test_portFail : lostLanes (lockLost laned) 0 5 = [2] ∧ portFails laned 0 5 .lockLoss = false ∧
    after (exec (.portFail 0 5 .lockLoss) (lockLost laned)) (fun t => decide (portStateOf t 0 5 = portTraining ∧ rf t F.fabRetrainCount_count 0 0 = 1)) = true ∧
    after (exec (.portFail 0 5 .lockLoss) (wf (lockLost laned) F.fabPortMode_ports 0 0 32)) (fun t => decide (portStateOf t 0 5 = portDown ∧ rf t F.fabDetourCount_count 0 0 = 1)) = true ∧
    after (exec (.portFail 0 5 (.exhausted 7)) (port5 laned fun v => { v with replayBuf := [{ sent 7 3 with exhausted := true }] })) (fun t =>
      decide ((portOf t 0 5).failing = true) && !portFails t 0 5 (.exhausted 7)) = true := by
  decide +kernel

def training : State := wf (port5 laned fun v => { v with failing := true, replayBuf := [sent 7 1, sent 8 0], toWire := [8] }) F.fabPortState_state 0 5 1

/-- A flit that never went out is no resend. -/
theorem test_retrainComplete : portStateOf training 0 5 = portTraining ∧
    after (exec (.retrainComplete 0 5 0x1F) training) (fun t => decide (portStateOf t 0 5 = portIsUp ∧ portLanes t 0 5 = 4 ∧ (portOf t 0 5).inUse = [0, 1, 2, 3] ∧
      (portOf t 0 5).toWire = [7, 8] ∧ rf t F.fabLinkReplayCount_count 0 0 = 0) && decide (rf (sendPair t 0 5) F.fabLinkReplayCount_count 0 0 = 1)) = true ∧
    after (exec (.retrainComplete 0 5 1) training) (fun t => decide (portStateOf t 0 5 = portDown ∧ (portOf t 0 5).reinject = true)) = true := by decide +kernel

/-- A port whose last flit waits for the lanes. -/
def lading : State := port5 flitted fun v => { v with toWire := [9] }

theorem test_sendPair : linkBusy (portOf lading 0 5) = true ∧ portUp lading 0 5 = true ∧
    (let t := sendPair lading 0 5
     t.answers.lanes.map (·.1) = [5] ∧ (portOf t 0 5).toWire = []) := by decide +kernel

/-- Port 5 is down with one packet retained on it, and port 6 is up with a route over it. -/
def moved : State :=
  let s := wf (wf (port5 (retained 1) fun v => { v with reinject := true }) F.fabPortState_state 0 5 0) F.fabPortState_state 0 6 2
  { s with routes := [(4, 2 ^ 125 + 6 * 2 ^ 26)] }

theorem test_detourReinject : portStateOf moved 0 5 = portDown ∧ chooseCandidate moved 0 8 0 = some ⟨6, 0, 0, 0, 0⟩ ∧
    after (exec (.detourReinject 0 5) moved) (fun t => decide ((portOf t 0 5).reinject = false ∧ ((flowTx t (flowKey 0 8 0 3)).cand.map (·.port)) = some 6 ∧
      ((flowTx t (flowKey 0 8 0 3)).retained.map (·.1.detour)) = [true])) = true := by decide +kernel

theorem test_recalibrate : powerState laned < pwrNap ∧
    after (exec (.laneRecalibrate 0 5 6 0 false) laned) (fun t => decide (t.freeCtr = 1)) = true ∧
    after (exec (.laneRecalibrate 0 5 6 0 true) laned) (fun t => decide (t.freeCtr = 0)) = true ∧
    after (exec (.bridgeRecalibrate 63) laned) (fun t => decide (t.freeCtr = 1)) = true := by decide +kernel

def tried (n : Nat) : State := { laned with flt := { laned.flt with bridgeTries := [(63, n)] } }

theorem test_bridgeFlitReceive : after (exec (.bridgeFlitReceive 63 true) (tried 1)) (fun t => decide (Map.getD t.flt.bridgeTries 63 0 = 0)) = true ∧
    after (exec (.bridgeFlitReceive 63 false) (tried 1)) (fun t => decide (Map.getD t.flt.bridgeTries 63 0 = 2)) = true ∧
    after (exec (.bridgeFlitReceive 63 false) (tried 2)) (fun t => decide (63 ∈ t.flt.bridgeRetired ∧ Map.getD t.flt.bridgeTries 63 0 = 0)) = true := by decide +kernel

/-! ## Time and records -/

/-- Port 5 of die 0 gives time at stratum 2. -/
def timed : State := sourceSettle (port5 (ported busy) fun v => { v with stratum := 2 })

def asked (n : Nat) : State := setSid (wr timed .sidCount 0 0 n) 0 { sidOf timed 0 with asked := some (n - 100), good := 2 }

/-- The request leaves with its flit, and t1 is the stamp of that tick; another comes 1 ms after it at the earliest. -/
theorem test_siderealExchange : timeTaker (sourceSettle timed) = some (0, 5) ∧ mayAsk (sourceSettle timed) 0 = true ∧
    after (exec .siderealExchange (wr timed .sidCount 0 0 9)) (fun t => decide ((sidOf t 0).lastAsk = some 9 ∧ (sidOf t 0).asked = none ∧
      (portOf t 0 5).replayBuf.map (·.kind) = [3] ∧ (sidOf (sendPair (wr t .sidCount 0 0 12) 0 5) 0).asked = some 12)
      && !mayAsk t 0 && mayAsk (wr t .sidCount 0 0 4000009) 0) = true := by decide +kernel

theorem test_exchangeAnswer : timeTaker (asked 200000) = some (0, 5) ∧
    after (exec (.exchangeAnswer 210050 210050 2) (asked 200000)) (fun t => decide (now t 0 = 210100 ∧ rf t F.sidStepCount_count 0 0 = 1)) = true ∧
    after (exec (.exchangeAnswer 200450 200450 2) (asked 200000)) (fun t => decide (now t 0 = 200000 ∧ (sidOf t 0).slew = 500)) = true := by decide +kernel

/-- A die that follows is told that the other is no longer synced. -/
def leading : State := wf (wf (asked 200000) F.sidStatus_synced 0 0 1) F.sidStatus_synced 1 0 1

theorem test_told : rf leading F.sidStatus_source 1 0 = srcBridge ∧
    after (exec (.exchangeAnswer 200450 200450 2) leading) (fun t => decide (rf t F.sidStatus_synced 0 0 = 0 ∧ 1 ∈ t.bridge.map (·.dest))) = true ∧
    after (exec .syncLossTimeout (setSid (wr (wr leading .sidCount 0 0 90000000) .sidCount 1 0 90000000) 0 { sidOf leading 0 with lastExchange := some 5 })) (fun t =>
      decide (rf t F.sidStatus_synced 0 0 = 0 ∧ 1 ∈ t.bridge.map (·.dest))) = true := by decide +kernel

/-- Die 1 hears over the span bridge that die 0 is synced. -/
theorem test_judge : rflag (judge (asked 200000) 0 8 0) F.sidStatus_synced 0 0 = true ∧
    (judge (asked 200000) 0 8 0).bridge.map (·.dest) = [1] ∧ rflag (judge (asked 200000) 0 8 0) F.sidStatus_synced 1 0 = false ∧
    rflag (bridgeArrive (wr (judge (asked 200000) 0 8 0) .sidCount 1 0 900000)) F.sidStatus_synced 1 0 = true := by
  decide +kernel

def synced : State := wf (setSid (wr timed .sidCount 0 0 40000000) 0 { sidOf timed 0 with lastExchange := some 0 }) F.sidStatus_synced 0 0 1

theorem test_syncLossTimeout : after (exec .syncLossTimeout synced) (fun t => decide (rf t F.sidStatus_synced 0 0 = 0 ∧ rf t F.sidLossCount_count 0 0 = 1)) = true := by
  decide +kernel

def spanned (a b : Nat) : State := wf (wr (wr busy .sidCount 0 0 a) .sidCount 1 0 b) F.sidStatus_source 1 0 srcBridge

theorem test_bridgeTimeMeasure : powerState (spanned 5000 1000) < pwrNap ∧
    after (exec .bridgeTimeMeasure (spanned 5000 1000)) (fun t => decide (now t 1 = 1000 ∧ (sidOf t 1).slew = 4000)) = true ∧
    after (exec .bridgeTimeMeasure (spanned 5001 1000)) (fun t => decide (now t 1 = 5001 ∧ rf t F.sidStepCount_count 1 0 = 1)) = true := by decide +kernel

/-- A tick of two that passes a multiple reaches it. -/
theorem test_crossed : crossed (wr busy .sidCount 0 0 4000000000) 0 4000000000 = true ∧
    (let s := setSid (wr busy .sidCount 0 0 4000000001) 0 { sidOf busy 0 with prev := 3999999999, lastPulse := some 5 }
     crossed s 0 4000000000 = true ∧ after (exec .timeoutPulse s) timeoutHigh = true) := by decide +kernel

theorem test_timeoutPulse : after (exec .timeoutPulse (wr busy .sidCount 0 0 4000000000)) timeoutHigh = true := by decide +kernel

def edged (n source : Nat) : State := wf (wf (wr busy .sidCount 0 0 n) F.sidCtrl_timeinEn 0 0 1) F.sidStatus_source 0 0 source

theorem test_timeinEdge : after (exec .timeinEdge (edged 4000004000 srcTimein)) (fun t => decide ((sidOf t 0).slew = -4000 ∧ (sidOf t 0).lastTimein = some 4000004000)) = true ∧
    after (exec .timeinEdge (edged 4000000201 0)) (fun t => decide (rd t .ephSeq 0 0 ≠ 0 ∧ now t 0 = 4000000201)) = true := by decide +kernel

theorem test_timeinMissing : after (exec .timeinMissing (setSid (edged 4400000005 srcTimein) 0 { SidState.fresh with lastTimein := some 5 })) (fun t =>
    decide ((sidOf t 0).lastTimein = none) && bitOf (rd t .icuPend 0 9) 2) = true := by decide +kernel

theorem test_telemetry : after (exec .telemetry (wr (wf (wr busy .sidCount 0 0 40000000) F.ephCtrl_telemetryEn 0 0 1) .pwrEnergy 0 0 9)) (fun t =>
    decide ((t.mgmt.lastTelemetry.map fun r => (r.code, r.stamp, r.payload % 2 ^ 48)) = some (0x40, 40000000, 9))) = true := by decide +kernel

def holding : State := setEph (ringOn up 0 34) 0 ⟨[⟨1, true, 0, 0, 0, 2, 3, 4⟩, ⟨1, true, 0, 1, 0, 2, 3, 4⟩], none, 0⟩

theorem test_ephemerisFlush : ringHasRoom holding 0 34 = true ∧
    after (exec (.ephemerisFlush 0 true) holding) (fun t => decide ((ephOf t 0).held = [] ∧ ringHead t 0 34 = 2)) = true ∧
    after (exec (.ephemerisFlush 0 false) holding) (fun t => decide (2 ≤ (ephOf t 0).held.length ∧ ringState t 0 34 = ringFaulted)) = true := by decide +kernel

def eventful : State := setEvents (ringOn up 0 33) 0 [⟨1, 0, 0, 0, 0⟩]

theorem test_eventFlush : ringHasRoom eventful 0 33 = true ∧
    after (exec (.eventFlush 0 true) eventful) (fun t => decide (eventsOf t 0 = [] ∧ ringHead t 0 33 = 1)) = true ∧
    after (exec (.eventFlush 0 false) eventful) (fun t => decide (ringState t 0 33 = ringFaulted ∧ rf t F.hifFetchFaultCount_count 0 0 = 1)) = true := by decide +kernel

theorem test_patrolScrub : usableIndex busy 383 ≠ none ∧ powerState busy < pwrNap ∧
    after (exec (.patrolScrub 383 []) busy) (fun t => decide (t.mem = busy.mem ∧ scrubOf t 383 = (scrubBatch ScrubState.fresh).2.2)) = true := by decide +kernel

/-! ## Power, heat, supply -/

def ticked (n : Nat) (s : State) : State := wr s .sidCount 0 0 n

theorem test_controlStep : clocksRun (ticked 4000000 busy) = true ∧ now (ticked 4000000 busy) 0 % 4_000_000 = 0 ∧
    (ticked 4000000 busy).pwr.lastStep ≠ some (now (ticked 4000000 busy) 0) := by decide +kernel

/-- In Nap the energy counts too. -/
theorem test_energy_in_nap : clocksRun (wf (ticked 4000000 up) F.pwrStatus_state 0 0 2) = false ∧
    reached (wf (ticked 4000000 up) F.pwrStatus_state 0 0 2) 4000000 none = true ∧
    after (exec (.controlStep 7) (wf (ticked 4000000 up) F.pwrStatus_state 0 0 2)) (fun t => decide (rd t .pwrEnergy 0 0 = 7)) = true := by decide +kernel

def clocked (f : ClockState → ClockState) : State := setClk busy 0 (f (clkOf busy 0))

theorem test_dvfsStep : stepHeld (clocked fun c => { c with stepTo := some 525 }) 0 = false ∧
    after (exec (.dvfsStep 0) (clocked fun c => { c with stepTo := some 525 })) (fun t => decide (rf t F.clkStatus_freqMhz 0 0 = 525)) = true := by decide +kernel

theorem test_droop : rf busy F.clkDroopCfg_thresholdMv 0 0 = 40 ∧
    after (exec (.droopDetect ⟨0, 41, 1⟩) busy) (fun t => decide ((clkOf t 0).droop = true ∧ rf t F.clkStatus_stretch 0 0 = 1 ∧ rf t F.clkDroopCount_count 0 0 = 1)) = true ∧
    after (exec (.droopDetect ⟨0, 40, 1⟩) busy) (fun t => decide ((clkOf t 0).droop = false)) = true ∧
    after (exec (.droopClear ⟨0, 39, 50⟩) (ticked 7 (clocked fun c => { c with droop := true, stepTo := some 525 }))) (fun t => decide ((clkOf t 0).droop = false ∧
      (clkOf t 0).heldUntil = 4007 ∧ rf t F.clkStatus_stretch 0 0 = 0)) = true := by decide +kernel

theorem test_overpowerStretch : after (exec (.overpowerStretch 2401) busy) (fun t => decide ((clkOf t 1).overPower = true ∧ rf t F.clkStatus_stretch 1 0 = 1)) = true ∧
    after (exec (.overpowerStretch 2299) busy) (fun t => decide ((clkOf t 1).overPower = false)) = true ∧
    after (exec (.overpowerStretch 2400) (clocked fun c => { c with overPower := true })) (fun t => decide ((clkOf t 0).overPower = true)) = true := by decide +kernel

/-- A WAIT that waited 100 ms for location 6. -/
def waited : WaitSample := ⟨400000000, false, 9, .core 0, 12, 0, 5⟩

/-- Heliostat runs with base 1,000 W, floor 900 W, step 20 W, and location 6 waits longest. -/
def helio (waits : List WaitSample) (grant : Option (Nat × Nat × Bool)) : State :=
  let s := wf (wf (wf (wf busy F.pwrHelioCfg_enable 0 0 1) F.pwrHelioCfg_baseW 0 0 1000) F.pwrHelioCfg_floorW 0 0 900) F.pwrHelioCfg_stepW 0 0 20
  { s with pwr := { s.pwr with waits := waits, grant := grant } }

theorem test_heliostatEpoch : helioOn (ticked 400000000 (helio [waited] none)) = true ∧
    helioCritical (ticked 400000000 (helio [waited] none)) = some 6 ∧ helioIncrement (ticked 400000000 (helio [waited] none)) = 20 ∧
    after (exec .heliostatEpoch (ticked 400000000 (helio [waited] none))) (fun t => decide (t.pwr.grant = some (6, 20, false) ∧
      rf t F.pwrHelioStatus_balanceW 0 0 = 65516 ∧ t.pwr.waits = [])) = true ∧
    after (exec .heliostatEpoch (ticked 400000000 (helio [] none))) (fun t => decide (t.pwr.grant = none ∧ rf t F.pwrHelioStatus_balanceW 0 0 = 0)) = true := by decide +kernel

theorem test_grantSend : after (exec .grantSend (ticked 4000000 (wf (helio [] (some (6, 20, true))) F.fabRouteCtrl_routeValid 0 0 1))) (fun t => decide (t.pwr.grant = none ∧
    ((flowTx t (flowKey 0 12 0 24)).queue.map fun p => (p.kind, p.dst, (signalOf p.word 24).increment)) = [(3, 12, 20)])) = true := by decide +kernel

theorem test_thermal : rf busy F.pwrThermCfg_throttleC 0 0 ≠ 0 ∧
    after (exec (.thermalCeilingStep (BitVec.ofNat 16 (10 * rf busy F.pwrThermCfg_throttleC 0 0))) busy) (fun t => decide (t.pwr.thermCeiling = 1225)) = true ∧
    after (exec (.thermalCeilingStep 0) { busy with pwr := { busy.pwr with thermCeiling := 1200 } }) (fun t => decide (t.pwr.thermCeiling = 1225)) = true := by decide +kernel

theorem test_thermalAlert : after (exec (.thermalAlert (BitVec.ofNat 16 (10 * rf busy F.pwrThermCfg_alertC 0 0))) busy) (fun t =>
      decide (t.pwr.thermAsserted = true ∧ rf t F.pwrStatus_therm 0 0 = 1) && bitOf (rd t .icuPend 1 2) 2) = true ∧
    after (exec (.thermalAlert (BitVec.ofNat 16 (10 * rf busy F.pwrThermCfg_alertC 0 0 - 51))) { busy with pwr := { busy.pwr with thermAsserted := true } }) (fun t =>
      decide (t.pwr.thermAsserted = false)) = true ∧
    after (exec (.thermalAlert (BitVec.ofNat 16 (10 * rf busy F.pwrThermCfg_alertC 0 0 - 50))) { busy with pwr := { busy.pwr with thermAsserted := true } }) (fun t =>
      decide (t.pwr.thermAsserted = true)) = true := by decide +kernel

theorem test_thermalCritical : after (exec (.thermalCritical (BitVec.ofNat 16 (10 * rf busy F.pwrThermCfg_critC 0 0))) busy) (fun t =>
    decide (t.host.lowPower = some .dark ∧ jobState t = 0)) = true := by decide +kernel

theorem test_brakes : after (exec .powerBrake busy) (fun t => decide (t.pwr.brakePin = true ∧ rf t F.pwrStatus_brake 0 0 = 1 ∧ rf t F.pwrStatus_tight 0 0 = 1)) = true ∧
    after (exec .brakeRelease { inputs 1 1 1 with pwr := { busy.pwr with brakePin := true, brakeSupply := true } }) (fun t =>
      decide (t.pwr.brakePin = false ∧ rf t F.pwrStatus_brake 0 0 = 1)) = true ∧
    after (exec .supplyBrake busy) (fun t => decide (t.pwr.brakeSupply = true ∧ rf t F.pwrStatus_brake 0 0 = 1)) = true ∧
    after (exec .supplyRecover { busy with pwr := { busy.pwr with brakeSupply := true } }) (fun t => decide (t.pwr.brakeSupply = false ∧ rf t F.pwrStatus_brake 0 0 = 0)) = true := by
  decide +kernel

theorem test_supply : after (exec .supplyLoss (pokeN busy 8 1 7)) (fun t => decide (t.host.powered = false ∧ t.mem = [])) = true ∧
    after (exec (.supplyRestart pins lanes) { busy with host := { busy.host with powered := false } }) (fun t => decide (powerState t = pwrIdle ∧ t.host.powered = true)) = true := by
  decide +kernel

/-! ## Trust -/

/-- The answer's first twelve bytes. -/
def head (t : State) : Nat := leNat (t.answers.doe.take 12)

def recovering : State := wf up F.truStatus_recovery 0 0 1

/-- An object's operation and status. -/
def says2 (op st : Nat) (t : State) : Bool := decide (leNat (t.answers.doe.take 2) = op + 256 * st)

theorem test_objects : objReaches up .host = true ∧ objReaches recovering .management = true ∧
    after (exec (.identityUnit .host) up) (fun t => says2 1 stOk t && bitOf (rd t .icuPend 0 3) 6) = true ∧
    after (exec (.identityAlias .management) up) (fun t => says2 2 stOk t && bitOf (rd t .icuPend 0 3) 5) = true ∧
    after (exec (.attest .host 5) up) (says2 1 stOk) = true ∧ after (exec (.attest .host 5) recovering) (says2 1 stRefused) = true ∧
    after (exec (.ledgerRead .host 0) up) (fun t => decide (t.answers.doe.length = 8)) = true ∧
    after (exec (.ledgerRead .management 0) recovering) (says2 1 stRefused) = true := by decide +kernel

theorem test_discovery : after (exec (.doeDiscovery 0) up) (fun t => decide (t.answers.doe = [1, 0, 0, 1])) = true ∧
    after (exec (.doeDiscovery 5) up) (fun t => decide (t.answers.doe = [0x87, 0x1E, 5, 0])) = true := by decide +kernel

def updState (s : State) (st : Nat) : State := wf s F.truUpdateStatus_state 0 0 st

theorem test_updateQuery : after (exec (.updateQuery .host 0) { updState up 3 with tru := { up.tru with staged := [0, 9] } }) (fun t =>
    decide (leNat (t.answers.doe.take 2) = 3 ∧ leAt t.answers.doe 8 1 = 3 ∧ leAt t.answers.doe 12 2 = 2 ^ 9 + 1)) = true := by decide +kernel

theorem test_updateBegin : after (exec (.updateBegin .host 8192 5) up) (fun t => decide (upState t = usReceiving ∧ t.tru.sessionLen = 8192 ∧
    rf t F.truUpdateChunks_total 0 0 = 2)) = true := by decide +kernel

def session (st : Nat) : State := { updState up st with tru := { up.tru with session := true, sessionLen := 4099, staged := [0] } }

theorem test_updateChunk : crc32 [7, 8, 9] = 0xF02B26E4 ∨
    after (exec (.updateChunk .host 1 (BitVec.ofNat 32 (crc32 [7, 8, 9])) [7, 8, 9]) (session usReceiving)) (fun t =>
      decide (upState t = usVerifying ∧ Map.getD t.tru.staging 4098 0 = 9 ∧ t.tru.staged = [0, 1])) = true := by decide +kernel

theorem test_updateAbandon : heldByMgmt (session usReceiving) .host = false ∧
    after (exec (.updateAbandon ⟨.host, none⟩) (session usReceiving)) (fun t => decide (upState t = usIdle ∧ t.tru.session = false)) = true := by decide +kernel

theorem test_updateActivate : after (exec (.updateActivate ⟨.host, none⟩ 1 false) (updState busy usReady)) (fun t => decide (upState t = usArmed)) = true ∧
    after (exec (.updateActivate ⟨.host, none⟩ 0 false) (updState up usReady)) (fun t => decide (upState t = usActivating ∧ t.tru.trialBank = 1 ∧ t.host.rdybsyN = false)) = true := by
  decide +kernel

theorem test_trial : after (exec (.updateEndTrial ⟨.host, none⟩) (updState up usTrial)) (fun t => decide (upState t = usIdle ∧ rf t F.truUpdateStatus_outcome 0 0 = 2)) = true ∧
    after (exec .trialConfirm { updState up usTrial with tru := { up.tru with trialBank := 1 } }) (fun t => decide (upState t = usIdle ∧ t.tru.activeBank = 1 ∧
      rf t F.truUpdateStatus_outcome 0 0 = 1)) = true ∧
    after (exec .trialFallback (ticked 2400000000000 (updState up usTrial))) (fun t => decide (upState t = usIdle ∧ t.tru.activeBank = 0)) = true := by decide +kernel

/-- A master above the one that acts overrules it: the command is SUPERSEDED and nothing of the update changes. -/
theorem test_overruled : outrankedBy .host (some .management) ≠ none ∧
    after (exec (.updateAbandon ⟨.host, some .management⟩) (session usReceiving)) (fun t => decide (upState t = usReceiving ∧
      leAt t.answers.doe 1 1 = stSuperseded ∧ rd t .ephSeq 0 0 ≠ 0)) = true ∧
    after (exec (.updateActivate ⟨.host, some .management⟩ 0 false) (updState up usReady)) (fun t => decide (upState t = usReady ∧
      leAt t.answers.doe 1 1 = stSuperseded)) = true ∧
    outranks .host (some .firmware) ≠ none ∧ after (exec (.updateEndTrial ⟨.host, some .firmware⟩) (updState up usTrial)) (fun t =>
      decide (upState t = usIdle ∧ rd t .ephSeq 0 0 ≠ 0)) = true := by decide +kernel

/-- A ready bundle with one entry: the budget of an item. -/
def bundleImage : Map Byte := putBytes (putBytes (putBytes [] 6 [3]) 16 (leBytes 4 8200)) 8192 (leBytes 2 1 ++ leBytes 2 0 ++ leBytes 4 7)

def bundled : State := { updState up usReady with tru := { up.tru with session := true, sessionLen := 8200, staged := [0, 1, 2], staging := bundleImage } }

theorem test_bundle : imgIsBundle bundled.tru.staging = true ∧ ownerLocked bundled = false ∧ jobRuns bundled = false ∧ activateNeeds bundled = false ∧
    outrankedBy .host none = none ∧ heldByMgmt bundled .host = false := by decide +kernel

theorem test_bundle_activates :
    after (exec (.updateActivate ⟨.host, none⟩ 0 false) bundled) (fun t => decide (upState t = usIdle ∧ rf t F.truUpdateStatus_outcome 0 0 = 3 ∧ t.tru.session = false)) = true := by
  decide +kernel

/-- An END_TRIAL that waits overrules a confirmation. -/
theorem test_trial_overruled : (let s := { updState up usTrial with pending := [.updateEndTrial ⟨.host, none⟩] }
    waitingEndTrial s = some .host ∧ s.tru.running.diag = false ∧
    after (exec .trialConfirm s) (fun t => decide (upState t = usTrial ∧ rd t .ephSeq 0 0 ≠ 0)) = true) ∧ waitingEndTrial (updState up usTrial) = none := by
  decide +kernel

theorem test_imageVerified : after (exec .imageVerified (updState up usVerifying)) (fun t => decide (upState t = usRejected ∧ rf t F.truUpdateStatus_reason 0 0 = 1)) = true := by
  decide +kernel

theorem test_bankProgrammed : after (exec .bankProgrammed (updState up usProgramming)) (fun t => decide (upState t = usReady ∧ t.tru.bank1 = some [])) = true := by
  decide +kernel

theorem test_activationStart : after (exec .activationStart (updState up usArmed)) (fun t => decide (upState t = usActivating ∧ t.host.restart = some .activation)) = true := by
  decide +kernel

def present (s : State) : State := wf (wf s F.icuInputState_presenceLatched 0 0 1) F.truStatus_ownerKey 0 0 1

theorem test_authorised : presenceLatched (present up) = true ∧
    after (exec (.setOwnerLock .host) (present up)) (fun t => ownerLocked t && says2 1 stOk t) = true ∧
    after (exec (.clearOwnerLock .host) (wf (present up) F.truStatus_ownerLock 0 0 1)) (fun t => !ownerLocked t && says2 2 stOk t) = true ∧
    after (exec (.debugUnlock .host) (present up)) (fun t => rflag t F.truStatus_debugUnlocked 0 0 && says2 4 stOk t) = true ∧
    after (exec (.rebindIdentity .management) (present up)) (fun t => decide (t.tru.draws = 1) && says2 5 stOk t) = true ∧
    after (exec (.factoryReset .host) (present up)) (fun t => decide (rf t F.truStatus_ownerKey 0 0 = 0) && says2 6 stOk t) = true := by decide +kernel

theorem test_enroll : after (exec (.enrollOwnerKey .host (List.replicate 2592 0)) (present up)) (fun t => rflag t F.truStatus_ownerKey 0 0 && says2 3 stOk t) = true := by
  decide +kernel

theorem test_unauthorised : after (exec (.setOwnerLock .host) up) (says2 1 stRefused) = true ∧ after (exec (.clearOwnerLock .host) (present busy)) (says2 2 stRefused) = true ∧
    after (exec (.debugUnlock .management) up) (says2 4 stRefused) = true ∧ after (exec (.rebindIdentity .host) up) (says2 5 stRefused) = true ∧
    after (exec (.factoryReset .host) up) (says2 6 stRefused) = true ∧
    after (exec (.enrollOwnerKey .host (List.replicate 2592 0)) up) (says2 3 stRefused) = true := by decide +kernel

def unlocked : State := wf (pokeN up 8 1 7) F.truStatus_debugUnlocked 0 0 1

theorem test_debugPort : regionOf unlocked 8 ≠ none ∧ after (exec (.debugPortAccess 8 ⟨none, .none⟩) unlocked) (fun t => decide (t.answers.jtag = some 7)) = true ∧
    after (exec (.debugPortAccess 9 ⟨some 5, .none⟩) unlocked) (fun t => decide (Map.getD t.mem 9 0 = 5 ∧ Map.getD t.mem 8 0 = 7)) = true ∧
    after (exec (.debugPortAccess 8 ⟨none, .none⟩) up) (fun t => decide (t.answers.jtag = none)) = true := by decide +kernel

/-! ## The management connector -/

/-- A command's frame with its CRC-32. -/
def frame (code : Nat) (body : Bytes) : Bytes :=
  let b := leBytes 1 code ++ leBytes 1 0x42 ++ leBytes 2 body.length ++ leBytes 4 0 ++ body
  b ++ leBytes 4 (crc32 b)

def addressed (s : State) : State := { s with mgmt := { s.mgmt with addr := some 9 } }

/-- The response's code, sequence byte and status. -/
def replies (code st : Nat) (t : State) : Bool :=
  match t.answers.i3c with
  | some b => decide (leNat (b.take 3) = code + 256 * 0x42 + 65536 * st)
  | none => false

theorem test_mgmt_bad : frameOk (frame 1 [0]) (fun n => decide (n = 0)) = false ∧
    ([(.mgmtStatus (frame 1 [0]), 1), (.mgmtSetCap (frame 2 []), 2), (.mgmtNap (frame 3 [0]), 3), (.mgmtDark (frame 4 [0]), 4), (.mgmtWake (frame 5 [0]), 5),
      (.mgmtJobKill (frame 6 []), 6), (.mgmtTelemetry (frame 7 [0]), 7), (.mgmtObject (frame 8 []) ⟨false, none⟩, 8)] : List (Instr × Nat)).all
        (fun x => after (exec x.1 (addressed up)) (replies x.2 stInvalid)) = true := by decide +kernel

theorem test_mgmtStatus : after (exec (.mgmtStatus (frame 1 [])) (addressed up)) (fun t => replies 1 stOk t && decide ((t.answers.i3c.map (·.length)) = some 36)) = true := by
  decide +kernel

theorem test_mgmtSetCap : after (exec (.mgmtSetCap (frame 2 (leBytes 2 600 ++ leBytes 2 250))) (addressed up)) (fun t => replies 2 stOk t &&
      decide (rf t F.pwrMgmtCap_capW 0 0 = 600)) = true ∧
    after (exec (.mgmtSetCap (frame 2 (leBytes 2 2001 ++ leBytes 2 250))) (addressed up)) (replies 2 stInvalid) = true := by decide +kernel

theorem test_mgmtLowPower : after (exec (.mgmtNap (frame 3 [])) (addressed up)) (fun t => replies 3 stOk t && decide (t.host.lowPower = some .nap)) = true ∧
    after (exec (.mgmtNap (frame 3 [])) (addressed darkened)) (replies 3 stRefused) = true ∧
    after (exec (.mgmtNap (frame 3 [])) (addressed busy)) (replies 3 stRefused) = true ∧
    after (exec (.mgmtDark (frame 4 [])) (addressed busy)) (replies 4 stRefused) = true ∧
    after (exec (.mgmtDark (frame 4 [])) (addressed up)) (fun t => replies 4 stOk t && decide (t.host.lowPower = some .dark)) = true ∧
    after (exec (.mgmtWake (frame 5 [])) (addressed darkened)) (fun t => replies 5 stOk t && t.host.wakePending) = true := by decide +kernel

/-- Presence has woken the module in this Dome cycle. -/
theorem test_mgmt_superseded : higherAct (acted (addressed up) 2 actAwake .presence) 2 actNap .management ≠ none ∧
    after (exec (.mgmtNap (frame 3 [])) (acted (addressed up) 2 actAwake .presence)) (fun t => replies 3 stSuperseded t && decide (rd t .ephSeq 0 0 ≠ 0)) = true ∧
    higherAct (addressed darkened) 2 actAwake .management = none ∧ higherAct (addressed up) 2 actNap .management = none ∧
    higherAct (addressed busy) 1 actKill .management = none := by decide +kernel

theorem test_mgmtJobKill : hostPending (jobbed 0) (fun c => c.kind = 0x30 || c.kind = 0x31) = none ∧
    after (exec (.mgmtJobKill (frame 6 (leBytes 8 0x55))) (addressed (wr busy .jobId 0 0 0x55))) (fun t => replies 6 stOk t && decide (jobState t = 0)) = true ∧
    after (exec (.mgmtJobKill (frame 6 (leBytes 8 0x56))) (addressed (wr busy .jobId 0 0 0x55))) (fun t => replies 6 stRefused t && decide (jobState t = 2)) = true := by
  decide +kernel

theorem test_mgmtTelemetry : after (exec (.mgmtTelemetry (frame 7 [])) { addressed up with mgmt := ⟨some 9, some ⟨0x40, true, 0, 3, 5, 0, 0, 77⟩⟩ }) (fun t =>
    replies 7 stOk t && decide ((t.answers.i3c.map fun b => leAt b 26 2) = some 77)) = true := by decide +kernel

theorem test_mgmtObject : objectOf [1, 1, 0, 0, 0, 0, 0, 0, 0] false none = some .unitCert ∧ objectOf [1] false none = none ∧
    after (exec (.mgmtObject (frame 8 [1, 1, 0, 0, 0, 0, 0, 0, 0]) ⟨false, none⟩) (addressed up)) (fun t => t.answers.i3c.isSome) = true ∧
    after (exec (.mgmtObject (frame 8 [1]) ⟨false, none⟩) (addressed up)) (replies 8 stInvalid) = true := by decide +kernel

theorem test_bus : after (exec (.entdaa 9) up) (fun t => decide (t.mgmt.addr = some 9)) = true ∧ after (exec (.setdasa 9) (addressed up)) (fun t => decide (t.mgmt.addr = some 9)) = true ∧
    after (exec .rstdaa (addressed up)) (fun t => decide (t.mgmt.addr = none)) = true ∧
    after (exec .getpid (addressed up)) (fun t => decide (t.answers.i3c = some [0x3D, 0x0E, 0x48, 0x12, 0, 0])) = true ∧
    after (exec .getmwl (addressed up)) (fun t => decide (t.answers.i3c = some [0x20, 0x10])) = true ∧
    after (exec .getmrl (addressed up)) (fun t => decide (t.answers.i3c = some [0x20, 0x10])) = true ∧
    ([.getbcr, .getdcr, .getstatus] : List Instr).all (fun i => after (exec i (addressed up)) fun t => t.answers.i3c.isSome) = true := by decide +kernel

/-! ## Chains, frames, isolation -/

/-- A chain of two members, this one second: the segment of the other member passes on, its own lands. -/
def chained (op : Nat) : State :=
  setCol (pokeN (ported busy) 0x20 4 5) (colKey 0 0)
    { chain1 op with phase := .running, members := 2, table := [8, 0], own := 0, elems := 8, digest := 77 }

def chainPkt (seg vc : Nat) : Packet := { arriving 1 vc (77 * 2 ^ 32) with aux := seg, payload := List.replicate 32 1 }

/-- It has arrived at port 5. -/
def chainGot (op : Nat) (p : Packet) : State := got (chained op) p

theorem test_chain : HeardNext (chainGot opReduceScatter (chainPkt 1 2)) 0 5 ptData (chainPkt 1 2) ∧
    colByDigest (chained opReduceScatter) 0 (chainPkt 1 2) = some (colKey 0 0) ∧
    ((colOf (chained opReduceScatter) (colKey 0 0)).map fun c => (c.n, c.pos, c.next, c.packets)) = some (2, 1, 8, 1) := by
  unfold HeardNext Heard; decide +kernel

theorem test_chain_lands : after (exec (.dataPacketReceive 0 5 (chainPkt 1 2) [] .none) (chainGot opReduceScatter (chainPkt 1 2))) (fun t =>
    decide (leNat (memBytes t 0x10000 4) = 0x01010106)) = true := by decide +kernel

theorem test_chain_passes : after (exec (.dataPacketReceive 0 5 (chainPkt 0 2) [] .none) (chainGot opReduceScatter (chainPkt 0 2))) (fun t =>
    decide (t.mem = (chained opReduceScatter).mem ∧ ((flowTx t (flowKey 0 8 2 (colFlow (colKey 0 0)))).queue.map (·.aux)) = [0])) = true := by decide +kernel

theorem test_chain_gathers : after (exec (.dataPacketReceive 0 5 (chainPkt 0 3) [] .none) (chainGot opAllGather (chainPkt 0 3))) (fun t =>
    decide (leNat (memBytes t 0x10000 4) = 0x01010101)) = true := by decide +kernel

theorem test_dark_needs_no_job : (takePower (given busy 0 32 (powerV 6 0 0)) 6).isSome = true ∧ jobRuns (given busy 0 32 (powerV 6 0 0)) = true ∧
    after (step { given busy 0 32 (powerV 6 0 0) with pending := [.dark] }) (fun t => told t 0 32 stRefused 0) = true ∧
    after (step { sleepy .dark with pending := [.lowPowerEntry] }) (fun t => decide (powerState t = pwrDark)) = true := by decide +kernel

theorem test_linkReset_keeps : RegInv busy ∧
    after (exec .linkReset busy) (fun t => decide (rd t .jobStatus 0 0 = rd busy .jobStatus 0 0 ∧ rd t .jobId 0 0 = rd busy .jobId 0 0)) = true := by
  unfold RegInv; decide +kernel

theorem test_cores_apart : coreOfCommand (.feed core0 0 .none) = some core0 ∧ (⟨1, 23⟩ : CoreRef) ≠ core0 ∧
    after (exec (.feed core0 0 .none) (feeding 0 1)) (fun t => decide (coreOf t 47 = coreOf (feeding 0 1) 47)) = true := by decide +kernel

theorem test_footprint : after (exec .getdcr (addressed up)) (fun t => decide (t.regs = up.regs ∧ t.mem = up.mem)) = true := by decide +kernel

/-! ## Registers, the host's memory accesses, exact arithmetic -/

theorem test_registerWrite : writeReaches busy hostSender 0 = true ∧ regAt 0x700004 = some (.clkDroopCfg, 0, 0) ∧ Reg.clkDroopCfg ∉ ruledRegs ∧
    lockReason (asReached busy hostSender 0) .clkDroopCfg = none ∧ blockReason (asReached busy hostSender 0) .clkDroopCfg 30 = none ∧
    blockReason (asReached busy hostSender 0) .clkDroopCfg 10 = some 6 ∧
    after (exec (.registerWrite ⟨.host, 0⟩ 0x700004 4 ⟨30, true, .none, none⟩) busy) (fun t => decide (rd t .clkDroopCfg 0 0 = 30)) = true ∧
    after (exec (.registerWrite ⟨.host, 0⟩ 0x700004 4 ⟨10, true, .none, none⟩) busy) (fun t => decide (rd t .clkDroopCfg 0 0 = rd busy .clkDroopCfg 0 0 ∧
      rd t .ephSeq 0 0 = rd busy .ephSeq 0 0 + 1)) = true := by decide +kernel

theorem test_unassignedAccess : isAssigned false 0xFF0 4 = false ∧ isAssigned true 0x23000 8 = false ∧
    after (exec (.unassignedAccess ⟨.host, 0⟩ false false 0xFF0 4 0) { up with answers := { up.answers with bus := 5 } }) (fun t => decide (t.answers.bus = 0 ∧
      rd t .ephSeq 0 0 = 1)) = true ∧
    after (exec (.unassignedAccess ⟨.host, 0⟩ true true 0x63000 8 9) up) (fun t => decide (t.answers.bus = up.answers.bus ∧ rd t .ephSeq 1 0 = rd (asReached up hostSender 1) .ephSeq 1 0 + 1)) = true := by
  decide +kernel

theorem test_field_codes : Reg.clkDroopCfg.info.fields = [⟨7, 0, .rw, 40, .m⟩] ∧ Reg.clkLimit.info.fields = [⟨11, 0, .ro, 1250, .f⟩] ∧
    writeValue busy .clkLimit 1250 7 = 1250 ∧ writeValue busy .clkDroopCfg 40 30 = 30 := by decide +kernel

theorem test_named_writes : (BitVec.ofNat 32 0x13).toNat.testBit 4 = true ∧ (3 : BitVec 32).toNat.testBit 4 = false ∧
    regOffset .icuTarget 1 9 = regOffset .icuTarget 0 0 + 0x200_0000 + 9 * Reg.icuTarget.info.stride := by decide +kernel

theorem test_epochs : writeActs calm hostSender 0 = true ∧ jobRuns (asReached calm hostSender 0) = false ∧
    (∀ p < 16, rd (asReached calm hostSender 0) .fabPortOutstanding 0 p = 0) ∧
    after (exec (.epochCommit ⟨.host, 0⟩ 0 0x13) calm) (fun t => decide (rf t F.fabRouteCtrl_epoch 0 0 = 3 ∧ rf t F.fabRouteCtrl_routeValid 0 0 = 1)) = true ∧
    after (exec (.epochSet ⟨.host, 0⟩ 0 3) calm) (fun t => decide (rf t F.fabRouteCtrl_epoch 0 0 = 3 ∧ rf t F.fabRouteCtrl_routeValid 0 0 = 0)) = true ∧
    jobRuns (asReached busy hostSender 0) = true ∧
    after (exec (.epochCommit ⟨.host, 0⟩ 0 0x13) busy) (fun t => decide (rd t .fabRouteCtrl 0 0 = 0 ∧ rd t .ephSeq 0 0 = 1)) = true := by decide +kernel

def mastered : State := wf calm F.sidCtrl_master 0 0 1

theorem test_sidSet : rflag (asReached mastered hostSender 0) F.sidCtrl_master 0 0 = true ∧ now (asReached mastered hostSender 0) 0 < 900 ∧
    after (exec (.sidSet ⟨.host, 0⟩ 0 900) mastered) (fun t => decide (now t 0 = 900)) = true ∧
    after (exec (.sidSet ⟨.host, 0⟩ 0 0) mastered) (fun t => decide (now t 0 = now mastered 0 ∧ rd t .ephSeq 0 0 = 1)) = true ∧
    after (exec (.sidSet ⟨.host, 0⟩ 0 900) calm) (fun t => decide (now t 0 = now calm 0 ∧ rd t .ephSeq 0 0 = 1)) = true := by decide +kernel

theorem test_icu_writes : icuValid 0 8 ≠ 0 ∧
    after (exec (.icuPendWrite ⟨.firmware, 0⟩ 0 8 0x20 0x2) up) (fun t => decide (icuPend t 0 8 = 0x22 &&& icuValid 0 8)) = true ∧
    after (exec (.icuMaskWrite ⟨.firmware, 0⟩ 0 8 0x20) up) (fun t => decide (icuMask t 0 8 = 0x20 &&& icuValid 0 8)) = true ∧
    bitOf (icuValid 0 8) 5 = true ∧ bitOf (icuMask (wr up .icuMask 0 8 0x20) 0 8) 5 = true ∧
    after (exec (.icuTargetWrite ⟨.firmware, 0⟩ 0 261 0x21) (wr up .icuMask 0 8 0x20)) (fun t => decide (rd t .icuTarget 0 261 = 0x21)) = true ∧
    after (exec (.icuTargetWrite ⟨.firmware, 0⟩ 0 261 0x31) (wr up .icuMask 0 8 0x20)) (fun t => decide (rd t .icuTarget 0 261 = rd up .icuTarget 0 261 ∧
      rd t .ephSeq 0 0 = 1)) = true := by decide +kernel

def stocked : State := pokeN busy 4096 8 0x1122334455667788

theorem test_cxlMemRead : memReaches stocked = true ∧ 4096 + 64 ≤ usableHbm stocked ∧ jobState stocked ≠ 3 ∧ inFarTable stocked 4096 64 = false ∧
    hiddenIn stocked 4096 64 = [] ∧ 4096 ∉ stocked.poison ∧ (snoopOf stocked 0).length < 2 ^ 20 ∧
    after (exec (.cxlMemRead 4096 .clean .clean) stocked) (fun t => decide (leNat t.answers.cxlData = 0x1122334455667788 ∧ t.answers.cxlPoison = false ∧
      snoopOf t ((hbmPlace stocked 4096).1 / 192) = [64])) = true ∧
    after (exec (.cxlMemRead 4096 (.failed false) .clean) stocked) (fun t => decide (t.answers.cxlPoison = true ∧
      rf t F.hbmCxlPoisonCount_count (rowChan stocked 4096).die 0 = 1)) = true ∧
    after (exec (.cxlMemRead (usableHbm stocked) .clean .clean) stocked) (fun t => decide (t.answers.cxlPoison = true ∧ rd t .ephSeq 0 0 = 1)) = true ∧
    after (exec (.cxlMemRead 4096 .clean .clean) (wf stocked F.jobStatus_state 0 0 3)) (fun t => decide (leNat t.answers.cxlData = 0)) = true := by
  decide +kernel

/-- A tagged window over the first bytes of memory, whose key the job does not hold. -/
def tagged : State :=
  wf (wr { stocked with job := { stocked.job with tag := 9 } } .spmResWindow 0 0 (2 ^ 40)) F.spmResStatus_tagValid 0 0 1

theorem test_cxlMem_hidden : hiddenIn tagged 4096 64 ≠ [] ∧
    after (exec (.cxlMemRead 4096 .clean .clean) tagged) (fun t => decide (leNat t.answers.cxlData = 0 ∧ rd t .ephSeq 0 0 = 1 ∧
      bitOf (rd t .icuPend 0 8) 5 = true)) = true ∧
    after (exec (.cxlMemWrite 4096 ⟨leBytes 64 5, .none⟩) tagged) (fun t => decide (t.mem = tagged.mem ∧ rd t .ephSeq 0 0 = 1)) = true := by decide +kernel

theorem test_cxlMemWrite : (leBytes 64 5).length = 64 ∧
    after (exec (.cxlMemWrite 4096 ⟨leBytes 64 5, .none⟩) { stocked with poison := [4096] }) (fun t => decide (leNat (memBytes t 4096 64) = 5 ∧ t.poison = [])) = true ∧
    after (exec (.cxlMemWrite (usableHbm stocked) ⟨leBytes 64 5, .none⟩) stocked) (fun t => decide (t.mem = stocked.mem ∧ rd t .ephSeq 0 0 = 1)) = true := by
  decide +kernel

/-- The host holds line 64, and a write to it waits. -/
def snooped : State := { stocked with snoop := [(0, [64])], heldWrites := [(64, [(4096, 3), (4097, 4)])] }

theorem test_backInvalidateResponse : 64 ∈ snoopOf snooped 0 ∧ (snooped.heldWrites.any fun w => w.1 = 64) = true ∧
    (snooped.heldWrites.filter fun x => x.1 = 64) = [(64, [(4096, 3), (4097, 4)])] ∧ Map.rising [(4096, (3 : Byte)), (4097, 4)] = true ∧
    after (exec (.backInvalidateResponse 0 64) snooped) (fun t => decide (snoopOf t 0 = [] ∧ t.heldWrites = [] ∧
      leNat (memBytes t 4096 8) = 0x1122334455660403)) = true := by decide +kernel

theorem test_integer_passes : sumBits 0 1 true 0xB 0xB [255, 2, 128] [] [3, 4, 128] [] false = 16389 ∧
    sumBits 3 1 true 0xB 0xB [255, 2] [] [3, 4] [] false = 2 ∧ sumBits 4 1 true 0xB 0xB [255, 2] [] [3, 4] [] false = 6 ∧
    sumBits 5 1 true 0xB 0xB [128, 129] [] [3, 4] [] false = 2 ^ 32 - 127 ∧ sumBits 6 1 true 0xB 0xB [1, 2, 3] [] [1, 0, 3] [] false = 2 := by
  decide +kernel

theorem test_exact_element : (-3 : Int) ≤ -2 ∧ (-3 : Int) + -3 ≤ -5 ∧
    opAdd .rne (.fin false 3 (-2)) (.fin true 1 (-3)) = Exact.of (.fin false 5 (-3)) := by decide +kernel

theorem test_representable : (0x3FC0 : Nat) < 2 ^ (1 + fmtB16.ebits + fmtB16.fbits) ∧ (decodeFloat fmtB16 0x3FC0).isNan = false ∧
    roundExact fmtB16 .rtz 0 (Exact.of (decodeFloat fmtB16 0x3FC0)) = ⟨0x3FC0, Exc.none⟩ := by decide +kernel

/-- A command of a layer that is not frozen, on its way. -/
def updated (i : Instr) (op rule : Nat) : State :=
  match exec i (updating op rule 0 1) with
  | .next t => t
  | _ => State.reset

def updRun (s : State) : UpdRun := (coreOf s 0).upd.run.getD ⟨0, 0, 0, [], 0, false, .clean⟩

theorem test_update : (layerOf (updating 1 1 0 1) 0 3).frozen = false ∧ (coreOf (updated (.update core0 .clean) 1 1) 0).upd.run.isSome = true ∧
    (updRun (updated (.update core0 .clean) 1 1)).upd.isRoot = false ∧ (updated (.update core0 .clean) 1 1).snoop = [] ∧
    snoopedIn (updated (.update core0 .clean) 1 1) (layerOf (updating 1 1 0 1) 0 3).hdrBase 64 = [] ∧
    (coreOf (updated (.update core0 .clean) 1 1) 0).upd.done = 9 + updTime (Upd.of (updW 1 1)) (layerOf (updating 1 1 0 1) 0 3) := by decide +kernel

theorem test_uroot : (layerOf (updating 2 2 0 1) 0 3).frozen = false ∧ (coreOf (updated (.uroot core0 .clean) 2 2) 0).upd.run.isSome = true ∧
    (updRun (updated (.uroot core0 .clean) 2 2)).upd.isRoot = true := by decide +kernel

/-- An UPDATE that ends its step writes its header: the step is 1 more. -/
def stepping : State := withCore (updated (.update core0 .clean) 1 1) fun c =>
  { c with upd := { c.upd with run := some ⟨0, updW 1 1 + 2 ^ 32, 9, putBytes [] (coreBase 0 + 0x4000) (leBytes 8 6), 0, false, .clean⟩ } }

theorem test_header : (updRun stepping).upd.final = true ∧
    leNat (memBytes (updWriteHeader stepping 0 (updRun stepping)) (coreBase 0 + 0x4000) 8) = 7 := by decide +kernel

end Sys2Proof.Tests
end

section
/-! PROOF. Register fields: what a write leaves in each of them (R20), and which of them a reset of lifetimes keeps (R22, R23). -/

namespace Sys2Proof.Machine

/-! ### A register's value put together from its fields -/

/-- Two fields of one register share no bit. -/
def FieldRow.apart (f g : FieldRow) : Bool := decide (f.hi < g.lo) || decide (g.hi < f.lo)

/-- The fields of a register run upwards and no two of them share a bit. -/
structure FieldsApart (l : List FieldRow) : Prop where
  up : ∀ f ∈ l, f.lo ≤ f.hi
  apart : l.Pairwise fun f g => f.apart g = true

theorem FieldsApart.tail {f : FieldRow} {l : List FieldRow} (h : FieldsApart (f :: l)) : FieldsApart l :=
  ⟨fun g hg => h.up g (List.mem_cons_of_mem _ hg), h.apart.of_cons⟩

/-- The fields of every register of the tables are apart. -/
theorem fieldsApart_info (r : Reg) : FieldsApart r.info.fields := by
  have h := Reg.forall_of_all (p := fun r => decide (∀ f ∈ r.info.fields, f.lo ≤ f.hi) &&
    decide (r.info.fields.Pairwise fun f g => f.apart g = true)) (by decide +kernel) r
  simp only [Bool.and_eq_true, decide_eq_true_eq] at h
  exact ⟨h.1, h.2⟩

/-- A value that holds one number for each field of a list. -/
def packFields (v : FieldRow → Nat) (l : List FieldRow) (a : Nat) : Nat := l.foldl (fun a f => a + v f * 2 ^ f.lo) a

section
variable {v : FieldRow → Nat} (hv : ∀ f, v f < 2 ^ (f.hi - f.lo + 1))
include hv

/-- Adding a number at a field that reads 0 sets the field. -/
theorem addField_eq_setBits {a : Nat} {f : FieldRow} (h0 : bits a f.hi f.lo = 0) :
    a + v f * 2 ^ f.lo = setBits a f.hi f.lo (v f) := by
  rw [setBits, h0, Nat.mod_eq_of_lt (hv f), Nat.zero_mul, Nat.sub_zero]

/-- A field apart from those packed reads as before. -/
theorem bits_packFields_apart {l : List FieldRow} (hl : FieldsApart l) {f : FieldRow} (hf : f.lo ≤ f.hi)
    (hfl : ∀ g ∈ l, g.apart f = true) : ∀ a : Nat, (∀ g ∈ l, bits a g.hi g.lo = 0) →
    bits (packFields v l a) f.hi f.lo = bits a f.hi f.lo := by
  induction l with
  | nil => exact fun a _ => rfl
  | cons g l ih =>
    intro a h0
    have hup := hl.up g (List.mem_cons_self ..)
    have hg : ∀ g' : FieldRow, g'.lo ≤ g'.hi → g.apart g' = true →
        bits (setBits a g.hi g.lo (v g)) g'.hi g'.lo = bits a g'.hi g'.lo := fun g' h' ha =>
      bits_setBits_other _ _ _ _ _ _ hup h' (by simpa [FieldRow.apart] using ha)
    rw [packFields, List.foldl_cons, addField_eq_setBits hv (h0 g (List.mem_cons_self ..))]
    refine (ih hl.tail (fun g' h' => hfl g' (List.mem_cons_of_mem _ h')) _ fun g' h' => ?_).trans
      (hg f hf (hfl g (List.mem_cons_self ..)))
    rw [hg g' (hl.tail.up g' h') (List.rel_of_pairwise_cons hl.apart h')]
    exact h0 g' (List.mem_cons_of_mem _ h')

/-- Each packed field reads the number put into it. -/
theorem bits_packFields_mem {l : List FieldRow} (hl : FieldsApart l) {f : FieldRow} (hf : f ∈ l) :
    ∀ a : Nat, (∀ g ∈ l, bits a g.hi g.lo = 0) → bits (packFields v l a) f.hi f.lo = v f := by
  induction l with
  | nil => exact absurd hf List.not_mem_nil
  | cons g l ih =>
    intro a h0
    have hup := hl.up g (List.mem_cons_self ..)
    have h0' : ∀ g' ∈ l, bits (setBits a g.hi g.lo (v g)) g'.hi g'.lo = 0 := fun g' h' => by
      have ha := List.rel_of_pairwise_cons hl.apart h'
      rw [bits_setBits_other _ _ _ _ _ _ hup (hl.tail.up g' h') (by simpa [FieldRow.apart] using ha)]
      exact h0 g' (List.mem_cons_of_mem _ h')
    rw [packFields, List.foldl_cons, addField_eq_setBits hv (h0 g (List.mem_cons_self ..))]
    rcases List.mem_cons.mp hf with rfl | hf
    · have hfl : ∀ g ∈ l, g.apart f = true := fun g h' => by
        have ha := List.rel_of_pairwise_cons hl.apart h'
        simpa [FieldRow.apart, or_comm] using ha
      exact (bits_packFields_apart hv hl.tail hup hfl _ h0').trans
        ((bits_setBits_same _ _ _ _).trans (Nat.mod_eq_of_lt (hv f)))
    · exact ih hl.tail hf _ h0'

end

/-! ### Register writes -/

/-- What a write leaves in one field, by its access code (R20). -/
def fieldAfterWrite (s : State) (old new : Nat) (f : FieldRow) : Nat :=
  let o := bits old f.hi f.lo
  let n := bits new f.hi f.lo
  match f.access with
  | .rw => n
  | .ro => o
  | .wo => o
  | .w1c => o &&& (2 ^ (f.hi - f.lo + 1) - 1 - n)
  | .w1s => o ||| n
  | .rwl => if ownerLocked s then o else n
  | .rwp => if presenceLatched s then n else o

theorem bits_lt (w hi lo : Nat) : bits w hi lo < 2 ^ (hi - lo + 1) := Nat.mod_lt _ (by positivity)

theorem bits_zero (hi lo : Nat) : bits 0 hi lo = 0 := by simp [bits]

/-- What a write leaves in a field fits the field. -/
theorem fieldAfterWrite_lt (s : State) (old new : Nat) (f : FieldRow) :
    fieldAfterWrite s old new f < 2 ^ (f.hi - f.lo + 1) := by
  have ho := bits_lt old f.hi f.lo
  have hn := bits_lt new f.hi f.lo
  unfold fieldAfterWrite
  cases f.access with
  | rw => exact hn
  | ro => exact ho
  | wo => exact ho
  | w1c => exact lt_of_le_of_lt Nat.and_le_left ho
  | w1s => exact Nat.or_lt_two_pow ho hn
  | rwl => dsimp only; split <;> assumption
  | rwp => dsimp only; split <;> assumption

theorem writeValue_eq_packFields (s : State) (r : Reg) (old new : Nat) :
    writeValue s r old new = packFields (fieldAfterWrite s old new) r.info.fields 0 := by
  unfold writeValue packFields fieldAfterWrite
  congr 1; funext a f
  cases f.access <;> rfl

/-- Settles O13: the fields of a register share no bit, so each reads what its access code leaves in it. -/
theorem fieldsAreWrittenByTheirAccessCodes : Obligations.FieldsAreWrittenByTheirAccessCodes := by
  intro s r old new f hf
  rw [writeValue_eq_packFields, bits_packFields_mem (fieldAfterWrite_lt s old new) (fieldsApart_info r) hf 0
    fun g _ => bits_zero g.hi g.lo]
  rfl

/-! ### Resets of lifetimes -/

/-- A register with a field of Lifetime J: the bits of the field are none that a link reset returns to their reset values, they lie
in the map's words, and the reset value does not depend on the die. -/
theorem jField_kept {r : Reg} {f : FieldRow} (hf : f ∈ r.info.fields) (hj : f.life = .j) :
    lifeMask r [.l] < 2 ^ 64 ∧ bits (lifeMask r [.l]) f.hi f.lo = 0 ∧ f.lo ≤ f.hi ∧ f.hi < 64 ∧ r ≠ .ctlDieInfo := by
  have h := Reg.forall_of_all (p := fun r => r.info.fields.all fun f => decide (f.life = .j →
    lifeMask r [.l] < 2 ^ 64 ∧ bits (lifeMask r [.l]) f.hi f.lo = 0 ∧ f.lo ≤ f.hi ∧ f.hi < 64 ∧ r ≠ .ctlDieInfo))
    (by decide +kernel) r
  exact of_decide_eq_true (List.all_eq_true.mp h f hf) hj

/-- A field outside a mask keeps its bits where the mask's bits are replaced. -/
theorem bits_masked {v rv m hi lo : Nat} (hm : m < 2 ^ 64) (h0 : bits m hi lo = 0) (hl : lo ≤ hi) (hh : hi < 64) :
    bits ((v &&& (2 ^ 64 - 1 - m)) ||| (rv &&& m)) hi lo = bits v hi lo := by
  refine Nat.eq_of_testBit_eq fun i => ?_
  rw [testBit_bits, testBit_bits]
  by_cases hi' : i < hi - lo + 1
  · have hmi : m.testBit (i + lo) = false := by
      have := testBit_bits m hi lo i
      rw [h0, Nat.zero_testBit] at this
      simpa [hi'] using this.symm
    have hni : (2 ^ 64 - 1 - m).testBit (i + lo) = true := by
      have hi64 : i + lo < 64 := by omega
      rw [show 2 ^ 64 - 1 - m = 2 ^ 64 - (m + 1) by omega, Nat.testBit_two_pow_sub_succ hm, hmi, decide_eq_true hi64]; rfl
    simp only [Nat.testBit_or, Nat.testBit_and, hni, hmi, Bool.and_true, Bool.and_false, Bool.or_false]
  · simp [hi']

/-- What a key finds after fields of some lifetimes went back to their reset values. -/
theorem find_resetLives (ls : List Lifetime) {m : Map (BitVec 64)} (h : Map.rising m = true) (k : Nat) :
    Map.find (m.filterMap (resetEntry ls)) k = (Map.find m k).bind fun v => (resetEntry ls (k, v)).map Prod.snd := by
  induction m with
  | nil => rfl
  | cons e t ih =>
    obtain ⟨k', v⟩ := e
    obtain ⟨hlt, ht⟩ := (Map.rising_cons k' v t).mp h
    have hnone : k' = k → Map.find (t.filterMap (resetEntry ls)) k = none := fun hk => Map.find_none_of_lt fun x hx => by
      obtain ⟨y, hy, hxy⟩ := List.mem_filterMap.mp hx
      have := hlt y hy
      rw [resetEntry_key hxy]; omega
    rw [List.filterMap_cons]
    cases he : resetEntry ls (k', v) with
    | none =>
      by_cases hk : k' = k
      · subst hk; simp [Map.find, he, hnone rfl]
      · simp [Map.find, hk, ih ht]
    | some e =>
      obtain ⟨k'', v'⟩ := e
      have hkey : k'' = k' := resetEntry_key he
      subst hkey
      by_cases hk : k'' = k
      · subst hk; simp [Map.find, he]
      · simp [Map.find, hk, ih ht]

theorem regKey_mod_die (r : Reg) (die unit : Nat) : regKey r die unit / 32768 % 2 = die % 2 := by
  unfold regKey; omega

theorem resetVal_die {r : Reg} (h : r ≠ .ctlDieInfo) (d d' : Nat) : resetVal r d = resetVal r d' := by
  simp [resetVal, h]

/-- A field of Lifetime J reads as before when the L fields go back to their reset values. -/
theorem bits_rd_resetLives_l (s : State) (h : RegInv s) {r : Reg} {f : FieldRow} (hf : f ∈ r.info.fields) (hj : f.life = .j)
    (die unit : Nat) : bits (rd (resetLives s [.l]) r die unit) f.hi f.lo = bits (rd s r die unit) f.hi f.lo := by
  obtain ⟨hm, h0, hl, hh, hr⟩ := jField_kept hf hj
  set d := homeDie r die with hd
  have hfind := find_resetLives [.l] h.1 (regKey r d unit)
  unfold rd
  rw [← hd]
  show bits (match Map.find (s.regs.filterMap (resetEntry [.l])) (regKey r d unit) with
    | some v => v.toNat
    | none => resetVal r d) f.hi f.lo = _
  rw [hfind]
  cases hv : Map.find s.regs (regKey r d unit) with
  | none => rfl
  | some v =>
    have hk := bits_masked (v := v.toNat) (rv := resetVal r d) hm h0 hl hh
    have hlt : (v.toNat &&& (2 ^ 64 - 1 - lifeMask r [.l])) ||| (resetVal r d &&& lifeMask r [.l]) < 2 ^ 64 :=
      Nat.or_lt_two_pow (lt_of_le_of_lt Nat.and_le_left v.isLt) (lt_of_le_of_lt Nat.and_le_right hm)
    simp only [Option.bind_some, resetEntry, regOfKey_regKey, regKey_mod_die, resetVal_die hr (d % 2) d]
    split_ifs with he
    · rw [he] at hk; exact hk
    · exact (congrArg (bits · f.hi f.lo) (Nat.mod_eq_of_lt hlt)).trans hk

theorem exec_linkReset (s : State) :
    exec .linkReset s = .next (if s.host.powered && s.host.linkUp then linkDown s else s) := by
  show execLinkReset s = _
  unfold execLinkReset; split <;> rfl

/-- Settles O59: a link reset returns L fields alone to their reset values, and no J field shares a bit with them. -/
theorem aLinkResetKeepsJobFields : Obligations.ALinkResetKeepsJobFields := by
  intro s hs
  refine ⟨_, exec_linkReset s, fun r die unit f hf hj => ?_⟩
  split
  · exact bits_rd_resetLives_l (ringsDown s) hs hf hj die unit
  · rfl

end Sys2Proof.Machine
end

section
/-! PROOF. Composing effects: how the effect of a command follows from those of the operations it is made of. -/

set_option Elab.async false

namespace Sys2Proof.Machine

/-! ### Composition -/

/-- An effect among more parts. -/
theorem Effect.one {w w' : List Part} {s t : State} (h : Effect w' s t)
    (hw : partsIn w' w = true := by decide +kernel) : Effect w s t := h.mono hw

/-- An operation after others: read from the last operation to the first, as the model writes them. -/
theorem Effect.step {w w' : List Part} {s t u : State} (h2 : Effect w' t u) (h1 : Effect w s t)
    (hw : partsIn w' w = true := by decide +kernel) : Effect w s u := h2.after hw h1

/-- An operation for each entry of a list, after others. -/
theorem Effect.fold {α : Type} {w : List Part} {f : State → α → State} {l : List α} {s t : State}
    (hf : ∀ s x, Effect w s (f s x)) (h : Effect w s t) : Effect w s (l.foldl f t) := h.trans (.foldl f hf l t)

/-- A command that leaves the state as it is. -/
theorem Does.same {w : List Part} {s : State} : Does w s (.next s) := .next (.refl w s)

/-- What a command does from a state it has reached. -/
theorem Does.from {w : List Part} {s t : State} {o : Host.Outcome State Fault Refusal} (h : Effect w s t)
    (ho : Does w t o) : Does w s o := by
  obtain ⟨u, hu, he⟩ := ho
  exact ⟨u, hu, h.trans he⟩

/-! ### One field set -/

theorem setAnswers_effect (s : State) (v : Answers) : Effect [.answers] s { s with answers := v } :=
  effect_set_answers v (by decide) (.refl ..)

theorem setFlt_effect (s : State) (v : FaultState) : Effect [.flt] s { s with flt := v } :=
  effect_set_flt v (by decide) (.refl ..)

theorem setTru_effect (s : State) (v : TrustState) : Effect [.tru] s { s with tru := v } :=
  effect_set_tru v (by decide) (.refl ..)

theorem setMgmt_effect (s : State) (v) : Effect [.mgmt] s { s with mgmt := v } :=
  effect_set_mgmt v (by decide) (.refl ..)

theorem setPwr_effect (s : State) (v : PowerState) : Effect [.pwr] s { s with pwr := v } :=
  effect_set_pwr v (by decide) (.refl ..)

theorem setIcuTimers_effect (s : State) (v) : Effect [.icuTimers] s { s with icuTimers := v } :=
  effect_set_icuTimers v (by decide) (.refl ..)

theorem setRoutes_effect (s : State) (v) : Effect [.routes] s { s with routes := v } :=
  effect_set_routes v (by decide) (.refl ..)

/-- The host interface set to a value that differs in the parts of `w` alone. -/
theorem setHost_effect {w : List Part} {s : State} (v : HostIf) (hv : HostIn w s.host v) :
    Effect w s { s with host := v } := effect_set_host v hv (.refl ..)

theorem HostIn.refl (w : List Part) (a : HostIf) : HostIn w a a := by constructor <;> exact .inl rfl

theorem setPerstN_effect (s : State) (b : Bool) :
    Effect [.perstN] s { s with host := { s.host with perstN := b } } :=
  setHost_effect _ { HostIn.refl _ s.host with perstN := .inr (by decide) }

theorem setDarkPerst_effect (s : State) (b : Bool) :
    Effect [.darkPerst] s { s with host := { s.host with darkPerst := b } } :=
  setHost_effect _ { HostIn.refl _ s.host with darkPerst := .inr (by decide) }

theorem setDarkLoc_effect (s : State) (b : Option Nat) :
    Effect [.darkLoc] s { s with host := { s.host with darkLoc := b } } :=
  setHost_effect _ { HostIn.refl _ s.host with darkLoc := .inr (by decide) }

theorem setD3hot_effect (s : State) (b : Bool) :
    Effect [.d3hot] s { s with host := { s.host with d3hot := b } } :=
  setHost_effect _ { HostIn.refl _ s.host with d3hot := .inr (by decide) }

theorem setWakePending_effect (s : State) (b : Bool) :
    Effect [.wakePending] s { s with host := { s.host with wakePending := b } } :=
  setHost_effect _ { HostIn.refl _ s.host with wakePending := .inr (by decide) }

theorem setAttention_effect (s : State) (b : Bool) :
    Effect [.attention] s { s with host := { s.host with attention := b } } :=
  setHost_effect _ { HostIn.refl _ s.host with attention := .inr (by decide) }

theorem setRepeating_effect (s : State) (b : Bool) :
    Effect [.repeating] s { s with host := { s.host with repeating := b } } :=
  setHost_effect _ { HostIn.refl _ s.host with repeating := .inr (by decide) }

theorem setPulse_effect (s : State) (a b : Bool) (p : Option Nat) :
    Effect [.attention, .repeating, .pulsed] s
      { s with host := { s.host with attention := a, repeating := b, pulsed := p } } :=
  setHost_effect _ { HostIn.refl _ s.host with
    attention := .inr (by decide), repeating := .inr (by decide), pulsed := .inr (by decide) }

theorem setLinkUp_effect (s : State) (a b c : Bool) (d : Nat) :
    Effect [.linkUp, .opened, .rdybsyN, .highSince] s
      { s with host := rdySet { s.host with linkUp := a, opened := b } c d } :=
  setHost_effect _ { HostIn.refl _ s.host with
    linkUp := .inr (by decide), opened := .inr (by decide), rdybsyN := .inr (by decide), highSince := .inr (by decide) }

theorem setRestart_effect (s : State) (a) (c : Bool) (d : Nat) :
    Effect [.restart, .rdybsyN, .highSince] s
      { s with host := rdySet { s.host with restart := a } c d } :=
  setHost_effect _ { HostIn.refl _ s.host with
    restart := .inr (by decide), rdybsyN := .inr (by decide), highSince := .inr (by decide) }

end Sys2Proof.Machine
end

section
/-! PROOF. Each command keeps to its footprint. A command's proof follows its meaning: `refine .ite` at a test, `.from` at
a state it has reached, and at an end `.next` with the effects of its operations from the last to the first. It begins by
taking its own arm of the table `footprint`, so that each `.one` and `.step` compares two closed lists of parts. -/

set_option Elab.async false

namespace Sys2Proof.Machine

/-! ### Resets and link (chapters 12, 17, 19) -/

theorem execPor_footprint (pins train s) : Does (footprint (.por pins train)) s (execPor pins train s) := by
  delta footprint; dsimp only; unfold execPor
  exact .next (powerUp_effect ..).one

theorem execPerstAssert_footprint (train s) : Does (footprint (.perstAssert train)) s (execPerstAssert train s) := by
  delta footprint; dsimp only; unfold execPerstAssert
  refine .ite .same (.from (setPerstN_effect s false).one ?_)
  exact .ite (.next (setDarkPerst_effect ..).one) (.next (moduleReset_effect ..).one)

theorem execPerstDeassert_footprint (loc s) : Does (footprint (.perstDeassert loc)) s (execPerstDeassert loc s) := by
  delta footprint; dsimp only; unfold execPerstDeassert
  refine .ite .same (.next (.trans (setPerstN_effect s true).one ?_))
  exact .ite (setDarkLoc_effect ..).one (sampleLocation_effect ..).one

theorem execLinkReset_footprint (s) : Does (footprint .linkReset) s (execLinkReset s) := by
  delta footprint; dsimp only; unfold execLinkReset
  exact .ite (.next (linkDown_effect ..).one) .same

theorem execLinkUp_footprint (rate width flit256 s) :
    Does (footprint (.linkUp rate width flit256)) s (execLinkUp rate width flit256 s) := by
  delta footprint; dsimp only; unfold execLinkUp
  extract_lets s1 s2 s3
  have h1 : Effect [.reg .hifStatus] s s1 := (wf_effect ..).step (wf_effect ..).one
  have h2 : Effect [.reg .hifStatus] s1 s2 := (wf_effect ..).step (wf_effect ..).one
  have h3 : Effect [.reg .spmZeroStatus] s2 s3 := .ite (.refl ..) ((wf_effect ..).step (wf_effect ..).one)
  clear_value s3 s2 s1
  exact .ite .same (.from (h1.one.trans (h2.one.trans h3.one)) (.next (setLinkUp_effect s3 true true _ _).one))

theorem execCxlReset_footprint (s) : Does (footprint .cxlReset) s (execCxlReset s) := by
  delta footprint; dsimp only; unfold execCxlReset
  refine .ite .same ?_
  exact .ite (.next ((refusedRec_effect ..).step (linkDown_effect ..).one)) (.next (startRestart_effect ..).one)

theorem execD3hotEntry_footprint (s) : Does (footprint .d3hotEntry) s (execD3hotEntry s) := by
  delta footprint; dsimp only; unfold execD3hotEntry
  exact .ite (.next (setD3hot_effect ..).one) .same

theorem execCxlMemRead_footprint (addr first second s) :
    Does (footprint (.cxlMemRead addr first second)) s (execCxlMemRead addr first second s) := by
  delta footprint; dsimp only; unfold execCxlMemRead
  extract_lets s1 _ _ _ s2
  refine .ite .same ?_
  refine .from (t := s1) (wakeFree_effect ..).one ?_
  refine .ite (.next ((setAnswers_effect ..).step (memRefused_effect ..).one)) ?_
  refine .from (t := s2) ((killSettle_effect ..).step (grantLine_effect ..).one) ?_
  refine .ite (.next (setAnswers_effect ..).one) ?_
  refine .ite (.next ((setAnswers_effect ..).step (tagRefused_effect ..).one)) ?_
  split
  rename_i h
  refine .from (Effect.snd (cxlSector_effect ..) h).one ?_
  split
  rename_i h1
  refine .from (Effect.snd (cxlSector_effect ..) h1).one ?_
  exact .next (setAnswers_effect ..).one

theorem execCxlMemWrite_footprint (addr data s) :
    Does (footprint (.cxlMemWrite addr data)) s (execCxlMemWrite addr data s) := by
  delta footprint; dsimp only; unfold execCxlMemWrite
  extract_lets s1
  refine .ite .same (.from (t := s1) (wakeFree_effect ..).one ?_)
  refine .ite (.next (memRefused_effect ..).one) (.ite (.next (tagRefused_effect ..).one) (.next ?_))
  refine (hitGuards_effect ..).step ((lostWrites_effect ..).step ?_)
  exact effect_set_mem _ (by decide +kernel) (fun h => ⟨bytesWf_putBytes _ _ _ h.1, h.2⟩) (writeCodes_effect ..).one

theorem execRegisterWrite_footprint (by_ offset size value s) :
    Does (footprint (.registerWrite by_ offset size value)) s (execRegisterWrite by_ offset size value s) := by
  delta footprint; dsimp only; unfold execRegisterWrite
  split
  · exact .next (timerWrite_effect ..).one
  · exact .next (bar0Write_effect (by decide +kernel) (fun _ => (writeAt_effect ..).one) (.refl ..))

theorem execUnassignedAccess_footprint (by_ bar2 isWrite offset size value s) :
    Does (footprint (.unassignedAccess by_ bar2 isWrite offset size value)) s
      (execUnassignedAccess by_ bar2 isWrite offset size value s) := by
  delta footprint; dsimp only; unfold execUnassignedAccess
  refine .ite .same ?_
  refine .ite (.next (unsupportedRequest_effect ..).one) ?_
  refine .ite (.next (.ite (refusedAt_effect ..).one (.ite (.refl ..) (setAnswers_effect ..).one))) ?_
  refine .ite .same ?_
  refine .next ?_
  refine .ite ((refusedAt_effect ..).step (crossBridge_effect ..).one) ?_
  exact (setAnswers_effect ..).step ((refusedAt_effect ..).step (crossBridge_effect ..).one)

theorem execDoorbell_footprint (die ring value s) :
    Does (footprint (.doorbell die ring value)) s (execDoorbell die ring value s) := by
  delta footprint; dsimp only; unfold execDoorbell
  exact .next (barWrite_effect (by decide +kernel) (fun _ => (doorbellWrite_effect ..).one) (.refl ..))

theorem execConsumerDoorbell_footprint (die eph value s) :
    Does (footprint (.consumerDoorbell die eph value)) s (execConsumerDoorbell die eph value s) := by
  delta footprint; dsimp only; unfold execConsumerDoorbell
  exact .next (barWrite_effect (by decide +kernel) (fun _ => (consumerWrite_effect ..).one) (.refl ..))

theorem execRingEnable_footprint (die ring size s) :
    Does (footprint (.ringEnable die ring size)) s (execRingEnable die ring size s) := by
  delta footprint; dsimp only; unfold execRingEnable
  exact .next (bar0Write_effect (by decide +kernel) (fun _ => (ringSizeWrite_effect ..).one) (.refl ..))

theorem execRingDisable_footprint (die ring s) :
    Does (footprint (.ringDisable die ring)) s (execRingDisable die ring s) := by
  delta footprint; dsimp only; unfold execRingDisable
  exact .next (bar0Write_effect (by decide +kernel) (fun _ => (ringSizeWrite_effect ..).one) (.refl ..))

theorem execDescriptorFetch_footprint (die ring data s) :
    Does (footprint (.descriptorFetch die ring data)) s (execDescriptorFetch die ring data s) := by
  delta footprint; dsimp only; unfold execDescriptorFetch
  extract_lets
  refine .ite .same ?_
  split
  · exact .next (ringFault_effect ..).one
  · exact .next ((ringAdvance_effect ..).step ((emit_effect ..).step ((wr_effect ..).step (setRing_effect ..).one)))

theorem execCompletionWrite_footprint (die ring ok s) :
    Does (footprint (.completionWrite die ring ok)) s (execCompletionWrite die ring ok s) := by
  delta footprint; dsimp only; unfold execCompletionWrite
  extract_lets
  split
  · exact .same
  · extract_lets _ s1
    refine .ite .same ?_
    exact .next ((killSettle_effect ..).step ((settlePower_effect ..).step ((ringAdvance_effect ..).step
      ((ringSettle_effect ..).step ((completionEffect_effect ..).step ((writeCompletion_effect ..).step
      ((zeroingOver_effect ..).step (.trans (t := s1) (setRing_effect ..).one (.ite (sendSignal_effect ..).one
      (.refl ..))))))))))

/-! ### Descriptors -/

theorem execInstall_footprint (c mf s) : Does (footprint (.install c mf)) s (execInstall c mf s) := by
  delta footprint; dsimp only; unfold execInstall
  extract_lets
  split
  · exact .same
  next h =>
    extract_lets _ _ _ _ s2
    refine .from (takeDesc_effect h).one ?_
    refine .ite (.next (finishWith_effect ..).one) ?_
    refine .ite (.next ((finishWith_effect ..).step (installFault_effect ..).one)) ?_
    refine .ite (.next (finishWith_effect ..).one) ?_
    refine .ite (.next (finishWith_effect ..).one) ?_
    refine .from (t := s2) (readEffects_effect ..).one ?_
    refine .ite (.next (finishWith_effect ..).one) ?_
    split
    rename_i h1
    extract_lets
    refine .from (Effect.snd (memRead_effect ..) h1).one ?_
    split
    · exact .next ((finishWith_effect ..).step (installFault_effect ..).one)
    · exact .next ((finish_effect ..).step (fillSlot_effect ..).one)

theorem execRun_footprint (c s) : Does (footprint (.run c)) s (execRun c s) := by
  delta footprint; dsimp only; unfold execRun
  extract_lets
  split
  · exact .same
  next h =>
    refine .from (takeDesc_effect h).one ?_
    refine .ite (.next (finishWith_effect ..).one) ?_
    refine .ite (.next (finishWith_effect ..).one) ?_
    refine .ite (.next (finishWith_effect ..).one) ?_
    exact .next ((settlePower_effect ..).step ((wrCore_effect ..).step ((setCore_effect ..).step
      (keepActive_effect ..).one)))

theorem execLayers_footprint (c mf s) : Does (footprint (.layers c mf)) s (execLayers c mf s) := by
  delta footprint; dsimp only; unfold execLayers
  extract_lets
  split
  · exact .same
  next h =>
    extract_lets _ _ _ _ _ _ _ s2
    refine .from (takeDesc_effect h).one ?_
    refine .ite (.next (finishWith_effect ..).one) ?_
    refine .ite (.next (finishWith_effect ..).one) ?_
    refine .ite (.next (finishWith_effect ..).one) ?_
    refine .from (t := s2) (readEffects_effect ..).one ?_
    split
    rename_i h1
    refine .from (Effect.snd (memRead_effect ..) h1).one ?_
    refine .ite (.next (finishWith_effect ..).one) ?_
    exact .ite (.next (finishWith_effect ..).one) (.next ((finish_effect ..).step (setCore_effect ..).one))

theorem execTransfer_footprint (die ring hostData mf s) :
    Does (footprint (.transfer die ring hostData mf)) s (execTransfer die ring hostData mf s) := by
  delta footprint; dsimp only; unfold execTransfer
  extract_lets
  split
  · exact .same
  next h =>
    refine .from (takeDesc_effect h).one ?_
    refine .ite (.next (finishWith_effect ..).one) ?_
    refine .ite (.next (finishWith_effect ..).one) ?_
    refine .ite (.next (finishEmpty_effect ..).one) ?_
    split
    rename_i h1
    refine .from (.snd ?_ h1) ?_
    · split
      · exact .refl ..
      · exact (moveSource_effect ..).one
    · exact .next ((finishMove_effect ..).step (.ite (hostWrite_effect ..).one (memWrite_effect ..).one))

theorem execFill_footprint (die ring mf s) : Does (footprint (.fill die ring mf)) s (execFill die ring mf s) := by
  delta footprint; dsimp only; unfold execFill
  extract_lets
  split
  · exact .same
  next h =>
    refine .from (takeDesc_effect h).one ?_
    refine .ite (.next (finishWith_effect ..).one) ?_
    refine .ite (.next (finishWith_effect ..).one) ?_
    exact .ite (.next (finishEmpty_effect ..).one) (.next ((finishMove_effect ..).step (memWrite_effect ..).one))

theorem execCopy_footprint (die ring mf s) : Does (footprint (.copy die ring mf)) s (execCopy die ring mf s) := by
  delta footprint; dsimp only; unfold execCopy
  extract_lets
  split
  · exact .same
  next h =>
    refine .from (takeDesc_effect h).one ?_
    refine .ite (.next (finishWith_effect ..).one) ?_
    refine .ite (.next (finishWith_effect ..).one) ?_
    refine .ite (.next (finishEmpty_effect ..).one) ?_
    split
    rename_i h1
    refine .from (Effect.snd (moveSource_effect ..) h1).one ?_
    exact .next ((finishMove_effect ..).step (memWrite_effect ..).one)

theorem execCollectiveRunStart_footprint (die ring failedAdds mf s) :
    Does (footprint (.collectiveRunStart die ring failedAdds mf)) s
      (execCollectiveRunStart die ring failedAdds mf s) := by
  delta footprint; dsimp only; unfold execCollectiveRunStart
  extract_lets
  split
  · exact .same
  · extract_lets _ s1
    refine .ite .same ?_
    refine .from (t := s1) (setCol_effect ..).one ?_
    refine .ite (.ite (.next (stopRun_effect ..).one) (.next (.fold (fun _ _ => (mcastPacket_effect ..).one)
      (.refl ..)))) ?_
    refine .next ?_
    refine .fold ?_ (.fold (fun _ _ => (firstPacket_effect ..).one) (.refl ..))
    intro _ _
    split
    exact (runPacket_effect ..).one

theorem execCollectiveRunEnd_footprint (die ring s) :
    Does (footprint (.collectiveRunEnd die ring)) s (execCollectiveRunEnd die ring s) := by
  delta footprint; dsimp only; unfold execCollectiveRunEnd
  extract_lets
  split
  · exact .same
  · exact .ite (.next (endRun_effect ..).one) (.ite (.next (endRun_effect ..).one) .same)

theorem execCollectiveTimeout_footprint (die ring s) :
    Does (footprint (.collectiveTimeout die ring)) s (execCollectiveTimeout die ring s) := by
  delta footprint; dsimp only; unfold execCollectiveTimeout
  extract_lets
  split
  · exact .same
  · extract_lets
    refine .ite (.next (stopRun_effect ..).one) ?_
    refine .ite ?_ .same
    split
    · exact .next ((timeoutWait_effect ..).step (setHeld_effect ..).one)
    · exact .same

theorem execJobBegin_footprint (train reportOk s) :
    Does (footprint (.jobBegin train reportOk)) s (execJobBegin train reportOk s) := by
  delta footprint; dsimp only; unfold execJobBegin
  split
  · exact .same
  next h =>
    refine .from (takeDesc_effect h).one ?_
    refine .ite (.next (mgmtDone_effect ..).one) ?_
    exact .next (hostAct_effect (by decide +kernel) (fun _ => (mgmtDone_effect ..).step (beginJob_effect ..).one)
      (.refl ..))

theorem execJobEnd_footprint (s) : Does (footprint .jobEnd) s (execJobEnd s) := by
  delta footprint; dsimp only; unfold execJobEnd
  split
  · exact .same
  next h =>
    refine .from (takeDesc_effect h).one ?_
    refine .ite (.next (mgmtDone_effect ..).one) ?_
    exact .next (hostAct_effect (by decide +kernel) (fun _ => (mgmtDone_effect ..).step (endByHost_effect ..).one)
      (.refl ..))

theorem execJobKill_footprint (s) : Does (footprint .jobKill) s (execJobKill s) := by
  delta footprint; dsimp only; unfold execJobKill
  split
  · exact .same
  next h =>
    refine .from (takeDesc_effect h).one ?_
    refine .ite (.next (mgmtDone_effect ..).one) ?_
    exact .next (hostAct_effect (by decide +kernel) (fun _ => (mgmtDone_effect ..).step (killJob_effect ..).one)
      (.refl ..))

theorem execResidency_footprint (s) : Does (footprint .residency) s (execResidency s) := by
  delta footprint; dsimp only; unfold execResidency
  split
  · exact .same
  next h =>
    refine .from (takeDesc_effect h).one ?_
    refine .ite (.next (mgmtDone_effect ..).one) ?_
    refine .ite (.next (mgmtDone_effect ..).one) ?_
    exact .next ((mgmtDone_effect ..).step ((wf_effect ..).step (wr_effect ..).one))

theorem execSignalDescriptor_footprint (die s) :
    Does (footprint (.signalDescriptor die)) s (execSignalDescriptor die s) := by
  delta footprint; dsimp only; unfold execSignalDescriptor
  extract_lets
  split
  · exact .same
  next h =>
    refine .from (takeDesc_effect h).one ?_
    exact .ite (.next (finishWith_effect ..).one) (.next ((finishWith_effect ..).step (sendSignal_effect ..).one))

theorem execRouteWrite_footprint (die mf s) : Does (footprint (.routeWrite die mf)) s (execRouteWrite die mf s) := by
  delta footprint; dsimp only; unfold execRouteWrite
  extract_lets
  split
  · exact .same
  next h =>
    extract_lets
    refine .from (takeDesc_effect h).one ?_
    refine .ite (.next (mgmtDone_effect ..).one) ?_
    refine .ite (.next (mgmtDone_effect ..).one) ?_
    refine .ite (.next (mgmtDone_effect ..).one) ?_
    split
    rename_i h1
    extract_lets
    refine .from (Effect.snd (readRanges_effect ..) h1).one ?_
    split
    rename_i h2
    refine .from (Effect.snd (memRead_effect ..) h2).one ?_
    refine .ite (.next (mgmtDone_effect ..).one) ?_
    refine .ite (.next (mgmtDone_effect ..).one) ?_
    refine .ite (.next (mgmtDone_effect ..).one) ?_
    exact .next ((mgmtDone_effect ..).step ((wf_effect ..).step (setRoutes_effect ..).one))

theorem execRestart_footprint (s) : Does (footprint .restart) s (execRestart s) := by
  delta footprint; dsimp only; unfold execRestart
  split
  · exact .same
  next h =>
    exact .from (takeDesc_effect h).one (.next (finishWith_effect ..).one)

theorem execSetCap_footprint (s) : Does (footprint .setCap) s (execSetCap s) := by
  delta footprint; dsimp only; unfold execSetCap
  split
  · exact .same
  next h =>
    refine .from (takePower_effect h).one ?_
    refine .ite (.next (finishWith_effect ..).one) ?_
    exact .next ((finishHeld_effect ..).step ((masterRec_effect ..).step (wr_effect ..).one))

theorem execClearCap_footprint (s) : Does (footprint .clearCap) s (execClearCap s) := by
  delta footprint; dsimp only; unfold execClearCap
  split
  · exact .same
  next h =>
    refine .from (takePower_effect h).one ?_
    exact .ite (.next (finishWith_effect ..).one) (.next ((finishHeld_effect ..).step (wf_effect ..).one))

theorem execSetCeiling_footprint (s) : Does (footprint .setCeiling) s (execSetCeiling s) := by
  delta footprint; dsimp only; unfold execSetCeiling
  split
  · exact .same
  next h =>
    refine .from (takePower_effect h).one ?_
    refine .ite (.next (finishWith_effect ..).one) ?_
    exact .next ((finishHeld_effect ..).step ((masterRec_effect ..).step (wr_effect ..).one))

theorem execClearCeiling_footprint (s) : Does (footprint .clearCeiling) s (execClearCeiling s) := by
  delta footprint; dsimp only; unfold execClearCeiling
  split
  · exact .same
  next h =>
    refine .from (takePower_effect h).one ?_
    exact .ite (.next (finishWith_effect ..).one) (.next ((finishHeld_effect ..).step (wr_effect ..).one))

theorem execNap_footprint (s) : Does (footprint .nap) s (execNap s) := by
  delta footprint; dsimp only; unfold execNap
  split
  · exact .same
  next h =>
    refine .from (takePower_effect h).one ?_
    refine .ite (.next (finishWith_effect ..).one) ?_
    refine .ite (.next (finishWith_effect ..).one) ?_
    exact .next (hostAct_effect (by decide +kernel) (fun _ => (finishWith_effect ..).step
      (askByHost_effect ..).one) (.refl ..))

theorem execDark_footprint (s) : Does (footprint .dark) s (execDark s) := by
  delta footprint; dsimp only; unfold execDark
  split
  · exact .same
  next h =>
    refine .from (takePower_effect h).one ?_
    refine .ite (.next (finishWith_effect ..).one) ?_
    refine .ite (.next (finishWith_effect ..).one) ?_
    exact .next (hostAct_effect (by decide +kernel) (fun _ => (finishWith_effect ..).step
      (askByHost_effect ..).one) (.refl ..))

theorem execLowPowerEntry_footprint (s) : Does (footprint .lowPowerEntry) s (execLowPowerEntry s) := by
  delta footprint; dsimp only; unfold execLowPowerEntry
  refine .ite .same ?_
  split
  · exact .next (enterNap_effect ..).one
  · exact .next (enterDark_effect ..).one
  · exact .same

theorem execWake_footprint (train s) : Does (footprint (.wake train)) s (execWake train s) := by
  delta footprint; dsimp only; unfold execWake
  exact .ite (.next (wakeTrained_effect ..).one) .same

theorem execDarkWake_footprint (train s) : Does (footprint (.darkWake train)) s (execDarkWake train s) := by
  delta footprint; dsimp only; unfold execDarkWake
  exact .ite (.next (wakeDark_effect ..).one) .same

theorem execEpochCommit_footprint (by_ die value s) :
    Does (footprint (.epochCommit by_ die value)) s (execEpochCommit by_ die value s) := by
  delta footprint; dsimp only; unfold execEpochCommit
  exact .next (bar0Write_effect (by decide +kernel) (fun _ => (routeCtrlWrite_effect ..).one) (.refl ..))

theorem execEpochSet_footprint (by_ die value s) :
    Does (footprint (.epochSet by_ die value)) s (execEpochSet by_ die value s) := by
  delta footprint; dsimp only; unfold execEpochSet
  exact .next (bar0Write_effect (by decide +kernel) (fun _ => (routeCtrlWrite_effect ..).one) (.refl ..))

theorem execSidSet_footprint (by_ die value s) :
    Does (footprint (.sidSet by_ die value)) s (execSidSet by_ die value s) := by
  delta footprint; dsimp only; unfold execSidSet
  exact .next (bar0Write_effect (by decide +kernel) (fun _ => (sidSetWrite_effect ..).one) (.refl ..))

theorem execIcuPendWrite_footprint (by_ die group value sameCycle s) :
    Does (footprint (.icuPendWrite by_ die group value sameCycle)) s
      (execIcuPendWrite by_ die group value sameCycle s) := by
  delta footprint; dsimp only; unfold execIcuPendWrite
  exact .next (bar0Write_effect (by decide +kernel) (fun _ => (icuPendWrite_effect ..).one) (.refl ..))

theorem execIcuMaskWrite_footprint (by_ die group value s) :
    Does (footprint (.icuMaskWrite by_ die group value)) s (execIcuMaskWrite by_ die group value s) := by
  delta footprint; dsimp only; unfold execIcuMaskWrite
  exact .next (bar0Write_effect (by decide +kernel) (fun _ => (icuMaskWrite_effect ..).one) (.refl ..))

theorem execIcuTargetWrite_footprint (by_ die source value s) :
    Does (footprint (.icuTargetWrite by_ die source value)) s (execIcuTargetWrite by_ die source value s) := by
  delta footprint; dsimp only; unfold execIcuTargetWrite
  exact .next (bar0Write_effect (by decide +kernel) (fun _ => (icuTargetWrite_effect ..).one) (.refl ..))

theorem execHoldoffExpiry_footprint (die group s) :
    Does (footprint (.holdoffExpiry die group)) s (execHoldoffExpiry die group s) := by
  delta footprint; dsimp only; unfold execHoldoffExpiry
  extract_lets _ _ _ s1 s2
  refine .ite .same ?_
  refine .from (t := s1) (setIcuTimers_effect ..).one ?_
  refine .from (t := s2) (.fold (fun _ _ => .ite (.refl ..) (wr_effect ..).one) (.refl ..)) ?_
  exact .ite .same (.next ((setAttention_effect ..).step (wr_effect ..).one))

theorem execAttentionPulse_footprint (s) : Does (footprint .attentionPulse) s (execAttentionPulse s) := by
  delta footprint; dsimp only; unfold execAttentionPulse
  exact .ite (.next (setPulse_effect ..).one) .same

theorem execAttentionRepeat_footprint (s) : Does (footprint .attentionRepeat) s (execAttentionRepeat s) := by
  delta footprint; dsimp only; unfold execAttentionRepeat
  exact .ite .same (.ite (.next (setRepeating_effect ..).one) (.ite .same (.next (setAttention_effect ..).one)))

theorem execCompanionStart_footprint (by_ die slot s) :
    Does (footprint (.companionStart by_ die slot)) s (execCompanionStart by_ die slot s) := by
  delta footprint; dsimp only; unfold execCompanionStart
  exact .next (bar0Write_effect (by decide +kernel) (fun _ => (compCtrlWrite_effect ..).one) (.refl ..))

theorem execCompanionStop_footprint (by_ die slot s) :
    Does (footprint (.companionStop by_ die slot)) s (execCompanionStop by_ die slot s) := by
  delta footprint; dsimp only; unfold execCompanionStop
  exact .next (bar0Write_effect (by decide +kernel) (fun _ => (compCtrlWrite_effect ..).one) (.refl ..))

theorem execCompanionFault_footprint (die slot cause addr s) :
    Does (footprint (.companionFault die slot cause addr)) s (execCompanionFault die slot cause addr s) := by
  delta footprint; dsimp only; unfold execCompanionFault
  exact .ite (.next (compDoes_effect ..).one) .same

theorem execCompanionSignal_footprint (die slot a1 s) :
    Does (footprint (.companionSignal die slot a1)) s (execCompanionSignal die slot a1 s) := by
  delta footprint; dsimp only; unfold execCompanionSignal
  refine .ite .same ?_
  exact .ite (.next (compAnswer_effect ..).one) (.next ((compAnswer_effect ..).step (sendSignal_effect ..).one))

theorem execCompanionWait_footprint (die slot a1 s) :
    Does (footprint (.companionWait die slot a1)) s (execCompanionWait die slot a1 s) := by
  delta footprint; dsimp only; unfold execCompanionWait
  refine .ite .same ?_
  refine .ite (.next (compAnswer_effect ..).one) ?_
  refine .ite (.next ((compAnswer_effect ..).step (bump_effect ..).one)) ?_
  exact .next ((sendWait_effect ..).step (setComp_effect ..).one)

theorem execCompanionExit_footprint (die slot a1 s) :
    Does (footprint (.companionExit die slot a1)) s (execCompanionExit die slot a1 s) := by
  delta footprint; dsimp only; unfold execCompanionExit
  exact .ite (.next ((wf_effect ..).step (compEnd_effect ..).one)) .same

theorem execCompanionStamp_footprint (die slot s) :
    Does (footprint (.companionStamp die slot)) s (execCompanionStamp die slot s) := by
  delta footprint; dsimp only; unfold execCompanionStamp
  exact .ite (.next (compAnswer_effect ..).one) .same

theorem execCompanionLog_footprint (die slot a1 a2 s) :
    Does (footprint (.companionLog die slot a1 a2)) s (execCompanionLog die slot a1 a2 s) := by
  delta footprint; dsimp only; unfold execCompanionLog
  exact .ite (.next ((compAnswer_effect ..).step (compLog_effect ..).one)) .same

/-! ### Streams -/

theorem execStreamStart_footprint (c mf late s) :
    Does (footprint (.streamStart c mf late)) s (execStreamStart c mf late s) := by
  delta footprint; dsimp only; unfold execStreamStart
  extract_lets _ _ s1
  split
  · exact .same
  · refine .ite .same ?_
    refine .from (t := s1) ((fetchSome_effect ..).step ((setCore_effect ..).step (wrCore_effect ..).one)) ?_
    refine .ite .same ?_
    exact .next ((passEmpty_effect ..).step ((emit_effect ..).step ((setSeqState_effect ..).step
      ((setCore_effect ..).step (placePoint_effect ..).one))))

theorem execStreamComplete_footprint (c s) : Does (footprint (.streamComplete c)) s (execStreamComplete c s) := by
  delta footprint; dsimp only; unfold execStreamComplete
  exact .ite (.next (endStream_effect ..).one) .same

theorem execReplayPoint_footprint (c s) : Does (footprint (.replayPoint c)) s (execReplayPoint c s) := by
  delta footprint; dsimp only; unfold execReplayPoint
  exact .ite (.next ((passEmpty_effect ..).step ((placePoint_effect ..).step (setCore_effect ..).one))) .same

theorem execFeed_footprint (c late mf s) : Does (footprint (.feed c late mf)) s (execFeed c late mf s) := by
  delta footprint; dsimp only; unfold execFeed
  extract_lets
  split
  · exact .same
  · extract_lets
    refine .ite .same ?_
    refine .ite (.next (wideIssued_effect ..).one) ?_
    split
    · exact .next ((slipFor_effect ..).step ((wideIssued_effect ..).step ((feedLand_effect ..).step
        (setCore_effect ..).one)))
    · split
      rename_i h2
      refine .from ((Effect.snd3 (feedRead_effect ..) h2).step (feedArms_effect ..).one) ?_
      split
      · exact .next ((detect_effect ..).step (wideIssued_effect ..).one)
      · exact .next ((slipFor_effect ..).step ((wideIssued_effect ..).step (feedLand_effect ..).one))

theorem execFeedReadIssue_footprint (c bundle mf s) :
    Does (footprint (.feedReadIssue c bundle mf)) s (execFeedReadIssue c bundle mf s) := by
  delta footprint; dsimp only; unfold execFeedReadIssue
  extract_lets
  refine .ite .same ?_
  split
  · exact .same
  · extract_lets s1
    refine .from (t := s1) (.ite (feedArms_effect ..).one (.refl ..)) ?_
    split
    rename_i h1
    extract_lets
    refine .from (Effect.snd3 (feedRead_effect ..) h1).one ?_
    split
    · exact .next (detect_effect ..).one
    · exact .next (setCore_effect ..).one

theorem execMload_footprint (c load lines s) :
    Does (footprint (.mload c load lines)) s (execMload c load lines s) := by
  delta footprint; dsimp only; unfold execMload
  extract_lets
  split
  · exact .same
  · refine .ite .same ?_
    refine .ite (.next (interlockFor_effect ..).one) ?_
    exact .next ((wideIssued_effect ..).step ((setArray_effect ..).step (.ite (setCore_effect ..).one (.refl ..))))

theorem execPlate_footprint (c s) : Does (footprint (.plate c)) s (execPlate c s) := by
  delta footprint; dsimp only; unfold execPlate
  extract_lets
  split
  · exact .same
  · refine .ite .same ?_
    exact .ite (.next (wideIssued_effect ..).one) (.next ((wideIssued_effect ..).step (setArray_effect ..).one))

theorem execDrain_footprint (c er s) : Does (footprint (.drain c er)) s (execDrain c er s) := by
  delta footprint; dsimp only; unfold execDrain
  extract_lets
  split
  · exact .same
  · extract_lets
    refine .ite .same ?_
    refine .ite (.next (wideIssued_effect ..).one) ?_
    refine .ite (.next (interlockFor_effect ..).one) ?_
    split
    · exact .next ((wideIssued_effect ..).step (setArray_effect ..).one)
    · exact .next (wideIssued_effect ..).one

theorem execSpill_footprint (c array er s) : Does (footprint (.spill c array er)) s (execSpill c array er s) := by
  delta footprint; dsimp only; unfold execSpill
  extract_lets
  refine .ite .same ?_
  split
  · exact .same
  · refine .ite .same ?_
    exact .next ((freezeHeld_effect ..).step ((spillOne_effect ..).step ((setArray_effect ..).step
      (landInto_effect ..).one)))

theorem execInterlockRelease_footprint (c s) :
    Does (footprint (.interlockRelease c)) s (execInterlockRelease c s) := by
  delta footprint; dsimp only; unfold execInterlockRelease
  extract_lets
  split
  · exact .same
  · extract_lets s1
    refine .ite .same ?_
    refine .from (t := s1) (interlockSteps_effect ..).one ?_
    exact .ite (.next ((setSeqState_effect ..).step (setCore_effect ..).one)) .same

theorem execCoreResume_footprint (c freezeCycles s) :
    Does (footprint (.coreResume c freezeCycles)) s (execCoreResume c freezeCycles s) := by
  delta footprint; dsimp only; unfold execCoreResume
  extract_lets _ _ _ _ _ _ s1 _ s2
  refine .ite .same ?_
  refine .next ?_
  refine .trans (t := s1) (countFrozen_effect ..).one ?_
  refine .trans (t := s2) (setCore_effect ..).one ?_
  exact .ite ((passEmpty_effect ..).step (setSeqState_effect ..).one) (.refl ..)

theorem execWatchdogTimeout_footprint (c s) : Does (footprint (.watchdogTimeout c)) s (execWatchdogTimeout c s) := by
  delta footprint; dsimp only; unfold execWatchdogTimeout
  extract_lets
  split
  · exact .ite (.next (slipTimeout_effect ..).one) .same
  · exact .same

theorem execReplay_footprint (c failures s) : Does (footprint (.replay c failures)) s (execReplay c failures s) := by
  delta footprint; dsimp only; unfold execReplay
  extract_lets _ _ _ s1
  split
  · extract_lets
    refine .ite .same ?_
    refine .ite (.ite .same (.next (replayFor_effect ..).one)) ?_
    refine .ite .same ?_
    refine .ite (.next (cycleWork_effect ..).one) ?_
    refine .ite .same ?_
    refine .from (t := s1) (cycleWork_effect ..).one ?_
    split
    · refine .ite (.next (slipTimeout_effect ..).one) ?_
      exact .next ((replayFor_effect ..).step (countFrozen_effect ..).one)
    · exact .next ((replayFor_effect ..).step (countFrozen_effect ..).one)
  · exact .same

theorem execReplayResume_footprint (c pauseCycles s) :
    Does (footprint (.replayResume c pauseCycles)) s (execReplayResume c pauseCycles s) := by
  delta footprint; dsimp only; unfold execReplayResume
  extract_lets
  split
  · refine .ite .same ?_
    refine .ite (.next ((fetchSome_effect ..).step ((flagCore_effect ..).step ((wrCore_effect ..).step
      ((bumpCore_effect ..).step (setCore_effect ..).one))))) ?_
    refine .ite .same ?_
    exact .next ((comeDue_effect ..).step ((setSeqState_effect ..).step ((setCore_effect ..).step
      ((fetchSome_effect ..).step ((flagCore_effect ..).step ((wrCore_effect ..).step ((bumpCore_effect ..).step
      (setCore_effect ..).one)))))))
  · exact .same

theorem execSignal_footprint (c s) : Does (footprint (.signal c)) s (execSignal c s) := by
  delta footprint; dsimp only; unfold execSignal
  extract_lets
  split
  · exact .same
  · refine .ite (.next (narrowIssued_effect ..).one) ?_
    refine .ite (.next ((narrowIssued_effect ..).step (setCore_effect ..).one)) ?_
    exact .next ((narrowIssued_effect ..).step (setCore_effect ..).one)

theorem execSignalSend_footprint (c s) : Does (footprint (.signalSend c)) s (execSignalSend c s) := by
  delta footprint; dsimp only; unfold execSignalSend
  extract_lets
  split
  · exact .ite .same (.next ((sendSignal_effect ..).step (setCore_effect ..).one))
  · exact .same

theorem execWait_footprint (c s) : Does (footprint (.wait c)) s (execWait c s) := by
  delta footprint; dsimp only; unfold execWait
  extract_lets
  split
  · exact .same
  · refine .ite (.next ((narrowIssued_effect ..).step (setCore_effect ..).one)) ?_
    refine .ite (.next ((narrowIssued_effect ..).step ((wakeWaiter_effect ..).step (bump_effect ..).one))) ?_
    exact .next ((freezeCore_effect ..).step ((narrowIssued_effect ..).step (sendWait_effect ..).one))

theorem execGuard_footprint (c s) : Does (footprint (.guard c)) s (execGuard c s) := by
  delta footprint; dsimp only; unfold execGuard
  extract_lets
  split
  · exact .same
  · exact .next ((narrowIssued_effect ..).step (setCore_effect ..).one)

theorem execSignalApply_footprint (die mf s) :
    Does (footprint (.signalApply die mf)) s (execSignalApply die mf s) := by
  delta footprint; dsimp only; unfold execSignalApply
  extract_lets
  split
  · exact .same
  · extract_lets _ _ s1 s2
    refine .from (t := s1) (setSync_effect ..).one ?_
    refine .ite (.next (.fold (fun _ _ => (signalLost_effect ..).one) (.refl ..))) ?_
    refine .ite (.next (.fold (fun _ _ => (grantArrive_effect ..).one) (.refl ..))) ?_
    refine .from (t := s2) (objEffects_effect ..).one ?_
    refine .ite (.next (.fold (fun _ _ => (signalLost_effect ..).one) (.refl ..))) ?_
    split
    exact .next ((examineObj_effect ..).step (.fold (fun _ _ => (irq_effect ..).step ((countRec_effect ..).step
      (bump_effect ..).one)) ((bump_effect ..).step (writeObj_effect ..).one)))

theorem execWaitArrive_footprint (die mf s) : Does (footprint (.waitArrive die mf)) s (execWaitArrive die mf s) := by
  delta footprint; dsimp only; unfold execWaitArrive
  extract_lets
  split
  · exact .same
  · extract_lets _ s1 s2 _ s3 s4
    refine .from (t := s1) (setSync_effect ..).one ?_
    refine .from (t := s2) (setHeld_effect ..).one ?_
    refine .from (t := s3) (objEffects_effect ..).one ?_
    refine .from (t := s4) (.ite (examineObj_effect ..).one (.refl ..)) ?_
    exact .ite (.next ((timeoutWait_effect ..).step (setHeld_effect ..).one)) .same

theorem execWaitTimeout_footprint (die position s) :
    Does (footprint (.waitTimeout die position)) s (execWaitTimeout die position s) := by
  delta footprint; dsimp only; unfold execWaitTimeout
  extract_lets
  split
  · exact .same
  · extract_lets s1
    refine .ite (.from (t := s1) ?_ (.next ((timeoutWait_effect ..).step (withdrawWait_effect ..).one))) .same
    dsimp only [s1]
    split
    · exact (countFrozen_effect ..).one
    · exact .refl ..

/-! ### Update engine -/

theorem execAlmanacRequest_footprint (die slot step s) :
    Does (footprint (.almanacRequest die slot step)) s (execAlmanacRequest die slot step s) := by
  delta footprint; dsimp only; unfold execAlmanacRequest
  exact .ite .same (.next (setAnswers_effect ..).one)

theorem execPatrolScrub_footprint (h findings s) :
    Does (footprint (.patrolScrub h findings)) s (execPatrolScrub h findings s) := by
  delta footprint; dsimp only; unfold execPatrolScrub
  extract_lets
  split
  · exact .same
  · refine .ite .same ?_
    split
    exact .next ((scrubPasses_effect ..).step ((accelSettle_effect ..).step (.fold (fun _ _ =>
      (scrubSector_effect ..).one) (setScrub_effect ..).one)))

/-! ### Fabric -/

theorem execFlitReceive_footprint (die port flit s) :
    Does (footprint (.flitReceive die port flit)) s (execFlitReceive die port flit s) := by
  delta footprint; dsimp only; unfold execFlitReceive
  extract_lets _ _ _ _ _ _ _ _ s1 s2
  refine .ite .same ?_
  refine .ite (.next (setPort_effect ..).one) ?_
  refine .next ?_
  refine .trans (t := s1) (setPort_effect ..).one ?_
  exact .trans (t := s2) (.ite (takeContent_effect ..).one (.refl ..)) (.ite (nakFlits_effect ..).one (.refl ..))

theorem execCreditFlit_footprint (die port credits s) :
    Does (footprint (.creditFlit die port credits)) s (execCreditFlit die port credits s) := by
  delta footprint; dsimp only; unfold execCreditFlit
  exact .ite .same (.next (setPort_effect ..).one)

theorem execLinkControlFlit_footprint (die port stratum s) :
    Does (footprint (.linkControlFlit die port stratum)) s (execLinkControlFlit die port stratum s) := by
  delta footprint; dsimp only; unfold execLinkControlFlit
  exact .ite .same (.next ((sourceSettle_effect ..).step ((answerLink_effect ..).step (setPort_effect ..).one)))

theorem execLedgerDurable_footprint (s) : Does (footprint .ledgerDurable) s (execLedgerDurable s) := by
  delta footprint; dsimp only; unfold execLedgerDurable
  split
  · exact .same
  · extract_lets
    refine .ite .same ?_
    refine .ite (.next (writeSpare_effect ..).one) ?_
    split
    exact .next ((irq_effect ..).step ((ledgerStore_effect ..).step (setFlt_effect ..).one))

theorem execPacketInject_footprint (die flow dst vc s) :
    Does (footprint (.packetInject die flow dst vc)) s (execPacketInject die flow dst vc s) := by
  delta footprint; dsimp only; unfold execPacketInject
  extract_lets
  split
  · exact .next (sendAgain_effect ..).one
  · exact .same
  · refine .ite (.ite .same (.next ((deliverBridge_effect ..).step (setFlowTx_effect ..).one))) ?_
    refine .ite .same ?_
    split
    · exact .next (.ite ((mcastLost_effect ..).step (flowLost_effect ..).one) (flowLost_effect ..).one)
    · exact .next (injectOn_effect ..).one

theorem execDataPacketReceive_footprint (die port pkt failedAdds mf s) :
    Does (footprint (.dataPacketReceive die port pkt failedAdds mf)) s
      (execDataPacketReceive die port pkt failedAdds mf s) := by
  delta footprint; dsimp only; unfold execDataPacketReceive
  exact .next (receive_effect (by decide +kernel) (fun _ => .ite (dropLate_effect ..).one (.ite (dropAcked_effect
    (by decide +kernel) (fun _ _ _ => (deliverData_effect ..).one) (dropDigest_effect ..).one) (inOrder_effect
    (by decide +kernel) (fun _ _ _ => (deliverData_effect ..).one) (.refl ..)))) (.refl ..))

theorem execMcastReceive_footprint (die port pkt run s) :
    Does (footprint (.mcastReceive die port pkt run)) s (execMcastReceive die port pkt run s) := by
  delta footprint; dsimp only; unfold execMcastReceive
  exact .next (receive_effect (by decide +kernel) (fun _ => .ite (dropAcked_effect (by decide +kernel)
    (fun _ _ _ => (deliverMcast_effect ..).one) ((dropRec_effect ..).step (colDrop_effect ..).one)) (inOrder_effect
    (by decide +kernel) (fun _ _ _ => (deliverMcast_effect ..).one) (noteMcast_effect ..).one)) (.refl ..))

theorem execSignalPacketReceive_footprint (die port pkt s) :
    Does (footprint (.signalPacketReceive die port pkt)) s (execSignalPacketReceive die port pkt s) := by
  delta footprint; dsimp only; unfold execSignalPacketReceive
  exact .next (receive_effect (by decide +kernel) (fun _ => .ite (dropLate_effect ..).one (inOrder_effect
    (by decide +kernel) (fun _ _ _ => (deliverPacketSignal_effect ..).one) (.refl ..))) (.refl ..))

theorem execAbortReceive_footprint (die port pkt s) :
    Does (footprint (.abortReceive die port pkt)) s (execAbortReceive die port pkt s) := by
  delta footprint; dsimp only; unfold execAbortReceive
  exact .next (receive_effect (by decide +kernel) (fun _ => .ite (dropLate_effect ..).one (.ite (dropAcked_effect
    (by decide +kernel) (fun _ _ _ => (deliverAbort_effect ..).one) (dropDigest_effect ..).one) (inOrder_effect
    (by decide +kernel) (fun _ _ _ => (deliverAbort_effect ..).one) (.refl ..)))) (.refl ..))

theorem execAckReceive_footprint (die port pkt vc s) :
    Does (footprint (.ackReceive die port pkt vc)) s (execAckReceive die port pkt vc s) := by
  delta footprint; dsimp only; unfold execAckReceive
  refine .next (receive_effect (by decide +kernel) (fun s' => ?_) (.refl ..))
  cases h : (flowTx s' (answeredFlow die.val pkt vc.val pkt.flow)).cand with
  | none =>
    simp only [h]
    exact (settleOutstanding_effect ..).step (setFlowTx_effect ..).one
  | some c =>
    simp only [h]
    refine .ite ((throttle_effect ..).step ?_) ?_ <;>
    exact (settleOutstanding_effect ..).step (setFlowTx_effect ..).one

theorem execMcastAckReceive_footprint (die port pkt s) :
    Does (footprint (.mcastAckReceive die port pkt)) s (execMcastAckReceive die port pkt s) := by
  delta footprint; dsimp only; unfold execMcastAckReceive
  refine .next (receive_effect (by decide +kernel) (fun s' => ?_) (.refl ..))
  split
  · exact (setCol_effect ..).one
  · exact (sendAck_effect ..).step (dropDigest_effect ..).one

theorem execRefuseReceive_footprint (die port pkt s) :
    Does (footprint (.refuseReceive die port pkt)) s (execRefuseReceive die port pkt s) := by
  delta footprint; dsimp only; unfold execRefuseReceive
  refine .next (receive_effect (by decide +kernel) (fun s' => ?_) (.refl ..))
  split
  · exact (setCol_effect ..).one
  · exact (sendAck_effect ..).step (dropDigest_effect ..).one

theorem execFencedReceive_footprint (die port pkt vc s) :
    Does (footprint (.fencedReceive die port pkt vc)) s (execFencedReceive die port pkt vc s) := by
  delta footprint; dsimp only; unfold execFencedReceive
  refine .next (receive_effect (by decide +kernel) (fun s' => ?_) (.refl ..))
  extract_lets
  split
  · exact (fencedMember_effect ..).one
  · exact (fencedPacket_effect ..).step ((settleOutstanding_effect ..).step (setFlowTx_effect ..).one)

theorem execAckTimer_footprint (die src vc flow s) :
    Does (footprint (.ackTimer die src vc flow)) s (execAckTimer die src vc flow s) := by
  delta footprint; dsimp only; unfold execAckTimer
  exact .ite .same (.next (sendAck_effect ..).one)

theorem execRetransmitTimeout_footprint (die flow dst vc s) :
    Does (footprint (.retransmitTimeout die flow dst vc)) s (execRetransmitTimeout die flow dst vc s) := by
  delta footprint; dsimp only; unfold execRetransmitTimeout
  extract_lets
  split
  · exact .same
  · exact .ite .same (.ite (.next (flowLost_effect ..).one) (.ite .same (.next (setFlowTx_effect ..).one)))

theorem execThrottleRecover_footprint (die port vc s) :
    Does (footprint (.throttleRecover die port vc)) s (execThrottleRecover die port vc s) := by
  delta footprint; dsimp only; unfold execThrottleRecover
  extract_lets
  split
  · exact .same
  · exact .ite .same (.next (setPort_effect ..).one)

theorem execFabricFlush_footprint (s) : Does (footprint .fabricFlush) s (execFabricFlush s) := by
  delta footprint; dsimp only; unfold execFabricFlush
  exact .ite .same (.next (flushFabric_effect ..).one)

theorem execLaneLockLoss_footprint (die port lane s) :
    Does (footprint (.laneLockLoss die port lane)) s (execLaneLockLoss die port lane s) := by
  delta footprint; dsimp only; unfold execLaneLockLoss
  exact .ite (.next (setPort_effect ..).one) .same

theorem execPortFail_footprint (die port cause s) :
    Does (footprint (.portFail die port cause)) s (execPortFail die port cause s) := by
  delta footprint; dsimp only; unfold execPortFail
  extract_lets _ _ s1 s2
  refine .ite .same (.from (t := s1) ?_ (.from (t := s2) (linkEvent_effect ..).one ?_))
  · dsimp only [s1]
    split
    · exact .fold (fun _ _ => (irq_effect ..).step (exhaust_effect ..).one) (.refl ..)
    · exact .refl ..
  · refine .ite (.next ((sourceSettle_effect ..).step ((portEvent_effect ..).step ((bump_effect ..).step ?_))))
      (.next ?_)
    · exact (setPortState_effect ..).step (setPort_effect ..).one
    · exact (sourceSettle_effect ..).step ((bump_effect ..).step
        ((setPortState_effect ..).step (setPort_effect ..).one))

theorem execRetrainComplete_footprint (die port good s) :
    Does (footprint (.retrainComplete die port good)) s (execRetrainComplete die port good s) := by
  delta footprint; dsimp only; unfold execRetrainComplete
  extract_lets _ _ _ _ _ _ _ _ s2 s3
  refine .ite .same ?_
  refine .ite (.next ((sourceSettle_effect ..).step ((portEvent_effect ..).step ((setPortState_effect ..).step
    (setPort_effect ..).one)))) ?_
  exact .next ((sourceSettle_effect ..).step (.trans (t := s2) (setPort_effect ..).one (.trans (t := s3)
    (setPortState_effect ..).one (.ite (portEvent_effect ..).one (.refl ..)))))

theorem execDetourReinject_footprint (die port s) :
    Does (footprint (.detourReinject die port)) s (execDetourReinject die port s) := by
  delta footprint; dsimp only; unfold execDetourReinject
  refine .ite .same ?_
  exact .next ((setPort_effect ..).step ((settleOutstanding_effect ..).step (.fold (fun _ _ =>
    (moveFlow_effect ..).one) (.refl ..))))

theorem execLaneRecalibrate_footprint (die port lane idleSeen worse s) :
    Does (footprint (.laneRecalibrate die port lane idleSeen worse)) s
      (execLaneRecalibrate die port lane idleSeen worse s) := by
  delta footprint; dsimp only; unfold execLaneRecalibrate
  extract_lets
  refine .ite .same ?_
  refine .ite (.next (setPort_effect ..).one) ?_
  split
  rename_i h1
  exact .from (Effect.snd (fresh_effect ..) h1).one (.next (setPort_effect ..).one)

theorem execBridgeFlitReceive_footprint (group crcOk s) :
    Does (footprint (.bridgeFlitReceive group crcOk)) s (execBridgeFlitReceive group crcOk s) := by
  delta footprint; dsimp only; unfold execBridgeFlitReceive
  refine .ite .same ?_
  refine .ite (.next (setFlt_effect ..).one) ?_
  refine .ite (.next ((transient_effect ..).step (setFlt_effect ..).one)) ?_
  exact .next ((exhaust_effect ..).step (setFlt_effect ..).one)

theorem execBridgeRecalibrate_footprint (group s) :
    Does (footprint (.bridgeRecalibrate group)) s (execBridgeRecalibrate group s) := by
  delta footprint; dsimp only; unfold execBridgeRecalibrate
  refine .ite .same ?_
  split
  rename_i h1
  exact .from (Effect.snd (fresh_effect ..) h1).one (.next (setFlt_effect ..).one)

/-! ### Sidereal time and records -/

theorem execSiderealExchange_footprint (s) : Does (footprint .siderealExchange) s (execSiderealExchange s) := by
  delta footprint; dsimp only; unfold execSiderealExchange
  extract_lets s1
  refine .ite .same ?_
  refine .from (t := s1) (sourceSettle_effect ..).one ?_
  split
  · exact .same
  · exact .next (.ite (askTime_effect ..).one (.refl ..))

theorem execExchangeAnswer_footprint (t2 t3 stratum s) :
    Does (footprint (.exchangeAnswer t2 t3 stratum)) s (execExchangeAnswer t2 t3 stratum s) := by
  delta footprint; dsimp only; unfold execExchangeAnswer
  split
  · exact .same
  · extract_lets _ _ s1 _ s2
    split
    · exact .same
    · refine .from (t := s1) (setPort_effect ..).one ?_
      refine .from (t := s2) (setSid_effect ..).one ?_
      refine .ite (.next (sourceSettle_effect ..).one) ?_
      exact .next ((sourceSettle_effect ..).step ((setSid_effect ..).step ((judge_effect ..).step
        ((correct_effect ..).step (countBetter_effect ..).one))))

theorem execSyncLossTimeout_footprint (s) : Does (footprint .syncLossTimeout) s (execSyncLossTimeout s) := by
  delta footprint; dsimp only; unfold execSyncLossTimeout
  exact .ite (.next ((setSyncedBoth_effect ..).step (setSid_effect ..).one)) .same

theorem execBridgeTimeMeasure_footprint (s) : Does (footprint .bridgeTimeMeasure) s (execBridgeTimeMeasure s) := by
  delta footprint; dsimp only; unfold execBridgeTimeMeasure
  exact .ite .same (.ite (.next (follow_effect ..).one) (.ite (.next (follow_effect ..).one) .same))

theorem execTimeoutPulse_footprint (s) : Does (footprint .timeoutPulse) s (execTimeoutPulse s) := by
  delta footprint; dsimp only; unfold execTimeoutPulse
  exact .ite .same (.next (setSid_effect ..).one)

theorem execTimeinEdge_footprint (s) : Does (footprint .timeinEdge) s (execTimeinEdge s) := by
  delta footprint; dsimp only; unfold execTimeinEdge
  extract_lets _ _ s1
  refine .ite .same ?_
  refine .from (t := s1) (setSid_effect ..).one ?_
  exact .ite (.next (correct_effect ..).one) (.ite (.next (syncRec_effect ..).one) .same)

theorem execTimeinMissing_footprint (s) : Does (footprint .timeinMissing) s (execTimeinMissing s) := by
  delta footprint; dsimp only; unfold execTimeinMissing
  extract_lets
  split
  · exact .same
  · exact .ite .same (.next ((syncRec_effect ..).step ((irq_effect ..).step (setSid_effect ..).one)))

theorem execTelemetry_footprint (s) : Does (footprint .telemetry) s (execTelemetry s) := by
  delta footprint; dsimp only; unfold execTelemetry
  exact .ite .same (.next ((setMgmt_effect ..).step (emit_effect ..).one))

theorem execEphemerisFlush_footprint (die ok s) :
    Does (footprint (.ephemerisFlush die ok)) s (execEphemerisFlush die ok s) := by
  delta footprint; dsimp only; unfold execEphemerisFlush
  refine .ite (.next (ringFault_effect ..).one) ?_
  refine .ite .same ?_
  exact .ite (.next ((ephSettle_effect ..).step (flushEph_effect ..).one)) (.next (ringFault_effect ..).one)

theorem execEventFlush_footprint (die ok s) : Does (footprint (.eventFlush die ok)) s (execEventFlush die ok s) := by
  delta footprint; dsimp only; unfold execEventFlush
  refine .ite (.next (ringFault_effect ..).one) ?_
  exact .ite .same (.ite (.next (flushEvents_effect ..).one) (.next (ringFault_effect ..).one))

/-! ### Power -/

theorem execControlStep_footprint (energyMj s) :
    Does (footprint (.controlStep energyMj)) s (execControlStep energyMj s) := by
  delta footprint; dsimp only; unfold execControlStep
  refine .ite .same ?_
  refine .ite (.next (countEnergy_effect ..).one) ?_
  exact .next ((releaseHeld_effect ..).step ((limitSettle_effect ..).step ((tightStep_effect ..).step
    ((orderStep_effect ..).step (countEnergy_effect ..).one))))

theorem execDvfsStep_footprint (die s) : Does (footprint (.dvfsStep die)) s (execDvfsStep die s) := by
  delta footprint; dsimp only; unfold execDvfsStep
  extract_lets
  split
  · exact .next (.ite (startStep_effect ..).one (.refl ..))
  · refine .ite .same ?_
    exact .next ((brakeSettle_effect ..).step ((startStep_effect ..).step (clkChange_effect (by decide +kernel)
      (fun _ => (wf_effect ..).step ((wf_effect ..).step (setClk_effect ..).one)) (.refl ..))))

theorem execDroopDetect_footprint (reading s) :
    Does (footprint (.droopDetect reading)) s (execDroopDetect reading s) := by
  delta footprint; dsimp only; unfold execDroopDetect
  refine .ite .same ?_
  exact .next ((irq_effect ..).step ((bump_effect ..).step (clkChange_effect (by decide +kernel) (fun _ =>
    (setClk_effect ..).one) (.refl ..))))

theorem execDroopClear_footprint (reading s) :
    Does (footprint (.droopClear reading)) s (execDroopClear reading s) := by
  delta footprint; dsimp only; unfold execDroopClear
  exact .ite .same (.next (clkChange_effect (by decide +kernel) (fun _ => (setClk_effect ..).one) (.refl ..)))

theorem execOverpowerStretch_footprint (watts s) :
    Does (footprint (.overpowerStretch watts)) s (execOverpowerStretch watts s) := by
  delta footprint; dsimp only; unfold execOverpowerStretch
  refine .ite .same ?_
  exact .next (.fold (fun _ _ => clkChange_effect (by decide +kernel) (fun _ => (setClk_effect ..).one) (.refl ..))
    (.refl ..))

theorem execHeliostatEpoch_footprint (s) : Does (footprint .heliostatEpoch) s (execHeliostatEpoch s) := by
  delta footprint; dsimp only; unfold execHeliostatEpoch
  extract_lets
  refine .ite .same ?_
  split
  · refine .ite (.next ((setBalance_effect ..).step (helioClose_effect ..).one)) ?_
    exact .next ((setBalance_effect ..).step (helioClose_effect ..).one)
  · exact .next ((setBalance_effect ..).step (helioClose_effect ..).one)

theorem execGrantSend_footprint (s) : Does (footprint .grantSend) s (execGrantSend s) := by
  delta footprint; dsimp only; unfold execGrantSend
  extract_lets
  split
  · exact .ite .same (.next ((sendSignal_effect ..).step (setPwr_effect ..).one))
  · exact .same

theorem execThermalCeilingStep_footprint (hottest s) :
    Does (footprint (.thermalCeilingStep hottest)) s (execThermalCeilingStep hottest s) := by
  delta footprint; dsimp only; unfold execThermalCeilingStep
  extract_lets _ _ _ _ _ s1 _ s2
  refine .ite .same ?_
  exact .next ((wf_effect ..).step (.trans (t := s1) (setTemp_effect ..).one
    (.trans (t := s2) (setPwr_effect ..).one (.ite (masterRec_effect ..).one (.refl ..)))))

theorem execThermalAlert_footprint (hottest s) :
    Does (footprint (.thermalAlert hottest)) s (execThermalAlert hottest s) := by
  delta footprint; dsimp only; unfold execThermalAlert
  extract_lets _ _ s1
  refine .ite .same ?_
  refine .from (t := s1) (setTemp_effect ..).one ?_
  exact .ite (.next (setTherm_effect ..).one) (.ite (.next (setTherm_effect ..).one) .same)

theorem execThermalCritical_footprint (hottest s) :
    Does (footprint (.thermalCritical hottest)) s (execThermalCritical hottest s) := by
  delta footprint; dsimp only; unfold execThermalCritical
  refine .ite .same ?_
  exact .next ((askLowPower_effect ..).step ((setPwr_effect ..).step ((killByOther_effect ..).step
    (setTemp_effect ..).one)))

theorem execPowerBrake_footprint (s) : Does (footprint .powerBrake) s (execPowerBrake s) := by
  delta footprint; dsimp only; unfold execPowerBrake
  exact .ite .same (.next ((brakeAct_effect ..).step (bump_effect ..).one))

theorem execBrakeRelease_footprint (s) : Does (footprint .brakeRelease) s (execBrakeRelease s) := by
  delta footprint; dsimp only; unfold execBrakeRelease
  exact .ite .same (.next ((brakeEase_effect ..).step (brakeChange_effect ..).one))

theorem execSupplyBrake_footprint (s) : Does (footprint .supplyBrake) s (execSupplyBrake s) := by
  delta footprint; dsimp only; unfold execSupplyBrake
  exact .ite .same (.next (brakeAct_effect ..).one)

theorem execSupplyRecover_footprint (s) : Does (footprint .supplyRecover) s (execSupplyRecover s) := by
  delta footprint; dsimp only; unfold execSupplyRecover
  exact .ite .same (.next ((brakeEase_effect ..).step (brakeChange_effect ..).one))

theorem execSupplyLoss_footprint (s) : Does (footprint .supplyLoss) s (execSupplyLoss s) := by
  delta footprint; dsimp only; unfold execSupplyLoss
  exact .ite (.next (powerGone_effect ..).one) .same

theorem execSupplyRestart_footprint (pins train s) :
    Does (footprint (.supplyRestart pins train)) s (execSupplyRestart pins train s) := by
  delta footprint; dsimp only; unfold execSupplyRestart
  exact .ite .same (.next (powerUp_effect ..).one)

theorem execInputFilterAccept_footprint (input level s) :
    Does (footprint (.inputFilterAccept input level)) s (execInputFilterAccept input level s) := by
  delta footprint; dsimp only; unfold execInputFilterAccept
  extract_lets f v s1
  have h1 : Effect [.reg .icuInputState] s s1 := by cases input <;> exact wf_effect s f 0 0 v
  refine .ite .same (.from h1.one ?_)
  split
  · exact .next (.ite (.refl ..) (irq_effect ..).one)
  · exact .next (.ite (pressed_effect ..).one (.refl ..))
  · exact .next (sealChange_effect ..).one
  · exact .next (.ite ((irq_effect ..).step (irq_effect ..).one) (brakeEase_effect ..).one)

theorem execPresenceExpiry_footprint (s) : Does (footprint .presenceExpiry) s (execPresenceExpiry s) := by
  delta footprint; dsimp only; unfold execPresenceExpiry
  exact .ite (.next ((irq_effect ..).step (wf_effect ..).one)) .same

/-! ### Trust -/

theorem execDoeDiscovery_footprint (index s) :
    Does (footprint (.doeDiscovery index)) s (execDoeDiscovery index s) := by
  delta footprint; dsimp only; unfold execDoeDiscovery
  exact .ite .same (.next ((setAnswers_effect ..).step (irq_effect ..).one))

theorem execImageVerified_footprint (s) : Does (footprint .imageVerified) s (execImageVerified s) := by
  delta footprint; dsimp only; unfold execImageVerified
  refine .ite .same ?_
  split
  · exact .next ((wf_effect ..).step (setUp_effect ..).one)
  · exact .next (setUp_effect ..).one

theorem execBankProgrammed_footprint (s) : Does (footprint .bankProgrammed) s (execBankProgrammed s) := by
  delta footprint; dsimp only; unfold execBankProgrammed
  extract_lets _ s1
  refine .ite .same ?_
  refine .from (t := s1) (setUp_effect ..).one ?_
  refine .ite (.next (setTru_effect ..).one) ?_
  exact .next (setTru_effect ..).one

theorem execActivationStart_footprint (s) : Does (footprint .activationStart) s (execActivationStart s) := by
  delta footprint; dsimp only; unfold execActivationStart
  exact .ite (.next (startActivation_effect ..).one) .same

theorem execTrialConfirm_footprint (s) : Does (footprint .trialConfirm) s (execTrialConfirm s) := by
  delta footprint; dsimp only; unfold execTrialConfirm
  refine .ite .same ?_
  split
  · exact .next ((overruled_effect ..).step (noteAct_effect ..).one)
  · exact .next (confirmTrial_effect ..).one

theorem execTrialFallback_footprint (s) : Does (footprint .trialFallback) s (execTrialFallback s) := by
  delta footprint; dsimp only; unfold execTrialFallback
  exact .ite (.next (fallBackNow_effect ..).one) .same

/-! ### Management connector -/

theorem execMgmtStatus_footprint (frame s) : Does (footprint (.mgmtStatus frame)) s (execMgmtStatus frame s) := by
  delta footprint; dsimp only; unfold execMgmtStatus
  exact .next (mgmtCommand_effect (by decide +kernel) (fun _ _ => .refl ..) (.refl ..))

theorem execMgmtSetCap_footprint (frame s) : Does (footprint (.mgmtSetCap frame)) s (execMgmtSetCap frame s) := by
  delta footprint; dsimp only; unfold execMgmtSetCap
  refine .next (mgmtCommand_effect (by decide +kernel) (fun s' b => ?_) (.refl ..))
  extract_lets
  split
  · exact .refl ..
  · exact (masterRec_effect ..).step ((settingsStore_effect ..).step ((wf_effect ..).step (wf_effect ..).one))

theorem execMgmtNap_footprint (frame s) : Does (footprint (.mgmtNap frame)) s (execMgmtNap frame s) := by
  delta footprint; dsimp only; unfold execMgmtNap
  exact .next (mgmtCommand_effect (by decide +kernel) (fun _ _ => (mgmtLowPower_effect ..).one) (.refl ..))

theorem execMgmtDark_footprint (frame s) : Does (footprint (.mgmtDark frame)) s (execMgmtDark frame s) := by
  delta footprint; dsimp only; unfold execMgmtDark
  exact .next (mgmtCommand_effect (by decide +kernel) (fun _ _ => (mgmtLowPower_effect ..).one) (.refl ..))

theorem execMgmtWake_footprint (frame s) : Does (footprint (.mgmtWake frame)) s (execMgmtWake frame s) := by
  delta footprint; dsimp only; unfold execMgmtWake
  refine .next (mgmtCommand_effect (by decide +kernel) (fun _ _ => ?_) (.refl ..))
  refine mgmtPower_effect (by decide +kernel) (fun s' => ?_) (.refl ..)
  exact .trans (overruleLowPower_effect ..).one (.ite (setWakePending_effect ..).one (.refl ..))

theorem execMgmtJobKill_footprint (frame s) : Does (footprint (.mgmtJobKill frame)) s (execMgmtJobKill frame s) := by
  delta footprint; dsimp only; unfold execMgmtJobKill
  refine .next (mgmtCommand_effect (by decide +kernel) (fun s' b => ?_) (.refl ..))
  split
  · exact .refl ..
  · exact (killByOther_effect ..).one

theorem execMgmtTelemetry_footprint (frame s) :
    Does (footprint (.mgmtTelemetry frame)) s (execMgmtTelemetry frame s) := by
  delta footprint; dsimp only; unfold execMgmtTelemetry
  exact .next (mgmtCommand_effect (by decide +kernel) (fun _ _ => .refl ..) (.refl ..))

theorem execMgmtObject_footprint (frame supplyLow s) :
    Does (footprint (.mgmtObject frame supplyLow)) s (execMgmtObject frame supplyLow s) := by
  delta footprint; dsimp only; unfold execMgmtObject
  refine .next (mgmtCommand_effect (by decide +kernel) (fun s' b => ?_) (.refl ..))
  split
  · exact .refl ..
  · exact (serveObj_effect ..).one

theorem execRstdaa_footprint (s) : Does (footprint .rstdaa) s (execRstdaa s) := by
  delta footprint; dsimp only; unfold execRstdaa
  exact .ite (.next (setMgmt_effect ..).one) .same

theorem execLaneLockRegain_footprint (die port lane s) :
    Does (footprint (.laneLockRegain die port lane)) s (execLaneLockRegain die port lane s) := by
  delta footprint; dsimp only; unfold execLaneLockRegain
  exact .ite .same (.next (setPort_effect ..).one)

theorem execRestartComplete_footprint (s) : Does (footprint .restartComplete) s (execRestartComplete s) := by
  delta footprint; dsimp only; unfold execRestartComplete
  split
  · exact .same
  · extract_lets s1 _ s2
    refine .next ?_
    refine .trans (t := s1) (.ite (deviceReboot_effect ..).one (.refl ..)) ?_
    exact .trans (t := s2) (setRestart_effect ..).one (.ite (startTrial_effect ..).one (.refl ..))

theorem execBackInvalidateResponse_footprint (die line s) :
    Does (footprint (.backInvalidateResponse die line)) s (execBackInvalidateResponse die line s) := by
  delta footprint; dsimp only; unfold execBackInvalidateResponse
  exact .ite (.next ((killSettle_effect ..).step (releaseLine_effect ..).one)) .same

theorem execConfigurationRequest_footprint (s) :
    Does (footprint .configurationRequest) s (execConfigurationRequest s) := by
  delta footprint; dsimp only; unfold execConfigurationRequest
  exact .ite .same (.next (setAnswers_effect ..).one)

theorem execDebugPortAccess_footprint (addr write s) :
    Does (footprint (.debugPortAccess addr write)) s (execDebugPortAccess addr write s) := by
  delta footprint; dsimp only; unfold execDebugPortAccess
  extract_lets _ quiet
  have hq : Effect [.answers] s quiet := setAnswers_effect ..
  refine .ite (.next hq.one) ?_
  split
  · exact .next ((memWrite_effect ..).step hq.one)
  · split
    rename_i b s1 h
    refine .from (Effect.snd (memRead_effect ..) h).one ?_
    split
    rename_i v s2 h1
    have h2 : Effect storeParts s1 s2 := by
      refine .snd ?_ h1
      split
      · exact .refl ..
      · split
        · split
          rename_i n s3 h3
          exact .trans (readEffects_effect ..).one (Effect.snd (fresh_effect ..) h3).one
        · exact (readEffects_effect ..).one
    exact .from h2.one (.next (setAnswers_effect ..).one)

theorem execMgmtPacketReceive_footprint (die port pkt s) :
    Does (footprint (.mgmtPacketReceive die port pkt)) s (execMgmtPacketReceive die port pkt s) := by
  delta footprint; dsimp only; unfold execMgmtPacketReceive
  exact .ite (.next ((headerChecks_effect ..).step ((takeHeader_effect ..).step (takePacket_effect ..).one))) .same

end Sys2Proof.Machine
end

section
/-! PROOF. The families of commands that share one meaning, and the frame of every command. -/

set_option Elab.async false

namespace Sys2Proof.Machine

/-! ### Families -/

/-- A vector instruction (R303 to R318): its class and operation choose what is computed, not what is touched. -/
theorem runVector_footprint (c er s) (cls op : Nat) :
    Does (footprint (.add c er)) s (.next (runVector s (coreKey c) cls op er)) := by
  delta footprint; dsimp only
  exact .next (runVector_effect ..).one

/-- UPDATE and UROOT (R343 to R358). -/
theorem runUpdate_footprint (c er s) (opcode : Nat) :
    Does (footprint (.update c er)) s (.next (runUpdate s (coreKey c) opcode er)) := by
  delta footprint; dsimp only
  exact .next (runUpdate_effect ..).one

/-- A pass of an array, whatever its operation (R154). -/
theorem runPass_footprint (c lines s) (op : Nat) :
    Does (footprint (.mpassMac c lines)) s (.next (runPass s (coreKey c) op lines)) := by
  delta footprint; dsimp only
  exact .next (runPass_effect ..).one

/-- The descriptor of a collective taken from its ring (R476 to R483). -/
theorem acceptCollective_footprint (die ring mf s) (op : Nat) :
    Does (footprint (.reduceScatter die ring mf)) s (.next (acceptCollective s die.val ring.val op mf)) := by
  delta footprint; dsimp only
  exact .next (acceptCollective_effect ..).one

/-- A request of the identity, update and owner objects (chapter 14). -/
theorem doe_footprint (m s) (op : Nat) (r : ObjReq) :
    Does (footprint (.identityUnit m)) s (.next (doe s m op r)) := by
  delta footprint; dsimp only
  exact .next (doe_effect ..).one

/-- A dynamic address given on the I3C bus (R827). -/
theorem takeAddress_footprint (addr s) :
    Does (footprint (.entdaa addr)) s (.next (takeAddress s addr.toNat)) := by
  delta footprint; dsimp only
  exact .next (takeAddress_effect ..).one

/-- A CCC answered on the I3C bus (R827, R828). -/
theorem i3cAnswer_footprint (s) (b : Bytes) : Does (footprint .getpid) s (.next (i3cAnswer s b)) := by
  delta footprint; dsimp only
  exact .next (i3cAnswer_effect ..).one

/-! ### Every command -/


/-- The dispatch of `exec`, arm by arm: what the command's own meaning does lies in its footprint. -/
theorem exec_footprint (i : Instr) (s : State) : Does (footprint i) s (exec i s) := by
  cases i with
  | por => exact execPor_footprint ..
  | perstAssert => exact execPerstAssert_footprint ..
  | perstDeassert => exact execPerstDeassert_footprint ..
  | linkReset => exact execLinkReset_footprint ..
  | linkUp => exact execLinkUp_footprint ..
  | cxlReset => exact execCxlReset_footprint ..
  | d3hotEntry => exact execD3hotEntry_footprint ..
  | cxlMemRead => exact execCxlMemRead_footprint ..
  | cxlMemWrite => exact execCxlMemWrite_footprint ..
  | registerWrite => exact execRegisterWrite_footprint ..
  | unassignedAccess => exact execUnassignedAccess_footprint ..
  | doorbell => exact execDoorbell_footprint ..
  | consumerDoorbell => exact execConsumerDoorbell_footprint ..
  | ringEnable => exact execRingEnable_footprint ..
  | ringDisable => exact execRingDisable_footprint ..
  | descriptorFetch => exact execDescriptorFetch_footprint ..
  | completionWrite => exact execCompletionWrite_footprint ..
  | install => exact execInstall_footprint ..
  | run => exact execRun_footprint ..
  | layers => exact execLayers_footprint ..
  | transfer => exact execTransfer_footprint ..
  | fill => exact execFill_footprint ..
  | copy => exact execCopy_footprint ..
  | reduceScatter | allGather | allReduce | multicast => exact acceptCollective_footprint ..
  | collectiveRunStart => exact execCollectiveRunStart_footprint ..
  | collectiveRunEnd => exact execCollectiveRunEnd_footprint ..
  | collectiveTimeout => exact execCollectiveTimeout_footprint ..
  | jobBegin => exact execJobBegin_footprint ..
  | jobEnd => exact execJobEnd_footprint ..
  | jobKill => exact execJobKill_footprint ..
  | residency => exact execResidency_footprint ..
  | signalDescriptor => exact execSignalDescriptor_footprint ..
  | routeWrite => exact execRouteWrite_footprint ..
  | restart => exact execRestart_footprint ..
  | setCap => exact execSetCap_footprint ..
  | clearCap => exact execClearCap_footprint ..
  | setCeiling => exact execSetCeiling_footprint ..
  | clearCeiling => exact execClearCeiling_footprint ..
  | nap => exact execNap_footprint ..
  | dark => exact execDark_footprint ..
  | lowPowerEntry => exact execLowPowerEntry_footprint ..
  | wake => exact execWake_footprint ..
  | darkWake => exact execDarkWake_footprint ..
  | epochCommit => exact execEpochCommit_footprint ..
  | epochSet => exact execEpochSet_footprint ..
  | sidSet => exact execSidSet_footprint ..
  | icuPendWrite => exact execIcuPendWrite_footprint ..
  | icuMaskWrite => exact execIcuMaskWrite_footprint ..
  | icuTargetWrite => exact execIcuTargetWrite_footprint ..
  | holdoffExpiry => exact execHoldoffExpiry_footprint ..
  | attentionPulse => exact execAttentionPulse_footprint ..
  | attentionRepeat => exact execAttentionRepeat_footprint ..
  | companionStart => exact execCompanionStart_footprint ..
  | companionStop => exact execCompanionStop_footprint ..
  | companionFault => exact execCompanionFault_footprint ..
  | companionSignal => exact execCompanionSignal_footprint ..
  | companionWait => exact execCompanionWait_footprint ..
  | companionExit => exact execCompanionExit_footprint ..
  | companionStamp => exact execCompanionStamp_footprint ..
  | companionLog => exact execCompanionLog_footprint ..
  | streamStart => exact execStreamStart_footprint ..
  | streamComplete => exact execStreamComplete_footprint ..
  | replayPoint => exact execReplayPoint_footprint ..
  | feed => exact execFeed_footprint ..
  | feedReadIssue => exact execFeedReadIssue_footprint ..
  | mload => exact execMload_footprint ..
  | mpassMac | mpassL1 | mpassL2sq | mpassMinplus | mpassMaxplus | mpassMaxmin | mpassMatch =>
    exact runPass_footprint ..
  | plate => exact execPlate_footprint ..
  | drain => exact execDrain_footprint ..
  | spill => exact execSpill_footprint ..
  | interlockRelease => exact execInterlockRelease_footprint ..
  | coreResume => exact execCoreResume_footprint ..
  | watchdogTimeout => exact execWatchdogTimeout_footprint ..
  | replay => exact execReplay_footprint ..
  | replayResume => exact execReplayResume_footprint ..
  | signal => exact execSignal_footprint ..
  | signalSend => exact execSignalSend_footprint ..
  | wait => exact execWait_footprint ..
  | guard => exact execGuard_footprint ..
  | signalApply => exact execSignalApply_footprint ..
  | waitArrive => exact execWaitArrive_footprint ..
  | waitTimeout => exact execWaitTimeout_footprint ..
  | add | sub | mul | fma | div | sqrt | min | max | abs | neg | elemCopy | cmplt | cmpeq | cvt | exp2 | exp
  | log2 | log | rcp | rsqrt | tanh | sigmoid | sin | cos | erf | rmax | rmin | rsum | rsumsq | rscale | rsub
  | cadd | cmul | setr | loadr | storer | incr | irootSqrt | irootFourth => exact runVector_footprint ..
  | update | uroot => exact runUpdate_footprint ..
  | almanacRequest => exact execAlmanacRequest_footprint ..
  | patrolScrub => exact execPatrolScrub_footprint ..
  | flitReceive => exact execFlitReceive_footprint ..
  | creditFlit => exact execCreditFlit_footprint ..
  | linkControlFlit => exact execLinkControlFlit_footprint ..
  | ledgerDurable => exact execLedgerDurable_footprint ..
  | packetInject => exact execPacketInject_footprint ..
  | dataPacketReceive => exact execDataPacketReceive_footprint ..
  | mcastReceive => exact execMcastReceive_footprint ..
  | signalPacketReceive => exact execSignalPacketReceive_footprint ..
  | abortReceive => exact execAbortReceive_footprint ..
  | ackReceive => exact execAckReceive_footprint ..
  | mcastAckReceive => exact execMcastAckReceive_footprint ..
  | refuseReceive => exact execRefuseReceive_footprint ..
  | fencedReceive => exact execFencedReceive_footprint ..
  | ackTimer => exact execAckTimer_footprint ..
  | retransmitTimeout => exact execRetransmitTimeout_footprint ..
  | throttleRecover => exact execThrottleRecover_footprint ..
  | fabricFlush => exact execFabricFlush_footprint ..
  | laneLockLoss => exact execLaneLockLoss_footprint ..
  | portFail => exact execPortFail_footprint ..
  | retrainComplete => exact execRetrainComplete_footprint ..
  | detourReinject => exact execDetourReinject_footprint ..
  | laneRecalibrate => exact execLaneRecalibrate_footprint ..
  | bridgeFlitReceive => exact execBridgeFlitReceive_footprint ..
  | bridgeRecalibrate => exact execBridgeRecalibrate_footprint ..
  | siderealExchange => exact execSiderealExchange_footprint ..
  | exchangeAnswer => exact execExchangeAnswer_footprint ..
  | syncLossTimeout => exact execSyncLossTimeout_footprint ..
  | bridgeTimeMeasure => exact execBridgeTimeMeasure_footprint ..
  | timeoutPulse => exact execTimeoutPulse_footprint ..
  | timeinEdge => exact execTimeinEdge_footprint ..
  | timeinMissing => exact execTimeinMissing_footprint ..
  | telemetry => exact execTelemetry_footprint ..
  | ephemerisFlush => exact execEphemerisFlush_footprint ..
  | eventFlush => exact execEventFlush_footprint ..
  | controlStep => exact execControlStep_footprint ..
  | dvfsStep => exact execDvfsStep_footprint ..
  | droopDetect => exact execDroopDetect_footprint ..
  | droopClear => exact execDroopClear_footprint ..
  | overpowerStretch => exact execOverpowerStretch_footprint ..
  | heliostatEpoch => exact execHeliostatEpoch_footprint ..
  | grantSend => exact execGrantSend_footprint ..
  | thermalCeilingStep => exact execThermalCeilingStep_footprint ..
  | thermalAlert => exact execThermalAlert_footprint ..
  | thermalCritical => exact execThermalCritical_footprint ..
  | powerBrake => exact execPowerBrake_footprint ..
  | brakeRelease => exact execBrakeRelease_footprint ..
  | supplyBrake => exact execSupplyBrake_footprint ..
  | supplyRecover => exact execSupplyRecover_footprint ..
  | supplyLoss => exact execSupplyLoss_footprint ..
  | supplyRestart => exact execSupplyRestart_footprint ..
  | inputFilterAccept => exact execInputFilterAccept_footprint ..
  | presenceExpiry => exact execPresenceExpiry_footprint ..
  | doeDiscovery => exact execDoeDiscovery_footprint ..
  | identityUnit | identityAlias | attest | ledgerRead | updateBegin | updateChunk | updateQuery
  | updateAbandon | updateActivate | updateEndTrial => exact doe_footprint ..
  | imageVerified => exact execImageVerified_footprint ..
  | bankProgrammed => exact execBankProgrammed_footprint ..
  | activationStart => exact execActivationStart_footprint ..
  | trialConfirm => exact execTrialConfirm_footprint ..
  | trialFallback => exact execTrialFallback_footprint ..
  | setOwnerLock | clearOwnerLock | enrollOwnerKey | debugUnlock | rebindIdentity | factoryReset =>
    exact doe_footprint ..
  | mgmtStatus => exact execMgmtStatus_footprint ..
  | mgmtSetCap => exact execMgmtSetCap_footprint ..
  | mgmtNap => exact execMgmtNap_footprint ..
  | mgmtDark => exact execMgmtDark_footprint ..
  | mgmtWake => exact execMgmtWake_footprint ..
  | mgmtJobKill => exact execMgmtJobKill_footprint ..
  | mgmtTelemetry => exact execMgmtTelemetry_footprint ..
  | mgmtObject => exact execMgmtObject_footprint ..
  | entdaa | setdasa => exact takeAddress_footprint ..
  | rstdaa => exact execRstdaa_footprint ..
  | getpid | getbcr | getdcr | getstatus | getmwl | getmrl => exact i3cAnswer_footprint ..
  | laneLockRegain => exact execLaneLockRegain_footprint ..
  | restartComplete => exact execRestartComplete_footprint ..
  | backInvalidateResponse => exact execBackInvalidateResponse_footprint ..
  | configurationRequest => exact execConfigurationRequest_footprint ..
  | debugPortAccess => exact execDebugPortAccess_footprint ..
  | mgmtPacketReceive => exact execMgmtPacketReceive_footprint ..

/-- Settles O57: a command touches at most its footprint, by the effects of the operations its meaning is made of. -/
theorem everyCommandKeepsToItsFootprint : Obligations.EveryCommandKeepsToItsFootprint := by
  unfold Obligations.EveryCommandKeepsToItsFootprint
  intro i s t h
  obtain ⟨u, hu, he⟩ := exec_footprint i s
  rw [h] at hu
  obtain rfl : t = u := Host.Outcome.next.inj hu
  exact he.frame

end Sys2Proof.Machine
end

section
/-! PROOF. Which operations can bring the module into Dark: none but the entry to Dark itself (R45). An operation that
leaves PWR_STATUS as it was cannot, and its effect says so; each of the others is read once. -/

set_option Elab.async false

namespace Sys2Proof.Machine

/-! ### Steps that do not enter Dark -/

/-- From `s` to `t` the module does not enter Dark, and the registers stay in canonical form. -/
structure NoDark (s t : State) : Prop where
  regs : RegInv s → RegInv t
  state : RegInv s → powerState t = pwrDark → powerState s = pwrDark

theorem NoDark.refl (s : State) : NoDark s s := ⟨id, fun _ => id⟩

theorem NoDark.trans {s t u : State} (h1 : NoDark s t) (h2 : NoDark t u) : NoDark s u :=
  ⟨fun h => h2.regs (h1.regs h), fun h hu => h1.state h (h2.state (h1.regs h) hu)⟩

/-- An operation after others: read from the last operation to the first, as the model writes them. -/
theorem NoDark.step {s t u : State} (h2 : NoDark t u) (h1 : NoDark s t) : NoDark s u := h1.trans h2

theorem NoDark.ite {s a b : State} {c : Prop} [Decidable c] (h1 : NoDark s a) (h2 : NoDark s b) :
    NoDark s (if c then a else b) := by
  split <;> assumption

/-- An operation for each entry of a list, after others. -/
theorem NoDark.fold {α : Type} {f : State → α → State} {l : List α} {s t : State} (hf : ∀ s x, NoDark s (f s x))
    (h : NoDark s t) : NoDark s (l.foldl f t) := by
  induction l generalizing t with
  | nil => exact h
  | cons x l ih => exact ih ((hf t x).step h)

theorem NoDark.snd {α : Type} {s t : State} {x : α × State} {a : α} (h : NoDark s x.2) (e : x = (a, t)) : NoDark s t := by
  subst e; exact h

/-- Only the registers count. -/
theorem NoDark.of_regs {s t u : State} (h : NoDark s t) (hu : u.regs = t.regs) : NoDark s u := by
  have hp : powerState u = powerState t := by simp only [powerState, rf, rd, hu]
  exact ⟨fun hs => by simpa only [RegInv, hu] using h.regs hs, fun hs hd => h.state hs (hp ▸ hd)⟩

/-- PWR_STATUS stands in a list of parts. -/
def touchesPower (w : List Part) : Bool := (partMask w).testBit Reg.pwrStatus.idx

/-- An effect on other parts than PWR_STATUS does not enter Dark. -/
theorem Effect.noDark {w : List Part} {s t : State} (h : Effect w s t)
    (hw : touchesPower w = false := by decide +kernel) : NoDark s t := by
  have hm : Part.reg .pwrStatus ∉ w := fun hm => by
    rw [touchesPower, testBit_partMask] at hw
    exact absurd (List.any_eq_true.mpr ⟨_, hm, decide_eq_true rfl⟩) (by rw [hw]; decide)
  have hp : powerState t = powerState s := congrArg (bits · 2 0) (h.frame.same _ hm 0 0)
  exact ⟨h.regs, fun _ hd => hp ▸ hd⟩

/-- An operation that leaves PWR_STATUS as it was, after others. -/
theorem Effect.past {w : List Part} {s t u : State} (h2 : Effect w t u) (h1 : NoDark s t)
    (hw : touchesPower w = false := by decide +kernel) : NoDark s u := h1.trans (h2.noDark hw)

/-! ### Outcomes -/

/-- The command answers a next state, and does not enter Dark. -/
def Spares (s : State) (o : Host.Outcome State Fault Refusal) : Prop := Gives o (NoDark s)

theorem Spares.next {s t : State} (h : NoDark s t) : Spares s (.next t) := ⟨t, rfl, h⟩

theorem Spares.same {s : State} : Spares s (.next s) := .next (.refl s)

theorem Spares.ite {s : State} {c : Prop} [Decidable c] {a b : Host.Outcome State Fault Refusal} (h1 : Spares s a)
    (h2 : Spares s b) : Spares s (if c then a else b) := by
  split <;> assumption

/-- What a command does from a state it has reached. -/
theorem Spares.from {s t : State} {o : Host.Outcome State Fault Refusal} (h : NoDark s t) (ho : Spares t o) :
    Spares s o := by
  obtain ⟨u, hu, he⟩ := ho
  exact ⟨u, hu, h.trans he⟩

theorem Does.spares {w : List Part} {s : State} {o : Host.Outcome State Fault Refusal} (h : Does w s o)
    (hw : touchesPower w = false := by decide +kernel) : Spares s o := by
  obtain ⟨t, ht, he⟩ := h
  exact ⟨t, ht, he.noDark hw⟩

/-! ### Writes of PWR_STATUS -/

/-- A field of PWR_STATUS beside the state written. -/
theorem wf_status_noDark (s : State) (f : Fld) (v : Nat) (hr : f.reg = .pwrStatus := by rfl)
    (hf : f.fits = true := by decide) (hd : 2 < f.lo := by decide) : NoDark s (wf s f 0 0 v) where
  regs := (wf_effect s f 0 0 v).regs
  state _ h := (rf_wf_field s f F.pwrStatus_state 0 0 v hr.symm hf (by decide) (.inr hd)).symm.trans h

/-- The state written to another value than Dark. -/
theorem wf_state_noDark (s : State) {v : Nat} (hv : v < pwrDark) : NoDark s (wf s F.pwrStatus_state 0 0 v) where
  regs := (wf_effect s F.pwrStatus_state 0 0 v).regs
  state _ h := by
    have hw : powerState (wf s F.pwrStatus_state 0 0 v) = v % 2 ^ 3 :=
      rf_wf_same s F.pwrStatus_state 0 0 v (by decide)
    simp only [pwrDark] at hv h
    omega

/-- A change of PWR_STATUS with its COUNT record is as its write. -/
theorem setPwrStatus_noDark {s : State} {f : Fld} {v : Nat} (h : NoDark s (wf s f 0 0 v)) :
    NoDark s (setPwrStatus s f v) := by
  unfold setPwrStatus
  exact .ite (.refl s) ((countRec_effect ..).past h)

theorem setState_noDark (s : State) {v : Nat} (hv : v < pwrDark) : NoDark s (setPwrStatus s F.pwrStatus_state v) :=
  setPwrStatus_noDark (wf_state_noDark s hv)

theorem setTight_noDark (s : State) (v : Nat) : NoDark s (setPwrStatus s F.pwrStatus_tight v) :=
  setPwrStatus_noDark (wf_status_noDark s F.pwrStatus_tight v)

/-- PWR_STATUS has one register, whatever die and unit name it. -/
theorem regKey_pwrStatus (die unit : Nat) (hu : unit % 32768 = 0) :
    regKey .pwrStatus (homeDie .pwrStatus die) unit = regKey .pwrStatus 0 0 := by
  show Reg.idx .pwrStatus * 65536 + (0 % 2 * 32768 + unit % 32768) = _
  rw [hu]; rfl

/-- A register write by access codes: the state of PWR_STATUS is read-only (R20). -/
theorem writeValue_noDark (s : State) (r : Reg) (die unit value : Nat) :
    NoDark s (wr s r die unit (writeValue s r (rd s r die unit) value)) := by
  refine ⟨(wr_effect ..).regs, fun _ h => ?_⟩
  by_cases hr : r = .pwrStatus
  · subst hr
    by_cases hu : unit % 32768 = 0
    · have hrd : ∀ t, rd t .pwrStatus die unit = rd t .pwrStatus 0 0 := fun t => by
        unfold rd; rw [regKey_pwrStatus die unit hu]; rfl
      have hw := rd_wr_same s .pwrStatus die unit (writeValue s .pwrStatus (rd s .pwrStatus die unit) value) (by decide)
      have hv := fieldsAreWrittenByTheirAccessCodes s .pwrStatus (rd s .pwrStatus 0 0) value ⟨2, 0, .ro, 1, .m⟩ (by decide)
      rw [hrd, hrd] at hw
      rw [hrd] at h
      rw [← h]
      show bits (rd s .pwrStatus 0 0) 2 0 = bits (rd (wr s .pwrStatus die unit _) .pwrStatus 0 0) 2 0
      rw [hw, bits_mod _ 2 0 _ (by decide) (by decide)]
      exact hv.symm
    · have ho := rd_wr_unit s .pwrStatus die unit (writeValue s .pwrStatus (rd s .pwrStatus die unit) value) 0 0
        fun e => hu (Prod.mk.inj e).2.symm
      exact (congrArg (bits · 2 0) ho).symm.trans h
  · exact (rf_wr_other s r F.pwrStatus_state die unit _ 0 0 (Ne.symm hr)).symm.trans h

/-! ### Registers taken away or reset -/

/-- Entries of other registers taken away. -/
theorem filter_noDark {s t u : State} (h : NoDark s t) (p : Nat × BitVec 64 → Bool)
    (hp : ∀ v, p (regKey .pwrStatus 0 0, v) = true) (hu : u.regs = t.regs.filter p) : NoDark s u := by
  have hs : powerState u = powerState t := by
    show bits (rd u .pwrStatus 0 0) 2 0 = bits (rd t .pwrStatus 0 0) 2 0
    unfold rd
    rw [hu, show homeDie .pwrStatus 0 = 0 from rfl, Map.find_filter _ _ _ hp]
  exact ⟨fun hi => by unfold RegInv; rw [hu]; exact regInv_filter p (h.regs hi), fun hi hd => h.state hi (hs ▸ hd)⟩

/-- The bits of PWR_STATUS that go back to their reset values hold the whole state field or none of it. -/
theorem lifeMask_pwrStatus (ls : List Lifetime) : lifeMask .pwrStatus ls < 2 ^ 64 ∧
    (bits (lifeMask .pwrStatus ls) 2 0 = 0 ∨ bits (2 ^ 64 - 1 - lifeMask .pwrStatus ls) 2 0 = 0) := by
  simp only [lifeMask, Reg.info, List.foldl_cons, List.foldl_nil]
  cases ls.contains .m <;> cases ls.contains .p <;> decide

/-- What a reset of lifetimes makes of the value of PWR_STATUS. -/
theorem bits_resetEntry_pwrStatus (ls : List Lifetime) (v : BitVec 64) :
    let w := (((resetEntry ls (regKey .pwrStatus 0 0, v)).map Prod.snd).map BitVec.toNat).getD (resetVal .pwrStatus 0)
    bits w 2 0 = bits v.toNat 2 0 ∨ bits w 2 0 = pwrIdle := by
  obtain ⟨hm, hb⟩ := lifeMask_pwrStatus ls
  set m := lifeMask .pwrStatus ls with hmd
  set x := (v.toNat &&& (2 ^ 64 - 1 - m)) ||| (resetVal .pwrStatus 0 &&& m) with hx
  have hw : (((resetEntry ls (regKey .pwrStatus 0 0, v)).map Prod.snd).map BitVec.toNat).getD (resetVal .pwrStatus 0) = x := by
    have hlt : x < 2 ^ 64 := Nat.or_lt_two_pow (lt_of_le_of_lt Nat.and_le_left v.isLt) (lt_of_le_of_lt Nat.and_le_right hm)
    simp only [resetEntry, regOfKey_regKey, regKey_mod_die, ← hmd]
    rw [show resetVal .pwrStatus (0 % 2) = resetVal .pwrStatus 0 from rfl, ← hx]
    split_ifs with he
    · exact he.symm
    · exact Nat.mod_eq_of_lt hlt
  rw [hw]
  rcases hb with hb | hb
  · exact .inl (bits_masked hm hb (by decide) (by decide))
  · have hsub : 2 ^ 64 - 1 - (2 ^ 64 - 1 - m) = m := by omega
    have hk := bits_masked (v := resetVal .pwrStatus 0) (rv := v.toNat) (m := 2 ^ 64 - 1 - m) (by omega) hb (by decide) (by decide)
    rw [hsub, Nat.lor_comm] at hk
    exact .inr (hk.trans (by decide))

/-- A reset of lifetimes leaves the power state or makes it Idle (R22, R728). -/
theorem powerState_resetLives (s : State) (ls : List Lifetime) (h : RegInv s) :
    powerState (resetLives s ls) = powerState s ∨ powerState (resetLives s ls) = pwrIdle := by
  have hfind := find_resetLives ls h.1 (regKey .pwrStatus 0 0)
  have hrd : ∀ t : State, powerState t =
      bits (((Map.find t.regs (regKey .pwrStatus 0 0)).map BitVec.toNat).getD (resetVal .pwrStatus 0)) 2 0 := fun t => by
    show bits (rd t .pwrStatus 0 0) 2 0 = _
    unfold rd
    rw [show homeDie .pwrStatus 0 = 0 from rfl]
    cases Map.find t.regs (regKey .pwrStatus 0 0) <;> rfl
  rw [hrd, hrd, show (resetLives s ls).regs = s.regs.filterMap (resetEntry ls) from rfl, hfind]
  cases Map.find s.regs (regKey .pwrStatus 0 0) with
  | none => exact .inl rfl
  | some v => exact bits_resetEntry_pwrStatus ls v

theorem resetLives_noDark (s : State) (ls : List Lifetime) : NoDark s (resetLives s ls) where
  regs := (resetLives_effect s ls).regs
  state hs h := by
    rcases powerState_resetLives s ls hs with he | he
    · exact he ▸ h
    · rw [he] at h; exact absurd h (by decide)

end Sys2Proof.Machine
end

section
/-! PROOF. No operation of a core, a ring, a collective, a reset or the power controller enters Dark. -/

set_option Elab.async false

namespace Sys2Proof.Machine

/-! ### Completions and streams -/

theorem settlePower_noDark (s : State) : NoDark s (settlePower s) := by
  unfold settlePower
  extract_lets
  exact .ite (setState_noDark s (by split <;> decide)) (.refl s)

theorem finish_noDark (s : State) (die n : Nat) (d : Desc) (status flags count detail signal : Nat) :
    NoDark s (finish s die n d status flags count detail signal) :=
  (settlePower_noDark _).step (queueCompletion_effect ..).noDark

theorem finishWith_noDark (s : State) (die n : Nat) (d : Desc) (status : Nat) :
    NoDark s (finishWith s die n d status) := finish_noDark ..

theorem mgmtDone_noDark (s : State) (die : Nat) (d : Desc) (status count : Nat) :
    NoDark s (mgmtDone s die d status count) := finish_noDark ..

theorem finishHeld_noDark (s : State) (d : Desc) : NoDark s (finishHeld s d) :=
  (settlePower_noDark _).step (queueCompletion_effect ..).noDark

theorem finishMove_noDark (s : State) (die ring : Nat) (d : Desc) (n : Nat) : NoDark s (finishMove s die ring d n) :=
  .ite (finish_noDark ..) (finish_noDark ..)

theorem finishEmpty_noDark (s : State) (die ring : Nat) (d : Desc) : NoDark s (finishEmpty s die ring d) :=
  finish_noDark ..

theorem ringAdvance_noDark (s : State) (die n : Nat) : NoDark s (ringAdvance s die n) := by
  unfold ringAdvance
  extract_lets
  split
  · exact .ite ((finishWith_noDark ..).step (setRing_effect ..).noDark) (.refl s)
  · exact .refl s

theorem endStream_noDark (s : State) (k status : Nat) : NoDark s (endStream s k status) := by
  unfold endStream
  split
  · exact .refl s
  · extract_lets
    exact (ringAdvance_noDark ..).step ((settlePower_noDark _).step ((irq_effect ..).past
      ((queueCompletion_effect ..).past ((dropActive_effect ..).past ((setSeqState_effect ..).past
      ((setCore_effect ..).past ((setCore_effect ..).past ((withdrawWaits_effect ..).past
      (countCut_effect ..).noDark))))))))

theorem slipTimeout_noDark (s : State) (k limit : Nat) : NoDark s (slipTimeout s k limit) :=
  (endStream_noDark ..).step (countFrozen_effect ..).noDark

theorem timeoutWaiter_noDark (s : State) (w : Waiter) : NoDark s (timeoutWaiter s w) := by
  unfold timeoutWaiter
  split
  · exact endStream_noDark ..
  · split
    · exact .of_regs (.refl s) rfl
    · exact .refl s
  · exact (companionGoes_effect ..).noDark

theorem timeoutWait_noDark (s : State) (die : Nat) (w : WaitReq) : NoDark s (timeoutWait s die w) := by
  unfold timeoutWait
  extract_lets s1
  have h : NoDark s s1 := (irq_effect ..).past (bump_effect ..).noDark
  exact .ite ((timeoutWaiter_noDark ..).step h) ((bridgeSend_effect ..).past h)

/-! ### Collectives -/

theorem acceptCollective_noDark (s : State) (die r op : Nat) (mf : MemFaults) :
    NoDark s (acceptCollective s die r op mf) := by
  unfold acceptCollective
  extract_lets
  split
  · exact .refl s
  next s1 h =>
    extract_lets _ _ stop _ s2
    have hstop : ∀ t st, NoDark t (stop t st) := fun _ _ => (ringAdvance_noDark ..).step (finishWith_noDark ..)
    have h2 : NoDark s1 s2 := (readEffects_effect ..).noDark
    refine (takeDesc_effect h).noDark.trans ?_
    refine .ite (hstop ..) (.ite (hstop ..) (.ite ((ringAdvance_noDark ..).step (finish_noDark ..)) (h2.trans ?_)))
    refine .ite (hstop ..) ?_
    split
    rename_i h3
    refine (Effect.snd (memRead_effect ..) h3).noDark.trans (.ite (hstop ..) (.ite (hstop ..) ?_))
    exact (nextRun_effect ..).past ((takeWaiting_effect ..).past ((settlePower_noDark _).step
      ((setActive_effect ..).past ((setCol_effect ..).past (keepActive_effect ..).noDark))))

theorem endRun_noDark (s : State) (k : Nat) (c : Collective) (status : Nat) : NoDark s (endRun s k c status) := by
  unfold endRun
  extract_lets _ _ s1 s2 s3 s4 s5 s6 _ _ _ s7
  have h2 : NoDark s s2 := (NoDark.ite (.refl s1) (irq_effect ..).noDark).step (bump_effect ..).noDark
  have h3 : NoDark s2 s3 := .ite (bump_effect ..).noDark (.refl s2)
  have h5 : NoDark s3 s5 := (NoDark.ite (.refl s4) (sendSignal_effect ..).noDark).step (emit_effect ..).noDark
  have h6 : NoDark s s6 := (noteEnded_effect ..).past (h2.trans (h3.trans h5))
  refine .ite ((nextRun_effect ..).past ((setCol_effect ..).past h6)) ?_
  exact (ringAdvance_noDark ..).step ((settlePower_noDark _).step ((queueCompletion_effect ..).past
    ((dropActive_effect ..).past ((setActive_effect ..).past (h6.of_regs rfl)))))

/-! ### Arrivals over the span bridge -/

theorem bridgeDeliver_noDark (s : State) (m : BridgeMsg) : NoDark s (bridgeDeliver s m) := by
  unfold bridgeDeliver
  extract_lets s1
  have h1 : NoDark s s1 := (arriveStamp_effect ..).noDark
  split
  · exact (deliverSignal_effect ..).past h1
  · exact (joinArriving_effect ..).past h1
  · exact (wakeWaiter_effect ..).past h1
  · exact (timeoutWaiter_noDark ..).step h1
  · exact .ite ((setSynced_effect ..).past h1) h1

theorem bridgeArrive_noDark (s : State) : NoDark s (bridgeArrive s) :=
  .fold bridgeDeliver_noDark (.of_regs (.refl s) rfl)

/-! ### Waking, brakes and the control step -/

theorem wakeNow_noDark (s : State) : NoDark s (wakeNow s) := by
  unfold wakeNow
  refine .ite (.refl s) ((clockStart_effect ..).past ((clockStart_effect ..).past ?_))
  exact (setState_noDark _ (by decide)).step (setWakePending_effect s false).noDark

theorem wakeTrained_noDark (s : State) (train : List (BitVec 8)) : NoDark s (wakeTrained s train) :=
  (sourceSettle_effect ..).past ((trainPorts_effect ..).past (wakeNow_noDark s))

theorem wakeFree_noDark (s : State) : NoDark s (wakeFree s) :=
  .ite (.refl s) ((wakeTrained_noDark ..).step (.of_regs (.refl s) rfl))

theorem setTherm_noDark (s : State) (on : Bool) : NoDark s (setTherm s on) := by
  unfold setTherm
  extract_lets
  exact (event_effect ..).past ((irq_effect ..).past ((irq_effect ..).past
    ((wf_status_noDark _ F.pwrStatus_therm _).step (setPwr_effect ..).noDark)))

theorem releaseTherm_noDark (s : State) : NoDark s (releaseTherm s) := by
  unfold releaseTherm
  extract_lets _ s1
  have h1 : NoDark s s1 := (setPwr_effect ..).noDark
  exact .ite ((setTherm_noDark ..).step h1) h1

theorem brakeChange_noDark (s : State) (record : Bool) (f : PowerState → PowerState) :
    NoDark s (brakeChange s record f) := by
  unfold brakeChange
  extract_lets s1 s2 s3 s4
  have h3 : NoDark s s3 := (wf_status_noDark _ F.pwrStatus_ceilingMhz _).step
    ((wf_status_noDark _ F.pwrStatus_brake _).step (setPwr_effect ..).noDark)
  have h4 : NoDark s s4 := h3.trans (.ite (countRec_effect ..).noDark (.refl s3))
  exact .ite ((setTight_noDark ..).step ((setPwr_effect ..).past h4)) h4

theorem brakeAct_noDark (s : State) (record : Bool) (f : PowerState → PowerState) : NoDark s (brakeAct s record f) := by
  unfold brakeAct
  extract_lets s1 s2
  have h1 : NoDark s s1 := brakeChange_noDark ..
  refine .ite h1 ((brakeSettle_effect ..).past ((brakeSettle_effect ..).past ((orderBrake_effect ..).past ?_)))
  exact .fold (fun t _ => (clkChange_effect (w := [.clk, .reg .clkStatus, .reg .clkStretchCycles]) (by decide +kernel)
    (fun _ => (setClk_effect ..).one) (.refl _ t)).noDark) h1

/-- A change of what holds a die's clock (R704 to R706). -/
theorem clkChange_noDark {s : State} {die : Nat} {f : State → State} (hf : ∀ t, NoDark t (f t)) :
    NoDark s (clkChange s die f) := by
  unfold clkChange
  extract_lets
  exact (wf_effect ..).past ((setClk_effect ..).past ((hf _).step (bankStretch_effect ..).noDark))

theorem orderStep_noDark (s : State) (mj : Nat) : NoDark s (orderStep s mj) := by
  unfold orderStep
  extract_lets _ _ _ s1 s2
  have h1 : NoDark s s1 := wf_status_noDark s F.pwrStatus_ceilingMhz _
  have h2 : NoDark s1 s2 := clkChange_noDark fun _ => clkChange_noDark fun t => wf_status_noDark t F.pwrStatus_floorStretch _
  exact (setPwr_effect ..).past ((orderBoth_effect ..).past (h1.trans h2))

theorem tightStep_noDark (s : State) : NoDark s (tightStep s) := by
  unfold tightStep
  extract_lets _ _ s1
  have h1 : NoDark s s1 := (setPwr_effect ..).noDark
  exact .ite ((setTight_noDark ..).step (setPwr_effect ..).noDark) (.ite ((setTight_noDark ..).step h1) h1)

/-! ### Register writes -/

theorem plainWrite_noDark (s : State) (m : Master) (r : Reg) (die unit value : Nat) :
    NoDark s (plainWrite s m r die unit value) := by
  unfold plainWrite
  split
  · exact .ite (.refl s) (regRefused_effect ..).noDark
  · split
    · exact (regRefused_effect ..).noDark
    · exact (regRefused_effect ..).noDark
    · exact writeValue_noDark ..

/-- The registers that say where a ring stands. -/
theorem ringBaseWrite_noDark (s : State) (m : Master) {r : Reg} (hr : r ≠ .pwrStatus) (die n v : Nat) :
    NoDark s (ringBaseWrite s m r die n v) := by
  have hw : touchesPower [.reg r] = false := by
    rw [touchesPower, testBit_partMask]
    simp only [List.any_cons, List.any_nil, Bool.or_false]
    exact decide_eq_false fun h => hr (Reg.idx_inj h)
  unfold ringBaseWrite
  exact .ite (.refl s) (.ite ((wr_effect ..).noDark hw) (configErr_effect ..).noDark)

theorem writeReg_noDark (s : State) (m : Master) (r : Reg) (die unit value : Nat) (ok : Bool) (mf : MemFaults) :
    NoDark s (writeReg s m r die unit value ok mf) := by
  unfold writeReg
  split
  · exact (ringSizeWrite_effect ..).noDark
  · exact ringBaseWrite_noDark s m (by decide) ..
  · exact ringBaseWrite_noDark s m (by decide) ..
  · exact (icuPendWrite_effect ..).noDark
  · exact (icuMaskWrite_effect ..).noDark
  · exact (icuTargetWrite_effect ..).noDark
  · exact (sidSetWrite_effect ..).noDark
  · exact (routeCtrlWrite_effect ..).noDark
  · exact (compCtrlWrite_effect ..).noDark
  · exact (sourceSettle_effect ..).past (plainWrite_noDark ..)
  · exact plainWrite_noDark ..

theorem writeAt_noDark (s : State) (m : Master) (offset size value : Nat) (ok : Bool) (mf : MemFaults) :
    NoDark s (writeAt s m offset size value ok mf) := by
  unfold writeAt
  split
  · exact .ite (writeReg_noDark ..) (refusedAt_effect ..).noDark
  · exact (refusedAt_effect ..).noDark

theorem bar0Write_noDark {s : State} {b : Sender} {die blk addr value : Nat} {f : State → State}
    (hf : ∀ t, NoDark t (f t)) : NoDark s (bar0Write s b die blk addr value f) := by
  have hg : ∀ t, NoDark t (if rflag t F.truStatus_recovery 0 0 && blk ≠ Blk.tru.num then
      refusedAt t die blk addr b.master 1 value else f t) := fun t => .ite (refusedAt_effect ..).noDark (hf t)
  unfold bar0Write barWrite
  refine .ite (.refl s) (.ite ((hg _).step (crossBridge_effect ..).noDark) ?_)
  refine .ite (unsupportedRequest_effect ..).noDark (.ite (refusedAt_effect ..).noDark ?_)
  exact (hg _).step (crossBridge_effect ..).noDark

/-! ### Resets, the ledger and jobs -/

theorem linkDown_noDark (s : State) : NoDark s (linkDown s) :=
  .of_regs ((resetLives_noDark ..).step (.of_regs (.refl s) (t := s) (u := ringsDown s) rfl)) rfl

theorem resetBlock_noDark (s : State) {b : Blk} (hb : (Reg.info .pwrStatus).blk ≠ b) : NoDark s (resetBlock s b) :=
  filter_noDark (.refl s) _ (fun v => by simp only [regOfKey_regKey]; exact decide_eq_true hb) rfl

theorem ledgerRead_noDark (s : State) : NoDark s (ledgerRead s) := by
  unfold ledgerRead
  extract_lets l _ s1 s2 s3
  have h1 : NoDark s s1 := filter_noDark (.refl s) _ (fun v => by simp only [regOfKey_regKey]) rfl
  have h2 : NoDark s s2 := .fold (fun _ _ => (wf_effect ..).noDark) h1
  have h3 : NoDark s s3 := .fold (fun _ _ => (loadRecord_effect ..).noDark) h2
  exact (wf_effect ..).past ((wf_effect ..).past ((wf_effect ..).past ((wf_effect ..).past (h3.of_regs rfl))))

theorem applyLedger_noDark (s : State) : NoDark s (applyLedger s) := by
  unfold applyLedger
  extract_lets _ _ _ _ s1 s2 s3
  have h1 : NoDark s s1 := (ledgerRead_noDark _).step ((ledgerStore_effect ..).past (setFlt_effect s _).noDark)
  have h2 : NoDark s s2 := (accelSettle_effect ..).past ((wf_effect ..).past
    ((effect_set_unusable (w := [.unusable]) _ (by decide) (.refl _ s1)).past h1))
  exact .of_regs ((wf_effect ..).past h2 : NoDark s s3) rfl

theorem jobClear_noDark (s : State) (keep : List Span) : NoDark s (jobClear s keep) := by
  unfold jobClear
  extract_lets stopped s1 s2 s3 _ _ s4 s5 s6
  have h2 : NoDark s s2 := (countRecords_effect ..).past ((bankStretch_effect ..).past ((bankStretch_effect ..).past
    ((endHelio_effect ..).past (compStopAll_effect ..).noDark)))
  have h3 : NoDark s s3 := (zeroWhere_effect ..).past h2
  clear_value s3
  have h4 : NoDark s s4 := h3.of_regs rfl
  have h5 : NoDark s s5 := (flowsRestart_effect ..).past ((resetLives_noDark ..).step h4)
  have h6 : NoDark s s6 := .fold (fun _ _ => (wf_effect ..).noDark) h5
  exact (wf_effect ..).past ((wf_effect ..).past h6)

theorem killWork_noDark (s : State) : NoDark s (killWork s) := by
  unfold killWork
  extract_lets s1 s2
  have h1 : NoDark s s1 := .fold (fun _ _ => endStream_noDark ..) (.refl s)
  have h2 : NoDark s s2 := .fold (fun t k => by
    extract_lets t1
    have ht : NoDark t t1 := (stopRun_effect ..).noDark
    split
    · exact (endRun_noDark ..).step ht
    · exact ht) h1
  exact .fold (fun _ _ => (killRing_effect ..).noDark) h2

theorem killJob_noDark (s : State) (m : Master) : NoDark s (killJob s m) :=
  (settlePower_noDark _).step ((clearWindows_effect ..).past ((jobClear_noDark ..).step ((killWork_noDark _).step
    ((wf_effect ..).past (setJobState_effect ..).noDark))))

theorem killNow_noDark (s : State) (m : Master) : NoDark s (killNow s m) :=
  (killSettle_effect ..).past (.of_regs ((killJob_noDark _ m).step (noteAct_effect s 1 actKill m).noDark) rfl)

theorem killByOther_noDark (s : State) (m : Master) : NoDark s (killByOther s m).2 := by
  unfold killByOther
  split
  · exact .refl s
  · split
    · split
      · exact (firmwareLoses_effect ..).noDark
      · exact (killNow_noDark ..).step (supersede_effect ..).noDark
    · split
      · exact (actRecords_effect ..).noDark
      · exact killNow_noDark ..

theorem beginJob_noDark (s : State) (d : Desc) (train : List (BitVec 8)) (reportOk : Bool) :
    NoDark s (beginJob s d train reportOk) := by
  unfold beginJob
  extract_lets _ s1 _ s2 s3 s4 changed s5 s6 _ _ s7 _ _ _ _ s8 s9 s10
  have h1 : NoDark s s1 := .ite (flushFabric_effect ..).noDark (.refl s)
  have h3 : NoDark s s3 := (wr_effect ..).past ((wf_effect ..).past ((setJobState_effect ..).past h1))
  have h5 : NoDark s s5 := (residencyBegin_effect ..).past ((applyLedger_noDark _).step h3)
  have h6 : NoDark s s6 := h5.trans (.ite (zeroWhere_effect ..).noDark (.refl s5))
  have h8 : NoDark s s8 := .of_regs ((zeroRange_effect ..).past h6 : NoDark s s7) rfl
  have h9 : NoDark s s9 := (sourceSettle_effect ..).past ((trainPorts_effect ..).past h8)
  have h10 : NoDark s s10 := h9.trans (.ite (setBalance_effect ..).noDark (.refl s9))
  exact (writeReport_effect ..).past h10

theorem endJob_noDark (s : State) : NoDark s (endJob s) := by
  unfold endJob
  extract_lets s1 wins _ s2
  have h1 : NoDark s s1 := (wf_effect ..).past (setJobState_effect ..).noDark
  exact (jobClear_noDark ..).step ((wf_effect ..).past (h1.of_regs rfl : NoDark s s2))

theorem endByHost_noDark (s : State) (d : Desc) : NoDark s (endByHost s d) := by
  unfold endByHost
  extract_lets s1
  have h1 : NoDark s s1 := .ite (actRecords_effect ..).noDark (.refl s)
  exact (endJob_noDark _).step (h1.of_regs rfl)

/-- A descriptor of the host on the job state or the power state (R607). -/
theorem hostAct_noDark {s : State} {item outcome : Nat} {d : Desc} {refused : Bool} {k : State → State}
    (hk : ∀ t, NoDark t (k t)) : NoDark s (hostAct s item outcome d refused k) := by
  unfold hostAct
  split
  · exact (finishWith_noDark ..).step (actRecords_effect ..).noDark
  · exact .ite (finishWith_noDark ..) ((hk _).step (noteAct_effect ..).noDark)

theorem moduleReset_noDark (s : State) (train : List (BitVec 8)) : NoDark s (moduleReset s train) := by
  unfold moduleReset
  extract_lets _ s1 s2 _ _ s3 s4 s5
  have h2 : NoDark s s2 := (resetLives_noDark ..).step ((dropHoldStore_effect ..).past (dropHoldStore_effect ..).noDark)
  have h3 : NoDark s s3 := h2.of_regs rfl
  have h4 : NoDark s s4 := (wf_effect ..).past (h3.of_regs rfl)
  have h5 : NoDark s s5 := (powerRecords_effect ..).past h4
  exact (sourceSettle_effect ..).past ((trainPorts_effect ..).past ((bootReset_effect ..).past
    ((ledgerRead_noDark _).step h5)))

theorem powerGone_noDark (s : State) : NoDark s (powerGone s) := by
  unfold powerGone
  extract_lets _ _ _ _ s1
  have h1 : NoDark s s1 := (resetLives_noDark s [.p, .m, .l, .j]).of_regs rfl
  exact (wr_effect ..).past h1

theorem inputsAtPor_noDark (s : State) (pins : PinLevels) : NoDark s (inputsAtPor s pins) := by
  unfold inputsAtPor
  extract_lets _ s1 s2 s3
  have h1 : NoDark s s1 := (wf_effect ..).past (wr_effect ..).noDark
  have h2 : NoDark s s2 := h1.trans (.ite (.refl s1) (bump_effect ..).noDark)
  have h3 : NoDark s s3 := h2.trans (.ite (sampleLocation_effect ..).noDark (.refl s2))
  exact h3.trans (.ite (.refl s3) (brakeChange_noDark ..))

theorem powerUp_noDark (s : State) (pins : PinLevels) (train : List (BitVec 8)) : NoDark s (powerUp s pins train) := by
  unfold powerUp
  extract_lets s1 _ s2
  have h2 : NoDark s s2 := (inputsAtPor_noDark ..).step ((powerGone_noDark s).of_regs rfl)
  exact (sourceSettle_effect ..).past ((trainPorts_effect ..).past ((bootReset_effect ..).past
    ((ledgerRead_noDark _).step h2)))

theorem bootWake_noDark (s : State) : NoDark s (bootWake s) :=
  (bootChain_effect ..).past (.of_regs (.refl s) rfl)

theorem wakeDark_noDark (s : State) (train : List (BitVec 8)) : NoDark s (wakeDark s train) := by
  unfold wakeDark
  extract_lets reset loc _ s1 s2 s3 s4
  have h2 : NoDark s s2 := (wf_effect ..).past ((wf_effect ..).past (.of_regs (.refl s) rfl))
  have h3 : NoDark s s3 := h2.trans (.ite (moduleReset_noDark ..) ((setState_noDark _ (by decide)).step
    ((sourceSettle_effect ..).past ((trainPorts_effect ..).past (bootWake_noDark s2)))))
  have h4 : NoDark s s4 := h3.trans (by
    dsimp only [s4]
    generalize loc = l
    cases l with
    | none => exact .refl s3
    | some v => exact (sampleLocation_effect ..).noDark)
  exact (releaseTherm_noDark _).step ((clockStart_effect ..).past ((clockStart_effect ..).past h4))

/-! ### Firmware activation -/

theorem activationRestart_noDark (s : State) : NoDark s (activationRestart s) := by
  unfold activationRestart
  extract_lets _ s1 _ s2 _ s3
  have h1 : NoDark s s1 := (wr_effect ..).past (resetBlock_noDark s (by decide))
  have h3 : NoDark s s3 := (startRestart_effect ..).past (h1.of_regs rfl)
  exact (bootChain_effect ..).past h3

theorem startActivation_noDark (s : State) : NoDark s (startActivation s) :=
  (activationRestart_noDark _).step ((truSettle_effect ..).past ((setTru_effect ..).past (setUp_effect ..).noDark))

theorem fallBackNow_noDark (s : State) : NoDark s (fallBackNow s) :=
  (activationRestart_noDark _).step (fallBack_effect ..).noDark

end Sys2Proof.Machine
end

section
/-! PROOF. The cores' cycles, a tick of time and a replay do not enter Dark, nor do the objects of R785. -/

set_option Elab.async false

namespace Sys2Proof.Machine

/-! ### A core's cycle -/

theorem arrayWork_noDark (bad : List Nat) (s : State) (k a : Nat) : NoDark s (arrayWork bad s k a) := by
  unfold arrayWork
  refine .ite (endStream_noDark ..) ((arrayPorts_effect ..).past ?_)
  exact .fold (fun _ _ => (drainRead_effect ..).noDark) (setArray_effect ..).noDark

theorem engineWork_noDark (bad : List Nat) (k : Nat) (s : State) (e : Nat) : NoDark s (engineWork bad k s e) := by
  unfold engineWork
  refine .ite (.ite (.refl s) (arrayWork_noDark ..)) (.ite ?_ ?_)
  · exact .ite (.refl s) (vecWork_effect ..).noDark
  · exact .ite (.refl s) (updWork_effect ..).noDark

theorem cycleWork_noDark (bad : List Nat) (s : State) (k : Nat) : NoDark s (cycleWork bad s k) := by
  unfold cycleWork
  extract_lets _ s1 s2
  have h1 : NoDark s s1 := .fold (fun _ _ => engineWork_noDark ..) (.refl s)
  exact (freezeHeld_effect ..).past (h1.trans (.ite (updPrefetch_effect ..).noDark (.refl s1)))

theorem fetchSome_noDark (k limit : Nat) (n : Nat) (s : State) : NoDark s (fetchSome k limit n s) := by
  induction n generalizing s with
  | zero => exact .refl s
  | succ n ih =>
    unfold fetchSome
    extract_lets _ _ _ _ _ _ s1 _ s2
    have h1 : NoDark s s1 := (readEffects_effect ..).noDark
    have h2 : NoDark s s2 := (setCore_effect ..).past h1
    exact .ite (.refl s) (.ite ((endStream_noDark ..).step h1) (.ite ((endStream_noDark ..).step h2) ((ih _).step h2)))

theorem leaveCycle_noDark (s : State) (k : Nat) : NoDark s (leaveCycle s k) := by
  unfold leaveCycle
  extract_lets s1 _ s2 _ s3
  have h2 : NoDark s s2 := (enterAll_effect ..).past ((wrCore_effect s1 .seqSchedule k _).past (bumpCore_effect ..).noDark)
  have h3 : NoDark s s3 := (fetchSome_noDark ..).step ((setCore_effect ..).past h2)
  exact .ite h3 ((comeDue_effect ..).past h3)

theorem interlockStep_noDark (k n : Nat) (s : State) : NoDark s (interlockStep k n s) := by
  unfold interlockStep
  extract_lets s1
  have h1 : NoDark s s1 := cycleWork_noDark ..
  refine .ite (.refl s) (.ite (.refl s) (.ite h1 ?_))
  exact (setCore_effect ..).past ((countFrozen_effect ..).past ((enterAll_effect ..).past h1))

theorem interlockSteps_noDark (k n : Nat) (s : State) : NoDark s (interlockSteps k n s) := by
  induction n generalizing s with
  | zero => exact .refl s
  | succ n ih =>
    unfold interlockSteps
    exact .ite ((ih _).step (interlockStep_noDark ..)) (interlockStep_noDark ..)

theorem cycleStep_noDark (s : State) (k : Nat) : NoDark s (cycleStep s k) := by
  unfold cycleStep
  extract_lets _ s1
  have h1 : NoDark s s1 := cycleWork_noDark ..
  refine .ite (.refl s) (.ite (setCore_effect ..).noDark ?_)
  split
  · exact .ite (.refl s) (interlockStep_noDark ..)
  · exact .refl s
  · exact .ite (.refl s) (.ite (.refl s) (.ite h1 ((leaveCycle_noDark ..).step h1)))

/-! ### A tick of time -/

theorem tickClock_noDark (s : State) (die : Nat) : NoDark s (tickClock s die) := by
  unfold tickClock cycleCores
  refine .ite (.refl s) (.ite (setClk_effect ..).noDark ?_)
  exact .fold cycleStep_noDark (setClk_effect ..).noDark

theorem blockTick_noDark (s : State) : NoDark s (blockTick s) :=
  (sendPairs_effect _).past ((tickClock_noDark ..).step ((tickClock_noDark ..).step ((bridgeArrive_noDark _).step
    (idleTick_effect s).noDark)))

/-! ### Replay -/

theorem pauseSteps_noDark (k : Nat) (fails : List (Nat × Failure)) (n j : Nat) (s : State) :
    NoDark s (pauseSteps k fails n j s) := by
  induction n generalizing j s with
  | zero => exact .refl s
  | succ n ih =>
    unfold pauseSteps
    extract_lets _ _ s1 s2
    have h1 : NoDark s s1 := .fold (fun _ _ => (engineEnter_effect ..).noDark)
      (.fold (fun _ _ => engineWork_noDark ..) (.refl s))
    have h2 : NoDark s s2 := (wrCore_effect s1 .seqSchedule k _).past h1
    exact .ite (setCore_effect ..).noDark (.ite h2 ((ih ..).step h2))

theorem finishBefore_noDark (s : State) (k : Nat) (p : ReplayPt) (f : Nat) (r : ReplayCase) :
    NoDark s (finishBefore s k p f r) := by
  unfold finishBefore
  extract_lets _ _ _ s1 s2
  have h1 : NoDark s s1 := (setCore_effect ..).noDark
  have h2 : NoDark s s2 := (wrCore_effect _ .seqSchedule k f).past ((pauseSteps_noDark ..).step h1)
  exact (freezeHeld_effect ..).past ((replaySpills_effect ..).past ((setCore_effect ..).past h2))

theorem startReplay_noDark (s : State) (k : Nat) (p : ReplayPt) (f : Nat) (fails : List Failure) (r : ReplayCase) :
    NoDark s (startReplay s k p f fails r) := by
  unfold startReplay
  extract_lets s1 feeds _ s2 q s3 c s4
  have h1 : NoDark s s1 := (withdrawWaits_effect ..).past (dropFailed_effect ..).noDark
  have h2 : NoDark s s2 := (finishBefore_noDark ..).step ((setCore_effect ..).past h1)
  have h3 : NoDark s s3 := (restoreRegs_effect ..).past ((replayArrays_effect ..).past h2)
  have h4 : NoDark s s4 := (setCore_effect ..).past h3
  exact (setSeqState_effect ..).past (.fold (fun _ _ => (rereadFeed_effect ..).noDark) h4)

theorem replayLost_noDark (s : State) (k : Nat) (p : ReplayPt) (f : Nat) (x : Failure) (status : Nat) :
    NoDark s (replayLost s k p f x status) := by
  unfold replayLost
  split
  exact (endStream_noDark ..).step ((replayRec_effect ..).past (.ite (exhaust_effect ..).noDark (.refl s)))

theorem replayFor_noDark (s : State) (k : Nat) (p : ReplayPt) (fails : List Failure) (r : ReplayCase) :
    NoDark s (replayFor s k p fails r) := by
  unfold replayFor
  split
  · exact .refl s
  · extract_lets _ s1 ends _ chan
    have h1 : NoDark s s1 := (landArrived_effect ..).noDark
    have h2 : NoDark s chan := (bumpCore_effect ..).past (.fold (fun _ _ => (countFailure_effect ..).noDark) h1)
    clear_value ends
    cases ends with
    | some st => exact (replayLost_noDark ..).step h2
    | none => exact (startReplay_noDark ..).step ((replayStarts_effect ..).past ((replayRec_effect ..).past h2))

/-! ### The objects of R785 -/

theorem NoDark.ite_after {s : State} {a b : ObjAns} {c : Prop} [Decidable c] (h1 : NoDark s a.after)
    (h2 : NoDark s b.after) : NoDark s (if c then a else b).after := by
  split <;> assumption

theorem authorise_noDark {s : State} {cond : Bool} {f : State → State} (hf : ∀ t, NoDark t (f t)) :
    NoDark s (authorise s cond f).after := .ite_after (hf s) (.refl s)

theorem updActivate_noDark (s : State) (m : Master) (when_ : Nat) (supplyLow : Bool) (rival : Option Master) :
    NoDark s (updActivate s m when_ supplyLow rival).after := by
  unfold updActivate
  extract_lets _ _ _ old _ s1 s2
  have h1 : NoDark s s1 := (settingsStore_effect ..).past (settingsPut_effect ..).noDark
  have h2 : NoDark s s2 := h1.trans (.ite (masterRec_effect ..).noDark (.refl s1))
  refine .ite_after (.refl s) (.ite_after (.refl s) ?_)
  split
  · exact (overruled_effect ..).noDark
  · refine .ite_after (.refl s) (.ite_after ?_ (.ite_after (setUp_effect ..).noDark (startActivation_noDark s)))
    exact (endSession_effect ..).past ((wf_effect ..).past ((setUp_effect ..).past h2))

theorem updEndTrial_noDark (s : State) (m : Master) (rival : Option Master) :
    NoDark s (updEndTrial s m rival).after := by
  unfold updEndTrial
  refine .ite_after (.refl s) ((fallBackNow_noDark _).step ?_)
  split
  · exact .ite (.refl s) (overruled_effect ..).noDark
  · exact .refl s

theorem serveObj_noDark (s : State) (m : Master) (r : ObjReq) : NoDark s (serveObj s m r).after := by
  unfold serveObj
  refine .ite_after (.refl s) ?_
  cases r with
  | unitCert | aliasCert | attest | ledger => exact .refl s
  | begin_ => exact (updBegin_effect ..).noDark
  | chunk => exact (updChunk_effect ..).noDark
  | query => exact (updQuery_effect ..).noDark
  | abandon => exact (updAbandon_effect ..).noDark
  | activate => exact updActivate_noDark ..
  | endTrial => exact updEndTrial_noDark ..
  | setLock | clearLock => exact authorise_noDark fun _ => (settingsStore_effect ..).past (wf_effect ..).noDark
  | enroll =>
    exact .ite_after (.refl s) (authorise_noDark fun _ => (setTru_effect ..).past ((settingsStore_effect ..).past
      (wf_effect ..).noDark))
  | unlock => exact authorise_noDark fun _ => (wf_effect ..).noDark
  | rebind => exact authorise_noDark fun _ => (setTru_effect ..).past (settingsStore_effect ..).noDark
  | factory =>
    exact authorise_noDark fun _ => (wf_effect ..).past ((wf_effect ..).past ((wf_effect ..).past ((setUp_effect ..).past
      ((endSession_effect ..).past (factoryDefaults_effect ..).noDark))))

theorem doe_noDark (s : State) (m : Master) (op : Nat) (r : ObjReq) : NoDark s (doe s m op r) := by
  unfold doe
  refine .ite (.refl s) ((setAnswers_effect ..).past ?_)
  exact (serveObj_noDark ..).step (irq_effect ..).noDark

/-- A command of the management controller (R831, R832). -/
theorem mgmtCommand_noDark {s : State} {code : Nat} {f : Bytes} {bodyOk : Nat → Bool} {k : State → Bytes → MgmtAns}
    (hk : ∀ t b, NoDark t (k t b).after) : NoDark s (mgmtCommand s code f bodyOk k) := by
  unfold mgmtCommand
  extract_lets c s1 a
  have h1 : NoDark s s1 := (irq_effect ..).noDark
  have ha : NoDark s1 a.after := by
    dsimp only [a]
    split
    · exact hk ..
    · exact .refl s1
  exact .ite (.refl s) ((setAnswers_effect ..).past (h1.trans ha))

end Sys2Proof.Machine
end

section
/-! PROOF. No command enters Dark but LOW_POWER_ENTRY, which enters it only while no job runs (R45). A command that touches
PWR_STATUS is read from its meaning; for the others their footprint says it. -/

set_option Elab.async false

namespace Sys2Proof.Machine

theorem execPor_spares (pins train s) : Spares s (execPor pins train s) := by
  unfold execPor
  exact .next (powerUp_noDark ..)

theorem execPerstAssert_spares (train s) : Spares s (execPerstAssert train s) := by
  unfold execPerstAssert
  refine .ite .same (.from (setPerstN_effect s false).noDark ?_)
  exact .ite (.next (setDarkPerst_effect ..).noDark) (.next (moduleReset_noDark ..))

theorem execLinkReset_spares (s) : Spares s (execLinkReset s) := by
  unfold execLinkReset
  exact .ite (.next (linkDown_noDark ..)) .same

theorem execCxlReset_spares (s) : Spares s (execCxlReset s) := by
  unfold execCxlReset
  refine .ite .same ?_
  exact .ite (.next ((refusedRec_effect ..).past (linkDown_noDark ..))) (.next (startRestart_effect ..).noDark)

theorem execCxlMemRead_spares (addr first second s) : Spares s (execCxlMemRead addr first second s) := by
  unfold execCxlMemRead
  extract_lets s1 _ _ _ s2
  refine .ite .same ?_
  refine .from (t := s1) (wakeFree_noDark ..) ?_
  refine .ite (.next ((setAnswers_effect ..).past (memRefused_effect ..).noDark)) ?_
  refine .from (t := s2) ((killSettle_effect ..).past (grantLine_effect ..).noDark) ?_
  refine .ite (.next (setAnswers_effect ..).noDark) ?_
  refine .ite (.next ((setAnswers_effect ..).past (tagRefused_effect ..).noDark)) ?_
  split
  rename_i h
  refine .from (Effect.snd (cxlSector_effect ..) h).noDark ?_
  split
  rename_i h1
  refine .from (Effect.snd (cxlSector_effect ..) h1).noDark ?_
  exact .next (setAnswers_effect ..).noDark

theorem execCxlMemWrite_spares (addr data s) : Spares s (execCxlMemWrite addr data s) := by
  unfold execCxlMemWrite
  extract_lets s1
  refine .ite .same (.from (t := s1) (wakeFree_noDark ..) ?_)
  refine .ite (.next (memRefused_effect ..).noDark) (.ite (.next (tagRefused_effect ..).noDark) (.next ?_))
  refine (hitGuards_effect ..).past ((lostWrites_effect ..).past ?_)
  exact .of_regs (writeCodes_effect ..).noDark rfl

theorem execRegisterWrite_spares (by_ offset size value s) : Spares s (execRegisterWrite by_ offset size value s) := by
  unfold execRegisterWrite
  split
  · exact .next (timerWrite_effect ..).noDark
  · exact .next (bar0Write_noDark (fun _ => writeAt_noDark ..))

theorem execDescriptorFetch_spares (die ring data s) : Spares s (execDescriptorFetch die ring data s) := by
  unfold execDescriptorFetch
  extract_lets
  refine .ite .same ?_
  split
  · exact .next (ringFault_effect ..).noDark
  · exact .next ((ringAdvance_noDark ..).step ((emit_effect ..).past ((wr_effect ..).past (setRing_effect ..).noDark)))

theorem execCompletionWrite_spares (die ring ok s) : Spares s (execCompletionWrite die ring ok s) := by
  unfold execCompletionWrite
  extract_lets
  split
  · exact .same
  · extract_lets _ s1
    refine .ite .same ?_
    exact .next ((killSettle_effect ..).past ((settlePower_noDark ..).step ((ringAdvance_noDark ..).step
      ((ringSettle_effect ..).past ((completionEffect_effect ..).past ((writeCompletion_effect ..).past
      ((zeroingOver_effect ..).past (.trans (t := s1) (setRing_effect ..).noDark (.ite (sendSignal_effect ..).noDark
      (.refl ..))))))))))

theorem execInstall_spares (c mf s) : Spares s (execInstall c mf s) := by
  unfold execInstall
  extract_lets
  split
  · exact .same
  next h =>
    extract_lets _ _ _ _ s2
    refine .from (takeDesc_effect h).noDark ?_
    refine .ite (.next (finishWith_noDark ..)) ?_
    refine .ite (.next ((finishWith_noDark ..).step (installFault_effect ..).noDark)) ?_
    refine .ite (.next (finishWith_noDark ..)) ?_
    refine .ite (.next (finishWith_noDark ..)) ?_
    refine .from (t := s2) (readEffects_effect ..).noDark ?_
    refine .ite (.next (finishWith_noDark ..)) ?_
    split
    rename_i h1
    extract_lets
    refine .from (Effect.snd (memRead_effect ..) h1).noDark ?_
    split
    · exact .next ((finishWith_noDark ..).step (installFault_effect ..).noDark)
    · exact .next ((finish_noDark ..).step (fillSlot_effect ..).noDark)

theorem execRun_spares (c s) : Spares s (execRun c s) := by
  unfold execRun
  extract_lets
  split
  · exact .same
  next h =>
    refine .from (takeDesc_effect h).noDark ?_
    refine .ite (.next (finishWith_noDark ..)) ?_
    refine .ite (.next (finishWith_noDark ..)) ?_
    refine .ite (.next (finishWith_noDark ..)) ?_
    exact .next ((settlePower_noDark ..).step ((wrCore_effect ..).past ((setCore_effect ..).past
      (keepActive_effect ..).noDark)))

theorem execLayers_spares (c mf s) : Spares s (execLayers c mf s) := by
  unfold execLayers
  extract_lets
  split
  · exact .same
  next h =>
    extract_lets _ _ _ _ _ _ _ s2
    refine .from (takeDesc_effect h).noDark ?_
    refine .ite (.next (finishWith_noDark ..)) ?_
    refine .ite (.next (finishWith_noDark ..)) ?_
    refine .ite (.next (finishWith_noDark ..)) ?_
    refine .from (t := s2) (readEffects_effect ..).noDark ?_
    split
    rename_i h1
    refine .from (Effect.snd (memRead_effect ..) h1).noDark ?_
    refine .ite (.next (finishWith_noDark ..)) ?_
    exact .ite (.next (finishWith_noDark ..)) (.next ((finish_noDark ..).step (setCore_effect ..).noDark))

theorem execTransfer_spares (die ring hostData mf s) : Spares s (execTransfer die ring hostData mf s) := by
  unfold execTransfer
  extract_lets
  split
  · exact .same
  next h =>
    refine .from (takeDesc_effect h).noDark ?_
    refine .ite (.next (finishWith_noDark ..)) ?_
    refine .ite (.next (finishWith_noDark ..)) ?_
    refine .ite (.next (finishEmpty_noDark ..)) ?_
    split
    rename_i h1
    refine .from (.snd ?_ h1) ?_
    · split
      · exact .refl ..
      · exact (moveSource_effect ..).noDark
    · exact .next ((finishMove_noDark ..).step (.ite (hostWrite_effect ..).noDark (memWrite_effect ..).noDark))

theorem execFill_spares (die ring mf s) : Spares s (execFill die ring mf s) := by
  unfold execFill
  extract_lets
  split
  · exact .same
  next h =>
    refine .from (takeDesc_effect h).noDark ?_
    refine .ite (.next (finishWith_noDark ..)) ?_
    refine .ite (.next (finishWith_noDark ..)) ?_
    exact .ite (.next (finishEmpty_noDark ..)) (.next ((finishMove_noDark ..).step (memWrite_effect ..).noDark))

theorem execCopy_spares (die ring mf s) : Spares s (execCopy die ring mf s) := by
  unfold execCopy
  extract_lets
  split
  · exact .same
  next h =>
    refine .from (takeDesc_effect h).noDark ?_
    refine .ite (.next (finishWith_noDark ..)) ?_
    refine .ite (.next (finishWith_noDark ..)) ?_
    refine .ite (.next (finishEmpty_noDark ..)) ?_
    split
    rename_i h1
    refine .from (Effect.snd (moveSource_effect ..) h1).noDark ?_
    exact .next ((finishMove_noDark ..).step (memWrite_effect ..).noDark)

theorem execCollectiveRunEnd_spares (die ring s) : Spares s (execCollectiveRunEnd die ring s) := by
  unfold execCollectiveRunEnd
  extract_lets
  split
  · exact .same
  · exact .ite (.next (endRun_noDark ..)) (.ite (.next (endRun_noDark ..)) .same)

theorem execCollectiveTimeout_spares (die ring s) : Spares s (execCollectiveTimeout die ring s) := by
  unfold execCollectiveTimeout
  extract_lets
  split
  · exact .same
  · extract_lets
    refine .ite (.next (stopRun_effect ..).noDark) ?_
    refine .ite ?_ .same
    split
    · exact .next ((timeoutWait_noDark ..).step (setHeld_effect ..).noDark)
    · exact .same

theorem execJobBegin_spares (train reportOk s) : Spares s (execJobBegin train reportOk s) := by
  unfold execJobBegin
  split
  · exact .same
  next h =>
    refine .from (takeDesc_effect h).noDark ?_
    refine .ite (.next (mgmtDone_noDark ..)) ?_
    exact .next (hostAct_noDark (fun _ => (mgmtDone_noDark ..).step (beginJob_noDark ..)))

theorem execJobEnd_spares (s) : Spares s (execJobEnd s) := by
  unfold execJobEnd
  split
  · exact .same
  next h =>
    refine .from (takeDesc_effect h).noDark ?_
    refine .ite (.next (mgmtDone_noDark ..)) ?_
    exact .next (hostAct_noDark (fun _ => (mgmtDone_noDark ..).step (endByHost_noDark ..)))

theorem execJobKill_spares (s) : Spares s (execJobKill s) := by
  unfold execJobKill
  split
  · exact .same
  next h =>
    refine .from (takeDesc_effect h).noDark ?_
    refine .ite (.next (mgmtDone_noDark ..)) ?_
    exact .next (hostAct_noDark (fun _ => (mgmtDone_noDark ..).step (killJob_noDark ..)))

theorem execResidency_spares (s) : Spares s (execResidency s) := by
  unfold execResidency
  split
  · exact .same
  next h =>
    refine .from (takeDesc_effect h).noDark ?_
    refine .ite (.next (mgmtDone_noDark ..)) ?_
    refine .ite (.next (mgmtDone_noDark ..)) ?_
    exact .next ((mgmtDone_noDark ..).step ((wf_effect ..).past (wr_effect ..).noDark))

theorem execSignalDescriptor_spares (die s) : Spares s (execSignalDescriptor die s) := by
  unfold execSignalDescriptor
  extract_lets
  split
  · exact .same
  next h =>
    refine .from (takeDesc_effect h).noDark ?_
    exact .ite (.next (finishWith_noDark ..)) (.next ((finishWith_noDark ..).step (sendSignal_effect ..).noDark))

theorem execRouteWrite_spares (die mf s) : Spares s (execRouteWrite die mf s) := by
  unfold execRouteWrite
  extract_lets
  split
  · exact .same
  next h =>
    extract_lets
    refine .from (takeDesc_effect h).noDark ?_
    refine .ite (.next (mgmtDone_noDark ..)) ?_
    refine .ite (.next (mgmtDone_noDark ..)) ?_
    refine .ite (.next (mgmtDone_noDark ..)) ?_
    split
    rename_i h1
    extract_lets
    refine .from (Effect.snd (readRanges_effect ..) h1).noDark ?_
    split
    rename_i h2
    refine .from (Effect.snd (memRead_effect ..) h2).noDark ?_
    refine .ite (.next (mgmtDone_noDark ..)) ?_
    refine .ite (.next (mgmtDone_noDark ..)) ?_
    refine .ite (.next (mgmtDone_noDark ..)) ?_
    exact .next ((mgmtDone_noDark ..).step ((wf_effect ..).past (setRoutes_effect ..).noDark))

theorem execRestart_spares (s) : Spares s (execRestart s) := by
  unfold execRestart
  split
  · exact .same
  next h =>
    exact .from (takeDesc_effect h).noDark (.next (finishWith_noDark ..))

theorem execSetCap_spares (s) : Spares s (execSetCap s) := by
  unfold execSetCap
  split
  · exact .same
  next h =>
    refine .from (takePower_effect h).noDark ?_
    refine .ite (.next (finishWith_noDark ..)) ?_
    exact .next ((finishHeld_noDark ..).step ((masterRec_effect ..).past (wr_effect ..).noDark))

theorem execClearCap_spares (s) : Spares s (execClearCap s) := by
  unfold execClearCap
  split
  · exact .same
  next h =>
    refine .from (takePower_effect h).noDark ?_
    exact .ite (.next (finishWith_noDark ..)) (.next ((finishHeld_noDark ..).step (wf_effect ..).noDark))

theorem execSetCeiling_spares (s) : Spares s (execSetCeiling s) := by
  unfold execSetCeiling
  split
  · exact .same
  next h =>
    refine .from (takePower_effect h).noDark ?_
    refine .ite (.next (finishWith_noDark ..)) ?_
    exact .next ((finishHeld_noDark ..).step ((masterRec_effect ..).past (wr_effect ..).noDark))

theorem execClearCeiling_spares (s) : Spares s (execClearCeiling s) := by
  unfold execClearCeiling
  split
  · exact .same
  next h =>
    refine .from (takePower_effect h).noDark ?_
    exact .ite (.next (finishWith_noDark ..)) (.next ((finishHeld_noDark ..).step (wr_effect ..).noDark))

theorem execNap_spares (s) : Spares s (execNap s) := by
  unfold execNap
  split
  · exact .same
  next h =>
    refine .from (takePower_effect h).noDark ?_
    refine .ite (.next (finishWith_noDark ..)) ?_
    refine .ite (.next (finishWith_noDark ..)) ?_
    exact .next (hostAct_noDark (fun _ => (finishWith_noDark ..).step
      (askByHost_effect ..).noDark))

theorem execDark_spares (s) : Spares s (execDark s) := by
  unfold execDark
  split
  · exact .same
  next h =>
    refine .from (takePower_effect h).noDark ?_
    refine .ite (.next (finishWith_noDark ..)) ?_
    refine .ite (.next (finishWith_noDark ..)) ?_
    exact .next (hostAct_noDark (fun _ => (finishWith_noDark ..).step
      (askByHost_effect ..).noDark))

theorem execWake_spares (train s) : Spares s (execWake train s) := by
  unfold execWake
  exact .ite (.next (wakeTrained_noDark ..)) .same

theorem execDarkWake_spares (train s) : Spares s (execDarkWake train s) := by
  unfold execDarkWake
  exact .ite (.next (wakeDark_noDark ..)) .same

theorem execStreamStart_spares (c mf late s) : Spares s (execStreamStart c mf late s) := by
  unfold execStreamStart
  extract_lets _ _ s1
  split
  · exact .same
  · refine .ite .same ?_
    refine .from (t := s1) ((fetchSome_noDark ..).step ((setCore_effect ..).past (wrCore_effect ..).noDark)) ?_
    refine .ite .same ?_
    exact .next ((passEmpty_effect ..).past ((emit_effect ..).past ((setSeqState_effect ..).past
      ((setCore_effect ..).past (placePoint_effect ..).noDark))))

theorem execStreamComplete_spares (c s) : Spares s (execStreamComplete c s) := by
  unfold execStreamComplete
  exact .ite (.next (endStream_noDark ..)) .same

theorem execInterlockRelease_spares (c s) : Spares s (execInterlockRelease c s) := by
  unfold execInterlockRelease
  extract_lets
  split
  · exact .same
  · extract_lets s1
    refine .ite .same ?_
    refine .from (t := s1) (interlockSteps_noDark ..) ?_
    exact .ite (.next ((setSeqState_effect ..).past (setCore_effect ..).noDark)) .same

theorem execWatchdogTimeout_spares (c s) : Spares s (execWatchdogTimeout c s) := by
  unfold execWatchdogTimeout
  extract_lets
  split
  · exact .ite (.next (slipTimeout_noDark ..)) .same
  · exact .same

theorem execReplay_spares (c failures s) : Spares s (execReplay c failures s) := by
  unfold execReplay
  extract_lets _ _ _ s1
  split
  · extract_lets
    refine .ite .same ?_
    refine .ite (.ite .same (.next (replayFor_noDark ..))) ?_
    refine .ite .same ?_
    refine .ite (.next (cycleWork_noDark ..)) ?_
    refine .ite .same ?_
    refine .from (t := s1) (cycleWork_noDark ..) ?_
    split
    · refine .ite (.next (slipTimeout_noDark ..)) ?_
      exact .next ((replayFor_noDark ..).step (countFrozen_effect ..).noDark)
    · exact .next ((replayFor_noDark ..).step (countFrozen_effect ..).noDark)
  · exact .same

theorem execReplayResume_spares (c pauseCycles s) : Spares s (execReplayResume c pauseCycles s) := by
  unfold execReplayResume
  extract_lets
  split
  · refine .ite .same ?_
    refine .ite (.next ((fetchSome_noDark ..).step ((flagCore_effect ..).past ((wrCore_effect ..).past
      ((bumpCore_effect ..).past (setCore_effect ..).noDark))))) ?_
    refine .ite .same ?_
    exact .next ((comeDue_effect ..).past ((setSeqState_effect ..).past ((setCore_effect ..).past
      ((fetchSome_noDark ..).step ((flagCore_effect ..).past ((wrCore_effect ..).past ((bumpCore_effect ..).past
      (setCore_effect ..).noDark)))))))
  · exact .same

theorem execWaitArrive_spares (die mf s) : Spares s (execWaitArrive die mf s) := by
  unfold execWaitArrive
  extract_lets
  split
  · exact .same
  · extract_lets _ s1 s2 _ s3 s4
    refine .from (t := s1) (setSync_effect ..).noDark ?_
    refine .from (t := s2) (setHeld_effect ..).noDark ?_
    refine .from (t := s3) (objEffects_effect ..).noDark ?_
    refine .from (t := s4) (.ite (examineObj_effect ..).noDark (.refl ..)) ?_
    exact .ite (.next ((timeoutWait_noDark ..).step (setHeld_effect ..).noDark)) .same

theorem execWaitTimeout_spares (die position s) : Spares s (execWaitTimeout die position s) := by
  unfold execWaitTimeout
  extract_lets
  split
  · exact .same
  · extract_lets s1
    refine .ite (.from (t := s1) ?_ (.next ((timeoutWait_noDark ..).step (withdrawWait_effect ..).noDark))) .same
    dsimp only [s1]
    split
    · exact (countFrozen_effect ..).noDark
    · exact .refl ..

theorem execControlStep_spares (energyMj s) : Spares s (execControlStep energyMj s) := by
  unfold execControlStep
  refine .ite .same ?_
  refine .ite (.next (countEnergy_effect ..).noDark) ?_
  exact .next ((releaseHeld_effect ..).past ((limitSettle_effect ..).past ((tightStep_noDark ..).step
    ((orderStep_noDark ..).step (countEnergy_effect ..).noDark))))

theorem execThermalCeilingStep_spares (hottest s) : Spares s (execThermalCeilingStep hottest s) := by
  unfold execThermalCeilingStep
  extract_lets _ _ _ _ _ s1 _ s2
  refine .ite .same ?_
  exact .next ((wf_status_noDark _ F.pwrStatus_ceilingMhz _).step (.trans (t := s1) (setTemp_effect ..).noDark
    (.trans (t := s2) (setPwr_effect ..).noDark (.ite (masterRec_effect ..).noDark (.refl ..)))))

theorem execThermalAlert_spares (hottest s) : Spares s (execThermalAlert hottest s) := by
  unfold execThermalAlert
  extract_lets _ _ s1
  refine .ite .same ?_
  refine .from (t := s1) (setTemp_effect ..).noDark ?_
  exact .ite (.next (setTherm_noDark ..)) (.ite (.next (setTherm_noDark ..)) .same)

theorem execThermalCritical_spares (hottest s) : Spares s (execThermalCritical hottest s) := by
  unfold execThermalCritical
  refine .ite .same ?_
  exact .next ((askLowPower_effect ..).past ((setPwr_effect ..).past ((killByOther_noDark ..).step
    (setTemp_effect ..).noDark)))

theorem execPowerBrake_spares (s) : Spares s (execPowerBrake s) := by
  unfold execPowerBrake
  exact .ite .same (.next ((brakeAct_noDark ..).step (bump_effect ..).noDark))

theorem execBrakeRelease_spares (s) : Spares s (execBrakeRelease s) := by
  unfold execBrakeRelease
  exact .ite .same (.next ((brakeEase_effect ..).past (brakeChange_noDark ..)))

theorem execSupplyBrake_spares (s) : Spares s (execSupplyBrake s) := by
  unfold execSupplyBrake
  exact .ite .same (.next (brakeAct_noDark ..))

theorem execSupplyRecover_spares (s) : Spares s (execSupplyRecover s) := by
  unfold execSupplyRecover
  exact .ite .same (.next ((brakeEase_effect ..).past (brakeChange_noDark ..)))

theorem execSupplyLoss_spares (s) : Spares s (execSupplyLoss s) := by
  unfold execSupplyLoss
  exact .ite (.next (powerGone_noDark ..)) .same

theorem execSupplyRestart_spares (pins train s) : Spares s (execSupplyRestart pins train s) := by
  unfold execSupplyRestart
  exact .ite .same (.next (powerUp_noDark ..))

theorem execActivationStart_spares (s) : Spares s (execActivationStart s) := by
  unfold execActivationStart
  exact .ite (.next (startActivation_noDark ..)) .same

theorem execTrialFallback_spares (s) : Spares s (execTrialFallback s) := by
  unfold execTrialFallback
  exact .ite (.next (fallBackNow_noDark ..)) .same

theorem execMgmtJobKill_spares (frame s) : Spares s (execMgmtJobKill frame s) := by
  unfold execMgmtJobKill
  refine .next (mgmtCommand_noDark (fun s' b => ?_))
  split
  · exact .refl ..
  · exact killByOther_noDark ..

theorem execMgmtObject_spares (frame supplyLow s) : Spares s (execMgmtObject frame supplyLow s) := by
  unfold execMgmtObject
  refine .next (mgmtCommand_noDark (fun s' b => ?_))
  split
  · exact .refl ..
  · exact serveObj_noDark ..

end Sys2Proof.Machine
end

section
/-! PROOF. The obligation on Dark (R45): a step that enters it is LOW_POWER_ENTRY's, and a request for it while a job runs
is refused. -/

set_option Elab.async false

namespace Sys2Proof.Machine

/-! ### Every command -/

theorem acceptCollective_spares (s : State) (die r op : Nat) (mf : MemFaults) :
    Spares s (.next (acceptCollective s die r op mf)) := .next (acceptCollective_noDark ..)

theorem doe_spares (s : State) (m : Master) (op : Nat) (r : ObjReq) : Spares s (.next (doe s m op r)) :=
  .next (doe_noDark ..)

/-- The dispatch of `exec`, arm by arm: no command but LOW_POWER_ENTRY enters Dark. -/
theorem exec_spares {i : Instr} (hi : i ≠ .lowPowerEntry) (s : State) : Spares s (exec i s) := by
  cases i with
  | por => exact execPor_spares ..
  | perstAssert => exact execPerstAssert_spares ..
  | linkReset => exact execLinkReset_spares ..
  | cxlReset => exact execCxlReset_spares ..
  | cxlMemRead => exact execCxlMemRead_spares ..
  | cxlMemWrite => exact execCxlMemWrite_spares ..
  | registerWrite => exact execRegisterWrite_spares ..
  | descriptorFetch => exact execDescriptorFetch_spares ..
  | completionWrite => exact execCompletionWrite_spares ..
  | install => exact execInstall_spares ..
  | run => exact execRun_spares ..
  | layers => exact execLayers_spares ..
  | transfer => exact execTransfer_spares ..
  | fill => exact execFill_spares ..
  | copy => exact execCopy_spares ..
  | reduceScatter | allGather | allReduce | multicast => exact acceptCollective_spares ..
  | collectiveRunEnd => exact execCollectiveRunEnd_spares ..
  | collectiveTimeout => exact execCollectiveTimeout_spares ..
  | jobBegin => exact execJobBegin_spares ..
  | jobEnd => exact execJobEnd_spares ..
  | jobKill => exact execJobKill_spares ..
  | residency => exact execResidency_spares ..
  | signalDescriptor => exact execSignalDescriptor_spares ..
  | routeWrite => exact execRouteWrite_spares ..
  | restart => exact execRestart_spares ..
  | setCap => exact execSetCap_spares ..
  | clearCap => exact execClearCap_spares ..
  | setCeiling => exact execSetCeiling_spares ..
  | clearCeiling => exact execClearCeiling_spares ..
  | nap => exact execNap_spares ..
  | dark => exact execDark_spares ..
  | lowPowerEntry => exact absurd rfl hi
  | wake => exact execWake_spares ..
  | darkWake => exact execDarkWake_spares ..
  | streamStart => exact execStreamStart_spares ..
  | streamComplete => exact execStreamComplete_spares ..
  | interlockRelease => exact execInterlockRelease_spares ..
  | watchdogTimeout => exact execWatchdogTimeout_spares ..
  | replay => exact execReplay_spares ..
  | replayResume => exact execReplayResume_spares ..
  | waitArrive => exact execWaitArrive_spares ..
  | waitTimeout => exact execWaitTimeout_spares ..
  | controlStep => exact execControlStep_spares ..
  | thermalCeilingStep => exact execThermalCeilingStep_spares ..
  | thermalAlert => exact execThermalAlert_spares ..
  | thermalCritical => exact execThermalCritical_spares ..
  | powerBrake => exact execPowerBrake_spares ..
  | brakeRelease => exact execBrakeRelease_spares ..
  | supplyBrake => exact execSupplyBrake_spares ..
  | supplyRecover => exact execSupplyRecover_spares ..
  | supplyLoss => exact execSupplyLoss_spares ..
  | supplyRestart => exact execSupplyRestart_spares ..
  | identityUnit | identityAlias | attest | ledgerRead | updateBegin | updateChunk | updateQuery | updateAbandon
  | updateActivate | updateEndTrial | setOwnerLock | clearOwnerLock | enrollOwnerKey | debugUnlock | rebindIdentity
  | factoryReset => exact doe_spares ..
  | activationStart => exact execActivationStart_spares ..
  | trialFallback => exact execTrialFallback_spares ..
  | mgmtJobKill => exact execMgmtJobKill_spares ..
  | mgmtObject => exact execMgmtObject_spares ..
  | _ => exact (exec_footprint _ s).spares (by delta footprint; dsimp only; decide +kernel)

/-! ### The entry -/

/-- LOW_POWER_ENTRY leaves the state as it is, or no job runs (R691). -/
theorem lowPowerEntry_changes {s t : State} (h : exec .lowPowerEntry s = .next t) : t = s ∨ jobRuns s = false := by
  cases hm : mayEnterLowPower s with
  | true =>
    simp only [mayEnterLowPower, Bool.and_eq_true, Bool.not_eq_true'] at hm
    exact .inr hm.1.1
  | false =>
    refine .inl (Host.Outcome.next.inj (Eq.trans h.symm ?_))
    show execLowPowerEntry s = _
    unfold execLowPowerEntry
    rw [hm]; rfl

/-- A command from a state that is not Dark to one that is finds no job running. -/
theorem exec_entersDark {i : Instr} {s t : State} (hs : RegInv s) (hd : powerState s ≠ pwrDark) (h : exec i s = .next t)
    (ht : powerState t = pwrDark) : jobRuns s = false := by
  by_cases hi : i = .lowPowerEntry
  · subst hi
    exact (lowPowerEntry_changes h).resolve_left fun he => hd (he ▸ ht)
  · obtain ⟨u, hu, hn⟩ := exec_spares hi s
    obtain rfl : t = u := Host.Outcome.next.inj (h.symm.trans hu)
    exact absurd (hn.state hs ht) hd

/-! ### The requests -/

theorem ringWork_queueCompletion (s : State) (die n : Nat) (c : Completion) :
    (ringWork (queueCompletion s die n c) die n).toWrite = (ringWork s die n).toWrite ++ [c] := by
  unfold queueCompletion
  extract_lets w
  show (Map.getD (Map.put s.rings (die * 64 + n) _) (die * 64 + n) RingWork.fresh).toWrite = _
  rw [Map.getD, Map.find_put_same]
  rfl

/-- A descriptor finished with a status has its completion queued. -/
theorem finishWith_completed (s : State) (die n : Nat) (d : Desc) (status : Nat) :
    Completed (finishWith s die n d status) die n d status := by
  set c := completionOf d status 0 0 0 0 false
  have hr : (finishWith s die n d status).rings = (queueCompletion s die n c).rings :=
    (settlePower_effect (queueCompletion s die n c)).frame.same .rings (by decide)
  refine ⟨c, ?_, rfl, rfl, rfl, rfl⟩
  have hw : ringWork (finishWith s die n d status) die n = ringWork (queueCompletion s die n c) die n := by
    unfold ringWork; rw [hr]
  rw [hw, ringWork_queueCompletion]
  exact List.mem_append_right _ (List.mem_singleton_self c)

/-- A well-framed command is answered with its own status and body (R830, R831). -/
theorem mgmtCommand_answer {s : State} {code : Nat} {f : Bytes} {bodyOk : Nat → Bool} {k : State → Bytes → MgmtAns}
    (hp : s.host.powered = true) (ha : s.mgmt.addr.isSome = true) (hc : leAt f 0 1 = code) (hf : frameOk f bodyOk = true) :
    (mgmtCommand s code f bodyOk k).answers.i3c = some (i3cResponse code (leAt f 1 1)
      (k (irq s 0 3 5) ((f.drop 8).take (f.length - 12))).status (k (irq s 0 3 5) ((f.drop 8).take (f.length - 12))).body) := by
  simp [mgmtCommand, hp, Option.isSome_iff_ne_none.mp ha, hc, hf]

/-- A well-framed DARK of the management controller while a job runs (R831, R832). -/
theorem mgmtDark_refused {frame : Bytes} {s : State} (hp : s.host.powered = true) (ha : s.mgmt.addr.isSome = true)
    (hc : leAt frame 0 1 = 4) (hf : frameOk frame (fun n => decide (n = 0)) = true) (hj : jobRuns s = true) :
    Gives (exec (.mgmtDark frame) s) fun t => t.answers.i3c = some (i3cResponse 4 (leAt frame 1 1) stRefused []) := by
  have hirq : jobRuns (irq s 0 3 5) = true := by
    have hr := (irq_effect s 0 3 5).frame.same (.reg .jobStatus) (by decide) 0 0
    have hs : jobState (irq s 0 3 5) = jobState s := congrArg (bits · 1 0) hr
    rwa [jobRuns, hs]
  refine ⟨_, rfl, (mgmtCommand_answer hp ha hc hf).trans ?_⟩
  simp only [mgmtLowPower, hirq, Bool.true_or, if_true, mgmtStatusOnly]

/-- Settles O58: only LOW_POWER_ENTRY enters Dark, and it takes place while no job runs; both requests are refused. -/
theorem darkIsEnteredOnlyWithoutAJob : Obligations.DarkIsEnteredOnlyWithoutAJob := by
  refine ⟨fun s t hs hd h ht => ?_, fun d s s1 hd hres hv hw hj => ?_, fun _ _ hp ha hc hf hj =>
    mgmtDark_refused hp ha hc hf hj⟩
  · unfold step at h
    split at h
    · rw [← Host.Outcome.next.inj h] at ht
      exact absurd ((blockTick_noDark s).state hs ht) hd
    next c rest _ =>
      exact exec_entersDark (s := { s with pending := rest }) hs hd h ht
  · refine ⟨finishWith s1 0 32 d stRefused, ?_, finishWith_completed ..⟩
    show execDark s = _
    unfold execDark
    rw [hd]
    simp [hres, hv, hw, hj]

end Sys2Proof.Machine
end

section
/-! PROOF. Register accesses by offset: a BAR0 offset names the register, die and unit it was made for (R52), and the
commands that name a register's write do what the write at its offset does. -/

set_option Elab.async false

namespace Sys2Proof.Machine

/-! ### Where registers stand -/

/-- The units of a register stand at equal distances. -/
def Reg.linear (r : Reg) : Bool := r ≠ .seqSlotBase && r ≠ .seqSlotInfo && r ≠ .seqSlotCrc

theorem unitOffset_linear {r : Reg} (h : r.linear = true) (u : Nat) : unitOffset r u = u * r.info.stride := by
  unfold unitOffset
  split <;> first | rfl | exact absurd h (by decide)

/-- No unit of `r'` stands where a unit of `r` does: they belong to different blocks, one begins behind the other's end, or
they alternate at equal distances. -/
def Reg.apart (r r' : Reg) : Bool :=
  let i := r.info
  let j := r'.info
  i.blk.num ≠ j.blk.num || (r'.linear &&
    (decide (i.offset + i.stride * (i.units - 1) < j.offset) || decide (j.offset + j.stride * (j.units - 1) < i.offset)
      || (i.stride = j.stride && i.offset % i.stride ≠ j.offset % i.stride)))

/-- A register with equal distances that lies in its block and shares no place with another one. -/
def Reg.placed (r : Reg) : Bool :=
  r.linear && decide (r.info.blk.num < 32) && decide (r.info.offset + r.info.stride * (r.info.units - 1) < 0x10_0000)
    && (r.info.stride ≠ 0 || r.info.units = 1) && Reg.all.all fun r' => r' = r || r.apart r'

/-- A unit lies within the span of its register. -/
theorem unit_span {u stride units : Nat} (h : u < units) : u * stride ≤ stride * (units - 1) := by
  rw [Nat.mul_comm]
  exact Nat.mul_le_mul_left _ (by omega)

/-- A place that a register answers to is one of its units. -/
theorem unitAt_some {r : Reg} {rel u : Nat} (h : unitAt r rel = some u) : u < r.info.units ∧ unitOffset r u = rel := by
  unfold unitAt at h
  extract_lets v at h
  split at h
  next hc =>
    obtain rfl := Option.some.inj h
    simpa only [Bool.and_eq_true, decide_eq_true_eq] using hc
  · exact absurd h (by simp)

/-- Registers of one block that are apart share no place. -/
theorem unitAt_apart {r r' : Reg} (h : r.apart r' = true) (hb : r.info.blk.num = r'.info.blk.num)
    {u : Nat} (hu : u < r.info.units) (ho : r'.info.offset ≤ r.info.offset + u * r.info.stride) :
    unitAt r' (r.info.offset + u * r.info.stride - r'.info.offset) = none := by
  refine Option.eq_none_iff_forall_ne_some.mpr fun u' he => ?_
  obtain ⟨hu', hp⟩ := unitAt_some he
  simp only [Reg.apart, hb, ne_eq, not_true_eq_false, decide_false, Bool.false_or, Bool.and_eq_true, Bool.or_eq_true,
    decide_eq_true_eq] at h
  obtain ⟨hl, hd⟩ := h
  rw [unitOffset_linear hl] at hp
  have hs := unit_span (stride := r.info.stride) hu
  have hs' := unit_span (stride := r'.info.stride) hu'
  rcases hd with (hd | hd) | ⟨hd, hm⟩
  · omega
  · omega
  · rw [← hd] at hp
    have e : r.info.offset + u * r.info.stride = r'.info.offset + u' * r.info.stride := by omega
    have em := congrArg (· % r.info.stride) e
    simp only [Nat.add_mul_mod_self_right] at em
    exact hm (hd ▸ em)

/-- The place of a unit of a register with equal distances. -/
theorem unitAt_linear {r : Reg} (hl : r.linear = true) (h0 : r.info.stride ≠ 0 ∨ r.info.units = 1) {u : Nat}
    (hu : u < r.info.units) : unitAt r (u * r.info.stride) = some u := by
  have hv : (if r.info.stride = 0 then 0 else u * r.info.stride / r.info.stride) = u := by
    split
    next h => omega
    next h => exact Nat.mul_div_cancel u (Nat.pos_of_ne_zero h)
  have ho := unitOffset_linear hl u
  unfold unitAt
  split <;> first | exact absurd hl (by decide) | skip
  simp only [hv, ho, hu, decide_true, Bool.and_self, if_true]

/-- What a list's first answer is where one entry alone answers. -/
theorem findSome?_eq_of_unique {α β : Type} {f : α → Option β} {l : List α} {a : α} {b : β} (ha : a ∈ l)
    (hb : f a = some b) (h : ∀ x ∈ l, x ≠ a → f x = none) : l.findSome? f = some b := by
  induction l with
  | nil => exact absurd ha List.not_mem_nil
  | cons x l ih =>
    by_cases hx : x = a
    · rw [List.findSome?_cons, hx, hb]
    · rw [List.findSome?_cons, h x (List.mem_cons_self ..) hx]
      exact ih (List.mem_of_ne_of_mem (Ne.symm hx) ha) fun y hy => h y (List.mem_cons_of_mem _ hy)

/-! ### Offsets -/

/-- A write at an offset that names a register, with the register's size. -/
theorem exec_registerWrite {offset die unit blk size : Nat} {r : Reg} (ha : regAt offset = some (r, die, unit))
    (hd : bar0Die offset = die) (hb : bar0Blk offset = blk) (hw : r.info.width = 8 * size) (b : Sender) (v : Nat)
    (ok : Bool) (mf : MemFaults) (s : State) :
    exec (.registerWrite b offset size ⟨v, ok, mf, none⟩) s =
      .next (bar0Write s b die blk offset v fun s => writeReg s b.master r die unit v ok mf) := by
  have hf : ∀ t, writeAt t b.master offset size v ok mf = writeReg t b.master r die unit v ok mf := fun t => by
    simp only [writeAt, ha, hw, if_true]
  show Host.Outcome.next (bar0Write s b (bar0Die offset) (bar0Blk offset) offset v fun t =>
    writeAt t b.master offset size v ok mf) = _
  simp only [hd, hb, hf]

section
variable {r : Reg} (hr : r.placed = true) {die unit : Nat} (hu : unit < r.info.units)
include hr hu

/-- The offset of a register split into window, block and place. -/
theorem regOffset_parts : ∃ rel < 0x10_0000, rel = r.info.offset + unit * r.info.stride ∧ r.info.blk.num < 32 ∧
    regOffset r die unit = die * 0x200_0000 + r.info.blk.num * 0x10_0000 + rel := by
  simp only [Reg.placed, Bool.and_eq_true, decide_eq_true_eq] at hr
  obtain ⟨⟨⟨⟨hl, hb⟩, hs⟩, -⟩, -⟩ := hr
  have := unit_span (stride := r.info.stride) hu
  exact ⟨_, by omega, rfl, hb, by rw [regOffset, unitOffset_linear hl, Nat.add_assoc]⟩

theorem bar0Die_regOffset (hd : die < 2) : bar0Die (regOffset r die unit) = die := by
  obtain ⟨rel, hrel, -, hb, ho⟩ := regOffset_parts hr hu (die := die)
  rw [bar0Die, ho]; omega

theorem bar0Blk_regOffset : bar0Blk (regOffset r die unit) = r.info.blk.num := by
  obtain ⟨rel, hrel, -, hb, ho⟩ := regOffset_parts hr hu (die := die)
  rw [bar0Blk, ho]; omega

/-- The offset of a register names it (R52). -/
theorem regAt_regOffset (hon : onDie r die = true) : regAt (regOffset r die unit) = some (r, die, unit) := by
  obtain ⟨rel, hrel, he, hb, ho⟩ := regOffset_parts hr hu (die := die)
  have hdie : regOffset r die unit / 0x200_0000 = die := by rw [ho]; omega
  have hblk : regOffset r die unit % 0x200_0000 / 0x10_0000 = r.info.blk.num := by rw [ho]; omega
  have hplace : regOffset r die unit % 0x10_0000 = r.info.offset + unit * r.info.stride := by rw [ho, ← he]; omega
  simp only [Reg.placed, Bool.and_eq_true, Bool.or_eq_true, decide_eq_true_eq, List.all_eq_true] at hr
  obtain ⟨⟨⟨⟨hl, -⟩, -⟩, h0⟩, hall⟩ := hr
  unfold regAt
  simp only [hdie, hblk, hplace]
  refine findSome?_eq_of_unique (List.mem_of_getElem? (Reg.all_idx r)) ?_ fun r' hr' hne => ?_
  · rw [if_pos (by simp [hon]), Nat.add_sub_cancel_left, unitAt_linear hl h0 hu]
    rfl
  · split
    next hc =>
      simp only [Bool.and_eq_true, decide_eq_true_eq] at hc
      rw [unitAt_apart ((hall r' hr').resolve_left hne) hc.1.1.symm hu hc.2]
      rfl
    · rfl

/-- A command that writes BAR0 at a register's offset as the register's own write does is REGISTER_WRITE there with the
register's size (R18 to R20). -/
theorem eq_registerWrite (hd : die < 2) (hon : onDie r die = true) {size : Nat} (hw : r.info.width = 8 * size)
    {b : Sender} {v : Nat} {ok : Bool} {mf : MemFaults} {s : State} {cmd : Host.Outcome State Fault Refusal}
    {f : State → State}
    (hcmd : cmd = .next (bar0Write s b die r.info.blk.num (regOffset r die unit) v f))
    (hf : ∀ s, f s = writeReg s b.master r die unit v ok mf) :
    cmd = exec (.registerWrite b (regOffset r die unit) size ⟨v, ok, mf, none⟩) s := by
  rw [hcmd, funext hf]
  exact (exec_registerWrite (regAt_regOffset hr hu hon) (bar0Die_regOffset hr hu hd) (bar0Blk_regOffset hr hu) hw ..).symm

end

/-! ### The commands -/

theorem setBits_bit {v b : Nat} (h : v.testBit 4 = decide (b = 1)) (hb : b < 2) : setBits v 4 4 b = v := by
  refine Nat.eq_of_testBit_eq fun i => ?_
  rw [testBit_setBits]
  split
  next hi =>
    obtain rfl : i = 4 := by omega
    rw [h]
    interval_cases b <;> rfl
  · rfl

/-- A size of 0 owes no report. -/
theorem ringSizeWrite_zero (s : State) (m : Master) (die n : Nat) (ok ok' : Bool) :
    ringSizeWrite s m die n 0 ok = ringSizeWrite s m die n 0 ok' := by
  simp [ringSizeWrite]

/-- A stop reads no image. -/
theorem compCtrlWrite_stop (s : State) (die slot : Nat) (mf mf' : MemFaults) :
    compCtrlWrite s die slot 2 mf = compCtrlWrite s die slot 2 mf' := by
  simp [compCtrlWrite, bitOf]

theorem exec_epochSet {m : Sender} {die : Die} {v : BitVec 32} (hv : v.toNat.testBit 4 = false) (s : State) :
    exec (.epochSet m die v) s = .next (bar0Write s m die.val Blk.fab.num (regOffset .fabRouteCtrl die.val 0) v.toNat
      fun s => routeCtrlWrite s m.master die.val v.toNat) := by
  show execEpochSet m die v s = _
  simp only [execEpochSet, setBits_bit (b := 0) hv (by decide)]

theorem exec_epochCommit {m : Sender} {die : Die} {v : BitVec 32} (hv : v.toNat.testBit 4 = true) (s : State) :
    exec (.epochCommit m die v) s = .next (bar0Write s m die.val Blk.fab.num (regOffset .fabRouteCtrl die.val 0) v.toNat
      fun s => routeCtrlWrite s m.master die.val v.toNat) := by
  show execEpochCommit m die v s = _
  simp only [execEpochCommit, setBits_bit (b := 1) hv (by decide)]

/-- Settles O15: the offset names the register, and its write is the command's. -/
theorem namedWritesAreRegisterWrites : Obligations.NamedWritesAreRegisterWrites := by
  intro m die ok mf s
  have hd := die.isLt
  have hon : ∀ {r : Reg}, r.info.homing = .eachDie → onDie r die = true := fun h => by
    simp only [onDie, h]; exact decide_eq_true hd
  refine ⟨fun v hv => ?_, fun v hv => ?_, fun v => ?_, fun g v => ?_, fun g v => ?_, fun src v => ?_, fun slot => ?_,
    fun slot => ?_, fun n v => ?_, fun n => ?_⟩
  · exact eq_registerWrite (by decide +kernel) (by decide) hd (hon rfl) rfl (exec_epochSet hv s) fun _ => rfl
  · exact eq_registerWrite (by decide +kernel) (by decide) hd (hon rfl) rfl (exec_epochCommit hv s) fun _ => rfl
  · exact eq_registerWrite (by decide +kernel) (by decide) hd (hon rfl) rfl rfl fun _ => rfl
  · exact eq_registerWrite (by decide +kernel) g.isLt hd (hon rfl) rfl rfl fun _ => rfl
  · exact eq_registerWrite (by decide +kernel) g.isLt hd (hon rfl) rfl rfl fun _ => rfl
  · exact eq_registerWrite (by decide +kernel) src.isLt hd (hon rfl) rfl rfl fun _ => rfl
  · exact eq_registerWrite (by decide +kernel) slot.isLt hd (hon rfl) rfl rfl fun _ => rfl
  · exact eq_registerWrite (by decide +kernel) slot.isLt hd (hon rfl) rfl rfl fun s => compCtrlWrite_stop s _ _ _ mf
  · exact eq_registerWrite (by decide +kernel) n.isLt hd (hon rfl) rfl rfl fun _ => rfl
  · exact eq_registerWrite (by decide +kernel) n.isLt hd (hon rfl) rfl rfl fun s => ringSizeWrite_zero s _ _ _ _ ok

end Sys2Proof.Machine
end

section
/-! PROOF. Exact arithmetic: the operations of finite values answer the exact result in units of any 2^q at or below the
operands' exponents, before the one rounding (R86, R304). -/

namespace Sys2Proof.Machine

theorem Num.unitsAt_fin (n : Bool) (m : Nat) (e q : Int) :
    (Num.fin n m e).unitsAt q = (if n then -1 else 1) * (m : Int) * 2 ^ (e - q).toNat := by
  simp [Num.unitsAt]

@[simp] theorem Num.unitsAt_negate (x : Num) (q : Int) : x.negate.unitsAt q = -x.unitsAt q := by
  cases x with
  | nan s => rfl
  | inf n => rfl
  | fin n m e => cases n <;> simp [Num.negate, Num.unitsAt_fin]

/-- Moving a value to a smaller exponent keeps it in units of any 2^q at or below that exponent. -/
theorem Num.unitsAt_rescale (n : Bool) (m : Nat) {e e' q : Int} (hq : q ≤ e') (he : e' ≤ e) :
    (Num.fin n (m * 2 ^ (e - e').toNat) e').unitsAt q = (Num.fin n m e).unitsAt q := by
  have hexp : (e - q).toNat = (e - e').toNat + (e' - q).toNat := by omega
  simp only [Num.unitsAt_fin, hexp, pow_add]
  push_cast
  ring

/-- Over one exponent, the signed magnitudes that `addFin` compares sum to its answer's. -/
theorem addFin_unitsAt {q : Int} (rnd : Rnd) (n1 n2 : Bool) (m1 m2 : Nat) {e1 e2 : Int} (h1 : q ≤ e1) (h2 : q ≤ e2) :
    ∃ n m e, addFin rnd n1 m1 e1 n2 m2 e2 = .fin n m e ∧
      (Num.fin n m e).unitsAt q = (Num.fin n1 m1 e1).unitsAt q + (Num.fin n2 m2 e2).unitsAt q := by
  have hq : q ≤ min e1 e2 := le_min h1 h2
  rw [← Num.unitsAt_rescale n1 m1 hq (min_le_left ..), ← Num.unitsAt_rescale n2 m2 hq (min_le_right ..)]
  simp only [addFin]
  generalize min e1 e2 = e
  generalize m1 * 2 ^ (e1 - e).toNat = a
  generalize m2 * 2 ^ (e2 - e).toNat = b
  simp only [Num.unitsAt_fin, ← add_mul]
  split
  case isTrue hn => exact ⟨_, _, _, rfl, by subst hn; push_cast; ring⟩
  case isFalse hn =>
    have hs : n2 = !n1 := by cases n1 <;> cases n2 <;> simp_all
    subst hs
    split
    case isTrue hab => exact ⟨_, _, _, rfl, by cases n1 <;> simp [hab]⟩
    case isFalse hab =>
      split
      case isTrue hlt => exact ⟨_, _, _, rfl, by cases n1 <;> simp [Nat.cast_sub hlt.le] <;> ring⟩
      case isFalse hlt => exact ⟨_, _, _, rfl, by cases n1 <;> simp [Nat.cast_sub (not_lt.mp hlt)] <;> ring⟩

theorem opAdd_fin (rnd : Rnd) (n1 n2 : Bool) (m1 m2 : Nat) (e1 e2 : Int) :
    opAdd rnd (.fin n1 m1 e1) (.fin n2 m2 e2) = .of (addFin rnd n1 m1 e1 n2 m2 e2) := rfl

theorem opSub_fin (rnd : Rnd) (a : Num) (n : Bool) (m : Nat) (e : Int) :
    opSub rnd a (.fin n m e) = opAdd rnd a (.fin (!n) m e) := rfl

theorem opMul_fin (n1 n2 : Bool) (m1 m2 : Nat) (e1 e2 : Int) :
    opMul (.fin n1 m1 e1) (.fin n2 m2 e2) = .of (.fin (n1 != n2) (m1 * m2) (e1 + e2)) := rfl

theorem opFma_fin (rnd : Rnd) (n1 n2 : Bool) (m1 m2 : Nat) (e1 e2 : Int) (d : Num) :
    opFma rnd (.fin n1 m1 e1) (.fin n2 m2 e2) d = opAdd rnd (.fin (n1 != n2) (m1 * m2) (e1 + e2)) d := rfl

theorem opAdd_unitsAt {q : Int} (rnd : Rnd) (n1 n2 : Bool) (m1 m2 : Nat) {e1 e2 : Int} (h1 : q ≤ e1) (h2 : q ≤ e2) :
    ∃ n m e, opAdd rnd (.fin n1 m1 e1) (.fin n2 m2 e2) = Exact.of (.fin n m e) ∧
      (Num.fin n m e).unitsAt q = (Num.fin n1 m1 e1).unitsAt q + (Num.fin n2 m2 e2).unitsAt q := by
  obtain ⟨n, m, e, hadd, hunits⟩ := addFin_unitsAt rnd n1 n2 m1 m2 h1 h2
  exact ⟨n, m, e, by rw [opAdd_fin, hadd], hunits⟩

/-- A product in units of 2^(q + r), its factors in units of 2^q and 2^r. -/
theorem unitsAt_mul (n1 n2 : Bool) (m1 m2 : Nat) {e1 e2 q r : Int} (h1 : q ≤ e1) (h2 : r ≤ e2) :
    (Num.fin (n1 != n2) (m1 * m2) (e1 + e2)).unitsAt (q + r) =
      (Num.fin n1 m1 e1).unitsAt q * (Num.fin n2 m2 e2).unitsAt r := by
  have hexp : (e1 + e2 - (q + r)).toNat = (e1 - q).toNat + (e2 - r).toNat := by omega
  simp only [Num.unitsAt_fin, hexp, pow_add]
  cases n1 <;> cases n2 <;> simp <;> ring

/-- Settles O27: a sum is exact over the smaller exponent, a difference is the sum with the negated operand, and the fused
operation is the sum of the exact product and the addend. -/
theorem elementArithmeticIsExact : Obligations.ElementArithmeticIsExact := by
  intro rnd n1 n2 n3 m1 m2 m3 e1 e2 e3
  refine ⟨fun q h1 h2 => ⟨opAdd_unitsAt rnd n1 n2 m1 m2 h1 h2, ?_⟩, fun q r h1 h2 => ⟨?_, fun h3 => ?_⟩⟩
  · obtain ⟨n, m, e, hadd, hunits⟩ := opAdd_unitsAt rnd n1 (!n2) m1 m2 h1 h2
    exact ⟨n, m, e, by rw [opSub_fin, hadd], by rw [hunits, sub_eq_add_neg, ← Num.unitsAt_negate]; rfl⟩
  · exact ⟨_, _, _, opMul_fin .., unitsAt_mul n1 n2 m1 m2 h1 h2⟩
  · obtain ⟨n, m, e, hadd, hunits⟩ := opAdd_unitsAt rnd (n1 != n2) n3 (m1 * m2) m3 (add_le_add h1 h2) h3
    exact ⟨n, m, e, by rw [opFma_fin, hadd], by rw [hunits, unitsAt_mul n1 n2 m1 m2 h1 h2]⟩

end Sys2Proof.Machine
end

section
/-! PROOF. Codes and values of the binary formats: a finite value on a format's grid is rounded to itself (R86), and its code
is the one it was decoded from (R64, R65, R68). -/

namespace Sys2Proof.Machine

/-- The layout of a binary format with infinities, NaNs and a −0 (R64, R65): the precision is the fraction with the hidden
bit, and the largest finite value stands one exponent below the all-ones field. -/
structure FloatFmt.Binary (f : FloatFmt) : Prop where
  precision : f.p = f.fbits + 1
  exponent_bits : 2 ≤ f.ebits
  max_mantissa : f.maxM = 2 ^ f.p - 1
  max_exponent : f.maxE = f.qmin + 2 ^ f.ebits - 3
  has_specials : f.specials = true
  has_negZero : f.negZero = true

theorem FloatFmt.binary_of_mem {f : FloatFmt} (h : f ∈ [fmtB64, fmtB32, fmtB16, fmtNf16, fmtW36]) : f.Binary := by
  simp only [List.mem_cons, List.not_mem_nil, or_false] at h
  rcases h with rfl | rfl | rfl | rfl | rfl <;> constructor <;> decide

theorem FloatFmt.Binary.two_pow_precision {f : FloatFmt} (hf : f.Binary) : 2 ^ f.p = 2 ^ f.fbits + 2 ^ f.fbits := by
  rw [hf.precision, pow_succ, Nat.mul_two]

theorem FloatFmt.Binary.hidden_bit {f : FloatFmt} (hf : f.Binary) : f.p - 1 = f.fbits := by
  rw [hf.precision, Nat.add_sub_cancel]

/-- A normal value's exponent is at most the largest finite value's. -/
theorem FloatFmt.Binary.exponent_le_max {f : FloatFmt} (hf : f.Binary) {ef : Nat} (h : ef + 2 ≤ 2 ^ f.ebits) :
    f.qmin + ef - 1 ≤ f.maxE := by
  have h' : (ef : Int) + 2 ≤ 2 ^ f.ebits := mod_cast h
  rw [hf.max_exponent]
  linarith

theorem FloatFmt.Binary.qmin_le_max {f : FloatFmt} (hf : f.Binary) : f.qmin ≤ f.maxE := by
  have h : 2 ^ 2 ≤ 2 ^ f.ebits := Nat.pow_le_pow_right (by decide) hf.exponent_bits
  simpa using hf.exponent_le_max (ef := 1) (by omega)

/-- The sign bit of a code in its place. -/
def FloatFmt.signBit (f : FloatFmt) (neg : Bool) : Nat := if neg then 2 ^ (f.ebits + f.fbits) else 0

/-- A code is its sign, its exponent field and its fraction (R64). -/
theorem code_eq_fields (f : FloatFmt) {code : Nat} (h : code < 2 ^ (1 + f.ebits + f.fbits)) :
    f.signBit (code.testBit (f.ebits + f.fbits)) + (code >>> f.fbits) % 2 ^ f.ebits * 2 ^ f.fbits + code % 2 ^ f.fbits =
      code := by
  have hs : f.signBit (code.testBit (f.ebits + f.fbits)) = 2 ^ (f.ebits + f.fbits) * (code / 2 ^ (f.ebits + f.fbits)) := by
    have hlt : code / 2 ^ (f.ebits + f.fbits) < 2 :=
      Nat.div_lt_of_lt_mul (by rwa [← pow_succ, Nat.add_comm, ← Nat.add_assoc])
    rw [FloatFmt.signBit, Nat.testBit_eq_decide_div_mod_eq]
    generalize code / 2 ^ (f.ebits + f.fbits) = b at hlt
    interval_cases b <;> simp
  have hlow : (code >>> f.fbits) % 2 ^ f.ebits * 2 ^ f.fbits + code % 2 ^ f.fbits = code % 2 ^ (f.ebits + f.fbits) := by
    rw [Nat.shiftRight_eq_div_pow, Nat.add_comm f.ebits, Nat.pow_add, Nat.mod_mul, Nat.mul_comm, Nat.add_comm]
  rw [Nat.add_assoc, hs, hlow, Nat.div_add_mod]

/-! ### Rounding on the grid -/

/-- A magnitude whose exponent is at or above the place it is rounded to is exact in every mode (R85). -/
theorem roundAt_of_le (rnd : Rnd) (sr : Nat) (neg : Bool) (m : Nat) {e q : Int} (h : q ≤ e) :
    roundAt rnd sr neg m e q false = (m * 2 ^ (e - q).toNat, false) := by
  simp [roundAt, inUnits, roundUp, h]

/-- The last place of a magnitude that fills the precision is its own exponent. -/
theorem topExp_of_normal {f : FloatFmt} (hf : f.Binary) {m : Nat} {e : Int} (hlo : 2 ^ f.fbits ≤ m) (hhi : m < 2 ^ f.p) :
    topExp m e - (Int.ofNat f.p - 1) = e := by
  have hlog : m.log2 = f.fbits :=
    (Nat.log2_eq_iff (by have := Nat.two_pow_pos f.fbits; omega)).mpr ⟨hlo, by rwa [← hf.precision]⟩
  simp only [topExp, hlog, hf.precision, Int.ofNat_eq_natCast]
  omega

/-- The last place of a magnitude that does not fill the precision lies below its exponent. -/
theorem topExp_of_subnormal {f : FloatFmt} (hf : f.Binary) {m : Nat} {e : Int} (h0 : m ≠ 0) (hhi : m < 2 ^ f.fbits) :
    topExp m e - (Int.ofNat f.p - 1) < e := by
  have hlog : m.log2 < f.fbits := (Nat.log2_lt h0).mpr hhi
  simp only [topExp, hf.precision, Int.ofNat_eq_natCast]
  omega

theorem not_overflow {f : FloatFmt} (hf : f.Binary) {m : Nat} {e : Int} (hm : m < 2 ^ f.p) (he : e ≤ f.maxE) :
    magLt f.maxM f.maxE m e = false := by
  have hle : m ≤ f.maxM * 2 ^ (f.maxE - e).toNat :=
    (by rw [hf.max_mantissa]; omega : m ≤ f.maxM).trans (Nat.le_mul_of_pos_right _ (Nat.two_pow_pos _))
  simpa [magLt, he] using hle

/-- A finite value on the format's grid rounds to its own code without an exception: the place it is rounded to is its
exponent, nothing overflows, and nothing is flushed. -/
theorem roundFinite_of_grid {f : FloatFmt} (hf : f.Binary) (rnd : Rnd) (sat : Bool) (sr : Nat) (neg : Bool) {m : Nat}
    {e : Int} (h0 : m ≠ 0) (hm : m < 2 ^ f.p) (hmax : e ≤ f.maxE)
    (hgrid : 2 ^ f.fbits ≤ m ∧ f.qmin ≤ e ∨ m < 2 ^ f.fbits ∧ e = f.qmin ∧ f.flush = false) :
    roundFinite f rnd sat sr neg m e false = ⟨encodeFinite f neg m e, Exc.none⟩ := by
  have hq : (if topExp m e - (Int.ofNat f.p - 1) < f.qmin then f.qmin else topExp m e - (Int.ofNat f.p - 1)) = e := by
    obtain ⟨hlo, he⟩ | ⟨hlo, he, -⟩ := hgrid
    · rw [topExp_of_normal hf hlo hm, if_neg (not_lt.mpr he)]
    · rw [if_pos (he ▸ topExp_of_subnormal hf h0 hlo), he]
  have hflush : (f.flush && decide (0 < m) && decide (m < 2 ^ f.fbits) && decide (e = f.qmin)) = false := by
    obtain ⟨hlo, -⟩ | ⟨-, -, hfl⟩ := hgrid
    · simp [not_lt.mpr hlo]
    · simp [hfl]
  simp only [roundFinite, hq, hf.hidden_bit, roundAt_of_le rnd sr neg m le_rfl, sub_self, Int.toNat_zero, pow_zero, mul_one,
    not_overflow hf hm hmax, hflush]
  simp [h0, Exc.none]

/-! ### The code of a value on the grid -/

theorem encodeFinite_subnormal {f : FloatFmt} (hf : f.Binary) (neg : Bool) {m : Nat} {e : Int} (hm : m < 2 ^ f.fbits) :
    encodeFinite f neg m e = f.signBit neg + m := by
  have hne : m ≠ 2 ^ f.p := by have := hf.two_pow_precision; omega
  by_cases h0 : m = 0
  · subst h0; simp [encodeFinite, hf.has_negZero, hne, FloatFmt.signBit]
  · simp [encodeFinite, hne, h0, hf.hidden_bit, hm, FloatFmt.signBit]

theorem encodeFinite_normal {f : FloatFmt} (hf : f.Binary) (neg : Bool) {fr : Nat} (ef : Nat) (hfr : fr < 2 ^ f.fbits) :
    encodeFinite f neg (2 ^ f.fbits + fr) (f.qmin + ef - 1) = f.signBit neg + ef * 2 ^ f.fbits + fr := by
  have hne : 2 ^ f.fbits + fr ≠ 2 ^ f.p := by have := hf.two_pow_precision; omega
  have hexp : (f.qmin + ef - 1 - f.qmin + 1).toNat = ef := by omega
  simp [encodeFinite, hne, hf.hidden_bit, hexp, FloatFmt.signBit]

/-! ### Rounding to a code's fields -/

section
variable {f : FloatFmt} (hf : f.Binary) (rnd : Rnd) (sat : Bool) (sr : Nat) (neg : Bool)
include hf

theorem roundFinite_zero (e : Int) : roundFinite f rnd sat sr neg 0 e false = ⟨f.signBit neg, Exc.none⟩ := by
  simp [roundFinite, encodeFinite_subnormal hf neg (Nat.two_pow_pos _)]

theorem roundFinite_subnormal {fr : Nat} (h0 : fr ≠ 0) (hfr : fr < 2 ^ f.fbits) (hkeep : f.flush = false) :
    roundFinite f rnd sat sr neg fr f.qmin false = ⟨f.signBit neg + fr, Exc.none⟩ := by
  have hp := hf.two_pow_precision
  rw [roundFinite_of_grid hf rnd sat sr neg h0 (by omega) hf.qmin_le_max (.inr ⟨hfr, rfl, hkeep⟩),
    encodeFinite_subnormal hf neg hfr]

theorem roundFinite_normal {ef fr : Nat} (hlo : 1 ≤ ef) (hhi : ef + 2 ≤ 2 ^ f.ebits) (hfr : fr < 2 ^ f.fbits) :
    roundFinite f rnd sat sr neg (2 ^ f.fbits + fr) (f.qmin + ef - 1) false =
      ⟨f.signBit neg + ef * 2 ^ f.fbits + fr, Exc.none⟩ := by
  have hp := hf.two_pow_precision
  rw [roundFinite_of_grid hf rnd sat sr neg (by omega) (by omega) (hf.exponent_le_max hhi)
    (.inl ⟨Nat.le_add_right .., by omega⟩), encodeFinite_normal hf neg ef hfr]

end

/-! ### Decoding -/

/-- The value of a code of a binary format, by its exponent field and its fraction. -/
theorem decodeFloat_eq {f : FloatFmt} (hf : f.Binary) {code ef fr : Nat} {neg : Bool}
    (hneg : code.testBit (f.ebits + f.fbits) = neg) (hef : (code >>> f.fbits) % 2 ^ f.ebits = ef)
    (hfr : code % 2 ^ f.fbits = fr) :
    decodeFloat f code =
      if ef = 2 ^ f.ebits - 1 then if fr = 0 then .inf neg else .nan (!fr.testBit (f.fbits - 1))
      else if ef = 0 then if f.flush = true then .fin neg 0 0 else .fin neg fr f.qmin
      else .fin neg (2 ^ f.fbits + fr) (f.qmin + ef - 1) := by
  simp [decodeFloat, hf.has_specials, hf.has_negZero, hneg, hef, hfr]

/-- What a code that is no NaN, and no subnormal where they are flushed, stands for: an infinity, a zero, a subnormal or a
normal value (R64, R65, R68). -/
theorem decodeFloat_cases {f : FloatFmt} (hf : f.Binary) {code : Nat} (hnan : (decodeFloat f code).isNan = false)
    (hflush : f.flush = true → (code >>> f.fbits) % 2 ^ f.ebits = 0 → code % 2 ^ f.fbits = 0) :
    let neg := code.testBit (f.ebits + f.fbits)
    let ef := (code >>> f.fbits) % 2 ^ f.ebits
    let fr := code % 2 ^ f.fbits
    (ef = 2 ^ f.ebits - 1 ∧ fr = 0 ∧ decodeFloat f code = .inf neg) ∨
    (ef = 0 ∧ fr = 0 ∧ ∃ e, decodeFloat f code = .fin neg 0 e) ∨
    (ef = 0 ∧ fr ≠ 0 ∧ f.flush = false ∧ decodeFloat f code = .fin neg fr f.qmin) ∨
    (ef ≠ 0 ∧ ef ≠ 2 ^ f.ebits - 1 ∧ decodeFloat f code = .fin neg (2 ^ f.fbits + fr) (f.qmin + ef - 1)) := by
  intro neg ef fr
  have hfl : f.flush = true → ef = 0 → fr = 0 := hflush
  rw [decodeFloat_eq hf (neg := neg) (ef := ef) (fr := fr) rfl rfl rfl] at hnan ⊢
  clear_value ef fr
  by_cases htop : ef = 2 ^ f.ebits - 1
  · have hfr : fr = 0 := by
      by_contra hfr
      simp [htop, hfr, Num.isNan] at hnan
    exact .inl ⟨htop, hfr, by simp [htop, hfr]⟩
  by_cases hef : ef = 0
  · rw [if_neg htop, if_pos hef]
    by_cases hfr : fr = 0
    · exact .inr <| .inl ⟨hef, hfr, by split <;> simp [hfr]⟩
    · have hflushed : f.flush = false := Bool.eq_false_iff.mpr fun h => hfr (hfl h hef)
      exact .inr <| .inr <| .inl ⟨hef, hfr, hflushed, by simp [hflushed]⟩
  · exact .inr <| .inr <| .inr ⟨hef, htop, by rw [if_neg htop, if_neg hef]⟩

/-! ### Round trips -/

theorem roundExact_of_inf (f : FloatFmt) (rnd : Rnd) (sr : Nat) (neg : Bool) :
    roundExact f rnd sr (.of (.inf neg)) = ⟨f.signBit neg + (2 ^ f.ebits - 1) * 2 ^ f.fbits, Exc.none⟩ := rfl

theorem roundExact_of_fin (f : FloatFmt) (rnd : Rnd) (sr : Nat) (neg : Bool) (m : Nat) (e : Int) :
    roundExact f rnd sr (.of (.fin neg m e)) = roundFinite f rnd false sr neg m e false := by
  simp [roundExact, Exact.of, Exc.or, Exc.none]

/-- Settles O28: what each kind of code stands for rounds to the fields it was decoded from, and they make up the code. -/
theorem representableValuesRoundToThemselves : Obligations.RepresentableValuesRoundToThemselves := by
  intro f hmem rnd sr code hcode hnan hflush
  have hf := FloatFmt.binary_of_mem hmem
  have hfields := code_eq_fields f hcode
  have hfr : code % 2 ^ f.fbits < 2 ^ f.fbits := Nat.mod_lt _ (Nat.two_pow_pos _)
  have hef : (code >>> f.fbits) % 2 ^ f.ebits < 2 ^ f.ebits := Nat.mod_lt _ (Nat.two_pow_pos _)
  obtain ⟨hexp, hfrac, hdec⟩ | ⟨hexp, hfrac, e, hdec⟩ | ⟨hexp, hfrac, hkeep, hdec⟩ | ⟨hexp, htop, hdec⟩ :=
    decodeFloat_cases hf hnan hflush
  · rw [hexp, hfrac, Nat.add_zero] at hfields
    rw [hdec, roundExact_of_inf, hfields]
  · rw [hexp, hfrac, Nat.zero_mul, Nat.add_zero] at hfields
    rw [hdec, roundExact_of_fin, roundFinite_zero hf, hfields]
  · rw [hexp, Nat.zero_mul, Nat.add_zero] at hfields
    rw [hdec, roundExact_of_fin, roundFinite_subnormal hf rnd false sr _ hfrac hfr hkeep, hfields]
  · rw [hdec, roundExact_of_fin, roundFinite_normal hf rnd false sr _ (by omega) (by omega) hfr, hfields]

end Sys2Proof.Machine
end

section
/-! PROOF. Integer passes: the reduction of a column's products is their sum, their least or their greatest (R154, R156). -/

namespace Sys2Proof.Machine

theorem columnInt_sum (ps : List Int) : columnInt 0 ps = ps.sum := by
  cases ps with
  | nil => rfl
  | cons p t => rw [List.sum_eq_foldl, List.foldl_cons, zero_add]; rfl

theorem columnInt_min {ps : List Int} (h : ps ≠ []) : columnInt 1 ps ∈ ps ∧ ∀ z ∈ ps, columnInt 1 ps ≤ z := by
  cases ps with
  | nil => exact absurd rfl h
  | cons p t => exact List.min?_eq_some_iff.mp List.min?_cons'

theorem columnInt_max {ps : List Int} (h : ps ≠ []) : columnInt 2 ps ∈ ps ∧ ∀ z ∈ ps, z ≤ columnInt 2 ps := by
  cases ps with
  | nil => exact absurd rfl h
  | cons p t => exact List.max?_eq_some_iff.mp List.max?_cons'

/-- The sum of an integer pass, by the reduction and the products of its operation (R154). -/
theorem sumBits_integer {op red : Nat} {f : Int → Int → Int} (hred : redOf op = red) (hprod : prodInt op = f) (pw fmt : Nat)
    (row col : List Nat) :
    sumBits op pw true fmt fmt row [] col [] false =
      codeOf 32 (columnInt red (List.zipWith f (operandInts fmt row) (operandInts fmt col))) := by
  rw [sumBits, if_pos rfl, hred, List.map_zip_eq_zipWith, ← hprod]
  rfl

theorem sumBits_added {op : Nat} {f : Int → Int → Int} (hred : redOf op = 0) (hprod : prodInt op = f) (pw fmt : Nat)
    (row col : List Nat) :
    sumBits op pw true fmt fmt row [] col [] false =
      codeOf 32 (List.zipWith f (operandInts fmt row) (operandInts fmt col)).sum := by
  rw [sumBits_integer hred hprod, columnInt_sum]

/-- The products of two operands that have elements. -/
theorem zipWith_operandInts_ne_nil (f : Int → Int → Int) (fmt : Nat) {row col : List Nat} (hrow : row ≠ []) (hcol : col ≠ []) :
    List.zipWith f (operandInts fmt row) (operandInts fmt col) ≠ [] := by
  simp [operandInts, List.zipWith_eq_nil_iff, hrow, hcol]

theorem prodInt_l2sq : prodInt 2 = fun a b => (a - b) ^ 2 := by
  funext a b
  rw [sq]
  rfl

/-- Settles O22: each operation's products are the exact ones, reduced by a sum, a least or a greatest. -/
theorem integerPassesAreExact : Obligations.IntegerPassesAreExact := by
  intro fmt pw row col xs ys
  refine ⟨?_, ?_, ?_, ?_, fun hrow hcol => ⟨?_, ?_, ?_⟩⟩
  · exact sumBits_added rfl rfl ..
  · exact sumBits_added rfl rfl ..
  · exact sumBits_added rfl prodInt_l2sq ..
  · exact sumBits_added rfl rfl ..
  · exact ⟨_, sumBits_integer rfl rfl .., columnInt_min (zipWith_operandInts_ne_nil _ _ hrow hcol)⟩
  · exact ⟨_, sumBits_integer rfl rfl .., columnInt_max (zipWith_operandInts_ne_nil _ _ hrow hcol)⟩
  · exact ⟨_, sumBits_integer rfl rfl .., columnInt_max (zipWith_operandInts_ne_nil _ _ hrow hcol)⟩

end Sys2Proof.Machine
end

section
/-! PROOF. What issuing a command leaves of its core: only the core's place in the stream moves on, a wait or a freeze marks
the core and SEQ_STATE alone (R257, R258, R261, R265). -/

namespace Sys2Proof.Machine

/-! ### Arrays of cores -/

@[simp] theorem CoreState.array_setArray_same (c : CoreState) (a : Nat) (v : ArrayState) : (c.setArray a v).array a = v := by
  simp [CoreState.array, CoreState.setArray, Map.getD, Map.find_put_same]

@[simp] theorem coreOf_setArray (s : State) (k a : Nat) (v : ArrayState) :
    coreOf (setArray s k a v) k = (coreOf s k).setArray a v := coreOf_setCore_same ..

@[simp] theorem arrayOf_setArray_same (s : State) (k a : Nat) (v : ArrayState) : arrayOf (setArray s k a v) k a = v := by
  simp [arrayOf]

@[simp] theorem coreOf_flagCore (s : State) (k f : Nat) :
    coreOf (flagCore s k f) k = { coreOf s k with flags := setFlag (coreOf s k).flags f } := coreOf_setCore_same ..

/-- Arrays that are the same whole are the same one by one. -/
theorem arrayOf_of_arrays {s t : State} {k : Nat} (h : (coreOf t k).arrays = (coreOf s k).arrays) (a : Nat) :
    arrayOf t k a = arrayOf s k a := congrArg (fun m => Map.getD m a ArrayState.fresh) h

@[simp] theorem arrayOf_flagCore (s : State) (k f a : Nat) : arrayOf (flagCore s k f) k a = arrayOf s k a :=
  arrayOf_of_arrays (by simp) a

/-! ### What an effect keeps -/

theorem Effect.counter_same {w : List Part} {s t : State} (h : Effect w s t) (hw : Part.reg .seqSchedule ∉ w) (k : Nat) :
    counter t k = counter s k := h.frame.same _ hw _ _

theorem Effect.mem_same {w : List Part} {s t : State} (h : Effect w s t) (hw : Part.mem ∉ w) : t.mem = s.mem :=
  h.frame.same _ hw

/-! ### Onward in the stream -/

/-- A core at the same bundle of its stream or a later one, all else of it as before. -/
structure CoreState.Onward (c c' : CoreState) : Prop where
  bundle_le : c.bundle ≤ c'.bundle
  rest : c' = { c with
    bundle := c'.bundle, prevCycle := c'.prevCycle, buffer := c'.buffer, crc := c'.crc, markDone := c'.markDone
    wideDone := c'.wideDone }

theorem CoreState.Onward.refl (c : CoreState) : c.Onward c := ⟨le_rfl, rfl⟩

theorem CoreState.Onward.trans {c d e : CoreState} (h : c.Onward d) (h' : d.Onward e) : c.Onward e :=
  ⟨h.bundle_le.trans h'.bundle_le, by rw [h'.rest, h.rest]⟩

theorem CoreState.Onward.arrays {c c' : CoreState} (h : c.Onward c') : c'.arrays = c.arrays := by rw [h.rest]

theorem CoreState.onward_pass (c : CoreState) : c.Onward c.pass := ⟨Nat.le_succ _, rfl⟩

theorem passEmpty_onward (n : Nat) : ∀ (s : State) (k : Nat), (coreOf s k).Onward (coreOf (passEmpty n s k) k) := by
  induction n with
  | zero => exact fun s k => .refl _
  | succ n ih =>
    intro s k
    rw [passEmpty]
    split
    · exact (coreOf s k).onward_pass.trans (by simpa using ih (setCore s k (coreOf s k).pass) k)
    · exact .refl _

theorem nextOne_onward (s : State) (k : Nat) : (coreOf s k).pass.Onward (coreOf (nextOne s k) k) := by
  simpa [nextOne] using passEmpty_onward 8 (setCore s k (coreOf s k).pass) k

theorem wideIssued_onward (s : State) (k : Nat) : (coreOf s k).Onward (coreOf (wideIssued s k) k) := by
  rw [wideIssued]
  split
  · rw [coreOf_setCore_same]; exact ⟨le_rfl, rfl⟩
  · exact (coreOf s k).onward_pass.trans (nextOne_onward s k)

@[simp] theorem arrays_wideIssued (s : State) (k : Nat) : (coreOf (wideIssued s k) k).arrays = (coreOf s k).arrays :=
  (wideIssued_onward s k).arrays

@[simp] theorem arrayOf_wideIssued (s : State) (k a : Nat) : arrayOf (wideIssued s k) k a = arrayOf s k a :=
  arrayOf_of_arrays (arrays_wideIssued s k) a

@[simp] theorem mem_wideIssued (s : State) (k : Nat) : (wideIssued s k).mem = s.mem :=
  (wideIssued_effect s k).mem_same (by decide)

/-- A core's counter stands where it stood, and the same bundle is due. -/
structure SamePlace (s t : State) (k : Nat) : Prop where
  counter : counter t k = counter s k
  bundle : (coreOf t k).bundle = (coreOf s k).bundle
  buffer : (coreOf t k).buffer = (coreOf s k).buffer

theorem SamePlace.refl (s : State) (k : Nat) : SamePlace s s k := ⟨rfl, rfl, rfl⟩

theorem SamePlace.trans {s t u : State} {k : Nat} (h : SamePlace s t k) (h' : SamePlace t u k) : SamePlace s u k :=
  ⟨h'.counter.trans h.counter, h'.bundle.trans h.bundle, h'.buffer.trans h.buffer⟩

theorem SamePlace.setArray (s : State) (k a : Nat) (v : ArrayState) : SamePlace s (setArray s k a v) k :=
  ⟨rfl, by simp [CoreState.setArray], by simp [CoreState.setArray]⟩

theorem SamePlace.flagCore (s : State) (k f : Nat) : SamePlace s (flagCore s k f) k := ⟨rfl, by simp, by simp⟩

/-- The wide command of the bundle due issues from a state in which the core stands at the same place. -/
theorem SamePlace.wideIssued {s t : State} {k : Nat} (h : SamePlace s t k) : WideIssued s (wideIssued t k) k := by
  refine ⟨((wideIssued_effect t k).counter_same (by decide) k).trans h.counter, ?_⟩
  have hnext : nextBundle t k = nextBundle s k := by rw [nextBundle, h.buffer, nextBundle]
  rw [Machine.wideIssued, hnext]
  split
  · simp [h.bundle]
  · exact h.bundle ▸ (nextOne_onward t k).bundle_le

theorem wideIssued_issues (s : State) (k : Nat) : WideIssued s (wideIssued s k) k := (SamePlace.refl s k).wideIssued

/-! ### Freezes and waits -/

@[simp] theorem seqState_setSeqState (s : State) (k v : Nat) : seqState (setSeqState s k v) k = v % 16 :=
  rf_wf_same s F.seqState_state _ _ _ (by decide)

@[simp] theorem coreOf_setSeqState (s : State) (k v k' : Nat) : coreOf (setSeqState s k v) k' = coreOf s k' := rfl

@[simp] theorem coreOf_slipFor (s : State) (k n : Nat) (f : Nat → FreezeCond) :
    coreOf (slipFor s k n f) k = { coreOf s k with freeze := (coreOf s k).freeze ++ if n = 0 then [] else [f n] } := by
  unfold slipFor
  split
  · simp
  · simp [freezeCore]

theorem seqState_slipFor {n : Nat} (h : 0 < n) (s : State) (k : Nat) (f : Nat → FreezeCond) :
    seqState (slipFor s k n f) k = seqFrozen := by
  rw [slipFor, if_neg h.ne']
  exact seqState_setSeqState ..

@[simp] theorem arrayOf_slipFor (s : State) (k n a : Nat) (f : Nat → FreezeCond) :
    arrayOf (slipFor s k n f) k a = arrayOf s k a := arrayOf_of_arrays (by simp) a

@[simp] theorem mem_slipFor (s : State) (k n : Nat) (f : Nat → FreezeCond) : (slipFor s k n f).mem = s.mem :=
  (slipFor_effect s k n f).mem_same (by decide)

/-- Slip cycles after a wide command has issued leave it issued. -/
theorem WideIssued.slipFor {s t : State} {k : Nat} (h : WideIssued s t k) (n : Nat) (f : Nat → FreezeCond) :
    WideIssued s (slipFor t k n f) k := by
  obtain ⟨hcounter, hplace⟩ := h
  exact ⟨((slipFor_effect t k n f).counter_same (by decide) k).trans hcounter, by simpa using hplace⟩

@[simp] theorem coreOf_interlockFor (s : State) (k n : Nat) :
    coreOf (interlockFor s k n) k = { coreOf s k with interlocked := some ⟨n⟩ } := coreOf_setCore_same ..

@[simp] theorem seqState_interlockFor (s : State) (k n : Nat) : seqState (interlockFor s k n) k = seqFrozen :=
  seqState_setSeqState ..

/-- A command held at its engine's interlock: the core waits at the bundle due, and its arrays stay (R261). -/
theorem interlockFor_waits (s : State) (k n : Nat) :
    (coreOf (interlockFor s k n) k).interlocked = some ⟨n⟩ ∧ seqState (interlockFor s k n) k = seqFrozen ∧
      (coreOf (interlockFor s k n) k).bundle = (coreOf s k).bundle ∧
      (coreOf (interlockFor s k n) k).arrays = (coreOf s k).arrays := by
  simp

end Sys2Proof.Machine
end

section
/-! PROOF. FEED: its reads answer the bytes memory holds (R120, R131), and the lines land in the operand buffer in row order
(log entry 51). -/

namespace Sys2Proof.Machine

/-! ### Reads that meet no failure -/

theorem readEffects_of_readsWell {s : State} {base len : Nat} (h : readsWell s base len) :
    readEffects s .none base len = s := by
  simp only [readEffects, show failRow s .none base len = none from h]
  rfl

theorem memRead_of_visible {s : State} {base len : Nat} (h : hiddenIn s base len = []) (m : Master) :
    memRead s m base len = (memBytes s base len, s) := by
  rw [memRead, h]

/-- A part of some bytes of memory. -/
theorem take_drop_memBytes (s : State) (base : Nat) {i n len : Nat} (h : i + n ≤ len) :
    ((memBytes s base len).drop i).take n = memBytes s (base + i) n := by
  refine List.ext_getElem (by simp [memBytes, mapBytes]; omega) fun j _ _ => ?_
  simp [memBytes, mapBytes, Nat.add_assoc]

/-- The lines of one row of a FEED, with the bytes memory holds for them. -/
def feedRow (s : State) (f : Feed) (i : Nat) : List (Nat × Bytes) :=
  (List.range f.rowLines).map fun j =>
    (f.line + i * f.dstPitch + j, memBytes s (f.src + i * (f.srcPitch * 64) + 64 * j) 64)

theorem feedLines_eq_flatMap (s : State) (f : Feed) : feedLines s f = (List.range f.rows).flatMap (feedRow s f) := rfl

/-- Rows that read well are read one after another, and their reads leave the state as it is. -/
theorem feedRows_of_readsWell {s : State} {f : Feed} (h : feedReadsWell s f) : ∀ (n i : Nat) (acc : List (Nat × Bytes)),
    i + n = f.rows → feedRows f .none n i s acc = (acc ++ (List.range' i n).flatMap (feedRow s f), none, s) := by
  intro n
  induction n with
  | zero => simp [feedRows]
  | succ n ih =>
    intro i acc hi
    obtain ⟨hwell, hseen⟩ := h i (by omega)
    have hrow : ((List.range f.rowLines).map fun j => (f.line + i * f.dstPitch + j,
        ((memBytes s (f.src + i * (f.srcPitch * 64)) (f.rowLines * 64)).drop (64 * j)).take 64)) = feedRow s f i :=
      List.map_congr_left fun j hj => by
        have := List.mem_range.mp hj
        rw [take_drop_memBytes _ _ (by omega)]
    rw [List.range'_succ, List.flatMap_cons, ← List.append_assoc, ← ih (i + 1) _ (by omega), ← hrow, feedRows]
    simp only [show failRow s .none _ _ = none from hwell, readEffects_of_readsWell hwell, memRead_of_visible hseen]

/-- The reads of a FEED whose rows read well answer its lines. -/
theorem feedRead_of_readsWell {s : State} {f : Feed} (h : feedReadsWell s f) :
    feedRead s f .none = (feedLines s f, none, s) := by
  rw [feedRead, feedRows_of_readsWell h _ _ _ (Nat.zero_add _), feedLines_eq_flatMap, List.range_eq_range', List.nil_append]

/-! ### Guards armed by the reads -/

/-- The state where a core's guards alone may differ. -/
def GuardsOnly (s t : State) (k : Nat) : Prop :=
  ∃ cores guards, t = { s with cores := cores } ∧ coreOf t k = { coreOf s k with guards := guards }

theorem GuardsOnly.refl (s : State) (k : Nat) : GuardsOnly s s k := ⟨_, _, rfl, rfl⟩

theorem GuardsOnly.trans {s t u : State} {k : Nat} (h : GuardsOnly s t k) (h' : GuardsOnly t u k) : GuardsOnly s u k := by
  obtain ⟨m, g, rfl, hcore⟩ := h
  obtain ⟨m', g', rfl, hcore'⟩ := h'
  exact ⟨m', g', rfl, by rw [hcore', hcore]⟩

theorem armGuards_guardsOnly (s : State) (k bundle base len : Nat) : GuardsOnly s (armGuards s k bundle base len) k := by
  unfold armGuards
  extract_lets window arm
  split
  · exact ⟨_, _, rfl, coreOf_setCore_same ..⟩
  · exact .refl s k

theorem feedArms_guardsOnly (s : State) (k bundle : Nat) (f : Feed) : GuardsOnly s (feedArms s k bundle f) k := by
  rw [feedArms]
  generalize List.range f.rows = l
  induction l generalizing s with
  | nil => exact .refl s k
  | cons i l ih => exact (armGuards_guardsOnly ..).trans (ih _)

theorem GuardsOnly.samePlace {s t : State} {k : Nat} (h : GuardsOnly s t k) : SamePlace s t k := by
  obtain ⟨m, g, rfl, hcore⟩ := h
  exact ⟨rfl, by rw [hcore], by rw [hcore]⟩

theorem GuardsOnly.arrays {s t : State} {k : Nat} (h : GuardsOnly s t k) : (coreOf t k).arrays = (coreOf s k).arrays := by
  obtain ⟨m, g, -, hcore⟩ := h
  rw [hcore]

theorem GuardsOnly.feeds {s t : State} {k : Nat} (h : GuardsOnly s t k) : (coreOf t k).feeds = (coreOf s k).feeds := by
  obtain ⟨m, g, -, hcore⟩ := h
  rw [hcore]

theorem GuardsOnly.mem {s t : State} {k : Nat} (h : GuardsOnly s t k) : t.mem = s.mem := by
  obtain ⟨m, g, rfl, -⟩ := h
  rfl

/-- The reads of a FEED with its guards armed: memory and the checks of its rows do not depend on the cores. -/
theorem feedRead_of_guardsOnly {s t : State} {k : Nat} (ht : GuardsOnly s t k) {f : Feed} (h : feedReadsWell s f) :
    feedRead t f .none = (feedLines s f, none, t) := by
  obtain ⟨m, g, rfl, -⟩ := ht
  exact feedRead_of_readsWell h

/-! ### Lines land -/

theorem opbuf_bufWrites (a : ArrayState) (lines : List (Nat × Bytes)) :
    (lines.foldl (fun st e => bufWrite st e.1 e.2) a).opbuf =
      lines.foldl (fun m e => putBytes m (64 * e.1) e.2) a.opbuf :=
  (List.foldl_hom ArrayState.opbuf fun _ _ => rfl).symm

/-- A FEED's lines reach the buffer from a state in which the core stands where it stood, and its wide command issues. -/
theorem feedLand_issues {s t : State} {k a : Nat} (h : SamePlace s t k) (ha : arrayOf t k a = arrayOf s k a)
    (hm : t.mem = s.mem) (late : Nat) (lines : List (Nat × Bytes)) :
    let u := slipFor (wideIssued (feedLand t k a lines) k) k late .feedLate
    (arrayOf u k a).opbuf = lines.foldl (fun m e => putBytes m (64 * e.1) e.2) (arrayOf s k a).opbuf ∧
      WideIssued s u k ∧ u.mem = s.mem := by
  refine ⟨?_, (h.trans (.setArray ..)).wideIssued.slipFor .., ?_⟩
  · rw [arrayOf_slipFor, arrayOf_wideIssued, feedLand, arrayOf_setArray_same, ha]
    exact opbuf_bufWrites ..
  · rw [mem_slipFor, mem_wideIssued]
    exact hm

/-! ### The commands -/

section
variable {c : CoreRef} {w : Nat} {s : State} (hnext : nextWide s (coreKey c) engArray = some w) (hop : opcodeOf w = 1)
include hnext hop

theorem exec_feed_idle {late : Nat} (h : (Feed.of w).moves = false ∨
    feedArrived (coreOf s (coreKey c)) (coreOf s (coreKey c)).bundle = true) :
    exec (.feed c late .none) s = .next (wideIssued s (coreKey c)) := by
  show execFeed c late .none s = _
  simp only [execFeed, hnext, hop]
  rw [if_neg (by simp), if_pos (by simpa using h)]

variable (hmoves : (Feed.of w).moves = true)
  (harrived : feedArrived (coreOf s (coreKey c)) (coreOf s (coreKey c)).bundle = false)
include hmoves harrived

theorem exec_feed_reads {late : Nat} (hnone : ∀ r ∈ (coreOf s (coreKey c)).feeds, r.bundle ≠ (coreOf s (coreKey c)).bundle)
    (hwell : feedReadsWell s (Feed.of w)) :
    exec (.feed c late .none) s = .next (slipFor (wideIssued (feedLand
      (feedArms s (coreKey c) (coreOf s (coreKey c)).bundle (Feed.of w)) (coreKey c) (Feed.of w).array
      (feedLines s (Feed.of w))) (coreKey c)) (coreKey c) late .feedLate) := by
  have hfind : (coreOf s (coreKey c)).feeds.find? (fun r => r.bundle = (coreOf s (coreKey c)).bundle) = none := by
    simpa [List.find?_eq_none] using hnone
  show execFeed c late .none s = _
  simp [execFeed, hnext, hop, hmoves, harrived, hfind, feedRead_of_guardsOnly (feedArms_guardsOnly ..) hwell]

theorem exec_feed_ahead {late : Nat} {r : FeedRead}
    (hfind : (coreOf s (coreKey c)).feeds.find? (fun r => r.bundle = (coreOf s (coreKey c)).bundle) = some r) :
    ∃ l, exec (.feed c late .none) s = .next (slipFor (wideIssued (feedLand
      (setCore s (coreKey c) { coreOf s (coreKey c) with feeds := l }) (coreKey c) (Feed.of w).array r.lines)
      (coreKey c)) (coreKey c) late .feedLate) := by
  refine ⟨(coreOf s (coreKey c)).feeds.filter fun x => x.bundle ≠ (coreOf s (coreKey c)).bundle, ?_⟩
  show execFeed c late .none s = _
  simp [execFeed, hnext, hop, hmoves, harrived, hfind]

end

/-- The state in which the feed scanner reads: the guards of the present window are armed (R272, R277). -/
def feedScanned (s : State) (k bundle : Nat) (f : Feed) : State :=
  if inWindow s k bundle then feedArms s k bundle f else s

theorem feedScanned_guardsOnly (s : State) (k bundle : Nat) (f : Feed) : GuardsOnly s (feedScanned s k bundle f) k := by
  rw [feedScanned]
  split
  · exact feedArms_guardsOnly ..
  · exact .refl ..

/-- The reads of a FEED that is owed and reads well stand last among the core's feeds (R131, R278). -/
theorem exec_feedReadIssue {c : CoreRef} {bundle : Nat} {p : Placed} {f : Feed} {s : State}
    (hruns : runs s (coreKey c) = true) (hdue : bundleDue s (coreKey c) = false)
    (hfind : (feedsOwed s (coreKey c)).find? (fun x => x.1.index = bundle) = some (p, f)) (hwell : feedReadsWell s f) :
    let t := feedScanned s (coreKey c) bundle f
    exec (.feedReadIssue c bundle .none) s = .next (setCore t (coreKey c) { coreOf t (coreKey c) with
      feeds := (coreOf t (coreKey c)).feeds ++ [⟨bundle, p.b.wide, counter t (coreKey c), f.array, feedLines s f⟩] }) := by
  have hread := feedRead_of_guardsOnly (feedScanned_guardsOnly s (coreKey c) bundle f) hwell
  rw [feedScanned] at hread
  show execFeedReadIssue c bundle .none s = _
  simp [execFeedReadIssue, hruns, hdue, hfind, hread, feedScanned]

/-- Settles O19: a FEED lands the lines of memory, or those read ahead, and the reads made ahead wait with the core. -/
theorem feedsFillTheOperandBuffer : Obligations.FeedsFillTheOperandBuffer := by
  constructor
  · intro c w late s
    dsimp only
    intro hnext hop
    refine ⟨fun h => ⟨_, exec_feed_idle hnext hop h, wideIssued_issues .., by rw [arrayOf_wideIssued], mem_wideIssued ..⟩,
      fun hmoves harrived => ⟨fun hnone hwell => ⟨_, exec_feed_reads hnext hop hmoves harrived hnone hwell, ?_⟩,
        fun r hfind => ?_⟩⟩
    · have harm := feedArms_guardsOnly s (coreKey c) (coreOf s (coreKey c)).bundle (Feed.of w)
      obtain ⟨hbuf, hissued, hmem⟩ :=
        feedLand_issues harm.samePlace (arrayOf_of_arrays harm.arrays _) harm.mem late (feedLines s (Feed.of w))
      exact ⟨hbuf, hissued, hmem, fun hlate => ⟨by simp [hlate.ne'], seqState_slipFor hlate ..⟩⟩
    · obtain ⟨l, hexec⟩ := exec_feed_ahead (late := late) hnext hop hmoves harrived hfind
      have hplace : SamePlace s (setCore s (coreKey c) { coreOf s (coreKey c) with feeds := l }) (coreKey c) :=
        ⟨rfl, by simp, by simp⟩
      exact ⟨_, hexec, feedLand_issues hplace (arrayOf_of_arrays (by simp) _) rfl late r.lines⟩
  · intro c bundle p f s
    dsimp only
    intro hruns hdue hfind hwell
    have harm := feedScanned_guardsOnly s (coreKey c) bundle f
    refine ⟨_, exec_feedReadIssue hruns hdue hfind hwell, ?_⟩
    simp only [coreOf_setCore_same, harm.feeds, harm.arrays, harm.samePlace.bundle]
    exact ⟨⟨_, rfl, rfl, rfl, rfl⟩, trivial, trivial, harm.mem⟩

end Sys2Proof.Machine
end

section
/-! PROOF. Cells of an accumulator: an entry set, and a list of cells each of which an operation changes alone (R175). -/

namespace Sys2Proof.Machine

/-- Entries stand row by row, 128 to a row. -/
theorem entryKey_ne {row col row' col' : Nat} (h : col < 128) (h' : col' < 128) (hne : (row', col') ≠ (row, col)) :
    entryKey row' col' ≠ entryKey row col := by
  intro e
  unfold entryKey at e
  exact hne (Prod.ext (by dsimp only; omega) (by dsimp only; omega))

/-- Entries depend on the accumulator alone. -/
theorem entryOf_of_acc {a b : ArrayState} (h : b.acc = a.acc) (row col : Nat) : entryOf b row col = entryOf a row col := by
  rw [entryOf, h, entryOf]

@[simp] theorem entryOf_setEntry_same (a : ArrayState) (row col : Nat) (e : AccEntry) :
    entryOf (setEntry a row col e) row col = e := by
  simp [entryOf, setEntry, Map.getD, Map.find_put_same]

theorem entryOf_setEntry_ne (a : ArrayState) {row col row' col' : Nat} (e : AccEntry) (h : col < 128) (h' : col' < 128)
    (hne : (row', col') ≠ (row, col)) : entryOf (setEntry a row col e) row' col' = entryOf a row' col' := by
  simp [entryOf, setEntry, Map.getD, Map.find_put_ne _ _ _ _ (entryKey_ne h h' hne)]

/-- An operation on the cell at a place: it changes that entry alone, by what the entry was. -/
structure CellOp (f : ArrayState → ArrayState) (place : Nat × Nat) : Prop where
  other : ∀ a row col, col < 128 → (row, col) ≠ place → entryOf (f a) row col = entryOf a row col
  own : ∀ a b, entryOf a place.1 place.2 = entryOf b place.1 place.2 →
    entryOf (f a) place.1 place.2 = entryOf (f b) place.1 place.2

section
variable {α : Type} {f : ArrayState → α → ArrayState} {place : α → Nat × Nat}

/-- A cell that is none of those an operation runs over keeps its entry. -/
theorem entryOf_foldl_other {l : List α} (hf : ∀ x ∈ l, CellOp (fun a => f a x) (place x)) {row col : Nat} (hcol : col < 128)
    (hne : ∀ x ∈ l, (row, col) ≠ place x) (a : ArrayState) : entryOf (l.foldl f a) row col = entryOf a row col := by
  induction l generalizing a with
  | nil => rfl
  | cons x l ih =>
    obtain ⟨hx, hl⟩ := List.forall_mem_cons.mp hf
    obtain ⟨hnx, hnl⟩ := List.forall_mem_cons.mp hne
    rw [List.foldl_cons, ih hl hnl, hx.other _ _ _ hcol hnx]

/-- Each cell that an operation runs over once is what the operation alone makes of it. -/
theorem entryOf_foldl_own {l : List α} (hf : ∀ x ∈ l, CellOp (fun a => f a x) (place x)) (hcol : ∀ x ∈ l, (place x).2 < 128)
    (hl : (l.map place).Nodup) {x : α} (hx : x ∈ l) (a : ArrayState) :
    entryOf (l.foldl f a) (place x).1 (place x).2 = entryOf (f a x) (place x).1 (place x).2 := by
  induction l generalizing a with
  | nil => exact absurd hx List.not_mem_nil
  | cons y l ih =>
    obtain ⟨hfy, hfl⟩ := List.forall_mem_cons.mp hf
    obtain ⟨-, hcl⟩ := List.forall_mem_cons.mp hcol
    obtain ⟨hy, hnd⟩ := List.nodup_cons.mp hl
    have hapart : ∀ z ∈ l, place y ≠ place z := fun z hz e => hy (e ▸ List.mem_map_of_mem hz)
    rw [List.foldl_cons]
    obtain rfl | hxl := List.mem_cons.mp hx
    · exact entryOf_foldl_other hfl (hcol x hx) hapart _
    · rw [ih hfl hcl hnd hxl]
      exact (hfl x hxl).own _ _ (hfy.other _ _ _ (hcol x hx) (hapart x hxl).symm)

end

end Sys2Proof.Machine
end

section
/-! PROOF. MLOAD and PLATE: the next tile's load (R140, R145, R160), and rows bound with their fresh bits (R180, R184). -/

namespace Sys2Proof.Machine

/-! ### MLOAD -/

/-- The core once the degradation of an MLOAD is decided (R160). -/
def loadDecided (s : State) (k : Nat) (m : Mload) : State :=
  if m.degradable && !((coreOf s k).degraded.any fun e => e.1 = (coreOf s k).bundle) then
    setCore s k { coreOf s k with
      degraded := (coreOf s k).degraded ++ [((coreOf s k).bundle, degradeNow s (coreOf s k) m)] }
  else s

theorem loadDecided_samePlace (s : State) (k : Nat) (m : Mload) : SamePlace s (loadDecided s k m) k := by
  unfold loadDecided
  split
  · exact ⟨rfl, by simp, by simp⟩
  · exact .refl s k

theorem mem_loadDecided (s : State) (k : Nat) (m : Mload) : (loadDecided s k m).mem = s.mem := by
  unfold loadDecided
  split <;> rfl

theorem pathStatus_loadDecided (s : State) (k : Nat) (m : Mload) (a : Nat) :
    pathStatus (loadDecided s k m) k a = pathStatus s k a := by
  unfold loadDecided
  split <;> rfl

section
variable {c : CoreRef} {w : Nat} {s : State} (hnext : nextWide s (coreKey c) engArray = some w) (hop : opcodeOf w = 2)
include hnext hop

theorem exec_mload_waits :
    let a := arrayOf s (coreKey c) (Mload.of w).array
    a.clock < loadStart a a.clock →
      exec (.mload c .none .none) s = .next (interlockFor s (coreKey c) (loadStart a a.clock - a.clock).toNat) := by
  dsimp only
  intro h
  show execMload c .none .none s = _
  simp [execMload, hnext, hop, h]

theorem exec_mload_starts :
    let k := coreKey c
    let m := Mload.of w
    let a := arrayOf s k m.array
    loadStart a a.clock ≤ a.clock →
      exec (.mload c .none .none) s = .next (wideIssued (setArray (loadDecided s k m) k m.array
        (loadArray a (coreOf s k).bundle w (degradeNow s (coreOf s k) m) (pathStatus s k m.array = 1) .none .none)) k) := by
  dsimp only
  intro h
  rw [← pathStatus_loadDecided s _ (Mload.of w)]
  show execMload c .none .none s = _
  simp only [execMload, hnext, hop, ne_eq, not_true_eq_false, if_false, if_neg (not_lt.mpr h)]
  rfl

end

/-- A load that meets no parity failure starts once, over the path of its array (R140, R145). -/
theorem loadPlan_none (bc : Bool) (m : Mload) (q : Int) : loadPlan bc m q .none = ⟨[(q, bc)], []⟩ := by
  unfold loadPlan
  split
  · rfl
  · cases bc <;> simp [LoadFaults.none]

/-! ### PLATE -/

/-- The rows and the cells of a PLATE, row by row. -/
def Plate.rowList (p : Plate) : List Nat := (List.range p.m).map (p.accRow + ·)
def Plate.cells (p : Plate) : List (Nat × Nat) := p.rowList.product (List.range p.n)

theorem Plate.mem_rowList (p : Plate) (r : Nat) : r ∈ p.rowList ↔ p.accRow ≤ r ∧ r < p.accRow + p.m := by
  simp only [Plate.rowList, List.mem_map, List.mem_range]
  exact ⟨by rintro ⟨i, hi, rfl⟩; omega, fun ⟨hlo, hhi⟩ => ⟨r - p.accRow, by omega, by omega⟩⟩

theorem Plate.mem_cells (p : Plate) (r col : Nat) :
    (r, col) ∈ p.cells ↔ (p.accRow ≤ r ∧ r < p.accRow + p.m) ∧ col < p.n := by
  rw [Plate.cells, List.pair_mem_product, p.mem_rowList, List.mem_range]

theorem Plate.nodup_cells (p : Plate) : p.cells.Nodup :=
  (List.nodup_range.map (add_right_injective p.accRow)).product List.nodup_range

/-- A cell's fresh bit made equal to init. -/
def setFresh (init : Bool) (a : ArrayState) (x : Nat × Nat) : ArrayState :=
  if (entryOf a x.1 x.2).fresh = init then a else setEntry a x.1 x.2 { entryOf a x.1 x.2 with fresh := init }

theorem entryOf_setFresh_same (init : Bool) (a : ArrayState) (x : Nat × Nat) :
    entryOf (setFresh init a x) x.1 x.2 = { entryOf a x.1 x.2 with fresh := init } := by
  unfold setFresh
  split
  next h => rw [← h]
  · exact entryOf_setEntry_same ..

theorem setFresh_cellOp (init : Bool) {x : Nat × Nat} (hx : x.2 < 128) : CellOp (fun a => setFresh init a x) x where
  other a row col hcol hne := by
    unfold setFresh
    split
    · rfl
    · exact entryOf_setEntry_ne _ _ hx hcol hne
  own a b h := by rw [entryOf_setFresh_same, entryOf_setFresh_same, h]

/-- Rows of a list bound to one binding, the others as they were. -/
theorem find_foldl_put {α : Type} (v : α) (l : List Nat) (m : Map α) (r : Nat) :
    Map.find (l.foldl (fun m r => Map.put m r v) m) r = if r ∈ l then some v else Map.find m r := by
  induction l generalizing m with
  | nil => simp
  | cons x l ih =>
    rw [List.foldl_cons, ih]
    by_cases hl : r ∈ l
    · simp [hl]
    · by_cases hx : r = x
      · simp [hx, Map.find_put_same]
      · simp [hl, hx, Map.find_put_ne _ _ _ _ hx]

/-- The array of a PLATE of effect before its fresh bits are set (R184, R185). -/
def plateBound (st : ArrayState) (p : Plate) : ArrayState :=
  { st with
    bound := p.rowList.foldl (fun m r => Map.put m r p.binding) st.bound
    merged := st.merged.filter fun r => !p.rowList.contains r }

theorem plateArray_eq (st : ArrayState) (p : Plate) :
    plateArray st p = p.cells.foldl (setFresh p.init) (plateBound st p) := rfl

theorem bound_foldl_setFresh (init : Bool) (l : List (Nat × Nat)) (a : ArrayState) :
    (l.foldl (setFresh init) a).bound = a.bound := by
  induction l generalizing a with
  | nil => rfl
  | cons x l ih =>
    rw [List.foldl_cons, ih, setFresh]
    split <;> rfl

theorem find_bound_plateArray (st : ArrayState) (p : Plate) (r : Nat) :
    Map.find (plateArray st p).bound r =
      if p.accRow ≤ r ∧ r < p.accRow + p.m then some p.binding else Map.find st.bound r := by
  simp only [plateArray_eq, bound_foldl_setFresh, ← p.mem_rowList]
  exact find_foldl_put ..

section
variable {p : Plate} (hn : p.n ≤ 128) (st : ArrayState)
include hn

theorem plate_cellOps : ∀ x ∈ p.cells, CellOp (fun a => setFresh p.init a x) (id x) := fun x hx =>
  setFresh_cellOp p.init (((p.mem_cells x.1 x.2).mp hx).2.trans_le hn)

theorem entryOf_plateArray_inside {i col : Nat} (hi : i < p.m) (hcol : col < p.n) :
    entryOf (plateArray st p) (p.accRow + i) col = { entryOf st (p.accRow + i) col with fresh := p.init } := by
  have hmem : (p.accRow + i, col) ∈ p.cells := (p.mem_cells _ _).mpr ⟨by omega, hcol⟩
  rw [plateArray_eq]
  refine (entryOf_foldl_own (plate_cellOps hn) (fun x hx => ((p.mem_cells x.1 x.2).mp hx).2.trans_le hn)
    (by simpa using p.nodup_cells) hmem _).trans ?_
  exact entryOf_setFresh_same ..

theorem entryOf_plateArray_outside {r col : Nat} (hcol : col < 128) (h : r < p.accRow ∨ p.accRow + p.m ≤ r ∨ p.n ≤ col) :
    entryOf (plateArray st p) r col = entryOf st r col := by
  rw [plateArray_eq]
  refine entryOf_foldl_other (plate_cellOps hn) hcol (fun x hx e => ?_) _
  obtain ⟨hrow, hcol'⟩ := (p.mem_cells r col).mp (e ▸ hx)
  omega

end

section
variable {c : CoreRef} {w : Nat} {s : State} (hnext : nextWide s (coreKey c) engAcc = some w) (hop : opcodeOf w = 1)
include hnext hop

theorem exec_plate_acts (h : (Plate.of w).acts = true) :
    exec (.plate c) s = .next (wideIssued (setArray s (coreKey c) (Plate.of w).array
      (plateArray (arrayOf s (coreKey c) (Plate.of w).array) (Plate.of w))) (coreKey c)) := by
  show execPlate c s = _
  simp [execPlate, hnext, hop, h]

theorem exec_plate_idle (h : (Plate.of w).acts = false) : exec (.plate c) s = .next (wideIssued s (coreKey c)) := by
  show execPlate c s = _
  simp [execPlate, hnext, hop, h]

end

/-- Settles O20: a load that starts puts its tile behind the active one, and a PLATE's cells are apart, so that each has its
fresh bit set once. -/
theorem tilesAndPlatesComplete : Obligations.TilesAndPlatesComplete := by
  constructor
  · intro c w s
    dsimp only
    intro hnext hop
    refine ⟨fun h => ⟨_, exec_mload_starts hnext hop h, ?_⟩,
      fun h => ⟨_, exec_mload_waits hnext hop h, interlockFor_waits ..⟩⟩
    simp only [arrayOf_wideIssued, arrayOf_setArray_same, mem_wideIssued, loadArray, loadPlan_none]
    exact ⟨rfl, rfl, ⟨_, List.mem_append_right _ (List.mem_singleton_self _), rfl, rfl, rfl, rfl, rfl⟩, trivial, trivial,
      trivial, ((loadDecided_samePlace ..).trans (.setArray ..)).wideIssued, mem_loadDecided ..⟩
  · intro c w s
    dsimp only
    intro hnext hop hn
    refine ⟨fun h => ⟨_, exec_plate_acts hnext hop h, (SamePlace.setArray ..).wideIssued, mem_wideIssued .., ?_⟩,
      fun h => ⟨_, exec_plate_idle hnext hop h, wideIssued_issues .., arrayOf_wideIssued ..⟩⟩
    simp only [arrayOf_wideIssued, arrayOf_setArray_same, find_bound_plateArray]
    refine ⟨fun i hi => if_pos (by omega), fun r hr => if_neg (by omega), fun i hi col hcol => ?_, fun r col hcol hr => ?_⟩
    · exact entryOf_plateArray_inside hn _ hi hcol
    · exact entryOf_plateArray_outside hn _ hcol hr

end Sys2Proof.Machine
end

section
/-! PROOF. MPASS: the start of a pass (R125, R136, R149), the cycles of its accumulator writes (R136) and the merge of each
cell (R139, R178, R186). -/

namespace Sys2Proof.Machine

/-! ### The start of a pass -/

/-- A stall counted leaves the core at its place. -/
theorem counter_bump_stall (s : State) (k a n : Nat) :
    counter (bump s (stallReg a) (k / 24) (k % 24) n) k = counter s k :=
  (bump_stall_effect ..).counter_same (by decide) k

theorem SamePlace.bump_stall (s : State) (k a n : Nat) : SamePlace s (bump s (stallReg a) (k / 24) (k % 24) n) k :=
  ⟨counter_bump_stall .., rfl, rfl⟩

section
variable {s : State} {k op w : Nat} (hnext : nextPass s k op = some w)
include hnext

theorem runPass_empty (lf : LineFaults) (h : (Mpass.of w).m = 0 ∨ (arrayOf s k (Mpass.of w).array).tile.n = 0) :
    runPass s k op lf = wideIssued s k := by
  simp [runPass, hnext, h]

variable (hm : (Mpass.of w).m ≠ 0) (hn : (arrayOf s k (Mpass.of w).array).tile.n ≠ 0)
include hm hn

theorem runPass_waits (lf : LineFaults) :
    let p := Mpass.of w
    let a := arrayOf s k p.array
    let start := passStart s k p.array a.clock (intervalOf p.fmt)
    a.clock < start → runPass s k op lf = interlockFor s k (start - a.clock).toNat := by
  dsimp only
  intro h
  simp [runPass, hnext, hm, hn, h]

/-- A pass that starts sets its array and issues; beside that a stall may be counted, and DEGRADED set. -/
theorem runPass_starts (lf : LineFaults) :
    let p := Mpass.of w
    let a := arrayOf s k p.array
    passStart s k p.array a.clock (intervalOf p.fmt) ≤ a.clock →
      ∃ t, SamePlace s t k ∧ runPass s k op lf = wideIssued t k ∧ arrayOf t k p.array =
        passArray a p (coreOf s k).bundle w (counter s k) (redoing (coreOf s k) (counter s k)) lf := by
  dsimp only
  intro h
  simp only [runPass, hnext, hm, hn, not_lt.mpr h, counter_bump_stall, decide_false, Bool.false_or, Bool.false_eq_true,
    if_false]
  split
  · exact ⟨_, (SamePlace.bump_stall ..).trans ((SamePlace.setArray ..).trans (.flagCore ..)), rfl,
      by rw [arrayOf_flagCore, arrayOf_setArray_same]⟩
  · exact ⟨_, (SamePlace.bump_stall ..).trans (.setArray ..), rfl, arrayOf_setArray_same ..⟩

end

theorem mem_runPass (s : State) (k op : Nat) (lf : LineFaults) : (runPass s k op lf).mem = s.mem :=
  (runPass_effect s k op lf).mem_same (by decide)

/-- The seven MPASS commands run the pass of their operation (R154). -/
theorem exec_mpass {c : CoreRef} {i : Instr} {op : Nat} (s : State)
    (h : (i, op) ∈ [(Instr.mpassMac c .none, 0), (.mpassL1 c .none, 1), (.mpassL2sq c .none, 2), (.mpassMinplus c .none, 3),
      (.mpassMaxplus c .none, 4), (.mpassMaxmin c .none, 5), (.mpassMatch c .none, 6)]) :
    exec i s = .next (runPass s (coreKey c) op .none) := by
  simp only [List.mem_cons, Prod.mk.injEq, List.not_mem_nil, or_false] at h
  rcases h with ⟨rfl, rfl⟩ | ⟨rfl, rfl⟩ | ⟨rfl, rfl⟩ | ⟨rfl, rfl⟩ | ⟨rfl, rfl⟩ | ⟨rfl, rfl⟩ | ⟨rfl, rfl⟩ <;> rfl

/-! ### The cycles of a pass's writes -/

theorem writeCycle_zero_add (t : Int) (m n interval kRows : Nat) :
    writeCycle t m 0 interval kRows + n = writeCycle t m n interval kRows := by
  simp only [writeCycle]
  omega

/-- The column of a row that is written in cycle x, where column 0 is written in cycle w. -/
theorem rowDue_eq_some_iff {x w : Int} {cols m m' n : Nat} :
    (if 0 ≤ x - w && x - w < cols then some (m', (x - w).toNat) else none) = some (m, n) ↔
      m' = m ∧ n < cols ∧ x = w + n := by
  simp only [Bool.and_eq_true, decide_eq_true_eq, Option.ite_none_right_eq_some, Option.some.injEq, Prod.mk.injEq]
  omega

/-- A cell's write falls in the cycle that its row and its column give, in a pass that merges (R136). -/
theorem mem_due (r : PassRun) (x : Int) (m n : Nat) :
    (m, n) ∈ r.due x ↔ m < r.pass.m ∧ n < r.tile.n ∧ (r.tile.k ≠ 0 ∨ r.pass.clear = true) ∧
      x = writeCycle r.start m n (intervalOf r.pass.fmt) r.tile.kRows := by
  have hmerges : r.pass.merges r.tile = true ↔ r.tile.k ≠ 0 ∨ r.pass.clear = true := by simp [Mpass.merges]
  rw [← hmerges, PassRun.due]
  split
  next h =>
    simp only [List.mem_filterMap, List.mem_range, rowDue_eq_some_iff, h, true_and]
    constructor
    · rintro ⟨m, hm, rfl, hn, rfl⟩
      exact ⟨hm, hn, writeCycle_zero_add ..⟩
    · rintro ⟨hm, hn, rfl⟩
      exact ⟨m, hm, rfl, hn, (writeCycle_zero_add ..).symm⟩
  next h => simp [h]

/-- The cells written in one cycle lie in rows of their own. -/
theorem nodup_due (r : PassRun) (x : Int) : (r.due x).Nodup := by
  rw [PassRun.due]
  split
  · refine List.Nodup.filterMap (fun m m' c hc hc' => ?_) List.nodup_range
    simp only [Option.mem_def, Option.ite_none_right_eq_some, Option.some.injEq] at hc hc'
    exact congrArg Prod.fst (hc.2.trans hc'.2.symm)
  · exact List.nodup_nil

/-! ### The merge of a cell -/

/-- What a sum merged into an entry under a binding leaves of it (R139, R178, R186). -/
def mergedEntry (p : PassMerge) (b : Binding) (e : AccEntry) (sum : Nat) : AccEntry :=
  let new := p.clear || e.empty
  let v := if new then sum else joinEntry p.red p.integer e.value.toNat sum
  let tally := if new then p.k else e.tally + p.k
  if p.k ≠ 0 && decide (b.exposure ≤ tally) then
    { e with value := 0, check := 0, empty := true, tally := 0, reduction := BitVec.ofNat 2 p.red }
  else
    { e with value := BitVec.ofNat 36 v, check := BitVec.ofNat 5 (residueOf p.integer v), empty := false, tally := tally
             reduction := BitVec.ofNat 2 p.red }

/-- A merge sets the entry of its cell, in a bound row alone, and leaves the operand buffer. -/
theorem mergeEntry_eq (p : PassMerge) (bound : Map Binding) (a : ArrayState) (row col sum cycle : Nat) (due : Int) :
    (mergeEntry p bound a row col sum cycle due).opbuf = a.opbuf ∧
    (mergeEntry p bound a row col sum cycle due).acc = (Map.find bound row).elim a.acc fun b =>
      (setEntry a row col (mergedEntry p b (entryOf a row col) sum)).acc := by
  unfold mergeEntry mergedEntry
  extract_lets e new v tally a'
  have ha : a'.opbuf = a.opbuf ∧ a'.acc = a.acc := by
    simp only [a']
    split <;> exact ⟨rfl, rfl⟩
  obtain ⟨hbuf, hacc⟩ := ha
  cases Map.find bound row with
  | none => exact ⟨hbuf, hacc⟩
  | some b =>
    dsimp only [Option.elim]
    split
    · exact ⟨hbuf, by simp only [setEntry, hacc]; rfl⟩
    · exact ⟨hbuf, by simp only [setEntry, hacc]; rfl⟩

theorem entryOf_mergeEntry_same (p : PassMerge) (bound : Map Binding) (a : ArrayState) (row col sum cycle : Nat) (due : Int) :
    entryOf (mergeEntry p bound a row col sum cycle due) row col =
      (Map.find bound row).elim (entryOf a row col) fun b => mergedEntry p b (entryOf a row col) sum := by
  have hacc := (mergeEntry_eq p bound a row col sum cycle due).2
  cases hb : Map.find bound row with
  | none => exact entryOf_of_acc (by rw [hacc, hb]; rfl) ..
  | some b => rw [hb] at hacc; exact (entryOf_of_acc hacc ..).trans (entryOf_setEntry_same ..)

theorem entryOf_mergeEntry_ne (p : PassMerge) (bound : Map Binding) (a : ArrayState) {row col row' col' : Nat}
    (sum cycle : Nat) (due : Int) (h : col < 128) (h' : col' < 128) (hne : (row', col') ≠ (row, col)) :
    entryOf (mergeEntry p bound a row col sum cycle due) row' col' = entryOf a row' col' := by
  have hacc := (mergeEntry_eq p bound a row col sum cycle due).2
  cases hb : Map.find bound row with
  | none => exact entryOf_of_acc (by rw [hacc, hb]; rfl) ..
  | some b => rw [hb] at hacc; exact (entryOf_of_acc hacc ..).trans (entryOf_setEntry_ne _ _ h h' hne)

/-- The cell x of a pass merged in the present cycle of its array. -/
def PassRun.mergeNow (r : PassRun) (point cycle : Nat) (a : ArrayState) (x : Nat × Nat) : ArrayState :=
  r.mergeCell (decide (point ≤ r.bundle)) cycle a.clock (r.sum x.1 x.2) a x.1 x.2

/-- The entry into which the cell x of a pass merges (R138). -/
def PassRun.place (r : PassRun) (x : Nat × Nat) : Nat × Nat := (r.pass.accRow + x.1, x.2)

theorem mergeNow_cellOp (r : PassRun) (point cycle : Nat) {x : Nat × Nat} (hx : x.2 < 128) :
    CellOp (fun a => r.mergeNow point cycle a x) (r.place x) where
  other a row col hcol hne := entryOf_mergeEntry_ne _ _ _ _ _ _ hx hcol hne
  own a b h := by
    rw [PassRun.place] at h ⊢
    simp only [PassRun.mergeNow, PassRun.mergeCell, entryOf_mergeEntry_same, h]

/-- One pass in progress merges the cells due in the cycle one after another. -/
theorem mergeDue_of_one {a : ArrayState} {r : PassRun} (hpass : a.passes = [r]) (point cycle : Nat) :
    mergeDue a point cycle = (r.due a.clock).foldl (r.mergeNow point cycle) a := by
  rw [mergeDue, hpass]
  rfl

theorem opbuf_foldl_mergeNow (r : PassRun) (point cycle : Nat) (l : List (Nat × Nat)) (a : ArrayState) :
    (l.foldl (r.mergeNow point cycle) a).opbuf = a.opbuf := by
  induction l generalizing a with
  | nil => rfl
  | cons x l ih => exact (ih _).trans (mergeEntry_eq ..).1

theorem col_lt_of_mem_due {r : PassRun} (hn : r.tile.n ≤ 128) {clock : Int} {x : Nat × Nat} (hx : x ∈ r.due clock) :
    x.2 < 128 := ((mem_due r clock x.1 x.2).mp hx).2.1.trans_le hn

theorem nodup_places (r : PassRun) (clock : Int) : ((r.due clock).map r.place).Nodup :=
  (nodup_due r clock).map fun x y h => by
    simp only [PassRun.place, Prod.mk.injEq, Nat.add_left_cancel_iff] at h
    exact Prod.ext h.1 h.2

section
variable {a : ArrayState} {r : PassRun} (hpass : a.passes = [r]) (hn : r.tile.n ≤ 128) (point cycle : Nat)
include hpass hn

theorem entryOf_mergeDue_due {x : Nat × Nat} (hx : x ∈ r.due a.clock) :
    entryOf (mergeDue a point cycle) (r.place x).1 (r.place x).2 =
      entryOf (r.mergeNow point cycle a x) (r.place x).1 (r.place x).2 := by
  rw [mergeDue_of_one hpass]
  exact entryOf_foldl_own (fun y hy => mergeNow_cellOp r point cycle (col_lt_of_mem_due hn hy))
    (fun y hy => col_lt_of_mem_due (x := y) hn hy) (nodup_places r a.clock) hx a

theorem entryOf_mergeDue_other {row col : Nat} (hcol : col < 128) (hne : ∀ x ∈ r.due a.clock, (row, col) ≠ r.place x) :
    entryOf (mergeDue a point cycle) row col = entryOf a row col := by
  rw [mergeDue_of_one hpass]
  exact entryOf_foldl_other (fun y hy => mergeNow_cellOp r point cycle (col_lt_of_mem_due hn hy)) hcol hne a

end

/-- Settles O21: the seven commands run one pass, the cells due in a cycle are apart, so that each is merged alone, and their
cycles are those of R136. -/
theorem everyPassOperationMergesItsCells : Obligations.EveryPassOperationMergesItsCells := by
  refine ⟨?_, ?_, mem_due⟩
  · intro c i op w s hi
    have hexec := exec_mpass s hi
    dsimp only
    intro hnext
    refine ⟨fun h => ⟨_, hexec, ?_⟩, fun hm hn => ⟨fun h => ⟨_, hexec, ?_⟩, fun h => ⟨_, hexec, ?_⟩⟩⟩
    · rw [runPass_empty hnext _ h]
      exact ⟨wideIssued_issues .., arrayOf_wideIssued ..⟩
    · obtain ⟨t, hplace, hrun, harray⟩ := runPass_starts hnext hm hn .none h
      have hmem := mem_runPass s (coreKey c) op .none
      rw [hrun] at hmem ⊢
      rw [arrayOf_wideIssued, harray]
      exact ⟨rfl, rfl, rfl, ⟨_, rfl, rfl, rfl, rfl, rfl, rfl, rfl⟩, rfl, rfl, hplace.wideIssued, hmem⟩
    · rw [runPass_waits hnext hm hn _ h]
      exact interlockFor_waits ..
  · intro a r point cycle hpass hn
    dsimp only
    refine ⟨fun m n hdue => ?_, fun row col hcol hne => ?_, ?_⟩
    · exact entryOf_mergeDue_due (x := (m, n)) hpass hn point cycle hdue
    · exact entryOf_mergeDue_other hpass hn point cycle hcol fun x hx => hne x.1 x.2 hx
    · rw [mergeDue_of_one hpass]
      exact opbuf_foldl_mergeNow ..

end Sys2Proof.Machine
end

section
/-! PROOF. Stores to core memory: no parity failure of HBM touches them (R420), and what they leave of memory (R388, R433). -/

namespace Sys2Proof.Machine

theorem sharedBase_le_coreBase_add (k x : Nat) : sharedBase 0 ≤ coreBase k + x := by
  unfold sharedBase coreBase
  omega

/-- A sector of HBM ends before SRAM begins. -/
theorem rowBase_add_le_sharedBase {a : Nat} (h : a < sharedBase 0) : rowBase a + 32 ≤ sharedBase 0 := by
  rw [rowBase, rowLen, if_pos h]
  unfold sharedBase at *
  omega

/-- Only a sector of HBM loses a write (R420). -/
theorem lostWrites_of_sram {base : Nat} (h : sharedBase 0 ≤ base) (s : State) (mf : MemFaults) (len : Nat) :
    lostWrites s mf base len = s := by
  have hnone : (mf.writeFails.filter fun a => decide (a < sharedBase 0) && overlaps base len (rowBase a) 32) = [] := by
    refine List.filter_eq_nil_iff.mpr fun a _ => ?_
    by_cases ha : a < sharedBase 0
    · have := rowBase_add_le_sharedBase ha
      simp only [overlaps, Bool.and_eq_true, decide_eq_true_eq]
      omega
    · simp [ha]
  rw [lostWrites, hnone]
  rfl

@[simp] theorem length_memBytes (s : State) (base len : Nat) : (memBytes s base len).length = len := by
  simp [memBytes, mapBytes]

theorem memBytes_of_mem {s t : State} (h : t.mem = s.mem) (base len : Nat) : memBytes t base len = memBytes s base len := by
  rw [memBytes, h, memBytes]

theorem MemSameOutside.of_mem {s s' t t' : State} {base len : Nat} (h : MemSameOutside s t base len) (hs : s'.mem = s.mem)
    (ht : t'.mem = t.mem) : MemSameOutside s' t' base len := by
  intro a ha
  rw [hs, ht]
  exact h a ha

section
variable {base : Nat} (hbase : sharedBase 0 ≤ base) (s : State) (mf : MemFaults) (data : Bytes) (keep : Nat → Bool)
include hbase

theorem mem_storeBytes_of_sram : (storeBytes s mf base data keep).mem =
    putSome (fun a => keep a && !(snoopedIn s base data.length).contains (a / 64)) s.mem base data := by
  rw [storeBytes, lostWrites_of_sram hbase, stored, (writeCodes_effect ..).mem_same (by decide)]

theorem storeBytes_memSameOutside : MemSameOutside s (storeBytes s mf base data keep) base data.length := by
  intro a ha
  rw [mem_storeBytes_of_sram hbase]
  exact getD_putSome_outside _ _ _ _ _ (ha.imp_right Or.inl)

/-- Bytes that the host holds no line of are stored at once. -/
theorem memBytes_storeBytes (hseen : snoopedIn s base data.length = []) :
    memBytes (storeBytes s mf base data fun _ => true) base data.length = data := by
  rw [memBytes, mem_storeBytes_of_sram hbase, hseen]
  refine List.ext_getElem (by simp [mapBytes]) fun i _ hi => ?_
  simp only [mapBytes, List.getElem_map, List.getElem_range]
  exact getD_putSome_inside _ _ _ _ _ hi (by simp)

end

/-! ### Plate entries -/

section
variable (s : State) (k : Nat) (b : Binding) (row col : Nat) (data : Bytes)

theorem sharedBase_le_plateAddr : sharedBase 0 ≤ plateAddr k b row col := by
  rw [plateAddr, Nat.add_assoc]
  exact sharedBase_le_coreBase_add ..

theorem plateWrite_memSameOutside :
    MemSameOutside s (plateWrite s (plateAddr k b row col) data) (plateAddr k b row col) data.length :=
  storeBytes_memSameOutside (sharedBase_le_plateAddr ..) _ _ _ _

theorem memBytes_plateWrite (hseen : snoopedIn s (plateAddr k b row col) data.length = []) :
    memBytes (plateWrite s (plateAddr k b row col) data) (plateAddr k b row col) data.length = data :=
  memBytes_storeBytes (sharedBase_le_plateAddr ..) _ _ _ hseen

end

@[simp] theorem length_leBytes (n v : Nat) : (leBytes n v).length = n := by
  induction n generalizing v with
  | zero => rfl
  | succ n ih => rw [leBytes, List.length_cons, ih]

@[simp] theorem PlateEntry.length_toBytes (p : PlateEntry) (integer : Bool) : (p.toBytes integer).length = 16 := by
  simp [PlateEntry.toBytes]

/-- Arrays stand in the cores. -/
theorem Effect.arrayOf_same {w : List Part} {s t : State} (h : Effect w s t) (hw : Part.cores ∉ w) (k a : Nat) :
    arrayOf t k a = arrayOf s k a := by
  have hcores : t.cores = s.cores := h.frame.same _ hw
  rw [arrayOf, coreOf, hcores, arrayOf, coreOf]

end Sys2Proof.Machine
end

section
/-! PROOF. DRAIN: its start under the binding of its rows (R204, R205), the entries and the plate row of a drained row (R206), and
the status record at its end (R213). -/

namespace Sys2Proof.Machine

/-! ### The command -/

/-- The drain of a command that starts now under a binding, marked where the command is re-executed (log entry 137). -/
def drainNow (s : State) (k w : Nat) (b : Binding) : DrainRun :=
  ⟨(coreOf s k).bundle, w, (arrayOf s k (Drain.of w).array).clock, b, tagOf (counter s k),
    redoing (coreOf s k) (counter s k), ⟨0, 0, 0, 0, 0, false⟩, [], .clean⟩

section
variable {c : CoreRef} {w : Nat} {s : State} (hnext : nextWide s (coreKey c) engAcc = some w) (hop : opcodeOf w = 2)
include hnext hop

theorem exec_drain_idle (h : (Drain.of w).acts = false) :
    exec (.drain c .clean) s = .next (wideIssued s (coreKey c)) := by
  show execDrain c .clean s = _
  simp [execDrain, hnext, hop, h]

variable (hacts : (Drain.of w).acts = true)
include hacts

theorem exec_drain_waits :
    let a := arrayOf s (coreKey c) (Drain.of w).array
    let done := arrayDone a (counter s (coreKey c))
    a.clock < done → exec (.drain c .clean) s = .next (interlockFor s (coreKey c) (done - a.clock).toNat) := by
  dsimp only
  intro h
  show execDrain c .clean s = _
  simp [execDrain, hnext, hop, hacts, h, max_eq_right h.le]

theorem exec_drain_starts {b : Binding} :
    let k := coreKey c
    let d := Drain.of w
    let a := arrayOf s k d.array
    arrayDone a (counter s k) ≤ a.clock → Map.find a.bound d.accRow = some b →
      exec (.drain c .clean) s = .next (wideIssued (setArray s k d.array (drainArray a d (drainNow s k w b))) k) := by
  dsimp only
  intro h hbound
  show execDrain c .clean s = _
  simp [execDrain, hnext, hop, hacts, max_eq_left h, hbound, drainNow]

end

/-! ### The entries of a drained row -/

/-- The cells of a drained row, one to a column (R206). -/
theorem cells_drainRow (d : Drain) (a : ArrayState) (integer redo : Bool) (tag i : Nat) (plate running : Bytes)
    (sum : DrainSum) : (drainRow d a integer redo tag i plate running sum).cells = (List.range d.n).map fun col =>
      drainCell (entryOf a (d.accRow + i) col) ((plate.drop (16 * col)).take 16) integer redo tag := by
  rw [drainRow, ← List.foldl_hom DrainRow.cells (g₂ := fun cells col =>
    cells ++ [drainCell (entryOf a (d.accRow + i) col) ((plate.drop (16 * col)).take 16) integer redo tag]) fun _ _ => rfl,
    List.foldl_append_eq_append, List.nil_append, ← List.flatMap_def, ← List.map_eq_flatMap]

/-- What a cell that is drained leaves of its entry (R206, R230). -/
def drainedEntry (e : AccEntry) (c : DrainCell) : AccEntry :=
  { e with value := 0, check := 0, empty := true, tally := 0, fresh := false, landed := e.landed || !c.dropped }

/-- The cell x of a row of a drain emptied in its array. -/
def drainNext (row : Nat) (window : Bool) (a : ArrayState) (x : DrainCell × Nat) : ArrayState :=
  setEntry (if window then { a with reached := insertNew a.reached (entryKey row x.2) } else a) row x.2
    (drainedEntry (entryOf a row x.2) x.1)

theorem drainEntries_eq (d : Drain) (window : Bool) (a : ArrayState) (i : Nat) (cells : List DrainCell) :
    drainEntries d window a i cells = cells.zipIdx.foldl (drainNext (d.accRow + i) window) a := rfl

theorem entryOf_drainNext_same (row : Nat) (window : Bool) (a : ArrayState) (x : DrainCell × Nat) :
    entryOf (drainNext row window a x) row x.2 = drainedEntry (entryOf a row x.2) x.1 := entryOf_setEntry_same ..

theorem drainNext_cellOp (row : Nat) (window : Bool) {x : DrainCell × Nat} (hx : x.2 < 128) :
    CellOp (fun a => drainNext row window a x) (row, x.2) where
  other a r col hcol hne := by
    refine (entryOf_setEntry_ne _ _ hx hcol hne).trans (entryOf_of_acc ?_ ..)
    split <;> rfl
  own a b h := by
    dsimp only at h ⊢
    rw [entryOf_drainNext_same, entryOf_drainNext_same, h]

section
variable {d : Drain} {cells : List DrainCell} (hlen : cells.length ≤ 128) (window : Bool) (a : ArrayState) (i : Nat)
include hlen

theorem col_lt_of_mem_cells {x : DrainCell × Nat} (hx : x ∈ cells.zipIdx) : x.2 < 128 :=
  (List.snd_lt_of_mem_zipIdx hx).trans_le hlen

theorem entryOf_drainEntries_inside {col : Nat} (hcol : col < cells.length) :
    entryOf (drainEntries d window a i cells) (d.accRow + i) col =
      drainedEntry (entryOf a (d.accRow + i) col) cells[col] := by
  have hmem : (cells[col], col) ∈ cells.zipIdx := by simp [List.mk_mem_zipIdx_iff_getElem?]
  have hapart : (cells.zipIdx.map fun x => (d.accRow + i, x.2)).Nodup := by
    have hcols : (cells.zipIdx.map Prod.snd).Nodup := by
      rw [List.zipIdx_map_snd]
      exact List.nodup_range'
    have hplaces := hcols.map (Prod.mk_right_injective (d.accRow + i))
    rwa [List.map_map] at hplaces
  rw [drainEntries_eq]
  refine (entryOf_foldl_own (place := fun x => (d.accRow + i, x.2))
    (fun x hx => drainNext_cellOp _ window (col_lt_of_mem_cells hlen hx)) (fun x hx => col_lt_of_mem_cells hlen hx)
    hapart hmem a).trans ?_
  exact entryOf_drainNext_same ..

theorem entryOf_drainEntries_outside {row col : Nat} (hcol : col < 128) (h : row ≠ d.accRow + i ∨ cells.length ≤ col) :
    entryOf (drainEntries d window a i cells) row col = entryOf a row col := by
  rw [drainEntries_eq]
  refine entryOf_foldl_other (place := fun x => (d.accRow + i, x.2))
    (fun x hx => drainNext_cellOp _ window (col_lt_of_mem_cells hlen hx)) hcol (fun x hx e => ?_) a
  have hx' := List.snd_lt_of_mem_zipIdx hx
  rw [Prod.mk.injEq] at e
  omega

end

/-! ### A row drained -/

/-- A plate row is written back whole: 16 bytes to a cell. -/
theorem length_drainPlate {plate : Bytes} {cells : List DrainCell} (h : plate.length = 16 * cells.length) (integer : Bool) :
    (drainPlate plate cells integer).length = 16 * cells.length := by
  have heach : ∀ x ∈ cells.zipIdx,
      (if x.1.dropped then (plate.drop (16 * x.2)).take 16 else x.1.plate.toBytes integer).length = 16 := fun x hx => by
    have := List.snd_lt_of_mem_zipIdx hx
    split
    · rw [List.length_take, List.length_drop]
      omega
    · exact x.1.plate.length_toBytes integer
  rw [drainPlate, List.length_flatMap, List.map_congr_left heach, List.map_const', List.sum_replicate, List.length_zipIdx,
    smul_eq_mul, Nat.mul_comm]

/-- The cells of row i of a drain, from the plate row memory holds. -/
def drainCells (s : State) (k a : Nat) (r : DrainRun) (i : Nat) : List DrainCell :=
  let d := Drain.of r.word
  (List.range d.n).map fun col => drainCell (entryOf (arrayOf s k a) (d.accRow + i) col)
    (((memBytes s (plateAddr k r.binding (d.accRow + i) 0) (16 * d.n)).drop (16 * col)).take 16) r.binding.integer r.redo r.tag

@[simp] theorem length_drainCells (s : State) (k a : Nat) (r : DrainRun) (i : Nat) :
    (drainCells s k a r i).length = (Drain.of r.word).n := by
  simp [drainCells]

/-- A drained row: its cells are emptied in the array, and its plate row is written back (R206). -/
theorem drainOne_eq (s : State) (k a : Nat) (r : DrainRun) (i : Nat) :
    let d := Drain.of r.word
    let addr := plateAddr k r.binding (d.accRow + i) 0
    let cells := drainCells s k a r i
    ∃ t window, t.mem = s.mem ∧ (arrayOf t k a).acc = (drainEntries d window (arrayOf s k a) i cells).acc ∧
      drainOne s k a r i = plateWrite t addr (drainPlate (memBytes s addr (16 * d.n)) cells r.binding.integer) := by
  dsimp only
  generalize hu : drainOne s k a r i = u
  unfold drainOne at hu
  extract_lets d dst addr plate running st o sum window entries at hu
  have hcells : o.cells = drainCells s k a r i := cells_drainRow ..
  split at hu
  extract_lets r' s1 s2 at hu
  rw [← hcells]
  refine ⟨s2, window, ?_, ?_, hu.symm⟩
  · exact (bump_spill_effect ..).mem_same (by decide)
  · rw [(bump_spill_effect ..).arrayOf_same (by decide), arrayOf_setArray_same]

theorem entryOf_drainOne (s : State) (k a : Nat) (r : DrainRun) (i : Nat) :
    ∃ window, ∀ row col, entryOf (arrayOf (drainOne s k a r i) k a) row col =
      entryOf (drainEntries (Drain.of r.word) window (arrayOf s k a) i (drainCells s k a r i)) row col := by
  obtain ⟨t, window, -, hacc, heq⟩ := drainOne_eq s k a r i
  refine ⟨window, fun row col => entryOf_of_acc ?_ ..⟩
  rw [heq, (plateWrite_effect ..).arrayOf_same (by decide), hacc]

theorem drainOne_memSameOutside (s : State) (k a : Nat) (r : DrainRun) (i : Nat) :
    MemSameOutside s (drainOne s k a r i) (plateAddr k r.binding ((Drain.of r.word).accRow + i) 0)
      (16 * (Drain.of r.word).n) := by
  obtain ⟨t, window, hmem, -, heq⟩ := drainOne_eq s k a r i
  have h := plateWrite_memSameOutside t k r.binding ((Drain.of r.word).accRow + i) 0
    (drainPlate (memBytes s (plateAddr k r.binding ((Drain.of r.word).accRow + i) 0) (16 * (Drain.of r.word).n))
      (drainCells s k a r i) r.binding.integer)
  rw [← heq, length_drainPlate (by simp), length_drainCells] at h
  exact h.of_mem hmem.symm rfl

/-! ### The end of a drain -/

/-- The status record of a drain (R213). -/
def drainRecord (r : DrainRun) : Bytes := leBytes 2 (r.sum.flags r.redo) ++ leBytes 14 r.sum.body

theorem length_drainRecord (r : DrainRun) : (drainRecord r).length = 16 := by simp [drainRecord]

/-- Of memory the end of a drain writes its status record alone: its counts, flags and ephemeris record stand elsewhere. -/
theorem mem_drainEnd (s : State) (k a : Nat) (r : DrainRun) : (drainEnd s k a r).mem =
    (storeBytes s r.er.mf (coreBase k + (Drain.of r.word).aux) (drainRecord r) fun _ => true).mem := by
  have hquad : ∀ s g, (bumpQuad s g k a 1).mem = s.mem := fun s g => rfl
  have hemit : ∀ s fl, (emit s (k / 24) 0x12 fl Blk.acc.num (k % 24 * 4 + a) r.sum.body).mem = s.mem := fun s fl =>
    (emit_effect ..).mem_same (by decide)
  simp only [drainEnd, apply_ite State.mem, hquad, hemit, flagCore, setCore, ite_self]
  rfl

end Sys2Proof.Machine
end

section
/-! PROOF. SPILL: a spill that is due lands in its plate entry, once it is no longer pending and its read has armed the guards
(R187 to R191, R277). -/

namespace Sys2Proof.Machine

/-! ### A read that meets no failure -/

/-- A range that reads well leaves nothing but its guards armed. -/
theorem engineRead_of_readsWell {s : State} {base len : Nat} (h : readsWell s base len) (k bundle : Nat)
    (f : Nat → FreezeCond) : engineRead s k bundle .clean f base len = armGuards s k bundle base len := by
  obtain ⟨m, g, heq, -⟩ := armGuards_guardsOnly s k bundle base len
  have hwell : readsWell (armGuards s k bundle base len) base len := by rw [heq]; exact h
  simp only [engineRead, checkRead, EngineRun.clean, readEffects_of_readsWell hwell,
    show failRow (armGuards s k bundle base len) MemFaults.none base len = none from hwell]
  rfl

theorem spillOne_of_readsWell {s : State} {k : Nat} {p : PendingSpill}
    (h : readsWell s (plateAddr k p.binding p.row p.col) 16) (a : Nat) :
    spillOne s k a .clean p = landSpill (armGuards s k p.bundle (plateAddr k p.binding p.row p.col) 16) k a p := by
  simp only [spillOne, engineRead_of_readsWell h]
  rw [show failRow s EngineRun.clean.mf _ 16 = none from h]

/-- Where no earlier spill goes into a range, none takes effect. -/
theorem landInto_of_nil {s : State} {k base len before : Nat} {own : Option Nat}
    (h : spillsInto s k own base len before = []) (er : EngineRun) (fuel : Nat) :
    landInto k own base len before er fuel s = s := by
  cases fuel with
  | zero => rfl
  | succ n => rw [landInto, h]; rfl

/-! ### A spill lands -/

/-- The cell of a spill is no longer fresh, also where replay drops the spill (R233; log entry 62). -/
theorem arrayOf_landSpill (s : State) (k a : Nat) (p : PendingSpill) : ∃ landed, arrayOf (landSpill s k a p) k a =
    setEntry (arrayOf s k a) p.row p.col
      { entryOf (arrayOf s k a) p.row p.col with fresh := false, landed := landed } := by
  unfold landSpill
  extract_lets addr old q st e tag new t
  split
  · exact ⟨_, arrayOf_setArray_same ..⟩
  · refine ⟨true, ?_⟩
    rw [(bump_spill_effect ..).arrayOf_same (by decide), (plateWrite_effect ..).arrayOf_same (by decide)]
    exact arrayOf_setArray_same ..

/-- The bytes of a plate entry once a spill has been merged into it (R188, R193). -/
def spilledBytes (s : State) (k a : Nat) (p : PendingSpill) : Bytes :=
  let old := memBytes s (plateAddr k p.binding p.row p.col) 16
  (foldPlate (PlateEntry.ofBytes old) (entryOf (arrayOf s k a) p.row p.col).fresh (decide (leNat old = 0))
    p.binding.integer p.reduction.toNat p.value.toNat p.tally (tagOf p.cycle)).toBytes p.binding.integer

theorem length_spilledBytes (s : State) (k a : Nat) (p : PendingSpill) : (spilledBytes s k a p).length = 16 :=
  PlateEntry.length_toBytes ..

/-- A spill leaves memory, or writes its plate entry; it writes it where no re-execution is under way (R230, R233). -/
theorem mem_landSpill (s : State) (k a : Nat) (p : PendingSpill) :
    (landSpill s k a p).mem = s.mem ∧ redoing (coreOf s k) p.cycle = true ∨
      ∃ t, t.mem = s.mem ∧ t.snoop = s.snoop ∧
        (landSpill s k a p).mem = (plateWrite t (plateAddr k p.binding p.row p.col) (spilledBytes s k a p)).mem := by
  unfold landSpill
  extract_lets addr old q st e tag new t
  split
  next h =>
    simp only [Bool.and_eq_true] at h
    exact .inl ⟨rfl, h.1.1.1⟩
  next => exact .inr ⟨t, rfl, rfl, (bump_spill_effect ..).mem_same (by decide)⟩

theorem landSpill_memSameOutside (s : State) (k a : Nat) (p : PendingSpill) :
    MemSameOutside s (landSpill s k a p) (plateAddr k p.binding p.row p.col) 16 := by
  obtain ⟨h, -⟩ | ⟨t, hmem, -, h⟩ := mem_landSpill s k a p
  · exact fun x _ => by rw [h]
  · have hw := plateWrite_memSameOutside t k p.binding p.row p.col (spilledBytes s k a p)
    rw [length_spilledBytes] at hw
    exact hw.of_mem hmem.symm h

theorem memBytes_landSpill {s : State} {k : Nat} {p : PendingSpill} (hredo : redoing (coreOf s k) p.cycle = false)
    (hseen : snoopedIn s (plateAddr k p.binding p.row p.col) 16 = []) (a : Nat) :
    memBytes (landSpill s k a p) (plateAddr k p.binding p.row p.col) 16 = spilledBytes s k a p := by
  obtain ⟨-, h⟩ | ⟨t, -, hsnoop, h⟩ := mem_landSpill s k a p
  · rw [hredo] at h
    exact absurd h Bool.false_ne_true
  · have hw := memBytes_plateWrite t k p.binding p.row p.col (spilledBytes s k a p)
    rw [length_spilledBytes] at hw
    rw [memBytes_of_mem h]
    exact hw (by rw [snoopedIn, hsnoop]; exact hseen)

/-! ### The command -/

/-- The state in which a spill lands: it is no longer pending, and its read has armed the guards. -/
def spillTaken (s : State) (k a : Nat) (p : PendingSpill) : State :=
  armGuards (setArray s k a { arrayOf s k a with spills := (arrayOf s k a).spills.erase p }) k p.bundle
    (plateAddr k p.binding p.row p.col) 16

theorem spillTaken_guardsOnly (s : State) (k a : Nat) (p : PendingSpill) :
    GuardsOnly (setArray s k a { arrayOf s k a with spills := (arrayOf s k a).spills.erase p }) (spillTaken s k a p) k :=
  armGuards_guardsOnly ..

theorem arrayOf_spillTaken (s : State) (k a : Nat) (p : PendingSpill) :
    arrayOf (spillTaken s k a p) k a = { arrayOf s k a with spills := (arrayOf s k a).spills.erase p } :=
  (arrayOf_of_arrays (spillTaken_guardsOnly ..).arrays a).trans (arrayOf_setArray_same ..)

theorem mem_spillTaken (s : State) (k a : Nat) (p : PendingSpill) : (spillTaken s k a p).mem = s.mem :=
  (spillTaken_guardsOnly ..).mem

theorem snoopedIn_spillTaken (s : State) (k a : Nat) (p : PendingSpill) (base len : Nat) :
    snoopedIn (spillTaken s k a p) base len = snoopedIn s base len := by
  obtain ⟨m, g, heq, -⟩ := spillTaken_guardsOnly s k a p
  rw [heq]
  rfl

theorem redoing_spillTaken (s : State) (k a : Nat) (p : PendingSpill) (cycle : Nat) :
    redoing (coreOf (spillTaken s k a p) k) cycle = redoing (coreOf s k) cycle := by
  obtain ⟨m, g, -, hcore⟩ := spillTaken_guardsOnly s k a p
  rw [hcore, coreOf_setArray]
  rfl

theorem spilledBytes_spillTaken (s : State) (k a : Nat) (p : PendingSpill) :
    spilledBytes (spillTaken s k a p) k a p = spilledBytes s k a p := by
  simp only [spilledBytes, arrayOf_spillTaken, memBytes_of_mem (mem_spillTaken s k a p)]
  rfl

@[simp] theorem arrays_freezeCore (s : State) (k : Nat) (f : FreezeCond) :
    (coreOf (freezeCore s k f) k).arrays = (coreOf s k).arrays := by
  simp [freezeCore]

theorem arrays_freezeHeld (s : State) (k n : Nat) : (coreOf (freezeHeld s k n) k).arrays = (coreOf s k).arrays := by
  rw [freezeHeld]
  split
  next => rfl
  next h =>
    clear h
    generalize s.heldWrites.drop n = l
    induction l generalizing s with
    | nil => rfl
    | cons w l ih => rw [List.foldl_cons, ih, arrays_freezeCore]

theorem mem_freezeHeld (s : State) (k n : Nat) : (freezeHeld s k n).mem = s.mem :=
  (freezeHeld_effect ..).mem_same (by decide)

/-- The earliest spill of an array, once it is due, lands in the state that has taken it up. -/
theorem exec_spill_due {c : CoreRef} {array : Fin 4} {p : PendingSpill} {s : State}
    (hrun : (coreOf s (coreKey c)).runDesc ≠ none) (hfreeze : (coreOf s (coreKey c)).freeze = [])
    (hreplay : (coreOf s (coreKey c)).replaying = none)
    (hfirst : firstSpill (arrayOf s (coreKey c) array).spills = some p)
    (hdue : p.due ≤ (arrayOf s (coreKey c) array).clock)
    (hnone : spillsInto s (coreKey c) none (plateAddr (coreKey c) p.binding p.row p.col) 16 p.cycle = [])
    (hwell : readsWell s (plateAddr (coreKey c) p.binding p.row p.col) 16) :
    exec (.spill c array .clean) s = .next (freezeHeld
      (landSpill (spillTaken s (coreKey c) array p) (coreKey c) array p) (coreKey c) s.heldWrites.length) := by
  show execSpill c array .clean s = _
  simp only [execSpill, hrun, hfreeze, hreplay, hfirst, if_neg (not_lt.mpr hdue), landInto_of_nil hnone, decide_false,
    Bool.or_false, ne_eq, not_true_eq_false, Bool.false_eq_true, if_false]
  rw [spillOne_of_readsWell]
  · rfl
  · exact hwell

/-- Settles O23: a drain starts once its array is done, the cells of a drained row are apart, so that each is emptied, and the
stores of rows, records and spilled entries lie in core memory, where they change their own bytes alone. -/
theorem drainsAndSpillsComplete : Obligations.DrainsAndSpillsComplete := by
  refine ⟨?_, ?_, ?_, ?_⟩
  · intro c w s
    dsimp only
    intro hnext hop
    refine ⟨fun h => ⟨_, exec_drain_idle hnext hop h, wideIssued_issues .., mem_wideIssued ..⟩,
      fun hacts h b hbound => ⟨_, exec_drain_starts hnext hop hacts h hbound, ?_⟩,
      fun hacts h => ⟨_, exec_drain_waits hnext hop hacts h, interlockFor_waits ..⟩⟩
    beta_reduce
    rw [arrayOf_wideIssued, arrayOf_setArray_same, mem_wideIssued]
    exact ⟨⟨_, rfl, rfl, rfl, rfl, rfl, rfl, rfl⟩, rfl, rfl, rfl, (SamePlace.setArray ..).wideIssued, rfl⟩
  · intro s k a i r
    dsimp only
    intro hn
    have hlen : (drainCells s k a r i).length ≤ 128 := by simpa using hn
    obtain ⟨window, hentry⟩ := entryOf_drainOne s k a r i
    refine ⟨fun col hcol => ?_, fun row col hcol h => ?_, drainOne_memSameOutside s k a r i⟩
    · rw [hentry, entryOf_drainEntries_inside hlen window _ i (by simpa using hcol)]
      exact ⟨rfl, rfl, rfl⟩
    · rw [hentry]
      exact entryOf_drainEntries_outside hlen window _ i hcol (by simpa using h)
  · intro s k a r
    dsimp only
    intro hseen
    have hbase := sharedBase_le_coreBase_add k (Drain.of r.word).aux
    have hbytes := memBytes_storeBytes hbase s r.er.mf (drainRecord r)
    have houtside := storeBytes_memSameOutside hbase s r.er.mf (drainRecord r) fun _ => true
    rw [length_drainRecord] at hbytes houtside
    exact ⟨(memBytes_of_mem (mem_drainEnd s k a r) ..).trans (hbytes hseen), houtside.of_mem rfl (mem_drainEnd ..)⟩
  · intro c array p s
    dsimp only
    intro hrun hfreeze hreplay hfirst hdue hnone hwell
    obtain ⟨landed, harray⟩ := arrayOf_landSpill (spillTaken s (coreKey c) array p) (coreKey c) array p
    refine ⟨_, exec_spill_due hrun hfreeze hreplay hfirst hdue hnone hwell, ?_⟩
    beta_reduce
    rw [arrayOf_of_arrays (arrays_freezeHeld ..), harray]
    refine ⟨?_, ?_, ?_, fun hredo hseen => ?_⟩
    · rw [arrayOf_spillTaken]; rfl
    · rw [entryOf_setEntry_same]
    · exact (landSpill_memSameOutside _ _ _ _).of_mem (mem_spillTaken ..).symm (mem_freezeHeld ..)
    · rw [memBytes_of_mem (mem_freezeHeld ..), memBytes_landSpill (by rwa [redoing_spillTaken])
        (by rwa [snoopedIn_spillTaken]), spilledBytes_spillTaken]
      rfl

end Sys2Proof.Machine
end

section
/-! PROOF. What one core's commands leave of another core (R251, R277, R285): the relation, the operations on a core's own state and
registers, and the shared operations that touch no core. -/

set_option Elab.async false

namespace Sys2Proof.Machine

/-! ### Two cores -/

/-- Core `j` is another core than core `k`, and both are cores of the module. -/
structure Apart (j k : Nat) : Prop where
  other : j < 48
  own : k < 48
  ne : j ≠ k

theorem coreKey_lt (c : CoreRef) : coreKey c < 48 := by
  have := c.die.isLt
  have := c.core.isLt
  unfold coreKey
  omega

theorem apart_of_ne {c c' : CoreRef} (h : c' ≠ c) : Apart (coreKey c') (coreKey c) where
  other := coreKey_lt c'
  own := coreKey_lt c
  ne e := h <| by
    obtain ⟨d, n⟩ := c
    obtain ⟨d', n'⟩ := c'
    simp only [coreKey] at e
    simp only [CoreRef.mk.injEq, Fin.ext_iff]
    omega

/-- From `s` to `t` core `j` keeps its state but for the hit marks of its guards, and the registers of its pages. -/
structure KeepsCore (j : Nat) (s t : State) : Prop where
  state : { coreOf t j with guards := (coreOf s j).guards } = coreOf s j
  regs : ∀ r : Reg, r.info.stride = 0x1000 → rdCore t r j = rdCore s r j

theorem KeepsCore.refl (j : Nat) (s : State) : KeepsCore j s s := ⟨rfl, fun _ _ => rfl⟩

theorem KeepsCore.trans {j : Nat} {s t u : State} (h1 : KeepsCore j s t) (h2 : KeepsCore j t u) : KeepsCore j s u where
  state := by
    have e : ({ coreOf u j with guards := (coreOf s j).guards } : CoreState) = { coreOf t j with guards := (coreOf s j).guards } :=
      congrArg (fun c : CoreState => { c with guards := (coreOf s j).guards }) h2.state
    exact e.trans h1.state
  regs r hr := (h2.regs r hr).trans (h1.regs r hr)

/-- An operation after others: read from the last operation to the first, as the model writes them. -/
theorem KeepsCore.step {j : Nat} {s t u : State} (h2 : KeepsCore j t u) (h1 : KeepsCore j s t) : KeepsCore j s u := h1.trans h2

theorem KeepsCore.ite {j : Nat} {s a b : State} {c : Prop} [Decidable c] (h1 : KeepsCore j s a) (h2 : KeepsCore j s b) :
    KeepsCore j s (if c then a else b) := by
  split <;> assumption

/-- An operation for each entry of a list, after others. -/
theorem KeepsCore.fold {α : Type} {j : Nat} {f : State → α → State} {l : List α} {s t : State}
    (hf : ∀ s x, KeepsCore j s (f s x)) (h : KeepsCore j s t) : KeepsCore j s (l.foldl f t) := by
  induction l generalizing t with
  | nil => exact h
  | cons x l ih => exact ih ((hf t x).step h)

theorem KeepsCore.snd {α : Type} {j : Nat} {s t : State} {x : α × State} {a : α} (h : KeepsCore j s x.2) (e : x = (a, t)) :
    KeepsCore j s t := by
  subst e; exact h

theorem KeepsCore.snd3 {α β : Type} {j : Nat} {s t : State} {x : α × β × State} {a : α} {b : β} (h : KeepsCore j s x.2.2)
    (e : x = (a, b, t)) : KeepsCore j s t := by
  subst e; exact h

/-! ### Operations that touch no core -/

/-- The cores, and every register of a core's pages. -/
def coreParts : List Part := .cores :: (Reg.all.filter fun r => r.info.stride = 0x1000).map .reg

/-- A list of parts names one of them. -/
def touchesCores (w : List Part) : Bool := partMask w &&& partMask coreParts ≠ 0

theorem reg_mem_coreParts {r : Reg} (h : r.info.stride = 0x1000) : Part.reg r ∈ coreParts :=
  List.mem_cons_of_mem _ (List.mem_map_of_mem (List.mem_filter.mpr ⟨List.mem_of_getElem? (Reg.all_idx r), decide_eq_true h⟩))

theorem not_mem_of_touchesCores {w : List Part} (hw : touchesCores w = false) {p : Part} (hp : p ∈ coreParts) : p ∉ w := fun hm => by
  have bit : ∀ {v : List Part}, p ∈ v → (partMask v).testBit p.code = true := fun h => by
    rw [testBit_partMask]
    exact List.any_eq_true.mpr ⟨p, h, decide_eq_true rfl⟩
  have hz : partMask w &&& partMask coreParts = 0 := by simpa [touchesCores] using hw
  have h1 : (partMask w &&& partMask coreParts).testBit p.code = true := by rw [Nat.testBit_and, bit hm, bit hp]; rfl
  rw [hz, Nat.zero_testBit] at h1
  exact Bool.false_ne_true h1

/-- An effect on other parts keeps every core. -/
theorem Effect.keepsCore {w : List Part} {s t : State} (h : Effect w s t) {j : Nat}
    (hw : touchesCores w = false := by decide +kernel) : KeepsCore j s t where
  state := by
    have hc : t.cores = s.cores := h.frame.same .cores (not_mem_of_touchesCores hw (List.mem_cons_self ..))
    simp only [coreOf, hc]
  regs r hr := h.frame.same (.reg r) (not_mem_of_touchesCores hw (reg_mem_coreParts hr)) _ _

/-- Such an operation after others. -/
theorem Effect.beside {w : List Part} {j : Nat} {s t u : State} (h2 : Effect w t u) (h1 : KeepsCore j s t)
    (hw : touchesCores w = false := by decide +kernel) : KeepsCore j s u := h1.trans (h2.keepsCore hw)

/-! ### Outcomes -/

/-- The command answers a next state, and core `j` keeps what it has. -/
def SparesCore (j : Nat) (s : State) (o : Host.Outcome State Fault Refusal) : Prop := Gives o (KeepsCore j s)

theorem SparesCore.next {j : Nat} {s t : State} (h : KeepsCore j s t) : SparesCore j s (.next t) := ⟨t, rfl, h⟩

theorem SparesCore.same {j : Nat} {s : State} : SparesCore j s (.next s) := .next (.refl j s)

theorem SparesCore.ite {j : Nat} {s : State} {c : Prop} [Decidable c] {a b : Host.Outcome State Fault Refusal}
    (h1 : SparesCore j s a) (h2 : SparesCore j s b) : SparesCore j s (if c then a else b) := by
  split <;> assumption

/-- What a command does from a state it has reached. -/
theorem SparesCore.from {j : Nat} {s t : State} {o : Host.Outcome State Fault Refusal} (h : KeepsCore j s t)
    (ho : SparesCore j t o) : SparesCore j s o := by
  obtain ⟨u, hu, he⟩ := ho
  exact ⟨u, hu, h.trans he⟩

/-! ### A core's own state and registers -/

theorem homeDie_of_stride (r : Reg) (h : r.info.stride = 0x1000) (die : Nat) : homeDie r die = die := by
  have hall : (r.info.stride != 0x1000 || r.info.homing == .eachDie) = true :=
    Reg.forall_of_all (p := fun r => r.info.stride != 0x1000 || r.info.homing == .eachDie) (by decide +kernel) r
  have he : r.info.homing = .eachDie := by simpa [h] using hall
  simp [homeDie, he]

section
variable {j k : Nat} (h : Apart j k)
include h

theorem setCore_keepsCore (s : State) (c : CoreState) : KeepsCore j s (setCore s k c) where
  state := by rw [coreOf_setCore_ne _ _ _ _ h.ne]
  regs _ _ := rfl

theorem setArray_keepsCore (s : State) (a : Nat) (v : ArrayState) : KeepsCore j s (setArray s k a v) := setCore_keepsCore h ..

theorem wrCore_keepsCore (s : State) (r : Reg) (v : Nat) : KeepsCore j s (wrCore s r k v) where
  state := rfl
  regs r' hr := by
    by_cases e : r' = r
    · subst e
      refine rd_wr_unit _ _ _ _ _ _ _ fun e => h.ne ?_
      rw [homeDie_of_stride r' hr, homeDie_of_stride r' hr] at e
      have hj := h.other
      have hk := h.own
      simp only [Prod.mk.injEq] at e
      omega
    · exact rd_wr_other _ _ _ e ..

theorem bumpCore_keepsCore (s : State) (f : Fld) (n : Nat) : KeepsCore j s (bumpCore s f k n) := wrCore_keepsCore h ..

theorem bumpQuad_keepsCore (s : State) (r : Reg) (a n : Nat) : KeepsCore j s (bumpQuad s r k a n) := wrCore_keepsCore h ..

theorem setSeqState_keepsCore (s : State) (v : Nat) : KeepsCore j s (setSeqState s k v) := wrCore_keepsCore h ..

theorem restoreRegs_keepsCore (s : State) (m : Map (BitVec 64)) : KeepsCore j s (restoreRegs s k m) :=
  .fold (fun s r => wrCore_keepsCore h s r _) (.refl j s)

theorem keepInPoint_keepsCore (s : State) (bundle : Nat) (v : State) : KeepsCore j s (keepInPoint s k bundle v) := by
  unfold keepInPoint
  split
  · exact .ite (setCore_keepsCore h ..) (.refl j s)
  · exact .refl j s

theorem passEmpty_keepsCore (n : Nat) (s : State) : KeepsCore j s (passEmpty n s k) := by
  induction n generalizing s with
  | zero => exact .refl j s
  | succ n ih => exact .ite ((ih _).step (setCore_keepsCore h ..)) (.refl j s)

theorem freezeCore_keepsCore (s : State) (f : FreezeCond) : KeepsCore j s (freezeCore s k f) :=
  (setSeqState_keepsCore h ..).step (setCore_keepsCore h ..)

theorem nextOne_keepsCore (s : State) : KeepsCore j s (nextOne s k) := (passEmpty_keepsCore h ..).step (setCore_keepsCore h ..)

theorem wideIssued_keepsCore (s : State) : KeepsCore j s (wideIssued s k) := .ite (setCore_keepsCore h ..) (nextOne_keepsCore h s)

theorem narrowIssued_keepsCore (s : State) : KeepsCore j s (narrowIssued s k) := nextOne_keepsCore h s

theorem slipFor_keepsCore (s : State) (n : Nat) (f : Nat → FreezeCond) : KeepsCore j s (slipFor s k n f) :=
  .ite (.refl j s) (freezeCore_keepsCore h ..)

theorem interlockFor_keepsCore (s : State) (n : Nat) : KeepsCore j s (interlockFor s k n) :=
  (setSeqState_keepsCore h ..).step (setCore_keepsCore h ..)

theorem flagCore_keepsCore (s : State) (f : Nat) : KeepsCore j s (flagCore s k f) := setCore_keepsCore h ..

theorem freezeHeld_keepsCore (s : State) (n : Nat) : KeepsCore j s (freezeHeld s k n) :=
  .ite (.refl j s) (.fold (fun _ _ => freezeCore_keepsCore h ..) (.refl j s))

theorem countFrozen_keepsCore (s : State) (slip wait : Nat) : KeepsCore j s (countFrozen s k slip wait) := by
  have hslip : KeepsCore j s (countSlip s k slip) := .ite (.refl j s) ((flagCore_keepsCore h ..).step (bumpCore_keepsCore h ..))
  exact (bumpCore_keepsCore h ..).step ((setCore_keepsCore h ..).step ((bumpCore_keepsCore h ..).step hslip))

theorem countCut_keepsCore (s : State) : KeepsCore j s (countCut s k) := .ite (.refl j s) (countFrozen_keepsCore h ..)

theorem armGuards_keepsCore (s : State) (bundle base len : Nat) : KeepsCore j s (armGuards s k bundle base len) := by
  unfold armGuards
  extract_lets
  exact .ite (setCore_keepsCore h ..) (.refl j s)

theorem detect_keepsCore (s : State) (f : Failure) : KeepsCore j s (detect s k f) := setCore_keepsCore h ..

theorem setPathStatus_keepsCore (s : State) (a v : Nat) : KeepsCore j s (setPathStatus s k a v) := wrCore_keepsCore h ..

/-- The end of a stream withdraws its own core's WAITs, and completes its own RUN (R250 to R252). -/
theorem endStream_keepsCore (s : State) (status : Nat) : KeepsCore j s (endStream s k status) := by
  unfold endStream
  split
  · exact .refl j s
  · extract_lets
    exact (ringAdvance_effect ..).beside ((settlePower_effect _).beside ((irq_effect ..).beside
      ((queueCompletion_effect ..).beside ((dropActive_effect ..).beside ((setSeqState_keepsCore h ..).step
      ((setCore_keepsCore h ..).step ((setCore_keepsCore h ..).step ((withdrawWaits_effect ..).beside
      (countCut_keepsCore h s)))))))))

end

/-! ### Guards -/

theorem Map.getD_mapVals {α : Type} (m : Map α) (f : α → α) (k : Nat) (d : α) (hd : f d = d) :
    Map.getD (Map.mapVals m f) k d = f (Map.getD m k d) := by
  induction m with
  | nil => exact hd.symm
  | cons e t ih =>
    by_cases he : e.1 = k
    · simp [Map.getD, Map.mapVals, Map.find, he]
    · simpa [Map.getD, Map.mapVals, Map.find, he] using ih

/-- A store changes the guards of every core alone (R277). -/
theorem hitGuards_keepsCore (j : Nat) (s : State) (base len : Nat) (keep : Nat → Bool) : KeepsCore j s (hitGuards s base len keep) where
  state := by
    unfold coreOf hitGuards
    dsimp only
    rw [Map.getD_mapVals _ _ _ _ rfl]
  regs _ _ := rfl

end Sys2Proof.Machine
end

section
/-! PROOF. Faults and memory beside a core: a transient changes a core's pages only on the transit path of an array (R744), and a store
changes other cores' guards alone (R277). -/

set_option Elab.async false

namespace Sys2Proof.Machine

/-! ### Channels (R731 to R753) -/

section
variable {j : Nat}

theorem classifyEffect_keepsCore (s : State) {kind ch : Nat} (hc : kind = kTransit → Apart j (ch / 4)) :
    KeepsCore j s (classifyEffect s kind ch) := by
  unfold classifyEffect
  split
  · next h => exact .ite (setPathStatus_keepsCore (hc h) ..) (.refl j s)
  · refine .ite ((wf_effect ..).beside (setPcState_effect ..).keepsCore) (.ite ?_ (.refl j s))
    exact (irq_effect ..).beside (setFlt_effect ..).keepsCore

theorem classify_keepsCore (s : State) {kind ch : Nat} (cause count : Nat) (hc : kind = kTransit → Apart j (ch / 4)) :
    KeepsCore j s (classify s kind ch cause count) := by
  unfold classify
  split
  extract_lets value r flt s1 s2 s3 s4
  have h1 : KeepsCore j s s1 := (setFlt_effect ..).keepsCore
  have h2 : KeepsCore j s s2 := (KeepsCore.ite (setHistory_effect ..).keepsCore (setChan_effect ..).keepsCore).step h1
  exact (irq_effect ..).beside ((event_effect ..).beside ((emit_effect ..).beside ((classifyEffect_keepsCore s2 hc).step h2)))

theorem countTransient_keepsCore (s : State) {kind ch : Nat} (hc : kind = kTransit → Apart j (ch / 4)) :
    KeepsCore j s (countTransient s kind ch) := by
  unfold countTransient
  split
  extract_lets h s1 n w last
  have h1 : KeepsCore j s s1 := (setHistory_effect ..).keepsCore
  exact .ite h1 (.ite ((classify_keepsCore s1 _ _ hc).step h1) h1)

theorem transient_keepsCore (s : State) {kind ch : Nat} (addr : Nat)
    (hc : kind = kTransit → Apart j (ch / 4) := by exact fun e => absurd e (by decide)) :
    KeepsCore j s (transient s kind ch addr) := (countTransient_keepsCore _ hc).step (checkRec_effect ..).keepsCore

theorem exhaust_keepsCore (s : State) {kind ch : Nat} (addr : Nat)
    (hc : kind = kTransit → Apart j (ch / 4) := by exact fun e => absurd e (by decide)) :
    KeepsCore j s (exhaust s kind ch addr) := by
  unfold exhaust
  extract_lets s1
  have h1 : KeepsCore j s s1 := (checkRec_effect ..).keepsCore
  refine .ite ?_ h1
  split
  exact (classify_keepsCore s1 _ _ hc).step h1

theorem marginCount_keepsCore (s : State) (die : Nat) : KeepsCore j s (marginCount s die) :=
  .ite (countTransient_keepsCore s fun e => absurd e (by decide)) (.refl j s)

/-! ### Rows of memory -/

/-- What holds of the channels of every kind of memory holds of the channel of a row. The kernel must not evaluate the region that
`rowChan` matches on, so the definition is taken as a function before it meets its arguments. -/
theorem rowChan_cases {P : RowChan → Prop} (shared : ∀ ch die unit index, P ⟨kSharedBank, ch, die, unit, index⟩)
    (core : ∀ ch die unit index, P ⟨kCoreBank, ch, die, unit, index⟩)
    (hbm : ∀ ch die unit index, P ⟨kHbm, ch, die, unit, index⟩) (s : State) (a : Nat) : P (rowChan s a) := by
  have key : ∃ f, rowChan = f ∧ ∀ s a, P (f s a) := by
    refine ⟨?f, ?unfolded, ?cases⟩
    case unfolded => delta rowChan; rfl
    case cases =>
      intro s a
      generalize regionOf s a = r
      split
      · exact shared ..
      · exact core ..
      · exact hbm ..
  obtain ⟨f, rfl, hf⟩ := key
  exact hf s a

/-- The channel of a row is no transit path. -/
theorem exists_rowChan (s : State) (a : Nat) : ∃ c, rowChan s a = c ∧ c.kind ≠ kTransit :=
  rowChan_cases (P := fun x => ∃ c, x = c ∧ c.kind ≠ kTransit)
    (fun _ _ _ _ => ⟨_, rfl, (by decide : kSharedBank ≠ kTransit)⟩)
    (fun _ _ _ _ => ⟨_, rfl, (by decide : kCoreBank ≠ kTransit)⟩) (fun _ _ _ _ => ⟨_, rfl, (by decide : kHbm ≠ kTransit)⟩) s a

theorem rowReread_keepsCore (s : State) (a : Nat) : KeepsCore j s (rowReread s a) := by
  obtain ⟨c, he, hc⟩ := exists_rowChan s a
  unfold rowReread
  rw [he]
  exact (transient_keepsCore _ _ fun e => absurd e hc).step (.ite (bump_effect ..).keepsCore (bump_effect ..).keepsCore)

theorem rowFail_keepsCore (s : State) (a : Nat) : KeepsCore j s (rowFail s a) := by
  obtain ⟨c, he, hc⟩ := exists_rowChan s a
  unfold rowFail
  rw [he]
  extract_lets _ s1
  have h1 : KeepsCore j s s1 := .ite (bump_effect ..).keepsCore (bump_effect ..).keepsCore
  refine .ite h1 ((exhaust_keepsCore _ _ fun e => absurd e hc).step ?_)
  exact (KeepsCore.ite (.refl j s1) (transient_keepsCore _ _ fun e => absurd e hc)).step h1

theorem parityRetry_keepsCore (s : State) (a : Nat) : KeepsCore j s (parityRetry s a) := by
  obtain ⟨c, he, hc⟩ := exists_rowChan s a
  unfold parityRetry
  rw [he]
  exact .ite (transient_keepsCore _ _ fun e => absurd e hc) (.refl j s)

theorem setPoison_keepsCore (s : State) (l : List Nat) : KeepsCore j s { s with poison := l } :=
  (effect_set_poison l (by decide) (.refl [.poison] s)).keepsCore

/-- Counts, transients and failures of a checked read stand in no core's pages. -/
theorem readEffects_keepsCore (s : State) (mf : MemFaults) (base len : Nat) : KeepsCore j s (readEffects s mf base len) := by
  unfold readEffects
  extract_lets bad stop seen passed s1 s2 s3 s4 s5
  have h2 : KeepsCore j s s2 := .fold (fun _ _ => rowReread_keepsCore ..) (setPoison_keepsCore s _)
  have h3 : KeepsCore j s s3 := .fold (fun _ _ => (sectorCorrected_effect ..).keepsCore) h2
  have h4 : KeepsCore j s s4 := .fold (fun _ _ => (sectorUncorrected_effect ..).keepsCore) h3
  have h5 : KeepsCore j s s5 := .fold (fun _ _ => parityRetry_keepsCore ..) h4
  clear_value s5 s4 s3 s2 s1 passed seen stop bad
  cases bad with
  | some r => exact (rowFail_keepsCore ..).step h5
  | none => exact h5

theorem memRead_keepsCore (s : State) (m : Master) (base len : Nat) : KeepsCore j s (memRead s m base len).2 :=
  (memRead_effect ..).keepsCore

theorem feedRows_keepsCore (f : Feed) (mf : MemFaults) (n i : Nat) (s : State) (acc : List (Nat × Bytes)) :
    KeepsCore j s (feedRows f mf n i s acc).2.2 := by
  induction n generalizing i s acc with
  | zero => exact .refl j s
  | succ n ih =>
    have h1 (base len : Nat) : KeepsCore j s (memRead (readEffects s mf base len) .engine base len).2 :=
      (memRead_keepsCore ..).step (readEffects_keepsCore ..)
    unfold feedRows
    extract_lets base len bad
    have h2 := h1 base len
    generalize memRead (readEffects s mf base len) .engine base len = r at h2 ⊢
    obtain ⟨data, t⟩ := r
    dsimp only
    clear_value bad
    cases bad with
    | some r => exact h2
    | none => exact (ih ..).step h2

theorem feedRead_keepsCore (s : State) (f : Feed) (mf : MemFaults) : KeepsCore j s (feedRead s f mf).2.2 := feedRows_keepsCore ..

theorem mergeRow_keepsCore (s : State) (mf : MemFaults) (r : Nat) : KeepsCore j s (mergeRow s mf r) := by
  unfold mergeRow
  extract_lets here s1 s2 s3
  have h1 : KeepsCore j s s1 := .ite (sectorCorrected_effect ..).keepsCore (.refl j s)
  have h2 : KeepsCore j s s2 := (KeepsCore.ite (sectorUncorrected_effect ..).keepsCore (.refl j s1)).step h1
  have h3 : KeepsCore j s s3 := (KeepsCore.ite (setPoison_keepsCore s2 _) (.refl j s2)).step h2
  exact .ite ((poisonRow_effect ..).beside ((rowFail_keepsCore ..).step h3)) (.ite ((rowReread_keepsCore ..).step h3) h3)

theorem writeCodes_keepsCore (s : State) (mf : MemFaults) (base len : Nat) (keep : Nat → Bool) :
    KeepsCore j s (writeCodes s mf base len keep) := by
  unfold writeCodes
  extract_lets first last whole s1 s2 s3
  have h2 : KeepsCore j s s2 := .fold (fun _ _ => parityRetry_keepsCore ..) (setPoison_keepsCore s _)
  have h3 : KeepsCore j s s3 := .ite h2 ((mergeRow_keepsCore ..).step h2)
  exact .ite (.refl j s) (.ite h3 ((mergeRow_keepsCore ..).step h3))

theorem storeBytes_keepsCore (s : State) (mf : MemFaults) (base : Nat) (data : Bytes) (keep : Nat → Bool) :
    KeepsCore j s (storeBytes s mf base data keep) :=
  (lostWrites_effect ..).beside ((stored_effect ..).beside (writeCodes_keepsCore ..))

theorem landWrite_keepsCore (s : State) (mf : MemFaults) (base : Nat) (data : Bytes) (keep : Nat → Bool) :
    KeepsCore j s (landWrite s mf base data keep) := (hitGuards_keepsCore ..).step (storeBytes_keepsCore ..)

theorem landAll_keepsCore (s : State) (mf : MemFaults) (ws : List (Nat × Bytes)) : KeepsCore j s (landAll s mf ws) :=
  .fold (fun _ _ => landWrite_keepsCore ..) (.refl j s)

end

/-! ### Checked reads of an engine (R227, R277, R362) -/

section
variable {j k : Nat} (h : Apart j k)
include h

theorem checkRead_keepsCore (s : State) (er : EngineRun) (f : Nat → FreezeCond) (base len : Nat) :
    KeepsCore j s (checkRead s k er f base len) :=
  .fold (fun _ _ => slipFor_keepsCore h ..) (readEffects_keepsCore ..)

theorem engineRead_keepsCore (s : State) (bundle : Nat) (er : EngineRun) (f : Nat → FreezeCond) (base len : Nat) :
    KeepsCore j s (engineRead s k bundle er f base len) := (checkRead_keepsCore h ..).step (armGuards_keepsCore h ..)

theorem feedArms_keepsCore (s : State) (bundle : Nat) (f : Feed) : KeepsCore j s (feedArms s k bundle f) :=
  .fold (fun _ _ => armGuards_keepsCore h ..) (.refl j s)

theorem feedLand_keepsCore (s : State) (a : Nat) (lines : List (Nat × Bytes)) : KeepsCore j s (feedLand s k a lines) :=
  setArray_keepsCore h ..

end

end Sys2Proof.Machine
end

section
/-! PROOF. The engines of a core keep every other core: its arrays and accumulators (chapters 3 and 4), its vector engine (chapter 6)
and its update engine (chapter 7), cycle by cycle. -/

set_option Elab.async false

namespace Sys2Proof.Machine

section
variable {j k : Nat} (h : Apart j k)
include h

/-! ### Ports of an array (R135, R136, R153, R859) -/

theorem portEffects_keepsCore (s : State) (a bundle : Nat) (lf : LineFaults) (lines : List Nat) :
    KeepsCore j s (portEffects s k a bundle lf lines) := by
  unfold portEffects
  extract_lets ch good s1 st st' s2
  have h1 : KeepsCore j s s1 := .fold
    (fun _ _ => (slipFor_keepsCore h ..).step ((transient_keepsCore ..).step (bump_effect ..).keepsCore)) (.refl j s)
  have h2 : KeepsCore j s s2 := (setArray_keepsCore h ..).step h1
  split
  · extract_lets _ s3
    have hfail : KeepsCore j s (bump s2 F.spmFailCount_count (k / 24) 0 1) := (bump_effect ..).beside h2
    have h3 : KeepsCore j s s3 := .ite hfail ((exhaust_keepsCore ..).step ((transient_keepsCore ..).step hfail))
    exact (detect_keepsCore h ..).step ((slipFor_keepsCore h ..).step h3)
  · exact h2

theorem passPort_keepsCore (a : Nat) (s : State) (r : PassRun) : KeepsCore j s (passPort k a s r) := by
  unfold passPort
  extract_lets
  exact .ite (.refl j s) ((portEffects_keepsCore h ..).step (setArray_keepsCore h ..))

/-- A check of a load counts on the transit path of its own array (R150, R731). -/
theorem loadCheck_keepsCore {a : Nat} (ha : a < 4) (bundle : Nat) (s : State) (kind : Nat) :
    KeepsCore j s (loadCheck k a bundle s kind) := by
  have hchan : Apart j (arrChan k a / 4) := by
    rwa [show arrChan k a / 4 = k by unfold arrChan; omega]
  unfold loadCheck
  extract_lets
  split
  · exact (transient_keepsCore _ _ fun _ => hchan).step (bumpQuad_keepsCore h ..)
  · exact transient_keepsCore ..
  · exact (detect_keepsCore h ..).step (transient_keepsCore ..)

theorem loadPort_keepsCore {a : Nat} (ha : a < 4) (s : State) (l : LoadRun) : KeepsCore j s (loadPort k a s l) := by
  unfold loadPort
  extract_lets
  refine .ite (.refl j s) (.fold (fun _ _ => loadCheck_keepsCore h ha ..) ((portEffects_keepsCore h ..).step ?_))
  exact (setCore_keepsCore h ..).step (setArray_keepsCore h ..)

theorem arrayPorts_keepsCore {a : Nat} (ha : a < 4) (s : State) : KeepsCore j s (arrayPorts s k a) :=
  .fold (fun _ _ => loadPort_keepsCore h ha ..) (.fold (fun _ _ => passPort_keepsCore h ..) (.refl j s))

/-! ### Spills and drains (R187 to R191, R205 to R213) -/

theorem bump_spillReg_keepsCore (s : State) (a n : Nat) : KeepsCore j s (bump s (spillReg a) (k / 24) (k % 24) n) :=
  bumpCore_keepsCore h ..

theorem landSpill_keepsCore (s : State) (a : Nat) (sp : PendingSpill) : KeepsCore j s (landSpill s k a sp) := by
  unfold landSpill
  extract_lets
  refine .ite (setArray_keepsCore h ..) ((bump_spillReg_keepsCore h ..).step ?_)
  exact (storeBytes_keepsCore ..).step (setArray_keepsCore h ..)

theorem spillOne_keepsCore (s : State) (a : Nat) (er : EngineRun) (sp : PendingSpill) :
    KeepsCore j s (spillOne s k a er sp) := by
  unfold spillOne
  extract_lets addr bad s1
  have h1 : KeepsCore j s s1 := engineRead_keepsCore h ..
  clear_value s1 bad
  cases bad with
  | some r => exact (detect_keepsCore h ..).step h1
  | none => exact (landSpill_keepsCore h ..).step h1

theorem landInto_keepsCore (own : Option Nat) (base len before : Nat) (er : EngineRun) (n : Nat) (s : State) :
    KeepsCore j s (landInto k own base len before er n s) := by
  induction n generalizing s with
  | zero => exact .refl j s
  | succ n ih =>
    unfold landInto
    split
    · exact .refl j s
    · exact (ih _).step ((spillOne_keepsCore h ..).step (setArray_keepsCore h ..))

theorem drainOne_keepsCore (s : State) (a : Nat) (r : DrainRun) (i : Nat) : KeepsCore j s (drainOne s k a r i) := by
  unfold drainOne
  extract_lets
  split
  exact (storeBytes_keepsCore ..).step ((bump_spillReg_keepsCore h ..).step (setArray_keepsCore h ..))

theorem drainRead_keepsCore (a : Nat) (s : State) (r : DrainRun) : KeepsCore j s (drainRead k a s r) := by
  unfold drainRead
  extract_lets d i i' plateAt n s1 ranges bad s2
  have h1 : KeepsCore j s s1 := landInto_keepsCore h ..
  have h2 : KeepsCore j s s2 := .fold (fun _ _ => engineRead_keepsCore h ..) h1
  refine .ite (.refl j s) (.ite h1 ?_)
  clear_value s2 bad
  cases bad with
  | some row => exact (detect_keepsCore h ..).step h2
  | none => exact (drainOne_keepsCore h ..).step h2

theorem drainEnd_keepsCore (s : State) (a : Nat) (r : DrainRun) : KeepsCore j s (drainEnd s k a r) := by
  have flagged (t : State) (reg : Reg) (flag : Nat) : KeepsCore j t (flagCore (bumpQuad t reg k a 1) k flag) :=
    (flagCore_keepsCore h ..).step (bumpQuad_keepsCore h ..)
  unfold drainEnd
  extract_lets d fl s1 s2 s3
  have h1 : KeepsCore j s s1 := landWrite_keepsCore ..
  have h2 : KeepsCore j s s2 := (KeepsCore.ite (flagged s1 ..) (.refl j s1)).step h1
  have h3 : KeepsCore j s s3 := (KeepsCore.ite (flagged s2 ..) (.refl j s2)).step h2
  exact .ite ((emit_effect ..).beside h3) h3

theorem drainEnter_keepsCore (a : Nat) (s : State) (r : DrainRun) : KeepsCore j s (drainEnter k a s r) := by
  unfold drainEnter
  extract_lets d s1 st
  have h1 : KeepsCore j s s1 := .fold (fun _ _ => landWrite_keepsCore ..) (.refl j s)
  exact .ite ((drainEnd_keepsCore h ..).step ((setArray_keepsCore h ..).step h1)) ((setArray_keepsCore h ..).step h1)

theorem arrayWork_keepsCore (bad : List Nat) (s : State) {a : Nat} (ha : a < 4) : KeepsCore j s (arrayWork bad s k a) := by
  unfold arrayWork
  refine .ite (endStream_keepsCore h ..) ((arrayPorts_keepsCore h ha _).step ?_)
  exact .fold (fun _ _ => drainRead_keepsCore h ..) (setArray_keepsCore h ..)

theorem arrayEnter_keepsCore (s : State) (a : Nat) : KeepsCore j s (arrayEnter s k a) :=
  .fold (fun _ _ => drainEnter_keepsCore h ..) (setArray_keepsCore h ..)

/-! ### The vector engine (R324, R327, R332) -/

theorem movrRegs_keepsCore (s : State) (w : Nat) (b : Bytes) : KeepsCore j s (movrRegs s k w b) := by
  unfold movrRegs
  extract_lets
  split
  · exact wrCore_keepsCore h ..
  · exact wrCore_keepsCore h ..
  · exact wrCore_keepsCore h ..
  · exact .refl j s

theorem vecRead_keepsCore (s : State) (r : VecRun) : KeepsCore j s (vecRead k s r) := by
  unfold vecRead
  extract_lets
  refine .ite (.refl j s) (.ite (.refl j s) ((setCore_keepsCore h ..).step ((slipFor_keepsCore h ..).step ?_)))
  exact .fold (fun _ _ => engineRead_keepsCore h ..) (.refl j s)

theorem vecResults_keepsCore (s : State) (r : VecRun) : KeepsCore j s (vecResults k s r) :=
  .fold (fun _ _ => landWrite_keepsCore ..) (setCore_keepsCore h ..)

theorem vecWrite_keepsCore (s : State) (r : VecRun) : KeepsCore j s (vecWrite k s r) := by
  unfold vecWrite
  extract_lets
  split
  · exact .ite (.refl j s) (.ite (detect_keepsCore h ..) (vecResults_keepsCore h ..))
  · exact vecResults_keepsCore h ..

theorem rootStore_keepsCore (s : State) (r : VecRun) : KeepsCore j s (rootStore k s r) :=
  .fold (fun _ _ => slipFor_keepsCore h ..) (.refl j s)

theorem vecWork_keepsCore (bad : List Nat) (s : State) : KeepsCore j s (vecWork bad s k) :=
  .fold (fun _ _ => rootStore_keepsCore h ..) (.fold (fun _ _ => vecRead_keepsCore h ..)
    (.fold (fun _ _ => vecWrite_keepsCore h ..) (setCore_keepsCore h ..)))

theorem vecRegs_keepsCore (s : State) (r : VecRun) : KeepsCore j s (vecRegs k s r) := by
  unfold vecRegs
  extract_lets w s1 s2
  have h1 : KeepsCore j s s1 := .ite (wrCore_keepsCore h ..) (.refl j s)
  have h2 : KeepsCore j s s2 := (KeepsCore.ite (movrRegs_keepsCore h ..) (.refl j s1)).step h1
  exact .ite ((bumpCore_keepsCore h ..).step h2) h2

theorem vecFinish_keepsCore (s : State) (r : VecRun) : KeepsCore j s (vecFinish k s r) := by
  unfold vecFinish
  extract_lets s1
  have h1 : KeepsCore j s s1 := (keepInPoint_keepsCore h ..).step (vecRegs_keepsCore h ..)
  exact .ite ((flagCore_keepsCore h ..).step h1) h1

theorem vecEnter_keepsCore (s : State) : KeepsCore j s (vecEnter s k) :=
  .fold (fun _ _ => vecFinish_keepsCore h ..) (setCore_keepsCore h ..)

/-! ### The update engine (R355 to R365) -/

theorem retried_keepsCore (s : State) (e : Retry) : KeepsCore j s (retried k s e) := by
  unfold retried
  extract_lets s1 s2 s3
  have h1 : KeepsCore j s s1 := bumpCore_keepsCore h ..
  have h2 : KeepsCore j s s2 := (KeepsCore.ite (.refl j s1) (transient_keepsCore ..)).step h1
  have h3 : KeepsCore j s s3 := (KeepsCore.ite (marginCount_keepsCore ..) (.refl j s2)).step h2
  exact (slipFor_keepsCore h ..).step h3

theorem updInputs_keepsCore (s : State) (bundle : Nat) (er : EngineRun) (g : Nat) (reads : List (Nat × Nat)) :
    KeepsCore j s (updInputs s k bundle er g reads) := by
  unfold updInputs
  extract_lets again bad s1 s2 s3
  have h1 : KeepsCore j s s1 := .fold (fun _ _ => checkRead_keepsCore h ..) (.refl j s)
  have h2 : KeepsCore j s s2 := (KeepsCore.ite (.refl j s1) (bumpCore_keepsCore h ..)).step h1
  have h3 : KeepsCore j s s3 := (slipFor_keepsCore h ..).step (.fold (fun _ _ => retried_keepsCore h ..) h2)
  clear_value s3 bad
  cases bad with
  | some row => exact (detect_keepsCore h ..).step ((bumpCore_keepsCore h ..).step ((bumpCore_keepsCore h ..).step h3))
  | none => exact h3

theorem updFetch_keepsCore (s : State) (bundle w : Nat) : KeepsCore j s (updFetch s k bundle w).2 :=
  .ite (.fold (fun _ _ => armGuards_keepsCore h ..) (.refl j s)) (.refl j s)

theorem rootFailed_keepsCore (s : State) (bundle layer tile side : Nat) (o : SideOut) :
    KeepsCore j s (rootFailed s k bundle layer tile side o) :=
  (emit_effect ..).beside ((keepInPoint_keepsCore h ..).step (bumpCore_keepsCore h ..))

theorem setUpdRun_keepsCore (s : State) (r : UpdRun) : KeepsCore j s (setUpdRun s k r) := setCore_keepsCore h ..

theorem updWriteGroup_keepsCore (s : State) (r : UpdRun) (g : Nat) : KeepsCore j s (updWriteGroup s k r g) := by
  have flagged (t : State) (ws : List (Nat × Bytes)) (b : Bool) :
      KeepsCore j t (if b then flagCore (landAll t r.er.mf ws) k flagNonfinite else landAll t r.er.mf ws) :=
    .ite ((flagCore_keepsCore h ..).step (landAll_keepsCore ..)) (landAll_keepsCore ..)
  unfold updWriteGroup
  extract_lets u l c view o s1 s2 s3 o' s4 s5
  have h1 : KeepsCore j s s1 := .fold (fun _ _ => rootFailed_keepsCore h ..) (.refl j s)
  have h3 : KeepsCore j s s3 := (flagged s1 ..).step h1
  have h5 : KeepsCore j s s5 := flagged s ..
  exact .ite (.ite h3 ((setUpdRun_keepsCore h ..).step h3))
    (.ite ((flagCore_keepsCore h ..).step ((setUpdRun_keepsCore h ..).step h5)) h5)

omit h in
theorem updWriteHeader_keepsCore (s : State) (r : UpdRun) : KeepsCore j s (updWriteHeader s k r) := by
  unfold updWriteHeader
  extract_lets
  split
  · exact landWrite_keepsCore ..
  · exact .refl j s

theorem updReadAt_keepsCore (s : State) (r : UpdRun) (x : Int) : KeepsCore j s (updReadAt s k r x) := by
  unfold updReadAt
  extract_lets u l s1
  have h1 : KeepsCore j s s1 := .ite (updInputs_keepsCore h ..) (.refl j s)
  split
  · exact (updInputs_keepsCore h ..).step h1
  · exact h1

theorem updWork_keepsCore (bad : List Nat) (s : State) : KeepsCore j s (updWork bad s k) := by
  unfold updWork
  extract_lets c _ s1
  have h1 : KeepsCore j s s1 := setCore_keepsCore h ..
  split
  · exact h1
  · next r _ =>
    extract_lets s2 r' s3
    have h2 : KeepsCore j s s2 := by
      dsimp only [s2]
      split
      · exact (updWriteGroup_keepsCore h ..).step h1
      · exact h1
    have h3 : KeepsCore j s s3 := (KeepsCore.ite (updWriteHeader_keepsCore ..) (.refl j s2)).step h2
    exact .ite h1 ((updReadAt_keepsCore h ..).step h3)

theorem updCounts_keepsCore (s : State) (r : UpdRun) (n : Nat) : KeepsCore j s (updCounts s k r n) := by
  unfold updCounts
  extract_lets s1
  have h1 : KeepsCore j s s1 := .ite (bumpCore_keepsCore h ..) (.refl j s)
  exact .ite h1 ((bumpCore_keepsCore h ..).step h1)

theorem updFinish_keepsCore (s : State) (r : UpdRun) : KeepsCore j s (updFinish s k r) := by
  unfold updFinish
  extract_lets u l n s1
  have h1 : KeepsCore j s s1 := (keepInPoint_keepsCore h ..).step (updCounts_keepsCore h ..)
  exact .ite h1 ((flagCore_keepsCore h ..).step h1)

theorem updEnter_keepsCore (s : State) : KeepsCore j s (updEnter s k) := by
  unfold updEnter
  extract_lets c x _ s1
  have h1 : KeepsCore j s s1 := setCore_keepsCore h ..
  split
  · exact .ite ((updFinish_keepsCore h ..).step ((setCore_keepsCore h ..).step h1)) h1
  · exact h1

theorem updPrefetch_keepsCore (s : State) : KeepsCore j s (updPrefetch s k) := by
  refine .fold (fun t x => ?_) (.refl j s)
  exact .ite ((setCore_keepsCore h ..).step (updFetch_keepsCore h ..)) (.refl j t)

/-! ### One cycle of the engines (R263, R852) -/

theorem engineWork_keepsCore (bad : List Nat) (s : State) (e : Nat) : KeepsCore j s (engineWork bad k s e) := by
  unfold engineWork
  extract_lets
  split
  · next he => exact .ite (.refl j s) (arrayWork_keepsCore h bad s he)
  · exact .ite (.ite (.refl j s) (vecWork_keepsCore h ..)) (.ite (.refl j s) (updWork_keepsCore h ..))

theorem engineEnter_keepsCore (s : State) (e : Nat) : KeepsCore j s (engineEnter k s e) :=
  .ite (arrayEnter_keepsCore h ..) (.ite (vecEnter_keepsCore h s) (updEnter_keepsCore h s))

theorem cycleWork_keepsCore (bad : List Nat) (s : State) : KeepsCore j s (cycleWork bad s k) := by
  unfold cycleWork
  extract_lets held s1 s2
  have h1 : KeepsCore j s s1 := .fold (fun _ _ => engineWork_keepsCore h ..) (.refl j s)
  have h2 : KeepsCore j s s2 := (KeepsCore.ite (updPrefetch_keepsCore h ..) (.refl j s1)).step h1
  exact (freezeHeld_keepsCore h ..).step h2

theorem enterAll_keepsCore (s : State) (es : List Nat) : KeepsCore j s (enterAll s k es) :=
  (freezeHeld_keepsCore h ..).step (.fold (fun _ _ => engineEnter_keepsCore h ..) (.refl j s))

end

end Sys2Proof.Machine
end

section
/-! PROOF. The sequencer of a core keeps every other core: fetching and the wait at an interlock (R249, R851, R852), and the replay
procedure (R281 to R287, R853). -/

set_option Elab.async false

namespace Sys2Proof.Machine

/-- The failure of a check is no failure of a transit path (R273). -/
theorem exists_failureChan (s : State) (k : Nat) (f : Failure) :
    ∃ kind ch addr, failureChan s k f = (kind, ch, addr) ∧ kind ≠ kTransit := by
  have ofRow (r : Nat) : ∃ kind ch addr, ((rowChan s r).kind, (rowChan s r).ch, (rowChan s r).index) = (kind, ch, addr) ∧
      kind ≠ kTransit := by
    obtain ⟨c, he, hc⟩ := exists_rowChan s r
    rw [he]
    exact ⟨_, _, _, rfl, hc⟩
  unfold failureChan
  extract_lets
  split
  · exact ⟨_, _, _, rfl, by decide⟩
  · exact ofRow _
  · exact ofRow _
  · exact ⟨_, _, _, rfl, by split <;> decide⟩
  · exact ⟨_, _, _, rfl, by decide⟩
  · exact ⟨_, _, _, rfl, by decide⟩

section
variable {j k : Nat} (h : Apart j k)
include h

/-! ### Fetching, and the cycles of a wait -/

theorem placePoint_keepsCore (s : State) (marked : Bool) : KeepsCore j s (placePoint s k marked) := setCore_keepsCore h ..

theorem fetchSome_keepsCore (limit n : Nat) (s : State) : KeepsCore j s (fetchSome k limit n s) := by
  induction n generalizing s with
  | zero => exact .refl j s
  | succ n ih =>
    unfold fetchSome
    extract_lets _ _ _ _ _ _ s1 _ s2
    have h1 : KeepsCore j s s1 := readEffects_keepsCore ..
    have h2 : KeepsCore j s s2 := (setCore_keepsCore h ..).step h1
    exact .ite (.refl j s) (.ite ((endStream_keepsCore h ..).step h1)
      (.ite ((endStream_keepsCore h ..).step h2) ((ih _).step h2)))

theorem comeDue_keepsCore (s : State) : KeepsCore j s (comeDue s k) := by
  have hlate : KeepsCore j s (lateFreeze s k) := .fold (fun _ _ => slipFor_keepsCore h ..) (setCore_keepsCore h ..)
  exact .ite ((passEmpty_keepsCore h ..).step hlate) hlate

theorem interlockStep_keepsCore (n : Nat) (s : State) : KeepsCore j s (interlockStep k n s) := by
  unfold interlockStep
  extract_lets s1
  have h1 : KeepsCore j s s1 := cycleWork_keepsCore h ..
  refine .ite (.refl j s) (.ite (.refl j s) (.ite h1 ?_))
  exact (setCore_keepsCore h ..).step ((countFrozen_keepsCore h ..).step ((enterAll_keepsCore h ..).step h1))

theorem interlockSteps_keepsCore (n : Nat) (s : State) : KeepsCore j s (interlockSteps k n s) := by
  induction n generalizing s with
  | zero => exact .refl j s
  | succ n ih => exact .ite ((ih _).step (interlockStep_keepsCore h ..)) (interlockStep_keepsCore h ..)

/-! ### The replay procedure -/

theorem countFailure_keepsCore (s : State) (f : Failure) : KeepsCore j s (countFailure k s f) := by
  obtain ⟨kind, ch, addr, he, hk⟩ := exists_failureChan s k f
  have hc : kind = kTransit → Apart j (ch / 4) := fun e => absurd e hk
  have counted (t u : State) (ht : KeepsCore j s t) (hu : u = transient t kind ch addr) : KeepsCore j s u :=
    hu ▸ (transient_keepsCore t addr hc).step ht
  have margin (c : Bool) (t : State) (ht : KeepsCore j s t) : KeepsCore j s (if c then marginCount t (k / 24) else t) :=
    .ite ((marginCount_keepsCore ..).step ht) ht
  unfold countFailure
  extract_lets
  rw [he]
  dsimp only
  split
  · exact margin _ _ (counted _ _ (bumpQuad_keepsCore h ..) rfl)
  · exact margin _ _ (counted _ _ (bumpQuad_keepsCore h ..) rfl)
  · exact margin _ _ (counted _ _ (bumpQuad_keepsCore h ..) rfl)
  · exact .ite (bumpQuad_keepsCore h ..) (counted _ _ (bumpQuad_keepsCore h ..) rfl)
  · refine .ite (margin _ _ (counted _ _ (bumpCore_keepsCore h ..) rfl)) (margin _ _ ?_)
    exact (exhaust_keepsCore _ _ hc).step (counted _ _ (bumpCore_keepsCore h ..) rfl)
  · exact .ite (counted _ _ (.refl j s) rfl) (.refl j s)
  · exact .ite (counted _ _ (.refl j s) rfl) (.refl j s)
  · exact .refl j s

theorem pauseSteps_keepsCore (fails : List (Nat × Failure)) (n i : Nat) (s : State) :
    KeepsCore j s (pauseSteps k fails n i s) := by
  induction n generalizing i s with
  | zero => exact .refl j s
  | succ n ih =>
    unfold pauseSteps
    extract_lets _ _ s1 s2
    have h1 : KeepsCore j s s1 := .fold (fun _ _ => engineEnter_keepsCore h ..)
      (.fold (fun _ _ => engineWork_keepsCore h ..) (.refl j s))
    have h2 : KeepsCore j s s2 := (wrCore_keepsCore h ..).step h1
    exact .ite (setCore_keepsCore h ..) (.ite h2 ((ih ..).step h2))

theorem replaySpills_keepsCore (p : ReplayPt) (f : Nat) (er : EngineRun) (n : Nat) (s : State) :
    KeepsCore j s (replaySpills k p f er n s) := by
  induction n generalizing s with
  | zero => exact .refl j s
  | succ n ih =>
    unfold replaySpills
    extract_lets
    split
    · exact .refl j s
    · exact (ih _).step ((spillOne_keepsCore h ..).step (setArray_keepsCore h ..))

theorem rereadFeed_keepsCore (mf : MemFaults) (s : State) (x : FeedRead) : KeepsCore j s (rereadFeed k mf s x) := by
  unfold rereadFeed
  split
  next lines bad s1 e =>
    extract_lets c s2
    have h2 : KeepsCore j s s2 := (setCore_keepsCore h ..).step ((feedRead_keepsCore ..).snd3 e)
    split
    · exact (detect_keepsCore h ..).step h2
    · exact h2

theorem landArrived_keepsCore (s : State) (p : ReplayPt) (arrived : List Nat) : KeepsCore j s (landArrived s k p arrived) :=
  .fold (fun _ _ => feedLand_keepsCore h ..) (setCore_keepsCore h ..)

theorem dropFailed_keepsCore (s : State) (fails : List Failure) : KeepsCore j s (dropFailed s k fails) := by
  refine .fold (fun t f => ?_) (.refl j s)
  split
  · exact setArray_keepsCore h ..
  · exact .refl j t

theorem finishBefore_keepsCore (s : State) (p : ReplayPt) (f : Nat) (r : ReplayCase) :
    KeepsCore j s (finishBefore s k p f r) := by
  unfold finishBefore
  extract_lets _ _ _ s1 s2
  have h1 : KeepsCore j s s1 := setCore_keepsCore h ..
  have h2 : KeepsCore j s s2 := (wrCore_keepsCore h ..).step ((pauseSteps_keepsCore h ..).step h1)
  exact (freezeHeld_keepsCore h ..).step ((replaySpills_keepsCore h ..).step ((setCore_keepsCore h ..).step h2))

theorem startReplay_keepsCore (s : State) (p : ReplayPt) (f : Nat) (fails : List Failure) (r : ReplayCase) :
    KeepsCore j s (startReplay s k p f fails r) := by
  unfold startReplay
  extract_lets s1 feeds _ s2 q s3 c s4
  have h1 : KeepsCore j s s1 := (withdrawWaits_effect ..).beside (dropFailed_keepsCore h ..)
  have h2 : KeepsCore j s s2 := (finishBefore_keepsCore h ..).step ((setCore_keepsCore h ..).step h1)
  have h3 : KeepsCore j s s3 := (restoreRegs_keepsCore h ..).step (.fold (fun _ _ => setArray_keepsCore h ..) h2)
  have h4 : KeepsCore j s s4 := (setCore_keepsCore h ..).step h3
  exact (setSeqState_keepsCore h ..).step (.fold (fun _ _ => rereadFeed_keepsCore h ..) h4)

theorem slipTimeout_keepsCore (s : State) (limit : Nat) : KeepsCore j s (slipTimeout s k limit) :=
  (endStream_keepsCore h ..).step (countFrozen_keepsCore h ..)

theorem replayLost_keepsCore (s : State) (p : ReplayPt) (f : Nat) (x : Failure) (status : Nat) :
    KeepsCore j s (replayLost s k p f x status) := by
  obtain ⟨kind, ch, addr, he, hk⟩ := exists_failureChan s k x
  unfold replayLost
  rw [he]
  refine (endStream_keepsCore h ..).step ((replayRec_effect ..).beside ?_)
  exact .ite (exhaust_keepsCore _ _ fun e => absurd e hk) (.refl j s)

theorem replayFor_keepsCore (s : State) (p : ReplayPt) (fails : List Failure) (r : ReplayCase) :
    KeepsCore j s (replayFor s k p fails r) := by
  unfold replayFor
  split
  · exact .refl j s
  · extract_lets _ s1 ends _ chan
    have h1 : KeepsCore j s s1 := landArrived_keepsCore h ..
    have h2 : KeepsCore j s chan := (bumpCore_keepsCore h ..).step (.fold (fun _ _ => countFailure_keepsCore h ..) h1)
    clear_value ends
    cases ends with
    | some st => exact (replayLost_keepsCore h ..).step h2
    | none =>
      refine (startReplay_keepsCore h ..).step ((irq_effect ..).beside ((bumpCore_keepsCore h ..).step ?_))
      exact (replayRec_effect ..).beside h2

end

end Sys2Proof.Machine
end

section
/-! PROOF. The commands of a core keep every other core (R251, R277, R285). -/

set_option Elab.async false

namespace Sys2Proof.Machine

section
variable {j : Nat} {c : CoreRef} (h : Apart j (coreKey c))
include h

/-! ### Descriptors of a core ring (R240 to R246, R336 to R339) -/

theorem execInstall_sparesCore (mf : MemFaults) (s : State) : SparesCore j s (execInstall c mf s) := by
  unfold execInstall
  extract_lets
  split
  · exact .same
  next ht =>
    extract_lets _ _ _ _ s2
    refine .from (takeDesc_effect ht).keepsCore ?_
    refine .ite (.next (finishWith_effect ..).keepsCore) ?_
    refine .ite (.next ((finishWith_effect ..).beside (wrCore_keepsCore h ..))) ?_
    refine .ite (.next (finishWith_effect ..).keepsCore) (.ite (.next (finishWith_effect ..).keepsCore) ?_)
    refine .from (t := s2) (readEffects_keepsCore ..) (.ite (.next (finishWith_effect ..).keepsCore) ?_)
    split
    next hr =>
    extract_lets
    refine .from ((memRead_keepsCore ..).snd hr) ?_
    split
    · exact .next ((finishWith_effect ..).beside (wrCore_keepsCore h ..))
    · exact .next ((finish_effect ..).beside ((setCore_keepsCore h ..).step ((wr_effect ..).beside ((wr_effect ..).beside
        (wr_effect ..).keepsCore))))

theorem execRun_sparesCore (s : State) : SparesCore j s (execRun c s) := by
  unfold execRun
  extract_lets
  split
  · exact .same
  next ht =>
    refine .from (takeDesc_effect ht).keepsCore ?_
    refine .ite (.next (finishWith_effect ..).keepsCore) ?_
    refine .ite (.next (finishWith_effect ..).keepsCore) (.ite (.next (finishWith_effect ..).keepsCore) ?_)
    exact .next ((settlePower_effect _).beside ((wrCore_keepsCore h ..).step ((setCore_keepsCore h ..).step
      (keepActive_effect ..).keepsCore)))

theorem execLayers_sparesCore (mf : MemFaults) (s : State) : SparesCore j s (execLayers c mf s) := by
  unfold execLayers
  extract_lets
  split
  · exact .same
  next ht =>
    extract_lets _ _ _ _ _ _ _ s2
    refine .from (takeDesc_effect ht).keepsCore ?_
    refine .ite (.next (finishWith_effect ..).keepsCore) ?_
    refine .ite (.next (finishWith_effect ..).keepsCore) (.ite (.next (finishWith_effect ..).keepsCore) ?_)
    refine .from (t := s2) (readEffects_keepsCore ..) ?_
    split
    next hr =>
    refine .from ((memRead_keepsCore ..).snd hr) (.ite (.next (finishWith_effect ..).keepsCore) ?_)
    exact .ite (.next (finishWith_effect ..).keepsCore) (.next ((finish_effect ..).beside (setCore_keepsCore h ..)))

/-! ### The sequencer (R247 to R290) -/

theorem execStreamStart_sparesCore (mf : MemFaults) (late : List (Nat × Nat)) (s : State) :
    SparesCore j s (execStreamStart c mf late s) := by
  unfold execStreamStart
  extract_lets _ _ s1
  split
  · exact .same
  · refine .ite .same ?_
    refine .from (t := s1) ((fetchSome_keepsCore h ..).step ((setCore_keepsCore h ..).step (wrCore_keepsCore h ..))) ?_
    refine .ite .same (.next ((passEmpty_keepsCore h ..).step ((emit_effect ..).beside ?_)))
    exact (setSeqState_keepsCore h ..).step ((setCore_keepsCore h ..).step (placePoint_keepsCore h ..))

theorem execStreamComplete_sparesCore (s : State) : SparesCore j s (execStreamComplete c s) :=
  .ite (.next (endStream_keepsCore h ..)) .same

theorem execReplayPoint_sparesCore (s : State) : SparesCore j s (execReplayPoint c s) :=
  .ite (.next ((passEmpty_keepsCore h ..).step ((placePoint_keepsCore h ..).step (setCore_keepsCore h ..)))) .same

theorem execInterlockRelease_sparesCore (s : State) : SparesCore j s (execInterlockRelease c s) := by
  unfold execInterlockRelease
  extract_lets
  split
  · exact .same
  · extract_lets s1
    refine .ite .same (.from (t := s1) (interlockSteps_keepsCore h ..) ?_)
    exact .ite (.next ((setSeqState_keepsCore h ..).step (setCore_keepsCore h ..))) .same

theorem execCoreResume_sparesCore (n : Nat) (s : State) : SparesCore j s (execCoreResume c n s) := by
  unfold execCoreResume
  extract_lets _ _ _ _ _ _ s1 _ s2
  have h2 : KeepsCore j s s2 := (setCore_keepsCore h ..).step (countFrozen_keepsCore h ..)
  exact .ite .same (.next (.ite ((passEmpty_keepsCore h ..).step ((setSeqState_keepsCore h ..).step h2)) h2))

theorem execWatchdogTimeout_sparesCore (s : State) : SparesCore j s (execWatchdogTimeout c s) := by
  unfold execWatchdogTimeout
  extract_lets
  split
  · exact .ite (.next (slipTimeout_keepsCore h ..)) .same
  · exact .same

theorem execReplay_sparesCore (failures : ReplayCase) (s : State) : SparesCore j s (execReplay c failures s) := by
  unfold execReplay
  extract_lets _ _ _ s1
  have h1 : KeepsCore j s s1 := cycleWork_keepsCore h ..
  split
  · extract_lets
    refine .ite .same (.ite (.ite .same (.next (replayFor_keepsCore h ..))) (.ite .same (.ite (.next h1) (.ite .same ?_))))
    refine .from h1 ?_
    split
    · refine .ite (.next (slipTimeout_keepsCore h ..)) ?_
      exact .next ((replayFor_keepsCore h ..).step (countFrozen_keepsCore h ..))
    · exact .next ((replayFor_keepsCore h ..).step (countFrozen_keepsCore h ..))
  · exact .same

theorem execReplayResume_sparesCore (pauseCycles : PauseEnd) (s : State) :
    SparesCore j s (execReplayResume c pauseCycles s) := by
  unfold execReplayResume
  extract_lets
  split
  · extract_lets s1 s2 s3 s4
    have h2 : KeepsCore j s s2 := (bumpCore_keepsCore h ..).step (setCore_keepsCore h ..)
    have h3 : KeepsCore j s s3 := (fetchSome_keepsCore h ..).step ((flagCore_keepsCore h ..).step
      ((wrCore_keepsCore h ..).step h2))
    refine .ite .same (.ite (.next h3) (.ite .same (.next ((comeDue_keepsCore h ..).step ?_))))
    exact (setSeqState_keepsCore h ..).step ((setCore_keepsCore h ..).step h3)
  · exact .same

/-! ### Arrays and accumulators (chapters 3 and 4) -/

theorem execFeed_sparesCore (late : Nat) (mf : MemFaults) (s : State) : SparesCore j s (execFeed c late mf s) := by
  unfold execFeed
  extract_lets
  split
  · exact .same
  · extract_lets
    refine .ite .same (.ite (.next (wideIssued_keepsCore h s)) ?_)
    split
    · exact .next ((slipFor_keepsCore h ..).step ((wideIssued_keepsCore h ..).step ((feedLand_keepsCore h ..).step
        (setCore_keepsCore h ..))))
    · split
      next hr =>
      refine .from (((feedRead_keepsCore ..).snd3 hr).step (feedArms_keepsCore h ..)) ?_
      split
      · exact .next ((detect_keepsCore h ..).step (wideIssued_keepsCore h ..))
      · exact .next ((slipFor_keepsCore h ..).step ((wideIssued_keepsCore h ..).step (feedLand_keepsCore h ..)))

theorem execFeedReadIssue_sparesCore (bundle : Nat) (mf : MemFaults) (s : State) :
    SparesCore j s (execFeedReadIssue c bundle mf s) := by
  unfold execFeedReadIssue
  extract_lets
  refine .ite .same ?_
  split
  · exact .same
  · extract_lets s1
    refine .from (t := s1) (.ite (feedArms_keepsCore h ..) (.refl j s)) ?_
    split
    next hr =>
    extract_lets
    refine .from ((feedRead_keepsCore ..).snd3 hr) ?_
    split
    · exact .next (detect_keepsCore h ..)
    · exact .next (setCore_keepsCore h ..)

theorem execMload_sparesCore (load : LoadFaults) (lines : LineFaults) (s : State) :
    SparesCore j s (execMload c load lines s) := by
  unfold execMload
  extract_lets
  split
  · exact .same
  · refine .ite .same (.ite (.next (interlockFor_keepsCore h ..)) (.next ((wideIssued_keepsCore h ..).step ?_)))
    exact (setArray_keepsCore h ..).step (.ite (setCore_keepsCore h ..) (.refl j s))

theorem runPass_keepsCore (s : State) (op : Nat) (lines : LineFaults) : KeepsCore j s (runPass s (coreKey c) op lines) := by
  unfold runPass
  split
  · exact .refl j s
  · extract_lets p a core st t start s1 s2
    have h2 : KeepsCore j s s2 := (setArray_keepsCore h ..).step (bumpCore_keepsCore h ..)
    refine .ite (wideIssued_keepsCore h s) (.ite (interlockFor_keepsCore h ..) ((wideIssued_keepsCore h ..).step ?_))
    exact .ite ((flagCore_keepsCore h ..).step h2) h2

theorem execPlate_sparesCore (s : State) : SparesCore j s (execPlate c s) := by
  unfold execPlate
  extract_lets
  split
  · exact .same
  · exact .ite .same (.ite (.next (wideIssued_keepsCore h s)) (.next ((wideIssued_keepsCore h ..).step
      (setArray_keepsCore h ..))))

theorem execDrain_sparesCore (er : EngineRun) (s : State) : SparesCore j s (execDrain c er s) := by
  unfold execDrain
  extract_lets
  split
  · exact .same
  · extract_lets
    refine .ite .same (.ite (.next (wideIssued_keepsCore h s)) (.ite (.next (interlockFor_keepsCore h ..)) ?_))
    split
    · exact .next ((wideIssued_keepsCore h ..).step (setArray_keepsCore h ..))
    · exact .next (wideIssued_keepsCore h s)

theorem execSpill_sparesCore (array : Fin 4) (er : EngineRun) (s : State) : SparesCore j s (execSpill c array er s) := by
  unfold execSpill
  extract_lets
  refine .ite .same ?_
  split
  · exact .same
  · refine .ite .same (.next ((freezeHeld_keepsCore h ..).step ((spillOne_keepsCore h ..).step ?_)))
    exact (setArray_keepsCore h ..).step (landInto_keepsCore h ..)

/-! ### The vector and update engines (chapters 6 and 7) -/

theorem runVector_keepsCore (s : State) (cls op : Nat) (er : EngineRun) :
    KeepsCore j s (runVector s (coreKey c) cls op er) := by
  unfold runVector
  split
  · exact .refl j s
  · extract_lets
    refine .ite (.refl j s) ?_
    split
    · exact .refl j s
    · exact .ite (wideIssued_keepsCore h s) (.ite (interlockFor_keepsCore h ..) ((wideIssued_keepsCore h ..).step
        (setCore_keepsCore h ..)))

theorem runUpdate_keepsCore (s : State) (opcode : Nat) (er : EngineRun) :
    KeepsCore j s (runUpdate s (coreKey c) opcode er) := by
  unfold runUpdate
  split
  · exact .refl j s
  · extract_lets
    refine .ite (.refl j s) (.ite (wideIssued_keepsCore h s) (.ite (interlockFor_keepsCore h ..) ?_))
    split
    next got s1 e =>
    have h1 : KeepsCore j s s1 := by
      split at e
      · cases e; exact .refl j s
      · exact (updFetch_keepsCore h ..).snd e
    exact (wideIssued_keepsCore h ..).step ((setCore_keepsCore h ..).step h1)

/-! ### Synchronisation (R276, R282, R460 to R466) -/

theorem execSignal_sparesCore (s : State) : SparesCore j s (execSignal c s) := by
  have passed (x : CoreState) : SparesCore j s (.next (narrowIssued (setCore s (coreKey c) x) (coreKey c))) :=
    .next ((narrowIssued_keepsCore h ..).step (setCore_keepsCore h ..))
  unfold execSignal
  extract_lets
  split
  · exact .same
  · exact .ite (.next (narrowIssued_keepsCore h s)) (.ite (passed _) (passed _))

theorem execSignalSend_sparesCore (s : State) : SparesCore j s (execSignalSend c s) := by
  unfold execSignalSend
  extract_lets
  split
  · exact .ite .same (.next ((sendSignal_effect ..).beside (setCore_keepsCore h ..)))
  · exact .same

theorem execWait_sparesCore (s : State) : SparesCore j s (execWait c s) := by
  unfold execWait
  extract_lets
  split
  · exact .same
  · refine .ite (.next ((narrowIssued_keepsCore h ..).step (setCore_keepsCore h ..))) (.ite (.next ?_) (.next ?_))
    · exact (narrowIssued_keepsCore h ..).step ((setCore_keepsCore h ..).step (bump_effect ..).keepsCore)
    · exact (freezeCore_keepsCore h ..).step ((narrowIssued_keepsCore h ..).step (sendWait_effect ..).keepsCore)

theorem execGuard_sparesCore (s : State) : SparesCore j s (execGuard c s) := by
  unfold execGuard
  extract_lets
  split
  · exact .same
  · exact .next ((narrowIssued_keepsCore h ..).step (setCore_keepsCore h ..))

/-! ### Every command of the core -/

/-- The shapes of a core's command: one of the families that share a meaning, or one of its own. -/
theorem exec_sparesCore (i : Instr) (hi : coreOfCommand i = some c) (s : State) : SparesCore j s (exec i s) := by
  have vector (cls op : Nat) (er : EngineRun) : SparesCore j s (.next (runVector s (coreKey c) cls op er)) :=
    .next (runVector_keepsCore h ..)
  have update (opcode : Nat) (er : EngineRun) : SparesCore j s (.next (runUpdate s (coreKey c) opcode er)) :=
    .next (runUpdate_keepsCore h ..)
  have pass (op : Nat) (lines : LineFaults) : SparesCore j s (.next (runPass s (coreKey c) op lines)) :=
    .next (runPass_keepsCore h ..)
  cases i <;> try contradiction
  all_goals obtain rfl := Option.some.inj hi
  case install => exact execInstall_sparesCore h ..
  case run => exact execRun_sparesCore h s
  case layers => exact execLayers_sparesCore h ..
  case streamStart => exact execStreamStart_sparesCore h ..
  case streamComplete => exact execStreamComplete_sparesCore h s
  case replayPoint => exact execReplayPoint_sparesCore h s
  case feed => exact execFeed_sparesCore h ..
  case feedReadIssue => exact execFeedReadIssue_sparesCore h ..
  case mload => exact execMload_sparesCore h ..
  case mpassMac | mpassL1 | mpassL2sq | mpassMinplus | mpassMaxplus | mpassMaxmin | mpassMatch => exact pass ..
  case plate => exact execPlate_sparesCore h s
  case drain => exact execDrain_sparesCore h ..
  case spill => exact execSpill_sparesCore h ..
  case interlockRelease => exact execInterlockRelease_sparesCore h s
  case coreResume => exact execCoreResume_sparesCore h ..
  case watchdogTimeout => exact execWatchdogTimeout_sparesCore h s
  case replay => exact execReplay_sparesCore h ..
  case replayResume => exact execReplayResume_sparesCore h ..
  case signal => exact execSignal_sparesCore h s
  case signalSend => exact execSignalSend_sparesCore h s
  case wait => exact execWait_sparesCore h s
  case guard => exact execGuard_sparesCore h s
  case update | uroot => exact update ..
  all_goals exact vector ..

end

/-- Settles O60: each operation of a core sets its own core and registers alone, but for a store, which marks the guards of every
core. -/
theorem coresKeepToThemselves : Obligations.CoresKeepToThemselves := by
  intro i c c' s hi hc
  obtain ⟨t, ht, hstate, hregs⟩ := exec_sparesCore (apart_of_ne hc) i hi s
  exact ⟨t, ht, hstate, hregs⟩

end Sys2Proof.Machine
end

section
/-! PROOF. Frozen cycles counted (R267, R269) and the end of a stream (R250 to R252): what both leave of the core, and what the end
says of it. -/

set_option Elab.async false

namespace Sys2Proof.Machine

/-! ### What an effect leaves -/

section
variable {w : List Part} {s t : State} (h : Effect w s t)
include h

theorem Effect.field_same (f : Fld) (hw : Part.reg f.reg ∉ w) (die unit : Nat) : rf t f die unit = rf s f die unit :=
  congrArg (bits · f.hi f.lo) (h.frame.same (.reg f.reg) hw die unit)

theorem Effect.coreOf_same (hw : Part.cores ∉ w) (k : Nat) : coreOf t k = coreOf s k :=
  congrArg (fun m => Map.getD m k CoreState.fresh) (h.frame.same .cores hw)

theorem Effect.ringWork_same (hw : Part.rings ∉ w) (die n : Nat) : ringWork t die n = ringWork s die n :=
  congrArg (fun m => Map.getD m (die * 64 + n) RingWork.fresh) (h.frame.same .rings hw)

theorem Effect.seqState_same (hw : Part.reg .seqState ∉ w) (k : Nat) : seqState t k = seqState s k := h.field_same F.seqState_state hw ..

end

/-! ### Saturating counts -/

theorem satAdd_zero {w a : Nat} (h : a < 2 ^ w) : satAdd w a 0 = a := if_pos h

theorem satAdd_lt (w a n : Nat) : satAdd w a n < 2 ^ w := by
  have := Nat.two_pow_pos w
  unfold satAdd
  split <;> omega

theorem satAdd_satAdd {w a : Nat} (h : a < 2 ^ w) (m n : Nat) : satAdd w (satAdd w a m) n = satAdd w a (m + n) := by
  unfold satAdd
  generalize 2 ^ w = q at h ⊢
  repeat' split
  all_goals omega

theorem rf_lt (s : State) (f : Fld) (die unit : Nat) : rf s f die unit < 2 ^ (f.hi - f.lo + 1) := Nat.mod_lt _ (Nat.two_pow_pos _)

theorem counts_zero (s : State) (f : Fld) (die unit : Nat) : Counts s s f die unit 0 := (satAdd_zero (rf_lt ..)).symm

theorem Counts.add {s t u : State} {f : Fld} {die unit m n : Nat} (h : Counts s t f die unit m) (h' : Counts t u f die unit n) :
    Counts s u f die unit (m + n) := by
  unfold Counts at *
  rw [h', h, satAdd_satAdd (rf_lt ..)]

theorem counts_bump (s : State) {f : Fld} (hf : f.fits = true) (die unit n : Nat) : Counts s (bump s f die unit n) f die unit n :=
  (rf_wf_same s f die unit _ hf).trans (Nat.mod_eq_of_lt (satAdd_lt ..))

/-- A count is that of the part in which it moves. -/
theorem Counts.congr {s t s' t' : State} {f : Fld} {die unit n : Nat} (h : Counts s t f die unit n)
    (hs : rf s f die unit = rf s' f die unit) (ht : rf t' f die unit = rf t f die unit) : Counts s' t' f die unit n := by
  unfold Counts at *
  rw [ht, h, hs]

/-! ### Frozen cycles -/

/-- A core in which frozen cycles alone have been counted. -/
def CoreState.Tallied (c c' : CoreState) : Prop := ∃ flags slipRun frozen, c' = { c with flags, slipRun, frozen }

theorem countSlip_core (s : State) (k n : Nat) : ∃ flags, coreOf (countSlip s k n) k = { coreOf s k with flags } := by
  unfold countSlip
  split
  · exact ⟨_, rfl⟩
  · exact ⟨_, coreOf_flagCore ..⟩

theorem countFrozen_core (s : State) (k slip wait : Nat) : (coreOf s k).Tallied (coreOf (countFrozen s k slip wait) k) := by
  obtain ⟨flags, h⟩ := countSlip_core s k slip
  have e : coreOf (countFrozen s k slip wait) k = { coreOf (countSlip s k slip) k with
      slipRun := if wait = 0 then (coreOf (countSlip s k slip) k).slipRun + slip else 0, frozen := 0 } := coreOf_setCore_same ..
  exact ⟨flags, _, 0, e.trans (by rw [h])⟩

theorem countFrozen_slip (s : State) (k slip wait : Nat) :
    Counts s (countFrozen s k slip wait) F.seqSlipCycles_cycles (k / 24) (k % 24) slip := by
  have hslip : Counts s (countSlip s k slip) F.seqSlipCycles_cycles (k / 24) (k % 24) slip := by
    unfold countSlip
    split
    next h => exact h ▸ counts_zero ..
    · exact (counts_bump s (by decide) ..).congr rfl ((flagCore_effect ..).field_same _ (by decide) ..)
  unfold countFrozen
  extract_lets n s1 c
  refine hslip.congr rfl (((bumpCore_effect ..).field_same _ (by decide) ..).trans ?_)
  exact ((setCore_effect ..).field_same _ (by decide) ..).trans ((bumpCore_effect ..).field_same _ (by decide) ..)

theorem countFrozen_wait (s : State) (k slip wait : Nat) :
    Counts s (countFrozen s k slip wait) F.seqWaitCycles_cycles (k / 24) (k % 24) wait := by
  unfold countFrozen
  extract_lets n s1 c
  refine (counts_bump (countSlip s k slip) (by decide) ..).congr ((countSlip_effect s k slip).field_same _ (by decide) ..) ?_
  exact ((bumpCore_effect ..).field_same _ (by decide) ..).trans ((setCore_effect ..).field_same _ (by decide) ..)

theorem countCut_core (s : State) (k : Nat) : (coreOf s k).Tallied (coreOf (countCut s k) k) := by
  unfold countCut
  extract_lets
  split
  · exact ⟨_, _, _, rfl⟩
  · exact countFrozen_core ..

/-! ### The end of a stream -/

theorem streamCount_of_effect {w : List Part} {s t : State} (h : Effect w s t) (hstate : Part.reg .seqState ∉ w)
    (hslot : Part.reg .seqSlotInfo ∉ w) (k : Nat) : streamCount t k = streamCount s k := by
  unfold streamCount slotBundles slotInfo seqSlot
  rw [h.field_same F.seqState_slot hstate, h.frame.same (.reg .seqSlotInfo) hslot]

@[simp] theorem ringWork_setRing_same (s : State) (die n : Nat) (v : RingWork) : ringWork (setRing s die n v) die n = v := by
  simp [ringWork, setRing, Map.getD, Map.find_put_same]

theorem mem_toWrite_queueCompletion (s : State) (die n : Nat) (c : Completion) :
    c ∈ (ringWork (queueCompletion s die n c) die n).toWrite := by
  rw [ringWork_queueCompletion]
  exact List.mem_append_right _ (List.mem_singleton_self c)

/-- A descriptor that does not belong completes behind those that wait to be written. -/
theorem mem_toWrite_ringAdvance {s : State} {die n : Nat} {c : Completion} (h : c ∈ (ringWork s die n).toWrite) :
    c ∈ (ringWork (ringAdvance s die n) die n).toWrite := by
  unfold ringAdvance
  extract_lets w
  split
  · split
    · unfold finishWith finish
      rw [(settlePower_effect _).ringWork_same (by decide), ringWork_queueCompletion, ringWork_setRing_same]
      exact List.mem_append_left _ h
    · exact h
  · exact h

theorem mem_toWrite_ended (s : State) (die n : Nat) (c : Completion) :
    c ∈ (ringWork (ringAdvance (settlePower (irq (queueCompletion s die n c) die 6 n)) die n) die n).toWrite := by
  refine mem_toWrite_ringAdvance ?_
  rw [(settlePower_effect _).ringWork_same (by decide), (irq_effect ..).ringWork_same (by decide)]
  exact mem_toWrite_queueCompletion ..

/-- The descriptor that runs, found by its number or made for it. -/
theorem running_k (l : List Desc) (rk : Nat) : ((l.find? fun d => d.k = rk).getD ⟨rk, [], true⟩).k = rk := by
  cases h : l.find? fun d => d.k = rk with
  | none => rfl
  | some d => simpa using List.find?_some h

/-- The end of a running stream: its core is free, and its RUN's completion waits to be written (R250 to R252). -/
theorem endStream_ended {s : State} {k : Nat} (h : (coreOf s k).runDesc ≠ none) (status : Nat) :
    StreamEnded s (endStream s k status) k status := by
  obtain ⟨flags, slipRun, frozen, hcore⟩ := countCut_core s k
  unfold endStream
  split
  next hnone => exact absurd hnone h
  next rk hrun =>
    extract_lets s1 c die n detail d s2 s3 c3 s4 halted s5 s6 s7
    have hring := ringAdvance_effect (settlePower (irq s7 die 6 n)) die n
    have hpower := settlePower_effect (irq s7 die 6 n)
    have hirq := irq_effect s7 die 6 n
    have hqueue : Effect [.rings] s5 s7 := (dropActive_effect s5 die n rk).trans (queueCompletion_effect s6 die n _)
    have hend : coreOf s7 k = { c.stopped with ended := some (status, detail) } := by
      rw [hqueue.coreOf_same (by decide)]
      simp only [s5, s4, c3, s3, coreOf_setCore_same, coreOf_setSeqState]
    have hdetail : detail = if status = stOk then 0 else min (coreOf s k).bundle (streamCount s k - 1) := by
      simp only [detail, c, s1, hcore, streamCount_of_effect (countCut_effect s k) (by decide) (by decide)]
    have hlast : coreOf (ringAdvance (settlePower (irq s7 die 6 n)) die n) k = coreOf s7 k :=
      (hring.coreOf_same (by decide) k).trans ((hpower.coreOf_same (by decide) k).trans (hirq.coreOf_same (by decide) k))
    refine ⟨by rw [hlast, hend]; rfl, by rw [hlast, hend, hdetail], ?_, ?_⟩
    · rw [hring.seqState_same (by decide), hpower.seqState_same (by decide), hirq.seqState_same (by decide),
        hqueue.seqState_same (by decide)]
      simp only [s5, seqState_setSeqState, halted, Bool.or_eq_true, decide_eq_true_eq, or_assoc]
      split <;> rfl
    · refine ⟨completionOf d status c.flags.toNat 0 detail 0 false, mem_toWrite_ended s6 die n _, ?_, rfl⟩
      rw [hrun]
      exact congrArg some (running_k _ rk)

end Sys2Proof.Machine
end

section
/-! PROOF. A frozen core goes on (R263 to R269, R852): its resumption, the watchdog, and a wait at an interlock, through the work it
waits for or through nothing. -/

set_option Elab.async false

namespace Sys2Proof.Machine

/-! ### The watchdog (R269) -/

/-- A stream that ends at the place of the state before has ended. -/
theorem StreamEnded.of_place {s s' t : State} {k status : Nat} (h : StreamEnded s' t k status)
    (hbundle : (coreOf s' k).bundle = (coreOf s k).bundle) (hrun : (coreOf s' k).runDesc = (coreOf s k).runDesc)
    (hcount : streamCount s' k = streamCount s k) : StreamEnded s t k status := by
  unfold StreamEnded at *
  rwa [hbundle, hrun, hcount] at h

/-- A stream that ends once frozen cycles have been counted has ended. -/
theorem StreamEnded.of_tallied {s s' t : State} {k status : Nat} (h : StreamEnded s' t k status)
    (hcore : (coreOf s k).Tallied (coreOf s' k)) (hcount : streamCount s' k = streamCount s k) : StreamEnded s t k status := by
  obtain ⟨_, _, _, e⟩ := hcore
  exact h.of_place (by rw [e]) (by rw [e]) hcount

theorem slipTimeout_ended {s : State} {k : Nat} (h : (coreOf s k).runDesc ≠ none) (l : Nat) :
    StreamEnded s (slipTimeout s k l) k stTimeout := by
  have htally := countFrozen_core s k (l + 1 - (coreOf s k).slipRun) 0
  refine (endStream_ended ?_ stTimeout).of_tallied htally
    (streamCount_of_effect (countFrozen_effect ..) (by decide) (by decide) k)
  obtain ⟨_, _, _, e⟩ := htally
  rw [e]
  exact h

theorem slipTooLong_iff {s : State} {k l : Nat} (h : slipLimit s k = some l) (n : Nat) :
    slipTooLong s k n = true ↔ 0 < n ∧ l < (coreOf s k).slipRun + n := by
  simp [slipTooLong, h]

theorem watchdog_ends {c : CoreRef} {s : State} {l : Nat} (hlimit : slipLimit s (coreKey c) = some l)
    (hrun : (coreOf s (coreKey c)).runDesc ≠ none) (hreplay : (coreOf s (coreKey c)).replaying = none)
    (hslip : 0 < knownSlip (coreOf s (coreKey c)))
    (hlong : l < (coreOf s (coreKey c)).slipRun + knownSlip (coreOf s (coreKey c))) :
    exec (.watchdogTimeout c) s = .next (slipTimeout s (coreKey c) l) := by
  show execWatchdogTimeout c s = _
  unfold execWatchdogTimeout
  extract_lets k core wait
  have htoo : slipTooLong s k (max wait (knownSlip core)) = true :=
    have hmax := le_max_right wait (knownSlip core)
    (slipTooLong_iff hlimit _).mpr ⟨hslip.trans_le hmax, hlong.trans_le (Nat.add_le_add_left hmax _)⟩
  simp only [k, core, hlimit] at htoo ⊢
  rw [if_pos (by simp [hrun, hreplay, htoo])]

/-! ### Resumption (R263 to R267) -/

/-- A core whose freeze is over, its cycles counted. -/
def resumed (s : State) (k slip wait : Nat) : State :=
  let s' := setCore (countFrozen s k slip wait) k { coreOf (countFrozen s k slip wait) k with freeze := [] }
  if (coreOf s k).interlocked = none then passEmpty 8 (setSeqState s' k seqRunning) k else s'

/-- Past the empty bundles of its cycle, or at the bundle that waits at the interlock. -/
theorem resumed_core (s : State) (k slip wait : Nat) : ∃ flags slipRun frozen,
    ({ coreOf s k with flags, slipRun, frozen, freeze := [] } : CoreState).Onward (coreOf (resumed s k slip wait) k) ∧
      ((coreOf s k).interlocked ≠ none →
        coreOf (resumed s k slip wait) k = { coreOf s k with flags, slipRun, frozen, freeze := [] }) := by
  obtain ⟨flags, slipRun, frozen, e⟩ := countFrozen_core s k slip wait
  refine ⟨flags, slipRun, frozen, ?_⟩
  unfold resumed
  rw [e]
  extract_lets s0 c1 s1
  have hs1 : coreOf s1 k = { coreOf s k with flags, slipRun, frozen, freeze := [] } := coreOf_setCore_same ..
  split
  next hnone =>
    have := passEmpty_onward 8 (setSeqState s1 k seqRunning) k
    rw [coreOf_setSeqState, hs1] at this
    exact ⟨this, fun h => absurd hnone h⟩
  · exact ⟨hs1 ▸ .refl _, fun _ => hs1⟩

theorem resumed_effect (s : State) (k slip wait : Nat) :
    Effect [.cores, .reg .seqState] (countFrozen s k slip wait) (resumed s k slip wait) :=
  .ite (((setCore_effect ..).mono (by decide +kernel)).trans (((setSeqState_effect ..).mono (by decide +kernel)).trans
    ((passEmpty_effect ..).mono (by decide +kernel)))) ((setCore_effect ..).mono (by decide +kernel))

theorem seqState_resumed {s : State} {k : Nat} (h : (coreOf s k).interlocked = none) (slip wait : Nat) :
    seqState (resumed s k slip wait) k = seqRunning := by
  unfold resumed
  extract_lets s1
  rw [if_pos h, (passEmpty_effect ..).seqState_same (by decide), seqState_setSeqState]
  rfl

theorem mem_resumed (s : State) (k slip wait : Nat) : (resumed s k slip wait).mem = s.mem :=
  ((resumed_effect ..).mem_same (by decide)).trans ((countFrozen_effect ..).mem_same (by decide))

theorem resumed_slip (s : State) (k slip wait : Nat) :
    Counts s (resumed s k slip wait) F.seqSlipCycles_cycles (k / 24) (k % 24) slip :=
  (countFrozen_slip s k slip wait).congr rfl ((resumed_effect ..).field_same _ (by decide) ..)

theorem resumed_wait (s : State) (k slip wait : Nat) :
    Counts s (resumed s k slip wait) F.seqWaitCycles_cycles (k / 24) (k % 24) wait :=
  (countFrozen_wait s k slip wait).congr rfl ((resumed_effect ..).field_same _ (by decide) ..)

/-- A freeze without a back-invalidation ends: its slips, and where a WAIT held the core the cycles beyond them (R265 to R267). -/
theorem coreResume_unsnooped {c : CoreRef} {n : Nat} {s : State} (hfreeze : (coreOf s (coreKey c)).freeze ≠ [])
    (hreplay : (coreOf s (coreKey c)).replaying = none)
    (hover : ∀ f ∈ (coreOf s (coreKey c)).freeze, f ≠ .waitHeld ∧ f.isSnoop = false)
    (hslip : slipTooLong s (coreKey c) (knownSlip (coreOf s (coreKey c))) = false) :
    exec (.coreResume c n) s = .next (resumed s (coreKey c) (knownSlip (coreOf s (coreKey c)))
      (if .waitOver ∈ (coreOf s (coreKey c)).freeze then n - knownSlip (coreOf s (coreKey c)) else 0)) := by
  show execCoreResume c n s = _
  have hsnoop : (coreOf s (coreKey c)).freeze.any FreezeCond.isSnoop = false :=
    List.any_eq_false.mpr fun f hf => by simp [(hover f hf).2]
  have hheld : .waitHeld ∉ (coreOf s (coreKey c)).freeze := fun h => (hover _ h).1 rfl
  have hsnoopHeld : snoopHeld s (coreOf s (coreKey c)) = false :=
    List.any_eq_false.mpr fun f hf => by
      have := (hover f hf).2
      cases f <;> simp_all [FreezeCond.isSnoop]
  unfold execCoreResume
  extract_lets k core slip snoop total slip'
  have hsnoopNo : snoop = false := hsnoop
  have hslip' : slip' = slip := by simp only [slip', hsnoopNo]; rfl
  have hwait : total - slip' = if .waitOver ∈ core.freeze then n - slip else 0 := by
    simp only [hslip', total, hsnoopNo, Bool.false_or, List.contains_iff_mem]
    split <;> omega
  have hgo : (core.freeze = [] || core.replaying ≠ none || core.freeze.contains .waitHeld || snoopHeld s core
      || slipTooLong s k slip') = false := by
    rw [hslip']
    simp [core, k, slip, hfreeze, hreplay, hheld, hsnoopHeld, hslip]
  rw [hgo, if_neg Bool.false_ne_true, ← hwait]
  show Host.Outcome.next (resumed s k slip' (total - slip')) = .next (resumed s k slip (total - slip'))
  rw [hslip']

theorem foldl_max_slip {l : List FreezeCond} (h : ∀ f ∈ l, f.slip = 0) : l.foldl (fun m f => max m f.slip) 0 = 0 := by
  induction l with
  | nil => rfl
  | cons f l ih =>
    rw [List.foldl_cons, h f (List.mem_cons_self ..), Nat.max_self]
    exact ih fun f hf => h f (List.mem_cons_of_mem _ hf)

/-- A freeze of a WAIT alone that has ended: its cycles are those given, and none of them is a slip (R266, R267). -/
theorem coreResume_over {c : CoreRef} {n : Nat} {s : State} (hover : .waitOver ∈ (coreOf s (coreKey c)).freeze)
    (hreplay : (coreOf s (coreKey c)).replaying = none) (hkinds : ∀ f ∈ (coreOf s (coreKey c)).freeze, f = .waitOver) :
    exec (.coreResume c n) s = .next (resumed s (coreKey c) 0 n) := by
  have hknown : knownSlip (coreOf s (coreKey c)) = 0 := foldl_max_slip fun f hf => hkinds f hf ▸ rfl
  have hnolimit : slipTooLong s (coreKey c) 0 = false := by
    unfold slipTooLong
    split <;> rfl
  rw [coreResume_unsnooped (List.ne_nil_of_mem hover) hreplay (fun f hf => by rw [hkinds f hf]; exact ⟨nofun, rfl⟩)
    (hknown.symm ▸ hnolimit), hknown, if_pos hover, Nat.sub_zero]

/-! ### A wait in which nothing is in progress (R263, R852) -/

/-- A core with no work in progress, no freeze and no failure. -/
structure CoreState.Quiet (c : CoreState) : Prop where
  arrays : ∀ e ∈ c.arrays, e.2.idle = true
  vec : c.vec.runs = []
  upd : c.upd.run = none
  freeze : c.freeze = []
  detected : c.detected = []

/-- Only cores differ, and core `k` is as quiet as before, at the same place of its stream and of its wait. -/
structure StaysQuiet (k : Nat) (s t : State) : Prop where
  only : ∃ cores, t = { s with cores := cores }
  quiet : (coreOf s k).Quiet → (coreOf t k).Quiet
  runDesc : (coreOf t k).runDesc = (coreOf s k).runDesc
  bundle : (coreOf t k).bundle = (coreOf s k).bundle
  interlocked : (coreOf t k).interlocked = (coreOf s k).interlocked

theorem StaysQuiet.refl (k : Nat) (s : State) : StaysQuiet k s s := ⟨⟨_, rfl⟩, id, rfl, rfl, rfl⟩

theorem StaysQuiet.trans {k : Nat} {s t u : State} (h : StaysQuiet k s t) (h' : StaysQuiet k t u) : StaysQuiet k s u where
  only := by
    obtain ⟨_, rfl⟩ := h.only
    obtain ⟨_, rfl⟩ := h'.only
    exact ⟨_, rfl⟩
  quiet := h'.quiet ∘ h.quiet
  runDesc := h'.runDesc.trans h.runDesc
  bundle := h'.bundle.trans h.bundle
  interlocked := h'.interlocked.trans h.interlocked

/-- A new state of the core that is as quiet, at the same place. -/
theorem staysQuiet_setCore {k : Nat} {s : State} {c : CoreState} (hq : (coreOf s k).Quiet → c.Quiet)
    (hrun : c.runDesc = (coreOf s k).runDesc) (hbundle : c.bundle = (coreOf s k).bundle)
    (hwait : c.interlocked = (coreOf s k).interlocked) : StaysQuiet k s (setCore s k c) := by
  refine ⟨⟨_, rfl⟩, ?_, ?_, ?_, ?_⟩ <;> rwa [coreOf_setCore_same]

/-- Operations in turn on a quiet core. -/
theorem staysQuiet_foldl {α : Type} {k : Nat} {f : State → α → State}
    (hf : ∀ s x, (coreOf s k).Quiet → StaysQuiet k s (f s x)) (l : List α) (s : State) (hq : (coreOf s k).Quiet) :
    StaysQuiet k s (l.foldl f s) := by
  induction l generalizing s with
  | nil => exact .refl k s
  | cons x l ih => exact (hf s x hq).trans (ih _ ((hf s x hq).quiet hq))

theorem Map.mem_of_find {α : Type} {m : Map α} {k : Nat} {v : α} (h : Map.find m k = some v) : (k, v) ∈ m := by
  induction m with
  | nil => exact absurd h (by simp [Map.find])
  | cons e t ih =>
    rw [Map.find] at h
    split at h
    next he => exact List.mem_cons.mpr (.inl (Prod.ext he.symm (Option.some.inj h).symm))
    · exact List.mem_cons_of_mem _ (ih h)

theorem CoreState.Quiet.array_idle {c : CoreState} (h : c.Quiet) (a : Nat) : (c.array a).idle = true := by
  unfold CoreState.array Map.getD
  cases he : Map.find c.arrays a with
  | none => rfl
  | some st => exact h.arrays _ (Map.mem_of_find he)

/-- An idle array put in place of another one. -/
theorem staysQuiet_setArray {k : Nat} (s : State) (a : Nat) {st : ArrayState} (h : st.idle = true) :
    StaysQuiet k s (setArray s k a st) :=
  staysQuiet_setCore (fun hq => { hq with
    arrays := fun e he => (Map.mem_put he).elim (fun e' => e' ▸ h) (hq.arrays e) }) rfl rfl rfl

/-! #### Engines without work -/

theorem ArrayState.idle_iff (a : ArrayState) : a.idle = true ↔ a.loads = [] ∧ a.passes = [] ∧ a.drains = [] ∧ a.spills = [] := by
  simp [ArrayState.idle, and_assoc]

theorem arrayWork_of_idle {s : State} {k a : Nat} (h : (arrayOf s k a).idle = true) (bad : List Nat) :
    arrayWork bad s k a = setArray s k a { arrayOf s k a with worked := true } := by
  obtain ⟨hloads, hpasses, hdrains, -⟩ := (ArrayState.idle_iff _).mp h
  simp [arrayWork, ArrayState.mergesOpen, mergeDue, arrayPorts, hloads, hpasses, hdrains]

theorem arrayEnter_of_idle {s : State} {k a : Nat} (h : (arrayOf s k a).idle = true) :
    arrayEnter s k a = setArray s k a { arrayOf s k a with clock := (arrayOf s k a).clock + 1, worked := false } := by
  obtain ⟨hloads, hpasses, hdrains, -⟩ := (ArrayState.idle_iff _).mp h
  simp [arrayEnter, hloads, hpasses, hdrains]

theorem vecWork_of_idle {s : State} {k : Nat} (h : (coreOf s k).vec.runs = []) (bad : List Nat) :
    vecWork bad s k = setCore s k { coreOf s k with vec := { (coreOf s k).vec with worked := true } } := by
  simp [vecWork, h]

theorem vecEnter_of_idle {s : State} {k : Nat} (h : (coreOf s k).vec.runs = []) :
    vecEnter s k = setCore s k { coreOf s k with
      vec := { (coreOf s k).vec with clock := (coreOf s k).vec.clock + 1, worked := false } } := by
  simp [vecEnter, h]

theorem updWork_of_idle {s : State} {k : Nat} (h : (coreOf s k).upd.run = none) (bad : List Nat) :
    updWork bad s k = setCore s k { coreOf s k with upd := { (coreOf s k).upd with worked := true } } := by
  simp [updWork, h]

theorem updEnter_of_idle {s : State} {k : Nat} (h : (coreOf s k).upd.run = none) :
    updEnter s k = setCore s k { coreOf s k with
      upd := { (coreOf s k).upd with clock := (coreOf s k).upd.clock + 1, worked := false } } := by
  simp [updEnter, h]

theorem engineWork_staysQuiet (k e : Nat) (s : State) (hq : (coreOf s k).Quiet) : StaysQuiet k s (engineWork [] k s e) := by
  unfold engineWork
  extract_lets c
  split
  · split
    · exact .refl k s
    · rw [arrayWork_of_idle (hq.array_idle e)]
      exact staysQuiet_setArray s e (hq.array_idle e)
  · split
    · split
      · exact .refl k s
      · rw [vecWork_of_idle hq.vec]
        exact staysQuiet_setCore (fun h => { h with }) rfl rfl rfl
    · split
      · exact .refl k s
      · rw [updWork_of_idle hq.upd]
        exact staysQuiet_setCore (fun h => { h with }) rfl rfl rfl

theorem engineEnter_staysQuiet (k e : Nat) (s : State) (hq : (coreOf s k).Quiet) : StaysQuiet k s (engineEnter k s e) := by
  unfold engineEnter
  split
  · rw [arrayEnter_of_idle (hq.array_idle e)]
    exact staysQuiet_setArray s e (hq.array_idle e)
  · split
    · rw [vecEnter_of_idle hq.vec]
      exact staysQuiet_setCore (fun h => { h with }) rfl rfl rfl
    · rw [updEnter_of_idle hq.upd]
      exact staysQuiet_setCore (fun h => { h with }) rfl rfl rfl

/-- Reads armed ahead of a quiet core's commands. -/
theorem armGuards_staysQuiet (s : State) (k bundle base len : Nat) : StaysQuiet k s (armGuards s k bundle base len) := by
  unfold armGuards
  extract_lets c window arm
  split
  · exact staysQuiet_setCore (fun h => { h with }) rfl rfl rfl
  · exact .refl k s

theorem updFetch_staysQuiet (s : State) (k bundle w : Nat) (hq : (coreOf s k).Quiet) :
    StaysQuiet k s (updFetch s k bundle w).2 := by
  unfold updFetch
  extract_lets u rs
  dsimp only
  split
  · exact staysQuiet_foldl (fun s r _ => armGuards_staysQuiet ..) _ _ hq
  · exact .refl k s

theorem updPrefetch_staysQuiet (s : State) (k : Nat) (hq : (coreOf s k).Quiet) : StaysQuiet k s (updPrefetch s k) := by
  refine staysQuiet_foldl (fun s e hq => ?_) _ _ hq
  dsimp only
  split
  · exact (updFetch_staysQuiet s k _ _ hq).trans (staysQuiet_setCore (fun h => { h with }) rfl rfl rfl)
  · exact .refl k s

/-- A cycle that makes no write the host holds freezes nothing (R433). -/
theorem freezeHeld_none {s : State} {k n : Nat} (h : s.heldWrites.length ≤ n) : freezeHeld s k n = s := by
  simp [freezeHeld, List.drop_eq_nil_of_le h]

theorem StaysQuiet.heldWrites {k : Nat} {s t : State} (h : StaysQuiet k s t) : t.heldWrites = s.heldWrites := by
  obtain ⟨_, rfl⟩ := h.only
  rfl

theorem cycleWork_staysQuiet (s : State) (k : Nat) (hq : (coreOf s k).Quiet) : StaysQuiet k s (cycleWork [] s k) := by
  unfold cycleWork
  extract_lets held s1 s2
  have h1 : StaysQuiet k s s1 := staysQuiet_foldl (fun s e hq => engineWork_staysQuiet k e s hq) _ _ hq
  have h2 : StaysQuiet k s s2 := by
    dsimp only [s2]
    split
    · exact h1.trans (updPrefetch_staysQuiet s1 k (h1.quiet hq))
    · exact h1
  rw [freezeHeld_none (by rw [h2.heldWrites])]
  exact h2

theorem enterAll_staysQuiet (s : State) (k : Nat) (es : List Nat) (hq : (coreOf s k).Quiet) : StaysQuiet k s (enterAll s k es) := by
  have h := staysQuiet_foldl (fun s e hq => engineEnter_staysQuiet k e s hq) es s hq
  unfold enterAll
  rw [freezeHeld_none (by rw [h.heldWrites])]
  exact h

/-- A quiet core after n cycles of a wait. -/
structure Waited (k n : Nat) (s t : State) : Prop where
  quiet : (coreOf t k).Quiet
  runDesc : (coreOf t k).runDesc = (coreOf s k).runDesc
  bundle : (coreOf t k).bundle = (coreOf s k).bundle
  slip : Counts s t F.seqSlipCycles_cycles (k / 24) (k % 24) n
  mem : t.mem = s.mem

theorem Waited.trans {k m n : Nat} {s t u : State} (h : Waited k m s t) (h' : Waited k n t u) : Waited k (m + n) s u :=
  ⟨h'.quiet, h'.runDesc.trans h.runDesc, h'.bundle.trans h.bundle, h.slip.add h'.slip, h'.mem.trans h.mem⟩

theorem StaysQuiet.waited {k : Nat} {s t : State} (h : StaysQuiet k s t) (hq : (coreOf s k).Quiet) : Waited k 0 s t := by
  obtain ⟨_, e⟩ := h.only
  refine ⟨h.quiet hq, h.runDesc, h.bundle, ?_, by rw [e]⟩
  rw [e]
  exact counts_zero ..

theorem CoreState.Quiet.of_tallied {c c' : CoreState} (hq : c.Quiet) (h : c.Tallied c') : c'.Quiet := by
  obtain ⟨_, _, _, rfl⟩ := h
  exact { hq with }

theorem countFrozen_waited {s : State} {k : Nat} (hq : (coreOf s k).Quiet) (slip : Nat) :
    Waited k slip s (countFrozen s k slip 0) := by
  have htally := countFrozen_core s k slip 0
  refine ⟨hq.of_tallied htally, ?_, ?_, countFrozen_slip .., (countFrozen_effect ..).mem_same (by decide)⟩ <;>
    obtain ⟨_, _, _, e⟩ := htally <;> rw [e]

theorem CoreState.Quiet.spillDue {c : CoreState} (h : c.Quiet) : Machine.spillDue c = false := by
  refine List.any_eq_false.mpr fun e he => ?_
  obtain ⟨-, -, -, hspills⟩ := (ArrayState.idle_iff _).mp (h.arrays e he)
  simp [ArrayState.spillDue, hspills]

/-- A cycle of the wait is a slip, and nothing else. -/
theorem interlockStep_waited {s : State} {k : Nat} (n : Nat) (hq : (coreOf s k).Quiet) (hrun : (coreOf s k).runDesc ≠ none) :
    Waited k 1 s (interlockStep k n s) ∧ (coreOf (interlockStep k n s) k).interlocked = some ⟨n⟩ := by
  unfold interlockStep
  rw [hq.spillDue, if_neg Bool.false_ne_true]
  extract_lets s1 s2 c2
  have h1 : StaysQuiet k s s1 := cycleWork_staysQuiet s k hq
  have hq1 := h1.quiet hq
  have hgo : ¬ ((coreOf s1 k).freeze ≠ [] || (coreOf s1 k).runDesc = none) = true := by
    simp [hq1.freeze, h1.runDesc, hrun]
  rw [if_neg (not_not.mpr hq1.detected), if_neg hgo]
  have h2 := enterAll_staysQuiet s1 k (awaited s k) hq1
  have hw : Waited k (0 + 1) s (countFrozen (enterAll s1 k (awaited s k)) k 1 0) :=
    ((h1.trans h2).waited hq).trans (countFrozen_waited (h2.quiet hq1) 1)
  have hlast : Waited k 0 s2 (setCore s2 k { c2 with interlocked := some ⟨n⟩ }) := by
    refine ⟨?_, ?_, ?_, (counts_zero ..).congr rfl ((setCore_effect ..).field_same _ (by decide) ..), rfl⟩ <;>
      rw [coreOf_setCore_same]
    exact { hw.quiet with }
  exact ⟨hw.trans hlast, by rw [coreOf_setCore_same]⟩

/-- A whole wait in which nothing is in progress. -/
theorem interlockSteps_waited (k n : Nat) : ∀ {s : State}, (coreOf s k).Quiet → (coreOf s k).runDesc ≠ none →
    (coreOf s k).interlocked = some ⟨n⟩ →
    Waited k n s (interlockSteps k n s) ∧ (coreOf (interlockSteps k n s) k).interlocked = some ⟨0⟩ := by
  induction n with
  | zero => exact fun hq _ hwait => ⟨(StaysQuiet.refl ..).waited hq, hwait⟩
  | succ n ih =>
    intro s hq hrun _
    obtain ⟨hstep, hnext⟩ := interlockStep_waited n hq hrun
    obtain ⟨hrest, hend⟩ := ih hstep.quiet (hstep.runDesc ▸ hrun) hnext
    rw [interlockSteps]
    simp only [hnext, hstep.quiet.freeze, decide_true, Bool.and_self, if_true]
    exact ⟨Nat.add_comm 1 n ▸ hstep.trans hrest, hend⟩

/-- The release of a wait whose cycles end with nothing left to wait for. -/
theorem interlockRelease_runs {c : CoreRef} {wait : Nat} {s : State}
    (hlocked : (coreOf s (coreKey c)).interlocked = some ⟨wait⟩) (hfreeze : (coreOf s (coreKey c)).freeze = [])
    (hdetected : (coreOf s (coreKey c)).detected = []) (hreplay : (coreOf s (coreKey c)).replaying = none)
    (hslip : slipTooLong s (coreKey c) wait = false)
    (hend : (coreOf (interlockSteps (coreKey c) wait s) (coreKey c)).interlocked = some ⟨0⟩)
    (hquiet : (coreOf (interlockSteps (coreKey c) wait s) (coreKey c)).freeze = []) :
    exec (.interlockRelease c) s = .next (setSeqState (setCore (interlockSteps (coreKey c) wait s) (coreKey c)
      { coreOf (interlockSteps (coreKey c) wait s) (coreKey c) with interlocked := none }) (coreKey c) seqRunning) := by
  show execInterlockRelease c s = _
  unfold execInterlockRelease
  simp only [hlocked, hfreeze, hdetected, hreplay, hslip]
  rw [if_neg (by simp), if_pos (by simp [hend, hquiet])]

/-! ### The obligation -/

/-- Settles O29: the wait at an interlock, the end of a freeze with its slips or its WAIT, and the watchdog. -/
theorem frozenCoresGoOn : Obligations.FrozenCoresGoOn := by
  refine ⟨fun c wait s => ?_, fun c n s => ?_, fun c n s => ?_, fun c l s => ?_⟩
  · intro k s' hlocked hfreeze hdetected hreplay hslip
    refine ⟨fun hend hquiet => ?_, fun hrun harrays hvec hupd => ?_⟩
    · refine ⟨_, interlockRelease_runs hlocked hfreeze hdetected hreplay hslip hend hquiet, ?_, ?_, seqState_setSeqState .., rfl⟩
      · rw [coreOf_setSeqState, coreOf_setCore_same]
      · rw [coreOf_setSeqState, coreOf_setCore_same]
        exact hquiet
    · have hq : (coreOf s k).Quiet := ⟨List.all_eq_true.mp harrays, hvec, hupd, hfreeze, hdetected⟩
      obtain ⟨hwaited, hend⟩ := interlockSteps_waited k wait hq hrun hlocked
      refine ⟨_, interlockRelease_runs hlocked hfreeze hdetected hreplay hslip hend hwaited.quiet.freeze, ?_,
        seqState_setSeqState .., ?_, ?_, hwaited.mem⟩
      · rw [coreOf_setSeqState, coreOf_setCore_same]
      · rw [coreOf_setSeqState, coreOf_setCore_same]
        exact hwaited.bundle
      · exact hwaited.slip.congr rfl (((setSeqState_effect ..).field_same _ (by decide) ..).trans
          ((setCore_effect ..).field_same _ (by decide) ..))
  · intro k hfreeze hreplay hkinds hslip
    obtain ⟨flags, slipRun, frozen, honward, hwaits⟩ := resumed_core s k (knownSlip (coreOf s k))
      (if .waitOver ∈ (coreOf s k).freeze then n - knownSlip (coreOf s k) else 0)
    refine ⟨_, coreResume_unsnooped hfreeze hreplay (fun f hf => ⟨(hkinds f hf).1, (hkinds f hf).2.2⟩) hslip, ?_,
      honward.bundle_le, fun h => seqState_resumed h .., ?_, fun h => ?_, resumed_slip .., mem_resumed ..⟩
    · rw [honward.rest]
    · rw [honward.rest]
    · rw [hwaits h]
  · intro k hover hreplay hkinds hlocked
    obtain ⟨flags, slipRun, frozen, honward, -⟩ := resumed_core s k 0 n
    refine ⟨_, coreResume_over hover hreplay hkinds, ?_, seqState_resumed hlocked .., resumed_wait .., ?_⟩
    · rw [honward.rest]
    · exact (resumed_slip s k 0 n).trans (satAdd_zero (rf_lt ..))
  · intro k hlimit hrun hreplay hslip hlong
    exact ⟨_, watchdog_ends hlimit hrun hreplay hslip hlong, slipTimeout_ended hrun l, (slipTimeout_effect ..).mem_same (by decide)⟩

end Sys2Proof.Machine
end

section
/-! PROOF. The descriptors of a core ring (R240 to R246, R336 to R339): a slot filled, a RUN taken to its start check, a layer table
filled, and what each leaves where it is refused or empty. -/

set_option Elab.async false

namespace Sys2Proof.Machine

/-! ### Completions -/

/-- A descriptor finished has its completion queued, with its count. -/
theorem finish_completedWith (s : State) (die n : Nat) (d : Desc) (status flags count detail signal : Nat) :
    CompletedWith (finish s die n d status flags count detail signal) die n d status count := by
  refine ⟨completionOf d status flags count detail signal false, ?_, rfl, rfl, rfl, rfl, rfl⟩
  unfold finish
  rw [(settlePower_effect _).ringWork_same (by decide)]
  exact mem_toWrite_queueCompletion ..

/-- A descriptor taken off its ring and finished at once: its completion alone, no core and no memory. -/
theorem finishWith_taken {s s1 : State} {die n : Nat} {d : Desc} {want : Desc → Bool} (h : takeDesc s die n want = some (d, s1))
    (status : Nat) : Completed (finishWith s1 die n d status) die n d status ∧
      (finishWith s1 die n d status).cores = s.cores ∧ (finishWith s1 die n d status).mem = s.mem :=
  ⟨finishWith_completed .., ((finishWith_effect ..).frame.same .cores (by decide)).trans ((takeDesc_effect h).frame.same .cores (by decide)),
    ((finishWith_effect ..).mem_same (by decide)).trans ((takeDesc_effect h).mem_same (by decide))⟩

/-! ### INSTALL (R240 to R245) -/

theorem install_fieldsOk {d : Desc} (hres : reservedOk d [(8, 1), (16, 8), (24, 4)] = true) (hslot : d.at_ 8 1 < 16)
    (haddr : addrOk (d.at_ 16 8) = true) (hcount : d.at_ 24 4 < 2 ^ 19) :
    ¬ (!reservedOk d [(8, 1), (16, 8), (24, 4)] || decide (16 ≤ d.at_ 8 1) || !addrOk (d.at_ 16 8) ||
      decide (2 ^ 19 ≤ d.at_ 24 4)) = true := by
  simp only [hres, haddr, Bool.not_true, Bool.false_or, Bool.or_false, Bool.or_eq_true, decide_eq_true_eq]
  omega

theorem install_accepted {s : State} {k slot : Nat} (hgo : coreRefuses s k = false)
    (hfree : (coreOf s k).runDesc = none ∨ seqSlot s k ≠ slot) :
    ¬ (coreRefuses s k || ((coreOf s k).runDesc.isSome && decide (seqSlot s k = slot))) = true := by
  rcases hfree with hnone | hother
  · simp [hgo, hnone]
  · simp [hgo, hother]

section
variable {c : CoreRef} {d : Desc} {s s1 : State} (htake : takeDesc s c.die c.core (fun d => d.type = 0x10) = some (d, s1))
  (hres : reservedOk d [(8, 1), (16, 8), (24, 4)] = true) (hslot : d.at_ 8 1 < 16) (haddr : addrOk (d.at_ 16 8) = true)
  (hcount : d.at_ 24 4 < 2 ^ 19) (hrange : streamRangeOk (coreKey c) (d.at_ 16 8) (d.at_ 24 4) = true)
include htake hres hslot haddr hcount hrange

theorem install_refused (h : coreRefuses s1 (coreKey c) = true) :
    exec (.install c .none) s = .next (finishWith s1 c.die c.core d stRefused) := by
  show execInstall c .none s = _
  unfold execInstall
  simp only [htake]
  rw [if_neg (install_fieldsOk hres hslot haddr hcount), if_neg (by simp [hrange]), if_pos (by simp [h])]

variable (hgo : coreRefuses s1 (coreKey c) = false)
  (hfree : (coreOf s1 (coreKey c)).runDesc = none ∨ seqSlot s1 (coreKey c) ≠ d.at_ 8 1)
include hgo hfree

theorem install_empty (h : d.at_ 24 4 = 0) : exec (.install c .none) s = .next (finishWith s1 c.die c.core d stEmpty) := by
  show execInstall c .none s = _
  unfold execInstall
  simp only [htake]
  rw [if_neg (install_fieldsOk hres hslot haddr hcount), if_neg (by simp [hrange]),
    if_neg (install_accepted hgo hfree), if_pos h]

theorem install_fills (hcount0 : d.at_ 24 4 ≠ 0) (hreads : readsWell s1 (d.at_ 16 8) (32 * d.at_ 24 4))
    (hseen : hiddenIn s1 (d.at_ 16 8) (32 * d.at_ 24 4) = [])
    (hscan : (scanFrom s1 (coreKey c) Scan.start 0 (bundlesOf (memBytes s1 (d.at_ 16 8) (32 * d.at_ 24 4)))).fault = none) :
    exec (.install c .none) s = .next (finish (fillSlot s1 (coreKey c) (d.at_ 8 1) (d.at_ 16 8) (d.at_ 24 4)
      (memBytes s1 (d.at_ 16 8) (32 * d.at_ 24 4))
      (scanFrom s1 (coreKey c) Scan.start 0 (bundlesOf (memBytes s1 (d.at_ 16 8) (32 * d.at_ 24 4)))).kept)
      c.die c.core d stOk 0 (d.at_ 24 4) 0 0) := by
  show execInstall c .none s = _
  unfold execInstall
  simp only [htake]
  rw [if_neg (install_fieldsOk hres hslot haddr hcount), if_neg (by simp [hrange]),
    if_neg (install_accepted hgo hfree), if_neg hcount0]
  simp [show failRow s1 .none _ _ = none from hreads, readEffects_of_readsWell hreads, memRead_of_visible hseen, hscan]

end

section
variable (s : State) (k slot base count : Nat) (data : Bytes) (kept : List (Nat × Nat))

theorem slotBase_fillSlot : slotBase (fillSlot s k slot base count data kept) k slot = base % 2 ^ 64 := by
  show rd (wr (wr (wr s _ _ _ _) _ _ _ _) _ _ _ _) .seqSlotBase _ _ = _
  rw [rd_wr_other _ _ _ (by decide), rd_wr_other _ _ _ (by decide), rd_wr_same _ _ _ _ _ (by decide)]
  rfl

theorem slotInfo_fillSlot : slotInfo (fillSlot s k slot base count data kept) k slot = (2 ^ 31 + count) % 2 ^ 32 := by
  show rd (wr (wr (wr s _ _ _ _) _ _ _ _) _ _ _ _) .seqSlotInfo _ _ = _
  rw [rd_wr_other _ _ _ (by decide), rd_wr_same _ _ _ _ _ (by decide)]
  rfl

theorem slotCrc_fillSlot : slotCrc (fillSlot s k slot base count data kept) k slot = crc32 data % 2 ^ 32 := by
  show rd (wr (wr (wr s _ _ _ _) _ _ _ _) _ _ _ _) .seqSlotCrc _ _ = _
  rw [rd_wr_same _ _ _ _ _ (by decide)]
  rfl

end

/-- SEQ_SLOT_INFO with its installed bit and its bundle count (R296). -/
theorem bitOf_slotInfo {count : Nat} (h : count < 2 ^ 19) : bitOf ((2 ^ 31 + count) % 2 ^ 32) 31 = true := by
  rw [bitOf, Nat.testBit_eq_decide_div_mod_eq, decide_eq_true_eq]
  omega

theorem bits_slotInfo {count : Nat} (h : count < 2 ^ 19) : bits ((2 ^ 31 + count) % 2 ^ 32) 18 0 = count := by
  rw [bits, Nat.shiftRight_zero]
  omega

/-! ### RUN (R246, R366) -/

section
variable {c : CoreRef} {d : Desc} {s s1 : State} (htake : takeDesc s c.die c.core (fun d => d.type = 0x11) = some (d, s1))
  (hres : reservedOk d [(8, 1)] = true) (hslot : d.at_ 8 1 < 16)
include htake hres hslot

theorem run_refused (h : coreRefuses s1 (coreKey c) = true ∨ slotInstalled s1 (coreKey c) (d.at_ 8 1) = false) :
    exec (.run c) s = .next (finishWith s1 c.die c.core d stRefused) := by
  show execRun c s = _
  unfold execRun
  simp only [htake]
  rw [if_neg (by simp [hres, hslot]), if_pos (by simpa using h)]

/-- A core that a RUN takes to its start check. -/
theorem run_starts (hgo : coreRefuses s1 (coreKey c) = false) (hinstalled : slotInstalled s1 (coreKey c) (d.at_ 8 1) = true)
    (hchecks : runChecks s1 (coreKey c) [] (Map.getD (coreOf s1 (coreKey c)).inherited (d.at_ 8 1) []) = true) :
    exec (.run c) s = .next (settlePower (wrCore (setCore (keepActive s1 c.die c.core d) (coreKey c)
      ((coreOf s1 (coreKey c)).forRun d.k)) .seqState (coreKey c) (d.at_ 8 1 * 2 ^ 16 + seqStartCheck))) := by
  show execRun c s = _
  unfold execRun
  simp only [htake]
  rw [if_neg (by simp [hres, hslot]), if_neg (by simp [hgo, hinstalled]), if_neg (by simp [hchecks])]

end

theorem seqState_wrCore {slot : Nat} (s : State) (k : Nat) (h : slot < 16) :
    seqState (wrCore s .seqState k (slot * 2 ^ 16 + seqStartCheck)) k = seqStartCheck ∧
      seqSlot (wrCore s .seqState k (slot * 2 ^ 16 + seqStartCheck)) k = slot := by
  have hrd : rd (wrCore s .seqState k (slot * 2 ^ 16 + seqStartCheck)) .seqState (k / 24) (k % 24) =
      (slot * 2 ^ 16 + seqStartCheck) % 2 ^ Reg.seqState.info.width := rd_wr_same _ _ _ _ _ (by decide)
  unfold seqState seqSlot rf
  rw [show F.seqState_state.reg = .seqState from rfl, show F.seqState_slot.reg = .seqState from rfl, hrd]
  show bits ((slot * 2 ^ 16 + 1) % 2 ^ 32) 3 0 = 1 ∧ bits ((slot * 2 ^ 16 + 1) % 2 ^ 32) 19 16 = slot
  simp only [bits, Nat.shiftRight_eq_div_pow]
  omega

theorem mem_active_keepActive (s : State) (die n : Nat) (d : Desc) : d ∈ (ringWork (keepActive s die n d) die n).active := by
  unfold keepActive
  rw [ringWork_setRing_same]
  exact List.mem_append_right _ (List.mem_singleton_self d)

/-! ### LAYERS (R336 to R339) -/

theorem layers_fieldsOk {k : Nat} {d : Desc} {s : State} (hres : reservedOk d [(8, 1), (10, 2), (16, 8)] = true)
    (hcount : d.at_ 10 2 < 2 ^ 9) (hend : d.at_ 8 1 + d.at_ 10 2 ≤ 256) (haddr : addrOk (d.at_ 16 8) = true)
    (haligned : d.at_ 16 8 % 64 = 0) (hrange : rangeIn s (d.at_ 16 8) (128 * d.at_ 10 2) (reachUpd k) = true) :
    ¬ (!reservedOk d [(8, 1), (10, 2), (16, 8)] || decide (2 ^ 9 ≤ d.at_ 10 2) || decide (256 < d.at_ 8 1 + d.at_ 10 2) ||
      !addrOk (d.at_ 16 8) || decide (d.at_ 16 8 % 64 ≠ 0) || !rangeIn s (d.at_ 16 8) (128 * d.at_ 10 2) (reachUpd k)) = true := by
  simp only [hres, haddr, haligned, hrange, Bool.not_true, Bool.false_or, Bool.or_false, Bool.or_eq_true, decide_eq_true_eq]
  omega

section
variable {c : CoreRef} {d : Desc} {s s1 : State} (htake : takeDesc s c.die c.core (fun d => d.type = 0x12) = some (d, s1))
  (hres : reservedOk d [(8, 1), (10, 2), (16, 8)] = true) (hcount : d.at_ 10 2 < 2 ^ 9) (hend : d.at_ 8 1 + d.at_ 10 2 ≤ 256)
  (haddr : addrOk (d.at_ 16 8) = true) (haligned : d.at_ 16 8 % 64 = 0)
  (hrange : rangeIn s1 (d.at_ 16 8) (128 * d.at_ 10 2) (reachUpd (coreKey c)) = true)
include htake hres hcount hend haddr haligned hrange

theorem layers_refused (h : coreRefuses s1 (coreKey c) = true ∨ (coreOf s1 (coreKey c)).runDesc ≠ none) :
    exec (.layers c .none) s = .next (finishWith s1 c.die c.core d stRefused) := by
  show execLayers c .none s = _
  unfold execLayers
  simp only [htake]
  rw [if_neg (layers_fieldsOk hres hcount hend haddr haligned hrange),
    if_pos (by simpa [Option.isSome_iff_ne_none] using h)]

variable (hgo : coreRefuses s1 (coreKey c) = false) (hfree : (coreOf s1 (coreKey c)).runDesc = none)
include hgo hfree

theorem layers_empty (h : d.at_ 10 2 = 0) : exec (.layers c .none) s = .next (finishWith s1 c.die c.core d stEmpty) := by
  show execLayers c .none s = _
  unfold execLayers
  simp only [htake]
  rw [if_neg (layers_fieldsOk hres hcount hend haddr haligned hrange), if_neg (by simp [hgo, hfree]), if_pos h]

/-- The table of a core whose entries pass their checks holds the bytes read. -/
theorem layers_fills (hcount0 : d.at_ 10 2 ≠ 0) (hreads : readsWell s1 (d.at_ 16 8) (128 * d.at_ 10 2))
    (hseen : hiddenIn s1 (d.at_ 16 8) (128 * d.at_ 10 2) = [])
    (hok : ((List.range (d.at_ 10 2)).all fun i => layerOk s1 (coreKey c) (memBytes s1 (d.at_ 16 8 + 128 * i) 128)) = true) :
    exec (.layers c .none) s = .next (finish (setCore s1 (coreKey c) { coreOf s1 (coreKey c) with
      layers := putBytes (coreOf s1 (coreKey c)).layers (128 * d.at_ 8 1) (memBytes s1 (d.at_ 16 8) (128 * d.at_ 10 2)) })
      c.die c.core d stOk 0 (d.at_ 10 2) 0 0) := by
  show execLayers c .none s = _
  unfold execLayers
  simp only [htake]
  rw [if_neg (layers_fieldsOk hres hcount hend haddr haligned hrange), if_neg (by simp [hgo, hfree]), if_neg hcount0]
  simp only [show failRow s1 .none (d.at_ 16 8) (128 * d.at_ 10 2) = none from hreads, readEffects_of_readsWell hreads,
    memRead_of_visible hseen]
  rw [if_neg, if_neg (by simp)]
  simp only [Bool.not_eq_true', Bool.not_eq_false, List.all_eq_true] at hok ⊢
  intro i hi
  have hi' := (List.mem_filter.mp hi).1
  have := List.mem_range.mp hi'
  rw [take_drop_memBytes _ _ (by omega)]
  exact hok i hi'

end

/-- Bytes put into a map are read back from it. -/
theorem mapBytes_putBytes (m : Map Byte) (a : Nat) (data : Bytes) : mapBytes (putBytes m a data) a data.length = data :=
  List.ext_getElem (by simp [mapBytes]) fun i _ h => by
    simp only [mapBytes, List.getElem_map, List.getElem_range, getD_putBytes_inside data m a i h]

/-! ### The obligation -/

/-- A slot filled by an INSTALL that completes (R243, R296). -/
theorem fillSlot_finished (s : State) {k slot count : Nat} (hcount : count < 2 ^ 19) (base : Nat) (data : Bytes)
    (kept : List (Nat × Nat)) (die n : Nat) (d : Desc) :
    let t := finish (fillSlot s k slot base count data kept) die n d stOk 0 count 0 0
    slotBase t k slot = base % 2 ^ 64 ∧ slotInstalled t k slot = true ∧ slotBundles t k slot = count ∧
      slotCrc t k slot = crc32 data % 2 ^ 32 ∧ CompletedWith t die n d stOk count ∧ t.mem = s.mem := by
  intro t
  have heffect := finish_effect (fillSlot s k slot base count data kept) die n d stOk 0 count 0 0
  have hinfo : slotInfo t k slot = (2 ^ 31 + count) % 2 ^ 32 :=
    (heffect.frame.same (.reg .seqSlotInfo) (by decide) ..).trans (slotInfo_fillSlot ..)
  refine ⟨(heffect.frame.same (.reg .seqSlotBase) (by decide) ..).trans (slotBase_fillSlot ..), ?_, ?_,
    (heffect.frame.same (.reg .seqSlotCrc) (by decide) ..).trans (slotCrc_fillSlot ..), finish_completedWith ..,
    (heffect.mem_same (by decide)).trans ((fillSlot_effect ..).mem_same (by decide))⟩
  · rw [slotInstalled, hinfo]
    exact bitOf_slotInfo hcount
  · rw [slotBundles, hinfo]
    exact bits_slotInfo hcount

/-- A core that a RUN has taken to its start check (R246). -/
theorem runStarted (s : State) (c : CoreRef) (d : Desc) {slot : Nat} (hslot : slot < 16) :
    let k := coreKey c
    let t := settlePower (wrCore (setCore (keepActive s c.die c.core d) k ((coreOf s k).forRun d.k)) .seqState k
      (slot * 2 ^ 16 + seqStartCheck))
    (coreOf t k).runDesc = some d.k ∧ (coreOf t k).bundle = 0 ∧ (coreOf t k).prevCycle = 0 ∧ seqState t k = seqStartCheck ∧
      seqSlot t k = slot ∧ d ∈ (ringWork t c.die c.core).active ∧ t.mem = s.mem := by
  intro k t
  have hpower := settlePower_effect (wrCore (setCore (keepActive s c.die c.core d) k ((coreOf s k).forRun d.k)) .seqState k
    (slot * 2 ^ 16 + seqStartCheck))
  have hcore : coreOf t k = (coreOf s k).forRun d.k := (hpower.coreOf_same (by decide) k).trans (coreOf_setCore_same ..)
  obtain ⟨hstate, hrunning⟩ := seqState_wrCore (setCore (keepActive s c.die c.core d) k ((coreOf s k).forRun d.k)) k hslot
  refine ⟨by rw [hcore]; rfl, by rw [hcore]; rfl, by rw [hcore]; rfl, (hpower.seqState_same (by decide) k).trans hstate,
    (hpower.field_same F.seqState_slot (by decide) ..).trans hrunning, ?_, hpower.mem_same (by decide)⟩
  rw [hpower.ringWork_same (by decide)]
  exact mem_active_keepActive ..

/-- A layer table filled by a LAYERS that completes (R336 to R339). -/
theorem layers_finished (s : State) (c : CoreRef) (d : Desc) (first count : Nat) {data : Bytes}
    (hlen : data.length = 128 * count) :
    let k := coreKey c
    let t := finish (setCore s k { coreOf s k with layers := putBytes (coreOf s k).layers (128 * first) data })
      c.die c.core d stOk 0 count 0 0
    mapBytes (coreOf t k).layers (128 * first) (128 * count) = data ∧
      (∀ a, (a < 128 * first ∨ 128 * (first + count) ≤ a) →
        Map.getD (coreOf t k).layers a 0 = Map.getD (coreOf s k).layers a 0) ∧
      CompletedWith t c.die c.core d stOk count ∧ t.mem = s.mem := by
  intro k t
  have heffect := finish_effect (setCore s k { coreOf s k with layers := putBytes (coreOf s k).layers (128 * first) data })
    c.die c.core d stOk 0 count 0 0
  have hlayers : (coreOf t k).layers = putBytes (coreOf s k).layers (128 * first) data := by
    rw [heffect.coreOf_same (by decide) k, coreOf_setCore_same]
  rw [hlayers]
  refine ⟨hlen ▸ mapBytes_putBytes .., fun a ha => getD_putBytes_outside _ _ _ _ ?_, finish_completedWith ..,
    heffect.mem_same (by decide)⟩
  rw [hlen]
  omega

/-- Settles O17: INSTALL, RUN and LAYERS, each done, empty or refused. -/
theorem coreDescriptorsComplete : Obligations.CoreDescriptorsComplete := by
  intro c d s s1 k
  refine ⟨fun htake hres hslot haddr hcount hrange => ⟨fun hgo hfree => ⟨fun h0 => ?_, fun h0 hreads hseen hscan => ?_⟩, fun h => ?_⟩,
    fun htake hres hslot => ⟨fun hgo hinstalled hchecks => ?_, fun h => ?_⟩,
    fun htake hres hcount hend haddr haligned hrange =>
      ⟨fun hgo hfree => ⟨fun h0 => ?_, fun h0 hreads hseen hok => ?_⟩, fun h => ?_⟩⟩
  · obtain ⟨hdone, -, hmem⟩ := finishWith_taken htake stEmpty
    exact ⟨_, install_empty htake hres hslot haddr hcount hrange hgo hfree h0, hdone, hmem⟩
  · have hmem : s1.mem = s.mem := (takeDesc_effect htake).mem_same (by decide)
    rw [← memBytes_of_mem hmem, ← hmem]
    exact ⟨_, install_fills htake hres hslot haddr hcount hrange hgo hfree h0 hreads hseen hscan, fillSlot_finished s1 hcount ..⟩
  · exact ⟨_, install_refused htake hres hslot haddr hcount hrange h, finishWith_taken htake stRefused⟩
  · have hmem : s1.mem = s.mem := (takeDesc_effect htake).mem_same (by decide)
    rw [← hmem]
    exact ⟨_, run_starts htake hres hslot hgo hinstalled hchecks, runStarted s1 c d hslot⟩
  · exact ⟨_, run_refused htake hres hslot h, finishWith_taken htake stRefused⟩
  · obtain ⟨hdone, -, hmem⟩ := finishWith_taken htake stEmpty
    exact ⟨_, layers_empty htake hres hcount hend haddr haligned hrange hgo hfree h0, hdone, hmem⟩
  · have hmem : s1.mem = s.mem := (takeDesc_effect htake).mem_same (by decide)
    have hcore : coreOf s1 k = coreOf s k := (takeDesc_effect htake).coreOf_same (by decide) k
    rw [← memBytes_of_mem hmem, ← hmem, ← hcore]
    exact ⟨_, layers_fills htake hres hcount hend haddr haligned hrange hgo hfree h0 hreads hseen hok,
      layers_finished s1 c d _ _ (length_memBytes ..)⟩
  · exact ⟨_, layers_refused htake hres hcount hend haddr haligned hrange h, finishWith_taken htake stRefused⟩

end Sys2Proof.Machine
end

section
/-! PROOF. The clocks of a core's arrays (R260, R263): the work of a cycle leaves them, and each engine moves its own as it enters the
next cycle. Work starts no stream. -/

set_option Elab.async false

namespace Sys2Proof.Machine

/-- From `s` to `t` core `k` keeps the clocks of its arrays, and runs no stream that it did not run. -/
structure KeepsClocks (k : Nat) (s t : State) : Prop where
  clock : ∀ a, (arrayOf t k a).clock = (arrayOf s k a).clock
  ended : (coreOf s k).runDesc = none → (coreOf t k).runDesc = none

theorem KeepsClocks.refl (k : Nat) (s : State) : KeepsClocks k s s := ⟨fun _ => rfl, id⟩

/-- An operation after others. -/
theorem KeepsClocks.step {k : Nat} {s t u : State} (h2 : KeepsClocks k t u) (h1 : KeepsClocks k s t) : KeepsClocks k s u :=
  ⟨fun a => (h2.clock a).trans (h1.clock a), h2.ended ∘ h1.ended⟩

theorem KeepsClocks.ite {k : Nat} {s a b : State} {c : Prop} [Decidable c] (h1 : KeepsClocks k s a) (h2 : KeepsClocks k s b) :
    KeepsClocks k s (if c then a else b) := by
  split <;> assumption

theorem KeepsClocks.fold {α : Type} {k : Nat} {f : State → α → State} {l : List α} {s t : State}
    (hf : ∀ s x, KeepsClocks k s (f s x)) (h : KeepsClocks k s t) : KeepsClocks k s (l.foldl f t) := by
  induction l generalizing t with
  | nil => exact h
  | cons x l ih => exact ih ((hf t x).step h)

/-- An effect that leaves the cores. -/
theorem Effect.keepsClocks {w : List Part} {s t : State} (h : Effect w s t) {k : Nat} (hw : Part.cores ∉ w := by decide) :
    KeepsClocks k s t where
  clock a := by rw [arrayOf, h.coreOf_same hw, arrayOf]
  ended := by rw [h.coreOf_same hw]; exact id

/-! ### A core's own state -/

section
variable {k : Nat}

theorem setCore_keepsClocks (s : State) {c : CoreState} (harrays : c.arrays = (coreOf s k).arrays := by rfl)
    (hrun : c.runDesc = (coreOf s k).runDesc := by rfl) : KeepsClocks k s (setCore s k c) where
  clock a := by rw [arrayOf, coreOf_setCore_same, CoreState.array, harrays]; rfl
  ended := by rw [coreOf_setCore_same, hrun]; exact id

theorem CoreState.array_setArray_ne (c : CoreState) {a b : Nat} (h : b ≠ a) (v : ArrayState) : (c.setArray a v).array b = c.array b := by
  simp [CoreState.array, CoreState.setArray, Map.getD, Map.find_put_ne _ _ _ _ h]

theorem arrayOf_setArray_ne (s : State) {a b : Nat} (h : b ≠ a) (v : ArrayState) : arrayOf (setArray s k a v) k b = arrayOf s k b := by
  rw [arrayOf, coreOf_setArray, CoreState.array_setArray_ne _ h, arrayOf]

theorem setArray_keepsClocks (s : State) (a : Nat) {v : ArrayState} (h : v.clock = (arrayOf s k a).clock := by rfl) :
    KeepsClocks k s (setArray s k a v) where
  clock b := by
    by_cases e : b = a
    · rw [e, arrayOf_setArray_same, h]
    · rw [arrayOf_setArray_ne s e]
  ended := by rw [coreOf_setArray]; exact id

theorem keepInPoint_keepsClocks (s : State) (bundle : Nat) (v : State) : KeepsClocks k s (keepInPoint s k bundle v) := by
  unfold keepInPoint
  split
  · exact .ite (setCore_keepsClocks s) (.refl k s)
  · exact .refl k s

theorem passEmpty_keepsClocks (n : Nat) (s : State) : KeepsClocks k s (passEmpty n s k) := by
  have h := passEmpty_onward n s k
  refine ⟨fun a => by rw [arrayOf_of_arrays h.arrays], ?_⟩
  rw [h.rest]
  exact id

theorem freezeCore_keepsClocks (s : State) (f : FreezeCond) : KeepsClocks k s (freezeCore s k f) :=
  (setSeqState_effect ..).keepsClocks.step (setCore_keepsClocks s)

theorem slipFor_keepsClocks (s : State) (n : Nat) (f : Nat → FreezeCond) : KeepsClocks k s (slipFor s k n f) :=
  .ite (.refl k s) (freezeCore_keepsClocks ..)

theorem flagCore_keepsClocks (s : State) (f : Nat) : KeepsClocks k s (flagCore s k f) := setCore_keepsClocks s

theorem freezeHeld_keepsClocks (s : State) (n : Nat) : KeepsClocks k s (freezeHeld s k n) :=
  .ite (.refl k s) (.fold (fun _ _ => freezeCore_keepsClocks ..) (.refl k s))

theorem detect_keepsClocks (s : State) (f : Failure) : KeepsClocks k s (detect s k f) := setCore_keepsClocks s

theorem armGuards_keepsClocks (s : State) (bundle base len : Nat) : KeepsClocks k s (armGuards s k bundle base len) := by
  unfold armGuards
  extract_lets
  exact .ite (setCore_keepsClocks s) (.refl k s)

/-- The end of a stream stops the arrays at their clocks (R250 to R252). -/
theorem endStream_keepsClocks (s : State) (status : Nat) : KeepsClocks k s (endStream s k status) := by
  unfold endStream
  split
  · exact .refl k s
  · extract_lets s1 c die n detail d s2 s3 c3 s4 halted s5 s6 s7
    obtain ⟨flags, slipRun, frozen, hcore⟩ := countCut_core s k
    have h3 : KeepsClocks k s s4 := by
      have hs4 : coreOf s4 k = { c.stopped with ended := some (status, detail) } := by
        simp only [s4, c3, s3, coreOf_setCore_same]
      refine ⟨fun a => ?_, fun _ => by rw [hs4]; rfl⟩
      rw [arrayOf, hs4]
      show (Map.getD (Map.mapVals c.arrays ArrayState.stopped) a ArrayState.fresh).clock = _
      rw [Map.getD_mapVals _ _ _ _ rfl]
      simp only [c, s1, hcore]
      rfl
    have h5 : KeepsClocks k s s5 := (setSeqState_effect ..).keepsClocks.step h3
    have h7 : KeepsClocks k s s7 := (queueCompletion_effect ..).keepsClocks.step ((dropActive_effect ..).keepsClocks.step h5)
    exact (ringAdvance_effect ..).keepsClocks.step ((settlePower_effect _).keepsClocks.step ((irq_effect ..).keepsClocks.step h7))

/-! ### Memory (R227, R277, R433) -/

theorem hitGuards_keepsClocks (s : State) (base len : Nat) (keep : Nat → Bool) : KeepsClocks k s (hitGuards s base len keep) := by
  have h : ∃ guards, coreOf (hitGuards s base len keep) k = { coreOf s k with guards := guards } := by
    unfold coreOf hitGuards
    dsimp only
    rw [Map.getD_mapVals _ _ _ _ rfl]
    exact ⟨_, rfl⟩
  obtain ⟨guards, h⟩ := h
  exact ⟨fun a => by rw [arrayOf, h]; rfl, by rw [h]; exact id⟩

theorem landWrite_keepsClocks (s : State) (mf : MemFaults) (base : Nat) (data : Bytes) (keep : Nat → Bool) :
    KeepsClocks k s (landWrite s mf base data keep) := (hitGuards_keepsClocks ..).step (storeBytes_effect ..).keepsClocks

theorem landAll_keepsClocks (s : State) (mf : MemFaults) (ws : List (Nat × Bytes)) : KeepsClocks k s (landAll s mf ws) :=
  .fold (fun _ _ => landWrite_keepsClocks ..) (.refl k s)

theorem checkRead_keepsClocks (s : State) (er : EngineRun) (f : Nat → FreezeCond) (base len : Nat) :
    KeepsClocks k s (checkRead s k er f base len) :=
  .fold (fun _ _ => slipFor_keepsClocks ..) (readEffects_effect ..).keepsClocks

theorem engineRead_keepsClocks (s : State) (bundle : Nat) (er : EngineRun) (f : Nat → FreezeCond) (base len : Nat) :
    KeepsClocks k s (engineRead s k bundle er f base len) := (checkRead_keepsClocks ..).step (armGuards_keepsClocks ..)

/-! ### Ports of an array (R135, R136, R153, R859) -/

theorem portEffects_keepsClocks (s : State) (a bundle : Nat) (lf : LineFaults) (lines : List Nat) :
    KeepsClocks k s (portEffects s k a bundle lf lines) := by
  unfold portEffects
  extract_lets ch good s1 st st' s2
  have h1 : KeepsClocks k s s1 := .fold
    (fun _ _ => (slipFor_keepsClocks ..).step ((transient_effect ..).keepsClocks.step (bump_effect ..).keepsClocks)) (.refl k s)
  have h2 : KeepsClocks k s s2 := (setArray_keepsClocks s1 a).step h1
  split
  · extract_lets _ s3
    have hfail : KeepsClocks k s (bump s2 F.spmFailCount_count (k / 24) 0 1) := (bump_effect ..).keepsClocks.step h2
    have h3 : KeepsClocks k s s3 := .ite hfail ((exhaust_effect ..).keepsClocks.step ((transient_effect ..).keepsClocks.step hfail))
    exact (detect_keepsClocks ..).step ((slipFor_keepsClocks ..).step h3)
  · exact h2

theorem passPort_keepsClocks (a : Nat) (s : State) (r : PassRun) : KeepsClocks k s (passPort k a s r) := by
  unfold passPort
  extract_lets
  exact .ite (.refl k s) ((portEffects_keepsClocks ..).step (setArray_keepsClocks s a))

theorem loadCheck_keepsClocks (a bundle : Nat) (s : State) (kind : Nat) : KeepsClocks k s (loadCheck k a bundle s kind) := by
  unfold loadCheck
  extract_lets
  split
  · exact (transient_effect ..).keepsClocks.step (bumpQuad_effect ..).keepsClocks
  · exact (transient_effect ..).keepsClocks
  · exact (detect_keepsClocks ..).step (transient_effect ..).keepsClocks

theorem loadPort_keepsClocks (a : Nat) (s : State) (l : LoadRun) : KeepsClocks k s (loadPort k a s l) := by
  unfold loadPort
  extract_lets
  refine .ite (.refl k s) (.fold (fun _ _ => loadCheck_keepsClocks ..) ((portEffects_keepsClocks ..).step ?_))
  exact (setCore_keepsClocks _).step (setArray_keepsClocks s a)

theorem arrayPorts_keepsClocks (s : State) (a : Nat) : KeepsClocks k s (arrayPorts s k a) :=
  .fold (fun _ _ => loadPort_keepsClocks ..) (.fold (fun _ _ => passPort_keepsClocks ..) (.refl k s))

/-! ### Accumulators, spills and drains (R136, R187 to R191, R205 to R213) -/

theorem clock_mergeEntry (p : PassMerge) (bound : Map Binding) (a : ArrayState) (row col sum cycle : Nat) (due : Int) :
    (mergeEntry p bound a row col sum cycle due).clock = a.clock := by
  unfold mergeEntry
  extract_lets e new v tally a'
  have h : a'.clock = a.clock := by
    dsimp only [a']
    split <;> rfl
  split
  · extract_lets sp
    split <;> exact h
  · exact h

theorem clock_foldl {α : Type} {f : ArrayState → α → ArrayState} (hf : ∀ a x, (f a x).clock = a.clock) (l : List α)
    (a : ArrayState) : (l.foldl f a).clock = a.clock := by
  induction l generalizing a with
  | nil => rfl
  | cons x l ih => exact (ih _).trans (hf a x)

theorem clock_mergeDue (a : ArrayState) (point cycle : Nat) : (mergeDue a point cycle).clock = a.clock :=
  clock_foldl (fun _ _ => clock_foldl (fun _ _ => clock_mergeEntry ..) _ _) _ _

theorem clock_drainEntries (d : Drain) (window : Bool) (a : ArrayState) (i : Nat) (cells : List DrainCell) :
    (drainEntries d window a i cells).clock = a.clock := by
  refine clock_foldl (fun a x => ?_) _ _
  dsimp only
  split <;> rfl

theorem landSpill_keepsClocks (s : State) (a : Nat) (sp : PendingSpill) : KeepsClocks k s (landSpill s k a sp) := by
  unfold landSpill
  extract_lets
  refine .ite (setArray_keepsClocks s a) ((bump_spill_effect ..).keepsClocks.step ?_)
  exact (storeBytes_effect ..).keepsClocks.step (setArray_keepsClocks s a)

theorem spillOne_keepsClocks (s : State) (a : Nat) (er : EngineRun) (sp : PendingSpill) :
    KeepsClocks k s (spillOne s k a er sp) := by
  unfold spillOne
  extract_lets addr bad s1
  have h1 : KeepsClocks k s s1 := engineRead_keepsClocks ..
  clear_value s1 bad
  cases bad with
  | some r => exact (detect_keepsClocks ..).step h1
  | none => exact (landSpill_keepsClocks ..).step h1

theorem landInto_keepsClocks (own : Option Nat) (base len before : Nat) (er : EngineRun) (n : Nat) (s : State) :
    KeepsClocks k s (landInto k own base len before er n s) := by
  induction n generalizing s with
  | zero => exact .refl k s
  | succ n ih =>
    unfold landInto
    split
    · exact .refl k s
    next a _ _ => exact (ih _).step ((spillOne_keepsClocks ..).step (setArray_keepsClocks s a))

theorem drainOne_keepsClocks (s : State) (a : Nat) (r : DrainRun) (i : Nat) : KeepsClocks k s (drainOne s k a r i) := by
  unfold drainOne
  extract_lets
  split
  exact (storeBytes_effect ..).keepsClocks.step ((bump_spill_effect ..).keepsClocks.step
    (setArray_keepsClocks s a (clock_drainEntries ..)))

theorem drainRead_keepsClocks (a : Nat) (s : State) (r : DrainRun) : KeepsClocks k s (drainRead k a s r) := by
  unfold drainRead
  extract_lets d i i' plateAt n s1 ranges bad s2
  have h1 : KeepsClocks k s s1 := landInto_keepsClocks ..
  have h2 : KeepsClocks k s s2 := .fold (fun _ _ => engineRead_keepsClocks ..) h1
  refine .ite (.refl k s) (.ite h1 ?_)
  clear_value s2 bad
  cases bad with
  | some row => exact (detect_keepsClocks ..).step h2
  | none => exact (drainOne_keepsClocks ..).step h2

theorem drainEnd_keepsClocks (s : State) (a : Nat) (r : DrainRun) : KeepsClocks k s (drainEnd s k a r) := by
  have flagged (t : State) (reg : Reg) (flag : Nat) : KeepsClocks k t (flagCore (bumpQuad t reg k a 1) k flag) :=
    (flagCore_keepsClocks ..).step ((bumpQuad_effect ..).keepsClocks (by simp))
  unfold drainEnd
  extract_lets d fl s1 s2 s3
  have h1 : KeepsClocks k s s1 := landWrite_keepsClocks ..
  have h2 : KeepsClocks k s s2 := (KeepsClocks.ite (flagged s1 ..) (.refl k s1)).step h1
  have h3 : KeepsClocks k s s3 := (KeepsClocks.ite (flagged s2 ..) (.refl k s2)).step h2
  exact .ite ((emit_effect ..).keepsClocks.step h3) h3

theorem drainEnter_keepsClocks (a : Nat) (s : State) (r : DrainRun) : KeepsClocks k s (drainEnter k a s r) := by
  unfold drainEnter
  extract_lets d s1 st
  have h1 : KeepsClocks k s s1 := .fold (fun _ _ => landWrite_keepsClocks ..) (.refl k s)
  exact .ite ((drainEnd_keepsClocks ..).step ((setArray_keepsClocks s1 a).step h1)) ((setArray_keepsClocks s1 a).step h1)

theorem arrayWork_keepsClocks (bad : List Nat) (s : State) (a : Nat) : KeepsClocks k s (arrayWork bad s k a) := by
  unfold arrayWork
  refine .ite (endStream_keepsClocks ..) ((arrayPorts_keepsClocks ..).step ?_)
  exact .fold (fun _ _ => drainRead_keepsClocks ..) (setArray_keepsClocks s a (clock_mergeDue ..))

/-! ### The vector engine (R324, R327, R332) -/

theorem movrRegs_keepsClocks (s : State) (w : Nat) (b : Bytes) : KeepsClocks k s (movrRegs s k w b) := by
  unfold movrRegs
  extract_lets
  split
  · exact (wrCore_effect ..).keepsClocks (by simp)
  · exact (wrCore_effect ..).keepsClocks (by simp)
  · exact (wrCore_effect ..).keepsClocks (by simp)
  · exact .refl k s

theorem vecRead_keepsClocks (s : State) (r : VecRun) : KeepsClocks k s (vecRead k s r) := by
  unfold vecRead
  extract_lets
  refine .ite (.refl k s) (.ite (.refl k s) ((setCore_keepsClocks _).step ((slipFor_keepsClocks ..).step ?_)))
  exact .fold (fun _ _ => engineRead_keepsClocks ..) (.refl k s)

theorem vecResults_keepsClocks (s : State) (r : VecRun) : KeepsClocks k s (vecResults k s r) :=
  .fold (fun _ _ => landWrite_keepsClocks ..) (setCore_keepsClocks s)

theorem vecWrite_keepsClocks (s : State) (r : VecRun) : KeepsClocks k s (vecWrite k s r) := by
  unfold vecWrite
  extract_lets
  split
  · exact .ite (.refl k s) (.ite (detect_keepsClocks ..) (vecResults_keepsClocks ..))
  · exact vecResults_keepsClocks ..

theorem rootStore_keepsClocks (s : State) (r : VecRun) : KeepsClocks k s (rootStore k s r) :=
  .fold (fun _ _ => slipFor_keepsClocks ..) (.refl k s)

theorem vecWork_keepsClocks (bad : List Nat) (s : State) : KeepsClocks k s (vecWork bad s k) :=
  .fold (fun _ _ => rootStore_keepsClocks ..) (.fold (fun _ _ => vecRead_keepsClocks ..)
    (.fold (fun _ _ => vecWrite_keepsClocks ..) (setCore_keepsClocks s)))

theorem vecFinish_keepsClocks (s : State) (r : VecRun) : KeepsClocks k s (vecFinish k s r) := by
  have regs (t : State) : KeepsClocks k t (vecRegs k t r) := by
    unfold vecRegs
    extract_lets w s1 s2
    have h1 : KeepsClocks k t s1 := .ite (wrCore_effect ..).keepsClocks (.refl k t)
    have h2 : KeepsClocks k t s2 := (KeepsClocks.ite (movrRegs_keepsClocks ..) (.refl k s1)).step h1
    exact .ite ((bumpCore_effect ..).keepsClocks.step h2) h2
  unfold vecFinish
  extract_lets s1
  have h1 : KeepsClocks k s s1 := (keepInPoint_keepsClocks ..).step (regs s)
  exact .ite ((flagCore_keepsClocks ..).step h1) h1

theorem vecEnter_keepsClocks (s : State) : KeepsClocks k s (vecEnter s k) :=
  .fold (fun _ _ => vecFinish_keepsClocks ..) (setCore_keepsClocks s)

/-! ### The update engine (R355 to R365) -/

theorem retried_keepsClocks (s : State) (e : Retry) : KeepsClocks k s (retried k s e) := by
  unfold retried
  extract_lets s1 s2 s3
  have h1 : KeepsClocks k s s1 := (bumpCore_effect ..).keepsClocks
  have h2 : KeepsClocks k s s2 := (KeepsClocks.ite (.refl k s1) (transient_effect ..).keepsClocks).step h1
  have h3 : KeepsClocks k s s3 := (KeepsClocks.ite (marginCount_effect ..).keepsClocks (.refl k s2)).step h2
  exact (slipFor_keepsClocks ..).step h3

theorem updInputs_keepsClocks (s : State) (bundle : Nat) (er : EngineRun) (g : Nat) (reads : List (Nat × Nat)) :
    KeepsClocks k s (updInputs s k bundle er g reads) := by
  unfold updInputs
  extract_lets again bad s1 s2 s3
  have h1 : KeepsClocks k s s1 := .fold (fun _ _ => checkRead_keepsClocks ..) (.refl k s)
  have h2 : KeepsClocks k s s2 := (KeepsClocks.ite (.refl k s1) (bumpCore_effect ..).keepsClocks).step h1
  have h3 : KeepsClocks k s s3 := (slipFor_keepsClocks ..).step (.fold (fun _ _ => retried_keepsClocks ..) h2)
  clear_value s3 bad
  cases bad with
  | some row => exact (detect_keepsClocks ..).step ((bumpCore_effect ..).keepsClocks.step ((bumpCore_effect ..).keepsClocks.step h3))
  | none => exact h3

theorem updFetch_keepsClocks (s : State) (bundle w : Nat) : KeepsClocks k s (updFetch s k bundle w).2 :=
  .ite (.fold (fun _ _ => armGuards_keepsClocks ..) (.refl k s)) (.refl k s)

theorem rootFailed_keepsClocks (s : State) (bundle layer tile side : Nat) (o : SideOut) :
    KeepsClocks k s (rootFailed s k bundle layer tile side o) :=
  (emit_effect ..).keepsClocks.step ((keepInPoint_keepsClocks ..).step (bumpCore_effect ..).keepsClocks)

theorem setUpdRun_keepsClocks (s : State) (r : UpdRun) : KeepsClocks k s (setUpdRun s k r) := setCore_keepsClocks s

theorem updWriteGroup_keepsClocks (s : State) (r : UpdRun) (g : Nat) : KeepsClocks k s (updWriteGroup s k r g) := by
  have flagged (t : State) (ws : List (Nat × Bytes)) (b : Bool) :
      KeepsClocks k t (if b then flagCore (landAll t r.er.mf ws) k flagNonfinite else landAll t r.er.mf ws) :=
    .ite ((flagCore_keepsClocks ..).step (landAll_keepsClocks ..)) (landAll_keepsClocks ..)
  unfold updWriteGroup
  extract_lets u l c view o s1 s2 s3 o' s4 s5
  have h1 : KeepsClocks k s s1 := .fold (fun _ _ => rootFailed_keepsClocks ..) (.refl k s)
  have h3 : KeepsClocks k s s3 := (flagged s1 ..).step h1
  have h5 : KeepsClocks k s s5 := flagged s ..
  exact .ite (.ite h3 ((setUpdRun_keepsClocks ..).step h3))
    (.ite ((flagCore_keepsClocks ..).step ((setUpdRun_keepsClocks ..).step h5)) h5)

theorem updWriteHeader_keepsClocks (s : State) (r : UpdRun) : KeepsClocks k s (updWriteHeader s k r) := by
  unfold updWriteHeader
  extract_lets
  split
  · exact landWrite_keepsClocks ..
  · exact .refl k s

theorem updReadAt_keepsClocks (s : State) (r : UpdRun) (x : Int) : KeepsClocks k s (updReadAt s k r x) := by
  unfold updReadAt
  extract_lets u l s1
  have h1 : KeepsClocks k s s1 := .ite (updInputs_keepsClocks ..) (.refl k s)
  split
  · exact (updInputs_keepsClocks ..).step h1
  · exact h1

theorem updWork_keepsClocks (bad : List Nat) (s : State) : KeepsClocks k s (updWork bad s k) := by
  unfold updWork
  extract_lets c _ s1
  have h1 : KeepsClocks k s s1 := setCore_keepsClocks s
  split
  · exact h1
  next r _ =>
    extract_lets s2 r' s3
    have h2 : KeepsClocks k s s2 := by
      dsimp only [s2]
      split
      · exact (updWriteGroup_keepsClocks ..).step h1
      · exact h1
    have h3 : KeepsClocks k s s3 := (KeepsClocks.ite (updWriteHeader_keepsClocks ..) (.refl k s2)).step h2
    exact .ite h1 ((updReadAt_keepsClocks ..).step h3)

theorem updFinish_keepsClocks (s : State) (r : UpdRun) : KeepsClocks k s (updFinish s k r) := by
  unfold updFinish
  extract_lets u l n s1
  have h1 : KeepsClocks k s s1 := (keepInPoint_keepsClocks ..).step (updCounts_effect ..).keepsClocks
  exact .ite h1 ((flagCore_keepsClocks ..).step h1)

theorem updEnter_keepsClocks (s : State) : KeepsClocks k s (updEnter s k) := by
  unfold updEnter
  extract_lets c x _ s1
  have h1 : KeepsClocks k s s1 := setCore_keepsClocks s
  split
  · exact .ite ((updFinish_keepsClocks ..).step ((setCore_keepsClocks s1).step h1)) h1
  · exact h1

theorem updPrefetch_keepsClocks (s : State) : KeepsClocks k s (updPrefetch s k) := by
  refine .fold (fun t x => ?_) (.refl k s)
  exact .ite ((setCore_keepsClocks _).step (updFetch_keepsClocks ..)) (.refl k t)

/-! ### One cycle (R260, R263, R851) -/

theorem engineWork_keepsClocks (bad : List Nat) (s : State) (e : Nat) : KeepsClocks k s (engineWork bad k s e) := by
  unfold engineWork
  extract_lets
  exact .ite (.ite (.refl k s) (arrayWork_keepsClocks ..)) (.ite (.ite (.refl k s) (vecWork_keepsClocks ..))
    (.ite (.refl k s) (updWork_keepsClocks ..)))

theorem cycleWork_keepsClocks (bad : List Nat) (s : State) : KeepsClocks k s (cycleWork bad s k) := by
  unfold cycleWork
  extract_lets held s1 s2
  have h1 : KeepsClocks k s s1 := .fold (fun _ _ => engineWork_keepsClocks ..) (.refl k s)
  have h2 : KeepsClocks k s s2 := (KeepsClocks.ite (updPrefetch_keepsClocks ..) (.refl k s1)).step h1
  exact (freezeHeld_keepsClocks ..).step h2

theorem fetchSome_keepsClocks (limit n : Nat) (s : State) : KeepsClocks k s (fetchSome k limit n s) := by
  induction n generalizing s with
  | zero => exact .refl k s
  | succ n ih =>
    unfold fetchSome
    extract_lets _ _ _ _ _ _ s1 _ s2
    have h1 : KeepsClocks k s s1 := (readEffects_effect ..).keepsClocks
    have h2 : KeepsClocks k s s2 := (setCore_keepsClocks s1).step h1
    exact .ite (.refl k s) (.ite ((endStream_keepsClocks ..).step h1)
      (.ite ((endStream_keepsClocks ..).step h2) ((ih _).step h2)))

theorem comeDue_keepsClocks (s : State) : KeepsClocks k s (comeDue s k) := by
  have hlate : KeepsClocks k s (lateFreeze s k) := .fold (fun _ _ => slipFor_keepsClocks ..) (setCore_keepsClocks s)
  exact .ite ((passEmpty_keepsClocks ..).step hlate) hlate

/-- An engine that enters its next cycle moves its own clock, if it is an array. -/
theorem clock_engineEnter (s : State) {a : Nat} (ha : a < 4) (e : Nat) :
    (arrayOf (engineEnter k s e) k a).clock = (arrayOf s k a).clock + [e].count a := by
  unfold engineEnter
  split
  next he =>
    have h : KeepsClocks k (setArray s k e _) (arrayEnter s k e) := .fold (fun _ _ => drainEnter_keepsClocks ..) (.refl ..)
    rw [h.clock]
    by_cases hea : e = a
    · subst hea
      rw [arrayOf_setArray_same]
      simp
    · rw [arrayOf_setArray_ne s (Ne.symm hea)]
      simp [hea]
  next he =>
    have h0 : [e].count a = 0 := List.count_eq_zero.mpr (by simp; omega)
    rw [h0, (KeepsClocks.ite (vecEnter_keepsClocks s) (updEnter_keepsClocks s)).clock a]
    simp

theorem clock_enterAll (s : State) {a : Nat} (ha : a < 4) (es : List Nat) :
    (arrayOf (enterAll s k es) k a).clock = (arrayOf s k a).clock + es.count a := by
  have hfold : ∀ (es : List Nat) (s : State),
      (arrayOf (es.foldl (engineEnter k) s) k a).clock = (arrayOf s k a).clock + es.count a := by
    intro es
    induction es with
    | nil => simp
    | cons e es ih =>
      intro s
      have hcount : (e :: es).count a = [e].count a + es.count a := List.count_append (l₁ := [e])
      rw [List.foldl_cons, ih, clock_engineEnter s ha, hcount, Nat.cast_add, add_assoc]
  rw [enterAll, (freezeHeld_keepsClocks ..).clock, hfold]

end

end Sys2Proof.Machine
end

section
/-! PROOF. Reading a stream (R248, R249, R851): the bundles that the fetch unit brings are those of memory, and the bytes of them all
give the slot's CRC-32. -/

set_option Elab.async false

namespace Sys2Proof.Machine

/-! ### What reading a stream rests on -/

/-- The parts that the fetch unit changes while it reads well, and those of the start before it. -/
abbrev fetchingParts : List Part := [.cores, .reg .seqSchedule]

section
variable {s t : State} (h : Effect fetchingParts s t)
include h

theorem fetching_jobRuns : jobRuns t = jobRuns s := by
  rw [jobRuns, jobState, h.field_same _ (by decide), jobRuns, jobState]

theorem fetching_job : t.job = s.job := h.frame.same .job (by decide)

theorem fetching_usableHbm : usableHbm t = usableHbm s := by
  rw [usableHbm, h.frame.same .unusable (by decide), usableHbm]

theorem fetching_regionOf (a : Nat) : regionOf t a = regionOf s a := by
  have hgone (d : Nat) : sharedGone t d = sharedGone s d := by
    rw [sharedGone, h.frame.same .flt (by decide), sharedGone]
  unfold regionOf
  rw [fetching_usableHbm h, hgone, hgone]

theorem fetching_rangeIn (a len : Nat) (reach : Region → Bool) : rangeIn t a len reach = rangeIn s a len reach := by
  have hspan (r : Region) : regionSpan t r = regionSpan s r := by
    cases r <;> simp only [regionSpan, fetching_usableHbm h]
  have hfar : inFarTable t a len = inFarTable s a len := by
    rw [inFarTable, fetching_jobRuns h, fetching_job h, inFarTable]
  simp only [rangeIn, rangeOk, fetching_regionOf h, hspan, hfar]

theorem fetching_bundleFieldsOk (k : Nat) (b : Bundle) : bundleFieldsOk t k b = bundleFieldsOk s k b := by
  have hfar : farCount t = farCount s := by
    rw [farCount, fetching_jobRuns h, fetching_job h, h.field_same _ (by decide), farCount]
  have hlocation : location t = location s := h.field_same _ (by decide) ..
  have hfeed (f : Feed) : f.ok t k = f.ok s k := by simp only [Feed.ok, fetching_rangeIn h]
  simp only [bundleFieldsOk, wideOk, hfar, hlocation, hfeed]

theorem fetching_failRow (mf : MemFaults) (base len : Nat) : failRow t mf base len = failRow s mf base len := by
  have hpoison : t.poison = s.poison := h.frame.same .poison (by decide)
  simp only [failRow, hpoison]

theorem fetching_seqSlot (k : Nat) : seqSlot t k = seqSlot s k := h.field_same _ (by decide) ..

theorem fetching_streamBase (k : Nat) : streamBase t k = streamBase s k := by
  rw [streamBase, fetching_seqSlot h, slotBase, h.frame.same (.reg .seqSlotBase) (by decide), streamBase, slotBase]

theorem fetching_slotCrc (k : Nat) : slotCrc t k (seqSlot t k) = slotCrc s k (seqSlot s k) := by
  rw [fetching_seqSlot h, slotCrc, h.frame.same (.reg .seqSlotCrc) (by decide), slotCrc]

theorem fetching_bundleWord (k i : Nat) : bundleWord t k i = bundleWord s k i := by
  rw [bundleWord, fetching_streamBase h, memBytes_of_mem (h.mem_same (by decide)), bundleWord]

end

/-! ### Rows that read well -/

theorem foldl_eq_none {α : Type} {f : Option α → α → Option α} (hf : ∀ m x, f m x ≠ none) (l : List α) :
    l.foldl f none = none ↔ l = [] := by
  refine ⟨fun h => ?_, fun h => h ▸ rfl⟩
  rcases List.eq_nil_or_concat l with rfl | ⟨l, x, rfl⟩
  · rfl
  · rw [List.concat_eq_append, List.foldl_append] at h
    exact absurd h (hf _ x)

theorem readsWell_iff (s : State) (base len : Nat) :
    readsWell s base len ↔ ∀ r ∈ s.poison, overlaps base len r (rowLen r) = false := by
  unfold readsWell failRow
  split
  next h0 => simp [h0, overlaps]
  · simp only [MemFaults.none, List.filter_nil, List.map_nil, List.nil_append]
    rw [foldl_eq_none (fun m r => by split <;> exact nofun), List.filter_eq_nil_iff]
    simp only [Bool.not_eq_true]

/-- A part of a range that reads well. -/
theorem readsWell_part {s : State} {base len a n : Nat} (h : readsWell s base len) (ha : base ≤ a) (hn : a + n ≤ base + len) :
    readsWell s a n := by
  rw [readsWell_iff] at *
  intro r hr
  have := h r hr
  simp only [overlaps, Bool.and_eq_false_iff, decide_eq_false_iff_not] at this ⊢
  omega

/-! ### Bytes of bundles -/

theorem memBytes_add (s : State) (base m n : Nat) : memBytes s base (m + n) = memBytes s base m ++ memBytes s (base + m) n := by
  simp only [memBytes, mapBytes, List.range_add, List.map_append, List.map_map, Function.comp_def, Nat.add_assoc]

theorem leBytes_leNat (b : Bytes) : leBytes b.length (leNat b) = b := by
  induction b with
  | nil => rfl
  | cons x b ih =>
    have hx := x.isLt
    have hhead : BitVec.ofNat 8 (x.toNat + 256 * leNat b) = x := by
      apply BitVec.eq_of_toNat_eq
      rw [BitVec.toNat_ofNat]
      omega
    rw [List.length_cons, leNat, leBytes, hhead, show (x.toNat + 256 * leNat b) / 256 = leNat b by omega, ih]

theorem leBytes_bundleWord (s : State) (k i : Nat) : leBytes 32 (bundleWord s k i) = memBytes s (streamBase s k + 32 * i) 32 := by
  have h := leBytes_leNat (memBytes s (streamBase s k + 32 * i) 32)
  rwa [length_memBytes] at h

/-- The CRC-32 run over the first bundles is that over their bytes (R248). -/
theorem crc_bundleWords (s : State) (k n c : Nat) :
    ((List.range n).map (bundleWord s k)).foldl (fun r w => (leBytes 32 w).foldl crc32Byte r) c =
      (memBytes s (streamBase s k) (32 * n)).foldl crc32Byte c := by
  induction n with
  | zero => rfl
  | succ n ih =>
    rw [List.range_succ, List.map_append, List.foldl_append, ih, Nat.mul_succ, memBytes_add, List.foldl_append]
    simp only [List.map_cons, List.map_nil, List.foldl_cons, List.foldl_nil, leBytes_bundleWord]

/-! ### The fetch unit -/

/-- The first i bundles of the stream stand in the buffer, and the core is `c` in all else. -/
structure Fetched (k : Nat) (s : State) (c : CoreState) (i : Nat) (v : State) : Prop where
  effect : Effect fetchingParts s v
  core : ∃ cycle, coreOf v k = { c with buffer := (List.range i).map (bundleWord s k), fetchCycle := cycle }

/-- A core at the start of its stream. -/
structure CoreState.AtStart (c : CoreState) : Prop where
  bundle : c.bundle = 0
  fetchMf : c.fetchMf = MemFaults.none
  crc : c.crc = 0xFFFF_FFFF

theorem Fetched.crcOk {k : Nat} {s v : State} {c : CoreState} (hc : c.AtStart) (hs : streamReads s k)
    (h : Fetched k s c (streamCount s k) v) : fetchedCrcOk v k = true := by
  obtain ⟨cycle, hcore⟩ := h.core
  obtain ⟨-, -, hcrc⟩ := hs
  unfold fetchedCrcOk
  rw [hcore, fetching_slotCrc h.effect]
  simp only [crc_bundleWords, hc.crc]
  exact decide_eq_true hcrc

section
variable {k i : Nat} {s v : State} {c : CoreState} (h : Fetched k s c i v)
include h

theorem Fetched.streamCount_eq : streamCount v k = streamCount s k := streamCount_of_effect h.effect (by decide) (by decide) k

/-- The bundle fetched next. -/
theorem Fetched.index_eq (hc : c.AtStart) : (coreOf v k).bundle + (coreOf v k).buffer.length = i := by
  obtain ⟨_, hcore⟩ := h.core
  simp [hcore, hc.bundle]

theorem Fetched.fetchMf_eq (hc : c.AtStart) : (coreOf v k).fetchMf = .none := by
  obtain ⟨_, hcore⟩ := h.core
  rw [hcore, hc.fetchMf]

theorem Fetched.rowWell (hs : streamReads s k) (hi : i < streamCount s k) : readsWell v (streamBase v k + 32 * i) 32 := by
  obtain ⟨hwell, -, -⟩ := hs
  rw [readsWell, fetching_failRow h.effect, fetching_streamBase h.effect]
  exact readsWell_part hwell (by omega) (by omega)

theorem Fetched.fieldsOk (hs : streamReads s k) (hi : i < streamCount s k) :
    bundleFieldsOk v k (bundleOf (bundleWord v k i)) = true := by
  obtain ⟨-, hfields, -⟩ := hs
  rw [fetching_bundleFieldsOk h.effect, fetching_bundleWord h.effect]
  exact hfields i hi

/-- One more bundle in the buffer. -/
theorem Fetched.next (cycle : Nat) : Fetched k s c (i + 1)
    (setCore v k { coreOf v k with buffer := (coreOf v k).buffer ++ [bundleWord v k i], fetchCycle := cycle }) := by
  obtain ⟨_, hcore⟩ := h.core
  refine ⟨h.effect.trans ((setCore_effect ..).mono (by decide +kernel)), cycle, ?_⟩
  rw [coreOf_setCore_same, hcore, fetching_bundleWord h.effect, List.range_succ, List.map_append]
  rfl

end

/-- Fetching a stream that reads well brings more of its bundles, and ends nothing. -/
theorem fetchSome_fetched {k : Nat} {s : State} {c : CoreState} (hc : c.AtStart) (hs : streamReads s k) (limit n : Nat) :
    ∀ {i : Nat} {v : State}, Fetched k s c i v → ∃ i', Fetched k s c i' (fetchSome k limit n v) := by
  induction n with
  | zero => exact fun h => ⟨_, h⟩
  | succ n ih =>
    intro i v h
    unfold fetchSome
    simp only [h.index_eq hc, h.fetchMf_eq hc, h.streamCount_eq]
    split
    next => exact ⟨i, h⟩
    next hmore =>
      have hi : i < streamCount s k := by
        simp only [Bool.or_eq_true, decide_eq_true_eq, not_or, not_le] at hmore
        exact hmore.1
      have hrow := h.rowWell hs hi
      simp only [readEffects_of_readsWell hrow, show failRow v .none (streamBase v k + 32 * i) 32 = none from hrow,
        h.fieldsOk hs hi]
      rw [if_neg (by simp)]
      have hnext := h.next ((coreOf v k).fetchCycle + (bundleOf (bundleWord v k i)).delta)
      split
      next hlast =>
        simp only [hnext.streamCount_eq, Bool.and_eq_true, decide_eq_true_eq, Bool.not_eq_true'] at hlast
        obtain ⟨hend, hbad⟩ := hlast
        rw [hend] at hnext
        exact absurd (hnext.crcOk hc hs) (Bool.not_eq_true _ ▸ hbad)
      next => exact ih hnext

/-- A first row that fails its re-read ends the stream (R249). -/
theorem fetchSome_rowLost {k limit : Nat} {v : State} (hbundle : (coreOf v k).bundle = 0) (hbuffer : (coreOf v k).buffer = [])
    (hcount : streamCount v k ≠ 0) (hnext : (coreOf v k).fetchCycle + (bundleOf (bundleWord v k 0)).delta < limit)
    (hrow : failRow v (coreOf v k).fetchMf (streamBase v k) 32 ≠ none) (n : Nat) :
    fetchSome k limit (n + 1) v = endStream (readEffects v (coreOf v k).fetchMf (streamBase v k) 32) k stDataLost := by
  unfold fetchSome
  simp only [hbundle, hbuffer, List.length_nil, Nat.add_zero, Nat.mul_zero]
  rw [if_neg (by simp; omega), if_pos (by simp [Option.isSome_iff_ne_none.mpr hrow])]

end Sys2Proof.Machine
end

section
/-! PROOF. A stream from its start to its end (R247 to R251, R257 to R263, R270, R271, R290): its replay points, its cycles and its
completion. -/

set_option Elab.async false

namespace Sys2Proof.Machine

/-! ### Ephemeris records (R671) -/

/-- The die's sequence number has moved on by a record or two. -/
theorem ephSeq_newRecord (s : State) (die code flags block unit payload : Nat) :
    rd (newRecord s die code flags block unit payload).2 .ephSeq die 0 = (rd s .ephSeq die 0 + 1) % 2 ^ 32 := by
  refine (rd_wr_same s .ephSeq die 0 _ (by decide)).trans ?_
  show _ % 2 ^ 32 % 2 ^ 32 = _
  rw [Nat.mod_mod]

theorem ephSeq_ephAppend (s : State) (die : Nat) (r : Record) : rd (ephAppend s die r) .ephSeq die 0 = rd s .ephSeq die 0 :=
  (ephAppend_effect ..).frame.same (.reg .ephSeq) (by decide) ..

theorem ephSeq_ephLost (s : State) (die : Nat) :
    rd (ephLost s die) .ephSeq die 0 = rd s .ephSeq die 0 ∨
      rd (ephLost s die) .ephSeq die 0 = (rd s .ephSeq die 0 + 1) % 2 ^ 32 := by
  unfold ephLost
  extract_lets e
  split
  · exact .inl rfl
  next q0 _ =>
    exact .inr ((ephSeq_ephAppend ..).trans
      (ephSeq_newRecord (setEph s die _) die 0x7E 0 Blk.eph.num 0 (q0 + 2 ^ 32 * (e.lostCount % 2 ^ 32))))

theorem emit_recorded (s : State) (die code flags block unit payload : Nat) :
    Recorded s (emit s die code flags block unit payload) die := by
  unfold Recorded emit emitAll
  extract_lets e n head q
  have hlost := ephSeq_ephLost s die
  split
  · show rd (ephAppend (newRecord (ephLost s die) die code flags block unit payload).2 die _) .ephSeq die 0 ≠ _
    rw [ephSeq_ephAppend, ephSeq_newRecord]
    omega
  · rw [(ephDropped_effect ..).frame.same (.reg .ephSeq) (by decide), rd_wr_same _ _ _ _ _ (by decide)]
    show (q + 1) % 2 ^ 32 % 2 ^ 32 ≠ q
    omega

/-! ### The end of a stream (R250, R251) -/

/-- STREAM_COMPLETE (R250). -/
theorem streamComplete_ends {c : CoreRef} {s : State} (h : streamDone s (coreKey c) = true) :
    exec (.streamComplete c) s = .next (endStream s (coreKey c) stOk) := by
  show execStreamComplete c s = _
  unfold execStreamComplete
  exact if_pos h

/-! ### Replay points (R270, R271) -/

theorem placePoint_core (s : State) (k : Nat) (marked : Bool) :
    (coreOf (placePoint s k marked) k).point = some (pointAt s k marked) ∧ (coreOf (placePoint s k marked) k).guards = [] := by
  unfold placePoint
  extract_lets c
  rw [coreOf_setCore_same]
  exact ⟨rfl, rfl⟩

/-- REPLAY_POINT places a point at the bundle due (R270). -/
theorem replayPoint_places {c : CoreRef} {s : State} (hissues : issues s (coreKey c) = true)
    (hmark : (nextBundle s (coreKey c)).mark = true) (hdone : (coreOf s (coreKey c)).markDone = false) :
    exec (.replayPoint c) s = .next (passEmpty 8 (placePoint
      (setCore s (coreKey c) { coreOf s (coreKey c) with markDone := true }) (coreKey c) true) (coreKey c)) := by
  show execReplayPoint c s = _
  unfold execReplayPoint
  exact if_pos (by simp [hissues, markPassed, hmark, hdone])

theorem replayPoint_completes (s : State) (k : Nat) :
    let t := passEmpty 8 (placePoint (setCore s k { coreOf s k with markDone := true }) k true) k
    (∃ p, (coreOf t k).point = some p ∧ p.marked = true ∧ p.bundle = (coreOf s k).bundle ∧ p.cycle = counter s k ∧
      p.regs = snapshotRegs s k ∧ p.attempts = 0 ∧ p.signalsSent = 0 ∧ p.waitsReleased = 0) ∧
    (coreOf t k).guards = [] ∧ counter t k = counter s k := by
  intro t
  obtain ⟨hpoint, hguards⟩ := placePoint_core (setCore s k { coreOf s k with markDone := true }) k true
  have honward := passEmpty_onward 8 (placePoint (setCore s k { coreOf s k with markDone := true }) k true) k
  refine ⟨⟨pointAt (setCore s k { coreOf s k with markDone := true }) k true, ?_, rfl, ?_, rfl, rfl, rfl, rfl, rfl⟩, ?_, ?_⟩
  · rw [honward.rest]
    exact hpoint
  · show (coreOf (setCore s k _) k).bundle = _
    rw [coreOf_setCore_same]
  · rw [honward.rest]
    exact hguards
  · exact ((passEmpty_effect ..).counter_same (by decide) k).trans (((placePoint_effect ..).counter_same (by decide) k).trans
      ((setCore_effect ..).counter_same (by decide) k))

/-! ### The start (R247 to R249) -/

/-- A core whose clocks stand at cycle 0, before the scan. -/
def CoreState.scanning (c : CoreState) : CoreState := { c.setClocks 0 with fetchMf := MemFaults.none }

/-- The state that STREAM_START fetches from. -/
def scanning (s : State) (k : Nat) : State := setCore (wrCore s .seqSchedule k 0) k (coreOf s k).scanning

theorem coreOf_scanning (s : State) (k : Nat) : coreOf (scanning s k) k = (coreOf s k).scanning := coreOf_setCore_same ..

/-- The point before the first bundle, once the scanner has read `u`. -/
def firstPoint (u : State) (k : Nat) : State :=
  let s := placePoint u k false
  setCore s k { coreOf s k with fetchLate := notFetched (coreOf s k) [] }

/-- The state at the stream's first cycle. -/
def started (u : State) (c : CoreRef) (rk : Nat) : State :=
  emit (setSeqState (firstPoint u (coreKey c)) (coreKey c) seqRunning) c.die.val 0x03 0 Blk.seq.num c.core.val (pb 0 1 (seqSlot (firstPoint u (coreKey c)) (coreKey c)) + pb 1 4 rk)

theorem scanning_effect (s : State) (k : Nat) : Effect fetchingParts s (scanning s k) :=
  ((wrCore_effect ..).mono (by decide +kernel)).trans ((setCore_effect ..).mono (by decide +kernel))

theorem counter_scanning (s : State) (k : Nat) : counter (scanning s k) k = 0 := by
  refine ((setCore_effect ..).counter_same (by decide) k).trans ((rd_wr_same _ _ _ _ _ (by decide)).trans ?_)
  exact Nat.zero_mod _

/-- A start check whose scan ends the stream, or goes on to the first cycle. -/
theorem streamStart_scans {c : CoreRef} {rk : Nat} {s : State} (hrun : (coreOf s (coreKey c)).runDesc = some rk)
    (hstate : seqState s (coreKey c) = seqStartCheck) :
    let k := coreKey c
    let u := fetchSome k fetchReach 32768 (scanning s k)
    exec (.streamStart c .none []) s =
      if (coreOf u k).runDesc = none then .next u else .next (passEmpty 8 (started u c rk) k) := by
  intro k u
  show execStreamStart c .none [] s = _
  unfold execStreamStart
  simp only [hrun]
  rw [if_neg (not_not.mpr hstate)]
  rfl

/-- The scan of a stream that reads well. -/
theorem scan_fetched {s : State} {k : Nat} (hbundle : (coreOf s k).bundle = 0) (hbuffer : (coreOf s k).buffer = [])
    (hcrc : (coreOf s k).crc = 0xFFFF_FFFF) (hreads : streamReads s k) :
    ∃ i, Fetched k s (coreOf s k).scanning i (fetchSome k fetchReach 32768 (scanning s k)) := by
  have hempty : (List.range 0).map (bundleWord s k) = (coreOf s k).scanning.buffer := hbuffer.symm
  have hstart : (coreOf s k).scanning.AtStart := ⟨hbundle, rfl, hcrc⟩
  refine fetchSome_fetched hstart hreads fetchReach 32768 (i := 0)
    ⟨scanning_effect s k, (coreOf s k).scanning.fetchCycle, ?_⟩
  rw [coreOf_scanning, hempty]

/-- The scan of a stream whose first row fails its re-read. -/
theorem scan_rowLost {s : State} {k : Nat} (hrun : (coreOf s k).runDesc ≠ none) (hbundle : (coreOf s k).bundle = 0)
    (hbuffer : (coreOf s k).buffer = []) (hcount : streamCount s k ≠ 0)
    (hearly : (coreOf s k).fetchCycle + (bundleOf (bundleWord s k 0)).delta < 4096)
    (hrow : failRow s .none (streamBase s k) 32 ≠ none) :
    StreamEnded s (fetchSome k fetchReach 32768 (scanning s k)) k stDataLost := by
  have hscan := scanning_effect s k
  have hcore := coreOf_scanning s k
  have hplaces : streamCount (scanning s k) k = streamCount s k := streamCount_of_effect hscan (by decide) (by decide) k
  have hreads := readEffects_effect (scanning s k) (coreOf (scanning s k) k).fetchMf (streamBase (scanning s k) k) 32
  have hread : coreOf (readEffects (scanning s k) (coreOf (scanning s k) k).fetchMf (streamBase (scanning s k) k) 32) k =
      (coreOf s k).scanning := (hreads.coreOf_same (by decide) k).trans hcore
  have hlost : fetchSome k fetchReach (32767 + 1) (scanning s k) =
      endStream (readEffects (scanning s k) (coreOf (scanning s k) k).fetchMf (streamBase (scanning s k) k) 32) k stDataLost := by
    refine fetchSome_rowLost (hcore ▸ hbundle) (hcore ▸ hbuffer) (hplaces ▸ hcount) ?_ ?_ _
    · rw [hcore, fetching_bundleWord hscan]
      exact hearly.trans (by decide)
    · rw [hcore, fetching_failRow hscan, fetching_streamBase hscan]
      exact hrow
  rw [hlost]
  refine (endStream_ended ?_ stDataLost).of_place ?_ ?_ ?_
  · rw [hread]
    exact hrun
  · rw [hread]
    rfl
  · rw [hread]
    rfl
  · exact (streamCount_of_effect hreads (by decide) (by decide) k).trans hplaces

theorem placePoint_runDesc (s : State) (k : Nat) (marked : Bool) :
    (coreOf (placePoint s k marked) k).runDesc = (coreOf s k).runDesc := by
  unfold placePoint
  extract_lets c
  rw [coreOf_setCore_same]

section
variable (u : State) (c : CoreRef) (rk : Nat)

theorem started_core : (coreOf (started u c rk) (coreKey c)).point = some (pointAt u (coreKey c) false) ∧
    (coreOf (started u c rk) (coreKey c)).guards = [] ∧
    (coreOf (started u c rk) (coreKey c)).runDesc = (coreOf u (coreKey c)).runDesc := by
  obtain ⟨hpoint, hguards⟩ := placePoint_core u (coreKey c) false
  unfold started firstPoint
  extract_lets s1 c1
  rw [(emit_effect ..).coreOf_same (by decide), coreOf_setSeqState, coreOf_setCore_same]
  exact ⟨hpoint, hguards, placePoint_runDesc ..⟩

/-- What the start changes before its record. -/
theorem running_effect : Effect [.cores, .reg .seqState] u (setSeqState (firstPoint u (coreKey c)) (coreKey c) seqRunning) :=
  (((placePoint_effect ..).trans (setCore_effect ..)).mono (by decide +kernel)).trans
    ((setSeqState_effect ..).mono (by decide +kernel))

theorem counter_started : counter (started u c rk) (coreKey c) = counter u (coreKey c) :=
  ((emit_effect ..).counter_same (by decide) _).trans ((running_effect u c).counter_same (by decide) _)

theorem seqState_started : seqState (started u c rk) (coreKey c) = seqRunning :=
  ((emit_effect ..).seqState_same (by decide) _).trans (seqState_setSeqState ..)

theorem started_recorded : Recorded u (started u c rk) c.die := by
  have h : Recorded (setSeqState (firstPoint u (coreKey c)) (coreKey c) seqRunning) (started u c rk) c.die :=
    emit_recorded _ _ _ _ _ _ _
  rwa [Recorded, (running_effect u c).frame.same (.reg .ephSeq) (by decide)] at h

end

/-- What the start leaves once the scan has read some bundles (R247, R270). -/
theorem started_runs {s u : State} {c : CoreRef} {rk i : Nat} {core : CoreState} (h : Fetched (coreKey c) s core i u)
    (hbundle : core.bundle = 0) (hrun : core.runDesc = some rk) (hcounter : counter u (coreKey c) = 0) :
    let k := coreKey c
    let t := passEmpty 8 (started u c rk) k
    (∃ p, (coreOf t k).point = some p ∧ p.bundle = 0 ∧ p.cycle = 0 ∧ p.attempts = 0 ∧ p.redo = []) ∧
      (coreOf t k).guards = [] ∧ counter t k = 0 ∧ seqState t k = seqRunning ∧ (coreOf t k).runDesc = some rk ∧
      Recorded s t c.die := by
  intro k t
  obtain ⟨_, hcore⟩ := h.core
  obtain ⟨hpoint, hguards, hdesc⟩ := started_core u c rk
  have honward := passEmpty_onward 8 (started u c rk) k
  have hpass := passEmpty_effect 8 (started u c rk) k
  rw [honward.rest]
  refine ⟨⟨pointAt u k false, hpoint, ?_, hcounter, rfl, rfl⟩, hguards, ?_, ?_, ?_, ?_⟩
  · show (coreOf u k).bundle = 0
    rw [hcore, hbundle]
  · rw [hpass.counter_same (by decide), counter_started, hcounter]
  · rw [hpass.seqState_same (by decide), seqState_started]
  · exact hdesc.trans (by rw [hcore, hrun])
  · rw [Recorded, hpass.frame.same (.reg .ephSeq) (by decide), ← h.effect.frame.same (.reg .ephSeq) (by decide)]
    exact started_recorded u c rk

/-! ### Cycles (R257 to R263) -/

/-- The step of a core that may leave its cycle: the work, and where it meets no failure and no freeze the next cycle. -/
theorem cycleStep_of_mayLeave {s : State} {k : Nat} (hmay : mayLeave s k = true) (hrun : (coreOf s k).runDesc ≠ none) :
    cycleStep s k = if (coreOf (cycleWork [] s k) k).detected ≠ [] then s
      else if (coreOf (cycleWork [] s k) k).freeze ≠ [] || (coreOf (cycleWork [] s k) k).runDesc = none then cycleWork [] s k
      else leaveCycle (cycleWork [] s k) k := by
  have hmay' := hmay
  simp only [mayLeave, runs, Bool.and_eq_true, decide_eq_true_eq, Bool.not_eq_true'] at hmay'
  obtain ⟨⟨⟨⟨⟨⟨⟨⟨-, hfree⟩, hlock⟩, hreplay⟩, -⟩, -⟩, -⟩, hnone⟩, -⟩ := hmay'
  unfold cycleStep
  extract_lets c s1
  rw [if_neg (by simp [c, hrun, hreplay, hnone]), if_neg (not_not.mpr hfree)]
  simp only [show c.interlocked = none from hlock, hmay, Bool.not_true, Bool.false_eq_true, if_false, s1]

theorem count_engines : ∀ a < 4, engines.count a = 1 := by decide

/-- The counter goes on by one, and every array stands one cycle later (R260). -/
theorem leaveCycle_counts (s : State) (k : Nat) :
    counter (leaveCycle s k) k = (counter s k + 1) % 2 ^ 64 ∧
      ∀ a < 4, (arrayOf (leaveCycle s k) k a).clock = (arrayOf s k a).clock + 1 := by
  unfold leaveCycle
  extract_lets s1 q s2 c2 s3
  have hfetch := fetchSome_effect k (q + fetchReach) 16 (setCore s2 k { c2 with slipRun := 0 })
  have hcounter : counter s3 k = (counter s k + 1) % 2 ^ 64 := by
    rw [hfetch.counter_same (by decide), (setCore_effect ..).counter_same (by decide), (enterAll_effect ..).counter_same (by decide)]
    refine (rd_wr_same _ _ _ _ _ (by decide)).trans ?_
    show (counter s1 k + 1) % 2 ^ 64 = _
    rw [(bumpCore_effect ..).counter_same (by decide)]
  have hbefore : KeepsClocks k s (wrCore s1 .seqSchedule k q) := (wrCore_effect ..).keepsClocks.step (bumpCore_effect ..).keepsClocks
  have hset (v : State) : KeepsClocks k v (setCore v k { coreOf v k with slipRun := 0 }) := setCore_keepsClocks v
  have hafter : KeepsClocks k s2 s3 := (fetchSome_keepsClocks ..).step (hset s2)
  have hclock (a : Nat) (ha : a < 4) : (arrayOf s3 k a).clock = (arrayOf s k a).clock + 1 := by
    rw [hafter.clock, clock_enterAll _ ha, hbefore.clock, count_engines a ha]
    rfl
  split
  · exact ⟨hcounter, hclock⟩
  · exact ⟨((comeDue_effect ..).counter_same (by decide) k).trans hcounter,
      fun a ha => ((comeDue_keepsClocks ..).clock a).trans (hclock a ha)⟩

/-- Settles O18: the start, replay points, cycles and the completion of a stream. -/
theorem streamsStartMarkAndComplete : Obligations.StreamsStartMarkAndComplete := by
  refine ⟨fun c rk s => ?_, fun c s => ?_, fun s k hmay => ?_, fun c s => ?_⟩
  · intro k hrun hstate hbundle hbuffer
    refine ⟨fun hcrc hreads => ?_, fun hcount hearly hrow => ?_⟩
    · obtain ⟨i, hu⟩ := scan_fetched hbundle hbuffer hcrc hreads
      have hcounter : counter (fetchSome k fetchReach 32768 (scanning s k)) k = 0 :=
        ((fetchSome_effect ..).counter_same (by decide) k).trans (counter_scanning s k)
      refine ⟨_, (streamStart_scans hrun hstate).trans (if_neg ?_), started_runs hu hbundle hrun hcounter⟩
      obtain ⟨_, hcore⟩ := hu.core
      rw [hcore]
      exact fun h => Option.some_ne_none rk (hrun.symm.trans h)
    · have hended := scan_rowLost (Option.ne_none_iff_exists'.mpr ⟨rk, hrun⟩) hbundle hbuffer hcount hearly hrow
      exact ⟨_, (streamStart_scans hrun hstate).trans (if_pos hended.1), hended⟩
  · intro k hissues hmark hdone
    exact ⟨_, replayPoint_places hissues hmark hdone, replayPoint_completes s k⟩
  · intro s'
    have hwork : KeepsClocks k s s' := cycleWork_keepsClocks [] s
    refine ⟨fun hdetected => ?_, fun hdetected hfreeze hrun => ?_⟩
    · by_cases hrun : (coreOf s k).runDesc = none
      · unfold cycleStep
        simp [hrun]
      · rw [cycleStep_of_mayLeave hmay hrun, if_pos hdetected]
    · rw [cycleStep_of_mayLeave hmay (fun h => hrun (hwork.ended h)), if_neg (not_not.mpr hdetected),
        if_neg (by simp [s', hfreeze, hrun])]
      obtain ⟨hcounter, hclock⟩ := leaveCycle_counts s' k
      exact ⟨by rw [hcounter, (cycleWork_effect ..).counter_same (by decide)], fun a ha => by rw [hclock a ha, hwork.clock]⟩
  · intro k hrun hdone
    exact ⟨_, streamComplete_ends hdone, endStream_ended hrun stOk, (endStream_effect ..).mem_same (by decide)⟩

end Sys2Proof.Machine
end

section
/-! PROOF. The issue of a vector instruction (R298, R303, R325): without effect when it is empty, held at the interlock before its start
rule is met, and otherwise in progress from the present cycle on. -/

namespace Sys2Proof.Machine

/-! ### What issuing leaves of the registers and of the engine -/

theorem regs_passEmpty (n : Nat) : ∀ (s : State) (k : Nat), (passEmpty n s k).regs = s.regs := by
  induction n with
  | zero => exact fun _ _ => rfl
  | succ n ih =>
    intro s k
    rw [passEmpty]
    split
    · exact ih (setCore s k (coreOf s k).pass) k
    · rfl

@[simp] theorem regs_wideIssued (s : State) (k : Nat) : (wideIssued s k).regs = s.regs := by
  rw [wideIssued]
  split
  · rfl
  · exact regs_passEmpty 8 (setCore s k (coreOf s k).pass) k

@[simp] theorem vec_wideIssued (s : State) (k : Nat) : (coreOf (wideIssued s k) k).vec = (coreOf s k).vec := by
  rw [(wideIssued_onward s k).rest]

/-! ### Issue -/

/-- A vector instruction as it starts: it has read nothing, and holds the registers it reads (R324). -/
def vecRunNow (s : State) (k w : Nat) (er : EngineRun) : VecRun :=
  ⟨(coreOf s k).bundle, w, (coreOf s k).vec.clock, vecRegsNow s k w, [], none, 0, false, er⟩

/-- The core with a vector instruction that starts in the present cycle. -/
def vecBegun (s : State) (k w : Nat) (r : Ranges) (er : EngineRun) : State :=
  setCore s k { coreOf s k with vec := vecAfter (coreOf s k).vec w r (vecRunNow s k w er) }

theorem vecBegun_samePlace (s : State) (k w : Nat) (r : Ranges) (er : EngineRun) : SamePlace s (vecBegun s k w r er) k :=
  ⟨rfl, by simp [vecBegun], by simp [vecBegun]⟩

theorem vec_vecBegun (s : State) (k w : Nat) (r : Ranges) (er : EngineRun) :
    (coreOf (vecBegun s k w r er) k).vec = vecAfter (coreOf s k).vec w r (vecRunNow s k w er) := by
  simp [vecBegun]

section
variable {s : State} {k cls op w : Nat} {r : Ranges} (hdue : VecDue s k cls op w r) (er : EngineRun)
include hdue

/-- The three ways in which the instruction due can go on. -/
theorem runVector_of_due : runVector s k cls op er =
    if vecIdle w then wideIssued s k
    else if (coreOf s k).vec.clock < vecStart (coreOf s k) w r (coreOf s k).vec.clock then
      interlockFor s k (vecStart (coreOf s k) w r (coreOf s k).vec.clock - (coreOf s k).vec.clock).toNat
    else wideIssued (vecBegun s k w r er) k := by
  obtain ⟨hnext, hcls, hop, hranges⟩ := hdue
  simp only [runVector, hnext, hcls, hop, hranges, ne_eq, not_true_eq_false, decide_false, Bool.or_self, Bool.false_eq_true, if_false]
  rfl

theorem runVector_idle (hidle : vecIdle w = true) : runVector s k cls op er = wideIssued s k := by
  rw [runVector_of_due hdue, if_pos hidle]

theorem runVector_starts (hstarts : VecStarts s k w r) : VecStarted s (runVector s k cls op er) k w er := by
  obtain ⟨hbusy, hrule⟩ := hstarts
  rw [runVector_of_due hdue, if_neg (by simp [hbusy]), if_neg (not_lt.mpr hrule)]
  refine ⟨(vecBegun_samePlace ..).wideIssued, by simp [vecBegun], by simp [vecBegun], ?_⟩
  rw [vec_wideIssued, vec_vecBegun]
  exact ⟨rfl, List.mem_append_right _ (List.mem_singleton.mpr rfl)⟩

theorem runVector_waits (hbusy : vecIdle w = false)
    (hrule : (coreOf s k).vec.clock < vecStart (coreOf s k) w r (coreOf s k).vec.clock) :
    VecWaits s (runVector s k cls op er) k w r := by
  rw [runVector_of_due hdue, if_neg (by simp [hbusy]), if_pos hrule]
  exact ⟨by simp, by simp, rfl, by simp, by simp⟩

/-- A command that runs the instruction due issues it, starts it or holds it, by its start rule; an empty one issues also while the
engine is busy (log entry 139). -/
theorem vectorIssues {i : Instr} (hexec : exec i s = .next (runVector s k cls op er)) :
    (vecIdle w = true → Gives (exec i s) fun t => WideIssued s t k ∧ t.mem = s.mem ∧ t.regs = s.regs) ∧
    (VecStarts s k w r → Gives (exec i s) fun t => VecStarted s t k w er) ∧
    (vecIdle w = false → (coreOf s k).vec.clock < vecStart (coreOf s k) w r (coreOf s k).vec.clock →
      Gives (exec i s) fun t => VecWaits s t k w r) := by
  refine ⟨fun hidle => ⟨_, hexec, ?_⟩, fun hstarts => ⟨_, hexec, runVector_starts hdue er hstarts⟩,
    fun hbusy hrule => ⟨_, hexec, runVector_waits hdue er hbusy hrule⟩⟩
  rw [runVector_idle hdue er hidle]
  exact ⟨wideIssued_issues s k, mem_wideIssued s k, regs_wideIssued s k⟩

end

/-! ### The commands -/

section
variable {c : CoreRef} {er : EngineRun} {i : Instr} {op : Nat} (s : State)

theorem exec_element (h : (i, op) ∈ [(Instr.add c er, 1), (.sub c er, 2), (.mul c er, 3), (.fma c er, 4), (.div c er, 5),
    (.sqrt c er, 6), (.min c er, 7), (.max c er, 8), (.abs c er, 9), (.neg c er, 10), (.elemCopy c er, 11), (.cmplt c er, 12),
    (.cmpeq c er, 13)]) : exec i s = .next (runVector s (coreKey c) clsElem op er) := by
  fin_cases h <;> rfl

theorem exec_conversion (h : (i, op) ∈ [(Instr.cvt c er, 0)]) : exec i s = .next (runVector s (coreKey c) clsCvt op er) := by
  fin_cases h
  rfl

theorem exec_special (h : (i, op) ∈ [(Instr.exp2 c er, 1), (.exp c er, 2), (.log2 c er, 3), (.log c er, 4), (.rcp c er, 5),
    (.rsqrt c er, 6), (.tanh c er, 7), (.sigmoid c er, 8), (.sin c er, 9), (.cos c er, 10), (.erf c er, 11)]) :
    exec i s = .next (runVector s (coreKey c) clsSfu op er) := by
  fin_cases h <;> rfl

theorem exec_row (h : (i, op) ∈ [(Instr.rmax c er, 1), (.rmin c er, 2), (.rsum c er, 3), (.rsumsq c er, 4), (.rscale c er, 5),
    (.rsub c er, 6), (.cadd c er, 7), (.cmul c er, 8)]) : exec i s = .next (runVector s (coreKey c) clsRow op er) := by
  fin_cases h <;> rfl

theorem exec_move (h : (i, op) ∈ [(Instr.setr c er, 1), (.loadr c er, 2), (.storer c er, 3), (.incr c er, 4)]) :
    exec i s = .next (runVector s (coreKey c) clsMovr op er) := by
  fin_cases h <;> rfl

theorem exec_root (h : (i, op) ∈ [(Instr.irootSqrt c er, 2), (.irootFourth c er, 4)]) :
    exec i s = .next (runVector s (coreKey c) clsIroot op er) := by
  fin_cases h <;> rfl

end

end Sys2Proof.Machine
end

section
/-! PROOF. The completion of a vector instruction (R116, R310, R322, R332): exceptions join VEC_FLAGS, a MOVR changes its register, and a
NaN or an infinity among the results is counted and flagged. -/

namespace Sys2Proof.Machine

/-! ### Non-finite results counted -/

/-- One instruction with a NaN or an infinity among its results is counted (R332). -/
def countNonfinite (k : Nat) (r : VecRun) (s : State) : State :=
  if r.nonfinite then bumpCore s F.vecNonfiniteCount_count k 1 else s

theorem rdCore_countNonfinite {reg : Reg} (h : reg ≠ .vecNonfiniteCount) (k : Nat) (r : VecRun) (s : State) :
    rdCore (countNonfinite k r s) reg k = rdCore s reg k := by
  unfold countNonfinite
  split
  · exact rd_wr_other _ _ _ h _ _ _ _ _
  · rfl

theorem counts_countNonfinite (k : Nat) (r : VecRun) (s : State) :
    Counts s (countNonfinite k r s) F.vecNonfiniteCount_count (k / 24) (k % 24) (flagBit r.nonfinite) := by
  unfold countNonfinite
  split
  next h =>
    rw [h]
    exact counts_bump s (by decide) ..
  next h =>
    rw [Bool.eq_false_of_not_eq_true h]
    exact counts_zero ..

/-! ### The registers an instruction changes -/

theorem vecRegs_of_results {r : VecRun} (h : (Vec.of r.word).cls ≤ clsRow) (k : Nat) (s : State) :
    vecRegs k s r = countNonfinite k r (wrCore s .vecFlags k (rdCore s .vecFlags k ||| r.exc)) := by
  have hmove : (Vec.of r.word).cls ≠ clsMovr := (lt_of_le_of_lt h (by decide)).ne
  simp only [vecRegs, if_pos h, if_neg hmove, countNonfinite]

theorem vecRegs_of_move {r : VecRun} (h : (Vec.of r.word).cls = clsMovr) (k : Nat) (s : State) :
    vecRegs k s r = countNonfinite k r (movrRegs s k r.word
      (memBytes (vecView s r 0) (coreBase k + (Vec.of r.word).srcA) 8)) := by
  have hrow : ¬ (Vec.of r.word).cls ≤ clsRow := by rw [h]; decide
  simp only [vecRegs, if_neg hrow, if_pos h, countNonfinite]

/-! ### Completion -/

/-- Registers read after a completion as the instruction has changed them: its replay point and its flags are the core's. -/
theorem rd_vecFinish (k : Nat) (s : State) (r : VecRun) (reg : Reg) (die unit : Nat) :
    rd (vecFinish k s r) reg die unit = rd (vecRegs k s r) reg die unit := by
  have hpoint := (keepInPoint_effect (vecRegs k s r) k r.bundle (vecRegs k (pointView s k) r)).frame.same (.reg reg) (by simp)
  unfold vecFinish
  extract_lets t
  split
  · exact ((flagCore_effect t k flagNonfinite).frame.same (.reg reg) (by simp) die unit).trans (hpoint die unit)
  · exact hpoint die unit

theorem mem_vecFinish (k : Nat) (s : State) (r : VecRun) : (vecFinish k s r).mem = s.mem :=
  (vecFinish_effect k s r).mem_same (by decide)

theorem flags_keepInPoint (s : State) (k bundle : Nat) (v : State) :
    (coreOf (keepInPoint s k bundle v) k).flags = (coreOf s k).flags := by
  unfold keepInPoint
  split
  · split
    · rw [coreOf_setCore_same]
    · rfl
  · rfl

theorem flags_vecFinish {r : VecRun} (h : r.nonfinite = true) (k : Nat) (s : State) :
    (coreOf (vecFinish k s r) k).flags = setFlag (coreOf s k).flags flagNonfinite := by
  simp only [vecFinish, h, if_true, coreOf_flagCore, flags_keepInPoint, (vecRegs_effect k s r).coreOf_same (by decide)]

/-- An instruction with results joins their exceptions to VEC_FLAGS as it completes, and counts a NaN or an infinity once (R322, R332). -/
theorem vecFinish_reports {r : VecRun} (h : (Vec.of r.word).cls ≤ clsRow) (s : State) (k : Nat) :
    let t := vecFinish k s r
    rdCore t .vecFlags k = (rdCore s .vecFlags k ||| r.exc) % 2 ^ 32 ∧ t.mem = s.mem ∧
    Counts s t F.vecNonfiniteCount_count (k / 24) (k % 24) (flagBit r.nonfinite) ∧
    (r.nonfinite = true → (coreOf t k).flags = setFlag (coreOf s k).flags flagNonfinite) := by
  refine ⟨?_, mem_vecFinish k s r, ?_, fun hnf => flags_vecFinish hnf k s⟩
  · rw [rdCore, rd_vecFinish, vecRegs_of_results h]
    exact (rdCore_countNonfinite (by decide) ..).trans (rd_wr_same _ _ _ _ _ (by decide))
  · refine (counts_countNonfinite k r (wrCore s .vecFlags k (rdCore s .vecFlags k ||| r.exc))).congr
      (rf_wr_other _ _ _ _ _ _ _ _ (by decide)) ?_
    rw [rf, rd_vecFinish, vecRegs_of_results h, rf]

/-! ### MOVR (R310) -/

theorem Reg.width_le (r : Reg) : r.info.width ≤ 64 := by
  have h := Reg.forall_of_all (p := fun r => decide (r.info.width ≤ 64)) (by decide +kernel) r
  simpa using h

theorem movrTarget_ne_count (w : Nat) : movrTarget w ≠ .vecNonfiniteCount := by
  intro h
  have hmem := movrTarget_mem w
  rw [h] at hmem
  exact absurd hmem (by decide)

theorem rdCore_wrCore (s : State) (reg : Reg) (k v : Nat) : rdCore (wrCore s reg k v) reg k = v % 2 ^ reg.info.width :=
  rd_wr_same s reg _ _ v reg.width_le

/-- The bytes LOADR has read. -/
theorem memBytes_vecView_read {r : VecRun} {addr : Nat} {b : Bytes} (h : r.got = [(0, [(addr, b)])]) (s : State) :
    memBytes (vecView s r 0) addr b.length = b := by
  have hmem : (vecView s r 0).mem = putBytes [] addr b := by simp [vecView, h]
  rw [memBytes, hmem, mapBytes_putBytes]

section
variable {r : VecRun} (h : (Vec.of r.word).cls = clsMovr) (s : State) (k : Nat)
include h

/-- A MOVR's register reads after its completion as the move leaves it. -/
theorem rdCore_vecFinish_move : rdCore (vecFinish k s r) (movrTarget r.word) k =
    rdCore (movrRegs s k r.word (memBytes (vecView s r 0) (coreBase k + (Vec.of r.word).srcA) 8)) (movrTarget r.word) k := by
  rw [rdCore, rd_vecFinish, vecRegs_of_move h]
  exact rdCore_countNonfinite (movrTarget_ne_count r.word) ..

theorem setr_sets (hop : (Vec.of r.word).op = 1) : rdCore (vecFinish k s r) (movrTarget r.word) k =
    (if movrReg r.word = 9 then (Vec.of r.word).imm % 32 else (Vec.of r.word).imm) % 2 ^ (movrTarget r.word).info.width := by
  rw [rdCore_vecFinish_move h, movrRegs, hop]
  exact rdCore_wrCore ..

theorem loadr_loads (hop : (Vec.of r.word).op = 2) {b : Bytes} (hlen : b.length = 8)
    (hgot : r.got = [(0, [(coreBase k + (Vec.of r.word).srcA, b)])]) :
    rdCore (vecFinish k s r) (movrTarget r.word) k = leNat b % 2 ^ (movrTarget r.word).info.width := by
  rw [rdCore_vecFinish_move h, ← hlen, memBytes_vecView_read hgot, movrRegs, hop]
  exact rdCore_wrCore ..

theorem storer_keeps (hop : (Vec.of r.word).op = 3) :
    rdCore (vecFinish k s r) (movrTarget r.word) k = rdCore s (movrTarget r.word) k := by
  rw [rdCore_vecFinish_move h]
  simp [movrRegs, hop]

theorem incr_adds (hop : (Vec.of r.word).op = 4) : rdCore (vecFinish k s r) (movrTarget r.word) k =
    (rdCore s (movrTarget r.word) k / 2 ^ 32 * 2 ^ 32 + (rdCore s (movrTarget r.word) k + (Vec.of r.word).imm) % 2 ^ 32) %
      2 ^ (movrTarget r.word).info.width := by
  rw [rdCore_vecFinish_move h, movrRegs, hop]
  exact rdCore_wrCore ..

end

end Sys2Proof.Machine
end

section
/-! PROOF. The writes of a vector instruction (R310, R319, R321, R324): those due in a cycle land in core memory, STORER writes the
register it held as it started, and IROOT writes its record last. -/

namespace Sys2Proof.Machine

/-! ### Writes that land -/

theorem putSome_of_all {p : Nat → Bool} (hp : ∀ a, p a = true) (data : Bytes) :
    ∀ (m : Map Byte) (a : Nat), putSome p m a data = putBytes m a data := by
  induction data with
  | nil => exact fun _ _ => rfl
  | cons b t ih =>
    intro m a
    rw [putSome, if_pos (hp a), ih, putBytes]

section
variable (s : State) (mf : MemFaults) (base : Nat) (data : Bytes) (keep : Nat → Bool)

theorem snoop_landWrite : (landWrite s mf base data keep).snoop = s.snoop :=
  (landWrite_effect s mf base data keep).frame.same .snoop (by decide)

theorem vec_hitGuards (len k : Nat) : (coreOf (hitGuards s base len keep) k).vec = (coreOf s k).vec := by
  unfold coreOf hitGuards
  dsimp only
  rw [Map.getD_mapVals _ _ _ _ rfl]

theorem vec_landWrite (k : Nat) : (coreOf (landWrite s mf base data keep) k).vec = (coreOf s k).vec := by
  rw [landWrite, vec_hitGuards, (storeBytes_effect ..).coreOf_same (by decide)]

end

/-- A write to SRAM of which the host holds no line lands whole. -/
theorem mem_landWrite_of_unseen {s : State} {base : Nat} (hbase : sharedBase 0 ≤ base) (hsnoop : s.snoop = []) (mf : MemFaults)
    (data : Bytes) : (landWrite s mf base data fun _ => true).mem = putBytes s.mem base data := by
  have hseen : snoopedIn s base data.length = [] := by rw [snoopedIn, hsnoop]; rfl
  show (storeBytes s mf base data fun _ => true).mem = _
  rw [mem_storeBytes_of_sram hbase, hseen]
  exact putSome_of_all (by simp) ..

/-- A write of an instruction, at an offset of core memory. -/
def landAt (k : Nat) (mf : MemFaults) (s : State) (w : Nat × Bytes) : State :=
  landWrite s mf (coreBase k + w.1) w.2 fun _ => true

theorem vec_foldl_landAt (k : Nat) (mf : MemFaults) (ws : List (Nat × Bytes)) :
    ∀ s : State, (coreOf (ws.foldl (landAt k mf) s) k).vec = (coreOf s k).vec := by
  induction ws with
  | nil => exact fun _ => rfl
  | cons w ws ih => exact fun s => (ih _).trans (vec_landWrite ..)

theorem mem_foldl_landAt (k : Nat) (mf : MemFaults) (ws : List (Nat × Bytes)) : ∀ s : State, s.snoop = [] →
    (ws.foldl (landAt k mf) s).mem = ws.foldl (fun m w => putBytes m (coreBase k + w.1) w.2) s.mem := by
  induction ws with
  | nil => exact fun _ _ => rfl
  | cons w ws ih =>
    intro s hsnoop
    have hmem : (landAt k mf s w).mem = putBytes s.mem (coreBase k + w.1) w.2 :=
      mem_landWrite_of_unseen (sharedBase_le_coreBase_add ..) hsnoop ..
    have hnext : (landAt k mf s w).snoop = [] := (snoop_landWrite ..).trans hsnoop
    rw [List.foldl_cons, ih _ hnext, hmem, List.foldl_cons]

/-! ### The results due in a cycle -/

/-- An instruction with the exceptions of some of its results joined to its own. -/
def VecRun.noting (r : VecRun) (o : VecOut) : VecRun := { r with exc := r.exc ||| o.exc.bits, nonfinite := r.nonfinite || o.nonfinite }

/-- The results due are noted, and then they are written one after another. -/
theorem vecWrite_of_unfailed {r : VecRun} (h : r.failed = none) (s : State) (k : Nat) :
    let c := coreOf s k
    let o := r.outAt s k c.vec.clock
    vecWrite k s r = o.writes.foldl (landAt k r.er.mf) (setCore s k { c with vec := c.vec.change (r.noting o) }) := by
  simp only [vecWrite, h]
  rfl

theorem vecWrite_lands {r : VecRun} (h : r.failed = none) {s : State} (hsnoop : s.snoop = []) (k : Nat) :
    let o := r.outAt s k (coreOf s k).vec.clock
    let t := vecWrite k s r
    t.mem = o.writes.foldl (fun m w => putBytes m (coreBase k + w.1) w.2) s.mem ∧
    (coreOf t k).vec = (coreOf s k).vec.change (r.noting o) := by
  dsimp only
  rw [vecWrite_of_unfailed h]
  exact ⟨mem_foldl_landAt k _ _ _ hsnoop, by rw [vec_foldl_landAt, coreOf_setCore_same]⟩

/-! ### STORER (R310) -/

theorem leBytes_mod (n : Nat) : ∀ v : Nat, leBytes n (v % 256 ^ n) = leBytes n v := by
  induction n with
  | zero => exact fun _ => rfl
  | succ n ih =>
    intro v
    have hbyte : BitVec.ofNat 8 (v % 256 ^ (n + 1)) = BitVec.ofNat 8 v := by
      apply BitVec.eq_of_toNat_eq
      rw [BitVec.toNat_ofNat, BitVec.toNat_ofNat]
      exact Nat.mod_mod_of_dvd v (Dvd.intro_left (256 ^ n) rfl)
    have hrest : v % 256 ^ (n + 1) / 256 = v / 256 % 256 ^ n := by rw [pow_succ', Nat.mod_mul_right_div_self]
    rw [leBytes, hbyte, hrest, ih, leBytes]

theorem homeDie_scalarReg (n die : Nat) : homeDie (scalarReg n) die = die := by
  unfold scalarReg
  split <;> rfl

section
variable {r : VecRun} (hcls : (Vec.of r.word).cls = clsMovr) (hop : (Vec.of r.word).op = 3)
include hcls hop

/-- STORER's one group is written two cycles after its start (R321, R324). -/
theorem outAt_storer (s : State) (k : Nat) {x : Int} (hx : x = r.start + 2) : r.outAt s k x =
    ⟨[((Vec.of r.word).dst, leBytes 8 (rdCore (vecView s r 0) (scalarReg (movrReg r.word)) k))], Exc.none, false⟩ := by
  have htime : vecTime r.word = ⟨1, 1, 2⟩ := by simp [vecTime, hcls, hop, clsMovr]
  have helems : vecElems r.word = 1 := by simp [vecElems, hcls]
  have hgroup : r.groupAt x = some 0 := by
    simp [VecRun.groupAt, vecGroups, htime, helems, hcls, hx, divCeil, clsMovr, clsIroot]
  simp [VecRun.outAt, hgroup, vecOut, hcls, clsMovr, movrOut, hop, groupFrom, htime, helems, leBytes]

/-- The view of STORER holds its register as it stood at the start (R324). -/
theorem rdCore_vecView_storer (hreg : movrReg r.word < 8) {s0 : State} {k : Nat} (hregs : r.regs = vecRegsNow s0 k r.word) (s : State) :
    rdCore (vecView s r 0) (scalarReg (movrReg r.word)) k = rdCore s0 (scalarReg (movrReg r.word)) k % 2 ^ 64 := by
  have hkept : r.regs = [(regKey (scalarReg (movrReg r.word)) (k / 24) (k % 24),
      BitVec.ofNat 64 (rdCore s0 (scalarReg (movrReg r.word)) k))] := by
    simp [hregs, vecRegsNow, vecRegsOf, hcls, hop, clsMovr, hreg.ne]
  simp [rdCore, rd, vecView, hkept, homeDie_scalarReg, Map.find_put_same]

theorem vecWrite_storer {s : State} {k : Nat} (hfailed : r.failed = none) (hclock : (coreOf s k).vec.clock = r.start + 2) :
    ∃ c, vecWrite k s r = landAt k r.er.mf (setCore s k c)
      ((Vec.of r.word).dst, leBytes 8 (rdCore (vecView s r 0) (scalarReg (movrReg r.word)) k)) := by
  rw [vecWrite_of_unfailed hfailed, outAt_storer hcls hop s k hclock]
  exact ⟨_, rfl⟩

theorem storer_stores {s0 s : State} {k : Nat} (hreg : movrReg r.word < 8) (hregs : r.regs = vecRegsNow s0 k r.word)
    (hfailed : r.failed = none) (hclock : (coreOf s k).vec.clock = r.start + 2) :
    (snoopedIn s (coreBase k + (Vec.of r.word).dst) 8 = [] →
      memBytes (vecWrite k s r) (coreBase k + (Vec.of r.word).dst) 8 = leBytes 8 (rdCore s0 (scalarReg (movrReg r.word)) k)) ∧
    MemSameOutside s (vecWrite k s r) (coreBase k + (Vec.of r.word).dst) 8 := by
  obtain ⟨c, hwrite⟩ := vecWrite_storer hcls hop hfailed hclock
  have hbase := sharedBase_le_coreBase_add k (Vec.of r.word).dst
  have hdata : leBytes 8 (rdCore (vecView s r 0) (scalarReg (movrReg r.word)) k) =
      leBytes 8 (rdCore s0 (scalarReg (movrReg r.word)) k) := by
    rw [rdCore_vecView_storer hcls hop hreg hregs]
    exact leBytes_mod 8 _
  rw [hwrite, hdata]
  have hlen : (leBytes 8 (rdCore s0 (scalarReg (movrReg r.word)) k)).length = 8 := length_leBytes ..
  refine ⟨fun hseen => ?_, ?_⟩
  · have h := memBytes_storeBytes hbase (setCore s k c) r.er.mf (leBytes 8 (rdCore s0 (scalarReg (movrReg r.word)) k))
      (by rw [hlen]; exact hseen)
    rwa [hlen] at h
  · have h := storeBytes_memSameOutside hbase (setCore s k c) r.er.mf (leBytes 8 (rdCore s0 (scalarReg (movrReg r.word)) k))
      fun _ => true
    rw [hlen] at h
    exact h.of_mem rfl rfl

end

/-! ### IROOT (R319, R321) -/

section
variable {r : VecRun} (hcls : (Vec.of r.word).cls = clsIroot) (s : State) (k : Nat)
include hcls

theorem groupAt_root (x : Int) : r.groupAt x = none := by simp [VecRun.groupAt, hcls]

/-- The cycle before its busy cycles end is that of its last write. -/
theorem outAt_root_last : r.outAt s k (r.start + (vecTime r.word).busy - 1) =
    { irootOut (vecView s r (vecGroups r.word)) k r.word 0 with
      writes := (irootOut (vecView s r (vecGroups r.word)) k r.word 0).writes.drop
        ((irootOut (vecView s r (vecGroups r.word)) k r.word 0).writes.length - 1) } := by
  have hlast : r.start + (vecTime r.word).busy - 1 - irootFrom r = vecGroups r.word := by unfold irootFrom; ring
  simp [VecRun.outAt, groupAt_root hcls, hlast, hcls]

theorem outAt_root_after {x : Int} (hx : r.start + (vecTime r.word).busy - 1 < x) : r.outAt s k x = VecOut.none := by
  have hlater : (vecGroups r.word : Int) < x - irootFrom r := by unfold irootFrom; omega
  simp [VecRun.outAt, groupAt_root hcls, hlater]

end

end Sys2Proof.Machine
end

section
/-! PROOF. The groups of an element instruction (R304, R308, R321, R324): each result is that of its element, so the groups, one after
another, make up the results of the whole. -/

namespace Sys2Proof.Machine

/-! ### Elements of the unscaled formats -/

theorem elemBits_unscaled {fmt : Nat} (h : fmt ∈ [1, 2, 3, 4]) : elemBits fmt ≠ 4 ∧ elemBits fmt / 8 * 8 = elemBits fmt := by
  fin_cases h <;> decide

theorem elemBytes_unscaled {fmt : Nat} (h : fmt ∈ [1, 2, 3, 4]) (n : Nat) : elemBytes fmt n = n * (elemBits fmt / 8) := by
  obtain ⟨-, hbytes⟩ := elemBits_unscaled h
  rw [elemBytes, divCeil, ← hbytes, Nat.mul_div_cancel _ (by decide)]
  generalize elemBits fmt / 8 = d
  rw [← Nat.mul_assoc]
  omega

/-- The value of element i of an operand. -/
def elemVal (s : State) (k fmt off i : Nat) : Num :=
  decodeElem fmt (leNat (memBytes s (coreBase k + off + i * (elemBits fmt / 8)) (elemBits fmt / 8)))

theorem coreVals_unscaled {fmt : Nat} (h : fmt ∈ [1, 2, 3, 4]) (s : State) (k off n : Nat) :
    coreVals s k fmt off n = (List.range n).map (elemVal s k fmt off) := by
  rw [coreVals, elemsOf, List.map_map]
  refine List.map_congr_left fun i hi => ?_
  have hin : i * (elemBits fmt / 8) + elemBits fmt / 8 ≤ elemBytes fmt n := by
    rw [elemBytes_unscaled h, ← Nat.succ_mul]
    exact Nat.mul_le_mul_right _ (List.mem_range.mp hi)
  rw [Function.comp_apply, elemAt, if_neg (elemBits_unscaled h).1, leAt, coreBytes, take_drop_memBytes _ _ hin, elemVal]

/-! ### The results of an element instruction -/

/-- Operand b of element i (R306, R307). -/
def elemBVal (s : State) (k : Nat) (v : Vec) (i : Nat) : Num :=
  if elemUnary v.op then elemVal s k v.fmt v.srcA i
  else match v.bSel with
    | 0 => elemVal s k v.fmt v.srcB i
    | 1 => if v.fmt = 1 then decodeFloat fmtB32 v.imm else decodeElem v.fmt (v.imm % 2 ^ elemBits v.fmt)
    | _ => decodeElem v.fmt (rdCore s (scalarReg v.srcBRaw) k % 2 ^ elemBits v.fmt)

/-- The result of element i, rounded under the instruction's mode (R304, R308). -/
def elemResult (s : State) (k : Nat) (v : Vec) (i : Nat) : Rounded :=
  roundExact (floatFmtOf v.fmt) (Rnd.of v.rnd) (if v.rnd = 5 then vecSr s k v.fmt v.dst i else 0)
    (elemOp v.op (Rnd.of v.rnd) (elemVal s k v.fmt v.srcA i) (elemBVal s k v i)
      (elemVal s k v.fmt (if v.op = 4 then v.dst else v.srcA) i))

theorem zipIdx_map_range {α : Type} (f : Nat → α) (n : Nat) :
    ((List.range n).map f).zipIdx = (List.range n).map fun i => (f i, i) :=
  List.ext_getElem (by simp) fun i _ _ => by simp

section
variable {w : Nat} (hfmt : (Vec.of w).fmt ∈ [1, 2, 3, 4]) (s : State) (k : Nat)
include hfmt

theorem elemB_eq_map_range (n : Nat) :
    (if elemUnary (Vec.of w).op then coreVals s k (Vec.of w).fmt (Vec.of w).srcA n else elemB s k (Vec.of w) n) =
      (List.range n).map (elemBVal s k (Vec.of w)) := by
  unfold elemB elemBVal
  split
  · exact coreVals_unscaled hfmt ..
  · rcases (Vec.of w).bSel with _ | _ | _
    · exact coreVals_unscaled hfmt ..
    · simp
    · simp

theorem elemD_eq_map_range (n : Nat) :
    (if (Vec.of w).op = 4 then coreVals s k (Vec.of w).fmt (Vec.of w).dst n else coreVals s k (Vec.of w).fmt (Vec.of w).srcA n) =
      (List.range n).map (elemVal s k (Vec.of w).fmt (if (Vec.of w).op = 4 then (Vec.of w).dst else (Vec.of w).srcA)) := by
  split <;> exact coreVals_unscaled hfmt ..

/-- The elements from m up to n are written at their place with their own results. -/
theorem elemOut_eq (m n : Nat) : elemOut s k w m n =
    floatOutput (Vec.of w).fmt (Vec.of w).dst m ((List.range n).map (elemResult s k (Vec.of w))) := by
  rw [elemOut]
  dsimp only
  rw [elemB_eq_map_range hfmt, elemD_eq_map_range hfmt, coreVals_unscaled hfmt, List.zip_map', List.zip_map', List.map_map,
    roundedOutput]
  unfold Function.comp
  rw [zipIdx_map_range, List.map_map]
  rfl

end

/-! ### Groups -/

theorem widthRate_ge (bits : Nat) : 256 ≤ widthRate bits := by
  unfold widthRate
  split
  · decide
  · split <;> decide

section
variable {w : Nat} (hcls : (Vec.of w).cls = clsElem)
include hcls

theorem rate_pos_of_element : 0 < (vecTime w).rate := by
  have h := widthRate_ge (elemBits (Vec.of w).fmt)
  rw [vecTime]
  simp only [hcls, clsElem]
  split
  · exact Nat.div_pos (by omega) (by decide)
  · exact lt_of_lt_of_le (by decide) h

theorem vecElems_of_element : vecElems w = (Vec.of w).count := by
  simp [vecElems, hcls, clsElem, clsMovr, clsIroot]

/-- A group begins where those before it, all of them full, end. -/
theorem groupFrom_of_lt {g : Nat} (hg : g < vecGroups w) : groupFrom w g = g * (vecTime w).rate := by
  have hpos := rate_pos_of_element hcls
  rw [vecGroups, divCeil, Nat.lt_div_iff_mul_lt hpos] at hg
  exact min_eq_right (by omega)

/-- The groups end with the last element. -/
theorem groupFrom_vecGroups : groupFrom w (vecGroups w) = (Vec.of w).count := by
  have hpos := rate_pos_of_element hcls
  have hmod := Nat.mod_lt (vecElems w + (vecTime w).rate - 1) hpos
  have hdiv := Nat.div_add_mod' (vecElems w + (vecTime w).rate - 1) (vecTime w).rate
  rw [← vecElems_of_element hcls]
  refine min_eq_left ?_
  rw [vecGroups, divCeil]
  omega

end

theorem groupFrom_mono (w g : Nat) : groupFrom w g ≤ groupFrom w (g + 1) :=
  min_le_min_left _ (Nat.mul_le_mul_right _ (Nat.le_succ g))

/-- The elements of group g. -/
def groupElems (w g : Nat) : List Nat := (List.range (groupFrom w (g + 1))).drop (groupFrom w g)

/-- The groups up to one of them hold the elements before it, in order. -/
theorem flatMap_groupElems (w n : Nat) : (List.range n).flatMap (groupElems w) = List.range (groupFrom w n) := by
  induction n with
  | zero => simp [groupFrom]
  | succ n ih =>
    have htake : List.range (groupFrom w n) = (List.range (groupFrom w (n + 1))).take (groupFrom w n) := by
      rw [List.take_range, min_eq_left (groupFrom_mono w n)]
    rw [List.range_succ, List.flatMap_append, ih, List.flatMap_singleton, groupElems, htake, List.take_append_drop]

/-! ### What groups and the whole write and raise -/

theorem Exc.bits_or (a b : Exc) : (a.or b).bits = a.bits ||| b.bits := by
  obtain ⟨a1, a2, a3, a4, a5⟩ := a
  obtain ⟨b1, b2, b3, b4, b5⟩ := b
  revert a1 a2 a3 a4 a5 b1 b2 b3 b4 b5
  decide

theorem bits_foldl_or {α : Type} (f : α → Exc) (l : List α) :
    ∀ a : Exc, (l.foldl (fun a x => a.or (f x)) a).bits = l.foldl (fun n x => n ||| (f x).bits) a.bits := by
  induction l with
  | nil => exact fun _ => rfl
  | cons x l ih => exact fun a => (ih _).trans (by rw [Exc.bits_or, List.foldl_cons])

theorem foldl_lor_start {α : Type} (f : α → Nat) (l : List α) :
    ∀ a : Nat, l.foldl (fun n x => n ||| f x) a = a ||| l.foldl (fun n x => n ||| f x) 0 := by
  induction l with
  | nil => exact fun a => (Nat.or_zero a).symm
  | cons x l ih =>
    intro a
    rw [List.foldl_cons, List.foldl_cons, ih, ih (0 ||| f x), Nat.zero_or, Nat.or_assoc]

section
variable {w : Nat} (hfmt : (Vec.of w).fmt ∈ [1, 2, 3, 4]) (s : State) (k m n : Nat)
include hfmt

/-- The codes of the elements written, their exceptions, and whether one is a NaN or an infinity. -/
theorem elemOut_bytes : (elemOut s k w m n).writes.flatMap (·.2) =
    ((List.range n).drop m).flatMap fun i => leBytes (elemBits (Vec.of w).fmt / 8) (elemResult s k (Vec.of w) i).code := by
  rw [elemOut_eq hfmt, floatOutput]
  simp [packElems, (elemBits_unscaled hfmt).1, ← List.map_drop, List.flatMap_map]

theorem elemOut_exceptions : (elemOut s k w m n).exc.bits =
    ((List.range n).drop m).foldl (fun a i => a ||| (elemResult s k (Vec.of w) i).exc.bits) 0 := by
  rw [elemOut_eq hfmt, floatOutput]
  dsimp only
  rw [← List.map_drop, bits_foldl_or, List.foldl_map]
  rfl

theorem elemOut_nonfinite : (elemOut s k w m n).nonfinite =
    ((List.range n).drop m).any fun i => (decodeElem (Vec.of w).fmt (elemResult s k (Vec.of w) i).code).nonfinite := by
  rw [elemOut_eq hfmt, floatOutput]
  dsimp only
  rw [← List.map_drop, List.any_map]
  rfl

end

section
variable {w : Nat} (hcls : (Vec.of w).cls = clsElem)
include hcls

/-- All groups together hold every element once, in order. -/
theorem flatMap_groups : (List.range (vecGroups w)).flatMap (groupElems w) = (List.range (Vec.of w).count).drop 0 := by
  rw [flatMap_groupElems, groupFrom_vecGroups hcls, List.drop_zero]

variable (hfmt : (Vec.of w).fmt ∈ [1, 2, 3, 4]) (s : State) (k : Nat)
include hfmt

theorem elemGroup_address {g : Nat} (hg : g < vecGroups w) :
    (elemOut s k w (groupFrom w g) (groupFrom w (g + 1))).writes.map (·.1) =
      [(Vec.of w).dst + elemBytes (Vec.of w).fmt (g * (vecTime w).rate)] := by
  rw [elemOut_eq hfmt, groupFrom_of_lt hcls hg]
  rfl

theorem elemGroups_bytes : ((List.range (vecGroups w)).flatMap fun g =>
    (elemOut s k w (groupFrom w g) (groupFrom w (g + 1))).writes.flatMap (·.2)) =
      (elemOut s k w 0 (Vec.of w).count).writes.flatMap (·.2) := by
  rw [elemOut_bytes hfmt, ← flatMap_groups hcls, List.flatMap_assoc]
  exact List.flatMap_congr fun g _ => elemOut_bytes hfmt ..

theorem elemGroups_exceptions : (List.range (vecGroups w)).foldl (fun a g =>
    a ||| (elemOut s k w (groupFrom w g) (groupFrom w (g + 1))).exc.bits) 0 = (elemOut s k w 0 (Vec.of w).count).exc.bits := by
  rw [elemOut_exceptions hfmt, ← flatMap_groups hcls, List.foldl_flatMap]
  refine congrArg (fun f => (List.range (vecGroups w)).foldl f 0) (funext₂ fun a g => ?_)
  rw [elemOut_exceptions hfmt, ← groupElems, foldl_lor_start _ _ a]

theorem elemGroups_nonfinite : ((List.range (vecGroups w)).any fun g =>
    (elemOut s k w (groupFrom w g) (groupFrom w (g + 1))).nonfinite) = (elemOut s k w 0 (Vec.of w).count).nonfinite := by
  rw [elemOut_nonfinite hfmt, ← flatMap_groups hcls, List.any_flatMap]
  simp only [elemOut_nonfinite hfmt, groupElems]

end

end Sys2Proof.Machine
end

section
/-! PROOF. The obligations on the vector engine: the commands of each class issue alike (R303, R325), and differ in their results. -/

namespace Sys2Proof.Machine

/-- Settles O24: the groups of an element instruction hold its elements in order, and its results are reported as it completes. -/
theorem elementInstructionsComplete : Obligations.ElementInstructionsComplete := by
  refine ⟨fun c er i op w r s hi hdue => vectorIssues hdue er (exec_element s hi),
    fun c er i op w r s hi hdue => vectorIssues hdue er (exec_conversion s hi),
    fun s k r hfailed hsnoop => vecWrite_lands hfailed hsnoop k, fun s k w hcls hfmt _ => ?_, fun s k r hcls => ?_⟩
  · exact ⟨fun g hg => elemGroup_address hcls hfmt s k hg, elemGroups_bytes hcls hfmt s k, elemGroups_exceptions hcls hfmt s k,
      elemGroups_nonfinite hcls hfmt s k⟩
  · exact vecFinish_reports ((by decide : ∀ x ∈ [clsElem, clsCvt], x ≤ clsRow) _ hcls) s k

/-- Settles O25: both classes issue by the start rule, and their results are reported as they complete. -/
theorem specialAndRowInstructionsComplete : Obligations.SpecialAndRowInstructionsComplete := by
  refine ⟨fun c er i op w r s hi hdue => vectorIssues hdue er (exec_special s hi),
    fun c er i op w r s hi hdue => vectorIssues hdue er (exec_row s hi), fun s k r hcls => ?_⟩
  exact vecFinish_reports ((by decide : ∀ x ∈ [clsSfu, clsRow], x ≤ clsRow) _ hcls) s k

/-- Settles O26: each MOVR's register as its completion leaves it, STORER's bytes, and the cycle of IROOT's record. -/
theorem registerMovesAndRootsComplete : Obligations.RegisterMovesAndRootsComplete := by
  refine ⟨fun c er i op w r s hi hdue => vectorIssues hdue er (exec_move s hi),
    fun c er i op w r s hi hdue => vectorIssues hdue er (exec_root s hi), fun s k r hcls => ?_,
    fun s0 s k r hcls hop hreg hregs hfailed hclock => storer_stores hcls hop hreg hregs hfailed hclock, fun s k r hcls _ => ?_⟩
  · exact ⟨mem_vecFinish k s r, setr_sets hcls s k, fun hop b hlen hgot => loadr_loads hcls s k hop hlen hgot,
      storer_keeps hcls s k, incr_adds hcls s k⟩
  · exact ⟨by rw [outAt_root_last hcls], fun x hx => by rw [outAt_root_after hcls s k hx]; rfl⟩

end Sys2Proof.Machine
end

section
/-! PROOF. The issue of an update command (R354, R359, R361): without effect for a count of 0, held at the interlock before its start
rule is met, and otherwise in progress from the present cycle on with the bytes its reads brought. -/

namespace Sys2Proof.Machine

/-! ### The reads of a command -/

theorem updFetch_guardsOnly (s : State) (k bundle w : Nat) : GuardsOnly s (updFetch s k bundle w).2 k := by
  unfold updFetch
  extract_lets u ranges
  dsimp only
  split
  · refine List.foldlRecOn (motive := fun t => GuardsOnly s t k) ranges _ (.refl s k) fun t h r _ => ?_
    exact h.trans (armGuards_guardsOnly t k bundle r.1 r.2)
  · exact .refl s k

/-- The bytes a command that starts now has: those read ahead, or those its reads bring now, with the guards they arm. -/
def updTaken (s : State) (k w : Nat) : Map Byte × State :=
  match Map.find (coreOf s k).upd.ahead (coreOf s k).bundle with
  | some m => (m, s)
  | none => updFetch s k (coreOf s k).bundle w

theorem updTaken_guardsOnly (s : State) (k w : Nat) : GuardsOnly s (updTaken s k w).2 k := by
  unfold updTaken
  split
  · exact .refl s k
  · exact updFetch_guardsOnly ..

/-! ### The start of a command -/

/-- An update command as it starts. -/
def updRunNow (s : State) (k w : Nat) (er : EngineRun) : UpdRun :=
  let p := updTaken s k w
  let header := Header.of (mapBytes p.1 (layerOf s k (Upd.of w).layer).hdrBase 64)
  ⟨(coreOf s k).bundle, w, (coreOf s k).upd.clock, p.1, updEta p.2 (Upd.of w) header.next, false, er⟩

/-- The core with an update command that starts in the present cycle. -/
def updBegun (s : State) (k w : Nat) (er : EngineRun) : State :=
  let t := (updTaken s k w).2
  setCore t k (updBusy (coreOf t k) (updRunNow s k w er) (Upd.of w).isRoot
    (updTime (Upd.of w) (layerOf s k (Upd.of w).layer)))

theorem updBegun_samePlace (s : State) (k w : Nat) (er : EngineRun) : SamePlace s (updBegun s k w er) k :=
  (updTaken_guardsOnly s k w).samePlace.trans ⟨rfl, by simp [updBegun, updBusy], by simp [updBegun, updBusy]⟩

theorem mem_updBegun (s : State) (k w : Nat) (er : EngineRun) : (updBegun s k w er).mem = s.mem :=
  (updTaken_guardsOnly s k w).mem

theorem GuardsOnly.upd {s t : State} {k : Nat} (h : GuardsOnly s t k) : (coreOf t k).upd = (coreOf s k).upd := by
  obtain ⟨m, g, -, hcore⟩ := h
  rw [hcore]

theorem upd_updBegun (s : State) (k w : Nat) (er : EngineRun) : (coreOf (updBegun s k w er) k).upd =
    { (coreOf s k).upd with
      done := (coreOf s k).upd.clock + updTime (Upd.of w) (layerOf s k (Upd.of w).layer)
      run := some (updRunNow s k w er)
      ahead := Map.del (coreOf s k).upd.ahead (coreOf s k).bundle } := by
  rw [updBegun, coreOf_setCore_same, updBusy, (updTaken_guardsOnly s k w).upd]
  rfl

@[simp] theorem upd_wideIssued (s : State) (k : Nat) : (coreOf (wideIssued s k) k).upd = (coreOf s k).upd := by
  rw [(wideIssued_onward s k).rest]

/-! ### The ways in which the command due goes on -/

section
variable {s : State} {k op w : Nat} (hnext : nextWide s k engUpd = some w) (hop : opcodeOf w = op) (er : EngineRun)
include hnext hop

theorem runUpdate_of_due : runUpdate s k op er =
    if (Upd.of w).count = 0 then wideIssued s k
    else if 0 < updWait (coreOf s k) (Upd.of w).isRoot then interlockFor s k (updWait (coreOf s k) (Upd.of w).isRoot)
    else wideIssued (updBegun s k w er) k := by
  simp only [runUpdate, hnext, hop, ne_eq, not_true_eq_false, if_false]
  rfl

theorem runUpdate_empty (hcount : (Upd.of w).count = 0) : runUpdate s k op er = wideIssued s k := by
  rw [runUpdate_of_due hnext hop, if_pos hcount]

theorem runUpdate_starts (hcount : (Upd.of w).count ≠ 0) (hwait : updWait (coreOf s k) (Upd.of w).isRoot = 0) :
    runUpdate s k op er = wideIssued (updBegun s k w er) k := by
  rw [runUpdate_of_due hnext hop, if_neg hcount, if_neg hwait.not_gt]

theorem runUpdate_waits (hcount : (Upd.of w).count ≠ 0) (hwait : 0 < updWait (coreOf s k) (Upd.of w).isRoot) :
    runUpdate s k op er = interlockFor s k (updWait (coreOf s k) (Upd.of w).isRoot) := by
  rw [runUpdate_of_due hnext hop, if_neg hcount, if_pos hwait]

end

theorem exec_update {c : CoreRef} {er : EngineRun} {i : Instr} {op : Nat} (s : State)
    (h : (i, op) ∈ [(Instr.update c er, 1), (.uroot c er, 2)]) : exec i s = .next (runUpdate s (coreKey c) op er) := by
  fin_cases h <;> rfl

/-- A command that has started: its run stands in the engine, which is busy for the layer's duration (R361). -/
theorem wideIssued_updBegun (s : State) (k w : Nat) (er : EngineRun) :
    let t := wideIssued (updBegun s k w er) k
    let v := (coreOf s k).upd
    WideIssued s t k ∧ t.mem = s.mem ∧ (coreOf t k).upd.done = v.clock + updTime (Upd.of w) (layerOf s k (Upd.of w).layer) ∧
      ∃ r, (coreOf t k).upd.run = some r ∧ r.bundle = (coreOf s k).bundle ∧ r.word = w ∧ r.start = v.clock ∧ r.er = er := by
  refine ⟨(updBegun_samePlace s k w er).wideIssued, (mem_wideIssued ..).trans (mem_updBegun ..), ?_⟩
  rw [upd_wideIssued, upd_updBegun]
  exact ⟨rfl, updRunNow s k w er, rfl, rfl, rfl, rfl, rfl⟩

end Sys2Proof.Machine
end

section
/-! PROOF. A command of a frozen layer (R357): it works without a trace in memory, and its elements are counted as it completes
(log entry 99). -/

namespace Sys2Proof.Machine

/-- The state in which the engine's work of the present cycle counts as done. -/
def updMarked (s : State) (k : Nat) : State :=
  setCore s k { coreOf s k with upd := { (coreOf s k).upd with worked := true } }

theorem layerOf_updMarked (s : State) (k i : Nat) : layerOf (updMarked s k) k i = layerOf s k i := by
  simp [layerOf, updMarked]

/-- The engine's cycle with a command of a frozen layer in progress does nothing else. -/
theorem updWork_of_frozen {s : State} {k : Nat} {r : UpdRun} (hrun : (coreOf s k).upd.run = some r)
    (hfrozen : (layerOf s k r.upd.layer).frozen = true) (bad : List Nat) : updWork bad s k = updMarked s k := by
  unfold updWork
  extract_lets c upd t x
  have hidle : updIdle t k r = true := (congrArg Layer.frozen (layerOf_updMarked s k r.upd.layer)).trans hfrozen
  rw [show c.upd.run = some r from hrun]
  exact if_pos (by rw [hidle, Bool.true_or])

/-- Every element of the command's range, tiles with all of theirs. -/
def updElements (l : Layer) (u : Upd) : Nat := if l.isMatrix then u.count * (l.b * l.b) else u.count

theorem updCounts_counts (s : State) (k : Nat) (r : UpdRun) (n : Nat) :
    Counts s (updCounts s k r n) F.updFrozenCount_count (k / 24) (k % 24) n := by
  have hfallback : ∀ s' : State, rf (bumpCore s' F.updFallbackCount_count k 1) F.updFrozenCount_count (k / 24) (k % 24) =
      rf s' F.updFrozenCount_count (k / 24) (k % 24) :=
    fun s' => (bump_effect s' F.updFallbackCount_count (k / 24) (k % 24) 1).field_same _ (by decide) ..
  unfold updCounts
  extract_lets t
  have ht : rf t F.updFrozenCount_count (k / 24) (k % 24) = rf s F.updFrozenCount_count (k / 24) (k % 24) := by
    unfold t
    split
    · exact hfallback s
    · rfl
  split
  next hn =>
    rw [hn]
    exact (counts_zero t ..).congr ht rfl
  · exact (counts_bump t (by decide) ..).congr ht rfl

/-- A command of a frozen layer as it completes, up to the flag of its stream. -/
theorem updFinish_of_frozen {s : State} {k : Nat} {r : UpdRun} (h : (layerOf s k r.upd.layer).frozen = true) :
    let n := updElements (layerOf s k r.upd.layer) r.upd
    let t := keepInPoint (updCounts s k r n) k r.bundle (updCounts (pointView s k) k r n)
    updFinish s k r = if n = 0 then t else flagCore t k flagFrozenSkipped := by
  simp only [updFinish, h, if_true]
  rfl

theorem mem_updFinish (s : State) (k : Nat) (r : UpdRun) : (updFinish s k r).mem = s.mem :=
  (updFinish_effect s k r).mem_same (by decide)

section
variable {s : State} {k : Nat} {r : UpdRun} (h : (layerOf s k r.upd.layer).frozen = true)
include h

theorem updFinish_counts :
    Counts s (updFinish s k r) F.updFrozenCount_count (k / 24) (k % 24) (updElements (layerOf s k r.upd.layer) r.upd) := by
  refine (updCounts_counts s k r _).congr rfl ?_
  rw [updFinish_of_frozen h]
  have hpoint : ∀ t v : State, rf (keepInPoint t k r.bundle v) F.updFrozenCount_count (k / 24) (k % 24) =
      rf t F.updFrozenCount_count (k / 24) (k % 24) := fun t v => (keepInPoint_effect t k r.bundle v).field_same _ (by decide) ..
  split
  · exact hpoint ..
  · exact ((flagCore_effect ..).field_same F.updFrozenCount_count (by decide) ..).trans (hpoint ..)

theorem updFinish_flags (hn : updElements (layerOf s k r.upd.layer) r.upd ≠ 0) :
    (coreOf (updFinish s k r) k).flags = setFlag (coreOf s k).flags flagFrozenSkipped := by
  rw [updFinish_of_frozen h]
  simp only [if_neg hn, coreOf_flagCore, flags_keepInPoint, (updCounts_effect s k r _).coreOf_same (by decide)]

end

end Sys2Proof.Machine
end

section
/-! PROOF. The groups an update command writes (R344, R346, R348, R361): where no write fails (R420) and the host holds no line (R433),
memory changes by exactly the group's writes. -/

namespace Sys2Proof.Machine

/-! ### Writes that do not fail -/

theorem lostWrites_of_unfailed {mf : MemFaults} (h : mf.writeFails = []) (s : State) (base len : Nat) :
    lostWrites s mf base len = s := by
  rw [lostWrites, h]
  rfl

section
variable {mf : MemFaults} (h : mf.writeFails = []) (s : State) (base : Nat) (data : Bytes) (keep : Nat → Bool)
include h

theorem mem_landWrite_of_unfailed : (landWrite s mf base data keep).mem =
    putSome (fun a => keep a && !(snoopedIn s base data.length).contains (a / 64)) s.mem base data := by
  show (storeBytes s mf base data keep).mem = _
  rw [storeBytes, lostWrites_of_unfailed h, stored, (writeCodes_effect ..).mem_same (by decide)]

theorem landWrite_memSameOutside : MemSameOutside s (landWrite s mf base data keep) base data.length := by
  intro a ha
  rw [mem_landWrite_of_unfailed h]
  exact getD_putSome_outside _ _ _ _ _ (ha.imp_right Or.inl)

/-- Bytes of which the host holds no line land whole. -/
theorem mem_landWrite_whole (hseen : snoopedIn s base data.length = []) :
    (landWrite s mf base data fun _ => true).mem = putBytes s.mem base data := by
  rw [mem_landWrite_of_unfailed h, hseen]
  exact putSome_of_all (by simp) ..

end

theorem snoopedIn_of_nil {s : State} (h : s.snoop = []) (base len : Nat) : snoopedIn s base len = [] := by
  rw [snoopedIn, h]
  rfl

theorem mem_landAll {mf : MemFaults} (h : mf.writeFails = []) (ws : List (Nat × Bytes)) : ∀ s : State, s.snoop = [] →
    (landAll s mf ws).mem = ws.foldl (fun m w => putBytes m w.1 w.2) s.mem := by
  induction ws with
  | nil => exact fun _ _ => rfl
  | cons w ws ih =>
    intro s hsnoop
    have hnext : (landWrite s mf w.1 w.2 fun _ => true).snoop = [] := (snoop_landWrite ..).trans hsnoop
    rw [List.foldl_cons, ← mem_landWrite_whole h s w.1 w.2 (snoopedIn_of_nil hsnoop ..)]
    exact ih _ hnext

/-! ### What goes with a group -/

/-- The failed sides of a tile are counted and recorded; memory and the host's lines stay. -/
theorem rootsFailed_effect (s : State) (k bundle layer tile : Nat) (l : List (Nat × SideOut)) :
    Effect rootFailed_parts s (l.foldl (fun s x => rootFailed s k bundle layer tile x.1 x.2) s) :=
  .foldl _ (fun _ _ => rootFailed_effect ..) l s

theorem mem_flagCore_ite (b : Bool) (s : State) (k f : Nat) : (if b then flagCore s k f else s).mem = s.mem := by
  split <;> rfl

/-! ### A group -/

section
variable {s : State} {r : UpdRun} (hsnoop : s.snoop = []) (hwrites : r.er.mf.writeFails = []) (k g : Nat)
include hsnoop hwrites

theorem mem_updWriteGroup_root (hroot : r.upd.isRoot = true) :
    let l := layerOf s k r.upd.layer
    (updWriteGroup s k r g).mem =
      (urootGroup (updView s r) r.upd l (r.const k l).a g).writes.foldl (fun m w => putBytes m w.1 w.2) s.mem := by
  intro l
  rw [updWriteGroup]
  simp only [hroot, if_true]
  generalize urootGroup (updView s r) r.upd (layerOf s k r.upd.layer) (r.const k (layerOf s k r.upd.layer)).a g = o
  have hfailed := rootsFailed_effect s k r.bundle r.upd.layer (r.upd.first + g) o.failed
  have hland := mem_landAll hwrites o.writes _ ((hfailed.frame.same .snoop (by decide)).trans hsnoop)
  rw [hfailed.mem_same (by decide)] at hland
  rw [← hland]
  split <;> exact mem_flagCore_ite ..

theorem mem_updWriteGroup_update (hroot : r.upd.isRoot = false) :
    let l := layerOf s k r.upd.layer
    (updWriteGroup s k r g).mem =
      (updateGroup (updView s r) k r.upd l (r.const k l) (Header.of (r.oldHeader l)).valid g).writes.foldl
        (fun m w => putBytes m w.1 w.2) s.mem := by
  intro l
  rw [updWriteGroup]
  simp only [hroot, Bool.false_eq_true, if_false]
  generalize updateGroup (updView s r) k r.upd (layerOf s k r.upd.layer) (r.const k (layerOf s k r.upd.layer))
    (Header.of (r.oldHeader (layerOf s k r.upd.layer))).valid g = o
  rw [← mem_landAll hwrites o.writes s hsnoop]
  split <;> exact mem_flagCore_ite ..

theorem mem_updWriteGroup :
    let l := layerOf s k r.upd.layer
    (updWriteGroup s k r g).mem =
      (if r.upd.isRoot then (urootGroup (updView s r) r.upd l (r.const k l).a g).writes
        else (updateGroup (updView s r) k r.upd l (r.const k l) (Header.of (r.oldHeader l)).valid g).writes).foldl
          (fun m w => putBytes m w.1 w.2) s.mem := by
  dsimp only
  cases hroot : r.upd.isRoot with
  | true => exact mem_updWriteGroup_root hsnoop hwrites k g hroot
  | false => exact mem_updWriteGroup_update hsnoop hwrites k g hroot

end

end Sys2Proof.Machine
end

section
/-! PROOF. The header an update command writes (R341, R348, R356): its 64 bytes alone change, and after the final UPDATE of a step they
are those read but for the step, which is 1 more (log entry 98). -/

namespace Sys2Proof.Machine

/-! ### The bytes of a header -/

theorem leNat_leBytes (n : Nat) : ∀ v : Nat, leNat (leBytes n v) = v % 256 ^ n := by
  induction n with
  | zero => exact fun v => (Nat.mod_one v).symm
  | succ n ih =>
    intro v
    rw [leBytes, leNat, ih, BitVec.toNat_ofNat, pow_succ' 256 n]
    exact Nat.mod_mul.symm

/-- A number read from some bytes gives them again. -/
theorem leBytes_leAt {b : Bytes} {i n : Nat} (h : i + n ≤ b.length) : leBytes n (leAt b i n) = (b.drop i).take n := by
  have hlen : ((b.drop i).take n).length = n := by rw [List.length_take, List.length_drop]; omega
  have hbytes := leBytes_leNat ((b.drop i).take n)
  rwa [hlen] at hbytes

theorem Header.take_bytes_step (h : Header) (old : Bytes) : (h.bytes old).take 8 = leBytes 8 h.step := by
  simp only [Header.bytes, List.append_assoc]
  exact List.take_left' (length_leBytes ..)

section
variable (h : Header) {old : Bytes} (hlen : old.length = 64)
include hlen

theorem Header.length_bytes : (h.bytes old).length = 64 := by
  simp [Header.bytes, hlen]

theorem Header.bytes_between : ((h.bytes old).drop 9).take 7 = (old.drop 9).take 7 := by
  have hhead : (leBytes 8 h.step ++ leBytes 1 ((leAt old 8 1) / 2 * 2 + flagBit h.valid)).length = 9 := by simp
  have hmid : ((old.drop 9).take 7).length = 7 := by rw [List.length_take, List.length_drop, hlen]; decide
  simp only [Header.bytes, List.append_assoc]
  rw [← List.append_assoc, List.drop_left' hhead, List.take_left' hmid]

theorem Header.bytes_after (hroot : h.rootStep = leAt old 16 8) : ((h.bytes old).drop 16).take 48 = (old.drop 16).take 48 := by
  have hhead : (leBytes 8 h.step ++ leBytes 1 ((leAt old 8 1) / 2 * 2 + flagBit h.valid) ++ (old.drop 9).take 7).length = 16 := by
    simp [hlen]
  have hrest : leBytes 8 h.rootStep ++ (old.drop 24).take 40 = (old.drop 16).take 48 := by
    rw [hroot, leBytes_leAt (by rw [hlen]; decide), show (48 : Nat) = 8 + 40 from rfl, List.take_add, List.drop_drop]
  rw [Header.bytes, List.append_assoc, List.drop_left' hhead, hrest, List.take_take]
  rfl

end

/-! ### The header read and the header written -/

theorem UpdRun.length_oldHeader (r : UpdRun) (l : Layer) : (r.oldHeader l).length = 64 := by simp [UpdRun.oldHeader, mapBytes]

/-- Some bytes of the header a command has read. -/
theorem UpdRun.oldHeader_part (r : UpdRun) (l : Layer) {i n : Nat} (h : i + n ≤ 64) :
    ((r.oldHeader l).drop i).take n = mapBytes r.got (l.hdrBase + i) n :=
  take_drop_memBytes (updView State.reset r) l.hdrBase h

/-- The header a command has read, with its next step. -/
def UpdRun.stepped (r : UpdRun) (l : Layer) : Header :=
  { Header.of (r.oldHeader l) with step := (Header.of (r.oldHeader l)).next }

/-- Its bytes, the others as they were read. -/
def UpdRun.steppedHeader (r : UpdRun) (l : Layer) : Bytes := (r.stepped l).bytes (r.oldHeader l)

theorem UpdRun.length_steppedHeader (r : UpdRun) (l : Layer) : (r.steppedHeader l).length = 64 :=
  Header.length_bytes _ (r.length_oldHeader l)

theorem UpdRun.steppedHeader_step (r : UpdRun) (l : Layer) :
    leNat ((r.steppedHeader l).take 8) = min (leNat (mapBytes r.got l.hdrBase 8) + 1) (2 ^ 64 - 1) := by
  have hold : leAt (r.oldHeader l) 0 8 = leNat (mapBytes r.got l.hdrBase 8) := by
    rw [leAt, r.oldHeader_part l (by decide), Nat.add_zero]
  rw [steppedHeader, Header.take_bytes_step, leNat_leBytes, ← hold]
  exact Nat.mod_eq_of_lt (lt_of_le_of_lt (min_le_right _ _) (by decide))

theorem UpdRun.steppedHeader_between (r : UpdRun) (l : Layer) :
    ((r.steppedHeader l).drop 9).take 7 = mapBytes r.got (l.hdrBase + 9) 7 := by
  rw [steppedHeader, Header.bytes_between _ (r.length_oldHeader l), r.oldHeader_part l (by decide)]

theorem UpdRun.steppedHeader_after (r : UpdRun) (l : Layer) :
    ((r.steppedHeader l).drop 16).take 48 = mapBytes r.got (l.hdrBase + 16) 48 := by
  have hroot : (r.stepped l).rootStep = leAt (r.oldHeader l) 16 8 := rfl
  rw [steppedHeader, Header.bytes_after _ (r.length_oldHeader l) hroot, r.oldHeader_part l (by decide)]

theorem newHeader_final {u : Upd} (hroot : u.isRoot = false) (hfinal : u.final = true) (h : Header) (failed : Bool) :
    newHeader u h failed = some { h with step := h.next } := by simp [newHeader, hroot, hfinal]

theorem newHeader_open {u : Upd} (hroot : u.isRoot = false) (hfinal : u.final = false) (h : Header) (failed : Bool) :
    newHeader u h failed = none := by simp [newHeader, hroot, hfinal]

theorem updWriteHeader_of_open {s : State} {r : UpdRun} (k : Nat) (hroot : r.upd.isRoot = false) (hfinal : r.upd.final = false) :
    updWriteHeader s k r = s := by
  simp only [updWriteHeader, newHeader_open hroot hfinal]

section
variable {s : State} {k : Nat} {r : UpdRun} (hwrites : r.er.mf.writeFails = [])
include hwrites

theorem updWriteHeader_memSameOutside :
    MemSameOutside s (updWriteHeader s k r) (layerOf s k r.upd.layer).hdrBase 64 := by
  unfold updWriteHeader
  extract_lets l old
  split
  next h _ =>
    rw [← h.length_bytes (r.length_oldHeader l)]
    exact landWrite_memSameOutside hwrites s l.hdrBase (h.bytes old) _
  · exact fun _ _ => rfl

/-- After a final UPDATE memory holds the header read with its next step. -/
theorem memBytes_updWriteHeader (hseen : snoopedIn s (layerOf s k r.upd.layer).hdrBase 64 = []) (hroot : r.upd.isRoot = false)
    (hfinal : r.upd.final = true) :
    memBytes (updWriteHeader s k r) (layerOf s k r.upd.layer).hdrBase 64 = r.steppedHeader (layerOf s k r.upd.layer) := by
  rw [updWriteHeader]
  generalize layerOf s k r.upd.layer = l at hseen ⊢
  have hmem := mem_landWrite_whole hwrites s l.hdrBase (r.steppedHeader l) (by rwa [r.length_steppedHeader])
  have hbytes := mapBytes_putBytes s.mem l.hdrBase (r.steppedHeader l)
  rw [r.length_steppedHeader] at hbytes
  rw [newHeader_final hroot hfinal, ← hbytes, ← hmem]
  rfl

theorem updWriteHeader_final (hseen : snoopedIn s (layerOf s k r.upd.layer).hdrBase 64 = []) (hroot : r.upd.isRoot = false)
    (hfinal : r.upd.final = true) :
    let l := layerOf s k r.upd.layer
    let t := updWriteHeader s k r
    leNat (memBytes t l.hdrBase 8) = min (leNat (mapBytes r.got l.hdrBase 8) + 1) (2 ^ 64 - 1) ∧
      memBytes t (l.hdrBase + 9) 7 = mapBytes r.got (l.hdrBase + 9) 7 ∧
      memBytes t (l.hdrBase + 16) 48 = mapBytes r.got (l.hdrBase + 16) 48 := by
  intro l t
  have hbytes : memBytes t l.hdrBase 64 = r.steppedHeader l := memBytes_updWriteHeader hwrites hseen hroot hfinal
  have hpart : ∀ {i n : Nat}, i + n ≤ 64 → memBytes t (l.hdrBase + i) n = ((r.steppedHeader l).drop i).take n :=
    fun h => hbytes ▸ (take_drop_memBytes t l.hdrBase h).symm
  clear_value l t
  refine ⟨?_, (hpart (by decide)).trans (r.steppedHeader_between l), (hpart (by decide)).trans (r.steppedHeader_after l)⟩
  rw [← r.steppedHeader_step l]
  exact congrArg leNat (hpart (i := 0) (by decide))

end

end Sys2Proof.Machine
end

section
/-! PROOF. The obligation on the update engine and the Almanac. -/

namespace Sys2Proof.Machine

/-- An enabled slot answers a request for a step above 0 (R368 to R371). -/
theorem execAlmanacRequest_answers {slot : Fin 16} {step : BitVec 64} {s : State} (hslot : almEnabled s slot = true) (hstep : step ≠ 0)
    (die : Die) : execAlmanacRequest die slot step s =
      .next { s with answers := { s.answers with almanac := code32 (almanac s slot step.toNat) } } := by
  exact if_neg (by simp only [hslot, hstep, decide_false, Bool.not_true, Bool.or_self, Bool.false_eq_true, not_false_eq_true])

theorem answers_frame (s : State) (a : Answers) : Frame [.answers] s { s with answers := a } := by
  refine ⟨fun p hp => ?_⟩
  cases p with
  | answers => exact absurd (List.mem_singleton_self _) hp
  | reg r => exact fun _ _ => rfl
  | _ => rfl

/-- Settles O33: update commands by their start rule, frozen layers, groups and headers as they land, and the Almanac's answer. -/
theorem updatesAndAlmanacComplete : Obligations.UpdatesAndAlmanacComplete := by
  refine ⟨fun c er i op w s hi hnext hop => ?_, fun s k r hfrozen => ?_,
    fun s k g r hsnoop hwrites => mem_updWriteGroup hsnoop hwrites k g,
    fun s k r hseen hwrites => ⟨updWriteHeader_memSameOutside hwrites, updWriteHeader_final hwrites hseen,
      updWriteHeader_of_open k⟩,
    fun die slot step s hslot hstep => ⟨_, execAlmanacRequest_answers hslot hstep die, rfl, answers_frame ..⟩⟩
  · have hexec := exec_update s hi
    refine ⟨fun hcount => ⟨_, hexec, ?_⟩, fun hcount hwait => ⟨_, hexec, ?_⟩, fun hcount hwait => ⟨_, hexec, ?_⟩⟩
    · rw [runUpdate_empty hnext hop er hcount]
      exact ⟨wideIssued_issues s _, mem_wideIssued s _⟩
    · rw [runUpdate_starts hnext hop er hcount hwait]
      exact wideIssued_updBegun s _ w er
    · rw [runUpdate_waits hnext hop er hcount hwait]
      exact ⟨by simp, by simp, rfl, by simp, by simp⟩
  · refine ⟨fun bad hrun => ?_, mem_updFinish s k r, updFinish_counts hfrozen, updFinish_flags hfrozen⟩
    rw [updWork_of_frozen hrun hfrozen]
    rfl

end Sys2Proof.Machine
end

section
/-! PROOF. What decides how an access to device memory goes: the tagged windows (R408) and the lines the host holds (R433), and what a
write leaves of memory where no write fails (R420). -/

namespace Sys2Proof.Machine

/-! ### Windows and lines that an operation leaves as they are -/

/-- What decides which windows are hidden (R408): their registers, the tag, the state of the job and its key. -/
def windowParts : List Part := [.reg .spmResWindow, .reg .spmResStatus, .reg .jobStatus, .job]

section
variable {w : List Part} {s t : State} (h : Effect w s t)
include h

theorem Effect.jobState_same (hw : Part.reg .jobStatus ∉ w) : jobState t = jobState s := h.field_same F.jobStatus_state hw ..

theorem Effect.jobRuns_same (hw : Part.reg .jobStatus ∉ w) : jobRuns t = jobRuns s := by
  rw [jobRuns, h.jobState_same hw, jobRuns]

theorem Effect.windows_same (hw : Part.reg .spmResWindow ∉ w) : windows t = windows s := by
  unfold windows
  simp only [show ∀ n, rd t .spmResWindow 0 n = rd s .spmResWindow 0 n from h.frame.same (.reg .spmResWindow) hw 0]

theorem Effect.hiddenIn_same (hw : ∀ p ∈ windowParts, p ∉ w) (base len : Nat) : hiddenIn t base len = hiddenIn s base len := by
  have hjob : t.job = s.job := h.frame.same .job (hw .job (by decide))
  have htag : rflag t F.spmResStatus_tagValid 0 0 = rflag s F.spmResStatus_tagValid 0 0 := by
    rw [rflag, h.field_same _ (hw (.reg .spmResStatus) (by decide)), rflag]
  unfold hiddenIn windowsHidden
  rw [htag, h.jobRuns_same (hw (.reg .jobStatus) (by decide)), hjob, h.windows_same (hw (.reg .spmResWindow) (by decide))]

theorem Effect.snoopedIn_same (hw : Part.snoop ∉ w) (base len : Nat) : snoopedIn t base len = snoopedIn s base len := by
  unfold snoopedIn
  rw [show t.snoop = s.snoop from h.frame.same .snoop hw]

end

theorem overlaps_prefix {base n len b m : Nat} (hn : n ≤ len) (h : overlaps base n b m = true) : overlaps base len b m = true := by
  simp only [overlaps, Bool.and_eq_true, decide_eq_true_eq] at *
  omega

/-- No window hides a byte of the beginning of a range of which none is hidden. -/
theorem hiddenIn_prefix {s : State} {base n len : Nat} (h : hiddenIn s base len = []) (hn : n ≤ len) : hiddenIn s base n = [] := by
  unfold hiddenIn at *
  split at h
  next hw =>
    rw [if_pos hw]
    exact List.filter_eq_nil_iff.mpr fun x hx hov => List.filter_eq_nil_iff.mp h x hx (overlaps_prefix hn hov)
  next hw => rw [if_neg hw]

theorem dmaHidden_iff {s : State} {base len : Nat} : dmaHidden s base len = false ↔ hiddenIn s base len = [] := by
  simp [dmaHidden]

/-! ### Writes -/

theorem memWrite_of_visible {s : State} {base : Nat} {data : Bytes} (h : hiddenIn s base data.length = []) (m : Master)
    (mf : MemFaults) : memWrite s m mf base data = landWrite s mf base data fun _ => true := by
  rw [memWrite, h]

/-- Each byte of a write that does not fail reads back, where the host holds no line of it. -/
theorem getD_landWrite {s : State} {mf : MemFaults} {base : Nat} {data : Bytes} (h : mf.writeFails = [])
    (hseen : snoopedIn s base data.length = []) {i : Nat} (hi : i < data.length) :
    Map.getD (landWrite s mf base data fun _ => true).mem (base + i) 0 = data.getD i 0 := by
  rw [mem_landWrite_whole h _ _ _ hseen, getD_putBytes_inside _ _ _ _ hi, List.getD_eq_getElem _ _ hi]

@[simp] theorem getD_memBytes (s : State) (base : Nat) {i len : Nat} (h : i < len) :
    (memBytes s base len).getD i 0 = Map.getD s.mem (base + i) 0 := by
  simp [memBytes, mapBytes, List.getD, h]

end Sys2Proof.Machine
end

section
/-! PROOF. The memory-moving descriptors (R391 to R399, R592): what a move reads, what it leaves of memory, and how it completes. -/

namespace Sys2Proof.Machine

/-! ### What a move reads and writes -/

@[simp] theorem length_ascending (src dst : Nat) (data : Bytes) : (ascending src dst data).length = data.length := by
  unfold ascending
  split <;> simp

@[simp] theorem length_fillBytes (pattern base len : Nat) : (fillBytes pattern base len).length = len := by simp [fillBytes]

theorem getD_fillBytes (pattern base : Nat) {i len : Nat} (h : i < len) :
    (fillBytes pattern base len).getD i 0 = BitVec.ofNat 8 (pattern / 256 ^ ((base + i) % 8)) := by
  simp [fillBytes, List.getD, h]

/-- A byte moved comes from its place in the source, or from the bytes below the destination that repeat (R592). -/
theorem getD_ascending (src dst : Nat) {data : Bytes} {i : Nat} (h : i < data.length) : (ascending src dst data).getD i 0 =
    data.getD (if src < dst ∧ dst < src + data.length then i % (dst - src) else i) 0 := by
  unfold ascending
  by_cases hover : src < dst ∧ dst < src + data.length
  · simp [hover, List.getD, h]
  · rw [if_neg hover, if_neg (by simpa using hover)]

theorem ascending_of_apart {src dst : Nat} {data : Bytes} (h : ¬ (src < dst ∧ dst < src + data.length)) :
    ascending src dst data = data := if_neg (by simpa using h)

theorem rowBase_le (a : Nat) : rowBase a ≤ a := Nat.div_mul_le_self ..

/-- A row that fails touches the range: it does not begin past it. -/
theorem failRow_lt {s : State} {mf : MemFaults} {base len r : Nat} (h : failRow s mf base len = some r) : r < base + len := by
  have hnamed : ∀ a, (decide (base ≤ a) && decide (a < base + len)) = true → rowBase a < base + len := by
    intro a ha
    simp only [Bool.and_eq_true, decide_eq_true_eq] at ha
    exact (rowBase_le a).trans_lt ha.2
  unfold failRow at h
  split at h
  · exact absurd h (by simp)
  · extract_lets poisoned inv bad all at h
    have hbad : ∀ x ∈ bad, x < base + len := by
      intro x hx
      rcases List.mem_append.mp hx with hx | hx
      · obtain ⟨a, ha, rfl⟩ := List.mem_map.mp hx
        exact hnamed a (List.mem_filter.mp ha).2
      · have hx := List.of_mem_filter hx
        simp only [overlaps, Bool.and_eq_true, decide_eq_true_eq] at hx
        exact hx.2
    have hall : ∀ x ∈ all, x < base + len := by
      unfold all
      split
      next a _ =>
        split
        next ha => exact List.forall_mem_cons.mpr ⟨hnamed a ha, hbad⟩
        · exact hbad
      · exact hbad
    refine List.foldlRecOn (motive := fun m => ∀ q, m = some q → q < base + len) all _ (by simp) (fun m hm x hx q hq => ?_) r h
    cases m with
    | none => exact Option.some.inj hq ▸ hall x hx
    | some p => exact Option.some.inj hq ▸ (Nat.min_le_right ..).trans_lt (hall x hx)

theorem goodLen_le (s : State) (mf : MemFaults) (base len : Nat) : goodLen s mf base len ≤ len := by
  unfold goodLen
  split
  next r h => have := failRow_lt h; omega
  · exact le_rfl

theorem goodLen_of_readsWell {s : State} {base len : Nat} (h : readsWell s base len) : goodLen s .none base len = len := by
  rw [goodLen, show failRow s .none base len = none from h]

/-- A move reads the bytes below the first row that fails, of which no window hides one (R396, R397). -/
theorem moveSource_of_visible {s : State} {mf : MemFaults} {src len : Nat} (h : hiddenIn s src len = []) (dst : Nat) :
    moveSource s mf src dst len = (ascending src dst (memBytes s src (goodLen s mf src len)), readEffects s mf src len) := by
  have heff := readEffects_effect s mf src len
  have hvis : hiddenIn (readEffects s mf src len) src (goodLen s mf src len) = [] :=
    hiddenIn_prefix ((heff.hiddenIn_same (by decide) ..).trans h) (goodLen_le ..)
  simp only [moveSource, memRead_of_visible hvis, memBytes_of_mem (heff.mem_same (by decide))]

/-! ### The completion of a move -/

theorem finishMove_completedWith (s : State) (die ring : Nat) (d : Desc) (n : Nat) :
    CompletedWith (finishMove s die ring d n) die ring d (if n = dmaLen d then stOk else stDataLost) n := by
  unfold finishMove
  split <;> exact finish_completedWith ..

/-- What a move writes stands at its destination, nothing else of memory changes, and it completes with its count. -/
theorem moved {s s1 u : State} {mf : MemFaults} {dst : Nat} {data : Bytes} (hmem : u.mem = s.mem)
    (hsnoop : ∀ len, snoopedIn u dst len = snoopedIn s1 dst len) (hvis : hiddenIn u dst data.length = []) (die ring : Nat) (d : Desc) :
    let t := finishMove (memWrite u .engine mf dst data) die ring d data.length
    (mf.writeFails = [] → (snoopedIn s1 dst data.length = [] → ∀ i < data.length, Map.getD t.mem (dst + i) 0 = data.getD i 0) ∧
      MemSameOutside s t dst data.length) ∧
    CompletedWith t die ring d (if data.length = dmaLen d then stOk else stDataLost) data.length := by
  intro t
  have ht : t.mem = (landWrite u mf dst data fun _ => true).mem := by
    rw [← memWrite_of_visible hvis .engine]
    exact (finishMove_effect ..).mem_same (by decide)
  refine ⟨fun hfail => ⟨fun hseen i hi => ?_, (landWrite_memSameOutside hfail u dst data _).of_mem hmem.symm ht⟩,
    finishMove_completedWith ..⟩
  rw [ht, getD_landWrite hfail ((hsnoop _).trans hseen) hi]

/-! ### The power state as a command completes -/

theorem Map.mem_put_self {α : Type} (m : Map α) (k : Nat) (v : α) : (k, v) ∈ Map.put m k v := by
  induction m with
  | nil => exact List.mem_singleton_self _
  | cons e rest ih =>
    obtain ⟨k', v'⟩ := e
    unfold Map.put
    split
    · exact List.mem_cons_self ..
    · split
      · exact List.mem_cons_self ..
      · exact List.mem_cons_of_mem _ ih

/-- A DMA or collective command that ran and whose completion waits to be written keeps the module active (R689). -/
theorem anyRuns_queueCompletion {n : Nat} (hn : 24 ≤ n) (hn' : n < 32) {c : Completion} (hc : c.ran = true) (s : State) (die : Nat) :
    anyRuns (queueCompletion s die n c) = true := by
  unfold anyRuns
  rw [Bool.or_eq_true]
  refine .inr (List.any_eq_true.mpr ⟨(die * 64 + n, ringWork (queueCompletion s die n c) die n), ?_, ?_⟩)
  · unfold queueCompletion
    rw [ringWork_setRing_same]
    exact Map.mem_put_self ..
  · have hmod : (die * 64 + n) % 64 = n := by omega
    simp only [hmod, hn, hn', decide_true, Bool.true_and, Bool.or_eq_true]
    exact .inr (List.any_eq_true.mpr ⟨c, mem_toWrite_queueCompletion .., hc⟩)

/-- A module that is not in Idle and in which something runs stays in its power state. -/
theorem settlePower_of_running {s : State} (hrun : anyRuns s = true) (hidle : powerState s ≠ pwrIdle) : settlePower s = s := by
  by_cases hactive : powerState s = pwrActive
  · simp only [settlePower, hactive, decide_true, Bool.true_or, hrun, if_true]
    exact if_pos hactive
  · simp [settlePower, hactive, hidle]

theorem finish_of_ran {n status : Nat} (hn : 24 ≤ n) (hn' : n < 32) {s : State} {die : Nat} {d : Desc} {flags count detail signal : Nat}
    (hran : (completionOf d status flags count detail signal false).ran = true) (hidle : powerState s ≠ pwrIdle) :
    finish s die n d status flags count detail signal =
      queueCompletion s die n (completionOf d status flags count detail signal false) :=
  settlePower_of_running (anyRuns_queueCompletion hn hn' hran s die)
    (by rwa [powerState, (queueCompletion_effect ..).field_same _ (by decide)])

theorem hostMem_finishMove {s : State} (hidle : powerState s ≠ pwrIdle) (die : Nat) (ring : Fin 8) (d : Desc) (n : Nat) :
    (finishMove s die (24 + ring.val) d n).hostMem = s.hostMem := by
  unfold finishMove
  split <;> rw [finish_of_ran (by omega) (by omega) (by rfl) hidle] <;> rfl

end Sys2Proof.Machine
end

section
/-! PROOF. TRANSFER, FILL and COPY: the checks that end each of them early (R394 to R396, R588, R591, R592), and what each moves. -/

namespace Sys2Proof.Machine

/-! ### Checks -/

/-- How a DMA command that takes a descriptor off its ring ends before it moves anything: its checks `ok`, whether a tagged window of its
ranges is `hidden`, the job's state and the length decide it, in this order. -/
structure DmaChecked (i : Instr) (ok hidden : Bool) (die n : Nat) (d : Desc) (s s1 : State) : Prop where
  invalid : ok = false → exec i s = .next (finishWith s1 die n d stInvalid)
  refused : ok = true → (jobState s1 ≠ 2 ∨ hidden = true) → exec i s = .next (finishWith s1 die n d stRefused)
  empty : ok = true → jobState s1 = 2 → hidden = false → dmaLen d = 0 → exec i s = .next (finishEmpty s1 die n d)

/-- The descriptor at the front of a DMA ring is one of this operation. -/
abbrev TakesDma (s : State) (die : Die) (ring : Fin 8) (op : Nat) (d : Desc) (s1 : State) : Prop :=
  takeDesc s die (24 + ring.val) (fun d => d.type = 0x20 && dmaOp d = op) = some (d, s1)

section
variable {die : Die} {ring : Fin 8} {d : Desc} {s s1 : State} (hostData : Bytes) (mf : MemFaults)

theorem transfer_checked (h : TakesDma s die ring 0 d s1) :
    DmaChecked (.transfer die ring hostData mf) (transferOk s1 d) false die (24 + ring.val) d s s1 := by
  have hexec : exec (.transfer die ring hostData mf) s = execTransfer die ring hostData mf s := rfl
  constructor
  · intro hok
    rw [hexec]
    simp [execTransfer, h, hok]
  · intro hok hstop
    have hjob : jobState s1 ≠ 2 := hstop.resolve_right (by decide)
    rw [hexec]
    simp [execTransfer, h, hok, hjob]
  · intro hok hjob _ hlen
    rw [hexec]
    simp [execTransfer, h, hok, hjob, hlen]

theorem fill_checked (h : TakesDma s die ring 1 d s1) :
    DmaChecked (.fill die ring mf) (fillOk s1 d) (dmaHidden s1 (dmaDst d) (dmaLen d)) die (24 + ring.val) d s s1 := by
  have hexec : exec (.fill die ring mf) s = execFill die ring mf s := rfl
  constructor
  · intro hok
    rw [hexec]
    simp [execFill, h, hok]
  · intro hok hstop
    rw [hexec]
    simp only [execFill, h, hok]
    rw [if_neg (by simp), if_pos (by simpa using hstop)]
  · intro hok hjob hvis hlen
    rw [hexec]
    simp only [execFill, h, hok]
    rw [if_neg (by simp), if_neg (by simp [hjob, hvis]), if_pos hlen]

theorem copy_checked (h : TakesDma s die ring 2 d s1) :
    DmaChecked (.copy die ring mf) (copyOk s1 d) (dmaHidden s1 (dmaDst d) (dmaLen d) || dmaHidden s1 (dmaSrc d) (dmaLen d))
      die (24 + ring.val) d s s1 := by
  have hexec : exec (.copy die ring mf) s = execCopy die ring mf s := rfl
  constructor
  · intro hok
    rw [hexec]
    simp [execCopy, h, hok]
  · intro hok hstop
    rw [hexec]
    simp only [execCopy, h, hok]
    rw [if_neg (by simp), if_pos (by simpa [or_assoc] using hstop)]
  · intro hok hjob hvis hlen
    rw [hexec]
    simp only [execCopy, h, hok]
    rw [if_neg (by simp), if_neg (by simpa [hjob] using hvis), if_pos hlen]

end

/-- A descriptor that ends early leaves device memory as it was. -/
theorem DmaChecked.completes {i : Instr} {ok hidden : Bool} {die n : Nat} {d : Desc} {s s1 : State}
    (h : DmaChecked i ok hidden die n d s s1) {want : Desc → Bool} (htake : takeDesc s die n want = some (d, s1)) :
    (ok = false → Gives (exec i s) fun t => Completed t die n d stInvalid ∧ t.mem = s.mem) ∧
    (ok = true → (jobState s1 ≠ 2 ∨ hidden = true) → Gives (exec i s) fun t => Completed t die n d stRefused ∧ t.mem = s.mem) ∧
    (ok = true → jobState s1 = 2 → hidden = false → dmaLen d = 0 →
      Gives (exec i s) fun t => CompletedWith t die n d stEmpty 0 ∧ t.mem = s.mem) := by
  have hend : ∀ status, Completed (finishWith s1 die n d status) die n d status ∧ (finishWith s1 die n d status).mem = s.mem :=
    fun status => ⟨finishWith_completed .., (finishWith_taken htake status).2.2⟩
  refine ⟨fun hok => ⟨_, h.invalid hok, hend _⟩, fun hok hstop => ⟨_, h.refused hok hstop, hend _⟩,
    fun hok hjob hvis hlen => ⟨_, h.empty hok hjob hvis hlen, finish_completedWith .., ?_⟩⟩
  exact ((finishEmpty_effect ..).mem_same (by decide)).trans ((takeDesc_effect htake).mem_same (by decide))

/-! ### Moves -/

section
variable {die : Die} {ring : Fin 8} {d : Desc} {s s1 : State} (hostData : Bytes) (mf : MemFaults) (hjob : jobState s1 = 2)
  (hlen : dmaLen d ≠ 0)
include hjob hlen

theorem exec_fill_moves (h : TakesDma s die ring 1 d s1) (hok : fillOk s1 d = true)
    (hdst : dmaHidden s1 (dmaDst d) (dmaLen d) = false) : exec (.fill die ring mf) s = .next (finishMove
      (memWrite s1 .engine mf (dmaDst d) (fillBytes (dmaPattern d) (dmaDst d) (dmaLen d))) die (24 + ring.val) d (dmaLen d)) := by
  show execFill die ring mf s = _
  simp only [execFill, h, hok]
  rw [if_neg (by simp), if_neg (by simp [hjob, hdst]), if_neg hlen]

theorem exec_copy_moves (h : TakesDma s die ring 2 d s1) (hok : copyOk s1 d = true)
    (hdst : dmaHidden s1 (dmaDst d) (dmaLen d) = false) (hsrc : dmaHidden s1 (dmaSrc d) (dmaLen d) = false) :
    exec (.copy die ring mf) s =
      let x := moveSource s1 mf (dmaSrc d) (dmaDst d) (dmaLen d)
      .next (finishMove (memWrite x.2 .engine mf (dmaDst d) x.1) die (24 + ring.val) d x.1.length) := by
  show execCopy die ring mf s = _
  simp only [execCopy, h, hok]
  rw [if_neg (by simp), if_neg (by simp [hjob, hdst, hsrc]), if_neg hlen]

theorem exec_transfer_fromHost (h : TakesDma s die ring 0 d s1) (hok : transferOk s1 d = true) (hsrc : dmaSrcHost d = true) :
    exec (.transfer die ring hostData mf) s = .next (finishMove
      (memWrite s1 .engine mf (dmaDst d) (hostData.take (dmaLen d))) die (24 + ring.val) d (hostData.take (dmaLen d)).length) := by
  have hdst : dmaDstHost d = false := by
    simp only [transferOk, hsrc, Bool.true_and, Bool.and_eq_true, Bool.not_eq_true'] at hok
    exact hok.1.1.1.2
  show execTransfer die ring hostData mf s = _
  simp only [execTransfer, h, hok, hjob, hlen, hsrc, hdst, Bool.not_true, Bool.false_eq_true, ne_eq, not_true_eq_false, if_false,
    if_true]

variable (h : TakesDma s die ring 0 d s1) (hok : transferOk s1 d = true) (hsrc : dmaSrcHost d = false)
include h hok hsrc

theorem exec_transfer_within (hdst : dmaDstHost d = false) : exec (.transfer die ring hostData mf) s =
    let x := moveSource s1 mf (dmaSrc d) (dmaDst d) (dmaLen d)
    .next (finishMove (memWrite x.2 .engine mf (dmaDst d) x.1) die (24 + ring.val) d x.1.length) := by
  show execTransfer die ring hostData mf s = _
  simp only [execTransfer, h, hok, hjob, hlen, hsrc, hdst, Bool.not_true, Bool.false_eq_true, ne_eq, not_true_eq_false, if_false]

theorem exec_transfer_toHost (hdst : dmaDstHost d = true) : exec (.transfer die ring hostData mf) s =
    let x := moveSource s1 mf (dmaSrc d) 0 (dmaLen d)
    .next (finishMove (hostWrite x.2 (dmaDst d) x.1) die (24 + ring.val) d x.1.length) := by
  show execTransfer die ring hostData mf s = _
  simp only [execTransfer, h, hok, hjob, hlen, hsrc, hdst, Bool.not_true, Bool.false_eq_true, ne_eq, not_true_eq_false, if_false,
    if_true]

end

/-! ### What each leaves -/

theorem copyOk_apart {s : State} {d : Desc} (h : copyOk s d = true) :
    overlaps (dmaDst d) (dmaLen d) (dmaSrc d) (dmaLen d) = false := by
  simp only [copyOk, Bool.and_eq_true, Bool.not_eq_true'] at h
  exact h.2

section
variable {die : Die} {ring : Fin 8} {d : Desc} {s s1 : State} {op : Nat} (h : TakesDma s die ring op d s1)
include h

theorem taken_mem : s1.mem = s.mem := (takeDesc_effect h).mem_same (by decide)

/-- A move within the device whose source is read through the rows before the first that fails. -/
theorem movedWithin {mf : MemFaults} (hdst : dmaHidden s1 (dmaDst d) (dmaLen d) = false)
    (hsrc : dmaHidden s1 (dmaSrc d) (dmaLen d) = false) :
    let n := goodLen s1 mf (dmaSrc d) (dmaLen d)
    let x := moveSource s1 mf (dmaSrc d) (dmaDst d) (dmaLen d)
    let t := finishMove (memWrite x.2 .engine mf (dmaDst d) x.1) die (24 + ring.val) d x.1.length
    (mf.writeFails = [] → (snoopedIn s1 (dmaDst d) n = [] → ∀ i < n, Map.getD t.mem (dmaDst d + i) 0 = Map.getD s.mem
        (dmaSrc d + if dmaSrc d < dmaDst d ∧ dmaDst d < dmaSrc d + n then i % (dmaDst d - dmaSrc d) else i) 0) ∧
      MemSameOutside s t (dmaDst d) n) ∧
    CompletedWith t die (24 + ring.val) d (if n = dmaLen d then stOk else stDataLost) n := by
  intro n x t
  have hx : x = (ascending (dmaSrc d) (dmaDst d) (memBytes s1 (dmaSrc d) n), readEffects s1 mf (dmaSrc d) (dmaLen d)) :=
    moveSource_of_visible (dmaHidden_iff.mp hsrc) _
  have heff : Effect readEffects_parts s1 x.2 := by rw [hx]; exact readEffects_effect ..
  have hn : x.1.length = n := by rw [hx, length_ascending, length_memBytes]
  have hvis : hiddenIn x.2 (dmaDst d) x.1.length = [] :=
    (heff.hiddenIn_same (by decide) ..).trans (hiddenIn_prefix (dmaHidden_iff.mp hdst) (hn ▸ goodLen_le ..))
  obtain ⟨hstored, hdone⟩ := moved (mf := mf) (s1 := s1) ((heff.mem_same (by decide)).trans (taken_mem h))
    (fun len => heff.snoopedIn_same (by decide) ..) hvis die (24 + ring.val) d
  rw [hn] at hstored hdone
  refine ⟨fun hfail => ⟨fun hseen i hi => ?_, (by simpa only [t, hn] using (hstored hfail).2)⟩, by simpa only [t, hn] using hdone⟩
  have hbyte := (hstored hfail).1 hseen i hi
  have hfrom : (if dmaSrc d < dmaDst d ∧ dmaDst d < dmaSrc d + n then i % (dmaDst d - dmaSrc d) else i) < n := by
    split
    · exact (Nat.mod_le ..).trans_lt hi
    · exact hi
  simp only [t, hn]
  rw [hbyte, hx, getD_ascending _ _ (by simpa using hi)]
  simp only [length_memBytes]
  rw [getD_memBytes _ _ hfrom, taken_mem h]

end

end Sys2Proof.Machine
end

section
/-! PROOF. The obligation on the memory-moving descriptors (R391 to R399, R592). -/

namespace Sys2Proof.Machine

section
variable {die : Die} {ring : Fin 8} {d : Desc} {s s1 : State}

/-- FILL (R392). -/
theorem fill_fills {mf : MemFaults} (h : TakesDma s die ring 1 d s1) (hdst : dmaHidden s1 (dmaDst d) (dmaLen d) = false) :
    let t := finishMove (memWrite s1 .engine mf (dmaDst d) (fillBytes (dmaPattern d) (dmaDst d) (dmaLen d))) die (24 + ring.val) d
      (dmaLen d)
    (mf.writeFails = [] → (snoopedIn s1 (dmaDst d) (dmaLen d) = [] → ∀ i < dmaLen d, Map.getD t.mem (dmaDst d + i) 0 =
        BitVec.ofNat 8 (dmaPattern d / 256 ^ ((dmaDst d + i) % 8))) ∧ MemSameOutside s t (dmaDst d) (dmaLen d)) ∧
      CompletedWith t die (24 + ring.val) d stOk (dmaLen d) := by
  have hmoved := moved (data := fillBytes (dmaPattern d) (dmaDst d) (dmaLen d)) (mf := mf) (s1 := s1) (taken_mem h) (fun _ => rfl)
    (by rw [length_fillBytes]; exact dmaHidden_iff.mp hdst) die (24 + ring.val) d
  simp only [length_fillBytes, if_true] at hmoved
  obtain ⟨hstored, hdone⟩ := hmoved
  refine ⟨fun hfail => ⟨fun hseen i hi => ?_, (hstored hfail).2⟩, hdone⟩
  rw [(hstored hfail).1 hseen i hi, getD_fillBytes _ _ hi]

/-- COPY (R393, R397). -/
theorem copy_copies {mf : MemFaults} (h : TakesDma s die ring 2 d s1) (hok : copyOk s1 d = true)
    (hdst : dmaHidden s1 (dmaDst d) (dmaLen d) = false) (hsrc : dmaHidden s1 (dmaSrc d) (dmaLen d) = false) :
    let n := goodLen s1 mf (dmaSrc d) (dmaLen d)
    let x := moveSource s1 mf (dmaSrc d) (dmaDst d) (dmaLen d)
    let t := finishMove (memWrite x.2 .engine mf (dmaDst d) x.1) die (24 + ring.val) d x.1.length
    (mf.writeFails = [] → (snoopedIn s1 (dmaDst d) n = [] → ∀ i < n,
        Map.getD t.mem (dmaDst d + i) 0 = Map.getD s.mem (dmaSrc d + i) 0) ∧ MemSameOutside s t (dmaDst d) n) ∧
      CompletedWith t die (24 + ring.val) d (if n = dmaLen d then stOk else stDataLost) n := by
  intro n x t
  obtain ⟨hstored, hdone⟩ := movedWithin (mf := mf) h hdst hsrc
  have hn : n ≤ dmaLen d := goodLen_le ..
  have hapart : ¬ (dmaSrc d < dmaDst d ∧ dmaDst d < dmaSrc d + n) := by
    have := copyOk_apart hok
    simp only [overlaps, Bool.and_eq_false_iff, decide_eq_false_iff_not] at this
    omega
  refine ⟨fun hfail => ⟨fun hseen i hi => ?_, (hstored hfail).2⟩, hdone⟩
  rw [(hstored hfail).1 hseen i hi, if_neg hapart]

variable (hostData : Bytes)

/-- TRANSFER from the host (R592). -/
theorem transfer_takes {mf : MemFaults} (h : TakesDma s die ring 0 d s1) (hdst : dmaHidden s1 (dmaDst d) (dmaLen d) = false) :
    let n := min (dmaLen d) hostData.length
    let t := finishMove (memWrite s1 .engine mf (dmaDst d) (hostData.take (dmaLen d))) die (24 + ring.val) d
      (hostData.take (dmaLen d)).length
    (mf.writeFails = [] → (snoopedIn s1 (dmaDst d) n = [] → ∀ i < n, Map.getD t.mem (dmaDst d + i) 0 = hostData.getD i 0) ∧
        MemSameOutside s t (dmaDst d) n) ∧
      CompletedWith t die (24 + ring.val) d (if n = dmaLen d then stOk else stDataLost) n := by
  intro n t
  have hn : (hostData.take (dmaLen d)).length = n := List.length_take
  obtain ⟨hstored, hdone⟩ := moved (data := hostData.take (dmaLen d)) (mf := mf) (s1 := s1) (taken_mem h) (fun _ => rfl)
    (hiddenIn_prefix (dmaHidden_iff.mp hdst) (List.length_take_le ..)) die (24 + ring.val) d
  rw [hn] at hstored hdone
  refine ⟨fun hfail => ⟨fun hseen i hi => ?_, by simpa only [t, hn] using (hstored hfail).2⟩, by simpa only [t, hn] using hdone⟩
  have hi' : i < dmaLen d := hi.trans_le (Nat.min_le_left ..)
  simp only [t, hn]
  rw [(hstored hfail).1 hseen i hi]
  simp [List.getD, hi']

/-- TRANSFER to the host on a module that is not in Idle: only the completion of the bytes' move touches host memory besides them. -/
theorem transfer_gives (h : TakesDma s die ring 0 d s1) (hread : readsWell s1 (dmaSrc d) (dmaLen d))
    (hsrc : dmaHidden s1 (dmaSrc d) (dmaLen d) = false) (hidle : powerState s ≠ pwrIdle) :
    let x := moveSource s1 .none (dmaSrc d) 0 (dmaLen d)
    let t := finishMove (hostWrite x.2 (dmaDst d) x.1) die (24 + ring.val) d x.1.length
    (∀ i < dmaLen d, Map.getD t.hostMem (dmaDst d + i) 0 = Map.getD s.mem (dmaSrc d + i) 0) ∧
      (∀ a, (a < dmaDst d ∨ dmaDst d + dmaLen d ≤ a) → Map.getD t.hostMem a 0 = Map.getD s.hostMem a 0) ∧
      t.mem = s.mem ∧ CompletedWith t die (24 + ring.val) d stOk (dmaLen d) := by
  intro x t
  have htake := takeDesc_effect h
  have hx : x = (memBytes s1 (dmaSrc d) (dmaLen d), s1) := by
    have hmove := moveSource_of_visible (mf := .none) (dmaHidden_iff.mp hsrc) 0
    rwa [goodLen_of_readsWell hread, readEffects_of_readsWell hread, ascending_of_apart (by omega)] at hmove
  have hn : x.1.length = dmaLen d := by rw [hx, length_memBytes]
  have hpower : powerState (hostWrite x.2 (dmaDst d) x.1) ≠ pwrIdle := by
    rw [hx]
    rwa [← show powerState s1 = powerState s from htake.field_same _ (by decide) ..] at hidle
  have hhost : t.hostMem = putBytes s.hostMem (dmaDst d) (memBytes s1 (dmaSrc d) (dmaLen d)) := by
    rw [hostMem_finishMove hpower, hx, ← show s1.hostMem = s.hostMem from htake.frame.same .hostMem (by decide)]
    rfl
  refine ⟨fun i hi => ?_, fun a ha => ?_, ?_, ?_⟩
  · rw [hhost, getD_putBytes_inside _ _ _ _ (by simpa using hi), ← taken_mem h]
    simp [memBytes, mapBytes]
  · rw [hhost, getD_putBytes_outside _ _ _ _ (by simpa using ha)]
  · refine ((finishMove_effect ..).mem_same (by decide)).trans ?_
    rw [hx]
    exact (hostWrite_mem ..).trans (taken_mem h)
  · have hdone := finishMove_completedWith (hostWrite x.2 (dmaDst d) x.1) die (24 + ring.val) d x.1.length
    rw [if_pos hn] at hdone
    exact hn ▸ hdone

end

/-- Settles O34: each move puts the bytes it has read at its destination, and its checks end it before it reads. -/
theorem dmaMovesComplete : Obligations.DmaMovesComplete := by
  intro die ring hostData mf d s s1
  refine ⟨fun h hok hjob hdst hlen => ⟨_, exec_fill_moves mf hjob hlen h hok hdst, fill_fills h hdst⟩,
    fun h hok hjob hdst hsrc hlen => ⟨_, exec_copy_moves mf hjob hlen h hok hdst hsrc, copy_copies h hok hdst hsrc⟩,
    fun h hok hjob hlen => ⟨fun hfrom hdst => ⟨_, exec_transfer_fromHost hostData mf hjob hlen h hok hfrom, transfer_takes hostData h hdst⟩,
      fun hfrom hto hread hdst hsrc => ⟨_, exec_transfer_within hostData .none hjob hlen h hok hfrom hto, ?_⟩,
      fun hfrom hto hread hsrc hidle => ⟨_, exec_transfer_toHost hostData .none hjob hlen h hok hfrom hto,
        transfer_gives h hread hsrc hidle⟩⟩,
    fun i op ok hidden hi h => ?_⟩
  · have hmoved := movedWithin (mf := .none) h hdst hsrc
    simp only [goodLen_of_readsWell hread, if_true] at hmoved
    exact ⟨(hmoved.1 rfl).1, (hmoved.1 rfl).2, hmoved.2⟩
  · have hchecked : DmaChecked i ok hidden die (24 + ring.val) d s s1 := by
      simp only [List.mem_cons, Prod.mk.injEq, List.not_mem_nil, or_false] at hi
      rcases hi with ⟨rfl, rfl, rfl, rfl⟩ | ⟨rfl, rfl, rfl, rfl⟩ | ⟨rfl, rfl, rfl, rfl⟩
      · exact transfer_checked hostData mf h
      · exact fill_checked mf h
      · exact copy_checked mf h
    exact hchecked.completes h

end Sys2Proof.Machine
end

section
/-! PROOF. Interrupt sources as they are raised (R627), and RESIDENCY (R402 to R404, R416): the window set, and the count of windows. -/

namespace Sys2Proof.Machine

/-! ### A source raised -/

/-- A source that is assigned in its group pends once its event has come (R627). -/
theorem irq_pends (s : State) {die g b : Nat} (hvalid : bitOf (icuValid die g) b = true) (hb : b < 32) :
    Pends (irq s die g b) die g b := by
  have hwritten : bitOf (rd (wr s .icuPend die g (rd s .icuPend die g ||| 2 ^ b)) .icuPend die g) b = true := by
    rw [rd_wr_same _ _ _ _ _ (by decide)]
    exact (Nat.testBit_mod_two_pow ..).trans (by simp [hb, Nat.testBit_or, Nat.testBit_two_pow_self, Reg.info])
  unfold Pends irq
  rw [if_pos hvalid]
  extract_lets s1
  split
  · exact hwritten
  · rw [(icuArm_effect ..).frame.same (.reg .icuPend) (by decide)]
    exact hwritten

/-- Group 8 has six sources on either die (R628). -/
theorem icuValid_eight (die : Nat) : icuValid die 8 = 0x3F := by simp [icuValid]

/-! ### Ranges of the device address space -/

theorem usableHbm_le (s : State) : usableHbm s ≤ 384 * (1152 * 0x10_0000) := Nat.mul_le_mul_right _ (Nat.sub_le ..)

/-- The regions there are: HBM, a shared memory for each die, a memory for each core (R47). -/
def Region.There : Region → Prop
  | .hbm => True
  | .shared die => die < 2
  | .core key => key < 48

theorem Region.there_of_regionOf {s : State} {a : Nat} {r : Region} (h : regionOf s a = some r) : r.There := by
  unfold regionOf at h
  split at h
  · exact Option.some.inj h ▸ trivial
  split at h
  · obtain ⟨_, h⟩ := Option.ite_none_left_eq_some.mp h
    obtain rfl := Option.some.inj h
    exact Nat.zero_lt_two
  split at h
  · obtain ⟨_, h⟩ := Option.ite_none_left_eq_some.mp h
    obtain rfl := Option.some.inj h
    exact Nat.one_lt_two
  split at h
  · obtain ⟨hin, h⟩ := Option.ite_none_right_eq_some.mp h
    simp only [Bool.and_eq_true, decide_eq_true_eq] at hin
    obtain rfl := Option.some.inj h
    show _ < 48
    omega
  · exact absurd h (by simp)

/-- No region reaches past 2^40 (R47). -/
theorem regionSpan_lt (s : State) {r : Region} (h : r.There) : (regionSpan s r).1 + (regionSpan s r).2 < 2 ^ 40 := by
  cases r with
  | hbm =>
    have := usableHbm_le s
    simp only [regionSpan]
    omega
  | shared die =>
    have hdie : die < 2 := h
    simp only [regionSpan, sharedBase, sharedSize]
    omega
  | core key =>
    have hkey : key < 48 := h
    simp only [regionSpan, coreBase, coreSize]
    omega

theorem rangeOk_lt {s : State} {a len : Nat} (h : rangeOk s a len = true) : len < 2 ^ 40 := by
  by_cases hlen : len = 0
  · omega
  · simp only [rangeOk, hlen, decide_false, Bool.false_or] at h
    split at h
    · exact absurd h (by simp)
    next r hr =>
      have := regionSpan_lt s (Region.there_of_regionOf hr)
      simp only [Bool.and_eq_true, decide_eq_true_eq] at h
      omega

/-! ### RESIDENCY (R402, R403, R416) -/

/-- The word of a window: its length and base in units of 64 KiB, 0 for no window. -/
def windowWord (base len : Nat) : Nat := if len = 0 then 0 else len / 0x1_0000 * 2 ^ 40 + base / 0x1_0000

theorem windowWord_lt {base len : Nat} (hbase : base < 2 ^ 48) (hlen : len < 2 ^ 40) : windowWord base len < 2 ^ 64 := by
  unfold windowWord
  split <;> omega

/-- A window set, and the windows counted. -/
def windowSet (s : State) (n base len : Nat) : State :=
  let s := wr s .spmResWindow 0 n (windowWord base len)
  wf s F.spmResStatus_windows 0 0 (windows s).length

theorem windowSet_effect (s : State) (n base len : Nat) :
    Effect [.reg .spmResStatus, .reg .spmResWindow] s (windowSet s n base len) :=
  (wf_effect ..).step ((wr_effect ..).one (by decide)) (by decide)

theorem length_windows_lt (s : State) : (windows s).length < 32 := by
  have : (windows s).length ≤ (List.range 16).length := List.length_filterMap_le ..
  rw [List.length_range] at this
  omega

theorem rd_windowSet (s : State) (n base len : Nat) : ∀ i,
    rd (windowSet s n base len) .spmResWindow 0 i = rd (wr s .spmResWindow 0 n (windowWord base len)) .spmResWindow 0 i :=
  (wf_effect ..).frame.same (.reg .spmResWindow) (by decide) 0

theorem rd_windowSet_same (s : State) (n : Nat) {base len : Nat} (hbase : base < 2 ^ 48) (hlen : len < 2 ^ 40) :
    rd (windowSet s n base len) .spmResWindow 0 n = windowWord base len := by
  rw [rd_windowSet, rd_wr_same _ _ _ _ _ (by decide)]
  exact Nat.mod_eq_of_lt (windowWord_lt hbase hlen)

theorem rd_windowSet_ne (s : State) {n i : Nat} (hn : n ≤ 15) (hi : i < 16) (hne : i ≠ n) (base len : Nat) :
    rd (windowSet s n base len) .spmResWindow 0 i = rd s .spmResWindow 0 i := by
  rw [rd_windowSet, rd_wr_unit]
  simp only [ne_eq, Prod.mk.injEq, not_and]
  omega

theorem windows_windowSet (s : State) (n base len : Nat) :
    windows (windowSet s n base len) = windows (wr s .spmResWindow 0 n (windowWord base len)) :=
  (wf_effect ..).windows_same (by decide)

/-- SPM_RES_STATUS counts the windows. -/
theorem rf_windowSet (s : State) (n base len : Nat) :
    rf (windowSet s n base len) F.spmResStatus_windows 0 0 = (windows (windowSet s n base len)).length := by
  rw [windows_windowSet]
  exact (rf_wf_same _ _ _ _ _ (by decide)).trans (Nat.mod_eq_of_lt (length_windows_lt _))

section
variable {d : Desc} {s s1 : State} (htake : takeDesc s 0 32 (fun d => d.type = 0x33) = some (d, s1))
  (hres : reservedOk d [(8, 1), (16, 16)] = true) (hn : d.at_ 8 1 ≤ 15) (haddr : addrOk (d.at_ 16 8) = true)
  (hbase : d.at_ 16 8 % 0x1_0000 = 0) (hlen : d.at_ 24 8 % 0x1_0000 = 0) (hrange : rangeOk s1 (d.at_ 16 8) (d.at_ 24 8) = true)
  (hapart : ∀ i < 16, i ≠ d.at_ 8 1 → bits (rd s .spmResWindow 0 i) 63 40 ≠ 0 → overlaps (d.at_ 16 8) (d.at_ 24 8)
    (bits (rd s .spmResWindow 0 i) 31 0 * 0x1_0000) (bits (rd s .spmResWindow 0 i) 63 40 * 0x1_0000) = false)
include htake hres hn haddr hbase hlen hrange hapart

/-- A RESIDENCY that its checks let through is refused outside a running job with a key or where the report does not offer its range. -/
theorem exec_residency : exec .residency s =
    if (decide (jobState s1 ≠ 2) || decide (s1.job.key = 0) || !windowOffered s1 (d.at_ 16 8) (d.at_ 24 8)) = true then
      .next (mgmtDone s1 0 d stRefused 0)
    else .next (mgmtDone (windowSet s1 (d.at_ 8 1) (d.at_ 16 8) (d.at_ 24 8)) 0 d stOk 0) := by
  have hreg : ∀ i, rd s1 .spmResWindow 0 i = rd s .spmResWindow 0 i :=
    (takeDesc_effect htake).frame.same (.reg .spmResWindow) (by decide) 0
  show execResidency s = _
  unfold execResidency
  simp only [htake, hreg]
  rw [if_neg]
  · rfl
  simp only [hres, haddr, hbase, hlen, hrange, Bool.not_true, Bool.false_or, Bool.or_false, Bool.or_eq_true, decide_eq_true_eq,
    ne_eq, not_true_eq_false, decide_false, List.any_eq_true, not_or, not_exists, not_and, Bool.not_eq_true]
  refine ⟨by omega, fun w hw => ?_⟩
  obtain ⟨i, hi, hiw⟩ := List.mem_filterMap.mp hw
  split at hiw
  · exact absurd hiw (by simp)
  next hused =>
    rw [not_or] at hused
    obtain rfl := Option.some.inj hiw
    exact hapart i (List.mem_range.mp hi) hused.1 hused.2

theorem exec_residency_sets (hjob : jobState s1 = 2) (hkey : s.job.key ≠ 0)
    (hoffer : windowOffered s1 (d.at_ 16 8) (d.at_ 24 8) = true) :
    exec .residency s = .next (mgmtDone (windowSet s1 (d.at_ 8 1) (d.at_ 16 8) (d.at_ 24 8)) 0 d stOk 0) := by
  have hsame : s1.job = s.job := (takeDesc_effect htake).frame.same .job (by decide)
  refine (exec_residency htake hres hn haddr hbase hlen hrange hapart).trans (if_neg ?_)
  simp [hjob, hsame, hkey, hoffer]

theorem exec_residency_refused
    (hstop : jobState s1 ≠ 2 ∨ s.job.key = 0 ∨ windowOffered s1 (d.at_ 16 8) (d.at_ 24 8) = false) :
    exec .residency s = .next (mgmtDone s1 0 d stRefused 0) := by
  have hsame : s1.job = s.job := (takeDesc_effect htake).frame.same .job (by decide)
  refine (exec_residency htake hres hn haddr hbase hlen hrange hapart).trans (if_pos ?_)
  simpa [hsame, or_assoc] using hstop

end

end Sys2Proof.Machine
end

section
/-! PROOF. ROUTE_WRITE (R527, R528): the entries it writes, which of the routing table it leaves, and the checks that let it through. -/

namespace Sys2Proof.Machine

/-! ### The routing table -/

/-- An entry of the routing table set; one of 0 is not listed. -/
def putRoute (m : Map Nat) (key e : Nat) : Map Nat := if e = 0 then Map.del m key else Map.put m key e

theorem getD_putRoute_same (m : Map Nat) (key e : Nat) : Map.getD (putRoute m key e) key 0 = e := by
  unfold putRoute Map.getD
  split
  next h => rw [Map.find_del_same, h]; rfl
  · rw [Map.find_put_same]; rfl

theorem getD_putRoute_ne (m : Map Nat) {key key' : Nat} (h : key' ≠ key) (e : Nat) :
    Map.getD (putRoute m key e) key' 0 = Map.getD m key' 0 := by
  unfold putRoute Map.getD
  split
  · rw [Map.find_del_ne _ _ _ h]
  · rw [Map.find_put_ne _ _ _ _ h]

/-- Entries set one after another from a key on. -/
def putRoutes (m : Map Nat) (key : Nat) (entries : List (Nat × Nat)) : Map Nat :=
  entries.foldl (fun m x => putRoute m (key + x.2) x.1) m

theorem getD_putRoutes_outside (entries : List Nat) (key key' : Nat) : ∀ (m : Map Nat) (i : Nat),
    (key' < key + i ∨ key + i + entries.length ≤ key') → Map.getD (putRoutes m key (entries.zipIdx i)) key' 0 = Map.getD m key' 0 := by
  induction entries with
  | nil => exact fun _ _ _ => rfl
  | cons e rest ih =>
    intro m i h
    rw [List.length_cons] at h
    show Map.getD (putRoutes (putRoute m (key + i) e) key (rest.zipIdx (i + 1))) key' 0 = _
    rw [ih _ _ (by omega), getD_putRoute_ne _ (by omega)]

theorem getD_putRoutes_inside (entries : List Nat) (key : Nat) : ∀ (m : Map Nat) (i j : Nat) (h : j < entries.length),
    Map.getD (putRoutes m key (entries.zipIdx i)) (key + i + j) 0 = entries[j] := by
  induction entries with
  | nil => exact fun _ _ _ h => absurd h (Nat.not_lt_zero _)
  | cons e rest ih =>
    intro m i j h
    show Map.getD (putRoutes (putRoute m (key + i) e) key (rest.zipIdx (i + 1))) _ 0 = _
    cases j with
    | zero => rw [getD_putRoutes_outside _ _ _ _ _ (by omega)]; exact getD_putRoute_same ..
    | succ j =>
      have hkey : key + i + (j + 1) = key + (i + 1) + j := by omega
      rw [hkey, ih _ _ _ (Nat.lt_of_succ_lt_succ h)]
      rfl

/-! ### What ROUTE_WRITE writes -/

/-- The entries that 16 bytes each at an address hold. -/
def routesAt (s : State) (src count : Nat) : List Nat := (List.range count).map fun i => leAt (memBytes s src (16 * count)) (16 * i) 16

@[simp] theorem length_routesAt (s : State) (src count : Nat) : (routesAt s src count).length = count := by simp [routesAt]

@[simp] theorem getElem_routesAt {s : State} {src count i : Nat} (h : i < (routesAt s src count).length) :
    (routesAt s src count)[i] = leAt (memBytes s src (16 * count)) (16 * i) 16 := by simp [routesAt]

theorem mem_routesAt {s : State} {src count e : Nat} (h : e ∈ routesAt s src count) :
    ∃ i < count, leAt (memBytes s src (16 * count)) (16 * i) 16 = e := by
  obtain ⟨i, hi, rfl⟩ := List.mem_map.mp h
  exact ⟨i, List.mem_range.mp hi, rfl⟩

/-- The table of a die with entries written from a location on, and its routes no longer valid (R528). -/
def routesWritten (s : State) (die first : Nat) (entries : List Nat) : State :=
  wf { s with routes := putRoutes s.routes (die * 65536 + first) entries.zipIdx } F.fabRouteCtrl_routeValid die 0 0

theorem routesWritten_effect (s : State) (die first : Nat) (entries : List Nat) :
    Effect [.routes, .reg .fabRouteCtrl] s (routesWritten s die first entries) :=
  (wf_effect ..).step ((setRoutes_effect ..).one (by decide)) (by decide)

theorem routeEntry_routesWritten_same (s : State) (die first : Nat) {entries : List Nat} {i : Nat} (h : i < entries.length) :
    routeEntry (routesWritten s die first entries) die (first + i) = entries[i] := by
  have hkey : die * 65536 + (first + i) = die * 65536 + first + 0 + i := by omega
  rw [routeEntry, hkey]
  exact getD_putRoutes_inside entries (die * 65536 + first) s.routes 0 i h

theorem routeEntry_routesWritten_other (s : State) {die first : Nat} {entries : List Nat} (hfit : first + entries.length ≤ 65536)
    {die' loc : Nat} (hloc : loc < 65536) (h : die' ≠ die ∨ loc < first ∨ first + entries.length ≤ loc) :
    routeEntry (routesWritten s die first entries) die' loc = routeEntry s die' loc :=
  getD_putRoutes_outside entries (die * 65536 + first) (die' * 65536 + loc) s.routes 0 (by omega)

theorem routeValid_routesWritten (s : State) (die first : Nat) (entries : List Nat) :
    rflag (routesWritten s die first entries) F.fabRouteCtrl_routeValid die 0 = false := by
  rw [rflag, show rf (routesWritten s die first entries) F.fabRouteCtrl_routeValid die 0 = 0 from
    (rf_wf_same _ _ _ _ _ (by decide)).trans (Nat.zero_mod _)]
  rfl

theorem Effect.routeEntry_same {w : List Part} {s t : State} (h : Effect w s t) (hw : Part.routes ∉ w) (die loc : Nat) :
    routeEntry t die loc = routeEntry s die loc :=
  congrArg (fun m => Map.getD m (die * 65536 + loc) 0) (h.frame.same .routes hw)

/-! ### The command -/

/-- What the management ring's firmware reads on a die: HBM and the die's shared memory (R590). -/
def reachRoutes (die : Nat) : Region → Bool
  | .hbm => true
  | .shared x => x = die
  | .core _ => false

theorem routeWrite_fieldsOk {s : State} {d : Desc} {reach : Region → Bool} (hres : reservedOk d [(8, 16)] = true)
    (hfirst : d.at_ 8 4 < 65536) (hcount : d.at_ 12 4 < 2 ^ 17) (hfit : d.at_ 8 4 + d.at_ 12 4 ≤ 65536)
    (haddr : addrOk (d.at_ 16 8) = true) (halign : d.at_ 16 8 % 16 = 0)
    (hrange : rangeIn s (d.at_ 16 8) (16 * d.at_ 12 4) reach = true) :
    ¬ (!reservedOk d [(8, 16)] || decide (65536 ≤ d.at_ 8 4) || decide (2 ^ 17 ≤ d.at_ 12 4) ||
      decide (65536 < d.at_ 8 4 + d.at_ 12 4) || !addrOk (d.at_ 16 8) || decide (d.at_ 16 8 % 16 ≠ 0) ||
      !rangeIn s (d.at_ 16 8) (16 * d.at_ 12 4) reach) = true := by
  simp only [hres, haddr, halign, hrange, Bool.not_true, Bool.false_or, Bool.or_false, Bool.or_eq_true, decide_eq_true_eq]
  omega

section
variable {die : Die} {d : Desc} {s s1 : State} (htake : takeDesc s die 32 (fun d => d.type = 0x35) = some (d, s1))
  (hres : reservedOk d [(8, 16)] = true) (hfirst : d.at_ 8 4 < 65536) (hcount : d.at_ 12 4 < 2 ^ 17)
  (hfit : d.at_ 8 4 + d.at_ 12 4 ≤ 65536) (haddr : addrOk (d.at_ 16 8) = true) (halign : d.at_ 16 8 % 16 = 0)
  (hrange : rangeIn s1 (d.at_ 16 8) (16 * d.at_ 12 4) (reachRoutes die) = true)
include htake hres hfirst hcount hfit haddr halign hrange

/-- While a job runs a ROUTE_WRITE is refused (R528). -/
theorem exec_routeWrite_refused (hjob : jobRuns s1 = true) : exec (.routeWrite die .none) s = .next (mgmtDone s1 die d stRefused 0) := by
  show execRouteWrite die .none s = _
  simp only [execRouteWrite, htake]
  refine (if_neg (routeWrite_fieldsOk hres hfirst hcount hfit haddr halign hrange)).trans ?_
  rw [if_pos hjob]

variable (hjob : jobRuns s1 = false)
include hjob

theorem exec_routeWrite_empty (h : d.at_ 12 4 = 0) : exec (.routeWrite die .none) s = .next (mgmtDone s1 die d stEmpty 0) := by
  show execRouteWrite die .none s = _
  simp only [execRouteWrite, htake]
  refine (if_neg (routeWrite_fieldsOk hres hfirst hcount hfit haddr halign hrange)).trans ?_
  rw [if_neg (by simp [hjob]), if_pos h]

/-- Well-formed entries that read well, at ports with nothing outstanding, are written (R528). -/
theorem exec_routeWrite_writes (hcount0 : d.at_ 12 4 ≠ 0) (hread : readsWell s1 (d.at_ 16 8) (16 * d.at_ 12 4))
    (hvis : hiddenIn s1 (d.at_ 16 8) (16 * d.at_ 12 4) = [])
    (hgood : ∀ i < d.at_ 12 4, routeOk (leAt (memBytes s (d.at_ 16 8) (16 * d.at_ 12 4)) (16 * i) 16) = true)
    (hidle : ∀ i < d.at_ 12 4, ∀ p ∈ routePorts (leAt (memBytes s (d.at_ 16 8) (16 * d.at_ 12 4)) (16 * i) 16) ++
      routePorts (routeEntry s die (d.at_ 8 4 + i)), rd s .fabPortOutstanding die p = 0) :
    exec (.routeWrite die .none) s =
      .next (mgmtDone (routesWritten s1 die (d.at_ 8 4) (routesAt s1 (d.at_ 16 8) (d.at_ 12 4))) die d stOk (d.at_ 12 4)) := by
  have heff := takeDesc_effect htake
  have hmem : s1.mem = s.mem := heff.mem_same (by decide)
  have hranges : readRanges s1 .none (visibleIn s1 (d.at_ 16 8) (16 * d.at_ 12 4)) = (none, s1) := by
    simp [visibleIn, hvis, readRanges, readEffects_of_readsWell hread, show failRow s1 .none _ _ = none from hread]
  have hall : ((routesAt s1 (d.at_ 16 8) (d.at_ 12 4)).take (d.at_ 12 4)).all routeOk = true := by
    rw [List.take_of_length_le (by simp)]
    refine List.all_eq_true.mpr fun e he => ?_
    obtain ⟨i, hi, rfl⟩ := mem_routesAt he
    rw [memBytes_of_mem hmem]
    exact hgood i hi
  have hfree : ¬ ((routesAt s1 (d.at_ 16 8) (d.at_ 12 4)).zipIdx.any fun x =>
      (routePorts x.1 ++ routePorts (routeEntry s1 die (d.at_ 8 4 + x.2))).any
        fun p => decide (rd s1 .fabPortOutstanding die p ≠ 0)) = true := by
    simp only [List.any_eq_true, decide_eq_true_eq, not_exists, not_and, not_not]
    intro x hx p hp
    obtain ⟨hi, he⟩ := List.mem_zipIdx' hx
    rw [he, getElem_routesAt, memBytes_of_mem hmem, heff.routeEntry_same (by decide)] at hp
    exact (heff.frame.same (.reg .fabPortOutstanding) (by decide) ..).trans (hidle x.2 (by simpa using hi) p hp)
  show execRouteWrite die .none s = _
  simp only [execRouteWrite, htake]
  refine (if_neg (routeWrite_fieldsOk hres hfirst hcount hfit haddr halign hrange)).trans ?_
  rw [if_neg (by simp [hjob]), if_neg hcount0, hranges, memRead_of_visible hvis]
  refine (if_neg (by simpa only [routesAt, Bool.not_eq_true', Bool.not_eq_false] using hall)).trans ?_
  exact (if_neg (by simp)).trans (if_neg hfree)

end

end Sys2Proof.Machine
end

section
/-! PROOF. The obligation on the management descriptors: SIGNAL (R460, R463), RESTART (R591) and the ledger (R746, R750, R751) beside
RESIDENCY and ROUTE_WRITE. -/

namespace Sys2Proof.Machine

/-! ### SIGNAL (R460, R463) -/

/-- The message that a SIGNAL of a die becomes for an object of its module. -/
def signalMsg (s : State) (die : Nat) (r : SignalReq) : SignalMsg :=
  ⟨r.far, r.index, r.increment, endpoint s die, now s die, now s die + lMinDie⟩

/-- A SIGNAL to a near object of this module goes to the unit of the die it names. -/
theorem sendSignal_near {s : State} {r : SignalReq} (hinc : r.increment ≠ 0) (hnear : r.far = false)
    (hhere : r.endpoint / 2 = location s) (die : Nat) :
    sendSignal s die r = deliverSignal s die (r.endpoint % 2) (signalMsg s die r) := by
  unfold sendSignal
  rw [if_neg hinc, if_pos hhere]
  simp only [hnear, servingDie, Bool.false_and, Bool.false_eq_true, if_false, signalMsg]

theorem exec_signalDescriptor {die : Die} {d : Desc} {s s1 : State} (htake : takeDesc s die 32 (fun d => d.type = 0x34) = some (d, s1))
    (hres : reservedOk d [(8, 8)] = true) (hword : d.at_ 8 8 < 2 ^ 60) (hok : signalOk s1 (d.at_ 8 8) = true) :
    exec (.signalDescriptor die) s =
      .next (finishWith (sendSignal s1 die (signalOf (d.at_ 8 8) 24)) die 32 d stOk) := by
  have hbits : bits (d.at_ 8 8) 63 60 = 0 := by rw [bits, Nat.shiftRight_eq_div_pow, Nat.div_eq_of_lt hword]; rfl
  show execSignalDescriptor die s = _
  simp only [execSignalDescriptor, htake, hres, hbits, hok, Bool.not_true, ne_eq, not_true_eq_false, decide_false, Bool.or_self,
    Bool.false_eq_true, if_false]

/-- A SIGNAL delivered joins the arrivals of its die, or goes on the span bridge to the other one (R35, R454, R666). -/
theorem deliverSignal_delivers {s t : State} {die dest : Nat} (hdie : die < 2) (hdest : dest < 2) (m : SignalMsg)
    (hsync : t.sync = (deliverSignal s die dest m).sync) (hbridge : t.bridge = (deliverSignal s die dest m).bridge) :
    if dest = die then (syncOf t dest).signals = (syncOf s dest).signals ++ [m] ∧ t.bridge = s.bridge
    else t.sync = s.sync ∧ t.bridge = s.bridge ++ [⟨dest, now s die, now s dest + bridgeTicks, .signal m⟩] := by
  unfold deliverSignal at *
  split
  next h =>
    rw [if_pos h] at hsync hbridge
    refine ⟨?_, hbridge⟩
    rw [syncOf, hsync, h]
    exact congrArg SyncUnit.signals (syncOf_setSync_same s die { syncOf s die with signals := (syncOf s die).signals ++ [m] })
  next h =>
    rw [if_neg h] at hsync hbridge
    obtain rfl : dest = 1 - die := by omega
    exact ⟨hsync, hbridge⟩

/-! ### RESTART (R591) -/

theorem exec_restart {d : Desc} {s s1 : State} (htake : takeDesc s 0 32 (fun d => d.type = 0x37) = some (d, s1))
    (hres : reservedOk d [] = true) :
    exec .restart s = .next (finishWith s1 0 32 d (if jobRuns s1 then stRefused else stOk)) := by
  show execRestart s = _
  simp only [execRestart, htake, hres, Bool.not_true, Bool.false_eq_true, if_false]

/-! ### The ledger (R746, R750, R751) -/

section
variable {r : LedgerRec} {rest : List LedgerRec} {s : State} (hnext : s.flt.pendingRecs = r :: rest) (hfree : s.tru.saved = none)
include hnext hfree

/-- The state in which the oldest record on its way has become the last of the active region. -/
def recordKept (s : State) (r : LedgerRec) (rest : List LedgerRec) : State :=
  irq (ledgerStore { s with flt := { ledgerAppend s.flt r with pendingRecs := rest } }) (chanSource r.kind r.channel).1 8 2

theorem exec_ledgerDurable_keeps (h : ledgerFull s.flt = true → s.flt.spare = ledgerDeciding s.flt.ledger) :
    exec .ledgerDurable s = .next (recordKept s r rest) := by
  show execLedgerDurable s = _
  simp only [execLedgerDurable, hnext, hfree]
  refine (if_neg (by simp)).trans (if_neg ?_)
  simpa using h

theorem exec_ledgerDurable_spare (hfull : ledgerFull s.flt = true) (hspare : s.flt.spare ≠ ledgerDeciding s.flt.ledger) :
    exec .ledgerDurable s = .next (writeSpare s) := by
  show execLedgerDurable s = _
  simp only [execLedgerDurable, hnext, hfree]
  exact (if_neg (by simp)).trans (if_pos (by simpa [hfull] using hspare))

end

theorem flt_recordKept (s : State) (r : LedgerRec) (rest : List LedgerRec) :
    (recordKept s r rest).flt = { ledgerAppend s.flt r with pendingRecs := rest } :=
  (irq_effect ..).frame.same .flt (by decide)

theorem recordKept_pends (s : State) (r : LedgerRec) (rest : List LedgerRec) :
    Pends (recordKept s r rest) (chanSource r.kind r.channel).1 8 2 :=
  irq_pends _ (by rw [icuValid_eight]; decide) (by decide)

/-! ### The obligation, a descriptor at a time -/

/-- What is queued on the management ring as a descriptor completes. -/
theorem mgmtDone_completedWith (s : State) (die : Nat) (d : Desc) (status count : Nat) :
    CompletedWith (mgmtDone s die d status count) die 32 d status count := finish_completedWith ..

theorem CompletedWith.completed {t : State} {die n : Nat} {d : Desc} {status count : Nat}
    (h : CompletedWith t die n d status count) : Completed t die n d status := by
  obtain ⟨c, hc, hk, htag, hkind, hstatus, _⟩ := h
  exact ⟨c, hc, hk, htag, hkind, hstatus⟩

section
variable {d : Desc} {s s1 : State} {die n : Nat} {want : Desc → Bool} (htake : takeDesc s die n want = some (d, s1))
include htake

/-- From a descriptor's ring, through an operation, to its completion: all but the parts of both is as before. -/
theorem mgmtDone_taken {w : List Part} {t : State} (h : Effect w s1 t) (die' status count : Nat) :
    Effect (w ++ mgmtDone_parts) s (mgmtDone t die' d status count) := by
  have hin : ∀ p ∈ mgmtDone_parts, p ∈ w ++ mgmtDone_parts := fun p hp => List.mem_append_right _ hp
  have hrings : ∀ p ∈ [Part.rings], p ∈ w ++ mgmtDone_parts := fun p hp => hin p (by rw [List.mem_singleton.mp hp]; decide)
  exact ((takeDesc_effect htake).mono_mem hrings).trans
    ((h.mono_mem fun p hp => List.mem_append_left _ hp).trans ((mgmtDone_effect ..).mono_mem hin))

end

/-- RESIDENCY as it completes. -/
theorem residency_sets {d : Desc} {s s1 : State} {want : Desc → Bool} (htake : takeDesc s 0 32 want = some (d, s1)) {n base len : Nat}
    (hn : n ≤ 15) (hbase : base < 2 ^ 48) (hlen : len < 2 ^ 40) :
    let t := mgmtDone (windowSet s1 n base len) 0 d stOk 0
    rd t .spmResWindow 0 n = windowWord base len ∧
      (∀ i < 16, i ≠ n → rd t .spmResWindow 0 i = rd s .spmResWindow 0 i) ∧
      rf t F.spmResStatus_windows 0 0 = (windows t).length ∧ Completed t 0 32 d stOk ∧ t.mem = s.mem := by
  intro t
  have hdone := mgmtDone_effect (windowSet s1 n base len) 0 d stOk 0
  have hreg : ∀ i, rd t .spmResWindow 0 i = rd (windowSet s1 n base len) .spmResWindow 0 i :=
    hdone.frame.same (.reg .spmResWindow) (by decide) 0
  refine ⟨(hreg n).trans (rd_windowSet_same s1 n hbase hlen), fun i hi hne => ?_, ?_, (mgmtDone_completedWith ..).completed,
    (mgmtDone_taken htake (windowSet_effect s1 n base len) ..).mem_same (by decide)⟩
  · rw [hreg, rd_windowSet_ne s1 hn hi hne]
    exact (takeDesc_effect htake).frame.same (.reg .spmResWindow) (by decide) 0 i
  · rw [hdone.field_same F.spmResStatus_windows (by decide), hdone.windows_same (by decide), rf_windowSet]

/-- ROUTE_WRITE as it completes. -/
theorem routeWrite_writes {die : Die} {d : Desc} {s s1 : State} {want : Desc → Bool} (htake : takeDesc s die 32 want = some (d, s1))
    {first count src : Nat} (hfit : first + count ≤ 65536) :
    let t := mgmtDone (routesWritten s1 die first (routesAt s1 src count)) die d stOk count
    (∀ i < count, routeEntry t die (first + i) = leAt (memBytes s src (16 * count)) (16 * i) 16) ∧
      (∀ d' < 2, ∀ loc < 65536, (d' ≠ die.val ∨ loc < first ∨ first + count ≤ loc) → routeEntry t d' loc = routeEntry s d' loc) ∧
      rflag t F.fabRouteCtrl_routeValid die 0 = false ∧ CompletedWith t die 32 d stOk count ∧ t.mem = s.mem := by
  intro t
  have hdone := mgmtDone_effect (routesWritten s1 die first (routesAt s1 src count)) die d stOk count
  have hentry : ∀ die' loc, routeEntry t die' loc = routeEntry (routesWritten s1 die first (routesAt s1 src count)) die' loc :=
    hdone.routeEntry_same (by decide)
  have hmem : s1.mem = s.mem := (takeDesc_effect htake).mem_same (by decide)
  refine ⟨fun i hi => ?_, fun die' _ loc hloc hother => ?_, ?_, mgmtDone_completedWith ..,
    (mgmtDone_taken htake (routesWritten_effect ..) ..).mem_same (by decide)⟩
  · rw [hentry, routeEntry_routesWritten_same _ _ _ (by simpa using hi), getElem_routesAt, memBytes_of_mem hmem]
  · rw [hentry, routeEntry_routesWritten_other s1 (by simpa using hfit) hloc (by simpa using hother)]
    exact (takeDesc_effect htake).routeEntry_same (by decide) ..
  · rw [rflag, hdone.field_same _ (by decide)]
    exact routeValid_routesWritten ..

/-- A SIGNAL descriptor as it completes. -/
theorem signalDescriptor_sends {die : Die} {d : Desc} {s s1 : State} {want : Desc → Bool} (htake : takeDesc s die 32 want = some (d, s1))
    {r : SignalReq} (hinc : r.increment ≠ 0) (hnear : r.far = false) (hhere : r.endpoint / 2 = location s) :
    let t := finishWith (sendSignal s1 die r) die 32 d stOk
    (∃ m : SignalMsg, m.far = false ∧ m.index = r.index ∧ m.increment = r.increment ∧
      let dest := r.endpoint % 2
      if dest = die then (syncOf t dest).signals = (syncOf s dest).signals ++ [m] ∧ t.bridge = s.bridge
      else t.sync = s.sync ∧ t.bridge = s.bridge ++ [⟨dest, now s die, now s dest + bridgeTicks, .signal m⟩]) ∧
    Completed t die 32 d stOk ∧ t.mem = s.mem := by
  intro t
  have heff := takeDesc_effect htake
  have hplace : location s1 = location s := heff.field_same F.ctlDieInfo_moduleLocation (by decide) ..
  have hnow : ∀ x, now s1 x = now s x := fun x => heff.frame.same (.reg .sidCount) (by decide) x 0
  have hsync : s1.sync = s.sync := heff.frame.same .sync (by decide)
  have hbridge : s1.bridge = s.bridge := heff.frame.same .bridge (by decide)
  have hsent := sendSignal_near hinc hnear (hhere.trans hplace.symm) die
  have hdone := finishWith_effect (sendSignal s1 die r) die 32 d stOk
  refine ⟨⟨signalMsg s1 die r, hnear, rfl, rfl, ?_⟩, finishWith_completed .., ?_⟩
  · have hgone := deliverSignal_delivers (s := s1) (die := die) (dest := r.endpoint % 2) (t := t) die.isLt
      (Nat.mod_lt _ (by decide)) (signalMsg s1 die r) (hsent ▸ hdone.frame.same .sync (by decide))
      (hsent ▸ hdone.frame.same .bridge (by decide))
    rwa [syncOf, syncOf, hsync, hbridge, hnow, hnow] at hgone
  · exact (hdone.mem_same (by decide)).trans (((sendSignal_effect ..).mem_same (by decide)).trans (heff.mem_same (by decide)))

theorem ledgerFull_iff (s : State) : ledgerFull s.flt = true ↔ 32768 ≤ s.flt.ledger.length := decide_eq_true_iff

/-- LEDGER_DURABLE as the record is kept. -/
theorem recordKept_keeps (s : State) (r : LedgerRec) (rest : List LedgerRec) :
    let full := 32768 ≤ s.flt.ledger.length
    let t := recordKept s r rest
    t.flt.ledger = (if full then ledgerDeciding s.flt.ledger else s.flt.ledger) ++ [r] ∧
      t.flt.region = (if full then 1 - s.flt.region else s.flt.region) ∧ t.flt.pendingRecs = rest ∧
      Pends t (chanSource r.kind r.channel).1 8 2 := by
  intro full t
  refine ⟨?_, ?_, ?_, recordKept_pends ..⟩ <;> rw [flt_recordKept, ledgerAppend]
  · simp only [ledgerFull_iff, full, ledgerSwitch]
    split <;> rfl
  · simp only [ledgerFull_iff, full, ledgerSwitch]
    split <;> rfl

/-- Settles O38: each descriptor's checks let it through or complete it, and its one operation and its completion are all it does. -/
theorem managementDescriptorsComplete : Obligations.ManagementDescriptorsComplete := by
  have hdone := fun (s : State) die d status count => (mgmtDone_completedWith s die d status count).completed
  refine ⟨fun d s s1 htake hres hn haddr hbase hlen hrange hapart =>
      ⟨fun hjob hkey hoffer => ⟨_, exec_residency_sets htake hres hn haddr hbase hlen hrange hapart hjob hkey hoffer,
        residency_sets htake hn (of_decide_eq_true haddr) (rangeOk_lt hrange)⟩,
      fun hstop => ⟨_, exec_residency_refused htake hres hn haddr hbase hlen hrange hapart hstop, hdone .., ?_⟩⟩,
    fun die d s s1 htake hres hfirst hcount hfit haddr halign hrange =>
      ⟨fun hjob => ⟨_, exec_routeWrite_refused htake hres hfirst hcount hfit haddr halign hrange hjob, hdone .., ?_⟩,
      fun hjob h0 => ⟨_, exec_routeWrite_empty htake hres hfirst hcount hfit haddr halign hrange hjob h0, hdone .., ?_⟩,
      fun hjob h0 hread hvis hgood hidle => ⟨_, exec_routeWrite_writes htake hres hfirst hcount hfit haddr halign hrange hjob h0 hread
        hvis hgood hidle, routeWrite_writes htake hfit⟩⟩,
    fun die d s s1 htake hres hword hok hinc hnear hhere => ⟨_, exec_signalDescriptor htake hres hword hok,
      signalDescriptor_sends htake hinc hnear hhere⟩,
    fun d s s1 htake hres => ⟨_, exec_restart htake hres, ?_⟩,
    fun r rest s hnext hfree =>
      ⟨fun hspare => ⟨_, exec_ledgerDurable_keeps hnext hfree (hspare ∘ (ledgerFull_iff s).mp), recordKept_keeps s r rest⟩,
      fun hfull hspare => ⟨_, exec_ledgerDurable_spare hnext hfree ((ledgerFull_iff s).mpr hfull) hspare, rfl, rfl, rfl, rfl⟩⟩⟩
  · have hsame := mgmtDone_taken htake (.refl [] s1) 0 stRefused 0
    exact ⟨hsame.mem_same (by decide), hsame.frame.same (.reg .spmResWindow) (by decide) 0⟩
  · exact (mgmtDone_taken htake (.refl [] s1) die stRefused 0).frame.same .routes (by decide)
  · exact (mgmtDone_taken htake (.refl [] s1) die stEmpty 0).frame.same .routes (by decide)
  · obtain ⟨hcompleted, _, hmem⟩ := finishWith_taken htake (if jobRuns s1 then stRefused else stOk)
    have hrestart := (finishWith_effect s1 0 32 d (if jobRuns s1 then stRefused else stOk)).frame.same .restart (by decide)
    exact ⟨hcompleted, hrestart.trans ((takeDesc_effect htake).frame.same .restart (by decide)), hmem⟩

end Sys2Proof.Machine
end

section
/-! PROOF. The snoop filter (R432, R433): a line granted to the host, and one that leaves the filter with the writes that waited for it. -/

set_option Elab.async false

namespace Sys2Proof.Machine

/-! ### Multicasts that waited for a write (R468) -/

theorem endpoint_half (s : State) {die : Nat} (hdie : die < 2) : endpoint s die / 2 = location s := by
  unfold endpoint
  omega

/-- A multicast whose bytes have landed signals its own die and answers its sender: no record is written. -/
theorem mcastDone_quiet (s : State) {die : Nat} (hdie : die < 2) (p : Packet) (run : McastRun) :
    Effect [.bridge, .sync, .flowsTx] s (mcastDone s die p run) := by
  unfold mcastDone
  rw [sendSignal_near (r := ⟨false, endpoint s die, run.recv, 1, 24⟩) Nat.one_ne_zero rfl (endpoint_half s hdie)]
  exact (respond_effect ..).step ((deliverSignal_effect ..).one (by decide)) (by decide)

theorem mcastSettle_quiet (s : State) : Effect [.bridge, .sync, .flowsTx, .mcasts] s (mcastSettle s) := by
  refine .foldl _ (fun s e => ?_) _ s
  split
  next p _ =>
    refine .ite (.refl ..) ?_
    exact (mcastDone_quiet _ (Nat.mod_lt _ (by decide)) p e.2.run).step (effect_set_mcasts _ (by decide) (.refl ..)) (by decide)
  · exact .refl ..

/-! ### A line that leaves the filter (R433) -/

/-- The bytes of held writes put in place. -/
def landHeldBytes (m : Map Byte) (l : Map Byte) : Map Byte := l.foldl (fun m e => putByte m e.1 e.2) m

/-- A line gone from the filter, with the writes that waited for it in place. -/
def lineLanded (s : State) (die line : Nat) : State :=
  { s with
    snoop := Map.put s.snoop die ((snoopOf s die).filter fun l => l ≠ line)
    heldWrites := s.heldWrites.filter fun w => w.1 ≠ line
    mem := (s.heldWrites.filter fun w => w.1 = line).foldl (fun m w => landHeldBytes m w.2) s.mem }

theorem foldl_setMem (l : List (Nat × Map Byte)) : ∀ s : State,
    l.foldl (fun s w => { s with mem := landHeldBytes s.mem w.2 }) s =
      { s with mem := l.foldl (fun m w => landHeldBytes m w.2) s.mem } := by
  induction l with
  | nil => exact fun _ => rfl
  | cons w rest ih => exact fun s => ih _

theorem releaseLine_eq (s : State) (die line : Nat) : releaseLine s die line = mcastSettle (lineLanded s die line) :=
  congrArg mcastSettle (foldl_setMem ..)

theorem lineLanded_effect (s : State) (die line : Nat) : Effect [.snoop, .heldWrites, .mem] s (lineLanded s die line) := by
  refine ⟨⟨fun p hp => ?_⟩, fun h => ⟨?_, h.2⟩, id⟩
  · cases p with
    | snoop | heldWrites | mem => exact absurd (by decide) hp
    | reg r => exact fun _ _ => rfl
    | _ => rfl
  · exact bytesWf_foldl _ (fun _ _ => bytesWf_foldl _ (fun _ _ => bytesWf_putByte _ _) _ _) _ _ h.1

/-- What the parts are that a line's leaving may change. -/
abbrev releaseLine_quietParts : List Part := [.bridge, .sync, .flowsTx, .mcasts, .snoop, .heldWrites, .mem]

theorem releaseLine_quiet (s : State) (die line : Nat) : Effect releaseLine_quietParts s (releaseLine s die line) := by
  rw [releaseLine_eq]
  exact (mcastSettle_quiet _).step ((lineLanded_effect ..).one (by decide)) (by decide)

theorem snoopOf_releaseLine (s : State) (die line : Nat) :
    snoopOf (releaseLine s die line) die = (snoopOf s die).filter fun l => l ≠ line := by
  rw [releaseLine_eq, snoopOf, show (mcastSettle (lineLanded s die line)).snoop = (lineLanded s die line).snoop from
    (mcastSettle_quiet _).frame.same .snoop (by decide)]
  show Map.getD (Map.put s.snoop die _) die [] = _
  rw [Map.getD, Map.find_put_same]
  rfl

theorem heldWrites_releaseLine (s : State) (die line : Nat) :
    (releaseLine s die line).heldWrites = s.heldWrites.filter fun w => w.1 ≠ line := by
  rw [releaseLine_eq]
  exact (mcastSettle_quiet _).frame.same .heldWrites (by decide)

theorem mem_releaseLine (s : State) (die line : Nat) : (releaseLine s die line).mem =
    (s.heldWrites.filter fun w => w.1 = line).foldl (fun m w => landHeldBytes m w.2) s.mem := by
  rw [releaseLine_eq]
  exact (mcastSettle_quiet _).mem_same (by decide)

/-! ### Held bytes in place -/

theorem getD_landHeldBytes_outside {a : Nat} (l : Map Byte) (h : ∀ e ∈ l, e.1 ≠ a) : ∀ m : Map Byte,
    Map.getD (landHeldBytes m l) a 0 = Map.getD m a 0 := by
  induction l with
  | nil => exact fun _ => rfl
  | cons e rest ih =>
    intro m
    show Map.getD (landHeldBytes (putByte m e.1 e.2) rest) a 0 = _
    rw [ih (fun x hx => h x (List.mem_cons_of_mem _ hx)), getD_putByte_ne _ _ _ _ (h e (List.mem_cons_self ..)).symm]

/-- Each byte of a write whose addresses rise reads back. -/
theorem getD_landHeldBytes_inside (l : Map Byte) : Map.rising l = true → ∀ e ∈ l, ∀ m : Map Byte,
    Map.getD (landHeldBytes m l) e.1 0 = e.2 := by
  induction l with
  | nil => exact fun _ e he => absurd he (List.not_mem_nil)
  | cons x rest ih =>
    obtain ⟨k, v⟩ := x
    intro hrise e he m
    obtain ⟨hfirst, hrest⟩ := (Map.rising_cons k v rest).mp hrise
    show Map.getD (landHeldBytes (putByte m k v) rest) e.1 0 = e.2
    rcases List.mem_cons.mp he with rfl | he
    · rw [getD_landHeldBytes_outside rest (fun x hx => (hfirst x hx).ne')]
      exact getD_putByte_same ..
    · exact ih hrest e he _

theorem getD_landHeld_outside {a : Nat} (l : List (Nat × Map Byte)) (h : ∀ w ∈ l, ∀ e ∈ w.2, e.1 ≠ a) : ∀ m : Map Byte,
    Map.getD (l.foldl (fun m w => landHeldBytes m w.2) m) a 0 = Map.getD m a 0 := by
  induction l with
  | nil => exact fun _ => rfl
  | cons w rest ih =>
    intro m
    rw [List.foldl_cons, ih (fun x hx => h x (List.mem_cons_of_mem _ hx)),
      getD_landHeldBytes_outside w.2 (h w (List.mem_cons_self ..))]

/-! ### A line granted (R432) -/

theorem grantLine_quiet (s : State) (die line : Nat) : Effect releaseLine_quietParts s (grantLine s die line) := by
  unfold grantLine
  split
  · exact .refl ..
  · extract_lets s'
    refine effect_set_snoop _ (by decide) ?_
    exact .ite (releaseLine_quiet ..) (.refl ..)

theorem mem_snoopOf_grantLine (s : State) (die line : Nat) : line ∈ snoopOf (grantLine s die line) die := by
  unfold grantLine
  split
  next h => simpa using h
  · extract_lets s'
    show line ∈ Map.getD (Map.put s'.snoop die (snoopOf s' die ++ [line])) die []
    rw [Map.getD, Map.find_put_same]
    exact List.mem_append_right _ (List.mem_singleton_self line)

/-- A filter that is not full lets no line go. -/
theorem mem_grantLine {s : State} {die : Nat} (h : (snoopOf s die).length < 2 ^ 20) (line : Nat) : (grantLine s die line).mem = s.mem := by
  unfold grantLine
  split
  · rfl
  · rw [if_neg (Nat.not_le.mpr h)]

/-! ### A kill that waits (R597) -/

theorem killSettle_of_not_ending {s : State} (h : jobState s ≠ 3) : killSettle s = s := by
  unfold killSettle
  extract_lets busy
  exact if_pos (by simp [h])

end Sys2Proof.Machine
end

section
/-! PROOF. CXL.mem accesses (R44, R408, R409, R426 to R434): the state in which an access is served, what its sectors answer, and what a
write leaves. -/

set_option Elab.async false

namespace Sys2Proof.Machine

/-! ### What decides how an access is served -/

section
variable {w : List Part} {s t : State} (h : Effect w s t)
include h

theorem Effect.usableHbm_same (hw : Part.unusable ∉ w) : usableHbm t = usableHbm s := by
  rw [usableHbm, show t.unusable = s.unusable from h.frame.same .unusable hw, usableHbm]

theorem Effect.hbmPlace_same (hw : Part.unusable ∉ w) (a : Nat) : hbmPlace t a = hbmPlace s a := by
  unfold hbmPlace usableList
  rw [show t.unusable = s.unusable from h.frame.same .unusable hw]

theorem Effect.inFarTable_same (hstate : Part.reg .jobStatus ∉ w) (hjob : Part.job ∉ w) (a len : Nat) :
    inFarTable t a len = inFarTable s a len := by
  rw [inFarTable, h.jobRuns_same hstate, show t.job = s.job from h.frame.same .job hjob, inFarTable]

theorem Effect.powerState_same (hw : Part.reg .pwrStatus ∉ w) : powerState t = powerState s := h.field_same F.pwrStatus_state hw ..

theorem Effect.recorded_of (hw : Part.reg .ephSeq ∉ w) {u : State} {die : Nat} (hrec : Recorded t u die) : Recorded s u die := by
  unfold Recorded at *
  rwa [h.frame.same (.reg .ephSeq) hw] at hrec

theorem Effect.of_recorded (hw : Part.reg .ephSeq ∉ w) {u : State} {die : Nat} (hrec : Recorded u s die) : Recorded u t die := by
  unfold Recorded at *
  rwa [h.frame.same (.reg .ephSeq) hw]

end

theorem regionOf_of_hbm {s : State} {a : Nat} (h : a < usableHbm s) : regionOf s a = some .hbm := by
  unfold regionOf
  rw [if_pos h]

/-- The channel of a sector of HBM follows from the usable list alone. `rowChan` is taken as a function before it meets its arguments, as
in `rowChan_cases`. -/
theorem rowChan_of_hbm {s : State} {a : Nat} (h : a < usableHbm s) :
    rowChan s a = ⟨kHbm, (hbmPlace s a).1, (hbmPlace s a).1 / 192, (hbmPlace s a).1, (hbmPlace s a).2 / 32⟩ := by
  have key : ∃ f, rowChan = f ∧ ∀ s a, regionOf s a = some .hbm →
      f s a = ⟨kHbm, (hbmPlace s a).1, (hbmPlace s a).1 / 192, (hbmPlace s a).1, (hbmPlace s a).2 / 32⟩ := by
    refine ⟨?f, ?unfolded, ?hbm⟩
    case unfolded => delta rowChan; rfl
    case hbm =>
      intro s a hregion
      rw [hregion]
  obtain ⟨f, rfl, hf⟩ := key
  exact hf s a (regionOf_of_hbm h)

/-! ### Nap is left (R44) -/

theorem powerState_setPwrStatus (s : State) {v : Nat} (hv : v < 8) : powerState (setPwrStatus s F.pwrStatus_state v) = v := by
  unfold setPwrStatus
  split
  next h => exact h
  · extract_lets s1
    rw [(countRec_effect ..).powerState_same (by decide)]
    exact (rf_wf_same s F.pwrStatus_state 0 0 v (by decide)).trans (Nat.mod_eq_of_lt hv)

theorem powerState_wakeFree {s : State} (h : powerState s = pwrNap) : powerState (wakeFree s) = pwrIdle := by
  have hnow : ∀ u : State, powerState u = pwrNap → powerState (wakeNow u) = pwrIdle := by
    intro u hu
    unfold wakeNow
    rw [if_neg (by simpa using hu)]
    extract_lets s1
    rw [(clockStart_effect ..).powerState_same (by decide), (clockStart_effect ..).powerState_same (by decide)]
    exact powerState_setPwrStatus _ (by decide)
  unfold wakeFree wakeTrained
  rw [if_neg (by simpa using h), (sourceSettle_effect ..).powerState_same (by decide), (trainPorts_effect ..).powerState_same (by decide)]
  exact hnow _ h

/-! ### Reads -/

/-- What a CXL.mem read answers. -/
def cxlAnswered (s : State) (data : Bytes) (poison : Bool) : State :=
  { s with answers := { s.answers with cxlData := data, cxlPoison := poison } }

theorem cxlAnswered_effect (s : State) (data : Bytes) (poison : Bool) : Effect [.answers] s (cxlAnswered s data poison) :=
  setAnswers_effect ..

/-- An answer of memory's bytes is of the memory it leaves. -/
theorem cxlData_cxlAnswered (s : State) (addr : Nat) (poison : Bool) :
    let t := cxlAnswered s (memBytes s addr 64) poison
    t.answers.cxlData = memBytes t addr 64 := rfl

/-! The answer itself touches nothing else that the statements speak of. -/

theorem mem_cxlAnswered (s : State) (data : Bytes) (poison : Bool) : (cxlAnswered s data poison).mem = s.mem := rfl

theorem snoopOf_cxlAnswered (s : State) (data : Bytes) (poison : Bool) : snoopOf (cxlAnswered s data poison) = snoopOf s := rfl

theorem powerState_cxlAnswered (s : State) (data : Bytes) (poison : Bool) : powerState (cxlAnswered s data poison) = powerState s := rfl

theorem cxlAnswered_recorded {s u : State} {die : Nat} (h : Recorded s u die) (data : Bytes) (poison : Bool) :
    Recorded s (cxlAnswered u data poison) die := h

theorem cxlAnswered_pends {s : State} {die group source : Nat} (h : Pends s die group source) (data : Bytes) (poison : Bool) :
    Pends (cxlAnswered s data poison) die group source := h

/-- The state in which a read is served: Nap is left, and the line stands in its die's filter. -/
def lineGranted (s : State) (addr : Nat) : State := grantLine (wakeFree s) ((hbmPlace (wakeFree s) addr).1 / 192) (addr / 64)

theorem lineGranted_quiet (s : State) (addr : Nat) : Effect releaseLine_quietParts (wakeFree s) (lineGranted s addr) :=
  grantLine_quiet ..

/-- The parts that waking and granting a line may change. -/
abbrev lineGranted_parts : List Part := wakeFree_parts ++ releaseLine_quietParts

theorem lineGranted_effect (s : State) (addr : Nat) : Effect lineGranted_parts s (lineGranted s addr) :=
  (lineGranted_quiet ..).step ((wakeFree_effect ..).one (by decide)) (by decide)

theorem sectorClean {s : State} {a : Nat} (h : a ∉ s.poison) : cxlSector s a .clean = (false, s) := by
  have hread : sectorRead s a .clean = (false, s) := by
    simp [sectorRead, ReadOutcome.clean, ReadTry.good, ReadTry.fails, tryEffects, h]
  rw [cxlSector, hread]
  rfl

/-- A sector that fails twice is poison to the reader, and is counted (R426). -/
theorem sectorFailed (s : State) (a : Nat) : cxlSector s a (.failed false) =
    (true, bump (rowFail s a) F.hbmCxlPoisonCount_count (rowChan (rowFail s a) a).die 0 1) := by
  have hread : sectorRead s a (.failed false) = (true, rowFail s a) := by
    simp [sectorRead, ReadOutcome.failed, ReadTry.bad, ReadTry.fails, tryEffects]
  rw [cxlSector, hread]
  rfl

/-- The line's first sector failed twice: its failure counted, and the poison that the reader gets. -/
def sectorLost (s : State) (addr : Nat) : State :=
  bump (rowFail (lineGranted s addr) addr) F.hbmCxlPoisonCount_count (rowChan (rowFail (lineGranted s addr) addr) addr).die 0 1

theorem sectorLost_effect (s : State) (addr : Nat) :
    Effect (lineGranted_parts ++ rowFail_parts ++ [.reg .hbmCxlPoisonCount]) s (sectorLost s addr) :=
  (bump_effect ..).step ((rowFail_effect ..).step ((lineGranted_effect ..).one (by decide)) (by decide)) (by decide)

section
variable {addr : Nat} {s : State} (a b : ReadOutcome) (hreach : memReaches s = true)
include hreach

/-- A read that reaches the module is served in the state it leaves when Nap is left and its line granted. -/
theorem exec_cxlMemRead : exec (.cxlMemRead addr a b) s =
    if usableHbm (wakeFree s) ≤ addr then .next (cxlAnswered (memRefused (wakeFree s) addr) (List.replicate 64 0) true)
    else
      let u := killSettle (lineGranted s addr)
      if (decide (jobState (wakeFree s) = 3) || inFarTable u addr 64) = true then .next (cxlAnswered u (List.replicate 64 0) false)
      else if hiddenIn u addr 64 ≠ [] then .next (cxlAnswered (tagRefused u .host addr) (List.replicate 64 0) false)
      else
        let x := cxlSector u addr a
        let y := cxlSector x.2 (addr + 32) b
        .next (cxlAnswered y.2 (memBytes y.2 addr 64) (x.1 || y.1)) := by
  show execCxlMemRead addr a b s = _
  unfold execCxlMemRead
  exact if_neg (by simp [hreach])

/-- At or above the usable size (R434). -/
theorem exec_cxlMemRead_above (h : usableHbm s ≤ addr) : exec (.cxlMemRead addr a b) s =
    .next (cxlAnswered (memRefused (wakeFree s) addr) (List.replicate 64 0) true) :=
  (exec_cxlMemRead a b hreach).trans (if_pos (by rwa [(wakeFree_effect s).usableHbm_same (by decide)]))

variable (hbelow : addr < usableHbm s)
include hbelow

/-- While the job ends (R409). -/
theorem exec_cxlMemRead_ending (h : jobState s = 3) : exec (.cxlMemRead addr a b) s =
    .next (cxlAnswered (killSettle (lineGranted s addr)) (List.replicate 64 0) false) := by
  refine (exec_cxlMemRead a b hreach).trans ((if_neg ?_).trans (if_pos ?_))
  · rw [(wakeFree_effect s).usableHbm_same (by decide)]
    omega
  · rw [(wakeFree_effect s).jobState_same (by decide)]
    simp [h]

variable (hjob : jobState s ≠ 3) (hfar : inFarTable s addr 64 = false)
include hjob hfar

theorem exec_cxlMemRead_granted : exec (.cxlMemRead addr a b) s =
    if hiddenIn s addr 64 ≠ [] then
      .next (cxlAnswered (tagRefused (lineGranted s addr) .host addr) (List.replicate 64 0) false)
    else
      let x := cxlSector (lineGranted s addr) addr a
      let y := cxlSector x.2 (addr + 32) b
      .next (cxlAnswered y.2 (memBytes y.2 addr 64) (x.1 || y.1)) := by
  have heff := lineGranted_effect s addr
  have hsettled : killSettle (lineGranted s addr) = lineGranted s addr :=
    killSettle_of_not_ending (by rwa [heff.jobState_same (by decide)])
  refine (exec_cxlMemRead a b hreach).trans ((if_neg ?_).trans ?_)
  · rw [(wakeFree_effect s).usableHbm_same (by decide)]
    omega
  · dsimp only
    rw [hsettled, heff.inFarTable_same (by decide) (by decide), hfar, (wakeFree_effect s).jobState_same (by decide),
      heff.hiddenIn_same (by decide)]
    exact if_neg (by simp [hjob])

/-- In a tagged window (R408). -/
theorem exec_cxlMemRead_hidden (h : hiddenIn s addr 64 ≠ []) : exec (.cxlMemRead addr a b) s =
    .next (cxlAnswered (tagRefused (lineGranted s addr) .host addr) (List.replicate 64 0) false) :=
  (exec_cxlMemRead_granted a b hreach hbelow hjob hfar).trans (if_pos h)

variable (hvis : hiddenIn s addr 64 = []) (hlow : addr ∉ s.poison) (hhigh : addr + 32 ∉ s.poison)
include hvis hhigh

theorem exec_cxlMemRead_failed : exec (.cxlMemRead addr (.failed false) .clean) s =
    .next (cxlAnswered (sectorLost s addr) (memBytes (sectorLost s addr) addr 64) true) := by
  have hpoison : (sectorLost s addr).poison = s.poison := (sectorLost_effect ..).frame.same .poison (by decide)
  have hclean : cxlSector (sectorLost s addr) (addr + 32) .clean = (false, sectorLost s addr) := sectorClean (by rwa [hpoison])
  refine (exec_cxlMemRead_granted _ _ hreach hbelow hjob hfar).trans ((if_neg (by simp [hvis])).trans ?_)
  rw [sectorFailed, ← sectorLost]
  simp only [hclean, Bool.or_false]

include hlow

/-- Of two good sectors (R432). -/
theorem exec_cxlMemRead_clean : exec (.cxlMemRead addr .clean .clean) s =
    .next (cxlAnswered (lineGranted s addr) (memBytes (lineGranted s addr) addr 64) false) := by
  have hpoison : (lineGranted s addr).poison = s.poison := (lineGranted_effect s addr).frame.same .poison (by decide)
  refine (exec_cxlMemRead_granted _ _ hreach hbelow hjob hfar).trans ((if_neg (by simp [hvis])).trans ?_)
  simp only [sectorClean (show addr ∉ (lineGranted s addr).poison by rwa [hpoison]),
    sectorClean (show addr + 32 ∉ (lineGranted s addr).poison by rwa [hpoison]), Bool.or_false]

end

/-! ### What a read leaves -/

/-- A refusal of R434 is recorded on die 0. -/
theorem memRefused_recorded (s : State) (addr : Nat) : Recorded s (memRefused s addr) 0 := emit_recorded s 0 0x20 0 _ 0 _

/-- A refusal of R408 is recorded on die 0 and raises source 5 of group 8 there (log entry 15). -/
theorem tagRefused_recorded (s : State) (m : Master) (addr : Nat) : Recorded s (tagRefused s m addr) 0 :=
  (irq_effect ..).of_recorded (by decide) (emit_recorded s 0 0x20 0 _ 0 _)

theorem tagRefused_pends (s : State) (m : Master) (addr : Nat) : Pends (tagRefused s m addr) 0 8 5 :=
  irq_pends _ (by rw [icuValid_eight]; decide) (by decide)

theorem mem_snoopOf_lineGranted (s : State) (addr : Nat) :
    addr / 64 ∈ snoopOf (lineGranted s addr) ((hbmPlace s addr).1 / 192) := by
  rw [← (wakeFree_effect s).hbmPlace_same (by decide)]
  exact mem_snoopOf_grantLine ..

theorem mem_lineGranted {s : State} {addr : Nat} (h : (snoopOf s ((hbmPlace s addr).1 / 192)).length < 2 ^ 20) :
    (lineGranted s addr).mem = s.mem := by
  have hwake := wakeFree_effect s
  have hsnoop : snoopOf (wakeFree s) = snoopOf s := by
    unfold snoopOf
    rw [show (wakeFree s).snoop = s.snoop from hwake.frame.same .snoop (by decide)]
  refine (mem_grantLine ?_ _).trans (hwake.mem_same (by decide))
  rwa [hsnoop, hwake.hbmPlace_same (by decide)]

theorem powerState_lineGranted {s : State} (addr : Nat) (h : powerState s = pwrNap) : powerState (lineGranted s addr) = pwrIdle :=
  ((lineGranted_quiet s addr).powerState_same (by decide)).trans (powerState_wakeFree h)

/-- The failed sector is counted on its die. -/
theorem sectorLost_counts {s : State} {addr : Nat} (h : addr < usableHbm s) :
    Counts s (sectorLost s addr) F.hbmCxlPoisonCount_count (rowChan s addr).die 0 1 := by
  have heff : Effect (lineGranted_parts ++ rowFail_parts) s (rowFail (lineGranted s addr) addr) :=
    (rowFail_effect ..).step ((lineGranted_effect ..).one (by decide)) (by decide)
  have hdie : (rowChan (rowFail (lineGranted s addr) addr) addr).die = (rowChan s addr).die := by
    rw [rowChan_of_hbm h, rowChan_of_hbm (by rwa [heff.usableHbm_same (by decide)]), heff.hbmPlace_same (by decide)]
  refine hdie ▸ (counts_bump _ (by decide) ..).congr (heff.field_same _ (by decide) ..) rfl

theorem cxlAnswered_counts {s u : State} {f : Fld} {die unit n : Nat} (h : Counts s u f die unit n) (data : Bytes) (poison : Bool) :
    Counts s (cxlAnswered u data poison) f die unit n :=
  h.congr rfl ((cxlAnswered_effect ..).field_same f (by simp) ..)

end Sys2Proof.Machine
end

section
/-! PROOF. CXL.mem writes (R44, R408, R409, R427, R431, R434): the sectors of a line written whole, and the obligation on CXL.mem. -/

set_option Elab.async false

namespace Sys2Proof.Machine

/-! ### The codes of rows written whole (R388, R427) -/

theorem mem_insertNew {l : List Nat} {a r : Nat} (h : a ∈ insertNew l r) : a = r ∨ a ∈ l := by
  unfold insertNew at h
  split at h
  · exact .inr h
  · exact (List.mem_append.mp h).symm.imp_left List.mem_singleton.mp

/-- A row poisoned joins the poisoned rows, and no other does. -/
theorem mem_poisonRow {s : State} {a r : Nat} (h : a ∈ (poisonRow s r).poison) : a = r ∨ a ∈ s.poison := by
  refine mem_insertNew (l := s.poison) ?_
  unfold poisonRow at h
  extract_lets c s1 s2 s3 at h
  split at h
  · rwa [(irq_effect ..).frame.same .poison (by decide), (emit_effect ..).frame.same .poison (by decide),
      (bump_effect ..).frame.same .poison (by decide)] at h
  · rwa [(emit_effect ..).frame.same .poison (by decide), (bump_effect ..).frame.same .poison (by decide)] at h

/-- The merge of a row poisons no other row. -/
theorem mem_mergeRow {s : State} {mf : MemFaults} {a r : Nat} (h : a ∈ (mergeRow s mf r).poison) : a = r ∨ a ∈ s.poison := by
  unfold mergeRow at h
  extract_lets here s1 s2 s3 at h
  have h1 : s1.poison = s.poison := (Effect.ite (w := [.scrub, .reg .hbmOdeccCorrCount]) (sectorCorrected_effect ..)
    (.refl ..)).frame.same .poison (by decide)
  have h2 : s2.poison = s1.poison := (Effect.ite (w := [.reg .hbmOdeccUncorrCount]) (sectorUncorrected_effect ..)
    (.refl ..)).frame.same .poison (by decide)
  have h3 : a ∈ s3.poison → a = r ∨ a ∈ s.poison := by
    rw [← h1, ← h2]
    unfold s3
    split
    · exact mem_insertNew
    · exact .inr
  split at h
  · rcases mem_poisonRow h with h | h
    · exact .inl h
    · exact h3 (by rwa [(rowFail_effect ..).frame.same .poison (by decide)] at h)
  · split at h
    · exact h3 (by rwa [(rowReread_effect ..).frame.same .poison (by decide)] at h)
    · exact h3 h

/-- A row that a write covers whole holds no poison after it. -/
theorem not_mem_poison_writeCodes (s : State) (mf : MemFaults) {base len r : Nat} (hlen : len ≠ 0) (hfirst : base ≤ r)
    (hlast : r + rowLen r ≤ base + len) : r ∉ (writeCodes s mf base len fun _ => true).poison := by
  have hwhole : ∀ x, r = x → (decide (base ≤ x) && decide (x + rowLen x ≤ base + len)) = true := by
    rintro x rfl
    simp [hfirst, hlast]
  unfold writeCodes
  rw [if_neg hlen]
  extract_lets first last whole s1 s2 s3
  have h1 : r ∉ s1.poison := fun h => by
    have := (List.mem_filter.mp h).2
    simp [whole, hfirst, hlast] at this
  have h2 : r ∉ s2.poison := by
    rwa [(Effect.foldl _ (fun _ _ => parityRetry_effect ..) _ s1).frame.same .poison (by decide)]
  have h3 : r ∉ s3.poison := by
    unfold s3
    split
    · exact h2
    next hpart => exact fun h => (mem_mergeRow h).elim (fun e => hpart (by simp [whole, hwhole first e])) h2
  split
  · exact h3
  next hpart => exact fun h => (mem_mergeRow h).elim (fun e => hpart (by simp [whole, hwhole last e])) h3

/-! ### A line written -/

/-- A line written, with its sectors' codes and the guards it hits. -/
def lineWritten (s : State) (addr : Nat) (w : CxlWrite) : State :=
  let coded := writeCodes s w.mf addr 64 fun _ => true
  hitGuards (lostWrites { coded with mem := putBytes coded.mem addr w.data } w.mf addr 64) addr 64 fun _ => true

theorem mem_lineWritten (s : State) (addr : Nat) (data : Bytes) : (lineWritten s addr ⟨data, .none⟩).mem = putBytes s.mem addr data := by
  unfold lineWritten
  extract_lets coded
  rw [(hitGuards_effect ..).mem_same (by decide), lostWrites_of_unfailed rfl]
  exact congrArg (putBytes · addr data) ((writeCodes_effect ..).mem_same (by decide))

theorem poison_lineWritten (s : State) (addr : Nat) (w : CxlWrite) :
    (lineWritten s addr w).poison = (writeCodes s w.mf addr 64 fun _ => true).poison := by
  unfold lineWritten
  extract_lets coded
  rw [(hitGuards_effect ..).frame.same .poison (by decide), (lostWrites_effect ..).frame.same .poison (by decide)]

/-- Neither sector of a line written is poison, whatever it was (R427). -/
theorem lineWritten_clean {s : State} {addr : Nat} (h : addr < usableHbm s) (w : CxlWrite) :
    addr ∉ (lineWritten s addr w).poison ∧ addr + 32 ∉ (lineWritten s addr w).poison := by
  have hhbm := usableHbm_le s
  have hrow : ∀ a < addr + 64, rowLen a = 32 := by
    intro a ha
    rw [rowLen, if_pos]
    simp only [sharedBase]
    omega
  rw [poison_lineWritten]
  exact ⟨not_mem_poison_writeCodes s _ (by decide) le_rfl (by rw [hrow _ (by omega)]; omega),
    not_mem_poison_writeCodes s _ (by decide) (by omega) (by rw [hrow _ (by omega)])⟩

section
variable {addr : Nat} {s : State} (w : CxlWrite) (hreach : memReaches s = true)
include hreach

/-- A write that reaches the module is dropped, or stored in the state it leaves when Nap is left. -/
theorem exec_cxlMemWrite : exec (.cxlMemWrite addr w) s =
    if (decide (usableHbm s ≤ addr) || decide (jobState s = 3) || inFarTable s addr 64) = true then .next (memRefused (wakeFree s) addr)
    else if hiddenIn s addr 64 ≠ [] then .next (tagRefused (wakeFree s) .host addr)
    else .next (lineWritten (wakeFree s) addr w) := by
  have heff := wakeFree_effect s
  rw [← heff.usableHbm_same (by decide), ← heff.jobState_same (by decide), ← heff.inFarTable_same (by decide) (by decide),
    ← heff.hiddenIn_same (by decide)]
  show execCxlMemWrite addr w s = _
  unfold execCxlMemWrite
  exact if_neg (by simp [hreach])

theorem exec_cxlMemWrite_dropped (h : usableHbm s ≤ addr ∨ jobState s = 3) :
    exec (.cxlMemWrite addr w) s = .next (memRefused (wakeFree s) addr) :=
  (exec_cxlMemWrite w hreach).trans (if_pos (by simp [h]))

variable (hbelow : addr < usableHbm s) (hjob : jobState s ≠ 3) (hfar : inFarTable s addr 64 = false)
include hbelow hjob hfar

theorem exec_cxlMemWrite_hidden (h : hiddenIn s addr 64 ≠ []) :
    exec (.cxlMemWrite addr w) s = .next (tagRefused (wakeFree s) .host addr) :=
  (exec_cxlMemWrite w hreach).trans ((if_neg (by simp [hbelow, hjob, hfar])).trans (if_pos h))

theorem exec_cxlMemWrite_stored (h : hiddenIn s addr 64 = []) :
    exec (.cxlMemWrite addr w) s = .next (lineWritten (wakeFree s) addr w) :=
  (exec_cxlMemWrite w hreach).trans ((if_neg (by simp [hbelow, hjob, hfar])).trans (if_neg (by simp [h])))

end

/-! ### Back-invalidates (R433) -/

theorem exec_backInvalidateResponse {die : Die} {line : Nat} {s : State} (hline : line ∈ snoopOf s die)
    (hheld : (s.heldWrites.any fun w => w.1 = line) = true) :
    exec (.backInvalidateResponse die line) s = .next (killSettle (releaseLine s die line)) := by
  show execBackInvalidateResponse die line s = _
  unfold execBackInvalidateResponse
  exact if_pos (by simpa [hline] using hheld)

/-- The line that has left the filter, and memory with the writes that waited for it. -/
theorem lineReleased (s : State) (die line : Nat) :
    let t := killSettle (releaseLine s die line)
    line ∉ snoopOf t die ∧ (∀ w ∈ t.heldWrites, w.1 ≠ line) ∧
      (∀ a, (∀ w ∈ s.heldWrites, w.1 = line → ∀ e ∈ w.2, e.1 ≠ a) → Map.getD t.mem a 0 = Map.getD s.mem a 0) ∧
      ∀ w : Nat × Map Byte, (s.heldWrites.filter fun x => x.1 = line) = [w] → Map.rising w.2 = true →
        ∀ e ∈ w.2, Map.getD t.mem e.1 0 = e.2 := by
  intro t
  have heff := killSettle_effect (releaseLine s die line)
  have hmem : t.mem = (s.heldWrites.filter fun w => w.1 = line).foldl (fun m w => landHeldBytes m w.2) s.mem :=
    (heff.mem_same (by decide)).trans (mem_releaseLine ..)
  have hheld : t.heldWrites = s.heldWrites.filter fun w => w.1 ≠ line :=
    (heff.frame.same .heldWrites (by decide)).trans (heldWrites_releaseLine ..)
  have hsnoop : snoopOf t die = (snoopOf s die).filter fun l => l ≠ line := by
    rw [← snoopOf_releaseLine, snoopOf, show t.snoop = (releaseLine s die line).snoop from heff.frame.same .snoop (by decide), snoopOf]
  refine ⟨by simp [hsnoop], fun w hw => ?_, fun a ha => ?_, fun w hw hrise e he => ?_⟩
  · rw [hheld] at hw
    simpa using (List.mem_filter.mp hw).2
  · rw [hmem, getD_landHeld_outside]
    intro w hw
    obtain ⟨hw, hline⟩ := List.mem_filter.mp hw
    exact ha w hw (of_decide_eq_true hline)
  · rw [hmem, hw]
    exact getD_landHeldBytes_inside w.2 hrise e he s.mem

/-! ### What a refusal leaves, and the obligation -/

theorem mem_wakeFree (s : State) : (wakeFree s).mem = s.mem := (wakeFree_effect s).mem_same (by decide)

theorem mem_memRefused (s : State) (addr : Nat) : (memRefused (wakeFree s) addr).mem = s.mem :=
  ((memRefused_effect (wakeFree s) addr).mem_same (by decide)).trans (mem_wakeFree s)

theorem mem_tagRefused (s : State) (addr : Nat) : (tagRefused (wakeFree s) .host addr).mem = s.mem :=
  ((tagRefused_effect (wakeFree s) .host addr).mem_same (by decide)).trans (mem_wakeFree s)

/-- Settles O12: an access is refused, or served on its line; a line that leaves the filter takes the writes that waited for it. -/
theorem cxlMemoryAccessesComplete : Obligations.CxlMemoryAccessesComplete := by
  refine ⟨fun addr s hreach hfit hjob hfar hvis hlow hhigh =>
      ⟨_, exec_cxlMemRead_clean hreach (by omega) hjob hfar hvis hlow hhigh, cxlData_cxlAnswered .., rfl, ?_, fun hroom => ?_,
        fun hnap => ?_⟩,
    fun addr s hreach hfit hjob hfar hvis _ hhigh => ⟨_, exec_cxlMemRead_failed hreach (by omega) hjob hfar hvis hhigh, rfl,
      cxlData_cxlAnswered .., cxlAnswered_counts (sectorLost_counts (by omega)) _ true⟩,
    fun addr a b s hreach habove => ⟨_, exec_cxlMemRead_above a b hreach habove, rfl, rfl,
      (mem_cxlAnswered ..).trans (mem_memRefused s addr), cxlAnswered_recorded (memRefused_recorded (wakeFree s) addr) _ _⟩,
    fun addr a b s hreach hbelow hjob hfar hhidden => ⟨_, exec_cxlMemRead_hidden a b hreach hbelow hjob hfar hhidden, rfl,
      cxlAnswered_recorded ((lineGranted_quiet s addr).recorded_of (by decide) (tagRefused_recorded (lineGranted s addr) .host addr)) _ _,
      cxlAnswered_pends (tagRefused_pends (lineGranted s addr) .host addr) _ _⟩,
    fun addr a b s hreach hbelow hjob => ⟨_, exec_cxlMemRead_ending a b hreach hbelow hjob, rfl⟩,
    fun addr data s hreach hlen hbelow hjob hfar hvis =>
      ⟨_, exec_cxlMemWrite_stored ⟨data, .none⟩ hreach hbelow hjob hfar hvis, fun i hi => ?_, fun x hx => ?_,
        lineWritten_clean (by rwa [(wakeFree_effect s).usableHbm_same (by decide)]) _⟩,
    fun addr data s hreach hdrop => ⟨_, exec_cxlMemWrite_dropped data hreach hdrop, mem_memRefused s addr,
      memRefused_recorded (wakeFree s) addr⟩,
    fun addr data s hreach hbelow hjob hfar hhidden => ⟨_, exec_cxlMemWrite_hidden data hreach hbelow hjob hfar hhidden,
      mem_tagRefused s addr, tagRefused_recorded (wakeFree s) .host addr, tagRefused_pends (wakeFree s) .host addr⟩,
    fun die line s hline hheld => ⟨_, exec_backInvalidateResponse hline hheld, lineReleased s die line⟩⟩
  · rw [snoopOf_cxlAnswered]
    exact mem_snoopOf_lineGranted s addr
  · rw [mem_cxlAnswered]
    exact mem_lineGranted hroom
  · rw [powerState_cxlAnswered]
    exact powerState_lineGranted addr hnap
  · rw [mem_lineWritten, getD_putBytes_inside _ _ _ _ (by omega), List.getD_eq_getElem]
  · rw [mem_lineWritten, getD_putBytes_outside _ _ _ _ (by omega), mem_wakeFree]

end Sys2Proof.Machine
end

section
/-! PROOF. What the narrow operations leave of their core: all of it but its place in the stream, what they set before they issue, and the
freeze of a WAIT (R257, R258, R265). -/

namespace Sys2Proof.Machine

/-! ### Which core a key names -/

theorem coreKey_die (c : CoreRef) : coreKey c / 24 = c.die := by
  have := c.core.isLt
  unfold coreKey
  omega

/-! ### The narrow operation issues -/

/-- The narrow operation of the bundle due issues from a state in which the core stands at the same place. -/
theorem SamePlace.narrowIssued {s t : State} {k : Nat} (h : SamePlace s t k) : NarrowIssued s (narrowIssued t k) k :=
  ⟨((narrowIssued_effect t k).counter_same (by decide) k).trans h.counter,
    Nat.lt_of_lt_of_le (h.bundle ▸ Nat.lt_succ_self _) (nextOne_onward t k).bundle_le⟩

/-- A core set with its bundle and buffer as before stands at the same place. -/
theorem SamePlace.setCore {s : State} {k : Nat} {c : CoreState} (hbundle : c.bundle = (coreOf s k).bundle)
    (hbuffer : c.buffer = (coreOf s k).buffer) : SamePlace s (setCore s k c) k :=
  ⟨rfl, by rwa [coreOf_setCore_same], by rwa [coreOf_setCore_same]⟩

/-- The narrow operation issues once its core has been set at the same place. -/
theorem narrowIssued_setCore {s : State} {k : Nat} {c : CoreState} (hbundle : c.bundle = (coreOf s k).bundle)
    (hbuffer : c.buffer = (coreOf s k).buffer) : NarrowIssued s (narrowIssued (setCore s k c) k) k :=
  (SamePlace.setCore hbundle hbuffer).narrowIssued

/-- What leaves the cores and the counters alone leaves the core at its place. -/
theorem SamePlace.of_effect {w : List Part} {s t : State} {k : Nat} (h : Effect w s t) (hcores : Part.cores ∉ w)
    (hcounter : Part.reg .seqSchedule ∉ w) : SamePlace s t k := by
  have hcore := h.coreOf_same hcores k
  exact ⟨h.counter_same hcounter k, by rw [hcore], by rw [hcore]⟩

@[simp] theorem signals_narrowIssued (s : State) (k : Nat) : (coreOf (narrowIssued s k) k).signals = (coreOf s k).signals := by
  rw [narrowIssued, (nextOne_onward s k).rest]; rfl

@[simp] theorem point_narrowIssued (s : State) (k : Nat) : (coreOf (narrowIssued s k) k).point = (coreOf s k).point := by
  rw [narrowIssued, (nextOne_onward s k).rest]; rfl

@[simp] theorem guards_narrowIssued (s : State) (k : Nat) : (coreOf (narrowIssued s k) k).guards = (coreOf s k).guards := by
  rw [narrowIssued, (nextOne_onward s k).rest]; rfl

/-- A freeze after the narrow operation has issued leaves it issued. -/
theorem NarrowIssued.freezeCore {s t : State} {k : Nat} (h : NarrowIssued s t k) (f : FreezeCond) :
    NarrowIssued s (freezeCore t k f) k := by
  obtain ⟨hcounter, hbundle⟩ := h
  exact ⟨((freezeCore_effect t k f).counter_same (by decide) k).trans hcounter, by simpa [Machine.freezeCore] using hbundle⟩

theorem freeze_freezeCore (s : State) (k : Nat) (f : FreezeCond) : f ∈ (coreOf (freezeCore s k f) k).freeze := by
  simp [freezeCore]

theorem seqState_freezeCore (s : State) (k : Nat) (f : FreezeCond) : seqState (freezeCore s k f) k = seqFrozen :=
  seqState_setSeqState ..

end Sys2Proof.Machine
end

section
/-! PROOF. SIGNALs and WAITs on their way to an object: they join the unit of the die that serves it, or go on the span bridge to the
other die (R35, R454, R463, R666). -/

namespace Sys2Proof.Machine

theorem servingDie_lt {far : Bool} {index die : Nat} (h : die < 2) : servingDie far index die < 2 := by
  unfold servingDie
  split
  · exact Nat.mod_lt _ (by decide)
  · exact h

/-- A SIGNAL to an object of this module that exists is delivered to the die that serves the object. -/
theorem sendSignal_here {s : State} {r : SignalReq} (hinc : r.increment ≠ 0) (hhere : r.endpoint / 2 = location s)
    (hfar : r.far = true → r.index < farCount s) (die : Nat) :
    sendSignal s die r = deliverSignal s die (servingDie r.far r.index (r.endpoint % 2)) (signalMsg s die r) := by
  have hlost : (r.far && decide (farCount s ≤ r.index)) = false := by
    cases h : r.far
    · rfl
    · simpa using hfar h
  unfold sendSignal
  rw [if_neg hinc, if_pos hhere]
  simp only [hlost, Bool.false_eq_true, if_false, signalMsg]

/-- A WAIT sent stands last among those on the way to the unit that serves its object, or goes on the span bridge to the other die's. -/
theorem sendWait_sends {s t : State} {die : Nat} (hdie : die < 2) (w : WaitReq) (hsync : t.sync = (sendWait s die w).sync)
    (hbridge : t.bridge = (sendWait s die w).bridge) :
    let d := servingDie w.far w.index die
    if d = die then (syncOf t d).arriving = (syncOf s d).arriving ++ [{ w with arrival := now s d + lMinDie }] ∧ t.bridge = s.bridge
    else t.sync = s.sync ∧ t.bridge = s.bridge ++ [⟨d, now s die, now s d + bridgeTicks, .wait w⟩] := by
  intro d
  unfold sendWait at *
  split
  next h =>
    rw [if_pos h] at hsync hbridge
    refine ⟨?_, hbridge⟩
    rw [h, syncOf, hsync]
    exact congrArg SyncUnit.arriving (syncOf_setSync_same s die
      { syncOf s die with arriving := (syncOf s die).arriving ++ [{ w with arrival := now s die + lMinDie }] })
  next h =>
    rw [if_neg h] at hsync hbridge
    have hd : d < 2 := servingDie_lt hdie
    have hother : d = 1 - die := by omega
    rw [hother]
    exact ⟨hsync, hbridge⟩

end Sys2Proof.Machine
end

section
/-! PROOF. A stream's SIGNAL, SIGNAL_SEND, WAIT and GUARD (R275, R276, R282, R460 to R468). -/

namespace Sys2Proof.Machine

/-! ### SIGNAL (R460, R463) -/

/-- The point of a core with one SIGNAL fewer still to be passed over (R282). -/
def CoreState.passSignal (c : CoreState) : CoreState :=
  { c with point := c.point.map fun p => { p with skipSignals := p.skipSignals - 1 } }

/-- A core with a SIGNAL behind those of its queue. -/
def CoreState.queueSignal (c : CoreState) (r : SignalReq) : CoreState := { c with signals := c.signals ++ [(r, ⟨c.bundle⟩)] }

section
variable {c : CoreRef} {w : Nat} {s : State} (hnext : nextNarrow s (coreKey c) 1 = some w)
include hnext

theorem exec_signal_empty (hinc : (signalOf w (coreKey c % 24)).increment = 0) :
    exec (.signal c) s = .next (narrowIssued s (coreKey c)) := by
  show execSignal c s = _
  simp only [execSignal, hnext, hinc, if_true]

theorem exec_signal_queued (hinc : (signalOf w (coreKey c % 24)).increment ≠ 0)
    (hskip : ∀ p, (coreOf s (coreKey c)).point = some p → p.skipSignals = 0) :
    exec (.signal c) s =
      .next (narrowIssued (setCore s (coreKey c) ((coreOf s (coreKey c)).queueSignal (signalOf w (coreKey c % 24)))) (coreKey c)) := by
  show execSignal c s = _
  simp only [execSignal, hnext, if_neg hinc]
  refine (if_neg ?_).trans rfl
  cases hp : (coreOf s (coreKey c)).point with
  | none => simp
  | some p => simp [hskip p hp]

theorem exec_signal_passed (hinc : (signalOf w (coreKey c % 24)).increment ≠ 0) {p : ReplayPt}
    (hpoint : (coreOf s (coreKey c)).point = some p) (hskip : 0 < p.skipSignals) :
    exec (.signal c) s = .next (narrowIssued (setCore s (coreKey c) (coreOf s (coreKey c)).passSignal) (coreKey c)) := by
  show execSignal c s = _
  simp only [execSignal, hnext, if_neg hinc, hpoint, hskip, decide_true, if_true, CoreState.passSignal]

theorem signal_joins :
    let k := coreKey c
    let core := coreOf s k
    let r := signalOf w (k % 24)
    (r.increment = 0 → Gives (exec (.signal c) s) fun t => NarrowIssued s t k ∧ (coreOf t k).signals = core.signals) ∧
    (r.increment ≠ 0 → (∀ p, core.point = some p → p.skipSignals = 0) → Gives (exec (.signal c) s) fun t =>
      NarrowIssued s t k ∧ ∃ o, (coreOf t k).signals = core.signals ++ [(r, o)] ∧ o.bundle = core.bundle) ∧
    (∀ p, r.increment ≠ 0 → core.point = some p → 0 < p.skipSignals → Gives (exec (.signal c) s) fun t =>
      NarrowIssued s t k ∧ (coreOf t k).signals = core.signals ∧
      (coreOf t k).point = some { p with skipSignals := p.skipSignals - 1 }) := by
  intro k core r
  refine ⟨fun hinc => ?_, fun hinc hskip => ?_, fun p hinc hpoint hskip => ?_⟩
  · exact ⟨_, exec_signal_empty hnext hinc, (SamePlace.refl s k).narrowIssued, signals_narrowIssued ..⟩
  · refine ⟨_, exec_signal_queued hnext hinc hskip, narrowIssued_setCore rfl rfl, ⟨core.bundle⟩, ?_, rfl⟩
    rw [signals_narrowIssued, coreOf_setCore_same, CoreState.queueSignal]
  · refine ⟨_, exec_signal_passed hnext hinc hpoint hskip, narrowIssued_setCore rfl rfl, ?_, ?_⟩
    · rw [signals_narrowIssued, coreOf_setCore_same, CoreState.passSignal]
    · rw [point_narrowIssued, coreOf_setCore_same, CoreState.passSignal, hpoint]
      rfl

end

/-! ### SIGNAL_SEND (R275, R468) -/

/-- A core whose oldest SIGNAL, of this bundle, has been sent: what is left of the queue, and the point's count (R275, R282). -/
def CoreState.sentSignal (c : CoreState) (o : OutCmd) (rest : List (SignalReq × OutCmd)) : CoreState :=
  { c with
    signals := rest
    point := c.point.map fun p => if p.bundle ≤ o.bundle then { p with signalsSent := p.signalsSent + 1 } else p }

theorem exec_signalSend {c : CoreRef} {r : SignalReq} {o : OutCmd} {rest : List (SignalReq × OutCmd)} {s : State}
    (hrun : (coreOf s (coreKey c)).runDesc ≠ none) (hreplay : (coreOf s (coreKey c)).replaying = none)
    (hsignals : (coreOf s (coreKey c)).signals = (r, o) :: rest) (hdone : completedBefore s (coreKey c) o.bundle = true) :
    exec (.signalSend c) s =
      .next (sendSignal (setCore s (coreKey c) ((coreOf s (coreKey c)).sentSignal o rest)) c.die r) := by
  obtain ⟨n, hn⟩ := Option.ne_none_iff_exists'.mp hrun
  show execSignalSend c s = _
  unfold execSignalSend
  extract_lets k core
  split
  next r' o' t hrun' hreplay' hsignals' =>
    obtain ⟨⟨rfl, rfl⟩, rfl⟩ : (r = r' ∧ o = o') ∧ rest = t := by simpa [core, k, hsignals] using hsignals'
    rw [if_neg (by simp [k, hdone]), ← coreKey_die]
    rfl
  next hnone => exact absurd hsignals (hnone n r o rest hn hreplay)

theorem signalSend_sends {c : CoreRef} {r : SignalReq} {o : OutCmd} {rest : List (SignalReq × OutCmd)} {s : State}
    (hrun : (coreOf s (coreKey c)).runDesc ≠ none) (hreplay : (coreOf s (coreKey c)).replaying = none)
    (hsignals : (coreOf s (coreKey c)).signals = (r, o) :: rest) (hdone : completedBefore s (coreKey c) o.bundle = true) :
    let dest := servingDie r.far r.index (r.endpoint % 2)
    Gives (exec (.signalSend c) s) fun t =>
      (coreOf t (coreKey c)).signals = rest ∧
      (r.increment ≠ 0 → r.endpoint / 2 = location s → (r.far = true → r.index < farCount s) →
        ∃ m : SignalMsg, m.far = r.far ∧ m.index = r.index ∧ m.increment = r.increment ∧
          if dest = c.die then (syncOf t dest).signals = (syncOf s dest).signals ++ [m] ∧ t.bridge = s.bridge
          else t.sync = s.sync ∧ t.bridge = s.bridge ++ [⟨dest, now s c.die, now s dest + bridgeTicks, .signal m⟩]) := by
  intro dest
  refine ⟨_, exec_signalSend hrun hreplay hsignals hdone, ?_, fun hinc hhere hfar => ?_⟩
  · rw [(sendSignal_effect ..).coreOf_same (by decide), coreOf_setCore_same]
    rfl
  · rw [sendSignal_here (s := setCore s _ _) hinc hhere hfar]
    exact ⟨signalMsg (setCore s _ _) c.die r, rfl, rfl, rfl,
      deliverSignal_delivers (s := setCore s _ _) c.die.isLt (servingDie_lt (Nat.mod_lt _ (by decide))) _ rfl rfl⟩

/-! ### WAIT (R461, R465) -/

/-- The point of a core with one WAIT fewer still to be passed over (R282). -/
def CoreState.passWait (c : CoreState) : CoreState :=
  { c with point := c.point.map fun p => { p with skipWaits := p.skipWaits - 1 } }

section
variable {c : CoreRef} {word : Nat} {s : State} (hnext : nextNarrow s (coreKey c) 2 = some word)
include hnext

theorem exec_wait_passed {p : ReplayPt} (hpoint : (coreOf s (coreKey c)).point = some p) (hskip : 0 < p.skipWaits) :
    exec (.wait c) s = .next (narrowIssued (setCore s (coreKey c) (coreOf s (coreKey c)).passWait) (coreKey c)) := by
  show execWait c s = _
  simp only [execWait, hnext, hpoint, hskip, decide_true, if_true, CoreState.passWait]

theorem exec_wait_goes (hskip : ∀ p, (coreOf s (coreKey c)).point = some p → p.skipWaits = 0) :
    exec (.wait c) s =
      let w := waitOf word (now s c.die) (.core (coreKey c))
      .next (if w.target = 0 then
          narrowIssued (wakeWaiter (bump s F.synReleaseCount_count c.die 0 1) (.core (coreKey c))) (coreKey c)
        else freezeCore (narrowIssued (sendWait s c.die w) (coreKey c)) (coreKey c) .waitHeld) := by
  show execWait c s = _
  simp only [execWait, hnext, coreKey_die]
  refine (if_neg ?_).trans (apply_ite Host.Outcome.next _ _ _).symm
  cases hp : (coreOf s (coreKey c)).point with
  | none => simp
  | some p => simp [hskip p hp]

theorem exec_wait_met (hskip : ∀ p, (coreOf s (coreKey c)).point = some p → p.skipWaits = 0)
    (htarget : (waitOf word (now s c.die) (.core (coreKey c))).target = 0) :
    exec (.wait c) s =
      .next (narrowIssued (wakeWaiter (bump s F.synReleaseCount_count c.die 0 1) (.core (coreKey c))) (coreKey c)) := by
  rw [exec_wait_goes hnext hskip]
  exact congrArg Host.Outcome.next (if_pos htarget)

theorem exec_wait_sent (hskip : ∀ p, (coreOf s (coreKey c)).point = some p → p.skipWaits = 0)
    (htarget : (waitOf word (now s c.die) (.core (coreKey c))).target ≠ 0) :
    exec (.wait c) s =
      .next (freezeCore (narrowIssued (sendWait s c.die (waitOf word (now s c.die) (.core (coreKey c)))) (coreKey c))
        (coreKey c) .waitHeld) := by
  rw [exec_wait_goes hnext hskip]
  exact congrArg Host.Outcome.next (if_neg htarget)

theorem wait_goes :
    let k := coreKey c
    let core := coreOf s k
    let w := waitOf word (now s c.die) (.core k)
    ((∀ p, core.point = some p → p.skipWaits = 0) → w.target = 0 → Gives (exec (.wait c) s) fun t =>
      NarrowIssued s t k ∧ Counts s t F.synReleaseCount_count c.die 0 1 ∧ t.sync = s.sync) ∧
    ((∀ p, core.point = some p → p.skipWaits = 0) → w.target ≠ 0 → Gives (exec (.wait c) s) fun t =>
      let d := servingDie w.far w.index c.die
      NarrowIssued s t k ∧ .waitHeld ∈ (coreOf t k).freeze ∧ seqState t k = seqFrozen ∧
      if d = c.die then
        (syncOf t d).arriving = (syncOf s d).arriving ++ [{ w with arrival := now s d + lMinDie }] ∧ t.bridge = s.bridge
      else t.sync = s.sync ∧ t.bridge = s.bridge ++ [⟨d, now s c.die, now s d + bridgeTicks, .wait w⟩]) ∧
    (∀ p, core.point = some p → 0 < p.skipWaits → Gives (exec (.wait c) s) fun t =>
      NarrowIssued s t k ∧ t.sync = s.sync ∧ (coreOf t k).point = some { p with skipWaits := p.skipWaits - 1 }) := by
  intro k core w
  refine ⟨fun hskip htarget => ?_, fun hskip htarget => ?_, fun p hpoint hskip => ?_⟩
  · have hbump := bump_effect s F.synReleaseCount_count c.die 0 1
    have hplace : SamePlace s (wakeWaiter (bump s F.synReleaseCount_count c.die 0 1) (.core k)) k :=
      (SamePlace.of_effect hbump (by decide) (by decide)).trans (SamePlace.setCore rfl rfl)
    have hissued := narrowIssued_effect (wakeWaiter (bump s F.synReleaseCount_count c.die 0 1) (.core k)) k
    refine ⟨_, exec_wait_met hnext hskip htarget, hplace.narrowIssued, ?_, hissued.frame.same .sync (by decide)⟩
    exact (counts_bump s (by decide) c.die 0 1).congr rfl (hissued.field_same _ (by decide) ..)
  · have hsent := sendWait_effect s c.die w
    have hafter : Effect [.cores, .reg .seqState] (sendWait s c.die w)
        (freezeCore (narrowIssued (sendWait s c.die w) k) k .waitHeld) :=
      (freezeCore_effect ..).step ((narrowIssued_effect ..).one (by decide)) (by decide)
    refine ⟨_, exec_wait_sent hnext hskip htarget,
      (SamePlace.of_effect hsent (by decide) (by decide)).narrowIssued.freezeCore _, freeze_freezeCore .., seqState_freezeCore .., ?_⟩
    exact sendWait_sends c.die.isLt w (hafter.frame.same .sync (by decide)) (hafter.frame.same .bridge (by decide))
  · refine ⟨_, exec_wait_passed hnext hpoint hskip, narrowIssued_setCore rfl rfl,
      (narrowIssued_effect ..).frame.same .sync (by decide), ?_⟩
    rw [point_narrowIssued, coreOf_setCore_same, CoreState.passWait, hpoint]
    rfl

end

/-! ### GUARD (R276) -/

/-- The guards of a core after a GUARD with this word (R276, R282). -/
def guardsAfter (guards : Map Guard) (w : Nat) : Map Guard :=
  let i := bits w 59 56
  let len := bits w 19 0 * 4096
  let base := bits w 55 20 * 4096
  if len = 0 then Map.del guards i
  else match Map.find guards i with
    | some g => Map.put guards i { g with base := base, len := len }
    | none => Map.put guards i ⟨base, len, false, false⟩

theorem guardsAfter_withdrawn (guards : Map Guard) {w : Nat} (h : bits w 19 0 = 0) :
    Map.find (guardsAfter guards w) (bits w 59 56) = none := by
  simp only [guardsAfter, h, Nat.zero_mul, if_true]
  exact Map.find_del_same ..

theorem guardsAfter_declared (guards : Map Guard) {w : Nat} (h : bits w 19 0 ≠ 0) :
    let old := Map.find guards (bits w 59 56)
    Map.find (guardsAfter guards w) (bits w 59 56) = some ⟨bits w 55 20 * 4096, bits w 19 0 * 4096,
      (match old with | some g => g.armed | none => false), (match old with | some g => g.hit | none => false)⟩ := by
  intro old
  have hlen : bits w 19 0 * 4096 ≠ 0 := by omega
  simp only [guardsAfter, if_neg hlen, old]
  cases Map.find guards (bits w 59 56) <;> exact Map.find_put_same ..

theorem exec_guard {c : CoreRef} {w : Nat} {s : State} (hnext : nextNarrow s (coreKey c) 3 = some w) :
    exec (.guard c) s =
      .next (narrowIssued (setCore s (coreKey c)
        { coreOf s (coreKey c) with guards := guardsAfter (coreOf s (coreKey c)).guards w }) (coreKey c)) := by
  show execGuard c s = _
  simp only [execGuard, hnext]
  rfl

theorem guard_declares {c : CoreRef} {w : Nat} {s : State} (hnext : nextNarrow s (coreKey c) 3 = some w) :
    Gives (exec (.guard c) s) fun t =>
      NarrowIssued s t (coreKey c) ∧ (coreOf t (coreKey c)).guards = guardsAfter (coreOf s (coreKey c)).guards w :=
  ⟨_, exec_guard hnext, narrowIssued_setCore rfl rfl, by rw [guards_narrowIssued, coreOf_setCore_same]⟩

theorem Gives.mono {o : Host.Outcome State Fault Refusal} {p q : State → Prop} (h : Gives o p) (hpq : ∀ t, p t → q t) : Gives o q := by
  obtain ⟨t, ho, ht⟩ := h
  exact ⟨t, ho, hpq t ht⟩

/-- Settles O31: SIGNAL, WAIT and GUARD set their core and issue from the same place; a SIGNAL sent is delivered and a WAIT sent joins. -/
theorem coreSignalsWaitsAndGuardsComplete : Obligations.CoreSignalsWaitsAndGuardsComplete := by
  refine ⟨?_, ?_, ?_, ?_⟩
  · intro c w s k core r hnext
    exact signal_joins hnext
  · intro c r o rest s k dest
    exact signalSend_sends
  · intro c word s k core w hnext
    exact wait_goes hnext
  · intro c w s k old hnext
    exact ⟨fun hlen => (guard_declares hnext).mono fun t ⟨hissued, hguards⟩ => ⟨hissued, hguards ▸ guardsAfter_withdrawn _ hlen⟩,
      fun hlen => (guard_declares hnext).mono fun t ⟨hissued, hguards⟩ => ⟨hissued, hguards ▸ guardsAfter_declared _ hlen⟩⟩

end Sys2Proof.Machine
end

section
/-! PROOF. The unit's held WAITs and the examination of an object that holds none, or one WAIT (R455, R465 to R467). -/

namespace Sys2Proof.Machine

/-! ### The unit after its parts are set -/

theorem Effect.syncOf_same {w : List Part} {s t : State} (h : Effect w s t) (hw : Part.sync ∉ w) (die : Nat) :
    syncOf t die = syncOf s die := by
  rw [syncOf, h.frame.same .sync hw, syncOf]

theorem Effect.sync_same {w : List Part} {s t : State} (h : Effect w s t) (hw : Part.sync ∉ w) : t.sync = s.sync :=
  h.frame.same .sync hw

theorem Effect.now_same {w : List Part} {s t : State} (h : Effect w s t) (hw : Part.reg .sidCount ∉ w) (die : Nat) :
    now t die = now s die := h.frame.same (.reg .sidCount) hw die 0

theorem heldAt_of_sync {s t : State} (h : t.sync = s.sync) (die key : Nat) : heldAt t die key = heldAt s die key := by
  rw [heldAt, syncOf, h, heldAt, syncOf]

@[simp] theorem heldAt_setSync_same (s : State) (die key : Nat) (u : SyncUnit) :
    heldAt (setSync s die u) die key = Map.getD u.held key [] := by
  rw [heldAt, syncOf_setSync_same]

@[simp] theorem heldAt_setHeld_same (s : State) (die key : Nat) (l : List WaitReq) : heldAt (setHeld s die key l) die key = l := by
  rw [setHeld, heldAt_setSync_same]
  split
  next h => rw [Map.getD, Map.find_del_same, h]; rfl
  next => rw [Map.getD, Map.find_put_same]; rfl

@[simp] theorem near_setHeld (s : State) (die key : Nat) (l : List WaitReq) :
    (syncOf (setHeld s die key l) die).near = (syncOf s die).near := by
  rw [setHeld, syncOf_setSync_same]

@[simp] theorem signals_setHeld (s : State) (die key : Nat) (l : List WaitReq) :
    (syncOf (setHeld s die key l) die).signals = (syncOf s die).signals := by
  rw [setHeld, syncOf_setSync_same]

@[simp] theorem arriving_setHeld (s : State) (die key : Nat) (l : List WaitReq) :
    (syncOf (setHeld s die key l) die).arriving = (syncOf s die).arriving := by
  rw [setHeld, syncOf_setSync_same]

/-- A near object written back: its unit keeps all else. -/
theorem syncOf_writeObj_near (s : State) (die index : Nat) (o : SyncObj) :
    syncOf (writeObj s die false index o) die = { syncOf s die with near := Map.put (syncOf s die).near index o } :=
  syncOf_setSync_same ..

theorem heldAt_writeObj_near (s : State) (die index key : Nat) (o : SyncObj) :
    heldAt (writeObj s die false index o) die key = heldAt s die key := by
  rw [heldAt, syncOf_writeObj_near, heldAt]

/-! ### The examination (R465, R466) -/

theorem examine_met {stamp n : Nat} {w : WaitReq} (hcount : w.target ≤ n) (hbound : w.overdue stamp = false) :
    examine stamp [w] n = ([], [w], if w.consume then n - w.target else n) := by
  simp [examine, hcount, hbound]

theorem examine_unmet {stamp n : Nat} {w : WaitReq} (h : n < w.target ∨ w.overdue stamp = true) :
    examine stamp [w] n = ([w], [], n) := by
  have : ¬(w.target ≤ n ∧ w.overdue stamp = false) := by
    rintro ⟨hcount, hbound⟩
    rcases h with h | h
    · omega
    · simp [h] at hbound
  simp [examine, this]

/-- An object that holds no WAIT is left as it is. -/
theorem examineObj_none {s : State} {die index : Nat} (h : heldAt s die index = []) (o : SyncObj) (first : Option WaitReq) :
    examineObj s die false index o first = setHeld s die index [] := by
  simp [examineObj, objKey, h, examine]

/-- A lone WAIT that is not met, or whose bound has passed, stays held, and the object stays as it is. -/
theorem examineObj_unmet {s : State} {die index : Nat} {w : WaitReq} {o : SyncObj} (hheld : heldAt s die index = [w])
    (h : o.count < w.target ∨ w.overdue (now s die) = true) (first : Option WaitReq) :
    examineObj s die false index o first = setHeld s die index [w] := by
  simp [examineObj, objKey, hheld, examine_unmet h]

/-- The object once its lone WAIT has been met: its count is less by the target where the WAIT consumes. -/
def metObj (s : State) (die index : Nat) (w : WaitReq) (o : SyncObj) : State :=
  let n := if w.consume then o.count - w.target else o.count
  if n = o.count then setHeld s die index [] else writeObj (setHeld s die index []) die false index { o with count := n }

/-- A lone WAIT that is met at its first test is released. -/
theorem examineObj_met {s : State} {die index : Nat} {w : WaitReq} {o : SyncObj} (hheld : heldAt s die index = [w])
    (hcount : w.target ≤ o.count) (hbound : w.overdue (now s die) = false) :
    examineObj s die false index o (some w) = releaseWait o false die (metObj s die index w o) w := by
  simp [examineObj, objKey, hheld, examine_met hcount hbound, metObj]

theorem heldAt_metObj (s : State) (die index : Nat) (w : WaitReq) (o : SyncObj) : heldAt (metObj s die index w o) die index = [] := by
  unfold metObj
  extract_lets n
  split
  · exact heldAt_setHeld_same ..
  · rw [heldAt_writeObj_near, heldAt_setHeld_same]

theorem count_metObj {s : State} {die index : Nat} {o : SyncObj} (w : WaitReq)
    (ho : Map.getD (syncOf s die).near index ⟨0, 0, 0⟩ = o) :
    (Map.getD (syncOf (metObj s die index w o) die).near index ⟨0, 0, 0⟩).count =
      if w.consume then o.count - w.target else o.count := by
  unfold metObj
  extract_lets n
  split
  next h => rw [near_setHeld, ho]; exact h.symm
  next => rw [syncOf_writeObj_near, Map.getD, Map.find_put_same]; rfl

theorem metObj_counter (s : State) (die index : Nat) (w : WaitReq) (o : SyncObj) (f : Fld) (d u : Nat) :
    rf (metObj s die index w o) f d u = rf s f d u := by
  unfold metObj
  extract_lets n
  split <;> rfl

/-! ### Counts of releases and timeouts (R465, R467) -/

theorem counts_releaseWait (o : SyncObj) (die : Nat) (s : State) (w : WaitReq) :
    Counts s (releaseWait o false die s w) F.synReleaseCount_count die 0 1 := by
  refine (counts_bump s (by decide) die 0 1).congr rfl ?_
  rw [releaseWait]
  split
  · exact (wakeWaiter_effect ..).field_same _ (by decide) ..
  · exact (bridgeSend_effect ..).field_same _ (by decide) ..

theorem counts_timeoutWait (s : State) (die : Nat) (w : WaitReq) :
    Counts s (timeoutWait s die w) F.synTimeoutCount_count die 0 1 := by
  refine (counts_bump s (by decide) die 0 1).congr rfl ?_
  have hirq := (irq_effect (bump s F.synTimeoutCount_count die 0 1) die 5 9).field_same F.synTimeoutCount_count (by decide) die 0
  rw [timeoutWait]
  split
  · exact ((timeoutWaiter_effect ..).field_same _ (by decide) ..).trans hirq
  · exact ((bridgeSend_effect ..).field_same _ (by decide) ..).trans hirq

/-! ### What a TIMEOUT does to the unit (R467, R480, R625) -/

/-- A unit without the WAITs of some waiters. -/
def SyncUnit.without (p : Waiter → Bool) (u : SyncUnit) : SyncUnit :=
  { u with
    arriving := u.arriving.filter fun w => !p w.waiter
    held := Map.mapVals u.held fun l => l.filter fun w => !p w.waiter }

theorem syncOf_withdrawWaits (s : State) (p : Waiter → Bool) (die : Nat) :
    syncOf (withdrawWaits s p) die = (syncOf s die).without p :=
  Map.getD_mapVals s.sync (SyncUnit.without p) die SyncUnit.fresh rfl

theorem heldAt_withdrawWaits (s : State) (p : Waiter → Bool) (die key : Nat) :
    heldAt (withdrawWaits s p) die key = (heldAt s die key).filter fun w => !p w.waiter := by
  rw [heldAt, syncOf_withdrawWaits]
  exact Map.getD_mapVals _ _ key [] rfl

/-- The end of a stream brings no WAIT to an object. -/
theorem heldAt_endStream {s : State} {die key : Nat} (h : heldAt s die key = []) (k status : Nat) :
    heldAt (endStream s k status) die key = [] := by
  unfold endStream
  split
  next => exact h
  next rk hrun =>
    extract_lets s1 c d n detail desc s2 s3 c3 s4 halted s5 s6 s7
    have hafter : (ringAdvance (settlePower (irq s7 d 6 n)) d n).sync = s2.sync :=
      calc (ringAdvance (settlePower (irq s7 d 6 n)) d n).sync
        _ = (settlePower (irq s7 d 6 n)).sync := (ringAdvance_effect ..).sync_same (by decide)
        _ = (irq s7 d 6 n).sync := (settlePower_effect _).sync_same (by decide)
        _ = s7.sync := (irq_effect ..).sync_same (by decide)
        _ = s6.sync := (queueCompletion_effect s6 d n _).sync_same (by decide)
        _ = s5.sync := (dropActive_effect s5 d n rk).sync_same (by decide)
    rw [heldAt_of_sync hafter, heldAt_withdrawWaits, heldAt_of_sync ((countCut_effect s k).sync_same (by decide)), h]
    rfl

theorem heldAt_timeoutWait {s : State} {die key : Nat} (h : heldAt s die key = []) (w : WaitReq) :
    heldAt (timeoutWait s die w) die key = [] := by
  have hcounted : heldAt (irq (bump s F.synTimeoutCount_count die 0 1) die 5 9) die key = [] := by
    rwa [heldAt_of_sync ((irq_effect ..).sync_same (by decide))]
  rw [timeoutWait]
  split
  · cases w.waiter with
    | core k => exact heldAt_endStream hcounted k stTimeout
    | collective k =>
      rw [timeoutWaiter]
      split <;> exact hcounted
    | companion k => exact hcounted
  · exact hcounted

/-- The TIMEOUT of a WAIT that no stream of its die issued leaves the units as they are. -/
theorem sync_timeoutWait (s : State) (die : Nat) {w : WaitReq} (h : (∀ k, w.waiter ≠ .core k) ∨ waiterDie w.waiter ≠ die) :
    (timeoutWait s die w).sync = s.sync := by
  have hcounted : (irq (bump s F.synTimeoutCount_count die 0 1) die 5 9).sync = s.sync := (irq_effect ..).sync_same (by decide)
  rw [timeoutWait]
  split
  next hown =>
    cases hw : w.waiter with
    | core k => exact absurd hown (h.resolve_left fun hne => hne k hw)
    | collective k =>
      rw [timeoutWaiter]
      split <;> exact hcounted
    | companion k => exact hcounted
  · exact hcounted

theorem bridge_timeoutWait (s : State) (die : Nat) {w : WaitReq} (h : waiterDie w.waiter ≠ die) :
    (timeoutWait s die w).bridge =
      s.bridge ++ [⟨1 - die, now s die, now s (1 - die) + bridgeTicks, .timeout w.waiter⟩] := by
  have hcounted : Effect [.icuTimers, .wakePending, .reg .icuPend, .reg .synTimeoutCount] s
      (irq (bump s F.synTimeoutCount_count die 0 1) die 5 9) :=
    (irq_effect ..).step ((bump_effect ..).one (by decide)) (by decide)
  have hbridge : (irq (bump s F.synTimeoutCount_count die 0 1) die 5 9).bridge = s.bridge := hcounted.frame.same .bridge (by decide)
  rw [timeoutWait, if_neg h, bridgeSend, hcounted.now_same (by decide), hcounted.now_same (by decide), hbridge]

/-! ### A WAIT withdrawn (R467) -/

theorem heldAt_withdrawWait (s : State) (die : Nat) (w : WaitReq) :
    heldAt (withdrawWait s die w) die (objKey w.far w.index) = (heldAt s die (objKey w.far w.index)).erase w := by
  unfold withdrawWait
  extract_lets key u
  split
  · exact heldAt_setHeld_same ..
  next h =>
    have hout : w ∉ heldAt s die (objKey w.far w.index) := by simpa [key] using h
    rw [heldAt_setSync_same, List.erase_of_not_mem hout]
    rfl

theorem near_withdrawWait (s : State) (die : Nat) (w : WaitReq) :
    (syncOf (withdrawWait s die w) die).near = (syncOf s die).near := by
  unfold withdrawWait
  extract_lets key u
  split
  · exact near_setHeld ..
  · rw [syncOf_setSync_same]

theorem arriving_withdrawWait (s : State) (die : Nat) (w : WaitReq) :
    (syncOf (withdrawWait s die w) die).arriving =
      if w ∈ heldAt s die (objKey w.far w.index) then (syncOf s die).arriving else (syncOf s die).arriving.erase w := by
  unfold withdrawWait
  extract_lets key u
  split
  next h => rw [arriving_setHeld, if_pos (by simpa [key] using h)]
  next h => rw [syncOf_setSync_same, if_neg (by simpa [key] using h)]

end Sys2Proof.Machine
end

section
/-! PROOF. Synchronisation objects count the SIGNALs of a cycle and release, hold or time out a WAIT (R464 to R467). -/

namespace Sys2Proof.Machine

/-! ### SIGNAL_APPLY (R464) -/

/-- A list less its only element of a kind. -/
theorem filter_not_eq_erase {α : Type} [DecidableEq α] {p : α → Bool} {m : α} :
    ∀ {l : List α}, l.filter p = [m] → (l.filter fun x => !p x) = l.erase m
  | [], h => by simp at h
  | x :: l, h => by
    by_cases hx : p x = true
    · obtain ⟨rfl, hrest⟩ : x = m ∧ l.filter p = [] := by simpa [hx] using h
      rw [List.erase_cons_head, List.filter_cons_of_neg (by simp [hx]), List.filter_eq_self]
      simpa using hrest
    · have hl : l.filter p = [m] := by simpa [hx] using h
      have hm : p m = true := (List.mem_filter.mp (hl ▸ List.mem_singleton_self m)).2
      rw [List.filter_cons_of_pos (by simpa using hx), filter_not_eq_erase hl, List.erase_cons_tail]
      simp only [beq_iff_eq]
      rintro rfl
      exact hx hm

/-- The SIGNALs that reached a near object in the control-clock cycle of this one (R464). -/
def sameCycle (s : State) (die : Nat) (m : SignalMsg) : SignalMsg → Bool := fun x =>
  x.far = false && x.index = m.index && x.arrival / 2 = m.arrival / 2 && decide (x.arrival ≤ now s die)

/-- What the saturations of an object count and record (R464). -/
def saturated (n : Nat) (s : State) (die : Nat) : State :=
  (List.range n).foldl (fun s _ =>
    let s := bump s F.synSaturateCount_count die 0 1
    irq (countRec s die .synSaturateCount 0 (rd s .synSaturateCount die 0)) die 5 10) s

theorem saturated_effect (n : Nat) (s : State) (die : Nat) :
    Effect [.eph, .hostMem, .icuTimers, .wakePending, .reg .ephLostCount, .reg .ephSeq, .reg .hifRingHead, .reg .icuPend,
      .reg .synSaturateCount] s (saturated n s die) :=
  Effect.foldl _ (fun s _ =>
    (irq_effect ..).step ((countRec_effect ..).step ((bump_effect ..).one (by decide)) (by decide)) (by decide)) _ s

/-- The unit and its counts once its only SIGNAL of a cycle has been applied, before the object examines its WAITs. -/
def applied (s : State) (die : Nat) (m : SignalMsg) : State :=
  let o : SyncObj := Map.getD (syncOf s die).near m.index ⟨0, 0, 0⟩
  let taken := setSync s die { syncOf s die with signals := (syncOf s die).signals.erase m }
  let s := writeObj taken die false m.index ⟨min (o.count + m.increment) (2 ^ 32 - 1), m.src, m.sent⟩
  saturated (flagBit (decide (2 ^ 32 ≤ o.count + m.increment))) (bump s F.synSignalCount_count die 0 1) die

theorem syncOf_applied (s : State) (die : Nat) (m : SignalMsg) :
    let o : SyncObj := Map.getD (syncOf s die).near m.index ⟨0, 0, 0⟩
    syncOf (applied s die m) die = { syncOf s die with
      signals := (syncOf s die).signals.erase m
      near := Map.put (syncOf s die).near m.index ⟨min (o.count + m.increment) (2 ^ 32 - 1), m.src, m.sent⟩ } := by
  intro o
  unfold applied
  extract_lets _ taken s1
  have hbump : syncOf (bump s1 F.synSignalCount_count die 0 1) die = syncOf s1 die := rfl
  rw [(saturated_effect ..).syncOf_same (by decide), hbump, syncOf_writeObj_near, syncOf_setSync_same]

theorem counts_applied (s : State) (die : Nat) (m : SignalMsg) : Counts s (applied s die m) F.synSignalCount_count die 0 1 := by
  unfold applied
  extract_lets o taken s1
  exact (counts_bump s1 (by decide) die 0 1).congr rfl ((saturated_effect ..).field_same _ (by decide) ..)

theorem exec_signalApply {die : Die} {m : SignalMsg} {mf : MemFaults} {s : State} (hnext : nextSignal s die = some m)
    (hnear : m.far = false) (hgrant : isGrant s die false m.index = false)
    (halone : (syncOf s die).signals.filter (sameCycle s die m) = [m]) (hheld : heldAt s die m.index = []) :
    exec (.signalApply die mf) s = .next (setHeld (applied s die m) die m.index []) := by
  have hrest := filter_not_eq_erase halone
  have hnone : heldAt (applied s die m) die m.index = [] := by rw [heldAt, syncOf_applied]; exact hheld
  rw [← examineObj_none hnone
    ⟨min ((Map.getD (syncOf s die).near m.index ⟨0, 0, 0⟩).count + m.increment) (2 ^ 32 - 1), m.src, m.sent⟩ none]
  show execSignalApply die mf s = _
  unfold sameCycle at halone hrest
  simp only [execSignalApply, hnext, hnear, halone, hrest, hgrant, Bool.false_and, Bool.false_eq_true, if_false, objReads, Bool.not_false,
    Bool.true_or, Bool.not_true, objEffects, readObj, syncOf_setSync_same, applySignals, List.length_singleton, applied, saturated,
    Nat.zero_add]

/-! ### WAIT_ARRIVE (R465 to R467) -/

/-- The unit once a WAIT has joined its object. -/
def joined (s : State) (die : Nat) (w : WaitReq) : State :=
  setHeld (setSync s die { syncOf s die with arriving := (syncOf s die).arriving.erase w }) die w.index [w]

theorem joined_effect (s : State) (die : Nat) (w : WaitReq) : Effect [.sync] s (joined s die w) :=
  (setHeld_effect ..).step (setSync_effect ..) (by decide)

theorem near_joined (s : State) (die : Nat) (w : WaitReq) : (syncOf (joined s die w) die).near = (syncOf s die).near := by
  rw [joined, near_setHeld, syncOf_setSync_same]

theorem arriving_joined (s : State) (die : Nat) (w : WaitReq) :
    (syncOf (joined s die w) die).arriving = (syncOf s die).arriving.erase w := by
  rw [joined, arriving_setHeld, syncOf_setSync_same]

/-- The unit once the WAIT that has joined is tested. -/
def tested (s : State) (die : Nat) (w : WaitReq) : State :=
  examineObj (joined s die w) die false w.index (Map.getD (syncOf s die).near w.index ⟨0, 0, 0⟩) (some w)

theorem exec_waitArrive {die : Die} {w : WaitReq} {mf : MemFaults} {s : State} (hnext : nextArriving s die = some w)
    (hnear : w.far = false) (hheld : heldAt s die w.index = []) : exec (.waitArrive die mf) s =
    .next (if w.bound = 0 && (heldAt (tested s die w) die w.index).contains w then
      timeoutWait (setHeld (tested s die w) die w.index ((heldAt (tested s die w) die w.index).erase w)) die w
    else tested s die w) := by
  have hjoin : heldAt (setSync s die { syncOf s die with arriving := (syncOf s die).arriving.erase w }) die w.index = [] :=
    (heldAt_setSync_same ..).trans hheld
  have hread := congrArg (fun m => Map.getD m w.index (⟨0, 0, 0⟩ : SyncObj)) (near_joined s die w)
  show execWaitArrive die mf s = _
  unfold joined at hread
  simp only [execWaitArrive, hnext, hnear, objKey, objReads, objEffects, readObj, hjoin, hread, List.nil_append, Bool.not_false,
    Bool.true_or, if_true, Bool.false_eq_true, if_false, tested, joined]
  exact (apply_ite Host.Outcome.next _ _ _).symm

theorem heldAt_joined (s : State) (die : Nat) (w : WaitReq) : heldAt (joined s die w) die w.index = [w] := heldAt_setHeld_same ..

/-- A WAIT met at its first test is released, and leaves nothing held. -/
theorem tested_met {s : State} {die : Nat} {w : WaitReq} {o : SyncObj} (ho : Map.getD (syncOf s die).near w.index ⟨0, 0, 0⟩ = o)
    (hcount : w.target ≤ o.count) (hbound : w.overdue (now s die) = false) :
    heldAt (tested s die w) die w.index = [] ∧ Counts s (tested s die w) F.synReleaseCount_count die 0 1 ∧
      (Map.getD (syncOf (tested s die w) die).near w.index ⟨0, 0, 0⟩).count = if w.consume then o.count - w.target else o.count := by
  have hmet : tested s die w = releaseWait o false die (metObj (joined s die w) die w.index w o) w :=
    ho ▸ examineObj_met (heldAt_joined ..) (ho ▸ hcount) hbound
  have hrel := releaseWait_effect o false die (metObj (joined s die w) die w.index w o) w
  rw [hmet]
  refine ⟨?_, ?_, ?_⟩
  · rw [heldAt_of_sync (hrel.sync_same (by decide)), heldAt_metObj]
  · exact (counts_releaseWait ..).congr ((metObj_counter ..).trans ((joined_effect ..).field_same _ (by decide) ..)) rfl
  · rw [hrel.syncOf_same (by decide), count_metObj w (near_joined s die w ▸ ho)]

/-- A WAIT that is not met, or comes overdue, stands held at its first test. -/
theorem tested_unmet {s : State} {die : Nat} {w : WaitReq}
    (h : (Map.getD (syncOf s die).near w.index ⟨0, 0, 0⟩).count < w.target ∨ w.overdue (now s die) = true) :
    tested s die w = setHeld (joined s die w) die w.index [w] :=
  examineObj_unmet (heldAt_joined ..) h _

theorem signalApply_counts {die : Die} {m : SignalMsg} {mf : MemFaults} {s : State} (hnext : nextSignal s die = some m)
    (hnear : m.far = false) (hgrant : isGrant s die false m.index = false)
    (halone : (syncOf s die).signals.filter (sameCycle s die m) = [m]) (hheld : heldAt s die m.index = []) :
    let o : SyncObj := Map.getD (syncOf s die).near m.index ⟨0, 0, 0⟩
    Gives (exec (.signalApply die mf) s) fun t =>
      Map.find (syncOf t die).near m.index = some ⟨min (o.count + m.increment) (2 ^ 32 - 1), m.src, m.sent⟩ ∧
      (syncOf t die).signals = (syncOf s die).signals.erase m ∧ Counts s t F.synSignalCount_count die 0 1 := by
  intro o
  refine ⟨_, exec_signalApply hnext hnear hgrant halone hheld, ?_, ?_, counts_applied s die m⟩
  · rw [near_setHeld, syncOf_applied]
    exact Map.find_put_same ..
  · rw [signals_setHeld, syncOf_applied]

theorem waitArrive_tests {die : Die} {w : WaitReq} {mf : MemFaults} {s : State} (hnext : nextArriving s die = some w)
    (hnear : w.far = false) (hheld : heldAt s die w.index = []) :
    let o : SyncObj := Map.getD (syncOf s die).near w.index ⟨0, 0, 0⟩
    (w.target ≤ o.count → w.overdue (now s die) = false → Gives (exec (.waitArrive die mf) s) fun t =>
      heldAt t die w.index = [] ∧ Counts s t F.synReleaseCount_count die 0 1 ∧
      (Map.getD (syncOf t die).near w.index ⟨0, 0, 0⟩).count = if w.consume then o.count - w.target else o.count) ∧
    ((o.count < w.target ∨ w.overdue (now s die) = true) → w.bound ≠ 0 → Gives (exec (.waitArrive die mf) s) fun t =>
      heldAt t die w.index = [w] ∧ Map.getD (syncOf t die).near w.index ⟨0, 0, 0⟩ = o ∧
      (syncOf t die).arriving = (syncOf s die).arriving.erase w) ∧
    (o.count < w.target → w.bound = 0 → Gives (exec (.waitArrive die mf) s) fun t =>
      heldAt t die w.index = [] ∧ Counts s t F.synTimeoutCount_count die 0 1) := by
  intro o
  have hexec := exec_waitArrive (mf := mf) hnext hnear hheld
  refine ⟨fun hcount hbound => ?_, fun hunmet hbound => ?_, fun hcount hbound => ?_⟩
  · have hmet := tested_met (o := o) rfl hcount hbound
    rw [hmet.1, if_neg (by simp)] at hexec
    exact ⟨_, hexec, hmet⟩
  · rw [if_neg (by simp [hbound]), tested_unmet hunmet] at hexec
    refine ⟨_, hexec, heldAt_setHeld_same .., ?_, ?_⟩
    · rw [near_setHeld, near_joined]
    · rw [arriving_setHeld, arriving_joined]
  · rw [tested_unmet (.inl hcount), heldAt_setHeld_same, if_pos (by simp [hbound]), List.erase_cons_head] at hexec
    have hsame : Effect [.sync] s (setHeld (setHeld (joined s die w) die w.index [w]) die w.index []) :=
      (setHeld_effect ..).step ((setHeld_effect ..).step (joined_effect ..) (by decide)) (by decide)
    exact ⟨_, hexec, heldAt_timeoutWait (heldAt_setHeld_same ..) w,
      (counts_timeoutWait ..).congr (hsame.field_same _ (by decide) ..) rfl⟩

/-! ### WAIT_TIMEOUT (R267, R467) -/

/-- A core's frozen cycles counted before its WAIT ends (R267). -/
def frozenFor (s : State) (w : Waiter) (n : Nat) : State :=
  match w with
  | .core k => countFrozen s k (min n (knownSlip (coreOf s k))) (n - min n (knownSlip (coreOf s k)))
  | _ => s

theorem frozenFor_effect (s : State) (w : Waiter) (n : Nat) :
    Effect [.cores, .reg .seqReplayCycles, .reg .seqSlipCycles, .reg .seqWaitCycles] s (frozenFor s w n) := by
  cases w with
  | core k => exact countFrozen_effect ..
  | collective k => exact .refl ..
  | companion k => exact .refl ..

theorem exec_waitTimeout {die : Die} {i n : Nat} {w : WaitReq} {s : State} (hat : (boundedWaits s die)[i]? = some w)
    (hover : w.issued + w.bound * 256_000 ≤ now s die) :
    exec (.waitTimeout die ⟨i, n⟩) s = .next (timeoutWait (withdrawWait (frozenFor s w.waiter n) die w) die w) := by
  show execWaitTimeout die ⟨i, n⟩ s = _
  simp only [execWaitTimeout, hat]
  rw [if_pos hover]
  cases w.waiter <;> rfl

theorem waitTimeout_withdraws {die : Die} {i n : Nat} {w : WaitReq} {s : State} (hat : (boundedWaits s die)[i]? = some w)
    (hover : w.issued + w.bound * 256_000 ≤ now s die) (hwaiter : (∀ k, w.waiter ≠ .core k) ∨ waiterDie w.waiter ≠ die) :
    let key := objKey w.far w.index
    Gives (exec (.waitTimeout die ⟨i, n⟩) s) fun t =>
      heldAt t die key = (heldAt s die key).erase w ∧ (syncOf t die).near = (syncOf s die).near ∧
      (syncOf t die).arriving =
        (if w ∈ heldAt s die key then (syncOf s die).arriving else (syncOf s die).arriving.erase w) ∧
      Counts s t F.synTimeoutCount_count die 0 1 ∧
      (waiterDie w.waiter ≠ die → t.bridge = s.bridge ++ [⟨1 - die, now s die, now s (1 - die) + bridgeTicks, .timeout w.waiter⟩]) := by
  intro key
  have hfrozen := frozenFor_effect s w.waiter n
  have hsync := hfrozen.sync_same (by decide)
  have hgone := withdrawWait_effect (frozenFor s w.waiter n) die w
  have hend := sync_timeoutWait (withdrawWait (frozenFor s w.waiter n) die w) die hwaiter
  have hunit : syncOf (timeoutWait (withdrawWait (frozenFor s w.waiter n) die w) die w) die =
      syncOf (withdrawWait (frozenFor s w.waiter n) die w) die := by rw [syncOf, hend, syncOf]
  refine ⟨_, exec_waitTimeout hat hover, ?_, ?_, ?_, ?_, fun hother => ?_⟩
  · rw [heldAt_of_sync hend, heldAt_withdrawWait, heldAt_of_sync hsync]
  · rw [hunit, near_withdrawWait, hfrozen.syncOf_same (by decide)]
  · rw [hunit, arriving_withdrawWait, heldAt_of_sync hsync, hfrozen.syncOf_same (by decide)]
  · refine (counts_timeoutWait ..).congr ?_ rfl
    exact (hgone.field_same _ (by decide) ..).trans (hfrozen.field_same _ (by decide) ..)
  · have hbridge : (withdrawWait (frozenFor s w.waiter n) die w).bridge = s.bridge :=
      (hgone.frame.same .bridge (by decide)).trans (hfrozen.frame.same .bridge (by decide))
    rw [bridge_timeoutWait _ _ hother, hbridge]
    simp only [hgone.now_same (by decide), hfrozen.now_same (by decide)]

theorem waitTimeout_endsStream {die : Die} {i k n : Nat} {w : WaitReq} {s : State} (hat : (boundedWaits s die)[i]? = some w)
    (hover : w.issued + w.bound * 256_000 ≤ now s die) (hcore : w.waiter = .core k) (hown : k / 24 = die)
    (hrun : (coreOf s k).runDesc ≠ none) :
    Gives (exec (.waitTimeout die ⟨i, n⟩) s) fun t => StreamEnded s t k stTimeout ∧ Counts s t F.synTimeoutCount_count die 0 1 := by
  have hfrozen := frozenFor_effect s w.waiter n
  have hgone := withdrawWait_effect (frozenFor s w.waiter n) die w
  have hcounted : Effect [.icuTimers, .wakePending, .sync, .reg .icuPend, .reg .synTimeoutCount] (frozenFor s w.waiter n)
      (irq (bump (withdrawWait (frozenFor s w.waiter n) die w) F.synTimeoutCount_count die 0 1) die 5 9) :=
    (irq_effect ..).step ((bump_effect ..).step (hgone.one (by decide)) (by decide)) (by decide)
  have htally : (coreOf s k).Tallied (coreOf (frozenFor s w.waiter n) k) := by
    rw [hcore]
    exact countFrozen_core ..
  refine ⟨_, exec_waitTimeout hat hover, ?_, ?_⟩
  · rw [timeoutWait, if_pos (by rw [hcore]; exact hown), hcore]
    have hafter := hcounted.coreOf_same (by decide) k
    rw [hcore] at hafter htally hcounted hfrozen
    obtain ⟨flags, slipRun, frozen, hc⟩ := htally
    refine (endStream_ended (k := k) ?_ stTimeout).of_tallied ⟨flags, slipRun, frozen, hafter.trans hc⟩ ?_
    · rw [hafter, hc]
      exact hrun
    · exact (streamCount_of_effect hcounted (by decide) (by decide) k).trans
        (streamCount_of_effect hfrozen (by decide) (by decide) k)
  · refine (counts_timeoutWait ..).congr ?_ rfl
    exact (hgone.field_same _ (by decide) ..).trans (hfrozen.field_same _ (by decide) ..)

/-- Settles O32: the unit applies its only SIGNAL of a cycle, tests the WAIT that has joined, and withdraws one whose bound has passed. -/
theorem objectsCountSignalsAndReleaseWaits : Obligations.ObjectsCountSignalsAndReleaseWaits := by
  refine ⟨?_, ?_, ?_, ?_⟩
  · intro die m mf s o hnext hnear hgrant halone hheld
    exact signalApply_counts hnext hnear hgrant halone hheld
  · intro die w mf s o hnext hnear hheld
    exact waitArrive_tests hnext hnear hheld
  · intro die i n w s key hat hover hwaiter
    exact waitTimeout_withdraws hat hover hwaiter
  · intro die i k n w s hat hover hcore hown hrun
    exact waitTimeout_endsStream hat hover hcore hown hrun

end Sys2Proof.Machine
end

section
/-! PROOF. A collective command at the front of its ring: each check lets it through or completes it, and one let through waits for its
start (R475 to R480, R504, R530, R598). -/

namespace Sys2Proof.Machine

/-! ### The checks (R27, R28, R478) -/

/-- A collective command that a check ends. -/
def turnedAway (s : State) (die r : Nat) (d : Desc) (status : Nat) : State :=
  ringAdvance (finishWith s die (24 + r) d status) die (24 + r)

/-- A collective command of no members, elements or runs. -/
def endedEmpty (s : State) (die r : Nat) (d : Desc) : State :=
  ringAdvance (finish s die (24 + r) d stEmpty 0 0 0 (colOfDesc s die d).signal) die (24 + r)

/-- The bytes of a command's group table, and its entries (R477). -/
def Collective.tableLen (c : Collective) : Nat := if c.isMcast then 0 else 4 * c.members
def groupTable (s : State) (c : Collective) : List Nat :=
  (List.range (c.tableLen / 4)).map fun i => leAt (memBytes s c.group c.tableLen) (4 * i) 4

/-- A command let through, on its ring and in its table, before its first run is due. -/
def listed (s : State) (die r : Nat) (d : Desc) (c : Collective) : State :=
  settlePower (setActive (setCol (keepActive s die (24 + r) d) (colKey die r) c) (colKey die r) true)

/-- A command let through, with its group table. -/
def accepted (s : State) (die r : Nat) (d : Desc) (c : Collective) : State :=
  nextRun (takeWaiting (listed s die r d c) (colKey die r)) (colKey die r)

theorem exec_collective {die : Die} {ring : Fin 8} {i : Instr} {op : Nat}
    (h : (i, op) ∈ [(Instr.reduceScatter die ring .none, opReduceScatter), (.allGather die ring .none, opAllGather),
      (.allReduce die ring .none, opAllReduce), (.multicast die ring, opMulticast)]) (s : State) :
    exec i s = .next (acceptCollective s die ring op .none) := by
  simp only [List.mem_cons, Prod.mk.injEq, List.not_mem_nil, or_false] at h
  rcases h with ⟨rfl, rfl⟩ | ⟨rfl, rfl⟩ | ⟨rfl, rfl⟩ | ⟨rfl, rfl⟩ <;> rfl

section
variable {die r op : Nat} {d : Desc} {s s1 : State}
  (htake : takeDesc s die (24 + r) (fun d => d.at_ 8 1 % 16 = op) = some (d, s1))
include htake

theorem accept_invalid (hok : colFieldsOk s1 die d (colOfDesc s1 die d) = false) :
    acceptCollective s die r op .none = turnedAway s1 die r d stInvalid := by
  simp only [acceptCollective, htake, hok, Bool.not_false, if_true, turnedAway]

theorem accept_refused (hok : colFieldsOk s1 die d (colOfDesc s1 die d) = true)
    (h : jobState s1 ≠ 2 ∨ ((colOfDesc s1 die d).isMcast = true ∧ rflag s1 F.fabRouteCtrl_routeValid die 0 = false)) :
    acceptCollective s die r op .none = turnedAway s1 die r d stRefused := by
  simp only [acceptCollective, htake, hok, Bool.not_true, Bool.false_eq_true, if_false]
  exact if_pos (by simpa using h)

/-- The command's fields pass their checks, a job runs, and a multicast finds the route table committed. -/
structure ColAdmitted (s1 : State) (die : Nat) (d : Desc) : Prop where
  fields : colFieldsOk s1 die d (colOfDesc s1 die d) = true
  job : jobState s1 = 2
  routed : (colOfDesc s1 die d).isMcast = true → rflag s1 F.fabRouteCtrl_routeValid die 0 = true

theorem accept_empty (hadm : ColAdmitted s1 die d) (h : (colOfDesc s1 die d).members = 0 ∨ (colOfDesc s1 die d).elems = 0 ∨
    (colOfDesc s1 die d).runs = 0) : acceptCollective s die r op .none = endedEmpty s1 die r d := by
  simp only [acceptCollective, htake, hadm.fields, Bool.not_true, Bool.false_eq_true, if_false]
  rw [if_neg (by simpa [hadm.job] using hadm.routed), if_pos (by simpa [or_assoc] using h)]
  rfl

theorem accept_tested (hadm : ColAdmitted s1 die d) (hmembers : (colOfDesc s1 die d).members ≠ 0)
    (helems : (colOfDesc s1 die d).elems ≠ 0) (hruns : (colOfDesc s1 die d).runs ≠ 0)
    (hreads : readsWell s1 (colOfDesc s1 die d).group (colOfDesc s1 die d).tableLen)
    (hvis : hiddenIn s1 (colOfDesc s1 die d).group (colOfDesc s1 die d).tableLen = []) :
    acceptCollective s die r op .none =
      let c := colOfDesc s1 die d
      let table := groupTable s1 c
      if !c.isMcast && !groupOk table c.own then turnedAway s1 die r d stInvalid
      else if !rflag s1 F.fabRouteCtrl_routeValid die 0 && table.any (fun e => e / 2 ≠ location s1) then
        turnedAway s1 die r d stRefused
      else accepted s1 die r d { c with table := table } := by
  have hfail : failRow s1 .none (colOfDesc s1 die d).group (colOfDesc s1 die d).tableLen = none := hreads
  have hread := readEffects_of_readsWell hreads
  have hbytes := memRead_of_visible hvis .engine
  unfold Collective.tableLen at hfail hread hbytes
  simp only [acceptCollective, htake, hadm.fields, Bool.not_true, Bool.false_eq_true, if_false]
  rw [if_neg (by simpa [hadm.job] using hadm.routed), if_neg (by simp [hmembers, helems, hruns])]
  simp only [hread, hfail, hbytes, Option.isSome_none, Bool.false_eq_true, if_false]
  rfl

/-- A command that a check ends completes, and leaves memory and the commands of the engine as they were. -/
theorem turnedAway_completes (status : Nat) : let t := turnedAway s1 die r d status
    Completed t die (24 + r) d status ∧ t.mem = s.mem ∧ t.cols = s.cols := by
  have hend := finishWith_effect s1 die (24 + r) d status
  have hadv := ringAdvance_effect (finishWith s1 die (24 + r) d status) die (24 + r)
  refine ⟨?_, ?_, ?_⟩
  · obtain ⟨c, hc, h⟩ := finishWith_completed s1 die (24 + r) d status
    exact ⟨c, mem_toWrite_ringAdvance hc, h⟩
  · exact (hadv.mem_same (by decide)).trans ((hend.mem_same (by decide)).trans ((takeDesc_effect htake).mem_same (by decide)))
  · exact Eq.trans (hadv.frame.same .cols (by decide))
      (Eq.trans (hend.frame.same .cols (by decide)) ((takeDesc_effect htake).frame.same .cols (by decide)))

theorem endedEmpty_completes : let t := endedEmpty s1 die r d
    CompletedWith t die (24 + r) d stEmpty 0 ∧ t.mem = s.mem ∧ t.cols = s.cols := by
  have hend := finish_effect s1 die (24 + r) d stEmpty 0 0 0 (colOfDesc s1 die d).signal
  have hadv := ringAdvance_effect (finish s1 die (24 + r) d stEmpty 0 0 0 (colOfDesc s1 die d).signal) die (24 + r)
  refine ⟨?_, ?_, ?_⟩
  · obtain ⟨c, hc, h⟩ := finish_completedWith s1 die (24 + r) d stEmpty 0 0 0 (colOfDesc s1 die d).signal
    exact ⟨c, mem_toWrite_ringAdvance hc, h⟩
  · exact (hadv.mem_same (by decide)).trans ((hend.mem_same (by decide)).trans ((takeDesc_effect htake).mem_same (by decide)))
  · exact Eq.trans (hadv.frame.same .cols (by decide))
      (Eq.trans (hend.frame.same .cols (by decide)) ((takeDesc_effect htake).frame.same .cols (by decide)))

end

end Sys2Proof.Machine
end

section
/-! PROOF. The commands of the collective engine, and the run that is due: it waits for its start, at once released where the target is 0
(R461, R465, R475, R480, R486, R504). -/

namespace Sys2Proof.Machine

/-! ### The commands by their keys -/

@[simp] theorem colOf_setCol_same (s : State) (k : Nat) (c : Collective) : colOf (setCol s k c) k = some c := Map.find_put_same ..

theorem Effect.cols_same {w : List Part} {s t : State} (h : Effect w s t) (hw : Part.cols ∉ w) : t.cols = s.cols :=
  h.frame.same .cols hw

theorem Effect.colOf_same {w : List Part} {s t : State} (h : Effect w s t) (hw : Part.cols ∉ w) (k : Nat) : colOf t k = colOf s k :=
  congrArg (Map.find · k) (h.cols_same hw)

theorem Effect.bridge_same {w : List Part} {s t : State} (h : Effect w s t) (hw : Part.bridge ∉ w) : t.bridge = s.bridge :=
  h.frame.same .bridge hw

theorem colKey_die (die r : Nat) (h : r < 8) : colKey die r / 8 = die := by unfold colKey; omega
theorem colKey_ring (die r : Nat) (h : r < 8) : colKey die r % 8 = r := by unfold colKey; omega

/-- A ring's bit of COL_STATUS once it has been set (R504). -/
theorem active_setActive (s : State) (k : Nat) : bitOf (rf (setActive s k true) F.colStatus_active (k / 8) 0) (k % 8) = true := by
  have hring : k % 8 < 8 := Nat.mod_lt _ (by decide)
  rw [setActive, rf_wf_same _ _ _ _ _ (by decide), bitOf]
  show ((rf s F.colStatus_active (k / 8) 0 ||| 2 ^ (k % 8)) % 2 ^ 8).testBit (k % 8) = true
  rw [Nat.testBit_mod_two_pow, Nat.testBit_or, Nat.testBit_two_pow_self]
  simp [hring]

/-! ### The run due (R480, R486) -/

/-- The command with its run due: its counts are cleared and it waits for its start, already released or not. -/
def Collective.due (c : Collective) (released : Bool) : Collective :=
  { c with
    digest := runDigest c, phase := .waiting, runFlags := 0, stopped := false, status := stOk, got := [], written := 0, acks := 0
    refusals := 0, fenced := [], released }

/-- The start WAIT of a run (R461, R480). -/
def Collective.startReq (c : Collective) (k issued : Nat) : WaitReq :=
  ⟨bitOf c.start 40, bits c.start 39 16, bits c.start 15 0, true, c.bound, issued, .collective k, 0⟩

theorem startWait_met {s : State} {k : Nat} {c : Collective} (hcol : colOf s k = some c) (htarget : bits c.start 15 0 = 0) :
    startWait s k = bump (setCol s k (c.due true)) F.synReleaseCount_count (k / 8) 0 1 := by
  unfold startWait
  rw [hcol]
  exact if_pos htarget

theorem startWait_sent {s : State} {k : Nat} {c : Collective} (hcol : colOf s k = some c) (htarget : bits c.start 15 0 ≠ 0) :
    startWait s k = sendWait (setCol s k (c.due false)) (k / 8) (c.startReq k (now s (k / 8))) := by
  unfold startWait
  rw [hcol]
  exact if_neg htarget

theorem colOf_startWait {s : State} {k : Nat} {c : Collective} (hcol : colOf s k = some c) :
    colOf (startWait s k) k = some (c.due (decide (bits c.start 15 0 = 0))) := by
  by_cases htarget : bits c.start 15 0 = 0
  · rw [startWait_met hcol htarget, (bump_effect ..).colOf_same (by decide), colOf_setCol_same, decide_eq_true htarget]
  · rw [startWait_sent hcol htarget, (sendWait_effect ..).colOf_same (by decide), colOf_setCol_same, decide_eq_false htarget]

/-- No abort has come for a run that waits for its start. -/
theorem earlyAbort_none {s : State} {k : Nat} {c : Collective} (hcol : colOf s k = some c) (hearly : ∀ p ∈ c.early, p.kind ≠ ptAbort) :
    earlyAbort s k = s := by
  have hfind : (c.early.find? fun p => p.kind = ptAbort && bits p.word 63 32 = c.digest) = none :=
    List.find?_eq_none.mpr fun p hp => by simp [hearly p hp]
  unfold earlyAbort
  rw [hcol]
  simp only [hfind]

theorem nextRun_due {s : State} {k : Nat} {c : Collective} (hcol : colOf s k = some c) (hearly : ∀ p ∈ c.early, p.kind ≠ ptAbort) :
    nextRun s k = startWait s k :=
  earlyAbort_none (colOf_startWait hcol) hearly

/-! ### The packets that waited for a command (R486) -/

/-- Where no packet waits at the die, the command accepted is as it was. -/
theorem colOf_takeWaiting_none {s : State} {k : Nat} {c : Collective} (hcol : colOf s k = some c) (hnone : waitingAt s (k / 8) = []) :
    colOf (takeWaiting s k) k = some c := by
  unfold takeWaiting
  rw [hcol]
  simp only [hnone, List.filter_nil, List.foldl_nil, List.append_nil]
  exact Map.find_put_same ..

end Sys2Proof.Machine
end

section
/-! PROOF. A collective command accepted is active on its ring with its table, and waits for the start of its first run (R477, R480,
R504). -/

namespace Sys2Proof.Machine

section
variable {die r : Nat} {d : Desc} {s s1 : State} {c : Collective}

theorem listed_effect (s : State) (die r : Nat) (d : Desc) (c : Collective) :
    Effect [.cols, .eph, .hostMem, .icuTimers, .rings, .wakePending, .reg .colStatus, .reg .ephLostCount, .reg .ephSeq, .reg .hifRingHead,
      .reg .icuPend, .reg .pwrStatus] s (listed s die r d c) :=
  (settlePower_effect _).step ((setActive_effect ..).step ((setCol_effect ..).step ((keepActive_effect ..).one (by decide)) (by decide))
    (by decide)) (by decide)

theorem colOf_listed (s : State) (die r : Nat) (d : Desc) (c : Collective) : colOf (listed s die r d c) (colKey die r) = some c := by
  rw [listed, (settlePower_effect _).colOf_same (by decide), (setActive_effect ..).colOf_same (by decide), colOf_setCol_same]

/-- What taking the packets that waited and making the run due leave alone. -/
abbrev accepting_parts : List Part :=
  [.bridge, .colEnded, .colWaiting, .cols, .eph, .flowsTx, .hostMem, .icuTimers, .sync, .wakePending, .reg .colDropCount,
    .reg .ephLostCount, .reg .ephSeq, .reg .hifRingHead, .reg .icuPend, .reg .synReleaseCount]

theorem accepted_listed (s : State) (die r : Nat) (d : Desc) (c : Collective) :
    Effect accepting_parts (listed s die r d c) (accepted s die r d c) :=
  (nextRun_effect ..).step ((takeWaiting_effect ..).one (by decide)) (by decide)

theorem mem_active_accepted (s : State) (die r : Nat) (d : Desc) (c : Collective) :
    d ∈ (ringWork (accepted s die r d c) die (24 + r)).active := by
  have hset : Effect [.cols, .reg .colStatus] (keepActive s die (24 + r) d)
      (setActive (setCol (keepActive s die (24 + r) d) (colKey die r) c) (colKey die r) true) :=
    (setActive_effect ..).step ((setCol_effect ..).one (by decide)) (by decide)
  rw [(accepted_listed ..).ringWork_same (by decide), listed, (settlePower_effect _).ringWork_same (by decide),
    hset.ringWork_same (by decide)]
  exact mem_active_keepActive ..

theorem active_accepted (s : State) (die : Nat) {r : Nat} (hr : r < 8) (d : Desc) (c : Collective) :
    bitOf (rf (accepted s die r d c) F.colStatus_active die 0) r = true := by
  rw [(accepted_listed ..).field_same _ (by decide), listed, (settlePower_effect _).field_same _ (by decide)]
  have h := active_setActive (setCol (keepActive s die (24 + r) d) (colKey die r) c) (colKey die r)
  rwa [colKey_die _ _ hr, colKey_ring _ _ hr] at h

section
variable (hr : r < 8) (hearly : c.early = []) (hnone : waitingAt s die = [])
include hr hnone

theorem colOf_taken : colOf (takeWaiting (listed s die r d c) (colKey die r)) (colKey die r) = some c := by
  refine colOf_takeWaiting_none (colOf_listed ..) ?_
  rw [colKey_die _ _ hr, waitingAt, (listed_effect ..).frame.same .colWaiting (by decide)]
  exact hnone

include hearly

theorem accepted_due : accepted s die r d c = startWait (takeWaiting (listed s die r d c) (colKey die r)) (colKey die r) :=
  nextRun_due (colOf_taken hr hnone) (by simp [hearly])

theorem colOf_accepted : colOf (accepted s die r d c) (colKey die r) = some (c.due (decide (bits c.start 15 0 = 0))) := by
  rw [accepted_due hr hearly hnone]
  exact colOf_startWait (colOf_taken hr hnone)

theorem accepted_met (htarget : bits c.start 15 0 = 0) :
    Counts s (accepted s die r d c) F.synReleaseCount_count die 0 1 ∧ (accepted s die r d c).sync = s.sync := by
  have htaken := takeWaiting_effect (listed s die r d c) (colKey die r)
  rw [accepted_due hr hearly hnone, startWait_met (colOf_taken hr hnone) htarget, colKey_die _ _ hr]
  refine ⟨(counts_bump (setCol (takeWaiting (listed s die r d c) (colKey die r)) (colKey die r) (c.due true)) (by decide) die 0 1).congr
    ?_ rfl, ?_⟩
  · rw [(setCol_effect ..).field_same _ (by decide), htaken.field_same _ (by decide), (listed_effect ..).field_same _ (by decide)]
  · rw [(bump_effect ..).sync_same (by decide), (setCol_effect ..).sync_same (by decide), htaken.sync_same (by decide),
      (listed_effect ..).sync_same (by decide)]

theorem accepted_sent (hdie : die < 2) (htarget : bits c.start 15 0 ≠ 0) :
    let t := accepted s die r d c
    let dest := servingDie (bitOf c.start 40) (bits c.start 39 16) die
    ∃ w : WaitReq, w.far = bitOf c.start 40 ∧ w.index = bits c.start 39 16 ∧ w.target = bits c.start 15 0 ∧
      w.consume = true ∧ w.bound = c.bound ∧ w.waiter = .collective (colKey die r) ∧
      if dest = die then (syncOf t dest).arriving = (syncOf s dest).arriving ++ [w] ∧ t.bridge = s.bridge
      else t.sync = s.sync ∧ t.bridge = s.bridge ++ [⟨dest, now s die, now s dest + bridgeTicks, .wait w⟩] := by
  intro t dest
  set u := takeWaiting (listed s die r d c) (colKey die r) with hu
  have hs : Effect [.colEnded, .colWaiting, .cols, .eph, .hostMem, .icuTimers, .rings, .wakePending, .reg .colDropCount, .reg .colStatus,
      .reg .ephLostCount, .reg .ephSeq, .reg .hifRingHead, .reg .icuPend, .reg .pwrStatus] s (setCol u (colKey die r) (c.due false)) :=
    (setCol_effect ..).step ((takeWaiting_effect ..).step ((listed_effect ..).mono (by decide)) (by decide)) (by decide)
  have ht : t = _ := (accepted_due hr hearly hnone).trans (startWait_sent (colOf_taken hr hnone) htarget)
  rw [colKey_die _ _ hr, ← hu] at ht
  have hsent := sendWait_sends hdie _ (congrArg State.sync ht) (congrArg State.bridge ht)
  simp only [hs.syncOf_same (by decide), hs.now_same (by decide), hs.bridge_same (by decide), hs.sync_same (by decide)] at hsent
  by_cases hd : dest = die
  · refine ⟨{ c.startReq (colKey die r) (now u die) with arrival := now s dest + lMinDie }, rfl, rfl, rfl, rfl, rfl, rfl, ?_⟩
    rw [if_pos hd]
    exact (if_pos hd).mp hsent
  · refine ⟨c.startReq (colKey die r) (now u die), rfl, rfl, rfl, rfl, rfl, rfl, ?_⟩
    rw [if_neg hd]
    exact (if_neg hd).mp hsent

end
end

/-- Settles O35: the checks end the command with their status, or list it with its table and make its first run due. -/
theorem collectivesAreAcceptedAndWait : Obligations.CollectivesAreAcceptedAndWait := by
  intro die ring i op d s s1 hop r k c routed len table htake hnone
  have hexec := exec_collective hop s
  have hs1 := takeDesc_effect htake
  have hend : ∀ {status}, acceptCollective s die ring op .none = turnedAway s1 die ring d status → Gives (exec i s) fun t =>
      Completed t die r d status ∧ t.mem = s.mem ∧ t.cols = s.cols :=
    fun h => ⟨_, hexec.trans (congrArg _ h), turnedAway_completes htake _⟩
  refine ⟨fun hok => hend (accept_invalid htake hok), fun hok => ⟨fun hstop => hend (accept_refused htake hok hstop),
    fun hjob hrouted => ⟨fun hempty => ?_, fun hmembers helems hruns hreads hvis => ?_⟩⟩⟩
  · exact ⟨_, hexec.trans (congrArg _ (accept_empty htake ⟨hok, hjob, hrouted⟩ hempty)), endedEmpty_completes htake⟩
  · have htable : groupTable s1 c = table := by rw [groupTable, memBytes_of_mem (hs1.mem_same (by decide))]; rfl
    have htest : acceptCollective s die ring op .none =
        if !c.isMcast && !groupOk table c.own then turnedAway s1 die ring d stInvalid
        else if !routed && table.any (fun e => e / 2 ≠ location s1) then turnedAway s1 die ring d stRefused
        else accepted s1 die ring d { c with table := table } := by
      rw [← htable]
      exact accept_tested htake ⟨hok, hjob, hrouted⟩ hmembers helems hruns hreads hvis
    have hgood : (c.isMcast = true ∨ groupOk table c.own = true) → ¬(!c.isMcast && !groupOk table c.own) = true := by
      rintro (h | h) <;> simp [h]
    refine ⟨fun hchain hgroup => ?_, fun hgroup hunrouted hfar => ?_, fun hgroup hnear => ?_⟩
    · rw [if_pos (by simp [hchain, hgroup])] at htest
      exact hend htest
    · rw [if_neg (hgood hgroup), if_pos (by simpa [hunrouted] using hfar)] at htest
      exact hend htest
    · rw [if_neg (hgood hgroup), if_neg (by rcases hnear with h | h <;> rw [h] <;> simp)] at htest
      have hnone1 : waitingAt s1 die = [] := by rw [waitingAt, hs1.frame.same .colWaiting (by decide)]; exact hnone
      have hmem : (accepted s1 die ring d { c with table := table }).mem = s.mem :=
        ((accepted_listed ..).mem_same (by decide)).trans (((listed_effect ..).mem_same (by decide)).trans (hs1.mem_same (by decide)))
      refine ⟨_, hexec.trans (congrArg _ htest), ?_, mem_active_accepted .., active_accepted _ _ ring.isLt _ _, hmem, fun htarget => ?_,
        fun htarget => ?_⟩
      · exact ⟨_, colOf_accepted ring.isLt rfl hnone1, rfl, rfl, rfl, rfl, rfl, decide_eq_true_iff⟩
      · obtain ⟨hcount, hsync⟩ := accepted_met (d := d) (c := { c with table := table }) ring.isLt rfl hnone1 htarget
        exact ⟨hcount.congr (hs1.field_same _ (by decide) ..) rfl, hsync.trans (hs1.sync_same (by decide))⟩
      · have hsent := accepted_sent (d := d) (c := { c with table := table }) ring.isLt rfl hnone1 die.isLt htarget
        simp only [hs1.syncOf_same (by decide), hs1.now_same (by decide), hs1.bridge_same (by decide), hs1.sync_same (by decide)] at hsent
        exact hsent

end Sys2Proof.Machine
end

section
/-! PROOF. What the collective engine's packets and writes leave behind them: a packet queued stands in its flow, a write of no failing row
poisons none, and a run stopped is ending (R388, R427, R487, R495, R520). -/

namespace Sys2Proof.Machine

/-! ### Packets queued (R520) -/

/-- A packet waits in a flow's queue, as made but for its stamp. -/
def Queued (s : State) (key : Nat) (p : Packet) : Prop := ∃ stamp, { p with stamp } ∈ (flowTx s key).queue

theorem flowTx_setFlowTx_same (s : State) (key : Nat) (f : FlowTx) : flowTx (setFlowTx s key f) key = f := by
  simp [flowTx, setFlowTx, Map.getD, Map.find_put_same]

theorem flowTx_setFlowTx_ne (s : State) {key key' : Nat} (h : key' ≠ key) (f : FlowTx) :
    flowTx (setFlowTx s key f) key' = flowTx s key' := by
  simp [flowTx, setFlowTx, Map.getD, Map.find_put_ne _ _ _ _ h]

theorem queuePacket_queued (s : State) (die : Nat) (p : Packet) : Queued (queuePacket s die p) (flowKey die p.dst p.vc p.flow) p := by
  refine ⟨now s die, ?_⟩
  rw [queuePacket, flowTx_setFlowTx_same]
  exact List.mem_append_right _ (List.mem_singleton_self _)

theorem Queued.queuePacket {s : State} {key : Nat} {p : Packet} (h : Queued s key p) (die : Nat) (x : Packet) :
    Queued (queuePacket s die x) key p := by
  obtain ⟨stamp, hp⟩ := h
  refine ⟨stamp, ?_⟩
  rw [Machine.queuePacket]
  by_cases hk : key = flowKey die x.dst x.vc x.flow
  · rw [← hk, flowTx_setFlowTx_same]
    exact List.mem_append_left _ hp
  · rwa [flowTx_setFlowTx_ne _ hk]

theorem Effect.queued {w : List Part} {s t : State} (h : Effect w s t) (hw : Part.flowsTx ∉ w) {key : Nat} {p : Packet}
    (hp : Queued s key p) : Queued t key p := by
  unfold Queued flowTx at *
  rwa [h.frame.same .flowsTx hw]

/-! ### Poison after a write that meets no fault (R388, R427) -/

theorem poison_mergeRow_none {s : State} {a r : Nat} (h : a ∈ (mergeRow s .none r).poison) : a ∈ s.poison := by
  by_cases hr : r ∈ s.poison
  · exact (mem_mergeRow h).elim (fun e => e ▸ hr) id
  · have hsame : mergeRow s .none r = s := by simp [mergeRow, MemFaults.none, hr]
    rwa [hsame] at h

theorem poison_writeCodes_none {s : State} {base len a : Nat} {keep : Nat → Bool}
    (h : a ∈ (writeCodes s .none base len keep).poison) : a ∈ s.poison := by
  unfold writeCodes at h
  split at h
  · exact h
  · extract_lets first last whole s1 s2 s3 at h
    have h2 : a ∈ s2.poison → a ∈ s.poison := fun h => (List.mem_filter.mp h).1
    have h3 : a ∈ s3.poison → a ∈ s.poison := by
      unfold s3
      split
      · exact h2
      · exact fun h => h2 (poison_mergeRow_none h)
    split at h
    · exact h3 h
    · exact h3 (poison_mergeRow_none h)

theorem poison_memWrite_none {s : State} {m : Master} {base a : Nat} {data : Bytes} (h : a ∈ (memWrite s m .none base data).poison) :
    a ∈ s.poison := by
  have hland : ∀ t keep, (landWrite t .none base data keep).poison = (writeCodes t .none base data.length keep).poison := by
    intro t keep
    rw [landWrite, (hitGuards_effect ..).frame.same .poison (by decide), storeBytes, lostWrites_of_unfailed rfl, stored]
  unfold memWrite at h
  split at h
  · rw [hland] at h
    exact poison_writeCodes_none h
  · rw [hland] at h
    have htag := poison_writeCodes_none h
    rwa [(tagRefused_effect ..).frame.same .poison (by decide)] at htag

/-- A range that reads well still does where no more rows are poison. -/
theorem readsWell.of_poison {s t : State} {base len : Nat} (h : readsWell s base len) (hsub : ∀ r ∈ t.poison, r ∈ s.poison) :
    readsWell t base len := by
  rw [readsWell_iff] at *
  exact fun r hr => h r (hsub r hr)

/-! ### A run stopped (R480, R495, R496) -/

theorem colOf_stopRun {s : State} {k : Nat} {c : Collective} (hcol : colOf s k = some c) (status : Nat) :
    colOf (stopRun s k status) k = some { c with phase := .ending, status := status, stopped := true, early := [] } := by
  unfold stopRun
  rw [hcol]
  exact colOf_setCol_same ..

theorem mem_stopRun (s : State) (k status : Nat) : (stopRun s k status).mem = s.mem := (stopRun_effect ..).mem_same (by decide)

/-! ### A step for each packet -/

/-- What holds at first and is kept by every packet's step holds after them all. -/
theorem foldl_range_keeps {P : State → Prop} {f : State → Nat → State} {n : Nat} (hstep : ∀ q < n, ∀ t, P t → P (f t q)) {s : State}
    (h : P s) : P ((List.range n).foldl f s) := by
  induction n with
  | zero => exact h
  | succ n ih =>
    rw [List.range_succ, List.foldl_append]
    exact hstep n n.lt_succ_self _ (ih fun q hq => hstep q (hq.trans n.lt_succ_self))

/-- What each packet's step brings, and no later step takes away, is there after them all. -/
theorem foldl_range_collects {P : State → Prop} {Q : Nat → State → Prop} {f : State → Nat → State} {n : Nat}
    (hstep : ∀ q < n, ∀ t, P t → P (f t q)) (hnew : ∀ q < n, ∀ t, P t → Q q (f t q))
    (hold : ∀ q < n, ∀ j t, P t → Q j t → Q j (f t q)) {s : State} (h : P s) : ∀ q < n, Q q ((List.range n).foldl f s) := by
  induction n with
  | zero => exact fun q hq => absurd hq q.not_lt_zero
  | succ n ih =>
    intro q hq
    rw [List.range_succ, List.foldl_append]
    have hbefore : P ((List.range n).foldl f s) := foldl_range_keeps (fun q hq => hstep q (hq.trans n.lt_succ_self)) h
    rcases Nat.lt_succ_iff_lt_or_eq.mp hq with hlt | rfl
    · exact hold n n.lt_succ_self q _ hbefore (ih (fun q hq => hstep q (hq.trans n.lt_succ_self))
        (fun q hq => hnew q (hq.trans n.lt_succ_self)) (fun q hq => hold q (hq.trans n.lt_succ_self)) q hlt)
    · exact hnew q q.lt_succ_self _ hbefore

end Sys2Proof.Machine
end

section
/-! PROOF. A released run starts: a multicast sends the packets of its source, a chain its own first segment (R480, R482, R485 to R487, R492,
R533). -/

namespace Sys2Proof.Machine

/-! ### COLLECTIVE_RUN_START (R480) -/

/-- A command whose run runs from now on; packets of later runs stay with it (R486). -/
def Collective.begins (c : Collective) (stamp : Nat) : Collective :=
  { c with phase := .running, began := stamp, early := c.early.filter fun p => bits p.word 63 32 ≠ c.digest }

/-- The run of a command begins. -/
def begun (s : State) (die : Nat) (k : Nat) (c : Collective) : State := setCol s k (c.begins (now s die))

section
variable {die : Die} {ring : Fin 8} {fails : List (Fin 4)} {c : Collective} {s : State} (hcol : colOf s (colKey die ring) = some c)
  (hwaits : c.phase = .waiting) (hreleased : c.released = true)
include hcol hwaits hreleased

theorem exec_runStart_multicast (hmcast : c.isMcast = true) : exec (.collectiveRunStart die ring fails .none) s = .next
    (if chooseCandidate s die 0 4 = none then stopRun (begun s die (colKey die ring) c) (colKey die ring) stLinkLost
      else (List.range (divCeil c.elems 4096)).foldl (mcastPacket .none (colKey die ring)) (begun s die (colKey die ring) c)) := by
  show execCollectiveRunStart die ring fails .none s = _
  unfold execCollectiveRunStart
  simp only [hcol, hmcast, if_true]
  rw [if_neg (by simp [hwaits, hreleased])]
  exact (apply_ite Host.Outcome.next _ _ _).symm

theorem exec_runStart_chain (hchain : c.isMcast = false) (hnone : ∀ p ∈ c.early, bits p.word 63 32 ≠ c.digest) :
    exec (.collectiveRunStart die ring fails .none) s = .next
      ((List.range c.packets).foldl (firstPacket .none (colKey die ring)) (begun s die (colKey die ring) c)) := by
  have hwaited : (c.early.filter fun p => bits p.word 63 32 = c.digest) = [] :=
    List.filter_eq_nil_iff.mpr fun p hp => by simpa using hnone p hp
  show execCollectiveRunStart die ring fails .none s = _
  unfold execCollectiveRunStart
  simp only [hcol, hchain, hwaited, Bool.false_eq_true, if_false]
  rw [if_neg (by simp [hwaits, hreleased])]
  rfl

end

/-! ### The packets of a multicast (R492) -/

/-- Packet q of a multicast from the bytes of its source. -/
def Collective.mcastOut (c : Collective) (k : Nat) (data : Bytes) (q : Nat) : Packet :=
  mkPacket ptMcast 4 0 c.own (colFlow k + q % c.stripes) 0 (c.mgroup * 4) (c.digest * 2 ^ 32 + q) data

/-- The bytes of packet q at a multicast's source. -/
def Collective.mcastLen (c : Collective) (q : Nat) : Nat := min 4096 (c.elems - q * 4096)

/-- A running command sends its packet where its source reads well and no window hides it. -/
theorem mcastPacket_sends {s : State} {k q : Nat} {c : Collective} (hcol : colOf s k = some c) (hruns : c.phase = .running)
    (hreads : readsWell s (c.src + q * 4096) (c.mcastLen q)) (hvis : hiddenIn s (c.src + q * 4096) (c.mcastLen q) = []) :
    mcastPacket .none k s q = queuePacket s (k / 8) (c.mcastOut k (memBytes s (c.src + q * 4096) (c.mcastLen q)) q) := by
  have hfail : failRow s .none (c.src + q * 4096) (c.mcastLen q) = none := hreads
  have hread := readEffects_of_readsWell hreads
  have hbytes := memRead_of_visible hvis .engine
  unfold Collective.mcastLen at *
  unfold mcastPacket
  simp only [hcol, hruns, ne_eq, not_true_eq_false, if_false, hread, hfail, hbytes, Option.isSome_none, Bool.false_eq_true]
  rfl

theorem windowParts_flowsTx : ∀ p ∈ windowParts, p ∉ [Part.flowsTx] := by decide

/-- Packet q of a multicast, of the bytes that memory holds, stands in the queue of its flow. -/
def McastSent (s : State) (k : Nat) (c : Collective) (q : Nat) (t : State) : Prop :=
  Queued t (flowKey (k / 8) 0 4 (colFlow k + q % c.stripes)) (c.mcastOut k (memBytes s (c.src + q * 4096) (c.mcastLen q)) q)

/-- A multicast's packets, each of the bytes that memory holds at its source, stand in the queues of their flows. -/
theorem mcast_sends {s : State} {k n : Nat} {c : Collective} (hcol : colOf s k = some c) (hruns : c.phase = .running)
    (hreads : ∀ q < n, readsWell s (c.src + q * 4096) (c.mcastLen q) ∧ hiddenIn s (c.src + q * 4096) (c.mcastLen q) = []) :
    let t := (List.range n).foldl (mcastPacket .none k) s
    Effect [.flowsTx] s t ∧ ∀ q < n, McastSent s k c q t := by
  have hstep : ∀ q < n, ∀ t, Effect [.flowsTx] s t → mcastPacket .none k t q =
      queuePacket t (k / 8) (c.mcastOut k (memBytes s (c.src + q * 4096) (c.mcastLen q)) q) := by
    intro q hq t ht
    obtain ⟨hread, hvis⟩ := hreads q hq
    have hmem := memBytes_of_mem (ht.mem_same (by decide)) (c.src + q * 4096) (c.mcastLen q)
    rw [← hmem]
    refine mcastPacket_sends ((ht.colOf_same (by decide) k).trans hcol) hruns (hread.of_poison ?_) ?_
    · rw [ht.frame.same .poison (by decide)]
      exact fun r => id
    · rwa [ht.hiddenIn_same windowParts_flowsTx]
  have hkeeps : ∀ q < n, ∀ t, Effect [.flowsTx] s t → Effect [.flowsTx] s (mcastPacket .none k t q) := fun q hq t ht =>
    hstep q hq t ht ▸ ht.trans (queuePacket_effect ..)
  refine ⟨foldl_range_keeps hkeeps (.refl ..), foldl_range_collects (Q := McastSent s k c) hkeeps (fun q hq t ht => ?_)
    (fun q hq j t ht hj => ?_) (.refl ..)⟩
  · rw [hstep q hq t ht]
    exact queuePacket_queued ..
  · rw [hstep q hq t ht]
    exact hj.queuePacket ..

end Sys2Proof.Machine
end

section
/-! PROOF. The first packets of a chain: each is read, converted and sent, or written by a member of its own, and the run goes on
(R482, R483, R485, R487). -/

namespace Sys2Proof.Machine

/-! ### What a run's packets change of its command -/

/-- A command of which a run's packets have changed only what the run counts. -/
def Collective.SameRun (c c' : Collective) : Prop := ∃ runFlags got written, c' = { c with runFlags, got, written }

theorem Collective.SameRun.refl (c : Collective) : c.SameRun c := ⟨_, _, _, rfl⟩

theorem Collective.SameRun.trans {c c' c'' : Collective} (h : c.SameRun c') (h' : c'.SameRun c'') : c.SameRun c'' := by
  obtain ⟨_, _, _, rfl⟩ := h
  obtain ⟨_, _, _, rfl⟩ := h'
  exact ⟨_, _, _, rfl⟩

theorem Collective.sameRun_flagRun (c : Collective) (f : Nat) (on : Bool) : c.SameRun (flagRun c f on) := by
  unfold flagRun
  split <;> exact ⟨_, _, _, rfl⟩

theorem Collective.sameRun_countPacket (c : Collective) (stage seg : Nat) (wrote : Bool) : c.SameRun (countPacket c stage seg wrote) :=
  ⟨_, _, _, rfl⟩

/-- What a run is to do stays as it was. -/
theorem Collective.SameRun.plan {c c' : Collective} (h : c.SameRun c') : c'.op = c.op ∧ c'.fmt = c.fmt ∧ c'.carry = c.carry ∧ c'.w = c.w ∧
    c'.pos = c.pos ∧ c'.n = c.n ∧ c'.packets = c.packets ∧ c'.count = c.count ∧ c'.srcAt = c.srcAt ∧ c'.dstAt = c.dstAt ∧
    c'.phase = c.phase := by
  obtain ⟨_, _, _, rfl⟩ := h
  exact ⟨rfl, rfl, rfl, rfl, rfl, rfl, rfl, rfl, rfl, rfl, rfl⟩

/-! ### A link's packets (R487) -/

/-- Packet q of a segment's running sum on its way to the successor. -/
def Collective.linkOut (c : Collective) (k stage seg q : Nat) (codes : List Nat) : Packet :=
  mkPacket ptData (2 + stage) c.next c.own (colFlow k + q % c.stripes) 0 seg (c.digest * 2 ^ 32 + q) (packElems c.carry codes)

/-- The flow of those packets. -/
def Collective.linkKey (c : Collective) (k stage q : Nat) : Nat := flowKey (k / 8) c.next (2 + stage) (colFlow k + q % c.stripes)

/-- The packets of a run do not depend on what it has counted. -/
theorem Collective.SameRun.sendLink {c c' : Collective} (h : c.SameRun c') (s : State) (k stage seg q : Nat) (codes : List Nat) :
    sendLink s k c' stage seg q codes = sendLink s k c stage seg q codes := by
  obtain ⟨_, _, _, rfl⟩ := h
  rfl

theorem sendLink_queued (s : State) (k : Nat) (c : Collective) (stage seg q : Nat) (codes : List Nat) :
    Queued (sendLink s k c stage seg q codes) (c.linkKey k stage q) (c.linkOut k stage seg q codes) := queuePacket_queued ..

theorem Queued.sendLink {s : State} {key : Nat} {p : Packet} (h : Queued s key p) (k : Nat) (c : Collective) (stage seg q : Nat)
    (codes : List Nat) : Queued (sendLink s k c stage seg q codes) key p := h.queuePacket ..

/-! ### The own elements (R387, R482) -/

theorem ownCodes_of_readsWell {s : State} {c : Collective} {seg q : Nat} (h : readsWell s (c.srcAt seg q) (c.count q * c.w)) :
    ∃ own, ownCodes s .none c seg q = (some own, (memRead s .engine (c.srcAt seg q) (c.count q * c.w)).2) := by
  have hfail : failRow s .none (c.srcAt seg q) (c.count q * c.w) = none := h
  unfold ownCodes
  simp only [readEffects_of_readsWell h, hfail, Option.isSome_none, Bool.false_eq_true, if_false]
  exact ⟨_, rfl⟩

theorem ownCodes_of_visible {s : State} {c : Collective} {seg q : Nat} (h : readsWell s (c.srcAt seg q) (c.count q * c.w))
    (hvis : hiddenIn s (c.srcAt seg q) (c.count q * c.w) = []) :
    ownCodes s .none c seg q = (some (elemsOf c.fmt (memBytes s (c.srcAt seg q) (c.count q * c.w)) (c.count q)), s) := by
  have hfail : failRow s .none (c.srcAt seg q) (c.count q * c.w) = none := h
  unfold ownCodes
  simp only [readEffects_of_readsWell h, hfail, memRead_of_visible hvis, Option.isSome_none, Bool.false_eq_true, if_false]

/-! ### The first packet's step -/

/-- The segment a chain's member starts with. -/
def Collective.firstSeg (c : Collective) : Nat := if c.op = opAllGather then c.pos else (c.pos + c.n - 1) % c.n

theorem Collective.SameRun.firstSeg {c c' : Collective} (h : c.SameRun c') : c'.firstSeg = c.firstSeg := by
  obtain ⟨_, _, _, rfl⟩ := h
  rfl

/-- The first packet's converted elements sent, or written by a member of its own. -/
def firstSent (s : State) (k : Nat) (c : Collective) (q : Nat) (o : List (Nat × Bool)) : State :=
  let codes := o.map (·.1)
  let counted := countPacket c 1 c.firstSeg true
  if c.op = opAllGather then
    if 1 < c.n then sendLink (writeLink s k counted c.firstSeg q codes .none) k counted 1 c.firstSeg q codes
    else writeLink s k counted c.firstSeg q codes .none
  else if 1 < c.n then sendLink (setCol s k (flagRun c flagBoundLapsed (o.any (·.2)))) k c 0 c.firstSeg q codes
  else writeLink s k (flagRun (countPacket c 0 c.firstSeg true) flagBoundLapsed (o.any (·.2))) c.firstSeg q codes .none

theorem firstSent_reduces {c : Collective} (hreduces : c.op ≠ opAllGather) (hn : 1 < c.n) (s : State) (k q : Nat) (o : List (Nat × Bool)) :
    firstSent s k c q o =
      sendLink (setCol s k (flagRun c flagBoundLapsed (o.any (·.2)))) k c 0 c.firstSeg q (o.map (·.1)) :=
  (if_neg hreduces).trans (if_pos hn)

theorem firstPacket_sends {s u : State} {k q : Nat} {c : Collective} {own : List Nat} (hcol : colOf s k = some c)
    (hruns : c.phase = .running) (hown : ownCodes s .none c c.firstSeg q = (some own, u)) :
    firstPacket .none k s q = firstSent u k c q (own.map (firstLink c.fmt c.carry)) := by
  unfold Collective.firstSeg at hown
  unfold firstPacket
  simp only [hcol, hruns, ne_eq, not_true_eq_false, if_false, hown]
  rfl

/-! ### The run goes on -/

/-- The run of a command goes on, and no more rows are poison than before. -/
structure Sending (s : State) (k : Nat) (c : Collective) (t : State) : Prop where
  col : ∃ c', colOf t k = some c' ∧ c.SameRun c'
  poison : ∀ r ∈ t.poison, r ∈ s.poison

section
variable {s t : State} {k : Nat} {c c' : Collective}

theorem Sending.of_effect {u : State} {w : List Part} (h : Sending s k c t) (he : Effect w t u) (hcols : Part.cols ∉ w)
    (hpoison : Part.poison ∉ w) : Sending s k c u where
  col := by rw [he.colOf_same hcols]; exact h.col
  poison := by rw [he.frame.same .poison hpoison]; exact h.poison

theorem Sending.setCol (h : Sending s k c t) (hc : c.SameRun c') : Sending s k c (setCol t k c') where
  col := ⟨c', colOf_setCol_same .., hc⟩
  poison := h.poison

theorem Sending.writeLink (h : Sending s k c t) (hc : c.SameRun c') (seg q : Nat) (codes : List Nat) :
    Sending s k c (writeLink t k c' seg q codes .none) where
  col := ⟨_, colOf_setCol_same .., hc.trans (c'.sameRun_flagRun ..)⟩
  poison := fun r hr => h.poison r (poison_memWrite_none hr)

theorem Sending.sendLink (h : Sending s k c t) (stage seg q : Nat) (codes : List Nat) : Sending s k c (sendLink t k c' stage seg q codes) :=
  h.of_effect (sendLink_effect ..) (by decide) (by decide)

theorem Sending.firstSent (h : Sending s k c t) (hc : c.SameRun c') (q : Nat) (o : List (Nat × Bool)) :
    Sending s k c (firstSent t k c' q o) := by
  have hcount : ∀ stage seg wrote, c.SameRun (countPacket c' stage seg wrote) := fun _ _ _ => hc.trans (c'.sameRun_countPacket ..)
  unfold Machine.firstSent
  extract_lets codes counted
  split
  · split
    · exact (h.writeLink (hcount ..) ..).sendLink ..
    · exact h.writeLink (hcount ..) ..
  · split
    · exact (h.setCol (hc.trans (c'.sameRun_flagRun ..))).sendLink ..
    · exact h.writeLink ((hcount ..).trans (Collective.sameRun_flagRun ..)) ..

/-- A first packet whose source reads well leaves the run going on. -/
theorem Sending.firstPacket (h : Sending s k c t) (hruns : c.phase = .running) {q : Nat}
    (hreads : readsWell s (c.srcAt c.firstSeg q) (c.count q * c.w)) : Sending s k c (firstPacket .none k t q) := by
  obtain ⟨c', hcol, hc⟩ := h.col
  obtain ⟨-, -, -, hw, -, -, -, hcount, hsrc, -, hphase⟩ := hc.plan
  have hreadst : readsWell t (c'.srcAt c'.firstSeg q) (c'.count q * c'.w) := by
    rw [hsrc, hc.firstSeg, hcount, hw]
    exact hreads.of_poison h.poison
  obtain ⟨own, hown⟩ := ownCodes_of_readsWell hreadst
  rw [firstPacket_sends hcol (hphase.trans hruns) hown]
  exact (h.of_effect (memRead_effect ..) (by decide) (by decide)).firstSent hc ..

end

/-! ### A chain that reduces (R482, R485) -/

/-- The codes of a chain's first packet: the own elements converted to carry_fmt (R485). -/
def Collective.firstCodes (c : Collective) (s : State) (q : Nat) : List Nat :=
  (elemsOf c.fmt (memBytes s (c.srcAt c.firstSeg q) (c.count q * c.w)) (c.count q)).map fun x => (firstLink c.fmt c.carry x).1

/-- A chain's first packet of the elements that memory holds stands in the queue of its flow. -/
def FirstSent (s : State) (k : Nat) (c : Collective) (q : Nat) (t : State) : Prop :=
  Queued t (c.linkKey k 0 q) (c.linkOut k 0 c.firstSeg q (c.firstCodes s q))

section
variable {s : State} {k : Nat} {c : Collective} (hruns : c.phase = .running) (hreduces : c.op ≠ opAllGather) (hn : 1 < c.n)
include hruns hreduces hn

/-- Among two or more members, a first packet of elements that no window hides is sent. -/
theorem firstPacket_reduces {t : State} (h : Sending s k c t) (he : Effect [.cols, .flowsTx] s t) {q : Nat}
    (hreads : readsWell s (c.srcAt c.firstSeg q) (c.count q * c.w)) (hvis : hiddenIn s (c.srcAt c.firstSeg q) (c.count q * c.w) = []) :
    ∃ c', firstPacket .none k t q = sendLink (setCol t k c') k c 0 c.firstSeg q (c.firstCodes s q) := by
  obtain ⟨c', hcol, hc⟩ := h.col
  obtain ⟨hop, hfmt, hcarry, hw, -, hlen, -, hcount, hsrc, -, hphase⟩ := hc.plan
  have hown : ownCodes t .none c' c'.firstSeg q =
      (some (elemsOf c.fmt (memBytes s (c.srcAt c.firstSeg q) (c.count q * c.w)) (c.count q)), t) := by
    rw [ownCodes_of_visible] <;> rw [hsrc, hc.firstSeg, hcount, hw]
    · rw [hfmt, memBytes_of_mem (he.mem_same (by decide))]
    · exact hreads.of_poison h.poison
    · rwa [he.hiddenIn_same (by decide)]
  rw [firstPacket_sends hcol (hphase.trans hruns) hown, firstSent_reduces (hop ▸ hreduces) (hlen ▸ hn), hc.sendLink, hc.firstSeg,
    List.map_map, hfmt, hcarry]
  exact ⟨_, rfl⟩

/-- Those packets all stand in the queues of their flows, and memory is as it was. -/
theorem chain_sends {n : Nat} (hcol : colOf s k = some c)
    (hreads : ∀ q < n, readsWell s (c.srcAt c.firstSeg q) (c.count q * c.w))
    (hvis : ∀ q < n, hiddenIn s (c.srcAt c.firstSeg q) (c.count q * c.w) = []) :
    let t := (List.range n).foldl (firstPacket .none k) s
    Effect [.cols, .flowsTx] s t ∧ ∀ q < n, FirstSent s k c q t := by
  have hkeeps : ∀ q < n, ∀ t, Sending s k c t ∧ Effect [.cols, .flowsTx] s t →
      Sending s k c (firstPacket .none k t q) ∧ Effect [.cols, .flowsTx] s (firstPacket .none k t q) := by
    rintro q hq t ⟨h, he⟩
    obtain ⟨c', hstep⟩ := firstPacket_reduces hruns hreduces hn h he (hreads q hq) (hvis q hq)
    refine ⟨h.firstPacket hruns (hreads q hq), hstep ▸ ?_⟩
    exact (sendLink_effect ..).step ((setCol_effect ..).step he (by decide)) (by decide)
  have hstart : Sending s k c s ∧ Effect [.cols, .flowsTx] s s := ⟨⟨⟨c, hcol, .refl c⟩, fun r => id⟩, .refl ..⟩
  refine ⟨(foldl_range_keeps hkeeps hstart).2, foldl_range_collects (Q := FirstSent s k c) hkeeps ?_ ?_ hstart⟩
  · rintro q hq t ⟨h, he⟩
    obtain ⟨c', hstep⟩ := firstPacket_reduces hruns hreduces hn h he (hreads q hq) (hvis q hq)
    rw [hstep]
    exact sendLink_queued ..
  · rintro q hq j t ⟨h, he⟩ hj
    obtain ⟨c', hstep⟩ := firstPacket_reduces hruns hreduces hn h he (hreads q hq) (hvis q hq)
    rw [hstep]
    exact Queued.sendLink (Effect.queued (setCol_effect ..) (by decide) hj) ..

end

end Sys2Proof.Machine
end

section
/-! PROOF. Runs of the collective engine start, end and time out (R467, R480 to R487, R492, R493, R496, R505, R533). -/

namespace Sys2Proof.Machine

/-! ### The start of a run -/

theorem colOf_begun (s : State) (die k : Nat) (c : Collective) : colOf (begun s die k c) k = some (c.begins (now s die)) :=
  colOf_setCol_same ..

theorem begun_effect (s : State) (die k : Nat) (c : Collective) : Effect [.cols] s (begun s die k c) := setCol_effect ..

/-- A range that reads well, and that no window hides, is so too once a run has begun. -/
theorem readsWell.begun {s : State} {base len : Nat} (h : readsWell s base len) (die k : Nat) (c : Collective) :
    readsWell (begun s die k c) base len := h.of_poison fun _ => id

theorem hiddenIn_begun (s : State) (die k : Nat) (c : Collective) (base len : Nat) :
    hiddenIn (begun s die k c) base len = hiddenIn s base len := (begun_effect ..).hiddenIn_same (by decide) ..

section
variable {die : Die} {ring : Fin 8} {fails : List (Fin 4)} {c : Collective} {s : State} (hcol : colOf s (colKey die ring) = some c)
  (hwaits : c.phase = .waiting) (hreleased : c.released = true)
include hcol hwaits hreleased

theorem runStart_multicast_lost (hmcast : c.isMcast = true) (hports : chooseCandidate s die 0 4 = none) :
    Gives (exec (.collectiveRunStart die ring fails .none) s) fun t =>
      ∃ c', colOf t (colKey die ring) = some c' ∧ c'.phase = .ending ∧ c'.status = stLinkLost ∧ c'.stopped = true ∧ t.mem = s.mem := by
  have hexec := exec_runStart_multicast (fails := fails) hcol hwaits hreleased hmcast
  rw [if_pos hports] at hexec
  exact ⟨_, hexec, _, colOf_stopRun (colOf_begun ..) _, rfl, rfl, rfl, mem_stopRun ..⟩

theorem runStart_multicast (hmcast : c.isMcast = true) (hports : chooseCandidate s die 0 4 ≠ none)
    (hsource : ∀ q < divCeil c.elems 4096, readsWell s (c.src + q * 4096) (min 4096 (c.elems - q * 4096)) ∧
      hiddenIn s (c.src + q * 4096) (min 4096 (c.elems - q * 4096)) = []) :
    let k := colKey die ring
    Gives (exec (.collectiveRunStart die ring fails .none) s) fun t =>
      (∃ c', colOf t k = some c' ∧ c'.phase = .running ∧ c'.began = now s die) ∧ t.mem = s.mem ∧
      ∀ q < divCeil c.elems 4096,
        ∃ p ∈ (flowTx t (flowKey die 0 4 (colFlow k + q % c.stripes))).queue, p.kind = ptMcast ∧
          p.word = c.digest * 2 ^ 32 + q ∧ p.payload = memBytes s (c.src + q * 4096) (min 4096 (c.elems - q * 4096)) := by
  intro k
  have hexec := exec_runStart_multicast (fails := fails) hcol hwaits hreleased hmcast
  rw [if_neg hports] at hexec
  obtain ⟨heff, hsent⟩ := mcast_sends (n := divCeil c.elems 4096) (colOf_begun s die k c) rfl fun q hq =>
    ⟨(hsource q hq).1.begun .., (hiddenIn_begun ..).trans (hsource q hq).2⟩
  refine ⟨_, hexec, ⟨_, (heff.colOf_same (by decide) k).trans (colOf_begun ..), rfl, rfl⟩, heff.mem_same (by decide), fun q hq => ?_⟩
  obtain ⟨stamp, hp⟩ := hsent q hq
  rw [colKey_die _ _ ring.isLt] at hp
  exact ⟨_, hp, rfl, rfl, rfl⟩

theorem runStart_chain (hchain : c.isMcast = false) (hnone : ∀ p ∈ c.early, bits p.word 63 32 ≠ c.digest)
    (hsource : ∀ q < c.packets, readsWell s (c.srcAt c.firstSeg q) (c.count q * c.w)) :
    let k := colKey die ring
    Gives (exec (.collectiveRunStart die ring fails .none) s) fun t =>
      (∃ c', colOf t k = some c' ∧ c'.phase = .running ∧ c'.began = now s die) ∧
      (c.op ≠ opAllGather → 1 < c.n → (∀ q < c.packets, hiddenIn s (c.srcAt c.firstSeg q) (c.count q * c.w) = []) →
        t.mem = s.mem ∧ ∀ q < c.packets,
          ∃ p ∈ (flowTx t (flowKey die c.next 2 (colFlow k + q % c.stripes))).queue, p.kind = ptData ∧ p.aux = c.firstSeg ∧
            p.word = c.digest * 2 ^ 32 + q ∧
            p.payload = packElems c.carry ((elemsOf c.fmt (memBytes s (c.srcAt c.firstSeg q) (c.count q * c.w)) (c.count q)).map
              fun x => (firstLink c.fmt c.carry x).1)) := by
  intro k
  have hstart : Sending (begun s die k c) k (c.begins (now s die)) (begun s die k c) :=
    ⟨⟨_, colOf_begun .., .refl _⟩, fun _ => id⟩
  refine ⟨_, exec_runStart_chain hcol hwaits hreleased hchain hnone, ?_, fun hreduces hn hvis => ?_⟩
  · obtain ⟨c', hc', hsame⟩ := (foldl_range_keeps (n := c.packets) (fun q hq t ht =>
      ht.firstPacket rfl ((hsource q hq).begun ..)) hstart).col
    obtain ⟨_, _, _, rfl⟩ := hsame
    exact ⟨_, hc', rfl, rfl⟩
  · obtain ⟨heff, hsent⟩ := chain_sends (c := c.begins (now s die)) (n := c.packets) rfl hreduces hn (colOf_begun s die k c)
      (fun q hq => (hsource q hq).begun ..) (fun q hq => (hiddenIn_begun ..).trans (hvis q hq))
    refine ⟨heff.mem_same (by decide), fun q hq => ?_⟩
    obtain ⟨stamp, hp⟩ := hsent q hq
    rw [Collective.linkKey, colKey_die _ _ ring.isLt] at hp
    exact ⟨_, hp, rfl, rfl, rfl, rfl⟩

end

/-! ### The end of a run (R480, R496, R505) -/

/-- A run over: counted, recorded, its done SIGNAL sent and its digest noted (R480, R496, R499, R505, R674). -/
def runOver (s : State) (k : Nat) (c : Collective) (status : Nat) : State :=
  let die := k / 8
  let delivered := if c.isMcast then c.acks else c.written
  let s := bump s F.colRunCount_count die 0 1
  let s := if status = stOk then s else irq s die 5 16
  let s := if status = stPartial || status = stFenced then bump s F.colPartialCount_count die 0 1 else s
  let s := emit s die 0x05 c.runFlags Blk.col.num (k % 8) (pb 0 1 status + pb 1 1 c.op + pb 2 2 c.run + pb 4 4 delivered)
  let s := if c.stopped then s else sendSignal s die (c.doneSignal s)
  noteEnded s die (c.digest, status = stOk)

/-- A command whose last run is over completes on its ring (R480, R504). -/
def commandOver (s : State) (k : Nat) (c : Collective) (status : Nat) : State :=
  let die := k / 8
  let n := 24 + k % 8
  let d := ((ringWork s die n).active.find? (fun d => d.k = c.k)).getD ⟨c.k, [], true⟩
  let s := setActive { s with cols := Map.del s.cols k } k false
  let s := dropActive s die n c.k
  let delivered := if c.isMcast then c.acks else c.written
  let s := queueCompletion s die n (completionOf d status (c.flags ||| c.runFlags) delivered 0 c.signal false)
  ringAdvance (settlePower s) die n

theorem endRun_next {s : State} {k : Nat} {c : Collective} {status : Nat} (h : status = stOk ∧ c.run + 1 < c.runs) :
    endRun s k c status =
      nextRun (setCol (runOver s k c status) k { c with flags := c.flags ||| c.runFlags, run := c.run + 1 }) k :=
  if_pos (by simpa using h)

theorem endRun_last {s : State} {k : Nat} {c : Collective} {status : Nat} (h : status ≠ stOk ∨ c.runs ≤ c.run + 1) :
    endRun s k c status = commandOver (runOver s k c status) k c status :=
  if_neg (by simpa [imp_iff_not_or] using h)

theorem counts_runOver (s : State) (k : Nat) (c : Collective) (status : Nat) :
    Counts s (runOver s k c status) F.colRunCount_count (k / 8) 0 1 := by
  unfold runOver
  extract_lets die delivered s1 s2 s3 s4 s5
  have h2 : Effect [.icuTimers, .wakePending, .reg .icuPend] s1 s2 := .ite (.refl ..) (irq_effect ..)
  have h3 : Effect [.reg .colPartialCount] s2 s3 := .ite (bump_effect s2 F.colPartialCount_count die 0 1) (.refl ..)
  have h4 := emit_effect s3 die 0x05 c.runFlags Blk.col.num (k % 8) (pb 0 1 status + pb 1 1 c.op + pb 2 2 c.run + pb 4 4 delivered)
  have h5 : Effect _ s4 s5 := .ite (.refl ..) (sendSignal_effect ..)
  refine (counts_bump s (by decide) die 0 1).congr rfl ?_
  rw [(noteEnded_effect ..).field_same _ (by decide), h5.field_same _ (by decide), h4.field_same _ (by decide),
    h3.field_same _ (by decide), h2.field_same _ (by decide)]

theorem commandOver_effect (s : State) (k : Nat) (c : Collective) (status : Nat) :
    Effect [.cols, .eph, .hostMem, .icuTimers, .rings, .wakePending, .reg .colStatus, .reg .ephLostCount, .reg .ephSeq, .reg .hifRingHead,
      .reg .icuPend, .reg .pwrStatus] s (commandOver s k c status) := by
  unfold commandOver
  extract_lets die n d s1 s2 delivered s3
  have h1 : Effect [.cols, .reg .colStatus] s s1 := (setActive_effect ..).step (effect_set_cols _ (by decide) (.refl ..)) (by decide)
  have h3 : Effect [.rings] s1 s3 := (dropActive_effect s1 die n c.k).trans (queueCompletion_effect s2 die n _)
  exact (ringAdvance_effect ..).step ((settlePower_effect _).step (h3.step (h1.one (by decide)) (by decide)) (by decide)) (by decide)

theorem commandOver_completes (s : State) (k : Nat) (c : Collective) (status : Nat) : let t := commandOver s k c status
    colOf t k = none ∧ ∃ x ∈ (ringWork t (k / 8) (24 + k % 8)).toWrite, x.k = c.k ∧ x.status = status := by
  unfold commandOver
  extract_lets die n d s1 s2 delivered s3
  have hadv := ringAdvance_effect (settlePower s3) die n
  have hpower := settlePower_effect s3
  refine ⟨?_, completionOf d status (c.flags ||| c.runFlags) delivered 0 c.signal false, ?_, running_k _ c.k, rfl⟩
  · have hqueue : Effect [.rings] s1 s3 := (dropActive_effect s1 die n c.k).trans (queueCompletion_effect s2 die n _)
    rw [hadv.colOf_same (by decide), hpower.colOf_same (by decide), hqueue.colOf_same (by decide)]
    exact ((setActive_effect ..).colOf_same (by decide) k).trans (Map.find_del_same ..)
  · refine mem_toWrite_ringAdvance ?_
    rw [hpower.ringWork_same (by decide)]
    exact mem_toWrite_queueCompletion ..

theorem exec_runEnd {die : Die} {ring : Fin 8} {c : Collective} {st : Nat} {s : State} (hcol : colOf s (colKey die ring) = some c)
    (h : (c.phase = .ending ∧ st = c.status) ∨
      (c.phase = .running ∧ runComplete c = true ∧ s.heldWrites = [] ∧ st = if c.isMcast then mcastStatus c else stOk)) :
    exec (.collectiveRunEnd die ring) s = .next (endRun s (colKey die ring) c st) := by
  show execCollectiveRunEnd die ring s = _
  unfold execCollectiveRunEnd
  simp only [hcol]
  rcases h with ⟨hphase, rfl⟩ | ⟨hphase, hcomplete, hheld, rfl⟩
  · exact if_pos hphase
  · rw [if_neg (by simp [hphase]), if_pos (by simp [hphase, hcomplete, hheld])]

theorem runEnd_ends {die : Die} {ring : Fin 8} {c : Collective} {st : Nat} {s : State} (hcol : colOf s (colKey die ring) = some c)
    (h : (c.phase = .ending ∧ st = c.status) ∨
      (c.phase = .running ∧ runComplete c = true ∧ s.heldWrites = [] ∧ st = if c.isMcast then mcastStatus c else stOk)) :
    let k := colKey die ring
    Gives (exec (.collectiveRunEnd die ring) s) fun t =>
      Counts s t F.colRunCount_count die 0 1 ∧ t.mem = s.mem ∧
      (st = stOk → c.run + 1 < c.runs → (∀ p ∈ c.early, p.kind ≠ ptAbort) →
        ∃ c', colOf t k = some c' ∧ c'.run = c.run + 1 ∧ c'.phase = .waiting) ∧
      ((st ≠ stOk ∨ c.runs ≤ c.run + 1) → colOf t k = none ∧
        ∃ x ∈ (ringWork t die (24 + ring)).toWrite, x.k = c.k ∧ x.status = st) := by
  intro k
  have hdie : k / 8 = die := colKey_die _ _ ring.isLt
  have hcount := counts_runOver s k c st
  rw [hdie] at hcount
  refine ⟨_, exec_runEnd hcol h, ?_, (endRun_effect ..).mem_same (by decide), fun hok hmore hearly => ?_, fun hlast => ?_⟩
  · by_cases hnext : st = stOk ∧ c.run + 1 < c.runs
    · rw [endRun_next hnext]
      refine hcount.congr rfl ?_
      rw [(nextRun_effect ..).field_same _ (by decide), (setCol_effect ..).field_same _ (by decide)]
    · rw [endRun_last (by omega)]
      exact hcount.congr rfl ((commandOver_effect ..).field_same _ (by decide) ..)
  · have hset := colOf_setCol_same (runOver s k c st) k { c with flags := c.flags ||| c.runFlags, run := c.run + 1 }
    rw [endRun_next ⟨hok, hmore⟩, nextRun_due hset hearly]
    exact ⟨_, colOf_startWait hset, rfl, rfl⟩
  · rw [endRun_last hlast]
    have hdone := commandOver_completes (runOver s k c st) k c st
    rwa [hdie, colKey_ring _ _ ring.isLt] at hdone

/-! ### COLLECTIVE_TIMEOUT (R467, R480) -/

section
variable {die : Die} {ring : Fin 8} {c : Collective} {s : State} (hcol : colOf s (colKey die ring) = some c)
include hcol

theorem runTimeout_stops (hruns : c.phase = .running) (hopen : runComplete c = false) (hover : c.began + c.bound * 256000 ≤ now s die) :
    Gives (exec (.collectiveTimeout die ring) s) fun t =>
      (∃ c', colOf t (colKey die ring) = some c' ∧ c'.phase = .ending ∧ c'.status = stTimeout) ∧ t.mem = s.mem := by
  refine ⟨stopRun s (colKey die ring) stTimeout, ?_, ⟨_, colOf_stopRun hcol _, rfl, rfl⟩, mem_stopRun ..⟩
  show execCollectiveTimeout die ring s = _
  unfold execCollectiveTimeout
  simp only [hcol]
  rw [if_pos (by simp [hruns, hopen, hover])]

theorem startTimeout_withdraws {w : WaitReq} (hwaits : c.phase = .waiting) (hheld : c.released = false) :
    let k := colKey die ring
    let d := servingDie (bitOf c.start 40) (bits c.start 39 16) die
    let key := objKey (bitOf c.start 40) (bits c.start 39 16)
    heldAt s d key = [w] → w.waiter = .collective k → w.issued + c.bound * 256000 ≤ now s die →
    Gives (exec (.collectiveTimeout die ring) s) fun t =>
      heldAt t d key = [] ∧ Counts s t F.synTimeoutCount_count d 0 1 ∧ t.mem = s.mem ∧
      (d = die → ∃ c', colOf t k = some c' ∧ c'.phase = .ending ∧ c'.status = stTimeout) ∧
      (d ≠ die → t.bridge = s.bridge ++ [⟨1 - d, now s d, now s (1 - d) + bridgeTicks, .timeout (.collective k)⟩]) := by
  intro k d key hat hwaiter hover
  have hgone := setHeld_effect s d key []
  have hdie : waiterDie w.waiter = die := by rw [hwaiter]; exact colKey_die _ _ ring.isLt
  refine ⟨timeoutWait (setHeld s d key []) d w, ?_, heldAt_timeoutWait (heldAt_setHeld_same ..) w,
    (counts_timeoutWait ..).congr (hgone.field_same _ (by decide) ..) rfl,
    ((timeoutWait_effect ..).mem_same (by decide)).trans (hgone.mem_same (by decide)), fun hown => ?_, fun hother => ?_⟩
  · show execCollectiveTimeout die ring s = _
    unfold execCollectiveTimeout
    simp only [hcol]
    rw [if_neg (by simp [hwaits]), if_pos (by simp [hwaits, hheld])]
    simp only [d, key] at hat ⊢
    simp [hat, hwaiter, hover, k]
  · have hcounted : Effect [.icuTimers, .sync, .wakePending, .reg .icuPend, .reg .synTimeoutCount] s
        (irq (bump (setHeld s d key []) F.synTimeoutCount_count d 0 1) d 5 9) :=
      (irq_effect ..).step ((bump_effect ..).step (hgone.one (by decide)) (by decide)) (by decide)
    rw [timeoutWait, if_pos (hdie.trans hown.symm), hwaiter, timeoutWaiter]
    have hfind := (hcounted.colOf_same (by decide) k).trans hcol
    unfold colOf at hfind
    rw [hfind]
    exact ⟨_, colOf_setCol_same .., rfl, rfl⟩
  · rw [bridge_timeoutWait _ _ (fun e => hother (hdie ▸ e).symm), hwaiter, hgone.bridge_same (by decide)]
    simp only [hgone.now_same (by decide)]

end

/-- Settles O36: a run begins by its own packets, ends by its count and the next run or its completion, and stops when overdue. -/
theorem runsStartEndAndTimeOut : Obligations.RunsStartEndAndTimeOut := by
  refine ⟨?_, ?_, ?_⟩
  · intro die ring fails c s k start hcol hwaits hreleased
    refine ⟨runStart_multicast_lost hcol hwaits hreleased, runStart_multicast hcol hwaits hreleased, ?_⟩
    intro hchain hnone seg hsource
    exact runStart_chain hcol hwaits hreleased hchain hnone hsource
  · intro die ring c st s k hcol h
    exact runEnd_ends hcol h
  · intro die ring c s k ends hcol
    refine ⟨runTimeout_stops hcol, ?_⟩
    intro w hwaits hheld d key hat
    exact startTimeout_withdraws hcol hwaits hheld hat

end Sys2Proof.Machine
end

section
/-! PROOF. A packet of the fabric that is heard and next of its flow reaches its engine with all else in place; a DATA packet reaches the
run it names (R481, R486, R518, R535, R538, R539). -/

namespace Sys2Proof.Machine

/-! ### The header checks (R518, R538) -/

/-- The router's state once a packet has left its port and its header has been taken. -/
def headed (s : State) (die p : Nat) (pkt : Packet) : State := takeHeader (takePacket s die p pkt) die p pkt

theorem headed_effect (s : State) (die p : Nat) (pkt : Packet) : Effect takeHeader_parts s (headed s die p pkt) :=
  (takeHeader_effect ..).step ((takePacket_effect ..).one (by decide)) (by decide)

theorem headerChecks_heard {s t : State} {die p kind : Nat} {pkt : Packet} (h : Heard s die p kind pkt) (hkind : 0 < kind)
    (hknown : kind < 9) {w : List Part} (he : Effect w s t) (hroute : Part.reg .fabRouteCtrl ∉ w) (hinfo : Part.reg .ctlDieInfo ∉ w) :
    headerChecks t die p pkt = (true, t) := by
  obtain ⟨-, -, rfl, hvc, hvalid, hepoch, hdst⟩ := h
  have hv : rflag t F.fabRouteCtrl_routeValid die 0 = true := by rwa [rflag, he.field_same _ hroute]
  have hep : pkt.epoch = rf t F.fabRouteCtrl_epoch die 0 := by rwa [he.field_same _ hroute]
  have hend : pkt.dst = endpoint t die := by rwa [endpoint, location, he.field_same _ hinfo]
  unfold headerChecks
  rw [if_neg (by simp; omega), if_neg (by simp [hv]), if_neg (by simp [hep]), if_neg (by simp [hend])]

/-- A packet heard goes on past the checks of its header. -/
theorem receive_heard {s : State} {die p kind : Nat} {pkt : Packet} (h : Heard s die p kind pkt) (hkind : 0 < kind) (hknown : kind < 9)
    (k : State → State) : receive s die p kind pkt k = k (headed s die p pkt) := by
  have hchecks := headerChecks_heard h hkind hknown (headed_effect s die p pkt) (by decide) (by decide)
  obtain ⟨hup, hfirst, hkindp, -⟩ := h
  unfold receive
  rw [if_neg (by simp [hup, hfirst, hkindp])]
  unfold headed at *
  rw [hchecks]

/-! ### Order (R535, R539) -/

theorem held_acceptSeq (s : State) (key : Nat) (pkt : Packet) : (flowRx (acceptSeq s key pkt) key).held = (flowRx s key).held := by
  have hset : ∀ (t : State) (f : FlowRx), flowRx (setFlowRx t key f) key = f := fun t f => by
    simp [flowRx, setFlowRx, Map.getD, Map.find_put_same]
  unfold acceptSeq
  extract_lets f s1
  split
  · have hack : flowRx (sendAck s1 key pkt.fseq) key = { flowRx s1 key with sinceAck := 0, marks := 0 } := hset ..
    rw [hack, hset]
  · rw [hset]

/-- The packet expected of a flow behind which none waits is the only one to process. -/
theorem inOrder_next {s : State} {die : Nat} {pkt : Packet} (hseq : pkt.fseq = (flowRx s (rxKey die pkt)).expected)
    (hheld : (flowRx s (rxKey die pkt)).held = []) (k : State → Packet → Nat → State) :
    inOrder s die pkt k = k (acceptSeq s (rxKey die pkt) pkt) pkt 0 := by
  have hnone := (held_acceptSeq s (rxKey die pkt) pkt).trans hheld
  have horder : orderPacket s die pkt = ([pkt], acceptSeq s (rxKey die pkt) pkt) := by
    simp [orderPacket, hseq, orderPacket.drain, hnone]
  simp [inOrder, horder]

/-! ### The run a packet names (R481) -/

theorem colByDigest_of_cols {s t : State} (h : t.cols = s.cols) (die : Nat) (pkt : Packet) :
    colByDigest t die pkt = colByDigest s die pkt := by
  unfold colByDigest colPick
  rw [h]

theorem digestHit_now {s : State} {die k : Nat} {pkt : Packet} (h : colByDigest s die pkt = some k) : digestHit s die pkt = .now k := by
  unfold digestHit
  rw [h]

theorem Effect.jobTakes_same {w : List Part} {s t : State} (h : Effect w s t) (hw : Part.reg .jobStatus ∉ w) : jobTakes t = jobTakes s := by
  rw [jobTakes, h.jobRuns_same hw, h.jobState_same hw, jobTakes]

/-- The die once a packet of the fabric that is next of its flow has been accepted. -/
def arrived (s : State) (die p : Nat) (pkt : Packet) : State := acceptSeq (headed s die p pkt) (rxKey die pkt) pkt

theorem arrived_effect (s : State) (die p : Nat) (pkt : Packet) :
    Effect [.eph, .flowsRx, .flowsTx, .hostMem, .icuTimers, .ports, .wakePending, .reg .ephLostCount, .reg .ephSeq, .reg .fabSampleSkipCount,
      .reg .hifRingHead, .reg .icuPend, .reg .sidClampCount, .reg .sidCount] s (arrived s die p pkt) :=
  (acceptSeq_effect ..).step ((headed_effect ..).one (by decide)) (by decide)

/-- A DATA packet of a running run is processed by it, with the first of the command's failed residue checks. -/
theorem exec_dataReceive {die : Die} {port : Fin 16} {pkt : Packet} {adds : List (Fin 4)} {k : Nat} {c : Collective} {s : State}
    (h : HeardNext s die port ptData pkt) (hjob : jobTakes s = true) (hnames : colByDigest s die pkt = some k)
    (hcol : colOf s k = some c) (hruns : c.phase = .running) :
    exec (.dataPacketReceive die port pkt adds .none) s =
      .next (runPacket (arrived s die port pkt) k pkt (adds.getD 0 0).val .none) := by
  obtain ⟨hheard, hseq, hheld⟩ := h
  have hhead := headed_effect s die port pkt
  have hrx : flowRx (headed s die port pkt) (rxKey die pkt) = flowRx s (rxKey die pkt) := by
    rw [flowRx, hhead.frame.same .flowsRx (by decide), flowRx]
  have hhit := digestHit_now ((colByDigest_of_cols (hhead.cols_same (by decide)) die pkt).trans hnames)
  have hnow := digestHit_now ((colByDigest_of_cols ((arrived_effect s die port pkt).cols_same (by decide)) die pkt).trans hnames)
  have hrun := ((arrived_effect s die port pkt).colOf_same (by decide) k).trans hcol
  show execDataPacketReceive die port pkt adds .none s = _
  unfold execDataPacketReceive
  simp only [receive_heard hheard (show 0 < ptData by decide) (by decide), hhead.jobTakes_same (by decide), hjob, digestBad, hhit]
  rw [if_neg (by simp), if_neg (by simp), inOrder_next (by rw [hrx]; exact hseq) (by rw [hrx]; exact hheld)]
  unfold arrived at *
  simp only [deliverData, hnow, hrun, hruns]
  rfl

end Sys2Proof.Machine
end

section
/-! PROOF. A DATA packet of a running chain: the own elements are added and the sums go on to the successor, or stand at the destination;
a gather's packet is written and passed on (R482 to R487, R491). -/

namespace Sys2Proof.Machine

/-! ### A packet written at the destination (R482, R489) -/

/-- Bytes stand at their place where the host holds no line of it, and the rest of memory is as it was. -/
def Lands (s t : State) (base : Nat) (data : Bytes) : Prop :=
  (snoopedIn s base data.length = [] → ∀ i < data.length, Map.getD t.mem (base + i) 0 = data.getD i 0) ∧
    MemSameOutside s t base data.length

/-- The parts of the state that a link reads beside its command: memory and its codes, the host's lines and the windows. -/
abbrev linkReads : List Part := [.mem, .poison, .snoop, .reg .spmResWindow, .reg .spmResStatus, .reg .jobStatus, .job]

theorem windowParts_linkReads : ∀ p ∈ windowParts, p ∈ linkReads := by decide

theorem writeLink_lands {s u : State} {w : List Part} (he : Effect w s u) (hw : ∀ p ∈ linkReads, p ∉ w) (k : Nat) (c : Collective)
    (seg q : Nat) (codes : List Nat) (hvis : hiddenIn s (c.dstAt seg q) (packElems c.carry codes).length = []) :
    Lands s (writeLink u k c seg q codes .none) (c.dstAt seg q) (packElems c.carry codes) := by
  have hwindows : ∀ p ∈ windowParts, p ∉ w := fun p hp => hw p (windowParts_linkReads p hp)
  have hmem : u.mem = s.mem := he.mem_same (hw .mem (by decide))
  rw [← he.hiddenIn_same hwindows] at hvis
  have hwrite : (writeLink u k c seg q codes .none).mem =
      (landWrite u .none (c.dstAt seg q) (packElems c.carry codes) fun _ => true).mem := by
    rw [← memWrite_of_visible hvis .engine .none]
    rfl
  refine ⟨fun hseen i hi => ?_, ?_⟩
  · rw [hwrite]
    exact getD_landWrite rfl ((he.snoopedIn_same (hw .snoop (by decide)) ..).trans hseen) hi
  · exact (landWrite_memSameOutside rfl u _ _ _).of_mem hmem.symm hwrite

theorem Lands.of_mem {s t t' : State} {base : Nat} {data : Bytes} (h : Lands s t base data) (ht : t'.mem = t.mem) :
    Lands s t' base data := by
  obtain ⟨hin, hout⟩ := h
  exact ⟨fun hseen i hi => by rw [ht]; exact hin hseen i hi, hout.of_mem rfl ht⟩

/-! ### Failed residue checks (R491) -/

/-- Fewer than three failed checks leave the packet added, and only count retries. -/
theorem addRetries_passes (s : State) (k : Nat) {fails : Nat} (h : fails < 3) : ∃ u, addRetries s k fails = (true, u) ∧
    Effect [.eph, .events, .flt, .hostMem, .icuTimers, .wakePending, .reg .arrPathStatus, .reg .colRetryCount, .reg .ephLostCount,
      .reg .ephSeq, .reg .hbmPcState, .reg .hbmStatus, .reg .hifEventLostCount, .reg .hifRingHead, .reg .icuPend] s u := by
  refine ⟨_, if_neg (by omega), ?_⟩
  exact .foldl _ (fun s _ => (transient_effect ..).step ((colRetry_effect ..).one (by decide)) (by decide)) _ s

/-! ### The sums (R485) -/

/-- The codes that a packet of a running sum carries, and their sums with the own elements. -/
def Collective.codesOf (c : Collective) (q : Nat) (payload : Bytes) : List Nat := elemsOf c.carry payload (c.count q)
def Collective.sumsOf (c : Collective) (s : State) (seg q : Nat) (payload : Bytes) : List Nat :=
  ((c.codesOf q payload).zip (elemsOf c.fmt (memBytes s (c.srcAt seg q) (c.count q * c.w)) (c.count q))).map
    fun x => (addLink c.fmt c.carry x.1 x.2).1

/-- A running sum's packet once the own elements have been added: from a state that differs from the one before in what its arrival and
the failed checks count, it goes on as the sums. -/
theorem addPacket_sums {s u : State} {k seg q fails : Nat} {c : Collective} {w : List Part} (he : Effect w s u)
    (hw : ∀ p ∈ linkReads, p ∉ w) (hfails : fails < 3)
    (hreads : readsWell s (c.srcAt seg q) (c.count q * c.w)) (hvis : hiddenIn s (c.srcAt seg q) (c.count q * c.w) = [])
    (payload : Bytes) : ∃ v c', c.SameRun c' ∧
      Effect [.eph, .events, .flt, .hostMem, .icuTimers, .wakePending, .reg .arrPathStatus, .reg .colRetryCount, .reg .ephLostCount,
        .reg .ephSeq, .reg .hbmPcState, .reg .hbmStatus, .reg .hifEventLostCount, .reg .hifRingHead, .reg .icuPend] u v ∧
      addPacket u k c seg q (c.codesOf q payload) fails .none =
        passSum (setCol v k c') k seg q (c.sumsOf s seg q payload) .none := by
  have hwindows : ∀ p ∈ windowParts, p ∉ w := fun p hp => hw p (windowParts_linkReads p hp)
  have hreadsu : readsWell u (c.srcAt seg q) (c.count q * c.w) :=
    hreads.of_poison (by rw [he.frame.same .poison (hw .poison (by decide))]; exact fun _ => id)
  have hown := ownCodes_of_visible hreadsu ((he.hiddenIn_same hwindows ..).trans hvis)
  rw [memBytes_of_mem (he.mem_same (hw .mem (by decide)))] at hown
  obtain ⟨v, hretries, hv⟩ := addRetries_passes u k hfails
  have hadd : ∃ lapsed, addPacket u k c seg q (c.codesOf q payload) fails .none =
      passSum (setCol v k (flagRun (countPacket c 0 seg (seg = c.pos)) flagBoundLapsed lapsed)) k seg q (c.sumsOf s seg q payload) .none := by
    unfold addPacket
    simp only [hown, hretries, List.map_map]
    exact ⟨_, rfl⟩
  obtain ⟨lapsed, hadd⟩ := hadd
  exact ⟨v, _, (c.sameRun_countPacket ..).trans (Collective.sameRun_flagRun ..), hv, hadd⟩

end Sys2Proof.Machine
end

section
/-! PROOF. The DATA packet of a running chain from its port to the successor or the destination (R482 to R487, R491). -/

namespace Sys2Proof.Machine

/-! ### What the run does with the packet (R482 to R485) -/

section
variable {u : State} {k : Nat} {c : Collective} {pkt : Packet} (hcol : colOf u k = some c) (hruns : c.phase = .running)
  (hchain : c.isMcast = false) (hseg : pkt.aux < c.n) (hq : bits pkt.word 31 0 < c.packets)
include hcol hruns hchain hseg hq

theorem runPacket_takes (fails : Nat) (mf : MemFaults) : runPacket u k pkt fails mf =
    if (if pkt.vc = 3 then 1 else 0) = 0 then
      addPacket u k c pkt.aux (bits pkt.word 31 0) (c.codesOf (bits pkt.word 31 0) pkt.payload) fails mf
    else gatherPacket u k c pkt.aux (bits pkt.word 31 0) (c.codesOf (bits pkt.word 31 0) pkt.payload) mf := by
  unfold runPacket
  simp only [hcol]
  rw [if_neg (by simp [hruns, hchain]; omega)]
  rfl

theorem runPacket_adds (hvc : pkt.vc = 2) (fails : Nat) (mf : MemFaults) : runPacket u k pkt fails mf =
    addPacket u k c pkt.aux (bits pkt.word 31 0) (c.codesOf (bits pkt.word 31 0) pkt.payload) fails mf := by
  rw [runPacket_takes hcol hruns hchain hseg hq, if_neg (by omega : pkt.vc ≠ 3), if_pos rfl]

theorem runPacket_gathers (hvc : pkt.vc = 3) (fails : Nat) (mf : MemFaults) : runPacket u k pkt fails mf =
    gatherPacket u k c pkt.aux (bits pkt.word 31 0) (c.codesOf (bits pkt.word 31 0) pkt.payload) mf := by
  rw [runPacket_takes hcol hruns hchain hseg hq, if_pos hvc, if_neg Nat.one_ne_zero]

end

/-- A sum of another member's segment goes on to the successor. -/
theorem passSum_onward {s : State} {k seg : Nat} {c : Collective} (hseg : seg ≠ c.pos) (q : Nat) (codes : List Nat) (mf : MemFaults) :
    passSum (setCol s k c) k seg q codes mf = sendLink (setCol s k c) k c 0 seg q codes := by
  unfold passSum
  rw [colOf_setCol_same]
  exact if_neg hseg

/-- A sum of the own segment is written, and goes on to be gathered by ALL_REDUCE. -/
theorem passSum_own {s : State} {k seg : Nat} {c : Collective} (hseg : seg = c.pos) (q : Nat) (codes : List Nat) (mf : MemFaults) :
    passSum (setCol s k c) k seg q codes mf =
      if c.op = opAllReduce && decide (1 < c.n) then sendLink (writeLink (setCol s k c) k c seg q codes mf) k c 1 seg q codes
      else writeLink (setCol s k c) k c seg q codes mf := by
  unfold passSum
  rw [colOf_setCol_same]
  exact if_pos hseg

/-- A gather's packet is written, and goes on to all but the chain's last member. -/
theorem gatherPacket_passes (s : State) (k : Nat) (c : Collective) (seg q : Nat) (codes : List Nat) (mf : MemFaults) :
    let t := writeLink s k (countPacket c 1 seg true) seg q codes mf
    gatherPacket s k c seg q codes mf = if (c.pos + 1) % c.n = seg then t else sendLink t k c 1 seg q codes := by
  intro t
  rw [← (c.sameRun_countPacket 1 seg true).sendLink]
  rfl

/-! ### From the port on -/

/-- A packet of the chain stands in the queue of its flow to the successor. -/
def Goes (t : State) (k : Nat) (c : Collective) (stage seg q : Nat) (codes : List Nat) : Prop :=
  Queued t (c.linkKey k stage q) (c.linkOut k stage seg q codes)

theorem Goes.packet {t : State} {k die : Nat} {c : Collective} {stage seg q : Nat} {codes : List Nat} (h : Goes t k c stage seg q codes)
    (hdie : k / 8 = die) : ∃ p ∈ (flowTx t (flowKey die c.next (2 + stage) (colFlow k + q % c.stripes))).queue, p.kind = ptData ∧
      p.aux = seg ∧ p.word = c.digest * 2 ^ 32 + q ∧ p.payload = packElems c.carry codes := by
  obtain ⟨stamp, hp⟩ := h
  rw [Collective.linkKey, hdie] at hp
  exact ⟨_, hp, rfl, rfl, rfl, rfl⟩

/-- What the arrival of a chain's packet and its failed checks change. -/
abbrev dataArrival : List Part :=
  [.cols, .eph, .events, .flowsRx, .flowsTx, .flt, .hostMem, .icuTimers, .ports, .wakePending, .reg .arrPathStatus, .reg .colRetryCount,
    .reg .ephLostCount, .reg .ephSeq, .reg .fabSampleSkipCount, .reg .hbmPcState, .reg .hbmStatus, .reg .hifEventLostCount,
    .reg .hifRingHead, .reg .icuPend, .reg .sidClampCount, .reg .sidCount]

theorem linkReads_dataArrival : ∀ p ∈ linkReads, p ∉ dataArrival := by decide

section
variable {die : Die} {port : Fin 16} {pkt : Packet} {adds : List (Fin 4)} {k : Nat} {c : Collective} {s : State}
  (hnext : HeardNext s die port ptData pkt) (hjob : jobTakes s = true) (hnames : colByDigest s die pkt = some k)
  (hcol : colOf s k = some c) (hruns : c.phase = .running) (hchain : c.isMcast = false) (hseg : pkt.aux < c.n)
  (hq : bits pkt.word 31 0 < c.packets)
include hnext hjob hnames hcol hruns hchain hseg hq

/-- The own elements are added, and the packet is passed on as the sums. -/
theorem exec_dataReceive_sums (hadds : (adds.getD 0 0).val < 3) (hvc : pkt.vc = 2)
    (hreads : readsWell s (c.srcAt pkt.aux (bits pkt.word 31 0)) (c.count (bits pkt.word 31 0) * c.w))
    (hvis : hiddenIn s (c.srcAt pkt.aux (bits pkt.word 31 0)) (c.count (bits pkt.word 31 0) * c.w) = []) :
    ∃ v c', c.SameRun c' ∧ Effect dataArrival s (setCol v k c') ∧ exec (.dataPacketReceive die port pkt adds .none) s =
      .next (passSum (setCol v k c') k pkt.aux (bits pkt.word 31 0) (c.sumsOf s pkt.aux (bits pkt.word 31 0) pkt.payload) .none) := by
  have harr := arrived_effect s die port pkt
  have hrun := (harr.colOf_same (by decide) k).trans hcol
  obtain ⟨v, c', hsame, hv, hadd⟩ := addPacket_sums harr (by decide) (k := k) hadds hreads hvis pkt.payload
  refine ⟨v, c', hsame, (setCol_effect ..).step (hv.step (harr.mono (by decide)) (by decide)) (by decide), ?_⟩
  rw [exec_dataReceive hnext hjob hnames hcol hruns, runPacket_adds hrun hruns hchain hseg hq hvc, hadd]

theorem dataReceive_adds (hadds : (adds.getD 0 0).val < 3) (hvc : pkt.vc = 2)
    (hreads : readsWell s (c.srcAt pkt.aux (bits pkt.word 31 0)) (c.count (bits pkt.word 31 0) * c.w))
    (hvis : hiddenIn s (c.srcAt pkt.aux (bits pkt.word 31 0)) (c.count (bits pkt.word 31 0) * c.w) = []) :
    let q := bits pkt.word 31 0
    let sums := c.sumsOf s pkt.aux q pkt.payload
    (pkt.aux ≠ c.pos → Gives (exec (.dataPacketReceive die port pkt adds .none) s) fun t =>
      Goes t k c 0 pkt.aux q sums ∧ t.mem = s.mem) ∧
    (pkt.aux = c.pos → hiddenIn s (c.dstAt pkt.aux q) (packElems c.carry sums).length = [] →
      Gives (exec (.dataPacketReceive die port pkt adds .none) s) fun t =>
        Lands s t (c.dstAt pkt.aux q) (packElems c.carry sums) ∧ (c.op = opAllReduce → 1 < c.n → Goes t k c 1 pkt.aux q sums)) := by
  intro q sums
  obtain ⟨v, c', hsame, heff, hexec⟩ := exec_dataReceive_sums hnext hjob hnames hcol hruns hchain hseg hq hadds hvc hreads hvis
  obtain ⟨hop, -, hcarry, -, hpos, hn, -, -, -, hdst, -⟩ := hsame.plan
  refine ⟨fun hother => ?_, fun hown hdest => ?_⟩
  · rw [passSum_onward (hpos ▸ hother), hsame.sendLink] at hexec
    exact ⟨_, hexec, sendLink_queued .., ((sendLink_effect ..).mem_same (by decide)).trans (heff.mem_same (by decide))⟩
  · have hlands := writeLink_lands heff linkReads_dataArrival k c' pkt.aux q sums (by rw [hdst, hcarry]; exact hdest)
    rw [hdst, hcarry] at hlands
    rw [passSum_own (hpos ▸ hown), hop, hn, hsame.sendLink] at hexec
    refine ⟨_, hexec, ?_, fun hreduce hmany => ?_⟩
    · split
      · exact hlands.of_mem ((sendLink_effect ..).mem_same (by decide))
      · exact hlands
    · rw [if_pos (by simp [hreduce, hmany])]
      exact sendLink_queued ..

theorem dataReceive_gathers (hvc : pkt.vc = 3)
    (hdest : hiddenIn s (c.dstAt pkt.aux (bits pkt.word 31 0))
      (packElems c.carry (c.codesOf (bits pkt.word 31 0) pkt.payload)).length = []) :
    let q := bits pkt.word 31 0
    let codes := c.codesOf q pkt.payload
    Gives (exec (.dataPacketReceive die port pkt adds .none) s) fun t =>
      Lands s t (c.dstAt pkt.aux q) (packElems c.carry codes) ∧ ((c.pos + 1) % c.n ≠ pkt.aux → Goes t k c 1 pkt.aux q codes) := by
  intro q codes
  have harr := arrived_effect s die port pkt
  have hrun := (harr.colOf_same (by decide) k).trans hcol
  have hlands := writeLink_lands harr (by decide) k (countPacket c 1 pkt.aux true) pkt.aux q codes hdest
  have hexec := (exec_dataReceive hnext hjob hnames hcol hruns (adds := adds)).trans
    (congrArg _ (runPacket_gathers hrun hruns hchain hseg hq hvc ..))
  rw [gatherPacket_passes] at hexec
  refine ⟨_, hexec, ?_, fun hgoes => ?_⟩
  · split
    · exact hlands
    · exact hlands.of_mem ((sendLink_effect ..).mem_same (by decide))
  · rw [if_neg hgoes]
    exact sendLink_queued ..

end

/-- Settles O56: the packet reaches its run, which passes it on as the sums or the codes, or writes them where its segment ends. -/
theorem aRunningChainAddsAndPassesOn : Obligations.ARunningChainAddsAndPassesOn := by
  intro die port pkt adds k c s q seg base codes own sums len goes lands hnext hjob hnames hdie hcol hruns hchain hseg hq hadds
  refine ⟨fun hvc hreads hvis => ?_, fun hvc hdest => ?_⟩
  · obtain ⟨honward, hown⟩ := dataReceive_adds hnext hjob hnames hcol hruns hchain hseg hq hadds hvc hreads hvis
    exact ⟨fun hother => (honward hother).mono fun t ⟨hgoes, hmem⟩ => ⟨hgoes.packet hdie, hmem⟩,
      fun heq hdest => (hown heq hdest).mono fun t ⟨hlands, hgoes⟩ => ⟨hlands, fun hop hn => (hgoes hop hn).packet hdie⟩⟩
  · exact (dataReceive_gathers hnext hjob hnames hcol hruns hchain hseg hq hvc hdest).mono fun t ⟨hlands, hgoes⟩ =>
      ⟨hlands, fun hlast => (hgoes hlast).packet hdie⟩

end Sys2Proof.Machine
end

section
/-! PROOF. The fabric's state as operations leave it: ports, flows and their registers (R507, R515, R536, R564), and counts beside an
effect. -/

namespace Sys2Proof.Machine

/-! ### A map's entry -/

@[simp] theorem Map.getD_put_same {α : Type} (m : Map α) (k : Nat) (v d : α) : Map.getD (Map.put m k v) k d = v := by
  rw [Map.getD, Map.find_put_same, Option.getD_some]

theorem Map.getD_put_ne {α : Type} (m : Map α) {k k' : Nat} (h : k' ≠ k) (v d : α) : Map.getD (Map.put m k v) k' d = Map.getD m k' d := by
  rw [Map.getD, Map.find_put_ne _ _ _ _ h, Map.getD]

@[simp] theorem Map.getD_del_same {α : Type} (m : Map α) (k : Nat) (d : α) : Map.getD (Map.del m k) k d = d := by
  rw [Map.getD, Map.find_del_same, Option.getD_none]

/-! ### Ports -/

@[simp] theorem portOf_setPort_same (s : State) (die p : Nat) (v : PortState) : portOf (setPort s die p v) die p = v :=
  Map.getD_put_same ..

section
variable {w : List Part} {s t : State} (h : Effect w s t)
include h

theorem Effect.portOf_same (hw : Part.ports ∉ w) (die p : Nat) : portOf t die p = portOf s die p :=
  congrArg (fun m => Map.getD m (portKey die p) PortState.fresh) (h.frame.same .ports hw)

theorem Effect.portStateOf_same (hw : Part.reg .fabPortState ∉ w) (die p : Nat) : portStateOf t die p = portStateOf s die p :=
  h.field_same F.fabPortState_state hw ..

theorem Effect.portLanes_same (hw : Part.reg .fabPortState ∉ w) (die p : Nat) : portLanes t die p = portLanes s die p :=
  h.field_same F.fabPortState_lanes hw ..

theorem Effect.portUp_same (hw : Part.ports ∉ w) (hreg : Part.reg .fabPortState ∉ w) (die p : Nat) : portUp t die p = portUp s die p := by
  rw [portUp, h.portStateOf_same hreg, h.portOf_same hw, portUp]

/-! ### Flows -/

theorem Effect.flowTx_same (hw : Part.flowsTx ∉ w) (key : Nat) : flowTx t key = flowTx s key :=
  congrArg (fun m => Map.getD m key FlowTx.fresh) (h.frame.same .flowsTx hw)

theorem Effect.flowRx_same (hw : Part.flowsRx ∉ w) (key : Nat) : flowRx t key = flowRx s key :=
  congrArg (fun m => Map.getD m key FlowRx.fresh) (h.frame.same .flowsRx hw)

/-! ### Counts and sources beside an effect -/

theorem Effect.counts_of {f : Fld} (hw : Part.reg f.reg ∉ w) {u : State} {die unit n : Nat} (hc : Counts t u f die unit n) :
    Counts s u f die unit n := hc.congr (h.field_same f hw die unit) rfl

theorem Effect.of_counts {f : Fld} (hw : Part.reg f.reg ∉ w) {u : State} {die unit n : Nat} (hc : Counts u s f die unit n) :
    Counts u t f die unit n := hc.congr rfl (h.field_same f hw die unit)

end

/-! ### A port's state and width (R564) -/

theorem setPortState_reads (s : State) (die p : Nat) {st lanes : Nat} (hst : st < 4) (hlanes : lanes < 16) :
    portStateOf (setPortState s die p st lanes) die p = st ∧ portLanes (setPortState s die p st lanes) die p = lanes := by
  unfold setPortState
  split
  next hsame => simpa using hsame
  next =>
    have hirq := irq_effect (wf (wf s F.fabPortState_state die p st) F.fabPortState_lanes die p lanes) die 4 p
    rw [hirq.portStateOf_same (by decide), hirq.portLanes_same (by decide)]
    constructor
    · rw [portStateOf, rf_wf_field _ F.fabPortState_lanes F.fabPortState_state _ _ _ rfl (by decide) (by decide) (by decide),
        rf_wf_same _ _ _ _ _ (by decide)]
      exact Nat.mod_eq_of_lt hst
    · rw [portLanes, rf_wf_same _ _ _ _ _ (by decide)]
      exact Nat.mod_eq_of_lt hlanes

theorem widthOf_lt (n : Nat) : widthOf n < 16 := by
  unfold widthOf
  split_ifs <;> omega

end Sys2Proof.Machine
end

section
/-! PROOF. Port failure (R547 to R551): the response of a failed port, its retraining, and new settings of lanes and of the span
bridge (R36, R37, R754, R755). -/

namespace Sys2Proof.Machine

/-! ### A port fails (R547, R548) -/

/-- What classing the lanes that failed and counting the link failure change. -/
abbrev failureParts : List Part :=
  [.eph, .events, .flt, .hostMem, .icuTimers, .wakePending, .reg .arrPathStatus, .reg .colLinkEventCount, .reg .ephLostCount, .reg .ephSeq,
    .reg .hbmPcState, .reg .hbmStatus, .reg .hifEventLostCount, .reg .hifRingHead, .reg .icuPend]

/-- The state once the lanes that failed have been classed and the failure has been counted for a run under way. -/
def failureNoted (s : State) (die p : Nat) (cause : PortFailCause) : State :=
  linkEvent (match cause with
    | .lockLoss => (lostLanes s die p).foldl (fun s l => irq (exhaust s kLane (laneChan die p l) 0) die 4 (16 + p)) s
    | .exhausted _ => s) die

theorem failureNoted_effect (s : State) (die p : Nat) (cause : PortFailCause) :
    Effect failureParts s (failureNoted s die p cause) := by
  refine (linkEvent_effect ..).step ?_ (by decide)
  cases cause with
  | lockLoss => exact .foldl _ (fun s l => (irq_effect ..).step ((exhaust_effect ..).one (by decide)) (by decide)) _ s
  | exhausted q => exact .refl ..

theorem portFails_of_cause {s : State} {die p : Nat} {cause : PortFailCause} (hup : portStateOf s die p ≠ portDown)
    (hfresh : (portOf s die p).failing = false)
    (hcause : match cause with
      | .lockLoss => ∃ e ∈ (portOf s die p).unlocked, e.2 + 4000 < now s die
      | .exhausted q => ∃ e ∈ (portOf s die p).replayBuf, e.seq = q.toNat ∧ e.exhausted = true) :
    portFails s die p cause = true := by
  cases cause with
  | lockLoss =>
    obtain ⟨e, he, hlate⟩ := hcause
    have hlost : lostLanes s die p ≠ [] := List.ne_nil_of_mem (List.mem_map_of_mem (List.mem_filter.mpr ⟨he, decide_eq_true hlate⟩))
    simp [portFails, hup, hfresh, hlost]
  | exhausted q =>
    obtain ⟨e, he, hseq, hex⟩ := hcause
    simp [portFails, hup, hfresh]
    exact ⟨e, he, hseq, hex⟩

/-- A failing port in DETOUR mode, and in NARROW mode. -/
def failDetour (s : State) (die p : Nat) : State :=
  let v := portOf s die p
  let s := setPort s die p (portLost { v with failing := true, reinject := true })
  sourceSettle (portEvent (bump (setPortState s die p portDown 0) F.fabDetourCount_count die 0 1) die p)
def failNarrow (s : State) (die p : Nat) : State :=
  let v := portOf s die p
  let buf := v.replayBuf.map fun e => { e with exhausted := false }
  let s := setPort s die p { v with failing := true, unlocked := [], replayBuf := buf }
  sourceSettle (bump (setPortState s die p portTraining (portLanes s die p)) F.fabRetrainCount_count die 0 1)

theorem exec_portFail {die : Die} {port : Fin 16} {cause : PortFailCause} {s : State} (h : portFails s die port cause = true) :
    exec (.portFail die port cause) s = .next
      (if bitOf (rd (failureNoted s die port cause) .fabPortMode die 0) port then failDetour (failureNoted s die port cause) die port
       else failNarrow (failureNoted s die port cause) die port) := by
  show execPortFail die port cause s = _
  unfold execPortFail
  rw [if_neg (by simp [h])]
  cases cause <;> exact (apply_ite ..).symm

theorem failDetour_ends (s : State) (die p : Nat) :
    let t := failDetour s die p
    (portOf t die p).failing = true ∧ portStateOf t die p = portDown ∧ portLanes t die p = 0 ∧ (portOf t die p).reinject = true ∧
      Counts s t F.fabDetourCount_count die 0 1 := by
  intro t
  let u := setPort s die p (portLost { portOf s die p with failing := true, reinject := true })
  have hend : Effect _ (bump (setPortState u die p portDown 0) F.fabDetourCount_count die 0 1) t :=
    (sourceSettle_effect ..).step ((event_effect ..).one (by decide)) (w := sourceSettle_parts ++ event_parts) (by decide)
  have hbump := bump_effect (setPortState u die p portDown 0) F.fabDetourCount_count die 0 1
  have hstate := setPortState_effect u die p portDown 0
  obtain ⟨hdown, hlanes⟩ := setPortState_reads u die p (st := portDown) (lanes := 0) (by decide) (by decide)
  have hport : portOf t die p = portLost { portOf s die p with failing := true, reinject := true } := by
    rw [hend.portOf_same (by decide), hbump.portOf_same (by decide), hstate.portOf_same (by decide), portOf_setPort_same]
  refine ⟨by rw [hport]; rfl, ?_, ?_, by rw [hport]; rfl, ?_⟩
  · rw [hend.portStateOf_same (by decide), hbump.portStateOf_same (by decide), hdown]
  · rw [hend.portLanes_same (by decide), hbump.portLanes_same (by decide), hlanes]
  · exact (setPort_effect ..).counts_of (by decide) (hstate.counts_of (by decide)
      (hend.of_counts (by decide) (counts_bump _ (by decide) ..)))

theorem failNarrow_ends (s : State) (die p : Nat) :
    let t := failNarrow s die p
    (portOf t die p).failing = true ∧ portStateOf t die p = portTraining ∧ Counts s t F.fabRetrainCount_count die 0 1 := by
  intro t
  let u := setPort s die p { portOf s die p with
    failing := true, unlocked := [], replayBuf := (portOf s die p).replayBuf.map fun e => { e with exhausted := false } }
  have hend := sourceSettle_effect (bump (setPortState u die p portTraining (portLanes u die p)) F.fabRetrainCount_count die 0 1)
  have hbump := bump_effect (setPortState u die p portTraining (portLanes u die p)) F.fabRetrainCount_count die 0 1
  have hstate := setPortState_effect u die p portTraining (portLanes u die p)
  refine ⟨?_, ?_, ?_⟩
  · show (portOf (sourceSettle _) die p).failing = true
    rw [hend.portOf_same (by decide), hbump.portOf_same (by decide), hstate.portOf_same (by decide), portOf_setPort_same]
  · show portStateOf (sourceSettle _) die p = portTraining
    rw [hend.portStateOf_same (by decide), hbump.portStateOf_same (by decide)]
    exact (setPortState_reads u die p (by decide) (rf_lt ..)).1
  · exact (setPort_effect ..).counts_of (by decide) (hstate.counts_of (by decide)
      (hend.of_counts (by decide) (counts_bump _ (by decide) ..)))

/-- PORT_FAIL of a cause that holds starts the response of the port's mode (R548 to R551). -/
theorem portFail_responds {die : Die} {port : Fin 16} {cause : PortFailCause} {s : State} (h : portFails s die port cause = true) :
    Gives (exec (.portFail die port cause) s) fun t =>
      (portOf t die port).failing = true ∧
      (bitOf (rd s .fabPortMode die 0) port = true → portStateOf t die port = portDown ∧ portLanes t die port = 0 ∧
        (portOf t die port).reinject = true ∧ Counts s t F.fabDetourCount_count die 0 1) ∧
      (bitOf (rd s .fabPortMode die 0) port = false → portStateOf t die port = portTraining ∧
        Counts s t F.fabRetrainCount_count die 0 1) := by
  have hnoted := failureNoted_effect s die port cause
  have hmode : rd (failureNoted s die port cause) .fabPortMode die 0 = rd s .fabPortMode die 0 :=
    hnoted.frame.same (.reg .fabPortMode) (by decide) die 0
  refine ⟨_, exec_portFail h, ?_⟩
  rw [hmode]
  cases hb : bitOf (rd s .fabPortMode die 0) port with
  | true =>
    obtain ⟨hfailing, hdown, hlanes, hreinject, hcount⟩ := failDetour_ends (failureNoted s die port cause) die port
    exact ⟨hfailing, fun _ => ⟨hdown, hlanes, hreinject, hnoted.counts_of (by decide) hcount⟩, fun h => absurd h (by decide)⟩
  | false =>
    obtain ⟨hfailing, htraining, hcount⟩ := failNarrow_ends (failureNoted s die port cause) die port
    exact ⟨hfailing, fun h => absurd h (by decide), fun _ => ⟨htraining, hnoted.counts_of (by decide) hcount⟩⟩

/-! ### A port retrains (R509, R513, R514, R549, R553) -/

/-- The port with its state and width set, once the event that tells of them and the source of time have followed. -/
theorem portSet_ends {s t : State} {die p st lanes : Nat} (hst : st < 4) (hlanes : lanes < 16) (v : PortState)
    (ht : Effect (sourceSettle_parts ++ event_parts) (setPortState (setPort s die p v) die p st lanes) t) :
    portStateOf t die p = st ∧ portLanes t die p = lanes ∧ portOf t die p = v := by
  obtain ⟨hstate, hwidth⟩ := setPortState_reads (setPort s die p v) die p hst hlanes
  rw [ht.portStateOf_same (by decide), ht.portLanes_same (by decide), ht.portOf_same (by decide),
    (setPortState_effect ..).portOf_same (by decide), portOf_setPort_same]
  exact ⟨hstate, hwidth, rfl⟩

/-- A port that is up again on these lanes. -/
def retrainedPort (v : PortState) (lanes : List Nat) : PortState := { resendFrom v 0 with inUse := lanes, unlocked := [], failing := false }

section
variable {die : Die} {port : Fin 16} {good : BitVec 8} {s : State} (htrains : portStateOf s die port = portTraining)
  (hfails : (portOf s die port).failing = true)
include htrains hfails

/-- Too few good lanes are left: the port goes down with its flows to be moved. -/
theorem retrain_down (hn : widthOf (min (portLanes s die port) (goodLanes s die port good.toNat).length) = 0) :
    Gives (exec (.retrainComplete die port good) s) fun t =>
      portStateOf t die port = portDown ∧ (portOf t die port).reinject = true := by
  have hexec : exec (.retrainComplete die port good) s = .next (sourceSettle (portEvent
      (setPortState (setPort s die port (portLost { portOf s die port with reinject := true })) die port portDown 0) die port)) := by
    show execRetrainComplete die port good s = _
    unfold execRetrainComplete
    rw [if_neg (by simp [htrains, hfails])]
    exact if_pos hn
  obtain ⟨hstate, -, hport⟩ := portSet_ends (st := portDown) (lanes := 0) (by decide) (by decide) _
    ((sourceSettle_effect ..).step ((portEvent_effect ..).one (by decide)) (by decide))
  exact ⟨_, hexec, hstate, by rw [hport]; rfl⟩

/-- The port is up on the widest set of good lanes within the width it had, and its unacknowledged flits are to go out again. -/
theorem retrain_up {n : Nat} (hn : widthOf (min (portLanes s die port) (goodLanes s die port good.toNat).length) = n) (h0 : n ≠ 0) :
    Gives (exec (.retrainComplete die port good) s) fun t =>
      portStateOf t die port = portIsUp ∧ portLanes t die port = n ∧
      portOf t die port = retrainedPort (portOf s die port) ((goodLanes s die port good.toNat).take n) := by
  let u := setPortState (setPort s die port (retrainedPort (portOf s die port) ((goodLanes s die port good.toNat).take n))) die port
    portIsUp n
  have hexec : exec (.retrainComplete die port good) s =
      .next (sourceSettle (if n < portLanes s die port then portEvent u die port else u)) := by
    subst hn
    show execRetrainComplete die port good s = _
    unfold execRetrainComplete
    rw [if_neg (by simp [htrains, hfails])]
    exact if_neg h0
  have htold : Effect (sourceSettle_parts ++ event_parts) u (if n < portLanes s die port then portEvent u die port else u) :=
    .ite ((portEvent_effect ..).one (by decide)) (.refl ..)
  exact ⟨_, hexec, portSet_ends (s := s) (by decide) (hn ▸ widthOf_lt _) _ ((sourceSettle_effect _).step htold (by decide))⟩

end

/-! ### New settings of lanes and of the bridge (R36, R37, R733, R754, R755) -/

theorem awake_of_Awake {s : State} (h : Awake s) : awake s = true := by
  obtain ⟨-, hpower⟩ := h
  have hcases : powerState s = pwrActive ∨ powerState s = pwrIdle := by unfold pwrNap at hpower; unfold pwrActive pwrIdle; omega
  simpa [awake] using hcases

section
variable {die : Die} {port : Fin 16} {lane : Fin 8} {s : State} (hawake : Awake s) (huse : lane.val ∈ (portOf s die port).inUse)
include hawake huse

theorem laneRecalibrate_takes (idle : Nat) : exec (.laneRecalibrate die port lane idle false) s =
    .next (setPort (fresh s).2 die port { oweIdle (portOf s die port) idle with
      settings := Map.put (portOf s die port).settings lane (fresh s).1 }) := by
  show execLaneRecalibrate die port lane idle false s = _
  unfold execLaneRecalibrate
  exact if_neg (by simp [awake_of_Awake hawake, oweIdle, huse])

theorem laneRecalibrate_keeps (idle : Nat) : exec (.laneRecalibrate die port lane idle true) s =
    .next (setPort s die port (oweIdle (portOf s die port) idle)) := by
  show execLaneRecalibrate die port lane idle true s = _
  unfold execLaneRecalibrate
  exact if_neg (by simp [awake_of_Awake hawake, oweIdle, huse])

end

/-! ### The lane groups of the span bridge under the fault classifier (R733, R744) -/

theorem classifyEffect_bridge (s : State) (g : Nat) :
    (classifyEffect s kBridge g).flt = { s.flt with bridgeRetired := insertNew s.flt.bridgeRetired g } :=
  (irq_effect { s with flt := { s.flt with bridgeRetired := insertNew s.flt.bridgeRetired g } } 0 9 3).frame.same .flt (by decide)

/-- A lane group that is classed keeps its count of failures, and is retired. -/
theorem classify_bridge (s : State) (g cause count : Nat) :
    let t := classify s kBridge g cause count
    t.flt.bridgeTries = s.flt.bridgeTries ∧ t.flt.bridgeRetired = insertNew s.flt.bridgeRetired g := by
  intro t
  let r : LedgerRec := ⟨kBridge, 1, cause, min 255 count, g, now s 0, 0, 0, false⟩
  let u := classifyEffect (setChan { s with flt := { s.flt with pendingRecs := insertRec s.flt.pendingRecs r } } kBridge g 1) kBridge g
  have hu : Effect (event_parts) u t :=
    (irq_effect ..).step ((event_effect ..).step ((emit_effect u 0 0x13 0 Blk.ctl.num g _).one (by decide)) (by decide)) (by decide)
  rw [show t.flt = u.flt from hu.frame.same .flt (by decide), show u.flt = _ from classifyEffect_bridge ..]
  exact ⟨rfl, rfl⟩

theorem mem_insertNew_self (l : List Nat) (a : Nat) : a ∈ insertNew l a := by
  unfold insertNew
  split <;> simp_all

theorem checkRec_flt (s : State) (kind ch ev addr : Nat) : (checkRec s kind ch ev addr).flt = s.flt :=
  (checkRec_effect ..).frame.same .flt (by decide)

theorem transient_bridgeTries (s : State) (g addr : Nat) : (transient s kBridge g addr).flt.bridgeTries = s.flt.bridgeTries := by
  have hcheck := congrArg FaultState.bridgeTries (checkRec_flt s kBridge g 1 addr)
  show (countTransient (checkRec s kBridge g 1 addr) kBridge g).flt.bridgeTries = _
  unfold countTransient
  rw [show chanSource kBridge g = (0, .ctl, g) from rfl]
  dsimp only
  split_ifs
  · exact hcheck
  · exact (classify_bridge ..).1.trans hcheck
  · exact hcheck

/-- A healthy lane group of the bridge is retired with its last retry. -/
theorem exhaust_bridge {s : State} {g : Nat} (h : chanState s kBridge g = 0) (addr : Nat) :
    (exhaust s kBridge g addr).flt.bridgeTries = s.flt.bridgeTries ∧ g ∈ (exhaust s kBridge g addr).flt.bridgeRetired := by
  have hflt := checkRec_flt s kBridge g 2 addr
  have hchan : chanState (checkRec s kBridge g 2 addr) kBridge g = 0 := by rw [chanState, hflt]; exact h
  have hexhaust : ∃ count, exhaust s kBridge g addr = classify (checkRec s kBridge g 2 addr) kBridge g 2 count :=
    ⟨_, if_pos (by rw [hchan]; rfl)⟩
  obtain ⟨count, hexhaust⟩ := hexhaust
  obtain ⟨htries, hretired⟩ := classify_bridge (checkRec s kBridge g 2 addr) g 2 count
  rw [hexhaust, htries, hretired, hflt]
  exact ⟨rfl, mem_insertNew_self ..⟩

/-! ### Flits over the span bridge (R36, R37, R733) -/

/-- The failures of a lane group set. -/
def bridgeCount (s : State) (g n : Nat) : State :=
  { s with flt := { s.flt with bridgeTries := if n = 0 then Map.del s.flt.bridgeTries g else Map.put s.flt.bridgeTries g n } }

theorem bridgeTries_bridgeCount (s : State) (g n : Nat) : Map.getD (bridgeCount s g n).flt.bridgeTries g 0 = n := by
  unfold bridgeCount
  dsimp only
  split
  next h => rw [Map.getD_del_same, h]
  next => rw [Map.getD_put_same]

theorem exec_bridgeFlit {g : Fin 64} {s : State} (h : g.val ∉ s.flt.bridgeRetired) (crcOk : Bool) :
    exec (.bridgeFlitReceive g crcOk) s = .next (if crcOk then bridgeCount s g 0
      else if Map.getD s.flt.bridgeTries g 0 < 2 then transient (bridgeCount s g (Map.getD s.flt.bridgeTries g 0 + 1)) kBridge g 0
      else exhaust (bridgeCount s g 0) kBridge g 0) := by
  show execBridgeFlitReceive g crcOk s = _
  unfold execBridgeFlitReceive
  extract_lets n tries put
  rw [if_neg (by simpa [n] using h)]
  split_ifs <;> rfl

/-- What a lane group in service does with new settings and with flits (R36, R37, R733, R754). -/
theorem bridge_serves {g : Fin 64} {s : State} (h : g.val ∉ s.flt.bridgeRetired) :
    (Awake s → Gives (exec (.bridgeRecalibrate g) s) fun t =>
      Map.find t.flt.bridgeSettings g = some (Config.freeValue s.freeCtr) ∧ t.freeCtr = s.freeCtr + 1 ∧ Frame [.flt, .freeCtr] s t) ∧
    Gives (exec (.bridgeFlitReceive g true) s) (fun t => Map.getD t.flt.bridgeTries g 0 = 0 ∧ Frame [.flt] s t) ∧
    (Map.getD s.flt.bridgeTries g 0 < 2 → Gives (exec (.bridgeFlitReceive g false) s) fun t =>
      Map.getD t.flt.bridgeTries g 0 = Map.getD s.flt.bridgeTries g 0 + 1) ∧
    (2 ≤ Map.getD s.flt.bridgeTries g 0 → chanState s kBridge g = 0 → Gives (exec (.bridgeFlitReceive g false) s) fun t =>
      g.val ∈ t.flt.bridgeRetired ∧ Map.getD t.flt.bridgeTries g 0 = 0) := by
  refine ⟨fun hawake => ?_, ?_, fun hfew => ?_, fun hmany hhealthy => ?_⟩
  · have hexec : exec (.bridgeRecalibrate g) s = .next { (fresh s).2 with
        flt := { s.flt with bridgeSettings := Map.put s.flt.bridgeSettings g (fresh s).1 } } := by
      show execBridgeRecalibrate g s = _
      unfold execBridgeRecalibrate
      exact if_neg (by simpa [awake_of_Awake hawake] using h)
    exact ⟨_, hexec, Map.find_put_same .., rfl,
      (effect_set_flt _ (by decide) ((fresh_effect s).one (by decide)) : Effect [.flt, .freeCtr] s _).frame⟩
  · exact ⟨_, exec_bridgeFlit h true, bridgeTries_bridgeCount .., (setFlt_effect ..).frame⟩
  · refine ⟨_, exec_bridgeFlit h false, ?_⟩
    rw [if_neg Bool.false_ne_true, if_pos hfew]
    exact (congrArg (Map.getD · g.val 0) (transient_bridgeTries ..)).trans (bridgeTries_bridgeCount ..)
  · refine ⟨_, exec_bridgeFlit h false, ?_⟩
    obtain ⟨htries, hretired⟩ := exhaust_bridge (s := bridgeCount s g 0) hhealthy 0
    rw [if_neg Bool.false_ne_true, if_neg (by omega)]
    exact ⟨hretired, (congrArg (Map.getD · g.val 0) htries).trans (bridgeTries_bridgeCount ..)⟩

end Sys2Proof.Machine
end

section
/-! PROOF. The flows of a downed port move (R532, R549, R551, R552): which candidate they take, and what else moves beside a flow. -/

namespace Sys2Proof.Machine

/-! ### The key of a flow (R520) -/

theorem keyFlow_flowKey {flow : Nat} (hflow : flow < 256) (die ep vc : Nat) : keyFlow (flowKey die ep vc flow) = flow := by
  unfold keyFlow flowKey
  omega

theorem keyVc_flowKey {vc flow : Nat} (hvc : vc < 8) (hflow : flow < 256) (die ep : Nat) : keyVc (flowKey die ep vc flow) = vc := by
  unfold keyVc flowKey
  omega

section
variable {ep vc flow : Nat} (hep : ep < 2 ^ 17) (hvc : vc < 8) (hflow : flow < 256) (die : Nat)
include hep hvc hflow

theorem keyEp_flowKey : keyEp (flowKey die ep vc flow) = ep := by unfold keyEp flowKey; omega
theorem keyDie_flowKey : keyDie (flowKey die ep vc flow) = die := by unfold keyDie flowKey; omega

end

/-! ### The candidate a flow takes (R532) -/

/-- Of two candidates the one whose port has the fewer bytes queued, the earlier where they have as many. -/
def fewerQueued (s : State) (die vc : Nat) (m : Option Candidate) (c : Candidate) : Option Candidate :=
  match m with
  | none => some c
  | some b => if queuedBytes s die c.port vc < queuedBytes s die b.port vc then some c else some b

theorem bestCandidate_eq (s : State) (die vc : Nat) (l : List Candidate) :
    bestCandidate s die vc l = (l.filter fun c => portUp s die c.port).foldl (fewerQueued s die vc) none := rfl

theorem fewerQueued_some (s : State) (die vc : Nat) (m : Option Candidate) (c : Candidate) :
    fewerQueued s die vc m c = some c ∨ (fewerQueued s die vc m c = m ∧ m.isSome = true) := by
  unfold fewerQueued
  split
  · exact .inl rfl
  · split
    · exact .inl rfl
    · exact .inr ⟨rfl, rfl⟩

/-- The best of a list comes from it or from before it; there is none only where there is nothing to choose from. -/
theorem foldl_fewerQueued (s : State) (die vc : Nat) : ∀ (l : List Candidate) (m : Option Candidate),
    (∀ c, l.foldl (fewerQueued s die vc) m = some c → m = some c ∨ c ∈ l) ∧
      ((l.foldl (fewerQueued s die vc) m).isSome = true ↔ m.isSome = true ∨ l ≠ []) := by
  intro l
  induction l with
  | nil => exact fun m => ⟨fun c h => .inl h, by simp⟩
  | cons x l ih =>
    intro m
    obtain ⟨hfrom, hsome⟩ := ih (fewerQueued s die vc m x)
    refine ⟨fun c hc => ?_, ?_⟩
    · rcases hfrom c hc with h | h
      · rcases fewerQueued_some s die vc m x with hx | ⟨hm, -⟩
        · rw [hx] at h
          exact .inr (by simp [Option.some.inj h])
        · exact .inl (hm ▸ h)
      · exact .inr (List.mem_cons_of_mem _ h)
    · rw [List.foldl_cons, hsome]
      rcases fewerQueued_some s die vc m x with hx | ⟨hm, hs⟩
      · simp [hx]
      · simp [hm, hs]

/-- The candidates that a flow may take (R532, R533). -/
def candidatesFor (s : State) (die dst vc : Nat) : List Candidate :=
  if vc = 4 then ((List.range 16).filter fun p => bitOf (rd s .fabMcastPorts die 0) p).map fun p => ⟨p, 0, 0, 0, 0⟩
  else candidatesOf (routeEntry s die (dst / 2))

theorem chooseCandidate_eq (s : State) (die dst vc : Nat) :
    chooseCandidate s die dst vc = bestCandidate s die vc (candidatesFor s die dst vc) := by
  unfold chooseCandidate candidatesFor
  split <;> rfl

theorem portUp_of_choose {s : State} {die dst vc : Nat} {c : Candidate} (h : chooseCandidate s die dst vc = some c) :
    portUp s die c.port = true := by
  rw [chooseCandidate_eq, bestCandidate_eq] at h
  rcases (foldl_fewerQueued s die vc _ none).1 c h with hc | hc
  · exact absurd hc (by simp)
  · exact (List.mem_filter.mp hc).2

/-- Whether a flow finds a candidate depends on the routes and on which ports take packets. -/
theorem choose_isSome_same {w : List Part} {s t : State} (h : Effect w s t)
    (hw : Part.ports ∉ w ∧ Part.reg .fabPortState ∉ w ∧ Part.reg .fabMcastPorts ∉ w ∧ Part.routes ∉ w) (die dst vc : Nat) :
    (chooseCandidate t die dst vc).isSome = (chooseCandidate s die dst vc).isSome := by
  obtain ⟨hports, hstate, hmcast, hroutes⟩ := hw
  have hcands : candidatesFor t die dst vc = candidatesFor s die dst vc := by
    unfold candidatesFor
    rw [h.routeEntry_same hroutes, show rd t .fabMcastPorts die 0 = rd s .fabMcastPorts die 0 from h.frame.same (.reg .fabMcastPorts) hmcast die 0]
  have hup : (fun c : Candidate => portUp t die c.port) = fun c => portUp s die c.port := funext fun c => h.portUp_same hports hstate ..
  rw [Bool.eq_iff_iff, chooseCandidate_eq, chooseCandidate_eq, bestCandidate_eq, bestCandidate_eq, (foldl_fewerQueued ..).2,
    (foldl_fewerQueued ..).2, hcands, hup]

/-! ### What becomes of other flows -/

/-- A flow keeps its packets to be acknowledged, its candidate and what it is to send again: at most its queue has changed. -/
def FlowKept (key : Nat) (s t : State) : Prop := ∃ queue, flowTx t key = { flowTx s key with queue }

theorem FlowKept.refl (key : Nat) (s : State) : FlowKept key s s := ⟨_, rfl⟩

theorem FlowKept.trans {key : Nat} {s t u : State} (h1 : FlowKept key s t) (h2 : FlowKept key t u) : FlowKept key s u := by
  obtain ⟨q1, h1⟩ := h1
  obtain ⟨q2, h2⟩ := h2
  exact ⟨q2, by rw [h2, h1]⟩

theorem Effect.flowKept {w : List Part} {s t : State} (h : Effect w s t) (hw : Part.flowsTx ∉ w) (key : Nat) : FlowKept key s t :=
  ⟨_, h.flowTx_same hw key⟩

theorem FlowKept.setOther {key key' : Nat} (h : key ≠ key') (s : State) (f : FlowTx) : FlowKept key s (setFlowTx s key' f) :=
  ⟨_, flowTx_setFlowTx_ne s h f⟩

theorem FlowKept.foldl {α : Type} {key : Nat} {f : State → α → State} (hf : ∀ s x, FlowKept key s (f s x)) (l : List α) (s : State) :
    FlowKept key s (l.foldl f s) := by
  induction l generalizing s with
  | nil => exact .refl ..
  | cons x l ih => exact (hf s x).trans (ih _)

theorem queuePacket_flowKept (s : State) (die : Nat) (p : Packet) (key : Nat) : FlowKept key s (queuePacket s die p) := by
  unfold queuePacket
  by_cases h : key = flowKey die p.dst p.vc p.flow
  · exact ⟨_, by rw [h, flowTx_setFlowTx_same]⟩
  · exact .setOther h ..

theorem sendAborts_flowKept (s : State) (k status : Nat) (gone : Option Nat) (key : Nat) : FlowKept key s (sendAborts s k status gone) := by
  unfold sendAborts
  split
  · exact .refl ..
  · exact .foldl (fun s e => (queuePacket_flowKept ..).trans ((colAbort_effect ..).flowKept (by decide) key)) _ s

/-- A map whose entries each change under their key. -/
theorem Map.find_map_entries {α : Type} (g : Nat × α → Nat × α) (hkey : ∀ e, (g e).1 = e.1) (m : Map α) (k : Nat) :
    Map.find (m.map g) k = (Map.find m k).map fun v => (g (k, v)).2 := by
  induction m with
  | nil => rfl
  | cons e m ih =>
    obtain ⟨k', v⟩ := e
    rw [List.map_cons, show g (k', v) = (k', (g (k', v)).2) from Prod.ext (hkey _) rfl]
    unfold Map.find
    split
    next h => rw [h]; rfl
    next => exact ih

theorem stopRun_flowKept (s : State) (k status key : Nat) : FlowKept key s (stopRun s k status) := by
  unfold stopRun
  split
  · exact .refl ..
  · extract_lets u mine v
    have hu : FlowKept key s u := (withdrawWaits_effect s _).flowKept (by decide) key
    refine hu.trans (FlowKept.trans ?_ ((setCol_effect v k _).flowKept (by decide) key))
    have hfind : Map.find v.flowsTx key = _ := Map.find_map_entries (fun e => if mine e.1 then (e.1, { e.2 with queue := [] }) else e)
      (fun e => by split <;> rfl) u.flowsTx key
    unfold FlowKept flowTx Map.getD
    rw [hfind]
    cases Map.find u.flowsTx key with
    | none => exact ⟨_, rfl⟩
    | some f =>
      by_cases hm : mine key = true
      · exact ⟨[], by simp only [Option.map_some, if_pos hm, Option.getD_some]⟩
      · exact ⟨f.queue, by simp only [Option.map_some, if_neg hm, Option.getD_some]⟩

theorem runLinkLost_flowKept (s : State) (k key : Nat) : FlowKept key s (runLinkLost s k) :=
  (sendAborts_flowKept ..).trans (stopRun_flowKept ..)

theorem mcastLost_flowKept (s : State) (die flow key : Nat) : FlowKept key s (mcastLost s die flow) := by
  unfold mcastLost
  extract_lets k
  split
  · split
    · exact stopRun_flowKept ..
    · exact .refl ..
  · exact .refl ..

/-- The flow that a lost one leaves: empty, with no candidate. -/
def lostFlow (f : FlowTx) : FlowTx := { f with queue := [], retained := [], resend := [], cand := none }

/-- A flow is lost among others, which keep theirs; its own signals and its chain run are told. -/
theorem flowLost_from (s : State) (key k : Nat) : FlowKept k (setFlowTx s key (lostFlow (flowTx s key))) (flowLost s key) := by
  unfold flowLost
  extract_lets die f all u1 u2 u3
  refine FlowKept.trans ?_ ((settleOutstanding_effect u3 die).flowKept (by decide) k)
  refine FlowKept.trans (FlowKept.foldl (fun s _ => (signalLost_effect s die).flowKept (by decide) k) _ u1 : FlowKept k u1 u2) ?_
  unfold u3
  split
  · exact runLinkLost_flowKept ..
  · exact .refl ..

theorem flowLost_other {s : State} {key k : Nat} (h : k ≠ key) : FlowKept k s (flowLost s key) :=
  (FlowKept.setOther h ..).trans (flowLost_from ..)

/-! ### A flow moved (R551, R552) -/

/-- A retained packet as it goes out again on another candidate. -/
def detoured (c : Candidate) (e : Packet × Nat) : Packet × Nat :=
  ({ e.1 with
    detour := true
    hops := c.hops
    sel0 := if 1 ≤ c.hops then c.sel0 else 0
    sel1 := if 2 ≤ c.hops then c.sel1 else 0
    sel2 := if c.hops = 3 then c.sel2 else 0 }, e.2)

def movedFlow (f : FlowTx) (c : Candidate) : FlowTx :=
  { f with
    retained := f.retained.map (detoured c)
    resend := (f.retained.map (detoured c)).map fun e => (e.1.fseq, false)
    cand := some c }

theorem moveFlow_of_choose {s : State} {die key : Nat} {c : Candidate} (h : chooseCandidate s die (keyEp key) (keyVc key) = some c) :
    moveFlow die s key = if !retainRoom s die c.port (keyVc key) ((flowTx s key).retained.map (·.1)) then s
      else setFlowTx s key (movedFlow (flowTx s key) c) := by
  unfold moveFlow
  rw [h]
  rfl

theorem moveFlow_other {s : State} {die key k : Nat} (h : k ≠ key) : FlowKept k s (moveFlow die s key) := by
  cases hc : chooseCandidate s die (keyEp key) (keyVc key) with
  | none =>
    unfold moveFlow
    rw [hc]
    dsimp only
    split
    · exact (flowLost_other h).trans (mcastLost_flowKept ..)
    · exact flowLost_other h
  | some c =>
    rw [moveFlow_of_choose hc]
    split
    · exact .refl ..
    · exact .setOther h ..

/-- A flow's packets are to go out again on another port than the one that went down. -/
def Moved (f f' : FlowTx) (port : Nat) : Prop :=
  (∀ p ∈ f'.retained, p.1.detour = true) ∧ f'.retained.length = f.retained.length ∧
    f'.resend = f'.retained.map (fun e => (e.1.fseq, false)) ∧ ∃ c', f'.cand = some c' ∧ c'.port ≠ port

theorem moved_movedFlow {f f' : FlowTx} {port : Nat} {c : Candidate} (hlen : f'.retained.length = f.retained.length)
    (hport : c.port ≠ port) : Moved f (movedFlow f' c) port := by
  refine ⟨fun p hp => ?_, ?_, rfl, c, rfl, hport⟩
  · obtain ⟨e, -, rfl⟩ := List.mem_map.mp hp
    rfl
  · simp [movedFlow, hlen]

/-- A flow has moved, or waits for room with its packets on the port they were sent on. -/
def MovedOrWaits (f f' : FlowTx) (port : Nat) : Prop := Moved f f' port ∨ (f'.retained = f.retained ∧ f'.cand = f.cand)

theorem MovedOrWaits.length {f f' : FlowTx} {port : Nat} (h : MovedOrWaits f f' port) : f'.retained.length = f.retained.length := by
  rcases h with ⟨-, hlen, -⟩ | ⟨hsame, -⟩
  · exact hlen
  · rw [hsame]

theorem MovedOrWaits.kept {f : FlowTx} {port key : Nat} {s t : State} (h : MovedOrWaits f (flowTx s key) port) (hk : FlowKept key s t) :
    MovedOrWaits f (flowTx t key) port := by
  obtain ⟨queue, hk⟩ := hk
  rw [hk]
  exact h

section
variable {s : State} {die port key : Nat} (hdown : portStateOf s die port = portDown)
include hdown

/-- A port that takes packets is not the one that is down. -/
theorem port_ne_of_choose {t : State} (he : Effect moveFlow_parts s t) {c : Candidate} {dst vc : Nat}
    (h : chooseCandidate t die dst vc = some c) : c.port ≠ port := by
  intro heq
  have hup := portUp_of_choose h
  rw [heq, portUp, he.portStateOf_same (by decide), hdown] at hup
  simp [portDown, portIsUp] at hup

/-- While the flows of a downed port move one after another, a flow with a candidate moves or waits. -/
theorem moveFlows_movesOrWaits (hsome : (chooseCandidate s die (keyEp key) (keyVc key)).isSome = true) :
    ∀ (l : List Nat) (t : State), Effect moveFlow_parts s t → MovedOrWaits (flowTx s key) (flowTx t key) port →
      MovedOrWaits (flowTx s key) (flowTx (l.foldl (moveFlow die) t) key) port := by
  intro l
  induction l with
  | nil => exact fun t _ h => h
  | cons x l ih =>
    intro t he h
    refine ih _ ((moveFlow_effect ..).step he (by decide)) ?_
    by_cases hx : key = x
    · subst hx
      rw [← choose_isSome_same he (by decide)] at hsome
      obtain ⟨c, hc⟩ := Option.isSome_iff_exists.mp hsome
      rw [moveFlow_of_choose hc]
      split
      · exact h
      · rw [flowTx_setFlowTx_same]
        exact .inl (moved_movedFlow h.length (port_ne_of_choose hdown he hc))
    · exact h.kept (moveFlow_other hx)

end

theorem flowsOn_of_flowsTx {s t : State} (h : t.flowsTx = s.flowsTx) (die p : Nat) : flowsOn t die p = flowsOn s die p := by
  rw [flowsOn, h, flowsOn]

/-- The state once the flows of a port have each been tried, and the port as it is left. -/
def flowsMoved (s : State) (die p : Nat) : State := settleOutstanding ((flowsOn s die p).foldl (moveFlow die) s) die
def reinjected (s : State) (die p : Nat) : State :=
  let u := flowsMoved s die p
  setPort u die p { portOf u die p with reinject := flowsOn u die p ≠ [], failing := false }

theorem exec_detourReinject {die : Die} {port : Fin 16} {s : State} (h : (portOf s die port).reinject = true) :
    exec (.detourReinject die port) s = .next (reinjected s die port) :=
  if_neg (by simp [h])

theorem flowTx_reinjected (s : State) (die p key : Nat) :
    flowTx (reinjected s die p) key = flowTx ((flowsOn s die p).foldl (moveFlow die) s) key :=
  ((setPort_effect (flowsMoved s die p) die p _).flowTx_same (by decide) key).trans
    ((settleOutstanding_effect _ die).flowTx_same (by decide) key)

/-- DETOUR_REINJECT of a downed port: each flow moves, waits for room, or is lost (R549, R551). -/
theorem detourReinject_moves {die : Die} {port : Fin 16} {s : State} (hreinject : (portOf s die port).reinject = true)
    (hdown : portStateOf s die port = portDown) :
    Gives (exec (.detourReinject die port) s) fun t =>
      ((portOf t die port).reinject = true ↔ flowsOn t die port ≠ []) ∧ (portOf t die port).failing = false ∧
      ∀ key, ((chooseCandidate s die (keyEp key) (keyVc key)).isSome = true → MovedOrWaits (flowTx s key) (flowTx t key) port) ∧
        (∀ c', flowsOn s die port = [key] → chooseCandidate s die (keyEp key) (keyVc key) = some c' →
          retainRoom s die c'.port (keyVc key) ((flowTx s key).retained.map (fun e => e.1)) = true →
          Moved (flowTx s key) (flowTx t key) port ∧ (flowTx t key).cand = some c') := by
  refine ⟨_, exec_detourReinject hreinject, ?_, ?_, fun key => ⟨fun hsome => ?_, fun c' honly hc hroom => ?_⟩⟩
  · rw [flowsOn_of_flowsTx (s := flowsMoved s die port) (t := reinjected s die port) rfl, reinjected, portOf_setPort_same]
    exact decide_eq_true_iff
  · rw [reinjected, portOf_setPort_same]
  · rw [flowTx_reinjected]
    exact moveFlows_movesOrWaits hdown hsome _ s (.refl ..) (.inr ⟨rfl, rfl⟩)
  · rw [flowTx_reinjected, honly, List.foldl_cons, List.foldl_nil, moveFlow_of_choose hc, if_neg (by simpa using hroom),
      flowTx_setFlowTx_same]
    exact ⟨moved_movedFlow rfl (port_ne_of_choose hdown (.refl ..) hc), rfl⟩

/-! ### The obligation -/

/-- Settles O46: a port's failure, its retraining, its flows' moves, and the new settings of lanes and of the bridge's lane groups. -/
theorem portsFailRetrainAndRecalibrate : Obligations.PortsFailRetrainAndRecalibrate := by
  refine ⟨?_, ?_, ?_, ?_, ?_⟩
  · intro die port cause s v hup hfresh hcause
    exact portFail_responds (portFails_of_cause hup hfresh hcause)
  · intro die port good s v lanes n htrains hfails
    by_cases h0 : n = 0
    · exact (retrain_down htrains hfails h0).mono fun t ⟨hstate, hreinject⟩ =>
        ⟨fun h => absurd h0 h, fun _ => ⟨hstate, hreinject⟩⟩
    · refine (retrain_up htrains hfails rfl h0).mono fun t ⟨hstate, hwidth, hport⟩ =>
        ⟨fun _ => ⟨hstate, hwidth, ?_⟩, fun h => absurd h h0⟩
      rw [hport]
      exact ⟨rfl, rfl, rfl, rfl⟩
  · intro die port s hreinject hdown
    refine (detourReinject_moves hreinject hdown).mono fun t ⟨howed, hfailing, hflows⟩ => ⟨howed, hfailing, ?_⟩
    intro key c hdie hcand hport hheld f f' moved
    exact hflows key
  · intro die port lane idle s hawake huse
    refine ⟨⟨_, laneRecalibrate_takes hawake huse idle, ?_⟩, ⟨_, laneRecalibrate_keeps hawake huse idle, ?_⟩⟩
    · beta_reduce
      rw [portOf_setPort_same]
      exact ⟨Map.find_put_same .., rfl, rfl,
        ((setPort_effect ..).step ((fresh_effect s).one (by decide)) (by decide) : Effect [.ports, .freeCtr] s _).frame⟩
    · beta_reduce
      rw [portOf_setPort_same]
      exact ⟨rfl, rfl, (setPort_effect ..).frame⟩
  · intro g s hserves
    exact bridge_serves hserves

end Sys2Proof.Machine
end

section
/-! PROOF. Packets as bytes and codewords (R510, R512, R516): a header's fields are read back, a packet's bytes are taken as it alone, and
the symbols of a pair of codewords. -/

namespace Sys2Proof.Machine

/-! ### The header (R516) -/

theorem bits_eq_div (w hi lo : Nat) : bits w hi lo = w / 2 ^ lo % 2 ^ (hi - lo + 1) := by rw [bits, Nat.shiftRight_eq_div_pow]

theorem bitOf_of_bits {w i : Nat} {b : Bool} (h : bits w i i = flagBit b) : bitOf w i = b := by
  rw [bits_eq_div, Nat.sub_self] at h
  rw [bitOf, Nat.testBit_eq_decide_div_mod_eq, show w / 2 ^ i % 2 = flagBit b from h]
  cases b <;> rfl

theorem flagBit_lt (b : Bool) : flagBit b < 2 := by cases b <;> decide

/-- The places of the header's fields. -/
def headerRows : List FieldRow := [(255, 252), (251, 249), (248, 245), (244, 228), (227, 211), (210, 203), (202, 187), (186, 174), (173, 172),
  (171, 164), (163, 156), (155, 148), (147, 147), (146, 146), (145, 128), (127, 64), (63, 0)].map fun x => ⟨x.1, x.2, .ro, 0, .m⟩

/-- What a packet puts at a place of its header, cut to the place. -/
def headerAt (p : Packet) (f : FieldRow) : Nat :=
  (match f.lo with
    | 252 => p.kind | 249 => p.vc | 245 => p.epoch | 228 => p.dst | 211 => p.src | 203 => p.flow | 187 => p.fseq | 174 => p.payload.length
    | 172 => p.hops | 164 => p.sel0 | 156 => p.sel1 | 148 => p.sel2 | 147 => flagBit p.mark | 146 => flagBit p.detour | 128 => p.aux
    | 64 => p.stamp | _ => p.word) % 2 ^ (f.hi - f.lo + 1)

theorem packetHeader_eq (p : Packet) : packetHeader p = packFields (headerAt p) headerRows 0 := by
  have hmark := Nat.mod_eq_of_lt (flagBit_lt p.mark)
  have hdetour := Nat.mod_eq_of_lt (flagBit_lt p.detour)
  simp only [packFields, headerRows, List.map, List.foldl, headerAt, Nat.zero_add, Nat.reduceSub, Nat.reduceAdd, Nat.pow_one, hmark, hdetour, Nat.pow_zero,
    Nat.mul_one]
  rfl

theorem headerRows_apart : FieldsApart headerRows := ⟨by decide, by decide⟩

theorem packetHeader_field (p : Packet) {f : FieldRow} (hf : f ∈ headerRows) : bits (packetHeader p) f.hi f.lo = headerAt p f := by
  rw [packetHeader_eq]
  exact bits_packFields_mem (fun f => Nat.mod_lt _ (Nat.two_pow_pos _)) headerRows_apart hf 0 fun g _ => bits_zero ..

/-- The fields of a packet that fit the header are read back from it. -/
theorem packetHeader_reads {p : Packet} (h : p.wellFormed = true) :
    packetOf (packetHeader p) p.payload = p ∧ headerLength (packetHeader p) = p.payload.length := by
  simp only [Packet.wellFormed, Bool.and_eq_true, decide_eq_true_eq, and_assoc] at h
  obtain ⟨hkind, hvc, hepoch, hdst, hsrc, hflow, hfseq, hhops, hsel0, hsel1, hsel2, haux, hstamp, hword, hlen⟩ := h
  have hread : ∀ hi lo v, (⟨hi, lo, .ro, 0, .m⟩ : FieldRow) ∈ headerRows → headerAt p ⟨hi, lo, .ro, 0, .m⟩ = v % 2 ^ (hi - lo + 1) →
      v < 2 ^ (hi - lo + 1) → bits (packetHeader p) hi lo = v := fun hi lo v hmem hv hlt =>
    (packetHeader_field p hmem).trans (hv.trans (Nat.mod_eq_of_lt hlt))
  refine ⟨?_, hread 186 174 _ (by decide) rfl (by omega)⟩
  unfold packetOf
  rw [hread 255 252 p.kind (by decide) rfl hkind, hread 251 249 p.vc (by decide) rfl hvc, hread 248 245 p.epoch (by decide) rfl hepoch,
    hread 244 228 p.dst (by decide) rfl hdst, hread 227 211 p.src (by decide) rfl hsrc, hread 210 203 p.flow (by decide) rfl hflow,
    hread 202 187 p.fseq (by decide) rfl hfseq, hread 173 172 p.hops (by decide) rfl hhops, hread 171 164 p.sel0 (by decide) rfl hsel0,
    hread 163 156 p.sel1 (by decide) rfl hsel1, hread 155 148 p.sel2 (by decide) rfl hsel2,
    bitOf_of_bits (hread 147 147 _ (by decide) rfl (flagBit_lt p.mark)), bitOf_of_bits (hread 146 146 _ (by decide) rfl (flagBit_lt p.detour)),
    hread 145 128 p.aux (by decide) rfl haux, hread 127 64 p.stamp (by decide) rfl hstamp, hread 63 0 p.word (by decide) rfl hword]

theorem packetHeader_lt (p : Packet) : packetHeader p < 256 ^ 32 := by
  have hmark := flagBit_lt p.mark
  have hdetour := flagBit_lt p.detour
  unfold packetHeader
  omega

/-! ### A packet's bytes taken from its flits (R512, R516) -/

theorem leAt_packetData (p : Packet) : leAt (packetData p) 0 32 = packetHeader p := by
  rw [leAt, packetData, List.drop_zero, List.take_append_of_le_length (length_leBytes ..).ge,
    List.take_of_length_le (length_leBytes ..).le, leNat_leBytes, Nat.mod_eq_of_lt (packetHeader_lt p)]

theorem length_packetData (p : Packet) : (packetData p).length = 32 + p.payload.length := by
  rw [packetData, List.length_append, length_leBytes]

theorem drop_packetData (p : Packet) : (packetData p).drop 32 = p.payload := by
  rw [packetData, List.drop_left' (length_leBytes ..)]

theorem takePackets_nil (fuel : Nat) : takePackets fuel [] = ([], []) := by
  cases fuel with
  | zero => rfl
  | succ n => exact if_pos (by decide)

/-- Bytes that are one whole packet are taken as it. -/
theorem takePackets_whole {b : Bytes} {h : Nat} (fuel : Nat) (hread : leAt b 0 32 = h) (h0 : h ≠ 0) (hlen : b.length = 32 + headerLength h) :
    takePackets (fuel + 1) b = ([packetOf h (b.drop 32)], []) := by
  subst hread
  rw [takePackets, if_neg (by omega)]
  extract_lets h
  have hh : b.length = 32 + headerLength h := hlen
  rw [if_neg h0, if_neg (by omega), List.drop_eq_nil_of_le hh.le, takePackets_nil,
    List.take_of_length_le (by rw [List.length_drop]; omega)]

/-- The bytes of a packet that is no fill are taken as the packet, and nothing more. -/
theorem addContent_packetData {p : Packet} (h : p.wellFormed = true) (hkind : p.kind ≠ 0) : addContent [] (packetData p) = ([p], []) := by
  obtain ⟨hback, hlength⟩ := packetHeader_reads h
  have hne : packetHeader p ≠ 0 := fun h0 => hkind (by
    rw [h0] at hback
    rw [← hback]
    exact bits_zero ..)
  unfold addContent
  rw [List.nil_append, takePackets_whole _ (leAt_packetData p) hne (by rw [length_packetData, hlength]), drop_packetData, hback]

/-! ### Codewords (R510) -/

theorem double_xor_lt {r : Nat} (h : r < 1024) : (if 1024 ≤ 2 * r then 2 * r ^^^ 0x409 else 2 * r) < 1024 := by
  have hall : ∀ r < 1024, (if 1024 ≤ 2 * r then 2 * r ^^^ 0x409 else 2 * r) < 1024 := by decide +kernel
  exact hall r h

/-- A product of symbols is a symbol. -/
theorem gfMul_lt (a : Nat) {b : Nat} (hb : b < 1024) : gfMul a b < 1024 := by
  unfold gfMul
  refine List.foldlRecOn (motive := (· < 1024)) _ _ (by decide) fun r hr i _ => ?_
  dsimp only
  split
  · exact Nat.xor_lt_two_pow (n := 10) (double_xor_lt hr) hb
  · exact double_xor_lt hr

/-- The generator polynomial has 30 symbols below its leading one. -/
theorem rsGenerator_symbols : rsGenerator.length = 30 ∧ ∀ x ∈ rsGenerator, x < 1024 := by decide +kernel

/-- 30 symbols of 10 bits. -/
def Parity (l : List Nat) : Prop := l.length = 30 ∧ ∀ x ∈ l, x < 1024

theorem rsParity_parity (message : List Nat) : Parity (rsParity message) := by
  refine List.foldlRecOn (motive := Parity) message _ ⟨List.length_replicate .., by simp⟩ fun r hr d _ => ?_
  obtain ⟨hlen, hlt⟩ := hr
  obtain ⟨hgen, hgenlt⟩ := rsGenerator_symbols
  refine ⟨by simp [hlen, hgen], fun y hy => ?_⟩
  obtain ⟨⟨x, g⟩, hxg, rfl⟩ := List.mem_map.mp hy
  have hx : x < 1024 := by
    rcases List.mem_append.mp (List.of_mem_zip hxg).1 with hx | hx
    · exact hlt x (List.mem_of_mem_tail hx)
    · rw [List.mem_singleton.mp hx]; decide
  exact Nat.xor_lt_two_pow (n := 10) hx (gfMul_lt _ (hgenlt g (List.of_mem_zip hxg).2))

theorem everySecond_mem {l : List Nat} {k x : Nat} (h : x ∈ everySecond l k) : x ∈ l := by
  obtain ⟨e, he, rfl⟩ := List.mem_map.mp h
  exact List.fst_mem_of_mem_zipIdx (List.mem_filter.mp he).1

theorem length_everySecond {l : List Nat} {k : Nat} (hlen : l.length = 1028) (hk : k < 2) : (everySecond l k).length = 514 := by
  have hodd : ∀ k < 2, ((List.range' 0 1028).filter fun i => decide (i % 2 = k)).length = 514 := by decide +kernel
  have hfilter := congrArg List.length (List.filter_map (f := Prod.snd) (p := fun i => decide (i % 2 = k)) (l := l.zipIdx))
  rw [List.zipIdx_map_snd, hlen, hodd k hk, List.length_map] at hfilter
  rw [everySecond, List.length_map]
  exact hfilter.symm

theorem pairSymbols_lt (header : Nat) (flits : List Bytes) : ∀ x ∈ pairSymbols header flits, x < 1024 := by
  intro x hx
  obtain ⟨i, -, rfl⟩ := List.mem_map.mp hx
  exact (bits_lt ..).trans_le (by rw [Nat.add_sub_cancel_left]; decide)

/-- A pair of codewords is two times 544 symbols of 10 bits. -/
theorem codewordPair_symbols (header : Nat) (flits : List Bytes) :
    (codewordPair header flits).length = 2 * 544 ∧ ∀ x ∈ codewordPair header flits, x < 2 ^ 10 := by
  have hsym := pairSymbols_lt header flits
  have hword : ∀ k < 2, (everySecond (pairSymbols header flits) k ++ rsParity (everySecond (pairSymbols header flits) k)).length = 544 ∧
      ∀ x ∈ everySecond (pairSymbols header flits) k ++ rsParity (everySecond (pairSymbols header flits) k), x < 1024 := fun k hk => by
    obtain ⟨hlen, hlt⟩ := rsParity_parity (everySecond (pairSymbols header flits) k)
    refine ⟨?_, fun x hx => ?_⟩
    · rw [List.length_append, length_everySecond (by simp [pairSymbols]) hk, hlen]
    · exact (List.mem_append.mp hx).elim (fun hx => hsym x (everySecond_mem hx)) (hlt x)
  obtain ⟨hlen0, hlt0⟩ := hword 0 (by decide)
  obtain ⟨hlen1, hlt1⟩ := hword 1 (by decide)
  unfold codewordPair
  refine ⟨?_, fun x hx => ?_⟩
  · rw [List.length_flatMap, show (fun x : Nat × Nat => List.length (match x with | (a, b) => [a, b])) = fun _ => 2 from rfl,
      List.map_const', List.sum_replicate, List.length_zip, hlen0, hlen1]
    rfl
  · obtain ⟨⟨a, b⟩, hab, hx⟩ := List.mem_flatMap.mp hx
    rcases List.mem_pair.mp hx with rfl | rfl
    · exact hlt0 _ (List.of_mem_zip hab).1
    · exact hlt1 _ (List.of_mem_zip hab).2

end Sys2Proof.Machine
end

section
/-! PROOF. The link layer of a port (R510 to R516, R547, R653, R735): flits received and sent, credits, the stratum, and lanes. -/

namespace Sys2Proof.Machine

/-! ### A flit received (R512 to R514) -/

/-- A good flit is taken: it is no idle one, and its number is the next. -/
def takesFlit (v : PortState) (f : Flit) : Bool := flitKind f ≠ flitIdle && flitSeq f = (v.rxSeq + 1) % 4096

/-- A port as a good flit leaves it, but for the packets that its content completes. -/
def flitAcked (v : PortState) (f : Flit) : PortState :=
  let buf := ackFlits v.replayBuf (flitAck f)
  let u := { v with replayBuf := buf, toWire := v.toWire.filter fun q => buf.any fun e => e.seq = q }
  if takesFlit v f then { u with rxSeq := (v.rxSeq + 1) % 4096, nakOwed := false, ackOwed := true } else u

/-- The state once a good flit has acknowledged and, where it is the next, has been taken. -/
def flitTaken (s : State) (die p : Nat) (f : Flit) : State :=
  let u := setPort s die p (flitAcked (portOf s die p) f)
  if takesFlit (portOf s die p) f && flitKind f = flitPacket then takeContent u die p (flitContent f) else u

section
variable {die : Die} {port : Fin 16} {f : Flit} {s : State} (hup : portStateOf s die port = portIsUp)
include hup

theorem exec_flitReceive_bad (hgood : flitGood f = false) :
    exec (.flitReceive die port f) s = .next (setPort s die port { portOf s die port with nakOwed := true }) := by
  show execFlitReceive die port f s = _
  unfold execFlitReceive
  rw [if_neg (by simp [hup])]
  exact if_pos (by simp [hgood])

theorem exec_flitReceive (hgood : flitGood f = true) : exec (.flitReceive die port f) s =
    .next (if flitNak f then nakFlits (flitTaken s die port f) die port (chargedLane (portOf s die port).inUse f.corrected)
      else flitTaken s die port f) := by
  show execFlitReceive die port f s = _
  unfold execFlitReceive
  rw [if_neg (by simp [hup])]
  dsimp only
  rw [if_neg (by simp [hgood])]
  unfold flitTaken flitAcked takesFlit
  dsimp only
  split_ifs <;> rfl

end

theorem portOf_takeContent (s : State) (die p : Nat) (content : Bytes) :
    portOf (takeContent s die p content) die p =
      { portOf s die p with
        rxBytes := (addContent (portOf s die p).rxBytes content).2
        rxPkts := (portOf s die p).rxPkts ++
          (addContent (portOf s die p).rxBytes content).1.filter fun x => decide (x.payload.length ≤ 4096) } := by
  have hdrops : ∀ (l : List Packet) (t : State), portOf (l.foldl (fun s _ => dropMisroute s die) t) die p = portOf t die p := fun l t =>
    (Effect.foldl _ (fun s _ => dropMisroute_effect s die) l t).portOf_same (by decide) die p
  unfold takeContent
  dsimp only
  rw [hdrops, portOf_setPort_same]

/-- What a good flit leaves of the replay buffer and of what is owed, whether or not it carries packets. -/
theorem portOf_flitTaken (s : State) (die p : Nat) (f : Flit) : ∃ rxBytes rxPkts,
    portOf (flitTaken s die p f) die p = { flitAcked (portOf s die p) f with rxBytes, rxPkts } := by
  unfold flitTaken
  dsimp only
  split
  · exact ⟨_, _, (portOf_takeContent ..).trans (by rw [portOf_setPort_same])⟩
  · exact ⟨_, _, portOf_setPort_same ..⟩

theorem flitAcked_of_taken {v : PortState} {f : Flit} (h : takesFlit v f = true) : flitAcked v f =
    { v with
      replayBuf := ackFlits v.replayBuf (flitAck f)
      toWire := v.toWire.filter fun q => (ackFlits v.replayBuf (flitAck f)).any fun e => e.seq = q
      rxSeq := (v.rxSeq + 1) % 4096, nakOwed := false, ackOwed := true } := if_pos h

theorem flitAcked_of_not_taken {v : PortState} {f : Flit} (h : takesFlit v f = false) : flitAcked v f =
    { v with
      replayBuf := ackFlits v.replayBuf (flitAck f)
      toWire := v.toWire.filter fun q => (ackFlits v.replayBuf (flitAck f)).any fun e => e.seq = q } := if_neg (by simpa using h)

theorem flitAcked_buffers (v : PortState) (f : Flit) : (flitAcked v f).replayBuf = ackFlits v.replayBuf (flitAck f) ∧
    (flitAcked v f).toWire = v.toWire.filter fun q => (ackFlits v.replayBuf (flitAck f)).any fun e => e.seq = q := by
  cases h : takesFlit v f with
  | true => rw [flitAcked_of_taken h]; exact ⟨rfl, rfl⟩
  | false => rw [flitAcked_of_not_taken h]; exact ⟨rfl, rfl⟩

/-- A good flit that asks for no resend (R512, R513). -/
theorem flitReceive_takes {die : Die} {port : Fin 16} {f : Flit} {s : State} (hup : portStateOf s die port = portIsUp)
    (hgood : flitGood f = true) (hnak : flitNak f = false) :
    let v := portOf s die port
    let next := (v.rxSeq + 1) % 4096
    let taken := flitKind f ≠ flitIdle ∧ flitSeq f = next
    let got := addContent v.rxBytes (flitContent f)
    Gives (exec (.flitReceive die port f) s) fun t =>
      let w := portOf t die port
      w.replayBuf = ackFlits v.replayBuf (flitAck f) ∧ w.rxSeq = (if taken then next else v.rxSeq) ∧
      (taken → w.nakOwed = false ∧ w.ackOwed = true) ∧
      (taken → flitKind f = flitPacket → w.rxBytes = got.2 ∧
        w.rxPkts = v.rxPkts ++ got.1.filter fun x => decide (x.payload.length ≤ 4096)) ∧
      (¬(taken ∧ flitKind f = flitPacket) → w.rxBytes = v.rxBytes ∧ w.rxPkts = v.rxPkts ∧ Frame [.ports] s t) := by
  intro v next taken got
  have htaken : takesFlit v f = true ↔ taken := by simp [takesFlit, taken, next]
  have hexec := exec_flitReceive hup hgood
  rw [if_neg (by simp [hnak])] at hexec
  obtain ⟨rxBytes, rxPkts, hport⟩ := portOf_flitTaken s die port f
  obtain ⟨hbuf, -⟩ := flitAcked_buffers v f
  refine ⟨_, hexec, ?_, ?_, fun ht => ?_, fun ht hkind => ?_, fun hother => ?_⟩
  · rw [hport]; exact hbuf
  · rw [hport]
    by_cases ht : taken
    · rw [if_pos ht]
      exact congrArg PortState.rxSeq (flitAcked_of_taken (htaken.mpr ht))
    · rw [if_neg ht]
      show (flitAcked v f).rxSeq = v.rxSeq
      rw [flitAcked_of_not_taken (Bool.eq_false_iff.mpr (mt htaken.mp ht))]
  · rw [hport, flitAcked_of_taken (htaken.mpr ht)]
    exact ⟨rfl, rfl⟩
  · rw [show flitTaken s die port f = takeContent (setPort s die port (flitAcked v f)) die port (flitContent f) from
      if_pos (by simp [htaken.mpr ht, hkind, v]), portOf_takeContent, portOf_setPort_same, flitAcked_of_taken (htaken.mpr ht)]
    exact ⟨rfl, rfl⟩
  · have hset : flitTaken s die port f = setPort s die port (flitAcked v f) := if_neg (by
      rw [Bool.and_eq_true, decide_eq_true_eq]
      exact fun h => hother ⟨htaken.mp h.1, h.2⟩)
    rw [hset, portOf_setPort_same]
    refine ⟨?_, ?_, (setPort_effect ..).frame⟩
    · cases ht : takesFlit v f with
      | true => rw [flitAcked_of_taken ht]
      | false => rw [flitAcked_of_not_taken ht]
    · cases ht : takesFlit v f with
      | true => rw [flitAcked_of_taken ht]
      | false => rw [flitAcked_of_not_taken ht]

/-! ### A nak (R513, R514, R733, R735) -/

theorem flitTaken_buffers (s : State) (die p : Nat) (f : Flit) :
    (portOf (flitTaken s die p f) die p).replayBuf = ackFlits (portOf s die p).replayBuf (flitAck f) ∧
      (portOf (flitTaken s die p f) die p).toWire =
        (portOf s die p).toWire.filter fun q => (ackFlits (portOf s die p).replayBuf (flitAck f)).any fun e => e.seq = q := by
  obtain ⟨rxBytes, rxPkts, hport⟩ := portOf_flitTaken s die p f
  rw [hport]
  exact flitAcked_buffers ..

/-- A flit of the replay buffer has gone out and does not wait, also when those that the buffer no longer holds wait no more. -/
theorem gone_filtered {v w : PortState} {buf : List TxFlit} (hw : w.toWire = v.toWire.filter fun q => buf.any fun e => e.seq = q)
    {x : TxFlit} (hx : x ∈ buf) : w.gone x = true ↔ 1 ≤ x.attempts ∧ x.seq ∉ v.toWire := by
  have hmem : x.seq ∈ w.toWire ↔ x.seq ∈ v.toWire := by
    rw [hw, List.mem_filter]
    exact and_iff_left (List.any_eq_true.mpr ⟨x, hx, by simp⟩)
  simp [PortState.gone, hmem]

/-- The oldest flit of a port exhausts its budget: its lane is charged and a source of group 4 pends. -/
theorem nakFlits_exhausts {s : State} {die : Nat} {port : Fin 16} {lane : Nat} {e : TxFlit} {rest : List TxFlit}
    (hbuf : (portOf s die port).replayBuf = e :: rest) (hgone : (portOf s die port).gone e = true) (hbudget : e.exhausted = false)
    (hlast : 3 ≤ e.attempts) :
    (portOf (nakFlits s die port lane) die port).replayBuf = { e with exhausted := true } :: rest ∧
      Pends (nakFlits s die port lane) die 4 (16 + port) := by
  have hsource : bitOf (icuValid die 4) (16 + port) = true := (by decide : ∀ p : Fin 16, bitOf 0xFFFF_FFFF (16 + p.val) = true) port
  unfold nakFlits
  simp only [hbuf, hgone, hbudget, Bool.not_true, Bool.or_false, Bool.false_eq_true, if_false, if_pos hlast]
  refine ⟨?_, irq_pends _ hsource (by omega)⟩
  rw [(irq_effect ..).portOf_same (by decide), (exhaust_effect ..).portOf_same (by decide), portOf_setPort_same]

/-- The flits behind the last good one are to go out again. -/
theorem nakFlits_resends {s : State} {die p lane : Nat} {e : TxFlit} {rest : List TxFlit}
    (hbuf : (portOf s die p).replayBuf = e :: rest) (hgone : (portOf s die p).gone e = true) (hbudget : e.exhausted = false)
    (hmore : e.attempts < 3) : portOf (nakFlits s die p lane) die p = resendFrom (portOf s die p) lane := by
  unfold nakFlits
  simp only [hbuf, hgone, hbudget, Bool.not_true, Bool.or_false, Bool.false_eq_true, if_false, if_neg hmore.not_ge, portOf_setPort_same]

/-- A good flit with nak set, where the oldest flit left has gone out (R513, R514, R733). -/
theorem flitReceive_naks {die : Die} {port : Fin 16} {f : Flit} {s : State} (hup : portStateOf s die port = portIsUp)
    (hgood : flitGood f = true) (hnak : flitNak f = true) {e : TxFlit} {rest : List TxFlit}
    (hleft : ackFlits (portOf s die port).replayBuf (flitAck f) = e :: rest) (hsent : 1 ≤ e.attempts)
    (hgone : e.seq ∉ (portOf s die port).toWire) (hbudget : e.exhausted = false) :
    let v := portOf s die port
    (e.attempts < 3 → Gives (exec (.flitReceive die port f) s) fun t =>
      (portOf t die port).replayBuf = (e :: rest).map (fun x =>
        if 1 ≤ x.attempts ∧ x.seq ∉ v.toWire then { x with lane := chargedLane v.inUse f.corrected } else x) ∧
      (portOf t die port).toWire = (e :: rest).map (fun x => x.seq)) ∧
    (3 ≤ e.attempts → Gives (exec (.flitReceive die port f) s) fun t =>
      (portOf t die port).replayBuf = { e with exhausted := true } :: rest ∧ Pends t die 4 (16 + port)) := by
  intro v
  have hexec := exec_flitReceive hup hgood
  rw [if_pos hnak] at hexec
  obtain ⟨hbuf, hwire⟩ := flitTaken_buffers s die port f
  rw [hleft] at hbuf hwire
  have hout := (gone_filtered (v := v) hwire (List.mem_cons_self ..)).mpr ⟨hsent, hgone⟩
  refine ⟨fun hmore => ⟨_, hexec, ?_⟩, fun hlast => ⟨_, hexec, nakFlits_exhausts hbuf hout hbudget hlast⟩⟩
  beta_reduce
  rw [nakFlits_resends hbuf hout hbudget hmore, resendFrom, hbuf]
  refine ⟨List.map_congr_left fun x hx => ?_, rfl⟩
  simp only [gone_filtered (v := v) hwire hx]
  rfl

/-! ### A pair sent (R513 to R515, R735) -/

theorem replayRoom_iff (v : PortState) (n : Nat) : replayRoom v n = true ↔ v.replayBuf.length + n ≤ 512 := decide_eq_true_iff

theorem length_addFlit (kind : Nat) (v : PortState) (content : Bytes) :
    (addFlit kind v content).replayBuf.length = v.replayBuf.length + 1 := List.length_append ..

theorem closeContent_room {v : PortState} (h : v.replayBuf.length ≤ 512) : (closeContent v).replayBuf.length ≤ 512 := by
  unfold closeContent
  extract_lets n w
  have hn : n = 1 ∨ n = 2 := by unfold n; split <;> simp
  split
  · exact h
  next hfull =>
    simp only [Bool.or_eq_true, Bool.not_eq_true', not_or, Bool.not_eq_false, replayRoom_iff] at hfull
    obtain ⟨-, hroom⟩ := hfull
    have hw : w.replayBuf.length = v.replayBuf.length + 1 := length_addFlit ..
    split
    · omega
    · rw [length_addFlit]
      omega

theorem closeCredits_room {v : PortState} (h : v.replayBuf.length ≤ 512) : (closeCredits v).replayBuf.length ≤ 512 := by
  unfold closeCredits
  split
  · exact h
  next hfull =>
    simp only [Bool.or_eq_true, Bool.not_eq_true', not_or, Bool.not_eq_false, replayRoom_iff] at hfull
    exact (length_addFlit ..).trans_le hfull.2

theorem length_pairSent (v : PortState) : (pairSent v).replayBuf.length = v.replayBuf.length := List.length_map ..

/-- A flit that goes out again counts one resend. -/
theorem counts_resendFlit (die p : Nat) (s : State) (e : TxFlit) :
    Counts s (resendFlit die p s e) F.fabLinkReplayCount_count die 0 1 :=
  (transient_effect ..).of_counts (by decide) (counts_bump s (by decide) ..)

theorem counts_resendFlits (die p : Nat) : ∀ (l : List TxFlit) (s : State),
    Counts s (l.foldl (resendFlit die p) s) F.fabLinkReplayCount_count die 0 l.length := by
  intro l
  induction l with
  | nil => exact fun s => counts_zero ..
  | cons e l ih =>
    intro s
    rw [List.length_cons, Nat.add_comm]
    exact (counts_resendFlit die p s e).add (ih _)

/-- The lanes with a pair on them, before the flits that go out again are counted. -/
theorem sendPair_busy {s : State} {die p : Nat} (hup : portUp s die p = true) (hbusy : linkBusy (portOf s die p) = true) :
    let v := closeFlits (portOf s die p)
    ∃ u, Effect [.answers, .freeCtr, .sid] (setPort s die p (pairSent v)) u ∧
      sendPair s die p = ((pairFlits v).filter fun e => decide (1 ≤ e.attempts)).foldl (resendFlit die p) u := by
  intro v
  have hsend : ∃ a, sendPair s die p = ((pairFlits v).filter fun e => decide (1 ≤ e.attempts)).foldl (resendFlit die p)
      (requestLeaves { (fresh (setPort s die p (pairSent v))).2 with answers := a } die p (pairFlits v)) := by
    unfold sendPair
    rw [if_neg (by simp [hup]), if_neg (by simp [hbusy])]
    exact ⟨_, rfl⟩
  obtain ⟨a, hsend⟩ := hsend
  exact ⟨_, (requestLeaves_effect ..).step ((setAnswers_effect ..).step ((fresh_effect ..).one (by decide)) (by decide)) (by decide), hsend⟩

/-- A pair counts the flits in it that had gone out before, and the replay buffer stays within 512 flits. -/
theorem sendPair_counts {s : State} {die p : Nat} (hup : portUp s die p = true) (hbusy : linkBusy (portOf s die p) = true) :
    Counts s (sendPair s die p) F.fabLinkReplayCount_count die 0
      ((pairFlits (closeFlits (portOf s die p))).filter fun e => decide (1 ≤ e.attempts)).length ∧
    ((portOf s die p).replayBuf.length ≤ 512 → (portOf (sendPair s die p) die p).replayBuf.length ≤ 512) := by
  obtain ⟨u, hu, hsend⟩ := sendPair_busy hup hbusy
  rw [hsend]
  refine ⟨(setPort_effect ..).counts_of (by decide) (hu.counts_of (by decide) (counts_resendFlits ..)), fun hroom => ?_⟩
  rw [(Effect.foldl _ (resendFlit_effect die p) _ u).portOf_same (by decide), hu.portOf_same (by decide), portOf_setPort_same,
    length_pairSent]
  exact closeCredits_room (closeContent_room hroom)

/-! ### Credits (R512, R515) -/

/-- Credits returned channel by channel: each channel's number is added to what it had before. -/
theorem getD_creditsReturned (base : Map Nat) : ∀ (l : List Nat) (k : Nat) (m : Map Nat),
    let t := (l.zipIdx k).foldl (fun m (n, vc) => if n = 0 then m else Map.put m vc (Map.getD base vc 64 + n)) m
    (∀ vc < k, Map.getD t vc 64 = Map.getD m vc 64) ∧
      ((∀ vc, k ≤ vc → Map.getD m vc 64 = Map.getD base vc 64) →
        ∀ vc, k ≤ vc → Map.getD t vc 64 = Map.getD base vc 64 + l.getD (vc - k) 0) := by
  intro l
  induction l with
  | nil => exact fun k m => ⟨fun vc _ => rfl, fun h vc hvc => by simpa using h vc hvc⟩
  | cons n l ih =>
    intro k m
    simp only [List.zipIdx_cons, List.foldl_cons]
    let m' := if n = 0 then m else Map.put m k (Map.getD base k 64 + n)
    have hother : ∀ vc ≠ k, Map.getD m' vc 64 = Map.getD m vc 64 := fun vc hvc => by
      unfold m'
      split
      · rfl
      · exact Map.getD_put_ne _ hvc ..
    obtain ⟨hbelow, habove⟩ := ih (k + 1) m'
    refine ⟨fun vc hvc => (hbelow vc (by omega)).trans (hother vc (by omega)), fun hm vc hvc => ?_⟩
    rcases Nat.eq_or_lt_of_le hvc with rfl | hlt
    · rw [hbelow k k.lt_succ_self, Nat.sub_self, List.getD_cons_zero]
      unfold m'
      split
      next h0 => rw [h0]; exact hm k le_rfl
      next => exact Map.getD_put_same ..
    · rw [habove (fun x hx => (hother x (by omega)).trans (hm x (by omega))) vc hlt, show vc - k = (vc - (k + 1)) + 1 by omega,
        List.getD_cons_succ]

theorem creditFlit_returns {die : Die} {port : Fin 16} {s : State} (hup : portStateOf s die port = portIsUp) (credits : List Nat) :
    Gives (exec (.creditFlit die port credits) s) fun t =>
      (∀ vc, Map.getD (portOf t die port).credits vc 64 = Map.getD (portOf s die port).credits vc 64 + credits.getD vc 0) ∧
      Frame [.ports] s t := by
  refine ⟨_, if_neg (by simp [hup]), fun vc => ?_, (setPort_effect ..).frame⟩
  rw [portOf_setPort_same]
  exact (getD_creditsReturned _ credits 0 _).2 (fun _ _ => rfl) vc (Nat.zero_le _)

/-! ### The stratum (R653, R654) -/

theorem linkControlFlit_sets {die : Die} {port : Fin 16} {stratum : BitVec 4} {s : State} (hup : portStateOf s die port = portIsUp) :
    Gives (exec (.linkControlFlit die port stratum) s) fun t =>
      (portOf t die port).stratum = stratum.toNat ∧
      ((portOf s die port).replayBuf.length < 512 →
        ∃ e, (portOf t die port).replayBuf = (portOf s die port).replayBuf ++ [e] ∧ e.kind = flitControl) := by
  refine ⟨_, if_neg (by simp [hup]), ?_⟩
  beta_reduce
  rw [(sourceSettle_effect ..).portOf_same (by decide)]
  unfold answerLink
  rw [portOf_setPort_same]
  dsimp only
  split
  next hfull =>
    rw [portOf_setPort_same]
    exact ⟨rfl, fun hroom => absurd hfull (by simpa [replayRoom, replayFlits] using hroom)⟩
  next =>
    rw [portOf_setPort_same]
    exact ⟨rfl, fun _ => ⟨_, rfl, rfl⟩⟩

/-! ### Lanes without lock (R547) -/

theorem laneLockLoss_unlocks {die : Die} {port : Fin 16} {lane : Fin 8} {s : State} (huse : lane.val ∈ (portOf s die port).inUse)
    (hdown : portStateOf s die port ≠ portDown) (hlocked : Map.find (portOf s die port).unlocked lane = none) :
    Gives (exec (.laneLockLoss die port lane) s) fun t =>
      Map.find (portOf t die port).unlocked lane = some (now s die) ∧ Frame [.ports] s t := by
  refine ⟨_, if_pos (by simp [huse, hdown, hlocked]), ?_, (setPort_effect ..).frame⟩
  rw [portOf_setPort_same]
  exact Map.find_put_same ..

theorem laneLockRegain_locks {die : Die} {port : Fin 16} {lane : Fin 8} {s : State} (hlost : lane.val ∉ lostLanes s die port) :
    Gives (exec (.laneLockRegain die port lane) s) fun t =>
      Map.find (portOf t die port).unlocked lane = none ∧ Frame [.ports] s t := by
  refine ⟨_, if_neg (by simpa using hlost), ?_, (setPort_effect ..).frame⟩
  rw [portOf_setPort_same]
  exact Map.find_del_same ..

/-! ### The obligation -/

/-- Settles O43: flits received and sent, credits, the stratum, lanes, and packets and codewords as bytes and symbols. -/
theorem flitsCreditsAndLanesComplete : Obligations.FlitsCreditsAndLanesComplete := by
  refine ⟨?_, ?_, ?_, ?_, ?_, ?_, ?_⟩
  · intro die port f s hup v left next taken got
    refine ⟨fun hgood => ⟨_, exec_flitReceive_bad hup hgood, portOf_setPort_same .., (setPort_effect ..).frame⟩,
      fun hgood hnak => flitReceive_takes hup hgood hnak, fun e rest hgood hnak hleft hsent hgone hbudget => ?_⟩
    rw [hleft]
    exact flitReceive_naks hup hgood hnak hleft hsent hgone hbudget
  · exact fun die port s hup hbusy => sendPair_counts hup hbusy
  · exact fun die port credits s hup => creditFlit_returns hup credits
  · exact fun die port stratum s hup => linkControlFlit_sets hup
  · exact fun die port lane s => ⟨laneLockLoss_unlocks, laneLockRegain_locks⟩
  · exact fun p h => ⟨(packetHeader_reads h).1, addContent_packetData h⟩
  · exact codewordPair_symbols

end Sys2Proof.Machine
end

section
/-! PROOF. Packets sent (R512, R515, R520, R531 to R537, R540, R544): a packet put on a port's lanes, one injected, one sent again, and a
flow that is lost. -/

namespace Sys2Proof.Machine

/-! ### A packet on its port (R512, R513, R544) -/

/-- Contents put into the replay buffer become new flits that wait for the lanes, in order. -/
theorem addFlits_append (kind : Nat) : ∀ (l : List Bytes) (v : PortState), ∃ fl : List TxFlit,
    l.foldl (addFlit kind) v = { v with
      txSeq := (l.foldl (addFlit kind) v).txSeq, replayBuf := v.replayBuf ++ fl, toWire := v.toWire ++ fl.map fun e => e.seq } ∧
    (fl.map fun e => e.content) = l ∧ ∀ e ∈ fl, e.kind = kind := by
  intro l
  induction l with
  | nil => exact fun v => ⟨[], by simp, rfl, by simp⟩
  | cons b l ih =>
    intro v
    obtain ⟨fl, hfold, hcontent, hkind⟩ := ih (addFlit kind v b)
    refine ⟨⟨v.txSeq, kind, b, 0, false, 0⟩ :: fl, ?_, by simp [hcontent], by simpa using hkind⟩
    rw [List.foldl_cons]
    generalize l.foldl (addFlit kind) (addFlit kind v b) = t at hfold ⊢
    rw [hfold]
    simp [addFlit]

/-- Bytes cut into contents of 248 are all there, in order. -/
theorem cutContents_whole : ∀ (fuel : Nat) (b : Bytes), (cutContents fuel b).1.flatMap id ++ (cutContents fuel b).2 = b ∧
    ∀ c ∈ (cutContents fuel b).1, c.length = 248 := by
  intro fuel
  induction fuel with
  | zero => exact fun b => ⟨rfl, by simp [cutContents]⟩
  | succ n ih =>
    intro b
    unfold cutContents
    split
    · exact ⟨rfl, by simp⟩
    next hlong =>
      obtain ⟨hall, hlen⟩ := ih (b.drop 248)
      refine ⟨?_, fun c hc => ?_⟩
      · show (b.take 248 :: (cutContents n (b.drop 248)).1).flatMap id ++ (cutContents n (b.drop 248)).2 = b
        rw [List.flatMap_cons, List.append_assoc, hall]
        exact List.take_append_drop ..
      · rcases List.mem_cons.mp hc with rfl | hc
        · rw [List.length_take]
          omega
        · exact hlen c hc

/-- The bytes of a packet stand behind those before it, in flits of 248 bytes and in what fills none yet. -/
def PacketOut (v w : PortState) (pkt : Packet) : Prop :=
  ∃ l : List TxFlit, w.toWire = v.toWire ++ l.map (fun e => e.seq) ∧ w.replayBuf = v.replayBuf ++ l ∧
    (∀ e ∈ l, e.kind = flitPacket ∧ e.content.length = 248) ∧
    l.flatMap (fun e => e.content) ++ w.txPart = v.txPart ++ packetData pkt

theorem putOnWire_out (s : State) (die p : Nat) (pkt : Packet) :
    PacketOut (portOf s die p) (portOf (putOnWire s die p pkt) die p) pkt ∧
      (putOnWire s die p pkt).answers.wire = some (die * 16 + p, pkt) := by
  refine ⟨?_, rfl⟩
  let v := portOf s die p
  let b := v.txPart ++ packetData pkt
  obtain ⟨hall, hlen⟩ := cutContents_whole (b.length / 248) b
  obtain ⟨fl, hfold, hcontent, hkind⟩ := addFlits_append flitPacket (cutContents (b.length / 248) b).1
    { v with txPart := (cutContents (b.length / 248) b).2
             credits := Map.put v.credits pkt.vc (Map.getD v.credits pkt.vc 64 - packetFlits pkt) }
  have hport : portOf (putOnWire s die p pkt) die p = _ := (portOf_setPort_same s die p _).trans hfold
  rw [hport]
  refine ⟨fl, rfl, rfl, fun e he => ⟨hkind e he, hlen _ ?_⟩, ?_⟩
  · rw [← hcontent]
    exact List.mem_map_of_mem he
  · rw [← hcontent, List.flatMap_map] at hall
    exact hall

/-- A port's sample counts are the only part of it that a header's sample moves. -/
theorem portOf_sampleHeader (s : State) (die p dir : Nat) (pkt : Packet) : ∃ sampleTx sampleRx lastSampleTx lastSampleRx,
    portOf (sampleHeader s die p dir pkt) die p = { portOf s die p with sampleTx, sampleRx, lastSampleTx, lastSampleRx } := by
  unfold sampleHeader
  extract_lets cfg v n last due soon take last' s' body
  have hs' : ∃ sampleTx sampleRx lastSampleTx lastSampleRx,
      portOf s' die p = { portOf s die p with sampleTx, sampleRx, lastSampleTx, lastSampleRx } := by
    unfold s'
    rw [portOf_setPort_same]
    split
    · exact ⟨_, _, _, _, rfl⟩
    · exact ⟨_, _, _, _, rfl⟩
  split
  · exact ⟨_, _, _, _, rfl⟩
  · split
    · rwa [(emitAll_effect ..).portOf_same (by decide)]
    · split
      · rwa [(irq_effect ..).portOf_same (by decide), (bump_effect ..).portOf_same (by decide)]
      · exact hs'

/-! ### A packet injected (R531, R532, R536) -/

/-- A flow once a packet of its queue has been injected on a candidate. -/
def injectedFlow (f : FlowTx) (c : Candidate) (kind : Nat) (x : Packet) (rest : List Packet) : FlowTx :=
  if isRetained kind then { f with queue := rest, next := (f.next + 1) % 2 ^ 16, retained := f.retained ++ [(x, 1)], cand := some c }
  else { f with queue := rest, cand := some c }

theorem injectOn_goes {s : State} {die key : Nat} {c : Candidate} {p : Packet} (hup : portUp s die c.port = true)
    (hroom : portRoom s die c.port p = true) (rest : List Packet) :
    let t := injectOn s die key c p rest
    let x := injected s die c (flowTx s key).next p
    t.answers.wire = some (die * 16 + c.port, x) ∧ flowTx t key = injectedFlow (flowTx s key) c p.kind x rest ∧
      PacketOut (portOf s die c.port) (portOf t die c.port) x := by
  intro t x
  let u := sampleHeader (setFlowTx s key (injectedFlow (flowTx s key) c p.kind x rest)) die c.port 0 x
  have ht : t = settleOutstanding (putOnWire u die c.port x) die := if_neg (by simp [hup, hroom])
  have hsettle := settleOutstanding_effect (putOnWire u die c.port x) die
  obtain ⟨hout, hwire⟩ := putOnWire_out u die c.port x
  obtain ⟨_, _, _, _, hsample⟩ := portOf_sampleHeader (setFlowTx s key (injectedFlow (flowTx s key) c p.kind x rest)) die c.port 0 x
  rw [ht]
  refine ⟨(congrArg Answers.wire (hsettle.frame.same .answers (by decide))).trans hwire, ?_, ?_⟩
  · rw [hsettle.flowTx_same (by decide), (putOnWire_effect ..).flowTx_same (by decide), (sampleHeader_effect ..).flowTx_same (by decide),
      flowTx_setFlowTx_same]
  · rw [hsettle.portOf_same (by decide)]
    rw [show portOf u die c.port = _ from hsample] at hout
    exact hout

theorem exec_inject {die : Die} {flow : Nat} {dst : BitVec 17} {i : InjectCase} {s : State} {p : Packet} {rest : List Packet}
    {c : Candidate} (hresend : (flowTx s (flowKey die dst.toNat i.vc flow)).resend = [])
    (hqueue : (flowTx s (flowKey die dst.toNat i.vc flow)).queue = p :: rest) (hout : p.vc = 4 ∨ p.dst / 2 ≠ location s)
    (hroute : rflag s F.fabRouteCtrl_routeValid die 0 = true)
    (hcand : (if (flowTx s (flowKey die dst.toNat i.vc flow)).retained = [] then chooseCandidate s die p.dst p.vc
      else (flowTx s (flowKey die dst.toNat i.vc flow)).cand) = some c) :
    exec (.packetInject die flow dst i) s = .next (injectOn s die (flowKey die dst.toNat i.vc flow) c p rest) := by
  show execPacketInject die flow dst i s = _
  unfold execPacketInject
  dsimp only
  rw [hresend, hqueue]
  dsimp only
  rw [if_neg (by rcases hout with h | h <;> simp [h]), if_neg (by simp [hroute]), hcand]

theorem exec_inject_lost {die : Die} {flow : Nat} {dst : BitVec 17} {i : InjectCase} {s : State} {p : Packet} {rest : List Packet}
    (hresend : (flowTx s (flowKey die dst.toNat i.vc flow)).resend = [])
    (hqueue : (flowTx s (flowKey die dst.toNat i.vc flow)).queue = p :: rest) (hvc : p.vc ≠ 4) (hout : p.dst / 2 ≠ location s)
    (hroute : rflag s F.fabRouteCtrl_routeValid die 0 = true)
    (hcand : (if (flowTx s (flowKey die dst.toNat i.vc flow)).retained = [] then chooseCandidate s die p.dst p.vc
      else (flowTx s (flowKey die dst.toNat i.vc flow)).cand) = none) :
    exec (.packetInject die flow dst i) s = .next (flowLost s (flowKey die dst.toNat i.vc flow)) := by
  show execPacketInject die flow dst i s = _
  unfold execPacketInject
  dsimp only
  rw [hresend, hqueue]
  dsimp only
  rw [if_neg (by simp [hout]), if_neg (by simp [hroute]), hcand]
  dsimp only
  rw [if_neg hvc]

theorem exec_inject_bridge {die : Die} {flow : Nat} {dst : BitVec 17} {i : InjectCase} {s : State} {p : Packet} {rest : List Packet}
    (hresend : (flowTx s (flowKey die dst.toNat i.vc flow)).resend = [])
    (hqueue : (flowTx s (flowKey die dst.toNat i.vc flow)).queue = p :: rest) (hvc : p.vc ≠ 4) (hout : p.dst / 2 = location s)
    (hover : p.stamp + bridgeTicks ≤ now s die) :
    exec (.packetInject die flow dst i) s = .next (deliverBridge (setFlowTx s (flowKey die dst.toNat i.vc flow)
      { flowTx s (flowKey die dst.toNat i.vc flow) with queue := rest }) (1 - die) p (i.failedAdds.getD 0 0).val i.mf) := by
  show execPacketInject die flow dst i s = _
  unfold execPacketInject
  dsimp only
  rw [hresend, hqueue]
  dsimp only
  rw [if_pos (by simp [hvc, hout]), if_neg (by omega)]

end Sys2Proof.Machine
end

section
/-! PROOF. Packets sent, continued: a flow lost without a route, a packet sent again, acknowledged or over the span bridge, a port's rate
and the flush after a job (R35, R486, R515, R531 to R537, R540, R542, R555). -/

namespace Sys2Proof.Machine

/-! ### A flow of SIGNALs without a route (R470, R540) -/

theorem counts_signalLost (s : State) (die : Nat) : Counts s (signalLost s die) F.synLostCount_count die 0 1 :=
  (irq_effect ..).of_counts (by decide) ((countRec_effect ..).of_counts (by decide) (counts_bump s (by decide) die 0 1))

/-- A flow whose channel carries no chain: its SIGNALs are counted lost, one by one, and nothing of the flow is left. -/
theorem flowLost_unchained {s : State} {key : Nat} (hvc : keyVc key = 0) :
    flowLost s key = settleOutstanding
      ((((flowTx s key).retained.map (·.1) ++ (flowTx s key).queue).filter fun p => p.kind = ptSignal).foldl
        (fun s _ => signalLost s (keyDie key)) (setFlowTx s key (lostFlow (flowTx s key)))) (keyDie key) := by
  have hlink : ∀ t, linkRun t (keyDie key) (keyEp key) (keyVc key) (keyFlow key) = none := fun t => by simp [linkRun, hvc]
  unfold flowLost
  extract_lets die f all s1 s2 s3
  have hs3 : s3 = s2 := by
    unfold s3
    rw [hlink]
  rw [hs3]
  rfl

theorem flowTx_flowLost {s : State} {key : Nat} (hvc : keyVc key = 0) : flowTx (flowLost s key) key = lostFlow (flowTx s key) := by
  rw [flowLost_unchained hvc, (settleOutstanding_effect ..).flowTx_same (by decide),
    (Effect.foldl _ (fun s _ => signalLost_effect s (keyDie key)) _ _).flowTx_same (by decide), flowTx_setFlowTx_same]

/-- A flow of one SIGNAL: it is counted lost. -/
theorem counts_flowLost {s : State} {key : Nat} {p : Packet} (hvc : keyVc key = 0) (hretained : (flowTx s key).retained = [])
    (hqueue : (flowTx s key).queue = [p]) (hkind : p.kind = ptSignal) :
    Counts s (flowLost s key) F.synLostCount_count (keyDie key) 0 1 := by
  have hone : ((flowTx s key).retained.map (·.1) ++ (flowTx s key).queue).filter (fun p => p.kind = ptSignal) = [p] := by
    rw [hretained, hqueue]
    simp [hkind]
  rw [flowLost_unchained hvc, hone]
  exact (settleOutstanding_effect ..).of_counts (by decide)
    ((setFlowTx_effect ..).counts_of (by decide) (counts_signalLost ..))

/-! ### A packet over the span bridge (R35, R486) -/

theorem keepPacket_of_col {s : State} {k : Nat} {c : Collective} (h : colOf s k = some c) (pkt : Packet) :
    keepPacket s k pkt = setCol s k { c with early := c.early ++ [pkt] } := by
  unfold keepPacket
  rw [h]

/-- A DATA packet of a run that has not started is kept for it. -/
theorem deliverData_waiting {s : State} {die k : Nat} {pkt : Packet} {c : Collective} (hnames : colByDigest s die pkt = some k)
    (hcol : colOf s k = some c) (hwaits : c.phase = .waiting) (p fails : Nat) (mf : MemFaults) :
    deliverData s die p pkt fails mf = setCol s k { c with early := c.early ++ [pkt] } := by
  simp only [deliverData, digestHit_now hnames, hcol, hwaits, if_true, keepPacket_of_col hcol]

theorem deliverBridge_keeps {s : State} {die k : Nat} {pkt : Packet} {c : Collective} (hkind : pkt.kind = ptData)
    (hnames : colByDigest s die pkt = some k) (hcol : colOf s k = some c) (hwaits : c.phase = .waiting) (fails : Nat) (mf : MemFaults) :
    deliverBridge s die pkt fails mf =
      setCol (arriveStamp s die pkt.stamp lMinBridge) k { c with early := c.early ++ [pkt] } := by
  have harrive := arriveStamp_effect s die pkt.stamp lMinBridge
  unfold deliverBridge
  rw [if_pos hkind]
  exact deliverData_waiting ((colByDigest_of_cols (harrive.cols_same (by decide)) ..).trans hnames)
    ((harrive.colOf_same (by decide) k).trans hcol) hwaits ..

/-! ### A packet sent again (R515, R540) -/

/-- A flow once its first packet to be sent again has gone out. -/
def resentFlow (f : FlowTx) (q : Nat) (again : Bool) (left : List (Nat × Bool)) : FlowTx :=
  { f with resend := left, retained := if again then nextAttempt f.retained q else f.retained }

theorem sendAgain_goes {s : State} {die key q : Nat} {c : Candidate} {e : Packet × Nat} (again : Bool) (left : List (Nat × Bool))
    (hcand : (flowTx s key).cand = some c) (hfind : (flowTx s key).retained.find? (fun e => e.1.fseq = q) = some e)
    (hroute : rflag s F.fabRouteCtrl_routeValid die 0 = true) (hup : portUp s die c.port = true) (hroom : linkRoom s die c.port e.1 = true) :
    let t := sendAgain s die key (q, again) left
    t.answers.wire = some (die * 16 + c.port, e.1) ∧ flowTx t key = resentFlow (flowTx s key) q again left ∧
      Counts s t F.fabRetxCount_count die 0 (if again then 1 else 0) := by
  intro t
  let u := setFlowTx s key (resentFlow (flowTx s key) q again left)
  have hu : flowTx u key = resentFlow (flowTx s key) q again left := flowTx_setFlowTx_same ..
  have hbranch : (!rflag s F.fabRouteCtrl_routeValid die 0 || !portUp s die c.port || !linkRoom s die c.port e.1) = false := by
    simp [hroute, hup, hroom]
  cases again with
  | true =>
    have ht : t = putOnWire (bump u F.fabRetxCount_count die 0 1) die c.port e.1 := by
      simp only [t, sendAgain, hcand, hfind, hbranch, u, resentFlow]
      rfl
    rw [ht]
    refine ⟨rfl, ?_, ?_⟩
    · rw [(putOnWire_effect ..).flowTx_same (by decide), (bump_effect ..).flowTx_same (by decide), hu]
    · exact (putOnWire_effect ..).of_counts (by decide)
        ((setFlowTx_effect ..).counts_of (by decide) (counts_bump u (by decide) die 0 1))
  | false =>
    have ht : t = putOnWire u die c.port e.1 := by
      simp only [t, sendAgain, hcand, hfind, hbranch, u, resentFlow]
      rfl
    rw [ht]
    refine ⟨rfl, ?_, ?_⟩
    · rw [(putOnWire_effect ..).flowTx_same (by decide), hu]
    · exact (putOnWire_effect ..).of_counts (by decide)
        ((setFlowTx_effect ..).counts_of (by decide) (counts_zero ..))

theorem exec_inject_again {die : Die} {flow q : Nat} {again : Bool} {dst : BitVec 17} {i : InjectCase} {s : State}
    {left : List (Nat × Bool)} (h : (flowTx s (flowKey die dst.toNat i.vc flow)).resend = (q, again) :: left) :
    exec (.packetInject die flow dst i) s = .next (sendAgain s die (flowKey die dst.toNat i.vc flow) (q, again) left) := by
  show execPacketInject die flow dst i s = _
  unfold execPacketInject
  dsimp only
  rw [h]

/-! ### Outstanding packets (R536) -/

theorem rd_settleOutstanding (s : State) {die p : Nat} (hp : p < 16) :
    rd (settleOutstanding s die) .fabPortOutstanding die p = (retainedOn s die p).length % 2 ^ 32 := by
  have hfold : ∀ n ≤ 16, ∀ p < n, rd ((List.range n).foldl
      (fun s' p => wr s' .fabPortOutstanding die p (retainedOn s die p).length) s) .fabPortOutstanding die p =
        (retainedOn s die p).length % 2 ^ 32 := by
    intro n
    induction n with
    | zero => exact fun _ p hp => absurd hp (Nat.not_lt_zero p)
    | succ n ih =>
      intro hn p hp
      rw [List.range_succ, List.foldl_append, List.foldl_cons, List.foldl_nil]
      rcases Nat.lt_succ_iff_lt_or_eq.mp hp with hlt | rfl
      · rw [rd_wr_unit _ _ _ _ _ _ _ fun h => ?_, ih (by omega) p hlt]
        have := (Prod.mk.inj h).2
        omega
      · exact rd_wr_same _ _ _ _ _ (by decide)
  exact hfold 16 le_rfl p hp

theorem Effect.retainedOn_same {w : List Part} {s t : State} (h : Effect w s t) (hw : Part.flowsTx ∉ w) (die p : Nat) :
    retainedOn t die p = retainedOn s die p := by
  unfold retainedOn
  rw [show t.flowsTx = s.flowsTx from h.frame.same .flowsTx hw]

/-- The counts of outstanding packets are those of the packets retained. -/
def Outstanding (s : State) (die : Nat) : Prop :=
  ∀ p : Fin 16, rd s .fabPortOutstanding die p = (retainedOn s die p).length % 2 ^ 32

theorem outstanding_settled (s : State) (die : Nat) : Outstanding (settleOutstanding s die) die := fun p => by
  rw [rd_settleOutstanding s p.isLt, (settleOutstanding_effect ..).retainedOn_same (by decide)]

theorem Outstanding.after {w : List Part} {s t : State} {die : Nat} (h : Outstanding s die) (he : Effect w s t)
    (hw : Part.flowsTx ∉ w ∧ Part.reg .fabPortOutstanding ∉ w) : Outstanding t die := fun p => by
  rw [he.retainedOn_same hw.1, ← h p]
  exact he.frame.same (.reg .fabPortOutstanding) hw.2 die p

/-! ### An acknowledgement (R535, R536) -/

/-- A flow of which the packets up to a number have been acknowledged. -/
def ackedFlow (f : FlowTx) (q : Nat) : FlowTx :=
  let left := f.retained.filter fun e => seqLater e.1.fseq q
  { f with retained := left, cand := if left = [] then none else f.cand }

theorem exec_ackReceive {die : Die} {port : Fin 16} {pkt : Packet} {s : State} (h : Heard s die port ptAck pkt) (vc : Fin 8) :
    Gives (exec (.ackReceive die port pkt vc) s) fun t =>
      flowTx t (answeredFlow die pkt vc pkt.flow) = ackedFlow (flowTx s (answeredFlow die pkt vc pkt.flow)) (bits pkt.word 15 0) ∧
      Outstanding t die := by
  let key := answeredFlow die pkt vc pkt.flow
  let v := setFlowTx (headed s die port pkt) key (ackedFlow (flowTx (headed s die port pkt) key) (bits pkt.word 15 0))
  let u := settleOutstanding v die
  have hu : flowTx u key = ackedFlow (flowTx s key) (bits pkt.word 15 0) := by
    rw [(settleOutstanding_effect ..).flowTx_same (by decide), flowTx_setFlowTx_same, (headed_effect ..).flowTx_same (by decide)]
  have hcount : Outstanding u die := outstanding_settled v die
  refine ⟨_, congrArg Host.Outcome.next (receive_heard h (by decide) (by decide) _), ?_⟩
  beta_reduce
  extract_lets f left used s1 s2
  have hs2 : s2 = u := rfl
  have hthrottle := fun p => throttle_effect u die p vc.val
  rw [hs2]
  clear_value used
  cases used with
  | none => exact ⟨hu, hcount⟩
  | some c =>
    dsimp only
    split
    · exact ⟨((hthrottle _).flowTx_same (by decide) key).trans hu, hcount.after (hthrottle _) (by decide)⟩
    · exact ⟨hu, hcount⟩

/-! ### An acknowledgement owed (R520, R535) -/

theorem flowRx_setFlowRx_same (s : State) (key : Nat) (f : FlowRx) : flowRx (setFlowRx s key f) key = f := Map.getD_put_same ..

theorem flowRx_queuePacket (s : State) (die : Nat) (p : Packet) (key : Nat) : flowRx (queuePacket s die p) key = flowRx s key :=
  (queuePacket_effect ..).flowRx_same (by decide) key

theorem queue_queuePacket (s : State) (die : Nat) (p : Packet) :
    (flowTx (queuePacket s die p) (flowKey die p.dst p.vc p.flow)).queue =
      (flowTx s (flowKey die p.dst p.vc p.flow)).queue ++ [{ p with stamp := now s die }] := by
  rw [queuePacket, flowTx_setFlowTx_same]

theorem flowRx_sendAck (s : State) (key fseq : Nat) :
    flowRx (sendAck s key fseq) key = { flowRx s key with sinceAck := 0, marks := 0 } :=
  (flowRx_queuePacket ..).trans (flowRx_setFlowRx_same ..)

/-- The acknowledgement of a flow. -/
def ackPacket (s : State) (key fseq : Nat) : Packet :=
  mkPacket ptAck 1 (keyEp key) (endpoint s (keyDie key)) (keyFlow key) fseq 0
    (((flowRx s key).expected + 2 ^ 16 - 1) % 2 ^ 16 + min 15 (flowRx s key).marks * 2 ^ 16) []

theorem queue_sendAck (s : State) (key fseq : Nat) :
    (flowTx (sendAck s key fseq) (flowKey (keyDie key) (keyEp key) 1 (keyFlow key))).queue =
      (flowTx s (flowKey (keyDie key) (keyEp key) 1 (keyFlow key))).queue ++
        [{ ackPacket s key fseq with stamp := now s (keyDie key) }] :=
  queue_queuePacket ..

theorem bits_ackWord (a m : Nat) : bits (a % 2 ^ 16 + m * 2 ^ 16) 15 0 = a % 2 ^ 16 := by
  simp only [bits]
  omega

/-! ### The flush (R555) -/

theorem flushFabric_empties (s : State) :
    let t := flushFabric s
    (∀ e ∈ t.flowsTx, e.2.retained = []) ∧ (∀ e ∈ t.flowsRx, e.2.held = []) ∧ t.mcasts = [] ∧ t.colWaiting = [] ∧
      t.job.flushOwed = false := by
  intro t
  unfold t flushFabric
  extract_lets _ u
  have he : Effect [.reg .fabPortOutstanding] u (settleOutstanding (settleOutstanding u 0) 1) :=
    (settleOutstanding_effect ..).trans (settleOutstanding_effect ..)
  rw [show (settleOutstanding (settleOutstanding u 0) 1).flowsTx = u.flowsTx from he.frame.same .flowsTx (by decide),
    show (settleOutstanding (settleOutstanding u 0) 1).flowsRx = u.flowsRx from he.frame.same .flowsRx (by decide),
    show (settleOutstanding (settleOutstanding u 0) 1).mcasts = u.mcasts from he.frame.same .mcasts (by decide),
    show (settleOutstanding (settleOutstanding u 0) 1).colWaiting = u.colWaiting from he.frame.same .colWaiting (by decide),
    show (settleOutstanding (settleOutstanding u 0) 1).job = u.job from he.frame.same .job (by decide)]
  refine ⟨fun e hmem => ?_, fun e hmem => ?_, rfl, rfl, rfl⟩
  · obtain ⟨e', _, rfl⟩ := List.mem_map.mp hmem
    rfl
  · obtain ⟨e', _, rfl⟩ := List.mem_map.mp hmem
    rfl

/-! ### Timers (R540, R542) -/

theorem exec_retransmit {die : Die} {flow : Nat} {dst : BitVec 17} {vc : Fin 8} {c : Candidate} {s : State}
    (hcand : (flowTx s (flowKey die dst.toNat vc flow)).cand = some c)
    (hretained : (flowTx s (flowKey die dst.toNat vc flow)).retained ≠ []) (hresend : (flowTx s (flowKey die dst.toNat vc flow)).resend = []) :
    exec (.retransmitTimeout die flow dst vc) s =
      if (flowTx s (flowKey die dst.toNat vc flow)).retained.any fun e => decide (3 ≤ e.2) then
        .next (flowLost s (flowKey die dst.toNat vc flow))
      else if !portUp s die c.port then .next s
      else .next (setFlowTx s (flowKey die dst.toNat vc flow) { flowTx s (flowKey die dst.toNat vc flow) with
        resend := (flowTx s (flowKey die dst.toNat vc flow)).retained.map fun e => (e.1.fseq, true) }) := by
  show execRetransmitTimeout die flow dst vc s = _
  unfold execRetransmitTimeout
  dsimp only
  rw [hcand]
  dsimp only
  rw [if_neg (by simp [hretained, hresend])]

/-- The rate a port's channel rises to (R542). -/
def risenRate (us full r : Nat) : Nat := if us = 0 then full else min full (r + full / 64)

theorem exec_throttleRecover {die : Die} {port : Fin 16} {vc : Fin 8} {r : Nat} {s : State}
    (hrate : Map.find (portOf s die port).rate vc = some r)
    (hwaited : ∀ x, Map.find (portOf s die port).lastDecrease vc = some x → x + rf s F.fabThrottleCfg_recoverUs die 0 * 4000 ≤ now s die) :
    let full := fullRate (portLanes s die port)
    let r' := risenRate (rf s F.fabThrottleCfg_recoverUs die 0) full r
    exec (.throttleRecover die port vc) s = .next (setPort s die port { portOf s die port with
      rate := if full ≤ r' then Map.del (portOf s die port).rate vc else Map.put (portOf s die port).rate vc r' }) := by
  show execThrottleRecover die port vc s = _
  unfold execThrottleRecover
  dsimp only
  rw [hrate]
  cases hlast : Map.find (portOf s die port).lastDecrease vc with
  | none => rfl
  | some x =>
    have hw := hwaited x hlast
    dsimp only
    rw [if_neg (by simp [hw])]
    rfl

theorem risenRate_le (us full r : Nat) : risenRate us full r ≤ full := by
  unfold risenRate
  split
  · exact le_rfl
  · exact Nat.min_le_left ..

/-- A rate reads as what it rises to: a channel at the full rate has no entry. -/
theorem getD_risen (m : Map Nat) (vc : Nat) {full r' : Nat} (h : r' ≤ full) :
    Map.getD (if full ≤ r' then Map.del m vc else Map.put m vc r') vc full = r' := by
  split
  · rw [Map.getD_del_same]
    omega
  · exact Map.getD_put_same ..

end Sys2Proof.Machine
end

section
/-! PROOF. Packets sent and retained: the statement (R470, R486, R531 to R537, R540, R542, R555). -/

namespace Sys2Proof.Machine

/-- Settles O44: each way a packet goes out has its own lemma above, and so has each way it leaves the retention buffer. -/
theorem packetsAreSentAndRetained : Obligations.PacketsAreSentAndRetained := by
  unfold Obligations.PacketsAreSentAndRetained
  refine ⟨?inject, ?ack, ?ackTimer, ?timeout, ?recover, ?flush⟩
  case inject =>
    intro die flow dst vc adds mf p rest s key f i
    refine ⟨fun hresend hqueue hflow hvc hpflow => ⟨?_, ?_, ?_⟩, ?_⟩
    · intro c hout hroute hcand hup hroom
      obtain ⟨hwire, hflow', hpacket⟩ := injectOn_goes (key := key) hup hroom rest
      refine ⟨_, exec_inject (i := ⟨vc, adds, mf⟩) hresend hqueue (by rwa [hvc]) hroute hcand, ?_⟩
      beta_reduce
      rw [hflow']
      refine ⟨hwire, ?_, ?_, ?_, hpacket⟩ <;> (unfold injectedFlow; split <;> rfl)
    · intro hvc0 hkind hout hroute hretained hrest hnone
      subst hrest
      have hkeyVc : keyVc key = 0 := (keyVc_flowKey vc.isLt hflow ..).trans hvc0
      have hkeyDie : keyDie key = die := keyDie_flowKey dst.isLt vc.isLt hflow _
      have hcand : (if f.retained = [] then chooseCandidate s die p.dst p.vc else f.cand) = none := by
        rw [if_pos hretained, hvc, hvc0, hnone]
      refine ⟨_, exec_inject_lost (i := ⟨vc, adds, mf⟩) hresend hqueue (by omega) hout hroute hcand, ?_⟩
      beta_reduce
      rw [flowTx_flowLost hkeyVc]
      have hcount := counts_flowLost hkeyVc hretained hqueue hkind
      rw [hkeyDie] at hcount
      exact ⟨rfl, rfl, hcount⟩
    · intro k c hvc4 hout hkind hover hnames hcol hwaits
      let u := setFlowTx s key { f with queue := rest }
      have hu : Effect [.flowsTx] s u := setFlowTx_effect ..
      refine ⟨_, exec_inject_bridge (i := ⟨vc, adds, mf⟩) hresend hqueue (by omega) hout hover, ?_⟩
      beta_reduce
      rw [deliverBridge_keeps hkind ((colByDigest_of_cols (hu.cols_same (by decide)) ..).trans hnames)
        ((hu.colOf_same (by decide) k).trans hcol) hwaits]
      refine ⟨?_, colOf_setCol_same ..⟩
      rw [(setCol_effect ..).flowTx_same (by decide), (arriveStamp_effect ..).flowTx_same (by decide), flowTx_setFlowTx_same]
    · intro q again left c e hresend hcand hfind hroute hup hroom
      exact ⟨_, exec_inject_again (i := ⟨vc, adds, mf⟩) hresend, sendAgain_goes again left hcand hfind hroute hup hroom⟩
  case ack =>
    intro die port pkt vc s hheard key left
    obtain ⟨t, hexec, hflow, hcounts⟩ := exec_ackReceive hheard vc
    refine ⟨t, hexec, ?_⟩
    beta_reduce
    rw [show flowTx t key = _ from hflow]
    exact ⟨rfl, fun h => if_pos h, rfl, hcounts⟩
  case ackTimer =>
    intro die src vc flow s f hflow hacks
    let key := flowKey die src.toNat vc flow
    have hkeyDie : keyDie key = die := keyDie_flowKey src.isLt vc.isLt hflow _
    have hkeyEp : keyEp key = src.toNat := keyEp_flowKey src.isLt vc.isLt hflow _
    have hkeyFlow : keyFlow key = flow := keyFlow_flowKey hflow ..
    have hqueue := queue_sendAck s key ((f.expected + 2 ^ 16 - 1) % 2 ^ 16)
    rw [hkeyDie, hkeyEp, hkeyFlow] at hqueue
    refine ⟨_, if_neg hacks, flowRx_sendAck .., _, hqueue, rfl, hkeyEp, hkeyFlow, bits_ackWord ..⟩
  case timeout =>
    intro die flow dst vc c s key f hflow hcand hretained hresend
    have hexec := exec_retransmit hcand hretained hresend
    refine ⟨fun hfew hup => ?_, fun hvc0 hthird => ?_⟩
    · rw [if_neg (by simpa using hfew), if_neg (by simp [hup])] at hexec
      exact ⟨_, hexec, flowTx_setFlowTx_same .., (setFlowTx_effect ..).frame⟩
    · rw [if_pos (by simpa using hthird)] at hexec
      refine ⟨_, hexec, ?_⟩
      beta_reduce
      rw [flowTx_flowLost ((keyVc_flowKey vc.isLt hflow ..).trans hvc0)]
      exact ⟨rfl, rfl, rfl⟩
  case recover =>
    intro die port vc r s v us full hrate hwaited
    refine ⟨_, exec_throttleRecover hrate hwaited, ?_, (setPort_effect ..).frame⟩
    rw [portOf_setPort_same]
    exact getD_risen _ _ (risenRate_le ..)
  case flush =>
    intro s howed
    exact ⟨_, if_neg (by simp [howed]), flushFabric_empties s⟩

end Sys2Proof.Machine
end

section
/-! PROOF. Packets received (R463, R470, R481, R486, R493 to R496, R518, R522, R531, R535, R538, R539): what is dropped and counted, and
what a packet that is next of its flow does. -/

namespace Sys2Proof.Machine

/-! ### Drops (R481, R518, R522, R531) -/

theorem counts_colDrop (s : State) (die : Nat) : Counts s (colDrop s die) F.colDropCount_count die 0 1 :=
  (irq_effect ..).of_counts (by decide) (counts_bump s (by decide) die 0 1)

theorem counts_colAbort (s : State) (die : Nat) : Counts s (colAbort s die) F.colAbortCount_count die 0 1 :=
  (irq_effect ..).of_counts (by decide) (counts_bump s (by decide) die 0 1)

theorem counts_dropMisroute (s : State) (die : Nat) : Counts s (dropMisroute s die) F.fabMisrouteCount_count die 0 1 :=
  (irq_effect ..).of_counts (by decide) (counts_bump s (by decide) die 0 1)

theorem counts_dropStale (s : State) (die : Nat) : Counts s (dropStale s die) F.fabStaleCount_count die 0 1 :=
  (irq_effect ..).of_counts (by decide) (counts_bump s (by decide) die 0 1)

theorem counts_dropDigest (s : State) (die p : Nat) (pkt : Packet) : Counts s (dropDigest s die p pkt) F.colDropCount_count die 0 1 := by
  unfold dropDigest
  extract_lets s'
  split
  · exact counts_colDrop ..
  · exact (dropRec_effect ..).of_counts (by decide) (counts_colDrop ..)

/-- A packet of another epoch than the die's is dropped and counted, whatever its kind. -/
theorem receive_stale {s : State} {die p kind : Nat} {pkt : Packet} (hup : portUp s die p = true)
    (hfirst : rxFirst s die p pkt.vc = some pkt) (hkind : pkt.kind = kind) (hsome : 0 < kind) (hknown : kind < 9) (hvc : pkt.vc < 5)
    (hroute : rflag s F.fabRouteCtrl_routeValid die 0 = true) (hepoch : pkt.epoch ≠ rf s F.fabRouteCtrl_epoch die 0) (k : State → State) :
    receive s die p kind pkt k = dropRec (dropStale (headed s die p pkt) die) die p .fab pkt := by
  have hhead := headed_effect s die p pkt
  have hroute' : rflag (headed s die p pkt) F.fabRouteCtrl_routeValid die 0 = true := by rwa [rflag, hhead.field_same _ (by decide)]
  have hepoch' : pkt.epoch ≠ rf (headed s die p pkt) F.fabRouteCtrl_epoch die 0 := by rwa [hhead.field_same _ (by decide)]
  have hchecks : headerChecks (headed s die p pkt) die p pkt =
      (false, dropRec (dropStale (headed s die p pkt) die) die p .fab pkt) := by
    unfold headerChecks
    rw [if_neg (by simp; omega), if_neg (by simp [hroute']), if_pos hepoch']
  unfold receive
  rw [if_neg (by simp [hup, hfirst, hkind])]
  unfold headed at *
  rw [hchecks]

/-- A packet of a channel or a type that is no module's is dropped and counted. -/
theorem exec_mgmtPacket {die : Die} {port : Fin 16} {pkt : Packet} {s : State} (hup : portUp s die port = true)
    (hfirst : rxFirst s die port pkt.vc = some pkt) (hforeign : 5 ≤ pkt.vc ∨ pkt.kind = 0 ∨ 9 ≤ pkt.kind) :
    exec (.mgmtPacketReceive die port pkt) s = .next (dropMisroute (headed s die port pkt) die) := by
  have hchecks : headerChecks (headed s die port pkt) die port pkt = (false, dropMisroute (headed s die port pkt) die) :=
    if_pos (by simpa [or_assoc] using hforeign)
  show execMgmtPacketReceive die port pkt s = _
  unfold execMgmtPacketReceive
  dsimp only
  rw [if_pos (by simpa [hup, hfirst, or_assoc] using hforeign)]
  unfold headed at *
  rw [hchecks]

/-! ### The next packet of a flow (R535, R539) -/

theorem expected_acceptSeq (s : State) (key : Nat) (pkt : Packet) :
    (flowRx (acceptSeq s key pkt) key).expected = ((flowRx s key).expected + 1) % 2 ^ 16 := by
  unfold acceptSeq
  extract_lets f s1
  split
  · rw [flowRx_sendAck, flowRx_setFlowRx_same]
  · rw [flowRx_setFlowRx_same]

theorem flowRx_headed (s : State) (die p : Nat) (pkt : Packet) (key : Nat) : flowRx (headed s die p pkt) key = flowRx s key :=
  (headed_effect ..).flowRx_same (by decide) key

/-- The packet's flow has gone on to the number behind it. -/
def Accepted (t : State) (die : Nat) (pkt : Packet) : Prop := (flowRx t (rxKey die pkt)).expected = (pkt.fseq + 1) % 2 ^ 16

theorem Accepted.after {t u : State} {die : Nat} {pkt : Packet} {w : List Part} (h : Accepted t die pkt) (he : Effect w t u)
    (hw : Part.flowsRx ∉ w) : Accepted u die pkt := by
  rwa [Accepted, he.flowRx_same hw]

section
variable {s : State} {die p kind : Nat} {pkt : Packet} (h : HeardNext s die p kind pkt)
include h

theorem accepted_arrived : Accepted (arrived s die p pkt) die pkt := by
  obtain ⟨-, hseq, -⟩ := h
  rw [Accepted, arrived, expected_acceptSeq, flowRx_headed, hseq]

theorem inOrder_headed (k : State → Packet → Nat → State) :
    inOrder (headed s die p pkt) die pkt k = k (arrived s die p pkt) pkt 0 := by
  obtain ⟨-, hseq, hheld⟩ := h
  exact inOrder_next (by rwa [flowRx_headed]) (by rwa [flowRx_headed]) k

end

/-- A dropped packet behind which none waits: only its flow has been acknowledged. -/
theorem dropAcked_alone {s : State} {die : Nat} {pkt : Packet} (hheld : (flowRx s (rxKey die pkt)).held = [])
    (k : State → Packet → Nat → State) : Effect [.flowsRx, .flowsTx] s (dropAcked s die pkt k) := by
  have hnone := (held_acceptSeq s (rxKey die pkt) pkt).trans hheld
  unfold dropAcked
  dsimp only
  split
  next hseq =>
    have horder : orderPacket s die pkt = ([pkt], acceptSeq s (rxKey die pkt) pkt) := by
      simp [orderPacket, hseq, orderPacket.drain, hnone]
    rw [horder]
    exact acceptSeq_effect ..
  · exact sendAck_effect ..

/-! ### The digest check (R481, R486) -/

theorem Effect.digestHit_same {w : List Part} {s t : State} (h : Effect w s t)
    (hw : Part.cols ∉ w ∧ Part.colEnded ∉ w ∧ Part.reg .jobStatus ∉ w) (die : Nat) (pkt : Packet) :
    digestHit t die pkt = digestHit s die pkt := by
  obtain ⟨hcols, hended, hjob⟩ := hw
  have hc : t.cols = s.cols := h.cols_same hcols
  have he : t.colEnded = s.colEnded := h.frame.same .colEnded hended
  unfold digestHit colByLater unnamedHit ofEnded
  rw [colByDigest_of_cols hc, h.jobTakes_same hjob, he, hc]
  unfold colPick
  rw [hc]

theorem Effect.mcastRunOf_same {w : List Part} {s t : State} (h : Effect w s t) (hw : Part.cols ∉ w) (die : Nat) (pkt : Packet) :
    mcastRunOf t die pkt = mcastRunOf s die pkt := by
  unfold mcastRunOf
  simp only [h.colOf_same hw]

/-- A packet waits for a command to come only while a job takes packets. -/
theorem jobTakes_of_wait {s : State} {die : Nat} {pkt : Packet} (h : digestHit s die pkt = .wait) : jobTakes s = true := by
  by_contra hno
  unfold digestHit at h
  split at h
  · cases h
  · split at h
    · cases h
    · rw [unnamedHit, if_pos (by simp [hno])] at h
      cases h

/-! ### Packets that pass their checks -/

section
variable {die : Die} {port : Fin 16} {pkt : Packet} {s : State}

theorem exec_data_next {adds : List (Fin 4)} {mf : MemFaults} (h : HeardNext s die port ptData pkt) (hjob : jobTakes s = true)
    (hgood : digestBad s die pkt = false) :
    exec (.dataPacketReceive die port pkt adds mf) s = .next (deliverData (arrived s die port pkt) die port pkt (adds.getD 0 0).val mf) := by
  have hhead := headed_effect s die port pkt
  have hgood' : digestBad (headed s die port pkt) die pkt = false := by rwa [digestBad, hhead.digestHit_same (by decide)]
  show execDataPacketReceive die port pkt adds mf s = _
  unfold execDataPacketReceive
  dsimp only
  rw [receive_heard h.1 (by decide) (by decide), hhead.jobTakes_same (by decide), hjob, hgood', inOrder_headed h]
  rfl

theorem exec_abort_next (h : HeardNext s die port ptAbort pkt) (hjob : jobTakes s = true) (hgood : digestBad s die pkt = false) :
    exec (.abortReceive die port pkt) s = .next (deliverAbort (arrived s die port pkt) die port pkt) := by
  have hhead := headed_effect s die port pkt
  have hgood' : digestBad (headed s die port pkt) die pkt = false := by rwa [digestBad, hhead.digestHit_same (by decide)]
  show execAbortReceive die port pkt s = _
  unfold execAbortReceive
  dsimp only
  rw [receive_heard h.1 (by decide) (by decide), hhead.jobTakes_same (by decide), hjob, hgood', inOrder_headed h]
  rfl

theorem exec_signal_next (h : HeardNext s die port ptSignal pkt) (hjob : jobTakes s = true) :
    exec (.signalPacketReceive die port pkt) s = .next (deliverPacketSignal (arrived s die port pkt) die pkt) := by
  show execSignalPacketReceive die port pkt s = _
  unfold execSignalPacketReceive
  dsimp only
  rw [receive_heard h.1 (by decide) (by decide), (headed_effect s die port pkt).jobTakes_same (by decide), hjob, inOrder_headed h]
  rfl

theorem exec_mcast_next {run : McastRun} {mf : MemFaults} (h : HeardNext s die port ptMcast pkt)
    (hdigest : mcastDigest run = bits pkt.word 63 32) :
    exec (.mcastReceive die port pkt ⟨run, mf⟩) s = .next (deliverMcast (arrived s die port pkt) die pkt run mf) := by
  have hnote : noteMcast (headed s die port pkt) die pkt run = headed s die port pkt :=
    if_pos (by simp [flowRx_headed, h.2.1])
  show execMcastReceive die port pkt ⟨run, mf⟩ s = _
  unfold execMcastReceive
  dsimp only
  rw [receive_heard h.1 (by decide) (by decide), if_neg (by simp [hdigest]), hnote, inOrder_headed h, if_pos rfl]

/-! ### Packets that fail the digest check, or come after the job (R481, R499, R555) -/

theorem exec_bad {i : Instr} {kind : Nat} {adds : List (Fin 4)} {mf : MemFaults}
    (hi : (i, kind) ∈ [(Instr.dataPacketReceive die port pkt adds mf, ptData), (.abortReceive die port pkt, ptAbort)])
    (h : Heard s die port kind pkt) (hjob : jobTakes s = true) (hbad : digestBad s die pkt = true) :
    ∃ k, exec i s = .next (dropAcked (dropDigest (headed s die port pkt) die port pkt) die pkt k) := by
  have hhead := headed_effect s die port pkt
  have hbad' : digestBad (headed s die port pkt) die pkt = true := by rwa [digestBad, hhead.digestHit_same (by decide)]
  have hjob' : jobTakes (headed s die port pkt) = true := (hhead.jobTakes_same (by decide)).trans hjob
  have hdrops : ∀ k, (if !jobTakes (headed s die port pkt) then dropLate (headed s die port pkt) die pkt
      else if digestBad (headed s die port pkt) die pkt then
        dropAcked (dropDigest (headed s die port pkt) die port pkt) die pkt k
      else inOrder (headed s die port pkt) die pkt k) = dropAcked (dropDigest (headed s die port pkt) die port pkt) die pkt k := fun k => by
    rw [if_neg (by simp [hjob']), if_pos hbad']
  simp only [List.mem_cons, Prod.mk.injEq, List.not_mem_nil, or_false] at hi
  rcases hi with ⟨rfl, rfl⟩ | ⟨rfl, rfl⟩ <;>
    exact ⟨_, congrArg Host.Outcome.next ((receive_heard h (by decide) (by decide) _).trans (hdrops _))⟩

theorem exec_late {i : Instr} {kind : Nat} {adds : List (Fin 4)} {mf : MemFaults}
    (hi : (i, kind) ∈ [(Instr.dataPacketReceive die port pkt adds mf, ptData), (.abortReceive die port pkt, ptAbort),
      (.signalPacketReceive die port pkt, ptSignal)])
    (h : Heard s die port kind pkt) (hjob : jobTakes s = false) : exec i s = .next (dropLate (headed s die port pkt) die pkt) := by
  have hlate : (!jobTakes (headed s die port pkt)) = true := by
    rw [(headed_effect s die port pkt).jobTakes_same (by decide), hjob]
    rfl
  simp only [List.mem_cons, Prod.mk.injEq, List.not_mem_nil, or_false] at hi
  rcases hi with ⟨rfl, rfl⟩ | ⟨rfl, rfl⟩ | ⟨rfl, rfl⟩ <;>
    exact congrArg Host.Outcome.next ((receive_heard h (by decide) (by decide) _).trans (if_pos hlate))

end

/-! ### What a packet does (R463, R486, R496) -/

theorem digestBad_of_now {s : State} {die k : Nat} {pkt : Packet} (h : colByDigest s die pkt = some k) : digestBad s die pkt = false := by
  simp [digestBad, digestHit_now h]

theorem digestBad_of_wait {s : State} {die : Nat} {pkt : Packet} (h : digestHit s die pkt = .wait) : digestBad s die pkt = false := by
  simp [digestBad, h]

theorem deliverData_wait {s : State} {die : Nat} {pkt : Packet} (h : digestHit s die pkt = .wait) (p fails : Nat) (mf : MemFaults) :
    deliverData s die p pkt fails mf = keepWaiting s die pkt := by
  rw [deliverData, h]

theorem waitingAt_keepWaiting (s : State) (die : Nat) (pkt : Packet) : waitingAt (keepWaiting s die pkt) die = waitingAt s die ++ [pkt] :=
  Map.getD_put_same ..

theorem deliverAbort_stops {s : State} {die k : Nat} {pkt : Packet} {c : Collective} (hnames : colByDigest s die pkt = some k)
    (hcol : colOf s k = some c) (hgoes : c.phase ≠ .ending) (p : Nat) :
    deliverAbort s die p pkt = stopRun (colAbort s die) k (abortStatus c (bits pkt.word 7 0)) := by
  simp only [deliverAbort, digestHit_now hnames, hcol]
  exact if_neg hgoes

theorem deliverPacketSignal_near {s : State} {die : Nat} {pkt : Packet} (hincrement : (signalOf pkt.word pkt.flow).increment ≠ 0)
    (hnear : (signalOf pkt.word pkt.flow).far = false) (hindex : (signalOf pkt.word pkt.flow).index < 65536) :
    deliverPacketSignal s die pkt = setSync s die { syncOf s die with signals := (syncOf s die).signals ++
      [⟨false, (signalOf pkt.word pkt.flow).index, (signalOf pkt.word pkt.flow).increment, pkt.src, pkt.stamp, now s die⟩] } := by
  unfold deliverPacketSignal
  dsimp only
  rw [if_neg hincrement, if_neg (by simp [hnear, hindex]), hnear]
  exact if_pos rfl

end Sys2Proof.Machine
end

section
/-! PROOF. A multicast at its destination, the answers to one, a fenced packet, and the statement of what is received or dropped (R463,
R470, R481, R486, R492 to R496, R518, R522, R531, R538, R539). -/

namespace Sys2Proof.Machine

/-! ### Ranges that an engine reaches (R48, R51) -/

theorem Effect.rangeIn_same {w : List Part} {s t : State} (h : Effect w s t)
    (hw : Part.unusable ∉ w ∧ Part.flt ∉ w ∧ Part.reg .jobStatus ∉ w ∧ Part.job ∉ w) (a len : Nat) (reach : Region → Bool) :
    rangeIn t a len reach = rangeIn s a len reach := by
  obtain ⟨hunusable, hflt, hstate, hjob⟩ := hw
  have hgone : ∀ d, sharedGone t d = sharedGone s d := fun d => by
    rw [sharedGone, show t.flt = s.flt from h.frame.same .flt hflt, sharedGone]
  have hregion : ∀ a, regionOf t a = regionOf s a := fun a => by
    simp only [regionOf, h.usableHbm_same hunusable, hgone]
  have hspan : ∀ r, regionSpan t r = regionSpan s r := fun r => by
    cases r <;> simp only [regionSpan, h.usableHbm_same hunusable]
  simp only [rangeIn, rangeOk, hregion, hspan, h.inFarTable_same hstate hjob]

/-! ### A multicast's packet (R492 to R494) -/

theorem Effect.mcastRefusal_same {w : List Part} {s t : State} (h : Effect w s t)
    (hw : Part.unusable ∉ w ∧ Part.flt ∉ w ∧ ∀ p ∈ windowParts, p ∉ w) (die : Nat) (run : McastRun) :
    mcastRefusal t die run = mcastRefusal s die run := by
  obtain ⟨hunusable, hflt, hwindows⟩ := hw
  have hstate := hwindows (.reg .jobStatus) (by decide)
  unfold mcastRefusal
  rw [h.rangeIn_same ⟨hunusable, hflt, hstate, hwindows .job (by decide)⟩, h.hiddenIn_same hwindows, h.jobState_same hstate]

/-- A response of a kind to a packet waits in its flow's queue, with the packet's digest. -/
def Answered (t : State) (die : Nat) (pkt : Packet) (kind : Nat) : Prop :=
  ∃ a ∈ (flowTx t (flowKey die pkt.src 1 pkt.flow)).queue, a.kind = kind ∧ bits a.word 63 32 = bits pkt.word 63 32

theorem Answered.after {t u : State} {die kind : Nat} {pkt : Packet} {w : List Part} (h : Answered t die pkt kind) (he : Effect w t u)
    (hw : Part.flowsTx ∉ w) : Answered u die pkt kind := by
  rwa [Answered, he.flowTx_same hw]

theorem bits_digestWord (word : Nat) {low : Nat} (h : low < 2 ^ 32) : bits (bits word 63 32 * 2 ^ 32 + low) 63 32 = bits word 63 32 := by
  simp only [bits]
  omega

theorem answered_respond (s : State) (die : Nat) (pkt : Packet) (kind fseq : Nat) {low : Nat} (h : low < 2 ^ 32) :
    Answered (respond s die pkt kind fseq (bits pkt.word 63 32 * 2 ^ 32 + low)) die pkt kind := by
  obtain ⟨stamp, hmem⟩ := queuePacket_queued s die (mkPacket kind 1 pkt.src (endpoint s die) pkt.flow fseq 0
    (bits pkt.word 63 32 * 2 ^ 32 + low) [])
  exact ⟨_, hmem, rfl, bits_digestWord _ h⟩

/-- Where a multicast's packet is written at its destination. -/
def mcastBase (run : McastRun) (pkt : Packet) : Nat := run.dst + bits pkt.word 31 0 * 4096

/-- The destination's side of a multicast, as it stands when a packet comes. -/
def mcastRx (s : State) (die : Nat) (pkt : Packet) (run : McastRun) : McastRx :=
  Map.getD s.mcasts (mcastKey die pkt) ⟨0, false, run, none⟩

section
variable {s : State} {die : Nat} {pkt : Packet} {run : McastRun} (mf : MemFaults) (hgoes : (mcastRx s die pkt run).refused = false)
include hgoes

theorem deliverMcast_refuses (hrefusal : mcastRefusal s die run ≠ none) :
    Answered (deliverMcast s die pkt run mf) die pkt ptRefuse ∧
      Effect [.eph, .flowsTx, .hostMem, .icuTimers, .mcasts, .wakePending, .reg .ephLostCount, .reg .ephSeq, .reg .hifRingHead, .reg .icuPend]
        s (deliverMcast s die pkt run mf) := by
  obtain ⟨reason, hreason⟩ := Option.ne_none_iff_exists'.mp hrefusal
  let u := refusedRec s die .col 0 run.dst .engine reason (bits pkt.word 63 32)
  let r := respond u die pkt ptRefuse pkt.fseq (bits pkt.word 63 32 * 2 ^ 32)
  have hr : Answered r die pkt ptRefuse := by
    have h := answered_respond u die pkt ptRefuse pkt.fseq (low := 0) (by decide)
    rwa [Nat.add_zero] at h
  have hdeliver : ∃ m, deliverMcast s die pkt run mf = { r with mcasts := m } := by
    unfold deliverMcast
    dsimp only
    rw [show (Map.getD s.mcasts (mcastKey die pkt) ⟨0, false, run, none⟩).refused = false from hgoes, if_neg (by simp), hreason]
    exact ⟨_, rfl⟩
  obtain ⟨m, hm⟩ := hdeliver
  rw [hm]
  have hnoted : Effect [.mcasts] r { r with mcasts := m } := effect_set_mcasts _ (by decide) (.refl ..)
  exact ⟨hr.after hnoted (by decide),
    hnoted.step ((respond_effect ..).step ((refusedRec_effect ..).one (by decide)) (by decide)) (by decide)⟩

/-- A packet not refused is written; what follows leaves memory and the flow as they are, and behind the last byte it is acknowledged. -/
theorem deliverMcast_writes (hrefusal : mcastRefusal s die run = none) (hvis : hiddenIn s (mcastBase run pkt) pkt.payload.length = []) :
    let w := landWrite s mf (mcastBase run pkt) pkt.payload fun _ => true
    let t := deliverMcast s die pkt run mf
    Effect (Part.mcasts :: mcastDone_parts) w t ∧
      (run.total ≤ (mcastRx s die pkt run).seen + pkt.payload.length → w.heldWrites = [] → Answered t die pkt ptMcastAck) := by
  intro w t
  let x : McastRx := mcastRx s die pkt run
  let put : Bool → Option Packet → State := fun refused owed =>
    { w with mcasts := if run.total ≤ x.seen + pkt.payload.length && owed.isNone then Map.del w.mcasts (mcastKey die pkt)
                       else Map.put w.mcasts (mcastKey die pkt) ⟨x.seen + pkt.payload.length, refused, run, owed⟩ }
  have ht : t = if x.seen + pkt.payload.length < run.total then put false none
      else if w.heldWrites ≠ [] then put false (some pkt) else mcastDone (put false none) die pkt run := by
    unfold t deliverMcast
    dsimp only
    rw [show (Map.getD s.mcasts (mcastKey die pkt) ⟨0, false, run, none⟩).refused = false from hgoes, if_neg (by simp), hrefusal]
    dsimp only
    rw [show memWrite s .engine mf (run.dst + bits pkt.word 31 0 * 4096) pkt.payload = w from memWrite_of_visible hvis ..]
    rfl
  have hput : ∀ refused owed, Effect [.mcasts] w (put refused owed) := fun refused owed => effect_set_mcasts _ (by decide) (.refl ..)
  have hdone : Effect (Part.mcasts :: mcastDone_parts) w (mcastDone (put false none) die pkt run) :=
    (mcastDone_effect ..).step ((hput ..).one (by decide)) (by decide)
  rw [ht]
  constructor
  · split
    · exact (hput ..).mono (by decide)
    · split
      · exact (hput ..).mono (by decide)
      · exact hdone
  · intro hlast hnone
    rw [if_neg (Nat.not_lt.mpr hlast), if_neg (by simp [hnone])]
    exact answered_respond _ die pkt ptMcastAck pkt.fseq (Nat.mod_lt _ (by decide))

end

/-- No write is held behind one that meets no line of the host's. -/
theorem heldWrites_landWrite {s : State} {base : Nat} {data : Bytes} (hseen : snoopedIn s base data.length = []) (mf : MemFaults)
    (keep : Nat → Bool) : (landWrite s mf base data keep).heldWrites = s.heldWrites := by
  rw [landWrite, (hitGuards_effect ..).frame.same .heldWrites (by decide), storeBytes]
  rw [(lostWrites_effect ..).frame.same .heldWrites (by decide), hseen]
  show (writeCodes s mf base data.length keep).heldWrites ++ [] = _
  rw [List.append_nil]
  exact (writeCodes_effect ..).frame.same .heldWrites (by decide)

theorem mcastRx_arrived (s : State) (die port : Nat) (pkt : Packet) (run : McastRun) :
    mcastRx (arrived s die port pkt) die pkt run = mcastRx s die pkt run := by
  rw [mcastRx, show (arrived s die port pkt).mcasts = s.mcasts from (arrived_effect ..).frame.same .mcasts (by decide), mcastRx]

section
variable {die : Die} {port : Fin 16} {pkt : Packet} {run : McastRun} {s : State} (h : HeardNext s die port ptMcast pkt)
  (hdigest : mcastDigest run = bits pkt.word 63 32) (mf : MemFaults) (hgoes : (mcastRx s die pkt run).refused = false)
include h hdigest hgoes

/-- A destination that takes a multicast's packet: its bytes are in memory, its flow goes on, and the last one is acknowledged. -/
theorem exec_mcast_written (htakes : mcastRefusal s die run = none) (hvis : hiddenIn s (mcastBase run pkt) pkt.payload.length = []) :
    Gives (exec (.mcastReceive die port pkt ⟨run, mf⟩) s) fun t =>
      (mf.writeFails = [] → (snoopedIn s (mcastBase run pkt) pkt.payload.length = [] → ∀ i < pkt.payload.length,
        Map.getD t.mem (mcastBase run pkt + i) 0 = pkt.payload.getD i 0) ∧
          MemSameOutside s t (mcastBase run pkt) pkt.payload.length) ∧ Accepted t die pkt ∧
      (run.total ≤ (mcastRx s die pkt run).seen + pkt.payload.length → s.heldWrites = [] →
        snoopedIn s (mcastBase run pkt) pkt.payload.length = [] → Answered t die pkt ptMcastAck) := by
  have harrived := arrived_effect s die port pkt
  have hrx := mcastRx_arrived s die port pkt run
  have hsnooped := harrived.snoopedIn_same (by decide) (mcastBase run pkt) pkt.payload.length
  obtain ⟨hafter, hack⟩ := deliverMcast_writes mf (hrx ▸ hgoes) ((harrived.mcastRefusal_same (by decide) die run).trans htakes)
    ((harrived.hiddenIn_same (by decide) ..).trans hvis)
  have hmem := hafter.mem_same (by decide)
  refine ⟨_, exec_mcast_next h hdigest, fun hwell => ⟨fun hseen i hi => ?_, ?_⟩, ?_, fun hlast hheld hseen => hack ?_ ?_⟩
  · rw [hmem]
    exact getD_landWrite hwell (hsnooped.trans hseen) hi
  · exact (landWrite_memSameOutside hwell (arrived s die port pkt) _ _ _).of_mem (harrived.mem_same (by decide)).symm hmem
  · exact ((accepted_arrived h).after (landWrite_effect ..) (by decide)).after hafter (by decide)
  · rwa [hrx]
  · rw [heldWrites_landWrite (hsnooped.trans hseen)]
    exact (harrived.frame.same .heldWrites (by decide)).trans hheld

theorem exec_mcast_refused (hrefuses : mcastRefusal s die run ≠ none) :
    Gives (exec (.mcastReceive die port pkt ⟨run, mf⟩) s) fun t => Answered t die pkt ptRefuse ∧ t.mem = s.mem ∧ Accepted t die pkt := by
  have harrived := arrived_effect s die port pkt
  have hrefuses' : mcastRefusal (arrived s die port pkt) die run ≠ none := by rwa [harrived.mcastRefusal_same (by decide)]
  obtain ⟨hanswered, heffect⟩ := deliverMcast_refuses mf ((mcastRx_arrived s die port pkt run).symm ▸ hgoes) hrefuses'
  exact ⟨_, exec_mcast_next h hdigest, hanswered, (heffect.mem_same (by decide)).trans (harrived.mem_same (by decide)),
    (accepted_arrived h).after heffect (by decide)⟩

end

/-! ### Answers to a multicast (R493) -/

theorem exec_mcastAck {die : Die} {port : Fin 16} {pkt : Packet} {s : State} {k : Nat} {c : Collective}
    (h : Heard s die port ptMcastAck pkt) (hrun : mcastRunOf s die pkt = some (k, c)) :
    exec (.mcastAckReceive die port pkt) s = .next (setCol (headed s die port pkt) k { c with acks := c.acks + 1 }) := by
  refine congrArg Host.Outcome.next ((receive_heard h (by decide) (by decide) _).trans ?_)
  rw [(headed_effect ..).mcastRunOf_same (by decide), hrun]

theorem exec_refuse {die : Die} {port : Fin 16} {pkt : Packet} {s : State} {k : Nat} {c : Collective}
    (h : Heard s die port ptRefuse pkt) (hrun : mcastRunOf s die pkt = some (k, c)) :
    exec (.refuseReceive die port pkt) s = .next (setCol (headed s die port pkt) k { c with refusals := c.refusals + 1 }) := by
  refine congrArg Host.Outcome.next ((receive_heard h (by decide) (by decide) _).trans ?_)
  rw [(headed_effect ..).mcastRunOf_same (by decide), hrun]

/-! ### A fenced packet (R470) -/

/-- A flow without one of its retained packets. -/
def fencedFlow (f : FlowTx) (e : Packet × Nat) : FlowTx :=
  { f with retained := f.retained.erase e, cand := if f.retained.erase e = [] then none else f.cand }

/-- A fenced SIGNAL leaves the retention buffer and is counted lost. -/
theorem fencedSignal_lost {die : Die} {port : Fin 16} {pkt : Packet} {vc : Fin 8} {s : State} {e : Packet × Nat}
    (h : Heard s die port ptFenced pkt)
    (hfind : (flowTx s (answeredFlow die pkt vc (bits pkt.word 23 16))).retained.find? (fun e => e.1.fseq = bits pkt.word 15 0) = some e)
    (hsignal : e.1.kind = ptSignal) :
    Gives (exec (.fencedReceive die port pkt vc) s) fun t =>
      (flowTx t (answeredFlow die pkt vc (bits pkt.word 23 16))).retained =
        (flowTx s (answeredFlow die pkt vc (bits pkt.word 23 16))).retained.erase e ∧
      Counts s t F.synLostCount_count die 0 1 := by
  let key := answeredFlow die pkt vc (bits pkt.word 23 16)
  let u := headed s die port pkt
  let v := setFlowTx u key (fencedFlow (flowTx u key) e)
  have hu : flowTx u key = flowTx s key := (headed_effect ..).flowTx_same (by decide) key
  have hv : Effect (.flowsTx :: .reg .fabPortOutstanding :: takeHeader_parts) s (settleOutstanding v die) :=
    (settleOutstanding_effect ..).step ((setFlowTx_effect ..).step ((headed_effect ..).one (by decide)) (by decide)) (by decide)
  refine ⟨signalLost (settleOutstanding v die) die,
    congrArg Host.Outcome.next ((receive_heard h (by decide) (by decide) _).trans ?_), ?_, ?_⟩
  · dsimp only
    rw [show flowTx (headed s die port pkt) (answeredFlow die pkt vc (bits pkt.word 23 16)) = _ from hu, hfind]
    dsimp only
    rw [fencedPacket, if_pos hsignal]
    unfold v fencedFlow
    rw [hu]
  · rw [(signalLost_effect ..).flowTx_same (by decide), (settleOutstanding_effect ..).flowTx_same (by decide), flowTx_setFlowTx_same, hu]
    rfl
  · exact hv.counts_of (by decide) (counts_signalLost ..)

/-! ### A packet of another epoch (R531) -/

theorem exec_stale {die : Die} {port : Fin 16} {pkt : Packet} {adds : List (Fin 4)} {mf : MemFaults} {run : McastRun} {vc : Fin 8}
    {i : Instr} {kind : Nat} {s : State}
    (hi : (i, kind) ∈ [(Instr.dataPacketReceive die port pkt adds mf, ptData), (.mcastReceive die port pkt ⟨run, mf⟩, ptMcast),
      (.signalPacketReceive die port pkt, ptSignal), (.abortReceive die port pkt, ptAbort), (.ackReceive die port pkt vc, ptAck),
      (.mcastAckReceive die port pkt, ptMcastAck), (.refuseReceive die port pkt, ptRefuse), (.fencedReceive die port pkt vc, ptFenced)])
    (hstale : 0 < kind → kind < 9 → ∀ k, receive s die port kind pkt k = dropRec (dropStale (headed s die port pkt) die) die port .fab pkt) :
    exec i s = .next (dropRec (dropStale (headed s die port pkt) die) die port .fab pkt) := by
  simp only [List.mem_cons, Prod.mk.injEq, List.not_mem_nil, or_false] at hi
  rcases hi with ⟨rfl, rfl⟩ | ⟨rfl, rfl⟩ | ⟨rfl, rfl⟩ | ⟨rfl, rfl⟩ | ⟨rfl, rfl⟩ | ⟨rfl, rfl⟩ | ⟨rfl, rfl⟩ | ⟨rfl, rfl⟩ <;>
    exact congrArg Host.Outcome.next (hstale (by decide) (by decide) _)

/-! ### The obligation -/

/-- Settles O45: each kind of packet that is next of its flow has its lemma above, and so has each way a packet is dropped. -/
theorem packetsAreReceivedOrDropped : Obligations.PacketsAreReceivedOrDropped := by
  unfold Obligations.PacketsAreReceivedOrDropped
  refine ⟨?taken, ?answers, ?stale, ?foreign⟩
  case taken =>
    intro die port pkt adds mf run s digest next
    have harrived := arrived_effect s die port pkt
    refine ⟨?data, ?wait, ?abort, ?signal, ?mcast, ?bad, ?late⟩
    case data =>
      intro k c h hjob hnames hcol hwaits
      have hnames' := (colByDigest_of_cols (harrived.cols_same (by decide)) die pkt).trans hnames
      have hcol' := (harrived.colOf_same (by decide) k).trans hcol
      refine ⟨_, exec_data_next h hjob (digestBad_of_now hnames), ?_⟩
      beta_reduce
      rw [deliverData_waiting hnames' hcol' hwaits]
      exact ⟨colOf_setCol_same .., (accepted_arrived h).after (setCol_effect ..) (by decide), harrived.mem_same (by decide)⟩
    case wait =>
      intro h hwait
      have hkept := keepWaiting_effect (arrived s die port pkt) die pkt
      refine ⟨_, exec_data_next h (jobTakes_of_wait hwait) (digestBad_of_wait hwait), ?_⟩
      beta_reduce
      rw [deliverData_wait ((harrived.digestHit_same (by decide) die pkt).trans hwait), waitingAt_keepWaiting]
      refine ⟨?_, (accepted_arrived h).after hkept (by decide), harrived.cols_same (by decide), harrived.mem_same (by decide)⟩
      rw [waitingAt, show (arrived s die port pkt).colWaiting = s.colWaiting from harrived.frame.same .colWaiting (by decide), waitingAt]
    case abort =>
      intro k c h hjob hnames hcol hgoes
      have hnames' := (colByDigest_of_cols (harrived.cols_same (by decide)) die pkt).trans hnames
      have hcol' := (harrived.colOf_same (by decide) k).trans hcol
      have habort := colAbort_effect (arrived s die port pkt) die
      refine ⟨_, exec_abort_next h hjob (digestBad_of_now hnames), ?_⟩
      beta_reduce
      rw [deliverAbort_stops hnames' hcol' hgoes]
      refine ⟨⟨_, colOf_stopRun ((habort.colOf_same (by decide) k).trans hcol') _, rfl, rfl, rfl⟩, ?_,
        ((accepted_arrived h).after habort (by decide)).after (stopRun_effect ..) (by decide)⟩
      exact (stopRun_effect ..).of_counts (by decide) (harrived.counts_of (by decide) (counts_colAbort ..))
    case signal =>
      intro r h hjob hincrement hnear hindex
      refine ⟨_, exec_signal_next h hjob, ?_⟩
      beta_reduce
      rw [deliverPacketSignal_near hincrement hnear hindex]
      refine ⟨⟨⟨false, r.index, r.increment, pkt.src, pkt.stamp, now (arrived s die port pkt) die⟩, ?_, rfl, rfl, rfl⟩,
        (accepted_arrived h).after (setSync_effect ..) (by decide)⟩
      rw [syncOf_setSync_same, harrived.syncOf_same (by decide)]
    case mcast =>
      intro rx base queued h hdigest hgoes
      exact ⟨exec_mcast_written h hdigest mf hgoes, exec_mcast_refused h hdigest mf hgoes⟩
    case bad =>
      intro i kind hi h hjob hheld hbad
      obtain ⟨k, hexec⟩ := exec_bad hi h hjob hbad
      have hhead := headed_effect s die port pkt
      have hdrop := dropDigest_effect (headed s die port pkt) die port pkt
      have hheld' : (flowRx (dropDigest (headed s die port pkt) die port pkt) (rxKey die pkt)).held = [] := by
        rwa [hdrop.flowRx_same (by decide), flowRx_headed]
      have hacked := dropAcked_alone hheld' k
      refine ⟨_, hexec, hacked.of_counts (by decide) (hhead.counts_of (by decide) (counts_dropDigest ..)), ?_, ?_⟩
      · rw [hacked.cols_same (by decide), hdrop.cols_same (by decide), hhead.cols_same (by decide)]
      · rw [hacked.mem_same (by decide), hdrop.mem_same (by decide), hhead.mem_same (by decide)]
    case late =>
      intro i kind hi h hjob
      have hhead := headed_effect s die port pkt
      have hdrop := colDrop_effect (headed s die port pkt) die
      have hack := sendAck_effect (colDrop (headed s die port pkt) die) (rxKey die pkt) pkt.fseq
      refine ⟨_, exec_late hi h hjob, hack.of_counts (by decide) (hhead.counts_of (by decide) (counts_colDrop ..)), ?_, ?_, ?_, ?_⟩
      · exact (hack.cols_same (by decide)).trans ((hdrop.cols_same (by decide)).trans (hhead.cols_same (by decide)))
      · exact (hack.sync_same (by decide)).trans ((hdrop.sync_same (by decide)).trans (hhead.sync_same (by decide)))
      · exact (hack.mem_same (by decide)).trans ((hdrop.mem_same (by decide)).trans (hhead.mem_same (by decide)))
      · rw [dropLate, flowRx_sendAck, hdrop.flowRx_same (by decide), flowRx_headed]
  case answers =>
    intro die port pkt vc s
    refine ⟨fun k c h hrun => ⟨_, exec_mcastAck h hrun, colOf_setCol_same ..⟩,
      fun k c h hrun => ⟨_, exec_refuse h hrun, colOf_setCol_same ..⟩, ?_⟩
    intro e f h hfind hsignal
    exact fencedSignal_lost h hfind hsignal
  case stale =>
    intro die port pkt adds mf run vc i kind s hi hup hfirst hkind hvc hroute hepoch
    have hhead := headed_effect s die port pkt
    have hstale := dropStale_effect (headed s die port pkt) die
    have hrec := dropRec_effect (dropStale (headed s die port pkt) die) die port .fab pkt
    have hall := hrec.after (w := .reg .fabStaleCount :: takeHeader_parts) (by decide)
      ((hstale.after (by decide)) (hhead.mono (by decide)))
    refine ⟨_, exec_stale hi fun hsome hknown k => receive_stale hup hfirst hkind hsome hknown hvc hroute hepoch k, ?_, ?_, ?_, ?_, ?_⟩
    · exact hrec.of_counts (by decide) (hhead.counts_of (by decide) (counts_dropStale ..))
    · exact hall.cols_same (by decide)
    · exact hall.frame.same .flowsTx (by decide)
    · exact hall.frame.same .flowsRx (by decide)
    · exact hall.mem_same (by decide)
  case foreign =>
    intro die port pkt s hup hfirst hforeign
    have hhead := headed_effect s die port pkt
    have hall := (dropMisroute_effect (headed s die port pkt) die).after (w := .reg .fabMisrouteCount :: takeHeader_parts) (by decide)
      (hhead.mono (by decide))
    refine ⟨_, exec_mgmtPacket hup hfirst hforeign, hhead.counts_of (by decide) (counts_dropMisroute ..), ?_, ?_, ?_, ?_, ?_⟩
    · exact hall.cols_same (by decide)
    · exact hall.frame.same .flowsTx (by decide)
    · exact hall.frame.same .flowsRx (by decide)
    · exact hall.sync_same (by decide)
    · exact hall.mem_same (by decide)

end Sys2Proof.Machine
end

section
/-! PROOF. Registers whose writes follow rules of their own: the routing epoch, SID_SET and the interrupt controller (R529, R634 to R640,
R646, R684). -/

namespace Sys2Proof.Machine

/-! ### A write that is acted on (R604, R616, R666, R782) -/

theorem bar0Write_acts {s : State} {b : Sender} {die : Nat} (h : writeActs s b die = true) (blk addr value : Nat) (f : State → State) :
    bar0Write s b die blk addr value f = f (asReached s b die) := by
  have hcross : ∀ sender, rflag (crossBridge s sender die) F.truStatus_recovery 0 0 = rflag s F.truStatus_recovery 0 0 := fun sender => by
    rw [rflag, (crossBridge_effect ..).field_same _ (by decide), rflag]
  simp only [writeActs, writeReaches, Bool.and_eq_true, Bool.or_eq_true, decide_eq_true_eq, Bool.not_eq_true'] at h
  obtain ⟨⟨⟨hpowered, hreaches⟩, hhost⟩, hrecovery⟩ := h
  unfold bar0Write barWrite asReached
  rw [if_neg (by simp [hpowered, hreaches])]
  by_cases hmaster : b.master = .host
  · obtain ⟨hready, hno⟩ := hhost.resolve_left (by simp [hmaster])
    rw [if_neg (by simp [hmaster]), if_neg (by simp [hready]), if_neg (by simp [Option.isNone_iff_eq_none.mp hno]), if_pos hmaster]
    exact if_neg (by simp [hcross, hrecovery])
  · rw [if_pos hmaster, if_neg hmaster]
    exact if_neg (by simp [hcross, hrecovery])

theorem regRefused_recorded (s : State) (m : Master) (r : Reg) (die unit reason value : Nat) :
    Recorded s (regRefused s m r die unit reason value) die := emit_recorded _ _ _ _ _ _ _

theorem rd_regRefused (s : State) (m : Master) (r : Reg) (die unit reason value : Nat) {x : Reg}
    (hx : Part.reg x ∉ [Part.eph, .hostMem, .icuTimers, .wakePending, .reg .ephLostCount, .reg .ephSeq, .reg .hifRingHead, .reg .icuPend])
    (d u : Nat) : rd (regRefused s m r die unit reason value) x d u = rd s x d u :=
  (regRefused_effect ..).frame.same (.reg x) hx d u

/-! ### The routing epoch (R529) -/

theorem routeCtrlWrite_sets {s : State} {die value : Nat} (hjob : jobRuns s = false)
    (hnone : ∀ p < 16, rd s .fabPortOutstanding die p = 0) (m : Master) :
    rf (routeCtrlWrite s m die value) F.fabRouteCtrl_epoch die 0 = bits value 3 0 ∧
      rf (routeCtrlWrite s m die value) F.fabRouteCtrl_routeValid die 0 = bits value 4 4 := by
  unfold routeCtrlWrite
  rw [if_neg (by simp [hjob]), if_neg (by simpa using hnone)]
  dsimp only
  constructor
  · rw [rf_wf_field _ F.fabRouteCtrl_routeValid F.fabRouteCtrl_epoch _ _ _ rfl (by decide) (by decide) (by decide),
      rf_wf_same _ _ _ _ _ (by decide)]
    exact Nat.mod_mod ..
  · rw [rf_wf_same _ _ _ _ _ (by decide)]
    exact Nat.mod_mod ..

theorem routeCtrlWrite_refused {s : State} (hjob : jobRuns s = true) (m : Master) (die value : Nat) :
    rd (routeCtrlWrite s m die value) .fabRouteCtrl die 0 = rd s .fabRouteCtrl die 0 ∧
      Recorded s (routeCtrlWrite s m die value) die := by
  unfold routeCtrlWrite
  rw [if_pos hjob]
  exact ⟨rd_regRefused _ _ _ _ _ _ _ (by decide) .., regRefused_recorded _ _ _ _ _ _ _⟩

/-- The epoch of a value and its commit bit, which the command sets. -/
theorem bits_epochValue (v : Nat) {commit : Nat} (h : commit < 2) :
    bits (setBits v 4 4 commit) 3 0 = bits v 3 0 ∧ bits (setBits v 4 4 commit) 4 4 = commit :=
  ⟨bits_setBits_other _ _ _ _ _ _ le_rfl (by decide) (.inr (by decide)),
    (bits_setBits_same ..).trans (Nat.mod_eq_of_lt h)⟩

/-! ### SID_SET (R684) -/

theorem sidSetWrite_sets {s : State} {die value : Nat} (hmaster : rflag s F.sidCtrl_master 0 0 = true) (hjob : jobRuns s = false)
    (hlater : now s die < value) (hvalue : value < 2 ^ 64) (m : Master) : now (sidSetWrite s m die value) die = value := by
  unfold sidSetWrite
  rw [if_pos (by simp [hmaster, hjob, hlater]), now, rd_wr_same _ _ _ _ _ (by decide)]
  exact Nat.mod_eq_of_lt hvalue

theorem sidSetWrite_refused {s : State} {die value : Nat}
    (h : rflag s F.sidCtrl_master 0 0 = false ∨ jobRuns s = true ∨ value ≤ now s die) (m : Master) :
    now (sidSetWrite s m die value) die = now s die ∧ Recorded s (sidSetWrite s m die value) die := by
  unfold sidSetWrite
  rw [if_neg (by rcases h with h | h | h <;> simp [h])]
  exact ⟨rd_regRefused _ _ _ _ _ _ _ (by decide) .., regRefused_recorded _ _ _ _ _ _ _⟩

/-! ### The interrupt controller (R634 to R640, R646) -/

theorem icuValid_lt (die g : Nat) : icuValid die g < 2 ^ 32 := by
  unfold icuValid
  split <;> (try split) <;> decide

theorem and_icuValid_lt (x die g : Nat) : x &&& icuValid die g < 2 ^ 32 := lt_of_le_of_lt Nat.and_le_right (icuValid_lt die g)

theorem and_icuValid_twice (x die g : Nat) : x &&& icuValid die g &&& icuValid die g = x &&& icuValid die g := by
  rw [Nat.and_assoc, Nat.and_self]

theorem icuSettle_icuPend (s : State) (die g : Nat) : icuPend (icuSettle s die g) die g = icuPend s die g :=
  congrArg (· &&& icuValid die g) ((icuSettle_effect ..).frame.same (.reg .icuPend) (by decide) die g)

theorem icuSettle_icuMask (s : State) (die g : Nat) : icuMask (icuSettle s die g) die g = icuMask s die g :=
  congrArg (· &&& icuValid die g) ((icuSettle_effect ..).frame.same (.reg .icuMask) (by decide) die g)

/-- Firmware's writes, and the host's to a group without sources of a control core, are whole and leave no record. -/
theorem limited_whole {m : Master} {lock old new : Nat} (h : m ≠ .host ∨ lock = 0) (hnew : new < 2 ^ 32) :
    limited m lock old new = new := by
  unfold limited
  split
  next hhost =>
    rw [h.resolve_left (by simp [hhost]), Nat.sub_zero, Nat.and_two_pow_sub_one_of_lt_two_pow hnew, Nat.and_zero, Nat.or_zero]
  next => rfl

theorem limitRefused_whole {m : Master} {lock : Nat} (h : m ≠ .host ∨ lock = 0) (s : State) (r : Reg) (die g old new : Nat) :
    limitRefused s m r die g lock old new = s := by
  refine if_neg ?_
  rcases h with h | h
  · simp [h]
  · simp [h]

/-- The source of the ephemeris while records are held (R678). -/
def heldSource (s : State) (die g : Nat) : Nat := if g = 1 ∧ (ephOf s die).held ≠ [] then 8 else 0

theorem heldSource_valid (s : State) (die g : Nat) : heldSource s die g &&& icuValid die g = heldSource s die g := by
  unfold heldSource
  split
  next h =>
    rw [h.1, show icuValid die 1 = 0x7F by simp [icuValid]]
    rfl
  next => exact Nat.zero_and _

theorem icuPendWrite_pends {s : State} {m : Master} {die g value same : Nat} (h : m ≠ .host ∨ firmwareBits s die g = 0)
    (hvalue : value < 2 ^ 32) : icuPend (icuPendWrite s m die g value same) die g =
      (value ||| same) &&& icuValid die g ||| heldSource s die g := by
  let v := value &&& icuValid die g ||| same &&& icuValid die g ||| heldSource s die g
  have hstays : (if g = 1 && (ephOf s die).held ≠ [] then 8 else 0) = heldSource s die g := by simp [heldSource]
  have hv : v = (value ||| same) &&& icuValid die g ||| heldSource s die g := by
    rw [Nat.and_or_distrib_right]
  have hvalid : v &&& icuValid die g = v := by
    rw [hv, Nat.and_or_distrib_right, and_icuValid_twice, heldSource_valid]
  have hlt : v < 2 ^ 32 := hvalid ▸ and_icuValid_lt v die g
  have hpend : icuPend (wr s .icuPend die g v) die g = v := by
    rw [icuPend, rd_wr_same _ _ _ _ _ (by decide), show v % 2 ^ Reg.icuPend.info.width = v from Nat.mod_eq_of_lt hlt, hvalid]
  unfold icuPendWrite
  dsimp only
  rw [icuSettle_icuPend, limitRefused_whole h, limited_whole h hvalue, hstays, ← hv]
  split
  · exact hpend
  · exact (congrArg (· &&& icuValid die g) ((icuArm_effect ..).frame.same (.reg .icuPend) (by decide) die g)).trans hpend

theorem icuMaskWrite_masks (s : State) (m : Master) (die g value : Nat) : icuMask (icuMaskWrite s m die g value) die g =
    limited m (firmwareBits s die g) (icuMask s die g) value &&& icuValid die g := by
  let v := limited m (firmwareBits s die g) (icuMask s die g) value &&& icuValid die g
  have hmask : icuMask (wr s .icuMask die g v) die g = v := by
    rw [icuMask, rd_wr_same _ _ _ _ _ (by decide),
      show v % 2 ^ Reg.icuMask.info.width = v from Nat.mod_eq_of_lt (and_icuValid_lt ..), and_icuValid_twice]
  have hlimit : ∀ t, icuMask (limitRefused t m .icuMask die g (firmwareBits s die g) (icuMask s die g) value) die g = icuMask t die g :=
    fun t => congrArg (· &&& icuValid die g) ((limitRefused_effect ..).frame.same (.reg .icuMask) (by decide) die g)
  unfold icuMaskWrite
  dsimp only
  rw [icuSettle_icuMask, hlimit]
  split
  · exact hmask
  · exact (congrArg (· &&& icuValid die g) ((icuArm_effect ..).frame.same (.reg .icuMask) (by decide) die g)).trans hmask

theorem icuTargetWrite_sets {s : State} {m : Master} {die src value : Nat} (hvalid : bitOf (icuValid die (src / 32)) (src % 32) = true)
    (hkind : bits value 5 4 ≠ 3) (hmasked : bitOf (icuMask s die (src / 32)) (src % 32) = true)
    (hmay : m ≠ .host ∨ (bits value 5 4 ≠ 1 ∧ bits (rd s .icuTarget die src) 5 4 ≠ 1)) :
    rd (icuTargetWrite s m die src value) .icuTarget die src = bits value 5 4 * 16 + bits value 2 0 := by
  have hlt : bits value 5 4 * 16 + bits value 2 0 < 2 ^ 32 := by
    simp only [bits]
    omega
  unfold icuTargetWrite
  dsimp only
  rw [if_neg (by simp [hvalid]), if_neg (by rcases hmay with h | ⟨h, h'⟩ <;> simp [*])]
  refine ((icuSettle_effect ..).frame.same (.reg .icuTarget) (by decide) die src).trans ?_
  rw [rd_wr_same _ _ _ _ _ (by decide)]
  exact Nat.mod_eq_of_lt hlt

theorem icuTargetWrite_refused {s : State} {m : Master} {die src value : Nat} (hvalid : bitOf (icuValid die (src / 32)) (src % 32) = true)
    (h : bits value 5 4 = 3 ∨ bitOf (icuMask s die (src / 32)) (src % 32) = false ∨
      (m = .host ∧ (bits value 5 4 = 1 ∨ bits (rd s .icuTarget die src) 5 4 = 1))) :
    rd (icuTargetWrite s m die src value) .icuTarget die src = rd s .icuTarget die src ∧
      Recorded s (icuTargetWrite s m die src value) die := by
  unfold icuTargetWrite
  dsimp only
  rw [if_neg (by simp [hvalid]), if_pos (by simpa [or_assoc] using h)]
  exact ⟨rd_regRefused _ _ _ _ _ _ _ (by decide) .., regRefused_recorded _ _ _ _ _ _ _⟩

/-! ### The obligation -/

/-- Settles O16: a write that is acted on reaches its register's rule in the state it finds, and each rule has its lemmas above. -/
theorem ruledRegisterWritesComplete : Obligations.RuledRegisterWritesComplete := by
  unfold Obligations.RuledRegisterWritesComplete
  intro m die s hacts s1
  have hexec : ∀ blk addr value f, Host.Outcome.next (bar0Write s m die blk addr value f) =
      (Host.Outcome.next (f s1) : Host.Outcome State Fault Refusal) := fun blk addr value f =>
    congrArg Host.Outcome.next (bar0Write_acts hacts blk addr value f)
  refine ⟨fun v hjob hnone => ?_, fun v hjob => ?_, fun v hmaster hjob hlater => ?_, fun v hrefused => ?_, fun g v same hwhole => ?_,
    fun g v => ?_, fun src v hvalid => ⟨fun hkind hmasked hmay => ?_, fun hrefused => ?_⟩⟩
  · constructor
    · obtain ⟨hepoch, hcommit⟩ := bits_epochValue v.toNat (commit := 1) (by decide)
      have hset := routeCtrlWrite_sets (value := setBits v.toNat 4 4 1) hjob hnone m.master
      rw [hepoch, hcommit] at hset
      exact ⟨_, hexec .., hset⟩
    · obtain ⟨hepoch, hcommit⟩ := bits_epochValue v.toNat (commit := 0) (by decide)
      have hset := routeCtrlWrite_sets (value := setBits v.toNat 4 4 0) hjob hnone m.master
      rw [hepoch, hcommit] at hset
      exact ⟨_, hexec .., hset⟩
  · exact ⟨⟨_, hexec .., routeCtrlWrite_refused hjob ..⟩, ⟨_, hexec .., routeCtrlWrite_refused hjob ..⟩⟩
  · exact ⟨_, hexec .., sidSetWrite_sets hmaster hjob hlater v.isLt _⟩
  · exact ⟨_, hexec .., sidSetWrite_refused hrefused _⟩
  · refine ⟨_, hexec .., (icuPendWrite_pends hwhole v.isLt).trans ?_⟩
    simp only [heldSource, Fin.ext_iff]
    rfl
  · exact ⟨_, hexec .., icuMaskWrite_masks ..⟩
  · exact ⟨_, hexec .., icuTargetWrite_sets hvalid hkind hmasked hmay⟩
  · exact ⟨_, hexec .., icuTargetWrite_refused hvalid hrefused⟩

end Sys2Proof.Machine
end
